-- ==== Sys2Proof/Config.lean ====
section
/-! DEFINITION. What the spec leaves open, as constants without a body: nothing in Lean can evaluate them, so a claim holds whatever they
are. Each is applied to a counter of the state, or to the bytes it depends on. -/

namespace Sys2Proof

/-- Free 64-bit values: random numbers, nonces, keys and jitter the spec does not fix (spec 16 R420; 17 R438; 18 R457, R466, R468;
log entry 4). -/
opaque Config.freeWord : Nat → Word

/-- The boot id of each boot: 64 random bits (spec 18 R468; log entry 4). -/
opaque Config.bootId : Nat → Word

/-- A signature, tag or certificate byte string over the given bytes (spec 18 R466, R468; log entry 10): the algorithm's output bytes are
not part of the spec's text. -/
opaque Config.signature : Nat → List Byte → List Byte

/-- The result of a conversion between integer types of one width and opposite signedness whose value the destination cannot hold: spec 04 R120
states none (log entry 33). The arguments are the two type codes and the lane. -/
opaque Config.sameWidth : Nat → Nat → Nat → Word

/-- The phase bit of the first pass over an outbound ring, by function: the spec says it inverts at each wrap, and no more (spec 17 R449; log
entry 52). -/
opaque Config.ringPhase : Nat → Bool

/-- Lanes of the die-to-die bridge in each direction: a failed one shrinks its capacity in proportion, and the spec gives no number of them (spec
17 R435; log entry 36). -/
opaque Config.bridgeLanes : Nat

/-- The slot of the mailbox in which a message stands, by the model's number of the message: the spec does not say how slots are numbered (spec 16
R407; log entry 16). -/
opaque Config.mailSlot : Nat → BitVec 7

/-- Where in its state area the resident handler keeps the last attention record (spec 16 R408; log entry 131). -/
opaque Config.attentionPlace : BitVec 11

/-- The CARVE count of a slice of another module, by module and pseudo-channel: it stands there alone (spec 12 R320; log entry 132). -/
opaque Config.remoteCarve : BitVec 12 → Nat → BitVec 3

/-- What the two ends of a Bramble port agree on by their key exchange, which the spec gives by name alone: the shared secret of a session, the salt and info
of its key derivation, and the IV salt of the other end, by port, session and a number that says which (spec 17 R438; log entry 134). -/
opaque Config.portSecret : Nat → Nat → Nat → List Byte

/-- Whether the agent in focus moves before the oldest event that has come due: the spec orders agents and events only where a rule says so
(log entry 3). -/
opaque Config.agentFirst : Nat → Bool

end Sys2Proof
end

