-- ==== Sys2Proof/Syntax.lean ====
section
/-! DEFINITION. The syntax: one constructor per row of the opcode table. L-code words (spec 03 R81, R91) carry
the header h common to every format; D-code rows are the words of one slot (spec 03 R95); event rows are the
indivisible steps of the module's agents (spec 95). An event has no encoding: which unit, message or input it is about stands in the
occurrence (Occ) that names it. -/

namespace Sys2Proof

/-- Bits 31:27 of every L-code word (spec 03 R81): stop, negate and the guard predicate. -/
structure Hdr where
  stop : Bool
  neg : Bool
  gp : BitVec 3
  deriving DecidableEq, Repr

/-- Element types, the codes 0x0 to 0xE of SHAPE.ETYPE (spec 01 R20). -/
inductive ETy where
  | i8 | i16 | i32 | i64 | n8 | n16 | n32 | n64 | f64 | f32 | f16 | bf16 | e4m3 | e5m2 | fx64
  deriving DecidableEq, Repr

/-- The type field of a vector or row word: SHAPE.ETYPE (code 0xF) or a type of its own (spec 03 R90). -/
inductive VTy where
  | shape
  | of (e : ETy)
  deriving DecidableEq, Repr

/-- Scalar floating-point types (spec 06 R154, R159). -/
inductive FTy where
  | f64 | f32 | f16 | bf16 | e4m3 | e5m2
  deriving DecidableEq, Repr

/-- The size field of LM (spec 03 R90). -/
inductive MSize where
  | b1 | b2 | b4 | b8
  deriving DecidableEq, Repr

/-- Field of an address generator that agset writes (spec 10 R280). -/
inductive AgSel where
  | base | stride | count
  deriving DecidableEq, Repr

/-- Register that dmfs reads (spec 10 R276). -/
inductive DReg where
  | dcause | dtpc | dtval | job
  deriving DecidableEq, Repr

/-- A Bramble packet as it reaches a port after decryption (spec 17 R439). -/
structure BPacket where
  dst : BitVec 12
  kind : BitVec 4
  src : BitVec 12
  part : BitVec 3
  merge : Bool
  tseq : BitVec 32
  cls : BitVec 3
  poison : Bool
  skip : Bool
  noord : Bool
  /-- bits the layout gives as zero, gathered -/
  zeros : BitVec 5
  ord : BitVec 8
  srank : BitVec 24
  sctx : BitVec 4
  unit : Bool
  w0 : BitVec 64
  w1 : BitVec 64
  body : List (BitVec 8)
  /-- the packet's authentication tag verifies (spec 17 R438) -/
  tagOk : Bool
  deriving DecidableEq, Repr

/-- The operands of an occurrence of an event; each event's docstring says which fields it reads. -/
structure Occ where
  a : Nat := 0
  b : Nat := 0
  c : Nat := 0
  v : BitVec 64 := 0
  flag : Bool := false
  bytes : List (BitVec 8) := []
  pkt : Option BPacket := none
  deriving DecidableEq, Repr

/-- The instructions and events of the opcode table. -/
inductive Instr where
  /-- ADD (R134). Writes g[rd] := g[ra] + g[rb] modulo 2^64, with tag 0. -/
  | add (h : Hdr) (rd : BitVec 4) (ra : BitVec 4) (rb : BitVec 4)
  /-- SUB (R134). Writes g[rd] := g[ra] - g[rb] modulo 2^64. -/
  | sub (h : Hdr) (rd : BitVec 4) (ra : BitVec 4) (rb : BitVec 4)
  /-- AND (R134). Writes the bitwise AND of g[ra] and g[rb]. -/
  | andR (h : Hdr) (rd : BitVec 4) (ra : BitVec 4) (rb : BitVec 4)
  /-- OR (R134). Writes the bitwise OR of g[ra] and g[rb]. -/
  | orR (h : Hdr) (rd : BitVec 4) (ra : BitVec 4) (rb : BitVec 4)
  /-- XOR (R134). Writes the bitwise XOR of g[ra] and g[rb]. -/
  | xorR (h : Hdr) (rd : BitVec 4) (ra : BitVec 4) (rb : BitVec 4)
  /-- ANDN (R134). Writes g[ra] AND NOT g[rb]. -/
  | andn (h : Hdr) (rd : BitVec 4) (ra : BitVec 4) (rb : BitVec 4)
  /-- SLL (R134). Shifts g[ra] left by g[rb][5:0], zero-filled. -/
  | sll (h : Hdr) (rd : BitVec 4) (ra : BitVec 4) (rb : BitVec 4)
  /-- SRL (R134). Shifts g[ra] right logically by g[rb][5:0]. -/
  | srl (h : Hdr) (rd : BitVec 4) (ra : BitVec 4) (rb : BitVec 4)
  /-- SRA (R134). Shifts g[ra] right arithmetically by g[rb][5:0]. -/
  | sra (h : Hdr) (rd : BitVec 4) (ra : BitVec 4) (rb : BitVec 4)
  /-- MUL (R134). Writes the low 64 bits of g[ra] × g[rb]. -/
  | mul (h : Hdr) (rd : BitVec 4) (ra : BitVec 4) (rb : BitVec 4)
  /-- MULH (R134). Writes bits 127:64 of the signed 128-bit product. -/
  | mulh (h : Hdr) (rd : BitVec 4) (ra : BitVec 4) (rb : BitVec 4)
  /-- DIV (R135). Writes the signed quotient truncated toward zero, with defined edge cases. -/
  | divS (h : Hdr) (rd : BitVec 4) (ra : BitVec 4) (rb : BitVec 4)
  /-- DIVU (R135). Writes the unsigned quotient, all ones for a zero divisor. -/
  | divu (h : Hdr) (rd : BitVec 4) (ra : BitVec 4) (rb : BitVec 4)
  /-- REM (R135). Writes the signed remainder, taking the sign of the dividend. -/
  | remS (h : Hdr) (rd : BitVec 4) (ra : BitVec 4) (rb : BitVec 4)
  /-- REMU (R135). Writes the unsigned remainder. -/
  | remu (h : Hdr) (rd : BitVec 4) (ra : BitVec 4) (rb : BitVec 4)
  /-- MIN (R134). Writes the signed minimum of the two sources. -/
  | minS (h : Hdr) (rd : BitVec 4) (ra : BitVec 4) (rb : BitVec 4)
  /-- MAX (R134). Writes the signed maximum of the two sources. -/
  | maxS (h : Hdr) (rd : BitVec 4) (ra : BitVec 4) (rb : BitVec 4)
  /-- MINU (R134). Writes the unsigned minimum of the two sources. -/
  | minu (h : Hdr) (rd : BitVec 4) (ra : BitVec 4) (rb : BitVec 4)
  /-- MAXU (R134). Writes the unsigned maximum of the two sources. -/
  | maxu (h : Hdr) (rd : BitVec 4) (ra : BitVec 4) (rb : BitVec 4)
  /-- MOV (R134). Copies g[ra] and its tag into g[rd]. -/
  | mov (h : Hdr) (rd : BitVec 4) (ra : BitVec 4)
  /-- CLZ (R134). Writes the count of leading zero bits of g[ra]. -/
  | clz (h : Hdr) (rd : BitVec 4) (ra : BitVec 4)
  /-- POPC (R134). Writes the count of 1 bits of g[ra]. -/
  | popc (h : Hdr) (rd : BitVec 4) (ra : BitVec 4)
  /-- ADDI (R136). Adds a sign-extended 13-bit immediate to g[ra]. -/
  | addi (h : Hdr) (rd : BitVec 4) (ra : BitVec 4) (imm : BitVec 13)
  /-- ANDI (R136). ANDs g[ra] with a sign-extended 13-bit immediate. -/
  | andi (h : Hdr) (rd : BitVec 4) (ra : BitVec 4) (imm : BitVec 13)
  /-- ORI (R136). ORs g[ra] with a sign-extended 13-bit immediate. -/
  | ori (h : Hdr) (rd : BitVec 4) (ra : BitVec 4) (imm : BitVec 13)
  /-- XORI (R136). XORs g[ra] with a sign-extended 13-bit immediate. -/
  | xori (h : Hdr) (rd : BitVec 4) (ra : BitVec 4) (imm : BitVec 13)
  /-- SLLI (R137). Shifts g[ra] left by an immediate amount. -/
  | slli (h : Hdr) (rd : BitVec 4) (ra : BitVec 4) (amt : BitVec 6)
  /-- SRLI (R137). Shifts g[ra] right logically by an immediate amount. -/
  | srli (h : Hdr) (rd : BitVec 4) (ra : BitVec 4) (amt : BitVec 6)
  /-- SRAI (R137). Shifts g[ra] right arithmetically by an immediate amount. -/
  | srai (h : Hdr) (rd : BitVec 4) (ra : BitVec 4) (amt : BitVec 6)
  /-- LUI (R138). Writes SignExt(imm17) × 0x2000. -/
  | lui (h : Hdr) (rd : BitVec 4) (imm : BitVec 17)
  /-- AUIPC (R138). Writes its own address plus SignExt(imm17) × 0x2000. -/
  | auipc (h : Hdr) (rd : BitVec 4) (imm : BitVec 17)
  /-- CMP_EQ (R140). Sets pD when the registers are equal. -/
  | cmpEq (h : Hdr) (rd : BitVec 4) (ra : BitVec 4) (rb : BitVec 4)
  /-- CMP_NE (R140). Sets pD when the registers differ. -/
  | cmpNe (h : Hdr) (rd : BitVec 4) (ra : BitVec 4) (rb : BitVec 4)
  /-- CMP_LT (R140). Sets pD when a < b signed. -/
  | cmpLt (h : Hdr) (rd : BitVec 4) (ra : BitVec 4) (rb : BitVec 4)
  /-- CMP_GE (R140). Sets pD when a ≥ b signed. -/
  | cmpGe (h : Hdr) (rd : BitVec 4) (ra : BitVec 4) (rb : BitVec 4)
  /-- CMP_LTU (R140). Sets pD when a < b unsigned. -/
  | cmpLtu (h : Hdr) (rd : BitVec 4) (ra : BitVec 4) (rb : BitVec 4)
  /-- CMP_GEU (R140). Sets pD when a ≥ b unsigned. -/
  | cmpGeu (h : Hdr) (rd : BitVec 4) (ra : BitVec 4) (rb : BitVec 4)
  /-- CMPI_EQ (R140). Sets pD when g[ra] equals the signed imm10. -/
  | cmpiEq (h : Hdr) (rd : BitVec 4) (ra : BitVec 4) (imm : BitVec 10)
  /-- CMPI_NE (R140). Sets pD when g[ra] differs from the signed imm10. -/
  | cmpiNe (h : Hdr) (rd : BitVec 4) (ra : BitVec 4) (imm : BitVec 10)
  /-- CMPI_LT (R140). Sets pD when g[ra] is below the signed imm10. -/
  | cmpiLt (h : Hdr) (rd : BitVec 4) (ra : BitVec 4) (imm : BitVec 10)
  /-- CMPI_GE (R140). Sets pD when g[ra] is at least the signed imm10. -/
  | cmpiGe (h : Hdr) (rd : BitVec 4) (ra : BitVec 4) (imm : BitVec 10)
  /-- CMPI_LTU (R140). Sets pD when g[ra] is below the unsigned imm10. -/
  | cmpiLtu (h : Hdr) (rd : BitVec 4) (ra : BitVec 4) (imm : BitVec 10)
  /-- CMPI_GEU (R140). Sets pD when g[ra] is at least the unsigned imm10. -/
  | cmpiGeu (h : Hdr) (rd : BitVec 4) (ra : BitVec 4) (imm : BitVec 10)
  /-- PAND (R141). pd := pa AND pb. -/
  | pand (h : Hdr) (rd : BitVec 4) (ra : BitVec 4) (rb : BitVec 4)
  /-- POR (R141). pd := pa OR pb. -/
  | por (h : Hdr) (rd : BitVec 4) (ra : BitVec 4) (rb : BitVec 4)
  /-- PXOR (R141). pd := pa XOR pb. -/
  | pxor (h : Hdr) (rd : BitVec 4) (ra : BitVec 4) (rb : BitVec 4)
  /-- PANDN (R141). pd := pa AND NOT pb. -/
  | pandn (h : Hdr) (rd : BitVec 4) (ra : BitVec 4) (rb : BitVec 4)
  /-- PNOT (R141). pd := NOT pa. -/
  | pnot (h : Hdr) (rd : BitVec 4) (ra : BitVec 4)
  /-- PSET (R141). Sets pd to the value in bit 13. -/
  | pset (h : Hdr) (rd : BitVec 4) (val : Bool)
  /-- PRD (R141). Copies the predicate word into g[rd]. -/
  | prd (h : Hdr) (rd : BitVec 4)
  /-- PWR (R141). Writes p1–p15 from g[ra][15:1]. -/
  | pwr (h : Hdr) (ra : BitVec 4)
  /-- BR (R144). Branches PC-relative, checking the target as R142 gives. -/
  | br (h : Hdr) (off : BitVec 21)
  /-- CALL (R144). Branches PC-relative and writes the return address to g15. -/
  | call (h : Hdr) (off : BitVec 21)
  /-- JR (R145). Jumps to g[ra][31:0]. -/
  | jr (h : Hdr) (ra : BitVec 4)
  /-- JALR (R145). Jumps to g[ra][31:0] and writes the return address to g[rd]. -/
  | jalr (h : Hdr) (rd : BitVec 4) (ra : BitVec 4)
  /-- LOOP (R146). Enters the body decrementing g[ra], or leaves past the body when it is zero. -/
  | loopW (h : Hdr) (ra : BitVec 4) (imm : BitVec 13)
  /-- LD (R185). Loads 1 to 8 bytes from tile, inbox view, L1 or home into g[rd]. -/
  | ld (h : Hdr) (rd : BitVec 4) (ra : BitVec 4) (size : MSize) (ext : Bool) (imm : BitVec 10)
  /-- ST (R185). Stores 1 to 8 bytes of g[rd] to tile memory or posts it to the home. -/
  | st (h : Hdr) (rd : BitVec 4) (ra : BitVec 4) (size : MSize) (imm : BitVec 10)
  /-- LD_NC (R185). Loads bypassing the L1. -/
  | ldNc (h : Hdr) (rd : BitVec 4) (ra : BitVec 4) (size : MSize) (ext : Bool) (imm : BitVec 10)
  /-- LDW (R188). Loads 32 bytes into a vector register. -/
  | ldw (h : Hdr) (wv : BitVec 3) (ra : BitVec 4) (imm : BitVec 10)
  /-- STW (R188). Stores 32 bytes from a vector register. -/
  | stw (h : Hdr) (wv : BitVec 3) (ra : BitVec 4) (imm : BitVec 10)
  /-- LDV (R190). Versioned 8-byte load within a stamp window, parking or using the prior bank. -/
  | ldv (h : Hdr) (rd : BitVec 4) (ra : BitVec 4) (rb : BitVec 4)
  /-- LDV_W (R190). Versioned 32-byte load into a vector register. -/
  | ldvW (h : Hdr) (wv : BitVec 3) (ra : BitVec 4) (rb : BitVec 4)
  /-- STV (R191). Versioned 8-byte store with a stamp, banking the prior copy. -/
  | stv (h : Hdr) (rd : BitVec 4) (ra : BitVec 4) (rb : BitVec 4)
  /-- STV_W (R191). Versioned 32-byte store from a vector register. -/
  | stvW (h : Hdr) (wv : BitVec 3) (ra : BitVec 4) (rb : BitVec 4)
  /-- ATOM_ADD (R194). Atomic wrapping add, returning the old value. -/
  | atomAdd (h : Hdr) (rd : BitVec 4) (ra : BitVec 4) (rb : BitVec 4) (sys : Bool) (dbl : Bool)
  /-- ATOM_AND (R194). Atomic AND, returning the old value. -/
  | atomAnd (h : Hdr) (rd : BitVec 4) (ra : BitVec 4) (rb : BitVec 4) (sys : Bool) (dbl : Bool)
  /-- ATOM_OR (R194). Atomic OR, returning the old value. -/
  | atomOr (h : Hdr) (rd : BitVec 4) (ra : BitVec 4) (rb : BitVec 4) (sys : Bool) (dbl : Bool)
  /-- ATOM_XOR (R194). Atomic XOR, returning the old value. -/
  | atomXor (h : Hdr) (rd : BitVec 4) (ra : BitVec 4) (rb : BitVec 4) (sys : Bool) (dbl : Bool)
  /-- ATOM_SMIN (R194). Atomic signed minimum. -/
  | atomSmin (h : Hdr) (rd : BitVec 4) (ra : BitVec 4) (rb : BitVec 4) (sys : Bool) (dbl : Bool)
  /-- ATOM_SMAX (R194). Atomic signed maximum. -/
  | atomSmax (h : Hdr) (rd : BitVec 4) (ra : BitVec 4) (rb : BitVec 4) (sys : Bool) (dbl : Bool)
  /-- ATOM_SWAP (R194). Atomic exchange. -/
  | atomSwap (h : Hdr) (rd : BitVec 4) (ra : BitVec 4) (rb : BitVec 4) (sys : Bool) (dbl : Bool)
  /-- ATOM_CAS (R194). Atomic compare and swap against g[rd]. -/
  | atomCas (h : Hdr) (rd : BitVec 4) (ra : BitVec 4) (rb : BitVec 4) (sys : Bool) (dbl : Bool)
  /-- ATOM_FADD_F32 (R194). Atomic f32 add rounded to nearest even. -/
  | atomFaddF32 (h : Hdr) (rd : BitVec 4) (ra : BitVec 4) (rb : BitVec 4) (sys : Bool)
  /-- ATOM_FADD_F64 (R194). Atomic f64 add rounded to nearest even. -/
  | atomFaddF64 (h : Hdr) (rd : BitVec 4) (ra : BitVec 4) (rb : BitVec 4) (sys : Bool)
  /-- AACC (R198). Posts a row contribution to be accumulated atomically at the home. -/
  | aacc (h : Hdr) (rd : BitVec 4) (ra : BitVec 4) (rb : BitVec 4)
  /-- AACC_L (R199). Adds a row contribution into an update-only line of this core's slice. -/
  | aaccL (h : Hdr) (rd : BitVec 4) (ra : BitVec 4) (rb : BitVec 4)
  /-- FENCE_ACQ (R201). Invalidates L1 lines in the range and blocks until done. -/
  | fenceAcq (h : Hdr) (ra : BitVec 4) (rb : BitVec 4)
  /-- FENCE_REL (R201). Blocks until earlier stores in the range are performed at their homes on this module. -/
  | fenceRel (h : Hdr) (ra : BitVec 4) (rb : BitVec 4)
  /-- FENCE_FULL (R201). fence.rel followed by fence.acq. -/
  | fenceFull (h : Hdr) (ra : BitVec 4) (rb : BitVec 4)
  /-- FENCE_X (R201). fence.full that also makes stores, tile ones included, visible to later engine operations. -/
  | fenceX (h : Hdr) (ra : BitVec 4) (rb : BitVec 4)
  /-- FENCE_ACQ_SYS (R202). fence.acq that writes a zero status word. -/
  | fenceAcqSys (h : Hdr) (rd : BitVec 4) (ra : BitVec 4) (rb : BitVec 4)
  /-- FENCE_REL_SYS (R202). fence.rel covering every module, writing a status word after LINKWAIT. -/
  | fenceRelSys (h : Hdr) (rd : BitVec 4) (ra : BitVec 4) (rb : BitVec 4)
  /-- FENCE_FULL_SYS (R202). fence.full at system scope with a status word. -/
  | fenceFullSys (h : Hdr) (rd : BitVec 4) (ra : BitVec 4) (rb : BitVec 4)
  /-- FENCE_X_SYS (R202). fence.x at system scope with a status word. -/
  | fenceXSys (h : Hdr) (rd : BitVec 4) (ra : BitVec 4) (rb : BitVec 4)
  /-- L1INV (R203). Invalidates L1 lines meeting the range and waits for it. -/
  | l1inv (h : Hdr) (ra : BitVec 4) (rb : BitVec 4)
  /-- L1PF (R203). Starts L1 fills for absent lines of the range. -/
  | l1pf (h : Hdr) (ra : BitVec 4) (rb : BitVec 4)
  /-- SEAL (R206). Creates a seal-table entry for a tile buffer. -/
  | seal (h : Hdr) (ra : BitVec 4)
  /-- UNSEAL (R207). Marks a seal entry UNSEALING, removing it and resuming when its count is 0. -/
  | unseal (h : Hdr) (ra : BitVec 4) (rb : BitVec 4)
  /-- RECLAIM (R193). Raises a versioned region's reclaim floor at every home and slice and waits for their acknowledgements. -/
  | reclaim (h : Hdr) (ra : BitVec 4) (rb : BitVec 4)
  /-- CLOSE (R209). Flushes update-only lines of a table, sends close notices for step t and waits. -/
  | closeStep (h : Hdr) (rd : BitVec 4) (ra : BitVec 4) (rb : BitVec 4)
  /-- HMAKE (R204). Builds a tagged buffer handle. -/
  | hmake (h : Hdr) (rd : BitVec 4) (ra : BitVec 4) (rb : BitVec 4)
  /-- HNARROW (R205). Builds a narrower handle inside a tagged handle. -/
  | hnarrow (h : Hdr) (rd : BitVec 4) (ra : BitVec 4) (rb : BitVec 4)
  /-- FADD (R154). Scalar floating-point add. -/
  | fadd (h : Hdr) (rd : BitVec 4) (ra : BitVec 4) (rb : BitVec 4) (ty : FTy)
  /-- FSUB (R154). Scalar floating-point subtract. -/
  | fsub (h : Hdr) (rd : BitVec 4) (ra : BitVec 4) (rb : BitVec 4) (ty : FTy)
  /-- FMUL (R154). Scalar floating-point multiply. -/
  | fmul (h : Hdr) (rd : BitVec 4) (ra : BitVec 4) (rb : BitVec 4) (ty : FTy)
  /-- FDIV (R154). Scalar floating-point divide. -/
  | fdiv (h : Hdr) (rd : BitVec 4) (ra : BitVec 4) (rb : BitVec 4) (ty : FTy)
  /-- FMIN (R155). Scalar floating-point minimum. -/
  | fmin (h : Hdr) (rd : BitVec 4) (ra : BitVec 4) (rb : BitVec 4) (ty : FTy)
  /-- FMAX (R155). Scalar floating-point maximum. -/
  | fmax (h : Hdr) (rd : BitVec 4) (ra : BitVec 4) (rb : BitVec 4) (ty : FTy)
  /-- FSQRT (R154). Scalar floating-point square root. -/
  | fsqrt (h : Hdr) (rd : BitVec 4) (ra : BitVec 4) (ty : FTy)
  /-- FNEG (R156). Inverts the sign bit. -/
  | fneg (h : Hdr) (rd : BitVec 4) (ra : BitVec 4) (ty : FTy)
  /-- FMA (R157). Fused a × b + g[rd] with one rounding. -/
  | fma (h : Hdr) (rd : BitVec 4) (ra : BitVec 4) (rb : BitVec 4) (ty : FTy)
  /-- FMS (R157). Fused a × b - g[rd] with one rounding. -/
  | fms (h : Hdr) (rd : BitVec 4) (ra : BitVec 4) (rb : BitVec 4) (ty : FTy)
  /-- FCMP_EQ (R158). Sets pD when the floats are equal. -/
  | fcmpEq (h : Hdr) (rd : BitVec 4) (ra : BitVec 4) (rb : BitVec 4) (ty : FTy)
  /-- FCMP_LT (R158). Sets pD when a < b. -/
  | fcmpLt (h : Hdr) (rd : BitVec 4) (ra : BitVec 4) (rb : BitVec 4) (ty : FTy)
  /-- FCMP_LE (R158). Sets pD when a ≤ b. -/
  | fcmpLe (h : Hdr) (rd : BitVec 4) (ra : BitVec 4) (rb : BitVec 4) (ty : FTy)
  /-- FCMP_UN (R158). Sets pD when either operand is NaN. -/
  | fcmpUn (h : Hdr) (rd : BitVec 4) (ra : BitVec 4) (rb : BitVec 4) (ty : FTy)
  /-- FCVT_F2F (R159). Converts float type S to float type T. -/
  | fcvtF2f (h : Hdr) (rd : BitVec 4) (ra : BitVec 4) (ty : FTy) (src : FTy)
  /-- FCVT_F2I (R159). Converts a float to i64. -/
  | fcvtF2i (h : Hdr) (rd : BitVec 4) (ra : BitVec 4) (ty : FTy)
  /-- FCVT_F2U (R159). Converts a float to n64. -/
  | fcvtF2u (h : Hdr) (rd : BitVec 4) (ra : BitVec 4) (ty : FTy)
  /-- FCVT_I2F (R159). Converts an i64 to a float. -/
  | fcvtI2f (h : Hdr) (rd : BitVec 4) (ra : BitVec 4) (ty : FTy)
  /-- FCVT_U2F (R159). Converts an n64 to a float. -/
  | fcvtU2f (h : Hdr) (rd : BitVec 4) (ra : BitVec 4) (ty : FTy)
  /-- FCLASS (R160). Writes a one-hot class of the float encoding. -/
  | fclass (h : Hdr) (rd : BitVec 4) (ra : BitVec 4) (ty : FTy)
  /-- VADD (R165). Lane-wise add through a result latch. -/
  | vadd (h : Hdr) (wd : BitVec 3) (wa : BitVec 3) (wb : BitVec 3) (ty : VTy)
  /-- VSUB (R165). Lane-wise subtract. -/
  | vsub (h : Hdr) (wd : BitVec 3) (wa : BitVec 3) (wb : BitVec 3) (ty : VTy)
  /-- VMUL (R165). Lane-wise multiply. -/
  | vmul (h : Hdr) (wd : BitVec 3) (wa : BitVec 3) (wb : BitVec 3) (ty : VTy)
  /-- VMIN (R165). Lane-wise minimum. -/
  | vmin (h : Hdr) (wd : BitVec 3) (wa : BitVec 3) (wb : BitVec 3) (ty : VTy)
  /-- VMAX (R165). Lane-wise maximum. -/
  | vmax (h : Hdr) (wd : BitVec 3) (wa : BitVec 3) (wb : BitVec 3) (ty : VTy)
  /-- VABS (R165). Lane-wise absolute value. -/
  | vabs (h : Hdr) (wd : BitVec 3) (wa : BitVec 3) (ty : VTy)
  /-- VNEG (R165). Lane-wise negation. -/
  | vneg (h : Hdr) (wd : BitVec 3) (wa : BitVec 3) (ty : VTy)
  /-- VAND (R165). Lane-wise bitwise AND. -/
  | vand (h : Hdr) (wd : BitVec 3) (wa : BitVec 3) (wb : BitVec 3) (ty : VTy)
  /-- VOR (R165). Lane-wise bitwise OR. -/
  | vor (h : Hdr) (wd : BitVec 3) (wa : BitVec 3) (wb : BitVec 3) (ty : VTy)
  /-- VXOR (R165). Lane-wise bitwise XOR. -/
  | vxor (h : Hdr) (wd : BitVec 3) (wa : BitVec 3) (wb : BitVec 3) (ty : VTy)
  /-- VSHL (R165). Lane-wise shift left. -/
  | vshl (h : Hdr) (wd : BitVec 3) (wa : BitVec 3) (wb : BitVec 3) (ty : VTy)
  /-- VSHR (R165). Lane-wise shift right. -/
  | vshr (h : Hdr) (wd : BitVec 3) (wa : BitVec 3) (wb : BitVec 3) (ty : VTy)
  /-- VFMA (R166). Lane-wise fused a × b + c. -/
  | vfma (h : Hdr) (wd : BitVec 3) (wa : BitVec 3) (wb : BitVec 3) (wc : BitVec 3) (ty : VTy)
  /-- VFMS (R166). Lane-wise fused a × b - c. -/
  | vfms (h : Hdr) (wd : BitVec 3) (wa : BitVec 3) (wb : BitVec 3) (wc : BitVec 3) (ty : VTy)
  /-- VCVT (R167). Converts lanes from SHAPE.ETYPE to T. -/
  | vcvt (h : Hdr) (wd : BitVec 3) (wa : BitVec 3) (ty : VTy)
  /-- VPACK (R168). Narrows two registers into one. -/
  | vpack (h : Hdr) (wd : BitVec 3) (wa : BitVec 3) (wb : BitVec 3) (ty : VTy)
  /-- VUNPKLO (R168). Widens the low half of the lanes. -/
  | vunpklo (h : Hdr) (wd : BitVec 3) (wa : BitVec 3) (ty : VTy)
  /-- VUNPKHI (R168). Widens the high half of the lanes. -/
  | vunpkhi (h : Hdr) (wd : BitVec 3) (wa : BitVec 3) (ty : VTy)
  /-- VSWP2 (R169). Swaps each even lane with the odd lane above it. -/
  | vswp2 (h : Hdr) (wd : BitVec 3) (wa : BitVec 3) (ty : VTy)
  /-- VREV (R169). Reverses the lanes. -/
  | vrev (h : Hdr) (wd : BitVec 3) (wa : BitVec 3) (ty : VTy)
  /-- VSHUF (R169). Permutes lanes by the indices in wb. -/
  | vshuf (h : Hdr) (wd : BitVec 3) (wa : BitVec 3) (wb : BitVec 3) (ty : VTy)
  /-- VROT (R169). Rotates lanes by k. -/
  | vrot (h : Hdr) (wd : BitVec 3) (wa : BitVec 3) (k : BitVec 5) (ty : VTy)
  /-- VBCAST (R169). Broadcasts lane k. -/
  | vbcast (h : Hdr) (wd : BitVec 3) (wa : BitVec 3) (k : BitVec 5) (ty : VTy)
  /-- VEXT (R170). Extracts lane k into a general register. -/
  | vext (h : Hdr) (wv : BitVec 3) (rg : BitVec 4) (k : BitVec 5) (ty : VTy)
  /-- VINS (R170). Inserts a general register into lane k. -/
  | vins (h : Hdr) (wv : BitVec 3) (rg : BitVec 4) (k : BitVec 5) (ty : VTy)
  /-- VSPLAT (R170). Writes a general register into every lane. -/
  | vsplat (h : Hdr) (wv : BitVec 3) (rg : BitVec 4) (ty : VTy)
  /-- VCMP_EQ (R171). Lane-wise equality mask. -/
  | vcmpEq (h : Hdr) (wd : BitVec 3) (wa : BitVec 3) (wb : BitVec 3) (ty : VTy)
  /-- VCMP_LT (R171). Lane-wise less-than mask. -/
  | vcmpLt (h : Hdr) (wd : BitVec 3) (wa : BitVec 3) (wb : BitVec 3) (ty : VTy)
  /-- VCMP_LE (R171). Lane-wise less-or-equal mask. -/
  | vcmpLe (h : Hdr) (wd : BitVec 3) (wa : BitVec 3) (wb : BitVec 3) (ty : VTy)
  /-- VSEL (R171). Selects lanes of wa or wb by wc. -/
  | vsel (h : Hdr) (wd : BitVec 3) (wa : BitVec 3) (wb : BitVec 3) (wc : BitVec 3) (ty : VTy)
  /-- VNZ (R171). Writes a nonzero-lane mask and count. -/
  | vnz (h : Hdr) (wd : BitVec 3) (wa : BitVec 3) (ty : VTy)
  /-- VSIN (R172). Lane-wise sine, correctly rounded. -/
  | vsin (h : Hdr) (wd : BitVec 3) (wa : BitVec 3) (ty : VTy)
  /-- VCOS (R172). Lane-wise cosine. -/
  | vcos (h : Hdr) (wd : BitVec 3) (wa : BitVec 3) (ty : VTy)
  /-- VEXP (R172). Lane-wise 2^x. -/
  | vexp (h : Hdr) (wd : BitVec 3) (wa : BitVec 3) (ty : VTy)
  /-- VLOG2 (R172). Lane-wise log2. -/
  | vlog2 (h : Hdr) (wd : BitVec 3) (wa : BitVec 3) (ty : VTy)
  /-- VRSQRT (R172). Lane-wise reciprocal square root. -/
  | vrsqrt (h : Hdr) (wd : BitVec 3) (wa : BitVec 3) (ty : VTy)
  /-- VRCP (R172). Lane-wise reciprocal. -/
  | vrcp (h : Hdr) (wd : BitVec 3) (wa : BitVec 3) (ty : VTy)
  /-- VRSUM (R173). Pairwise-tree sum into lane 0. -/
  | vrsum (h : Hdr) (wd : BitVec 3) (wa : BitVec 3) (ty : VTy)
  /-- VRMAX (R173). Tree maximum into lane 0. -/
  | vrmax (h : Hdr) (wd : BitVec 3) (wa : BitVec 3) (ty : VTy)
  /-- VRMIN (R173). Tree minimum into lane 0. -/
  | vrmin (h : Hdr) (wd : BitVec 3) (wa : BitVec 3) (ty : VTy)
  /-- ROWCPY (R174). Copies a row in tile memory beat by beat. -/
  | rowcpy (h : Hdr) (rd : BitVec 4) (ra : BitVec 4) (ty : VTy)
  /-- ROWZERO (R174). Zeroes a row in tile memory. -/
  | rowzero (h : Hdr) (rd : BitVec 4) (ty : VTy)
  /-- ROWADD (R174). Adds two rows element by element. -/
  | rowadd (h : Hdr) (rd : BitVec 4) (ra : BitVec 4) (rb : BitVec 4) (ty : VTy)
  /-- ROWMUL (R174). Multiplies two rows element by element. -/
  | rowmul (h : Hdr) (rd : BitVec 4) (ra : BitVec 4) (rb : BitVec 4) (ty : VTy)
  /-- ROWAXPY (R174). D := D + s × A with one rounding. -/
  | rowaxpy (h : Hdr) (rd : BitVec 4) (ra : BitVec 4) (rb : BitVec 4) (ty : VTy)
  /-- ROWMAX (R174). Element-wise maximum of two rows. -/
  | rowmax (h : Hdr) (rd : BitVec 4) (ra : BitVec 4) (rb : BitVec 4) (ty : VTy)
  /-- ROWCVT (R174). Converts a row from SHAPE.ETYPE to T. -/
  | rowcvt (h : Hdr) (rd : BitVec 4) (ra : BitVec 4) (ty : VTy)
  /-- SEND (R214). Buffers a spawn, resume or built-in message with four argument words. -/
  | send (h : Hdr) (ra : BitVec 4) (rb : BitVec 4) (rc : BitVec 4) (prio : BitVec 2) (rl : Bool) (merge : Bool)
  /-- SENDP (R217). Buffers a message with a payload read from tile or inbox view. -/
  | sendp (h : Hdr) (ra : BitVec 4) (rb : BitVec 4) (rc : BitVec 4) (prio : BitVec 2) (rl : Bool)
  /-- SENDC (R217). Buffers a spawn carrying inline code. -/
  | sendc (h : Hdr) (ra : BitVec 4) (rb : BitVec 4) (rc : BitVec 4) (prio : BitVec 2) (rl : Bool)
  /-- RECV (R225). Releases sends, becomes a thread and consumes or waits for a matching resume. -/
  | recv (h : Hdr) (rd : BitVec 4) (ra : BitVec 4) (rb : BitVec 4)
  /-- END (R223). Releases sends, discards latches, detaches tokens, frees the message and the context. -/
  | endCtx (h : Hdr)
  /-- REL (R222). Hands every buffered send to the NI and sets RELD. -/
  | rel (h : Hdr)
  /-- MIGRATE (R227). Moves the thread as a context message to the home of an address. -/
  | migrate (h : Hdr) (ra : BitVec 4)
  /-- YIELD (R224). Lets every other READY context issue before this one again. -/
  | yield (h : Hdr)
  /-- CALLAT (R220). Buffers a spawn to the home of a data address. -/
  | callat (h : Hdr) (ra : BitVec 4) (rb : BitVec 4) (rc : BitVec 4) (prio : BitVec 2) (rl : Bool)
  /-- BARM (R229). Arms named barrier bN with a count, an op and an optional parent link. -/
  | barm (h : Hdr) (rd : BitVec 4) (ra : BitVec 4) (rb : BitVec 4) (bar : BitVec 6)
  /-- BARA (R230). Combines an arrival into the barrier, completing it at the last arrival. -/
  | bara (h : Hdr) (rd : BitVec 4) (ra : BitVec 4) (rb : BitVec 4) (bar : BitVec 6)
  /-- BARW (R231). Registers a waiter on the current generation without arriving. -/
  | barw (h : Hdr) (rd : BitVec 4) (ra : BitVec 4) (rb : BitVec 4) (bar : BitVec 6)
  /-- BARQ (R231). Writes a snapshot of the barrier. -/
  | barq (h : Hdr) (rd : BitVec 4) (ra : BitVec 4) (rb : BitVec 4) (bar : BitVec 6)
  /-- SCNEW (R235). Asks the scope unit for a child scope and waits for its reply. -/
  | scnew (h : Hdr) (rd : BitVec 4) (ra : BitVec 4) (rb : BitVec 4)
  /-- SCSTAT (R236). Reads a scope's summary or counts from the scope unit. -/
  | scstat (h : Hdr) (rd : BitVec 4) (ra : BitVec 4) (rb : BitVec 4)
  /-- PRUNE (R238). Sets a scope subtree DYING and sends kill notices, with a token. -/
  | prune (h : Hdr) (tkd : BitVec 3) (ra : BitVec 4) (rb : BitVec 4)
  /-- RESUME (R237). Buffers a system built-in that restarts, skips or ends a STOPPED context. -/
  | resumeW (h : Hdr) (rx : BitVec 4) (ra : BitVec 4) (rb : BitVec 4)
  /-- COPY (R251). Captures a copy command block and creates a copy operation with a token. -/
  | copy (h : Hdr) (tkd : BitVec 3) (tka : BitVec 3) (tkb : BitVec 3) (tkc : BitVec 3) (cb : BitVec 4)
  /-- COPYS (R251). Captures a strided copy command block. -/
  | copys (h : Hdr) (tkd : BitVec 3) (tka : BitVec 3) (tkb : BitVec 3) (tkc : BitVec 3) (cb : BitVec 4)
  /-- WALK (R254). Captures an index-walker command block. -/
  | walk (h : Hdr) (tkd : BitVec 3) (tka : BitVec 3) (tkb : BitVec 3) (tkc : BitVec 3) (cb : BitVec 4)
  /-- DEDUP (R256). IW kernel: looks up an id in the DEDUP window. -/
  | dedup (h : Hdr) (rd : BitVec 4) (ra : BitVec 4)
  /-- EMIT (R256). IW kernel: takes a slot and requests the row of an id. -/
  | emit (h : Hdr) (rd : BitVec 4) (ra : BitVec 4)
  /-- SLOT (R256). IW kernel: writes a slot-map entry. -/
  | slot (h : Hdr) (ra : BitVec 4) (rb : BitVec 4)
  /-- DISPATCH (R247). Captures a token-dispatch command block. -/
  | dispatch (h : Hdr) (tkd : BitVec 3) (tka : BitVec 3) (tkb : BitVec 3) (tkc : BitVec 3) (cb : BitVec 4)
  /-- COMBINE (R247). Captures a combine command block. -/
  | combine (h : Hdr) (tkd : BitVec 3) (tka : BitVec 3) (tkb : BitVec 3) (tkc : BitVec 3) (cb : BitVec 4)
  /-- DJOB (R258). Captures a dense job command block. -/
  | djob (h : Hdr) (tkd : BitVec 3) (tka : BitVec 3) (tkb : BitVec 3) (tkc : BitVec 3) (cb : BitVec 4)
  /-- TRAP (R264). Stops the system context as a trap with code k. -/
  | trap (h : Hdr) (k : BitVec 8)
  /-- ERET (R265). Restores another STOPPED or SAVED context of the core from its frame. -/
  | eret (h : Hdr) (ra : BitVec 4)
  /-- MFS (R148). Reads a control register into g[rd]. -/
  | mfs (h : Hdr) (rd : BitVec 4) (k : BitVec 8)
  /-- MTS (R149). Writes a control register at the group boundary after its checks. -/
  | mts (h : Hdr) (ra : BitVec 4) (k : BitVec 8)
  /-- BREAK (R266). Traps BREAK with sub-cause k. -/
  | breakTrap (h : Hdr) (k : BitVec 8)
  /-- PAUSE (R267). Stops the context issuing for 16 × k cycles. -/
  | pause (h : Hdr) (k : BitVec 8)
  /-- HALT (R268). Stops a system context until its wake event. -/
  | halt (h : Hdr)
  /-- NOP (R151). Issues as a group member with no effect. -/
  | nop (h : Hdr)
  /-- DS_NOP_S (R94). S-slot no-operation. -/
  | dsNopS
  /-- D_ADD (R278). DS scalar add. -/
  | dAdd (dd : BitVec 5) (da : BitVec 5) (db : BitVec 5)
  /-- D_SUB (R278). DS scalar subtract. -/
  | dSub (dd : BitVec 5) (da : BitVec 5) (db : BitVec 5)
  /-- D_AND (R278). DS scalar AND. -/
  | dAnd (dd : BitVec 5) (da : BitVec 5) (db : BitVec 5)
  /-- D_OR (R278). DS scalar OR. -/
  | dOr (dd : BitVec 5) (da : BitVec 5) (db : BitVec 5)
  /-- D_XOR (R278). DS scalar XOR. -/
  | dXor (dd : BitVec 5) (da : BitVec 5) (db : BitVec 5)
  /-- D_SLL (R278). DS logical shift left. -/
  | dSll (dd : BitVec 5) (da : BitVec 5) (db : BitVec 5)
  /-- D_SRL (R278). DS logical shift right. -/
  | dSrl (dd : BitVec 5) (da : BitVec 5) (db : BitVec 5)
  /-- D_MUL (R278). DS multiply, low 64 bits. -/
  | dMul (dd : BitVec 5) (da : BitVec 5) (db : BitVec 5)
  /-- D_ADDI (R278). DS add of a sign-extended imm17. -/
  | dAddi (dd : BitVec 5) (da : BitVec 5) (imm : BitVec 17)
  /-- D_LUI (R278). DS upper immediate at bit 17. -/
  | dLui (dd : BitVec 5) (imm : BitVec 22)
  /-- D_BEQ (R279). DS branch when equal, after the bundle. -/
  | dBeq (da : BitVec 5) (db : BitVec 5) (off : BitVec 17)
  /-- D_BNE (R279). DS branch when not equal. -/
  | dBne (da : BitVec 5) (db : BitVec 5) (off : BitVec 17)
  /-- D_BLT (R279). DS branch when less, signed. -/
  | dBlt (da : BitVec 5) (db : BitVec 5) (off : BitVec 17)
  /-- D_JMP (R279). DS unconditional jump. -/
  | dJmp (off : BitVec 27)
  /-- JGET (R275). Waits for a granted job, reads its descriptor and starts it at ENTRY. -/
  | jget (dd : BitVec 5)
  /-- JDONE (R277). Waits for outstanding work and ends the job DONE, FAILED or CANCELLED. -/
  | jdone (da : BitVec 5)
  /-- AGSET (R280). Sets the base, stride or count of an address generator. -/
  | agset (an : BitVec 4) (sel : AgSel) (da : BitVec 5)
  /-- DRET (R293). Leaves DS handler mode to DTPC. -/
  | dret
  /-- DMFS (R276). Reads DCAUSE, DTPC, DTVAL or JOB into a d register. -/
  | dmfs (dd : BitVec 5) (sel : DReg)
  /-- DS_NOP_L (R94). L-slot no-operation. -/
  | dsNopL
  /-- XIN (R282). Transfers rows from memory into the dense buffer. -/
  | xin (an : BitVec 4) (am : BitVec 4)
  /-- XOUT (R282). Transfers rows from the dense buffer to memory. -/
  | xout (an : BitVec 4) (am : BitVec 4)
  /-- LDD (R281). Loads 8 bytes of the dense buffer into a d register and advances. -/
  | ldd (dd : BitVec 5) (an : BitVec 4)
  /-- STD (R281). Stores a d register to the dense buffer and advances. -/
  | std (dd : BitVec 5) (an : BitVec 4)
  /-- DBCPY (R282). Copies rows within the dense buffer. -/
  | dbcpy (an : BitVec 4) (am : BitVec 4)
  /-- DS_NOP_M (R94). M-slot no-operation. -/
  | dsNopM
  /-- MLW (R285). Loads weights into the shadow plane. -/
  | mlw (an : BitVec 4)
  /-- MLWT (R285). Loads weights transposed into the shadow plane. -/
  | mlwt (an : BitVec 4)
  /-- MSWAP (R286). Exchanges active and shadow planes. -/
  | mswap
  /-- MST (R287). Streams activation rows through the array into a bank. -/
  | mst (bank : BitVec 3) (an : BitVec 4) (acc : Bool)
  /-- MSTZ (R287). Streams rows skipping zero weight blocks by bitmap. -/
  | mstz (bank : BitVec 3) (an : BitVec 4) (acc : Bool) (az : BitVec 4)
  /-- MDRAIN (R288). Converts bank rows and writes them to the dense buffer. -/
  | mdrain (bank : BitVec 3) (an : BitVec 4) (fmt : BitVec 4)
  /-- MZERO (R289). Zeroes the banks of a mask. -/
  | mzero (mask : BitVec 8)
  /-- MPARK (R293). Saves used banks and the shadow plane to the park area in handler mode. -/
  | mpark
  /-- MUNPARK (R293). Restores parked banks and shadow plane. -/
  | munpark
  /-- DS_NOP_V (R94). V-slot no-operation. -/
  | dsNopV
  /-- VBIAS (R290). Adds a bias row to every bank row. -/
  | vbias (bank : BitVec 3) (an : BitVec 4)
  /-- VSCALE (R290). Scales a bank by an f32. -/
  | vscale (bank : BitVec 3) (da : BitVec 5)
  /-- VRELU (R290). Applies ReLU to a bank. -/
  | vrelu (bank : BitVec 3)
  /-- VCLAMP (R290). Clamps a bank between two f32 bounds. -/
  | vclamp (bank : BitVec 3) (da : BitVec 5) (db : BitVec 5)
  /-- VGELU (R290). Applies GELU to a bank. -/
  | vgelu (bank : BitVec 3)
  /-- LATCH_COMPLETE (R13). A vector result latch writes its destination and raises its flags L cycles after issue. Operands: a = core, b = ctx, c = idx. -/
  | latchComplete
  /-- MEMORY_REPLY (R186). The reply to a blocked global access arrives and the context resumes or faults. Operands: a = id. -/
  | memoryReply
  /-- L1_FILL_REPLY (R303). An L1 fill reply installs its line unless marked not to install. Operands: a = id. -/
  | l1FillReply
  /-- TILE_PAGE_FILL (R322). A tile frame fill from backing completes and the blocked context resumes. Operands: a = core, b = ctx. -/
  | tilePageFill
  /-- FENCE_COMPLETE (R201). The last acknowledgement of a fence arrives and the blocked context continues. Operands: a = core, b = ctx. -/
  | fenceComplete
  /-- RECLAIM_COMPLETE (R193). Every home and slice has acknowledged the new floor. Operands: a = core, b = ctx. -/
  | reclaimComplete
  /-- CLOSE_COMPLETE (R209). Every home has acknowledged a close, and g[rd] receives the status. Operands: a = core, b = ctx. -/
  | closeComplete
  /-- SCOPE_UNIT_REPLY (R235). The scope unit's reply to scnew or scstat arrives. Operands: a = core, b = ctx. -/
  | scopeUnitReply
  /-- PAUSE_EXPIRY (R267). The 16 × k cycles of a pause end. Operands: a = core, b = ctx. -/
  | pauseExpiry
  /-- KILL_TAKEN (R30). A pending kill is taken at the next group boundary, recording KILLED. Operands: a = core, b = ctx. -/
  | killTaken
  /-- CONTEXT_SWITCH_OUT (R416). A context is switched out at a boundary once IE allows, writing a KIND 0x02 frame. Operands: a = core, b = ctx. -/
  | contextSwitchOut
  /-- MESSAGE_ARRIVAL (R49). The destination NI checks a message and accepts, NACKs, drops or returns it. Operands: a = id. -/
  | messageArrival
  /-- HANDLER_START (R60). The lowest FREE context starts the head of the lane chosen by lane selection. Operands: a = core. -/
  | handlerStart
  /-- NACK_RETRY (R420). A NACKed message is resent from the retry buffer when its back-off delay expires. Operands: a = id. -/
  | nackRetry
  /-- NACK_FLIT_ARRIVAL (R432). A NACK reaches the sender, which keeps the message for retry or returns it after 64 retries. Operands: a = id. -/
  | nackFlitArrival
  /-- ACK_FLIT_ARRIVAL (R432). An ACK frees the sender's retry entry for the message. Operands: a = id, b = stream, c = 1 for a message outside the order. -/
  | ackFlitArrival
  /-- SKIP_FLIT_ARRIVAL (R432). A SKIP advances the receiver's expected ORD over a message that will never arrive. Operands: a = stream, b = ord. -/
  | skipFlitArrival
  /-- FLIT_ARRIVAL (R429). A router ranks arriving flits and ejects, routes or deflects each. Operands: a = router. -/
  | flitArrival
  /-- STARVE_SIGNAL (R430). An NI refused injection 64 cycles raises starve, stopping injection on its row and column for 8 cycles. Operands: a = router. -/
  | starveSignal
  /-- GOLDEN_EPOCH (R429). Each 4096-cycle epoch moves the golden router. -/
  | goldenEpoch
  /-- TORUS_LINK_FAIL (R430). A failed torus link is replayed and removed from routing by the SMC. Operands: a = router, b = port. -/
  | torusLinkFail
  /-- SIDEBAND_RESEND (R464). After 100 µs without ACK or NACK the sender resends the message with the same ORD. Operands: a = id. -/
  | sidebandResend
  /-- MIGRATE_COMPLETE (R70). The moved thread arrives, queued resumes are forwarded, rank tables update and in-transit clears. Operands: b = thread rank, c = core. -/
  | migrateComplete
  /-- BUILTIN_LOAD (R211). Built-in load as LD, replying with the data. Operands: a = id. -/
  | builtinLoad
  /-- BUILTIN_LOAD_NC (R211). Built-in load as LD.NC. Operands: a = id. -/
  | builtinLoadNc
  /-- BUILTIN_STORE (R211). Built-in store as ST. Operands: a = id. -/
  | builtinStore
  /-- BUILTIN_LOAD32 (R211). Built-in 32-byte load replying with a one-unit payload. Operands: a = id. -/
  | builtinLoad32
  /-- BUILTIN_STORE32 (R211). Built-in 32-byte store from a one-unit payload. Operands: a = id. -/
  | builtinStore32
  /-- BUILTIN_LDV (R211). Built-in versioned 8-byte load. Operands: a = id. -/
  | builtinLdv
  /-- BUILTIN_STV (R211). Built-in versioned 8-byte store. Operands: a = id. -/
  | builtinStv
  /-- BUILTIN_ATOM_ADD (R211). Built-in atomic add. Operands: a = id. -/
  | builtinAtomAdd
  /-- BUILTIN_ATOM_AND (R211). Built-in atomic AND. Operands: a = id. -/
  | builtinAtomAnd
  /-- BUILTIN_ATOM_OR (R211). Built-in atomic OR. Operands: a = id. -/
  | builtinAtomOr
  /-- BUILTIN_ATOM_XOR (R211). Built-in atomic XOR. Operands: a = id. -/
  | builtinAtomXor
  /-- BUILTIN_ATOM_SMIN (R211). Built-in atomic signed minimum. Operands: a = id. -/
  | builtinAtomSmin
  /-- BUILTIN_ATOM_SMAX (R211). Built-in atomic signed maximum. Operands: a = id. -/
  | builtinAtomSmax
  /-- BUILTIN_ATOM_SWAP (R211). Built-in atomic swap. Operands: a = id. -/
  | builtinAtomSwap
  /-- BUILTIN_ATOM_CAS (R211). Built-in atomic compare and swap. Operands: a = id. -/
  | builtinAtomCas
  /-- BUILTIN_ATOM_FADD_F32 (R211). Built-in atomic f32 add. Operands: a = id. -/
  | builtinAtomFaddF32
  /-- BUILTIN_ATOM_FADD_F64 (R211). Built-in atomic f64 add. Operands: a = id. -/
  | builtinAtomFaddF64
  /-- BUILTIN_BADOP (R56). An unassigned built-in address is answered BADOP or dropped and counted. Operands: a = id. -/
  | builtinBadop
  /-- ROW_REQUEST (R347). A home serves, merges or parks a row request against its watermark. Operands: a = id. -/
  | rowRequest
  /-- ROW_ACCUMULATE_PART (R351). A home stages a row accumulate part and applies the row at the LAST part. Operands: a = id. -/
  | rowAccumulatePart
  /-- CLOSE_NOTICE (R343). A home records a writer's closed step and advances its watermark. Operands: a = id. -/
  | closeNotice
  /-- FLUSH_DEMAND (R348). A slice flushes its update-only line for a row and ETD. Operands: a = id. -/
  | flushDemand
  /-- ROW_LANDING (R347). The requesting NI writes a row into the tile space; the last landing may end the walk. Operands: a = id. -/
  | rowLanding
  /-- CHILD_ARRIVAL (R232). A child barrier node's arrival is combined at its parent. Operands: a = id. -/
  | childArrival
  /-- BARRIER_RELEASE (R232). A parent's release completes a child node and notifies its waiters. Operands: a = id. -/
  | barrierRelease
  /-- BROKEN_NOTICE (R233). A broken notice makes the receiving barrier node BROKEN. Operands: a = id. -/
  | brokenNotice
  /-- RESUME_BUILTIN (R237). The target applies RETRY, SKIP or END to a STOPPED context. Operands: a = id. -/
  | resumeBuiltin
  /-- SWITCH_OUT (R416). Starts preemption of a core: refuse messages, switch out contexts, spill, go OUT. Operands: a = id. -/
  | switchOut
  /-- SWITCH_IN (R418). Refills the mailbox, restores SAVED contexts and returns the core IN. Operands: a = id. -/
  | switchIn
  /-- ATTENTION (R404). Context 15 holds contexts and replies with a SNAPSHOT record. Operands: a = id. -/
  | attention
  /-- LAUNCH_FANOUT (R388). Each NI forwards the fan-out, takes a launch space, writes defaults and image and presents the entry spawn. Operands: a = id. -/
  | launchFanout
  /-- WAVE_REQUEST (R392). A node snapshots its counts and forwards the wave request. Operands: a = id. -/
  | waveRequest
  /-- WAVE_REPORT (R392). A wave report is combined upward, and at the LU tested for quiescence. Operands: a = id. -/
  | waveReport
  /-- LAUNCH_RELEASE (R393). A core frees its launch space. Operands: a = id. -/
  | launchRelease
  /-- KILL_NOTICE (R239). A unit applies a prune to the work of a subtree. Operands: a = id. -/
  | killNotice
  /-- PRUNE_ACKNOWLEDGEMENT (R240). The holding scope unit sums a unit's ack and on the last sets DEAD and sends PRUNED. Operands: a = id, or b = a prune of a scope that is DEAD already, with c = 1. -/
  | pruneAcknowledgement
  /-- PRUNE_LINKWAIT_EXPIRY (R240). LINKWAIT passes for silent members and the prune completes PARTIAL. Operands: a = id. -/
  | pruneLinkwaitExpiry
  /-- RESET_REPORT (R424). A scope unit adds a reset's lost contexts and messages to its counts. Operands: a = id. -/
  | resetReport
  /-- TILE_SPACE_REQUEST (R396). The LU grants or refuses a launch space for a core on demand. Operands: a = id. -/
  | tileSpaceRequest
  /-- TILE_SPACE_GRANT (R396). An NI sets up the granted space, or returns the launch's messages on REFUSED. Operands: a = id. -/
  | tileSpaceGrant
  /-- SCOPE_REQUEST (R235). A scope unit creates a scope or answers scstat. Operands: a = id. -/
  | scopeRequest
  /-- SCOPE_BINDING (R42). A group member binds or refuses a spanning scope id. Operands: a = part, b = scope, c = group, v = parent, flag = policy. -/
  | scopeBinding
  /-- TRANSLATION_REQUEST (R325). A translating slice checks translation and region and forwards or traps. Operands: a = id. -/
  | translationRequest
  /-- PAGE_WALK_COMPLETE (R327). A page-table walk finishes and the slice forwards the request or returns the fault. Operands: a = id, b = virtual address. -/
  | pageWalkComplete
  /-- HOME_ACCESS (R298). A home performs an access in its home order and replies. Operands: a = id. -/
  | homeAccess
  /-- RECLAIM_FLOOR_NOTICE (R193). A home takes the new floor and re-evaluates parked STVs. Operands: a = part, b = region, v = floor, c = home. -/
  | reclaimFloorNotice
  /-- REMOTE_TILE_ACCESS (R323). A target core performs or refuses a remote tile window access. Operands: a = id. -/
  | remoteTileAccess
  /-- POISON_ERROR (R336). An uncorrectable error poisons a granule or line and is logged. Operands: a = addr. -/
  | poisonError
  /-- COPY_COMMAND_ACCEPT (R252). The entry copy engine takes or NACKs a copy command and checks it. Operands: a = op. -/
  | copyCommandAccept
  /-- COPY_START (R252). A copy whose edges are satisfied is split into parts sent to engines. Operands: a = op. -/
  | copyStart
  /-- COPY_PART (R252). An engine reads and writes a part line by line. Operands: a = op, b = part. -/
  | copyPart
  /-- COPY_PART_DONE (R252). A part ends, and the last part ends the copy operation. Operands: a = op, b = part. -/
  | copyPartDone
  /-- CONTINUATION_PROBE (R422). A pending continuation probes its core and resumes when accepted. Operands: a = op, b = part. -/
  | continuationProbe
  /-- TOKEN_NOTICE (R244). A token notice reaches the issuing core and is applied at its next boundary. Operands: a = op. -/
  | tokenNotice
  /-- WALK_COMMAND_ACCEPT (R249). The IW queue takes or NACKs a walk command. Operands: a = op. -/
  | walkCommandAccept
  /-- WALK_START (R254). A ready walk starts, emptying the DEDUP window. Operands: a = op. -/
  | walkStart
  /-- IW_LINE_RUN (R255). The IW runs its kernel on a fetched index line. Operands: a = core. -/
  | iwLineRun
  /-- TDE_COMMAND_ACCEPT (R249). A TDE takes or NACKs a dispatch or combine command. Operands: a = op. -/
  | tdeCommandAccept
  /-- DISPATCH_START (R364). A dispatch loads its configuration and runs COUNT. Operands: a = op. -/
  | dispatchStart
  /-- EXCHANGE_COUNTS (R365). A TDE takes a peer's counts; the last of a pass triggers PLACE. Operands: a = id. -/
  | exchangeCounts
  /-- TDE_ABORT (R491). An ABORT ends a peer PEERABORT or discards HELD counts. Operands: a = id. -/
  | tdeAbort
  /-- DISPATCH_END (R368). Every row and record is performed and the dispatch ends DONE. Operands: a = op. -/
  | dispatchEnd
  /-- COMBINE_START (R373). A combine gathers and weights expert rows through the inverse permutation. Operands: a = op. -/
  | combineStart
  /-- COMBINE_END (R373). Every output is performed and the combine ends. Operands: a = op. -/
  | combineEnd
  /-- DJOB_ACCEPT (R249). A dense complex queue takes or NACKs a job. Operands: a = op. -/
  | djobAccept
  /-- JOB_GRANT (R397). The job queue grants a ready job to a DS holding at jget. Operands: a = die. -/
  | jobGrant
  /-- DS_RESULT_WRITE (R270). A DS d-register or generator result is written L cycles after issue. Operands: a = die, b = idx. -/
  | dsResultWrite
  /-- DS_TRANSFER_DONE (R272). An xin, xout or dbcpy completes and frees the scoreboard. Operands: a = die, b = idx. -/
  | dsTransferDone
  /-- DS_TRANSFER_FAULT (R283). A transfer fault stops it and the DS traps at the next bundle boundary. Operands: a = die. -/
  | dsTransferFault
  /-- DS_RESET (R294). The SMC resets the DS, reloads microcode and restarts the complex. Operands: a = die, bytes = microcode. -/
  | dsReset
  /-- LAUNCH_SUBMISSION (R382). A device spawn to the LU queues a launch record or is answered. Operands: a = id. -/
  | launchSubmission
  /-- DISTRIBUTOR_SELECT (R383). The LU selects a queue head and validates it. -/
  | distributorSelect
  /-- LAUNCH_LOAD_DONE (R384). Image and tile image copy and hash end; the launch binds and spawns or fails. Operands: a = lid. -/
  | launchLoadDone
  /-- WAVE_START (R392). The LU sends a new wave request after its interval. Operands: a = lid. -/
  | waveStart
  /-- LAUNCH_END (R393). The LU releases spaces, frees the scope, requests custody and sends the completion. Operands: a = lid. -/
  | launchEnd
  /-- CUSTODY_RECORD_SIGNED (R468). The SMC fills, signs and stores a custody record. -/
  | custodyRecordSigned
  /-- BUDGET_PERIOD (R398). A 1024-cycle period boundary resets budget counters. -/
  | budgetPeriod
  /-- LC_RESET (R424). The SMC resets an LC's contexts and state and returns its messages. Operands: a = core. -/
  | lcReset
  /-- LC_RESET_END (R424). After up to 20 µs the reset core returns IN. Operands: a = core. -/
  | lcResetEnd
  /-- POWER_GATE (R425). The SMC power-gates an idle LC pipeline. Operands: a = core. -/
  | powerGate
  /-- MIGRATE_REDIRECT_NOTICE (R334). The translating slice gets the redirect notice and sends O a marker. Operands: a = old frame. -/
  | migrateRedirectNotice
  /-- MIGRATE_MARKER_REPLY (R334). The marker reply makes T forward to N and clear MOVING. Operands: a = old frame. -/
  | migrateMarkerReply
  /-- MIGRATE_END_OF_FORWARDING (R334). N starts performing requests that came to it directly. Operands: a = old frame. -/
  | migrateEndOfForwarding
  /-- REDIRECT_RELEASE (R335). The SMC releases O's redirect entry and frees the old frame. Operands: a = old frame. -/
  | redirectRelease
  /-- REKEY_GRANULE (R463). A granule is re-encrypted under the new key; the last moves the key to its slot. Operands: a = part. -/
  | rekeyGranule
  /-- LINK_FLIT_RECEIVE (R437). A Bramble port receives a link flit, acknowledging or requesting replay. Operands: a = port, bytes = flit. -/
  | linkFlitReceive
  /-- REPLAY_REQUEST (R437). The sender replays from the refused flit, retraining after 8 failures. Operands: a = port, b = fseq. -/
  | replayRequest
  /-- PORT_RETRAIN (R437). A port enters RETRAIN after replay failure or loss of lock. Operands: a = port. -/
  | portRetrain
  /-- PORT_REMAP (R437). A lane over its error threshold is replaced by a spare. Operands: a = port. -/
  | portRemap
  /-- PORT_DOWN (R437). A port with no spare or four failed trainings goes DOWN. Operands: a = port. -/
  | portDown
  /-- TRAINING_COMPLETE (R437). Port training completes and the port is UP. Operands: a = port. -/
  | trainingComplete
  /-- SESSION (R438). A SESSION packet sets up or renews a link session. Operands: a = port. -/
  | session
  /-- BRAMBLE_PACKET (R439). A module takes, checks, decrypts or drops a Bramble packet. Operands: a = port, pkt = pkt. -/
  | bramblePacket
  /-- TACK (R440). A TACK frees acknowledged packets of the transport buffer. Operands: a = peer, b = tseq, v = mask. -/
  | tack
  /-- TNACK (R440). A TNACK schedules the packet's resend after 1 µs. Operands: a = peer, b = tseq. -/
  | tnack
  /-- TACK_TIMER (R440). A TACK is sent 2 µs after a packet's arrival. Operands: a = peer. -/
  | tackTimer
  /-- TRANSPORT_RESEND (R440). After 16 µs without TACK the oldest packet is resent. Operands: a = peer. -/
  | transportResend
  /-- PACKET_ABANDON (R440). A packet unacknowledged at LINKWAIT is abandoned and resolved by kind. Operands: a = peer, b = tseq. -/
  | packetAbandon
  /-- KEEPALIVE (R439). A KEEPALIVE is sent every 10 µs on an idle port. Operands: a = port. -/
  | keepalive
  /-- BREL (R441). A switch's queue depths update the module's first-hop choice. Operands: a = port, bytes = depths. -/
  | brel
  /-- MREQ_RESEND (R442). A merged requester without an MREP at LINKWAIT resends with MERGE 0. Operands: a = id. -/
  | mreqResend
  /-- LINKWAIT_EXPIRY (R443). LINKWAIT passes for a waiting agent and it completes with its link failure outcome. Operands: a = core, b = ctx, c = the access. -/
  | linkwaitExpiry
  /-- BRIDGE_LANE_FAIL (R435). A failed bridge lane shrinks capacity until spared. -/
  | bridgeLaneFail
  /-- INDB (R449). The host submits an inbound slot, which the host queue sends. Operands: a = vf, b = slot, c = 1 when the queue takes it. -/
  | indb
  /-- LWDB (R450). The host submits the staged launch record. Operands: a = vf, c = 1 when the record is taken. -/
  | lwdb
  /-- REGISTER_WRITE (R447). A BAR register write with no behaviour of its own. Operands: a = fn, b = off, c = size, v = val. -/
  | registerWrite
  /-- MSIX_UNMASK (R451). Unmasking a vector sends its pending message. Operands: a = fn, b = vec. -/
  | msixUnmask
  /-- RSCMD (R470). A driver requests a RESYNC summary. Operands: a = fn, v = val. -/
  | rscmd
  /-- RESYNC_READY (R470). The SMC has assembled the summary record and raises vector 2. Operands: a = fn. -/
  | resyncReady
  /-- PSETUP (R457). SMC command creating a partition. -/
  | psetup
  /-- PTEAR (R458). SMC command tearing a partition down. -/
  | ptear
  /-- XLINV (R328). SMC translation invalidate across the fabric group. -/
  | xlinv
  /-- REGION (R330). SMC command writing a region entry. -/
  | regionCmd
  /-- SMC_MIGRATE (R334). SMC command starting a page migration. -/
  | smcMigrate
  /-- WATCH (R332). SMC command programming a watch unit. -/
  | watchCmd
  /-- BUDGET (R399). SMC command setting a budget profile. -/
  | budgetCmd
  /-- FSERV (R411). SMC command setting the fault service rank and tag. -/
  | fserv
  /-- QPRIO (R383). SMC command setting a queue priority. -/
  | qprio
  /-- MODID (R444). SMC command setting the module id. -/
  | modid
  /-- PCAP (R479). SMC command setting a power cap. -/
  | pcap
  /-- REKEY (R463). SMC command starting re-encryption of a partition. -/
  | rekey
  /-- GROUP (R459). SMC command installing or removing a fabric group entry. -/
  | groupCmd
  /-- FSLOAD (R460). SMC command installing and starting the on-device fault service. -/
  | fsload
  /-- SMC_COMMAND_COMPLETE (R454). A command completes, setting CMDSTAT and raising vector 0. -/
  | smcCommandComplete
  /-- CUSTSEQ (R469). A write fetches a custody record and loads CUSTSTAT. Operands: a = seq. -/
  | custseq
  /-- MEVENT (R455). A write of 1 clears module event bits. Operands: v = val. -/
  | mevent
  /-- GET_VERSION (R466). SPDM GET_VERSION request. Operands: a = fn, bytes = req. -/
  | getVersion
  /-- GET_CAPABILITIES (R466). SPDM GET_CAPABILITIES request. Operands: a = fn, bytes = req. -/
  | getCapabilities
  /-- NEGOTIATE_ALGORITHMS (R466). SPDM NEGOTIATE_ALGORITHMS request. Operands: a = fn, bytes = req. -/
  | negotiateAlgorithms
  /-- GET_DIGESTS (R466). SPDM GET_DIGESTS request. Operands: a = fn, bytes = req. -/
  | getDigests
  /-- GET_CERTIFICATE (R466). SPDM GET_CERTIFICATE request. Operands: a = fn, bytes = req. -/
  | getCertificate
  /-- CHALLENGE (R466). SPDM CHALLENGE request. Operands: a = fn, bytes = req. -/
  | challenge
  /-- GET_MEASUREMENTS (R467). SPDM GET_MEASUREMENTS returning blocks 1–6. Operands: a = fn, bytes = req. -/
  | getMeasurements
  /-- KEY_EXCHANGE (R466). SPDM KEY_EXCHANGE request. Operands: a = fn, bytes = req. -/
  | keyExchange
  /-- FINISH (R466). SPDM FINISH request. Operands: a = fn, bytes = req. -/
  | finish
  /-- KEY_UPDATE (R466). SPDM KEY_UPDATE request. Operands: a = fn, bytes = req. -/
  | keyUpdate
  /-- END_SESSION (R466). SPDM END_SESSION request. Operands: a = fn, bytes = req. -/
  | endSession
  /-- IDE_KEY_PROGRAM (R466). IDE keys are programmed inside a secured session. Operands: a = fn, bytes = req. -/
  | ideKeyProgram
  /-- I3C_PCAP_WRITE (R481). The board controller writes PCAP over I3C. Operands: a = watts. -/
  | i3cPcapWrite
  /-- FIRMWARE_STAGING_WRITE (R481). Firmware written over I3C is staged for the next reset. Operands: bytes = image. -/
  | firmwareStagingWrite
  /-- POWER_REPORT (R478). Each rail reports power every 100 µs. Operands: a = rail, b = watts. -/
  | powerReport
  /-- THERMAL_STEP_DOWN (R478). Each 1 ms at 95 °C or more the clock steps down. Operands: a = temp. -/
  | thermalStepDown
  /-- THERMAL_STEP_UP (R478). Each 10 ms at 90 °C or less within the cap the clock steps up. Operands: a = temp. -/
  | thermalStepUp
  /-- THERMAL_EMERGENCY (R478). At 105 °C the clock goes to step 4. Operands: a = temp. -/
  | thermalEmergency
  /-- THERMAL_TRIP (R478). At 110 °C every partition is pruned, the trip is asserted and the clock stops. Operands: a = temp. -/
  | thermalTrip
  /-- PCAP_ADJUST (R479). Each 1 ms over the cap F falls, then the clock steps. -/
  | pcapAdjust
  /-- SMC_TAKEOVER (R477). A missed 10 ms heartbeat makes the dormant SMC take over. -/
  | smcTakeover
  /-- LC_TAKEOVER (R475). A spare takes over an LC with the same rank and state. Operands: a = core. -/
  | lcTakeover
  /-- SPARE_BRING_IN (R474). The SMC brings in a spare line, row, lane, column or link. Operands: a = row of R474 from 1, b = its place. -/
  | spareBringIn
  /-- MODULE_RESET (R480). Module reset runs the boot and bring-up steps. Operands: a = 0, or the step that fails with 8 times its place. -/
  | moduleReset
  /-- DS_WORD_COMPLETE (R272). A matrix, vector-slot or buffer-port DS word completes at its stated cycle after issue, applying its result and flags and freeing its path and scoreboard sets for held bundles. Operands: a = die, b = idx. -/
  | dsWordComplete
  /-- ROW_WORD_COMPLETE (R177). The row unit finishes a ROW word's beats, completes it 4 cycles later, releases the held context and takes the next queued ROW word. Operands: a = core. -/
  | rowWordComplete
  /-- RELORD_RELEASE (R219). The last performance acknowledgement of a sender's earlier stores reaches its NI, which then injects the held release-ordered or context message and applies the checked-region flush marks. Operands: a = id. -/
  | relordRelease
  /-- UNGATING_END (R425). Ungating of a power-gated LC pipeline finishes within 2 µs and the core stops NACKing fan-outs. Operands: a = core. -/
  | ungatingEnd
  /-- SESSION_COUNTER_LIMIT (R438). A port's session packet counter nears 2^63 and the port renews its AES-GCM session. Operands: a = port. -/
  | sessionCounterLimit
  /-- MODERATION_EXPIRY (R451). The OCTL.MOD interval ends and vector 0, held back by moderation for entries written meanwhile, is sent. Operands: a = vf. -/
  | moderationExpiry
  /-- TNACK_RESEND (R440). One microsecond after a TNACK the sender resends the refused packet. Operands: a = peer, b = tseq. -/
  | tnackResend
  deriving DecidableEq, Repr

end Sys2Proof
end

