-- ==== Sys2Proof/WellFormed.lean ====
section
/-! DEFINITION. Which terms of the syntax the hardware's encodings allow: the operand checks of R92 that a field's width does not
already make, with a name for each. -/

namespace Sys2Proof

/-- Why a word is not an instruction (spec 03 R92, R96); each reason is ILLEGAL on the hardware. -/
inductive Reject where
  /-- a major, or a slot opcode, the map does not assign -/
  | unassignedMajor
  /-- a minor, op or condition the map omits -/
  | unassignedMinor
  /-- a field the map marks zero holds a nonzero value -/
  | reservedField
  /-- an argument register above its limit -/
  | registerRange
  /-- a lane not below the lane count of the type -/
  | laneRange
  /-- a type code outside the listed values -/
  | typeCode
  /-- a control register that is not assigned, or that mts may not write -/
  | controlRegister
  /-- ext set with size 8 -/
  | extension
  /-- loop with an offset of 0 -/
  | loopOffset
  deriving DecidableEq, Repr

/-- Lane width in bytes (spec 04 R113). -/
def ETy.bytes : ETy → Nat
  | .i8 => 1 | .n8 => 1 | .e4m3 => 1 | .e5m2 => 1
  | .i16 => 2 | .n16 => 2 | .f16 => 2 | .bf16 => 2
  | .i32 => 4 | .n32 => 4 | .f32 => 4
  | .i64 => 8 | .n64 => 8 | .f64 => 8 | .fx64 => 8

/-- The control registers of R18 (spec 01). -/
def ctlAssigned (k : Nat) : Bool :=
  k ≤ 6 || (8 ≤ k && k ≤ 14) || (16 ≤ k && k ≤ 23)
/-- The control registers mts may name: every assigned one but MYRANK and CTXID (spec 01 R18). -/
def ctlWritable (k : Nat) : Bool := ctlAssigned k && k != 12 && k != 13

/-- A lane operand against an explicit type (spec 03 R92); a type taken from SHAPE is checked at issue. -/
def laneOk (k : BitVec 5) : VTy → Bool
  | .shape => true
  | .of e => k.toNat < 32 / e.bytes
/-- The scalar types of FOP, FMA, FCMP and FCLASS (spec 06 R154). -/
def fopOk : FTy → Bool | .e4m3 => false | .e5m2 => false | .f64 => true | .f32 => true | .f16 => true | .bf16 => true
/-- The types of vshl and vshr (spec 06 R161). -/
def shiftOk : VTy → Bool
  | .shape => true
  | .of e => match e with
    | .i8 => true | .i16 => true | .i32 => true | .i64 => true | .n8 => true | .n16 => true | .n32 => true | .n64 => true
    | .fx64 => true | .f64 => false | .f32 => false | .f16 => false | .bf16 => false | .e4m3 => false | .e5m2 => false
/-- The types of VTRANS (spec 06 R161). -/
def transOk : VTy → Bool
  | .shape => true
  | .of e => e == .f32 || e == .f16 || e == .bf16
/-- vpack to an 8-byte type, vunpk to a 1-byte type: no source type could satisfy it (spec 06 R161). -/
def packOk : VTy → Bool | .shape => true | .of e => e.bytes != 8
/-- See packOk. -/
def unpkOk : VTy → Bool | .shape => true | .of e => e.bytes != 1

/-- A reason unless the condition holds. -/
def need (b : Bool) (r : Reject) : Option Reject := if b then none else some r

/-- The check of an instruction's operands: none when it is well formed. -/
def Instr.check : Instr → Option Reject
  | .add .. => none
  | .sub .. => none
  | .andR .. => none
  | .orR .. => none
  | .xorR .. => none
  | .andn .. => none
  | .sll .. => none
  | .srl .. => none
  | .sra .. => none
  | .mul .. => none
  | .mulh .. => none
  | .divS .. => none
  | .divu .. => none
  | .remS .. => none
  | .remu .. => none
  | .minS .. => none
  | .maxS .. => none
  | .minu .. => none
  | .maxu .. => none
  | .mov .. => none
  | .clz .. => none
  | .popc .. => none
  | .addi .. => none
  | .andi .. => none
  | .ori .. => none
  | .xori .. => none
  | .slli .. => none
  | .srli .. => none
  | .srai .. => none
  | .lui .. => none
  | .auipc .. => none
  | .cmpEq .. => none
  | .cmpNe .. => none
  | .cmpLt .. => none
  | .cmpGe .. => none
  | .cmpLtu .. => none
  | .cmpGeu .. => none
  | .cmpiEq .. => none
  | .cmpiNe .. => none
  | .cmpiLt .. => none
  | .cmpiGe .. => none
  | .cmpiLtu .. => none
  | .cmpiGeu .. => none
  | .pand .. => none
  | .por .. => none
  | .pxor .. => none
  | .pandn .. => none
  | .pnot .. => none
  | .pset .. => none
  | .prd .. => none
  | .pwr .. => none
  | .br .. => none
  | .call .. => none
  | .jr .. => none
  | .jalr .. => none
  | .loopW _ _ imm => need (imm != 0) .loopOffset
  | .ld _ _ _ size ext _ => need (size != .b8 || !ext) .extension
  | .st .. => none
  | .ldNc _ _ _ size ext _ => need (size != .b8 || !ext) .extension
  | .ldw .. => none
  | .stw .. => none
  | .ldv .. => none
  | .ldvW .. => none
  | .stv .. => none
  | .stvW .. => none
  | .atomAdd .. => none
  | .atomAnd .. => none
  | .atomOr .. => none
  | .atomXor .. => none
  | .atomSmin .. => none
  | .atomSmax .. => none
  | .atomSwap .. => none
  | .atomCas .. => none
  | .atomFaddF32 .. => none
  | .atomFaddF64 .. => none
  | .aacc .. => none
  | .aaccL .. => none
  | .fenceAcq .. => none
  | .fenceRel .. => none
  | .fenceFull .. => none
  | .fenceX .. => none
  | .fenceAcqSys .. => none
  | .fenceRelSys .. => none
  | .fenceFullSys .. => none
  | .fenceXSys .. => none
  | .l1inv .. => none
  | .l1pf .. => none
  | .seal .. => none
  | .unseal .. => none
  | .reclaim .. => none
  | .closeStep .. => none
  | .hmake .. => none
  | .hnarrow .. => none
  | .fadd _ _ _ _ ty => need (fopOk ty) .typeCode
  | .fsub _ _ _ _ ty => need (fopOk ty) .typeCode
  | .fmul _ _ _ _ ty => need (fopOk ty) .typeCode
  | .fdiv _ _ _ _ ty => need (fopOk ty) .typeCode
  | .fmin _ _ _ _ ty => need (fopOk ty) .typeCode
  | .fmax _ _ _ _ ty => need (fopOk ty) .typeCode
  | .fsqrt _ _ _ ty => need (fopOk ty) .typeCode
  | .fneg _ _ _ ty => need (fopOk ty) .typeCode
  | .fma _ _ _ _ ty => need (fopOk ty) .typeCode
  | .fms _ _ _ _ ty => need (fopOk ty) .typeCode
  | .fcmpEq _ _ _ _ ty => need (fopOk ty) .typeCode
  | .fcmpLt _ _ _ _ ty => need (fopOk ty) .typeCode
  | .fcmpLe _ _ _ _ ty => need (fopOk ty) .typeCode
  | .fcmpUn _ _ _ _ ty => need (fopOk ty) .typeCode
  | .fcvtF2f .. => none
  | .fcvtF2i .. => none
  | .fcvtF2u .. => none
  | .fcvtI2f .. => none
  | .fcvtU2f .. => none
  | .fclass _ _ _ ty => need (fopOk ty) .typeCode
  | .vadd .. => none
  | .vsub .. => none
  | .vmul .. => none
  | .vmin .. => none
  | .vmax .. => none
  | .vabs .. => none
  | .vneg .. => none
  | .vand .. => none
  | .vor .. => none
  | .vxor .. => none
  | .vshl _ _ _ _ ty => need (shiftOk ty) .typeCode
  | .vshr _ _ _ _ ty => need (shiftOk ty) .typeCode
  | .vfma .. => none
  | .vfms .. => none
  | .vcvt .. => none
  | .vpack _ _ _ _ ty => need (packOk ty) .typeCode
  | .vunpklo _ _ _ ty => need (unpkOk ty) .typeCode
  | .vunpkhi _ _ _ ty => need (unpkOk ty) .typeCode
  | .vswp2 .. => none
  | .vrev .. => none
  | .vshuf .. => none
  | .vrot _ _ _ k ty => need (laneOk k ty) .laneRange
  | .vbcast _ _ _ k ty => need (laneOk k ty) .laneRange
  | .vext _ _ _ k ty => need (laneOk k ty) .laneRange
  | .vins _ _ _ k ty => need (laneOk k ty) .laneRange
  | .vsplat .. => none
  | .vcmpEq .. => none
  | .vcmpLt .. => none
  | .vcmpLe .. => none
  | .vsel .. => none
  | .vnz .. => none
  | .vsin _ _ _ ty => need (transOk ty) .typeCode
  | .vcos _ _ _ ty => need (transOk ty) .typeCode
  | .vexp _ _ _ ty => need (transOk ty) .typeCode
  | .vlog2 _ _ _ ty => need (transOk ty) .typeCode
  | .vrsqrt _ _ _ ty => need (transOk ty) .typeCode
  | .vrcp _ _ _ ty => need (transOk ty) .typeCode
  | .vrsum .. => none
  | .vrmax .. => none
  | .vrmin .. => none
  | .rowcpy .. => none
  | .rowzero .. => none
  | .rowadd .. => none
  | .rowmul .. => none
  | .rowaxpy .. => none
  | .rowmax .. => none
  | .rowcvt .. => none
  | .send _ _ _ rc _ _ _ => need (rc.toNat ≤ 12) .registerRange
  | .sendp _ _ _ rc _ _ => need (rc.toNat ≤ 11) .registerRange
  | .sendc _ _ _ rc _ _ => need (rc.toNat ≤ 11) .registerRange
  | .recv .. => none
  | .endCtx .. => none
  | .rel .. => none
  | .migrate .. => none
  | .yield .. => none
  | .callat _ _ _ rc _ _ => need (rc.toNat ≤ 12) .registerRange
  | .barm .. => none
  | .bara .. => none
  | .barw .. => none
  | .barq .. => none
  | .scnew .. => none
  | .scstat .. => none
  | .prune .. => none
  | .resumeW .. => none
  | .copy .. => none
  | .copys .. => none
  | .walk .. => none
  | .dedup .. => none
  | .emit .. => none
  | .slot .. => none
  | .dispatch .. => none
  | .combine .. => none
  | .djob .. => none
  | .trap .. => none
  | .eret .. => none
  | .mfs _ _ k => need (ctlAssigned k.toNat) .controlRegister
  | .mts _ _ k => need (ctlWritable k.toNat) .controlRegister
  | .breakTrap .. => none
  | .pause .. => none
  | .halt .. => none
  | .nop .. => none
  | .dsNopS => none
  | .dAdd .. => none
  | .dSub .. => none
  | .dAnd .. => none
  | .dOr .. => none
  | .dXor .. => none
  | .dSll .. => none
  | .dSrl .. => none
  | .dMul .. => none
  | .dAddi .. => none
  | .dLui .. => none
  | .dBeq .. => none
  | .dBne .. => none
  | .dBlt .. => none
  | .dJmp .. => none
  | .jget .. => none
  | .jdone .. => none
  | .agset .. => none
  | .dret => none
  | .dmfs .. => none
  | .dsNopL => none
  | .xin .. => none
  | .xout .. => none
  | .ldd .. => none
  | .std .. => none
  | .dbcpy .. => none
  | .dsNopM => none
  | .mlw .. => none
  | .mlwt .. => none
  | .mswap => none
  | .mst .. => none
  | .mstz .. => none
  | .mdrain .. => none
  | .mzero .. => none
  | .mpark => none
  | .munpark => none
  | .dsNopV => none
  | .vbias .. => none
  | .vscale .. => none
  | .vrelu .. => none
  | .vclamp .. => none
  | .vgelu .. => none
  | .latchComplete => none
  | .memoryReply => none
  | .l1FillReply => none
  | .tilePageFill => none
  | .fenceComplete => none
  | .reclaimComplete => none
  | .closeComplete => none
  | .scopeUnitReply => none
  | .pauseExpiry => none
  | .killTaken => none
  | .contextSwitchOut => none
  | .messageArrival => none
  | .handlerStart => none
  | .nackRetry => none
  | .nackFlitArrival => none
  | .ackFlitArrival => none
  | .skipFlitArrival => none
  | .flitArrival => none
  | .starveSignal => none
  | .goldenEpoch => none
  | .torusLinkFail => none
  | .sidebandResend => none
  | .migrateComplete => none
  | .builtinLoad => none
  | .builtinLoadNc => none
  | .builtinStore => none
  | .builtinLoad32 => none
  | .builtinStore32 => none
  | .builtinLdv => none
  | .builtinStv => none
  | .builtinAtomAdd => none
  | .builtinAtomAnd => none
  | .builtinAtomOr => none
  | .builtinAtomXor => none
  | .builtinAtomSmin => none
  | .builtinAtomSmax => none
  | .builtinAtomSwap => none
  | .builtinAtomCas => none
  | .builtinAtomFaddF32 => none
  | .builtinAtomFaddF64 => none
  | .builtinBadop => none
  | .rowRequest => none
  | .rowAccumulatePart => none
  | .closeNotice => none
  | .flushDemand => none
  | .rowLanding => none
  | .childArrival => none
  | .barrierRelease => none
  | .brokenNotice => none
  | .resumeBuiltin => none
  | .switchOut => none
  | .switchIn => none
  | .attention => none
  | .launchFanout => none
  | .waveRequest => none
  | .waveReport => none
  | .launchRelease => none
  | .killNotice => none
  | .pruneAcknowledgement => none
  | .pruneLinkwaitExpiry => none
  | .resetReport => none
  | .tileSpaceRequest => none
  | .tileSpaceGrant => none
  | .scopeRequest => none
  | .scopeBinding => none
  | .translationRequest => none
  | .pageWalkComplete => none
  | .homeAccess => none
  | .reclaimFloorNotice => none
  | .remoteTileAccess => none
  | .poisonError => none
  | .copyCommandAccept => none
  | .copyStart => none
  | .copyPart => none
  | .copyPartDone => none
  | .continuationProbe => none
  | .tokenNotice => none
  | .walkCommandAccept => none
  | .walkStart => none
  | .iwLineRun => none
  | .tdeCommandAccept => none
  | .dispatchStart => none
  | .exchangeCounts => none
  | .tdeAbort => none
  | .dispatchEnd => none
  | .combineStart => none
  | .combineEnd => none
  | .djobAccept => none
  | .jobGrant => none
  | .dsResultWrite => none
  | .dsTransferDone => none
  | .dsTransferFault => none
  | .dsReset => none
  | .launchSubmission => none
  | .distributorSelect => none
  | .launchLoadDone => none
  | .waveStart => none
  | .launchEnd => none
  | .custodyRecordSigned => none
  | .budgetPeriod => none
  | .lcReset => none
  | .lcResetEnd => none
  | .powerGate => none
  | .migrateRedirectNotice => none
  | .migrateMarkerReply => none
  | .migrateEndOfForwarding => none
  | .redirectRelease => none
  | .rekeyGranule => none
  | .linkFlitReceive => none
  | .replayRequest => none
  | .portRetrain => none
  | .portRemap => none
  | .portDown => none
  | .trainingComplete => none
  | .session => none
  | .bramblePacket => none
  | .tack => none
  | .tnack => none
  | .tackTimer => none
  | .transportResend => none
  | .packetAbandon => none
  | .keepalive => none
  | .brel => none
  | .mreqResend => none
  | .linkwaitExpiry => none
  | .bridgeLaneFail => none
  | .indb => none
  | .lwdb => none
  | .registerWrite => none
  | .msixUnmask => none
  | .rscmd => none
  | .resyncReady => none
  | .psetup => none
  | .ptear => none
  | .xlinv => none
  | .regionCmd => none
  | .smcMigrate => none
  | .watchCmd => none
  | .budgetCmd => none
  | .fserv => none
  | .qprio => none
  | .modid => none
  | .pcap => none
  | .rekey => none
  | .groupCmd => none
  | .fsload => none
  | .smcCommandComplete => none
  | .custseq => none
  | .mevent => none
  | .getVersion => none
  | .getCapabilities => none
  | .negotiateAlgorithms => none
  | .getDigests => none
  | .getCertificate => none
  | .challenge => none
  | .getMeasurements => none
  | .keyExchange => none
  | .finish => none
  | .keyUpdate => none
  | .endSession => none
  | .ideKeyProgram => none
  | .i3cPcapWrite => none
  | .firmwareStagingWrite => none
  | .powerReport => none
  | .thermalStepDown => none
  | .thermalStepUp => none
  | .thermalEmergency => none
  | .thermalTrip => none
  | .pcapAdjust => none
  | .smcTakeover => none
  | .lcTakeover => none
  | .spareBringIn => none
  | .moduleReset => none
  | .dsWordComplete => none
  | .rowWordComplete => none
  | .relordRelease => none
  | .ungatingEnd => none
  | .sessionCounterLimit => none
  | .moderationExpiry => none
  | .tnackResend => none

/-- The instruction is one the encodings allow. -/
def Instr.wf (i : Instr) : Bool := i.check.isNone

end Sys2Proof
end

