-- ==== Sys2Proof/Machine/Fp.lean ====
section
/-! DEFINITION. Number formats and exact arithmetic (spec 04): the floating formats, one rounding of an exact value, the float
operations, conversions, fixed-point lanes and the stochastic rounding. An exact finite value is a sign, a natural mantissa and a
binary exponent; every operation forms it exactly and rounds once. -/

namespace Sys2Proof.Machine

/-! ### Formats (spec 04 R110) -/

/-- Exponent bits. -/
def ebits : FTy → Nat | .f64 => 11 | .f32 => 8 | .f16 => 5 | .bf16 => 8 | .e4m3 => 4 | .e5m2 => 5
/-- Fraction bits. -/
def mbits : FTy → Nat | .f64 => 52 | .f32 => 23 | .f16 => 10 | .bf16 => 7 | .e4m3 => 3 | .e5m2 => 2
/-- Width in bits. -/
def fwidth : FTy → Nat | .f64 => 64 | .f32 => 32 | .f16 => 16 | .bf16 => 16 | .e4m3 => 8 | .e5m2 => 8
/-- Exponent bias. -/
def fbias : FTy → Nat | .f64 => 1023 | .f32 => 127 | .f16 => 15 | .bf16 => 127 | .e4m3 => 7 | .e5m2 => 15
/-- The canonical quiet NaN (spec 04 R112). -/
def canonNaN : FTy → Nat
  | .f64 => 0x7FF8000000000000 | .f32 => 0x7FC00000 | .f16 => 0x7E00 | .bf16 => 0x7FC0 | .e4m3 => 0x7F | .e5m2 => 0x7E
/-- Encoding of the largest finite magnitude (spec 04 R110). -/
def maxFinite : FTy → Nat
  | .f64 => 0x7FEFFFFFFFFFFFFF | .f32 => 0x7F7FFFFF | .f16 => 0x7BFF | .bf16 => 0x7F7F | .e4m3 => 0x7E | .e5m2 => 0x7B
/-- Encoding of +∞; for e4m3, which has none, the largest finite value (spec 04 R111). -/
def infEnc : FTy → Nat
  | .f64 => 0x7FF0000000000000 | .f32 => 0x7F800000 | .f16 => 0x7C00 | .bf16 => 0x7F80 | .e4m3 => 0x7E | .e5m2 => 0x7C
/-- The sign bit of the encoding. -/
def signBit (t : FTy) : Nat := 2 ^ (fwidth t - 1)

/-- A number read from an encoding. -/
inductive FVal where
  | nan (signalling : Bool)
  | inf (neg : Bool)
  | fin (neg : Bool) (m : Nat) (e : Int)
  deriving DecidableEq, Repr

/-- Flags of an operation, in the positions of FPST (spec 01 R21): NX 1, UF 2, OF 4, DZ 8, NV 16, SKIPNAN 32. -/
abbrev Fl := BitVec 8
def flNX : Fl := 1
def flUF : Fl := 2
def flOF : Fl := 4
def flDZ : Fl := 8
def flNV : Fl := 16
def flSkip : Fl := 32

/-- The value of an encoding (spec 04 R110 to R112). -/
def fval (t : FTy) (x : Nat) : FVal :=
  let neg := x / signBit t % 2 == 1
  let ex := x / 2 ^ mbits t % 2 ^ ebits t
  let fr := x % 2 ^ mbits t
  match t with
  | .e4m3 =>
    if ex = 15 ∧ fr = 7 then .nan false
    else if ex = 0 then .fin neg fr (1 - fbias t - mbits t : Int)
    else .fin neg (fr + 2 ^ mbits t) ((ex : Int) - fbias t - mbits t)
  | _ =>
    if ex = 2 ^ ebits t - 1 then
      if fr = 0 then .inf neg else .nan (fr < 2 ^ (mbits t - 1))
    else if ex = 0 then .fin neg fr (1 - fbias t - mbits t : Int)
    else .fin neg (fr + 2 ^ mbits t) ((ex : Int) - fbias t - mbits t)

/-- An encoding of a subnormal number. -/
def isSubn (t : FTy) (x : Nat) : Bool := x / 2 ^ mbits t % 2 ^ ebits t == 0 && x % 2 ^ mbits t != 0

/-- An operand after the flush of FTZ (spec 04 R119). -/
def flushIn (t : FTy) (ftz : Bool) (x : Nat) : Nat :=
  let x := x % 2 ^ fwidth t
  if ftz && isSubn t x then x / signBit t % 2 * signBit t else x

/-- The rounding in force: the mode and FTZ (spec 01 R21). -/
structure RMode where
  rm : BitVec 2
  ftz : Bool
  deriving DecidableEq, Repr
/-- Round to nearest even with subnormals kept: the home, the engines and the dense complexes (spec 04 R116). -/
def rne : RMode := ⟨0, false⟩

/-- Whether a remainder rounds the truncated magnitude up: less is -1, equal 0, greater 1 than half; inexact false means no remainder. -/
def roundsUp (rm : BitVec 2) (neg odd inexact : Bool) (cmpHalf : Int) : Bool :=
  match rm with
  | 0 => decide (cmpHalf > 0) || (cmpHalf == 0 && inexact && odd)
  | 1 => false
  | 2 => inexact && !neg
  | _ => inexact && neg

/-- The overflow result (spec 04 R111, R116). -/
def overflowEnc (t : FTy) (rm : BitVec 2) (neg : Bool) : Nat :=
  let sg := if neg then signBit t else 0
  match t with
  | .e4m3 => sg + 0x7E
  | _ => match rm with
    | 0 => sg + infEnc t
    | 1 => sg + maxFinite t
    | 2 => if neg then sg + maxFinite t else sg + infEnc t
    | _ => if neg then sg + infEnc t else sg + maxFinite t

/-- The exponent of the last place of the destination for a value whose leading bit has weight 2^E. -/
def lastPlace (t : FTy) (E : Int) : Int := max (E - mbits t) (1 - fbias t - mbits t : Int)

/-- The encoding of mant × 2^q, where q is the exponent lastPlace gives or that of the next binade. -/
def encMag (t : FTy) (mant : Nat) (q : Int) : Nat :=
  if mant < 2 ^ mbits t then mant
  else (q + fbias t + mbits t).toNat * 2 ^ mbits t + (mant - 2 ^ mbits t)

/-- Finish a rounded magnitude: overflow, underflow and FTZ (spec 04 R116, R119). inexact says the rounding was inexact; tiny says the
value rounded as if the exponent were unbounded is below the smallest normal. -/
def finishRound (t : FTy) (md : RMode) (ovRm : BitVec 2) (neg inexact tiny : Bool) (mag : Nat) : Nat × Fl :=
  let sg := if neg then signBit t else 0
  if mag > maxFinite t then (overflowEnc t ovRm neg, flOF ||| flNX)
  else if md.ftz && tiny then (sg, flUF ||| flNX)
  else (sg + mag, (if inexact then flNX else 0) |||
        (if inexact && decide (mag != 0) && decide (mag < 2 ^ mbits t) then flUF else 0))

/-- Round the magnitude m × 2^e, plus less than one unit of 2^e when sticky, to the last place q: truncated, odd, inexact, against half. -/
def cutAt (m : Nat) (e q : Int) (sticky : Bool) : Nat × Bool × Int :=
  if q ≤ e then (m * 2 ^ (e - q).toNat, sticky, -1)
  else
    let sh := (q - e).toNat
    let t := m / 2 ^ sh
    let r := m % 2 ^ sh
    let half := 2 ^ (sh - 1)
    (t, decide (r ≠ 0) || sticky, if r < half then -1 else if r = half ∧ sticky = false then 0 else 1)

/-- Round(x, t, rm) of spec 01 R48 for a finite x = (-1)^neg × (m + s) × 2^e, with 0 < s < 1 when sticky and s = 0 otherwise (spec 04
R116, R119). A zero keeps the sign given. -/
def roundF (t : FTy) (md : RMode) (neg : Bool) (m : Nat) (e : Int) (sticky : Bool) : Nat × Fl :=
  if m = 0 ∧ sticky = false then (if neg then signBit t else 0, 0)
  else
    let E := (Nat.log2 m : Int) + e
    let q := lastPlace t E
    let (tr, ix, ch) := cutAt m e q sticky
    let up := roundsUp md.rm neg (tr % 2 == 1) ix ch
    let mant := if up then tr + 1 else tr
    -- the same value rounded as if the exponent were unbounded
    let qu := E - mbits t
    let (tu, iu, cu) := cutAt m e qu sticky
    let mu := if roundsUp md.rm neg (tu % 2 == 1) iu cu then tu + 1 else tu
    let tiny := decide ((Nat.log2 mu : Int) + qu < 1 - (fbias t : Int))
    let mag := if mant = 2 ^ (mbits t + 1) then encMag t (2 ^ mbits t) (q + 1) else encMag t mant q
    finishRound t md md.rm neg ix tiny mag

/-- The stochastic rounding of spec 04 R117 with 16 random bits. -/
def roundSR (t : FTy) (ftz : Bool) (rnd : Nat) (neg : Bool) (m : Nat) (e : Int) : Nat × Fl :=
  if m = 0 then (if neg then signBit t else 0, 0)
  else
    let E := (Nat.log2 m : Int) + e
    let q := lastPlace t E
    if q ≤ e then
      let mant := m * 2 ^ (e - q).toNat
      finishRound t ⟨0, ftz⟩ 0 neg false (decide (mant < 2 ^ mbits t)) (encMag t mant q)
    else
      let sh := (q - e).toNat
      let tr := m / 2 ^ sh
      let r := m % 2 ^ sh
      let F := r * 65536 / 2 ^ sh
      let mant := if r ≠ 0 ∧ F + rnd ≥ 65536 then tr + 1 else tr
      let mag := if mant = 2 ^ (mbits t + 1) then encMag t (2 ^ mbits t) (q + 1) else encMag t mant q
      finishRound t ⟨0, ftz⟩ 0 neg (decide (r ≠ 0)) (decide (mag ≠ 0 ∧ mag < 2 ^ mbits t)) mag

/-- Steps of the Galois LFSR x^32 + x^22 + x^2 + x + 1 (spec 04 R117). -/
def lfsrStep (l : BitVec 32) : BitVec 32 := if l.getLsbD 0 then (l >>> 1) ^^^ 0x80200003 else l >>> 1
/-- k steps of the LFSR. -/
def lfsrSteps : Nat → BitVec 32 → BitVec 32
  | 0, l => l
  | k + 1, l => lfsrSteps k (lfsrStep l)

/-! ### Arithmetic (spec 04 R110, R112, R121) -/

/-- A signed exact value as an integer times a power of two. -/
def sgn (neg : Bool) (m : Nat) : Int := if neg then -(m : Int) else (m : Int)

/-- Round an exact integer multiple of 2^e; an exact zero takes the sign IEEE 754 gives to an exact cancellation. -/
def roundInt (t : FTy) (md : RMode) (v : Int) (e : Int) : Nat × Fl :=
  if v = 0 then (if md.rm = 3 then signBit t else 0, 0)
  else roundF t md (decide (v < 0)) v.natAbs e false

/-- The canonical NaN of t with NV when an invalid operation raised it. -/
def nanRes (t : FTy) (nv : Bool) : Nat × Fl := (canonNaN t, if nv then flNV else 0)
/-- ±∞ of t. -/
def infRes (t : FTy) (neg : Bool) : Nat × Fl := ((if neg then signBit t else 0) + infEnc t, if t = .e4m3 then flOF ||| flNX else 0)

/-- A signalling NaN. -/
def FVal.isSig : FVal → Bool | .nan b => b | .inf _ => false | .fin .. => false
def FVal.isNaN : FVal → Bool | .nan _ => true | .inf _ => false | .fin .. => false
def FVal.isInf : FVal → Bool | .nan _ => false | .inf _ => true | .fin .. => false
def FVal.isZero : FVal → Bool | .nan _ => false | .inf _ => false | .fin _ m _ => m == 0
def FVal.neg : FVal → Bool | .nan _ => false | .inf n => n | .fin n _ _ => n
/-- The value with its sign changed. -/
def FVal.flip : FVal → FVal | .nan b => .nan b | .inf n => .inf !n | .fin n m e => .fin (!n) m e

/-- Round(a + b, t). -/
def addV (t : FTy) (md : RMode) (a b : FVal) : Nat × Fl :=
  match a, b with
  | .nan x, b => nanRes t (x || b.isSig)
  | a, .nan y => nanRes t (a.isSig || y)
  | .inf x, .inf y => if x = y then infRes t x else nanRes t true
  | .inf x, .fin .. => infRes t x
  | .fin .., .inf y => infRes t y
  | .fin na ma ea, .fin nb mb eb =>
    if ma = 0 ∧ mb = 0 ∧ na = nb then roundF t md na 0 0 false
    else
      let e := min ea eb
      roundInt t md (sgn na ma * (2 ^ (ea - e).toNat : Nat) + sgn nb mb * (2 ^ (eb - e).toNat : Nat)) e

/-- Round(a × b + c, t), rounded once; the product 0 × ∞ raises NV whatever c is (spec 06 R157). -/
def fmaV (t : FTy) (md : RMode) (a b c : FVal) : Nat × Fl :=
  if (a.isZero && b.isInf) || (a.isInf && b.isZero) then nanRes t true
  else if a.isNaN || b.isNaN || c.isNaN then nanRes t (a.isSig || b.isSig || c.isSig)
  else if a.isInf || b.isInf then
    let n := a.neg != b.neg
    match c with
    | .inf y => if n = y then infRes t n else nanRes t true
    | _ => infRes t n
  else match a, b, c with
    | .fin na ma ea, .fin nb mb eb, .fin .. => addV t md (.fin (na != nb) (ma * mb) (ea + eb)) c
    | _, _, c => infRes t c.neg

/-- Round(a × b, t). -/
def mulV (t : FTy) (md : RMode) (a b : FVal) : Nat × Fl :=
  if a.isNaN || b.isNaN then nanRes t (a.isSig || b.isSig)
  else if (a.isZero && b.isInf) || (a.isInf && b.isZero) then nanRes t true
  else match a, b with
    | .fin na ma ea, .fin nb mb eb => roundF t md (na != nb) (ma * mb) (ea + eb) false
    | _, _ => infRes t (a.neg != b.neg)

/-- Bits carried by a quotient before its sticky bit. -/
def divBits : Nat := 128
/-- Round(a / b, t) (spec 06 R154). -/
def divV (t : FTy) (md : RMode) (a b : FVal) : Nat × Fl :=
  if a.isNaN || b.isNaN then nanRes t (a.isSig || b.isSig)
  else match a, b with
    | .inf x, .fin y _ _ => infRes t (x != y)
    | .fin x _ _, .inf y => roundF t md (x != y) 0 0 false
    | .fin na ma ea, .fin nb mb eb =>
      if mb = 0 then (if ma = 0 then nanRes t true else ((infRes t (na != nb)).1, flDZ))
      else if ma = 0 then roundF t md (na != nb) 0 0 false
      else
        let n := ma * 2 ^ divBits
        roundF t md (na != nb) (n / mb) (ea - eb - divBits) (decide (n % mb ≠ 0))
    | _, _ => nanRes t true

/-- Integer square root, by Newton bits from fuel down: the largest r with r² ≤ n. -/
def isqrtAux : Nat → Nat → Nat → Nat
  | 0, _, r => r
  | k + 1, n, r =>
    let c := r + 2 ^ k
    isqrtAux k n (if c * c ≤ n then c else r)
/-- The largest r with r² ≤ n. -/
def isqrt (n : Nat) : Nat := isqrtAux (Nat.log2 n / 2 + 1) n 0

/-- Round(√a, t) (spec 06 R154). -/
def sqrtV (t : FTy) (md : RMode) (a : FVal) : Nat × Fl :=
  match a with
  | .nan s => nanRes t s
  | .inf n => if n then nanRes t true else infRes t false
  | .fin n m e =>
    if m = 0 then roundF t md n 0 0 false
    else if n then nanRes t true
    else
      -- an even exponent and enough bits
      let sh := 128 + (e % 2).toNat
      let v := m * 2 ^ sh
      let r := isqrt v
      roundF t md false r ((e - sh) / 2) (decide (r * r ≠ v))

/-! ### Operations on encodings under FPCTL -/

/-- The value of an operand after the flush of FTZ. -/
def opnd (t : FTy) (md : RMode) (x : Nat) : FVal := fval t (flushIn t md.ftz x)

def fAdd (t : FTy) (md : RMode) (a b : Nat) : Nat × Fl := addV t md (opnd t md a) (opnd t md b)
def fSub (t : FTy) (md : RMode) (a b : Nat) : Nat × Fl := addV t md (opnd t md a) (opnd t md b).flip
def fMul (t : FTy) (md : RMode) (a b : Nat) : Nat × Fl := mulV t md (opnd t md a) (opnd t md b)
def fDiv (t : FTy) (md : RMode) (a b : Nat) : Nat × Fl := divV t md (opnd t md a) (opnd t md b)
def fSqrt (t : FTy) (md : RMode) (a : Nat) : Nat × Fl := sqrtV t md (opnd t md a)
def fFma (t : FTy) (md : RMode) (a b c : Nat) : Nat × Fl := fmaV t md (opnd t md a) (opnd t md b) (opnd t md c)
def fFms (t : FTy) (md : RMode) (a b c : Nat) : Nat × Fl := fmaV t md (opnd t md a) (opnd t md b) (opnd t md c).flip

/-- The order of two numbers, −0 below +0 when tieSign, as -1, 0, 1. -/
def cmpV (tieSign : Bool) (a b : FVal) : Int :=
  match a, b with
  | .inf x, .inf y => if x = y then 0 else if x then -1 else 1
  | .inf x, _ => if x then -1 else 1
  | _, .inf y => if y then 1 else -1
  | .fin na ma ea, .fin nb mb eb =>
    if ma = 0 ∧ mb = 0 then (if tieSign ∧ na ≠ nb then (if na then -1 else 1) else 0)
    else
      let e := min ea eb
      let x := sgn na ma * (2 ^ (ea - e).toNat : Nat)
      let y := sgn nb mb * (2 ^ (eb - e).toNat : Nat)
      if x < y then -1 else if x = y then 0 else 1
  | _, _ => 0

/-- Minimum (or maximum) of R155 (spec 06): the encoding of the chosen operand after the flush. -/
def fMinMax (t : FTy) (md : RMode) (isMax : Bool) (a b : Nat) : Nat × Fl :=
  let a := flushIn t md.ftz a
  let b := flushIn t md.ftz b
  let va := fval t a
  let vb := fval t b
  let fl : Fl := if va.isSig || vb.isSig then flNV else 0
  if va.isNaN && vb.isNaN then (canonNaN t, fl)
  else if va.isNaN then (b, fl)
  else if vb.isNaN then (a, fl)
  else
    let c := cmpV true va vb
    (if isMax then (if c < 0 then b else a) else (if c > 0 then b else a), fl)

/-- The four float compares (spec 06 R158). -/
inductive FCmp where | eq | lt | le | un
  deriving DecidableEq, Repr
/-- The relation of two encodings and its flags (spec 06 R158). -/
def fCompare (t : FTy) (md : RMode) (c : FCmp) (a b : Nat) : Bool × Fl :=
  let va := opnd t md a
  let vb := opnd t md b
  let fl : Fl := if va.isSig || vb.isSig then flNV else 0
  let un := va.isNaN || vb.isNaN
  let o := cmpV false va vb
  (match c with
    | .un => un
    | .eq => !un && o == 0
    | .lt => !un && decide (o < 0)
    | .le => !un && decide (o ≤ 0), fl)

/-- The class mask of fclass (spec 06 R160). -/
def fClass (t : FTy) (x : Nat) : Nat :=
  let x := x % 2 ^ fwidth t
  match fval t x with
  | .nan true => 256
  | .nan false => 512
  | .inf true => 1
  | .inf false => 128
  | .fin n m _ =>
    if m = 0 then (if n then 8 else 16)
    else if isSubn t x then (if n then 4 else 32)
    else (if n then 2 else 64)

/-! ### Integers and fixed point (spec 04 R113, R114) -/

/-- A two's-complement reading of the low w bits. -/
def toSigned (w : Nat) (x : Nat) : Int :=
  let x := x % 2 ^ w
  if x < 2 ^ (w - 1) then (x : Int) else (x : Int) - (2 ^ w : Nat)
/-- The low w bits of an integer. -/
def wrapN (w : Nat) (v : Int) : Nat := (v % (2 ^ w : Nat)).toNat
/-- SatS of spec 01 R48. -/
def satS (v : Int) (w : Nat) : Int := max (-(2 ^ (w - 1) : Nat)) (min v ((2 ^ (w - 1) : Nat) - 1))
/-- SatU of spec 01 R48. -/
def satU (v : Int) (w : Nat) : Int := max 0 (min v ((2 ^ w : Nat) - 1))
/-- v / 2^k rounded to the nearest integer, ties to even. -/
def rneShift (v : Int) (k : Nat) : Int :=
  let q := v / (2 ^ k : Nat)
  let r := (v % (2 ^ k : Nat)).toNat
  let half := 2 ^ k / 2
  if k = 0 then v else if r < half then q else if r > half then q + 1 else if q % 2 = 0 then q else q + 1

/-- An exact finite value as an integer under a rounding mode, with whether it was inexact. -/
def roundToInt (rm : BitVec 2) (neg : Bool) (m : Nat) (e : Int) : Int × Bool :=
  let (tr, ix, ch) := cutAt m e 0 false
  let up := roundsUp rm neg (tr % 2 == 1) ix ch
  (sgn neg (if up then tr + 1 else tr), ix)

/-- The element types as they compute: a float type, a signed or unsigned integer of w bits, or fx64. -/
inductive Lane where
  | flt (t : FTy)
  | sint (w : Nat)
  | uint (w : Nat)
  | fx
  deriving DecidableEq, Repr
/-- The kind of an element type (spec 01 R20; 04 R113). -/
def laneOf : ETy → Lane
  | .i8 => .sint 8 | .i16 => .sint 16 | .i32 => .sint 32 | .i64 => .sint 64
  | .n8 => .uint 8 | .n16 => .uint 16 | .n32 => .uint 32 | .n64 => .uint 64
  | .f64 => .flt .f64 | .f32 => .flt .f32 | .f16 => .flt .f16 | .bf16 => .flt .bf16 | .e4m3 => .flt .e4m3
  | .e5m2 => .flt .e5m2 | .fx64 => .fx
/-- The element type of a scalar float type. -/
def etyOfF : FTy → ETy
  | .f64 => .f64 | .f32 => .f32 | .f16 => .f16 | .bf16 => .bf16 | .e4m3 => .e4m3 | .e5m2 => .e5m2

/-- How a conversion rounds a float result: under a mode, or stochastically with 16 bits (spec 04 R117). -/
inductive Rnd where
  | mode (md : RMode)
  | stoch (ftz : Bool) (bits : Nat)
  deriving DecidableEq, Repr
def Rnd.ftz : Rnd → Bool | .mode md => md.ftz | .stoch f _ => f
/-- The mode conversions to integers use. -/
def Rnd.rm : Rnd → BitVec 2 | .mode md => md.rm | .stoch _ _ => 0

/-- Round an exact finite value to a float type. -/
def rndFin (t : FTy) (r : Rnd) (neg : Bool) (m : Nat) (e : Int) : Nat × Fl :=
  match r with
  | .mode md => roundF t md neg m e false
  | .stoch ftz b => roundSR t ftz b neg m e

/-- A float to an integer range lo..hi, scaled by 2^k (spec 04 R120). -/
def floatToInt (rm : BitVec 2) (v : FVal) (k lo hi : Int) : Int × Fl :=
  match v with
  | .nan _ => (0, flNV)
  | .inf n => (if n then lo else hi, flNV)
  | .fin n m e =>
    let (x, ix) := roundToInt rm n m (e + k)
    if x < lo then (lo, flNV) else if x > hi then (hi, flNV) else (x, if ix then flNX else 0)

/-- The value of an integer lane. -/
def laneInt (l : Lane) (x : Nat) : Int :=
  match l with
  | .sint w => toSigned w x
  | .uint w => ((x % 2 ^ w : Nat) : Int)
  | .fx => toSigned 64 x
  | .flt _ => 0

/-- Convert(x, dst) of spec 04 R120; rmI is the mode of conversions to integers. Equal float types pass quiet NaNs (R112). -/
def convert (src dst : ETy) (r : Rnd) (rmI : BitVec 2) (x : Nat) : Nat × Fl :=
  match laneOf src, laneOf dst with
  | .flt s, .flt t =>
    let x := flushIn s r.ftz x
    match fval s x with
    | .nan sg => if s = t ∧ sg = false then (x, 0) else nanRes t sg
    | .inf n => infRes t n
    | .fin n m e => if s = t then (x, 0) else rndFin t r n m e
  | .flt s, .sint w =>
    let (v, f) := floatToInt rmI (opnd s ⟨rmI, r.ftz⟩ x) 0 (-(2 ^ (w - 1) : Nat)) ((2 ^ (w - 1) : Nat) - 1)
    (wrapN w v, f)
  | .flt s, .uint w =>
    let (v, f) := floatToInt rmI (opnd s ⟨rmI, r.ftz⟩ x) 0 0 ((2 ^ w : Nat) - 1)
    (wrapN w v, f)
  | .flt s, .fx =>
    let (v, f) := floatToInt rmI (opnd s ⟨rmI, r.ftz⟩ x) 32 (-(2 ^ 63 : Nat)) ((2 ^ 63 : Nat) - 1)
    (wrapN 64 v, f)
  | .fx, .flt t =>
    let v := toSigned 64 x
    rndFin t r (decide (v < 0)) v.natAbs (-32)
  | .fx, .fx => (x % 2 ^ 64, 0)
  | .fx, .sint w => (wrapN w (satS (toSigned 64 x / (2 ^ 32 : Nat)) w), 0)
  | .fx, .uint w => (wrapN w (satU (toSigned 64 x / (2 ^ 32 : Nat)) w), 0)
  | l, .fx => (wrapN 64 (satS (laneInt l x * (2 ^ 32 : Nat)) 64), 0)
  | l, .flt t =>
    let v := laneInt l x
    rndFin t r (decide (v < 0)) v.natAbs 0
  | .sint v, .sint w => (wrapN w (satS (laneInt (.sint v) x) w), 0)
  | .uint v, .uint w => (wrapN w (satU (laneInt (.uint v) x) w), 0)
  | .uint v, .sint w =>
    let y := laneInt (.uint v) x
    (if v = w ∧ (2 ^ (w - 1) : Nat) ≤ y then (Config.sameWidth v 0 x).toNat % 2 ^ w else wrapN w (satS y w), 0)
  | .sint v, .uint w =>
    let y := laneInt (.sint v) x
    (if v < w then wrapN w y else if v = w ∧ y < 0 then (Config.sameWidth v 1 x).toNat % 2 ^ w else wrapN w (satU y w), 0)

/-- Destination types whose conversions round stochastically under FPCTL.SR (spec 04 R117). -/
def stochTy : ETy → Bool
  | .bf16 => true | .e4m3 => true | .e5m2 => true
  | .i8 => false | .i16 => false | .i32 => false | .i64 => false | .n8 => false | .n16 => false | .n32 => false | .n64 => false
  | .f64 => false | .f32 => false | .f16 => false | .fx64 => false

/-- One conversion of a lane under FPCTL: rounding mode, FTZ and SR with the LFSR before; the LFSR after (spec 04 R117, R118). -/
def convertLane (src dst : ETy) (md : RMode) (sr : Bool) (l : BitVec 32) (x : Nat) : (Nat × Fl) × BitVec 32 :=
  if sr && stochTy dst then
    let l' := lfsrSteps 16 l
    (convert src dst (.stoch md.ftz (l'.toNat % 65536)) md.rm x, l')
  else (convert src dst (.mode md) md.rm x, l)

/-- The encoding of a lane counts as zero (spec 04 R124). -/
def laneZero (e : ETy) (x : Nat) : Bool :=
  match laneOf e with
  | .flt t => x % signBit t == 0
  | .sint w => x % 2 ^ w == 0
  | .uint w => x % 2 ^ w == 0
  | .fx => x % 2 ^ 64 == 0

end Sys2Proof.Machine
end

