-- ==== Sys2Proof/Machine/Trans.lean ====
section
/-! DEFINITION. The transcendental functions of the vector unit and of vgelu (spec 06 R172, 10 R290), each the exact value rounded
once. Values are formed in fixed point with 512 fractional bits by series cut after a fixed number of terms; no value of the three lane
types lies so near a rounding boundary that the error of the series could cross it (log entry 9). -/

namespace Sys2Proof.Machine

/-- Fractional bits of the fixed-point values below. -/
def fxBits : Nat := 512
/-- 2^512. -/
def fxOne : Nat := 2 ^ fxBits
/-- π × 2^768, truncated. -/
def piFx : Nat := 4877379433337147730785367636783184438106629544617005312117094624703067483921226022338309556503443306860806188903176291743533035472145733148871978886168796592731366023201732593643478734362637387390638076433575349658271570922316398230
/-- ln 2 × 2^512, truncated. -/
def ln2Fx : Nat := 9293584264128987901384440660653081117630633404975079641076009770578364573633075645167623918067512986930843040596952636663673675798576024949780480621393957

/-- Sum of the alternating series whose next term is term × r2 / (k (k + 1)), k growing by 2. -/
def altSeries : Nat → Nat → Nat → Nat → Bool → Int → Int
  | 0, _, _, _, _, acc => acc
  | fuel + 1, term, r2, k, neg, acc =>
    let term' := term * r2 / fxOne / (k * (k + 1))
    altSeries fuel term' r2 (k + 2) (!neg) (if neg then acc - term' else acc + term')
/-- sin r for 0 ≤ r ≤ π/4. -/
def sinFx (r : Nat) : Int := altSeries 64 r (r * r / fxOne) 2 true r
/-- cos r for 0 ≤ r ≤ π/4. -/
def cosFx (r : Nat) : Int := altSeries 64 fxOne (r * r / fxOne) 1 true fxOne

/-- Sum of the series whose next term is term × y / k. -/
def expSeries : Nat → Nat → Nat → Nat → Nat → Nat
  | 0, _, _, _, acc => acc
  | fuel + 1, term, y, k, acc =>
    let term' := term * y / fxOne / k
    expSeries fuel term' y (k + 1) (acc + term')
/-- 2^f for 0 ≤ f < 1. -/
def exp2Fx (f : Nat) : Nat := expSeries 112 fxOne (f * ln2Fx / fxOne) 1 fxOne

/-- Sum of z^(2k+1) / (2k+1). -/
def atanhSeries : Nat → Nat → Nat → Nat → Nat → Nat
  | 0, _, _, _, acc => acc
  | fuel + 1, p, z2, k, acc => atanhSeries fuel (p * z2 / fxOne) z2 (k + 2) (acc + p / k)
/-- log2 of y / 2^512 for 1 ≤ y / 2^512 < 2. -/
def log2Fx (y : Nat) : Nat :=
  let z := (y - fxOne) * fxOne / (y + fxOne)
  2 * atanhSeries 172 z (z * z / fxOne) 1 0 * fxOne / ln2Fx

/-- Sum of x^(2k+1) / (1 · 3 · … · (2k+1)). -/
def oddSeries : Nat → Nat → Nat → Nat → Nat → Nat
  | 0, _, _, _, acc => acc
  | fuel + 1, term, x2, k, acc =>
    let term' := term * x2 / fxOne / k
    oddSeries fuel term' x2 (k + 2) (acc + term')
/-- φ(x) times the odd series: Φ(x) − 1/2 for 0 ≤ x < 16, φ the density of the standard normal distribution. -/
def phiTail (x : Nat) : Nat :=
  let x2 := x * x / fxOne
  let u := x2 / 2 * fxOne / ln2Fx
  -- e^(-x²/2) = 2^(-u) = 2^(-n) · 2^(1-f) / 2 with u = n + f
  let n := u / fxOne
  let f := u % fxOne
  let ex := if f = 0 then fxOne / 2 ^ n else exp2Fx (fxOne - f) / 2 ^ (n + 1)
  let rt := isqrt (2 * piFx / 2 ^ 256 * fxOne)
  let dens := ex * fxOne / rt
  dens * oddSeries 900 x x2 3 x / fxOne

/-- Rounding of an inexact signed fixed-point value. -/
def rndFx (t : FTy) (md : RMode) (v : Int) : Nat × Fl := roundF t md (decide (v < 0)) v.natAbs (-512) true

/-- sin (or cos) of m × 2^e, m > 0 (spec 06 R172). -/
def trig (t : FTy) (md : RMode) (isCos neg : Bool) (m : Nat) (e : Int) : Nat × Fl :=
  if (Nat.log2 m : Int) + e < -40 then
    if isCos then roundF t md false (2 ^ 80 - 1) (-80) true
    else roundF t md neg (m * 2 ^ 80 - 1) (e - 80) true
  else
    let x := m * 2 ^ (e + 768).toNat
    let hp := piFx / 2
    let q := (2 * x + hp) / (2 * hp)
    let r : Int := (x : Int) - (q * hp : Nat)
    let ra := r.natAbs / 2 ^ 256
    let s := if r < 0 then -(sinFx ra) else sinFx ra
    let c := cosFx ra
    let v := if isCos then
        (match q % 4 with | 0 => c | 1 => -s | 2 => -c | _ => s)
      else
        (match q % 4 with | 0 => s | 1 => c | 2 => -s | _ => -c)
    rndFx t md (if neg && !isCos then -v else v)

/-- The six functions of VTRANS (spec 06 R172). -/
inductive TransOp where | sin | cos | exp | log2 | rsqrt | rcp
  deriving DecidableEq, Repr

/-- One lane of a VTRANS word: special inputs first, then the exact value rounded once (spec 06 R172). -/
def trans (op : TransOp) (t : FTy) (md : RMode) (x : Nat) : Nat × Fl :=
  match op, opnd t md x with
  | _, .nan s => nanRes t s
  | .sin, .inf _ => nanRes t true
  | .cos, .inf _ => nanRes t true
  | .exp, .inf n => if n then (0, 0) else infRes t false
  | .log2, .inf n => if n then nanRes t true else infRes t false
  | .rsqrt, .inf n => if n then nanRes t true else (0, 0)
  | .rcp, .inf n => (if n then signBit t else 0, 0)
  | .sin, .fin n m e => if m = 0 then (if n then signBit t else 0, 0) else trig t md false n m e
  | .cos, .fin n m e => if m = 0 then roundF t md false 1 0 false else trig t md true n m e
  | .exp, .fin n m e =>
    let v : Int := sgn n (m * 2 ^ (e + 512).toNat)
    let k := v / (fxOne : Int)
    let f := (v % (fxOne : Int)).toNat
    let kc := max (-1000) (min k 1000)
    if f = 0 then roundF t md false 1 kc false else roundF t md false (exp2Fx f) (kc - 512) true
  | .log2, .fin n m e =>
    if m = 0 then ((infRes t true).1, flDZ)
    else if n then nanRes t true
    else
      let lg := Nat.log2 m
      let k : Int := (lg : Int) + e
      if m = 2 ^ lg then roundF t md (decide (k < 0)) k.natAbs 0 false
      else rndFx t md (k * (fxOne : Int) + (log2Fx (m * 2 ^ (512 - lg)) : Int))
  | .rsqrt, .fin n m e =>
    if m = 0 then ((infRes t n).1, flDZ)
    else if n then nanRes t true
    else
      let p := (e % 2).toNat
      let m' := m * 2 ^ p
      let r := isqrt (2 ^ 320 / m')
      roundF t md false r (-((e - p) / 2) - 160) (decide (r * r * m' ≠ 2 ^ 320))
  | .rcp, .fin n m e => divV t md (.fin false 1 0) (.fin n m e)

/-- x × Φ(x) in f32, rounded to nearest even (spec 10 R290). -/
def gelu (x : Nat) : Nat × Fl :=
  match fval .f32 x with
  | .nan s => nanRes .f32 s
  | .inf n => if n then (signBit .f32, 0) else infRes .f32 false
  | .fin n m e =>
    if m = 0 then (if n then signBit .f32 else 0, 0)
    else if (Nat.log2 m : Int) + e ≥ 4 then
      if n then roundF .f32 rne true 1 (-400) true
      else roundF .f32 rne false (m * 2 ^ 64 - 1) (e - 64) true
    else
      let t := phiTail (m * 2 ^ (e + 512).toNat)
      let p := if n then fxOne / 2 - t else fxOne / 2 + t
      roundF .f32 rne n (m * p) (e - 512) true

end Sys2Proof.Machine
end

