-- ==== Sys2Proof/Machine/State.lean ====
section
/-! DEFINITION. The state of one module as plain data: every piece of state the spec gives it (INVENTORY.md, '## State'), the reasons a
step can stop, and the state right after reset. Tables with many like entries are lists of key and value pairs; a key that is not listed
holds the entry's reset value. -/

namespace Sys2Proof.Machine

/-- Why a step stops without a next state. -/
inductive Fault where
  /-- Raised by step when the module's clocks are stopped by a thermal trip (spec 18 R478). Safe: the hardware does nothing more. -/
  | clockStopped
  deriving DecidableEq, Repr

/-- Why an instruction has no meaning here. -/
inductive Refusal where
  /-- Raised by exec for an instruction whose meaning is not written yet. Safe: nothing is claimed of it. -/
  | notModelled (mnemonic : String)
  deriving DecidableEq, Repr

/-- A table keyed by numbers, ascending; a key that is not listed holds the default. -/
abbrev Table (α : Type) := List (Nat × α)

/-! ### Lookup-core contexts (spec 01 R8) -/

/-- A general register: 64 data bits and the hidden handle tag (spec 01 R9). -/
structure GReg where
  val : Word := 0
  tag : Bool := false
  deriving DecidableEq, Repr

/-- States of a context (spec 02 R59). -/
inductive CtxSt where
  | free | ready | waiting | stopped | saved
  deriving DecidableEq, Repr

/-- States of a token register (spec 01 R15). -/
inductive TokSt where
  | empty | pending | done | failed | cancelled
  deriving DecidableEq, Repr

/-- A token register with the operation attached to it (spec 01 R15). -/
structure Tok where
  st : TokSt := .empty
  op : Nat := 0
  deriving DecidableEq, Repr

/-- A result latch (spec 01 R13): destination, value, cycles remaining and the flags its completion raises (spec 04 R122). -/
structure Latch where
  dest : BitVec 3
  val : BitVec 256
  rem : Nat
  flags : Fl
  deriving DecidableEq, Repr

/-- A trap: cause, sub-cause and value (spec 01 R26, R27). -/
structure Trap where
  code : BitVec 8
  sub : BitVec 8 := 0
  tval : Word := 0
  deriving DecidableEq, Repr

/-- The control registers of a context (spec 01 R18 to R31). MYRANK, CTXID and MODE are computed from the core, the context number and
the module id; UNREL is the length of the send buffer. -/
structure Ctl where
  shape : BitVec 16 := 0
  fpctl : BitVec 16 := 0
  fpst : Fl := 0
  lfsr : BitVec 32 := 1
  base : BitVec 16 := 0
  cur : BitVec 16 := 0
  rtag : BitVec 32 := 0
  linkwait : BitVec 32 := 0x64
  cause : BitVec 32 := 0
  tval : Word := 0
  tpc : BitVec 32 := 0
  tmid : BitVec 32 := 0
  ie : Bool := true
  reld : Bool := false
  inhnd : Bool := false
  kpend : Bool := false
  ipend : Bool := false
  wpaddr : Vector (BitVec 48) 4 := Vector.replicate 4 0
  wpmask : Vector Word 4 := Vector.replicate 4 0
  deriving DecidableEq, Repr

/-- Kinds of a message (spec 02 R49). -/
inductive MKind where
  | spawn | resume | builtin | context
  deriving DecidableEq, Repr

/-- A message: header, argument words with tags, payload, inline code (spec 02 R49), and what its NI keeps with it: the sender's full rank
and context, its partition and the sender's RTAG (spec 02 R51, R55), and the mark of a poisoned payload unit (spec 12 R337). -/
structure Msg where
  /-- the model's number of the message -/
  no : Nat := 0
  dest : BitVec 24 := 0
  prio : BitVec 2 := 0
  kind : MKind := .spawn
  inl : Bool := false
  pay : Bool := false
  merge : Bool := false
  relord : Bool := false
  addr : BitVec 32 := 0
  scope : BitVec 16 := 0
  plen : BitVec 8 := 0
  /-- ILEN of a spawn, STATUS of a resume -/
  ilen : BitVec 8 := 0
  srclr : BitVec 12 := 0
  seqn : BitVec 20 := 0
  args : Vector GReg 4 := Vector.replicate 4 {}
  payload : List Byte := []
  code : List (BitVec 32) := []
  srank : BitVec 24 := 0
  sctx : Nat := 0
  part : Nat := 0
  rtag : BitVec 32 := 0
  poisoned : List Nat := []
  /-- passed over by lane selection after a handler fault (spec 02 R65) -/
  heldBack : Bool := false
  /-- counted as received already (spec 15 R391) -/
  counted : Bool := false
  /-- the physical row address a row or accumulate part names, when hardware formed the message -/
  pa : Nat := 0
  /-- retries already made (spec 16 R420) -/
  tries : Nat := 0
  /-- acting rank of the context that sent it (spec 12 R330) -/
  arank : BitVec 24 := 0
  /-- made by hardware for a context: an answer to a request of hardware, a row accumulate part, a close notice (log entry 26) -/
  hw : Bool := false
  /-- delivered on arrival, outside the order of its stream (spec 17 R432) -/
  noord : Bool := false
  /-- activity class minus 1 (spec 15 R400) -/
  cls : BitVec 3 := 0
  /-- thread rank the started context will hold (spec 02 R68) -/
  bind : Option (BitVec 24) := none
  /-- stores of the sender that RELORD waits for: their request numbers (spec 08 R219) -/
  waits : List Nat := []
  /-- a resume forwarded behind a thread that moved: the core that forwards it and the core it goes to (spec 02 R70) -/
  via : Option (Nat × Nat) := none
  /-- the watch unit that formed a report (spec 12 R333) -/
  watch : Option Nat := none
  /-- its place in the order in which the core has taken messages in (spec 16 R416) -/
  came : Nat := 0
  /-- the Bramble port by which it came from another module (spec 15 R398) -/
  inport : Option Nat := none
  /-- a built-in that has been taken in and counts as received when it has been performed (spec 15 R391) -/
  owed : Bool := false
  deriving DecidableEq, Repr

/-- An engine command in a send buffer (spec 09 R247): the operation's number and its engine. -/
structure Cmd where
  op : Nat
  deriving DecidableEq, Repr

/-- An entry of the send buffer: a message or an engine command (spec 02 R65; 09 R247). -/
inductive Buffered where
  | msg (m : Msg)
  | cmd (c : Cmd)
  deriving DecidableEq, Repr

/-- What keeps a READY context from issuing (spec 01 R48 Block; 09 R267, R268; 08 R224). -/
inductive Hold where
  | none
  /-- a memory access of the blocked word, by request number -/
  | access (req : Nat)
  /-- a fence: kind, SYS, destination, range -/
  | fence (kind : BitVec 2) (sys : Bool) (rd : BitVec 4) (lo hi : Nat)
  /-- RECLAIM waiting for acknowledgements from homes -/
  | reclaim (acks : Nat)
  /-- CLOSE: destination, its number, homes still to answer, homes that did not, STALE seen -/
  | close (rd : BitVec 4) (no : Nat) (homes : List (BitVec 24)) (nhome : Nat) (stale : Bool)
  /-- scnew or scstat waiting for the scope unit: destination and request number -/
  | scopeUnit (rd : BitVec 4) (req : Nat)
  /-- a tile page fill: the page; the word is issued again after it -/
  | tilePage (page : Nat)
  /-- a ROW word in the row unit, and the beat it performs next (spec 06 R176, R177) -/
  | row (i : Instr) (beat : Nat)
  | paused
  | halted
  deriving DecidableEq, Repr

/-- Waiting state of a RECV (spec 08 R225). -/
structure Recv where
  filt : BitVec 32 := 0
  mask : BitVec 32 := 0
  rd : BitVec 4 := 0
  deriving DecidableEq, Repr

/-- A context of a lookup core (spec 01 R8). -/
structure Ctx where
  st : CtxSt := .free
  g : Vector GReg 16 := Vector.replicate 16 {}
  /-- p0 to p15; bit 0 reads 1 -/
  preds : BitVec 16 := 1
  w : Vector (BitVec 256) 8 := Vector.replicate 8 0
  latches : List Latch := []
  /-- entry 0 is never used: tk0 is an encoding (spec 01 R15) -/
  toks : Vector Tok 8 := Vector.replicate 8 {}
  /-- address of the word that issues -/
  pc : BitVec 32 := 0
  /-- address of the next word, set by a control transfer -/
  npc : BitVec 32 := 0
  /-- slot of that word in its group -/
  slot : Nat := 0
  /-- words of the group that issues, as fetched and decoded at its start (spec 03 R86) -/
  grp : List (BitVec 32) := []
  /-- cycles that pass at the boundary beside the group's own: bubbles of a taken transfer, a yield or a pause (spec 05 R143) -/
  bubble : Nat := 0
  /-- the word at pc has performed and waits to retire -/
  fin : Bool := false
  /-- slots suppressed when a group restarts (spec 16 R402) -/
  doneMask : BitVec 4 := 0
  /-- restarted from its frame, with no group issued since: its latches stand until one issues (spec 16 R410) -/
  resumed : Bool := false
  /-- slots of this group performed so far -/
  performed : BitVec 4 := 0
  ctl : Ctl := {}
  /-- MTS values to be applied at the boundary (spec 01 R19) -/
  pendMts : List (Nat × Word) := []
  /-- flags raised by the group (spec 01 R19) -/
  pendFl : Fl := 0
  /-- handle bases whose holders the group's send sweeps (spec 01 R11; 03 R88) -/
  sweep : List (BitVec 48) := []
  /-- token notices that have come and wait for the boundary (spec 09 R244) -/
  notices : List (Nat × TokSt) := []
  hold : Hold := .none
  /-- what a RECV that waits matches (spec 08 R225) -/
  recv : Recv := {}
  sends : List Buffered := []
  /-- the message the context holds (spec 02 R62) -/
  held : Option Msg := none
  /-- thread rank held (spec 02 R68) -/
  trank : Option (BitVec 24) := none
  /-- tile space in use (spec 12 R321; 15 R395) -/
  space : Nat := 8
  /-- number of the message that started the context, when an update handler's row is locked by it (spec 13 R353) -/
  lock : Option Nat := none
  /-- priority of the message that started the context (spec 02 R69) -/
  prio : BitVec 2 := 0
  deriving DecidableEq, Repr

/-! ### Lookup cores -/

/-- Defaults of a tile space (spec 15 R395). -/
structure Defaults where
  shape : BitVec 16 := 0
  fpctl : BitVec 16 := 0
  linkwait : BitVec 32 := 0x64
  seed : BitVec 32 := 1
  wpaddr : Vector (BitVec 48) 4 := Vector.replicate 4 0
  wpmask : Vector Word 4 := Vector.replicate 4 0
  deriving DecidableEq, Repr

/-- A tile space of a core (spec 12 R321; 15 R388, R396). -/
structure Space where
  /-- held: by a launch for 0 to 7, by the partition for 8 -/
  held : Bool := false
  /-- set up: a space that the LU has granted is so when its core's interface has taken the grant (spec 15 R396) -/
  ready : Bool := true
  /-- root scope of the launch -/
  scope : BitVec 16 := 0
  /-- pages allotted -/
  allot : Nat := 0
  dflt : Defaults := {}
  /-- number of the launch -/
  launch : Nat := 0
  deriving DecidableEq, Repr

/-- A core's node in the spanning tree of a launch, known since it forwarded the fan-out: the launch scope and the node's children, by local rank (spec 15
R387, R388). -/
structure Node where
  part : Nat
  scope : BitVec 16
  kids : List Nat
  deriving DecidableEq, Repr

/-- A tile frame that holds a page (spec 12 R321). -/
structure Frame where
  space : Nat
  page : Nat
  pinned : Bool
  deriving DecidableEq, Repr

/-- A line of the L1 (spec 07 R187): line number va / 64, partition's view, its 64 bytes, and its way in its set (spec 12 R324). -/
structure L1Line where
  line : Nat
  bytes : List Byte
  way : Nat := 0
  deriving DecidableEq, Repr

/-- A line of the instruction cache (spec 00 R1; 12 R337): code-space line number and its 64 bytes. -/
structure CodeLine where
  line : Nat
  bytes : List Byte
  deriving DecidableEq, Repr

/-- A fill in flight (spec 07 R187, R201): its number, line and whether it may install. -/
structure L1Fill where
  no : Nat
  line : Nat
  part : Nat
  install : Bool := true
  /-- the bytes read at the home, once read -/
  bytes : Option (List Byte) := none
  deriving DecidableEq, Repr

/-- A waiter registered on a barrier (spec 08 R230, R231). -/
structure Waiter where
  ctx : Nat
  tag : BitVec 32
  scope : BitVec 16
  deriving DecidableEq, Repr

/-- A named barrier (spec 01 R43; 08 R228 to R233). -/
structure Barrier where
  armed : Bool := false
  parts : BitVec 16 := 0
  arrived : BitVec 16 := 0
  op : BitVec 2 := 0
  acc : Word := 0
  gen : BitVec 16 := 0
  broken : Bool := false
  scope : BitVec 16 := 0
  /-- parent rank and barrier when LINK -/
  link : Option (BitVec 24 × BitVec 6) := none
  /-- children of the generation: rank and barrier -/
  kids : List (BitVec 24 × BitVec 6) := []
  waiters : List Waiter := []
  participants : List Nat := []
  /-- all arrivals are in and the parent's release is awaited -/
  waitsParent : Bool := false
  deriving DecidableEq, Repr

/-- An entry of the seal table (spec 07 R206). -/
structure Seal where
  space : Nat
  base : Nat
  lsz : Nat
  count : Nat := 0
  unsealing : Bool := false
  tag : BitVec 32 := 0
  scope : BitVec 16 := 0
  part : Nat := 0
  deriving DecidableEq, Repr

/-- Element type of accumulation in an update-only line (spec 07 R199; 04 R115): a partial sum, or the accumulation form. -/
structure AccForm where
  a : Int := 0
  count : Nat := 0
  pinf : Bool := false
  ninf : Bool := false
  nan : Bool := false
  deriving DecidableEq, Repr

/-- The walker of a core (spec 01 R45; 09 R254 to R256). -/
structure Walker where
  /-- operations accepted, in order -/
  queue : List Nat := []
  /-- the walk that runs -/
  run : Option Nat := none
  /-- first index of the line that runs or comes next -/
  idx : Nat := 0
  /-- ids of that line -/
  lineN : Nat := 0
  /-- a kernel run is in progress for this line -/
  inLine : Bool := false
  line : List Byte := []
  window : List (Nat × Nat) := []
  counter : Nat := 0
  hits : Nat := 0
  emitted : Nat := 0
  /-- the ETD as the walker read it -/
  desc : Nat := 0
  /-- rows requested and not landed: slot numbers -/
  pending : List Nat := []
  /-- failure that ended the kernel: reason, cause, sub, value -/
  failed : Option (Nat × Trap) := none
  /-- ids of lines whose kernel has ended -/
  progress : Nat := 0
  deriving DecidableEq, Repr

/-- A wave at a node of the spanning tree: launch scope, wave number, where its report goes, children that have not reported, the sums so far
(spec 15 R392). -/
structure Wave where
  part : Nat
  scope : BitVec 16
  no : Nat
  up : BitVec 24
  waiting : List Nat
  sums : List Nat
  deriving DecidableEq, Repr

/-- Run states of a core (spec 16 R416, R424, R425). -/
inductive CoreRun where
  | inn | switchingOut | out | switchingIn | resetting | gated | ungating
  deriving DecidableEq, Repr

/-- A switch-out request being served: its lane plus 4 times its scope, reason, reply rank and tag (spec 16 R415). -/
structure SysReq where
  kind : Nat
  arg : Word
  rank : BitVec 24
  tag : BitVec 32
  deriving DecidableEq, Repr

/-- What a lookup core shares among its contexts (spec 01 R8, R34, R35, R43, R45). -/
structure Core where
  /-- messages waiting, in arrival order; the lane is the message's PRIO -/
  mailbox : List Msg := []
  seqn : BitVec 20 := 0
  bars : Table Barrier := []
  seals : List Seal := []
  /-- contexts whose ROW words are in the row unit, in issue order (spec 06 R177) -/
  rowQ : List Nat := []
  l1 : List L1Line := []
  /-- replacement bits of the sets of the L1, 7 each (spec 12 R324; log entry 25) -/
  plru : Table Nat := []
  /-- the instruction cache, the line used last first (spec 00 R1; log entry 14) -/
  icache : List CodeLine := []
  fills : List L1Fill := []
  frames : List Frame := []
  spaces : Table Space := []
  iw : Walker := {}
  run : CoreRun := .inn
  sysreq : List SysReq := []
  /-- contexts held by an attention (spec 16 R404) -/
  attention : Bool := false
  /-- messages of the mailbox and of saved contexts in the spill buffer: message, holder (spec 16 R419) -/
  spilled : List (Msg × Option Nat) := []
  /-- starvation counters of the lanes (spec 15 R394) -/
  skip : Vector Nat 4 := Vector.replicate 4 0
  /-- launch-space requests sent and not answered: launch scopes; refused ones, of which no new one is sent (spec 15 R396) -/
  spaceReqs : List (BitVec 16) := []
  refused : List (BitVec 16) := []
  waves : List Wave := []
  nodes : List Node := []
  deriving DecidableEq, Repr

/-! ### Homes, slices and accesses -/

/-- Metadata of a 64-byte granule (spec 07 R189; 12 R331): stamp, prior copy with its stamp. In a checked region the stamp holds FLUSHED
and WID. -/
structure Gran where
  stamp : BitVec 20 := 0
  prior : Option (List Byte × BitVec 20) := none
  /-- checked regions: virtual address of the granule's last write, whether that write's first foreign read has been logged -/
  va : Nat := 0
  seen : Bool := false
  deriving DecidableEq, Repr

/-- Kinds of a memory access of a context. -/
inductive AKind where
  | load | loadNc | store | ldv | stv
  | atom (op : Nat)
  | aacc | aaccL
  | callat | migrate
  deriving DecidableEq, Repr

/-- Progress of an access: awaiting translation, the page walk, performing at the home, the reply, done. -/
inductive Phase where
  | translate | walk | home | parked | reply | finished
  deriving DecidableEq, Repr

/-- A part of an access within one line (spec 07 R183): virtual address, length, module and physical address. -/
structure Piece where
  va : Nat
  len : Nat
  mod : BitVec 12 := 0
  pa : Nat := 0
  /-- attributes that parts must share: region state and entry -/
  attr : Nat := 0
  deriving DecidableEq, Repr

/-- An access of a context that has issued (spec 07 R186; 16 R408). -/
structure Req where
  no : Nat
  core : Nat
  ctx : Nat
  part : Nat
  rank : BitVec 24
  scope : BitVec 16
  kind : AKind
  va : Nat
  len : Nat
  pieces : List Piece := []
  /-- pieces performed at their homes -/
  performed : Nat := 0
  data : List Byte := []
  cmp : List Byte := []
  sys : Bool := false
  dest : BitVec 4 := 0
  vec : Bool := false
  ext : Bool := false
  lo : BitVec 20 := 0
  hi : BitVec 20 := 0
  /-- reclaim floor that travels with the request (spec 07 R190) -/
  floor : BitVec 20 := 0
  /-- the word reads a descriptor first, and is issued again when it has come (spec 07 R197) -/
  fetch : Bool := false
  /-- translation has accepted it (spec 07 R186) -/
  accepted : Bool := false
  phase : Phase := .translate
  result : List Byte := []
  trap : Option Trap := none
  /-- the requester was killed: the reply is dropped (spec 07 R212) -/
  orphan : Bool := false
  /-- message whose built-in operation this is (spec 07 R210) -/
  bmsg : Option Nat := none
  /-- entry of the lost-write log that records this store, when one does (spec 17 R445) -/
  lostSeq : Nat := 0
  /-- posted: no context waits (spec 07 R186) -/
  posted : Bool := false
  tries : Nat := 0
  /-- ETD address and target row of an accumulate -/
  etd : Nat := 0
  /-- priority, RELORD and handler of a callat; arguments with tags -/
  prio : BitVec 2 := 0
  relord : Bool := false
  hnd : BitVec 32 := 0
  args : Vector GReg 4 := Vector.replicate 4 {}
  linkwait : BitVec 32 := 0
  /-- a request of an engine operation to another module: the operation's number (log entry 35) -/
  eng : Option Nat := none
  /-- the kind of write that a watch unit is told, when it is an engine's (spec 12 R332) -/
  wkind : Nat := 0
  /-- the bytes carry poison -/
  bad : Bool := false
  /-- address and slot of the word that made it (spec 16 R408) -/
  wpc : BitVec 32 := 0
  wslot : Nat := 0
  /-- an engine's request: the rank of the engine, and the part of a copy that made it (spec 09 R252; 12 R333) -/
  unit : BitVec 24 := 0
  tag : Nat := 0
  /-- activity class of its traffic, minus 1 (spec 15 R400) -/
  cls : Nat := 0
  deriving DecidableEq, Repr

/-- An update-only line (spec 07 R199): ETD, target row, sums in f32 or f64 encodings or accumulation forms. -/
structure UpdLine where
  etd : Nat
  /-- the ETD as its issuer read it -/
  desc : Nat
  part : Nat
  rowVa : Nat
  pa : Nat
  mod : BitVec 12
  sums : List Nat := []
  forms : List AccForm := []
  deriving DecidableEq, Repr

/-- An entry of a translation cache (spec 12 R325): the leaf of a page with its partition; big for 512 MiB. -/
structure XlEntry where
  part : Nat
  page : Nat
  big : Bool
  mod : BitVec 12
  frame : Nat
  carve : Bool
  atomcap : Bool
  moving : Bool := false
  deriving DecidableEq, Repr

/-- A writer record of a table at a home (spec 13 R342, R343). -/
structure WriterRec where
  rank : BitVec 24
  last : BitVec 20
  deriving DecidableEq, Repr

/-- A table entry of a home (spec 13 R342). -/
structure TabEntry where
  part : Nat
  etd : Nat
  /-- the home's copy of the ETD, 512 bits -/
  desc : Nat
  wm : BitVec 20
  recs : List WriterRec := []
  deriving DecidableEq, Repr

/-- A row request parked at a home (spec 13 R347). -/
structure RowPark where
  msg : Msg
  /-- writers a flush demand went to -/
  demanded : List (BitVec 24) := []
  deriving DecidableEq, Repr

/-- An entry of the merge table (spec 13 R349): the row and the requests that ride on its read. -/
structure MergeEnt where
  first : Msg
  joined : List Msg := []
  deriving DecidableEq, Repr

/-- A row accumulate staged part by part (spec 13 R351): the stream its parts come in, and its row. -/
structure Staged where
  stream : Nat
  pa : Nat
  /-- payloads of the parts that have come -/
  parts : List (List Byte)
  deriving DecidableEq, Repr

/-- Accumulation forms of a row at its home for one table (spec 04 R115): the elements the forms apply to, the forms, and the elements as last written. A row
whose elements are no longer those starts afresh (log entry 123). -/
structure RowForm where
  part : Nat
  etd : Nat
  pa : Nat
  base : List Nat
  forms : List AccForm
  now : List Nat
  deriving DecidableEq, Repr

/-- A row locked by its update handler with the work queued behind it (spec 13 R353). -/
structure RowLock where
  pa : Nat
  /-- number of the message that starts the handler -/
  handlerMsg : Nat
  /-- messages queued behind it, by number -/
  queue : List Nat := []
  deriving DecidableEq, Repr

/-- State of a migrating page (spec 12 R334, R335). -/
structure Moving where
  oldFrame : Nat
  newFrame : Nat
  part : Nat
  page : Nat
  /-- 0 streaming, 1 redirecting, 2 forwarded -/
  stage : Nat := 0
  /-- accesses queued at the old home, in arrival order: the event that performs each -/
  queued : List (Instr × Occ) := []
  deriving DecidableEq, Repr

/-- The home and slice of one lookup core (spec 12 R319). -/
structure Home where
  carve : Nat := 0
  xl : List XlEntry := []
  /-- parked versioned accesses, by request number, in order (spec 07 R192) -/
  parks : List Nat := []
  upd : List UpdLine := []
  tabs : List TabEntry := []
  rowParks : List RowPark := []
  merges : List MergeEnt := []
  staged : List Staged := []
  forms : List RowForm := []
  /-- messages of rows put off by this home, in arrival order, by number (spec 13 R351, R353) -/
  waits : List Nat := []
  locks : List RowLock := []
  /-- frames forwarded to new frames (spec 12 R335) -/
  redirects : List (Nat × Nat) := []
  /-- floors taken by notices, by partition and region entry (spec 07 R193) -/
  floors : Table (BitVec 20) := []
  /-- remote writers: rank and context (spec 12 R331) -/
  writers : List (BitVec 24 × Nat) := []
  deriving DecidableEq, Repr

/-! ### Engine operations (spec 09 R242 to R262) -/

/-- Engines (spec 09 R250, ENGINE). -/
inductive Engine where
  | copy | copys | walk | dispatch | combine | djob | prune
  deriving DecidableEq, Repr

/-- Progress of an operation: in a send buffer, on its way, in its engine's queue, started, ended. -/
inductive OpPh where
  | buffered | sent | queued | started | ended
  deriving DecidableEq, Repr

/-- A part of a copy (spec 09 R252): its engine, addresses, length, write position, and its end. -/
structure CPart where
  engine : Nat
  src : Nat
  dst : Nat
  len : Nat
  pos : Nat := 0
  /-- bytes read ahead, whole source lines, with their poison -/
  buf : List (Byte × Bool) := []
  /-- stop at this destination address (spec 09 R260) -/
  stopAt : Option Nat := none
  done : Bool := false
  failed : Option (Nat × Trap) := none
  /-- refused by a switched-out core and waiting for a probe (spec 16 R422) -/
  continuation : Bool := false
  poisoned : Nat := 0
  deriving DecidableEq, Repr

/-- An engine operation (spec 09 R242). -/
structure Op where
  /-- the model's number of the operation; 0 for what a unit of the module does on its own -/
  no : Nat := 0
  engine : Engine
  core : Nat
  ctx : Nat
  scope : BitVec 16
  part : Nat
  /-- acting rank of the issuer -/
  rank : BitVec 24
  /-- system-mode issuer -/
  system : Bool := false
  /-- register that receives the notice; 0 discards -/
  tk : Nat := 0
  block : List Byte := []
  /-- operations with an edge into this one that have not ended -/
  edges : List Nat := []
  /-- an input had failed at issue -/
  inputFailed : Bool := false
  linkwait : BitVec 32 := 0
  ph : OpPh := .buffered
  st : TokSt := .pending
  parts : List CPart := []
  /-- unit that has the operation: local rank -/
  unit : Nat := 0
  /-- stopped by a prune of its scope (spec 09 R260) -/
  killed : Bool := false
  /-- seal entries whose count the operation raised: core and base -/
  sealed : List (Nat × Nat) := []
  flags : Fl := 0
  space : Nat := 8
  /-- the prune the operation is, for a prune token -/
  pruneNo : Nat := 0
  /-- attempts at a full queue (spec 09 R249) -/
  tries : Nat := 0
  /-- the budget profile of its traffic, when it is a launch's and not its scope's (spec 15 R385, R389) -/
  prof : Option Nat := none
  deriving DecidableEq, Repr

/-! ### Token dispatch (spec 14) -/

/-- Counts of an exchange that a context holds: round, pass, source, the first expert, the counts and the sender's CHECK (spec 14 R365). -/
structure TdeChunk where
  round : BitVec 32
  pass : Nat
  src : Nat
  first : Nat
  counts : List Nat
  check : BitVec 32
  deriving DecidableEq, Repr

/-- What has become of a (token, choice) pair of a dispatch (spec 14 R364, R366). -/
inductive PairSt where
  | live | skip | dropped | over | placed | spilled | taken
  deriving DecidableEq, Repr

/-- A pair: its id, its state, the expert and choice it now goes by, its slot and module, and whether it was rerouted. -/
structure TPair where
  id : Nat
  st : PairSt := .live
  target : Nat := 0
  choice : Nat := 0
  slot : Nat := 0
  mod : Nat := 0
  re : Bool := false
  deriving DecidableEq, Repr

/-- A placement or spill entry: base, module, capacity, result base (spec 14 R362). -/
structure PEntry where
  base : Nat
  mod : BitVec 12
  cap : Nat
  obase : Nat
  deriving DecidableEq, Repr

/-- A token row that PLACE has decided and is still to write: where its next byte comes from and goes to, and how many are left (spec 14 R368). -/
structure TRow where
  mod : BitVec 12
  src : Nat
  dst : Nat
  left : Nat
  spilled : Bool
  re : Bool
  deriving DecidableEq, Repr

/-- Bytes of a record or an output, within one line, that are still to write, and whether they are poisoned. -/
structure TPut where
  a : Nat
  bs : List Byte
  bad : Bool := false
  deriving DecidableEq, Repr

/-- The end that an operation of a TDE comes to when its last records are written. -/
structure TEnd where
  st : TokSt
  reason : Nat
  trap : Trap
  own : Bool
  deriving DecidableEq, Repr

/-- A dispatch context of a TDE (spec 14 R359, R361). -/
structure TdeCtx where
  loaded : Bool := false
  /-- the configuration image, 512 bits -/
  image : Nat := 0
  lastRound : Option (BitVec 32) := none
  lastNtok : Nat := 0
  chunks : List TdeChunk := []
  /-- ROUND of counts accepted while idle -/
  heldRound : Option (BitVec 32) := none
  /-- rows that each expert holds -/
  f : List Nat := []
  placed : Nat := 0
  spilled : Nat := 0
  rerouted : Nat := 0
  dropped : Nat := 0
  skipped : Nat := 0
  dcount : Nat := 0
  /-- the operation that runs; its phase: 0 loading, 1 COUNT or a combine at work, 2 EXCHANGE, 3 PLACE, 4 all written, 5 ending; its pass -/
  run : Option Nat := none
  phase : Nat := 0
  pass : Nat := 0
  /-- how far PLACE has come: 0 deciding a pass, 1 writing rows, 2 writing records, 3 writing the header -/
  stage : Nat := 0
  /-- entries of the placement and the spill table that have been read -/
  tab : Table PEntry := []
  stab : Table PEntry := []
  rows : List TRow := []
  puts : List TPut := []
  fin : Option TEnd := none
  pairs : List TPair := []
  /-- entries of the permutation and of the fill table, written after the records -/
  after : List TPut := []
  /-- drops decided in this pass and not yet recorded: place of the pair, reason, expert (spec 14 R370) -/
  drops : List (Nat × Nat × Nat) := []
  /-- the source list: ranks and contexts, and this source's index -/
  srcs : List (BitVec 24 × Nat) := []
  me : Nat := 0
  /-- tokens a combine has written; dropped pairs that used a residual row, and that contributed zero -/
  progress : Nat := 0
  resid : Nat := 0
  zeroed : Nat := 0
  deriving DecidableEq, Repr

/-- A TDE (spec 01 R45; 14). -/
structure Tde where
  queue : List Nat := []
  ctxs : Table TdeCtx := []
  deriving DecidableEq, Repr

/-! ### Scopes (spec 02 R72; 01 R41) -/

/-- The counts a unit keeps of a scope (spec 15 R391); LIVE is read from the contexts. -/
structure Cnt where
  sent : Nat := 0
  recvd : Nat := 0
  ops : Nat := 0
  err : BitVec 8 := 0
  deriving DecidableEq, Repr

/-- States of a scope. -/
inductive ScSt where
  | free | live | dying | dead
  deriving DecidableEq, Repr

/-- A scope of this module (spec 02 R72). -/
structure ScopeEnt where
  st : ScSt := .free
  parent : BitVec 16 := 0
  policy : Bool := false
  group : Option Nat := none
  part : Nat := 0
  die : Nat := 0
  /-- created here, or bound for another module's scope -/
  bound : Bool := false
  dropped : Nat := 0
  /-- corrections of reset reports: contexts lost, messages lost (spec 16 R424) -/
  lost : Nat := 0
  lostMsgs : Nat := 0
  /-- launch whose root this is -/
  launch : Option Nat := none
  /-- SCNEW operations since the id became free (spec 01 R41) -/
  freeAt : Nat := 0
  deriving DecidableEq, Repr

/-- Counts of a prune acknowledgement (spec 08 R240; 09 R261). -/
structure Tally where
  msgs : Nat := 0
  killed : Nat := 0
  broken : Nat := 0
  copies : Nat := 0
  dispatches : Nat := 0
  discarded : Nat := 0
  cancelled : Nat := 0
  deriving DecidableEq, Repr

/-- A prune in progress (spec 08 R238 to R240; 16 R423). -/
structure Prune where
  scope : BitVec 16
  part : Nat
  /-- issuer: core rank, context, scope and the waiting token operation -/
  rank : BitVec 24
  ctx : Nat
  scopeOf : BitVec 16
  tag : BitVec 32
  quiet : Bool
  op : Nat := 0
  /-- units that have not acknowledged: local ranks -/
  waiting : List Nat := []
  /-- units the notice has reached, and when: unit and number, ascending in time -/
  noticed : List Nat := []
  noticedAt : List (Nat × Nat) := []
  /-- units that have sent their acknowledgement -/
  acked : List Nat := []
  /-- member modules that have not acknowledged, each with the scope its notice names -/
  members : List (BitVec 12 × BitVec 16) := []
  /-- counts of the units, by local rank, until they acknowledge; 4096 the sum of the acknowledgements -/
  tally : Table Tally := []
  silent : Nat := 0
  already : Bool := false
  partialEnd : Bool := false
  /-- the issuer is another module's scope unit -/
  remote : Bool := false
  done : Bool := false
  deriving DecidableEq, Repr

/-- A request of a context to the scope unit (spec 08 R235, R236). -/
structure ScopeReq where
  no : Nat
  core : Nat
  ctx : Nat
  part : Nat
  isNew : Bool
  scope : BitVec 16
  tmpl : Word := 0
  sel : Nat := 0
  /-- spanning creation: the id being bound, members still to answer, failures -/
  id : BitVec 16 := 0
  members : List (BitVec 12) := []
  nfail : Nat := 0
  status : Nat := 0
  result : Option Word := none
  deriving DecidableEq, Repr

/-! ### Dense sequencer (spec 01 R46; 10) -/

/-- An address generator (spec 01 R46). -/
structure AGen where
  base : BitVec 48 := 0
  stride : BitVec 32 := 0
  count : BitVec 32 := 0
  deriving DecidableEq, Repr

/-- A pending write of a d register or generator field (spec 10 R270): which register or field, its value, cycles remaining. -/
inductive DDest where
  | d (n : BitVec 5)
  | base (n : BitVec 4) | stride (n : BitVec 4) | count (n : BitVec 4)
  deriving DecidableEq, Repr
structure DPend where
  dest : DDest
  val : Word
  rem : Nat
  deriving DecidableEq, Repr

/-- An outstanding word of the DS (spec 10 R271, R272): the word, its operands as read at issue, the spans it reads and writes (space 0 the
dense buffer, 1 memory, 2 the active plane, 3 the shadow plane; lowest and highest byte), the bank rows of a pass, its path with the cycles it
stays occupied, and the cycles until it completes; a transfer completes by its own event. -/
structure DWord where
  no : Nat
  op : Instr
  a : AGen := {}
  b : AGen := {}
  z : AGen := {}
  x : BitVec 32 := 0
  y : BitVec 32 := 0
  v : Word := 0
  reads : List (Nat × Nat × Nat) := []
  writes : List (Nat × Nat × Nat) := []
  rows : Option (Nat × Nat × Nat) := none
  path : Nat := 0
  occ : Nat := 1
  rem : Nat := 1
  xfer : Bool := false
  /-- bytes a transfer has moved -/
  done : Nat := 0
  deriving DecidableEq, Repr

/-- A dense sequencer (spec 01 R46; 10 R275, R276, R291, R293). -/
structure Ds where
  d : Vector Word 32 := Vector.replicate 32 0
  a : Vector AGen 16 := Vector.replicate 16 {}
  dpc : BitVec 32 := 0
  /-- address of the next bundle, set by a transfer of the S slot, and whether one was taken -/
  npc : BitVec 32 := 0
  bub : Bool := false
  /-- the job held: its operation -/
  job : Option Nat := none
  killed : Bool := false
  flags : Fl := 0
  jprio : BitVec 3 := 0
  desc : BitVec 48 := 0
  dcause : BitVec 32 := 0
  dtpc : BitVec 32 := 0
  dtval : Word := 0
  pend : List DPend := []
  outst : List DWord := []
  /-- which of the two plane areas is the active one -/
  active : Bool := false
  /-- types of the two plane areas -/
  planeTy0 : ETy := .bf16
  planeTy1 : ETy := .bf16
  bankUse : BitVec 8 := 0
  parkTy : ETy := .bf16
  parkUse : BitVec 8 := 0
  /-- a transfer fault found after issue, and whether the handler is dealing with one (spec 10 R283) -/
  tfault : Option Trap := none
  tHandling : Bool := false
  /-- fault of a transfer that has stopped, on its way to the DS -/
  xfault : Option Trap := none
  halted : Bool := false
  /-- the SMC has loaded the microcode and started the complex (log entry 56) -/
  up : Bool := false
  /-- jget holds: the register it will write -/
  jgetWait : Option (BitVec 5) := none
  /-- jdone holds: the value read at issue -/
  jdoneWait : Option Word := none
  /-- partition of the previous job -/
  lastPart : Option Nat := none
  /-- the job queue: operations with their PASS counts (spec 15 R397) -/
  queue : List (Nat × Nat) := []
  /-- the partition granted last (spec 15 R397) -/
  lastGrant : Nat := 0
  deriving DecidableEq, Repr

/-! ### Partitions, regions and watch units (spec 12; 18) -/

/-- A region entry (spec 12 R329). -/
structure Region where
  st : Nat := 0
  banked : Bool := false
  owner : BitVec 24 := 0
  floor : BitVec 20 := 0
  limit : Nat := 0
  base : Nat := 0
  deriving DecidableEq, Repr

/-- A partition record (spec 18 R456 to R463). -/
structure Partition where
  isSet : Bool := false
  /-- a teardown waits for its prune -/
  busy : Bool := false
  hedges : List Nat := []
  /-- physical address of the level-1 table -/
  root : Nat := 0
  codeVa : Nat := 0
  codeLen : Nat := 0
  regions : Table Region := []
  fsRank : BitVec 24 := 0
  fsTag : BitVec 32 := 0
  /-- entry of the last FSLOAD (spec 18 R460) -/
  fsEntry : Option (BitVec 32) := none
  fsCore : Nat := 0
  fsHash : List Byte := []
  /-- fabric groups: index to member modules and the scope-group key slot (spec 18 R459) -/
  groups : Table (List (BitVec 12)) := []
  /-- budget entries: SHARE and BORROW, by 64 times the profile, 8 times the port kind, and the class (spec 15 R399); one not written
  has SHARE 0, and BORROW for class 7 once the partition is set up (spec 18 R457) -/
  budgets : Table (Nat × Bool) := []
  /-- budget entries in force: those of the last period boundary (spec 15 R401) -/
  inForce : Table (Nat × Bool) := []
  qprio : Nat := 0
  launchQ : List Nat := []
  /-- bytes of the set-up request, for the measurements (spec 18 R467) -/
  cfg : List Byte := []
  keySlot : Nat := 0
  /-- REKEY in progress: its replacement slot; granules done (spec 18 R463) -/
  rekey : Option Nat := none
  rekeyAt : Nat := 0
  sysDflt : Defaults := {}
  /-- lost-write log (spec 17 R445): next sequence, entries kept in memory, head read by the host -/
  lwSeq : Nat := 1
  errSeq : Nat := 1
  poisonSeq : Nat := 1
  /-- custody records stored in the partition's ring (spec 18 R469) -/
  custody : Nat := 0
  deriving DecidableEq, Repr

/-- A watch unit (spec 12 R332, R333). -/
structure Watch where
  part : Option Nat := none
  wbase : Nat := 0
  wmask : Nat := 0
  kinds : BitVec 8 := 0
  rank : BitVec 24 := 0
  tag : BitVec 32 := 0
  drops : Nat := 0
  queue : Nat := 0
  deriving DecidableEq, Repr

/-! ### Launches (spec 15) -/

/-- States of a launch (spec 15 R384). -/
inductive LaunchSt where
  | queued | selected | loading | binding | spawning | running | draining | ended
  deriving DecidableEq, Repr

/-- A launch (spec 15 R381 to R396). -/
structure Launch where
  st : LaunchSt := .queued
  part : Nat := 0
  record : List Byte := []
  scope : BitVec 16 := 0
  /-- submitter: rank, scope and whether it came from the host -/
  rank : BitVec 24 := 0
  subScope : BitVec 16 := 0
  host : Bool := false
  waitSpace : Bool := false
  /-- cores PLACE names, ascending, and cores granted a space on demand (spec 15 R387, R396) -/
  cores : List Nat := []
  granted : List Nat := []
  /-- waves (spec 15 R392): number of the wave, cores still to report, the sums so far and those of the wave before -/
  wave : Nat := 0
  waiting : List Nat := []
  sums : List Nat := []
  prev : List Nat := []
  err : BitVec 8 := 0
  /-- spaces and scope given back in ENDING -/
  released : Bool := false
  /-- the rank list and the WPDEF block, as VALIDATING read them (spec 15 R380, R388) -/
  ents : List (Nat × Nat × Nat × Nat) := []
  wp : List Byte := []
  /-- the fan-out and the rank spawns, by number (spec 15 R384, SPAWNING) -/
  outs : List Nat := []
  /-- how far LOADING has come: 0 copying the image, 1 hashing it, 2 reading the tile image; the bytes done of it, and the bytes to be hashed -/
  stage : Nat := 0
  pos : Nat := 0
  image : List Byte := []
  killed : Bool := false
  /-- PARENT of the record -/
  parent : BitVec 16 := 0
  /-- custody sequence number; free acceptance time; lost-write and poison and error entries of the partition at acceptance (spec 18 R468) -/
  custody : Nat := 0
  accTime : Word := 0
  lostAt : Nat := 0
  logAt : Nat := 0
  deriving DecidableEq, Repr

/-! ### Messages on their way, fabric and host link (spec 16 R420; 17) -/

/-- Kinds of a flit (spec 17 R428, FKIND). -/
inductive FKind where
  | data | ack | nack | skip
  deriving DecidableEq, Repr

/-- A flit on the torus (spec 17 R428): the model's number of the message it carries a part of or answers, its stream and position, and the fields of its
sideband: the router it goes to and the one it comes from, the slot and context of its sender, its tag and number, and its 24 data bytes. -/
structure Flit where
  kind : FKind := .data
  msg : Nat
  idx : Nat
  last : Bool
  dest : Nat
  /-- router where it arrives next, and the port it arrives through; 4 is the interface's own -/
  at_ : Nat
  port : Nat
  age : Nat := 0
  ord : Nat
  stream : Nat
  src : Nat := 0
  slot : Nat := 0
  ctx : Nat := 0
  mtag : Nat := 0
  poison : Bool := false
  cls : BitVec 3 := 0
  part : BitVec 3 := 0
  unit : Bool := false
  noord : Bool := false
  data : List Byte := []
  deriving DecidableEq, Repr

/-- A stream from one NI to another (spec 17 R431, R432): next ORD, next expected, messages not acknowledged. -/
structure Stream where
  next : Nat := 0
  expect : Nat := 0
  unacked : Nat := 0
  /-- complete messages held for order: ORD and message -/
  held : List (Nat × Nat) := []
  skips : List Nat := []
  deriving DecidableEq, Repr

/-- Where a message of the network is. -/
inductive NetPh where
  | atSender | flying | arrived | retry | done
  deriving DecidableEq, Repr

/-- A message in the network (spec 16 R420; 17 R431). -/
structure NetMsg where
  msg : Msg
  ph : NetPh := .atSender
  /-- flits that have been reassembled -/
  got : Nat := 0
  flits : Nat := 2
  crossbar : Bool := false
  stream : Nat := 0
  ord : Nat := 0
  /-- its reassembly tag at its source's router (spec 17 R428), and the header unit of a crossbar packet (spec 17 R434) -/
  mtag : Nat := 0
  hdr : List Byte := []
  deriving DecidableEq, Repr

/-- States of a Bramble port (spec 17 R437). -/
inductive PortSt where
  | up | retrain | remap | down
  deriving DecidableEq, Repr

/-- A Bramble port (spec 17 R436 to R441). -/
structure Port where
  st : PortSt := .up
  /-- data flits sent and not acknowledged, oldest first, and the bytes of the packet stream that wait for room -/
  replay : List (List Byte) := []
  pend : List Byte := []
  /-- bytes of the packet stream that have come and make no whole packet yet -/
  rx : List Byte := []
  /-- flits taken and not returned as credits, and credits that have come back, in flits (spec 17 R436) -/
  freed : Nat := 0
  credits : Nat := 0
  /-- next FSEQ to send, next expected -/
  fseq : BitVec 12 := 0
  expect : BitVec 12 := 0
  /-- failed trainings in a row, replays of the oldest flit in a row -/
  failed : Nat := 0
  replays : Nat := 0
  /-- packet counter and salt of the session this end sends under -/
  session : Bool := true
  counter : Word := 0
  salt : BitVec 32 := 0
  /-- packets taken under the session of the other direction -/
  rxCounter : Word := 0
  /-- sessions set up so far; tag failures in the present millisecond; packets dropped -/
  sessions : Nat := 0
  tagFails : Nat := 0
  dropped : Nat := 0
  /-- depths of the last BREL -/
  brel : List Byte := []
  deriving DecidableEq, Repr

/-- A packet that was abandoned with a row contribution in it: its TSEQ, the LOGSEQ of its LOST entry, address, length, context and rank (spec 17
R445). -/
structure LostPkt where
  tseq : Nat
  seq : Nat
  part : Nat
  va : Nat
  len : Nat
  ctx : Nat
  rank : BitVec 24
  /-- the posted request whose LOST entry it is; 0 for a part without one -/
  req : Nat := 0
  deriving DecidableEq, Repr

/-- A packet that its peer has not acknowledged: TSEQ, packet, number of the message it carries, and the stream in whose order it is (spec 17 R440). -/
structure BufPkt where
  tseq : Nat
  pkt : BPacket
  no : Nat
  stream : Option Nat
  deriving DecidableEq, Repr

/-- The transport between this module and another (spec 17 R440). -/
structure Peer where
  next : BitVec 32 := 0
  buf : List BufPkt := []
  expect : BitVec 32 := 0
  /-- TSEQs taken out of order -/
  ahead : List Nat := []
  /-- packets that have come since the last TACK -/
  untacked : Nat := 0
  lost : List LostPkt := []
  deriving DecidableEq, Repr

/-- A virtual function of the host link (spec 17 R447 to R451). -/
structure Vf where
  inbusy : Word := 0
  obase : Word := 0
  octl : Word := 0
  ohead : Nat := 0
  otail : Nat := 0
  lwstat : Word := 0
  loghead : Nat := 0
  /-- launch window staging by word; inbound slots by 8 times the slot plus the word -/
  stage : Table Word := []
  inSlots : Table Word := []
  /-- MSI-X table: the 128 bits of a vector; one not written is masked (log entry 1) -/
  msixTab : Table Nat := []
  pending : BitVec 64 := 0
  /-- vectors waiting for the moderation time -/
  moder : List Nat := []
  /-- RESYNC window: RSSTAT, RSPAGE and the record (spec 18 R471) -/
  rsstat : Word := 0
  rspage : Word := 0
  rsrec : List Byte := []
  deriving DecidableEq, Repr

/-- The SMC and the module's service state (spec 18). -/
structure Smc where
  /-- CMD staging, by word; the record of the command that runs; the result of one that has been performed and not reported -/
  cmd : Table Word := []
  run : Table Word := []
  status : Option Nat := none
  cmdstat : Word := 0
  cmdres : Table Word := []
  /-- CUSTSEQ as last written (spec 18 R453, R469) -/
  custSeq : Word := 0
  custStat : Word := 0
  custRec : List Byte := []
  /-- next custody sequence number; requests to be signed: sequence number, partition, bytes 0x000 to 0x0FF; the addresses of
  stored ones (spec 18 R468, R469) -/
  custNext : Nat := 1
  custQ : List (Nat × Nat × List Byte) := []
  custPlace : Table Nat := []
  /-- the 16 key slots: eight words of a 512-bit key (spec 18 R462) -/
  keys : Table (List Word) := []
  mevent : Word := 0
  /-- boots before this one; the boot id of each, 64 random bits, is Config.bootId of it (spec 18 R468) -/
  boots : Nat := 0
  /-- the SMC that is active, and the die whose SMC it is -/
  active : Nat := 0
  /-- spares brought in, by kind (spec 18 R474) -/
  spares : Table Nat := []
  /-- pairs of hedges whose spare LC serves, with the core it serves for -/
  spareCores : Table Nat := []
  failedStacks : List Nat := []
  failedHedges : List Nat := []
  clockStep : Nat := 0
  temp : Nat := 0
  /-- last report of each rail, in watts -/
  power : Table Nat := []
  pcap : Nat := 950
  freq : Nat := 1024
  /-- last step of bring-up that has passed (spec 18 R480) -/
  bootStep : Nat := 7
  recovery : Bool := false
  /-- PCI Express link up -/
  linkUp : Bool := true
  /-- firmware staged for the next reset, and the image that runs -/
  staged : List Byte := []
  firmware : List Byte := []
  /-- SPDM: by function, the last request answered, the secured session (1 in handshake, 2 established) and the IDE keys programmed; answers sent
  (spec 18 R466) -/
  spdm : Table Nat := []
  sessions : Table Nat := []
  ide : List Nat := []
  spdmOut : List (Nat × List Byte) := []
  logs : List (List Nat) := []
  /-- errors that ECC has found, the corrected ones among them (spec 12 R336; 18 R481) -/
  errors : Nat := 0
  deriving DecidableEq, Repr

/-! ### The module -/

/-- Which agent moves when no event is due: a context of a lookup core (16 is its index walker), or a dense sequencer. -/
inductive Focus where
  | lc (core ctx : Nat)
  | ds (die : Nat)
  deriving DecidableEq, Repr

/-- Where units of the fabric stand. -/
structure Fabric where
  /-- messages in the network, by number -/
  msgs : List NetMsg := []
  nextMsg : Nat := 0
  flits : List Flit := []
  streams : Table Stream := []
  links : List (Nat × Nat) := []
  /-- routers that may not inject, with the cycles left, and routers refused injection, with the cycles in a row (spec 17 R430) -/
  starving : Table Nat := []
  hungry : Table Nat := []
  golden : Nat := 0
  bridgeFailed : Nat := 0
  ports : Table Port := []
  /-- spare lanes left of each port group, where fewer than 2 -/
  spareLanes : Table Nat := []
  peers : Table Peer := []
  /-- packets handed to a port for another module, oldest first -/
  outbox : List BPacket := []
  /-- link flits a port sent -/
  linkOut : List (Nat × List Byte) := []
  /-- messages to the host: function and bytes written -/
  hostOut : List (Nat × Nat × List Byte) := []
  /-- MSI-X vectors sent: function and vector -/
  msix : List (Nat × Nat) := []
  /-- counters of message ids of units, by local rank (spec 02 R51) -/
  unitSeq : Table Nat := []
  /-- rank table (spec 01 R40): thread rank to core and the in-transit flag -/
  ranks : Table (Nat × Bool) := []
  /-- what has been charged in this period, by port, partition, profile and class (spec 15 R398 to R400) -/
  charged : Table Nat := []
  /-- packets that wait for capacity of the ports towards other modules, oldest first (spec 15 R400) -/
  portQ : List BPacket := []
  /-- the capacity factor in force: that of the last period boundary (spec 18 R479) -/
  factor : Nat := 1024
  deriving DecidableEq, Repr

/-- The whole module. -/
structure State where
  modid : BitVec 12 := 0
  focus : Focus := .lc 0 0
  /-- events that have come due, oldest first -/
  agenda : List (Instr × Occ) := []
  /-- the operands of the event that is performed -/
  occ : Occ := {}
  /-- events whose time is a timer's: they come due one at a time, behind every agent that can move (log entry 3) -/
  timers : List (Instr × Occ) := []
  /-- free values drawn so far -/
  free : Nat := 0
  /-- next number of a request, operation or prune of the model -/
  nextNo : Nat := 1
  ctxs : Table Ctx := []
  cores : Table Core := []
  homes : Table Home := []
  /-- bytes by address, ascending; an unlisted byte reads 0 -/
  mem : List Host.Cell := []
  /-- poisoned granules: address / 64, ascending -/
  poison : List Nat := []
  grans : Table Gran := []
  reqs : Table Req := []
  parts : Table Partition := []
  watches : Table Watch := []
  ops : Table Op := []
  tdes : Table Tde := []
  scopes : Table ScopeEnt := []
  /-- counts by (partition, scope, unit) -/
  counts : Table Cnt := []
  scopeReqs : List ScopeReq := []
  scnewCount : Nat := 0
  prunes : Table Prune := []
  dss : Table Ds := []
  launches : Table Launch := []
  nextLaunch : Nat := 0
  lastPart : Nat := 0
  moving : List Moving := []
  fab : Fabric := {}
  vfs : Table Vf := []
  smc : Smc := {}
  /-- clocks stopped by a thermal trip (spec 18 R478) -/
  clockStopped : Bool := false
  deriving DecidableEq, Repr

/-- The module right after reset: every field at the value the spec states for reset, or the value of log entry 1; no event due, no memory
listed, no partition set up (spec 01 R18, R46; 12 R321; 18 R480). -/
def State.reset : State := {}

end Sys2Proof.Machine
end

