-- ==== Sys2Proof/Machine/Base.lean ====
section
/-! DEFINITION. The plainest operations on the state: tables, bytes of memory, the registers of a context, where the bytes of tile memory
stand, and the translation of global addresses (spec 12 R317 to R330). -/

namespace Sys2Proof.Machine

/-! ### Tables -/

/-- The entry of a key. -/
def tget {α : Type} : Table α → Nat → Option α
  | [], _ => none
  | (k, v) :: r, n => if k = n then some v else tget r n
/-- Set the entry of a key, in ascending order. -/
def tset {α : Type} : Table α → Nat → α → Table α
  | [], n, x => [(n, x)]
  | (k, v) :: r, n, x => if n < k then (n, x) :: (k, v) :: r else if n = k then (n, x) :: r else (k, v) :: tset r n x
/-- Remove a key. -/
def tdel {α : Type} : Table α → Nat → Table α
  | [], _ => []
  | (k, v) :: r, n => if k = n then tdel r n else (k, v) :: tdel r n

/-! ### Bytes -/

/-- The low n bytes of a number, least significant first (spec 00 R3). -/
def leBytes : Nat → Nat → List Byte
  | 0, _ => []
  | n + 1, v => BitVec.ofNat 8 (v % 256) :: leBytes n (v / 256)
/-- The number of bytes read least significant first. -/
def leNat : List Byte → Nat
  | [] => 0
  | b :: r => b.toNat + 256 * leNat r

/-- A memory: bytes by address, strictly rising, none equal to the 0 an unlisted address reads as. -/
abbrev Memory := List Host.Cell

/-- The addresses rise strictly from lo and no byte is 0. -/
def Memory.wfFrom : Nat → Memory → Bool
  | _, [] => true
  | lo, (a, v) :: r => decide (lo ≤ a) && v != 0 && Memory.wfFrom (a + 1) r
/-- The canonical form of a memory. -/
def Memory.wf (m : Memory) : Bool := Memory.wfFrom 0 m

/-- Read one byte; an unlisted address reads 0 (log entry 2). -/
def memGet : Memory → Nat → Byte
  | [], _ => 0
  | (b, v) :: r, a => if b = a then v else if a < b then 0 else memGet r a
/-- Write one byte. -/
def memSet : Memory → Nat → Byte → Memory
  | [], a, v => if v = 0 then [] else [(a, v)]
  | (b, w) :: r, a, v =>
    if a < b then (if v = 0 then (b, w) :: r else (a, v) :: (b, w) :: r)
    else if a = b then (if v = 0 then r else (a, v) :: r)
    else (b, w) :: memSet r a v
/-- The cells of a run of bytes from a up, zeros left out. -/
def memCells : Nat → List Byte → Memory
  | _, [] => []
  | a, b :: r => if b = 0 then memCells (a + 1) r else (a, b) :: memCells (a + 1) r
/-- The cells from address a up. -/
def memFrom : Memory → Nat → Memory
  | [], _ => []
  | (b, w) :: r, a => if b < a then memFrom r a else (b, w) :: r
/-- Replace the n bytes from a by the cells given. -/
def memSplice : Memory → Nat → Nat → Memory → Memory
  | [], _, _, cs => cs
  | (b, w) :: r, a, n, cs => if b < a then (b, w) :: memSplice r a n cs else cs ++ memFrom ((b, w) :: r) (a + n)
/-- Write a run of bytes at a. -/
def memWrite (m : Memory) (a : Nat) (bs : List Byte) : Memory := memSplice m a bs.length (memCells a bs)
/-- Make the n bytes from a zero. -/
def memZero (m : Memory) (a n : Nat) : Memory := memSplice m a n []
/-- Read n bytes from a. -/
def memRead (m : Memory) : Nat → Nat → List Byte
  | _, 0 => []
  | a, n + 1 => memGet m a :: memRead m (a + 1) n

/-- Read n bytes of the machine's memory as a number. -/
def State.rd (s : State) (a n : Nat) : Nat := leNat (memRead s.mem a n)
/-- Write a number as n bytes. -/
def State.wrB (s : State) (a : Nat) (bs : List Byte) : State := { s with mem := memWrite s.mem a bs }
/-- Write a number as n bytes. -/
def State.wr (s : State) (a n v : Nat) : State := s.wrB a (leBytes n v)

/-! ### Contexts, cores, homes -/

/-- Key of a context: sixteen contexts and the index walker's own for each core. -/
def ckey (core ctx : Nat) : Nat := core * 17 + ctx

/-- Context ctx of a core. -/
def State.ctx (s : State) (core ctx : Nat) : Ctx := (tget s.ctxs (ckey core ctx)).getD {}
/-- Set a context. -/
def State.setCtx (s : State) (core ctx : Nat) (c : Ctx) : State := { s with ctxs := tset s.ctxs (ckey core ctx) c }
/-- What a core's contexts share. -/
def State.core (s : State) (n : Nat) : Core := (tget s.cores n).getD {}
/-- Set it. -/
def State.setCore (s : State) (n : Nat) (c : Core) : State := { s with cores := tset s.cores n c }
/-- The home and slice of a core. -/
def State.home (s : State) (n : Nat) : Home := (tget s.homes n).getD {}
def State.setHome (s : State) (n : Nat) (h : Home) : State := { s with homes := tset s.homes n h }
/-- A partition's record. -/
def State.part (s : State) (n : Nat) : Partition := (tget s.parts n).getD {}
def State.setPart (s : State) (n : Nat) (p : Partition) : State := { s with parts := tset s.parts n p }
/-- A scope of this module: scope 0 is LIVE at reset (spec 01 R41). -/
def State.scope (s : State) (part : Nat) (id : BitVec 16) : ScopeEnt :=
  match tget s.scopes (part * 65536 + id.toNat) with
  | some e => e
  | none => if id = 0 then { st := .live, part := part } else {}
def State.setScope (s : State) (part : Nat) (id : BitVec 16) (e : ScopeEnt) : State :=
  { s with scopes := tset s.scopes (part * 65536 + id.toNat) e }
/-- An engine operation. -/
def State.op (s : State) (n : Nat) : Option Op := tget s.ops n
def State.setOp (s : State) (n : Nat) (o : Op) : State := { s with ops := tset s.ops n o }
def State.req (s : State) (n : Nat) : Option Req := tget s.reqs n
def State.setReq (s : State) (r : Req) : State := { s with reqs := tset s.reqs r.no r }
def State.delReq (s : State) (n : Nat) : State := { s with reqs := tdel s.reqs n }
/-- A dense sequencer. -/
def State.ds (s : State) (n : Nat) : Ds := (tget s.dss n).getD {}
def State.setDs (s : State) (n : Nat) (d : Ds) : State := { s with dss := tset s.dss n d }
/-- An event comes due: it goes behind the events already due. -/
def State.due (s : State) (i : Instr) (a : Nat := 0) (b : Nat := 0) (c : Nat := 0) : State :=
  { s with agenda := s.agenda ++ [(i, { a := a, b := b, c := c })] }
/-- The next number of the model. -/
def State.fresh (s : State) : Nat × State := (s.nextNo, { s with nextNo := s.nextNo + 1 })
/-- A free value: nothing constrains it (log entry 4). -/
def State.drawFree (s : State) : Word × State := (Config.freeWord s.free, { s with free := s.free + 1 })

/-- The core the focus is on. -/
def State.fcore (s : State) : Nat := match s.focus with | .lc c _ => c | .ds d => 768 + d
/-- The context the focus is on. -/
def State.fctx (s : State) : Nat := match s.focus with | .lc _ k => k | .ds _ => 0
/-- The context that issues. -/
def State.cur (s : State) : Ctx := s.ctx s.fcore s.fctx
/-- Change the context that issues. -/
def State.setCur (s : State) (c : Ctx) : State := s.setCtx s.fcore s.fctx c
/-- The die the focus is on, for a dense sequencer. -/
def State.fdie (s : State) : Nat := match s.focus with | .lc _ _ => 0 | .ds d => d

/-- The 24-bit rank of a local rank of this module (spec 01 R39). -/
def State.rankOf (s : State) (n : Nat) : BitVec 24 := s.modid ++ BitVec.ofNat 12 n
/-- The local rank of a 24-bit rank. -/
def localOf (r : BitVec 24) : Nat := r.toNat % 4096
/-- The module of a 24-bit rank. -/
def modOf (r : BitVec 24) : BitVec 12 := r.extractLsb' 12 12

/-- System mode: contexts 14 and 15 (spec 01 R17). -/
def sysMode (ctx : Nat) : Bool := ctx == 14 || ctx == 15

/-- The partition that holds a hedge, if one does (spec 18 R456). -/
def findPart : Table Partition → Nat → Option Nat
  | [], _ => none
  | (n, p) :: r, h => if p.isSet && p.hedges.contains h then some n else findPart r h
/-- The partition of a lookup core. -/
def State.partOf (s : State) (core : Nat) : Option Nat := findPart s.parts (core / 8)
/-- The lookup cores of a partition on this module, ascending. -/
def partCores (p : Partition) : List Nat := p.hedges.flatMap fun h => (List.range 8).map fun i => h * 8 + i

/-! ### Registers (spec 01 R9 to R15) -/

/-- A general register. -/
def Ctx.gr (c : Ctx) (r : BitVec 4) : GReg := c.g[r.toNat]'(by have := r.isLt; omega)
/-- Its 64 data bits. -/
def Ctx.gv (c : Ctx) (r : BitVec 4) : Word := (c.gr r).val
/-- Write a general register with a tag. -/
def Ctx.setGT (c : Ctx) (r : BitVec 4) (x : GReg) : Ctx := { c with g := c.g.set r.toNat x (by have := r.isLt; omega) }
/-- Write a general register with tag 0 (spec 01 R10). -/
def Ctx.setG (c : Ctx) (r : BitVec 4) (v : Word) : Ctx := c.setGT r ⟨v, false⟩
/-- A predicate; p0 reads 1 (spec 01 R12). -/
def Ctx.pr (c : Ctx) (p : BitVec 4) : Bool := if p = 0 then true else c.preds.getLsbD p.toNat
/-- Write a predicate; a write to p0 is discarded (spec 01 R12). -/
def Ctx.setP (c : Ctx) (p : BitVec 4) (b : Bool) : Ctx :=
  if p = 0 then c
  else { c with preds := if b then c.preds ||| (1#16 <<< p.toNat) else c.preds &&& ~~~(1#16 <<< p.toNat) }
/-- A vector register. -/
def Ctx.wv (c : Ctx) (r : BitVec 3) : BitVec 256 := c.w[r.toNat]'(by have := r.isLt; omega)
/-- Write a vector register. -/
def Ctx.setW (c : Ctx) (r : BitVec 3) (v : BitVec 256) : Ctx := { c with w := c.w.set r.toNat v (by have := r.isLt; omega) }
/-- A token register. -/
def Ctx.tok (c : Ctx) (r : BitVec 3) : Tok := c.toks[r.toNat]'(by have := r.isLt; omega)
/-- Write a token register; tk0 is no register (spec 01 R15). -/
def Ctx.setTok (c : Ctx) (r : BitVec 3) (t : Tok) : Ctx :=
  if r = 0 then c else { c with toks := c.toks.set r.toNat t (by have := r.isLt; omega) }

/-- The guard of a word (spec 03 R82). -/
def Ctx.guard (c : Ctx) (h : Hdr) : Bool := c.pr (h.gp.zeroExtend 4) != h.neg

/-! ### Where bytes stand (spec 12 R317, R318, R320, R321; log entry 5) -/

/-- Physical address of byte off of tile space sp of a core: its backing. The system page is the core's own, shared by its spaces. -/
def tilePa (core sp off : Nat) : Nat :=
  core * 2 ^ 30 + (if off / 4096 = 63 ∨ sp ≥ 8 then 0x2FFC0000 else 0x2F800000 + sp * 0x40000) + off
/-- The save area of a core. -/
def savePa (core : Nat) : Nat := core * 2 ^ 30 + 0x2FA00000
/-- The carve-out of a pseudo-channel. -/
def carvePa (pc off : Nat) : Nat := 2 ^ 40 + pc * 2 ^ 20 + off
/-- The dense buffer of a die. -/
def dbPa (die off : Nat) : Nat := 2 ^ 41 + die * 2 ^ 25 + off
/-- The microcode store of a die. -/
def ucPa (die off : Nat) : Nat := 2 ^ 42 + die * 2 ^ 14 + off
/-- Element (k, j) of plane area p of a die. -/
def planePa (die p k j : Nat) : Nat := 2 ^ 43 + die * 2 ^ 18 + p * 2 ^ 17 + (k * 256 + j) * 2
/-- The pseudo-channel that holds a physical address of this module: its home (spec 12 R317). -/
def homeOf (pa : Nat) : Nat := if pa < 2 ^ 40 then pa / 2 ^ 30 else pa % 2 ^ 40 / 2 ^ 20

/-- Some granule of the n bytes at a is poisoned (spec 12 R336). -/
def State.poisonedAt (s : State) (a n : Nat) : Bool := s.poison.any fun g => decide (g * 64 < a + n ∧ a < g * 64 + 64)
/-- The first poisoned byte of the n bytes at a, as an offset. -/
def State.firstPoison (s : State) (a n : Nat) : Nat :=
  ((s.poison.filter fun g => decide (g * 64 < a + n ∧ a < g * 64 + 64)).map fun g => g * 64 - a).headD 0
/-- Mark a granule poisoned. -/
def insertNat : List Nat → Nat → List Nat
  | [], n => [n]
  | k :: r, n => if n < k then n :: k :: r else if n = k then k :: r else k :: insertNat r n
/-- Clear the marks of granules the n bytes at a cover whole (spec 12 R337). -/
def State.clearPoison (s : State) (a n : Nat) : State :=
  { s with poison := s.poison.filter fun g => !(decide (a ≤ g * 64) && decide (g * 64 + 64 ≤ a + n)) }
/-- A clean write of bytes at a physical address (spec 12 R337). -/
def State.store (s : State) (a : Nat) (bs : List Byte) : State := (s.wrB a bs).clearPoison a bs.length

/-! ### Translation (spec 12 R325 to R330) -/

/-- The trap of a page fault. -/
def pageTrap (sub : BitVec 8) (va : Nat) : Trap := ⟨0x10, sub, BitVec.ofNat 64 va⟩
def poisonTrap (va : Nat) : Trap := ⟨0x15, 0, BitVec.ofNat 64 va⟩
def regionTrap (sub : BitVec 8) (va : Nat) : Trap := ⟨0x11, sub, BitVec.ofNat 64 va⟩

/-- The slice that translates a virtual address for a partition (spec 12 R325). -/
def xlSlice (p : Partition) (va : Nat) : Nat :=
  let v := va / 2 ^ 16 % 2 ^ 32
  let h := Nat.xor (Nat.xor v (v / 2 ^ 11)) (v / 2 ^ 22) % 2 ^ 16
  let L := partCores p
  L.getD (h % L.length) 0

/-- A frame a table entry may name: a pseudo-channel of the partition on this module, below the reserve (spec 01 R38; 12 R317, R318). -/
def frameOk (s : State) (p : Partition) (mod : BitVec 12) (pa len : Nat) : Bool :=
  decide (pa / 2 ^ 30 < 768) && decide (pa % 2 ^ 30 + len ≤ 0x2F800000) &&
    (mod != s.modid || p.hedges.contains (pa / 2 ^ 30 / 8))

/-- The frame a page has moved to, through as many moves as stand (spec 12 R335). -/
def redirectFrom (s : State) : Nat → Nat → Nat
  | 0, pa => pa
  | f + 1, pa => match (s.home (homeOf pa)).redirects.find? fun x => x.1 == pa / 65536 with
    | some (_, n) => redirectFrom s f (n * 65536 + pa % 65536)
    | none => pa
def State.redirect (s : State) (pa : Nat) : Nat := redirectFrom s 64 pa
/-- One entry of the page table: its 8 bytes, or POISON (spec 12 R327), in the frame that its table has moved to (spec 12 R335). -/
def readPte (s : State) (va pa : Nat) : Except Trap Nat :=
  let pa := s.redirect pa
  if s.poisonedAt pa 8 then .error (poisonTrap va) else .ok (s.rd pa 8)
/-- The CARVE count of a slice: of another module's it is a free value of at most 4 (spec 12 R320; log entry 132). -/
def State.carveOf (s : State) (mod : BitVec 12) (pc : Nat) : Nat :=
  if mod = s.modid then (s.home pc).carve else min 4 (Config.remoteCarve mod pc).toNat

/-- The leaf an entry makes, or its fault; level 2 or 3 (spec 12 R327). -/
def leafOf (s : State) (pn : Nat) (p : Partition) (va e : Nat) (big : Bool) : Except Trap XlEntry :=
  let mod := BitVec.ofNat 12 (e / 2 ^ 40)
  let frame := e % 2 ^ 40 / 2 ^ 16 * 2 ^ 16
  let carve := e / 8 % 2 == 1
  let ok :=
    if carve then
      !big && decide (frame / 2 ^ 30 < 768) && (mod != s.modid || p.hedges.contains (frame / 2 ^ 30 / 8)) &&
        decide (frame % 2 ^ 30 < s.carveOf mod (frame / 2 ^ 30) * 2 ^ 17)
    else frameOk s p mod frame (if big then 2 ^ 29 else 2 ^ 16) && (!big || frame % 2 ^ 29 == 0)
  if ok then
    .ok { part := pn, page := if big then va / 2 ^ 29 * 2 ^ 13 else va / 2 ^ 16, big := big, mod := mod, frame := frame, carve := carve,
          atomcap := e / 4 % 2 == 1 }
  else .error (pageTrap 0x07 va)

/-- The checks every entry passes first: V and the reserved bits (spec 12 R327). -/
def pteValid (e : Nat) : Bool := e % 2 == 1 && e / 2 ^ 52 % 16 == 0 && e / 16 % 2 ^ 12 == 0

/-- The next table a non-leaf entry names. -/
def nextTable (s : State) (p : Partition) (va e : Nat) : Except Trap Nat :=
  let mod := BitVec.ofNat 12 (e / 2 ^ 40)
  let frame := e % 2 ^ 40 / 2 ^ 16 * 2 ^ 16
  if mod = s.modid ∧ e / 8 % 2 = 0 ∧ e / 4 % 2 = 0 ∧ frameOk s p mod frame (2 ^ 16) = true then .ok frame
  else .error (pageTrap 0x07 va)

/-- The walk of a partition's page table (spec 12 R326, R327). -/
def walkTable (s : State) (pn va : Nat) : Except Trap XlEntry :=
  let p := s.part pn
  let va := va % 2 ^ 48
  match readPte s va (p.root + va / 2 ^ 42 * 8) with
  | .error t => .error t
  | .ok e1 =>
    if pteValid e1 = false then .error (pageTrap 0x06 va)
    else if e1 / 2 % 2 = 1 then .error (pageTrap 0x07 va)
    else match nextTable s p va e1 with
    | .error t => .error t
    | .ok t2 =>
      match readPte s va (t2 + va / 2 ^ 29 % 2 ^ 13 * 8) with
      | .error t => .error t
      | .ok e2 =>
        if pteValid e2 = false then .error (pageTrap 0x06 va)
        else if e2 / 2 % 2 = 1 then leafOf s pn p va e2 true
        else match nextTable s p va e2 with
        | .error t => .error t
        | .ok t3 =>
          match readPte s va (t3 + va / 2 ^ 16 % 2 ^ 13 * 8) with
          | .error t => .error t
          | .ok e3 =>
            if pteValid e3 = false then .error (pageTrap 0x06 va)
            else if e3 / 2 % 2 = 0 then .error (pageTrap 0x07 va)
            else leafOf s pn p va e3 false

/-- An entry covers an address of its partition. -/
def XlEntry.covers (e : XlEntry) (pn va : Nat) : Bool :=
  e.part == pn && (if e.big then va / 2 ^ 29 * 2 ^ 13 == e.page else va / 2 ^ 16 == e.page)
/-- The physical address of va under an entry. -/
def XlEntry.pa (e : XlEntry) (va : Nat) : Nat :=
  if e.carve then carvePa (e.frame / 2 ^ 30) (e.frame % 2 ^ 30 + va % 2 ^ 16)
  else e.frame + va % (if e.big then 2 ^ 29 else 2 ^ 16)

/-- The entry a translation slice holds for an address. -/
def State.xlHit (s : State) (pn va : Nat) : Option XlEntry :=
  (s.home (xlSlice (s.part pn) va)).xl.find? fun e => e.covers pn va
/-- Enter a leaf in the slice that translates the address; the oldest of 2048 leaves it (spec 12 R325). -/
def State.xlFill (s : State) (pn va : Nat) (e : XlEntry) : State :=
  let n := xlSlice (s.part pn) va
  let h := s.home n
  s.setHome n { h with xl := (e :: h.xl).take 2048 }
/-- Translate an address in one act: a hit, or a walk and a fill. -/
def State.xlate (s : State) (pn va : Nat) : State × Except Trap XlEntry :=
  match s.xlHit pn va with
  | some e => (s, .ok e)
  | none =>
    match walkTable s pn va with
    | .ok e => (s.xlFill pn va e, .ok e)
    | .error t => (s, .error t)

/-- The virtual address of a partition that its page table maps to a physical address of this module, the lowest where several do: what a request that
carries the physical address alone stands for (spec 07 R210; 13 R346; log entry 76). -/
def State.vaOf (s : State) (pn pa : Nat) : Option Nat :=
  let p := s.part pn
  -- a frame that its page has left stands for that page until its redirect entry is released (spec 12 R335)
  match s.moving.find? fun m => m.part == pn && m.oldFrame == pa / 65536 * 65536 with
  | some m => some (m.page * 65536 + pa % 65536)
  | none =>
  let leaf (va e : Nat) (big : Bool) : Option Nat :=
    match leafOf s pn p va e big with
    | .error _ => none
    | .ok x =>
      let off := va % (if big then 2 ^ 29 else 2 ^ 16)
      let n := if big then 2 ^ 29 else 2 ^ 16
      let lo := x.pa (va - off)
      if x.mod = s.modid ∧ lo ≤ pa ∧ pa < lo + n then some (va - off + (pa - lo)) else none
  let entry (va a : Nat) : Option Nat := match readPte s va a with
    | .ok e => if pteValid e then some e else none
    | .error _ => none
  let table (va e : Nat) : Option Nat := if e / 2 % 2 = 1 then none else match nextTable s p va e with
    | .ok t => some t
    | .error _ => none
  (List.range 64).findSome? fun i =>
    let v1 := i * 2 ^ 42
    (entry v1 (p.root + i * 8)).bind fun e1 => (table v1 e1).bind fun t2 =>
    (List.range 8192).findSome? fun j =>
      let v2 := v1 + j * 2 ^ 29
      (entry v2 (t2 + j * 8)).bind fun e2 =>
        if e2 / 2 % 2 = 1 then leaf v2 e2 true
        else (table v2 e2).bind fun t3 =>
          (List.range 8192).findSome? fun k =>
            let v3 := v2 + k * 2 ^ 16
            (entry v3 (t3 + k * 8)).bind fun e3 => if e3 / 2 % 2 = 1 then leaf v3 e3 false else none

/-- Kinds of access the region state tells apart (spec 12 R330). -/
inductive RKind where
  | read | engineRead | row | ldv | stv | reclaim | write | atom | aacc | engineWrite
  deriving DecidableEq, Repr

/-- The region entry that covers a page, with its index (spec 12 R329). -/
def regionOf : Table Region → Nat → Option (Nat × Region)
  | [], _ => none
  | (i, r) :: t, page => if r.st ≠ 0 ∧ r.base ≤ page ∧ page ≤ r.limit then some (i, r) else regionOf t page
/-- The region of an address of a partition. -/
def State.region (s : State) (pn va : Nat) : Option (Nat × Region) := regionOf (s.part pn).regions (va / 2 ^ 16 % 2 ^ 32)
/-- State of that region; 3, shared-writable, where none covers the address. -/
def State.regionSt (s : State) (pn va : Nat) : Nat := match s.region pn va with | some (_, r) => r.st | none => 3

/-- The region check: none when permitted, else the sub-cause of REGION (spec 12 R330; 07 R189, R193). -/
def regionCheck (r : Option (Nat × Region)) (rank : BitVec 24) (k : RKind) : Option (BitVec 8) :=
  let st := match r with | some (_, x) => x.st | none => 3
  let versionedForm := k == .ldv || k == .stv || k == .reclaim
  if versionedForm then (if st = 4 then none else some 0x02)
  else match st with
    | 1 => if k == .read || k == .engineRead || k == .row then none else some 0x01
    | 2 => (match r with | some (_, x) => if x.owner = rank then none else some 0x01 | none => none)
    | 4 => if k == .read || k == .engineRead || k == .row || k == .aacc then none else some 0x01
    | _ => none

end Sys2Proof.Machine
end

