-- ==== Sys2Proof/Machine/Hash.lean ====
section
/-! DEFINITION. CRC-32 of IEEE 802.3 (spec 14 R365; 17 R436) and SHA-256 (spec 15 R385; 18 R467). -/

namespace Sys2Proof.Machine

/-! ### CRC-32 -/

/-- n shifts of the reflected polynomial 0xEDB88320. -/
def crcShift : Nat → BitVec 32 → BitVec 32
  | 0, c => c
  | n + 1, c => crcShift n (if c.getLsbD 0 then (c >>> 1) ^^^ 0xEDB88320 else c >>> 1)
/-- CRC-32 of a list of bytes. -/
def crc32 (bs : List Byte) : BitVec 32 :=
  ~~~(bs.foldl (fun (c : BitVec 32) b => crcShift 8 (c ^^^ b.zeroExtend 32)) 0xFFFFFFFF)

/-! ### SHA-256

The 32-bit constants of the algorithm are the leading fraction bits of square and cube roots of primes; they are computed here. -/

/-- The largest r below 2^k + acc with r^e at most n, found bit by bit from the top. -/
def rootBits (e n : Nat) : Nat → Nat → Nat
  | 0, acc => acc
  | k + 1, acc => rootBits e n k (if (acc + 2 ^ k) ^ e ≤ n then acc + 2 ^ k else acc)
/-- The first 32 bits of the fraction of the e-th root of p. -/
def rootFraction (e p : Nat) : BitVec 32 := BitVec.ofNat 32 (rootBits e (p * 2 ^ (32 * e)) 37 0)
/-- The primes below 312: the first 64 primes. -/
def smallPrimes : List Nat :=
  (List.range 312).foldl (fun ps n => if n < 2 || ps.any (fun p => n % p == 0) then ps else ps ++ [n]) []

/-- The exclusive or of a word's rotations. -/
def twist (ns : List Nat) (x : BitVec 32) : BitVec 32 := (ns.map x.rotateRight).foldr (· ^^^ ·) 0

/-- Two interleaved recurrences, each four words deep, the newest first. -/
structure ShaLanes where
  p : List (BitVec 32) := []
  q : List (BitVec 32) := []
  deriving DecidableEq, Repr
/-- The lanes at the start: square roots of the first eight primes. -/
def ShaLanes.start : ShaLanes :=
  { p := (smallPrimes.take 4).map (rootFraction 2), q := ((smallPrimes.drop 4).take 4).map (rootFraction 2) }
/-- One round: u is the sum of its constant and its schedule word. -/
def ShaLanes.turn (l : ShaLanes) (u : BitVec 32) : ShaLanes :=
  let nth (xs : List (BitVec 32)) n := xs.getD n 0
  let pick := nth l.q 2 ^^^ (nth l.q 0 &&& (nth l.q 1 ^^^ nth l.q 2))
  let mid := u + nth l.q 3 + pick + twist [25, 11, 6] (nth l.q 0)
  let most := (nth l.p 0 &&& (nth l.p 1 ||| nth l.p 2)) ||| (nth l.p 1 &&& nth l.p 2)
  { p := (mid + most + twist [22, 13, 2] (nth l.p 0)) :: l.p.take 3, q := (nth l.p 3 + mid) :: l.q.take 3 }
/-- The rounds over a block: the window holds the next sixteen schedule words, the constants those of the rounds still to do. -/
def ShaLanes.rounds : List (BitVec 32) → List (BitVec 32) → ShaLanes → ShaLanes
  | [], _, l => l
  | k :: ks, win, l =>
    let w := win.headD 0
    let next := w + win.getD 9 0 + (win.getD 1 0 >>> 3 ^^^ twist [18, 7] (win.getD 1 0)) +
      (win.getD 14 0 >>> 10 ^^^ twist [19, 17] (win.getD 14 0))
    ShaLanes.rounds ks (win.drop 1 ++ [next]) (l.turn (k + w))
/-- The 32-bit words of bytes, each most significant byte first; at most n. -/
def bigWords : Nat → List Byte → List (BitVec 32)
  | 0, _ => []
  | n + 1, bs => BitVec.ofNat 32 ((bs.take 4).foldl (fun a b => 256 * a + b.toNat) 0) :: bigWords n (bs.drop 4)
/-- Absorb n blocks of 64 bytes. -/
def ShaLanes.absorb : Nat → List Byte → ShaLanes → ShaLanes
  | 0, _, l => l
  | n + 1, bs, l =>
    let r := ShaLanes.rounds (smallPrimes.map (rootFraction 3)) (bigWords 16 bs) l
    ShaLanes.absorb n (bs.drop 64) { p := (l.p.zip r.p).map fun x => x.1 + x.2, q := (l.q.zip r.q).map fun x => x.1 + x.2 }
/-- SHA-256 of a list of bytes: the message, a 1 bit, zeros and the length in bits make whole blocks. -/
def sha256 (bs : List Byte) : List Byte :=
  let gap := (119 - bs.length % 64) % 64
  let msg := bs ++ 0x80#8 :: (List.replicate gap 0 ++ (leBytes 8 (8 * bs.length)).reverse)
  let l := ShaLanes.absorb (msg.length / 64) msg ShaLanes.start
  ((l.p ++ l.q).map fun w => (leBytes 4 w.toNat).reverse).flatten

end Sys2Proof.Machine
end

