-- ==== Sys2Proof/Machine/Aes.lean ====
section
/-! DEFINITION. AES-256-GCM and key derivation by HKDF with SHA-256 (spec 17 R438). Bytes are numbers below 256; a block is 16 of them, in order. -/

namespace Sys2Proof.Machine

/-! ### The block cipher -/

/-- Twice an element of the field of 256. -/
def gfTwice (a : Nat) : Nat := if a < 128 then 2 * a else Nat.xor (2 * a) 0x11B
/-- Product in the field, over the n low bits of b. -/
def gfMul (a : Nat) : Nat → Nat → Nat
  | 0, _ => 0
  | n + 1, b => Nat.xor (if b % 2 = 1 then a else 0) (gfTwice (gfMul a n (b / 2)))
/-- r times the product of a^2, a^4 and on to a^(2^n): with n = 7 and r = 1 the inverse of a, or 0. -/
def gfInv (a : Nat) : Nat → Nat → Nat
  | 0, r => r
  | n + 1, r => gfInv (gfMul a 8 a) n (gfMul r 8 (gfMul a 8 a))
/-- Rotation of a byte to the left. -/
def rotByte (a n : Nat) : Nat := a * 2 ^ n % 256 + a / 2 ^ (8 - n)
/-- The substitution of a byte: its inverse under an affine map. -/
def subByte (a : Nat) : Nat :=
  let b := gfInv a 7 1
  [b, rotByte b 1, rotByte b 2, rotByte b 3, rotByte b 4].foldl Nat.xor 0x63
def xorBytes (a b : List Nat) : List Nat := (a.zip b).map fun x => Nat.xor x.1 x.2
/-- n further words of the key schedule, the newest first. -/
def keyWords : Nat → List (List Nat) → List (List Nat)
  | 0, ws => ws
  | n + 1, ws =>
    let i := ws.length
    let t := ws.headD []
    let t := if i % 8 = 0 then xorBytes ((t.drop 1 ++ t.take 1).map subByte) [2 ^ (i / 8 - 1), 0, 0, 0] else if i % 8 = 4 then t.map subByte else t
    keyWords n (xorBytes (ws.getD 7 []) t :: ws)
/-- The 15 round keys of a key of 32 bytes. -/
def roundKeys (key : List Nat) : List (List Nat) :=
  let ws := (keyWords 52 ((List.range 8).map fun i => (key.drop (4 * i)).take 4).reverse).reverse
  (List.range 15).map fun r => ((ws.drop (4 * r)).take 4).flatten
/-- Rows rotate: byte r of column c comes from column c + r. -/
def shiftRows (b : List Nat) : List Nat := (List.range 16).map fun i => b.getD (i % 4 + 4 * ((i / 4 + i % 4) % 4)) 0
/-- Each column is multiplied by the circulant of 2, 3, 1, 1. -/
def mixColumns (b : List Nat) : List Nat :=
  (List.range 16).map fun i =>
    let at_ (k : Nat) : Nat := b.getD (i / 4 * 4 + (i + k) % 4) 0
    [gfTwice (at_ 0), gfTwice (at_ 1), at_ 1, at_ 2, at_ 3].foldl Nat.xor 0
/-- The rounds after the first key has been added. -/
def aesRounds : List (List Nat) → List Nat → List Nat
  | [], b => b
  | [k], b => xorBytes (shiftRows (b.map subByte)) k
  | k :: r, b => aesRounds r (xorBytes (mixColumns (shiftRows (b.map subByte))) k)
/-- AES-256 of a block under round keys. -/
def aesBlock (ks : List (List Nat)) (b : List Nat) : List Nat := aesRounds (ks.drop 1) (xorBytes b (ks.headD []))

/-! ### Galois counter mode -/

def blockNat (b : List Nat) : Nat := b.foldl (fun a x => 256 * a + x) 0
def natBlock (n : Nat) : List Nat := (List.range 16).map fun i => n / 256 ^ (15 - i) % 256
/-- Product in the field of GHASH, over n bits of x from bit 127 - n down. -/
def ghMul (x : Nat) : Nat → Nat → Nat → Nat
  | 0, _, z => z
  | n + 1, v, z => ghMul x n (if v % 2 = 1 then Nat.xor (v / 2) (0xE1 * 2 ^ 120) else v / 2) (if x.testBit n then Nat.xor z v else z)
/-- GHASH of bytes, whole blocks of 16 with the last filled with zeros. -/
def ghash (h : Nat) : Nat → List Nat → Nat → Nat
  | 0, _, y => y
  | n + 1, bs, y => ghash h n (bs.drop 16) (ghMul (Nat.xor y (blockNat ((bs ++ List.replicate 16 0).take 16))) 128 h 0)
/-- The key stream from a counter block on, n blocks. -/
def keyStream (ks : List (List Nat)) (iv : List Nat) : Nat → Nat → List Nat
  | 0, _ => []
  | n + 1, c => aesBlock ks (iv ++ (List.range 4).map fun i => c / 256 ^ (3 - i) % 256) ++ keyStream ks iv n (c + 1)
/-- Bytes encrypted, or decrypted, under an IV of 12 bytes. -/
def gcmText (ks : List (List Nat)) (iv bs : List Nat) : List Nat := xorBytes bs (keyStream ks iv ((bs.length + 15) / 16) 2)
/-- The tag over additional data and ciphertext. -/
def gcmTag (ks : List (List Nat)) (iv aad ct : List Nat) : List Nat :=
  let h := blockNat (aesBlock ks (List.replicate 16 0))
  let y := ghash h ((aad.length + 15) / 16) aad 0
  let y := ghash h ((ct.length + 15) / 16) ct y
  let y := ghMul (Nat.xor y (aad.length * 8 * 2 ^ 64 + ct.length * 8)) 128 h 0
  xorBytes (natBlock y) (keyStream ks iv 1 1)
/-- AES-256-GCM of bytes under a key of 32 bytes and an IV of 12: the ciphertext with the tag behind it. -/
def gcmSeal (key iv aad bs : List Byte) : List Byte :=
  let n (l : List Byte) : List Nat := l.map BitVec.toNat
  let ks := roundKeys (n key)
  let ct := gcmText ks (n iv) (n bs)
  (ct ++ gcmTag ks (n iv) (n aad) ct).map (BitVec.ofNat 8)
/-- The plain bytes of a ciphertext with its tag, and whether the tag verifies. -/
def gcmOpen (key iv aad bs : List Byte) : List Byte × Bool :=
  let n (l : List Byte) : List Nat := l.map BitVec.toNat
  let ks := roundKeys (n key)
  let ct := (n bs).take (bs.length - 16)
  ((gcmText ks (n iv) ct).map (BitVec.ofNat 8), gcmTag ks (n iv) (n aad) ct == (n bs).drop (bs.length - 16))

/-! ### XTS (spec 18 R461) -/

/-- Blocks of 16 bytes under a tweak that doubles in the field of 128 from block to block, its bytes little-endian. -/
def xtsBlocks (ks : List (List Nat)) : Nat → Nat → List Nat → List Nat
  | 0, _, _ => []
  | n + 1, t, bs =>
    let tb := (natBlock t).reverse
    xorBytes (aesBlock ks (xorBytes (bs.take 16) tb)) tb ++ xtsBlocks ks n (2 * t % 2 ^ 128 |> fun u => if 2 ^ 127 ≤ t then Nat.xor u 0x87 else u) (bs.drop 16)
/-- AES-256-XTS of whole blocks of 16 bytes: the first 32 bytes of the key are the data key, the others the tweak key. -/
def xtsSeal (key : List Byte) (tweak : Nat) (bs : List Byte) : List Byte :=
  let n (l : List Byte) : List Nat := l.map BitVec.toNat
  let t := aesBlock (roundKeys (n (key.drop 32))) (natBlock tweak).reverse
  (xtsBlocks (roundKeys (n (key.take 32))) (bs.length / 16) (blockNat t.reverse) (n bs)).map (BitVec.ofNat 8)

/-! ### Key derivation -/

/-- HMAC with SHA-256, of a key of at most 64 bytes. -/
def hmac (key bs : List Byte) : List Byte :=
  let k := (key ++ List.replicate 64 0).take 64
  sha256 ((k.map fun b => b ^^^ 0x5C) ++ sha256 ((k.map fun b => b ^^^ 0x36) ++ bs))
/-- The first 32 bytes that HKDF derives from a secret. -/
def hkdf (salt secret info : List Byte) : List Byte := hmac (hmac (salt.take 64) secret) (info ++ [1])

end Sys2Proof.Machine
end

