-- ==== Sys2Proof/Machine/Net.lean ====
section
/-! DEFINITION. Messages on their way: header words, counters of scopes, streams and injection at a network interface, packets for other
modules, and the messages hardware forms (spec 02 R49 to R57; 15 R391; 17 R427 to R441). -/

namespace Sys2Proof.Machine

/-- Lane or word of four. -/
def arg4 (a b c d : Word) : Vector GReg 4 := #v[⟨a, false⟩, ⟨b, false⟩, ⟨c, false⟩, ⟨d, false⟩]
/-- Argument word i of a message. -/
def Msg.arg (m : Msg) (i : Fin 4) : Word := (m.args[i.val]).val

/-- The partition of a core; 8 where it has none. -/
def State.partNo (s : State) (core : Nat) : Nat := (s.partOf core).getD 8

/-- Bits of a number: n bits from bit lo. -/
def bits (v lo n : Nat) : Nat := v / 2 ^ lo % 2 ^ n

/-- An event whose time is a timer's comes due behind every agent that can move. -/
def State.later (s : State) (i : Instr) (a : Nat := 0) (b : Nat := 0) (c : Nat := 0) : State :=
  { s with timers := s.timers ++ [(i, { a := a, b := b, c := c })] }

/-- A record for the SMC's logs. -/
def State.log (s : State) (r : List Nat) : State := { s with smc := { s.smc with logs := s.smc.logs ++ [r] } }

/-! ### Scopes and counts (spec 02 R72; 15 R391) -/

/-- Scope id lies in the subtree of root, by at most fuel steps to the parent. -/
def inTree (s : State) (part : Nat) (root : BitVec 16) : Nat → BitVec 16 → Bool
  | 0, _ => false
  | n + 1, id => if id = root then true else if id = 0 then false else inTree s part root n (s.scope part id).parent
/-- Scope id lies in the subtree of root (spec 01 R41: at most 4096 live scopes). -/
def State.inScope (s : State) (part : Nat) (root id : BitVec 16) : Bool := inTree s part root 4097 id
/-- ScopeLive (spec 01 R48). -/
def State.scopeLive (s : State) (part : Nat) (id : BitVec 16) : Bool := (s.scope part id).st == .live
/-- DYING or DEAD: work of the scope is dead work (spec 01 R41). -/
def State.scopeDead (s : State) (part : Nat) (id : BitVec 16) : Bool :=
  match (s.scope part id).st with | .dying | .dead => true | .free | .live => false
/-- The launch whose subtree holds a scope. -/
def launchUp (s : State) (part : Nat) : Nat → BitVec 16 → Option Nat
  | 0, _ => none
  | n + 1, id => match (s.scope part id).launch with
    | some l => some l
    | none => if id = 0 then none else launchUp s part n (s.scope part id).parent
def State.launchOf (s : State) (part : Nat) (id : BitVec 16) : Option Nat := launchUp s part 4097 id

/-- Key of a unit's counts of a scope. -/
def cntKey (part : Nat) (scope : BitVec 16) (unit : Nat) : Nat := (part * 65536 + scope.toNat) * 4096 + unit
def State.cnt (s : State) (part : Nat) (scope : BitVec 16) (unit : Nat) : Cnt := (tget s.counts (cntKey part scope unit)).getD {}
/-- Change a unit's counts of a scope. -/
def State.onCnt (s : State) (part : Nat) (scope : BitVec 16) (unit : Nat) (f : Cnt → Cnt) : State :=
  { s with counts := tset s.counts (cntKey part scope unit) (f (s.cnt part scope unit)) }
/-- A rank whose messages count: an LC or a thread rank. -/
def countsRank (r : BitVec 24) : Bool := decide (localOf r < 768) || decide (1024 ≤ localOf r)
/-- A message disposed of at a unit counts as received (spec 15 R391). -/
def State.received (s : State) (unit : Nat) (m : Msg) : State :=
  if countsRank m.dest && !m.counted then s.onCnt m.part m.scope unit fun c => { c with recvd := c.recvd + 1 } else s
/-- Set error bits of a scope's counts at a unit (spec 15 R391). -/
def State.err (s : State) (part : Nat) (scope : BitVec 16) (unit : Nat) (e : BitVec 8) : State :=
  s.onCnt part scope unit fun c => { c with err := c.err ||| e }
/-- The event by which a home takes up a message of a row. -/
def Msg.rowEvent (m : Msg) : Instr :=
  if m.addr = 0x200 then .rowRequest else if m.addr = 0x20C then .closeNotice else .rowAccumulatePart
/-- The home that holds the lock whose handler's message has a number: a lock moves with its page (spec 12 R334; 13 R353). -/
def State.lockHome (s : State) (no : Nat) : Option Nat :=
  (s.homes.find? fun x => x.2.locks.any fun l => l.handlerMsg == no).map fun x => x.1
/-- The row whose handler's message has a number is unlocked: the work queued behind it is taken up in its order, before what its home put off
later (spec 13 R353). -/
def State.unlockRow (s : State) (no : Nat) : State :=
  match s.lockHome no with
  | none => s
  | some n =>
    let h := s.home n
    let q := (h.locks.filter fun x => x.handlerMsg == no).flatMap fun l => l.queue
    let s := s.setHome n { h with locks := h.locks.filter fun x => x.handlerMsg != no, waits := q ++ h.waits }
    q.foldl (fun s q => match s.fab.msgs.find? fun x => x.msg.no == q with
      | some x => s.due x.msg.rowEvent q
      | none => s) s
/-- A spawn that would start a thread with a rank is gone: the rank leaves the table (spec 02 R68). -/
def State.unbind (s : State) (m : Msg) : State :=
  match m.bind with
  | some r => { s with fab := { s.fab with ranks := tdel s.fab.ranks (localOf r) } }
  | none => s
/-- The DROPPED count of a scope rises (spec 02 R55). -/
def State.countDropped (s : State) (unit part : Nat) (scope : BitVec 16) : State :=
  let s := s.err part scope unit 4
  let e := s.scope part scope
  s.setScope part scope { e with dropped := e.dropped + 1 }
/-- A message is dropped: counted in its scope's DROPPED count and as received (spec 02 R55; 15 R391). -/
def State.dropMsg (s : State) (unit : Nat) (m : Msg) : State :=
  let s := if m.kind = .spawn ∧ m.sctx = 16 then s.unlockRow m.no else s
  ((s.unbind m).received unit m).countDropped unit m.part m.scope

/-! ### Headers (spec 02 R49) -/

def MKind.code : MKind → Nat
  | .spawn => 0 | .resume => 1 | .builtin => 2 | .context => 3
def mkindOf (n : Nat) : MKind := match n % 4 with | 0 => .spawn | 1 => .resume | 2 => .builtin | _ => .context

/-- Header word 0. -/
def Msg.w0 (m : Msg) : Nat :=
  m.dest.toNat * 2 ^ 40 + m.prio.toNat * 2 ^ 38 + m.kind.code * 2 ^ 36 + m.inl.toNat * 2 ^ 35 + m.pay.toNat * 2 ^ 34 +
    m.merge.toNat * 2 ^ 33 + m.relord.toNat * 2 ^ 32 + m.addr.toNat
/-- Header word 1. -/
def Msg.w1 (m : Msg) : Nat :=
  m.scope.toNat * 2 ^ 48 + m.plen.toNat * 2 ^ 40 + m.ilen.toNat * 2 ^ 32 + m.srclr.toNat * 2 ^ 20 + m.seqn.toNat
/-- The message id (spec 02 R51). -/
def Msg.id (m : Msg) : BitVec 32 := m.srclr ++ m.seqn
/-- A message read from its two header words. -/
def Msg.ofWords (a b : Nat) : Msg :=
  { dest := BitVec.ofNat 24 (a / 2 ^ 40), prio := BitVec.ofNat 2 (a / 2 ^ 38), kind := mkindOf (bits a 36 2),
    inl := bits a 35 1 == 1, pay := bits a 34 1 == 1, merge := bits a 33 1 == 1, relord := bits a 32 1 == 1,
    addr := BitVec.ofNat 32 a, scope := BitVec.ofNat 16 (b / 2 ^ 48), plen := BitVec.ofNat 8 (b / 2 ^ 40),
    ilen := BitVec.ofNat 8 (b / 2 ^ 32), srclr := BitVec.ofNat 12 (b / 2 ^ 20), seqn := BitVec.ofNat 20 b }
/-- Header rules R49 and R50 that the destination checks; broken, the message is MALFORMED. The field of ILEN holds a resume's status. -/
def Msg.malformed (m : Msg) : Bool :=
  (m.kind == .spawn && decide (m.addr.toNat < 0x400)) || (m.kind == .builtin && decide (0x3FC < m.addr.toNat)) ||
    decide (16 < m.plen.toNat) || (m.pay != (m.plen != 0)) || (m.kind != .spawn && m.inl) ||
    (m.kind != .resume && (decide (16 < m.ilen.toNat) || m.inl != (m.ilen != 0)))
/-- Inbox units of a message (spec 01 R34). -/
def Msg.units (m : Msg) : Nat := (m.payload.length + 31) / 32 + (m.code.length * 4 + 31) / 32
/-- It travels the row crossbar (spec 02 R52). -/
def Msg.crossbar (m : Msg) : Bool := decide (64 < m.payload.length + m.code.length * 4)
/-- The message's bytes: header, argument words, payload, inline code. -/
def Msg.body (m : Msg) : List Byte :=
  (m.args.toList.flatMap fun a => leBytes 8 a.val.toNat) ++ m.payload ++ m.code.flatMap fun w => leBytes 4 w.toNat

/-! ### Flush marks of checked regions (spec 12 R331) -/

/-- The writer id of an agent at a home, if it has one; full marks a full remote-writer table. -/
def State.wid (s : State) (home : Nat) (rank : BitVec 24) (ctx : Nat) : Option Nat :=
  if modOf rank = s.modid then some (localOf rank * 16 + min ctx 15)
  else ((s.home home).writers.findIdx? fun w => w == (rank, min ctx 15)).map fun i => 2 ^ 18 + i
/-- Set FLUSHED on the granules a writer wrote in a range of virtual addresses. -/
def State.flushMarks (s : State) (rank : BitVec 24) (ctx lo hi : Nat) : State :=
  { s with grans := s.grans.map fun x =>
      let w := x.2.stamp.toNat % 2 ^ 19
      if !x.2.stamp.getLsbD 19 && x.2.va != 0 && decide (x.2.va < hi ∧ lo < x.2.va + 64) && s.wid (homeOf (x.1 * 64)) rank ctx == some w
      then (x.1, { x.2 with stamp := x.2.stamp ||| 0x80000 }) else x }

/-! ### Streams and injection (spec 17 R427 to R432) -/

/-- The hedge router of a local rank: of an LC its hedge's, of a copy engine its hedge's; other units inject at router 0 of their die. -/
def routerOf (n : Nat) : Nat :=
  let hedge := if n < 768 then n / 8 else if n < 864 then n - 768 else if n < 872 then (n - 864) / 4 * 48 else if n < 876 then n % 2 * 48 else 0
  let d := hedge / 48
  let h := hedge % 48
  8 * (6 * d + h % 6) + h / 6
/-- The stream of a message: its sender, context or unit, and its destination (spec 17 R431). Resumes that a core forwards to a thread form one
stream of that core (spec 02 R70). -/
def streamKey (m : Msg) : Nat :=
  match m.via with
  | some (u, _) => ((m.dest.toNat / 4096 * 4096 + u) * 32 + 17) * 2 ^ 24 + m.dest.toNat
  | none => (m.srank.toNat * 32 + (if localOf m.srank < 768 then m.sctx else 16)) * 2 ^ 24 + m.dest.toNat

/-- The core that holds a thread rank, and whether it moves (spec 01 R40). -/
def State.holder (s : State) (r : BitVec 24) : Option (Nat × Bool) := tget s.fab.ranks (localOf r)
/-- A message that came from another module: an interface of this one took it from the fabric. One that an interface here passes on or returns is its own. -/
def State.foreign (s : State) (m : Msg) : Bool := m.via.isNone && (m.inport.isSome || modOf m.srank != s.modid)
/-- The stream in which a message of this module stands: one to a thread rank ends at the core that holds the rank (spec 17 R431). -/
def State.streamOf (s : State) (m : Msg) : Nat :=
  match (if s.foreign m || decide (localOf m.dest < 1024) || modOf m.dest != s.modid || m.via.isSome then none else s.holder m.dest) with
  | some (core, _) => streamKey { m with dest := s.rankOf core }
  | none => streamKey m

def State.stream (s : State) (k : Nat) : Stream := (tget s.fab.streams k).getD {}
def State.setStream (s : State) (k : Nat) (x : Stream) : State := { s with fab := { s.fab with streams := tset s.fab.streams k x } }

/-- A message of the network. -/
def findMsg : List NetMsg → Nat → Option NetMsg
  | [], _ => none
  | m :: r, n => if m.msg.no = n then some m else findMsg r n
def State.net (s : State) (n : Nat) : Option NetMsg := findMsg s.fab.msgs n
/-- The acting rank behind a message (spec 12 R330). -/
def Msg.actor (m : Msg) : BitVec 24 := if m.arank = 0 then m.srank else m.arank
/-- It was sent by a unit's hardware: by no context, and not by a host queue, which sends for the host's software (spec 17 R449). -/
def Msg.byUnit (m : Msg) : Bool := decide (m.sctx = 16) && !decide (877 ≤ m.srclr.toNat ∧ m.srclr.toNat < 885)
/-- The local rank whose interface injected a message. -/
def Msg.source (m : Msg) : Nat :=
  match m.via with
  | some (u, _) => u
  | none => if !m.hw && decide (localOf m.srank < 885) then localOf m.srank else m.srclr.toNat
/-- Replace a message of the network. -/
def State.setNet (s : State) (m : NetMsg) : State :=
  { s with fab := { s.fab with msgs := s.fab.msgs.map fun x => if x.msg.no = m.msg.no then m else x } }
/-- The counts once a message has left the network: a built-in that was taken in counts as received (spec 15 R391). -/
def State.owedCounts (s : State) (n : Nat) : Table Cnt :=
  match s.net n with
  | some x => if x.msg.owed then (s.onCnt x.msg.part x.msg.scope (localOf x.msg.dest) fun c => { c with recvd := c.recvd + 1 }).counts else s.counts
  | none => s.counts
/-- The message has left the network. -/
def State.delNet (s : State) (n : Nat) : State :=
  { s with counts := s.owedCounts n, fab := { s.fab with msgs := s.fab.msgs.filter fun x => x.msg.no != n } }

/-- The transport between this module and another. -/
def State.peer (s : State) (n : Nat) : Peer := (tget s.fab.peers n).getD {}
def State.setPeer (s : State) (n : Nat) (p : Peer) : State := { s with fab := { s.fab with peers := tset s.fab.peers n p } }

/-! ### Interference budgets (spec 15 R398 to R400) -/

/-- The budget entry in force for a profile, port kind and class: SHARE and BORROW; one not written holds 0, and BORROW for class 7 of a partition
that is set up (spec 15 R399; 18 R457). -/
def Partition.budgetNow (p : Partition) (profile kind cls : Nat) : Nat × Bool := (tget p.inForce (64 * profile + 8 * kind + cls)).getD (0, p.isSet && cls == 6)
/-- The budget profile of a scope's traffic: BUDGET of the launch that owns it, or 0 (spec 15 R399). -/
def State.profile (s : State) (part : Nat) (scope : BitVec 16) : Nat :=
  match (s.launchOf part scope).bind (tget s.launches) with
  | some l => bits (l.record.getD 1 0).toNat 4 3
  | none => 0
/-- What a packet takes of a shared port in one direction: the port's kind (0 torus injection, 1 row crossbar, 2 die-to-die bridge, 3 Bramble, 4
dense job slots), its number and direction, and how much. -/
structure PortUse where
  kind : Nat
  port : Nat
  amount : Nat
  deriving DecidableEq, Repr
/-- Key of a port's counter of a partition, profile and class. -/
def chargeKey (kind port part prof cls : Nat) : Nat := (((kind * 256 + port) * 8 + part) * 8 + prof) * 8 + cls
/-- What a profile of a partition and a class has been charged at a port in this period, and what all of them have. -/
def State.chargedAt (s : State) (kind port part prof cls : Nat) : Nat := (tget s.fab.charged (chargeKey kind port part prof cls)).getD 0
def State.chargedAll (s : State) (kind port : Nat) : Nat :=
  ((s.fab.charged.filter fun x => x.1 / 512 == kind * 256 + port).map fun x => x.2).foldl (· + ·) 0
/-- Capacity of a port per period (spec 15 R398); the bridge's shrinks with its failed lanes (spec 17 R435). -/
def State.portCap (s : State) (kind : Nat) : Nat :=
  match kind with
  | 0 => 1024
  | 1 => 262144
  | 2 => if s.fab.bridgeFailed = 0 then 6553600 else 6553600 * (Config.bridgeLanes - s.fab.bridgeFailed) / Config.bridgeLanes
  | 3 => 81920
  | _ => 1024
/-- Capacity of a port for a class, in 1/1024: class 7's is not scaled by power capping (spec 18 R479). -/
def State.scaledCap (s : State) (kind cls : Nat) : Nat := s.portCap kind * (if cls = 6 then 1024 else s.fab.factor)
/-- A request of a profile is within its quota. -/
def State.withinQuota (s : State) (part prof cls kind port : Nat) : Bool :=
  decide (s.chargedAt kind port part prof cls * 2 ^ 20 < ((s.part part).budgetNow prof kind cls).1 * s.scaledCap kind cls)
/-- A port grants a request: one within its quota, or one with BORROW while the port has capacity left. A request within quota is granted at once, and those
that a boundary releases go first. -/
def State.portGrants (s : State) (part prof cls : Nat) (u : PortUse) : Bool :=
  s.withinQuota part prof cls u.kind u.port ||
    (((s.part part).budgetNow prof u.kind cls).2 && decide (s.chargedAll u.kind u.port * 1024 < s.scaledCap u.kind cls))
/-- Every port of a packet of a profile grants it. Traffic of no partition is not budgeted. -/
def State.usesOpenAs (s : State) (part prof cls : Nat) (us : List PortUse) : Bool :=
  decide (8 ≤ part) || us.all fun u => s.portGrants part prof cls u
/-- Every port of a packet of a scope grants it. -/
def State.usesOpen (s : State) (part : Nat) (scope : BitVec 16) (cls : Nat) (us : List PortUse) : Bool := s.usesOpenAs part (s.profile part scope) cls us
/-- A period boundary lies ahead. -/
def State.periodDue (s : State) : State := if s.timers.any (fun x => x.1 == .budgetPeriod) then s else s.later .budgetPeriod
/-- A packet is charged whole to its profile when it starts; the counters stand until the period ends. -/
def State.chargeAs (s : State) (part prof cls : Nat) (us : List PortUse) : State :=
  if 8 ≤ part ∨ us = [] then s
  else
    let one (t : Table Nat) (u : PortUse) : Table Nat :=
      tset t (chargeKey u.kind u.port part prof cls) ((tget t (chargeKey u.kind u.port part prof cls)).getD 0 + u.amount)
    ({ s with fab := { s.fab with charged := us.foldl one s.fab.charged } } : State).periodDue
/-- A packet of a scope is charged to the profile of the launch that owns it (spec 15 R399). -/
def State.charge (s : State) (part : Nat) (scope : BitVec 16) (cls : Nat) (us : List PortUse) : State := s.chargeAs part (s.profile part scope) cls us
/-- The row crossbar port of a local rank (spec 17 R434): hedges 0 to 95, TDEs from 96, dense complexes from 104; 106 and up are the fabric groups. -/
def unitPort (n : Nat) : Option Nat := if n < 768 then some (n / 8) else if n < 864 then some (n - 768) else if n < 874 then some (n - 768) else none
/-- The die of a crossbar port. -/
def portDie (p : Nat) : Nat := if p < 96 then p / 48 else if p < 104 then (p - 96) / 4 else if p < 106 then p - 104 else (p - 106) / 2
/-- What n bytes take on the crossbar from one port to another: both ports, and the bridge between dies. A move within one port takes nothing. -/
def moveUses (a b : Option Nat) (n : Nat) : List PortUse :=
  if a = b then []
  else
    let one (p : Option Nat) (dir : Nat) : List PortUse := match p with | some p => [⟨1, 2 * p + dir, n⟩] | none => []
    let over_ : List PortUse := match a, b with
      | some a, some b => if portDie a ≠ portDie b then [⟨2, portDie a, n⟩] else []
      | _, _ => []
    one a 0 ++ one b 1 ++ over_
/-- Bytes of crossbar packets that carry n bytes in units of 32 (spec 17 R434). -/
def unitBytes (n : Nat) : Nat := 32 * (1 + (n + 31) / 32)
/-- Flits of n bytes behind a header of 16 (spec 17 R427, R428). -/
def flitCount (n : Nat) : Nat := (16 + n + 23) / 24

/-- KIND of a message's packet: a row request that carries MERGE is an MREQ, and the answer of a home to one an MREP (spec 17 R439). -/
def packetKind (m : Msg) : BitVec 4 :=
  if m.merge && m.kind == .builtin && m.addr == 0x200 then 2
  else if m.merge && m.noord && (m.kind == .resume || (m.kind == .builtin && m.addr == 0x218)) then 3 else 1
/-- It was sent by a unit or by hardware, and not by a context (spec 17 R428, R434, R439). -/
def Msg.unitBit (m : Msg) : Bool := decide (768 ≤ localOf m.srank) || m.hw || m.sctx == 16
/-- The packet that carries a message to another module (spec 17 R439). -/
def packetOf (s : State) (m : Msg) (ord : Nat) (tseq : BitVec 32) : BPacket :=
  { dst := modOf m.dest, kind := packetKind m, src := s.modid, part := BitVec.ofNat 3 m.part, merge := m.merge, tseq := tseq,
    cls := m.cls, poison := !m.poisoned.isEmpty, skip := false, noord := m.noord, zeros := 0, ord := BitVec.ofNat 8 ord,
    srank := m.srank, sctx := BitVec.ofNat 4 m.sctx, unit := m.unitBit, w0 := BitVec.ofNat 64 m.w0,
    w1 := BitVec.ofNat 64 m.w1, body := m.body, tagOk := true }

/-- The 32 bytes of a packet's header (spec 17 R439). -/
def packetHeader (p : BPacket) : List Byte :=
  leBytes 2 (p.dst.toNat + p.kind.toNat * 2 ^ 12) ++ leBytes 2 (p.src.toNat + p.part.toNat * 2 ^ 12 + p.merge.toNat * 2 ^ 15) ++ leBytes 4 p.tseq.toNat ++
    leBytes 2 p.body.length ++ leBytes 1 (p.cls.toNat + p.poison.toNat * 8 + p.skip.toNat * 16 + p.noord.toNat * 32) ++ leBytes 1 p.ord.toNat ++
    leBytes 3 p.srank.toNat ++ leBytes 1 (p.sctx.toNat + p.unit.toNat * 16) ++ leBytes 8 p.w0.toNat ++ leBytes 8 p.w1.toNat
/-- Bytes that are free: what another module holds is no state of this module (log entries 4, 35). -/
def freeBytes (s : State) : Nat → State × List Byte
  | 0 => (s, [])
  | n + 1 =>
    let (w, s) := s.drawFree
    let (s, r) := freeBytes s n
    (s, w.truncate 8 :: r)

/-- A Bramble port. -/
def State.port (s : State) (n : Nat) : Port := (tget s.fab.ports n).getD {}
def State.setPort (s : State) (n : Nat) (p : Port) : State := { s with fab := { s.fab with ports := tset s.fab.ports n p } }
/-- The key under which a switch may merge a row request (spec 13 R350). -/
def mergeKey (p : BPacket) : List Byte :=
  leBytes 3 (p.w0.toNat / 2 ^ 40) ++ leBytes 1 p.part.toNat ++ p.body.take 8 ++ ((p.body.drop 16).take 6) ++ ((p.body.drop 24).take 3) ++
    [((p.body.getD 10 0) >>> 4) &&& 1]
/-- The depth of a port toward a destination, with its own queue, in units of 512 bytes; old marks a BREL older than 4 µs (spec 17 R441). -/
def Port.depth (p : Port) (dst : BitVec 12) (old : Bool) : Nat :=
  (if old then 255 else (p.brel.getD (dst.toNat / 64) 255).toNat) + (p.replay.length + (p.pend.length + 119) / 120) / 4
/-- The port with the least depth, the lowest of equal ones. -/
def leastPort (s : State) (dst : BitVec 12) (ages : Word) : List Nat → Option Nat
  | [] => none
  | i :: r => match leastPort s dst ages r with
    | none => some i
    | some j => if (s.port j).depth dst (ages.getLsbD j) < (s.port i).depth dst (ages.getLsbD i) then some j else some i
/-- The first-hop port of a packet (spec 17 R441). The bytes of a merge key under the CRC, and the age of a BREL, are free (log entries 4, 47). -/
def State.firstHop (s : State) (p : BPacket) : State × Option Nat :=
  let ups := (List.range 8).filter fun i => (s.port i).st == .up
  if p.kind = 2 then (s, ups[(crc32 (Config.signature 7 (mergeKey p))).toNat % ups.length]?)
  else
    let (w, s) := s.drawFree
    (s, leastPort s p.dst w ups)
/-- Credits that a port returns with its next flit, in units of 8 flits (spec 17 R436). -/
def Port.back (p : Port) : Nat := min 15 (p.freed / 8)
/-- A link flit of a port (spec 17 R436); ACKSEQ names the last flit taken in order. A stream that does not fill its flit is followed by zeros. -/
def Port.flit (p : Port) (seq : BitVec 12) (ftype : Nat) (stream : List Byte) : List Byte :=
  let b := leBytes 2 (seq.toNat + ftype * 2 ^ 12) ++ leBytes 2 ((p.expect - 1).toNat + p.back * 2 ^ 12) ++ (stream.take 120) ++ List.replicate (120 - stream.length) 0
  b ++ leBytes 4 (crc32 b).toNat
/-- A flit leaves a port. -/
def State.linkSend (s : State) (port : Nat) (f : List Byte) : State := { s with fab := { s.fab with linkOut := s.fab.linkOut ++ [(port, f)] } }
/-- A flit that the port forms leaves it, with the credits it returns. -/
def State.linkForm (s : State) (port : Nat) (seq : BitVec 12) (ftype : Nat) (stream : List Byte) : State :=
  let p := s.port port
  (s.setPort port { p with freed := p.freed - 8 * p.back }).linkSend port (p.flit seq ftype stream)
/-- The packet stream leaves in data flits, back to back, as far as the replay buffer of 512 has room; n bounds the flits (spec 17 R436, R437). -/
def pumpFlits (port : Nat) : Nat → State → State
  | 0, s => s
  | n + 1, s =>
    let p := s.port port
    if p.pend = [] ∨ 512 ≤ p.replay.length then s
    else
      let f := p.flit p.fseq 1 p.pend
      pumpFlits port n ((s.setPort port { p with fseq := p.fseq + 1, freed := p.freed - 8 * p.back, pend := p.pend.drop 120, replay := p.replay ++ [f] }).linkSend port f)
def State.portPump (s : State) (port : Nat) : State :=
  if (s.port port).st = .up then pumpFlits port 512 s else s
/-- What the ends of a port hold in common for a session: 0 the key of what this end sends, 1 of what it takes; derived from the secret of their exchange (spec 17
R438; log entry 134). -/
def portKey (port session dir : Nat) : List Byte :=
  hkdf (Config.portSecret port session 2) (Config.portSecret port session 0) (Config.portSecret port session (3 + dir))
/-- The IV of a packet: the salt of its session and its number in it. -/
def packetIv (salt : BitVec 32) (counter : Word) : List Byte := leBytes 4 salt.toNat ++ leBytes 8 counter.toNat
/-- A packet on the link: header bytes 0 to 15 in clear, the rest encrypted with the tag behind it (spec 17 R438). -/
def Port.sealPacket (p : Port) (i : Nat) (pk : BPacket) : List Byte :=
  let h := packetHeader pk
  h.take 16 ++ gcmSeal (portKey i p.sessions 0) (packetIv p.salt p.counter) (h.take 16) (h.drop 16 ++ pk.body)
/-- A packet leaves by a port (spec 17 R436, R438). -/
def State.sendOn (s : State) (i : Nat) (pk : BPacket) : State :=
  let p := s.port i
  let s := { s with fab := { s.fab with outbox := s.fab.outbox ++ [pk] } }
  let s := (s.setPort i { p with pend := p.pend ++ p.sealPacket i pk, counter := p.counter + 1 }).portPump i
  if p.counter.toNat + 2 = 2 ^ 63 then s.due .sessionCounterLimit i else s
/-- What a packet takes on its way out by a port: the crossbar to its fabric group, and the port itself for header, body and tag. -/
def packetUses (i : Nat) (pk : BPacket) : List PortUse :=
  let src := if localOf pk.srank < 885 then localOf pk.srank else bits pk.w1.toNat 20 12
  moveUses (unitPort src) (some (106 + i / 2)) (unitBytes pk.body.length) ++ [⟨3, 2 * i, pk.body.length + 48⟩]
/-- A packet goes to its first-hop port, or waits for its capacity; control packets are of no partition. With no port UP it stays in the transport
buffer alone. -/
def State.portSend (s : State) (pk : BPacket) : State :=
  let (s, hop) := s.firstHop pk
  match hop with
  | none => s
  | some i =>
    if 4 ≤ pk.kind.toNat then s.sendOn i pk
    else if s.usesOpen pk.part.toNat (pk.w1.extractLsb' 48 16) pk.cls.toNat (packetUses i pk) then
      (s.charge pk.part.toNat (pk.w1.extractLsb' 48 16) pk.cls.toNat (packetUses i pk)).sendOn i pk
    else if s.fab.portQ.contains pk then s
    else { s with fab := { s.fab with portQ := s.fab.portQ ++ [pk] } }

/-- The local rank at which a message of this module arrives: a thread rank's holder's. -/
def State.place (s : State) (m : Msg) : Nat :=
  match m.via with
  | some (_, core) => core
  | none => if 1024 ≤ localOf m.dest then ((s.holder m.dest).map fun x => x.1).getD 4095 else localOf m.dest
/-- What a message takes of the shared ports of this module (spec 15 R398): one to another module takes them as a packet, and one that came by a Bramble port
takes that port inbound and the crossbar from its port group. -/
def State.msgUses (s : State) (m : Msg) : List PortUse :=
  let n := unitBytes m.body.length
  if modOf m.dest ≠ s.modid then []
  else if s.foreign m then match m.inport with
    | some i => ⟨3, 2 * i + 1, m.body.length + 48⟩ :: moveUses (some (106 + i / 2)) (unitPort (s.place m)) n
    | none => moveUses none (unitPort (s.place m)) n
  else if m.crossbar then moveUses (unitPort m.source) (unitPort (s.place m)) n
  else [⟨0, routerOf m.source, flitCount m.body.length⟩]
/-- The ports on the way of a message grant it; or each grants it within its quota. -/
def State.msgOpen (s : State) (m : Msg) : Bool := s.usesOpen m.part m.scope m.cls.toNat (s.msgUses m)
def State.msgWithin (s : State) (m : Msg) : Bool :=
  decide (8 ≤ m.part) || (s.msgUses m).all fun u => s.withinQuota m.part (s.profile m.part m.scope) m.cls.toNat u.kind u.port

/-! ### Flits (spec 17 R428) -/

/-- The bytes of a message as its flits carry them. -/
def Msg.wire (m : Msg) : List Byte := leBytes 8 m.w0 ++ leBytes 8 m.w1 ++ m.body
/-- A poisoned payload unit lies among bytes lo to hi of a message. -/
def Msg.poisonedIn (m : Msg) (lo hi : Nat) : Bool := m.poisoned.any fun i => decide (48 + 32 * i < hi ∧ lo < 48 + 32 * i + 32)
/-- The fields of a sideband that all flits of a message share: from a local rank, under a tag. -/
def Msg.flit (m : Msg) (from_ tag : Nat) : Flit :=
  { msg := m.no, idx := 0, last := true, dest := 0, at_ := routerOf from_, port := 4, ord := 0, stream := 0, src := routerOf from_, slot := from_ % 8, mtag := tag,
    cls := m.cls, part := BitVec.ofNat 3 m.part }
/-- The data flits of a message (spec 17 R428). -/
def NetMsg.flitsOf (nm : NetMsg) (at_ : Nat) : List Flit :=
  let m := nm.msg
  (List.range nm.flits).map fun i =>
    let bs := (m.wire.drop (24 * i)).take 24
    { m.flit m.source nm.mtag with
      idx := i, last := i + 1 == nm.flits, dest := routerOf at_, ord := nm.ord, stream := nm.stream, ctx := if m.unitBit then 0 else m.sctx
      poison := m.poisonedIn (24 * i) (24 * i + 24), unit := m.unitBit, noord := m.noord, data := bs ++ List.replicate (24 - bs.length) 0 }
/-- The sideband of a flit. -/
def Flit.sideband (f : Flit) : Word :=
  let k := match f.kind with | .data => 0 | .ack => 1 | .nack => 2 | .skip => 3
  BitVec.ofNat 64 (f.age % 256 * 2 ^ 56 + f.dest / 8 * 2 ^ 52 + f.dest % 8 * 2 ^ 49 + f.src / 8 * 2 ^ 45 + f.src % 8 * 2 ^ 42 + f.slot % 8 * 2 ^ 39 + f.ctx % 16 * 2 ^ 35 +
    k * 2 ^ 33 + f.mtag % 1024 * 2 ^ 23 + f.idx % 8 * 2 ^ 20 + f.last.toNat * 2 ^ 19 + f.poison.toNat * 2 ^ 18 + f.cls.toNat * 2 ^ 15 + f.part.toNat * 2 ^ 12 +
    f.ord % 256 * 2 ^ 4 + f.unit.toNat * 8 + f.noord.toNat * 4)
/-- A flit stands at an interface, to be injected there. -/
def State.offer (s : State) (fl : List Flit) (router : Nat) : State := { s with fab := { s.fab with flits := s.fab.flits ++ fl } }.due .flitArrival router
/-- The reassembly tag a message takes at its source's router: the lowest that no message from there on its way has (log entry 135). -/
def State.freshTag (s : State) (router no : Nat) : Nat :=
  let used := (s.fab.msgs.filter fun x => x.ph == .flying && x.msg.no != no && routerOf x.msg.source == router).map fun x => x.mtag
  ((List.range 1024).find? fun t => !used.contains t).getD 0
/-- The answer to a message that was handled, ACK, or refused, NACK, goes back to its source: a flit with the tag and the number of the message; to an interface that
took the message from another module it goes at once (spec 17 R428, R432). c is 1 for a message outside the order of a stream. -/
def State.answerFlit (s : State) (nm : NetMsg) (ok : Bool) : State :=
  let m := nm.msg
  let k := nm.stream
  if s.foreign m then (if ok then s.due .ackFlitArrival m.no k m.noord.toNat else s.due .nackFlitArrival m.no)
  else
    let from_ := s.place m
    s.offer [{ m.flit from_ 0 with kind := if ok then .ack else .nack, dest := routerOf m.source, ord := nm.ord, stream := k, unit := true, noord := m.noord,
                                   data := leBytes 2 nm.mtag ++ leBytes 1 nm.ord ++ List.replicate 21 0 }] (routerOf from_)
/-- The header unit of a crossbar packet (spec 17 R434). -/
def NetMsg.header (nm : NetMsg) : List Byte :=
  let m := nm.msg
  leBytes 8 m.w0 ++ leBytes 8 m.w1 ++ leBytes 3 m.srank.toNat ++ leBytes 1 (m.cls.toNat + m.part % 8 * 8 + m.unitBit.toNat * 64 + m.noord.toNat * 128) ++ leBytes 1 nm.ord ++
    leBytes 1 (if m.unitBit then 0 else m.sctx % 16) ++ leBytes 2 ((m.poisoned.map fun i => 2 ^ (i + 1)).foldl Nat.lor 0) ++ List.replicate 8 0
/-- The message goes out under the ORD it has: as flits on the torus, as a packet on the crossbar, or as a Bramble packet under the next TSEQ of
its pair (spec 02 R52; 17 R431, R440). The ports it takes are charged. -/
def State.transport (s : State) (nm : NetMsg) : State :=
  let m := nm.msg
  let n := flitCount m.body.length
  let at_ := s.place m
  let nm := { nm with ph := .flying, flits := n, got := 0, crossbar := m.crossbar, mtag := s.freshTag (routerOf m.source) m.no }
  let nm := { nm with hdr := if m.crossbar then nm.header else [] }
  let s := (s.charge m.part m.scope m.cls.toNat (s.msgUses m)).setNet nm
  if modOf m.dest ≠ s.modid then
    let q := modOf m.dest
    let p := s.peer q.toNat
    let pk := packetOf s m nm.ord p.next
    -- the reply to a merged request takes no TSEQ (spec 17 R440, R442)
    if pk.kind = 3 then ((s.portSend { pk with tseq := 0 }).received m.source m).delNet m.no
    else
    let s := s.setPeer q.toNat { p with next := p.next + 1, buf := p.buf ++ [{ tseq := p.next.toNat, pkt := pk, no := m.no, stream := if m.noord then none else some nm.stream }] }
    let s := (s.portSend pk).later .packetAbandon q.toNat p.next.toNat
    if p.buf.isEmpty then s.later .transportResend q.toNat else s
  else if nm.crossbar || s.foreign m then s.due .messageArrival m.no
  else s.offer (nm.flitsOf at_) (routerOf m.source)
/-- The message leaves its interface: it takes its ORD and goes out. A release-ordered message or a moving thread marks the granules its sender
wrote as flushed (spec 12 R331). -/
def State.leave (s : State) (nm : NetMsg) : State :=
  let m := nm.msg
  let s := if m.relord || m.kind == .context then s.flushMarks m.arank m.sctx 0 (2 ^ 48) else s
  let k := s.streamOf m
  let st := s.stream k
  let ord := st.next
  let s := if m.noord then s else s.setStream k { st with next := (ord + 1) % 256, unacked := st.unacked + 1 }
  s.transport { nm with stream := k, ord := ord }

/-- The stream in which a message of the network stands: the one it left in, or would leave in. -/
def State.inStream (s : State) (nm : NetMsg) (k : Nat) : Bool :=
  !nm.msg.noord && (if nm.ph = .atSender then s.streamOf nm.msg else nm.stream) == k
/-- Messages of a stream that wait at their sender leave in order, while none waits for stores (spec 08 R219) or for capacity (spec 15 R400), none is
under retry (spec 16 R421) and fewer than 128 are not acknowledged (spec 17 R431). ok says which may leave. -/
def pumpList (ok : State → Msg → Bool) (s : State) : List NetMsg → State
  | [] => s
  | nm :: r =>
    if nm.ph = .retry then s
    else if nm.ph ≠ .atSender then pumpList ok s r
    else if nm.msg.waits ≠ [] ∨ 128 ≤ (s.stream (s.streamOf nm.msg)).unacked then s
    else if ok s nm.msg = false then s
    else pumpList ok (s.leave nm) r
def State.pumpIf (s : State) (ok : State → Msg → Bool) (k : Nat) : State := pumpList ok s (s.fab.msgs.filter fun x => s.inStream x k)
def State.pump (s : State) (k : Nat) : State := s.pumpIf State.msgOpen k
/-- A message outside the order of a stream leaves, or waits at its sender for capacity. -/
def State.leaveFree (s : State) (nm : NetMsg) : State := if s.msgOpen nm.msg then s.leave nm else s
/-- A message at its sender tries again, with those of its stream. -/
def State.tryHeld (s : State) (ok : State → Msg → Bool) (x : NetMsg) : State :=
  match s.net x.msg.no with
  | none => s
  | some x => if x.ph ≠ .atSender then s else if x.msg.noord then (if ok s x.msg then s.leave x else s) else s.pumpIf ok (s.streamOf x.msg)
/-- Messages of one partition and class take turns: the first of each, then the second of each, and on (spec 15 R400). -/
def turns (l : List NetMsg) : List NetMsg :=
  let key (x : NetMsg) : Nat := x.msg.part * 8 + x.msg.cls.toNat
  let groups := (List.range 72).map fun k => l.filter fun x => key x == k
  (List.range l.length).flatMap fun i => groups.filterMap fun g => g[i]?
/-- Messages that wait at their senders try again: class 7 within quota, then what else is within quota in turns, then the rest (spec 15 R400). -/
def State.sendHeld (s : State) : State :=
  let held := s.fab.msgs.filter fun x => x.ph == .atSender
  let seven (x : NetMsg) : Bool := x.msg.cls == 6
  let s := (held.filter seven).foldl (fun s x => s.tryHeld (fun s m => m.cls == 6 && s.msgWithin m) x) s
  let s := (turns (held.filter fun x => !seven x)).foldl (fun s x => s.tryHeld State.msgWithin x) s
  held.foldl (fun s x => s.tryHeld State.msgOpen x) s

/-- A message goes to the network interface of local rank u: it counts as sent when addressed to an LC or thread rank (spec 15 R391). -/
def State.post (s : State) (u : Nat) (m : Msg) : State :=
  let m := { m with no := s.fab.nextMsg, owed := false }
  let s := if countsRank m.dest then s.onCnt m.part m.scope u fun c => { c with sent := c.sent + 1 } else s
  let nm : NetMsg := { msg := m }
  let s := { s with fab := { s.fab with msgs := s.fab.msgs ++ [nm], nextMsg := s.fab.nextMsg + 1 } }
  if m.noord then s.leaveFree nm else s.pump (s.streamOf m)

/-- The next message counter of a core or unit (spec 02 R51). -/
def State.seq (s : State) (u : Nat) : BitVec 20 × State :=
  if u < 768 then
    let c := s.core u
    (c.seqn, s.setCore u { c with seqn := c.seqn + 1 })
  else
    let n := (tget s.fab.unitSeq u).getD 0
    (BitVec.ofNat 20 n, { s with fab := { s.fab with unitSeq := tset s.fab.unitSeq u (n + 1) } })

/-- A message that the hardware of local rank u forms and sends at once (spec 01 R48 SendNow). -/
def State.sendNow (s : State) (u : Nat) (m : Msg) : State :=
  let (q, s) := s.seq u
  s.post u { m with srank := s.rankOf u, srclr := BitVec.ofNat 12 u, seqn := q, sctx := 16,
                    plen := BitVec.ofNat 8 ((m.payload.length + 31) / 32), pay := !m.payload.isEmpty }

/-- ResumeMsg (spec 01 R48). -/
def resumeMsg (dest : BitVec 24) (tag : BitVec 32) (status : BitVec 8) (prio : BitVec 2) (part : Nat) (scope : BitVec 16)
    (args : Vector GReg 4) : Msg :=
  { dest := dest, kind := .resume, addr := tag, ilen := status, prio := prio, part := part, scope := scope, args := args }
/-- A built-in message. -/
def builtinMsg (dest : BitVec 24) (addr : BitVec 32) (prio : BitVec 2) (part : Nat) (scope : BitVec 16) (args : Vector GReg 4) : Msg :=
  { dest := dest, kind := .builtin, addr := addr, prio := prio, part := part, scope := scope, args := args }

/-- SpawnMsg (spec 01 R48). -/
def spawnMsg (dest : BitVec 24) (handler : BitVec 32) (prio : BitVec 2) (part : Nat) (scope : BitVec 16) (args : Vector GReg 4) : Msg :=
  { dest := dest, kind := .spawn, addr := handler, prio := prio, part := part, scope := scope, args := args }

/-- Status codes of a resume (spec 02 R54). -/
def stOK : BitVec 8 := 0
def stUndeliverable : BitVec 8 := 1
def stCancelled : BitVec 8 := 2
def stFailed : BitVec 8 := 3
def stBroken : BitVec 8 := 4
def stPruned : BitVec 8 := 5
def stLinkerr : BitVec 8 := 6
def stMalformed : BitVec 8 := 7
def stBadop : BitVec 8 := 8

/-- A message goes back to its sender (spec 02 R55): a spawn as a resume, a context message whole; a built-in or resume is dropped and
counted. u is the interface that returns it. Argument words 0 and 1 of a returned spawn come back untagged: R10 and R55 say nothing of their
tags (log entry 112, DESIGN CHOICE). The resume's SEQN is the next of the interface that returns the spawn, though its SRCLR is the spawn's destination
(log entry 140, DESIGN CHOICE). -/
def State.returnMsg (s : State) (u : Nat) (m : Msg) (status : BitVec 8) : State :=
  match m.kind with
  | .builtin | .resume => s.dropMsg u m
  | .spawn =>
    let s := (s.unbind m).received u m
    let (q, s) := s.seq u
    s.post u { resumeMsg m.srank m.rtag status m.prio m.part m.scope
        (arg4 (BitVec.ofNat 64 m.w0) (BitVec.ofNat 64 m.w1) (m.arg 0) (m.arg 1)) with
      srank := m.dest, srclr := m.dest.extractLsb' 0 12, seqn := q, sctx := 16, noord := true }
  | .context =>
    let s := s.received u m
    s.post u { m with dest := m.srank, tries := 0, via := some (u, localOf m.srank), inport := none }

/-- A message under way that carries order leaves a gap: a SKIP for its ORD goes to the receiver, as a flit of the torus (spec 17 R428, R432). -/
def State.skipOrd (s : State) (nm : NetMsg) : State :=
  let m := nm.msg
  if m.noord || nm.ph == .atSender then s
  else if s.foreign m || modOf m.dest != s.modid then s.due .skipFlitArrival nm.stream nm.ord
  else s.offer [{ m.flit m.source 0 with kind := .skip, dest := routerOf (s.place m), ord := nm.ord, stream := nm.stream, ctx := if m.unitBit then 0 else m.sctx,
                                         unit := m.unitBit, data := leBytes 1 nm.ord ++ List.replicate 23 0 }] (routerOf m.source)

end Sys2Proof.Machine
end

