-- ==== Sys2Proof/Machine/Logs.lean ====
section
/-! DEFINITION. MSI-X vectors, module events and the log rings of a partition (spec 17 R445, R451; 18 R455, R465). -/

namespace Sys2Proof.Machine

/-- A function of the host link. -/
def State.vf (s : State) (n : Nat) : Vf := (tget s.vfs n).getD {}
def State.setVf (s : State) (n : Nat) (v : Vf) : State := { s with vfs := tset s.vfs n v }

/-- A vector is masked: bit 96 of its table entry, and until it is written (log entry 1). -/
def Vf.masked (f : Vf) (v : Nat) : Bool := match tget f.msixTab v with | some e => bits e 96 1 == 1 | none => true
/-- Raise a vector of a function: a masked one sets its pending bit (spec 17 R451). -/
def State.raiseVec (s : State) (fn v : Nat) : State :=
  let f := s.vf fn
  if f.masked v then s.setVf fn { f with pending := f.pending ||| (1#64 <<< v) }
  else { s with fab := { s.fab with msix := s.fab.msix ++ [(fn, v)] } }
/-- The function of a partition. -/
def vfOf (part : Nat) : Nat := part + 1

/-- A bit of MEVENT is set; one that becomes 1 raises vector 3 of the physical function. -/
def State.setMevent (s : State) (b : Nat) : State :=
  if s.smc.mevent.getLsbD b then s
  else ({ s with smc := { s.smc with mevent := s.smc.mevent ||| (1#64 <<< b) } } : State).raiseVec 0 3

/-- Where the SMC log area of a partition begins: on its first pseudo-channel (spec 12 R318; 17 R445). -/
def State.logArea (s : State) (part : Nat) : Nat := ((partCores (s.part part)).headD 0) * 2 ^ 30 + 0x2FB80000
/-- Places of the rings in the area (log entry 24): lost writes, poison, errors, custody records. -/
def ringLost : Nat := 0
def ringPoison : Nat := 0x20000
def ringError : Nat := 0x40000
def ringCustody : Nat := 0x60000

/-- Write an entry of a ring of 4096 entries of 32 bytes: sequence number and kind, word 1, word 2, and the time, which the model leaves
free (log entry 4). -/
def State.logEntry (s : State) (part ring seq w0 w1 w2 : Nat) : State :=
  let (t, s) := s.drawFree
  let s := s.wrB (s.logArea part + ring + seq % 4096 * 32) (leBytes 8 (seq * 2 ^ 32 + w0) ++ leBytes 8 w1 ++ leBytes 8 w2 ++ leBytes 8 t.toNat)
  (s.raiseVec (vfOf part) 3).setMevent 5
/-- The partition that owns a pseudo-channel; a dense buffer is its job's partition's (spec 18 R464). -/
def State.ownerOf (s : State) (pa : Nat) : Option Nat :=
  if 2 ^ 41 ≤ pa then (((tget s.dss ((pa - 2 ^ 41) / 2 ^ 25)).bind fun d => d.job).bind (tget s.ops)).map fun o => o.part
  else findPart s.parts (homeOf pa / 8)
/-- An error that names a fabric group which a module does not hold is entered in the partition's error log; its KIND is none that the spec lists, and is free (spec
18 R459; log entry 138). -/
def State.unheldKind (s : State) : State × Nat := let (w, s) := s.drawFree; (s, w.toNat % 256)
/-- The physical address a log gives for a place: of a carve-out byte, the one its page-table entry names (spec 12 R320, R327). -/
def logPa (pa : Nat) : Nat := if 2 ^ 40 ≤ pa ∧ pa < 2 ^ 41 then pa % 2 ^ 40 / 2 ^ 20 * 2 ^ 30 + pa % 2 ^ 20 else pa % 2 ^ 40
/-- An entry of the error log (spec 18 R465). -/
def State.logError (s : State) (part kind pa vpage : Nat) : State :=
  let p := s.part part
  (s.logEntry part ringError p.errSeq kind (logPa pa) vpage).setPart part { p with errSeq := p.errSeq + 1 }
/-- Change the SMC's state. -/
def State.onSmc (s : State) (f : Smc → Smc) : State := { s with smc := f s.smc }
/-- A spare is brought in: its kind is counted, the event logged to the partition it serves, and SPARE set (spec 18 R455, R465, R474). -/
def State.sparing (s : State) (key pa : Nat) : State :=
  let s := (s.onSmc fun m => { m with spares := tset m.spares key ((tget m.spares key).getD 0 + 1) }).setMevent 2
  match s.ownerOf pa with
  | some p => s.logError p 0x21 pa 0
  | none => s
/-- What names a group that this module does not hold is dropped and counted in the error log (spec 18 R459). -/
def State.unheldGroup (s : State) (part : Nat) : State := let (s, k) := s.unheldKind; s.logError part k 0 0
/-- A group with another module is held here. -/
def State.groupWith (s : State) (part : Nat) (q : BitVec 12) : Bool := ((tget s.parts part).getD {}).groups.any fun g => g.2.contains q
/-- An entry of the poison log (spec 12 R337). -/
def State.logPoison (s : State) (part kind pa vpage : Nat) : State :=
  let p := s.part part
  (s.logEntry part ringPoison p.poisonSeq kind (logPa pa) vpage).setPart part { p with poisonSeq := p.poisonSeq + 1 }
/-- The virtual page a translation cache holds for an address, or 0. -/
def State.vpageOf (s : State) (pa : Nat) : Nat :=
  let lo (e : XlEntry) : Nat := if e.carve then carvePa (e.frame / 2 ^ 30) (e.frame % 2 ^ 30) else e.frame
  match (s.homes.flatMap fun h => h.2.xl).find? fun e =>
      e.mod == s.modid && decide (lo e ≤ pa) && decide (pa < lo e + (if e.big then 2 ^ 29 else 2 ^ 16)) with
  | some e => e.page + (pa - lo e) / 65536
  | none => 0
/-- A poisoning is logged for the partition that owns the pseudo-channel, as one of a granule or of a line of tile memory (spec 12 R337; 18
R465). -/
def State.notePoison (s : State) (a : Nat) : State :=
  let o := a % 2 ^ 30
  let tile := decide (a < 2 ^ 40) && decide (0x2F800000 ≤ o) && (decide (o < 0x2FA00000) || decide (0x2FFC0000 ≤ o))
  match s.ownerOf a with
  | none => s
  | some p => s.logPoison p (if tile then 0x11 else 0x10) (a / 64 * 64) (if tile then 0 else s.vpageOf a)
/-- The granules an access of n bytes at pa meets. -/
def granules (pa n : Nat) : List Nat := if n = 0 then [] else (List.range ((pa + n - 1) / 64 - pa / 64 + 1)).map (pa / 64 + ·)
/-- Poison marks on the units of a range. -/
def State.markPoison (s : State) (pa n : Nat) : State := { s with poison := (granules pa n).foldl insertNat s.poison }
/-- Poisoned data is written to the units of a range: those that were clean become poisoned, and each is logged once (spec 12 R337). -/
def State.poisonUnits (s : State) (pa n : Nat) : State :=
  let new := (granules pa n).filter fun g => !s.poison.contains g
  if new.isEmpty then s else new.foldl (fun s g => s.notePoison (g * 64)) (s.markPoison pa n)
/-- An entry of the lost-write log: its sequence number and the state (spec 17 R445). -/
def State.logLost (s : State) (part : Nat) (kind ref va len ctx : Nat) (mod : BitVec 12) (rank : BitVec 24) : Nat × State :=
  let p := s.part part
  let s := s.logEntry part ringLost p.lwSeq (ref % 2 ^ 24 * 256 + kind) (min len 0xFFFF * 2 ^ 48 + va % 2 ^ 48)
    (ctx % 16 * 2 ^ 36 + mod.toNat * 2 ^ 24 + rank.toNat)
  let s := s.setPart part { p with lwSeq := p.lwSeq + 1 }
  let f := s.vf (vfOf part)
  (p.lwSeq, s.setVf (vfOf part) { f with loghead := p.lwSeq })

end Sys2Proof.Machine
end

