-- ==== Sys2Proof/Machine/Ops.lean ====
section
/-! DEFINITION. The operations the meanings share: what a word answers, the boundary of a group, the trap frame, taking a trap and returning
from one, releasing sends, killing a context and pruning a scope (spec 01 R19 to R32; 02 R59 to R74; 03 R84 to R89; 08 R222 to R240; 16). -/

namespace Sys2Proof.Machine

/-- Change a context. -/
def State.onCtx (s : State) (core k : Nat) (f : Ctx → Ctx) : State := s.setCtx core k (f (s.ctx core k))
/-- Change a core. -/
def State.onCore (s : State) (core : Nat) (f : Core → Core) : State := s.setCore core (f (s.core core))
/-- Change a home. -/
def State.onHome (s : State) (n : Nat) (f : Home → Home) : State := s.setHome n (f (s.home n))

/-! ### Control registers (spec 01 R18 to R31) -/

/-- SCOPE as one word. -/
def Ctl.scopeW (c : Ctl) : BitVec 32 := c.base ++ c.cur
/-- ISTATE of a context (spec 01 R29). -/
def Ctx.istate (c : Ctx) (k : Nat) : Nat :=
  c.sends.length * 2 ^ 8 + c.ctl.reld.toNat * 2 ^ 6 + c.ctl.inhnd.toNat * 2 ^ 5 + c.ctl.kpend.toNat * 2 ^ 4 + c.ctl.ipend.toNat * 2 ^ 3 +
    (sysMode k).toNat * 2 + c.ctl.ie.toNat
/-- MYRANK of a context (spec 01 R28). -/
def State.myRank (s : State) (core : Nat) : BitVec 24 := s.rankOf core
/-- The acting rank of a context: its thread rank while it holds one (spec 12 R330). -/
def State.actingRank (s : State) (core k : Nat) : BitVec 24 := ((s.ctx core k).trank).getD (s.rankOf core)
/-- The LFSR value an MTS stores (spec 01 R22). -/
def lfsrStore (v : BitVec 32) : BitVec 32 := if v = 0 then 1 else v
/-- Apply one pending MTS: control register k, value v; reserved bits are ignored (spec 00 R4; 05 R149). -/
def applyMts (c : Ctl) (k : Nat) (v : Word) : Ctl :=
  match k with
  | 0 => { c with shape := v.truncate 16 &&& 0x0F1F }
  | 1 => { c with fpctl := v.truncate 16 &&& 0x1F0F }
  | 2 => { c with fpst := v.truncate 8 &&& 0x3F }
  | 3 => { c with lfsr := lfsrStore (v.truncate 32) }
  | 4 => { c with base := v.extractLsb' 16 16, cur := v.truncate 16 }
  | 5 => { c with rtag := v.truncate 32 }
  | 6 => { c with linkwait := v.truncate 32 &&& 0xFFFFF }
  | 8 => { c with cause := v.truncate 32 &&& 0xFFFFF }
  | 9 => { c with tval := v }
  | 10 => { c with tpc := v.truncate 32 }
  | 11 => { c with tmid := v.truncate 32 }
  | 14 => { c with ie := v.getLsbD 0 }
  | 16 => { c with wpaddr := c.wpaddr.set 0 (v.truncate 48) }
  | 17 => { c with wpaddr := c.wpaddr.set 1 (v.truncate 48) }
  | 18 => { c with wpaddr := c.wpaddr.set 2 (v.truncate 48) }
  | 19 => { c with wpaddr := c.wpaddr.set 3 (v.truncate 48) }
  | 20 => { c with wpmask := c.wpmask.set 0 (v &&& 0xC000FFFFFFFFFFFF) }
  | 21 => { c with wpmask := c.wpmask.set 1 (v &&& 0xC000FFFFFFFFFFFF) }
  | 22 => { c with wpmask := c.wpmask.set 2 (v &&& 0xC000FFFFFFFFFFFF) }
  | 23 => { c with wpmask := c.wpmask.set 3 (v &&& 0xC000FFFFFFFFFFFF) }
  | _ => c

/-! ### Result latches (spec 01 R13, R14; 16 R410) -/

/-- One latch at the end of a cycle: it counts down, or writes its register and raises its flags. -/
def latchStep (a : Ctx × List Latch) (l : Latch) : Ctx × List Latch :=
  if l.rem ≤ 1 then
    let c := a.1.setW l.dest l.val
    ({ c with ctl := { c.ctl with fpst := c.ctl.fpst ||| l.flags } }, a.2)
  else (a.1, a.2 ++ [{ l with rem := l.rem - 1 }])
/-- A cycle passes: latches that complete write in issue order, so that the later-issued stands. -/
def Ctx.tick (c : Ctx) : Ctx :=
  let (d, ls) := c.latches.foldl latchStep (c, [])
  { d with latches := ls }
/-- n cycles pass. -/
def Ctx.ticks : Nat → Ctx → Ctx
  | 0, c => c
  | n + 1, c => Ctx.ticks n c.tick
/-- Every latch completes. -/
def Ctx.drain (c : Ctx) : Ctx := Ctx.ticks 16 c

/-! ### Where words stand (spec 02 R63) -/

/-- Code-space address from which inline words are fetched (spec 02 R63). -/
def inlineBase : Nat := 0xFFFFFF00
/-- The word at pc is the last inline word of the message the context holds. -/
def Ctx.lastInline (c : Ctx) (pc : BitVec 32) : Bool :=
  match c.held with
  | some m => decide (inlineBase ≤ pc.toNat) && decide ((pc.toNat - inlineBase) / 4 + 1 = m.code.length)
  | none => false
/-- Where the word after the one at pc stands: past the last inline word at ADDR of the message (spec 02 R63). -/
def Ctx.nextPc (c : Ctx) : BitVec 32 :=
  if c.lastInline c.pc then (match c.held with | some m => m.addr | none => c.pc + 4) else c.pc + 4
/-- Address of the next group of a context: the group at pc when none issues, else the one after the last word of the group that issues, for no transfer
precedes a word that has not retired (spec 01 R26; 16 R409). -/
def Ctx.nextGroup (c : Ctx) : BitVec 32 :=
  if c.grp = [] then c.pc else ({ c with pc := c.pc + BitVec.ofNat 32 (4 * (c.grp.length - 1 - c.slot)) } : Ctx).nextPc

/-! ### The boundary of a group (spec 01 R11, R19; 03 R84 to R88; 09 R244) -/

/-- The base of a tagged handle. -/
def handleBase (v : Word) : BitVec 48 := v.truncate 48
/-- The sweep of R11: registers that hold a tagged handle with one of the bases become zero and untagged. -/
def sweepRegs (g : Vector GReg 16) (bs : List (BitVec 48)) : Vector GReg 16 :=
  g.map fun x => if x.tag && bs.contains (handleBase x.val) then {} else x
/-- Apply the notices that have come. -/
def applyNotices (t : Vector Tok 8) : List (Nat × TokSt) → Vector Tok 8
  | [] => t
  | (op, st) :: r => applyNotices (t.map fun x => if x.st == .pending && x.op == op then { x with st := st } else x) r
/-- Effects that words already performed leave to the boundary: MTS writes in order, then the flags raised, then the sweep. -/
def Ctx.commit (c : Ctx) : Ctx :=
  let ctl := c.pendMts.foldl (fun (a : Ctl) (x : Nat × Word) => applyMts a x.1 x.2) c.ctl
  { c with ctl := { ctl with fpst := ctl.fpst ||| c.pendFl }, pendMts := [], pendFl := 0, g := if c.sweep.isEmpty then c.g else sweepRegs c.g c.sweep,
           sweep := [] }
/-- The boundary after a group. -/
def Ctx.boundary (c : Ctx) : Ctx :=
  let c := Ctx.ticks (c.bubble + 1) c.commit
  { c with pc := c.npc, slot := 0, grp := [], performed := 0, doneMask := 0, fin := false, bubble := 0,
           toks := applyNotices c.toks c.notices, notices := [] }
/-- The word at pc has performed: the next word of the group follows, or the boundary. -/
def Ctx.retire (c : Ctx) : Ctx :=
  let c := { c with fin := false, performed := c.performed ||| (1#4 <<< c.slot) }
  if c.slot + 1 < c.grp.length then
    let d := { c with pc := c.npc, slot := c.slot + 1 }
    if c.slot = 1 then d.tick else d
  else c.boundary
/-- Nothing more of this group has effect and the context leaves it (spec 16 R402). -/
def Ctx.leaveGroup (c : Ctx) : Ctx :=
  { c with slot := 0, grp := [], performed := 0, doneMask := 0, fin := false, bubble := 0, notices := [], toks := applyNotices c.toks c.notices }

/-! ### Which agent moves (log entry 3) -/

/-- The focus would be on an agent that can move. -/
def canMove (s : State) (key : Nat) : Bool :=
  if key < 768 * 17 then
    match tget s.ctxs key with
    | some c => c.st == .ready && (match c.hold with | .none => true | _ => false) && !((s.core (key / 17)).attention && c.ctl.ie && !c.ctl.kpend && decide (key % 17 < 14) && c.slot == 0)
    | none => false
  else match tget s.dss (key - 768 * 17) with
    | some d => d.up && d.jgetWait.isNone && !d.halted
    | none => false
def focusKey : Focus → Nat
  | .lc c k => ckey c k
  | .ds d => 768 * 17 + d
def focusOf (key : Nat) : Focus := if key < 768 * 17 then .lc (key / 17) (key % 17) else .ds (key - 768 * 17)
/-- The agents that can move, ascending. -/
def movers (s : State) : List Nat :=
  (s.ctxs.map (fun (x : Nat × Ctx) => x.1) ++ s.dss.map (fun (x : Nat × Ds) => 768 * 17 + x.1)).filter (canMove s)
/-- One timer comes due. -/
def State.popTimer (s : State) : State :=
  match s.timers with
  | [] => s
  | e :: r => { s with timers := r, agenda := s.agenda ++ [e] }
/-- The focus goes to the next agent that can move; a timer comes due each time round. -/
def State.rotate (s : State) : State :=
  let k := focusKey s.focus
  let m := movers s
  match m.find? fun x => decide (k < x) with
  | some x => { s with focus := focusOf x }
  | none => match m with
    | x :: _ => ({ s with focus := focusOf x }).popTimer
    | [] => s.popTimer

/-! ### What a word answers -/

/-- A word performs, or traps with the state it leaves, or is to be issued again, or waits. -/
inductive Res where
  | ok (s : State)
  | trap (t : Trap) (s : State)
  | again (s : State)
  | wait (s : State)

/-! ### The trap frame (spec 16 R406, R407) -/

/-- Where the base part stands: in the system page. -/
def framePa (core k : Nat) : Nat := tilePa core 8 (0x3F000 + 0xC0 * k)
/-- Where the extension stands: in the save area. -/
def extPa (core k : Nat) : Nat := savePa core + 0x400 * k

def TokSt.code : TokSt → Nat
  | .empty => 0 | .pending => 1 | .done => 2 | .failed => 3 | .cancelled => 4
def tokStOf (n : Nat) : TokSt := match n with | 1 => .pending | 2 => .done | 3 => .failed | 4 => .cancelled | _ => .empty

/-- Bytes of the base part. -/
def frameBytes (c : Ctx) (k : Nat) (fstate kind done seq : Nat) : List Byte :=
  (c.g.toList.flatMap fun x => leBytes 8 x.val.toNat) ++
  leBytes 2 ((c.g.toList.zipIdx.map fun x => x.1.tag.toNat * 2 ^ x.2).foldl (· + ·) 0) ++ leBytes 2 c.preds.toNat ++
  leBytes 4 c.ctl.cause.toNat ++ leBytes 8 c.ctl.tval.toNat ++ leBytes 4 c.ctl.tpc.toNat ++ leBytes 4 c.ctl.tmid.toNat ++
  leBytes 4 c.ctl.scopeW.toNat ++ leBytes 4 c.ctl.rtag.toNat ++ leBytes 4 (c.istate k) ++
  leBytes 1 fstate ++ leBytes 1 kind ++ leBytes 1 c.latches.length ++ leBytes 1 c.ctl.fpst.toNat ++
  leBytes 8 (leNat ((c.latches.map fun l => BitVec.ofNat 8 (128 + l.dest.toNat * 16 + l.rem)))) ++
  leBytes 4 c.recv.filt.toNat ++ leBytes 4 c.recv.mask.toNat ++ leBytes 4 seq ++ leBytes 1 c.recv.rd.toNat ++ leBytes 1 done ++ leBytes 2 0
/-- Bytes of the extension (spec 16 R407). Which slot a held message has is free (log entry 16). -/
def extBytes (c : Ctx) : List Byte :=
  (c.w.toList.flatMap fun x => leBytes 32 x.toNat) ++
  ((List.range 8).flatMap fun i => leBytes 32 ((c.latches[i]?.map fun l => l.val.toNat).getD 0)) ++
  ((c.toks.toList.drop 1).flatMap fun t => leBytes 8 (t.st.code + 8 * t.op)) ++ leBytes 8 0 ++
  leBytes 2 c.ctl.shape.toNat ++ leBytes 2 c.ctl.fpctl.toNat ++ leBytes 4 c.ctl.lfsr.toNat ++ leBytes 4 c.ctl.linkwait.toNat ++ leBytes 4 0 ++
  (c.ctl.wpaddr.toList.flatMap fun x => leBytes 8 x.toNat) ++ (c.ctl.wpmask.toList.flatMap fun x => leBytes 8 x.toNat) ++
  leBytes 8 (match c.held with | some m => 128 + (Config.mailSlot m.came).toNat | none => 0)
/-- The flags of every live result latch are ORed into FPST (spec 04 R122; 16 R410). -/
def Ctx.foldFlags (c : Ctx) : Ctx := { c with ctl := { c.ctl with fpst := c.latches.foldl (fun f l => f ||| l.flags) c.ctl.fpst } }
/-- Write the frame of a context whole; SEQ rises by one. -/
def State.writeFrame (s : State) (core k fstate kind done : Nat) : State :=
  let c := (s.ctx core k).foldFlags
  let s := s.setCtx core k c
  let seq := (s.rd (framePa core k + 0xB8) 4 + 1) % 2 ^ 32
  ((s.wrB (framePa core k) (frameBytes c k fstate kind done seq)).wrB (extPa core k) (extBytes c)).wrB (extPa core k + 0x298) (List.replicate 360 0)
/-- A byte field of a frame's base part. -/
def State.frame (s : State) (core k off n : Nat) : Nat := s.rd (framePa core k + off) n

/-- Registers, predicates, control registers, tokens and latches of a context as its frame and extension hold them; reserved bits of a control
register are ignored, and so is an edit of a latch descriptor: a latch keeps its destination and cycles, and its value comes from the extension
(spec 00 R4; 09 R265; 16 R410, R413). -/
def State.restoreRegs (s : State) (core k : Nat) : State :=
  let b := framePa core k
  let e := extPa core k
  let c := s.ctx core k
  let tags := s.rd (b + 0x80) 2
  let sc := BitVec.ofNat 32 (s.rd (b + 0x98) 4)
  let ist := s.rd (b + 0xA0) 4
  s.setCtx core k { c with
    g := Vector.ofFn fun i => ⟨BitVec.ofNat 64 (s.rd (b + 8 * i.val) 8), tags.testBit i.val⟩
    preds := BitVec.ofNat 16 (s.rd (b + 0x82) 2) ||| 1
    w := Vector.ofFn fun i => BitVec.ofNat 256 (s.rd (e + 32 * i.val) 32)
    latches := c.latches.zipIdx.map fun x => { x.1 with val := BitVec.ofNat 256 (s.rd (e + 0x100 + 32 * x.2) 32) }
    toks := Vector.ofFn fun i => if i.val = 0 then {} else
      let v := s.rd (e + 0x200 + 8 * (i.val - 1)) 8
      { st := tokStOf (v % 8), op := v / 8 }
    recv := { filt := BitVec.ofNat 32 (s.rd (b + 0xB0) 4), mask := BitVec.ofNat 32 (s.rd (b + 0xB4) 4), rd := BitVec.ofNat 4 (s.rd (b + 0xBC) 1) }
    ctl := { c.ctl with
      cause := BitVec.ofNat 32 (s.rd (b + 0x84) 4) &&& 0xFFFFF, tval := BitVec.ofNat 64 (s.rd (b + 0x88) 8), tpc := BitVec.ofNat 32 (s.rd (b + 0x90) 4)
      tmid := BitVec.ofNat 32 (s.rd (b + 0x94) 4), base := sc.extractLsb' 16 16, cur := sc.extractLsb' 0 16
      rtag := BitVec.ofNat 32 (s.rd (b + 0x9C) 4), fpst := BitVec.ofNat 8 (s.rd (b + 0xA7) 1) &&& 0x3F, ie := ist.testBit 0, reld := ist.testBit 6
      inhnd := ist.testBit 5
      shape := BitVec.ofNat 16 (s.rd (e + 0x240) 2) &&& 0x0F1F, fpctl := BitVec.ofNat 16 (s.rd (e + 0x242) 2) &&& 0x1F0F
      lfsr := lfsrStore (BitVec.ofNat 32 (s.rd (e + 0x244) 4)), linkwait := BitVec.ofNat 32 (s.rd (e + 0x248) 4) &&& 0xFFFFF
      wpaddr := Vector.ofFn fun i => BitVec.ofNat 48 (s.rd (e + 0x250 + 8 * i.val) 8)
      wpmask := Vector.ofFn fun i => BitVec.ofNat 64 (s.rd (e + 0x270 + 8 * i.val) 8) &&& 0xC000FFFFFFFFFFFF } }

/-! ### Messages a context holds, sends, commands (spec 02 R62, R65; 08 R222) -/

/-- The message a context holds is freed (spec 01 R34; 02 R62). -/
def Ctx.freeHeld (c : Ctx) : Ctx := { c with held := none }
/-- The event by which an engine takes a command (spec 09 R249). -/
def Engine.accept : Engine → Instr
  | .copy | .copys => .copyCommandAccept
  | .walk => .walkCommandAccept
  | .dispatch | .combine => .tdeCommandAccept
  | .djob | .prune => .djobAccept
/-- One of the stores a message waits for has been entered as lost (spec 17 R445). -/
def State.anyLost (s : State) (waits : List Nat) : Bool := waits.any fun n => match s.req n with | some r => r.lostSeq != 0 | none => false
/-- A message that waits at its interface u for a store whose link stays down ends LINKERR: a spawn or context message is returned, another one
dropped and counted, and its stream sends on (spec 08 R219; 11 R314). -/
def State.linkErr (s : State) (u : Nat) (m : Msg) : State :=
  let s := s.delNet m.no
  let s := match m.kind with
    | .spawn | .context => s.returnMsg u m stLinkerr
    | .builtin | .resume => s.dropMsg u m
  s.pump (s.streamOf m)
/-- The buffered sends and commands of a context go to its interface in program order (spec 02 R65; 09 R247). -/
def releaseList (s : State) (core : Nat) : List Buffered → State
  | [] => s
  | .msg m :: r =>
    let m := { m with no := s.fab.nextMsg, waits := m.waits.filter fun n => (s.req n).isSome }
    let t := s.post core m
    releaseList (if s.anyLost m.waits then t.linkErr core m else t) core r
  | .cmd c :: r =>
    match s.op c.op with
    | none => releaseList s core r
    | some o =>
      let s := s.setOp c.op { o with ph := .sent }
      let s := s.onCnt o.part o.scope core fun x => { x with ops := x.ops + 1 }
      releaseList (s.due o.engine.accept c.op) core r
/-- A message in the network of a context of this module's core. -/
def State.sentBy (s : State) (core : Nat) (x : NetMsg) : Bool := x.ph != .done && x.msg.srank == s.rankOf core && x.msg.sctx != 16
/-- Retry entries in use in the hedge of a core (spec 16 R421). -/
def State.retryUsed (s : State) (core : Nat) : Nat :=
  (s.fab.msgs.filter fun x => (List.range 8).any fun i => s.sentBy (core / 8 * 8 + i) x).length
/-- The release would find the retry entries it needs. -/
def State.canRelease (s : State) (core k : Nat) : Bool := decide (s.retryUsed core + (s.ctx core k).sends.length ≤ 256)
/-- REL: hand every buffered send to the interface and set RELD. -/
def State.release (s : State) (core k : Nat) : State :=
  let c := s.ctx core k
  let s := releaseList s core c.sends
  s.onCtx core k fun c => { c with sends := [], ctl := { c.ctl with reld := true } }
/-- A message in the form in which the hardware keeps it in memory: its record, payload and inline code; latest marks the one that arrived last (spec
16 R408, R419). -/
def spillBytes (m : Msg) (holder : Option Nat) (latest : Bool := false) : List Byte :=
  let tags := (m.args.toList.zipIdx.map fun x => x.1.tag.toNat * 2 ^ x.2).foldl (· + ·) 0
  let f := m.prio.toNat + m.heldBack.toNat * 4 + tags * 8 + latest.toNat * 2 ^ 10 + (match holder with | some k => 2 ^ 12 + k * 2 ^ 13 | none => 0)
  let code := m.code.flatMap fun w => leBytes 4 w.toNat
  leBytes 8 m.w0 ++ leBytes 8 m.w1 ++ (m.args.toList.flatMap fun a => leBytes 8 a.val.toNat) ++ leBytes 16 f ++ m.payload ++ code ++
    List.replicate ((32 - code.length % 32) % 32) 0
/-- The record of a buffered send or command; a command's block stands in place of the payload (spec 16 R408). -/
def State.stageBytes (s : State) : Buffered → List Byte
  | .msg m => spillBytes m none
  | .cmd c => List.replicate 48 0 ++ leBytes 16 (2 ^ 11) ++ ((s.op c.op).map fun o => o.block).getD []
/-- Where the send-buffer staging of a context stands in the save area (spec 16 R408). -/
def stagePa (core k : Nat) : Nat := savePa core + 0x5000 + 0x5000 * k
/-- Bytes of the staging of a context. -/
def stageLen : Nat := 0x5000
/-- The newest entry of a send buffer is recorded behind the others in the staging of its context (spec 08 R218; 16 R408). -/
def State.stage (s : State) (core k : Nat) : State :=
  let l := (s.ctx core k).sends
  match l.getLast? with
  | none => s
  | some b =>
    let at_ := ((l.dropLast.map fun x => (s.stageBytes x).length)).foldl (· + ·) 0
    if 14 ≤ k then s else s.wrB (stagePa core k + at_) ((s.stageBytes b).take (stageLen - at_))
/-- Unreleased sends are discarded; a discarded command never reaches its engine and never ends (spec 09 R247). -/
def State.discardSends (s : State) (core k : Nat) : State :=
  let c := s.ctx core k
  let gone := c.sends.filterMap fun b => match b with | .cmd x => some x.op | .msg _ => none
  { s with ops := s.ops.filter fun x => !gone.contains x.1 }.onCtx core k fun c => { c with sends := [] }

/-- A thread rank is released: every interface's entry is removed (spec 02 R68). -/
def State.releaseRank (s : State) (core k : Nat) : State :=
  match (s.ctx core k).trank with
  | none => s
  | some r =>
    { s with fab := { s.fab with ranks := tdel s.fab.ranks (localOf r) } }.onCtx core k fun c => { c with trank := none }

/-- The context becomes FREE, holding no work; a context that waits to start finds it. -/
def State.freeCtx (s : State) (core k : Nat) : State :=
  let s := match (s.ctx core k).lock with
    | some no => s.unlockRow no
    | none => s
  let s := (s.releaseRank core k).onCtx core k fun c =>
    { c with st := .free, hold := .none, lock := none, latches := [], sends := [], held := none, slot := 0, grp := [], performed := 0, doneMask := 0, fin := false, resumed := false,
             pendMts := [], pendFl := 0, sweep := [], notices := [], ctl := { c.ctl with kpend := false, ipend := (s.core core).attention } }
  if (s.core core).mailbox.isEmpty then s else s.due .handlerStart core

/-! ### Barriers (spec 08 R229 to R233) -/

/-- The identity of a barrier's operation (spec 08 R229). -/
def barIdentity (op : BitVec 2) : Word := if op = 0 then BitVec.allOnes 64 else 0
/-- Send a resume on lane 2 to a waiter (spec 01 R48 Notify). -/
def State.notify (s : State) (core : Nat) (w : Waiter) (st : BitVec 8) (acc : Word) (gen : Word) : State :=
  s.sendNow core { resumeMsg (s.rankOf core) w.tag st 2 (s.partNo core) w.scope (arg4 acc gen 0 0) with noord := true }
def State.bar (s : State) (core : Nat) (n : Nat) : Barrier := (tget (s.core core).bars n).getD {}
def State.setBar (s : State) (core n : Nat) (b : Barrier) : State := s.onCore core fun c => { c with bars := tset c.bars n b }
/-- A built-in of the barrier machinery to another node, in scope 0. Argument word 2 holds the number of the node's barrier, argument word 1 of a child's arrival
its rank in bits 23:0 and its barrier in bits 29:24, and the lane is 0 (log entry 143, DESIGN CHOICE). -/
def State.barMsg (s : State) (core : Nat) (node : BitVec 24) (bar : BitVec 6) (addr : BitVec 32) (a0 a1 : Word) : State :=
  s.sendNow core (builtinMsg node addr 0 (s.partNo core) 0 (arg4 a0 a1 bar.toNat 0))
/-- Waiters in ascending context order. -/
def insertW : List Waiter → Waiter → List Waiter
  | [], w => [w]
  | x :: r, w => if w.ctx < x.ctx then w :: x :: r else if w.ctx = x.ctx then w :: r else x :: insertW r w
/-- A node becomes BROKEN: notices to its parent and children, then to its waiters (spec 08 R233). -/
def State.breakBar (s : State) (core n : Nat) : State :=
  let b := s.bar core n
  if b.armed && !b.broken then
    let me : Word := BitVec.ofNat 64 ((s.rankOf core).toNat + n * 2 ^ 24)
    let nodes := (match b.link with | some x => [x] | none => []) ++ b.kids
    let s := nodes.foldl (fun s x => s.barMsg core x.1 x.2 0x308 0 me) s
    let s := b.waiters.foldl (fun s w => s.notify core w stBroken b.acc (BitVec.ofNat 64 b.gen.toNat)) s
    s.setBar core n { b with broken := true, waiters := [], kids := [], waitsParent := false }
  else s

/-! ### Prunes (spec 08 R238 to R241; 16 R423) -/

/-- When the notice of a prune reached a unit. -/
def Prune.cameAt (p : Prune) (unit : Nat) : Nat := ((p.noticedAt.find? fun x => x.1 == unit).map fun x => x.2).getD 0
/-- The prune not yet complete whose subtree holds a scope and whose notice reached the unit first (spec 08 R241). -/
def State.pruneAt (s : State) (part : Nat) (scope : BitVec 16) (unit : Nat) : Option Nat :=
  let hit := s.prunes.filter fun x => !x.2.done && x.2.part == part && x.2.noticed.contains unit && s.inScope part x.2.scope scope
  (hit.foldl (fun (a : Option (Nat × Prune)) x => match a with
    | none => some x
    | some y => if x.2.cameAt unit < y.2.cameAt unit then some x else some y) none).map fun x => x.1
/-- Change the tally of a unit in a prune. -/
def State.onTally (s : State) (n unit : Nat) (f : Tally → Tally) : State :=
  match tget s.prunes n with
  | none => s
  | some p => { s with prunes := tset s.prunes n { p with tally := tset p.tally unit (f ((tget p.tally unit).getD {})) } }
/-- Change the tally of the prune that removed work of a scope at a unit. -/
def State.tallyFor (s : State) (part : Nat) (scope : BitVec 16) (unit : Nat) (f : Tally → Tally) : State :=
  match s.pruneAt part scope unit with
  | none => s
  | some n => s.onTally n unit f
/-- A message dropped as dead work at a unit: counted in its scope, and in the prune's acknowledgement; a moving thread counts as a context killed alone
(spec 02 R80). -/
def State.dropDead (s : State) (unit : Nat) (m : Msg) : State :=
  (if m.kind = .context then (s.received unit m).err m.part m.scope unit 0x20 else s.dropMsg unit m).tallyFor m.part m.scope unit fun t =>
    if m.kind == .context then { t with killed := t.killed + 1 } else { t with msgs := t.msgs + 1 }

/-- The unit has no work of the subtree left: an LC acknowledges when every context of the subtree is FREE, the walk has stopped and the
replies to requests of killed contexts that are under way have been dropped (spec 08 R240); every
other unit when it has no started operation of the subtree left (spec 16 R423). -/
def State.sweptAt (s : State) (part : Nat) (scope : BitVec 16) (unit : Nat) : Bool :=
  if unit < 768 then
    (List.range 14).all (fun k =>
      let c := s.ctx unit k
      c.st == .free || !s.inScope part scope c.ctl.cur) &&
    (match (s.core unit).iw.run with
     | none => true
     | some o => match s.op o with | none => true | some x => !s.inScope part scope x.scope) &&
    s.reqs.all fun x => !(x.2.orphan && x.2.core == unit && x.2.part == part && x.2.phase != .parked && s.inScope part scope x.2.scope)
  else s.ops.all fun x =>
    x.2.part != part || x.2.ph != .started || !s.inScope part scope x.2.scope || x.2.engine == .djob || x.2.engine == .prune ||
      (if unit < 864 then x.2.parts.all fun q => q.engine + 768 != unit || q.done else x.2.unit != unit)
/-- The scope unit of the other die acknowledges when the units of its die have (spec 16 R423). -/
def State.diesQuiet (s : State) (p : Prune) (unit : Nat) : Bool :=
  !(decide (874 ≤ unit ∧ unit < 876) && unit != 874 + (s.scope p.part p.scope).die) ||
    p.waiting.all fun u => match unitPort u with | some q => portDie q != unit - 874 | none => true
/-- A unit that has finished its sweep sends its acknowledgement, once (spec 08 R240; 16 R415). -/
def State.ackPrune (s : State) (n unit : Nat) : State :=
  match tget s.prunes n with
  | none => s
  | some p =>
    if p.noticed.contains unit && !p.acked.contains unit && s.sweptAt p.part p.scope unit && s.diesQuiet p unit then
      let t := (tget p.tally unit).getD {}
      let s := { s with prunes := tset s.prunes n { p with acked := p.acked ++ [unit] } }
      s.sendNow unit { builtinMsg (s.rankOf (874 + (s.scope p.part p.scope).die)) 0x334 3 p.part p.scope
        (arg4 (BitVec.ofNat 64 (t.msgs * 2 ^ 32 + t.killed)) (BitVec.ofNat 64 (t.broken * 2 ^ 32 + t.copies))
          (BitVec.ofNat 64 (t.dispatches * 2 ^ 32 + p.scope.toNat)) (BitVec.ofNat 64 (t.discarded * 2 ^ 32 + t.cancelled))) with cls := 6 }
    else s
/-- Look again at the prunes that wait for a unit. -/
def State.ackAll (s : State) (unit : Nat) : State :=
  s.prunes.foldl (fun s x => if !x.2.done then s.ackPrune x.1 unit else s) s

/-- What becomes of an access of a killed context: a store or atomic that has left is performed and its reply dropped; a load, LDV or fence is
abandoned (spec 07 R212). -/
def orphaned (core k : Nat) (x : Nat × Req) : Option (Nat × Req) :=
  if x.2.core == core && x.2.ctx == k && x.2.bmsg.isNone && !x.2.posted && !x.2.orphan then
    match x.2.kind with
    | .load | .loadNc | .ldv | .callat | .migrate => none
    | .store | .stv | .atom _ | .aacc | .aaccL =>
      if x.2.phase == .translate || x.2.phase == .walk then none else some (x.1, { x.2 with orphan := true })
  else some x

/-- Requests that are gone leave the park entries of the homes (spec 07 R212). -/
def State.dropParks (s : State) : State :=
  { s with homes := s.homes.map fun x => (x.1, { x.2 with parks := x.2.parks.filter fun n => (s.req n).isSome }) }
/-- Kill a context of a core: KILLED is recorded, latches and sends are discarded, the held message is freed, barriers it takes part in break
and the context becomes FREE (spec 01 R30; 02 R65; 06 R178; 08 R239; 16 R409). A STOPPED context keeps its fault frame but for KIND, unless a RESUME
would restart it at the address given: it then records KILLED. The contribution of an update handler is dropped and counted (spec 13 R353). -/
def State.killCtx (s : State) (core k : Nat) (restart : Option (BitVec 32) := none) : State :=
  let c := s.ctx core k
  if c.st == .free || decide (14 ≤ k) then s
  else
    let part := s.partNo core
    let sc := c.ctl.cur
    let nsend := c.sends.length
    let c1 := c.commit
    let s := if c.st == .stopped && restart.isNone then s.wr (framePa core k + 0xA5) 1 3
      else
        let c2 := { c1 with latches := []
                            ctl := { c1.ctl with cause := (if c.ctl.inhnd then 0x10060 else 0x60), tval := 0, tpc := restart.getD c.nextGroup } }
        let fst := match c.st with | .waiting => 2 | .saved => s.frame core k 0xA4 1 | .ready | .stopped | .free => 1
        (s.setCtx core k c2).writeFrame core k fst 3 0
    let s := ({ s with reqs := s.reqs.filterMap (orphaned core k) } : State).dropParks
    let held := c.st == .stopped && c.held.isSome
    let s := match c.held with
      | some m => if held || c.lock.isSome then s.dropMsg core m else s
      | none => if c.lock.isSome then s.countDropped core part sc else s
    let brk := (s.core core).bars.filter fun b => b.2.armed && !b.2.broken && (b.2.participants.contains k || b.2.waiters.any fun w => w.ctx == k)
    let s := brk.foldl (fun s b => s.breakBar core b.1) s
    let s := s.tallyFor part sc core fun t =>
      { t with killed := t.killed + 1, discarded := t.discarded + nsend, broken := t.broken + brk.length, msgs := t.msgs + held.toNat }
    let s := s.err part sc core 0x20
    (s.discardSends core k).freeCtx core k
/-- The same outside a sweep: prunes that waited for the context look again. -/
def State.kill (s : State) (core k : Nat) (restart : Option (BitVec 32) := none) : State :=
  if (s.ctx core k).st == .free || decide (14 ≤ k) then s else (s.killCtx core k restart).ackAll core

/-- Scopes of a subtree that a scope unit holds become DYING: those of one die, or of all (spec 08 R238; 16 R423). -/
def markDying (s : State) (part : Nat) (root : BitVec 16) (die : Option Nat) : List (Nat × ScopeEnt) → State
  | [] => s
  | (key, e) :: r =>
    let id := BitVec.ofNat 16 key
    if e.st = .live ∧ key / 65536 = part ∧ (die = none ∨ die = some e.die) ∧ s.inScope part root id = true then
      markDying (s.setScope part id { s.scope part id with st := .dying }) part root die r
    else markDying s part root die r
/-- The units of a partition's module that take kill notices: its LCs and copy engines, the TDEs, dense complexes, scope units and the LU. -/
def State.pruneUnits (s : State) (part : Nat) : List Nat :=
  let p := s.part part
  partCores p ++ (p.hedges.map fun h => 768 + h) ++ (List.range 13).map fun i => 864 + i
/-- Member modules of the groups the subtree's scopes name, other than this one, each with the scope. A prune that another module asked for goes on
to the members of the scopes created here alone. -/
def State.pruneMembers (s : State) (part : Nat) (root : BitVec 16) (remote : Bool) : List (BitVec 12 × BitVec 16) :=
  (s.scopes.flatMap fun x =>
    let id := BitVec.ofNat 16 x.1
    if x.1 / 65536 = part ∧ s.inScope part root id = true ∧ (remote = false ∨ (id ≠ root ∧ x.2.bound = false)) then
      (match x.2.group with
       | some g => (((tget (s.part part).groups g).getD []).filter fun m => m != s.modid).map fun m => (m, id)
       | none => [])
    else []).eraseDups
/-- Start a prune: the subtree is set DYING and a kill notice goes to every unit of the partition and every member module (spec 08 R238). The
number of the prune is returned. -/
def State.startPrune (s : State) (part : Nat) (scope : BitVec 16) (rank : BitVec 24) (ctx : Nat) (scopeOf : BitVec 16) (tag : BitVec 32)
    (quiet : Bool) (op : Nat) (remote : Bool) : Nat × State :=
  let e := s.scope part scope
  let (n, s) := s.fresh
  let su := 874 + e.die
  if e.st = .dying ∨ e.st = .dead then
    -- joins the earlier prune (spec 08 R238)
    let s := { s with prunes := tset s.prunes n { scope := scope, part := part, rank := rank, ctx := ctx, scopeOf := scopeOf, tag := tag, quiet := quiet, op := op, already := true, remote := remote } }
    if e.st = .dead then (n, s.due .pruneAcknowledgement 0 n 1) else (n, s)
  else
    let units := s.pruneUnits part
    let mem := s.pruneMembers part scope remote
    let p : Prune := { scope := scope, part := part, rank := rank, ctx := ctx, scopeOf := scopeOf, tag := tag, quiet := quiet, op := op, waiting := units, members := mem, remote := remote }
    let s := { s with prunes := tset s.prunes n p }
    let s := s.setScope part scope { s.scope part scope with st := .dying }
    let s := markDying s part scope (some e.die) s.scopes
    let msg (d : BitVec 24) (id : BitVec 16) : Msg :=
      builtinMsg d 0x330 3 part id (arg4 (BitVec.ofNat 64 (id.toNat + n * 2 ^ 32)) (BitVec.ofNat 64 rank.toNat) 0 0)
    let s := units.foldl (fun s u => s.sendNow su { msg (s.rankOf u) scope with cls := 6 }) s
    let s := mem.foldl (fun s m => s.sendNow su { msg (m.1 ++ 874#12) m.2 with cls := 6 }) s
    (n, if mem.isEmpty then s else s.later .pruneLinkwaitExpiry n)

/-! ### Starting the fault service in context 14 (spec 16 R412; 18 R460) -/

/-- Context 14 starts at an entry: registers zero and untagged, scope 0, the system space's defaults. -/
def State.startFs (s : State) (core : Nat) (entry : BitVec 32) : State :=
  let d := (s.part (s.partNo core)).sysDflt
  s.onCtx core 14 fun _ =>
    { st := .ready, pc := entry, npc := entry, space := 8
      ctl := { shape := d.shape, fpctl := d.fpctl, linkwait := d.linkwait, lfsr := lfsrStore (d.seed ^^^ 14), wpaddr := d.wpaddr, wpmask := d.wpmask } }

/-! ### Taking a trap (spec 01 R26; 02 R65, R74; 16 R402, R406 to R412) -/

/-- CAUSE of a trap (spec 01 R26, R27): slot, TORN, HND, sub-cause and code. -/
def causeWord (t : Trap) (slot : Nat) (torn hnd : Bool) : BitVec 32 :=
  BitVec.ofNat 32 (slot * 2 ^ 18 + torn.toNat * 2 ^ 17 + hnd.toNat * 2 ^ 16 +
    (if torn then t.code.toNat * 2 ^ 8 + 0x21 else t.sub.toNat * 2 ^ 8 + t.code.toNat))
/-- Cycles from now to the first cycle in which the next group could have issued (spec 16 R410). A decode trap issues no group. -/
def Ctx.cyclesLeft (c : Ctx) (decode : Bool) : Nat := if decode then 0 else (c.grp.length + 1) / 2 - c.slot / 2
/-- Delays outside the program: a free number of cycles passes for the result latches of a context (spec 06 R163; log entry 54). -/
def State.delay (s : State) (core k : Nat) : State :=
  if (s.ctx core k).latches.isEmpty then s
  else
    let (d, s) := s.drawFree
    s.setCtx core k (Ctx.ticks (min d.toNat 16) (s.ctx core k))
/-- The trap report to the fault service, or to the host queue for context 14 (spec 16 R411, R412). -/
def State.report (s : State) (core k kind : Nat) (dest : BitVec 24) (tag : BitVec 32) (st : BitVec 8) : State :=
  let c := s.ctx core k
  s.sendNow core { resumeMsg dest tag st 3 (s.partNo core) 0
    (arg4 (BitVec.ofNat 64 (c.ctl.cause.toNat * 2 ^ 32 + k * 2 ^ 28 + kind * 2 ^ 24 + (s.rankOf core).toNat)) c.ctl.tval
      (BitVec.ofNat 64 (c.ctl.tmid.toNat * 2 ^ 32 + c.ctl.tpc.toNat))
      (BitVec.ofNat 64 (c.ctl.base.toNat * 2 ^ 48 + c.ctl.cur.toNat * 2 ^ 32 + s.frame core k 0xB8 4))) with cls := 6 }
/-- The kernel ends with a failure of its walk: a reason and a value. -/
def State.failWalk (s : State) (core reason : Nat) (t : Trap) : State :=
  let s := s.onCore core fun c => { c with iw := { c.iw with failed := some (reason, t), inLine := false } }
  (s.onCtx core 16 fun c => { c.leaveGroup with st := .free, hold := .none }).due .iwLineRun core
/-- Take a trap in a context: the group stops at the word, earlier slots keep their effects, the trap registers and the frame are written,
the sends and the message meet the table of R65, and the event is reported. decode marks a trap of the group's decode (no word performed). -/
def State.takeTrapAt (s : State) (core k : Nat) (t : Trap) (decode : Bool) : State :=
  if k = 16 then
    -- a trap of a kernel ends the walk, with no frame (spec 09 R255)
    let c := s.ctx core 16
    let reason := if decode && (t.code == 1 || t.code == 2) then 0x0B else 1
    let s := s.onCore core fun x => { x with iw := { x.iw with failed := some (reason, t), inLine := false } }
    (s.setCtx core 16 { c.leaveGroup with st := .free, hold := .none }).due .iwLineRun core
  else
    let s := match (s.ctx core k).hold with | .none => s | _ => s.delay core k
    let c := s.ctx core k
    let hnd := c.ctl.inhnd
    let torn := hnd && c.ctl.reld
    let n := c.cyclesLeft decode
    let done := if decode then 0 else c.performed.toNat
    let slot := c.slot
    let tpc := c.pc
    let c := (Ctx.ticks n c.commit).leaveGroup
    let ctl := { c.ctl with cause := causeWord t slot torn hnd, tval := t.tval, tpc := tpc }
    let c := { c with st := .stopped, hold := .none, pc := tpc, npc := tpc, ctl := ctl }
    let s := s.setCtx core k c
    let s := s.writeFrame core k 1 1 done
    let part := s.partNo core
    let s := s.err part c.ctl.base core (if torn then 3 else 1)
    let s := if hnd then s.discardSends core k else s
    let s := if hnd then s.onCtx core k fun c => { c with held := if torn then none else c.held.map fun m => { m with heldBack := true } } else s
    if k < 14 then
      let p := s.part part
      let s := s.report core k 1 p.fsRank p.fsTag stOK
      if torn && (s.scope part c.ctl.base).policy then
        (s.startPrune part c.ctl.base p.fsRank 14 0 p.fsTag false 0 false).2
      else s
    else if k = 14 then
      let p := s.part part
      let s := (s.log [0x14, core, c.ctl.cause.toNat, c.ctl.tval.toNat, c.ctl.tpc.toNat]).logError part 0x22 (framePa core k) 0
      let s := s.report core 14 1 (s.rankOf (877 + part)) p.fsTag stFailed
      match p.fsEntry with
      | some e => s.startFs core e
      | none => s.freeCtx core 14
    else (s.logError part 0x22 (framePa core k) 0).due .lcReset core
/-- A word of the context that issues traps. -/
def State.takeTrap (s : State) (t : Trap) : State := s.takeTrapAt s.fcore s.fctx t false
/-- The group of the context that issues traps at decode, charged to the word in a slot at an address (spec 03 R89). -/
def State.decodeTrap (s : State) (t : Trap) (slot : Nat) (pc : BitVec 32) : State :=
  (s.setCur { s.cur with slot := slot, pc := pc }).takeTrapAt s.fcore s.fctx t true

/-! ### Return from a trap (spec 08 R237; 09 R265; 16 R408, R413) -/

/-- Restart a context from its frame: at TPC − 4 × SLOT for a fault, TPC for a preemption, with the frame's DONEMASK, or at the group given.
The state is the one the frame records; a handler stopped before its release ignores an edit to WAITING (spec 16 R413). -/
def State.restart (s : State) (core k : Nat) (pc : BitVec 32) (done : BitVec 4) (fst : Nat) : State :=
  let s := s.restoreRegs core k
  let c := s.ctx core k
  let s := s.setCtx core k { c with st := if fst = 2 then .waiting else .ready, pc := pc, npc := pc, slot := 0, grp := [], performed := 0, doneMask := done,
                                    fin := false, hold := .none, resumed := true }
  s

/-- The slots of a lane in use, and the inbox units (spec 01 R34); a core that is OUT has spilled them all (spec 16 R416). -/
def State.laneUsed (s : State) (core : Nat) (l : BitVec 2) : Nat :=
  if (s.core core).run = .out then 0
  else
  ((s.core core).mailbox.filter fun m => m.prio == l).length +
  ((List.range 16).filter fun k => match (s.ctx core k).held with | some m => m.prio == l | none => false).length
def State.unitsUsed (s : State) (core : Nat) : Nat :=
  if (s.core core).run = .out then 0
  else
  ((s.core core).mailbox.map Msg.units).foldl (· + ·) 0 +
  ((List.range 16).map fun k => match (s.ctx core k).held with | some m => m.units | none => 0).foldl (· + ·) 0
/-- The lane has a free slot and the inbox the units (spec 01 R34): 8 slots of its own and 96 shared. -/
def State.hasRoom (s : State) (core : Nat) (m : Msg) : Bool :=
  let u := (List.range 4).map fun l => s.laneUsed core (BitVec.ofNat 2 l)
  let shared := (u.map fun n => n - 8).foldl (· + ·) 0
  (decide (s.laneUsed core m.prio < 8) || decide (shared < 96)) && decide (s.unitsUsed core + m.units ≤ 1024)

/-! ### Operations end (spec 09 R242 to R250) -/

/-- CREQ, CLANE and CTAG of a command block (spec 09 R248). -/
def Op.word (o : Op) (i : Nat) : Nat := leNat ((o.block.drop (8 * i)).take 8)
def Engine.code : Engine → Nat
  | .copy => 1 | .copys => 2 | .walk => 3 | .dispatch => 4 | .combine => 5 | .djob => 6 | .prune => 0
/-- The status word of an engine operation (spec 09 R250). -/
def opStatus (o : Op) (reason : Nat) (t : Trap) (st : TokSt) : Nat :=
  let status := match st with | .done => 0 | .cancelled => 2 | _ => 3
  let fault := reason == 1 || reason == 0x0B || reason == 0x0D
  o.flags.toNat % 64 * 2 ^ 40 + reason * 2 ^ 32 + (if fault then t.code.toNat * 2 ^ 24 else 0) + o.engine.code * 2 ^ 20 +
    (if fault then t.sub.toNat * 2 ^ 8 else 0) + status
/-- An edge from an operation that ended DONE is satisfied. One from an operation that did not leaves its consumer nothing to wait for: it ends
CANCELLED with REASON INPUT whatever its other inputs do (spec 09 R242, R245). -/
def dropEdge (n : Nat) (ok : Bool) (o : Op) : Op :=
  if !o.edges.contains n then o
  else if ok then { o with edges := o.edges.filter (· != n) }
  else { o with edges := [], inputFailed := true }
/-- Answers of other modules that an operation has not taken leave with it. -/
def State.dropAsks (s : State) (n : Nat) : State := { s with reqs := s.reqs.filter fun x => x.2.eng != some n }
/-- The event by which a waiting operation starts. -/
def Engine.start : Engine → Instr
  | .copy | .copys => .copyStart
  | .walk => .walkStart
  | .dispatch => .dispatchStart
  | .combine => .combineStart
  | .djob | .prune => .jobGrant
/-- End an operation: notice to the issuer, completion resume when asked for, edges settled (spec 09 R244, R245, R250, R261). -/
def State.endOp (s : State) (n : Nat) (st : TokSt) (reason : Nat) (t : Trap) (progress extra : Nat) (ownPrune : Bool) : State :=
  match s.op n with
  | none => s
  | some o =>
    if o.ph = .ended then s
    else
      let s := (s.dropAsks n).setOp n { o with ph := .ended, st := st }
      let s := s.due .tokenNotice n
      let h := o.word 0
      let s := if o.engine ≠ .prune ∧ h.testBit 31 = true ∧ ownPrune = false then
          let status : BitVec 8 := match st with | .done => stOK | .cancelled => stCancelled | _ => stFailed
          s.sendNow o.unit (resumeMsg (s.rankOf o.core) (BitVec.ofNat 32 (h / 2 ^ 32)) status (BitVec.ofNat 2 (h / 2 ^ 29)) o.part o.scope
            (arg4 (BitVec.ofNat 64 (opStatus o reason t st)) t.tval (BitVec.ofNat 64 progress) (BitVec.ofNat 64 extra)))
        else s
      let had := s.ops.filter fun x => x.2.edges.contains n && x.2.ph == .queued
      let s := { s with ops := s.ops.map fun x => (x.1, dropEdge n (st == .done) x.2) }
      had.foldl (fun s x => s.due x.2.engine.start (if x.2.engine = .djob then x.2.unit - 872 else x.1)) s

end Sys2Proof.Machine
end

