-- ==== Sys2Proof/Machine/Etd.lean ====
section
/-! DEFINITION. Embedding tables: the descriptor and its checks, where a row lives, and how a contribution changes a row element (spec 13 R338
to R341, R351, R352; 04 R115, R126). -/

namespace Sys2Proof.Machine

/-- An embedding table descriptor as its 512 bits (spec 13 R338). -/
abbrev Etd := Nat

def Etd.base (e : Etd) : Nat := bits e 0 48
def Etd.rows (e : Etd) : Nat := bits e 64 40 + 1
def Etd.beats (e : Etd) : Nat := bits e 128 5
def Etd.etype (e : Etd) : Nat := bits e 136 4
def Etd.fx (e : Etd) : Bool := bits e 140 1 == 1
def Etd.poison (e : Etd) : Bool := bits e 141 1 == 1
def Etd.strict (e : Etd) : Bool := bits e 142 1 == 1
def Etd.merge (e : Etd) : Bool := bits e 143 1 == 1
/-- The FX64 scale exponent, signed. -/
def Etd.scale (e : Etd) : Int := toSigned 7 (bits e 144 7)
def Etd.stale (e : Etd) : Nat := bits e 152 4
def Etd.mode (e : Etd) : Nat := bits e 156 2
def Etd.shard (e : Etd) : Nat := bits e 158 2
def Etd.rlog (e : Etd) : Nat := bits e 160 4
def Etd.shlog (e : Etd) : Nat := bits e 164 6
def Etd.nsh (e : Etd) : Nat := bits e 192 20 + 1
def Etd.writers (e : Etd) : Nat := bits e 212 16
def Etd.wm0 (e : Etd) : BitVec 20 := BitVec.ofNat 20 (bits e 228 20)
def Etd.hlist (e : Etd) : Nat := bits e 256 48
def Etd.update (e : Etd) : Nat := bits e 320 32
def Etd.lr (e : Etd) : Nat := bits e 352 32
def Etd.plog (e : Etd) : Nat := bits e 384 48
/-- Row bytes. -/
def Etd.len (e : Etd) : Nat := 32 * e.beats
/-- log2 of the row stride. -/
def Etd.rs (e : Etd) : Nat :=
  if e.rlog ≠ 0 then e.rlog
  else if e.len ≤ 32 then 5 else if e.len ≤ 64 then 6 else if e.len ≤ 128 then 7 else if e.len ≤ 256 then 8 else 9
/-- The row's floating-point type, if its code is one. -/
def Etd.fty (e : Etd) : Option FTy :=
  match e.etype with
  | 0x8 => some .f64 | 0x9 => some .f32 | 0xA => some .f16 | 0xB => some .bf16 | 0xC => some .e4m3 | 0xD => some .e5m2 | _ => none
/-- The row's type; f32 for a descriptor that is rejected. -/
def Etd.ty (e : Etd) : FTy := (e.fty).getD .f32
/-- Bytes of an element. -/
def Etd.ebytes (e : Etd) : Nat := fwidth e.ty / 8

/-- The reserved bits are zero. -/
def Etd.reservedZero (e : Etd) : Bool :=
  bits e 432 80 == 0 && bits e 304 16 == 0 && bits e 248 8 == 0 && bits e 170 22 == 0 && bits e 151 1 == 0 && bits e 133 3 == 0 &&
    bits e 104 24 == 0 && bits e 48 16 == 0
/-- The shards hold the rows. -/
def Etd.fits (e : Etd) : Bool :=
  let per := 2 ^ (e.shlog - e.rs)
  decide (e.rs ≤ e.shlog) && (if e.shard = 2 then decide (e.rows ≤ e.nsh * per) else decide ((e.rows + e.nsh - 1) / e.nsh ≤ per))
/-- An ETD is rejected when one of these holds; versioned says that the row accessed lies in a versioned region (spec 13 R339). -/
def Etd.rejected (e : Etd) (versioned : Bool) : Bool :=
  !e.reservedZero || e.beats == 0 || decide (16 < e.beats) || (e.fty).isNone ||
    (decide (1 ≤ e.rlog) && decide (e.rlog ≤ 4)) || decide (10 ≤ e.rlog) || decide (2 ^ e.rs < e.len) ||
    decide (e.shlog < 16) || decide (40 < e.shlog) || e.base % 65536 != 0 || decide (2 ^ 48 < e.base + e.nsh * 2 ^ e.shlog) ||
    e.mode == 3 || e.shard == 3 || e.writers == 0 || !e.fits || (decide (1 < e.nsh) && e.hlist == 0) || e.hlist % 4 != 0 || e.plog % 8 != 0 ||
    (e.mode == 1 && (match fval .f32 e.lr with | .fin .. => false | .nan _ => true | .inf _ => true)) ||
    (e.mode == 2 && (e.fx || (if e.ty = .f64 then decide (512 < e.len) else decide (512 < e.len * 4 / e.ebytes)) ||
      decide (e.update < 0x400) || decide (0xFFFFFF00 ≤ e.update) || e.update % 4 != 0 || versioned))

/-- The hash of HASH sharding (spec 13 R341). -/
def hashH (q : Nat) : Nat := q * 0x9E3779B97F4A7C15 % 2 ^ 64 / 2 ^ 32
/-- RowAddr (spec 13 R341). -/
def Etd.rowAddr (e : Etd) (x : Nat) : Nat :=
  let (k, j) :=
    if e.shard = 0 then (x % e.nsh, x / e.nsh)
    else if e.shard = 1 then ((x + hashH (x / e.nsh)) % e.nsh, x / e.nsh)
    else (x / 2 ^ (e.shlog - e.rs), x % 2 ^ (e.shlog - e.rs))
  e.base + k * 2 ^ e.shlog + j * 2 ^ e.rs

/-! ### Elements -/

/-- The elements of a run of bytes, w bytes each. -/
def elems (w : Nat) : Nat → List Byte → List Nat
  | 0, _ => []
  | n + 1, l => leNat (l.take w) :: elems w n (l.drop w)
/-- Bytes of elements. -/
def packElems (w : Nat) (xs : List Nat) : List Byte := xs.flatMap (leBytes w)

/-- Form(x): the one-contribution accumulation form (spec 04 R115). -/
def formOf (t : FTy) (scale : Int) (x : Nat) : AccForm :=
  match fval t x with
  | .nan _ => { count := 1, nan := true }
  | .inf n => { count := 1, pinf := !n, ninf := n }
  | .fin n m e => { count := 1, a := satS (roundToInt 0 n m (e - scale)).1 64 }
/-- A partial sum merged into another (spec 04 R115). -/
def AccForm.merge (f g : AccForm) : AccForm :=
  { a := f.a + g.a, count := f.count + g.count, pinf := f.pinf || g.pinf, ninf := f.ninf || g.ninf, nan := f.nan || g.nan }
/-- A contribution added to a partial sum in an f32 or f64 line, exact widening and one rounding (spec 07 R199). -/
def sumAdd (t : FTy) (sum x : Nat) : Nat :=
  let lt : FTy := if t = .f64 then .f64 else .f32
  (addV lt rne (fval lt sum) (fval t x)).1
/-- Round(v + y, rowtype): y a value of another type (spec 04 R126; 13 R352). -/
def addInto (t : FTy) (v : Nat) (y : FVal) : Nat := (addV t rne (fval t v) y).1
/-- Round(v − η × x, rowtype) with the product exact (spec 13 R352). -/
def sgdInto (t : FTy) (lr v : Nat) (y : FVal) : Nat := (fmaV t rne (fval .f32 lr).flip y (fval t v)).1
/-- The value of an accumulation form's sum: SatS(A, 64) × 2^e. -/
def AccForm.val (f : AccForm) (scale : Int) : FVal := let a := satS f.a 64; .fin (decide (a < 0)) a.natAbs scale
/-- Apply(F, v), or its SGD form (spec 04 R115; 13 R352). -/
def applyForm (t : FTy) (mode lr : Nat) (scale : Int) (f : AccForm) (v : Nat) : Nat :=
  let put (y : FVal) : Nat := if mode = 1 then sgdInto t lr v y else addInto t v y
  if f.nan || (fval t v).isNaN || (f.pinf && f.ninf) then canonNaN t
  else if f.pinf then put (.inf false)
  else if f.ninf then put (.inf true)
  else put (f.val scale)

end Sys2Proof.Machine
end

