-- ==== Sys2Proof/Decode.lean ====
section
/-! DEFINITION. The decoder of L-code words (spec 03 R81, R90 to R92) and of D-code slot words (spec 03 R94 to R96), total and
rejecting by name, and after it the encoder, written from the same tables. Fields are taken out by division and remainder. -/

namespace Sys2Proof

/-- The len bits of w from bit lo up. -/
def fld (w lo len : Nat) : Nat := w / 2 ^ lo % 2 ^ len

/-- The size field of LM (spec 03 R90). -/
def msizeOf (n : Nat) : MSize := match n with | 0 => .b1 | 1 => .b2 | 2 => .b4 | _ => .b8
/-- The element-type codes of SHAPE.ETYPE (spec 01 R20); 0xF has no type. -/
def etyOf (n : Nat) : Option ETy := match n with
  | 0 => some .i8 | 1 => some .i16 | 2 => some .i32 | 3 => some .i64 | 4 => some .n8 | 5 => some .n16 | 6 => some .n32
  | 7 => some .n64 | 8 => some .f64 | 9 => some .f32 | 10 => some .f16 | 11 => some .bf16 | 12 => some .e4m3
  | 13 => some .e5m2 | 14 => some .fx64 | _ => none
/-- The type field of LV, LVG and ROW words: 0xF takes SHAPE.ETYPE (spec 03 R90). -/
def vtyOf (n : Nat) : VTy := match etyOf n with | some e => .of e | none => .shape
/-- The float type codes of FOP and FCVT (spec 06 R154, R159). -/
def ftyOf (n : Nat) : Option FTy := match n with
  | 0 => some .f64 | 1 => some .f32 | 2 => some .f16 | 3 => some .bf16 | 4 => some .e4m3 | 5 => some .e5m2 | _ => none
/-- The sel field of agset (spec 03 R95). -/
def agSelOf (n : Nat) : Option AgSel := match n with | 0 => some .base | 1 => some .stride | 2 => some .count | _ => none
/-- The sel field of dmfs (spec 03 R95). -/
def dregOf (n : Nat) : Option DReg := match n with
  | 0 => some .dcause | 1 => some .dtpc | 2 => some .dtval | 3 => some .job | _ => none

/-- The header of a word (spec 03 R81). -/
def hdrOf (w : Nat) : Hdr := ⟨fld w 31 1 == 1, fld w 30 1 == 1, BitVec.ofNat 3 (fld w 27 3)⟩

/-- Major 0x01 of the L-code map (spec 03 R91): the operands of bits 20:0. -/
def rawMaj01 (h : Hdr) (x : Nat) : Except Reject Instr :=
  match fld x 0 9 with
  | 0 => .ok (.add h (BitVec.ofNat 4 (fld x 17 4)) (BitVec.ofNat 4 (fld x 13 4)) (BitVec.ofNat 4 (fld x 9 4)))
  | 1 => .ok (.sub h (BitVec.ofNat 4 (fld x 17 4)) (BitVec.ofNat 4 (fld x 13 4)) (BitVec.ofNat 4 (fld x 9 4)))
  | 2 => .ok (.andR h (BitVec.ofNat 4 (fld x 17 4)) (BitVec.ofNat 4 (fld x 13 4)) (BitVec.ofNat 4 (fld x 9 4)))
  | 3 => .ok (.orR h (BitVec.ofNat 4 (fld x 17 4)) (BitVec.ofNat 4 (fld x 13 4)) (BitVec.ofNat 4 (fld x 9 4)))
  | 4 => .ok (.xorR h (BitVec.ofNat 4 (fld x 17 4)) (BitVec.ofNat 4 (fld x 13 4)) (BitVec.ofNat 4 (fld x 9 4)))
  | 5 => .ok (.andn h (BitVec.ofNat 4 (fld x 17 4)) (BitVec.ofNat 4 (fld x 13 4)) (BitVec.ofNat 4 (fld x 9 4)))
  | 6 => .ok (.sll h (BitVec.ofNat 4 (fld x 17 4)) (BitVec.ofNat 4 (fld x 13 4)) (BitVec.ofNat 4 (fld x 9 4)))
  | 7 => .ok (.srl h (BitVec.ofNat 4 (fld x 17 4)) (BitVec.ofNat 4 (fld x 13 4)) (BitVec.ofNat 4 (fld x 9 4)))
  | 8 => .ok (.sra h (BitVec.ofNat 4 (fld x 17 4)) (BitVec.ofNat 4 (fld x 13 4)) (BitVec.ofNat 4 (fld x 9 4)))
  | 9 => .ok (.mul h (BitVec.ofNat 4 (fld x 17 4)) (BitVec.ofNat 4 (fld x 13 4)) (BitVec.ofNat 4 (fld x 9 4)))
  | 10 => .ok (.mulh h (BitVec.ofNat 4 (fld x 17 4)) (BitVec.ofNat 4 (fld x 13 4)) (BitVec.ofNat 4 (fld x 9 4)))
  | 11 => .ok (.divS h (BitVec.ofNat 4 (fld x 17 4)) (BitVec.ofNat 4 (fld x 13 4)) (BitVec.ofNat 4 (fld x 9 4)))
  | 12 => .ok (.divu h (BitVec.ofNat 4 (fld x 17 4)) (BitVec.ofNat 4 (fld x 13 4)) (BitVec.ofNat 4 (fld x 9 4)))
  | 13 => .ok (.remS h (BitVec.ofNat 4 (fld x 17 4)) (BitVec.ofNat 4 (fld x 13 4)) (BitVec.ofNat 4 (fld x 9 4)))
  | 14 => .ok (.remu h (BitVec.ofNat 4 (fld x 17 4)) (BitVec.ofNat 4 (fld x 13 4)) (BitVec.ofNat 4 (fld x 9 4)))
  | 15 => .ok (.minS h (BitVec.ofNat 4 (fld x 17 4)) (BitVec.ofNat 4 (fld x 13 4)) (BitVec.ofNat 4 (fld x 9 4)))
  | 16 => .ok (.maxS h (BitVec.ofNat 4 (fld x 17 4)) (BitVec.ofNat 4 (fld x 13 4)) (BitVec.ofNat 4 (fld x 9 4)))
  | 17 => .ok (.minu h (BitVec.ofNat 4 (fld x 17 4)) (BitVec.ofNat 4 (fld x 13 4)) (BitVec.ofNat 4 (fld x 9 4)))
  | 18 => .ok (.maxu h (BitVec.ofNat 4 (fld x 17 4)) (BitVec.ofNat 4 (fld x 13 4)) (BitVec.ofNat 4 (fld x 9 4)))
  | 19 => if fld x 9 4 = 0 then .ok (.mov h (BitVec.ofNat 4 (fld x 17 4)) (BitVec.ofNat 4 (fld x 13 4))) else .error .reservedField
  | 20 => if fld x 9 4 = 0 then .ok (.clz h (BitVec.ofNat 4 (fld x 17 4)) (BitVec.ofNat 4 (fld x 13 4))) else .error .reservedField
  | 21 => if fld x 9 4 = 0 then .ok (.popc h (BitVec.ofNat 4 (fld x 17 4)) (BitVec.ofNat 4 (fld x 13 4))) else .error .reservedField
  | _ => .error .unassignedMinor

/-- Major 0x02 of the L-code map (spec 03 R91): the operands of bits 20:0. -/
def rawMaj02 (h : Hdr) (x : Nat) : Except Reject Instr :=
  .ok (.addi h (BitVec.ofNat 4 (fld x 17 4)) (BitVec.ofNat 4 (fld x 13 4)) (BitVec.ofNat 13 (fld x 0 13)))

/-- Major 0x03 of the L-code map (spec 03 R91): the operands of bits 20:0. -/
def rawMaj03 (h : Hdr) (x : Nat) : Except Reject Instr :=
  .ok (.andi h (BitVec.ofNat 4 (fld x 17 4)) (BitVec.ofNat 4 (fld x 13 4)) (BitVec.ofNat 13 (fld x 0 13)))

/-- Major 0x04 of the L-code map (spec 03 R91): the operands of bits 20:0. -/
def rawMaj04 (h : Hdr) (x : Nat) : Except Reject Instr :=
  .ok (.ori h (BitVec.ofNat 4 (fld x 17 4)) (BitVec.ofNat 4 (fld x 13 4)) (BitVec.ofNat 13 (fld x 0 13)))

/-- Major 0x05 of the L-code map (spec 03 R91): the operands of bits 20:0. -/
def rawMaj05 (h : Hdr) (x : Nat) : Except Reject Instr :=
  .ok (.xori h (BitVec.ofNat 4 (fld x 17 4)) (BitVec.ofNat 4 (fld x 13 4)) (BitVec.ofNat 13 (fld x 0 13)))

/-- Major 0x06 of the L-code map (spec 03 R91): the operands of bits 20:0. -/
def rawMaj06 (h : Hdr) (x : Nat) : Except Reject Instr :=
  match fld x 6 2 with
  | 0 => if fld x 8 5 = 0 then .ok (.slli h (BitVec.ofNat 4 (fld x 17 4)) (BitVec.ofNat 4 (fld x 13 4)) (BitVec.ofNat 6 (fld x 0 6))) else .error .reservedField
  | 1 => if fld x 8 5 = 0 then .ok (.srli h (BitVec.ofNat 4 (fld x 17 4)) (BitVec.ofNat 4 (fld x 13 4)) (BitVec.ofNat 6 (fld x 0 6))) else .error .reservedField
  | 2 => if fld x 8 5 = 0 then .ok (.srai h (BitVec.ofNat 4 (fld x 17 4)) (BitVec.ofNat 4 (fld x 13 4)) (BitVec.ofNat 6 (fld x 0 6))) else .error .reservedField
  | _ => .error .unassignedMinor

/-- Major 0x07 of the L-code map (spec 03 R91): the operands of bits 20:0. -/
def rawMaj07 (h : Hdr) (x : Nat) : Except Reject Instr :=
  .ok (.lui h (BitVec.ofNat 4 (fld x 17 4)) (BitVec.ofNat 17 (fld x 0 17)))

/-- Major 0x08 of the L-code map (spec 03 R91): the operands of bits 20:0. -/
def rawMaj08 (h : Hdr) (x : Nat) : Except Reject Instr :=
  .ok (.auipc h (BitVec.ofNat 4 (fld x 17 4)) (BitVec.ofNat 17 (fld x 0 17)))

/-- Major 0x09 of the L-code map (spec 03 R91): the operands of bits 20:0. -/
def rawMaj09 (h : Hdr) (x : Nat) : Except Reject Instr :=
  match fld x 0 9 with
  | 0 => .ok (.cmpEq h (BitVec.ofNat 4 (fld x 17 4)) (BitVec.ofNat 4 (fld x 13 4)) (BitVec.ofNat 4 (fld x 9 4)))
  | 1 => .ok (.cmpNe h (BitVec.ofNat 4 (fld x 17 4)) (BitVec.ofNat 4 (fld x 13 4)) (BitVec.ofNat 4 (fld x 9 4)))
  | 2 => .ok (.cmpLt h (BitVec.ofNat 4 (fld x 17 4)) (BitVec.ofNat 4 (fld x 13 4)) (BitVec.ofNat 4 (fld x 9 4)))
  | 3 => .ok (.cmpGe h (BitVec.ofNat 4 (fld x 17 4)) (BitVec.ofNat 4 (fld x 13 4)) (BitVec.ofNat 4 (fld x 9 4)))
  | 4 => .ok (.cmpLtu h (BitVec.ofNat 4 (fld x 17 4)) (BitVec.ofNat 4 (fld x 13 4)) (BitVec.ofNat 4 (fld x 9 4)))
  | 5 => .ok (.cmpGeu h (BitVec.ofNat 4 (fld x 17 4)) (BitVec.ofNat 4 (fld x 13 4)) (BitVec.ofNat 4 (fld x 9 4)))
  | _ => .error .unassignedMinor

/-- Major 0x0A of the L-code map (spec 03 R91): the operands of bits 20:0. -/
def rawMaj0a (h : Hdr) (x : Nat) : Except Reject Instr :=
  match fld x 10 3 with
  | 0 => .ok (.cmpiEq h (BitVec.ofNat 4 (fld x 17 4)) (BitVec.ofNat 4 (fld x 13 4)) (BitVec.ofNat 10 (fld x 0 10)))
  | 1 => .ok (.cmpiNe h (BitVec.ofNat 4 (fld x 17 4)) (BitVec.ofNat 4 (fld x 13 4)) (BitVec.ofNat 10 (fld x 0 10)))
  | 2 => .ok (.cmpiLt h (BitVec.ofNat 4 (fld x 17 4)) (BitVec.ofNat 4 (fld x 13 4)) (BitVec.ofNat 10 (fld x 0 10)))
  | 3 => .ok (.cmpiGe h (BitVec.ofNat 4 (fld x 17 4)) (BitVec.ofNat 4 (fld x 13 4)) (BitVec.ofNat 10 (fld x 0 10)))
  | 4 => .ok (.cmpiLtu h (BitVec.ofNat 4 (fld x 17 4)) (BitVec.ofNat 4 (fld x 13 4)) (BitVec.ofNat 10 (fld x 0 10)))
  | 5 => .ok (.cmpiGeu h (BitVec.ofNat 4 (fld x 17 4)) (BitVec.ofNat 4 (fld x 13 4)) (BitVec.ofNat 10 (fld x 0 10)))
  | _ => .error .unassignedMinor

/-- Major 0x0B of the L-code map (spec 03 R91): the operands of bits 20:0. -/
def rawMaj0b (h : Hdr) (x : Nat) : Except Reject Instr :=
  match fld x 0 9 with
  | 0 => .ok (.pand h (BitVec.ofNat 4 (fld x 17 4)) (BitVec.ofNat 4 (fld x 13 4)) (BitVec.ofNat 4 (fld x 9 4)))
  | 1 => .ok (.por h (BitVec.ofNat 4 (fld x 17 4)) (BitVec.ofNat 4 (fld x 13 4)) (BitVec.ofNat 4 (fld x 9 4)))
  | 2 => .ok (.pxor h (BitVec.ofNat 4 (fld x 17 4)) (BitVec.ofNat 4 (fld x 13 4)) (BitVec.ofNat 4 (fld x 9 4)))
  | 3 => .ok (.pandn h (BitVec.ofNat 4 (fld x 17 4)) (BitVec.ofNat 4 (fld x 13 4)) (BitVec.ofNat 4 (fld x 9 4)))
  | 4 => if fld x 9 4 = 0 then .ok (.pnot h (BitVec.ofNat 4 (fld x 17 4)) (BitVec.ofNat 4 (fld x 13 4))) else .error .reservedField
  | 5 => if fld x 9 4 = 0 then if fld x 14 3 = 0 then .ok (.pset h (BitVec.ofNat 4 (fld x 17 4)) (fld x 13 1 == 1)) else .error .reservedField else .error .reservedField
  | 6 => if fld x 9 8 = 0 then .ok (.prd h (BitVec.ofNat 4 (fld x 17 4))) else .error .reservedField
  | 7 => if fld x 9 4 = 0 then if fld x 17 4 = 0 then .ok (.pwr h (BitVec.ofNat 4 (fld x 13 4))) else .error .reservedField else .error .reservedField
  | _ => .error .unassignedMinor

/-- Major 0x0C of the L-code map (spec 03 R91): the operands of bits 20:0. -/
def rawMaj0c (h : Hdr) (x : Nat) : Except Reject Instr :=
  .ok (.br h (BitVec.ofNat 21 (fld x 0 21)))

/-- Major 0x0D of the L-code map (spec 03 R91): the operands of bits 20:0. -/
def rawMaj0d (h : Hdr) (x : Nat) : Except Reject Instr :=
  .ok (.call h (BitVec.ofNat 21 (fld x 0 21)))

/-- Major 0x0E of the L-code map (spec 03 R91): the operands of bits 20:0. -/
def rawMaj0e (h : Hdr) (x : Nat) : Except Reject Instr :=
  match fld x 0 9 with
  | 0 => if fld x 9 4 = 0 then if fld x 17 4 = 0 then .ok (.jr h (BitVec.ofNat 4 (fld x 13 4))) else .error .reservedField else .error .reservedField
  | 1 => if fld x 9 4 = 0 then .ok (.jalr h (BitVec.ofNat 4 (fld x 17 4)) (BitVec.ofNat 4 (fld x 13 4))) else .error .reservedField
  | _ => .error .unassignedMinor

/-- Major 0x0F of the L-code map (spec 03 R91): the operands of bits 20:0. -/
def rawMaj0f (h : Hdr) (x : Nat) : Except Reject Instr :=
  if fld x 17 4 = 0 then .ok (.loopW h (BitVec.ofNat 4 (fld x 13 4)) (BitVec.ofNat 13 (fld x 0 13))) else .error .reservedField

/-- Major 0x10 of the L-code map (spec 03 R91): the operands of bits 20:0. -/
def rawMaj10 (h : Hdr) (x : Nat) : Except Reject Instr :=
  .ok (.ld h (BitVec.ofNat 4 (fld x 17 4)) (BitVec.ofNat 4 (fld x 13 4)) (msizeOf (fld x 11 2)) (fld x 10 1 == 1) (BitVec.ofNat 10 (fld x 0 10)))

/-- Major 0x11 of the L-code map (spec 03 R91): the operands of bits 20:0. -/
def rawMaj11 (h : Hdr) (x : Nat) : Except Reject Instr :=
  if fld x 10 1 = 0 then .ok (.st h (BitVec.ofNat 4 (fld x 17 4)) (BitVec.ofNat 4 (fld x 13 4)) (msizeOf (fld x 11 2)) (BitVec.ofNat 10 (fld x 0 10))) else .error .reservedField

/-- Major 0x12 of the L-code map (spec 03 R91): the operands of bits 20:0. -/
def rawMaj12 (h : Hdr) (x : Nat) : Except Reject Instr :=
  .ok (.ldNc h (BitVec.ofNat 4 (fld x 17 4)) (BitVec.ofNat 4 (fld x 13 4)) (msizeOf (fld x 11 2)) (fld x 10 1 == 1) (BitVec.ofNat 10 (fld x 0 10)))

/-- Major 0x13 of the L-code map (spec 03 R91): the operands of bits 20:0. -/
def rawMaj13 (h : Hdr) (x : Nat) : Except Reject Instr :=
  match fld x 20 1 with
  | 0 => if fld x 10 3 = 0 then .ok (.ldw h (BitVec.ofNat 3 (fld x 17 3)) (BitVec.ofNat 4 (fld x 13 4)) (BitVec.ofNat 10 (fld x 0 10))) else .error .reservedField
  | _ => if fld x 10 3 = 0 then .ok (.stw h (BitVec.ofNat 3 (fld x 17 3)) (BitVec.ofNat 4 (fld x 13 4)) (BitVec.ofNat 10 (fld x 0 10))) else .error .reservedField

/-- Major 0x14 of the L-code map (spec 03 R91): the operands of bits 20:0. -/
def rawMaj14 (h : Hdr) (x : Nat) : Except Reject Instr :=
  match fld x 0 9 with
  | 0 => .ok (.ldv h (BitVec.ofNat 4 (fld x 17 4)) (BitVec.ofNat 4 (fld x 13 4)) (BitVec.ofNat 4 (fld x 9 4)))
  | 1 => if fld x 20 1 = 0 then .ok (.ldvW h (BitVec.ofNat 3 (fld x 17 3)) (BitVec.ofNat 4 (fld x 13 4)) (BitVec.ofNat 4 (fld x 9 4))) else .error .reservedField
  | _ => .error .unassignedMinor

/-- Major 0x15 of the L-code map (spec 03 R91): the operands of bits 20:0. -/
def rawMaj15 (h : Hdr) (x : Nat) : Except Reject Instr :=
  match fld x 0 9 with
  | 0 => .ok (.stv h (BitVec.ofNat 4 (fld x 17 4)) (BitVec.ofNat 4 (fld x 13 4)) (BitVec.ofNat 4 (fld x 9 4)))
  | 1 => if fld x 20 1 = 0 then .ok (.stvW h (BitVec.ofNat 3 (fld x 17 3)) (BitVec.ofNat 4 (fld x 13 4)) (BitVec.ofNat 4 (fld x 9 4))) else .error .reservedField
  | _ => .error .unassignedMinor

/-- Major 0x16 of the L-code map (spec 03 R91): the operands of bits 20:0. -/
def rawMaj16 (h : Hdr) (x : Nat) : Except Reject Instr :=
  match fld x 0 5 with
  | 0 => if fld x 5 1 = 0 then if fld x 7 1 = 0 then .ok (.atomAdd h (BitVec.ofNat 4 (fld x 17 4)) (BitVec.ofNat 4 (fld x 13 4)) (BitVec.ofNat 4 (fld x 9 4)) (fld x 8 1 == 1) (fld x 6 1 == 1)) else .error .reservedField else .error .reservedField
  | 1 => if fld x 5 1 = 0 then if fld x 7 1 = 0 then .ok (.atomAnd h (BitVec.ofNat 4 (fld x 17 4)) (BitVec.ofNat 4 (fld x 13 4)) (BitVec.ofNat 4 (fld x 9 4)) (fld x 8 1 == 1) (fld x 6 1 == 1)) else .error .reservedField else .error .reservedField
  | 2 => if fld x 5 1 = 0 then if fld x 7 1 = 0 then .ok (.atomOr h (BitVec.ofNat 4 (fld x 17 4)) (BitVec.ofNat 4 (fld x 13 4)) (BitVec.ofNat 4 (fld x 9 4)) (fld x 8 1 == 1) (fld x 6 1 == 1)) else .error .reservedField else .error .reservedField
  | 3 => if fld x 5 1 = 0 then if fld x 7 1 = 0 then .ok (.atomXor h (BitVec.ofNat 4 (fld x 17 4)) (BitVec.ofNat 4 (fld x 13 4)) (BitVec.ofNat 4 (fld x 9 4)) (fld x 8 1 == 1) (fld x 6 1 == 1)) else .error .reservedField else .error .reservedField
  | 4 => if fld x 5 1 = 0 then if fld x 7 1 = 0 then .ok (.atomSmin h (BitVec.ofNat 4 (fld x 17 4)) (BitVec.ofNat 4 (fld x 13 4)) (BitVec.ofNat 4 (fld x 9 4)) (fld x 8 1 == 1) (fld x 6 1 == 1)) else .error .reservedField else .error .reservedField
  | 5 => if fld x 5 1 = 0 then if fld x 7 1 = 0 then .ok (.atomSmax h (BitVec.ofNat 4 (fld x 17 4)) (BitVec.ofNat 4 (fld x 13 4)) (BitVec.ofNat 4 (fld x 9 4)) (fld x 8 1 == 1) (fld x 6 1 == 1)) else .error .reservedField else .error .reservedField
  | 6 => if fld x 5 1 = 0 then if fld x 7 1 = 0 then .ok (.atomSwap h (BitVec.ofNat 4 (fld x 17 4)) (BitVec.ofNat 4 (fld x 13 4)) (BitVec.ofNat 4 (fld x 9 4)) (fld x 8 1 == 1) (fld x 6 1 == 1)) else .error .reservedField else .error .reservedField
  | 7 => if fld x 5 1 = 0 then if fld x 7 1 = 0 then .ok (.atomCas h (BitVec.ofNat 4 (fld x 17 4)) (BitVec.ofNat 4 (fld x 13 4)) (BitVec.ofNat 4 (fld x 9 4)) (fld x 8 1 == 1) (fld x 6 1 == 1)) else .error .reservedField else .error .reservedField
  | 8 => if fld x 5 3 = 0 then .ok (.atomFaddF32 h (BitVec.ofNat 4 (fld x 17 4)) (BitVec.ofNat 4 (fld x 13 4)) (BitVec.ofNat 4 (fld x 9 4)) (fld x 8 1 == 1)) else .error .reservedField
  | 9 => if fld x 5 3 = 2 then .ok (.atomFaddF64 h (BitVec.ofNat 4 (fld x 17 4)) (BitVec.ofNat 4 (fld x 13 4)) (BitVec.ofNat 4 (fld x 9 4)) (fld x 8 1 == 1)) else .error .reservedField
  | _ => .error .unassignedMinor

/-- Major 0x17 of the L-code map (spec 03 R91): the operands of bits 20:0. -/
def rawMaj17 (h : Hdr) (x : Nat) : Except Reject Instr :=
  match fld x 0 9 with
  | 0 => .ok (.aacc h (BitVec.ofNat 4 (fld x 17 4)) (BitVec.ofNat 4 (fld x 13 4)) (BitVec.ofNat 4 (fld x 9 4)))
  | 1 => .ok (.aaccL h (BitVec.ofNat 4 (fld x 17 4)) (BitVec.ofNat 4 (fld x 13 4)) (BitVec.ofNat 4 (fld x 9 4)))
  | _ => .error .unassignedMinor

/-- Major 0x18 of the L-code map (spec 03 R91): the operands of bits 20:0. -/
def rawMaj18 (h : Hdr) (x : Nat) : Except Reject Instr :=
  match fld x 0 9 with
  | 0 => if fld x 17 4 = 0 then .ok (.fenceAcq h (BitVec.ofNat 4 (fld x 13 4)) (BitVec.ofNat 4 (fld x 9 4))) else .error .reservedField
  | 1 => if fld x 17 4 = 0 then .ok (.fenceRel h (BitVec.ofNat 4 (fld x 13 4)) (BitVec.ofNat 4 (fld x 9 4))) else .error .reservedField
  | 2 => if fld x 17 4 = 0 then .ok (.fenceFull h (BitVec.ofNat 4 (fld x 13 4)) (BitVec.ofNat 4 (fld x 9 4))) else .error .reservedField
  | 3 => if fld x 17 4 = 0 then .ok (.fenceX h (BitVec.ofNat 4 (fld x 13 4)) (BitVec.ofNat 4 (fld x 9 4))) else .error .reservedField
  | 4 => .ok (.fenceAcqSys h (BitVec.ofNat 4 (fld x 17 4)) (BitVec.ofNat 4 (fld x 13 4)) (BitVec.ofNat 4 (fld x 9 4)))
  | 5 => .ok (.fenceRelSys h (BitVec.ofNat 4 (fld x 17 4)) (BitVec.ofNat 4 (fld x 13 4)) (BitVec.ofNat 4 (fld x 9 4)))
  | 6 => .ok (.fenceFullSys h (BitVec.ofNat 4 (fld x 17 4)) (BitVec.ofNat 4 (fld x 13 4)) (BitVec.ofNat 4 (fld x 9 4)))
  | 7 => .ok (.fenceXSys h (BitVec.ofNat 4 (fld x 17 4)) (BitVec.ofNat 4 (fld x 13 4)) (BitVec.ofNat 4 (fld x 9 4)))
  | _ => .error .unassignedMinor

/-- Major 0x19 of the L-code map (spec 03 R91): the operands of bits 20:0. -/
def rawMaj19 (h : Hdr) (x : Nat) : Except Reject Instr :=
  match fld x 0 9 with
  | 0 => if fld x 17 4 = 0 then .ok (.l1inv h (BitVec.ofNat 4 (fld x 13 4)) (BitVec.ofNat 4 (fld x 9 4))) else .error .reservedField
  | 1 => if fld x 17 4 = 0 then .ok (.l1pf h (BitVec.ofNat 4 (fld x 13 4)) (BitVec.ofNat 4 (fld x 9 4))) else .error .reservedField
  | _ => .error .unassignedMinor

/-- Major 0x1A of the L-code map (spec 03 R91): the operands of bits 20:0. -/
def rawMaj1a (h : Hdr) (x : Nat) : Except Reject Instr :=
  match fld x 0 9 with
  | 0 => if fld x 9 4 = 0 then if fld x 17 4 = 0 then .ok (.seal h (BitVec.ofNat 4 (fld x 13 4))) else .error .reservedField else .error .reservedField
  | 1 => if fld x 17 4 = 0 then .ok (.unseal h (BitVec.ofNat 4 (fld x 13 4)) (BitVec.ofNat 4 (fld x 9 4))) else .error .reservedField
  | 2 => if fld x 17 4 = 0 then .ok (.reclaim h (BitVec.ofNat 4 (fld x 13 4)) (BitVec.ofNat 4 (fld x 9 4))) else .error .reservedField
  | 3 => .ok (.closeStep h (BitVec.ofNat 4 (fld x 17 4)) (BitVec.ofNat 4 (fld x 13 4)) (BitVec.ofNat 4 (fld x 9 4)))
  | 4 => .ok (.hmake h (BitVec.ofNat 4 (fld x 17 4)) (BitVec.ofNat 4 (fld x 13 4)) (BitVec.ofNat 4 (fld x 9 4)))
  | 5 => .ok (.hnarrow h (BitVec.ofNat 4 (fld x 17 4)) (BitVec.ofNat 4 (fld x 13 4)) (BitVec.ofNat 4 (fld x 9 4)))
  | _ => .error .unassignedMinor

/-- Major 0x20 of the L-code map (spec 03 R91): the operands of bits 20:0. -/
def rawMaj20 (h : Hdr) (x : Nat) : Except Reject Instr :=
  match fld x 0 3 with
  | 0 => if fld x 3 4 = 0 then (match ftyOf (fld x 7 2) with | some ty => .ok (.fadd h (BitVec.ofNat 4 (fld x 17 4)) (BitVec.ofNat 4 (fld x 13 4)) (BitVec.ofNat 4 (fld x 9 4)) ty) | none => .error .typeCode) else .error .reservedField
  | 1 => if fld x 3 4 = 0 then (match ftyOf (fld x 7 2) with | some ty => .ok (.fsub h (BitVec.ofNat 4 (fld x 17 4)) (BitVec.ofNat 4 (fld x 13 4)) (BitVec.ofNat 4 (fld x 9 4)) ty) | none => .error .typeCode) else .error .reservedField
  | 2 => if fld x 3 4 = 0 then (match ftyOf (fld x 7 2) with | some ty => .ok (.fmul h (BitVec.ofNat 4 (fld x 17 4)) (BitVec.ofNat 4 (fld x 13 4)) (BitVec.ofNat 4 (fld x 9 4)) ty) | none => .error .typeCode) else .error .reservedField
  | 3 => if fld x 3 4 = 0 then (match ftyOf (fld x 7 2) with | some ty => .ok (.fdiv h (BitVec.ofNat 4 (fld x 17 4)) (BitVec.ofNat 4 (fld x 13 4)) (BitVec.ofNat 4 (fld x 9 4)) ty) | none => .error .typeCode) else .error .reservedField
  | 4 => if fld x 3 4 = 0 then (match ftyOf (fld x 7 2) with | some ty => .ok (.fmin h (BitVec.ofNat 4 (fld x 17 4)) (BitVec.ofNat 4 (fld x 13 4)) (BitVec.ofNat 4 (fld x 9 4)) ty) | none => .error .typeCode) else .error .reservedField
  | 5 => if fld x 3 4 = 0 then (match ftyOf (fld x 7 2) with | some ty => .ok (.fmax h (BitVec.ofNat 4 (fld x 17 4)) (BitVec.ofNat 4 (fld x 13 4)) (BitVec.ofNat 4 (fld x 9 4)) ty) | none => .error .typeCode) else .error .reservedField
  | 6 => if fld x 3 4 = 0 then if fld x 9 4 = 0 then (match ftyOf (fld x 7 2) with | some ty => .ok (.fsqrt h (BitVec.ofNat 4 (fld x 17 4)) (BitVec.ofNat 4 (fld x 13 4)) ty) | none => .error .typeCode) else .error .reservedField else .error .reservedField
  | _ => if fld x 3 4 = 0 then if fld x 9 4 = 0 then (match ftyOf (fld x 7 2) with | some ty => .ok (.fneg h (BitVec.ofNat 4 (fld x 17 4)) (BitVec.ofNat 4 (fld x 13 4)) ty) | none => .error .typeCode) else .error .reservedField else .error .reservedField

/-- Major 0x21 of the L-code map (spec 03 R91): the operands of bits 20:0. -/
def rawMaj21 (h : Hdr) (x : Nat) : Except Reject Instr :=
  match fld x 0 3 with
  | 0 => if fld x 3 4 = 0 then (match ftyOf (fld x 7 2) with | some ty => .ok (.fma h (BitVec.ofNat 4 (fld x 17 4)) (BitVec.ofNat 4 (fld x 13 4)) (BitVec.ofNat 4 (fld x 9 4)) ty) | none => .error .typeCode) else .error .reservedField
  | 1 => if fld x 3 4 = 0 then (match ftyOf (fld x 7 2) with | some ty => .ok (.fms h (BitVec.ofNat 4 (fld x 17 4)) (BitVec.ofNat 4 (fld x 13 4)) (BitVec.ofNat 4 (fld x 9 4)) ty) | none => .error .typeCode) else .error .reservedField
  | _ => .error .unassignedMinor

/-- Major 0x22 of the L-code map (spec 03 R91): the operands of bits 20:0. -/
def rawMaj22 (h : Hdr) (x : Nat) : Except Reject Instr :=
  match fld x 0 3 with
  | 0 => if fld x 3 4 = 0 then (match ftyOf (fld x 7 2) with | some ty => .ok (.fcmpEq h (BitVec.ofNat 4 (fld x 17 4)) (BitVec.ofNat 4 (fld x 13 4)) (BitVec.ofNat 4 (fld x 9 4)) ty) | none => .error .typeCode) else .error .reservedField
  | 1 => if fld x 3 4 = 0 then (match ftyOf (fld x 7 2) with | some ty => .ok (.fcmpLt h (BitVec.ofNat 4 (fld x 17 4)) (BitVec.ofNat 4 (fld x 13 4)) (BitVec.ofNat 4 (fld x 9 4)) ty) | none => .error .typeCode) else .error .reservedField
  | 2 => if fld x 3 4 = 0 then (match ftyOf (fld x 7 2) with | some ty => .ok (.fcmpLe h (BitVec.ofNat 4 (fld x 17 4)) (BitVec.ofNat 4 (fld x 13 4)) (BitVec.ofNat 4 (fld x 9 4)) ty) | none => .error .typeCode) else .error .reservedField
  | 3 => if fld x 3 4 = 0 then (match ftyOf (fld x 7 2) with | some ty => .ok (.fcmpUn h (BitVec.ofNat 4 (fld x 17 4)) (BitVec.ofNat 4 (fld x 13 4)) (BitVec.ofNat 4 (fld x 9 4)) ty) | none => .error .typeCode) else .error .reservedField
  | _ => .error .unassignedMinor

/-- Major 0x23 of the L-code map (spec 03 R91): the operands of bits 20:0. -/
def rawMaj23 (h : Hdr) (x : Nat) : Except Reject Instr :=
  match fld x 0 3 with
  | 0 => if fld x 9 4 = 0 then (match ftyOf (fld x 6 3) with | some ty => (match ftyOf (fld x 3 3) with | some src => .ok (.fcvtF2f h (BitVec.ofNat 4 (fld x 17 4)) (BitVec.ofNat 4 (fld x 13 4)) ty src) | none => .error .typeCode) | none => .error .typeCode) else .error .reservedField
  | 1 => if fld x 3 3 = 0 then if fld x 9 4 = 0 then (match ftyOf (fld x 6 3) with | some ty => .ok (.fcvtF2i h (BitVec.ofNat 4 (fld x 17 4)) (BitVec.ofNat 4 (fld x 13 4)) ty) | none => .error .typeCode) else .error .reservedField else .error .reservedField
  | 2 => if fld x 3 3 = 0 then if fld x 9 4 = 0 then (match ftyOf (fld x 6 3) with | some ty => .ok (.fcvtF2u h (BitVec.ofNat 4 (fld x 17 4)) (BitVec.ofNat 4 (fld x 13 4)) ty) | none => .error .typeCode) else .error .reservedField else .error .reservedField
  | 3 => if fld x 3 3 = 0 then if fld x 9 4 = 0 then (match ftyOf (fld x 6 3) with | some ty => .ok (.fcvtI2f h (BitVec.ofNat 4 (fld x 17 4)) (BitVec.ofNat 4 (fld x 13 4)) ty) | none => .error .typeCode) else .error .reservedField else .error .reservedField
  | 4 => if fld x 3 3 = 0 then if fld x 9 4 = 0 then (match ftyOf (fld x 6 3) with | some ty => .ok (.fcvtU2f h (BitVec.ofNat 4 (fld x 17 4)) (BitVec.ofNat 4 (fld x 13 4)) ty) | none => .error .typeCode) else .error .reservedField else .error .reservedField
  | _ => .error .unassignedMinor

/-- Major 0x24 of the L-code map (spec 03 R91): the operands of bits 20:0. -/
def rawMaj24 (h : Hdr) (x : Nat) : Except Reject Instr :=
  if fld x 0 7 = 0 then if fld x 9 4 = 0 then (match ftyOf (fld x 7 2) with | some ty => .ok (.fclass h (BitVec.ofNat 4 (fld x 17 4)) (BitVec.ofNat 4 (fld x 13 4)) ty) | none => .error .typeCode) else .error .reservedField else .error .reservedField

/-- Major 0x28 of the L-code map (spec 03 R91): the operands of bits 20:0. -/
def rawMaj28 (h : Hdr) (x : Nat) : Except Reject Instr :=
  match fld x 4 5 with
  | 0 => if fld x 9 3 = 0 then .ok (.vadd h (BitVec.ofNat 3 (fld x 18 3)) (BitVec.ofNat 3 (fld x 15 3)) (BitVec.ofNat 3 (fld x 12 3)) (vtyOf (fld x 0 4))) else .error .reservedField
  | 1 => if fld x 9 3 = 0 then .ok (.vsub h (BitVec.ofNat 3 (fld x 18 3)) (BitVec.ofNat 3 (fld x 15 3)) (BitVec.ofNat 3 (fld x 12 3)) (vtyOf (fld x 0 4))) else .error .reservedField
  | 2 => if fld x 9 3 = 0 then .ok (.vmul h (BitVec.ofNat 3 (fld x 18 3)) (BitVec.ofNat 3 (fld x 15 3)) (BitVec.ofNat 3 (fld x 12 3)) (vtyOf (fld x 0 4))) else .error .reservedField
  | 3 => if fld x 9 3 = 0 then .ok (.vmin h (BitVec.ofNat 3 (fld x 18 3)) (BitVec.ofNat 3 (fld x 15 3)) (BitVec.ofNat 3 (fld x 12 3)) (vtyOf (fld x 0 4))) else .error .reservedField
  | 4 => if fld x 9 3 = 0 then .ok (.vmax h (BitVec.ofNat 3 (fld x 18 3)) (BitVec.ofNat 3 (fld x 15 3)) (BitVec.ofNat 3 (fld x 12 3)) (vtyOf (fld x 0 4))) else .error .reservedField
  | 5 => if fld x 9 6 = 0 then .ok (.vabs h (BitVec.ofNat 3 (fld x 18 3)) (BitVec.ofNat 3 (fld x 15 3)) (vtyOf (fld x 0 4))) else .error .reservedField
  | 6 => if fld x 9 6 = 0 then .ok (.vneg h (BitVec.ofNat 3 (fld x 18 3)) (BitVec.ofNat 3 (fld x 15 3)) (vtyOf (fld x 0 4))) else .error .reservedField
  | 7 => if fld x 9 3 = 0 then .ok (.vand h (BitVec.ofNat 3 (fld x 18 3)) (BitVec.ofNat 3 (fld x 15 3)) (BitVec.ofNat 3 (fld x 12 3)) (vtyOf (fld x 0 4))) else .error .reservedField
  | 8 => if fld x 9 3 = 0 then .ok (.vor h (BitVec.ofNat 3 (fld x 18 3)) (BitVec.ofNat 3 (fld x 15 3)) (BitVec.ofNat 3 (fld x 12 3)) (vtyOf (fld x 0 4))) else .error .reservedField
  | 9 => if fld x 9 3 = 0 then .ok (.vxor h (BitVec.ofNat 3 (fld x 18 3)) (BitVec.ofNat 3 (fld x 15 3)) (BitVec.ofNat 3 (fld x 12 3)) (vtyOf (fld x 0 4))) else .error .reservedField
  | 10 => if fld x 9 3 = 0 then .ok (.vshl h (BitVec.ofNat 3 (fld x 18 3)) (BitVec.ofNat 3 (fld x 15 3)) (BitVec.ofNat 3 (fld x 12 3)) (vtyOf (fld x 0 4))) else .error .reservedField
  | 11 => if fld x 9 3 = 0 then .ok (.vshr h (BitVec.ofNat 3 (fld x 18 3)) (BitVec.ofNat 3 (fld x 15 3)) (BitVec.ofNat 3 (fld x 12 3)) (vtyOf (fld x 0 4))) else .error .reservedField
  | _ => .error .unassignedMinor

/-- Major 0x29 of the L-code map (spec 03 R91): the operands of bits 20:0. -/
def rawMaj29 (h : Hdr) (x : Nat) : Except Reject Instr :=
  match fld x 4 5 with
  | 0 => .ok (.vfma h (BitVec.ofNat 3 (fld x 18 3)) (BitVec.ofNat 3 (fld x 15 3)) (BitVec.ofNat 3 (fld x 12 3)) (BitVec.ofNat 3 (fld x 9 3)) (vtyOf (fld x 0 4)))
  | 1 => .ok (.vfms h (BitVec.ofNat 3 (fld x 18 3)) (BitVec.ofNat 3 (fld x 15 3)) (BitVec.ofNat 3 (fld x 12 3)) (BitVec.ofNat 3 (fld x 9 3)) (vtyOf (fld x 0 4)))
  | _ => .error .unassignedMinor

/-- Major 0x2A of the L-code map (spec 03 R91): the operands of bits 20:0. -/
def rawMaj2a (h : Hdr) (x : Nat) : Except Reject Instr :=
  match fld x 4 5 with
  | 0 => if fld x 9 6 = 0 then .ok (.vcvt h (BitVec.ofNat 3 (fld x 18 3)) (BitVec.ofNat 3 (fld x 15 3)) (vtyOf (fld x 0 4))) else .error .reservedField
  | 1 => if fld x 9 3 = 0 then .ok (.vpack h (BitVec.ofNat 3 (fld x 18 3)) (BitVec.ofNat 3 (fld x 15 3)) (BitVec.ofNat 3 (fld x 12 3)) (vtyOf (fld x 0 4))) else .error .reservedField
  | 2 => if fld x 9 6 = 0 then .ok (.vunpklo h (BitVec.ofNat 3 (fld x 18 3)) (BitVec.ofNat 3 (fld x 15 3)) (vtyOf (fld x 0 4))) else .error .reservedField
  | 3 => if fld x 9 6 = 0 then .ok (.vunpkhi h (BitVec.ofNat 3 (fld x 18 3)) (BitVec.ofNat 3 (fld x 15 3)) (vtyOf (fld x 0 4))) else .error .reservedField
  | _ => .error .unassignedMinor

/-- Major 0x2B of the L-code map (spec 03 R91): the operands of bits 20:0. -/
def rawMaj2b (h : Hdr) (x : Nat) : Except Reject Instr :=
  match fld x 4 5 with
  | 0 => if fld x 9 6 = 0 then .ok (.vswp2 h (BitVec.ofNat 3 (fld x 18 3)) (BitVec.ofNat 3 (fld x 15 3)) (vtyOf (fld x 0 4))) else .error .reservedField
  | 1 => if fld x 9 6 = 0 then .ok (.vrev h (BitVec.ofNat 3 (fld x 18 3)) (BitVec.ofNat 3 (fld x 15 3)) (vtyOf (fld x 0 4))) else .error .reservedField
  | 2 => if fld x 9 3 = 0 then .ok (.vshuf h (BitVec.ofNat 3 (fld x 18 3)) (BitVec.ofNat 3 (fld x 15 3)) (BitVec.ofNat 3 (fld x 12 3)) (vtyOf (fld x 0 4))) else .error .reservedField
  | 3 => if fld x 14 1 = 0 then .ok (.vrot h (BitVec.ofNat 3 (fld x 18 3)) (BitVec.ofNat 3 (fld x 15 3)) (BitVec.ofNat 5 (fld x 9 5)) (vtyOf (fld x 0 4))) else .error .reservedField
  | 4 => if fld x 14 1 = 0 then .ok (.vbcast h (BitVec.ofNat 3 (fld x 18 3)) (BitVec.ofNat 3 (fld x 15 3)) (BitVec.ofNat 5 (fld x 9 5)) (vtyOf (fld x 0 4))) else .error .reservedField
  | 5 => .ok (.vext h (BitVec.ofNat 3 (fld x 18 3)) (BitVec.ofNat 4 (fld x 14 4)) (BitVec.ofNat 5 (fld x 9 5)) (vtyOf (fld x 0 4)))
  | 6 => .ok (.vins h (BitVec.ofNat 3 (fld x 18 3)) (BitVec.ofNat 4 (fld x 14 4)) (BitVec.ofNat 5 (fld x 9 5)) (vtyOf (fld x 0 4)))
  | 7 => if fld x 9 5 = 0 then .ok (.vsplat h (BitVec.ofNat 3 (fld x 18 3)) (BitVec.ofNat 4 (fld x 14 4)) (vtyOf (fld x 0 4))) else .error .reservedField
  | _ => .error .unassignedMinor

/-- Major 0x2C of the L-code map (spec 03 R91): the operands of bits 20:0. -/
def rawMaj2c (h : Hdr) (x : Nat) : Except Reject Instr :=
  match fld x 4 5 with
  | 0 => if fld x 9 3 = 0 then .ok (.vcmpEq h (BitVec.ofNat 3 (fld x 18 3)) (BitVec.ofNat 3 (fld x 15 3)) (BitVec.ofNat 3 (fld x 12 3)) (vtyOf (fld x 0 4))) else .error .reservedField
  | 1 => if fld x 9 3 = 0 then .ok (.vcmpLt h (BitVec.ofNat 3 (fld x 18 3)) (BitVec.ofNat 3 (fld x 15 3)) (BitVec.ofNat 3 (fld x 12 3)) (vtyOf (fld x 0 4))) else .error .reservedField
  | 2 => if fld x 9 3 = 0 then .ok (.vcmpLe h (BitVec.ofNat 3 (fld x 18 3)) (BitVec.ofNat 3 (fld x 15 3)) (BitVec.ofNat 3 (fld x 12 3)) (vtyOf (fld x 0 4))) else .error .reservedField
  | 3 => .ok (.vsel h (BitVec.ofNat 3 (fld x 18 3)) (BitVec.ofNat 3 (fld x 15 3)) (BitVec.ofNat 3 (fld x 12 3)) (BitVec.ofNat 3 (fld x 9 3)) (vtyOf (fld x 0 4)))
  | 4 => if fld x 9 6 = 0 then .ok (.vnz h (BitVec.ofNat 3 (fld x 18 3)) (BitVec.ofNat 3 (fld x 15 3)) (vtyOf (fld x 0 4))) else .error .reservedField
  | _ => .error .unassignedMinor

/-- Major 0x2D of the L-code map (spec 03 R91): the operands of bits 20:0. -/
def rawMaj2d (h : Hdr) (x : Nat) : Except Reject Instr :=
  match fld x 4 5 with
  | 0 => if fld x 9 6 = 0 then .ok (.vsin h (BitVec.ofNat 3 (fld x 18 3)) (BitVec.ofNat 3 (fld x 15 3)) (vtyOf (fld x 0 4))) else .error .reservedField
  | 1 => if fld x 9 6 = 0 then .ok (.vcos h (BitVec.ofNat 3 (fld x 18 3)) (BitVec.ofNat 3 (fld x 15 3)) (vtyOf (fld x 0 4))) else .error .reservedField
  | 2 => if fld x 9 6 = 0 then .ok (.vexp h (BitVec.ofNat 3 (fld x 18 3)) (BitVec.ofNat 3 (fld x 15 3)) (vtyOf (fld x 0 4))) else .error .reservedField
  | 3 => if fld x 9 6 = 0 then .ok (.vlog2 h (BitVec.ofNat 3 (fld x 18 3)) (BitVec.ofNat 3 (fld x 15 3)) (vtyOf (fld x 0 4))) else .error .reservedField
  | 4 => if fld x 9 6 = 0 then .ok (.vrsqrt h (BitVec.ofNat 3 (fld x 18 3)) (BitVec.ofNat 3 (fld x 15 3)) (vtyOf (fld x 0 4))) else .error .reservedField
  | 5 => if fld x 9 6 = 0 then .ok (.vrcp h (BitVec.ofNat 3 (fld x 18 3)) (BitVec.ofNat 3 (fld x 15 3)) (vtyOf (fld x 0 4))) else .error .reservedField
  | _ => .error .unassignedMinor

/-- Major 0x2E of the L-code map (spec 03 R91): the operands of bits 20:0. -/
def rawMaj2e (h : Hdr) (x : Nat) : Except Reject Instr :=
  match fld x 4 5 with
  | 0 => if fld x 9 6 = 0 then .ok (.vrsum h (BitVec.ofNat 3 (fld x 18 3)) (BitVec.ofNat 3 (fld x 15 3)) (vtyOf (fld x 0 4))) else .error .reservedField
  | 1 => if fld x 9 6 = 0 then .ok (.vrmax h (BitVec.ofNat 3 (fld x 18 3)) (BitVec.ofNat 3 (fld x 15 3)) (vtyOf (fld x 0 4))) else .error .reservedField
  | 2 => if fld x 9 6 = 0 then .ok (.vrmin h (BitVec.ofNat 3 (fld x 18 3)) (BitVec.ofNat 3 (fld x 15 3)) (vtyOf (fld x 0 4))) else .error .reservedField
  | _ => .error .unassignedMinor

/-- Major 0x2F of the L-code map (spec 03 R91): the operands of bits 20:0. -/
def rawMaj2f (h : Hdr) (x : Nat) : Except Reject Instr :=
  match fld x 4 5 with
  | 0 => if fld x 9 4 = 0 then .ok (.rowcpy h (BitVec.ofNat 4 (fld x 17 4)) (BitVec.ofNat 4 (fld x 13 4)) (vtyOf (fld x 0 4))) else .error .reservedField
  | 1 => if fld x 9 8 = 0 then .ok (.rowzero h (BitVec.ofNat 4 (fld x 17 4)) (vtyOf (fld x 0 4))) else .error .reservedField
  | 2 => .ok (.rowadd h (BitVec.ofNat 4 (fld x 17 4)) (BitVec.ofNat 4 (fld x 13 4)) (BitVec.ofNat 4 (fld x 9 4)) (vtyOf (fld x 0 4)))
  | 3 => .ok (.rowmul h (BitVec.ofNat 4 (fld x 17 4)) (BitVec.ofNat 4 (fld x 13 4)) (BitVec.ofNat 4 (fld x 9 4)) (vtyOf (fld x 0 4)))
  | 4 => .ok (.rowaxpy h (BitVec.ofNat 4 (fld x 17 4)) (BitVec.ofNat 4 (fld x 13 4)) (BitVec.ofNat 4 (fld x 9 4)) (vtyOf (fld x 0 4)))
  | 5 => .ok (.rowmax h (BitVec.ofNat 4 (fld x 17 4)) (BitVec.ofNat 4 (fld x 13 4)) (BitVec.ofNat 4 (fld x 9 4)) (vtyOf (fld x 0 4)))
  | 6 => if fld x 9 4 = 0 then .ok (.rowcvt h (BitVec.ofNat 4 (fld x 17 4)) (BitVec.ofNat 4 (fld x 13 4)) (vtyOf (fld x 0 4))) else .error .reservedField
  | _ => .error .unassignedMinor

/-- Major 0x30 of the L-code map (spec 03 R91): the operands of bits 20:0. -/
def rawMaj30 (h : Hdr) (x : Nat) : Except Reject Instr :=
  match fld x 0 5 with
  | 0 => .ok (.send h (BitVec.ofNat 4 (fld x 17 4)) (BitVec.ofNat 4 (fld x 13 4)) (BitVec.ofNat 4 (fld x 9 4)) (BitVec.ofNat 2 (fld x 7 2)) (fld x 6 1 == 1) (fld x 5 1 == 1))
  | _ => .error .unassignedMinor

/-- Major 0x31 of the L-code map (spec 03 R91): the operands of bits 20:0. -/
def rawMaj31 (h : Hdr) (x : Nat) : Except Reject Instr :=
  match fld x 0 5 with
  | 0 => if fld x 5 1 = 0 then .ok (.sendp h (BitVec.ofNat 4 (fld x 17 4)) (BitVec.ofNat 4 (fld x 13 4)) (BitVec.ofNat 4 (fld x 9 4)) (BitVec.ofNat 2 (fld x 7 2)) (fld x 6 1 == 1)) else .error .reservedField
  | _ => .error .unassignedMinor

/-- Major 0x32 of the L-code map (spec 03 R91): the operands of bits 20:0. -/
def rawMaj32 (h : Hdr) (x : Nat) : Except Reject Instr :=
  match fld x 0 5 with
  | 0 => if fld x 5 1 = 0 then .ok (.sendc h (BitVec.ofNat 4 (fld x 17 4)) (BitVec.ofNat 4 (fld x 13 4)) (BitVec.ofNat 4 (fld x 9 4)) (BitVec.ofNat 2 (fld x 7 2)) (fld x 6 1 == 1)) else .error .reservedField
  | _ => .error .unassignedMinor

/-- Major 0x33 of the L-code map (spec 03 R91): the operands of bits 20:0. -/
def rawMaj33 (h : Hdr) (x : Nat) : Except Reject Instr :=
  match fld x 0 9 with
  | 0 => .ok (.recv h (BitVec.ofNat 4 (fld x 17 4)) (BitVec.ofNat 4 (fld x 13 4)) (BitVec.ofNat 4 (fld x 9 4)))
  | _ => .error .unassignedMinor

/-- Major 0x34 of the L-code map (spec 03 R91): the operands of bits 20:0. -/
def rawMaj34 (h : Hdr) (x : Nat) : Except Reject Instr :=
  match fld x 0 9 with
  | 0 => if fld x 9 12 = 0 then .ok (.endCtx h) else .error .reservedField
  | 1 => if fld x 9 12 = 0 then .ok (.rel h) else .error .reservedField
  | 2 => if fld x 9 4 = 0 then if fld x 17 4 = 0 then .ok (.migrate h (BitVec.ofNat 4 (fld x 13 4))) else .error .reservedField else .error .reservedField
  | 3 => if fld x 9 12 = 0 then .ok (.yield h) else .error .reservedField
  | _ => .error .unassignedMinor

/-- Major 0x35 of the L-code map (spec 03 R91): the operands of bits 20:0. -/
def rawMaj35 (h : Hdr) (x : Nat) : Except Reject Instr :=
  match fld x 0 5 with
  | 0 => if fld x 5 1 = 0 then .ok (.callat h (BitVec.ofNat 4 (fld x 17 4)) (BitVec.ofNat 4 (fld x 13 4)) (BitVec.ofNat 4 (fld x 9 4)) (BitVec.ofNat 2 (fld x 7 2)) (fld x 6 1 == 1)) else .error .reservedField
  | _ => .error .unassignedMinor

/-- Major 0x36 of the L-code map (spec 03 R91): the operands of bits 20:0. -/
def rawMaj36 (h : Hdr) (x : Nat) : Except Reject Instr :=
  match fld x 7 2 with
  | 0 => if fld x 6 1 = 0 then .ok (.barm h (BitVec.ofNat 4 (fld x 17 4)) (BitVec.ofNat 4 (fld x 13 4)) (BitVec.ofNat 4 (fld x 9 4)) (BitVec.ofNat 6 (fld x 0 6))) else .error .reservedField
  | 1 => if fld x 6 1 = 0 then .ok (.bara h (BitVec.ofNat 4 (fld x 17 4)) (BitVec.ofNat 4 (fld x 13 4)) (BitVec.ofNat 4 (fld x 9 4)) (BitVec.ofNat 6 (fld x 0 6))) else .error .reservedField
  | 2 => if fld x 6 1 = 0 then .ok (.barw h (BitVec.ofNat 4 (fld x 17 4)) (BitVec.ofNat 4 (fld x 13 4)) (BitVec.ofNat 4 (fld x 9 4)) (BitVec.ofNat 6 (fld x 0 6))) else .error .reservedField
  | _ => if fld x 6 1 = 0 then .ok (.barq h (BitVec.ofNat 4 (fld x 17 4)) (BitVec.ofNat 4 (fld x 13 4)) (BitVec.ofNat 4 (fld x 9 4)) (BitVec.ofNat 6 (fld x 0 6))) else .error .reservedField

/-- Major 0x37 of the L-code map (spec 03 R91): the operands of bits 20:0. -/
def rawMaj37 (h : Hdr) (x : Nat) : Except Reject Instr :=
  match fld x 0 9 with
  | 0 => .ok (.scnew h (BitVec.ofNat 4 (fld x 17 4)) (BitVec.ofNat 4 (fld x 13 4)) (BitVec.ofNat 4 (fld x 9 4)))
  | 1 => .ok (.scstat h (BitVec.ofNat 4 (fld x 17 4)) (BitVec.ofNat 4 (fld x 13 4)) (BitVec.ofNat 4 (fld x 9 4)))
  | 2 => if fld x 20 1 = 0 then .ok (.prune h (BitVec.ofNat 3 (fld x 17 3)) (BitVec.ofNat 4 (fld x 13 4)) (BitVec.ofNat 4 (fld x 9 4))) else .error .reservedField
  | 3 => .ok (.resumeW h (BitVec.ofNat 4 (fld x 17 4)) (BitVec.ofNat 4 (fld x 13 4)) (BitVec.ofNat 4 (fld x 9 4)))
  | _ => .error .unassignedMinor

/-- Major 0x38 of the L-code map (spec 03 R91): the operands of bits 20:0. -/
def rawMaj38 (h : Hdr) (x : Nat) : Except Reject Instr :=
  match fld x 0 5 with
  | 0 => .ok (.copy h (BitVec.ofNat 3 (fld x 18 3)) (BitVec.ofNat 3 (fld x 15 3)) (BitVec.ofNat 3 (fld x 12 3)) (BitVec.ofNat 3 (fld x 9 3)) (BitVec.ofNat 4 (fld x 5 4)))
  | 1 => .ok (.copys h (BitVec.ofNat 3 (fld x 18 3)) (BitVec.ofNat 3 (fld x 15 3)) (BitVec.ofNat 3 (fld x 12 3)) (BitVec.ofNat 3 (fld x 9 3)) (BitVec.ofNat 4 (fld x 5 4)))
  | _ => .error .unassignedMinor

/-- Major 0x39 of the L-code map (spec 03 R91): the operands of bits 20:0. -/
def rawMaj39 (h : Hdr) (x : Nat) : Except Reject Instr :=
  match fld x 0 5 with
  | 0 => .ok (.walk h (BitVec.ofNat 3 (fld x 18 3)) (BitVec.ofNat 3 (fld x 15 3)) (BitVec.ofNat 3 (fld x 12 3)) (BitVec.ofNat 3 (fld x 9 3)) (BitVec.ofNat 4 (fld x 5 4)))
  | 1 => if fld x 5 8 = 0 then .ok (.dedup h (BitVec.ofNat 4 (fld x 17 4)) (BitVec.ofNat 4 (fld x 13 4))) else .error .reservedField
  | 2 => if fld x 5 8 = 0 then .ok (.emit h (BitVec.ofNat 4 (fld x 17 4)) (BitVec.ofNat 4 (fld x 13 4))) else .error .reservedField
  | 3 => if fld x 5 4 = 0 then if fld x 17 4 = 0 then .ok (.slot h (BitVec.ofNat 4 (fld x 13 4)) (BitVec.ofNat 4 (fld x 9 4))) else .error .reservedField else .error .reservedField
  | _ => .error .unassignedMinor

/-- Major 0x3A of the L-code map (spec 03 R91): the operands of bits 20:0. -/
def rawMaj3a (h : Hdr) (x : Nat) : Except Reject Instr :=
  match fld x 0 5 with
  | 0 => .ok (.dispatch h (BitVec.ofNat 3 (fld x 18 3)) (BitVec.ofNat 3 (fld x 15 3)) (BitVec.ofNat 3 (fld x 12 3)) (BitVec.ofNat 3 (fld x 9 3)) (BitVec.ofNat 4 (fld x 5 4)))
  | 1 => .ok (.combine h (BitVec.ofNat 3 (fld x 18 3)) (BitVec.ofNat 3 (fld x 15 3)) (BitVec.ofNat 3 (fld x 12 3)) (BitVec.ofNat 3 (fld x 9 3)) (BitVec.ofNat 4 (fld x 5 4)))
  | _ => .error .unassignedMinor

/-- Major 0x3B of the L-code map (spec 03 R91): the operands of bits 20:0. -/
def rawMaj3b (h : Hdr) (x : Nat) : Except Reject Instr :=
  match fld x 0 5 with
  | 0 => .ok (.djob h (BitVec.ofNat 3 (fld x 18 3)) (BitVec.ofNat 3 (fld x 15 3)) (BitVec.ofNat 3 (fld x 12 3)) (BitVec.ofNat 3 (fld x 9 3)) (BitVec.ofNat 4 (fld x 5 4)))
  | _ => .error .unassignedMinor

/-- Major 0x3C of the L-code map (spec 03 R91): the operands of bits 20:0. -/
def rawMaj3c (h : Hdr) (x : Nat) : Except Reject Instr :=
  match fld x 0 9 with
  | 0 => if fld x 17 4 = 0 then .ok (.trap h (BitVec.ofNat 8 (fld x 9 8))) else .error .reservedField
  | 1 => if fld x 9 8 = 0 then .ok (.eret h (BitVec.ofNat 4 (fld x 17 4))) else .error .reservedField
  | 2 => .ok (.mfs h (BitVec.ofNat 4 (fld x 17 4)) (BitVec.ofNat 8 (fld x 9 8)))
  | 3 => .ok (.mts h (BitVec.ofNat 4 (fld x 17 4)) (BitVec.ofNat 8 (fld x 9 8)))
  | 4 => if fld x 17 4 = 0 then .ok (.breakTrap h (BitVec.ofNat 8 (fld x 9 8))) else .error .reservedField
  | 5 => if fld x 17 4 = 0 then .ok (.pause h (BitVec.ofNat 8 (fld x 9 8))) else .error .reservedField
  | 6 => if fld x 9 12 = 0 then .ok (.halt h) else .error .reservedField
  | 7 => if fld x 9 12 = 0 then .ok (.nop h) else .error .reservedField
  | _ => .error .unassignedMinor

/-- An L-code word before the checks of operand values: the header, the major and its operands (spec 03 R81, R91). -/
def rawL (w : Nat) : Except Reject Instr :=
  match fld w 21 6 with
  | 1 => rawMaj01 (hdrOf w) (fld w 0 21)
  | 2 => rawMaj02 (hdrOf w) (fld w 0 21)
  | 3 => rawMaj03 (hdrOf w) (fld w 0 21)
  | 4 => rawMaj04 (hdrOf w) (fld w 0 21)
  | 5 => rawMaj05 (hdrOf w) (fld w 0 21)
  | 6 => rawMaj06 (hdrOf w) (fld w 0 21)
  | 7 => rawMaj07 (hdrOf w) (fld w 0 21)
  | 8 => rawMaj08 (hdrOf w) (fld w 0 21)
  | 9 => rawMaj09 (hdrOf w) (fld w 0 21)
  | 10 => rawMaj0a (hdrOf w) (fld w 0 21)
  | 11 => rawMaj0b (hdrOf w) (fld w 0 21)
  | 12 => rawMaj0c (hdrOf w) (fld w 0 21)
  | 13 => rawMaj0d (hdrOf w) (fld w 0 21)
  | 14 => rawMaj0e (hdrOf w) (fld w 0 21)
  | 15 => rawMaj0f (hdrOf w) (fld w 0 21)
  | 16 => rawMaj10 (hdrOf w) (fld w 0 21)
  | 17 => rawMaj11 (hdrOf w) (fld w 0 21)
  | 18 => rawMaj12 (hdrOf w) (fld w 0 21)
  | 19 => rawMaj13 (hdrOf w) (fld w 0 21)
  | 20 => rawMaj14 (hdrOf w) (fld w 0 21)
  | 21 => rawMaj15 (hdrOf w) (fld w 0 21)
  | 22 => rawMaj16 (hdrOf w) (fld w 0 21)
  | 23 => rawMaj17 (hdrOf w) (fld w 0 21)
  | 24 => rawMaj18 (hdrOf w) (fld w 0 21)
  | 25 => rawMaj19 (hdrOf w) (fld w 0 21)
  | 26 => rawMaj1a (hdrOf w) (fld w 0 21)
  | 32 => rawMaj20 (hdrOf w) (fld w 0 21)
  | 33 => rawMaj21 (hdrOf w) (fld w 0 21)
  | 34 => rawMaj22 (hdrOf w) (fld w 0 21)
  | 35 => rawMaj23 (hdrOf w) (fld w 0 21)
  | 36 => rawMaj24 (hdrOf w) (fld w 0 21)
  | 40 => rawMaj28 (hdrOf w) (fld w 0 21)
  | 41 => rawMaj29 (hdrOf w) (fld w 0 21)
  | 42 => rawMaj2a (hdrOf w) (fld w 0 21)
  | 43 => rawMaj2b (hdrOf w) (fld w 0 21)
  | 44 => rawMaj2c (hdrOf w) (fld w 0 21)
  | 45 => rawMaj2d (hdrOf w) (fld w 0 21)
  | 46 => rawMaj2e (hdrOf w) (fld w 0 21)
  | 47 => rawMaj2f (hdrOf w) (fld w 0 21)
  | 48 => rawMaj30 (hdrOf w) (fld w 0 21)
  | 49 => rawMaj31 (hdrOf w) (fld w 0 21)
  | 50 => rawMaj32 (hdrOf w) (fld w 0 21)
  | 51 => rawMaj33 (hdrOf w) (fld w 0 21)
  | 52 => rawMaj34 (hdrOf w) (fld w 0 21)
  | 53 => rawMaj35 (hdrOf w) (fld w 0 21)
  | 54 => rawMaj36 (hdrOf w) (fld w 0 21)
  | 55 => rawMaj37 (hdrOf w) (fld w 0 21)
  | 56 => rawMaj38 (hdrOf w) (fld w 0 21)
  | 57 => rawMaj39 (hdrOf w) (fld w 0 21)
  | 58 => rawMaj3a (hdrOf w) (fld w 0 21)
  | 59 => rawMaj3b (hdrOf w) (fld w 0 21)
  | 60 => rawMaj3c (hdrOf w) (fld w 0 21)
  | _ => .error .unassignedMajor

/-- The decoder of L-code words: every encoding the map does not assign is rejected by name (spec 03 R92). -/
def decodeL (w : Nat) : Except Reject Instr :=
  match rawL w with
  | .error e => .error e
  | .ok i => match i.check with
    | some e => .error e
    | none => .ok i

/-- A word of the S slot of a bundle (spec 03 R95, R96). -/
def rawS (x : Nat) : Except Reject Instr :=
  match fld x 27 5 with
  | 0 => if fld x 0 27 = 0 then .ok (.dsNopS) else .error .reservedField
  | 1 => if fld x 0 12 = 0 then .ok (.dAdd (BitVec.ofNat 5 (fld x 22 5)) (BitVec.ofNat 5 (fld x 17 5)) (BitVec.ofNat 5 (fld x 12 5))) else .error .reservedField
  | 2 => if fld x 0 12 = 0 then .ok (.dSub (BitVec.ofNat 5 (fld x 22 5)) (BitVec.ofNat 5 (fld x 17 5)) (BitVec.ofNat 5 (fld x 12 5))) else .error .reservedField
  | 3 => if fld x 0 12 = 0 then .ok (.dAnd (BitVec.ofNat 5 (fld x 22 5)) (BitVec.ofNat 5 (fld x 17 5)) (BitVec.ofNat 5 (fld x 12 5))) else .error .reservedField
  | 4 => if fld x 0 12 = 0 then .ok (.dOr (BitVec.ofNat 5 (fld x 22 5)) (BitVec.ofNat 5 (fld x 17 5)) (BitVec.ofNat 5 (fld x 12 5))) else .error .reservedField
  | 5 => if fld x 0 12 = 0 then .ok (.dXor (BitVec.ofNat 5 (fld x 22 5)) (BitVec.ofNat 5 (fld x 17 5)) (BitVec.ofNat 5 (fld x 12 5))) else .error .reservedField
  | 6 => if fld x 0 12 = 0 then .ok (.dSll (BitVec.ofNat 5 (fld x 22 5)) (BitVec.ofNat 5 (fld x 17 5)) (BitVec.ofNat 5 (fld x 12 5))) else .error .reservedField
  | 7 => if fld x 0 12 = 0 then .ok (.dSrl (BitVec.ofNat 5 (fld x 22 5)) (BitVec.ofNat 5 (fld x 17 5)) (BitVec.ofNat 5 (fld x 12 5))) else .error .reservedField
  | 8 => if fld x 0 12 = 0 then .ok (.dMul (BitVec.ofNat 5 (fld x 22 5)) (BitVec.ofNat 5 (fld x 17 5)) (BitVec.ofNat 5 (fld x 12 5))) else .error .reservedField
  | 9 => .ok (.dAddi (BitVec.ofNat 5 (fld x 22 5)) (BitVec.ofNat 5 (fld x 17 5)) (BitVec.ofNat 17 (fld x 0 17)))
  | 10 => .ok (.dLui (BitVec.ofNat 5 (fld x 22 5)) (BitVec.ofNat 22 (fld x 0 22)))
  | 11 => .ok (.dBeq (BitVec.ofNat 5 (fld x 22 5)) (BitVec.ofNat 5 (fld x 17 5)) (BitVec.ofNat 17 (fld x 0 17)))
  | 12 => .ok (.dBne (BitVec.ofNat 5 (fld x 22 5)) (BitVec.ofNat 5 (fld x 17 5)) (BitVec.ofNat 17 (fld x 0 17)))
  | 13 => .ok (.dBlt (BitVec.ofNat 5 (fld x 22 5)) (BitVec.ofNat 5 (fld x 17 5)) (BitVec.ofNat 17 (fld x 0 17)))
  | 14 => .ok (.dJmp (BitVec.ofNat 27 (fld x 0 27)))
  | 15 => if fld x 0 22 = 0 then .ok (.jget (BitVec.ofNat 5 (fld x 22 5))) else .error .reservedField
  | 16 => if fld x 0 22 = 0 then .ok (.jdone (BitVec.ofNat 5 (fld x 22 5))) else .error .reservedField
  | 17 => if fld x 0 16 = 0 then (match agSelOf (fld x 21 2) with | some sel => .ok (.agset (BitVec.ofNat 4 (fld x 23 4)) sel (BitVec.ofNat 5 (fld x 16 5))) | none => .error .typeCode) else .error .reservedField
  | 18 => if fld x 0 27 = 0 then .ok (.dret) else .error .reservedField
  | 19 => if fld x 0 17 = 0 then (match dregOf (fld x 17 5) with | some sel => .ok (.dmfs (BitVec.ofNat 5 (fld x 22 5)) sel) | none => .error .typeCode) else .error .reservedField
  | _ => .error .unassignedMajor

/-- A word of the L slot of a bundle (spec 03 R95, R96). -/
def rawL1 (x : Nat) : Except Reject Instr :=
  match fld x 27 5 with
  | 0 => if fld x 0 27 = 0 then .ok (.dsNopL) else .error .reservedField
  | 1 => if fld x 0 19 = 0 then .ok (.xin (BitVec.ofNat 4 (fld x 23 4)) (BitVec.ofNat 4 (fld x 19 4))) else .error .reservedField
  | 2 => if fld x 0 19 = 0 then .ok (.xout (BitVec.ofNat 4 (fld x 23 4)) (BitVec.ofNat 4 (fld x 19 4))) else .error .reservedField
  | 3 => if fld x 0 18 = 0 then .ok (.ldd (BitVec.ofNat 5 (fld x 22 5)) (BitVec.ofNat 4 (fld x 18 4))) else .error .reservedField
  | 4 => if fld x 0 18 = 0 then .ok (.std (BitVec.ofNat 5 (fld x 22 5)) (BitVec.ofNat 4 (fld x 18 4))) else .error .reservedField
  | 5 => if fld x 0 19 = 0 then .ok (.dbcpy (BitVec.ofNat 4 (fld x 23 4)) (BitVec.ofNat 4 (fld x 19 4))) else .error .reservedField
  | _ => .error .unassignedMajor

/-- A word of the M slot of a bundle (spec 03 R95, R96). -/
def rawM (x : Nat) : Except Reject Instr :=
  match fld x 27 5 with
  | 0 => if fld x 0 27 = 0 then .ok (.dsNopM) else .error .reservedField
  | 1 => if fld x 0 23 = 0 then .ok (.mlw (BitVec.ofNat 4 (fld x 23 4))) else .error .reservedField
  | 2 => if fld x 0 23 = 0 then .ok (.mlwt (BitVec.ofNat 4 (fld x 23 4))) else .error .reservedField
  | 3 => if fld x 0 27 = 0 then .ok (.mswap) else .error .reservedField
  | 4 => if fld x 0 19 = 0 then .ok (.mst (BitVec.ofNat 3 (fld x 24 3)) (BitVec.ofNat 4 (fld x 20 4)) (fld x 19 1 == 1)) else .error .reservedField
  | 5 => if fld x 0 15 = 0 then .ok (.mstz (BitVec.ofNat 3 (fld x 24 3)) (BitVec.ofNat 4 (fld x 20 4)) (fld x 19 1 == 1) (BitVec.ofNat 4 (fld x 15 4))) else .error .reservedField
  | 6 => if fld x 0 16 = 0 then .ok (.mdrain (BitVec.ofNat 3 (fld x 24 3)) (BitVec.ofNat 4 (fld x 20 4)) (BitVec.ofNat 4 (fld x 16 4))) else .error .reservedField
  | 7 => if fld x 0 19 = 0 then .ok (.mzero (BitVec.ofNat 8 (fld x 19 8))) else .error .reservedField
  | 8 => if fld x 0 27 = 0 then .ok (.mpark) else .error .reservedField
  | 9 => if fld x 0 27 = 0 then .ok (.munpark) else .error .reservedField
  | _ => .error .unassignedMajor

/-- A word of the V slot of a bundle (spec 03 R95, R96). -/
def rawV (x : Nat) : Except Reject Instr :=
  match fld x 27 5 with
  | 0 => if fld x 0 27 = 0 then .ok (.dsNopV) else .error .reservedField
  | 1 => if fld x 0 20 = 0 then .ok (.vbias (BitVec.ofNat 3 (fld x 24 3)) (BitVec.ofNat 4 (fld x 20 4))) else .error .reservedField
  | 2 => if fld x 0 19 = 0 then .ok (.vscale (BitVec.ofNat 3 (fld x 24 3)) (BitVec.ofNat 5 (fld x 19 5))) else .error .reservedField
  | 3 => if fld x 0 24 = 0 then .ok (.vrelu (BitVec.ofNat 3 (fld x 24 3))) else .error .reservedField
  | 4 => if fld x 0 14 = 0 then .ok (.vclamp (BitVec.ofNat 3 (fld x 24 3)) (BitVec.ofNat 5 (fld x 19 5)) (BitVec.ofNat 5 (fld x 14 5))) else .error .reservedField
  | 5 => if fld x 0 24 = 0 then .ok (.vgelu (BitVec.ofNat 3 (fld x 24 3))) else .error .reservedField
  | _ => .error .unassignedMajor

/-- The decoder of one slot word of a D-code bundle: slots 0 S, 1 L, 2 M, 3 V (spec 03 R94 to R96). -/
def decodeD (slot w : Nat) : Except Reject Instr :=
  match slot with
  | 0 => rawS w
  | 1 => rawL1 w
  | 2 => rawM w
  | _ => rawV w

/-- Header and major of an L-code word over the bits 20:0 (spec 03 R81). -/
def encL (h : Hdr) (maj x : Nat) : Nat :=
  h.stop.toNat * 2147483648 + h.neg.toNat * 1073741824 + h.gp.toNat * 134217728 + maj * 2097152 + x

/-- The code of a size (spec 03 R90). -/
def MSize.code : MSize → Nat | .b1 => 0 | .b2 => 1 | .b4 => 2 | .b8 => 3
/-- The code of an element type (spec 01 R20). -/
def ETy.code : ETy → Nat
  | .i8 => 0 | .i16 => 1 | .i32 => 2 | .i64 => 3 | .n8 => 4 | .n16 => 5 | .n32 => 6 | .n64 => 7 | .f64 => 8 | .f32 => 9
  | .f16 => 10 | .bf16 => 11 | .e4m3 => 12 | .e5m2 => 13 | .fx64 => 14
/-- The code of a type field (spec 03 R90). -/
def VTy.code : VTy → Nat | .shape => 15 | .of e => e.code
/-- The code of a float type (spec 06 R159). -/
def FTy.code : FTy → Nat | .f64 => 0 | .f32 => 1 | .f16 => 2 | .bf16 => 3 | .e4m3 => 4 | .e5m2 => 5
/-- The code of a field of a generator (spec 03 R95). -/
def AgSel.code : AgSel → Nat | .base => 0 | .stride => 1 | .count => 2
/-- The code of a register of dmfs (spec 03 R95). -/
def DReg.code : DReg → Nat | .dcause => 0 | .dtpc => 1 | .dtval => 2 | .job => 3

/-- The word of an instruction: an L-code word, or the word of a D-code instruction in its own slot (spec 03 R90, R91, R95). Events
have no word. -/
def encode : Instr → Option Nat
  | .add h rd ra rb => some (encL h 1 (rd.toNat * 131072 + ra.toNat * 8192 + rb.toNat * 512))
  | .sub h rd ra rb => some (encL h 1 (rd.toNat * 131072 + ra.toNat * 8192 + rb.toNat * 512 + 1))
  | .andR h rd ra rb => some (encL h 1 (rd.toNat * 131072 + ra.toNat * 8192 + rb.toNat * 512 + 2))
  | .orR h rd ra rb => some (encL h 1 (rd.toNat * 131072 + ra.toNat * 8192 + rb.toNat * 512 + 3))
  | .xorR h rd ra rb => some (encL h 1 (rd.toNat * 131072 + ra.toNat * 8192 + rb.toNat * 512 + 4))
  | .andn h rd ra rb => some (encL h 1 (rd.toNat * 131072 + ra.toNat * 8192 + rb.toNat * 512 + 5))
  | .sll h rd ra rb => some (encL h 1 (rd.toNat * 131072 + ra.toNat * 8192 + rb.toNat * 512 + 6))
  | .srl h rd ra rb => some (encL h 1 (rd.toNat * 131072 + ra.toNat * 8192 + rb.toNat * 512 + 7))
  | .sra h rd ra rb => some (encL h 1 (rd.toNat * 131072 + ra.toNat * 8192 + rb.toNat * 512 + 8))
  | .mul h rd ra rb => some (encL h 1 (rd.toNat * 131072 + ra.toNat * 8192 + rb.toNat * 512 + 9))
  | .mulh h rd ra rb => some (encL h 1 (rd.toNat * 131072 + ra.toNat * 8192 + rb.toNat * 512 + 10))
  | .divS h rd ra rb => some (encL h 1 (rd.toNat * 131072 + ra.toNat * 8192 + rb.toNat * 512 + 11))
  | .divu h rd ra rb => some (encL h 1 (rd.toNat * 131072 + ra.toNat * 8192 + rb.toNat * 512 + 12))
  | .remS h rd ra rb => some (encL h 1 (rd.toNat * 131072 + ra.toNat * 8192 + rb.toNat * 512 + 13))
  | .remu h rd ra rb => some (encL h 1 (rd.toNat * 131072 + ra.toNat * 8192 + rb.toNat * 512 + 14))
  | .minS h rd ra rb => some (encL h 1 (rd.toNat * 131072 + ra.toNat * 8192 + rb.toNat * 512 + 15))
  | .maxS h rd ra rb => some (encL h 1 (rd.toNat * 131072 + ra.toNat * 8192 + rb.toNat * 512 + 16))
  | .minu h rd ra rb => some (encL h 1 (rd.toNat * 131072 + ra.toNat * 8192 + rb.toNat * 512 + 17))
  | .maxu h rd ra rb => some (encL h 1 (rd.toNat * 131072 + ra.toNat * 8192 + rb.toNat * 512 + 18))
  | .mov h rd ra => some (encL h 1 (rd.toNat * 131072 + ra.toNat * 8192 + 19))
  | .clz h rd ra => some (encL h 1 (rd.toNat * 131072 + ra.toNat * 8192 + 20))
  | .popc h rd ra => some (encL h 1 (rd.toNat * 131072 + ra.toNat * 8192 + 21))
  | .addi h rd ra imm => some (encL h 2 (rd.toNat * 131072 + ra.toNat * 8192 + imm.toNat))
  | .andi h rd ra imm => some (encL h 3 (rd.toNat * 131072 + ra.toNat * 8192 + imm.toNat))
  | .ori h rd ra imm => some (encL h 4 (rd.toNat * 131072 + ra.toNat * 8192 + imm.toNat))
  | .xori h rd ra imm => some (encL h 5 (rd.toNat * 131072 + ra.toNat * 8192 + imm.toNat))
  | .slli h rd ra amt => some (encL h 6 (rd.toNat * 131072 + ra.toNat * 8192 + amt.toNat))
  | .srli h rd ra amt => some (encL h 6 (rd.toNat * 131072 + ra.toNat * 8192 + amt.toNat + 64))
  | .srai h rd ra amt => some (encL h 6 (rd.toNat * 131072 + ra.toNat * 8192 + amt.toNat + 128))
  | .lui h rd imm => some (encL h 7 (rd.toNat * 131072 + imm.toNat))
  | .auipc h rd imm => some (encL h 8 (rd.toNat * 131072 + imm.toNat))
  | .cmpEq h rd ra rb => some (encL h 9 (rd.toNat * 131072 + ra.toNat * 8192 + rb.toNat * 512))
  | .cmpNe h rd ra rb => some (encL h 9 (rd.toNat * 131072 + ra.toNat * 8192 + rb.toNat * 512 + 1))
  | .cmpLt h rd ra rb => some (encL h 9 (rd.toNat * 131072 + ra.toNat * 8192 + rb.toNat * 512 + 2))
  | .cmpGe h rd ra rb => some (encL h 9 (rd.toNat * 131072 + ra.toNat * 8192 + rb.toNat * 512 + 3))
  | .cmpLtu h rd ra rb => some (encL h 9 (rd.toNat * 131072 + ra.toNat * 8192 + rb.toNat * 512 + 4))
  | .cmpGeu h rd ra rb => some (encL h 9 (rd.toNat * 131072 + ra.toNat * 8192 + rb.toNat * 512 + 5))
  | .cmpiEq h rd ra imm => some (encL h 10 (rd.toNat * 131072 + ra.toNat * 8192 + imm.toNat))
  | .cmpiNe h rd ra imm => some (encL h 10 (rd.toNat * 131072 + ra.toNat * 8192 + imm.toNat + 1024))
  | .cmpiLt h rd ra imm => some (encL h 10 (rd.toNat * 131072 + ra.toNat * 8192 + imm.toNat + 2048))
  | .cmpiGe h rd ra imm => some (encL h 10 (rd.toNat * 131072 + ra.toNat * 8192 + imm.toNat + 3072))
  | .cmpiLtu h rd ra imm => some (encL h 10 (rd.toNat * 131072 + ra.toNat * 8192 + imm.toNat + 4096))
  | .cmpiGeu h rd ra imm => some (encL h 10 (rd.toNat * 131072 + ra.toNat * 8192 + imm.toNat + 5120))
  | .pand h rd ra rb => some (encL h 11 (rd.toNat * 131072 + ra.toNat * 8192 + rb.toNat * 512))
  | .por h rd ra rb => some (encL h 11 (rd.toNat * 131072 + ra.toNat * 8192 + rb.toNat * 512 + 1))
  | .pxor h rd ra rb => some (encL h 11 (rd.toNat * 131072 + ra.toNat * 8192 + rb.toNat * 512 + 2))
  | .pandn h rd ra rb => some (encL h 11 (rd.toNat * 131072 + ra.toNat * 8192 + rb.toNat * 512 + 3))
  | .pnot h rd ra => some (encL h 11 (rd.toNat * 131072 + ra.toNat * 8192 + 4))
  | .pset h rd val => some (encL h 11 (rd.toNat * 131072 + val.toNat * 8192 + 5))
  | .prd h rd => some (encL h 11 (rd.toNat * 131072 + 6))
  | .pwr h ra => some (encL h 11 (ra.toNat * 8192 + 7))
  | .br h off => some (encL h 12 (off.toNat))
  | .call h off => some (encL h 13 (off.toNat))
  | .jr h ra => some (encL h 14 (ra.toNat * 8192))
  | .jalr h rd ra => some (encL h 14 (rd.toNat * 131072 + ra.toNat * 8192 + 1))
  | .loopW h ra imm => some (encL h 15 (ra.toNat * 8192 + imm.toNat))
  | .ld h rd ra size ext imm => some (encL h 16 (rd.toNat * 131072 + ra.toNat * 8192 + size.code * 2048 + ext.toNat * 1024 + imm.toNat))
  | .st h rd ra size imm => some (encL h 17 (rd.toNat * 131072 + ra.toNat * 8192 + size.code * 2048 + imm.toNat))
  | .ldNc h rd ra size ext imm => some (encL h 18 (rd.toNat * 131072 + ra.toNat * 8192 + size.code * 2048 + ext.toNat * 1024 + imm.toNat))
  | .ldw h wv ra imm => some (encL h 19 (wv.toNat * 131072 + ra.toNat * 8192 + imm.toNat))
  | .stw h wv ra imm => some (encL h 19 (wv.toNat * 131072 + ra.toNat * 8192 + imm.toNat + 1048576))
  | .ldv h rd ra rb => some (encL h 20 (rd.toNat * 131072 + ra.toNat * 8192 + rb.toNat * 512))
  | .ldvW h wv ra rb => some (encL h 20 (wv.toNat * 131072 + ra.toNat * 8192 + rb.toNat * 512 + 1))
  | .stv h rd ra rb => some (encL h 21 (rd.toNat * 131072 + ra.toNat * 8192 + rb.toNat * 512))
  | .stvW h wv ra rb => some (encL h 21 (wv.toNat * 131072 + ra.toNat * 8192 + rb.toNat * 512 + 1))
  | .atomAdd h rd ra rb sys dbl => some (encL h 22 (rd.toNat * 131072 + ra.toNat * 8192 + rb.toNat * 512 + sys.toNat * 256 + dbl.toNat * 64))
  | .atomAnd h rd ra rb sys dbl => some (encL h 22 (rd.toNat * 131072 + ra.toNat * 8192 + rb.toNat * 512 + sys.toNat * 256 + dbl.toNat * 64 + 1))
  | .atomOr h rd ra rb sys dbl => some (encL h 22 (rd.toNat * 131072 + ra.toNat * 8192 + rb.toNat * 512 + sys.toNat * 256 + dbl.toNat * 64 + 2))
  | .atomXor h rd ra rb sys dbl => some (encL h 22 (rd.toNat * 131072 + ra.toNat * 8192 + rb.toNat * 512 + sys.toNat * 256 + dbl.toNat * 64 + 3))
  | .atomSmin h rd ra rb sys dbl => some (encL h 22 (rd.toNat * 131072 + ra.toNat * 8192 + rb.toNat * 512 + sys.toNat * 256 + dbl.toNat * 64 + 4))
  | .atomSmax h rd ra rb sys dbl => some (encL h 22 (rd.toNat * 131072 + ra.toNat * 8192 + rb.toNat * 512 + sys.toNat * 256 + dbl.toNat * 64 + 5))
  | .atomSwap h rd ra rb sys dbl => some (encL h 22 (rd.toNat * 131072 + ra.toNat * 8192 + rb.toNat * 512 + sys.toNat * 256 + dbl.toNat * 64 + 6))
  | .atomCas h rd ra rb sys dbl => some (encL h 22 (rd.toNat * 131072 + ra.toNat * 8192 + rb.toNat * 512 + sys.toNat * 256 + dbl.toNat * 64 + 7))
  | .atomFaddF32 h rd ra rb sys => some (encL h 22 (rd.toNat * 131072 + ra.toNat * 8192 + rb.toNat * 512 + sys.toNat * 256 + 8))
  | .atomFaddF64 h rd ra rb sys => some (encL h 22 (rd.toNat * 131072 + ra.toNat * 8192 + rb.toNat * 512 + sys.toNat * 256 + 73))
  | .aacc h rd ra rb => some (encL h 23 (rd.toNat * 131072 + ra.toNat * 8192 + rb.toNat * 512))
  | .aaccL h rd ra rb => some (encL h 23 (rd.toNat * 131072 + ra.toNat * 8192 + rb.toNat * 512 + 1))
  | .fenceAcq h ra rb => some (encL h 24 (ra.toNat * 8192 + rb.toNat * 512))
  | .fenceRel h ra rb => some (encL h 24 (ra.toNat * 8192 + rb.toNat * 512 + 1))
  | .fenceFull h ra rb => some (encL h 24 (ra.toNat * 8192 + rb.toNat * 512 + 2))
  | .fenceX h ra rb => some (encL h 24 (ra.toNat * 8192 + rb.toNat * 512 + 3))
  | .fenceAcqSys h rd ra rb => some (encL h 24 (rd.toNat * 131072 + ra.toNat * 8192 + rb.toNat * 512 + 4))
  | .fenceRelSys h rd ra rb => some (encL h 24 (rd.toNat * 131072 + ra.toNat * 8192 + rb.toNat * 512 + 5))
  | .fenceFullSys h rd ra rb => some (encL h 24 (rd.toNat * 131072 + ra.toNat * 8192 + rb.toNat * 512 + 6))
  | .fenceXSys h rd ra rb => some (encL h 24 (rd.toNat * 131072 + ra.toNat * 8192 + rb.toNat * 512 + 7))
  | .l1inv h ra rb => some (encL h 25 (ra.toNat * 8192 + rb.toNat * 512))
  | .l1pf h ra rb => some (encL h 25 (ra.toNat * 8192 + rb.toNat * 512 + 1))
  | .seal h ra => some (encL h 26 (ra.toNat * 8192))
  | .unseal h ra rb => some (encL h 26 (ra.toNat * 8192 + rb.toNat * 512 + 1))
  | .reclaim h ra rb => some (encL h 26 (ra.toNat * 8192 + rb.toNat * 512 + 2))
  | .closeStep h rd ra rb => some (encL h 26 (rd.toNat * 131072 + ra.toNat * 8192 + rb.toNat * 512 + 3))
  | .hmake h rd ra rb => some (encL h 26 (rd.toNat * 131072 + ra.toNat * 8192 + rb.toNat * 512 + 4))
  | .hnarrow h rd ra rb => some (encL h 26 (rd.toNat * 131072 + ra.toNat * 8192 + rb.toNat * 512 + 5))
  | .fadd h rd ra rb ty => some (encL h 32 (rd.toNat * 131072 + ra.toNat * 8192 + rb.toNat * 512 + ty.code * 128))
  | .fsub h rd ra rb ty => some (encL h 32 (rd.toNat * 131072 + ra.toNat * 8192 + rb.toNat * 512 + ty.code * 128 + 1))
  | .fmul h rd ra rb ty => some (encL h 32 (rd.toNat * 131072 + ra.toNat * 8192 + rb.toNat * 512 + ty.code * 128 + 2))
  | .fdiv h rd ra rb ty => some (encL h 32 (rd.toNat * 131072 + ra.toNat * 8192 + rb.toNat * 512 + ty.code * 128 + 3))
  | .fmin h rd ra rb ty => some (encL h 32 (rd.toNat * 131072 + ra.toNat * 8192 + rb.toNat * 512 + ty.code * 128 + 4))
  | .fmax h rd ra rb ty => some (encL h 32 (rd.toNat * 131072 + ra.toNat * 8192 + rb.toNat * 512 + ty.code * 128 + 5))
  | .fsqrt h rd ra ty => some (encL h 32 (rd.toNat * 131072 + ra.toNat * 8192 + ty.code * 128 + 6))
  | .fneg h rd ra ty => some (encL h 32 (rd.toNat * 131072 + ra.toNat * 8192 + ty.code * 128 + 7))
  | .fma h rd ra rb ty => some (encL h 33 (rd.toNat * 131072 + ra.toNat * 8192 + rb.toNat * 512 + ty.code * 128))
  | .fms h rd ra rb ty => some (encL h 33 (rd.toNat * 131072 + ra.toNat * 8192 + rb.toNat * 512 + ty.code * 128 + 1))
  | .fcmpEq h rd ra rb ty => some (encL h 34 (rd.toNat * 131072 + ra.toNat * 8192 + rb.toNat * 512 + ty.code * 128))
  | .fcmpLt h rd ra rb ty => some (encL h 34 (rd.toNat * 131072 + ra.toNat * 8192 + rb.toNat * 512 + ty.code * 128 + 1))
  | .fcmpLe h rd ra rb ty => some (encL h 34 (rd.toNat * 131072 + ra.toNat * 8192 + rb.toNat * 512 + ty.code * 128 + 2))
  | .fcmpUn h rd ra rb ty => some (encL h 34 (rd.toNat * 131072 + ra.toNat * 8192 + rb.toNat * 512 + ty.code * 128 + 3))
  | .fcvtF2f h rd ra ty src => some (encL h 35 (rd.toNat * 131072 + ra.toNat * 8192 + ty.code * 64 + src.code * 8))
  | .fcvtF2i h rd ra ty => some (encL h 35 (rd.toNat * 131072 + ra.toNat * 8192 + ty.code * 64 + 1))
  | .fcvtF2u h rd ra ty => some (encL h 35 (rd.toNat * 131072 + ra.toNat * 8192 + ty.code * 64 + 2))
  | .fcvtI2f h rd ra ty => some (encL h 35 (rd.toNat * 131072 + ra.toNat * 8192 + ty.code * 64 + 3))
  | .fcvtU2f h rd ra ty => some (encL h 35 (rd.toNat * 131072 + ra.toNat * 8192 + ty.code * 64 + 4))
  | .fclass h rd ra ty => some (encL h 36 (rd.toNat * 131072 + ra.toNat * 8192 + ty.code * 128))
  | .vadd h wd wa wb ty => some (encL h 40 (wd.toNat * 262144 + wa.toNat * 32768 + wb.toNat * 4096 + ty.code))
  | .vsub h wd wa wb ty => some (encL h 40 (wd.toNat * 262144 + wa.toNat * 32768 + wb.toNat * 4096 + ty.code + 16))
  | .vmul h wd wa wb ty => some (encL h 40 (wd.toNat * 262144 + wa.toNat * 32768 + wb.toNat * 4096 + ty.code + 32))
  | .vmin h wd wa wb ty => some (encL h 40 (wd.toNat * 262144 + wa.toNat * 32768 + wb.toNat * 4096 + ty.code + 48))
  | .vmax h wd wa wb ty => some (encL h 40 (wd.toNat * 262144 + wa.toNat * 32768 + wb.toNat * 4096 + ty.code + 64))
  | .vabs h wd wa ty => some (encL h 40 (wd.toNat * 262144 + wa.toNat * 32768 + ty.code + 80))
  | .vneg h wd wa ty => some (encL h 40 (wd.toNat * 262144 + wa.toNat * 32768 + ty.code + 96))
  | .vand h wd wa wb ty => some (encL h 40 (wd.toNat * 262144 + wa.toNat * 32768 + wb.toNat * 4096 + ty.code + 112))
  | .vor h wd wa wb ty => some (encL h 40 (wd.toNat * 262144 + wa.toNat * 32768 + wb.toNat * 4096 + ty.code + 128))
  | .vxor h wd wa wb ty => some (encL h 40 (wd.toNat * 262144 + wa.toNat * 32768 + wb.toNat * 4096 + ty.code + 144))
  | .vshl h wd wa wb ty => some (encL h 40 (wd.toNat * 262144 + wa.toNat * 32768 + wb.toNat * 4096 + ty.code + 160))
  | .vshr h wd wa wb ty => some (encL h 40 (wd.toNat * 262144 + wa.toNat * 32768 + wb.toNat * 4096 + ty.code + 176))
  | .vfma h wd wa wb wc ty => some (encL h 41 (wd.toNat * 262144 + wa.toNat * 32768 + wb.toNat * 4096 + wc.toNat * 512 + ty.code))
  | .vfms h wd wa wb wc ty => some (encL h 41 (wd.toNat * 262144 + wa.toNat * 32768 + wb.toNat * 4096 + wc.toNat * 512 + ty.code + 16))
  | .vcvt h wd wa ty => some (encL h 42 (wd.toNat * 262144 + wa.toNat * 32768 + ty.code))
  | .vpack h wd wa wb ty => some (encL h 42 (wd.toNat * 262144 + wa.toNat * 32768 + wb.toNat * 4096 + ty.code + 16))
  | .vunpklo h wd wa ty => some (encL h 42 (wd.toNat * 262144 + wa.toNat * 32768 + ty.code + 32))
  | .vunpkhi h wd wa ty => some (encL h 42 (wd.toNat * 262144 + wa.toNat * 32768 + ty.code + 48))
  | .vswp2 h wd wa ty => some (encL h 43 (wd.toNat * 262144 + wa.toNat * 32768 + ty.code))
  | .vrev h wd wa ty => some (encL h 43 (wd.toNat * 262144 + wa.toNat * 32768 + ty.code + 16))
  | .vshuf h wd wa wb ty => some (encL h 43 (wd.toNat * 262144 + wa.toNat * 32768 + wb.toNat * 4096 + ty.code + 32))
  | .vrot h wd wa k ty => some (encL h 43 (wd.toNat * 262144 + wa.toNat * 32768 + k.toNat * 512 + ty.code + 48))
  | .vbcast h wd wa k ty => some (encL h 43 (wd.toNat * 262144 + wa.toNat * 32768 + k.toNat * 512 + ty.code + 64))
  | .vext h wv rg k ty => some (encL h 43 (wv.toNat * 262144 + rg.toNat * 16384 + k.toNat * 512 + ty.code + 80))
  | .vins h wv rg k ty => some (encL h 43 (wv.toNat * 262144 + rg.toNat * 16384 + k.toNat * 512 + ty.code + 96))
  | .vsplat h wv rg ty => some (encL h 43 (wv.toNat * 262144 + rg.toNat * 16384 + ty.code + 112))
  | .vcmpEq h wd wa wb ty => some (encL h 44 (wd.toNat * 262144 + wa.toNat * 32768 + wb.toNat * 4096 + ty.code))
  | .vcmpLt h wd wa wb ty => some (encL h 44 (wd.toNat * 262144 + wa.toNat * 32768 + wb.toNat * 4096 + ty.code + 16))
  | .vcmpLe h wd wa wb ty => some (encL h 44 (wd.toNat * 262144 + wa.toNat * 32768 + wb.toNat * 4096 + ty.code + 32))
  | .vsel h wd wa wb wc ty => some (encL h 44 (wd.toNat * 262144 + wa.toNat * 32768 + wb.toNat * 4096 + wc.toNat * 512 + ty.code + 48))
  | .vnz h wd wa ty => some (encL h 44 (wd.toNat * 262144 + wa.toNat * 32768 + ty.code + 64))
  | .vsin h wd wa ty => some (encL h 45 (wd.toNat * 262144 + wa.toNat * 32768 + ty.code))
  | .vcos h wd wa ty => some (encL h 45 (wd.toNat * 262144 + wa.toNat * 32768 + ty.code + 16))
  | .vexp h wd wa ty => some (encL h 45 (wd.toNat * 262144 + wa.toNat * 32768 + ty.code + 32))
  | .vlog2 h wd wa ty => some (encL h 45 (wd.toNat * 262144 + wa.toNat * 32768 + ty.code + 48))
  | .vrsqrt h wd wa ty => some (encL h 45 (wd.toNat * 262144 + wa.toNat * 32768 + ty.code + 64))
  | .vrcp h wd wa ty => some (encL h 45 (wd.toNat * 262144 + wa.toNat * 32768 + ty.code + 80))
  | .vrsum h wd wa ty => some (encL h 46 (wd.toNat * 262144 + wa.toNat * 32768 + ty.code))
  | .vrmax h wd wa ty => some (encL h 46 (wd.toNat * 262144 + wa.toNat * 32768 + ty.code + 16))
  | .vrmin h wd wa ty => some (encL h 46 (wd.toNat * 262144 + wa.toNat * 32768 + ty.code + 32))
  | .rowcpy h rd ra ty => some (encL h 47 (rd.toNat * 131072 + ra.toNat * 8192 + ty.code))
  | .rowzero h rd ty => some (encL h 47 (rd.toNat * 131072 + ty.code + 16))
  | .rowadd h rd ra rb ty => some (encL h 47 (rd.toNat * 131072 + ra.toNat * 8192 + rb.toNat * 512 + ty.code + 32))
  | .rowmul h rd ra rb ty => some (encL h 47 (rd.toNat * 131072 + ra.toNat * 8192 + rb.toNat * 512 + ty.code + 48))
  | .rowaxpy h rd ra rb ty => some (encL h 47 (rd.toNat * 131072 + ra.toNat * 8192 + rb.toNat * 512 + ty.code + 64))
  | .rowmax h rd ra rb ty => some (encL h 47 (rd.toNat * 131072 + ra.toNat * 8192 + rb.toNat * 512 + ty.code + 80))
  | .rowcvt h rd ra ty => some (encL h 47 (rd.toNat * 131072 + ra.toNat * 8192 + ty.code + 96))
  | .send h ra rb rc prio rl merge => some (encL h 48 (ra.toNat * 131072 + rb.toNat * 8192 + rc.toNat * 512 + prio.toNat * 128 + rl.toNat * 64 + merge.toNat * 32))
  | .sendp h ra rb rc prio rl => some (encL h 49 (ra.toNat * 131072 + rb.toNat * 8192 + rc.toNat * 512 + prio.toNat * 128 + rl.toNat * 64))
  | .sendc h ra rb rc prio rl => some (encL h 50 (ra.toNat * 131072 + rb.toNat * 8192 + rc.toNat * 512 + prio.toNat * 128 + rl.toNat * 64))
  | .recv h rd ra rb => some (encL h 51 (rd.toNat * 131072 + ra.toNat * 8192 + rb.toNat * 512))
  | .endCtx h => some (encL h 52 (0))
  | .rel h => some (encL h 52 (1))
  | .migrate h ra => some (encL h 52 (ra.toNat * 8192 + 2))
  | .yield h => some (encL h 52 (3))
  | .callat h ra rb rc prio rl => some (encL h 53 (ra.toNat * 131072 + rb.toNat * 8192 + rc.toNat * 512 + prio.toNat * 128 + rl.toNat * 64))
  | .barm h rd ra rb bar => some (encL h 54 (rd.toNat * 131072 + ra.toNat * 8192 + rb.toNat * 512 + bar.toNat))
  | .bara h rd ra rb bar => some (encL h 54 (rd.toNat * 131072 + ra.toNat * 8192 + rb.toNat * 512 + bar.toNat + 128))
  | .barw h rd ra rb bar => some (encL h 54 (rd.toNat * 131072 + ra.toNat * 8192 + rb.toNat * 512 + bar.toNat + 256))
  | .barq h rd ra rb bar => some (encL h 54 (rd.toNat * 131072 + ra.toNat * 8192 + rb.toNat * 512 + bar.toNat + 384))
  | .scnew h rd ra rb => some (encL h 55 (rd.toNat * 131072 + ra.toNat * 8192 + rb.toNat * 512))
  | .scstat h rd ra rb => some (encL h 55 (rd.toNat * 131072 + ra.toNat * 8192 + rb.toNat * 512 + 1))
  | .prune h tkd ra rb => some (encL h 55 (tkd.toNat * 131072 + ra.toNat * 8192 + rb.toNat * 512 + 2))
  | .resumeW h rx ra rb => some (encL h 55 (rx.toNat * 131072 + ra.toNat * 8192 + rb.toNat * 512 + 3))
  | .copy h tkd tka tkb tkc cb => some (encL h 56 (tkd.toNat * 262144 + tka.toNat * 32768 + tkb.toNat * 4096 + tkc.toNat * 512 + cb.toNat * 32))
  | .copys h tkd tka tkb tkc cb => some (encL h 56 (tkd.toNat * 262144 + tka.toNat * 32768 + tkb.toNat * 4096 + tkc.toNat * 512 + cb.toNat * 32 + 1))
  | .walk h tkd tka tkb tkc cb => some (encL h 57 (tkd.toNat * 262144 + tka.toNat * 32768 + tkb.toNat * 4096 + tkc.toNat * 512 + cb.toNat * 32))
  | .dedup h rd ra => some (encL h 57 (rd.toNat * 131072 + ra.toNat * 8192 + 1))
  | .emit h rd ra => some (encL h 57 (rd.toNat * 131072 + ra.toNat * 8192 + 2))
  | .slot h ra rb => some (encL h 57 (ra.toNat * 8192 + rb.toNat * 512 + 3))
  | .dispatch h tkd tka tkb tkc cb => some (encL h 58 (tkd.toNat * 262144 + tka.toNat * 32768 + tkb.toNat * 4096 + tkc.toNat * 512 + cb.toNat * 32))
  | .combine h tkd tka tkb tkc cb => some (encL h 58 (tkd.toNat * 262144 + tka.toNat * 32768 + tkb.toNat * 4096 + tkc.toNat * 512 + cb.toNat * 32 + 1))
  | .djob h tkd tka tkb tkc cb => some (encL h 59 (tkd.toNat * 262144 + tka.toNat * 32768 + tkb.toNat * 4096 + tkc.toNat * 512 + cb.toNat * 32))
  | .trap h k => some (encL h 60 (k.toNat * 512))
  | .eret h ra => some (encL h 60 (ra.toNat * 131072 + 1))
  | .mfs h rd k => some (encL h 60 (rd.toNat * 131072 + k.toNat * 512 + 2))
  | .mts h ra k => some (encL h 60 (ra.toNat * 131072 + k.toNat * 512 + 3))
  | .breakTrap h k => some (encL h 60 (k.toNat * 512 + 4))
  | .pause h k => some (encL h 60 (k.toNat * 512 + 5))
  | .halt h => some (encL h 60 (6))
  | .nop h => some (encL h 60 (7))
  | .dsNopS => some (0)
  | .dAdd dd da db => some (134217728 + dd.toNat * 4194304 + da.toNat * 131072 + db.toNat * 4096)
  | .dSub dd da db => some (268435456 + dd.toNat * 4194304 + da.toNat * 131072 + db.toNat * 4096)
  | .dAnd dd da db => some (402653184 + dd.toNat * 4194304 + da.toNat * 131072 + db.toNat * 4096)
  | .dOr dd da db => some (536870912 + dd.toNat * 4194304 + da.toNat * 131072 + db.toNat * 4096)
  | .dXor dd da db => some (671088640 + dd.toNat * 4194304 + da.toNat * 131072 + db.toNat * 4096)
  | .dSll dd da db => some (805306368 + dd.toNat * 4194304 + da.toNat * 131072 + db.toNat * 4096)
  | .dSrl dd da db => some (939524096 + dd.toNat * 4194304 + da.toNat * 131072 + db.toNat * 4096)
  | .dMul dd da db => some (1073741824 + dd.toNat * 4194304 + da.toNat * 131072 + db.toNat * 4096)
  | .dAddi dd da imm => some (1207959552 + dd.toNat * 4194304 + da.toNat * 131072 + imm.toNat)
  | .dLui dd imm => some (1342177280 + dd.toNat * 4194304 + imm.toNat)
  | .dBeq da db off => some (1476395008 + da.toNat * 4194304 + db.toNat * 131072 + off.toNat)
  | .dBne da db off => some (1610612736 + da.toNat * 4194304 + db.toNat * 131072 + off.toNat)
  | .dBlt da db off => some (1744830464 + da.toNat * 4194304 + db.toNat * 131072 + off.toNat)
  | .dJmp off => some (1879048192 + off.toNat)
  | .jget dd => some (2013265920 + dd.toNat * 4194304)
  | .jdone da => some (2147483648 + da.toNat * 4194304)
  | .agset an sel da => some (2281701376 + an.toNat * 8388608 + sel.code * 2097152 + da.toNat * 65536)
  | .dret => some (2415919104)
  | .dmfs dd sel => some (2550136832 + dd.toNat * 4194304 + sel.code * 131072)
  | .dsNopL => some (0)
  | .xin an am => some (134217728 + an.toNat * 8388608 + am.toNat * 524288)
  | .xout an am => some (268435456 + an.toNat * 8388608 + am.toNat * 524288)
  | .ldd dd an => some (402653184 + dd.toNat * 4194304 + an.toNat * 262144)
  | .std dd an => some (536870912 + dd.toNat * 4194304 + an.toNat * 262144)
  | .dbcpy an am => some (671088640 + an.toNat * 8388608 + am.toNat * 524288)
  | .dsNopM => some (0)
  | .mlw an => some (134217728 + an.toNat * 8388608)
  | .mlwt an => some (268435456 + an.toNat * 8388608)
  | .mswap => some (402653184)
  | .mst bank an acc => some (536870912 + bank.toNat * 16777216 + an.toNat * 1048576 + acc.toNat * 524288)
  | .mstz bank an acc az => some (671088640 + bank.toNat * 16777216 + an.toNat * 1048576 + acc.toNat * 524288 + az.toNat * 32768)
  | .mdrain bank an fmt => some (805306368 + bank.toNat * 16777216 + an.toNat * 1048576 + fmt.toNat * 65536)
  | .mzero mask => some (939524096 + mask.toNat * 524288)
  | .mpark => some (1073741824)
  | .munpark => some (1207959552)
  | .dsNopV => some (0)
  | .vbias bank an => some (134217728 + bank.toNat * 16777216 + an.toNat * 1048576)
  | .vscale bank da => some (268435456 + bank.toNat * 16777216 + da.toNat * 524288)
  | .vrelu bank => some (402653184 + bank.toNat * 16777216)
  | .vclamp bank da db => some (536870912 + bank.toNat * 16777216 + da.toNat * 524288 + db.toNat * 16384)
  | .vgelu bank => some (671088640 + bank.toNat * 16777216)
  | .latchComplete => none
  | .memoryReply => none
  | .l1FillReply => none
  | .tilePageFill => none
  | .fenceComplete => none
  | .reclaimComplete => none
  | .closeComplete => none
  | .scopeUnitReply => none
  | .pauseExpiry => none
  | .killTaken => none
  | .contextSwitchOut => none
  | .messageArrival => none
  | .handlerStart => none
  | .nackRetry => none
  | .nackFlitArrival => none
  | .ackFlitArrival => none
  | .skipFlitArrival => none
  | .flitArrival => none
  | .starveSignal => none
  | .goldenEpoch => none
  | .torusLinkFail => none
  | .sidebandResend => none
  | .migrateComplete => none
  | .builtinLoad => none
  | .builtinLoadNc => none
  | .builtinStore => none
  | .builtinLoad32 => none
  | .builtinStore32 => none
  | .builtinLdv => none
  | .builtinStv => none
  | .builtinAtomAdd => none
  | .builtinAtomAnd => none
  | .builtinAtomOr => none
  | .builtinAtomXor => none
  | .builtinAtomSmin => none
  | .builtinAtomSmax => none
  | .builtinAtomSwap => none
  | .builtinAtomCas => none
  | .builtinAtomFaddF32 => none
  | .builtinAtomFaddF64 => none
  | .builtinBadop => none
  | .rowRequest => none
  | .rowAccumulatePart => none
  | .closeNotice => none
  | .flushDemand => none
  | .rowLanding => none
  | .childArrival => none
  | .barrierRelease => none
  | .brokenNotice => none
  | .resumeBuiltin => none
  | .switchOut => none
  | .switchIn => none
  | .attention => none
  | .launchFanout => none
  | .waveRequest => none
  | .waveReport => none
  | .launchRelease => none
  | .killNotice => none
  | .pruneAcknowledgement => none
  | .pruneLinkwaitExpiry => none
  | .resetReport => none
  | .tileSpaceRequest => none
  | .tileSpaceGrant => none
  | .scopeRequest => none
  | .scopeBinding => none
  | .translationRequest => none
  | .pageWalkComplete => none
  | .homeAccess => none
  | .reclaimFloorNotice => none
  | .remoteTileAccess => none
  | .poisonError => none
  | .copyCommandAccept => none
  | .copyStart => none
  | .copyPart => none
  | .copyPartDone => none
  | .continuationProbe => none
  | .tokenNotice => none
  | .walkCommandAccept => none
  | .walkStart => none
  | .iwLineRun => none
  | .tdeCommandAccept => none
  | .dispatchStart => none
  | .exchangeCounts => none
  | .tdeAbort => none
  | .dispatchEnd => none
  | .combineStart => none
  | .combineEnd => none
  | .djobAccept => none
  | .jobGrant => none
  | .dsResultWrite => none
  | .dsTransferDone => none
  | .dsTransferFault => none
  | .dsReset => none
  | .launchSubmission => none
  | .distributorSelect => none
  | .launchLoadDone => none
  | .waveStart => none
  | .launchEnd => none
  | .custodyRecordSigned => none
  | .budgetPeriod => none
  | .lcReset => none
  | .lcResetEnd => none
  | .powerGate => none
  | .migrateRedirectNotice => none
  | .migrateMarkerReply => none
  | .migrateEndOfForwarding => none
  | .redirectRelease => none
  | .rekeyGranule => none
  | .linkFlitReceive => none
  | .replayRequest => none
  | .portRetrain => none
  | .portRemap => none
  | .portDown => none
  | .trainingComplete => none
  | .session => none
  | .bramblePacket => none
  | .tack => none
  | .tnack => none
  | .tackTimer => none
  | .transportResend => none
  | .packetAbandon => none
  | .keepalive => none
  | .brel => none
  | .mreqResend => none
  | .linkwaitExpiry => none
  | .bridgeLaneFail => none
  | .indb => none
  | .lwdb => none
  | .registerWrite => none
  | .msixUnmask => none
  | .rscmd => none
  | .resyncReady => none
  | .psetup => none
  | .ptear => none
  | .xlinv => none
  | .regionCmd => none
  | .smcMigrate => none
  | .watchCmd => none
  | .budgetCmd => none
  | .fserv => none
  | .qprio => none
  | .modid => none
  | .pcap => none
  | .rekey => none
  | .groupCmd => none
  | .fsload => none
  | .smcCommandComplete => none
  | .custseq => none
  | .mevent => none
  | .getVersion => none
  | .getCapabilities => none
  | .negotiateAlgorithms => none
  | .getDigests => none
  | .getCertificate => none
  | .challenge => none
  | .getMeasurements => none
  | .keyExchange => none
  | .finish => none
  | .keyUpdate => none
  | .endSession => none
  | .ideKeyProgram => none
  | .i3cPcapWrite => none
  | .firmwareStagingWrite => none
  | .powerReport => none
  | .thermalStepDown => none
  | .thermalStepUp => none
  | .thermalEmergency => none
  | .thermalTrip => none
  | .pcapAdjust => none
  | .smcTakeover => none
  | .lcTakeover => none
  | .spareBringIn => none
  | .moduleReset => none
  | .dsWordComplete => none
  | .rowWordComplete => none
  | .relordRelease => none
  | .ungatingEnd => none
  | .sessionCounterLimit => none
  | .moderationExpiry => none
  | .tnackResend => none

/-- The slot of a D-code instruction: 0 S, 1 L, 2 M, 3 V (spec 03 R94); none for every other instruction. -/
def Instr.dslot : Instr → Option Nat
  | .add .. => none
  | .sub .. => none
  | .andR .. => none
  | .orR .. => none
  | .xorR .. => none
  | .andn .. => none
  | .sll .. => none
  | .srl .. => none
  | .sra .. => none
  | .mul .. => none
  | .mulh .. => none
  | .divS .. => none
  | .divu .. => none
  | .remS .. => none
  | .remu .. => none
  | .minS .. => none
  | .maxS .. => none
  | .minu .. => none
  | .maxu .. => none
  | .mov .. => none
  | .clz .. => none
  | .popc .. => none
  | .addi .. => none
  | .andi .. => none
  | .ori .. => none
  | .xori .. => none
  | .slli .. => none
  | .srli .. => none
  | .srai .. => none
  | .lui .. => none
  | .auipc .. => none
  | .cmpEq .. => none
  | .cmpNe .. => none
  | .cmpLt .. => none
  | .cmpGe .. => none
  | .cmpLtu .. => none
  | .cmpGeu .. => none
  | .cmpiEq .. => none
  | .cmpiNe .. => none
  | .cmpiLt .. => none
  | .cmpiGe .. => none
  | .cmpiLtu .. => none
  | .cmpiGeu .. => none
  | .pand .. => none
  | .por .. => none
  | .pxor .. => none
  | .pandn .. => none
  | .pnot .. => none
  | .pset .. => none
  | .prd .. => none
  | .pwr .. => none
  | .br .. => none
  | .call .. => none
  | .jr .. => none
  | .jalr .. => none
  | .loopW .. => none
  | .ld .. => none
  | .st .. => none
  | .ldNc .. => none
  | .ldw .. => none
  | .stw .. => none
  | .ldv .. => none
  | .ldvW .. => none
  | .stv .. => none
  | .stvW .. => none
  | .atomAdd .. => none
  | .atomAnd .. => none
  | .atomOr .. => none
  | .atomXor .. => none
  | .atomSmin .. => none
  | .atomSmax .. => none
  | .atomSwap .. => none
  | .atomCas .. => none
  | .atomFaddF32 .. => none
  | .atomFaddF64 .. => none
  | .aacc .. => none
  | .aaccL .. => none
  | .fenceAcq .. => none
  | .fenceRel .. => none
  | .fenceFull .. => none
  | .fenceX .. => none
  | .fenceAcqSys .. => none
  | .fenceRelSys .. => none
  | .fenceFullSys .. => none
  | .fenceXSys .. => none
  | .l1inv .. => none
  | .l1pf .. => none
  | .seal .. => none
  | .unseal .. => none
  | .reclaim .. => none
  | .closeStep .. => none
  | .hmake .. => none
  | .hnarrow .. => none
  | .fadd .. => none
  | .fsub .. => none
  | .fmul .. => none
  | .fdiv .. => none
  | .fmin .. => none
  | .fmax .. => none
  | .fsqrt .. => none
  | .fneg .. => none
  | .fma .. => none
  | .fms .. => none
  | .fcmpEq .. => none
  | .fcmpLt .. => none
  | .fcmpLe .. => none
  | .fcmpUn .. => none
  | .fcvtF2f .. => none
  | .fcvtF2i .. => none
  | .fcvtF2u .. => none
  | .fcvtI2f .. => none
  | .fcvtU2f .. => none
  | .fclass .. => none
  | .vadd .. => none
  | .vsub .. => none
  | .vmul .. => none
  | .vmin .. => none
  | .vmax .. => none
  | .vabs .. => none
  | .vneg .. => none
  | .vand .. => none
  | .vor .. => none
  | .vxor .. => none
  | .vshl .. => none
  | .vshr .. => none
  | .vfma .. => none
  | .vfms .. => none
  | .vcvt .. => none
  | .vpack .. => none
  | .vunpklo .. => none
  | .vunpkhi .. => none
  | .vswp2 .. => none
  | .vrev .. => none
  | .vshuf .. => none
  | .vrot .. => none
  | .vbcast .. => none
  | .vext .. => none
  | .vins .. => none
  | .vsplat .. => none
  | .vcmpEq .. => none
  | .vcmpLt .. => none
  | .vcmpLe .. => none
  | .vsel .. => none
  | .vnz .. => none
  | .vsin .. => none
  | .vcos .. => none
  | .vexp .. => none
  | .vlog2 .. => none
  | .vrsqrt .. => none
  | .vrcp .. => none
  | .vrsum .. => none
  | .vrmax .. => none
  | .vrmin .. => none
  | .rowcpy .. => none
  | .rowzero .. => none
  | .rowadd .. => none
  | .rowmul .. => none
  | .rowaxpy .. => none
  | .rowmax .. => none
  | .rowcvt .. => none
  | .send .. => none
  | .sendp .. => none
  | .sendc .. => none
  | .recv .. => none
  | .endCtx .. => none
  | .rel .. => none
  | .migrate .. => none
  | .yield .. => none
  | .callat .. => none
  | .barm .. => none
  | .bara .. => none
  | .barw .. => none
  | .barq .. => none
  | .scnew .. => none
  | .scstat .. => none
  | .prune .. => none
  | .resumeW .. => none
  | .copy .. => none
  | .copys .. => none
  | .walk .. => none
  | .dedup .. => none
  | .emit .. => none
  | .slot .. => none
  | .dispatch .. => none
  | .combine .. => none
  | .djob .. => none
  | .trap .. => none
  | .eret .. => none
  | .mfs .. => none
  | .mts .. => none
  | .breakTrap .. => none
  | .pause .. => none
  | .halt .. => none
  | .nop .. => none
  | .dsNopS => some 0
  | .dAdd .. => some 0
  | .dSub .. => some 0
  | .dAnd .. => some 0
  | .dOr .. => some 0
  | .dXor .. => some 0
  | .dSll .. => some 0
  | .dSrl .. => some 0
  | .dMul .. => some 0
  | .dAddi .. => some 0
  | .dLui .. => some 0
  | .dBeq .. => some 0
  | .dBne .. => some 0
  | .dBlt .. => some 0
  | .dJmp .. => some 0
  | .jget .. => some 0
  | .jdone .. => some 0
  | .agset .. => some 0
  | .dret => some 0
  | .dmfs .. => some 0
  | .dsNopL => some 1
  | .xin .. => some 1
  | .xout .. => some 1
  | .ldd .. => some 1
  | .std .. => some 1
  | .dbcpy .. => some 1
  | .dsNopM => some 2
  | .mlw .. => some 2
  | .mlwt .. => some 2
  | .mswap => some 2
  | .mst .. => some 2
  | .mstz .. => some 2
  | .mdrain .. => some 2
  | .mzero .. => some 2
  | .mpark => some 2
  | .munpark => some 2
  | .dsNopV => some 3
  | .vbias .. => some 3
  | .vscale .. => some 3
  | .vrelu .. => some 3
  | .vclamp .. => some 3
  | .vgelu .. => some 3
  | .latchComplete => none
  | .memoryReply => none
  | .l1FillReply => none
  | .tilePageFill => none
  | .fenceComplete => none
  | .reclaimComplete => none
  | .closeComplete => none
  | .scopeUnitReply => none
  | .pauseExpiry => none
  | .killTaken => none
  | .contextSwitchOut => none
  | .messageArrival => none
  | .handlerStart => none
  | .nackRetry => none
  | .nackFlitArrival => none
  | .ackFlitArrival => none
  | .skipFlitArrival => none
  | .flitArrival => none
  | .starveSignal => none
  | .goldenEpoch => none
  | .torusLinkFail => none
  | .sidebandResend => none
  | .migrateComplete => none
  | .builtinLoad => none
  | .builtinLoadNc => none
  | .builtinStore => none
  | .builtinLoad32 => none
  | .builtinStore32 => none
  | .builtinLdv => none
  | .builtinStv => none
  | .builtinAtomAdd => none
  | .builtinAtomAnd => none
  | .builtinAtomOr => none
  | .builtinAtomXor => none
  | .builtinAtomSmin => none
  | .builtinAtomSmax => none
  | .builtinAtomSwap => none
  | .builtinAtomCas => none
  | .builtinAtomFaddF32 => none
  | .builtinAtomFaddF64 => none
  | .builtinBadop => none
  | .rowRequest => none
  | .rowAccumulatePart => none
  | .closeNotice => none
  | .flushDemand => none
  | .rowLanding => none
  | .childArrival => none
  | .barrierRelease => none
  | .brokenNotice => none
  | .resumeBuiltin => none
  | .switchOut => none
  | .switchIn => none
  | .attention => none
  | .launchFanout => none
  | .waveRequest => none
  | .waveReport => none
  | .launchRelease => none
  | .killNotice => none
  | .pruneAcknowledgement => none
  | .pruneLinkwaitExpiry => none
  | .resetReport => none
  | .tileSpaceRequest => none
  | .tileSpaceGrant => none
  | .scopeRequest => none
  | .scopeBinding => none
  | .translationRequest => none
  | .pageWalkComplete => none
  | .homeAccess => none
  | .reclaimFloorNotice => none
  | .remoteTileAccess => none
  | .poisonError => none
  | .copyCommandAccept => none
  | .copyStart => none
  | .copyPart => none
  | .copyPartDone => none
  | .continuationProbe => none
  | .tokenNotice => none
  | .walkCommandAccept => none
  | .walkStart => none
  | .iwLineRun => none
  | .tdeCommandAccept => none
  | .dispatchStart => none
  | .exchangeCounts => none
  | .tdeAbort => none
  | .dispatchEnd => none
  | .combineStart => none
  | .combineEnd => none
  | .djobAccept => none
  | .jobGrant => none
  | .dsResultWrite => none
  | .dsTransferDone => none
  | .dsTransferFault => none
  | .dsReset => none
  | .launchSubmission => none
  | .distributorSelect => none
  | .launchLoadDone => none
  | .waveStart => none
  | .launchEnd => none
  | .custodyRecordSigned => none
  | .budgetPeriod => none
  | .lcReset => none
  | .lcResetEnd => none
  | .powerGate => none
  | .migrateRedirectNotice => none
  | .migrateMarkerReply => none
  | .migrateEndOfForwarding => none
  | .redirectRelease => none
  | .rekeyGranule => none
  | .linkFlitReceive => none
  | .replayRequest => none
  | .portRetrain => none
  | .portRemap => none
  | .portDown => none
  | .trainingComplete => none
  | .session => none
  | .bramblePacket => none
  | .tack => none
  | .tnack => none
  | .tackTimer => none
  | .transportResend => none
  | .packetAbandon => none
  | .keepalive => none
  | .brel => none
  | .mreqResend => none
  | .linkwaitExpiry => none
  | .bridgeLaneFail => none
  | .indb => none
  | .lwdb => none
  | .registerWrite => none
  | .msixUnmask => none
  | .rscmd => none
  | .resyncReady => none
  | .psetup => none
  | .ptear => none
  | .xlinv => none
  | .regionCmd => none
  | .smcMigrate => none
  | .watchCmd => none
  | .budgetCmd => none
  | .fserv => none
  | .qprio => none
  | .modid => none
  | .pcap => none
  | .rekey => none
  | .groupCmd => none
  | .fsload => none
  | .smcCommandComplete => none
  | .custseq => none
  | .mevent => none
  | .getVersion => none
  | .getCapabilities => none
  | .negotiateAlgorithms => none
  | .getDigests => none
  | .getCertificate => none
  | .challenge => none
  | .getMeasurements => none
  | .keyExchange => none
  | .finish => none
  | .keyUpdate => none
  | .endSession => none
  | .ideKeyProgram => none
  | .i3cPcapWrite => none
  | .firmwareStagingWrite => none
  | .powerReport => none
  | .thermalStepDown => none
  | .thermalStepUp => none
  | .thermalEmergency => none
  | .thermalTrip => none
  | .pcapAdjust => none
  | .smcTakeover => none
  | .lcTakeover => none
  | .spareBringIn => none
  | .moduleReset => none
  | .dsWordComplete => none
  | .rowWordComplete => none
  | .relordRelease => none
  | .ungatingEnd => none
  | .sessionCounterLimit => none
  | .moderationExpiry => none
  | .tnackResend => none

/-- The instruction the decoder reads from the L-code word w of nbits bits, numbered as the opcode table numbers them. A D-code or
event row has no bits in the table. -/
def decodeTableWord (nbits w : Nat) : Option Instr :=
  if nbits ≤ 32 then
    match decodeL w with
    | .ok i => some i
    | .error _ => none
  else none

end Sys2Proof
end

