-- ==== Sys2Proof/Machine/Groups.lean ====
section
/-! DEFINITION. Fetching and checking a group: the read and write sets of every word, the placement rules, and the index-walker profile
(spec 03 R84 to R89, R93; 05 R142). A set of registers is a mask: bits 15:0 g, 31:16 p, 39:32 w, 47:40 tk. -/

namespace Sys2Proof.Machine

def gBit (r : BitVec 4) : BitVec 48 := 1#48 <<< r.toNat
/-- p0 belongs to no set. -/
def pBit (r : BitVec 4) : BitVec 48 := if r = 0 then 0 else 1#48 <<< (16 + r.toNat)
def wBit (r : BitVec 3) : BitVec 48 := 1#48 <<< (32 + r.toNat)
/-- tk0 belongs to no set. -/
def tkBit (r : BitVec 3) : BitVec 48 := if r = 0 then 0 else 1#48 <<< (40 + r.toNat)
/-- g[r] to g[r + n − 1]. -/
def gRun (r : BitVec 4) (n : Nat) : BitVec 48 := ((1#48 <<< n) - 1) <<< r.toNat
/-- p1 to p15. -/
def pAll : BitVec 48 := 0xFFFE0000#48

/-- What a word reads and writes for R87, its guard apart. -/
structure RegSets where
  reads : BitVec 48 := 0
  writes : BitVec 48 := 0
  deriving DecidableEq, Repr

/-- The sets of a word (spec 03 R87; 08 R225 takes the writes of recv out). -/
def regSets : Instr → RegSets
  | .add _ rd ra rb => ⟨gBit ra ||| gBit rb, gBit rd⟩
  | .sub _ rd ra rb => ⟨gBit ra ||| gBit rb, gBit rd⟩
  | .andR _ rd ra rb => ⟨gBit ra ||| gBit rb, gBit rd⟩
  | .orR _ rd ra rb => ⟨gBit ra ||| gBit rb, gBit rd⟩
  | .xorR _ rd ra rb => ⟨gBit ra ||| gBit rb, gBit rd⟩
  | .andn _ rd ra rb => ⟨gBit ra ||| gBit rb, gBit rd⟩
  | .sll _ rd ra rb => ⟨gBit ra ||| gBit rb, gBit rd⟩
  | .srl _ rd ra rb => ⟨gBit ra ||| gBit rb, gBit rd⟩
  | .sra _ rd ra rb => ⟨gBit ra ||| gBit rb, gBit rd⟩
  | .mul _ rd ra rb => ⟨gBit ra ||| gBit rb, gBit rd⟩
  | .mulh _ rd ra rb => ⟨gBit ra ||| gBit rb, gBit rd⟩
  | .divS _ rd ra rb => ⟨gBit ra ||| gBit rb, gBit rd⟩
  | .divu _ rd ra rb => ⟨gBit ra ||| gBit rb, gBit rd⟩
  | .remS _ rd ra rb => ⟨gBit ra ||| gBit rb, gBit rd⟩
  | .remu _ rd ra rb => ⟨gBit ra ||| gBit rb, gBit rd⟩
  | .minS _ rd ra rb => ⟨gBit ra ||| gBit rb, gBit rd⟩
  | .maxS _ rd ra rb => ⟨gBit ra ||| gBit rb, gBit rd⟩
  | .minu _ rd ra rb => ⟨gBit ra ||| gBit rb, gBit rd⟩
  | .maxu _ rd ra rb => ⟨gBit ra ||| gBit rb, gBit rd⟩
  | .mov _ rd ra => ⟨gBit ra, gBit rd⟩
  | .clz _ rd ra => ⟨gBit ra, gBit rd⟩
  | .popc _ rd ra => ⟨gBit ra, gBit rd⟩
  | .addi _ rd ra _ => ⟨gBit ra, gBit rd⟩
  | .andi _ rd ra _ => ⟨gBit ra, gBit rd⟩
  | .ori _ rd ra _ => ⟨gBit ra, gBit rd⟩
  | .xori _ rd ra _ => ⟨gBit ra, gBit rd⟩
  | .slli _ rd ra _ => ⟨gBit ra, gBit rd⟩
  | .srli _ rd ra _ => ⟨gBit ra, gBit rd⟩
  | .srai _ rd ra _ => ⟨gBit ra, gBit rd⟩
  | .lui _ rd _ => ⟨0, gBit rd⟩
  | .auipc _ rd _ => ⟨0, gBit rd⟩
  | .cmpEq _ rd ra rb => ⟨gBit ra ||| gBit rb, pBit rd⟩
  | .cmpNe _ rd ra rb => ⟨gBit ra ||| gBit rb, pBit rd⟩
  | .cmpLt _ rd ra rb => ⟨gBit ra ||| gBit rb, pBit rd⟩
  | .cmpGe _ rd ra rb => ⟨gBit ra ||| gBit rb, pBit rd⟩
  | .cmpLtu _ rd ra rb => ⟨gBit ra ||| gBit rb, pBit rd⟩
  | .cmpGeu _ rd ra rb => ⟨gBit ra ||| gBit rb, pBit rd⟩
  | .cmpiEq _ rd ra _ => ⟨gBit ra, pBit rd⟩
  | .cmpiNe _ rd ra _ => ⟨gBit ra, pBit rd⟩
  | .cmpiLt _ rd ra _ => ⟨gBit ra, pBit rd⟩
  | .cmpiGe _ rd ra _ => ⟨gBit ra, pBit rd⟩
  | .cmpiLtu _ rd ra _ => ⟨gBit ra, pBit rd⟩
  | .cmpiGeu _ rd ra _ => ⟨gBit ra, pBit rd⟩
  | .pand _ rd ra rb => ⟨pBit ra ||| pBit rb, pBit rd⟩
  | .por _ rd ra rb => ⟨pBit ra ||| pBit rb, pBit rd⟩
  | .pxor _ rd ra rb => ⟨pBit ra ||| pBit rb, pBit rd⟩
  | .pandn _ rd ra rb => ⟨pBit ra ||| pBit rb, pBit rd⟩
  | .pnot _ rd ra => ⟨pBit ra, pBit rd⟩
  | .pset _ rd _ => ⟨0, pBit rd⟩
  | .prd _ rd => ⟨pAll, gBit rd⟩
  | .pwr _ ra => ⟨gBit ra, pAll⟩
  | .br .. => {}
  | .call _ _ => ⟨0, gBit 15⟩
  | .jr _ ra => ⟨gBit ra, 0⟩
  | .jalr _ rd ra => ⟨gBit ra, gBit rd⟩
  | .loopW _ ra _ => ⟨gBit ra, gBit ra⟩
  | .ld _ rd ra _ _ _ => ⟨gBit ra, gBit rd⟩
  | .st _ rd ra _ _ => ⟨gBit ra ||| gBit rd, 0⟩
  | .ldNc _ rd ra _ _ _ => ⟨gBit ra, gBit rd⟩
  | .ldw _ wv ra _ => ⟨gBit ra, wBit wv⟩
  | .stw _ wv ra _ => ⟨gBit ra ||| wBit wv, 0⟩
  | .ldv _ rd ra rb => ⟨gBit ra ||| gBit rb, gBit rd⟩
  | .ldvW _ wv ra rb => ⟨gBit ra ||| gBit rb, wBit wv⟩
  | .stv _ rd ra rb => ⟨gBit ra ||| gBit rb ||| gBit rd, 0⟩
  | .stvW _ wv ra rb => ⟨gBit ra ||| gBit rb ||| wBit wv, 0⟩
  | .atomAdd _ rd ra rb _ _ => ⟨gBit ra ||| gBit rb, gBit rd⟩
  | .atomAnd _ rd ra rb _ _ => ⟨gBit ra ||| gBit rb, gBit rd⟩
  | .atomOr _ rd ra rb _ _ => ⟨gBit ra ||| gBit rb, gBit rd⟩
  | .atomXor _ rd ra rb _ _ => ⟨gBit ra ||| gBit rb, gBit rd⟩
  | .atomSmin _ rd ra rb _ _ => ⟨gBit ra ||| gBit rb, gBit rd⟩
  | .atomSmax _ rd ra rb _ _ => ⟨gBit ra ||| gBit rb, gBit rd⟩
  | .atomSwap _ rd ra rb _ _ => ⟨gBit ra ||| gBit rb, gBit rd⟩
  | .atomCas _ rd ra rb _ _ => ⟨gBit ra ||| gBit rb ||| gBit rd, gBit rd⟩
  | .atomFaddF32 _ rd ra rb _ => ⟨gBit ra ||| gBit rb, gBit rd⟩
  | .atomFaddF64 _ rd ra rb _ => ⟨gBit ra ||| gBit rb, gBit rd⟩
  | .aacc _ rd ra rb => ⟨gBit ra ||| gBit rb ||| gBit rd, 0⟩
  | .aaccL _ rd ra rb => ⟨gBit ra ||| gBit rb ||| gBit rd, 0⟩
  | .fenceAcq _ ra rb => ⟨gBit ra ||| gBit rb, 0⟩
  | .fenceRel _ ra rb => ⟨gBit ra ||| gBit rb, 0⟩
  | .fenceFull _ ra rb => ⟨gBit ra ||| gBit rb, 0⟩
  | .fenceX _ ra rb => ⟨gBit ra ||| gBit rb, 0⟩
  | .fenceAcqSys _ rd ra rb => ⟨gBit ra ||| gBit rb, gBit rd⟩
  | .fenceRelSys _ rd ra rb => ⟨gBit ra ||| gBit rb, gBit rd⟩
  | .fenceFullSys _ rd ra rb => ⟨gBit ra ||| gBit rb, gBit rd⟩
  | .fenceXSys _ rd ra rb => ⟨gBit ra ||| gBit rb, gBit rd⟩
  | .l1inv _ ra rb => ⟨gBit ra ||| gBit rb, 0⟩
  | .l1pf _ ra rb => ⟨gBit ra ||| gBit rb, 0⟩
  | .seal _ ra => ⟨gBit ra, 0⟩
  | .unseal _ ra rb => ⟨gBit ra ||| gBit rb, 0⟩
  | .reclaim _ ra rb => ⟨gBit ra ||| gBit rb, 0⟩
  | .closeStep _ rd ra rb => ⟨gBit ra ||| gBit rb, gBit rd⟩
  | .hmake _ rd ra rb => ⟨gBit ra ||| gBit rb, gBit rd⟩
  | .hnarrow _ rd ra rb => ⟨gBit ra ||| gBit rb, gBit rd⟩
  | .fadd _ rd ra rb _ => ⟨gBit ra ||| gBit rb, gBit rd⟩
  | .fsub _ rd ra rb _ => ⟨gBit ra ||| gBit rb, gBit rd⟩
  | .fmul _ rd ra rb _ => ⟨gBit ra ||| gBit rb, gBit rd⟩
  | .fdiv _ rd ra rb _ => ⟨gBit ra ||| gBit rb, gBit rd⟩
  | .fmin _ rd ra rb _ => ⟨gBit ra ||| gBit rb, gBit rd⟩
  | .fmax _ rd ra rb _ => ⟨gBit ra ||| gBit rb, gBit rd⟩
  | .fsqrt _ rd ra _ => ⟨gBit ra, gBit rd⟩
  | .fneg _ rd ra _ => ⟨gBit ra, gBit rd⟩
  | .fma _ rd ra rb _ => ⟨gBit ra ||| gBit rb ||| gBit rd, gBit rd⟩
  | .fms _ rd ra rb _ => ⟨gBit ra ||| gBit rb ||| gBit rd, gBit rd⟩
  | .fcmpEq _ rd ra rb _ => ⟨gBit ra ||| gBit rb, pBit rd⟩
  | .fcmpLt _ rd ra rb _ => ⟨gBit ra ||| gBit rb, pBit rd⟩
  | .fcmpLe _ rd ra rb _ => ⟨gBit ra ||| gBit rb, pBit rd⟩
  | .fcmpUn _ rd ra rb _ => ⟨gBit ra ||| gBit rb, pBit rd⟩
  | .fcvtF2f _ rd ra _ _ => ⟨gBit ra, gBit rd⟩
  | .fcvtF2i _ rd ra _ => ⟨gBit ra, gBit rd⟩
  | .fcvtF2u _ rd ra _ => ⟨gBit ra, gBit rd⟩
  | .fcvtI2f _ rd ra _ => ⟨gBit ra, gBit rd⟩
  | .fcvtU2f _ rd ra _ => ⟨gBit ra, gBit rd⟩
  | .fclass _ rd ra _ => ⟨gBit ra, gBit rd⟩
  | .vadd _ wd wa wb _ => ⟨wBit wa ||| wBit wb, wBit wd⟩
  | .vsub _ wd wa wb _ => ⟨wBit wa ||| wBit wb, wBit wd⟩
  | .vmul _ wd wa wb _ => ⟨wBit wa ||| wBit wb, wBit wd⟩
  | .vmin _ wd wa wb _ => ⟨wBit wa ||| wBit wb, wBit wd⟩
  | .vmax _ wd wa wb _ => ⟨wBit wa ||| wBit wb, wBit wd⟩
  | .vabs _ wd wa _ => ⟨wBit wa, wBit wd⟩
  | .vneg _ wd wa _ => ⟨wBit wa, wBit wd⟩
  | .vand _ wd wa wb _ => ⟨wBit wa ||| wBit wb, wBit wd⟩
  | .vor _ wd wa wb _ => ⟨wBit wa ||| wBit wb, wBit wd⟩
  | .vxor _ wd wa wb _ => ⟨wBit wa ||| wBit wb, wBit wd⟩
  | .vshl _ wd wa wb _ => ⟨wBit wa ||| wBit wb, wBit wd⟩
  | .vshr _ wd wa wb _ => ⟨wBit wa ||| wBit wb, wBit wd⟩
  | .vfma _ wd wa wb wc _ => ⟨wBit wa ||| wBit wb ||| wBit wc, wBit wd⟩
  | .vfms _ wd wa wb wc _ => ⟨wBit wa ||| wBit wb ||| wBit wc, wBit wd⟩
  | .vcvt _ wd wa _ => ⟨wBit wa, wBit wd⟩
  | .vpack _ wd wa wb _ => ⟨wBit wa ||| wBit wb, wBit wd⟩
  | .vunpklo _ wd wa _ => ⟨wBit wa, wBit wd⟩
  | .vunpkhi _ wd wa _ => ⟨wBit wa, wBit wd⟩
  | .vswp2 _ wd wa _ => ⟨wBit wa, wBit wd⟩
  | .vrev _ wd wa _ => ⟨wBit wa, wBit wd⟩
  | .vshuf _ wd wa wb _ => ⟨wBit wa ||| wBit wb, wBit wd⟩
  | .vrot _ wd wa _ _ => ⟨wBit wa, wBit wd⟩
  | .vbcast _ wd wa _ _ => ⟨wBit wa, wBit wd⟩
  | .vext _ wv rg _ _ => ⟨wBit wv, gBit rg⟩
  | .vins _ wv rg _ _ => ⟨gBit rg, wBit wv⟩
  | .vsplat _ wv rg _ => ⟨gBit rg, wBit wv⟩
  | .vcmpEq _ wd wa wb _ => ⟨wBit wa ||| wBit wb, wBit wd⟩
  | .vcmpLt _ wd wa wb _ => ⟨wBit wa ||| wBit wb, wBit wd⟩
  | .vcmpLe _ wd wa wb _ => ⟨wBit wa ||| wBit wb, wBit wd⟩
  | .vsel _ wd wa wb wc _ => ⟨wBit wa ||| wBit wb ||| wBit wc, wBit wd⟩
  | .vnz _ wd wa _ => ⟨wBit wa, wBit wd⟩
  | .vsin _ wd wa _ => ⟨wBit wa, wBit wd⟩
  | .vcos _ wd wa _ => ⟨wBit wa, wBit wd⟩
  | .vexp _ wd wa _ => ⟨wBit wa, wBit wd⟩
  | .vlog2 _ wd wa _ => ⟨wBit wa, wBit wd⟩
  | .vrsqrt _ wd wa _ => ⟨wBit wa, wBit wd⟩
  | .vrcp _ wd wa _ => ⟨wBit wa, wBit wd⟩
  | .vrsum _ wd wa _ => ⟨wBit wa, wBit wd⟩
  | .vrmax _ wd wa _ => ⟨wBit wa, wBit wd⟩
  | .vrmin _ wd wa _ => ⟨wBit wa, wBit wd⟩
  | .rowcpy _ rd ra _ => ⟨gBit ra ||| gBit rd, 0⟩
  | .rowzero _ rd _ => ⟨gBit rd, 0⟩
  | .rowadd _ rd ra rb _ => ⟨gBit ra ||| gBit rb ||| gBit rd, 0⟩
  | .rowmul _ rd ra rb _ => ⟨gBit ra ||| gBit rb ||| gBit rd, 0⟩
  | .rowaxpy _ rd ra rb _ => ⟨gBit ra ||| gBit rb ||| gBit rd, 0⟩
  | .rowmax _ rd ra rb _ => ⟨gBit ra ||| gBit rb ||| gBit rd, 0⟩
  | .rowcvt _ rd ra _ => ⟨gBit ra ||| gBit rd, 0⟩
  | .send _ ra rb rc _ _ _ => ⟨gBit ra ||| gBit rb ||| gRun rc 4, 0⟩
  | .sendp _ ra rb rc _ _ => ⟨gBit ra ||| gBit rb ||| gRun rc 5, 0⟩
  | .sendc _ ra rb rc _ _ => ⟨gBit ra ||| gBit rb ||| gRun rc 5, 0⟩
  | .recv _ _ ra rb => ⟨gBit ra ||| gBit rb, 0⟩
  | .endCtx .. => {}
  | .rel .. => {}
  | .migrate _ ra => ⟨gBit ra ||| gRun 0 10 ||| pAll, 0⟩
  | .yield .. => {}
  | .callat _ ra rb rc _ _ => ⟨gBit ra ||| gBit rb ||| gRun rc 4, 0⟩
  | .barm _ rd ra rb _ => ⟨gBit ra ||| gBit rb, gBit rd⟩
  | .bara _ rd ra rb _ => ⟨gBit ra ||| gBit rb, gBit rd⟩
  | .barw _ rd ra rb _ => ⟨gBit ra ||| gBit rb, gBit rd⟩
  | .barq _ rd ra rb _ => ⟨gBit ra ||| gBit rb, gBit rd⟩
  | .scnew _ rd ra rb => ⟨gBit ra ||| gBit rb, gBit rd⟩
  | .scstat _ rd ra rb => ⟨gBit ra ||| gBit rb, gBit rd⟩
  | .prune _ tkd ra rb => ⟨gBit ra ||| gBit rb, tkBit tkd⟩
  | .resumeW _ _ ra rb => ⟨gBit ra ||| gBit rb, 0⟩
  | .copy _ tkd tka tkb tkc cb => ⟨tkBit tka ||| tkBit tkb ||| tkBit tkc ||| gBit cb, tkBit tkd⟩
  | .copys _ tkd tka tkb tkc cb => ⟨tkBit tka ||| tkBit tkb ||| tkBit tkc ||| gBit cb, tkBit tkd⟩
  | .walk _ tkd tka tkb tkc cb => ⟨tkBit tka ||| tkBit tkb ||| tkBit tkc ||| gBit cb, tkBit tkd⟩
  | .dedup _ rd ra => ⟨gBit ra, gBit rd⟩
  | .emit _ rd ra => ⟨gBit ra, gBit rd⟩
  | .slot _ ra rb => ⟨gBit ra ||| gBit rb, 0⟩
  | .dispatch _ tkd tka tkb tkc cb => ⟨tkBit tka ||| tkBit tkb ||| tkBit tkc ||| gBit cb, tkBit tkd⟩
  | .combine _ tkd tka tkb tkc cb => ⟨tkBit tka ||| tkBit tkb ||| tkBit tkc ||| gBit cb, tkBit tkd⟩
  | .djob _ tkd tka tkb tkc cb => ⟨tkBit tka ||| tkBit tkb ||| tkBit tkc ||| gBit cb, tkBit tkd⟩
  | .trap .. => {}
  | .eret _ ra => ⟨gBit ra, 0⟩
  | .mfs _ rd _ => ⟨0, gBit rd⟩
  | .mts _ ra _ => ⟨gBit ra, 0⟩
  | .breakTrap .. => {}
  | .pause .. => {}
  | .halt .. => {}
  | .nop .. => {}
  -- words of the dense sequencer and events take part in no group
  | _ => {}

/-- Control transfers, which must stand last in their group (spec 03 R86). -/
def isTransfer : Instr → Bool
  | .br .. | .call .. | .jr .. | .jalr .. | .loopW .. | .recv .. | .endCtx .. | .migrate .. | .yield .. | .breakTrap .. | .pause .. => true
  | _ => false

/-- Words that stand alone in their group (spec 03 R86). -/
def isAlone : Instr → Bool
  | .trap .. | .eret .. | .halt .. => true
  | _ => false

/-- The send words, at most one in a group (spec 03 R86). -/
def isSend : Instr → Bool
  | .send .. | .sendp .. | .sendc .. | .callat .. => true
  | _ => false

/-- The engine words, at most one in a group (spec 03 R86). -/
def isEngine : Instr → Bool
  | .copy .. | .copys .. | .walk .. | .dispatch .. | .combine .. | .djob .. => true
  | _ => false

/-- Vector words whose result goes through a result latch (spec 01 R13; 06 R162). -/
def isLatched : Instr → Bool
  | .vadd .. | .vsub .. | .vmul .. | .vmin .. | .vmax .. | .vabs .. | .vneg .. | .vand .. | .vor .. | .vxor .. | .vshl .. | .vshr ..
    | .vfma .. | .vfms .. | .vcvt .. | .vpack .. | .vunpklo .. | .vunpkhi .. | .vswp2 .. | .vrev .. | .vshuf .. | .vrot .. | .vbcast ..
    | .vins .. | .vsplat .. | .vcmpEq .. | .vcmpLt .. | .vcmpLe .. | .vsel .. | .vnz .. | .vsin .. | .vcos .. | .vexp .. | .vlog2 ..
    | .vrsqrt .. | .vrcp .. | .vrsum .. | .vrmax .. | .vrmin .. => true
  | _ => false

/-- The walker words, ILLEGAL on an LC (spec 03 R92). -/
def walkerOnly : Instr → Bool
  | .dedup .. | .emit .. | .slot .. => true
  | _ => false

/-- The words of the index-walker profile (spec 03 R93). -/
def inProfile : Instr → Bool
  | .add .. | .sub .. | .andR .. | .orR .. | .xorR .. | .andn .. | .sll .. | .srl .. | .sra .. | .mul .. | .mulh .. | .divS .. | .divu ..
    | .remS .. | .remu .. | .minS .. | .maxS .. | .minu .. | .maxu .. | .mov .. | .clz .. | .popc .. | .addi .. | .andi .. | .ori ..
    | .xori .. | .slli .. | .srli .. | .srai .. | .lui .. | .auipc .. | .cmpEq .. | .cmpNe .. | .cmpLt .. | .cmpGe .. | .cmpLtu ..
    | .cmpGeu .. | .cmpiEq .. | .cmpiNe .. | .cmpiLt .. | .cmpiGe .. | .cmpiLtu .. | .cmpiGeu .. | .pand .. | .por .. | .pxor .. | .pandn ..
    | .pnot .. | .pset .. | .prd .. | .pwr .. | .br .. | .loopW .. | .ld .. | .st .. | .ldNc .. | .endCtx .. | .dedup .. | .emit ..
    | .slot .. | .nop .. => true
  | _ => false

/-! ### Fetch (spec 02 R63; 05 R142; 18 R456) -/

/-- Lines of an instruction cache of 64 KiB (spec 00 R1). -/
def codeLines : Nat := 1024
/-- The instruction cache after a use of a line: it stands first, and the line used longest ago leaves a full cache (log entry 14). -/
def useCode (l : List CodeLine) (x : CodeLine) : List CodeLine := x :: ((l.filter fun y => y.line != x.line).take (codeLines - 1))
/-- The code region of a partition has been written: no instruction cache keeps a line of it (spec 15 R384; 18 R460; log entry 14). -/
def State.dropCode (s : State) (part : Nat) : State :=
  { s with cores := s.cores.map fun x => if s.partOf x.1 = some part then (x.1, { x.2 with icache := [] }) else x }
/-- A word of a cached line. -/
def CodeLine.word (x : CodeLine) (a : Nat) : BitVec 32 := BitVec.ofNat 32 (leNat ((x.bytes.drop (a % 64)).take 4))
/-- Fetch one word of a context: an inline word of the message it holds, or a word of the partition's code region, from the instruction cache or
through translation. A line that meets poison is not kept (spec 12 R337). -/
def State.fetchWord (s : State) (core k : Nat) (pc : BitVec 32) : State × Except Trap (BitVec 32) :=
  let a := pc.toNat
  if inlineBase ≤ a then
    match (s.ctx core k).held with
    | some m => match m.code[(a - inlineBase) / 4]? with
      | some w => (s, .ok w)
      | none => (s, .error (pageTrap 0x01 a))
    | none => (s, .error (pageTrap 0x01 a))
  else
    let pn := s.partNo core
    let p := s.part pn
    if p.codeLen ≤ a then (s, .error (pageTrap 0x01 a))
    else match (s.core core).icache.find? fun x => x.line == a / 64 with
    | some x => (s.onCore core fun c => { c with icache := useCode c.icache x }, .ok (x.word a))
    | none =>
      match s.xlate pn (p.codeVa + a) with
      | (s, .error t) => (s, .error { t with tval := BitVec.ofNat 64 a })
      | (s, .ok e) =>
        let pa := s.redirect (e.pa (p.codeVa + a))
        -- a page of another module: what it holds is free (log entry 35)
        if e.mod ≠ s.modid then let (w, s) := s.drawFree; (s, .ok (w.truncate 32))
        else if s.poisonedAt pa 4 then (s, .error (poisonTrap a))
        else
          let x : CodeLine := { line := a / 64, bytes := memRead s.mem (pa - a % 64) 64 }
          (s.onCore core fun c => { c with icache := useCode c.icache x }, .ok (x.word a))
/-- Fetch the words of a group: up to the first word with S = 1, the last inline word, or four words; or a fault at a slot. -/
def fetchList (s : State) (core k : Nat) : Nat → BitVec 32 → State × List (BitVec 32) × Option Trap
  | 0, _ => (s, [], none)
  | n + 1, pc =>
    match s.fetchWord core k pc with
    | (s, .error t) => (s, [], some t)
    | (s, .ok w) =>
      if w.getLsbD 31 || (s.ctx core k).lastInline pc then (s, [w], none)
      else
        let (s, r, t) := fetchList s core k n (pc + 4)
        (s, w :: r, t)

/-! ### The checks of a group (spec 03 R84 to R89, R92) -/

/-- The lane field of a word whose type comes from SHAPE (spec 06 R169, R170). -/
def laneOfShape : Instr → Option Nat
  | .vrot _ _ _ k .shape | .vbcast _ _ _ k .shape | .vext _ _ _ k .shape | .vins _ _ _ k .shape => some k.toNat
  | _ => none
/-- The bytes of a lane of SHAPE's type, when SHAPE is valid (spec 01 R20). -/
def shapeLane (shape : BitVec 16) : Option Nat :=
  let n := (shape.extractLsb' 0 5).toNat
  if n = 0 ∨ 16 < n then none else (etyOf (shape.extractLsb' 8 4).toNat).map ETy.bytes
/-- A lane field is not below the lane count of the type that a valid SHAPE gives: ILLEGAL at decode. The check of SHAPE itself is made at issue
(spec 03 R92). -/
def laneBeyond (shape : BitVec 16) (x : Instr) : Bool :=
  match laneOfShape x, shapeLane shape with
  | some k, some w => decide (32 / w ≤ k)
  | _, _ => false

/-- The guard register of a word, read by it. -/
def guardBit (w : BitVec 32) : BitVec 48 := pBit ((w.extractLsb' 27 3).zeroExtend 4)
/-- The lowest register of a mask, as TVAL bits 5:0 of a GROUPDEP (spec 03 R89). -/
def regCode (m : BitVec 48) : Nat :=
  match (List.range 48).find? fun i => m.getLsbD i with
  | none => 0
  | some i => if i < 16 then i else if i < 32 then 16 + (i - 16) else if i < 40 then 32 + (i - 32) else 48 + (i - 40)
/-- Control register an mts names. -/
def mtsReg : Instr → Option Nat
  | .mts _ _ k => some k.toNat
  | _ => none
/-- The trap of a register dependence between the word at hand and an earlier word, the earliest of them (spec 03 R87, R89; 01 R19). -/
def depTrap (sets : RegSets) (mts : Option Nat) : List (Nat × RegSets × Option Nat) → Option Trap
  | [] => none
  | (i, e, k) :: r =>
    let m := (sets.writes &&& (e.reads ||| e.writes)) ||| (e.writes &&& sets.reads)
    if m ≠ 0 then some ⟨0x02, 0, BitVec.ofNat 64 (regCode m + i * 2 ^ 8)⟩
    else match mts, k with
      | some a, some b => if a = b then some ⟨0x02, 0, BitVec.ofNat 64 (a + i * 2 ^ 8 + 2 ^ 10)⟩ else depTrap sets mts r
      | _, _ => depTrap sets mts r
/-- What the words before the one at hand leave for its checks. -/
structure GroupAcc where
  sets : List (Nat × RegSets × Option Nat) := []
  send : Bool := false
  engine : Bool := false
  deriving DecidableEq, Repr
/-- Check the words of a group in slot order, the lowest offending slot first (spec 03 R86): one is the last word when its S holds, the group
is full or the inline code ends. iw selects the index-walker profile; shape is SHAPE, which no word of the group changes before its boundary. -/
def checkWords (iw : Bool) (shape : BitVec 16) (total : Nat) (inlineEnd : Bool) : Nat → GroupAcc → List (BitVec 32) → Except (Trap × Nat) (List Instr)
  | _, _, [] => .ok []
  | i, acc, w :: r =>
    let ill : Trap := ⟨0x01, 0, w.zeroExtend 64⟩
    match decodeL w.toNat with
    | .error _ => .error (ill, i)
    | .ok x =>
      let last := i + 1 == total
      if (isTransfer x && !last) || (isAlone x && total != 1) || (isSend x && acc.send) || (isEngine x && acc.engine) ||
          (iw && !inProfile x) || (!iw && walkerOnly x) || (i == 3 && !w.getLsbD 31 && !inlineEnd) || laneBeyond shape x then .error (ill, i)
      else
        let s0 := regSets x
        let sets : RegSets := { s0 with reads := s0.reads ||| guardBit w }
        match depTrap sets (mtsReg x) acc.sets.reverse with
        | some t => .error (t, i)
        | none =>
          match checkWords iw shape total inlineEnd (i + 1)
              { sets := (i, sets, mtsReg x) :: acc.sets, send := acc.send || isSend x, engine := acc.engine || isEngine x } r with
          | .error e => .error e
          | .ok xs => .ok (x :: xs)

/-- The group at a context's pc: its words and instructions, or the trap that takes the group with its slot. A fetch fault at slot n leaves the
words before it to be checked first. -/
def State.fetchGroup (s : State) (core k : Nat) : State × Except (Trap × Nat) (List (BitVec 32) × List Instr) :=
  let c := s.ctx core k
  let (s, ws, f) := fetchList s core k 4 c.pc
  let lastPc := c.pc + BitVec.ofNat 32 (4 * (ws.length - 1))
  match f with
  | some t =>
    match checkWords (k == 16) c.ctl.shape 5 false 0 {} ws with
    | .error e => (s, .error e)
    | .ok _ => (s, .error (t, ws.length))
  | none =>
    match checkWords (k == 16) c.ctl.shape ws.length (c.lastInline lastPc) 0 {} ws with
    | .error e => (s, .error e)
    | .ok xs => (s, .ok (ws, xs))

/-- Latches the words of a group may take. -/
def latchNeed (xs : List Instr) : Nat := (xs.filter isLatched).length
/-- The words of a group that are not suppressed (spec 16 R402). -/
def unsuppressed (done : BitVec 4) (xs : List Instr) : List Instr := (xs.zipIdx.filter fun x => !done.getLsbD x.2).map fun x => x.1
/-- Words before whose group a kill that has become due is taken (spec 02 R80; 08 R241). -/
def killFirst : Instr → Bool
  | .recv .. | .migrate .. | .endCtx .. | .yield .. => true
  | _ => false

end Sys2Proof.Machine
end

