-- ==== Sys2Proof/Machine/Operands.lean ====
section
/-! DEFINITION. Operand forms: how a word performs under its guard, control-register reads, effective addresses and the checks of R180, tile
memory, and accesses that leave the core (spec 05 R148; 07 R179 to R188; 12 R321 to R324). -/

namespace Sys2Proof.Machine

abbrev Out := Host.Outcome State Fault Refusal

/-! ### How a word performs (spec 01 R12; 03 R82; 16 R402) -/

/-- The word at pc has performed. -/
def State.finish (s : State) : State := s.setCur { s.cur with fin := true }
/-- A word under its guard: a false guard performs nothing, a trap is taken at the word, a word that waits does not retire. -/
def lword (h : Hdr) (s : State) (body : State → Res) : Out :=
  if s.cur.guard h then
    match body s with
    | .ok s' => .next s'.finish
    | .trap t s' => .next (s'.takeTrap t)
    | .again s' => .next s'
    | .wait s' => .next s'
  else .next s.finish
/-- A word that only changes the registers of its context. -/
def rword (h : Hdr) (s : State) (f : Ctx → Ctx) : Out := lword h s fun s => .ok (s.setCur (f s.cur))
/-- A word that changes the registers of its context, or traps. -/
def tword (h : Hdr) (s : State) (f : Ctx → Except Trap Ctx) : Out :=
  lword h s fun s => match f s.cur with
    | .ok c => .ok (s.setCur c)
    | .error t => .trap t s

/-- The mode of the agent that issues: a kernel runs in its issuer's mode (spec 01 R17; 09 R255). -/
def State.priv (s : State) : Bool :=
  if s.fctx = 16 then
    match (s.core s.fcore).iw.run with
    | some o => match s.op o with | some x => x.system | none => false
    | none => false
  else sysMode s.fctx
/-- The acting rank of the agent that issues: of a kernel, its walk's issuer (spec 12 R330). -/
def State.acting (s : State) : BitVec 24 :=
  if s.fctx = 16 then ((((s.core s.fcore).iw.run).bind s.op).map fun o => o.rank).getD (s.rankOf s.fcore) else s.actingRank s.fcore s.fctx
/-- The partition of the core that issues. -/
def State.curPart (s : State) : Nat := s.partNo s.fcore

/-! ### Control registers (spec 01 R18; 05 R148) -/

/-- The value MFS reads, zero-extended. An unassigned number has trapped at decode. -/
def State.mfsVal (s : State) (k : Nat) : Word :=
  let c := s.cur
  match k with
  | 0 => c.ctl.shape.zeroExtend 64
  | 1 => c.ctl.fpctl.zeroExtend 64
  | 2 => c.ctl.fpst.zeroExtend 64
  | 3 => c.ctl.lfsr.zeroExtend 64
  | 4 => c.ctl.scopeW.zeroExtend 64
  | 5 => c.ctl.rtag.zeroExtend 64
  | 6 => c.ctl.linkwait.zeroExtend 64
  | 8 => c.ctl.cause.zeroExtend 64
  | 9 => c.ctl.tval
  | 10 => c.ctl.tpc.zeroExtend 64
  | 11 => c.ctl.tmid.zeroExtend 64
  | 12 => (s.rankOf s.fcore).zeroExtend 64
  | 13 => BitVec.ofNat 64 (s.fctx % 16)
  | 14 => BitVec.ofNat 64 (c.istate s.fctx)
  | 16 => c.ctl.wpaddr[0].zeroExtend 64
  | 17 => c.ctl.wpaddr[1].zeroExtend 64
  | 18 => c.ctl.wpaddr[2].zeroExtend 64
  | 19 => c.ctl.wpaddr[3].zeroExtend 64
  | 20 => c.ctl.wpmask[0]
  | 21 => c.ctl.wpmask[1]
  | 22 => c.ctl.wpmask[2]
  | 23 => c.ctl.wpmask[3]
  | _ => 0
/-- The registers only system mode may write: CAUSE, TVAL, TPC, TMID and ISTATE (spec 01 R18). -/
def ctlSystem (k : Nat) : Bool := k == 8 || k == 9 || k == 10 || k == 11 || k == 14

/-- SHAPE.ETYPE and BEATS. -/
def Ctl.etype (c : Ctl) : Nat := (c.shape.extractLsb' 8 4).toNat
def Ctl.beats (c : Ctl) : Nat := (c.shape.extractLsb' 0 5).toNat
/-- The trap of an invalid SHAPE, or of a type the op does not allow taken from SHAPE (spec 01 R20; 06 R161). -/
def shapeTrap (c : Ctl) : Trap := ⟨0x01, 0, c.shape.zeroExtend 64⟩
/-- SHAPE's element type when SHAPE is valid (spec 01 R20). -/
def Ctl.shapeTy (c : Ctl) : Except Trap ETy :=
  if c.beats = 0 ∨ 16 < c.beats then .error (shapeTrap c)
  else match etyOf c.etype with
    | some t => .ok t
    | none => .error (shapeTrap c)

/-! ### Effective addresses (spec 07 R179, R181) -/

/-- The effective address of a register and an offset: modulo 2^64, or the handle's base plus the offset. -/
def ea (g : GReg) (off : Word) : Word := if g.tag then (g.val &&& 0xFFFFFFFFFFFF) + off else g.val + off
/-- The size of the buffer of a handle. -/
def handleSize (v : Word) : Nat := 2 ^ (v.extractLsb' 48 8).toNat
def handleKind (v : Word) : Nat := (v.extractLsb' 60 4).toNat
/-- CheckHandle (spec 01 R48): the bytes lie in the handle and the rights are granted. -/
def checkHandle (g : GReg) (a n : Nat) (rd wr : Bool) : Option Trap :=
  if g.tag then
    let b := (handleBase g.val).toNat
    let e := b + handleSize g.val
    if a < b then some ⟨0x13, 0x01, BitVec.ofNat 64 a⟩
    else if e < a + n then some ⟨0x13, 0x01, BitVec.ofNat 64 (max a e)⟩
    else if (rd && !g.val.getLsbD 59) || (wr && !g.val.getLsbD 58) then some ⟨0x13, 0x02, BitVec.ofNat 64 a⟩
    else none
  else none

/-- Where a byte of an access lies (spec 07 R179; 12 R323). -/
inductive Place where
  | tile | inbox | line | global
  | window (rank : BitVec 24)
  deriving DecidableEq, Repr
/-- The place of a byte address for an agent of rank me, if the agent may reach one there (spec 07 R180 step 2; 12 R326). -/
def placeOf (iw : Bool) (me : BitVec 24) (a : Nat) : Option Place :=
  if a < 0x40000 then some .tile
  else if a < 0x41000 then (if iw then none else some .inbox)
  else if a < 0x50000 then (if iw && decide (a < 0x42000) then some .line else none)
  else if a < 2 ^ 48 then
    if a / 2 ^ 42 = 1 then
      let r := BitVec.ofNat 24 (a / 2 ^ 18)
      if r = me then some .tile else some (.window r)
    else some .global
  else none
/-- Byte offset of a tile or window address in tile memory. -/
def tileOff (a : Nat) : Nat := a % 2 ^ 18

/-- What the checks of R180 answer. -/
inductive Chk where
  | ok (p : Place)
  | trap (t : Trap)
  /-- the tile page is not resident: it is filled first (spec 12 R322) -/
  | fill (page : Nat)
  deriving DecidableEq, Repr

/-- The first offset below n at which a test fails. -/
def firstOff (n : Nat) (f : Nat → Bool) : Option Nat := (List.range n).find? f
/-- A watchpoint a byte hits (spec 01 R31). -/
def watchHit (c : Ctl) (rd wr : Bool) (a : Nat) : Option Nat :=
  (List.range 4).find? fun i =>
    let m := c.wpmask.getD i 0
    let b : BitVec 48 := BitVec.ofNat 48 a
    let msk : BitVec 48 := m.truncate 48
    ((rd && m.getLsbD 63) || (wr && m.getLsbD 62)) && (b &&& msk) == (c.wpaddr.getD i 0 &&& msk)
/-- A byte of a tile space lies in a sealed buffer (spec 07 R208). -/
def State.sealedAt (s : State) (core sp off : Nat) : Bool :=
  (s.core core).seals.any fun e => e.space == sp && decide (e.base ≤ off) && decide (off < e.base + 2 ^ e.lsz)
/-- Pages a tile space may use (spec 12 R322; 15 R395). -/
def State.allotment (s : State) (core sp : Nat) : Nat :=
  if sp ≥ 8 then 63 else ((tget (s.core core).spaces sp).map fun x => x.allot).getD 0
/-- A page of a space is in a pinned frame; the system page always is (spec 12 R322). An unpinned one is pinned again as a fill is. -/
def State.resident (s : State) (core sp page : Nat) : Bool :=
  page == 63 || (s.core core).frames.any fun f => f.space == sp && f.page == page && f.pinned
/-- Checks 1 to 7 of R180 and the split of R183, for an access of n bytes at a. An access with a global byte is left to translation, which meets the
faults of its global bytes before a difference in space (R180 step 8). -/
def State.check (s : State) (a n align : Nat) (rd wr : Bool) (g : GReg) (watchRd : Bool := rd) : Chk :=
  let core := s.fcore
  let c := s.cur
  let me := s.rankOf core
  let pl (i : Nat) := placeOf (s.fctx == 16) me (a + i)
  let at' (i : Nat) : Word := BitVec.ofNat 64 (a + i)
  if align ≠ 0 ∧ a % align ≠ 0 then .trap ⟨0x04, 0, at' 0⟩
  else match firstOff n fun i => (pl i).isNone with
  | some i => .trap (pageTrap 0x02 (a + i))
  | none =>
  match firstOff n fun i => !s.priv && (match pl i with | some .tile | some (.window _) => decide (0x3F000 ≤ tileOff (a + i)) | _ => false) with
  | some i => .trap ⟨0x03, 0, at' i⟩
  | none =>
  match checkHandle g a n rd wr with
  | some t => .trap t
  | none =>
  match (List.range n).findSome? fun i => (watchHit c.ctl watchRd wr (a + i)).map fun w => (i, w) with
  | some (i, w) => .trap ⟨0x41, BitVec.ofNat 8 w, at' i⟩
  | none =>
  match firstOff n fun i => wr && (pl i == some .tile) && s.sealedAt core c.space (tileOff (a + i)) with
  | some i => .trap ⟨0x14, 0, at' i⟩
  | none =>
  match firstOff n fun i => wr && ((pl i == some .inbox) || (pl i == some .line)) with
  | some i => .trap (pageTrap 0x03 (a + i))
  | none =>
  match firstOff n fun i => (pl i == some .tile) && decide (tileOff (a + i) / 4096 ≠ 63) && decide (s.allotment core c.space ≤ tileOff (a + i) / 4096) with
  | some i => .trap (pageTrap 0x05 (a + i))
  | none =>
  match firstOff n fun i => (pl i == some .tile) && !s.resident core c.space (tileOff (a + i) / 4096) with
  | some i => .fill (tileOff (a + i) / 4096)
  | none =>
  match firstOff n fun i => pl i != pl 0 with
  | some i => if (List.range n).any fun j => pl j == some .global then .ok .global else .trap ⟨0x12, 0, at' i⟩
  | none => .ok ((pl 0).getD .tile)

/-! ### Tile memory and the inbox view (spec 12 R321; 02 R62) -/

/-- Read n bytes of a tile space. -/
def State.tileRd (s : State) (core sp off n : Nat) : List Byte := (List.range n).map fun i => memGet s.mem (tilePa core sp (off + i))
/-- Some byte of the n bytes is poisoned: its offset (spec 12 R336). -/
def State.tilePoison (s : State) (core sp off n : Nat) : Option Nat :=
  (List.range n).find? fun i => s.poison.contains (tilePa core sp (off + i) / 64)
/-- Write bytes of a tile space; a unit written whole is clean (spec 12 R337). -/
def State.tileWr (s : State) (core sp off : Nat) (bs : List Byte) : State :=
  if off < 0x3F000 ∧ 0x3F000 < off + bs.length then
    let k := 0x3F000 - off
    (s.store (tilePa core sp off) (bs.take k)).store (tilePa core sp 0x3F000) (bs.drop k)
  else s.store (tilePa core sp off) bs
/-- The frames of the pages of n bytes are the ones used last (spec 12 R322). -/
def State.touch (s : State) (core sp off n : Nat) : State :=
  let hit (f : Frame) : Bool := f.space == sp && decide (off / 4096 ≤ f.page) && decide (f.page ≤ (off + n - 1) / 4096)
  s.onCore core fun c => if c.frames.any hit then { c with frames := c.frames.filter (fun f => !hit f) ++ c.frames.filter hit } else c
/-- The context that issues uses the tile pages of n bytes at an address. -/
def State.used (s : State) (p : Place) (a n : Nat) : State :=
  match p with
  | .tile => s.touch s.fcore s.cur.space (tileOff a) n
  | .inbox | .line | .global | .window _ => s
/-- Byte of the inbox view of a context (spec 02 R62). -/
def inboxByte (c : Ctx) (off : Nat) : Byte :=
  match c.held with
  | none => 0
  | some m =>
    if off < 0x200 then m.payload.getD off 0
    else if off < 0x240 then BitVec.ofNat 8 (((m.code.getD ((off - 0x200) / 4) 0).toNat) / 2 ^ (8 * (off % 4)))
    else 0
/-- The read of n bytes of the inbox view, or the first byte of a unit that came with a poison mark (spec 12 R337). -/
def inboxRd (c : Ctx) (off n : Nat) : Except Nat (List Byte) :=
  let bad (i : Nat) : Bool := match c.held with | none => false | some m => decide (off + i < 0x200) && m.poisoned.contains ((off + i) / 32)
  match (List.range n).find? bad with
  | some i => .error i
  | none => .ok ((List.range n).map fun i => inboxByte c (off + i))
/-- The read of the line view of a walker (spec 09 R255). -/
def lineRd (w : Walker) (off n : Nat) : List Byte := (List.range n).map fun i => w.line.getD (off + i) 0

/-- The page that the word needs comes in first; the word is issued again (spec 12 R322). -/
def State.fillPage (s : State) (page : Nat) : Res :=
  .wait ((s.setCur { s.cur with hold := .tilePage page }).due .tilePageFill s.fcore s.fctx)

/-- Read n bytes of a place on the core at once: tile, inbox view or line view. -/
def State.localRd (s : State) (p : Place) (a n : Nat) : Except Trap (List Byte) :=
  let c := s.cur
  match p with
  | .tile =>
    match s.tilePoison s.fcore c.space (tileOff a) n with
    | some i => .error (poisonTrap (a + i))
    | none => .ok (s.tileRd s.fcore c.space (tileOff a) n)
  | .inbox =>
    match inboxRd c (a - 0x40000) n with
    | .error i => .error (poisonTrap (a + i))
    | .ok b => .ok b
  | .line => .ok (lineRd (s.core s.fcore).iw (a - 0x41000) n)
  | .global | .window _ => .ok []

/-! ### The L1 (spec 07 R187) -/

/-- Which bits of the replacement tree of a set lie on the path to a way, and what a use of it makes them: each points away from it (spec 12 R324;
log entry 25). -/
def plruTouch (t way : Nat) : Nat :=
  let b (n : Nat) (v : Bool) (t : Nat) : Nat := if t.testBit n = v then t else Nat.xor t (2 ^ n)
  let t := b 0 (decide (way < 4)) t
  let t := b (1 + way / 4) (decide (way % 4 < 2)) t
  b (3 + way / 2) (decide (way % 2 < 1)) t
/-- The way to which the bits of a set point. -/
def plruVictim (t : Nat) : Nat :=
  let x := (t.testBit 0).toNat
  let y := (t.testBit (1 + x)).toNat
  4 * x + 2 * y + (t.testBit (3 + 2 * x + y)).toNat
/-- The bits of the set of a line after a use of it. -/
def Core.useLine (c : Core) (x : L1Line) : Core := { c with plru := tset c.plru (x.line % 64) (plruTouch ((tget c.plru (x.line % 64)).getD 0) x.way) }
/-- The lines of an access are the ones used last in their sets. -/
def State.l1Use (s : State) (core a n : Nat) : State :=
  s.onCore core fun c => (c.l1.filter fun x => decide (x.line * 64 < a + n ∧ a < x.line * 64 + 64)).foldl Core.useLine c
/-- The bytes of an access when every byte hits in the core's L1. -/
def State.l1Hit (s : State) (core a n : Nat) : Option (List Byte) :=
  let L := (s.core core).l1
  (List.range n).mapM fun i => (L.find? fun x => x.line == (a + i) / 64).map fun x => x.bytes.getD ((a + i) % 64) 0
/-- Replace bytes of a list from an offset. -/
def splice (l : List Byte) (off : Nat) (bs : List Byte) : List Byte := l.take off ++ bs ++ l.drop (off + bs.length)
/-- A store updates the lines present in place. -/
def l1Update (a : Nat) (bs : List Byte) (x : L1Line) : L1Line :=
  let lo := x.line * 64
  if a < lo + 64 ∧ lo < a + bs.length then
    { x with bytes := (List.range 64).map fun i => if a ≤ lo + i ∧ lo + i < a + bs.length then bs.getD (lo + i - a) 0 else x.bytes.getD i 0 }
  else x
def State.l1Store (s : State) (core a : Nat) (bs : List Byte) : State :=
  s.onCore core fun c => { c with l1 := c.l1.map (l1Update a bs) }

/-! ### Accesses that leave the core (spec 07 R183, R186; 11 R297) -/

/-- The parts of an access: split at every 64-byte boundary (spec 07 R183). -/
def piecesOf : Nat → Nat → Nat → List Piece
  | 0, _, _ => []
  | f + 1, a, n => if n = 0 then [] else
    let k := min n (64 - a % 64)
    { va := a, len := k } :: piecesOf f (a + k) (n - k)
/-- The scope an access of the agent carries. -/
def State.curScope (s : State) : BitVec 16 := s.cur.ctl.cur
/-- An access of the context that issues, not yet numbered. -/
def State.mkReq (s : State) (kind : AKind) (a n : Nat) : Req :=
  { no := s.nextNo, core := s.fcore, ctx := s.fctx, part := s.curPart, rank := s.acting, scope := s.curScope, kind := kind, va := a, len := n,
    pieces := piecesOf (n / 64 + 2) a n, linkwait := s.cur.ctl.linkwait, wpc := s.cur.pc, wslot := s.cur.slot }
/-- A part lies in global memory. -/
def Piece.isGlobal (p : Piece) : Bool := decide (0x50000 ≤ p.va) && p.va / 2 ^ 42 != 1
/-- The word blocks on an access: to its translation slice, or to the target core of a window address (spec 07 R186; 12 R323, R325). -/
def State.block (s : State) (r : Req) : Res :=
  let s := { s with nextNo := s.nextNo + 1, reqs := tset s.reqs r.no r }
  let s := s.setCur { s.cur with hold := .access r.no }
  .wait (s.due (if r.pieces.any Piece.isGlobal then .translationRequest else .remoteTileAccess) r.no)

end Sys2Proof.Machine
end

