-- ==== Sys2Proof/Machine/Flags.lean ====
section
/-! DEFINITION. Floating-point flags and their traps, and the results of vector lanes with theirs (spec 01 R21; 04 R116 to R123; 06 R162 to
R164). -/

namespace Sys2Proof.Machine

/-- The rounding mode and flush setting in force. -/
def Ctl.mode (c : Ctl) : RMode := ⟨c.fpctl.extractLsb' 0 2, c.fpctl.getLsbD 3⟩
/-- FPCTL.SR. -/
def Ctl.sr (c : Ctl) : Bool := c.fpctl.getLsbD 2
/-- The trap enables, in the positions of FPST bits 4:0. -/
def Ctl.enables (c : Ctl) : Fl := (c.fpctl.extractLsb' 8 5).zeroExtend 8
/-- The enabled exceptions among flags raised. -/
def Ctl.hits (c : Ctl) (f : Fl) : Fl := f &&& c.enables
/-- FPTRAP with a lane mask (spec 04 R123). -/
def fpTrap (hit : Fl) (lanes : Nat) : Trap := ⟨0x30, hit, BitVec.ofNat 64 lanes⟩
/-- Flags raised by a word are ORed into FPST at the boundary (spec 01 R19). -/
def Ctx.raise (c : Ctx) (f : Fl) : Ctx := { c with pendFl := c.pendFl ||| f }

/-- The scalar floating-point result: the register with the flags raised, or FPTRAP with the flags set and the register unchanged (spec 01
R21; 06 R152). -/
def fpResult (h : Hdr) (s : State) (r : Ctx → Nat × Fl) (wr : Ctx → Nat → Ctx) : Out :=
  lword h s fun s =>
    let c := s.cur
    let (v, f) := r c
    if c.ctl.hits f = 0 then .ok (s.setCur (wr (c.raise f) v))
    else .trap (fpTrap (c.ctl.hits f) 1) (s.setCur (c.raise f))

/-! ### Lanes (spec 04 R113; 06 R161) -/

/-- Lane i of a register, lanes of w bytes. -/
def laneGet (v : BitVec 256) (w i : Nat) : Nat := (v.toNat / 2 ^ (8 * w * i)) % 2 ^ (8 * w)
/-- A register from its lanes, each cut to w bytes. -/
def ofLanes (w : Nat) (ls : List Nat) : BitVec 256 :=
  BitVec.ofNat 256 (ls.foldr (fun x acc => x % 2 ^ (8 * w) + 2 ^ (8 * w) * acc) 0)
/-- The lanes of a register. -/
def lanesOf (w : Nat) (v : BitVec 256) : List Nat := (List.range (32 / w)).map (laneGet v w)

/-- The lane type of a word: its own, or SHAPE's after the check of SHAPE (spec 06 R161). -/
def vtyOfCtl (c : Ctl) : VTy → Except Trap ETy
  | .of t => .ok t
  | .shape => c.shapeTy
/-- A type taken from SHAPE that the op does not allow traps at issue. -/
def needTy (c : Ctl) (ok : Bool) (t : ETy) : Except Trap ETy := if ok then .ok t else .error (shapeTrap c)

/-- Bits i of a mask whose flag is enabled. -/
def laneMask (c : Ctl) (fs : List Fl) : Nat := ((fs.zipIdx.filter fun x => c.hits x.1 != 0).map fun x => 2 ^ x.2).foldl (· + ·) 0
/-- The OR of the lanes' flags. -/
def orFl (fs : List Fl) : Fl := fs.foldl (· ||| ·) 0

/-- A vector result: through a result latch of L cycles; with a trap enable set it completes at once, or traps FPTRAP with its destination
unchanged (spec 01 R13; 04 R122). fp marks a floating-point word. Two points R122 leaves open: the result is written at issue, so a latch that was live
before still writes over it; and a word counts as floating-point when its lanes are floats, vabs, vneg, vand, vsel and vcmp among them, lane moves and vnz
not (log entry 114, DESIGN CHOICE). -/
def latchRes (c : Ctx) (fp : Bool) (lat : Nat) (wd : BitVec 3) (val : BitVec 256) (fs : List Fl) : Except (Trap × Ctx) Ctx :=
  let f := orFl fs
  if fp && c.ctl.enables != 0 then
    if c.ctl.hits f = 0 then .ok ((c.setW wd val).raise f)
    else .error (fpTrap (c.ctl.hits f) (laneMask c.ctl fs), c.raise f)
  else .ok { c with latches := c.latches ++ [⟨wd, val, lat, f⟩] }
/-- A vector word: its type, its lanes and their flags, its latch. -/
def vword (h : Hdr) (s : State) (wd : BitVec 3) (lat : Nat) (f : Ctx → Except Trap (Bool × BitVec 256 × List Fl)) : Out :=
  lword h s fun s =>
    let c := s.cur
    match f c with
    | .error t => .trap t s
    | .ok (fp, v, fs) =>
      match latchRes c fp lat wd v fs with
      | .ok c' => .ok (s.setCur c')
      | .error (t, c') => .trap t (s.setCur c')
/-- A type is floating-point. -/
def isFloat (t : ETy) : Bool := match laneOf t with | .flt _ => true | .sint _ => false | .uint _ => false | .fx => false

end Sys2Proof.Machine
end

