-- ==== Sys2Proof/Machine/Issue.lean ====
section
/-! DEFINITION. Issue: what a step does around the meaning of a word. At the start of a group the events due at the boundary come first, then the
group is fetched and checked whole; after a word the group goes on, or its boundary follows (spec 02 R63; 03 R84 to R89; 16 R402, R403). -/

namespace Sys2Proof.Machine

/-- What issue answers: a word to perform, or a state in which the turn has been used otherwise. -/
inductive Prep where
  | run (i : Instr) (s : State)
  | done (s : State)

/-- The word has been dealt with: it retires when it has performed. A boundary at a misaligned address traps there (spec 01 R16), and gives the
turn to the next agent. -/
def State.settle (s : State) (core k : Nat) : State :=
  let c := s.ctx core k
  if c.fin then
    let d := c.retire
    let s := s.setCtx core k d
    if d.slot = 0 then
      if d.pc.toNat % 4 ≠ 0 ∧ d.st = .ready then
        ((s.setCtx core k { d with pc := d.pc &&& 0xFFFFFFFC }).takeTrapAt core k ⟨0x04, 0, d.pc.zeroExtend 64⟩ true).rotate
      else s.rotate
    else s
  else s.rotate

/-- A blocked word has completed: it retires, and the context can issue again (spec 03 R85). A context restored while blocked issues its group
again with the word suppressed (spec 16 R408). -/
def State.unblock (s : State) (core k : Nat) (c : Ctx) : State :=
  let d := if c.grp = [] then { c with hold := .none } else { c with hold := .none }.retire
  if d.slot = 0 ∧ d.pc.toNat % 4 ≠ 0 ∧ d.st = .ready then
    (s.setCtx core k { d with pc := d.pc &&& 0xFFFFFFFC }).takeTrapAt core k ⟨0x04, 0, d.pc.zeroExtend 64⟩ true
  else s.setCtx core k d

/-- The word in the slot of the group: suppressed when DONEMASK names it (spec 16 R402), else to be performed. -/
def State.runSlot (s : State) (core k : Nat) : Prep :=
  let c := s.ctx core k
  let c := { c with npc := c.nextPc }
  let s := s.setCtx core k c
  if c.doneMask.getLsbD c.slot then .done ((s.setCtx core k { c with fin := true }).settle core k)
  else match decodeL (c.grp.getD c.slot 0).toNat with
    | .ok i => .run i s
    | .error _ => .done (s.decodeTrap ⟨0x01, 0, (c.grp.getD c.slot 0).zeroExtend 64⟩ c.slot c.pc)

/-- The walk that runs on a core has been killed (spec 09 R260). -/
def State.walkKilled (s : State) (core : Nat) : Bool :=
  match ((s.core core).iw.run).bind s.op with
  | some o => o.killed
  | none => false
/-- A context's scope is one whose prune has reached its core, or is DEAD or FREE (spec 01 R41; 08 R239). -/
def State.doomed (s : State) (core : Nat) (c : Ctx) : Bool :=
  (s.pruneAt (s.partNo core) c.ctl.cur core).isSome || (match (s.scope (s.partNo core) c.ctl.cur).st with | .dead | .free => true | .live | .dying => false)
/-- A context that has come into a pruned scope by an MTS carries KPEND through its next group, and is killed at the boundary after it, or before a
group with RECV, MIGRATE, END or YIELD (spec 05 R150; 08 R241). -/
def State.markDoomed (s : State) (core k : Nat) : State :=
  let c := s.ctx core k
  if s.doomed core c && decide (k < 14) then s.setCtx core k { c with ctl := { c.ctl with kpend := true } } else s
/-- The turn of a context of a lookup core. -/
def State.prepare (s : State) (core k : Nat) : Prep :=
  let c := s.ctx core k
  if canMove s (ckey core k) = false then .done s.rotate
  else if c.grp = [] then
    if k = 16 ∧ s.walkKilled core = true then
      .done (((s.onCore core fun x => { x with iw := { x.iw with inLine := false } }).setCtx core 16 { c with st := .free }).due .iwLineRun core)
    else if c.ctl.kpend ∧ k < 14 then .done (s.due .killTaken core k)
    else if c.ctl.ipend ∧ c.ctl.ie ∧ k < 14 ∧ (s.core core).run = .switchingOut then .done (s.due .contextSwitchOut core k)
    else if c.pc.toNat % 4 ≠ 0 then
      .done ((s.setCtx core k { c with pc := c.pc &&& 0xFFFFFFFC }).takeTrapAt core k ⟨0x04, 0, c.pc.zeroExtend 64⟩ true).rotate
    else match s.fetchGroup core k with
      | (s, .error (t, slot)) =>
        let at_ := c.pc + BitVec.ofNat 32 (4 * slot)
        let t := if t.code = 0x10 ∨ t.code = 0x15 ∨ k = 16 then { t with tval := at_.zeroExtend 64 } else t
        .done ((s.setCtx core k { c with slot := slot, pc := at_ }).takeTrapAt core k t true).rotate
      | (s, .ok (ws, xs)) =>
        -- after a restart the latches wait for the group that issues (spec 16 R410)
        let s := (if c.resumed then s else s.delay core k).markDoomed core k
        let c := s.ctx core k
        let xs := unsuppressed c.doneMask xs
        if c.ctl.kpend && xs.any killFirst then .done (s.due .killTaken core k)
        else if 8 < c.latches.length + latchNeed xs then .done (s.setCtx core k c.tick).rotate
        else (s.setCtx core k { s.ctx core k with grp := ws, slot := 0, performed := 0, resumed := false }).runSlot core k
  else s.runSlot core k

end Sys2Proof.Machine
end

