-- ==== Sys2Proof/Machine/Home.lean ====
section
/-! DEFINITION. Accesses at their homes: translation of the parts of an access, what a home performs, writer ids of checked regions, watch
units, versioned granules and their parked requests, replies to blocked contexts, fences over posted stores, tile pages and accesses through the
remote tile window (spec 07 R180 to R202; 11 R298 to R307; 12 R319 to R337). -/

namespace Sys2Proof.Machine

/-! ### Watch units (spec 12 R332, R333) -/

/-- Kinds of a write a watch unit tells apart. -/
inductive WKind where
  | store | atomic | aacc | copy | dense | tde | host
  deriving DecidableEq, Repr
def WKind.code : WKind → Nat
  | .store => 1 | .atomic => 2 | .aacc => 3 | .copy => 4 | .dense => 5 | .tde => 6 | .host => 7
/-- The kind of an engine's write that came as a request of hardware. -/
def wkindOf : Nat → WKind
  | 4 => .copy | 5 => .dense | 6 => .tde | _ => .store
/-- Who writes: acting rank and context (15 for the host and for engines other than a copy's, which records its issuing context), kind, and the rank
of the engine, of whose writes the acting rank is the issuer's (spec 09 R253; 12 R331, R333). -/
structure Writer where
  rank : BitVec 24
  ctx : Nat := 15
  kind : WKind := .store
  engine : Option (BitVec 24) := none
  deriving DecidableEq, Repr
/-- The first byte of a write that hits a unit. -/
def Watch.hit (w : Watch) (va n : Nat) : Option Nat :=
  ((List.range n).find? fun i => Nat.land (va + i) w.wmask == Nat.land w.wbase w.wmask).map (va + ·)
/-- Reports of a unit not yet sent. -/
def State.unsent (s : State) (key : Nat) : Nat := (s.fab.msgs.filter fun x => x.ph == .atSender && x.msg.watch == some key).length
/-- One unit sees a write of n bytes at va performed at pa. -/
def watchOne (s : State) (part va pa n : Nat) (x : Writer) (key : Nat) (w : Watch) : State :=
  if w.part = some part ∧ key / 16 = homeOf pa / 384 ∧ w.kinds.getLsbD (x.kind.code - 1) = true then
    match w.hit va n with
    | none => s
    | some b =>
      if 16 ≤ s.unsent key then { s with watches := tset s.watches key { w with drops := min (w.drops + 1) (2 ^ 32 - 1) } }
      else
        let at8 := (pa + (b - va)) / 8 * 8
        s.sendNow (homeOf pa) { resumeMsg w.rank w.tag stOK 1 part 0
          (arg4 (BitVec.ofNat 64 b) (BitVec.ofNat 64 (match x.engine with
              | some e => e.toNat + 15 * 2 ^ 24 + x.kind.code * 2 ^ 28
              | none => x.rank.toNat + x.ctx % 16 * 2 ^ 24 + x.kind.code * 2 ^ 28))
            (BitVec.ofNat 64 ((if x.engine.isSome then x.rank.toNat else 0) + min n 0xFFFF * 2 ^ 32)) (BitVec.ofNat 64 (s.rd at8 8))) with cls := 7, watch := some key }
  else s
/-- The watch units of the home's die see a write. -/
def State.watchWrite (s : State) (part va pa n : Nat) (x : Writer) : State :=
  s.watches.foldl (fun (s : State) (w : Nat × Watch) => watchOne s part va pa n x w.1 w.2) s

/-! ### Checked regions (spec 12 R331) -/

/-- The writer id for a write: a remote writer takes an entry of the table, or 0x7_FFFF when the table is full. -/
def State.widWrite (s : State) (home : Nat) (rank : BitVec 24) (ctx : Nat) : State × Nat :=
  match s.wid home rank ctx with
  | some w => (s, w)
  | none =>
    let h := s.home home
    if h.writers.length < 4096 then (s.setHome home { h with writers := h.writers ++ [(rank, ctx % 16)] }, 2 ^ 18 + h.writers.length)
    else (s, 0x7FFFF)
/-- A write of a checked region marks its granules. -/
def State.markWrite (s : State) (rst va pa n : Nat) (x : Writer) (flushed : Bool) : State :=
  if rst ≠ 5 then s
  else
    let (s, w) := s.widWrite (homeOf pa) x.rank x.ctx
    { s with grans := (granules pa n).foldl (fun (t : Table Gran) g =>
        tset t g { stamp := BitVec.ofNat 20 (flushed.toNat * 2 ^ 19 + w), va := (va + (g * 64 - pa)) / 64 * 64 }) s.grans }
/-- A writer of another module flushes by a fence there, of which no message tells this module: whether it has flushed an unflushed granule that is read
here is a free value (spec 12 R331; log entries 4 and 125). -/
def State.settleMarks (s : State) (rst pa n : Nat) : State :=
  if rst ≠ 5 then s
  else (granules pa n).foldl (fun s g =>
    match (tget s.grans g : Option Gran) with
    | none => s
    | some x =>
      if !x.stamp.getLsbD 19 && x.stamp.getLsbD 18 && x.stamp.toNat % 2 ^ 19 != 0x7FFFF then
        let (w, s) := s.drawFree
        if w.getLsbD 0 then { s with grans := tset s.grans g { x with stamp := x.stamp ||| 0x80000 } } else s
      else s) s
/-- A read of a checked region: the offset of the first byte another agent has written and not flushed, and unchecked granules to log. -/
def State.checkedRead (s : State) (rst pa n : Nat) (rank : BitVec 24) (ctx : Nat) : Option Nat × List Nat :=
  if rst ≠ 5 then (none, [])
  else
    let me := s.wid (homeOf pa) rank ctx
    let st (g : Nat) : Option Gran := tget s.grans g
    let foreign (g : Nat) : Bool := match st g with
      | some x => !x.stamp.getLsbD 19 && x.stamp.toNat % 2 ^ 19 != 0x7FFFF && some (x.stamp.toNat % 2 ^ 19) != me
      | none => false
    let unk (g : Nat) : Bool := match st g with
      | some x => !x.stamp.getLsbD 19 && x.stamp.toNat % 2 ^ 19 == 0x7FFFF && !x.seen
      | none => false
    (((granules pa n).find? foreign).map fun g => g * 64 - pa, (granules pa n).filter unk)
/-- Log the first read of each unchecked granule (spec 18 R465, KIND 0x23). -/
def State.logUnchecked (s : State) (part va pa : Nat) (gs : List Nat) : State :=
  gs.foldl (fun s g =>
    let x := (tget s.grans g).getD {}
    { s with grans := tset s.grans g { x with seen := true } }.logError part 0x23 (g * 64) ((va + (g * 64 - pa)) / 65536)) s
/-! ### Plain acts of a home (spec 11 R298, R299; 12 R331, R337) -/

/-- A read of n bytes at a home by an agent: its bytes, or the trap with its TVAL. -/
def State.homeRead (s : State) (part rst va pa n : Nat) (rank : BitVec 24) (ctx : Nat) : State × Except Trap (List Byte) :=
  let s := s.settleMarks rst pa n
  let (bad, unk) := s.checkedRead rst pa n rank ctx
  match bad with
  | some i => (s, .error ⟨0x18, 0, BitVec.ofNat 64 (va + i)⟩)
  | none =>
    if s.poisonedAt pa n then (s, .error (poisonTrap (va + s.firstPoison pa n)))
    else (s.logUnchecked part va pa unk, .ok (memRead s.mem pa n))
/-- A write of bytes at a home by an agent. -/
def State.homeWrite (s : State) (part rst va pa : Nat) (bs : List Byte) (x : Writer) (flushed : Bool) : State :=
  ((s.store pa bs).markWrite rst va pa bs.length x flushed).watchWrite part va pa bs.length x

/-- The new memory value of an ATOM of n bytes (spec 07 R194). -/
def atomNew (op n a b c : Nat) : Nat :=
  let w := 8 * n
  let sa := toSigned w a
  let sb := toSigned w b
  match op with
  | 0 => (a + b) % 2 ^ w
  | 1 => Nat.land a b
  | 2 => Nat.lor a b
  | 3 => Nat.xor a b
  | 4 => if sa ≤ sb then a else b
  | 5 => if sa ≤ sb then b else a
  | 6 => b
  | 7 => if a = c then b else a
  | 8 => (fAdd .f32 rne a b).1
  | 9 => (fAdd .f64 rne a b).1
  -- the saturating add of a poison log (spec 13 R355)
  | 10 => min (a + b) (2 ^ w - 1)
  | _ => a
/-- An ATOM at a home: the old bytes, or POISON with nothing changed (spec 07 R195). -/
def State.homeAtom (s : State) (part rst va pa op n b c : Nat) (x : Writer) : State × Except Trap (List Byte) :=
  if s.poisonedAt pa n then (s, .error (poisonTrap va))
  else
    let old := memRead s.mem pa n
    (s.homeWrite part rst va pa (leBytes n (atomNew op n (leNat old) b c)) (if x.kind = .host then x else { x with kind := .atomic }) true, .ok old)

/-! ### Versioned granules (spec 07 R189 to R193) -/

/-- Dist(x, y) modulo 2^20. -/
def sdist (x y : BitVec 20) : Nat := (y - x).toNat
/-- After(y, x): y is newer than x. -/
def safter (y x : BitVec 20) : Bool := decide (1 ≤ sdist x y) && decide (sdist x y ≤ 2 ^ 19 - 1)
/-- Fits(s, lo, hi). -/
def sfits (s lo hi : BitVec 20) : Bool := decide (sdist lo s ≤ sdist lo hi)

/-- What a home answers to a part: bytes, a trap, or that it parks. -/
inductive HRes where
  | done (bs : List Byte)
  | trap (t : Trap)
  | park
  deriving DecidableEq, Repr

/-- LDV at the home (spec 07 R190). -/
def homeLdv (s : State) (banked : Bool) (floor lo hi : BitVec 20) (va pa n : Nat) : HRes :=
  let g := (tget s.grans (pa / 64)).getD {}
  if sfits g.stamp lo hi then
    if s.poisonedAt pa n then .trap (poisonTrap va) else .done (memRead s.mem pa n)
  else if safter lo g.stamp then .park
  else match g.prior with
    | some (bs, ps) =>
      if banked && !safter floor ps && sfits ps lo hi then
        if s.poisonedAt pa n then .trap (poisonTrap va) else .done ((bs.drop (pa % 64)).take n)
      else .trap ⟨0x17, 0x02, BitVec.ofNat 64 va⟩
    | none => .trap ⟨0x17, 0x02, BitVec.ofNat 64 va⟩
/-- A new stamp for a granule: the prior copy it leaves, or none when it must wait (spec 07 R191). -/
def restamp (s : State) (banked : Bool) (floor st : BitVec 20) (gno : Nat) : Option Gran :=
  let g := (tget s.grans gno).getD {}
  let held := match g.prior with | some (_, ps) => !safter floor ps | none => false
  if banked && held then none
  else some { g with stamp := st, prior := if banked then some (memRead s.mem (gno * 64) 64, g.stamp) else g.prior }
/-- STV at the home (spec 07 R191). -/
def homeStv (s : State) (part : Nat) (banked : Bool) (floor st : BitVec 20) (va pa : Nat) (bs : List Byte) (x : Writer) : State × HRes :=
  let g := (tget s.grans (pa / 64)).getD {}
  if st = g.stamp then (s.homeWrite part 4 va pa bs x false, .done [])
  else if safter st g.stamp then
    match restamp s banked floor st (pa / 64) with
    | none => (s, .park)
    | some g' => ({ s with grans := tset s.grans (pa / 64) g' }.homeWrite part 4 va pa bs x false, .done [])
  else (s, .trap ⟨0x17, 0x04, BitVec.ofNat 64 va⟩)

/-! ### Regions as a request carries them -/

/-- Attributes of a part: region entry, region state, banked, CARVE and ATOMCAP. -/
def attrOf (r : Option (Nat × Region)) (e : XlEntry) : Nat :=
  (match r with
   | some (i, x) => i * 64 + x.st * 8 + x.banked.toNat * 4
   | none => 64 * 64 + 3 * 8) + e.carve.toNat * 2 + e.atomcap.toNat
/-- The region state a part carries. -/
def Piece.rst (p : Piece) : Nat := p.attr / 8 % 8
def Piece.banked (p : Piece) : Bool := p.attr / 4 % 2 == 1
def Piece.region (p : Piece) : Nat := p.attr / 64
/-- The floor of a region entry as the slice of a core holds it (spec 07 R193). -/
def State.floorAt (s : State) (home part region : Nat) : BitVec 20 :=
  match tget (s.home home).floors (part * 64 + region) with
  | some f => f
  | none => ((tget (s.part part).regions region).map fun r => r.floor).getD 0

/-- The kind of an access as the region check sees it; none for callat and migrate, which check no region (spec 08 R220). -/
def AKind.region : AKind → Option RKind
  | .load | .loadNc => some .read
  | .store => some .write
  | .ldv => some .ldv
  | .stv => some .stv
  | .atom _ => some .atom
  | .aacc | .aaccL => some .aacc
  | .callat | .migrate => none
/-- An access that writes. -/
def AKind.writes : AKind → Bool
  | .store | .stv | .atom _ | .aacc | .aaccL => true
  | .load | .loadNc | .ldv | .callat | .migrate => false
/-- ATOMPATH of an atomic to a page of another module (spec 07 R196). -/
def atomPath (s : State) (k : AKind) (sys : Bool) (e : XlEntry) : Option (BitVec 8) :=
  match k with
  | .atom _ => if e.mod = s.modid then none else if !sys then some 0x01 else if !e.atomcap then some 0x02 else none
  | _ => none

/-- What translation answers for the parts of an access: the parts with their places, a trap, or a page to be walked for. -/
inductive Xl where
  | ok (ps : List Piece)
  | trap (t : Trap)
  | walk (va : Nat)
  deriving DecidableEq, Repr
/-- Step 8 of R180 for the parts in ascending order: PAGE, REGION, SPLITATTR, ATOMPATH (spec 07 R180, R183, R189). A part outside global space differs
from every global one. -/
def xlPieces (s : State) (r : Req) (attr : Option Nat) : List Piece → List Piece → Xl
  | [], acc => .ok acc
  | p :: rest, acc =>
    if p.isGlobal = false then
      if attr.isSome && attr != some (2 ^ 32) then .trap ⟨0x12, 0, BitVec.ofNat 64 p.va⟩ else xlPieces s r (some (2 ^ 32)) rest (acc ++ [p])
    else match s.xlHit r.part p.va with
    | none => .walk p.va
    | some e =>
      let rg := s.region r.part p.va
      let a := attrOf rg e
      match (r.kind.region).bind fun k => regionCheck rg r.rank k with
      | some sub => .trap (regionTrap sub p.va)
      | none =>
        -- an update handler's table with the row in a versioned region (spec 13 R339)
        if (r.kind = .aacc ∨ r.kind = .aaccL) ∧ Etd.mode (leNat r.cmp) = 2 ∧ s.regionSt r.part p.va = 4 then .trap (regionTrap 0x04 r.etd)
        else if attr.isSome && attr != some a then .trap ⟨0x12, 0, BitVec.ofNat 64 p.va⟩
        else match atomPath s r.kind r.sys e with
          | some sub => .trap ⟨0x16, sub, BitVec.ofNat 64 p.va⟩
          | none =>
            if (r.kind = .ldv ∨ r.kind = .stv) ∧ e.mod ≠ s.modid then .trap (regionTrap 0x05 p.va)
            else xlPieces s r (some a) rest (acc ++ [{ p with mod := e.mod, pa := e.pa p.va, attr := a }])

/-- Translate the parts of a request in one act, walking for each page that misses. -/
def xlNow (r : Req) : Nat → State → State × Xl
  | 0, s => (s, .trap (pageTrap 0x06 r.va))
  | n + 1, s =>
    match xlPieces s r none r.pieces [] with
    | .walk va =>
      match walkTable s r.part va with
      | .error t => (s, .trap t)
      | .ok e => xlNow r n (s.xlFill r.part va e)
    | x => (s, x)

/-! ### Posted stores, fences and release order (spec 07 R186, R201; 08 R219) -/

/-- A posted store or contribution of a context that meets a range. -/
def Req.meets (r : Req) (core k lo hi : Nat) : Bool :=
  r.posted && r.core == core && r.ctx == k && r.kind.writes && r.bmsg.isNone && decide (r.va < hi ∧ lo < r.va + r.len)
/-- One that is not performed; without SYS only its parts at homes of this module count. -/
def Req.covers (modid : BitVec 12) (r : Req) (core k : Nat) (sys : Bool) (lo hi : Nat) : Bool :=
  r.meets core k lo hi && r.phase != .finished && (sys || (r.pieces.drop r.performed).any fun p => p.mod == modid)
def State.uncovered (s : State) (core k : Nat) (sys : Bool) (lo hi : Nat) : List Nat :=
  (s.reqs.filter fun (x : Nat × Req) => x.2.covers s.modid core k sys lo hi).map fun x => x.1
/-- A fence that waits and has nothing left to wait for completes. -/
def State.checkFence (s : State) (core k : Nat) : State :=
  match (s.ctx core k).hold with
  | .fence _ sys _ lo hi => if (s.uncovered core k sys lo hi).isEmpty then s.due .fenceComplete core k else s
  | _ => s
/-- The status a fence with SYS reports: 0, or ERR with the modules whose stores stay unconfirmed and the entry of the lost-write log: the first
this fence wrote, else the first of the stores it covers (spec 07 R202; 11 R305, R315; log entry 121). -/
def State.fenceStatus (s : State) (core k lo hi wrote : Nat) : Word :=
  let lost := s.reqs.filter fun (x : Nat × Req) => x.2.meets core k lo hi && x.2.lostSeq != 0
  let mods := (lost.flatMap fun x => (x.2.pieces.filter fun p => p.mod != s.modid).map fun p => p.mod).eraseDups
  let seq := if wrote ≠ 0 then wrote else ((lost.map fun x => x.2.lostSeq).min?).getD 0
  if lost.isEmpty then 0 else BitVec.ofNat 64 (seq % 2 ^ 32 * 2 ^ 16 + min mods.length 255 * 2 ^ 8 + 1)
/-- Messages that wait for a store no longer do; one that waits for no other is released (spec 08 R219). -/
def State.unwait (s : State) (no : Nat) : State :=
  let woken := s.fab.msgs.filter fun x => x.msg.waits == [no]
  let s := { s with fab := { s.fab with msgs := s.fab.msgs.map fun x => { x with msg := { x.msg with waits := x.msg.waits.filter (· != no) } } } }
  woken.foldl (fun s x => s.due .relordRelease x.msg.no) s
/-- A posted access has been performed at its home. -/
def State.storeDone (s : State) (r : Req) : State := ((s.delReq r.no).unwait r.no).checkFence r.core r.ctx

/-- L1 lines that meet a range leave; fills of such lines are marked not to install (spec 07 R201; 11 R307). -/
def State.l1Drop (s : State) (core lo hi : Nat) (marks : Bool) : State :=
  s.onCore core fun c => { c with
    l1 := c.l1.filter fun x => !(decide (x.line * 64 < hi ∧ lo < x.line * 64 + 64))
    fills := if marks then c.fills.map fun f => if f.line * 64 < hi ∧ lo < f.line * 64 + 64 then { f with install := false } else f else c.fills }
/-- A line enters the L1: in the way of a line of the same bytes, in a way of its set that is empty, or in the one to which the replacement bits point
(spec 11 R303; 12 R324; log entry 25). -/
def l1Install (c : Core) (line : Nat) (bytes : List Byte) : Core :=
  let set := c.l1.filter fun y => y.line % 64 == line % 64
  let way := match set.find? fun y => y.line == line with
    | some y => y.way
    | none => match (List.range 8).find? fun w => !set.any fun y => y.way == w with
      | some w => w
      | none => plruVictim ((tget c.plru (line % 64)).getD 0)
  let x : L1Line := { line := line, bytes := bytes, way := way }
  Core.useLine { c with l1 := x :: c.l1.filter fun y => !(y.line % 64 == line % 64 && y.way == way) } x

/-! ### Requests at their homes -/

/-- A page under migration: a request for its old frame waits at the old home while that streams, and one that comes to the new home directly
waits there until forwarding has ended (spec 12 R334). -/
def State.movingAt (s : State) (pa : Nat) : Option Moving :=
  s.moving.find? fun m => (m.stage == 0 && m.oldFrame == pa / 65536 * 65536) || (decide (m.stage < 2) && m.newFrame == pa / 65536 * 65536) ||
    (m.stage == 0 && m.oldFrame == s.redirect pa / 65536 * 65536)
/-- Change the record of a migration. -/
def State.onMoving (s : State) (old : Nat) (f : Moving → Moving) : State :=
  { s with moving := s.moving.map fun m => if m.oldFrame = old then f m else m }

/-- The request as a writer: a context, the host for a host-queue rank, or an engine (spec 12 R330 to R333; 17 R452). -/
def Req.writer (r : Req) : Writer :=
  if r.wkind ≠ 0 then { rank := r.rank, ctx := if r.wkind = 4 then r.ctx else 15, kind := wkindOf r.wkind, engine := some r.unit }
  else if 877 ≤ localOf r.rank ∧ localOf r.rank < 885 then { rank := r.rank, ctx := 15, kind := .host }
  else { rank := r.rank, ctx := r.ctx }
/-- A posted store or contribution to the page of an access, issued before it by the same context, is not yet performed; or an earlier built-in operation
of the same sender here is not. The access waits (spec 02 R53; 07 R186; 11 R301). -/
def State.behind (s : State) (r : Req) : Bool :=
  match r.pieces[r.performed]? with
  | none => false
  | some p => r.eng.isNone && s.reqs.any fun x =>
      decide (x.1 < r.no) && x.2.core == r.core && x.2.ctx == r.ctx && x.2.part == r.part && x.2.eng.isNone &&
        (if r.bmsg.isSome then x.2.bmsg.isSome && x.2.rank == r.rank && (x.2.phase == .home || x.2.phase == .translate)
         else x.2.bmsg.isNone && x.2.posted && x.2.kind.writes && (x.2.phase == .home || x.2.phase == .reply) &&
           (x.2.pieces.drop x.2.performed).any fun q => q.va / 65536 == p.va / 65536)
/-- The floor under which a home serves a request: the one that travels with it, or the home's own where a notice has brought a newer one (spec 07 R190,
R191, R193). -/
def State.floorFor (s : State) (r : Req) (p : Piece) : BitVec 20 :=
  let f := s.floorAt (homeOf p.pa) r.part p.region
  if safter f r.floor then f else r.floor
/-- Perform one part of an access at its home on this module. -/
def State.perform (s : State) (r : Req) (p : Piece) : State × HRes :=
  let off := p.va - r.va
  let seg := (r.data.drop off).take p.len
  match r.kind with
  | .load | .loadNc | .callat | .migrate =>
    -- an engine takes the bytes of a line with its poison (spec 09 R253)
    if r.wkind ≠ 0 then
      let s := s.settleMarks p.rst p.pa p.len
      let (bad, unk) := s.checkedRead p.rst p.pa p.len r.rank 15
      match bad with
      | some i => (s, .trap ⟨0x18, 0, BitVec.ofNat 64 (p.va + i)⟩)
      | none => (s.logUnchecked r.part p.va p.pa unk, .done (memRead s.mem p.pa p.len))
    else match s.homeRead r.part p.rst p.va p.pa p.len r.rank r.ctx with
    | (s, .error t) => (s, .trap t)
    | (s, .ok bs) => (s, .done bs)
  | .store | .aacc | .aaccL =>
    let s := s.homeWrite r.part p.rst p.va p.pa seg r.writer (r.wkind != 0 && r.eng.isNone)
    (if r.bad then s.poisonUnits p.pa p.len else s, .done [])
  | .atom op =>
    match s.homeAtom r.part p.rst p.va p.pa op p.len (leNat r.data) (leNat r.cmp) r.writer with
    | (s, .error t) => (s, .trap t)
    | (s, .ok bs) => (s, .done bs)
  | .ldv => (s, homeLdv s p.banked (s.floorFor r p) r.lo r.hi p.va p.pa p.len)
  | .stv => homeStv s r.part p.banked (s.floorFor r p) r.lo p.va p.pa seg r.writer
/-- The reply to a built-in memory operation: the data or old value, or the cause code and TVAL; none when the request asks for none. An answer
to hardware's own request is marked so, goes to the interface that sent it, and names the address in the terms of the request (spec 07 R210; log
entry 26). -/
def State.builtinReply (s : State) (r : Req) (t : Option Trap) : State :=
  match r.bmsg.bind s.net with
  | none => s.delReq r.no
  | some nm =>
    let m := nm.msg
    let s := (s.delReq r.no).delNet m.no
    let tag := (m.arg 1).extractLsb' 32 32
    let phys := (m.arg 1).getLsbD 23
    let long := m.addr == 0x0C
    let pay := r.result ++ List.replicate ((32 - r.result.length % 32) % 32) 0
    let pa := (r.pieces.head?.map fun p => p.pa).getD 0
    let bad := if long && r.wkind != 0 then (List.range (pay.length / 32)).filter fun i => s.poisonedAt (pa + 32 * i) (min 32 (r.len - 32 * i)) else []
    let out (st : BitVec 8) (a b : Word) (pay : List Byte) : State :=
      if (m.arg 1).getLsbD 22 then s
      else s.sendNow (localOf m.dest) { resumeMsg (if phys then modOf m.srank ++ m.srclr else m.srank) tag st m.prio m.part m.scope (arg4 a b 0 0) with
        payload := pay, poisoned := bad, noord := true, hw := phys }
    match t with
    | some t => out stFailed (BitVec.ofNat 64 (t.code.toNat + (if phys then t.sub.toNat * 2 ^ 8 else 0))) (if phys then t.tval - BitVec.ofNat 64 r.va + m.arg 0 else t.tval) []
    | none => if long then out stOK 0 0 pay else out stOK (BitVec.ofNat 64 (leNat r.result)) 0 []
/-- The answer of an access whose last part has been performed, or that traps: to the context that waits, or to no one. -/
def State.answer (s : State) (r : Req) (t : Option Trap) : State :=
  if r.bmsg.isSome then s.builtinReply r t
  else if r.eng.isSome then
    let bad := r.bad || (r.kind == .load && r.pieces.any fun p => p.mod == s.modid && p.isGlobal && s.poisonedAt p.pa p.len)
    s.setReq { r with phase := .finished, trap := t, bad := bad }
  else if r.posted then s.storeDone r
  else if r.orphan then ((s.storeDone r).tallyFor r.part r.scope r.core fun t => { t with msgs := t.msgs + 1 }).ackAll r.core
  else (s.setReq { r with phase := .reply, trap := t }).due .memoryReply r.no
/-- A part has been performed with these bytes: the next part follows, or the answer. -/
def State.partDone (s : State) (r : Req) (bs : List Byte) : State :=
  let r := { r with performed := r.performed + 1, result := r.result ++ bs }
  if r.performed < r.pieces.length then (s.setReq r).due .homeAccess r.no else s.answer r none
/-- Evaluate the next part of a request: none when it must park. -/
def State.tryReq (s : State) (no : Nat) : Option State :=
  match s.req no with
  | none => some s
  | some r =>
    match r.pieces[r.performed]? with
    | none => some s
    | some p =>
      match s.perform r p with
      | (s, .done bs) => some (s.partDone r bs)
      | (s, .trap t) => some (s.answer r (some t))
      | (_, .park) => none
/-- Evaluate parked requests in the order they parked; those that can be served leave. -/
def tryParks (s : State) (home : Nat) : List Nat → State
  | [] => s
  | no :: rest =>
    match s.tryReq no with
    | some s' => tryParks (s'.onHome home fun h => { h with parks := h.parks.filter (· != no) }) home rest
    | none => tryParks s home rest
/-- Parked requests of one kind on a granule, or on any granule. -/
def State.parked (s : State) (home : Nat) (kind : AKind) (gran : Option Nat) : List Nat :=
  (s.home home).parks.filter fun no => match s.req no with
    | some r => r.kind == kind && (match gran with
        | some g => (match r.pieces[r.performed]? with | some p => p.pa / 64 == g | none => false)
        | none => true)
    | none => false
/-- A granule's stamp has changed: its parked LDVs are evaluated again (spec 07 R191). -/
def State.stampChanged (s : State) (gran : Nat) : State :=
  let home := homeOf (gran * 64)
  tryParks s home (s.parked home .ldv (some gran))
/-- What a request from core a to core b and its reply of n bytes take of the torus injections of their hedges (spec 15 R398, R400). -/
def tripUses (a b n : Nat) : List PortUse := if a / 8 = b / 8 then [] else [⟨0, routerOf a, flitCount (32 + n)⟩, ⟨0, routerOf b, flitCount (32 + n)⟩]

/-! ### Accesses to other modules (spec 08 R210, R211; 17 R440; log entry 26) -/

/-- A request of more than 8 bytes, or of an engine, carries or brings its bytes as a payload. -/
def Req.long (r : Req) (n : Nat) : Bool := decide (8 < n) || r.eng.isSome
/-- The built-in address of a request's operation (spec 07 R211). -/
def Req.bAddr (r : Req) (n : Nat) : Nat :=
  match r.kind with
  | .load | .callat | .migrate => if r.long n then 0x0C else 0x00
  | .loadNc => if r.long n then 0x0C else 0x04
  | .store | .aacc | .aaccL => if r.long n then 0x10 else 0x08
  | .ldv => 0x14
  | .stv => 0x18
  | .atom op => 0x100 + 4 * op
/-- Where a part on another module is performed: the home of its physical address, the core a window address names, or, of an address that is
translated there, which stands above 2^48, the core that its part gives (spec 12 R323; 14 R362). -/
def Piece.target (p : Piece) : BitVec 24 :=
  if p.isGlobal then p.mod ++ BitVec.ofNat 12 (if 2 ^ 48 ≤ p.pa then p.attr else homeOf p.pa) else BitVec.ofNat 24 (p.va / 2 ^ 18)
/-- A load whose line the L1 takes asks another module for the whole line (spec 07 R187; 12 R324). -/
def State.wantsLine (s : State) (r : Req) (p : Piece) : Bool :=
  r.kind == .load && r.eng.isNone && r.bmsg.isNone && (s.core r.core).fills.any fun f => f.no == r.no && f.line == p.va / 64
/-- A part goes to its home on another module as a built-in request of hardware with PHYS (log entry 26). -/
def State.askRemote (s : State) (r : Req) (p : Piece) : State :=
  let seg := (r.data.drop (p.va - r.va)).take p.len
  let line := s.wantsLine r p
  let p := if line then { p with pa := p.pa - p.va % 64, len := 64 } else p
  let big := r.long p.len
  let size := if big then p.len % 128 * 2 ^ 15 else match r.kind with | .atom _ => if p.len = 8 then 64 else 0 | _ => p.len % 16
  let pay := if big && r.kind.writes then seg ++ List.replicate ((32 - seg.length % 32) % 32) 0 else []
  let (q, s) := s.seq r.core
  s.post r.core { builtinMsg p.target (BitVec.ofNat 32 (r.bAddr p.len)) 0 r.part r.scope
      (arg4 (BitVec.ofNat 64 p.pa) (BitVec.ofNat 64 (r.no % 2 ^ 32 * 2 ^ 32 + r.wkind % 8 * 2 ^ 28 + 2 ^ 23 + size))
        (BitVec.ofNat 64 (leNat (seg.take 8))) (BitVec.ofNat 64 (leNat r.cmp))) with
    srank := r.rank, cls := BitVec.ofNat 3 r.cls, sctx := min r.ctx 15, srclr := BitVec.ofNat 12 r.core, seqn := q, pa := p.pa, hw := true, arank := r.rank, noord := r.eng.isSome
    payload := pay, plen := BitVec.ofNat 8 (pay.length / 32), pay := !pay.isEmpty, poisoned := if r.bad then List.range (pay.length / 32) else [] }
/-- The next part of an accepted request goes to its home, once no earlier store of its context to the page is outstanding. -/
def State.toHome (s : State) (r : Req) : State :=
  match r.pieces[r.performed]? with
  | none => s
  | some p =>
    if p.mod = s.modid ∧ p.isGlobal = true then s.due .homeAccess r.no
    else if s.behind r then
      let s := s.later .homeAccess r.no
      if r.posted ∨ r.tries ≠ 0 then s else (s.setReq { r with tries := 1 }).later .linkwaitExpiry r.core r.ctx r.no
    else
      let s := s.askRemote r p
      if r.posted ∨ r.tries ≠ 0 then s else s.later .linkwaitExpiry r.core r.ctx r.no

/-! ### Tile spaces and frames (spec 12 R321 to R323; 15 R395, R396) -/

/-- The tile space of a core that work of a scope uses: the space of the launch that owns the scope, or the system space in no launch's subtree; none where
the launch has no space on the core, or one that its grant has not set up yet (spec 12 R321, R323; 15 R396). -/
def State.spaceFor (s : State) (core part : Nat) (scope : BitVec 16) : Option Nat :=
  match s.launchOf part scope with
  | none => some 8
  | some l => ((s.core core).spaces.find? fun x => x.2.held && x.2.ready && decide (x.1 < 8) && x.2.launch == l).map fun x => x.1
/-- The trap of tile pages beyond the allotment. -/
def State.pageOver (s : State) (core sp a n : Nat) : Option Nat :=
  (List.range n).find? fun i => tileOff (a + i) / 4096 != 63 && decide (s.allotment core sp ≤ tileOff (a + i) / 4096)
/-- Bring a page of a space into a frame: the page already held, an empty frame, or the unpinned one used longest ago; none when every frame is pinned
(spec 12 R322). 63 frames stand beside the system page's. -/
def takeFrame (fs : List Frame) (sp page : Nat) : Option (List Frame) :=
  let new : Frame := { space := sp, page := page, pinned := true }
  if fs.any fun f => f.space == sp && f.page == page then some ((fs.filter fun f => !(f.space == sp && f.page == page)) ++ [new])
  else if fs.length < 63 then some (fs ++ [new])
  else match fs.findIdx? fun f => !f.pinned with
    | some i => some (fs.eraseIdx i ++ [new])
    | none => none
def State.pinPage (s : State) (core sp page : Nat) : Option State :=
  if page = 63 then some s
  else (takeFrame (s.core core).frames sp page).map fun fs => s.onCore core fun c => { c with frames := fs }
/-- Bring in the pages of n bytes at an offset. -/
def State.pinPages (s : State) (core sp off n : Nat) : Option State :=
  match s.pinPage core sp (off / 4096) with
  | none => none
  | some s => if (off + n - 1) / 4096 = off / 4096 ∨ n = 0 then some s else s.pinPage core sp ((off + n - 1) / 4096)

/-- What an access through the window meets at its target core (spec 12 R323; 07 R208). -/
inductive WinRes where
  | done (s : State) (bs : List Byte)
  | trap (t : Trap)
  | wait
/-- An access of n bytes through the window at va by work of a scope: refused, performed at the target, or waiting for a frame. kind: 0 read,
1 write of data, 2 atomic, 3 an engine's read, which takes the bytes whatever their poison. -/
def State.window (s : State) (part : Nat) (scope : BitVec 16) (va n kind op : Nat) (data cmp : List Byte) : WinRes :=
  let rank := BitVec.ofNat 24 (va / 2 ^ 18)
  let core := localOf rank
  let refuse : WinRes := .trap (pageTrap 0x08 va)
  if modOf rank ≠ s.modid ∨ 768 ≤ core ∨ s.partOf core ≠ some part then refuse
  else match s.spaceFor core part scope with
    | none => refuse
    | some sp =>
      match (List.range n).find? fun i => (kind == 1 || kind == 2) && s.sealedAt core sp (tileOff (va + i)) with
      | some i => .trap ⟨0x14, 0, BitVec.ofNat 64 (va + i)⟩
      | none => match s.pageOver core sp va n with
      | some i => .trap (pageTrap 0x05 (va + i))
      | none => match s.pinPages core sp (tileOff va) n with
          | none => .wait
          | some s =>
            let poisoned := s.tilePoison core sp (tileOff va) n
            let old := s.tileRd core sp (tileOff va) n
            if kind = 1 then .done (s.tileWr core sp (tileOff va) data) []
            else if kind = 3 then .done s old
            else match poisoned with
              | some i => .trap (poisonTrap (va + i))
              | none =>
                if kind = 0 then .done s old
                else .done (s.tileWr core sp (tileOff va) (leBytes n (atomNew op n (leNat old) (leNat data) (leNat cmp)))) old

/-! ### Replies to a blocked context (spec 07 R185, R186; 16 R408) -/

/-- The value an access leaves in its destination register. -/
def Req.writeBack (r : Req) (c : Ctx) : Ctx :=
  let v := leNat r.result
  match r.kind with
  | .store | .stv | .aacc | .aaccL | .callat | .migrate => c
  | .load | .loadNc | .ldv | .atom _ =>
    if r.fetch then c
    else if r.vec then c.setW (r.dest.truncate 3) (BitVec.ofNat 256 v)
    else c.setG r.dest (if r.ext then BitVec.ofInt 64 (toSigned (8 * r.len) v) else BitVec.ofNat 64 v)
/-- The in-transit flag of the rank a context holds (spec 01 R40; 02 R70). -/
def State.transit (s : State) (core k : Nat) (b : Bool) : State :=
  match (s.ctx core k).trank with
  | some r => { s with fab := { s.fab with ranks := tset s.fab.ranks (localOf r) (core, b) } }
  | none => s
/-- A migrate that does not move its thread leaves it where it was. -/
def State.stays (s : State) (r : Req) : State := if r.kind = .migrate then s.transit r.core r.ctx false else s
/-- A trap of a word that had blocked, charged to that word (spec 16 R402, R408). -/
def State.trapBlocked (s : State) (r : Req) (t : Trap) : State :=
  let s := s.stays r
  let c := s.ctx r.core r.ctx
  let c := if c.grp = [] then { c with performed := c.doneMask &&& ~~~(1#4 <<< r.wslot) } else c
  (s.setCtx r.core r.ctx { c with hold := .none, pc := r.wpc, slot := r.wslot }).takeTrapAt r.core r.ctx t false
/-- A context takes the answer of the access it is blocked on. A descriptor read leaves its bytes with the request, and the word is issued
again. -/
def State.takeReply (s : State) (r : Req) : State :=
  match r.trap with
  | some t => (s.delReq r.no).trapBlocked r t
  | none =>
    if r.fetch then (s.setReq { r with phase := .finished }).onCtx r.core r.ctx fun c => { c with hold := .none }
    else (s.delReq r.no).unblock r.core r.ctx (r.writeBack (s.ctx r.core r.ctx))

/-! ### Seals (spec 07 R207) -/

/-- An entry that is UNSEALING and no longer counted leaves, and its resume is sent, on lane 0: R207 names no lane (spec 07 R207; log entry 119, DESIGN
CHOICE). -/
def State.sweepSeals (s : State) (core : Nat) : State :=
  let gone := (s.core core).seals.filter fun e => e.unsealing && e.count == 0
  let s := s.onCore core fun c => { c with seals := c.seals.filter fun e => !(e.unsealing && e.count == 0) }
  gone.foldl (fun s e => s.sendNow core (resumeMsg (s.rankOf core) e.tag stOK 0 e.part e.scope (arg4 (BitVec.ofNat 64 e.base) 0 0 0))) s

end Sys2Proof.Machine
end

