-- ==== Sys2Proof/Machine/Rows.lean ====
section
/-! DEFINITION. Embedding tables at their homes: table entries and watermarks, row requests, row accumulates, update-only lines (spec 07 R197 to
R199; 13 R342 to R357). -/

namespace Sys2Proof.Machine

/-! ### Table entries (spec 13 R342, R343) -/

/-- A read by a unit at a home of bytes on another module: its answer, taken once; none while it is out, and the first time it is sent (log entry
26). -/
def State.unitAsk (s : State) (home part : Nat) (p : Piece) (rank : BitVec 24) (ctx : Nat) : State × Option (Except Trap (List Byte)) :=
  match s.reqs.find? fun x => x.2.eng == some 0 && x.2.kind == .loadNc && x.2.core == home && x.2.part == part && x.2.va == p.va && x.2.len == p.len with
  | some (_, r) =>
    if r.phase ≠ .finished then (s, none)
    else (s.delReq r.no, some (match r.trap with | some t => .error t | none => .ok r.result))
  | none =>
    let (n, s) := s.fresh
    let r : Req := { no := n, core := home, ctx := ctx, part := part, rank := rank, scope := 0, kind := .loadNc, va := p.va, len := p.len, pieces := [p],
                     accepted := true, phase := .home, eng := some 0 }
    (((s.setReq r).askRemote r p).later .linkwaitExpiry home ctx n, none)
/-- Read of n bytes at a virtual address by a unit at a home, in one act and in an activity class: translated, checked against the region table for a
read, and read where they stand, on this module or another. None while the answer of another module is out. -/
def State.unitRead (s : State) (home part va n : Nat) (k : RKind) (rank : BitVec 24) (ctx cls : Nat) : State × Option (Except Trap (List Byte)) :=
  match s.xlate part va with
  | (s, .error t) => (s, some (.error t))
  | (s, .ok e) =>
    let rg := s.region part va
    match regionCheck rg rank k with
    | some sub => (s, some (.error (regionTrap sub va)))
    | none =>
      if e.mod ≠ s.modid then s.unitAsk home part { va := va, len := n, mod := e.mod, pa := e.pa va } rank ctx
      else
        let pa := s.redirect (e.pa va)
        let (s, r) := (s.charge part 0 cls (tripUses home (homeOf pa) n)).homeRead part ((match rg with | some x => x.2.st | none => 3)) va pa n rank ctx
        (s, some r)

/-- What the first use of a table at a home meets. -/
inductive TabRes where
  | ok (e : TabEntry)
  | full
  | bad (t : Trap)
  /-- the read of the ETD is out -/
  | wait
  deriving DecidableEq, Repr
/-- The table entry of a home, created at its first use by a message (spec 13 R339, R342). -/
def State.table (s : State) (home etd : Nat) (m : Msg) : State × TabRes :=
  let part := m.part
  match (s.home home).tabs.find? fun e => e.part == part && e.etd == etd with
  | some e => (s, .ok e)
  | none =>
    if etd % 64 ≠ 0 then (s, .bad ⟨0x04, 0, BitVec.ofNat 64 etd⟩)
    else if 128 ≤ (s.home home).tabs.length then (s, .full)
    else match s.unitRead home part etd 64 .read m.actor m.sctx m.cls.toNat with
      | (s, none) => (s, .wait)
      | (s, some (.error t)) => (s, .bad t)
      | (s, some (.ok bs)) =>
        let d := leNat bs
        if Etd.rejected d false then (s, .bad (regionTrap 0x04 etd))
        else
          let e : TabEntry := { part := part, etd := etd, desc := d, wm := Etd.wm0 d }
          (s.onHome home fun h => { h with tabs := h.tabs ++ [e] }, .ok e)
/-- A page lies among the shards of a table (spec 13 R338). -/
def Etd.hasPage (d : Etd) (page : Nat) : Bool := decide (d.base ≤ page * 65536) && decide (page * 65536 < d.base + d.nsh * 2 ^ d.shlog)
/-- Replace a table entry. -/
def State.setTab (s : State) (home : Nat) (e : TabEntry) : State :=
  s.onHome home fun h => { h with tabs := h.tabs.map fun x => if x.part = e.part ∧ x.etd = e.etd then e else x }
/-- Writer records of a home, of every table. -/
def State.recCount (s : State) (home : Nat) : Nat := ((s.home home).tabs.map fun e => e.recs.length).foldl (· + ·) 0
/-- The record of a writer. -/
def TabEntry.last (e : TabEntry) (w : BitVec 24) : Option (BitVec 20) := (e.recs.find? fun r => r.rank == w).map fun r => r.last
/-- How far the watermark rises: the least advance over the records (spec 13 R343). -/
def TabEntry.advance (e : TabEntry) : Nat :=
  (e.recs.map fun r => if safter r.last e.wm then sdist e.wm r.last else 0).foldl min (2 ^ 20)
/-- Outcome of a close notice. -/
inductive CloseRes where
  | ok | stale | refused
  deriving DecidableEq, Repr
/-- A close notice applied to a table entry; free says that the home has a writer record left (spec 13 R343). -/
def TabEntry.close (e : TabEntry) (w : BitVec 24) (t : BitVec 20) (free : Bool) : TabEntry × CloseRes :=
  let d : Etd := e.desc
  let upd (recs : List WriterRec) : TabEntry × CloseRes :=
    let e := { e with recs := recs }
    if recs.length = d.writers then ({ e with wm := e.wm + BitVec.ofNat 20 e.advance }, .ok) else (e, .ok)
  match e.last w with
  | some l => if !safter t l then (e, .stale) else upd (e.recs.map fun r => if r.rank = w then { r with last := t } else r)
  | none => if e.recs.length = d.writers ∨ free = false then (e, .refused) else upd (e.recs ++ [⟨w, t⟩])

/-! ### Row requests (spec 13 R346, R347, R349) -/

/-- Fields of a row request. -/
def Msg.rowEtd (m : Msg) : Nat := bits (m.arg 2).toNat 0 48
def Msg.rowStep (m : Msg) : BitVec 20 := (m.arg 3).truncate 20
def Msg.rowStrict (m : Msg) : Bool := (m.arg 1).getLsbD 20
def Msg.rowLand (m : Msg) : Bool := (m.arg 1).getLsbD 21
def Msg.rowPhys (m : Msg) : Bool := (m.arg 1).getLsbD 23
def Msg.landing (m : Msg) : Nat := bits (m.arg 3).toNat 32 18
def Msg.replyTag (m : Msg) : BitVec 32 := (m.arg 1).extractLsb' 32 32
/-- Bits not named are zero. -/
def Msg.rowBits (m : Msg) : Bool :=
  (m.arg 0).toNat < 2 ^ 48 && ((m.arg 1).toNat % 2 ^ 20 == 0) && !(m.arg 1).getLsbD 22 && bits (m.arg 1).toNat 24 8 == 0 &&
    (m.arg 2).toNat < 2 ^ 48 && bits (m.arg 3).toNat 20 12 == 0 && bits (m.arg 3).toNat 50 14 == 0
/-- Two requests share a merge key (spec 13 R349). -/
def sameKey (a b : Msg) : Bool := a.rowEtd == b.rowEtd && a.pa == b.pa && a.rowStep == b.rowStep && a.rowStrict == b.rowStrict && a.part == b.part

/-- A core's index walker sent it. -/
def Msg.ofIw (m : Msg) : Bool := m.sctx == 16 && decide (localOf m.srank < 768)
/-- A failed row request: FAILED with the cause and TVAL; of a request of an index walker it is an answer to hardware, with the sub-cause and the
landing address, and fails its walk (spec 13 R347; log entry 26). -/
def State.rowFail (s : State) (home : Nat) (m : Msg) (t : Trap) : State :=
  if m.ofIw then
    s.sendNow home { resumeMsg m.srank m.replyTag stFailed m.prio m.part m.scope
      (arg4 (BitVec.ofNat 64 (t.code.toNat + t.sub.toNat * 256)) t.tval (BitVec.ofNat 64 m.landing) 0) with
      noord := true, hw := true, merge := m.merge && modOf m.srank != s.modid }
  else s.sendNow home { resumeMsg m.srank m.replyTag stFailed m.prio m.part m.scope (arg4 (t.code.zeroExtend 64) t.tval 0 0) with
      noord := true, merge := m.merge && modOf m.srank != s.modid }
/-- The bytes of a row as a lookup may see them: each granule's current bytes or its prior ones, with the stamp of the row's first granule
(spec 13 R347; log entry 28). -/
def rowBytes (s : State) (strict versioned banked : Bool) (floor t : BitVec 20) (pa n : Nat) : Option (List Byte × BitVec 20) :=
  let gs := granules pa n
  let pick (g : Nat) : Option (List Byte × BitVec 20) :=
    let x := (tget s.grans g).getD {}
    if strict && versioned && safter x.stamp t then
      match x.prior with
      | some (bs, ps) => if banked && !safter ps t && !safter floor ps then some (bs, ps) else none
      | none => none
    else some (memRead s.mem (g * 64) 64, x.stamp)
  match gs.mapM pick with
  | none => none
  | some l => some (((l.flatMap fun x => x.1).drop (pa % 64)).take n, (l.head?.map fun x => x.2).getD 0)
/-- Indices of the 32-byte units of a row that meet poison. -/
def State.badUnits (s : State) (pa n : Nat) : List Nat := (List.range (n / 32)).filter fun i => s.poisonedAt (pa + 32 * i) 32
/-- The 8-byte count of a poison log rises by 1, saturating (spec 13 R355): an atomic under the acting rank of the message that causes it, which a region
may refuse; one on another module asks for no reply, and its home performs it, with the mark of a saturating add (log entry 26). -/
def State.countPlog (s : State) (home part plog : Nat) (rank : BitVec 24) : State :=
  if plog = 0 then s
  else match s.xlate part plog with
    | (s, .error _) => s
    | (s, .ok e) =>
      if (regionCheck (s.region part plog) rank .atom).isSome then s
      else if e.mod ≠ s.modid then
        s.sendNow home { builtinMsg (e.mod ++ BitVec.ofNat 12 (homeOf (e.pa plog))) 0x100 0 part 0
          (arg4 (BitVec.ofNat 64 (e.pa plog)) (BitVec.ofNat 64 (2 ^ 27 + 2 ^ 23 + 2 ^ 22 + 64)) 1 0) with pa := e.pa plog, hw := true, arank := rank, cls := 1 }
      else
        let pa := s.redirect (e.pa plog)
        if s.poisonedAt pa 8 then s
        else s.homeWrite part (s.regionSt part plog) plog pa (leBytes 8 (min (s.rd pa 8 + 1) (2 ^ 64 - 1))) { rank := rank, kind := .atomic } true
/-- The row is read in one act and the reply leaves: a landing, or a resume with the row as payload (spec 13 R347). -/
def State.rowReply (s : State) (home : Nat) (e : TabEntry) (m : Msg) (row : List Byte) (stamp : BitVec 20) (bad : List Nat) : State :=
  let d : Etd := e.desc
  let zero := !bad.isEmpty && d.poison
  let pay := if zero then List.replicate row.length 0 else row
  let bad := if zero then [] else bad
  let s := if zero then s.countPlog home m.part d.plog m.actor else s
  if m.rowLand then
    -- arg3 names the walk's request, when it is one (log entry 26)
    s.sendNow home { builtinMsg m.srank 0x218 m.prio m.part m.scope
        (arg4 (BitVec.ofNat 64 m.landing) 0 0 (BitVec.ofNat 64 (m.replyTag.toNat + m.ofIw.toNat * 2 ^ 32))) with
      payload := pay, poisoned := bad, noord := true, hw := true, merge := m.merge && modOf m.srank != s.modid }
  else
    s.sendNow home { resumeMsg m.srank m.replyTag stOK m.prio m.part m.scope (arg4 (stamp.zeroExtend 64) 0 0 0) with
      payload := pay, poisoned := bad, noord := true, merge := m.merge && modOf m.srank != s.modid }
/-- The watermark admits a request (spec 13 R347). -/
def TabEntry.admits (e : TabEntry) (m : Msg) : Bool :=
  let d : Etd := e.desc
  d.stale == 15 || !safter (m.rowStep - 1 - BitVec.ofNat 20 d.stale) e.wm
/-- The virtual address of the row a request names: of one with PHYS, the address its page table gives the physical one (log entry 76). -/
def State.rowVaOf (s : State) (m : Msg) : Nat := if m.rowPhys then (s.vaOf m.part m.pa).getD m.pa else (m.arg 0).toNat
/-- Serve an admitted request and those that joined it. -/
def State.rowServe (s : State) (home : Nat) (e : TabEntry) (m : Msg) (joined : List Msg) : State :=
  let d : Etd := e.desc
  let va := s.rowVaOf m
  let (rst, bank, floor) := match s.region m.part va with
      | some (i, r) => (r.st, r.banked, s.floorAt home m.part i)
      | none => (3, false, 0)
  let ver := rst == 4
  let s := s.settleMarks rst m.pa d.len
  match rowBytes s m.rowStrict ver bank floor m.rowStep m.pa d.len with
  | none => (m :: joined).foldl (fun s x => s.rowFail home x ⟨0x17, 0x02, BitVec.ofNat 64 va⟩) s
  | some (row, st) =>
    let bad := s.badUnits m.pa d.len
    -- in a checked region each requester reads as itself (spec 12 R331)
    (m :: joined).foldl (fun s x => match s.checkedRead rst m.pa d.len x.actor (min x.sctx 15) with
      | (some i, _) => s.rowFail home x ⟨0x18, 0, BitVec.ofNat 64 (va + i)⟩
      | (none, unk) => (s.logUnchecked m.part va m.pa unk).rowReply home e x row st bad) s
/-- A parked request sends a flush demand, once, to each writer whose record is too old (spec 13 R347, R348). It names the row as the request does: bit 23
of arg1 marks a physical address (log entry 26). -/
def State.demandFlush (s : State) (home : Nat) (e : TabEntry) (m : Msg) : State :=
  let d : Etd := e.desc
  let need := m.rowStep - 1 - BitVec.ofNat 20 d.stale
  (e.recs.filter fun r => safter need r.last).foldl (fun s r =>
    s.sendNow home { builtinMsg r.rank 0x210 0 m.part 0 (arg4 (m.arg 0) (m.arg 1 &&& 0x800000) (BitVec.ofNat 64 e.etd) 0) with pa := m.pa, hw := true, cls := 1 }) s
/-- A request that must wait parks: it joins a live entry of its key, or takes a park entry and with it a merge entry; with no park entry free it
is not taken (spec 07 R192; 13 R349). -/
def State.rowPark (s : State) (home : Nat) (e : TabEntry) (m : Msg) : Option State :=
  let h := s.home home
  match h.merges.find? fun x => sameKey x.first m && decide (x.joined.length < 15) with
  | some x => some (s.setHome home { h with merges := h.merges.map fun y => if y = x then { y with joined := y.joined ++ [m] } else y })
  | none =>
    if 256 ≤ h.parks.length + h.rowParks.length then none
    else
      let h := { h with rowParks := h.rowParks ++ [{ msg := m }],
                        merges := if h.merges.length < 64 ∧ (h.merges.all fun x => !sameKey x.first m) = true then h.merges ++ [{ first := m }] else h.merges }
      some ((s.setHome home h).demandFlush home e m)
/-- A row that an update handler has locked (spec 13 R353). -/
def State.rowLocked (s : State) (home pa : Nat) : Bool := (s.home home).locks.any fun l => l.pa == pa
/-- Messages of a row queue behind its lock, in arrival order (spec 13 R353). -/
def State.queueAtLock (s : State) (home pa : Nat) (nos : List Nat) : State :=
  s.onHome home fun h => { h with locks := h.locks.map fun l => if l.pa = pa then { l with queue := l.queue ++ nos } else l }
/-- The requests that ride on one, which is taken up: its merge entry is freed (spec 13 R349). -/
def State.takeJoined (s : State) (home : Nat) (m : Msg) : State × List Msg :=
  let h := s.home home
  (s.setHome home { h with merges := h.merges.filter fun x => x.first.no != m.no }, ((h.merges.find? fun x => x.first.no == m.no).map fun x => x.joined).getD [])
/-- Requests that are served no longer from where they parked stand in the network again, for the home to take up. -/
def State.unpark (s : State) (ms : List Msg) : State :=
  { s with fab := { s.fab with msgs := s.fab.msgs ++ ms.map fun m => ({ msg := { m with counted := true }, ph := .arrived } : NetMsg) } }
/-- The watermark of a table has changed: its parked requests are evaluated in the order they parked; one of a locked row queues behind the lock and
keeps its merge entry, so that one read serves all that joined it (spec 13 R343, R349, R353). -/
def wakeRows (s : State) (home part etd : Nat) : List RowPark → State
  | [] => s
  | p :: rest =>
    let go := p.msg.part == part && p.msg.rowEtd == etd
    match (s.home home).tabs.find? fun e => e.part == part && e.etd == etd with
    | none => s
    | some e =>
      if go && e.admits p.msg then
        let s := s.onHome home fun h => { h with rowParks := h.rowParks.filter (· != p) }
        if s.rowLocked home p.msg.pa then wakeRows ((s.unpark [p.msg]).queueAtLock home p.msg.pa [p.msg.no]) home part etd rest
        else
          let (s, joined) := s.takeJoined home p.msg
          wakeRows (s.rowServe home e p.msg joined) home part etd rest
      else wakeRows s home part etd rest
/-- What a row request meets at its home: it is served, parked or failed; the read of its ETD is out; or no park entry is free. -/
inductive RowRes where
  | done (s : State)
  | wait (s : State)
  | full
/-- A row request at the home, with the requests that ride on it. -/
def State.rowAtHome (s : State) (home : Nat) (m : Msg) : RowRes :=
  let (s1, joined) := s.takeJoined home m
  let fail (s : State) (t : Trap) : RowRes := .done ((m :: joined).foldl (fun s x => s.rowFail home x t) s)
  if m.rowLand && decide (m.landing % 32 ≠ 0) then fail s1 ⟨0x04, 0, BitVec.ofNat 64 m.landing⟩
  else if m.rowLand && decide (0x3F000 ≤ m.landing) then fail s1 (pageTrap 0x02 m.landing)
  else match s1.table home m.rowEtd m with
    | (_, .wait) => .wait (s.table home m.rowEtd m).1
    | (s, .bad t) => fail s t
    | (s, .full) => fail s (regionTrap 0x04 (s.rowVaOf m))
    | (s, .ok e) =>
      if Etd.mode e.desc = 2 ∧ s.regionSt m.part (s.rowVaOf m) = 4 then fail s (regionTrap 0x04 (s.rowVaOf m))
      else if e.admits m then .done (s.rowServe home e m joined)
      else match (m :: joined).foldlM (fun s x => s.rowPark home e x) s with
        | some s => .done s
        | none => .full

/-! ### Row accumulates (spec 13 R351 to R354) -/

/-- The elements a row accumulate carries: values of a type, or accumulation forms. -/
inductive Contrib where
  | vals (t : FTy) (xs : List Nat)
  | forms (fs : List AccForm)
  deriving DecidableEq, Repr
/-- Split a list into pieces of at most n. -/
def chunks {α : Type} (n : Nat) : Nat → List α → List (List α)
  | 0, _ => []
  | f + 1, l => if l.isEmpty then [] else l.take n :: chunks n f (l.drop n)
/-- A mask of a property of forms. -/
def maskOf (l : List AccForm) (f : AccForm → Bool) : Nat := (l.zipIdx.map fun x => (f x.1).toNat * 2 ^ x.2).foldl (· + ·) 0
/-- The payload of one part (spec 13 R351). -/
def partBytes (first n : Nat) (last : Bool) (writer : BitVec 24) (c : Contrib) : List Byte :=
  let hd (form : Bool) (a b d : Nat) := leBytes 2 first ++ leBytes 1 n ++ leBytes 1 (form.toNat + 2 * last.toNat) ++ leBytes 4 writer.toNat ++
    leBytes 4 a ++ leBytes 4 b ++ leBytes 4 d ++ List.replicate 12 0
  match c with
  | .vals t xs => hd false 0 0 0 ++ packElems (fwidth t / 8) xs
  | .forms fs => hd true (maskOf fs fun f => f.nan) (maskOf fs fun f => f.pinf) (maskOf fs fun f => f.ninf) ++
      fs.flatMap fun f => leBytes 12 (wrapN 96 f.a) ++ leBytes 4 f.count
/-- The parts of a row: at most 15 units of elements each, and no more elements than the one byte of their count can say. -/
def rowParts (writer : BitVec 24) (c : Contrib) : List (List Byte) :=
  let cut (per total : Nat) (mk : Nat → Contrib) := (List.range ((total + per - 1) / per)).map fun i =>
    partBytes (i * per) (min per (total - i * per)) (decide (total ≤ (i + 1) * per)) writer (mk i)
  match c with
  | .vals t xs => let per := min 240 (480 / (fwidth t / 8)); cut per xs.length fun i => .vals t ((xs.drop (i * per)).take per)
  | .forms fs => cut 30 fs.length fun i => .forms ((fs.drop (i * 30)).take 30)
/-- A row accumulate leaves for the home: its parts, consecutively. no is the posted request it stands for, if one does. sum marks partial
sums (log entry 123). -/
def State.sendRow (s : State) (core part : Nat) (scope : BitVec 16) (rank : BitVec 24) (ctx etd va : Nat) (mod : BitVec 12) (pa : Nat)
    (sum : Bool) (no : Option Nat) (c : Contrib) (actor : BitVec 24 := rank) : State :=
  (rowParts (s.rankOf core) c).foldl (fun s b =>
    let (q, s) := s.seq core
    s.post core { builtinMsg (mod ++ BitVec.ofNat 12 (homeOf pa)) 0x208 0 part scope
        (arg4 (BitVec.ofNat 64 pa) (BitVec.ofNat 64 ((no.map (· + 1)).getD 0 % 2 ^ 32 * 2 ^ 32 + 2 ^ 23 + sum.toNat)) (BitVec.ofNat 64 etd) (BitVec.ofNat 64 va)) with
      srank := rank, sctx := ctx, srclr := BitVec.ofNat 12 core, seqn := q, pa := pa, cls := 1, hw := true, arank := actor,
      payload := b ++ List.replicate ((32 - b.length % 32) % 32) 0, plen := BitVec.ofNat 8 ((b.length + 31) / 32), pay := true }) s
/-- Elements of the parts of a row, in order. -/
def readParts (t : FTy) (ps : List (List Byte)) : Contrib :=
  let form := match ps with | p :: _ => (p.getD 3 0).getLsbD 0 | [] => false
  if form then
    .forms (ps.flatMap fun p =>
      let n := (p.getD 2 0).toNat
      let m (o : Nat) := leNat ((p.drop o).take 4)
      (List.range n).map fun i =>
        let e := (p.drop (32 + 16 * i)).take 16
        { a := toSigned 96 (leNat (e.take 12)), count := leNat (e.drop 12), nan := (m 8).testBit i, pinf := (m 12).testBit i, ninf := (m 16).testBit i })
  else .vals t (ps.flatMap fun p => elems (fwidth t / 8) (p.getD 2 0).toNat (p.drop 32))
/-- What a row at its home holds of accumulation forms after another: the elements stand, and the forms merge; a lane whose count is full is applied and
starts afresh (spec 04 R115; log entry 123). -/
def RowForm.add (d : Etd) (x : RowForm) (fs : List AccForm) : RowForm :=
  let merged := (x.forms.zip fs).map fun y => y.1.merge y.2
  let new := (x.base.zip merged).map fun y => applyForm d.ty d.mode d.lr d.scale y.2 y.1
  let full (f : AccForm) : Bool := decide (2 ^ 32 - 1 ≤ f.count)
  { x with
    now := new
    base := ((x.base.zip new).zip merged).map fun y => if full y.2 then y.1.2 else y.1.1
    forms := merged.map fun f => if full f then {} else f }
/-- The forms of a row as a contribution to a table finds them: those of its elements as last written through that table, else none yet. -/
def Home.formsOf (h : Home) (part etd pa : Nat) (vs : List Nat) : RowForm :=
  match h.forms.find? fun x => x.part == part && x.etd == etd && x.pa == pa && x.now == vs with
  | some x => x
  | none => { part := part, etd := etd, pa := pa, base := vs, forms := vs.map fun _ => {}, now := vs }
/-- The forms a contribution to an FX64 table is (spec 07 R198; 04 R115). -/
def Contrib.asForms (d : Etd) (c : Contrib) : List AccForm := match c with | .forms fs => fs | .vals t xs => xs.map (formOf t d.scale)
/-- The row after a contribution of values to an FP32 table (spec 13 R352). -/
def applyRow (d : Etd) (row : List Byte) (c : Contrib) : List Byte :=
  let w := d.ebytes
  let vs := elems w (row.length / w) row
  let new : List Nat := match c with
    | .forms fs => (vs.zip fs).map fun x => applyForm d.ty d.mode d.lr d.scale x.2 x.1
    | .vals t xs => (vs.zip xs).map fun x => if d.mode = 1 then sgdInto d.ty d.lr x.1 (fval t x.2) else addInto d.ty x.1 (fval t x.2)
  packElems w new
/-- The row at a physical address after a contribution, with the forms its home then holds (spec 04 R115; 13 R352). -/
def State.contribute (s : State) (home : Nat) (e : TabEntry) (pa : Nat) (c : Contrib) : State × List Byte :=
  let d : Etd := e.desc
  let row := memRead s.mem pa d.len
  if d.fx then
    let x := ((s.home home).formsOf e.part e.etd pa (elems d.ebytes (d.len / d.ebytes) row)).add d (c.asForms d)
    (s.onHome home fun h => { h with forms := (h.forms.filter fun y => y.pa != pa) ++ [x] }, packElems d.ebytes x.now)
  else (s, applyRow d row c)
/-- Stamps that an application to a versioned row sets: none when it must park (spec 13 R354). -/
def rowStamps (s : State) (banked : Bool) (floor st : BitVec 20) (pa n : Nat) : Option (List (Nat × Gran)) :=
  ((granules pa n).filter fun g => safter st ((tget s.grans g).getD {}).stamp).mapM fun g => (restamp s banked floor st g).map fun x => (g, x)
/-- Widen a contribution to f32, or to f64 for f64 rows (spec 13 R353). -/
def widened (t : FTy) (c : Contrib) : List Byte :=
  let lt : FTy := if t = .f64 then .f64 else .f32
  match c with
  | .vals u xs => packElems (fwidth lt / 8) (xs.map fun x => (convert (etyOfF u) (etyOfF lt) (.mode rne) 0 x).1)
  | .forms _ => []
/-- The posted accumulate a part stands for has been performed, or is gone. -/
def State.rowDone (s : State) (m : Msg) : State :=
  let no := (m.arg 1).toNat / 2 ^ 32
  if no = 0 then s
  else match s.req (no - 1) with
    | some r => if r.kind = .aacc ∧ modOf m.srank = s.modid ∧ r.core = m.srclr.toNat then s.storeDone r else s
    | none => s
/-- What a whole row meets at the home: it is performed, it waits for one of the 16 locks, or it parks under the rules of R191 (spec 13 R353, R354). -/
inductive RowPut where
  | done (s : State)
  | locks
  | park
/-- A whole row at the home: applied, handed to the update handler, or discarded (spec 07 R198; 13 R352 to R354). -/
def State.rowApply (s : State) (home : Nat) (e : TabEntry) (m : Msg) (pa : Nat) (c : Contrib) : RowPut :=
  let d : Etd := e.desc
  let va := (m.arg 3).toNat
  let wr : BitVec 24 := BitVec.ofNat 24 (leNat ((m.payload.drop 4).take 4))
  let last := (e.last wr).getD d.wm0
  -- the discard of a contribution at a poisoned row is logged (spec 07 R198; log entry 122)
  if s.poisonedAt pa d.len then .done (((s.countPlog home m.part d.plog m.actor).logPoison m.part 0x10 (pa + s.firstPoison pa d.len) (va / 65536)).rowDone m)
  else if d.mode = 2 ∧ s.regionSt m.part va = 4 then .done (((s.dropMsg home { m with counted := true }).logError m.part 0x24 pa (va / 65536)).rowDone m)
  else if d.mode = 2 then
    if 16 ≤ (s.home home).locks.length then .locks
    else
      let no := s.fab.nextMsg
      let s := s.onHome home fun h => { h with locks := h.locks ++ [{ pa := pa, handlerMsg := no }] }
      .done ((s.sendNow home { spawnMsg (s.rankOf home) (BitVec.ofNat 32 d.update) 1 m.part m.scope
          (arg4 (BitVec.ofNat 64 va) (BitVec.ofNat 64 e.etd) (wr.zeroExtend 64) ((last + 1).zeroExtend 64)) with
        payload := widened d.ty c }).rowDone m)
  else
    let rg := s.region m.part va
    let x : Writer := { rank := m.actor, ctx := m.sctx, kind := .aacc }
    let put (s : State) (rst : Nat) : State :=
      let (s, row) := s.contribute home e pa c
      (s.homeWrite m.part rst va pa row x false).rowDone m
    match rg with
    | some (i, r) =>
      if r.st = 4 then
        match rowStamps s r.banked (s.floorAt home m.part i) (last + 2) pa d.len with
        | none => .park
        | some gs =>
          let s := put { s with grans := gs.foldl (fun (t : Table Gran) g => tset t g.1 g.2) s.grans } 4
          .done (gs.foldl (fun s g => s.stampChanged g.1) s)
      else .done (put s r.st)
    | none => .done (put s 3)

/-! ### Update-only lines (spec 07 R199; 13 R348) -/

/-- A line leaves its slice as a row accumulate to the home. Every flush of a core, and each close notice behind its flushes, travels in one stream of
the core, under the acting rank that flushes (spec 07 R199, R209; 11 R308). -/
def State.flushLine (s : State) (core : Nat) (actor : BitVec 24) (l : UpdLine) : State :=
  let d : Etd := l.desc
  let s := s.onHome core fun h => { h with upd := h.upd.filter fun x => !(x.etd == l.etd && x.part == l.part && x.pa == l.pa && x.mod == l.mod) }
  let c : Contrib := if d.fx then .forms l.forms else .vals (if d.ty = .f64 then .f64 else .f32) l.sums
  s.sendRow core l.part 0 (s.rankOf core) 15 l.etd l.rowVa l.mod l.pa true none c actor
/-- Flush every line of a table. -/
def State.flushTable (s : State) (core part etd : Nat) (actor : BitVec 24) : State :=
  ((s.home core).upd.filter fun x => x.etd == etd && x.part == part).foldl (fun s l => s.flushLine core actor l) s
/-- The line after a contribution; a new line holds the first contribution, widened (spec 07 R199; log entry 30). -/
def UpdLine.add (l : UpdLine) (isNew : Bool) (xs : List Nat) : UpdLine :=
  let d : Etd := l.desc
  let lt : FTy := if d.ty = .f64 then .f64 else .f32
  if d.fx then
    { l with forms := if isNew then xs.map (formOf d.ty d.scale) else (l.forms.zip xs).map fun x => x.1.merge (formOf d.ty d.scale x.2) }
  else
    { l with sums := if isNew then xs.map (fun x => (convert (etyOfF d.ty) (etyOfF lt) (.mode rne) 0 x).1)
        else (l.sums.zip xs).map fun x => sumAdd d.ty x.1 x.2 }
/-- A contribution added into the line of its row (spec 07 R199). The 257th line sends the oldest away first. -/
def State.addLine (s : State) (core part etd : Nat) (d : Etd) (va : Nat) (mod : BitVec 12) (pa : Nat) (xs : List Nat) : State :=
  let isIt (x : UpdLine) : Bool := x.etd == etd && x.part == part && x.pa == pa && x.mod == mod
  let old := (s.home core).upd.find? isIt
  let s := match old, (s.home core).upd with
    | none, l :: r => if 256 ≤ r.length + 1 then s.flushLine core (s.rankOf core) l else s
    | none, [] => s
    | some _, _ => s
  let new := (old.getD { etd := etd, desc := d, part := part, rowVa := va, pa := pa, mod := mod }).add old.isNone xs
  let s := s.onHome core fun h => { h with upd := (h.upd.filter fun x => !isIt x) ++ [new] }
  if d.fx && new.forms.any fun f => decide (2 ^ 32 - 1 ≤ f.count) then s.flushLine core (s.rankOf core) new else s

end Sys2Proof.Machine
end

