-- ==== Sys2Proof/Machine/Messages.lean ====
section
/-! DEFINITION. Message, task and barrier words: send, recv, end, rel, migrate, yield, callat, barm, bara, barw, barq, scnew, scstat and resume,
and what the events that complete them share with them (spec 02 R60 to R71; 08 R213 to R237). -/

namespace Sys2Proof.Machine

/-! ### Building and buffering a message (spec 08 R213 to R219) -/

/-- Requests that RELORD waits for: the plain stores and accumulates of a context that have issued and are not performed, those entered as lost
among them (spec 08 R219; 11 R306, R314). -/
def State.openStores (s : State) (core k : Nat) : List Nat :=
  (s.reqs.filter fun (x : Nat × Req) => x.2.posted && x.2.core == core && x.2.ctx == k && (x.2.phase != .finished || x.2.lostSeq != 0) &&
    (x.2.kind == .store || x.2.kind == .aacc)).map fun x => x.1
/-- A message goes into the send buffer of a context and its staging, or SENDOVF at the 33rd (spec 01 R48; 08 R218). -/
def State.buffer (s : State) (core k : Nat) (m : Msg) : Except Trap State :=
  let c := s.ctx core k
  if 32 ≤ c.sends.length then .error ⟨0x20, 0, 0⟩
  else
    let (q, s) := s.seq core
    let m := { m with srank := s.rankOf core, srclr := BitVec.ofNat 12 core, seqn := q, sctx := k, rtag := c.ctl.rtag, arank := s.actingRank core k,
                      part := s.partNo core, scope := c.ctl.cur, waits := if m.relord then s.openStores core k else [] }
    .ok ((s.onCtx core k fun c => { c with sends := c.sends ++ [.msg m] }).stage core k)
/-- The trap of the first tagged argument that may not travel: without the pass right, or a TILE handle to another rank than the sender's own
(spec 08 R216). -/
def argTrap (me dst : BitVec 24) (first : Nat) : List GReg → Option Trap
  | [] => none
  | g :: r =>
    if g.tag && !g.val.getLsbD 56 then some ⟨0x13, 0x02, BitVec.ofNat 64 first⟩
    else if g.tag && handleKind g.val == 1 && dst != me then some ⟨0x13, 0x04, BitVec.ofNat 64 first⟩
    else argTrap me dst (first + 1) r
/-- Bases of the tagged arguments: the send sweeps their holders at the boundary (spec 01 R11). -/
def argBases (l : List GReg) : List (BitVec 48) := (l.filter fun g => g.tag).map fun g => handleBase g.val
/-- The four argument registers from rc. -/
def Ctx.args (c : Ctx) (rc : BitVec 4) : Vector GReg 4 := #v[c.gr rc, c.gr (rc + 1), c.gr (rc + 2), c.gr (rc + 3)]

/-- What a send's descriptor answers: the bytes with the indices of poisoned 32-byte units (none: poison traps), a trap, or a tile page to be
filled. -/
inductive Desc where
  | ok (bs : List Byte)
  | trap (t : Trap)
  | fill (page : Nat)
  deriving DecidableEq, Repr
/-- Read the n bytes a descriptor names from tile memory or the inbox view, after the checks of R217. -/
def State.readDesc (s : State) (g : GReg) (a n : Nat) : Desc :=
  let one (a n : Nat) : Desc :=
    if n = 0 then .ok []
    else match s.check a n 0 true false g with
      | .trap t => .trap t
      | .fill p => .fill p
      | .ok p => match s.localRd p a n with
        | .error t => .trap t
        | .ok bs => .ok bs
  let n1 := min n (0x40000 - a)
  match one a n1 with
  | .ok b1 =>
    match one (a + n1) (n - n1) with
    | .ok b2 => .ok (b1 ++ b2)
    | .trap t => .trap t
    | .fill p => .fill p
  | .trap t => .trap t
  | .fill p => .fill p
/-- The tile pages that the n bytes of a descriptor stand in are the ones used last (spec 12 R322). -/
def State.usedDesc (s : State) (a n : Nat) : State :=
  if n = 0 ∨ 0x40000 ≤ a then s else s.used .tile a (min n (0x40000 - a))
/-- The descriptor of sendp (unit 32 bytes, alignment 32) or sendc (4-byte words) (spec 08 R217). -/
def State.descriptor (s : State) (g : GReg) (unit : Nat) : Desc :=
  let len := (g.val.extractLsb' 48 5).toNat
  let a := (handleBase g.val).toNat
  let n := len * unit
  if len = 0 then .ok []
  else if 16 < len then .trap ⟨0x01, 0x01, g.val⟩
  else if a % unit ≠ 0 then .trap ⟨0x04, 0, BitVec.ofNat 64 a⟩
  else match firstOff n fun i => decide (0x41000 ≤ a + i) with
    | some i => .trap (pageTrap 0x02 (a + i))
    | none => s.readDesc g a n
/-- Words of inline code from its bytes. -/
def wordsOf : Nat → List Byte → List (BitVec 32)
  | 0, _ => []
  | n + 1, l => BitVec.ofNat 32 (leNat (l.take 4)) :: wordsOf n (l.drop 4)

/-- Which send word. -/
inductive SendForm where
  | plain | payload | code
  deriving DecidableEq, Repr
/-- send, sendp and sendc (spec 08 R214 to R219). -/
def sendWord (h : Hdr) (s : State) (form : SendForm) (ra rb rc : BitVec 4) (prio : BitVec 2) (rl merge : Bool) : Out :=
  lword h s fun s =>
    let c := s.cur
    let dst : BitVec 24 := (c.gv ra).truncate 24
    let a : BitVec 32 := (c.gv rb).truncate 32
    let kind : MKind := if (c.gv ra).getLsbD 24 then .resume else if a.toNat ≤ 0x3FC then .builtin else .spawn
    -- a SEND always carries PHYS = 0 (spec 07 R210; 13 R346)
    let args := if kind = .builtin ∧ a.toNat < 0x300 then (c.args rc).set 1 ⟨(c.args rc)[1].val &&& 0xFFFFFFFFFF7FFFFF, (c.args rc)[1].tag⟩ else c.args rc
    if s.priv = false ∧ kind = .builtin ∧ 0x300 ≤ a.toNat then .trap ⟨0x03, 0, 0⟩ s
    else if form = .code ∧ kind ≠ .spawn then .trap ⟨0x01, 0x02, c.gv rb⟩ s
    else match argTrap (s.rankOf s.fcore) dst rc.toNat (c.args rc).toList with
    | some t => .trap t s
    | none =>
      let d : Desc := match form with
        | .plain => .ok []
        | .payload => s.descriptor (c.gr (rc + 4)) 32
        | .code => s.descriptor (c.gr (rc + 4)) 4
      match d with
      | .trap t => .trap t s
      | .fill p => s.fillPage p
      | .ok bs =>
        let pl := if form = .payload then bs else []
        let cd := if form = .code then wordsOf (bs.length / 4) bs else []
        let m : Msg :=
          { dest := dst, prio := prio, kind := kind, addr := a, relord := rl, args := args, payload := pl, code := cd,
            merge := merge && kind == .builtin && decide (0x200 ≤ a.toNat ∧ a.toNat ≤ 0x2FC), inl := !cd.isEmpty, pay := !pl.isEmpty,
            plen := BitVec.ofNat 8 (pl.length / 32), ilen := BitVec.ofNat 8 cd.length }
        match s.buffer s.fcore s.fctx m with
        | .error t => .trap t s
        | .ok s =>
          let s := s.usedDesc (handleBase (c.gv (rc + 4))).toNat bs.length
          .ok (s.setCur { s.cur with sweep := s.cur.sweep ++ argBases (c.args rc).toList })

/-- send (spec 08 R213 to R216). -/
def execSend (h : Hdr) (ra rb rc : BitVec 4) (prio : BitVec 2) (rl merge : Bool) (s : State) : Out := sendWord h s .plain ra rb rc prio rl merge
/-- sendp (spec 08 R213 to R218). -/
def execSendp (h : Hdr) (ra rb rc : BitVec 4) (prio : BitVec 2) (rl : Bool) (s : State) : Out := sendWord h s .payload ra rb rc prio rl false
/-- sendc (spec 08 R213 to R218). -/
def execSendc (h : Hdr) (ra rb rc : BitVec 4) (prio : BitVec 2) (rl : Bool) (s : State) : Out := sendWord h s .code ra rb rc prio rl false

/-! ### Waiting (spec 02 R62, R64; 08 R225, R226) -/

/-- The tag of a resume satisfies a filter (spec 08 R225). -/
def Recv.takes (r : Recv) (t : BitVec 32) : Bool := (t ^^^ r.filt) &&& r.mask == 0
/-- A resume may be matched against a context: its filter holds, and a resume for a thread rank goes to the holder alone (spec 02 R64, R68). -/
def Ctx.takes (c : Ctx) (m : Msg) : Bool :=
  m.kind == .resume && c.recv.takes m.addr && (decide (localOf m.dest < 768) || c.trank == some m.dest)
/-- The status word of a consumed resume (spec 08 R226). -/
def statusWord (m : Msg) : Word :=
  BitVec.ofNat 64 (m.addr.toNat * 2 ^ 32 + m.srclr.toNat * 2 ^ 20 + m.plen.toNat * 2 ^ 8 + m.ilen.toNat)
/-- The context holds a resume and its registers take the argument words and the status word; a dense complex's resume raises its job's flags
(spec 08 R225; 09 R259). -/
def Ctx.consume (c : Ctx) (m : Msg) : Ctx :=
  let c := if m.srclr = 0x368 ∨ m.srclr = 0x369 then
      { c with ctl := { c.ctl with fpst := c.ctl.fpst ||| ((m.arg 0).extractLsb' 40 6).zeroExtend 8 } } else c
  let d := { c with held := some m, g := (((c.g.set 0 m.args[0]).set 1 m.args[1]).set 2 m.args[2]).set 3 m.args[3] }
  d.setG c.recv.rd (statusWord m)
/-- A WAITING context takes a resume and becomes READY. -/
def State.wake (s : State) (core k : Nat) (m : Msg) : State :=
  s.onCtx core k fun c => { c.consume m with st := .ready }
/-- recv (spec 08 R225). The registers are written after the other words of the group; while the context waits, its result latches complete. The sweep of a group
with a send comes before them (log entry 141, DESIGN CHOICE). -/
def execRecv (h : Hdr) (rd ra rb : BitVec 4) (s : State) : Out :=
  lword h s fun s =>
    let core := s.fcore
    let k := s.fctx
    if s.canRelease core k = false then .again s
    else
      let c := s.cur
      let rv : Recv := { filt := (c.gv ra).truncate 32, mask := (c.gv rb).truncate 32, rd := rd }
      let s := s.release core k
      let c := (s.ctx core k).commit
      let c := if c.ctl.inhnd then { c.freeHeld with ctl := { c.ctl with inhnd := false } } else c
      let c := { c with recv := rv }
      match (s.core core).mailbox.find? fun m => c.takes m with
      | some m =>
        let s := s.onCore core fun x => { x with mailbox := x.mailbox.filter fun y => y.no != m.no }
        .ok (s.setCtx core k (c.consume m))
      | none => .ok (s.setCtx core k { c.drain with st := .waiting })

/-! ### Releasing, ending and yielding (spec 08 R221 to R224) -/

/-- rel (spec 08 R222). The group holds while the retry entries it needs are not free (spec 16 R421). -/
def execRel (h : Hdr) (s : State) : Out :=
  lword h s fun s => if s.canRelease s.fcore s.fctx then .ok (s.release s.fcore s.fctx) else .again s
/-- The effects of end on a context (spec 08 R223): it releases its sends and becomes FREE. -/
def State.endCtx (s : State) (core k : Nat) : State :=
  let s := ((s.release core k).freeCtx core k).ackAll core
  if (s.core core).run = .switchingOut then s.due .contextSwitchOut core k else s
/-- end (spec 08 R223). On an index walker it ends the kernel's run of the line (spec 09 R255). -/
def execEndCtx (h : Hdr) (s : State) : Out :=
  lword h s fun s =>
    let core := s.fcore
    if s.fctx = 16 then
      let s := s.onCore core fun c => { c with iw := { c.iw with inLine := false, progress := c.iw.progress + c.iw.lineN, idx := c.iw.idx + c.iw.lineN } }
      .wait ((s.onCtx core 16 fun c => { c.leaveGroup with st := .free, hold := .none }).due .iwLineRun core)
    else if s.canRelease core s.fctx then .wait (s.endCtx core s.fctx)
    else .again s
/-- yield (spec 08 R224): no group of the context in the next cycle, and the turn goes round. -/
def execYield (h : Hdr) (s : State) : Out := lword h s fun s => .ok (s.setCur { s.cur with bubble := 1 })

/-! ### callat and migrate (spec 02 R69 to R71; 08 R220, R227) -/

/-- Steps 1 to 4 of R180 for one byte read at an address: none when they pass. The byte offset of a window address is ignored. -/
def State.nameCheck (s : State) (g : GReg) (a : Nat) : Option Trap :=
  match placeOf (s.fctx == 16) (s.rankOf s.fcore) a with
  | none => some (pageTrap 0x02 a)
  | some p =>
    if s.priv = false ∧ p = .tile ∧ 0x3F000 ≤ tileOff a ∧ a < 0x40000 then some ⟨0x03, 0, BitVec.ofNat 64 a⟩
    else checkHandle g a 1 true false
/-- The core a window address names, or PAGE 0x08 (spec 08 R220). An LC of another module is one by its local rank. -/
def State.windowCore (s : State) (a : Nat) : Except Trap (BitVec 24) :=
  let r : BitVec 24 := BitVec.ofNat 24 (a / 2 ^ 18)
  if localOf r < 768 ∧ (modOf r ≠ s.modid ∨ s.partOf (localOf r) = some s.curPart) then .ok r else .error (pageTrap 0x08 a)
/-- The message of a callat to the core of rank dst, checked and buffered (spec 02 R71; 08 R220). -/
def State.callTo (s : State) (core k : Nat) (dst : BitVec 24) (hnd : BitVec 32) (rc : BitVec 4) (prio : BitVec 2) (rl : Bool)
    (args : Vector GReg 4) : Except Trap State :=
  match argTrap (s.rankOf core) dst rc.toNat args.toList with
  | some t => .error t
  | none =>
    let pl := leBytes 8 (s.rankOf core).toNat ++ leBytes 8 (s.ctx core k).ctl.rtag.toNat ++ List.replicate 16 0
    match s.buffer core k { dest := dst, prio := prio, kind := .spawn, addr := hnd, relord := rl, args := args, payload := pl, pay := true, plen := 1 } with
    | .error t => .error t
    | .ok s => .ok (s.onCtx core k fun c => { c with sweep := c.sweep ++ argBases args.toList })
/-- callat (spec 08 R220). -/
def execCallat (h : Hdr) (ra rb rc : BitVec 4) (prio : BitVec 2) (rl : Bool) (s : State) : Out :=
  lword h s fun s =>
    let c := s.cur
    let a := (ea (c.gr ra) 0).toNat
    let hnd : BitVec 32 := (c.gv rb).truncate 32
    let at_ (d : BitVec 24) : Res :=
      match s.callTo s.fcore s.fctx d hnd rc prio rl (c.args rc) with
      | .error t => .trap t s
      | .ok s => .ok s
    match s.nameCheck (c.gr ra) a with
    | some t => .trap t s
    | none =>
      if a < 0x41000 then at_ (s.rankOf s.fcore)
      else if a / 2 ^ 42 = 1 then
        match s.windowCore a with
        | .error t => .trap t s
        | .ok d => at_ d
      else
        let r := s.mkReq .callat a 1
        let no := s.nextNo
        let s := { s with nextNo := no + 1, reqs := tset s.reqs no { r with hnd := hnd, dest := rc, prio := prio, relord := rl, args := c.args rc } }
        .wait ((s.setCur { s.cur with hold := .access no }).due .translationRequest no)
/-- A message goes on towards its destination without being counted again. -/
def State.forward (s : State) (m : Msg) : State :=
  let m : Msg := { m with no := s.fab.nextMsg, noord := true, waits := [], tries := 0, inport := none, owed := false }
  { s with fab := { s.fab with msgs := s.fab.msgs ++ [({ msg := m } : NetMsg)], nextMsg := s.fab.nextMsg + 1 } }.leaveFree { msg := m }
/-- Core u passes a resume for a thread rank on to the core the thread moves to: such resumes keep their order (spec 02 R70). -/
def State.passOn (s : State) (u core : Nat) (m : Msg) : State :=
  let m : Msg := { m with no := s.fab.nextMsg, via := some (u, core), noord := false, waits := [], tries := 0, inport := none, owed := false }
  ({ s with fab := { s.fab with msgs := s.fab.msgs ++ [({ msg := m } : NetMsg)], nextMsg := s.fab.nextMsg + 1 } } : State).pump (s.streamOf m)
/-- Resumes for a thread rank that wait in the mailbox of a core are passed on, in arrival order. -/
def State.passResumes (s : State) (r : BitVec 24) (u core : Nat) : State :=
  let it (x : Msg) : Bool := x.kind == .resume && x.dest == r
  let mine := (s.core u).mailbox.filter it
  mine.foldl (fun s m => s.passOn u core m) (s.onCore u fun x => { x with mailbox := x.mailbox.filter fun y => !it y })
/-- The payload of a context message (spec 02 R69). -/
def contextBytes (c : Ctx) : List Byte :=
  let tags := ((c.g.toList.take 10).zipIdx.map fun x => x.1.tag.toNat * 2 ^ x.2).foldl (· + ·) 0
  ((c.g.toList.take 10).flatMap fun x => leBytes 8 x.val.toNat) ++ leBytes 4 c.ctl.scopeW.toNat ++ leBytes 4 c.ctl.rtag.toNat ++
    leBytes 2 c.preds.toNat ++ leBytes 2 tags ++ leBytes 4 ((c.trank.map fun r => r.toNat + 2 ^ 31).getD 0) ++ List.replicate 32 0
/-- The thread of a context moves to the core of rank dst: to its own core nothing moves; else its rank goes into transit, the context message and
the resumes queued for its rank leave, and the context becomes FREE (spec 02 R69, R70; 08 R227). It carries its registers as they stood when migrate
issued, before the writes that wait for the boundary (spec 01 R19, R33). none when it stays. -/
def State.moveTo (s : State) (core k : Nat) (dst : BitVec 24) : Option State :=
  if dst = s.rankOf core then none
  else
    let c := s.ctx core k
    let (q, s) := s.seq core
    let m : Msg :=
      { no := s.fab.nextMsg, dest := dst, prio := c.prio, kind := .context, addr := c.npc, scope := c.ctl.cur, payload := contextBytes c, pay := true, plen := 4,
        srank := s.rankOf core, srclr := BitVec.ofNat 12 core, seqn := q, sctx := k, part := s.partNo core, rtag := c.ctl.rtag,
        arank := s.actingRank core k, waits := s.openStores core k }
    let s := (s.transit core k true).post core m
    let s := if s.anyLost m.waits then s.linkErr core m else s
    let s := match c.trank with
      | some r => s.passResumes r core (localOf dst)
      | none => s
    some (((s.setCtx core k { c with trank := none }).freeCtx core k).ackAll core)
/-- Traps 1 to 6 of migrate (spec 08 R227). -/
def moveTrap (k : Nat) (c : Ctx) : Option Trap :=
  if sysMode k then some ⟨0x03, 0, 0⟩
  else if c.toks.toList.any fun t => t.st == .pending then some ⟨0x22, 0x01, 0⟩
  else if !c.latches.isEmpty then some ⟨0x22, 0x02, 0⟩
  else if !c.sends.isEmpty then some ⟨0x22, 0x03, 0⟩
  else if inlineBase ≤ c.npc.toNat then some ⟨0x22, 0x04, 0⟩
  else ((c.g.toList.take 10).findIdx? fun g => g.tag && handleKind g.val == 1).map fun i => ⟨0x13, 0x04, BitVec.ofNat 64 i⟩
/-- migrate (spec 08 R227). -/
def execMigrate (h : Hdr) (ra : BitVec 4) (s : State) : Out :=
  lword h s fun s =>
    let c := s.cur
    let a := (ea (c.gr ra) 0).toNat
    let to_ (d : BitVec 24) : Res :=
      if modOf d ≠ s.modid then .trap ⟨0x22, 0x05, 0⟩ s
      else match s.moveTo s.fcore s.fctx d with
        | some s => .wait s
        | none => .ok s
    match moveTrap s.fctx c with
    | some t => .trap t s
    | none =>
    match s.nameCheck (c.gr ra) a with
    | some t => .trap t s
    | none =>
      if a < 0x41000 then to_ (s.rankOf s.fcore)
      else if a / 2 ^ 42 = 1 then
        match s.windowCore a with
        | .error t => .trap t s
        | .ok d => to_ d
      else (s.transit s.fcore s.fctx true).block (s.mkReq .migrate a 1)

/-! ### Named barriers (spec 08 R228 to R233) -/

/-- Combine (spec 01 R48; 08 R230). -/
def barCombine (op : BitVec 2) (acc v : Word) : Word :=
  match op.toNat with
  | 0 => acc &&& v
  | 1 => acc ||| v
  | 2 => acc + v
  | _ => acc + BitVec.ofNat 64 (popBits v 64)
where
  popBits (v : Word) : Nat → Nat
    | 0 => 0
    | n + 1 => (v.getLsbD n).toNat + popBits v n
/-- Completing a node with its final ACC and the root's completed GEN (spec 08 R232). -/
def State.completeBar (s : State) (core n : Nat) (acc : Word) (rootGen : BitVec 16) : State :=
  let b := s.bar core n
  let s := b.kids.foldl (fun s x => s.barMsg core x.1 x.2 0x304 acc (rootGen.zeroExtend 64)) s
  let s := b.waiters.foldl (fun s w => s.notify core w stOK acc (BitVec.ofNat 64 (b.gen.toNat + rootGen.toNat * 2 ^ 16))) s
  s.setBar core n { b with arrived := 0, acc := barIdentity b.op, gen := b.gen + 1, kids := [], waiters := [], participants := [], waitsParent := false }
/-- Complete(): the root completes; another node sends its arrival to its parent and waits (spec 08 R232). -/
def State.arriveAll (s : State) (core n : Nat) : State :=
  let b := s.bar core n
  match b.link with
  | none => s.completeBar core n b.acc b.gen
  | some (p, pb) =>
    (s.barMsg core p pb 0x300 b.acc (BitVec.ofNat 64 ((s.rankOf core).toNat + n * 2 ^ 24))).setBar core n { b with waitsParent := true }
/-- An arrival is combined; the last one completes the node. -/
def State.arrive (s : State) (core n : Nat) (b : Barrier) (v : Word) : State :=
  let b := { b with acc := barCombine b.op b.acc v, arrived := b.arrived + 1 }
  let s := s.setBar core n b
  if b.arrived = b.parts then s.arriveAll core n else s
/-- An arm or arrival status word (spec 08 R228). -/
def barStatus (gen : BitVec 16) (broken unarmed stale err : Bool) : Word :=
  BitVec.ofNat 64 (gen.toNat + broken.toNat * 2 ^ 16 + unarmed.toNat * 2 ^ 17 + stale.toNat * 2 ^ 18 + err.toNat * 2 ^ 19)
/-- A BAR word on barrier n of the core that issues. -/
def barWord (h : Hdr) (s : State) (rd : BitVec 4) (f : State → Option (State × Word)) : Out :=
  lword h s fun s => match f s with
    | none => .again s
    | some (s, v) => .ok (s.setCur (s.cur.setG rd v))
/-- barm (spec 08 R228, R229). -/
def execBarm (h : Hdr) (rd ra rb : BitVec 4) (bar : BitVec 6) (s : State) : Out :=
  barWord h s rd fun s =>
    let core := s.fcore
    let n := bar.toNat
    let a := s.cur.gv ra
    let p := s.cur.gv rb
    let b := s.bar core n
    let parts : BitVec 16 := a.truncate 16
    let op : BitVec 2 := a.extractLsb' 16 2
    let pr : BitVec 24 := p.truncate 24
    if parts = 0 ∨ (p.getLsbD 63 = true ∧ (modOf pr ≠ s.modid ∨ 768 ≤ localOf pr)) then some (s, barStatus b.gen false false false true)
    else
      let s := b.waiters.foldl (fun s w => s.notify core w stBroken b.acc (b.gen.zeroExtend 64)) s
      -- an arrival or release in flight to this node finds another generation (spec 08 R241)
      let old (x : NetMsg) : Bool := x.msg.kind == .builtin && (x.msg.addr == 0x300 || x.msg.addr == 0x304) && x.msg.dest == s.rankOf core &&
        (x.msg.arg 2).toNat == n
      let s := { s with fab := { s.fab with msgs := s.fab.msgs.map fun x => if old x then { x with msg := { x.msg with heldBack := true } } else x } }
      some (s.setBar core n { armed := true, parts := parts, op := op, acc := barIdentity op, gen := b.gen + 1, scope := s.curScope,
                              link := if p.getLsbD 63 then some (pr, p.extractLsb' 24 6) else none }, barStatus (b.gen + 1) false false false false)
/-- bara (spec 08 R230). -/
def execBara (h : Hdr) (rd ra rb : BitVec 4) (bar : BitVec 6) (s : State) : Out :=
  barWord h s rd fun s =>
    let core := s.fcore
    let n := bar.toNat
    let b := s.bar core n
    let quiet := (s.cur.gv rb).getLsbD 63
    let w : Waiter := { ctx := s.fctx, tag := (s.cur.gv rb).truncate 32, scope := s.curScope }
    if b.armed = false then some (s, barStatus b.gen false true false false)
    else if b.broken then
      some (if quiet then s else s.notify core w stBroken b.acc (b.gen.zeroExtend 64), barStatus b.gen true false false false)
    else if b.waitsParent then none
    else
      let b' := { b with waiters := if quiet then b.waiters else insertW b.waiters w,
                         participants := if b.participants.contains s.fctx then b.participants else b.participants ++ [s.fctx] }
      some (s.arrive core n b' (s.cur.gv ra), barStatus b.gen false false false false)
/-- barw (spec 08 R231). -/
def execBarw (h : Hdr) (rd ra rb : BitVec 4) (bar : BitVec 6) (s : State) : Out :=
  barWord h s rd fun s =>
    let core := s.fcore
    let n := bar.toNat
    let b := s.bar core n
    let w : Waiter := { ctx := s.fctx, tag := (s.cur.gv rb).truncate 32, scope := s.curScope }
    if b.armed = false then some (s, barStatus b.gen false true false false)
    else if b.broken then
      some (s.notify core w stBroken b.acc (b.gen.zeroExtend 64), barStatus b.gen true false false false)
    else if (s.cur.gv ra).truncate 16 ≠ b.gen then some (s, barStatus b.gen false false true false)
    else some (s.setBar core n { b with waiters := insertW b.waiters w }, barStatus b.gen false false false false)
/-- barq (spec 08 R231). -/
def execBarq (h : Hdr) (rd ra rb : BitVec 4) (bar : BitVec 6) (s : State) : Out :=
  let _ := (ra, rb)
  barWord h s rd fun s =>
    let b := s.bar s.fcore bar.toNat
    some (s, BitVec.ofNat 64 (b.arrived.toNat + b.gen.toNat * 2 ^ 16 + b.parts.toNat * 2 ^ 32 + b.armed.toNat * 2 ^ 48 + b.broken.toNat * 2 ^ 49 +
      b.op.toNat * 2 ^ 50))

/-! ### Scopes (spec 08 R234 to R237) -/

/-- A request of the word that issues to the scope unit; the context holds until it replies. -/
def State.askScope (s : State) (isNew : Bool) (scope : BitVec 16) (tmpl : Word) (sel : Nat) (rd : BitVec 4) : Res :=
  let no := s.nextNo
  let q : ScopeReq := { no := no, core := s.fcore, ctx := s.fctx, part := s.curPart, isNew := isNew, scope := scope, tmpl := tmpl, sel := sel }
  let s := { s with nextNo := no + 1, scopeReqs := s.scopeReqs ++ [q] }
  .wait ((s.setCur { s.cur with hold := .scopeUnit rd no }).due .scopeRequest no)
/-- scnew (spec 08 R235). -/
def execScnew (h : Hdr) (rd ra rb : BitVec 4) (s : State) : Out :=
  let _ := rb
  lword h s fun s =>
    if s.scopeLive s.curPart s.curScope then s.askScope true s.curScope (s.cur.gv ra) 0 rd
    else .trap ⟨0x23, 0, s.curScope.zeroExtend 64⟩ s
/-- scstat (spec 08 R236). -/
def execScstat (h : Hdr) (rd ra rb : BitVec 4) (s : State) : Out :=
  lword h s fun s => s.askScope false ((s.cur.gv ra).truncate 16) 0 ((s.cur.gv rb).extractLsb' 0 3).toNat rd
/-- resume (spec 08 R237): a buffered built-in message to 0x0000_0310, on lane 0 (log entry 145, DESIGN CHOICE). -/
def execResumeW (h : Hdr) (rx ra rb : BitVec 4) (s : State) : Out :=
  let _ := rx
  lword h s fun s =>
    if s.priv = false then .trap ⟨0x03, 0, 0⟩ s
    else
      let a := s.cur.gv ra
      match s.buffer s.fcore s.fctx { dest := a.truncate 24, kind := .builtin, addr := 0x310, args := arg4 a (s.cur.gv rb) 0 0 } with
      | .error t => .trap t s
      | .ok s => .ok s

end Sys2Proof.Machine
end

