-- ==== Sys2Proof/Machine/Scalar.lean ====
section
/-! DEFINITION. Scalar integer words, predicates, control transfer and control registers (spec 05 R131 to R151). -/

namespace Sys2Proof.Machine

/-- A register operation of two sources (spec 05 R134). -/
def alu (h : Hdr) (s : State) (rd ra rb : BitVec 4) (f : Word → Word → Word) : Out :=
  rword h s fun c => c.setG rd (f (c.gv ra) (c.gv rb))
/-- A register operation of one source. -/
def alu1 (h : Hdr) (s : State) (rd ra : BitVec 4) (f : Word → Word) : Out :=
  rword h s fun c => c.setG rd (f (c.gv ra))
/-- A shift amount: bits 5:0 (spec 05 R134). -/
def shamt (b : Word) : Nat := b.toNat % 64
/-- Signed quotient (spec 05 R135). -/
def divSigned (a b : Word) : Word :=
  if b = 0 then BitVec.allOnes 64
  else if a = 0x8000000000000000 ∧ b = BitVec.allOnes 64 then a
  else BitVec.ofInt 64 (Int.tdiv a.toInt b.toInt)
/-- Signed remainder (spec 05 R135). -/
def remSigned (a b : Word) : Word :=
  if b = 0 then a
  else if a = 0x8000000000000000 ∧ b = BitVec.allOnes 64 then 0
  else BitVec.ofInt 64 (Int.tmod a.toInt b.toInt)
/-- Unsigned quotient (spec 05 R135). -/
def divUnsigned (a b : Word) : Word := if b = 0 then BitVec.allOnes 64 else BitVec.ofNat 64 (a.toNat / b.toNat)
/-- Unsigned remainder (spec 05 R135). -/
def remUnsigned (a b : Word) : Word := if b = 0 then a else BitVec.ofNat 64 (a.toNat % b.toNat)
/-- Number of leading zero bits. -/
def clzFrom (a : Word) : Nat → Nat
  | 0 => 64
  | n + 1 => if a.getLsbD n then 63 - n else clzFrom a n
/-- Number of 1 bits below n. -/
def popBelow (a : Word) : Nat → Nat
  | 0 => 0
  | n + 1 => (a.getLsbD n).toNat + popBelow a n
/-- High half of the signed product (spec 05 R134). -/
def mulHigh (a b : Word) : Word := BitVec.ofInt 64 (a.toInt * b.toInt / 2 ^ 64)

/-- add (spec 05 R134). -/
def execAdd (h : Hdr) (rd ra rb : BitVec 4) (s : State) : Out := alu h s rd ra rb fun a b => a + b
/-- sub (spec 05 R134). -/
def execSub (h : Hdr) (rd ra rb : BitVec 4) (s : State) : Out := alu h s rd ra rb fun a b => a - b
/-- and (spec 05 R134). -/
def execAndR (h : Hdr) (rd ra rb : BitVec 4) (s : State) : Out := alu h s rd ra rb fun a b => a &&& b
/-- or (spec 05 R134). -/
def execOrR (h : Hdr) (rd ra rb : BitVec 4) (s : State) : Out := alu h s rd ra rb fun a b => a ||| b
/-- xor (spec 05 R134). -/
def execXorR (h : Hdr) (rd ra rb : BitVec 4) (s : State) : Out := alu h s rd ra rb fun a b => a ^^^ b
/-- andn (spec 05 R134). -/
def execAndn (h : Hdr) (rd ra rb : BitVec 4) (s : State) : Out := alu h s rd ra rb fun a b => a &&& ~~~b
/-- sll (spec 05 R134). -/
def execSll (h : Hdr) (rd ra rb : BitVec 4) (s : State) : Out := alu h s rd ra rb fun a b => a <<< shamt b
/-- srl (spec 05 R134). -/
def execSrl (h : Hdr) (rd ra rb : BitVec 4) (s : State) : Out := alu h s rd ra rb fun a b => a >>> shamt b
/-- sra (spec 05 R134). -/
def execSra (h : Hdr) (rd ra rb : BitVec 4) (s : State) : Out := alu h s rd ra rb fun a b => a.sshiftRight (shamt b)
/-- mul (spec 05 R134). -/
def execMul (h : Hdr) (rd ra rb : BitVec 4) (s : State) : Out := alu h s rd ra rb fun a b => a * b
/-- mulh (spec 05 R134). -/
def execMulh (h : Hdr) (rd ra rb : BitVec 4) (s : State) : Out := alu h s rd ra rb fun a b => mulHigh a b
/-- div (spec 05 R134, R135). -/
def execDivS (h : Hdr) (rd ra rb : BitVec 4) (s : State) : Out := alu h s rd ra rb fun a b => divSigned a b
/-- divu (spec 05 R134, R135). -/
def execDivu (h : Hdr) (rd ra rb : BitVec 4) (s : State) : Out := alu h s rd ra rb fun a b => divUnsigned a b
/-- rem (spec 05 R134, R135). -/
def execRemS (h : Hdr) (rd ra rb : BitVec 4) (s : State) : Out := alu h s rd ra rb fun a b => remSigned a b
/-- remu (spec 05 R134, R135). -/
def execRemu (h : Hdr) (rd ra rb : BitVec 4) (s : State) : Out := alu h s rd ra rb fun a b => remUnsigned a b
/-- min (spec 05 R134). -/
def execMinS (h : Hdr) (rd ra rb : BitVec 4) (s : State) : Out := alu h s rd ra rb fun a b => if a.slt b then a else b
/-- max (spec 05 R134). -/
def execMaxS (h : Hdr) (rd ra rb : BitVec 4) (s : State) : Out := alu h s rd ra rb fun a b => if a.slt b then b else a
/-- minu (spec 05 R134). -/
def execMinu (h : Hdr) (rd ra rb : BitVec 4) (s : State) : Out := alu h s rd ra rb fun a b => if a.ult b then a else b
/-- maxu (spec 05 R134). -/
def execMaxu (h : Hdr) (rd ra rb : BitVec 4) (s : State) : Out := alu h s rd ra rb fun a b => if a.ult b then b else a
/-- mov copies the tag with the value (spec 01 R10; 05 R134). -/
def execMov (h : Hdr) (rd ra : BitVec 4) (s : State) : Out := rword h s fun c => c.setGT rd (c.gr ra)
/-- clz (spec 05 R134). -/
def execClz (h : Hdr) (rd ra : BitVec 4) (s : State) : Out := alu1 h s rd ra fun a => BitVec.ofNat 64 (clzFrom a 64)
/-- popc (spec 05 R134). -/
def execPopc (h : Hdr) (rd ra : BitVec 4) (s : State) : Out := alu1 h s rd ra fun a => BitVec.ofNat 64 (popBelow a 64)

/-- addi (spec 05 R136). -/
def execAddi (h : Hdr) (rd ra : BitVec 4) (imm : BitVec 13) (s : State) : Out := alu1 h s rd ra fun a => a + imm.signExtend 64
/-- andi (spec 05 R136). -/
def execAndi (h : Hdr) (rd ra : BitVec 4) (imm : BitVec 13) (s : State) : Out := alu1 h s rd ra fun a => a &&& imm.signExtend 64
/-- ori (spec 05 R136). -/
def execOri (h : Hdr) (rd ra : BitVec 4) (imm : BitVec 13) (s : State) : Out := alu1 h s rd ra fun a => a ||| imm.signExtend 64
/-- xori (spec 05 R136). -/
def execXori (h : Hdr) (rd ra : BitVec 4) (imm : BitVec 13) (s : State) : Out := alu1 h s rd ra fun a => a ^^^ imm.signExtend 64
/-- slli (spec 05 R137). -/
def execSlli (h : Hdr) (rd ra : BitVec 4) (amt : BitVec 6) (s : State) : Out := alu1 h s rd ra fun a => a <<< amt.toNat
/-- srli (spec 05 R137). -/
def execSrli (h : Hdr) (rd ra : BitVec 4) (amt : BitVec 6) (s : State) : Out := alu1 h s rd ra fun a => a >>> amt.toNat
/-- srai (spec 05 R137). -/
def execSrai (h : Hdr) (rd ra : BitVec 4) (amt : BitVec 6) (s : State) : Out := alu1 h s rd ra fun a => a.sshiftRight amt.toNat
/-- lui (spec 05 R138). -/
def execLui (h : Hdr) (rd : BitVec 4) (imm : BitVec 17) (s : State) : Out := rword h s fun c => c.setG rd (imm.signExtend 64 * 0x2000)
/-- auipc (spec 05 R138): the address is the word's own. -/
def execAuipc (h : Hdr) (rd : BitVec 4) (imm : BitVec 17) (s : State) : Out :=
  rword h s fun c => c.setG rd (c.pc.zeroExtend 64 + imm.signExtend 64 * 0x2000)

/-! ### Compares and predicate logic (spec 05 R140, R141) -/

/-- A compare of a register with a value into a predicate. -/
def cmpWord (h : Hdr) (s : State) (pd ra : BitVec 4) (b : Ctx → Word) (f : Word → Word → Bool) : Out :=
  rword h s fun c => c.setP pd (f (c.gv ra) (b c))

/-- cmp.eq (spec 05 R140). -/
def execCmpEq (h : Hdr) (rd ra rb : BitVec 4) (s : State) : Out := cmpWord h s rd ra (fun c => c.gv rb) fun a b => a == b
/-- cmp.ne (spec 05 R140). -/
def execCmpNe (h : Hdr) (rd ra rb : BitVec 4) (s : State) : Out := cmpWord h s rd ra (fun c => c.gv rb) fun a b => a != b
/-- cmp.lt (spec 05 R140). -/
def execCmpLt (h : Hdr) (rd ra rb : BitVec 4) (s : State) : Out := cmpWord h s rd ra (fun c => c.gv rb) fun a b => a.slt b
/-- cmp.ge (spec 05 R140). -/
def execCmpGe (h : Hdr) (rd ra rb : BitVec 4) (s : State) : Out := cmpWord h s rd ra (fun c => c.gv rb) fun a b => !a.slt b
/-- cmp.ltu (spec 05 R140). -/
def execCmpLtu (h : Hdr) (rd ra rb : BitVec 4) (s : State) : Out := cmpWord h s rd ra (fun c => c.gv rb) fun a b => a.ult b
/-- cmp.geu (spec 05 R140). -/
def execCmpGeu (h : Hdr) (rd ra rb : BitVec 4) (s : State) : Out := cmpWord h s rd ra (fun c => c.gv rb) fun a b => !a.ult b
/-- cmpi.eq (spec 05 R140). -/
def execCmpiEq (h : Hdr) (rd ra : BitVec 4) (imm : BitVec 10) (s : State) : Out := cmpWord h s rd ra (fun _ => imm.signExtend 64) fun a b => a == b
/-- cmpi.ne (spec 05 R140). -/
def execCmpiNe (h : Hdr) (rd ra : BitVec 4) (imm : BitVec 10) (s : State) : Out := cmpWord h s rd ra (fun _ => imm.signExtend 64) fun a b => a != b
/-- cmpi.lt (spec 05 R140). -/
def execCmpiLt (h : Hdr) (rd ra : BitVec 4) (imm : BitVec 10) (s : State) : Out := cmpWord h s rd ra (fun _ => imm.signExtend 64) fun a b => a.slt b
/-- cmpi.ge (spec 05 R140). -/
def execCmpiGe (h : Hdr) (rd ra : BitVec 4) (imm : BitVec 10) (s : State) : Out := cmpWord h s rd ra (fun _ => imm.signExtend 64) fun a b => !a.slt b
/-- cmpi.ltu (spec 05 R140). -/
def execCmpiLtu (h : Hdr) (rd ra : BitVec 4) (imm : BitVec 10) (s : State) : Out := cmpWord h s rd ra (fun _ => imm.zeroExtend 64) fun a b => a.ult b
/-- cmpi.geu (spec 05 R140). -/
def execCmpiGeu (h : Hdr) (rd ra : BitVec 4) (imm : BitVec 10) (s : State) : Out := cmpWord h s rd ra (fun _ => imm.zeroExtend 64) fun a b => !a.ult b
/-- pand (spec 05 R141). -/
def execPand (h : Hdr) (rd ra rb : BitVec 4) (s : State) : Out := rword h s fun c => c.setP rd (c.pr ra && c.pr rb)
/-- por (spec 05 R141). -/
def execPor (h : Hdr) (rd ra rb : BitVec 4) (s : State) : Out := rword h s fun c => c.setP rd (c.pr ra || c.pr rb)
/-- pxor (spec 05 R141). -/
def execPxor (h : Hdr) (rd ra rb : BitVec 4) (s : State) : Out := rword h s fun c => c.setP rd (c.pr ra != c.pr rb)
/-- pandn (spec 05 R141). -/
def execPandn (h : Hdr) (rd ra rb : BitVec 4) (s : State) : Out := rword h s fun c => c.setP rd (c.pr ra && !c.pr rb)
/-- pnot (spec 05 R141). -/
def execPnot (h : Hdr) (rd ra : BitVec 4) (s : State) : Out := rword h s fun c => c.setP rd (!c.pr ra)
/-- pset (spec 05 R141). -/
def execPset (h : Hdr) (rd : BitVec 4) (val : Bool) (s : State) : Out := rword h s fun c => c.setP rd val
/-- prd (spec 05 R141): bit 0 reads 1. -/
def execPrd (h : Hdr) (rd : BitVec 4) (s : State) : Out := rword h s fun c => c.setG rd ((c.preds ||| 1).zeroExtend 64)
/-- pwr (spec 05 R141): p1 to p15 from bits 15:1. -/
def execPwr (h : Hdr) (ra : BitVec 4) (s : State) : Out := rword h s fun c => { c with preds := (c.gv ra).truncate 16 ||| 1 }

/-! ### Control transfer (spec 05 R142 to R146) -/

/-- Check a target: alignment, the inline window, the code region (spec 05 R142). -/
def targetTrap (s : State) (t : BitVec 32) : Option Trap :=
  let a := t.toNat
  if a % 4 ≠ 0 then some ⟨0x04, 0, t.zeroExtend 64⟩
  else if inlineBase ≤ a then
    let n := match s.cur.held with | some m => m.code.length | none => 0
    if a < inlineBase + 4 * n then none else some ⟨0x01, 0, t.zeroExtend 64⟩
  else if (s.part s.curPart).codeLen ≤ a then some (pageTrap 0x01 a)
  else none
/-- A taken transfer to a target, with its bubble cycles (spec 05 R143); the link or counter is written when the checks pass. -/
def transfer (s : State) (t : BitVec 32) (bubble : Nat) (wr : Ctx → Ctx) : Res :=
  match targetTrap s t with
  | some tr => .trap tr s
  | none => .ok (s.setCur { wr s.cur with npc := t, bubble := bubble })
/-- The target of br and call (spec 05 R144). -/
def branchTarget (c : Ctx) (off : BitVec 21) : BitVec 32 := c.pc + (off.signExtend 32 <<< 2)
/-- The return address: the word after the transfer. -/
def linkValue (c : Ctx) : Word := (c.pc + 4).zeroExtend 64
/-- br (spec 05 R144). -/
def execBr (h : Hdr) (off : BitVec 21) (s : State) : Out := lword h s fun s => transfer s (branchTarget s.cur off) 1 id
/-- call writes the link to g15 (spec 05 R144). -/
def execCall (h : Hdr) (off : BitVec 21) (s : State) : Out :=
  lword h s fun s => transfer s (branchTarget s.cur off) 1 fun c => c.setG 15 (linkValue c)
/-- jr (spec 05 R145). -/
def execJr (h : Hdr) (ra : BitVec 4) (s : State) : Out := lword h s fun s => transfer s ((s.cur.gv ra).truncate 32) 2 id
/-- jalr: the target is read before the link is written (spec 05 R145). -/
def execJalr (h : Hdr) (rd ra : BitVec 4) (s : State) : Out :=
  lword h s fun s => transfer s ((s.cur.gv ra).truncate 32) 2 fun c => c.setG rd (linkValue c)
/-- loop: leave past the body when the counter is zero, else decrement it and enter (spec 05 R146). -/
def execLoopW (h : Hdr) (ra : BitVec 4) (imm : BitVec 13) (s : State) : Out :=
  lword h s fun s =>
    let c := s.cur
    if c.gv ra = 0 then transfer s (c.pc + BitVec.ofNat 32 (4 * (imm.toNat + 1))) 1 id
    else .ok (s.setCur { c.setG ra (c.gv ra - 1) with npc := c.nextPc })

end Sys2Proof.Machine
end

