-- ==== Sys2Proof/Machine/System.lean ====
section
/-! DEFINITION. System words: trap, eret, break, pause, halt, and the restart of a context from its frame (spec 05 R148 to R151; 09 R263 to R268;
16 R408, R413). -/

namespace Sys2Proof.Machine

/-- trap (spec 09 R264). -/
def execTrap (h : Hdr) (k : BitVec 8) (s : State) : Out :=
  lword h s fun s => if s.priv then .trap ⟨k, 0, 0⟩ s else .trap ⟨0x03, 0, 0⟩ s
/-- break (spec 09 R266). -/
def execBreakTrap (h : Hdr) (k : BitVec 8) (s : State) : Out := lword h s fun s => .trap ⟨0x40, k, 0⟩ s
/-- pause (spec 09 R267): no group for 16 × k cycles, in which every result latch completes; pause 0 is yield. -/
def execPause (h : Hdr) (k : BitVec 8) (s : State) : Out :=
  lword h s fun s =>
    if k = 0 then .ok (s.setCur { s.cur with bubble := 1 })
    else .ok ((s.setCur { s.cur with bubble := 16, hold := .paused }).later .pauseExpiry s.fcore s.fctx)
/-- A built-in by which the core's context 15 is asked for: switch-out, switch-in or attention (spec 09 R268; 16 R415). -/
def Msg.asksSystem (m : Msg) : Bool := m.kind == .builtin && (m.addr == 0x314 || m.addr == 0x318 || m.addr == 0x31C)
/-- The wake event of a system context is already pending (spec 09 R268): a request to the core for context 15, taken or arrived; a queued resume for
context 14. -/
def State.wakePending (s : State) (core k : Nat) : Bool :=
  if k = 15 then !(s.core core).sysreq.isEmpty || s.fab.msgs.any fun x => x.ph == .arrived && x.msg.asksSystem && localOf x.msg.dest == core else (s.core core).mailbox.any fun m => m.kind == .resume
/-- halt (spec 09 R268). -/
def execHalt (h : Hdr) (s : State) : Out :=
  lword h s fun s =>
    if s.priv = false then .trap ⟨0x03, 0, 0⟩ s
    else if s.wakePending s.fcore s.fctx then .ok s
    else .ok (s.setCur { s.cur with hold := .halted })
/-- A context whose state is WAITING takes the earliest queued resume that satisfies its filter (spec 02 R64). -/
def State.matchQueued (s : State) (core k : Nat) : State :=
  let c := s.ctx core k
  if c.st = .waiting then
    match (s.core core).mailbox.find? fun m => c.takes m with
    | some m => (s.onCore core fun x => { x with mailbox := x.mailbox.filter fun y => y.no != m.no }).wake core k m
    | none => s
  else s
/-- A SAVED context restarts: at the group its frame names, still blocked on the access its record names (spec 09 R265; 16 R408). -/
def State.restoreSaved (s : State) (core k : Nat) : State :=
  let hold := match (s.ctx core k).hold with
    | .paused => Hold.none
    | x => x
  let s := s.restart core k (BitVec.ofNat 32 (s.frame core k 0x90 4)) (BitVec.ofNat 4 (s.frame core k 0xBD 1)) (s.frame core k 0xA4 1)
  let s := s.onCtx core k fun c => { c with hold := hold }
  (s.wr (savePa core + 0x4000 + 0x40 * k) 1 0).matchQueued core k
/-- A STOPPED context restarts its faulting group with the frame's DONEMASK; pc is given (spec 16 R402, R413). -/
def State.restartStopped (s : State) (core k : Nat) (pc : BitVec 32) (done : BitVec 4) : State :=
  let fst := s.frame core k 0xA4 1
  (s.restart core k pc done fst).matchQueued core k
/-- TPC − 4 × SLOT of a frame. -/
def State.framePc (s : State) (core k : Nat) : BitVec 32 :=
  BitVec.ofNat 32 (s.frame core k 0x90 4) - BitVec.ofNat 32 (4 * bits (s.frame core k 0x84 4) 18 2)
/-- The frame is a handler's that trapped before its release: HND = 1 and TORN = 0. -/
def State.frameHandler (s : State) (core k : Nat) : Bool :=
  let c := s.frame core k 0x84 4
  bits c 16 1 == 1 && bits c 17 1 == 0
/-- eret (spec 09 R265). -/
def execEret (h : Hdr) (ra : BitVec 4) (s : State) : Out :=
  lword h s fun s =>
    let g := s.cur.gv ra
    let core := s.fcore
    let k := (g.extractLsb' 0 4).toNat
    let st := (s.ctx core k).st
    if s.priv = false then .trap ⟨0x03, 0, 0⟩ s
    else if 14 ≤ k ∨ (st ≠ .stopped ∧ st ≠ .saved) then .trap ⟨0x01, 0x03, g⟩ s
    else if st = .stopped ∧ s.frameHandler core k = true then .trap ⟨0x01, 0x04, g⟩ s
    else
      let pc := if st = .stopped then s.framePc core k else BitVec.ofNat 32 (s.frame core k 0x90 4)
      if pc.toNat % 4 ≠ 0 then .trap ⟨0x04, 0, pc.zeroExtend 64⟩ s
      else if st = .stopped then .ok (s.restartStopped core k pc (BitVec.ofNat 4 (s.frame core k 0xBD 1)))
      else .ok (s.restoreSaved core k)

/-! ### Control registers (spec 01 R17 to R29; 05 R148 to R151) -/

/-- mfs (spec 05 R148). -/
def execMfs (h : Hdr) (rd : BitVec 4) (k : BitVec 8) (s : State) : Out :=
  lword h s fun s => .ok (s.setCur (s.cur.setG rd (s.mfsVal k.toNat)))
/-- mts (spec 05 R149): the write takes effect at the boundary. -/
def execMts (h : Hdr) (ra : BitVec 4) (k : BitVec 8) (s : State) : Out :=
  lword h s fun s =>
    let v := s.cur.gv ra
    let put (v : Word) : Res := .ok (s.setCur { s.cur with pendMts := s.cur.pendMts ++ [(k.toNat, v)] })
    if s.priv = true then put v
    else if ctlSystem k.toNat then .trap ⟨0x03, 0, 0⟩ s
    else if k = 4 then
      if s.scopeLive s.curPart (v.truncate 16) = false then .trap ⟨0x23, 0, v⟩ s
      else if s.inScope s.curPart s.cur.ctl.base (v.truncate 16) = false then .trap ⟨0x03, 0, v⟩ s
      else put ((s.cur.ctl.base ++ (v.truncate 16 : BitVec 16) : BitVec 32).zeroExtend 64)
    else put v
/-- nop (spec 05 R151). -/
def execNop (h : Hdr) (s : State) : Out := lword h s fun s => .ok s
/-- LATCH_COMPLETE: result latch c of a context writes its register and raises its flags (spec 01 R13). a = core, b = context. -/
def execLatchComplete (s : State) : Out :=
  let c := s.ctx s.occ.a s.occ.b
  match c.latches[s.occ.c]? with
  | none => .next s
  | some l =>
    let d := c.setW l.dest l.val
    .next (s.setCtx s.occ.a s.occ.b { d with latches := c.latches.eraseIdx s.occ.c, ctl := { d.ctl with fpst := d.ctl.fpst ||| l.flags } })

end Sys2Proof.Machine
end

