-- ==== Sys2Proof/Machine/Engines.lean ====
section
/-! DEFINITION. Engine words and their operations, the walker words and prune (spec 08 R238; 09 R242 to R258). -/

namespace Sys2Proof.Machine

/-! ### Tokens (spec 09 R242) -/

/-- What an input register adds to a new operation: edges, and whether an input has failed. A discarded command leaves no operation and never
ends, so an edge from it is never satisfied (spec 09 R247). -/
def State.input (s : State) (c : Ctx) (r : BitVec 3) : List Nat × Bool :=
  if r = 0 then ([], false)
  else
    let t := c.tok r
    match t.st with
    | .empty | .done => ([], false)
    | .failed | .cancelled => ([], true)
    | .pending => match s.op t.op with
      | some o => if o.ph = .ended then ([], o.st != .done) else ([t.op], false)
      | none => ([t.op], false)
/-- An engine word (spec 09 R247): its block is read, the command is buffered, and its token register becomes PENDING. -/
def engineWord (h : Hdr) (s : State) (eng : Engine) (len : Nat) (tkd tka tkb tkc : BitVec 3) (cb : BitVec 4) : Out :=
  lword h s fun s =>
    let c := s.cur
    let a := (ea (c.gr cb) 0).toNat
    if a % 32 ≠ 0 then .trap ⟨0x04, 0, BitVec.ofNat 64 a⟩ s
    else match firstOff len fun i => decide (0x41000 ≤ a + i) with
    | some _ => .trap (pageTrap 0x02 a) s
    | none =>
      match s.readDesc (c.gr cb) a len with
      | .trap t => .trap t s
      | .fill p => s.fillPage p
      | .ok bs =>
        if 32 ≤ c.sends.length then .trap ⟨0x20, 0, 0⟩ s
        else
          let (e1, f1) := s.input c tka
          let (e2, f2) := s.input c tkb
          let (e3, f3) := s.input c tkc
          let n := s.nextNo
          let o : Op := { no := n, engine := eng, core := s.fcore, ctx := s.fctx, scope := s.curScope, part := s.curPart, rank := s.acting, system := s.priv,
                          tk := tkd.toNat, block := bs, edges := (e1 ++ e2 ++ e3).eraseDups, inputFailed := f1 || f2 || f3,
                          linkwait := c.ctl.linkwait, space := c.space }
          let s := ({ s with nextNo := n + 1 } : State).setOp n o
          let c' : Ctx := { c with sends := c.sends ++ [Buffered.cmd ⟨n⟩] }
          .ok (((s.setCur (c'.setTok tkd ⟨.pending, n⟩)).stage s.fcore s.fctx).usedDesc a len)

/-- copy (spec 09 R246, R251). -/
def execCopy (h : Hdr) (tkd tka tkb tkc : BitVec 3) (cb : BitVec 4) (s : State) : Out := engineWord h s .copy 64 tkd tka tkb tkc cb
/-- copys (spec 09 R246, R251). -/
def execCopys (h : Hdr) (tkd tka tkb tkc : BitVec 3) (cb : BitVec 4) (s : State) : Out := engineWord h s .copys 64 tkd tka tkb tkc cb
/-- walk (spec 09 R246, R254). -/
def execWalk (h : Hdr) (tkd tka tkb tkc : BitVec 3) (cb : BitVec 4) (s : State) : Out := engineWord h s .walk 96 tkd tka tkb tkc cb
/-- dispatch (spec 09 R246, R257). -/
def execDispatch (h : Hdr) (tkd tka tkb tkc : BitVec 3) (cb : BitVec 4) (s : State) : Out := engineWord h s .dispatch 64 tkd tka tkb tkc cb
/-- combine (spec 09 R246, R257). -/
def execCombine (h : Hdr) (tkd tka tkb tkc : BitVec 3) (cb : BitVec 4) (s : State) : Out := engineWord h s .combine 64 tkd tka tkb tkc cb
/-- djob (spec 09 R246, R258). -/
def execDjob (h : Hdr) (tkd tka tkb tkc : BitVec 3) (cb : BitVec 4) (s : State) : Out := engineWord h s .djob 32 tkd tka tkb tkc cb

/-! ### Walker words (spec 09 R256) -/

/-- The walk that runs on a core. -/
def State.walkOp (s : State) (core : Nat) : Option Op := ((s.core core).iw.run).bind s.op
/-- Fields of a walk block (spec 09 R254). -/
def Op.nidx (o : Op) : Nat := bits (o.word 2) 0 32
def Op.id64 (o : Op) : Bool := (o.word 2).testBit 32
def Op.idWidth (o : Op) : Nat := if o.id64 then 64 else 32
def Op.walkEtd (o : Op) : Nat := bits (o.word 3) 0 48
def Op.dbuf (o : Op) : Nat := bits (o.word 4) 0 48
def Op.nslot (o : Op) : Nat := bits (o.word 5) 0 16
def Op.step (o : Op) : BitVec 20 := BitVec.ofNat 20 (o.word 5 / 2 ^ 32)
def Op.map (o : Op) : Nat := bits (o.word 6) 0 48
/-- A walker word: it acts on the walk that runs. A decoded word of an LC has trapped ILLEGAL (spec 03 R92). -/
def walkerWord (h : Hdr) (s : State) (f : State → Op → Res) : Out :=
  lword h s fun s => match s.walkOp s.fcore with
    | some o => if s.fctx = 16 then f s o else .trap ⟨0x01, 0, 0⟩ s
    | none => .trap ⟨0x01, 0, 0⟩ s
/-- dedup (spec 09 R256). -/
def execDedup (h : Hdr) (rd ra : BitVec 4) (s : State) : Out :=
  walkerWord h s fun s o =>
    let x := (s.cur.gv ra).toNat % 2 ^ o.idWidth
    let w := (s.core s.fcore).iw
    if x = 2 ^ o.idWidth - 1 then .ok (s.setCur (s.cur.setG rd (BitVec.allOnes 64)))
    else match w.window.find? fun y => y.1 == x with
      | some (_, sl) => .ok ((s.onCore s.fcore fun c => { c with iw := { c.iw with hits := c.iw.hits + 1 } }).setCur (s.cur.setG rd (BitVec.ofNat 64 sl)))
      | none => .ok (s.setCur (s.cur.setG rd 0x8000000000000000))
/-- The row request of an emitted id (spec 09 R256; 13 R346, R350): to the slice that translates the row's address. -/
def State.requestRow (s : State) (core : Nat) (o : Op) (d : Etd) (va slot : Nat) : State :=
  let land := o.dbuf + slot * d.len
  s.sendNow core { builtinMsg (s.rankOf (xlSlice (s.part o.part) va)) 0x200 0 o.part o.scope
      (arg4 (BitVec.ofNat 64 va) (BitVec.ofNat 64 (((s.core core).iw.run.getD 0) % 2 ^ 32 * 2 ^ 32 + 2 ^ 21 + d.strict.toNat * 2 ^ 20))
        (BitVec.ofNat 64 o.walkEtd) (BitVec.ofNat 64 (o.step.toNat + land % 2 ^ 18 * 2 ^ 32))) with
    merge := d.merge, arank := o.rank }
/-- emit (spec 09 R256). -/
def execEmit (h : Hdr) (rd ra : BitVec 4) (s : State) : Out :=
  walkerWord h s fun s o =>
    let core := s.fcore
    let x := (s.cur.gv ra).toNat % 2 ^ o.idWidth
    let w := (s.core core).iw
    let d : Etd := w.desc
    if x = 2 ^ o.idWidth - 1 then .ok (s.setCur (s.cur.setG rd (BitVec.allOnes 64)))
    else if d.rows ≤ x then .wait (s.failWalk core 0x0A ⟨0, 0, BitVec.ofNat 64 x⟩)
    else if w.counter = o.nslot then .wait (s.failWalk core 0x09 ⟨0, 0, 0⟩)
    else
      let sl := w.counter
      let s := s.onCore core fun c =>
        { c with iw := { w with counter := sl + 1, window := ((x, sl) :: w.window).take 256, emitted := w.emitted + 1, pending := w.pending ++ [sl] } }
      .ok ((s.requestRow core o d (d.rowAddr x) sl).setCur (s.cur.setG rd (BitVec.ofNat 64 sl)))
/-- slot (spec 09 R256). -/
def execSlot (h : Hdr) (ra rb : BitVec 4) (s : State) : Out :=
  walkerWord h s fun s o =>
    let i := (s.cur.gv ra).toNat
    let a := o.map + 4 * i
    if o.nidx ≤ i then .wait (s.failWalk s.fcore 0x0A ⟨0, 0, s.cur.gv ra⟩)
    else match s.check a 4 0 false true {} with
      | .trap t => .trap t s
      | .fill p => s.fillPage p
      | .ok p => .ok ((s.tileWr s.fcore s.cur.space (tileOff a) (leBytes 4 ((s.cur.gv rb).toNat % 2 ^ 32))).used p a 4)

/-! ### prune (spec 08 R238) -/

/-- prune: it acts at issue; its token register waits for the acknowledgement. -/
def execPrune (h : Hdr) (tkd : BitVec 3) (ra rb : BitVec 4) (s : State) : Out :=
  lword h s fun s =>
    let g := s.cur.gv ra
    let sc : BitVec 16 := g.truncate 16
    let part := s.curPart
    let b := s.cur.gv rb
    if s.priv = false ∧ (sc = 0 ∨ s.inScope part s.cur.ctl.base sc = false) then .trap ⟨0x03, 0, g⟩ s
    else if (s.scope part sc).st = .free then .trap ⟨0x23, 0, g⟩ s
    else
      let n := s.nextNo
      let o : Op := { no := n, engine := .prune, core := s.fcore, ctx := s.fctx, scope := s.curScope, part := part, rank := s.acting, tk := tkd.toNat,
                      ph := .started, linkwait := s.cur.ctl.linkwait, unit := 874 + (s.scope part sc).die, pruneNo := n + 1 }
      let s := ({ s with nextNo := n + 1 } : State).setOp n o
      let (_, s) := s.startPrune part sc (s.rankOf s.fcore) s.fctx s.curScope (b.truncate 32) (b.getLsbD 63) n false
      .ok (s.setCur (s.cur.setTok tkd ⟨.pending, n⟩))

end Sys2Proof.Machine
end

