-- ==== Sys2Proof/Machine/EngineMem.lean ====
section
/-! DEFINITION. Accesses of engines, one piece within a 64-byte line at a time: tile memory of the issuing core, the remote tile window and global
space, under the translation, region, seal and poison rules, and pieces on other modules (spec 09 R251 to R253; 10 R282, R283; 12 R321 to
R337; 17 R443). -/

namespace Sys2Proof.Machine

/-- What one piece of an engine access meets: done, with the bytes read and whether the source is poisoned; a failure with its REASON and trap; or
the target cannot take it now, or has not answered: the request to another module that is to be sent comes with it (spec 12 R322, R334; 16 R417,
R422; log entry 35). -/
inductive ERes where
  | ok (s : State) (bs : List Byte) (bad : Bool)
  | fail (s : State) (reason : Nat) (t : Trap)
  | busy (q : Option Req)
/-- What a run of engine accesses meets, with what it gathers. -/
inductive TRes (α : Type) where
  | ok (s : State) (v : α)
  | fail (s : State) (reason : Nat) (t : Trap)
  | busy (q : Option Req)
/-- A REASON FAULT failure. -/
def eFault (s : State) (t : Trap) : ERes := .fail s 0x01 t
/-- REASON NONE to OTHERS of spec 09 R250 by name. -/
def rsnFault : Nat := 0x01
def rsnBadcmd : Nat := 0x02
def rsnOverlap : Nat := 0x03
def rsnQueue : Nat := 0x04
def rsnInput : Nat := 0x05
def rsnPruned : Nat := 0x06
def rsnSealed : Nat := 0x07
def rsnLink : Nat := 0x0C
def rsnDense : Nat := 0x0D
def rsnTarget : Nat := 0x0E

/-- A write of bytes at a physical address with their poison (spec 12 R337). -/
def State.storeMarked (s : State) (pa : Nat) (bs : List Byte) (bad : Bool) : State :=
  if bad then (s.store pa bs).poisonUnits pa bs.length else s.store pa bs

/-- Where an engine's address lies: a core's tile memory, the tile memory of a core of another module, or global space; or the trap (spec 09 R251;
10 R282; 12 R323). -/
inductive EPlace where
  | tile (core sp off : Nat)
  | remote (r : BitVec 24)
  | global
  deriving DecidableEq, Repr
/-- The place of n bytes at va for an operation; n bytes lie within one line. -/
def State.engPlace (s : State) (o : Op) (va n : Nat) : Except Trap EPlace :=
  let sys (off : Nat) : Bool := !o.system && decide (0x3F000 < off + n)
  if va < 0x40000 then
    if sys va then .error ⟨0x03, 0, BitVec.ofNat 64 va⟩
    else match (List.range n).find? fun i => decide (va + i < 0x3F000) && decide (s.allotment o.core o.space ≤ (va + i) / 4096) with
      | some i => .error (pageTrap 0x05 (va + i))
      | none => .ok (.tile o.core o.space va)
  else if va < 0x50000 ∨ 2 ^ 48 ≤ va then .error (pageTrap 0x02 va)
  else if va / 2 ^ 42 = 1 then
    let r : BitVec 24 := BitVec.ofNat 24 (va / 2 ^ 18)
    let core := localOf r
    if sys (tileOff va) then .error ⟨0x03, 0, BitVec.ofNat 64 va⟩
    else if 768 ≤ core then .error (pageTrap 0x08 va)
    else if modOf r ≠ s.modid then .ok (.remote r)
    else if s.partOf core ≠ some o.part then .error (pageTrap 0x08 va)
    else
      let sp := if core = o.core then some o.space else s.spaceFor core o.part o.scope
      match sp with
      | none => .error (pageTrap 0x08 va)
      | some sp => match s.pageOver core sp va n with
        | some i => .error (pageTrap 0x05 (va + i))
        | none => .ok (.tile core sp (tileOff va))
  else .ok .global

/-- The hedge of this module at whose slice or core an engine's address lies. -/
def State.hedgeAt (s : State) (o : Op) (va : Nat) : Option Nat :=
  match s.engPlace o va 1 with
  | .ok (.tile core _ _) => some (core / 8)
  | .ok .global => match (s.xlate o.part va).2 with
    | .ok e => if e.mod = s.modid then some (homeOf (e.pa va) / 8) else none
    | .error _ => none
  | .ok (.remote _) => none
  | .error _ => none
/-- Activity class of an operation's traffic, minus 1: copies 3, dispatches and combines 4, dense jobs 5, walks 1, prunes 7 (spec 09 R246; 15 R400). -/
def Op.cls (o : Op) : Nat := match o.engine with | .copy | .copys => 2 | .dispatch | .combine => 3 | .djob => 4 | .walk => 0 | .prune => 6
/-- The crossbar port over which an operation's own unit moves data; none for a copy, whose parts are read where they are, and for the launch unit, which has
none (spec 17 R434). -/
def Op.port (o : Op) : Option Nat :=
  match o.engine with
  | .copy | .copys => none
  | .prune => if o.unit < 768 then unitPort o.unit else none
  | .dispatch | .combine | .djob | .walk => unitPort o.unit
/-- The budget profile of an operation's traffic: that of the launch it is done for, or that of its scope (spec 15 R385, R399). -/
def State.opProfile (s : State) (o : Op) : Nat := o.prof.getD (s.profile o.part o.scope)
/-- What an engine's move of n bytes between two ports is charged (spec 15 R400). -/
def State.moved (s : State) (o : Op) (a b : Option Nat) (n : Nat) : State :=
  if a = none ∨ b = none then s else s.chargeAs o.part (s.opProfile o) o.cls (moveUses a b (unitBytes n))
/-- What the launch unit takes to read or write n bytes at a home: the request and its answer on the torus (spec 15 R385; 17 R434). -/
def luUses (home n : Nat) : List PortUse := [⟨0, routerOf 876, flitCount (32 + n)⟩, ⟨0, routerOf home, flitCount (32 + n)⟩]
/-- The way of the launch unit to a home is granted to an operation; every other unit's is. -/
def State.luOpen (s : State) (o : Op) (home : Nat) : Bool :=
  !(o.engine == .prune && o.unit == 876 && o.prof.isSome) || s.usesOpenAs o.part (s.opProfile o) o.cls (luUses home 0)
/-- The launch unit is charged for n bytes at a home. -/
def State.luMoved (s : State) (o : Op) (home n : Nat) : State :=
  if o.engine = .prune ∧ o.unit = 876 ∧ o.prof.isSome = true then s.chargeAs o.part (s.opProfile o) o.cls (luUses home n) else s
/-- The port of an operation's unit grants it data, in direction dir: 0 out, 1 in. -/
def State.engOpen (s : State) (o : Op) (dir : Nat) : Bool :=
  match o.port with
  | some p => s.usesOpenAs o.part (s.opProfile o) o.cls [⟨1, 2 * p + dir, 0⟩]
  | none => true
/-- The ports between an operation's unit and the hedge of an address grant a move, in direction dir seen from the unit. -/
def State.reachOpen (s : State) (o : Op) (va dir : Nat) : Bool :=
  match s.hedgeAt o va, o.port with
  | some h, some p => s.usesOpenAs o.part (s.opProfile o) o.cls (if dir = 1 then moveUses (some h) (some p) 0 else moveUses (some p) (some h) 0)
  | _, _ => true
/-! ### Pieces on other modules (spec 09 R252, R253; 17 R440, R443; log entries 26 and 35) -/

/-- The number by which the home of another module tells an engine's write from others (spec 12 R333); 7 for what only reads. -/
def Op.wcode (o : Op) : Nat := match o.engine with | .copy | .copys => 4 | .djob => 5 | .dispatch | .combine => 6 | .walk | .prune => 7
/-- The context that a write of an operation bears as its writer: the issuing one for a copy, else 0xF (spec 09 R253; 12 R331). -/
def Op.wctx (o : Op) : Nat := match o.engine with | .copy | .copys => o.ctx | .dispatch | .combine | .djob | .walk | .prune => 15
/-- The request that an operation has made for a piece. -/
def State.asked (s : State) (o : Op) (unit : Nat) (va n : Nat) (write : Bool) (data : List Byte) : Option Req :=
  (s.reqs.find? fun x => x.2.eng == some o.no && x.2.core == unit && x.2.kind == (if write then AKind.store else AKind.load) && x.2.va == va &&
    x.2.len == n && x.2.data == data).map fun x => x.2
/-- A piece of an operation at another module, or in a page that moves: the answer of the request made for it, or the request. The answer is taken
once. tag is the part of a copy. -/
def State.engAsk (s : State) (o : Op) (unit : Nat) (p : Piece) (write bad : Bool) (data : List Byte) (tag : Nat := 0) : ERes :=
  let kind : AKind := if write then .store else .load
  match s.asked o unit p.va p.len write data with
  | none =>
    .busy (some { no := 0, core := unit, ctx := if write then o.wctx else 15, unit := s.rankOf unit, tag := tag, part := o.part, rank := o.rank, scope := o.scope, cls := o.cls, kind := kind, va := p.va, len := p.len, pieces := [p],
                  data := data, accepted := true, phase := .home, linkwait := o.linkwait, eng := some o.no, wkind := o.wcode, bad := bad })
  | some r =>
    if r.phase ≠ .finished then .busy none
    else match r.trap with
      | some t => if t.code = 0x16 then .fail (s.delReq r.no) rsnLink ⟨0, 0, 0⟩ else if t.code = 0x14 then .fail (s.delReq r.no) rsnSealed t else eFault (s.delReq r.no) t
      | none => .ok (s.delReq r.no) r.result r.bad
/-- Send the request that a busy piece comes with; one for a page of this module that moves queues at its home (spec 12 R334). -/
def State.askEng (s : State) (q : Option Req) : State :=
  match q with
  | none => s
  | some r0 => match r0.pieces with
    | [] => s
    | p :: _ =>
      let (n, s) := s.fresh
      let r := { r0 with no := n }
      if p.mod = s.modid ∧ p.isGlobal = true then (s.setReq r).due .homeAccess n
      else ((s.setReq r).askRemote r p).later .linkwaitExpiry r.core r.ctx n

/-- One read of an engine. The bytes come whatever poison they carry. In a checked region the reader is the acting rank with context 0xF (spec 12
R331; log entry 124). -/
def State.engRead (s : State) (o : Op) (va n : Nat) : ERes :=
  match s.engPlace o va n with
  | .error t => eFault s t
  | .ok (.remote r) => s.engAsk o o.unit { va := va, len := n, mod := modOf r, pa := va } false false []
  | .ok (.tile core sp off) =>
    match s.pinPages core sp off n with
    | none => .busy none
    | some s => .ok (s.moved o (some (core / 8)) o.port n) (s.tileRd core sp off n) (s.tilePoison core sp off n).isSome
  | .ok .global =>
    match s.xlate o.part va with
    | (s, .error t) => eFault s t
    | (s, .ok e) =>
      let rg := s.region o.part va
      match regionCheck rg o.rank .engineRead with
      | some sub => eFault s (regionTrap sub va)
      | none =>
        if e.mod ≠ s.modid then s.engAsk o o.unit { va := va, len := n, mod := e.mod, pa := e.pa va } false false []
        else
          let pa := s.redirect (e.pa va)
          if s.luOpen o (homeOf pa) = false then .busy none
          else if (s.movingAt pa).isSome || (s.asked o o.unit va n false []).isSome then
            s.engAsk o o.unit { va := va, len := n, mod := e.mod, pa := e.pa va, attr := attrOf rg e } false false []
          else
            let rst := match rg with | some x => x.2.st | none => 3
            let s := s.settleMarks rst pa n
            let (bad, unk) := s.checkedRead rst pa n o.rank 15
            match bad with
            | some i => eFault s ⟨0x18, 0, BitVec.ofNat 64 (va + i)⟩
            | none => .ok (((s.logUnchecked o.part va pa unk).moved o (some (homeOf pa / 8)) o.port n).luMoved o (homeOf pa) n) (memRead s.mem pa n) (s.poisonedAt pa n)
/-- One write of an engine of local rank unit. In a checked region the acting rank, with the issuing context for a copy and else 0xF, is the writer, and
the line is flushed when its part ends (spec 09 R253; 12 R331; log entry 124). -/
def State.engWrite (s : State) (o : Op) (unit : Nat) (kind : WKind) (va : Nat) (bs : List Byte) (bad : Bool) (tag : Nat := 0) : ERes :=
  let n := bs.length
  match s.engPlace o va n with
  | .error t => eFault s t
  | .ok (.remote r) => s.engAsk o unit { va := va, len := n, mod := modOf r, pa := va } true bad bs tag
  | .ok (.tile core sp off) =>
    match (s.core core).run with
    | .switchingOut | .out | .switchingIn => .busy none
    | .resetting | .gated | .ungating => .fail s rsnTarget ⟨0, 0, 0⟩
    | .inn =>
      match (List.range n).find? fun i => s.sealedAt core sp (off + i) with
      | some i => .fail s rsnSealed ⟨0x14, 0, BitVec.ofNat 64 (va + i)⟩
      | none => match s.pinPages core sp off n with
        | none => .busy none
        | some s =>
          let s := (s.moved o (unitPort unit) (some (core / 8)) n).tileWr core sp off bs
          .ok (if bad then s.poisonUnits (tilePa core sp off) n else s) [] false
  | .ok .global =>
    match s.xlate o.part va with
    | (s, .error t) => eFault s t
    | (s, .ok e) =>
      let rg := s.region o.part va
      match regionCheck rg o.rank .engineWrite with
      | some sub => eFault s (regionTrap sub va)
      | none =>
        if e.mod ≠ s.modid then s.engAsk o unit { va := va, len := n, mod := e.mod, pa := e.pa va } true bad bs tag
        else
          let pa := s.redirect (e.pa va)
          if (s.movingAt pa).isSome || (s.asked o unit va n true bs).isSome then
            s.engAsk o unit { va := va, len := n, mod := e.mod, pa := e.pa va, attr := attrOf rg e } true bad bs tag
          else
            let rst := match rg with | some x => x.2.st | none => 3
            let x : Writer := { rank := o.rank, ctx := o.wctx, kind := kind, engine := some (s.rankOf unit) }
            let s := ((s.moved o (unitPort unit) (some (homeOf pa / 8)) n).storeMarked pa bs bad).markWrite rst va pa n x false
            .ok (s.watchWrite o.part va pa n x) [] false
/-- A read of a run of bytes, line by line: the bytes with the first poisoned byte, a failure, or busy. -/
def engReadRun (s : State) (o : Op) : Nat → Nat → Nat → List Byte → Option Nat → ERes × Option Nat
  | 0, _, _, acc, bad => (.ok s acc bad.isSome, bad)
  | f + 1, va, n, acc, bad =>
    if n = 0 then (.ok s acc bad.isSome, bad)
    else
      let k := min n (64 - va % 64)
      match s.engRead o va k with
      | .ok s bs b => engReadRun s o f (va + k) (n - k) (acc ++ bs) (if bad.isSome then bad else if b then some va else none)
      | .fail s r t => (.fail s r t, bad)
      | .busy q => (.busy q, bad)
/-- Read n bytes at va, which may lie in two lines, whatever poison they carry. -/
def State.engSplit (s : State) (o : Op) (va n : Nat) : ERes := (engReadRun s o (n / 64 + 2) va n [] none).1
/-- Read n bytes at va; a poisoned line faults POISON. -/
def State.engBytes (s : State) (o : Op) (va n : Nat) : ERes :=
  match engReadRun s o (n / 64 + 2) va n [] none with
  | (.ok s bs _, none) => .ok s bs false
  | (.ok s _ _, some a) => eFault s (poisonTrap a)
  | (r, _) => r
/-- Write a run of bytes, line by line. -/
def engWriteRun (s : State) (o : Op) (unit : Nat) (kind : WKind) : Nat → Nat → List Byte → ERes
  | 0, _, _ => .ok s [] false
  | f + 1, va, bs =>
    if bs.isEmpty then .ok s [] false
    else
      let k := min bs.length (64 - va % 64)
      match s.engWrite o unit kind va (bs.take k) false with
      | .ok s _ _ => engWriteRun s o unit kind f (va + k) (bs.drop k)
      | r => r

end Sys2Proof.Machine
end

