-- ==== Sys2Proof/Machine/Dense.lean ====
section
/-! DEFINITION. Dense sequencer code: the words of the four slots, their issue checks, the scoreboard, what a word does when it completes, jobs and
traps (spec 03 R94 to R98; 04 R127 to R130; 10 R269 to R296). -/

namespace Sys2Proof.Machine

/-! ### Registers (spec 10 R270, R276) -/

/-- Change a dense sequencer. -/
def State.onDs (s : State) (die : Nat) (f : Ds → Ds) : State := s.setDs die (f (s.ds die))
/-- The DS in focus. -/
def State.dsCur (s : State) : Ds := s.ds s.fdie
def Ds.dv (d : Ds) (n : BitVec 5) : Word := d.d[n.toNat]'(by have := n.isLt; omega)
def Ds.ag (d : Ds) (n : BitVec 4) : AGen := d.a[n.toNat]'(by have := n.isLt; omega)
/-- Values a register may show: its own, and those of writes not yet complete. -/
def Ds.cands (d : Ds) (n : BitVec 5) : List Word := d.dv n :: (d.pend.filter fun p => p.dest == .d n).map fun p => p.val
/-- Read a d register. With a write to it on its way the reader sees the old or a new value; which one is free (spec 10 R270; log entry 4). -/
def State.dRead (s : State) (n : BitVec 5) : Word × State :=
  let c := s.dsCur.cands n
  if c.length = 1 then (s.dsCur.dv n, s)
  else
    let (f, s) := s.drawFree
    (c.getD (f.toNat % c.length) 0, s)
/-- A result is on its way to a register or generator field for L cycles. -/
def State.dPend (s : State) (dest : DDest) (v : Word) (L : Nat) : State :=
  s.onDs s.fdie fun d => { d with pend := d.pend ++ [⟨dest, v, L⟩] }
/-- A result reaches its register or field. -/
def Ds.write (d : Ds) (x : DDest) (v : Word) : Ds :=
  match x with
  | .d n => { d with d := d.d.set n.toNat v (by have := n.isLt; omega) }
  | .base n => { d with a := d.a.set n.toNat { d.ag n with base := v.truncate 48 } (by have := n.isLt; omega) }
  | .stride n => { d with a := d.a.set n.toNat { d.ag n with stride := v.truncate 32 } (by have := n.isLt; omega) }
  | .count n => { d with a := d.a.set n.toNat { d.ag n with count := v.truncate 32 } (by have := n.isLt; omega) }
/-- HMODE and PARKED. -/
def Ds.hmode (d : Ds) : Bool := d.dcause.getLsbD 16
def Ds.parked (d : Ds) : Bool := d.dcause.getLsbD 17
/-- The JOB value dmfs returns (spec 10 R276). -/
def Ds.jobWord (d : Ds) : Word :=
  BitVec.ofNat 64 (d.job.isSome.toNat * 2 ^ 63 + d.killed.toNat * 2 ^ 62 + d.flags.toNat % 64 * 2 ^ 56 + d.jprio.toNat * 2 ^ 48 + d.desc.toNat)
/-- The type of the active or the shadow plane. -/
def Ds.planeTy (d : Ds) (shadow : Bool) : ETy := if d.active != shadow then d.planeTy1 else d.planeTy0
/-- The area of the active or the shadow plane. -/
def Ds.planeNo (d : Ds) (shadow : Bool) : Nat := if d.active != shadow then 1 else 0

/-! ### Dense-buffer rows (spec 01 R47; 10 R280) -/

def bankBase (k : Nat) : Nat := 0x13E0000 + k * 0x40000
def protectBase : Nat := 0x13E0000
def dbSize : Nat := 0x1800000
/-- ADDR and TYPE of a generator on the buffer side. -/
def AGen.addr (g : AGen) : Nat := g.base.toNat % 2 ^ 25
def AGen.tyCode (g : AGen) : Nat := g.base.toNat / 2 ^ 44
def AGen.baseOk (g : AGen) : Bool := bits g.base.toNat 25 19 == 0
/-- Row r on the buffer side, and on the memory side. -/
def AGen.row (g : AGen) (r : Nat) : Nat := (((g.addr : Int) + r * g.stride.toInt) % (2 ^ 25 : Nat)).toNat
def AGen.mrow (g : AGen) (r : Nat) : Nat := (((g.base.toNat : Int) + r * g.stride.toInt) % (2 ^ 48 : Nat)).toNat
/-- The n rows of length len from base b stay in an address space of 2^w bytes without wrapping. -/
def linear (b : Nat) (stride : Int) (n w : Nat) : Bool :=
  let e : Int := b + (n - 1 : Nat) * stride
  decide (0 ≤ e) && decide (e < (2 ^ w : Nat))
/-- Span of n rows of len bytes: lowest and highest byte; the whole space where the rows wrap. -/
def rowSpan (b : Nat) (stride : Int) (n len w : Nat) : Nat × Nat :=
  let e := ((b : Int) + (n - 1 : Nat) * stride).toNat
  if linear b stride n w then (min b e, max b e + len - 1) else (0, 2 ^ w - 1)
/-- The first row below n for which a test of its address fails. -/
def AGen.firstRow (g : AGen) (n : Nat) (ok : Nat → Bool) : Option Nat := ((List.range n).find? fun r => !ok (g.row r)).map g.row
/-- A test that only lets through rows in an interval holds for all rows when it holds for the first and the last of rows that do not wrap. -/
def AGen.badRow (g : AGen) (n : Nat) (ok : Nat → Bool) : Option Nat :=
  if n = 0 then none
  else if linear g.addr g.stride.toInt n 25 && ok (g.row 0) && ok (g.row (n - 1)) then none
  else g.firstRow n ok
/-- The first row whose address is not 32-aligned. -/
def misaligned (n : Nat) (row : Nat → Nat) : Option Nat :=
  if n ≠ 0 ∧ row 0 % 32 ≠ 0 then some (row 0) else if 1 < n ∧ row 1 % 32 ≠ 0 then some (row 1) else none

/-- DSTATE with its slot and the offending value (spec 10 R291). -/
def dstate (sub : BitVec 8) (slot v : Nat) : Trap := ⟨0x50, sub, BitVec.ofNat 64 (slot + v % 2 ^ 32 * 2 ^ 32)⟩
/-- RANGE: the first row of the buffer side that does not lie in the buffer, or a base that is no address there. -/
def rangeTrap (slot : Nat) (g : AGen) (n len : Nat) : Option Trap :=
  if !g.baseOk then some (dstate 0x02 slot g.base.toNat) else (g.badRow n fun a => decide (a + len ≤ dbSize)).map fun a => dstate 0x02 slot a
/-- DALIGN: a row that is not 32-aligned. -/
def alignTrap (slot n : Nat) (row : Nat → Nat) : Option Trap := (misaligned n row).map fun a => dstate 0x04 slot a
/-- Checks of rows on the buffer side: RANGE, then their alignment. -/
def rowsTrap (slot : Nat) (g : AGen) (n len : Nat) : Option Trap := (rangeTrap slot g n len).or (alignTrap slot n g.row)
/-- PROTECT: a row meets the bank or park range. -/
def protectTrap (slot : Nat) (g : AGen) (n len : Nat) : Option Trap :=
  (g.badRow n fun a => decide (a + len ≤ protectBase)).map fun a => dstate 0x03 slot a
/-- The first trap of several checks. -/
def firstTrap : List (Option Trap) → Option Trap
  | [] => none
  | some t :: _ => some t
  | none :: r => firstTrap r

/-! ### Issue checks (spec 10 R269 to R293) -/

/-- Element types of planes and activations (spec 10 R284). -/
def planeTyOf (code : Nat) : Option ETy :=
  match code with
  | 0x0 => some .i8 | 0xA => some .f16 | 0xB => some .bf16 | 0xC => some .e4m3 | 0xD => some .e5m2 | _ => none
/-- Activation and plane types that may meet. -/
def pairOk (act plane : ETy) : Bool :=
  match act, plane with
  | .bf16, .bf16 | .f16, .f16 | .i8, .i8 | .e4m3, .e4m3 | .e4m3, .e5m2 | .e5m2, .e4m3 | .e5m2, .e5m2 => true
  | _, _ => false
/-- Bytes of an element. -/
def ewidth (t : ETy) : Nat :=
  match t with
  | .i8 | .n8 | .e4m3 | .e5m2 => 1
  | .i16 | .n16 | .f16 | .bf16 => 2
  | .i32 | .n32 | .f32 => 4
  | .i64 | .n64 | .f64 | .fx64 => 8
/-- A matrix word in handler mode needs PARKED (spec 10 R293). -/
def unparked (d : Ds) (slot : Nat) : Option Trap := if d.hmode && !d.parked then some (dstate 0x08 slot 0) else none
/-- COUNT from 1 to 256. -/
def countTrap (slot : Nat) (g : AGen) : Option Trap :=
  if g.count.toNat = 0 ∨ 256 < g.count.toNat then some (dstate 0x05 slot g.count.toNat) else none
/-- Element types mdrain may write (spec 10 R288). -/
def drainTy (fmt : Nat) : Option ETy :=
  match fmt with
  | 0x0 => some .i8 | 0x1 => some .i16 | 0x2 => some .i32 | 0x9 => some .f32 | 0xA => some .f16 | 0xB => some .bf16 | 0xC => some .e4m3
  | 0xD => some .e5m2 | _ => none
/-- Checks of xin, xout and dbcpy (spec 10 R282): g the generator with the row length, m the one with the row count. -/
def xferTrap (d : Ds) (needJob : Bool) (g m : AGen) (dbWrite : Bool) (mem : Bool) : Option Trap :=
  let len := g.count.toNat
  let n := m.count.toNat
  firstTrap [
    if needJob && d.job.isNone then some (dstate 0x09 1 0) else none,
    if len % 32 ≠ 0 ∨ len < 32 ∨ 0x100000 < len then some (dstate 0x05 1 len) else none,
    rangeTrap 1 g n len,
    if mem then none else rangeTrap 1 m n len,
    alignTrap 1 n g.row,
    if mem then none else alignTrap 1 n m.row,
    if dbWrite then protectTrap 1 g n len else none,
    if mem then alignTrap 1 n m.mrow else none]
/-- The trap of a word's issue checks. -/
def Ds.check (d : Ds) (i : Instr) : Option Trap :=
  match i with
  | .jget _ => if d.job.isSome then some (dstate 0x0A 0 0) else none
  | .jdone _ => if d.job.isNone then some (dstate 0x09 0 0) else none
  | .dret => if d.hmode && !d.parked then none else some (dstate 0x07 0 0)
  | .xin an am => xferTrap d true (d.ag an) (d.ag am) true true
  | .xout an am => xferTrap d true (d.ag an) (d.ag am) false true
  | .dbcpy an am => xferTrap d false (d.ag an) (d.ag am) true false
  | .ldd _ an =>
    let g := d.ag an
    firstTrap [if g.baseOk && decide (g.addr + 8 ≤ dbSize) then none else some (dstate 0x02 1 g.base.toNat),
      if g.addr % 8 = 0 then none else some (dstate 0x04 1 g.addr)]
  | .std _ an =>
    let g := d.ag an
    firstTrap [if g.baseOk && decide (g.addr + 8 ≤ dbSize) then none else some (dstate 0x02 1 g.base.toNat),
      if g.addr % 8 = 0 then none else some (dstate 0x04 1 g.addr), if g.addr + 8 ≤ protectBase then none else some (dstate 0x03 1 g.addr)]
  | .mlw an | .mlwt an =>
    let g := d.ag an
    firstTrap [unparked d 2, countTrap 2 g, if (planeTyOf g.tyCode).isSome then none else some (dstate 0x06 2 g.tyCode),
      rowsTrap 2 g g.count.toNat (256 * ((planeTyOf g.tyCode).map ewidth).getD 1)]
  | .mswap => unparked d 2
  | .mst _ an _ =>
    let g := d.ag an
    firstTrap [unparked d 2, countTrap 2 g,
      if ((planeTyOf g.tyCode).map fun t => pairOk t (d.planeTy false)).getD false then none else some (dstate 0x06 2 g.tyCode),
      rowsTrap 2 g g.count.toNat (256 * ((planeTyOf g.tyCode).map ewidth).getD 1)]
  | .mstz _ an _ az =>
    let g := d.ag an
    firstTrap [unparked d 2, countTrap 2 g,
      if ((planeTyOf g.tyCode).map fun t => pairOk t (d.planeTy false)).getD false then none else some (dstate 0x06 2 g.tyCode),
      rowsTrap 2 g g.count.toNat (256 * ((planeTyOf g.tyCode).map ewidth).getD 1), rowsTrap 2 (d.ag az) 1 32]
  | .mdrain _ an fmt =>
    let g := d.ag an
    let len := 256 * ((drainTy fmt.toNat).map ewidth).getD 1
    firstTrap [unparked d 2, countTrap 2 g, if (drainTy fmt.toNat).isSome then none else some (dstate 0x06 2 fmt.toNat),
      rowsTrap 2 g g.count.toNat len, protectTrap 2 g g.count.toNat len]
  | .mzero mask => firstTrap [unparked d 2, if mask = 0 then some (dstate 0x05 2 0) else none]
  | .mpark => if d.hmode && !d.parked then none else some (dstate 0x07 2 0)
  | .munpark => if d.hmode && d.parked then none else some (dstate 0x07 2 0)
  | .vbias _ an => firstTrap [unparked d 3, rowsTrap 3 (d.ag an) 1 1024]
  | .vscale .. | .vrelu .. | .vclamp .. | .vgelu .. => unparked d 3
  | _ => none

/-! ### Bundles (spec 03 R96, R97) -/

/-- What a D-code word names: d registers read and written, generators, accumulator banks. -/
structure DUse where
  rd : List Nat := []
  wr : List Nat := []
  ag : List Nat := []
  bank : List Nat := []
  deriving DecidableEq, Repr
/-- Banks of a mask. -/
def maskBanks (m : BitVec 8) : List Nat := (List.range 8).filter fun k => m.getLsbD k
def dUse : Instr → DUse
  | .dAdd dd da db | .dSub dd da db | .dAnd dd da db | .dOr dd da db | .dXor dd da db | .dSll dd da db | .dSrl dd da db | .dMul dd da db =>
    { rd := [da.toNat, db.toNat], wr := [dd.toNat] }
  | .dAddi dd da _ => { rd := [da.toNat], wr := [dd.toNat] }
  | .dLui dd _ => { wr := [dd.toNat] }
  | .dBeq da db _ | .dBne da db _ | .dBlt da db _ => { rd := [da.toNat, db.toNat] }
  | .jget dd => { wr := [dd.toNat] }
  | .jdone da => { rd := [da.toNat] }
  | .agset an _ da => { rd := [da.toNat], ag := [an.toNat] }
  | .dmfs dd _ => { wr := [dd.toNat] }
  | .xin an am | .xout an am | .dbcpy an am => { ag := [an.toNat, am.toNat] }
  | .ldd dd an => { wr := [dd.toNat], ag := [an.toNat] }
  | .std dd an => { rd := [dd.toNat], ag := [an.toNat] }
  | .mlw an | .mlwt an => { ag := [an.toNat] }
  | .mst b an _ => { ag := [an.toNat], bank := [b.toNat] }
  | .mstz b an _ az => { ag := [an.toNat, az.toNat], bank := [b.toNat] }
  | .mdrain b an _ => { ag := [an.toNat], bank := [b.toNat] }
  | .mzero m => { bank := maskBanks m }
  | .vbias b an => { ag := [an.toNat], bank := [b.toNat] }
  | .vscale b da => { rd := [da.toNat], bank := [b.toNat] }
  | .vrelu b | .vgelu b => { bank := [b.toNat] }
  | .vclamp b da db => { rd := [da.toNat, db.toNat], bank := [b.toNat] }
  | _ => {}
def meets (a b : List Nat) : Bool := a.any fun x => b.contains x
/-- Two slots depend on each other (spec 03 R97). -/
def dDep (x y : Instr) : Bool :=
  let a := dUse x
  let b := dUse y
  let whole : Instr → Bool := fun i => i == .mswap || i == .mpark || i == .munpark
  meets a.wr (b.rd ++ b.wr) || meets b.wr a.rd || meets a.ag b.ag || meets a.bank b.bank ||
    (whole x && !b.bank.isEmpty) || (whole y && !a.bank.isEmpty)
/-- The first pair of slots that depend, in ascending order. -/
def depPair (ws : List Instr) : Option (Nat × Nat) :=
  ((List.range 4).flatMap fun i => (List.range 4).map fun j => (i, j)).find? fun p =>
    decide (p.1 < p.2) && (match ws[p.1]?, ws[p.2]? with | some x, some y => dDep x y | _, _ => false)
/-- Decode the four slot words in order (spec 03 R96): the words of slots S, L, M, V, or the trap of the first that is illegal. -/
def decodeBundle (b : Nat) : Except Trap (List Instr) :=
  (List.range 4).mapM fun i =>
    let w := bits b (32 * i) 32
    match decodeD i w with
    | .ok x => .ok x
    | .error _ => .error (dstate 0x01 i w)

/-! ### The scoreboard (spec 10 R271, R272) -/

/-- A set of bytes is taken as the span from its lowest to its highest byte, space by space. -/
def hull (l : List (Nat × Nat × Nat)) : List (Nat × Nat × Nat) :=
  (l.map fun x => x.1).eraseDups.map fun sp =>
    let mine := l.filter fun x => x.1 == sp
    (sp, ((mine.map fun x => x.2.1).min?).getD 0, ((mine.map fun x => x.2.2).max?).getD 0)
/-- What a word of the L, M or V slot needs: its operands, byte ranges, path and cycles. S-slot words need nothing. -/
def Ds.needs (d : Ds) (i : Instr) : Option DWord :=
  let db (g : AGen) (n len : Nat) : List (Nat × Nat × Nat) := if n = 0 then [] else
    let (l, h) := rowSpan g.addr g.stride.toInt n len 25
    [(0, l, h)]
  let mem (g : AGen) (n len : Nat) : List (Nat × Nat × Nat) := if n = 0 then [] else
    let (l, h) := rowSpan g.base.toNat g.stride.toInt n len 48
    [(1, l, h)]
  let bank (k n : Nat) : Nat × Nat × Nat := (0, bankBase k, bankBase k + n * 1024 - 1)
  let plane (sh : Bool) : Nat × Nat × Nat := (if sh then 3 else 2, 0, 0)
  let w (code : Nat) : Nat := ((planeTyOf code).map ewidth).getD 1
  let rows (g : AGen) : Nat := if w g.tyCode = 1 then (g.count.toNat + 1) / 2 else g.count.toNat
  match i with
  | .ldd _ an => some { no := 0, op := i, a := d.ag an, reads := [(0, (d.ag an).addr, (d.ag an).addr + 7)], path := 1, rem := 4 }
  | .std _ an => some { no := 0, op := i, a := d.ag an, writes := [(0, (d.ag an).addr, (d.ag an).addr + 7)], path := 1, rem := 4 }
  | .xin an am =>
    let g := d.ag an
    let m := d.ag am
    if m.count = 0 then none
    else some { no := 0, op := i, a := g, b := m, reads := mem m m.count.toNat g.count.toNat, writes := db g m.count.toNat g.count.toNat, path := 2,
                occ := (m.count.toNat * g.count.toNat + 255) / 256, xfer := true }
  | .xout an am =>
    let g := d.ag an
    let m := d.ag am
    if m.count = 0 then none
    else some { no := 0, op := i, a := g, b := m, reads := db g m.count.toNat g.count.toNat, writes := mem m m.count.toNat g.count.toNat, path := 2,
                occ := (m.count.toNat * g.count.toNat + 255) / 256, xfer := true }
  | .dbcpy an am =>
    let g := d.ag an
    let m := d.ag am
    let o := (m.count.toNat * g.count.toNat + 255) / 256
    if m.count = 0 then none
    else some { no := 0, op := i, a := g, b := m, reads := db m m.count.toNat g.count.toNat, writes := db g m.count.toNat g.count.toNat, path := 3, occ := o,
                rem := o + 4 }
  | .mlw an | .mlwt an =>
    let g := d.ag an
    some { no := 0, op := i, a := g, reads := db g g.count.toNat (256 * w g.tyCode), writes := [plane true], path := 4, occ := rows g, rem := rows g + 8 }
  | .mswap => some { no := 0, op := i, reads := [plane true], writes := [plane true, plane false], rem := 1 }
  | .mst b an _ =>
    let g := d.ag an
    some { no := 0, op := i, a := g, reads := plane false :: db g g.count.toNat (256 * w g.tyCode), rows := some (bank b.toNat g.count.toNat), path := 5,
           occ := rows g, rem := rows g + 512 }
  | .mstz b an _ az =>
    let g := d.ag an
    some { no := 0, op := i, a := g, z := d.ag az, reads := plane false :: db g g.count.toNat (256 * w g.tyCode) ++ db (d.ag az) 1 32,
           rows := some (bank b.toNat g.count.toNat), path := 5, occ := rows g, rem := rows g + 512 }
  | .mdrain b an fmt =>
    let g := d.ag an
    some { no := 0, op := i, a := g, reads := [bank b.toNat g.count.toNat], writes := db g g.count.toNat (256 * ((drainTy fmt.toNat).map ewidth).getD 1),
           path := 6, occ := g.count.toNat, rem := g.count.toNat + 8 }
  | .mzero m =>
    let n := (maskBanks m).length
    some { no := 0, op := i, writes := (maskBanks m).map fun k => bank k 256, path := 7, occ := 64 * n, rem := 64 * n }
  | .mpark | .munpark =>
    let n := (maskBanks (if i = .mpark then d.bankUse else d.parkUse)).length
    some { no := 0, op := i, path := 7, occ := 64 * n + 32, rem := 64 * n + 32 }
  | .vbias b an => some { no := 0, op := i, a := d.ag an, reads := bank b.toNat 256 :: db (d.ag an) 1 1024, writes := [bank b.toNat 256], path := 8, occ := 64, rem := 68 }
  | .vscale b _ | .vrelu b | .vclamp b _ _ => some { no := 0, op := i, reads := [bank b.toNat 256], writes := [bank b.toNat 256], path := 8, occ := 64, rem := 68 }
  | .vgelu b => some { no := 0, op := i, reads := [bank b.toNat 256], writes := [bank b.toNat 256], path := 8, occ := 128, rem := 132 }
  | _ => none
/-- The outstanding word that a word makes, each of its sets one span. -/
def Ds.outWord (d : Ds) (i : Instr) : Option DWord := (d.needs i).map fun w => { w with reads := hull w.reads, writes := hull w.writes }
/-- Spans that meet. -/
def spanMeet (a b : Nat × Nat × Nat) : Bool := a.1 == b.1 && decide (a.2.1 ≤ b.2.2) && decide (b.2.1 ≤ a.2.2)
def spansMeet (a b : List (Nat × Nat × Nat)) : Bool := a.any fun x => b.any fun y => spanMeet x y
def DWord.isPass (w : DWord) : Bool := match w.op with | .mst .. | .mstz .. => true | _ => false
def DWord.isPark (w : DWord) : Bool := match w.op with | .mpark | .munpark => true | _ => false
def DWord.isMove (w : DWord) : Bool := match w.op with | .xin .. | .xout .. | .dbcpy .. => true | _ => false
/-- A word conflicts with an earlier one that has not completed (spec 10 R271). Passes into the bank rows both write do not conflict there. -/
def DWord.conflicts (n e : DWord) : Bool :=
  let nb := n.rows.toList
  let eb := e.rows.toList
  let both := n.isPass && e.isPass
  spansMeet n.writes (e.reads ++ e.writes) || spansMeet e.writes n.reads ||
    spansMeet nb (e.reads ++ e.writes) || spansMeet eb (n.reads ++ n.writes) || (!both && spansMeet nb eb)
/-- mpark and munpark conflict with every word, those of the S slot and results on their way included (spec 10 R271, R293). -/
def Ds.parkHolds (d : Ds) (ws : List Instr) : Bool :=
  d.outst.any DWord.isPark || (ws.any (fun i => i == .mpark || i == .munpark) && !(d.outst.isEmpty && d.pend.isEmpty))
/-- A word of the bundle is held: a conflict, an occupied path, or a ninth transfer or copy (spec 10 R271, R272). -/
def Ds.holds (d : Ds) (i : Instr) : Bool :=
  match d.outWord i with
  | none => false
  | some w =>
    d.outst.any (fun e => w.conflicts e || (w.path != 0 && e.path == w.path && decide (0 < e.occ))) ||
      (w.isMove && decide (8 ≤ (d.outst.filter fun e => e.isMove).length))

/-! ### Traps and the ends of jobs (spec 10 R277, R292, R294) -/

/-- The job held ends; KILLED stays as it is (spec 10 R277). -/
def State.endJob (s : State) (die : Nat) (st : TokSt) (reason : Nat) (t : Trap) (progress : Nat) (own : Bool) : State :=
  let d := s.ds die
  match d.job with
  | none => s
  | some n =>
    let s := match s.op n with
      | some o => s.setOp n { o with flags := d.flags }
      | none => s
    let s := s.endOp n st reason t progress 0 own
    s.onDs die fun d => { d with job := none }
/-- A DS trap: into the handler, or the complex halts (spec 10 R292, R294). -/
def State.dTrap (s : State) (die : Nat) (t : Trap) (pc : BitVec 32) : State :=
  let d := s.ds die
  if d.hmode then
    let s := s.endJob die .failed rsnDense ⟨0x50, 0x0F, 0⟩ 0 false
    let s := s.log [0x50, die, t.code.toNat, t.sub.toNat, t.tval.toNat, pc.toNat]
    (s.onDs die fun d => { d with halted := true }).later .dsReset die
  else s.onDs die fun d => { d with dcause := BitVec.ofNat 32 (2 ^ 16 + t.sub.toNat * 2 ^ 8 + t.code.toNat), dtpc := pc, dtval := t.tval, dpc := 0x40, npc := 0x40 }
/-- jdone when its hold has ended: a transfer fault that is pending, or has just come, fails the job (spec 10 R277, R296). -/
def State.finishJob (s : State) (die : Nat) (v : Word) : State :=
  let d := s.ds die
  let p := v.toNat % 2 ^ 63
  let s := match d.tfault.or (if d.tHandling then none else d.xfault) with
    | some t => s.endJob die .failed rsnDense t 0 false
    | none =>
      if d.killed then s.endJob die .cancelled rsnPruned ⟨0, 0, 0⟩ 0 true
      else if v.getLsbD 63 then s.endJob die .failed rsnDense ⟨d.dcause.truncate 8, d.dcause.extractLsb' 8 8, d.dtval⟩ p false
      else s.endJob die .done 0 ⟨0, 0, 0⟩ p false
  s.onDs die fun d => { d with dcause := d.dcause &&& 0xFFFF, dpc := 0, npc := 0, jdoneWait := none, tfault := none, xfault := none, tHandling := false }

/-! ### Words as they issue -/

/-- A word of the DS: its issue checks, then what it does at issue. -/
def dword (i : Instr) (s : State) (f : State → State) : Out :=
  match s.dsCur.check i with
  | some t => .next (s.dTrap s.fdie t s.dsCur.dpc)
  | none => .next (f s)
/-- A word that computes from two d registers. -/
def dalu (i : Instr) (s : State) (dd da db : BitVec 5) (L : Nat) (f : Word → Word → Word) : Out :=
  dword i s fun s =>
    let (a, s) := s.dRead da
    let (b, s) := s.dRead db
    s.dPend (.d dd) (f a b) L
/-- The word becomes outstanding. -/
def State.dIssue (s : State) (i : Instr) (f : DWord → DWord := id) : State :=
  match s.dsCur.outWord i with
  | none => s
  | some w =>
    let n := s.nextNo
    let s := ({ s with nextNo := n + 1 } : State).onDs s.fdie fun d => { d with outst := d.outst ++ [f { w with no := n }] }
    if w.xfer then s.later .dsTransferDone s.fdie n else s
/-- An address lies in the space the DS fetches from (spec 10 R273). -/
def State.dSpaceOk (s : State) (d : Ds) (a : BitVec 32) : Bool :=
  match d.job with
  | some n =>
    if d.hmode then decide (a.toNat < 0x4000)
    else match s.op n with
      | some o => decide (a.toNat + 16 ≤ (s.part o.part).codeLen) && decide (a.toNat < 0xFFFFFF00)
      | none => false
  | none => decide (a.toNat < 0x4000)
/-- A taken transfer of the S slot: a target outside the space traps, its slots having performed (spec 10 R273, R279). -/
def State.dBranch (s : State) (off : BitVec 32) : State :=
  let d := s.dsCur
  let t := d.dpc + off * 16
  if s.dSpaceOk d t then s.onDs s.fdie fun d => { d with npc := t, bub := true }
  else s.dTrap s.fdie (pageTrap 0x01 t.toNat) t
/-- A conditional branch. -/
def dbr (i : Instr) (s : State) (da db : BitVec 5) (off : BitVec 17) (c : Word → Word → Bool) : Out :=
  dword i s fun s =>
    let (a, s) := s.dRead da
    let (b, s) := s.dRead db
    if c a b then s.dBranch (off.signExtend 32) else s

/-- The nop of the S slot (spec 03 R94). -/
def execDsNopS (s : State) : Out := .next s
/-- The nop of the L slot (spec 03 R94). -/
def execDsNopL (s : State) : Out := .next s
/-- The nop of the M slot (spec 03 R94). -/
def execDsNopM (s : State) : Out := .next s
/-- The nop of the V slot (spec 03 R94). -/
def execDsNopV (s : State) : Out := .next s
/-- add (spec 10 R278). -/
def execDAdd (dd da db : BitVec 5) (s : State) : Out := dalu (.dAdd dd da db) s dd da db 1 fun a b => a + b
/-- sub (spec 10 R278). -/
def execDSub (dd da db : BitVec 5) (s : State) : Out := dalu (.dSub dd da db) s dd da db 1 fun a b => a - b
/-- and (spec 10 R278). -/
def execDAnd (dd da db : BitVec 5) (s : State) : Out := dalu (.dAnd dd da db) s dd da db 1 fun a b => a &&& b
/-- or (spec 10 R278). -/
def execDOr (dd da db : BitVec 5) (s : State) : Out := dalu (.dOr dd da db) s dd da db 1 fun a b => a ||| b
/-- xor (spec 10 R278). -/
def execDXor (dd da db : BitVec 5) (s : State) : Out := dalu (.dXor dd da db) s dd da db 1 fun a b => a ^^^ b
/-- sll (spec 10 R278). -/
def execDSll (dd da db : BitVec 5) (s : State) : Out := dalu (.dSll dd da db) s dd da db 1 fun a b => a <<< (b.toNat % 64)
/-- srl (spec 10 R278). -/
def execDSrl (dd da db : BitVec 5) (s : State) : Out := dalu (.dSrl dd da db) s dd da db 1 fun a b => a >>> (b.toNat % 64)
/-- mul (spec 10 R278). -/
def execDMul (dd da db : BitVec 5) (s : State) : Out := dalu (.dMul dd da db) s dd da db 3 fun a b => a * b
/-- addi (spec 10 R278). -/
def execDAddi (dd da : BitVec 5) (imm : BitVec 17) (s : State) : Out :=
  dword (.dAddi dd da imm) s fun s =>
    let (a, s) := s.dRead da
    s.dPend (.d dd) (a + imm.signExtend 64) 1
/-- lui (spec 10 R278). -/
def execDLui (dd : BitVec 5) (imm : BitVec 22) (s : State) : Out :=
  dword (.dLui dd imm) s fun s => s.dPend (.d dd) (imm.signExtend 64 * 0x20000) 1
/-- beq (spec 10 R279). -/
def execDBeq (da db : BitVec 5) (off : BitVec 17) (s : State) : Out := dbr (.dBeq da db off) s da db off fun a b => a == b
/-- bne (spec 10 R279). -/
def execDBne (da db : BitVec 5) (off : BitVec 17) (s : State) : Out := dbr (.dBne da db off) s da db off fun a b => a != b
/-- blt (spec 10 R279). -/
def execDBlt (da db : BitVec 5) (off : BitVec 17) (s : State) : Out := dbr (.dBlt da db off) s da db off fun a b => a.slt b
/-- jmp (spec 10 R279). -/
def execDJmp (off : BitVec 27) (s : State) : Out := dword (.dJmp off) s fun s => s.dBranch (off.signExtend 32)
/-- jget (spec 10 R275): the DS holds until the job queue grants a job. -/
def execJget (dd : BitVec 5) (s : State) : Out :=
  dword (.jget dd) s fun s => (s.onDs s.fdie fun d => { d with jgetWait := some dd }).due .jobGrant s.fdie
/-- jdone (spec 10 R277): the DS holds until every earlier word has completed. -/
def execJdone (da : BitVec 5) (s : State) : Out :=
  dword (.jdone da) s fun s =>
    let (v, s) := s.dRead da
    s.onDs s.fdie fun d => { d with jdoneWait := some v }
/-- agset (spec 10 R280). -/
def execAgset (an : BitVec 4) (sel : AgSel) (da : BitVec 5) (s : State) : Out :=
  dword (.agset an sel da) s fun s =>
    let (v, s) := s.dRead da
    s.dPend (match sel with | .base => .base an | .stride => .stride an | .count => .count an) v 1
/-- dret (spec 10 R293). -/
def execDret (s : State) : Out :=
  dword .dret s fun s => s.onDs s.fdie fun d => { d with dcause := d.dcause &&& 0xFFFEFFFF, npc := d.dtpc, bub := true, tHandling := false }
/-- dmfs (spec 10 R276). -/
def execDmfs (dd : BitVec 5) (sel : DReg) (s : State) : Out :=
  dword (.dmfs dd sel) s fun s =>
    let d := s.dsCur
    s.dPend (.d dd) (match sel with | .dcause => d.dcause.zeroExtend 64 | .dtpc => d.dtpc.zeroExtend 64 | .dtval => d.dtval | .job => d.jobWord) 1
/-- xin (spec 10 R282). -/
def execXin (an am : BitVec 4) (s : State) : Out := dword (.xin an am) s fun s => s.dIssue (.xin an am)
/-- xout (spec 10 R282). -/
def execXout (an am : BitVec 4) (s : State) : Out := dword (.xout an am) s fun s => s.dIssue (.xout an am)
/-- dbcpy (spec 10 R282). -/
def execDbcpy (an am : BitVec 4) (s : State) : Out := dword (.dbcpy an am) s fun s => s.dIssue (.dbcpy an am)
/-- BASE of a generator advances by its STRIDE (spec 10 R281). -/
def State.dAdvance (s : State) (an : BitVec 4) : State :=
  let g := s.dsCur.ag an
  s.dPend (.base an) ((g.base + g.stride.signExtend 48).zeroExtend 64) 1
/-- ldd (spec 10 R281). -/
def execLdd (dd : BitVec 5) (an : BitVec 4) (s : State) : Out :=
  dword (.ldd dd an) s fun s =>
    let v := BitVec.ofNat 64 (s.rd (dbPa s.fdie (s.dsCur.ag an).addr) 8)
    ((s.dIssue (.ldd dd an)).dPend (.d dd) v 4).dAdvance an
/-- std (spec 10 R281). -/
def execStd (dd : BitVec 5) (an : BitVec 4) (s : State) : Out :=
  dword (.std dd an) s fun s =>
    let (v, s) := s.dRead dd
    (s.dIssue (.std dd an) fun w => { w with v := v }).dAdvance an
/-- mlw (spec 10 R285). -/
def execMlw (an : BitVec 4) (s : State) : Out := dword (.mlw an) s fun s => s.dIssue (.mlw an)
/-- mlwt (spec 10 R285). -/
def execMlwt (an : BitVec 4) (s : State) : Out := dword (.mlwt an) s fun s => s.dIssue (.mlwt an)
/-- mswap (spec 10 R286). -/
def execMswap (s : State) : Out := dword .mswap s fun s => s.dIssue .mswap
/-- A bank joins the bank-use mask. -/
def State.dUseBank (s : State) (b : BitVec 3) : State := s.onDs s.fdie fun d => { d with bankUse := d.bankUse ||| (1#8 <<< b.toNat) }
/-- mst (spec 10 R287). -/
def execMst (bank : BitVec 3) (an : BitVec 4) (acc : Bool) (s : State) : Out :=
  dword (.mst bank an acc) s fun s => (s.dIssue (.mst bank an acc)).dUseBank bank
/-- mstz (spec 10 R287). -/
def execMstz (bank : BitVec 3) (an : BitVec 4) (acc : Bool) (az : BitVec 4) (s : State) : Out :=
  dword (.mstz bank an acc az) s fun s => (s.dIssue (.mstz bank an acc az)).dUseBank bank
/-- mdrain (spec 10 R288). -/
def execMdrain (bank : BitVec 3) (an : BitVec 4) (fmt : BitVec 4) (s : State) : Out := dword (.mdrain bank an fmt) s fun s => s.dIssue (.mdrain bank an fmt)
/-- mzero (spec 10 R289). -/
def execMzero (mask : BitVec 8) (s : State) : Out := dword (.mzero mask) s fun s => s.dIssue (.mzero mask)
/-- mpark (spec 10 R293). -/
def execMpark (s : State) : Out := dword .mpark s fun s => s.dIssue .mpark
/-- munpark (spec 10 R293). -/
def execMunpark (s : State) : Out := dword .munpark s fun s => s.dIssue .munpark
/-- vbias (spec 10 R290). -/
def execVbias (bank : BitVec 3) (an : BitVec 4) (s : State) : Out :=
  dword (.vbias bank an) s fun s => (s.dIssue (.vbias bank an)).dUseBank bank
/-- vscale (spec 10 R290). -/
def execVscale (bank : BitVec 3) (da : BitVec 5) (s : State) : Out :=
  dword (.vscale bank da) s fun s =>
    let (v, s) := s.dRead da
    (s.dIssue (.vscale bank da) fun w => { w with x := v.truncate 32 }).dUseBank bank
/-- vrelu (spec 10 R290). -/
def execVrelu (bank : BitVec 3) (s : State) : Out := dword (.vrelu bank) s fun s => (s.dIssue (.vrelu bank)).dUseBank bank
/-- vclamp (spec 10 R290). -/
def execVclamp (bank : BitVec 3) (da db : BitVec 5) (s : State) : Out :=
  dword (.vclamp bank da db) s fun s =>
    let (lo, s) := s.dRead da
    let (hi, s) := s.dRead db
    (s.dIssue (.vclamp bank da db) fun w => { w with x := lo.truncate 32, y := hi.truncate 32 }).dUseBank bank
/-- vgelu (spec 10 R290). -/
def execVgelu (bank : BitVec 3) (s : State) : Out := dword (.vgelu bank) s fun s => (s.dIssue (.vgelu bank)).dUseBank bank

/-! ### What a word does when it completes (spec 04 R127 to R129; 10 R282 to R293) -/

/-- Read a number of w bytes in the dense buffer. -/
def State.dbRd (s : State) (die a w : Nat) : Nat := s.rd (dbPa die a) w
/-- Add flags to the job's. -/
def State.dFlags (s : State) (die : Nat) (f : Fl) : State := s.onDs die fun d => { d with flags := d.flags ||| f }
/-- One term of a pass: acc + a × w, rounded once or saturated (spec 04 R127, R128). -/
def macStep (aty wty : ETy) (acc a w : Nat) : Nat × Fl :=
  match laneOf aty, laneOf wty with
  | .flt t, .flt u => fmaV .f32 rne (fval t a) (fval u w) (fval .f32 acc)
  | _, _ => (wrapN 32 (satS (toSigned 32 acc + toSigned 8 a * toSigned 8 w) 32), 0)
/-- A skipped term: +0, with SKIPNAN for a streamed infinity or NaN (spec 04 R129). -/
def skipStep (aty : ETy) (acc a : Nat) : Nat × Fl :=
  match laneOf aty with
  | .flt t =>
    let v := fval t a
    let r := addV .f32 rne (fval .f32 acc) (.fin false 0 0)
    (r.1, r.2 ||| (if v.isNaN || v.isInf then flSkip else 0))
  | _ => (acc, 0)
/-- One output of a pass: the terms k = 0 to 255 in order. -/
def passElem (aty wty : ETy) (skip : Nat → Bool) (av wv : Nat → Nat) (acc : Nat) : Nat × Fl :=
  (List.range 256).foldl (fun (x : Nat × Fl) k =>
    let r := if skip k then skipStep aty x.1 (av k) else macStep aty wty x.1 (av k) (wv k)
    (r.1, x.2 ||| r.2)) (acc, 0)
/-- A pass: the rows of the bank with their flags (spec 10 R287). -/
def State.pass (s : State) (die : Nat) (w : DWord) (bank : Nat) (acc : Bool) (bitmap : Option Nat) : State :=
  let d := s.ds die
  let aty := (planeTyOf w.a.tyCode).getD .bf16
  let wty := d.planeTy false
  let ab := ewidth aty
  let elem (i j : Nat) : Nat × Fl :=
    let skip (k : Nat) : Bool := match bitmap with
      | none => false
      | some z => let n := k / 16 * 16 + j / 16
        !(s.dbRd die (z + n / 8) 1).testBit (n % 8)
    passElem aty wty skip (fun k => s.dbRd die (w.a.row i + k * ab) ab) (fun k => s.rd (planePa die (d.planeNo false) k j) (ewidth wty))
      (if acc then s.dbRd die (bankBase bank + (i * 256 + j) * 4) 4 else 0)
  let rs := (List.range w.a.count.toNat).flatMap fun i => (List.range 256).map fun j => elem i j
  (s.wrB (dbPa die (bankBase bank)) (rs.flatMap fun r => leBytes 4 r.1)).dFlags die (orFl (rs.map fun r => r.2))
/-- A plane is loaded from rows (spec 10 R285). -/
def State.loadPlane (s : State) (die : Nat) (g : AGen) (transposed : Bool) : State :=
  let d := s.ds die
  let ty := (planeTyOf g.tyCode).getD .bf16
  let w := ewidth ty
  let n := g.count.toNat
  let elem (k j : Nat) : Nat :=
    if transposed then (if j < n then s.dbRd die (g.row j + k * w) w else 0) else (if k < n then s.dbRd die (g.row k + j * w) w else 0)
  let bs := (List.range 256).flatMap fun k => (List.range 256).flatMap fun j => leBytes 2 (elem k j)
  let s := s.wrB (planePa die (d.planeNo true) 0 0) bs
  s.onDs die fun d => if d.planeNo true = 1 then { d with planeTy1 := ty } else { d with planeTy0 := ty }
/-- Copy bytes of the dense buffer in ascending order. -/
def dbMove (s : State) (die : Nat) : Nat → Nat → Nat → State
  | 0, _, _ => s
  | n + 1, a, b => dbMove { s with mem := memSet s.mem (dbPa die a) (memGet s.mem (dbPa die b)) } die n (a + 1) (b + 1)
/-- Every element of a bank is replaced (spec 10 R290). -/
def State.mapBank (s : State) (die bank : Nat) (f : Nat → Nat → Nat × Fl) : State :=
  let rs := (List.range 65536).map fun e => f (e % 256) (s.dbRd die (bankBase bank + e * 4) 4)
  (s.wrB (dbPa die (bankBase bank)) (rs.flatMap fun r => leBytes 4 r.1)).dFlags die (orFl (rs.map fun r => r.2))
/-- Copy n bytes within the machine's memory. -/
def State.memCopy (s : State) (dst src n : Nat) : State := s.wrB dst (memRead s.mem src n)
/-- The effect of an outstanding word that completes. Transfers act by their own event. -/
def State.dApply (s : State) (die : Nat) (w : DWord) : State :=
  let d := s.ds die
  match w.op with
  | .std _ _ => s.wr (dbPa die w.a.addr) 8 w.v.toNat
  | .dbcpy _ _ => (List.range w.b.count.toNat).foldl (fun s r => dbMove s die w.a.count.toNat (w.a.row r) (w.b.row r)) s
  | .mlw _ => s.loadPlane die w.a false
  | .mlwt _ => s.loadPlane die w.a true
  | .mswap => s.onDs die fun d => { d with active := !d.active }
  | .mst b _ acc => s.pass die w b.toNat acc none
  | .mstz b _ acc _ => s.pass die w b.toNat acc (some w.z.addr)
  | .mdrain b _ fmt =>
    let ty := (drainTy fmt.toNat).getD .f32
    let k := ewidth ty
    (List.range w.a.count.toNat).foldl (fun s i =>
      let rs := (List.range 256).map fun j =>
        let x := s.dbRd die (bankBase b.toNat + (i * 256 + j) * 4) 4
        match laneOf ty with
        | .flt _ => convert .f32 ty (.mode rne) 0 x
        | _ => (wrapN (8 * k) (satS (toSigned 32 x) (8 * k)), 0)
      (s.wrB (dbPa die (w.a.row i)) (rs.flatMap fun r => leBytes k r.1)).dFlags die (orFl (rs.map fun r => r.2))) s
  | .mzero m => (maskBanks m).foldl (fun s k => { s with mem := memZero s.mem (dbPa die (bankBase k)) 0x40000 }) s
  | .mpark =>
    let s := (maskBanks d.bankUse).foldl (fun s k => s.memCopy (dbPa die (0x1600000 + k * 0x40000)) (dbPa die (bankBase k)) 0x40000) s
    let s := s.memCopy (dbPa die 0x15E0000) (planePa die (d.planeNo true) 0 0) 0x20000
    s.onDs die fun d => { d with parkTy := d.planeTy true, parkUse := d.bankUse, dcause := d.dcause ||| 0x20000 }
  | .munpark =>
    let s := (maskBanks d.parkUse).foldl (fun s k => s.memCopy (dbPa die (bankBase k)) (dbPa die (0x1600000 + k * 0x40000)) 0x40000) s
    let s := s.memCopy (planePa die (d.planeNo true) 0 0) (dbPa die 0x15E0000) 0x20000
    s.onDs die fun d =>
      let d := { d with dcause := d.dcause &&& 0xFFFDFFFF }
      if d.planeNo true = 1 then { d with planeTy1 := d.parkTy } else { d with planeTy0 := d.parkTy }
  | .vbias b _ => s.mapBank die b.toNat fun j x => fAdd .f32 rne x (s.dbRd die (w.a.addr + 4 * j) 4)
  | .vscale b _ => s.mapBank die b.toNat fun _ x => fMul .f32 rne x w.x.toNat
  | .vrelu b => s.mapBank die b.toNat fun _ x => fMinMax .f32 rne true x 0
  | .vclamp b _ _ => s.mapBank die b.toNat fun _ x =>
      let r := fMinMax .f32 rne true x w.x.toNat
      let q := fMinMax .f32 rne false r.1 w.y.toNat
      (q.1, r.2 ||| q.2)
  | .vgelu b => s.mapBank die b.toNat fun _ x => gelu x
  | _ => s

/-! ### Completions (spec 10 R270 to R272) -/

/-- A result reaches its register or generator field. -/
def Ds.landAt (d : Ds) (i : Nat) : Ds :=
  match d.pend[i]? with
  | none => d
  | some p => { (d.write p.dest p.val) with pend := d.pend.eraseIdx i }
/-- A word leaves the scoreboard. -/
def State.dRemove (s : State) (die no : Nat) : State := s.onDs die fun d => { d with outst := d.outst.filter fun w => w.no != no }
/-- A word has its effect and frees its path and sets. -/
def State.dComplete (s : State) (die no : Nat) : State :=
  match (s.ds die).outst.find? fun w => w.no == no with
  | none => s
  | some w => (s.dApply die w).dRemove die w.no
/-- What has completed by a cycle stands before a bundle issues in it: the completions of this DS that are due are performed in their order. -/
def State.dLand (s : State) (die : Nat) : State :=
  let mine (e : Instr × Occ) : Bool := (e.1 == .dsResultWrite || e.1 == .dsWordComplete) && e.2.a == die
  let due := s.agenda.filter mine
  due.foldl (fun s e => if e.1 == .dsResultWrite then s.onDs die fun d => d.landAt e.2.b else s.dComplete die e.2.b)
    { s with agenda := s.agenda.filter fun e => !mine e }

/-! ### The turn of a DS (spec 10 R269, R273) -/

/-- The job held is charged a cycle of the array for each pass that streams (spec 15 R397). -/
def State.dCharge (s : State) (die : Nat) : State :=
  let d := s.ds die
  match d.job.bind s.op with
  | none => s
  | some o =>
    let k := (d.outst.filter fun w => w.isPass && w.occ != 0).length
    if k = 0 then s else s.chargeAs o.part (s.opProfile o) o.cls [⟨4, die, k⟩]
/-- A cycle passes: results and words whose time has come are due. -/
def State.dTick (s : State) (die : Nat) : State :=
  let s := s.dCharge die
  let d := s.ds die
  let pend := d.pend.map fun p => { p with rem := p.rem - 1 }
  let outst := d.outst.map fun w => { w with rem := if w.xfer then w.rem else w.rem - 1, occ := w.occ - 1 }
  let ready := ((d.pend.zip pend).zipIdx.filter fun p => p.1.1.rem != 0 && p.1.2.rem == 0).map fun p => p.2
  let done := ((d.outst.zip outst).filter fun x => !x.1.xfer && x.1.rem != 0 && x.2.rem == 0).map fun x => x.1.no
  let s := s.setDs die { d with pend := pend, outst := outst }
  -- results whose turn has come before are written first, and leave the list
  let before (i : Nat) : Nat := ((pend.take i).filter fun p => p.rem == 0).length
  let s := ready.foldl (fun s i => s.due .dsResultWrite die (i - before i)) s
  done.foldl (fun s n => s.due .dsWordComplete die n) s
/-- What a turn of a DS is: a bundle whose words are to be performed, or a state in which the turn has been used. -/
inductive DPrep where
  | run (is : List Instr) (s : State)
  | done (s : State)
/-- The bundle at DPC, or the trap of its fetch with DTPC and DTVAL (spec 10 R273). -/
def State.dFetch (s : State) (die : Nat) : State × Except (Trap × BitVec 32) Nat :=
  let d := s.ds die
  let a := d.dpc
  if !s.dSpaceOk d a then (s, .error (pageTrap 0x01 a.toNat, a))
  else match d.job, d.hmode with
    | some n, false =>
      match s.op n with
      | none => (s, .ok 0)
      | some o =>
        let va := (s.part o.part).codeVa + a.toNat
        match s.xlate o.part va with
        | (s, .error t) => (s, .error ({ t with tval := a.zeroExtend 64 }, a))
        | (s, .ok e) =>
          -- a page of another module: what it holds is free (log entry 35)
          if e.mod ≠ s.modid then let (s, bs) := freeBytes s 16; (s, .ok (leNat bs))
          else
            let pa := s.redirect (e.pa va)
            if s.poisonedAt pa 16 then (s, .error (poisonTrap a.toNat, a)) else (s, .ok (s.rd pa 16))
    | _, _ => (s, .ok (s.rd (ucPa die a.toNat) 16))
/-- The turn of a DS: what has completed, then a pending transfer fault, the hold of jget or jdone, or the bundle at DPC with its checks and holds. -/
def State.dPrepare (s : State) (die : Nat) : DPrep :=
  let s := s.dLand die
  let d := s.ds die
  if !d.up || d.halted then .done s.rotate
  else if d.jgetWait.isSome then .done (s.dTick die).rotate
  else match d.jdoneWait with
  | some v => if d.outst.isEmpty && d.pend.isEmpty then .done (s.finishJob die v).rotate else .done (s.dTick die).rotate
  | none =>
  -- a fault that a stopped transfer has found counts from when it is found (spec 10 R283)
  match (if d.hmode then none else d.tfault.or (if d.tHandling then none else d.xfault)) with
  | some t => .done (((s.onDs die fun d => { d with tfault := none, xfault := none, tHandling := true }).dTrap die t d.dpc).dTick die).rotate
  | none =>
  match s.dFetch die with
  | (s, .error (t, pc)) => .done ((s.dTrap die t pc).dTick die).rotate
  | (s, .ok b) =>
    match decodeBundle b with
    | .error t => .done ((s.dTrap die t d.dpc).dTick die).rotate
    | .ok ws =>
      match depPair ws with
      | some (i, j) => .done ((s.dTrap die ⟨0x02, 0, BitVec.ofNat 64 (i + 4 * j)⟩ d.dpc).dTick die).rotate
      | none =>
        if d.parkHolds ws || ws.any d.holds then .done (s.dTick die).rotate
        else match firstTrap (ws.map d.check) with
          | some t => .done ((s.dTrap die t d.dpc).dTick die).rotate
          | none =>
            -- the slots are independent; the S slot's transfer takes effect after the others
            .run (ws.drop 1 ++ ws.take 1) (s.onDs die fun d => { d with npc := d.dpc + 16, bub := false })
/-- The bundle has issued. -/
def State.dSettle (s : State) (die : Nat) : State :=
  let b := (s.ds die).bub
  let s := (s.onDs die fun d => { d with dpc := d.npc, bub := false }).dTick die
  (if b then s.dTick die else s).rotate

end Sys2Proof.Machine
end

