-- ==== Sys2Proof/Machine/Memory.lean ====
section
/-! DEFINITION. Memory words: loads and stores, versioned access, atomics, row accumulation, fences and L1 range operations, handles and seals,
reclaim and close (spec 07). -/

namespace Sys2Proof.Machine

/-! ### Loads and stores (spec 07 R183 to R188) -/

/-- Bytes of a size field. -/
def msz : MSize → Nat | .b1 => 1 | .b2 => 2 | .b4 => 4 | .b8 => 8
/-- The LM offset. -/
def lmOff (imm : BitVec 10) (n : Nat) : Word := imm.signExtend 64 * BitVec.ofNat 64 n
/-- A load leaves its value: sign- or zero-extended, tag 0 (spec 07 R185). -/
def loadValue (n : Nat) (ext : Bool) (v : Nat) : Word := if ext then BitVec.ofInt 64 (toSigned (8 * n) v) else BitVec.ofNat 64 v
/-- A load that misses starts fills for its absent lines (spec 07 R187). -/
def State.startFills (s : State) (no part a n : Nat) : State :=
  let have_ := (s.core s.fcore).l1.map fun x => x.line
  let lines := ((List.range ((a + n - 1) / 64 - a / 64 + 1)).map (a / 64 + ·)).filter fun l => !have_.contains l
  s.onCore s.fcore fun c => { c with fills := c.fills ++ lines.map fun l => { no := no, line := l, part := part } }
/-- A load of n bytes: from the tile, the inbox view, the line view or the L1 at once, else through the home (spec 07 R185). -/
def loadWord (h : Hdr) (s : State) (ra : BitVec 4) (off : Word) (n : Nat) (kind : AKind) (fill : Bool) (set : Ctx → Nat → Ctx) (mk : Req → Req) : Out :=
  lword h s fun s =>
    let g := s.cur.gr ra
    let a := (ea g off).toNat
    match s.check a n 0 true false g with
    | .trap t => .trap t s
    | .fill p => s.fillPage p
    | .ok .global =>
      match (if kind = .load then s.l1Hit s.fcore a n else none) with
      | some bs =>
        -- a hit is translated as every access is; there is none in a checked or versioned region (R180 step 8, R187)
        match xlNow (s.mkReq kind a n) 4 s with
        | (s, .trap t) => .trap t s
        | (s, .walk _) => .again s
        | (s, .ok ps) =>
          if ps.any fun p => p.rst == 4 || p.rst == 5 then s.block (mk (s.mkReq kind a n))
          else .ok ((s.l1Use s.fcore a n).setCur (set s.cur (leNat bs)))
      | none => (if fill then s.startFills s.nextNo s.curPart a n else s).block (mk (s.mkReq kind a n))
    | .ok (.window _) => s.block (mk (s.mkReq kind a n))
    | .ok p =>
      match s.localRd p a n with
      | .error t => .trap t s
      | .ok bs => .ok ((s.used p a n).setCur (set s.cur (leNat bs)))
/-- A store of bytes: to the tile at once, else posted to the home (spec 07 R185, R186). -/
def storeWord (h : Hdr) (s : State) (ra : BitVec 4) (off : Word) (n : Nat) (data : Ctx → List Byte) : Out :=
  lword h s fun s =>
    let g := s.cur.gr ra
    let a := (ea g off).toNat
    -- a kernel's store outside tile memory ends its walk (spec 03 R93)
    if s.fctx = 16 ∧ (firstOff n fun i => placeOf true (s.rankOf s.fcore) (a + i) != some .tile).isSome = true then
      .wait (s.failWalk s.fcore 0x0B ⟨0x10, 0x02, s.cur.pc.zeroExtend 64⟩)
    else match s.check a n 0 false true g with
    | .trap t => .trap t s
    | .fill p => s.fillPage p
    | .ok .tile => .ok ((s.tileWr s.fcore s.cur.space (tileOff a) (data s.cur)).used .tile a n)
    | .ok _ => s.block { s.mkReq .store a n with data := data s.cur }

/-- ld (spec 07 R185). -/
def execLd (h : Hdr) (rd ra : BitVec 4) (size : MSize) (ext : Bool) (imm : BitVec 10) (s : State) : Out :=
  loadWord h s ra (lmOff imm (msz size)) (msz size) .load true (fun c v => c.setG rd (loadValue (msz size) ext v)) fun r => { r with dest := rd, ext := ext }
/-- ld.nc (spec 07 R185). -/
def execLdNc (h : Hdr) (rd ra : BitVec 4) (size : MSize) (ext : Bool) (imm : BitVec 10) (s : State) : Out :=
  loadWord h s ra (lmOff imm (msz size)) (msz size) .loadNc false (fun c v => c.setG rd (loadValue (msz size) ext v)) fun r => { r with dest := rd, ext := ext }
/-- st (spec 07 R185): the tag is not stored. -/
def execSt (h : Hdr) (rd ra : BitVec 4) (size : MSize) (imm : BitVec 10) (s : State) : Out :=
  storeWord h s ra (lmOff imm (msz size)) (msz size) fun c => leBytes (msz size) (c.gv rd).toNat
/-- ldw (spec 07 R188): it reads the L1 and starts no fill (log entry 31). -/
def execLdw (h : Hdr) (wv : BitVec 3) (ra : BitVec 4) (imm : BitVec 10) (s : State) : Out :=
  loadWord h s ra (lmOff imm 32) 32 .load false (fun c v => c.setW wv (BitVec.ofNat 256 v)) fun r => { r with dest := wv.zeroExtend 4, vec := true }
/-- stw (spec 07 R188): a pending latch to w leaves the earlier value to be stored. -/
def execStw (h : Hdr) (wv : BitVec 3) (ra : BitVec 4) (imm : BitVec 10) (s : State) : Out :=
  storeWord h s ra (lmOff imm 32) 32 fun c => leBytes 32 (c.wv wv).toNat

/-! ### Versioned access (spec 07 R189 to R191) -/

/-- LDV of n bytes. -/
def ldvWord (h : Hdr) (s : State) (ra rb : BitVec 4) (n : Nat) (mk : Req → Req) : Out :=
  lword h s fun s =>
    let g := s.cur.gr ra
    let a := (ea g 0).toNat
    let w := s.cur.gv rb
    let lo : BitVec 20 := w.truncate 20
    let hi : BitVec 20 := w.extractLsb' 20 20
    match s.check a n n true false g with
    | .trap t => .trap t s
    | .ok .global =>
      if 2 ^ 19 ≤ sdist lo hi then .trap ⟨0x17, 0x01, BitVec.ofNat 64 a⟩ s
      else s.block (mk { s.mkReq .ldv a n with lo := lo, hi := hi })
    | .ok _ => .trap (regionTrap 0x02 a) s
    | .fill _ => .trap (regionTrap 0x02 a) s
/-- STV of bytes. -/
def stvWord (h : Hdr) (s : State) (ra rb : BitVec 4) (n : Nat) (data : Ctx → List Byte) : Out :=
  lword h s fun s =>
    let g := s.cur.gr ra
    let a := (ea g 0).toNat
    match s.check a n n false true g with
    | .trap t => .trap t s
    | .ok .global => s.block { s.mkReq .stv a n with data := data s.cur, lo := (s.cur.gv rb).truncate 20 }
    | .ok _ => .trap (regionTrap 0x02 a) s
    | .fill _ => .trap (regionTrap 0x02 a) s

/-- ldv (spec 07 R190). -/
def execLdv (h : Hdr) (rd ra rb : BitVec 4) (s : State) : Out := ldvWord h s ra rb 8 fun r => { r with dest := rd }
/-- ldv.w (spec 07 R190). -/
def execLdvW (h : Hdr) (wv : BitVec 3) (ra rb : BitVec 4) (s : State) : Out :=
  ldvWord h s ra rb 32 fun r => { r with dest := wv.zeroExtend 4, vec := true }
/-- stv (spec 07 R191). -/
def execStv (h : Hdr) (rd ra rb : BitVec 4) (s : State) : Out := stvWord h s ra rb 8 fun c => leBytes 8 (c.gv rd).toNat
/-- stv.w (spec 07 R191). -/
def execStvW (h : Hdr) (wv : BitVec 3) (ra rb : BitVec 4) (s : State) : Out := stvWord h s ra rb 32 fun c => leBytes 32 (c.wv wv).toNat

/-! ### Atomics (spec 07 R194 to R196) -/

/-- An ATOM of n bytes: in tile memory at once, else at its home. sgn marks a result that is sign-extended. -/
def atomWord (h : Hdr) (s : State) (op : Nat) (rd ra rb : BitVec 4) (sys : Bool) (n : Nat) (sgn : Bool) : Out :=
  lword h s fun s =>
    let c := s.cur
    let g := c.gr ra
    let a := (ea g 0).toNat
    let b := (c.gv rb).toNat % 2 ^ (8 * n)
    let cmp := (c.gv rd).toNat % 2 ^ (8 * n)
    match s.check a n n true true g with
    | .trap t => .trap t s
    | .fill p => s.fillPage p
    | .ok .tile =>
      match s.tilePoison s.fcore c.space (tileOff a) n with
      | some _ => .trap (poisonTrap a) s
      | none =>
        let old := leNat (s.tileRd s.fcore c.space (tileOff a) n)
        .ok (((s.tileWr s.fcore c.space (tileOff a) (leBytes n (atomNew op n old b cmp))).used .tile a n).setCur (c.setG rd (loadValue n sgn old)))
    | .ok _ =>
      -- the lines of its bytes leave the L1 as it issues (spec 11 R307)
      let s := s.l1Drop s.fcore a (a + n) true
      s.block { s.mkReq (.atom op) a n with data := leBytes n b, cmp := leBytes n cmp, sys := sys, dest := rd, ext := sgn }
/-- The width of an integer atomic. -/
def atomSize (dbl : Bool) : Nat := if dbl then 8 else 4

/-- atom.add (spec 07 R194). -/
def execAtomAdd (h : Hdr) (rd ra rb : BitVec 4) (sys dbl : Bool) (s : State) : Out := atomWord h s 0 rd ra rb sys (atomSize dbl) true
/-- atom.and (spec 07 R194). -/
def execAtomAnd (h : Hdr) (rd ra rb : BitVec 4) (sys dbl : Bool) (s : State) : Out := atomWord h s 1 rd ra rb sys (atomSize dbl) true
/-- atom.or (spec 07 R194). -/
def execAtomOr (h : Hdr) (rd ra rb : BitVec 4) (sys dbl : Bool) (s : State) : Out := atomWord h s 2 rd ra rb sys (atomSize dbl) true
/-- atom.xor (spec 07 R194). -/
def execAtomXor (h : Hdr) (rd ra rb : BitVec 4) (sys dbl : Bool) (s : State) : Out := atomWord h s 3 rd ra rb sys (atomSize dbl) true
/-- atom.smin (spec 07 R194). -/
def execAtomSmin (h : Hdr) (rd ra rb : BitVec 4) (sys dbl : Bool) (s : State) : Out := atomWord h s 4 rd ra rb sys (atomSize dbl) true
/-- atom.smax (spec 07 R194). -/
def execAtomSmax (h : Hdr) (rd ra rb : BitVec 4) (sys dbl : Bool) (s : State) : Out := atomWord h s 5 rd ra rb sys (atomSize dbl) true
/-- atom.swap (spec 07 R194). -/
def execAtomSwap (h : Hdr) (rd ra rb : BitVec 4) (sys dbl : Bool) (s : State) : Out := atomWord h s 6 rd ra rb sys (atomSize dbl) true
/-- atom.cas (spec 07 R194). -/
def execAtomCas (h : Hdr) (rd ra rb : BitVec 4) (sys dbl : Bool) (s : State) : Out := atomWord h s 7 rd ra rb sys (atomSize dbl) true
/-- atom.fadd.f32 (spec 07 R194): its result is zero-extended. -/
def execAtomFaddF32 (h : Hdr) (rd ra rb : BitVec 4) (sys : Bool) (s : State) : Out := atomWord h s 8 rd ra rb sys 4 false
/-- atom.fadd.f64 (spec 07 R194). -/
def execAtomFaddF64 (h : Hdr) (rd ra rb : BitVec 4) (sys : Bool) (s : State) : Out := atomWord h s 9 rd ra rb sys 8 false

/-! ### Row accumulation (spec 07 R197) -/

/-- The finished descriptor read of the context that issues, of n bytes at a. -/
def State.fetched (s : State) (a n : Nat) : Option Req :=
  (s.reqs.find? fun (x : Nat × Req) => x.2.core == s.fcore && x.2.ctx == s.fctx && x.2.fetch && x.2.phase == .finished && x.2.va == a && x.2.len == n).map fun x => x.2
/-- The context's finished descriptor reads are dropped. -/
def State.dropFetched (s : State) : State :=
  { s with reqs := s.reqs.filter fun x => !(x.2.core == s.fcore && x.2.ctx == s.fctx && x.2.fetch && x.2.phase == .finished) }
/-- Read n bytes of global memory for the word that issues, which is issued again when they have come. -/
def State.fetchFirst (s : State) (a n : Nat) : Res :=
  if placeOf (s.fctx == 16) (s.rankOf s.fcore) a = some .global then s.block { s.mkReq .loadNc a n with fetch := true }
  else .trap (pageTrap 0x02 a) s.dropFetched
/-- The contribution's bytes lie in tile memory, or the first that does not (spec 07 R197 step 2); alignment is checked before. -/
def State.notTile (s : State) (a n : Nat) : Option Nat :=
  if a % 32 ≠ 0 then none else firstOff n fun i => placeOf (s.fctx == 16) (s.rankOf s.fcore) (a + i) != some .tile
/-- aacc and aacc.l (spec 07 R197): the ETD, the contribution, the target, each checked whole before the next, and then the contribution is read. -/
def aaccWord (h : Hdr) (s : State) (kind : AKind) (rd ra rb : BitVec 4) : Out :=
  lword h s fun s =>
    let c := s.cur
    let et := (ea (c.gr rb) 0).toNat
    let ca := (ea (c.gr rd) 0).toNat
    let ta := (ea (c.gr ra) 0).toNat
    if et % 64 ≠ 0 then .trap ⟨0x04, 0, BitVec.ofNat 64 et⟩ s
    else match s.fetched et 64 with
    | none => s.fetchFirst et 64
    | some q =>
      let d : Etd := leNat q.result
      let L := d.len
      let stop (t : Trap) : Res := .trap t s.dropFetched
      if d.rejected false then stop (regionTrap 0x04 et)
      else match s.notTile ca L with
      | some i => stop (pageTrap 0x02 (ca + i))
      | none =>
      match s.check ca L 32 true false (c.gr rd) with
      | .trap t => stop t
      | .fill p => s.fillPage p
      | .ok _ =>
        if ta % 65536 + L > 65536 then stop ⟨0x04, 0, BitVec.ofNat 64 ta⟩
        else match s.check ta L 32 false true (c.gr ra) true with
        | .trap t => stop t
        | .ok .global =>
          let s := (s.dropFetched.used .tile ca L).l1Drop s.fcore ta (ta + L) true
          let r := { s.mkReq kind ta L with data := s.tileRd s.fcore c.space (tileOff ca) L, etd := et, cmp := q.result, pieces := [{ va := ta, len := L }] }
          match s.tilePoison s.fcore c.space (tileOff ca) L with
          | none => s.block r
          | some i => match xlNow r 4 s with
            | (s, .trap t) => .trap t s
            | (s, _) => .trap (poisonTrap (ca + i)) s
        | .ok _ => stop (pageTrap 0x02 ta)
        | .fill _ => stop (pageTrap 0x02 ta)

/-- aacc (spec 07 R197). -/
def execAacc (h : Hdr) (rd ra rb : BitVec 4) (s : State) : Out := aaccWord h s .aacc rd ra rb
/-- aacc.l (spec 07 R197, R199). -/
def execAaccL (h : Hdr) (rd ra rb : BitVec 4) (s : State) : Out := aaccWord h s .aaccL rd ra rb

/-! ### Fences and L1 range operations (spec 07 R200 to R203) -/

/-- The range of R200 as its first byte and the byte after its last. -/
def rangeOf (g : GReg) (len : Word) : Nat × Nat :=
  let base := (handleBase g.val).toNat
  let n := if g.tag ∧ len = 0 then handleSize g.val else len.toNat
  if n = 0 then (0, 2 ^ 48) else (base, min (base + n) (2 ^ 48))
/-- A fence: the context waits until it completes (spec 07 R201, R202). -/
def fenceWord (h : Hdr) (s : State) (kind : BitVec 2) (sys : Bool) (rd ra rb : BitVec 4) : Out :=
  lword h s fun s =>
    let c := s.cur
    let (lo, hi) := rangeOf (c.gr ra) (c.gv rb)
    let s := s.setCur { c with hold := .fence kind sys rd lo hi }
    if kind = 0 ∨ (s.uncovered s.fcore s.fctx sys lo hi).isEmpty then .wait (s.due .fenceComplete s.fcore s.fctx)
    else if sys then
      -- a LINKWAIT of 0 does not wait for a link that is down (spec 01 R25)
      let down := (List.range 8).all fun i => (s.port i).st != .up
      .wait (if c.ctl.linkwait = 0 ∧ down = true then s.due .linkwaitExpiry s.fcore s.fctx else s.later .linkwaitExpiry s.fcore s.fctx)
    else .wait s

/-- fence.acq (spec 07 R201). -/
def execFenceAcq (h : Hdr) (ra rb : BitVec 4) (s : State) : Out := fenceWord h s 0 false 0 ra rb
/-- fence.rel (spec 07 R201). -/
def execFenceRel (h : Hdr) (ra rb : BitVec 4) (s : State) : Out := fenceWord h s 1 false 0 ra rb
/-- fence.full (spec 07 R201). -/
def execFenceFull (h : Hdr) (ra rb : BitVec 4) (s : State) : Out := fenceWord h s 2 false 0 ra rb
/-- fence.x (spec 07 R201). -/
def execFenceX (h : Hdr) (ra rb : BitVec 4) (s : State) : Out := fenceWord h s 3 false 0 ra rb
/-- fence.acq.sys (spec 07 R202). -/
def execFenceAcqSys (h : Hdr) (rd ra rb : BitVec 4) (s : State) : Out := fenceWord h s 0 true rd ra rb
/-- fence.rel.sys (spec 07 R202). -/
def execFenceRelSys (h : Hdr) (rd ra rb : BitVec 4) (s : State) : Out := fenceWord h s 1 true rd ra rb
/-- fence.full.sys (spec 07 R202). -/
def execFenceFullSys (h : Hdr) (rd ra rb : BitVec 4) (s : State) : Out := fenceWord h s 2 true rd ra rb
/-- fence.x.sys (spec 07 R202). -/
def execFenceXSys (h : Hdr) (rd ra rb : BitVec 4) (s : State) : Out := fenceWord h s 3 true rd ra rb
/-- l1inv (spec 07 R203): fills in flight still install. -/
def execL1inv (h : Hdr) (ra rb : BitVec 4) (s : State) : Out :=
  lword h s fun s =>
    let (lo, hi) := rangeOf (s.cur.gr ra) (s.cur.gv rb)
    .ok (s.l1Drop s.fcore lo hi false)
/-- A fill of one line asked for by l1pf: its request is posted. -/
def prefetchLine (s : State) (line : Nat) : State :=
  let r := { s.mkReq .load (line * 64) 64 with posted := true }
  let s := s.onCore s.fcore fun c => { c with fills := c.fills ++ [{ no := r.no, line := line, part := r.part }] }
  let s := { s with nextNo := s.nextNo + 1, reqs := tset s.reqs r.no r }
  s.due .translationRequest r.no
/-- l1pf (spec 07 R203): fills for the absent global lines of the first 32 KiB of the range. -/
def execL1pf (h : Hdr) (ra rb : BitVec 4) (s : State) : Out :=
  lword h s fun s =>
    let g := s.cur.gr ra
    if g.tag = false ∧ s.cur.gv rb = 0 then .ok s
    else
      let (lo, hi) := rangeOf g (s.cur.gv rb)
      let hi := min hi (lo + 32768)
      let lines := (List.range ((hi - 1) / 64 - lo / 64 + 1)).map (lo / 64 + ·)
      let absent := lines.filter fun l => !((s.core s.fcore).l1.any fun x => x.line == l) && placeOf false (s.rankOf s.fcore) (l * 64) == some .global
      .ok (absent.foldl prefetchLine s)

/-! ### Handles and seals (spec 07 R204 to R208) -/

/-- The trap of HMAKE, HNARROW, SEAL and UNSEAL: TVAL holds the data of g[ra] (spec 07 R182). -/
def handleTrap (code sub : BitVec 8) (g : GReg) : Trap := ⟨code, sub, g.val⟩
/-- hmake (spec 07 R204). -/
def execHmake (h : Hdr) (rd ra rb : BitVec 4) (s : State) : Out :=
  tword h s fun c =>
    let g := c.gr ra
    let b := c.gv rb
    let base := (handleBase g.val).toNat
    let lsz := (b.extractLsb' 48 8).toNat
    let kind := handleKind b
    if kind ≠ 1 ∧ kind ≠ 2 then .error (handleTrap 0x13 0x04 g)
    else if lsz < 6 ∨ 40 < lsz then .error (handleTrap 0x13 0x05 g)
    else if base % 2 ^ lsz ≠ 0 then .error (handleTrap 0x04 0 g)
    else if (kind = 1 ∧ 0x3F000 < base + 2 ^ lsz) ∨ (kind = 2 ∧ base < 0x41000) then .error (handleTrap 0x13 0x04 g)
    else .ok (c.setGT rd ⟨(b.extractLsb' 48 16 : BitVec 16) ++ handleBase g.val, true⟩)
/-- hnarrow (spec 07 R205). -/
def execHnarrow (h : Hdr) (rd ra rb : BitVec 4) (s : State) : Out :=
  tword h s fun c =>
    let g := c.gr ra
    let b := c.gv rb
    let lsz := (g.val.extractLsb' 48 8).toNat
    let nsz := (b.extractLsb' 48 8).toNat
    let off := (handleBase b).toNat
    if g.tag = false then .error (handleTrap 0x13 0x03 g)
    else if nsz < 6 ∨ lsz < nsz then .error (handleTrap 0x13 0x05 g)
    else if off % 2 ^ nsz ≠ 0 then .error (handleTrap 0x04 0 g)
    else if 2 ^ lsz < off + 2 ^ nsz then .error (handleTrap 0x13 0x01 g)
    else .ok (c.setGT rd ⟨(g.val.extractLsb' 60 4 : BitVec 4) ++ ((g.val.extractLsb' 56 4 : BitVec 4) &&& b.extractLsb' 56 4) ++
      BitVec.ofNat 8 nsz ++ (handleBase g.val + handleBase b), true⟩)
/-- seal (spec 07 R206). An entry holds in the tile space of the context that seals: the same base in another space is another (log entry 142, DESIGN CHOICE). -/
def execSeal (h : Hdr) (ra : BitVec 4) (s : State) : Out :=
  lword h s fun s =>
    let g := s.cur.gr ra
    let base := (handleBase g.val).toNat
    let lsz := (g.val.extractLsb' 48 8).toNat
    let sp := s.cur.space
    let seals := (s.core s.fcore).seals
    let same (e : Seal) : Bool := e.space == sp && e.base == base && e.lsz == lsz
    if g.tag = false then .trap (handleTrap 0x13 0x03 g) s
    else if handleKind g.val ≠ 1 then .trap (handleTrap 0x13 0x04 g) s
    else if g.val.getLsbD 57 = false then .trap (handleTrap 0x13 0x02 g) s
    else if (seals.any fun e => same e && !e.unsealing) = true then .ok s
    else if (seals.any fun e => e.space == sp && decide (e.base < base + 2 ^ lsz ∧ base < e.base + 2 ^ e.lsz)) = true then .trap (handleTrap 0x13 0x07 g) s
    else if 16 ≤ seals.length then .trap (handleTrap 0x13 0x06 g) s
    else .ok (s.onCore s.fcore fun c => { c with seals := c.seals ++ [{ space := sp, base := base, lsz := lsz }] })
/-- unseal (spec 07 R207). -/
def execUnseal (h : Hdr) (ra rb : BitVec 4) (s : State) : Out :=
  lword h s fun s =>
    let g := s.cur.gr ra
    let base := (handleBase g.val).toNat
    let lsz := (g.val.extractLsb' 48 8).toNat
    let sp := s.cur.space
    let same (e : Seal) : Bool := e.space == sp && e.base == base && e.lsz == lsz && !e.unsealing
    if g.tag = false then .trap (handleTrap 0x13 0x03 g) s
    else if g.val.getLsbD 57 = false then .trap (handleTrap 0x13 0x02 g) s
    else if (s.core s.fcore).seals.any same = false then .trap (handleTrap 0x13 0x08 g) s
    else
      let tag := (s.cur.gv rb).truncate 32
      let sc := s.curScope
      let part := s.curPart
      let mark (e : Seal) : Seal := if same e then { e with unsealing := true, tag := tag, scope := sc, part := part } else e
      .ok ((s.onCore s.fcore fun c => { c with seals := c.seals.map mark }).sweepSeals s.fcore)

/-! ### Reclaim and close (spec 07 R193, R209; 13 R343, R344) -/

/-- reclaim (spec 07 R193): the floor goes to every home of the partition, and the context waits for their acknowledgements. Of the checks of R180 it
makes none for PRIV, HANDLE or WATCH, and an address outside global space traps PAGE 0x02 (log entry 120, DEDUCED). -/
def execReclaim (h : Hdr) (ra rb : BitVec 4) (s : State) : Out :=
  lword h s fun s =>
    let a := (ea (s.cur.gr ra) 0).toNat
    let part := s.curPart
    if placeOf false (s.rankOf s.fcore) a ≠ some .global then .trap (pageTrap 0x02 a) s
    else match s.xlate part a with
    | (s, .error t) => .trap t s
    | (s, .ok e) =>
      match s.region part a with
      | some (i, r) =>
        if r.st ≠ 4 then .trap (regionTrap 0x02 a) s
        else if r.banked = false then .trap (regionTrap 0x03 a) s
        else if e.mod ≠ s.modid then .trap (regionTrap 0x05 a) s
        else
          let p := s.part part
          let f : BitVec 20 := (s.cur.gv rb).truncate 20
          let f' := if safter f r.floor then f else r.floor
          let s := s.setPart part { p with regions := tset p.regions i { r with floor := f' } }
          let cores := partCores p
          let s := s.setCur { s.cur with hold := .reclaim cores.length }
          .wait (cores.foldl (fun s c => { s with agenda := s.agenda ++ [(.reclaimFloorNotice,
            { a := part, b := i, c := c, v := BitVec.ofNat 64 (f'.toNat + ckey s.fcore s.fctx * 2 ^ 20) })] }) s)
      | none => .trap (regionTrap 0x02 a) s
/-- Entries of a home list: ranks. -/
def homeList (bs : List Byte) : List Nat := elems 4 (bs.length / 4) bs
/-- The notices of a close go out behind the flushes: one to each distinct rank that is an LC of the partition; every entry that is none counts as a home
that does not answer (spec 13 R344). -/
def State.closeTo (s : State) (rd : BitVec 4) (etd : Nat) (t : BitVec 20) (ranks : List Nat) : State :=
  let core := s.fcore
  let k := s.fctx
  let part := s.curPart
  let okRank (r : Nat) : Bool := decide (r < 2 ^ 24) && decide (r % 4096 < 768) &&
    (if r / 4096 = s.modid.toNat then (s.part part).hedges.contains (r % 4096 / 8) else true)
  let good := (ranks.filter okRank).eraseDups
  let (no, s) := (s.flushTable core part etd s.acting).fresh
  let s := good.foldl (fun s r =>
    let (q, s) := s.seq core
    s.post core { builtinMsg (BitVec.ofNat 24 r) 0x20C 0 part s.curScope
        (arg4 (BitVec.ofNat 64 etd) (BitVec.ofNat 64 (no % 2 ^ 32 * 2 ^ 32)) (t.zeroExtend 64) ((s.rankOf core).zeroExtend 64)) with
      srank := s.rankOf core, sctx := 15, srclr := BitVec.ofNat 12 core, seqn := q, cls := 1, hw := true, arank := s.acting }) s
  let s := s.setCur { s.cur with hold := .close rd no (good.map (BitVec.ofNat 24)) (ranks.length - (ranks.filter okRank).length) false }
  if good.isEmpty then s.due .closeComplete core k
  else if good.all fun r => r / 4096 == s.modid.toNat then s else s.later .linkwaitExpiry core k no
/-- A contribution of the context to a table is outstanding: its close waits for it, so that each notice travels behind it (spec 11 R308). -/
def State.contributes (s : State) (etd : Nat) : Bool :=
  s.reqs.any fun x => x.2.core == s.fcore && x.2.ctx == s.fctx && x.2.posted && x.2.kind == .aacc && x.2.etd == etd && x.2.phase != .finished
/-- The homes of a table: those of its list, read as a plain load reads (R180), or the one home of its base (spec 13 R338, R344). -/
def State.closeHomes (s : State) (d : Etd) (use : State → List Nat → Res) : Res :=
  let n := 4 * d.nsh
  if d.hlist = 0 then
    match s.xlate s.curPart d.base with
    | (s, .error t) => .trap t s.dropFetched
    | (s, .ok e) => use s [(e.mod ++ BitVec.ofNat 12 (homeOf (e.pa d.base))).toNat]
  else match s.fetched d.hlist n with
  | some q => use s (homeList q.result)
  | none =>
    match s.check d.hlist n 0 true false ⟨BitVec.ofNat 64 d.hlist, false⟩ with
    | .trap t => .trap t s.dropFetched
    | .fill p => s.fillPage p
    | .ok .global | .ok (.window _) => s.block { s.mkReq .loadNc d.hlist n with fetch := true }
    | .ok p => match s.localRd p d.hlist n with
      | .error t => .trap t s.dropFetched
      | .ok bs => use (s.used p d.hlist n) (homeList bs)
/-- close (spec 07 R209; 13 R344). Its ETD is checked as in R197 step 1, alignment, translation and the read: R209 names step 2, which is the check of a
tile row (log entry 118, DEDUCED). -/
def execCloseStep (h : Hdr) (rd ra rb : BitVec 4) (s : State) : Out :=
  lword h s fun s =>
    let et := (ea (s.cur.gr ra) 0).toNat
    let t : BitVec 20 := (s.cur.gv rb).truncate 20
    if et % 64 ≠ 0 then .trap ⟨0x04, 0, BitVec.ofNat 64 et⟩ s
    else match s.fetched et 64 with
    | none => s.fetchFirst et 64
    | some q =>
      let d : Etd := leNat q.result
      if d.rejected false then .trap (regionTrap 0x04 et) s.dropFetched
      else s.closeHomes d fun s ranks => if s.contributes et then .again s else .wait (s.dropFetched.closeTo rd et t ranks)

end Sys2Proof.Machine
end

