-- ==== Sys2Proof/Machine/Float.lean ====
section
/-! DEFINITION. Scalar floating-point words (spec 06 R152 to R160). -/

namespace Sys2Proof.Machine

/-- The operand of type t in a register: its low bits (spec 06 R152). -/
def fopnd (c : Ctx) (t : FTy) (r : BitVec 4) : Nat := (c.gv r).toNat % 2 ^ fwidth t
/-- Write a floating-point result, zero-extended, tag 0. -/
def setF (rd : BitVec 4) (c : Ctx) (v : Nat) : Ctx := c.setG rd (BitVec.ofNat 64 v)
/-- A word of two sources. -/
def fop2 (h : Hdr) (s : State) (t : FTy) (rd ra rb : BitVec 4) (f : FTy → RMode → Nat → Nat → Nat × Fl) : Out :=
  fpResult h s (fun c => f t c.ctl.mode (fopnd c t ra) (fopnd c t rb)) (setF rd)
/-- A word of three sources, the destination among them. -/
def fop3 (h : Hdr) (s : State) (t : FTy) (rd ra rb : BitVec 4) (f : FTy → RMode → Nat → Nat → Nat → Nat × Fl) : Out :=
  fpResult h s (fun c => f t c.ctl.mode (fopnd c t ra) (fopnd c t rb) (fopnd c t rd)) (setF rd)
/-- A compare (spec 06 R158): only its low bit is written, to a predicate. -/
def fcmp (h : Hdr) (s : State) (t : FTy) (rd ra rb : BitVec 4) (cc : FCmp) : Out :=
  fpResult h s (fun c => let (b, f) := fCompare t c.ctl.mode cc (fopnd c t ra) (fopnd c t rb); (b.toNat, f)) fun c v => c.setP rd (v == 1)
/-- A conversion (spec 06 R159): a stochastic one advances LFSR by 16 steps, unless it traps (spec 04 R117, R118). -/
def fcvt (h : Hdr) (s : State) (src dst : ETy) (rd ra : BitVec 4) : Out :=
  fpResult h s (fun c => (convertLane src dst c.ctl.mode c.ctl.sr c.ctl.lfsr ((c.gv ra).toNat % 2 ^ (8 * src.bytes))).1) fun c v =>
    let l := (convertLane src dst c.ctl.mode c.ctl.sr c.ctl.lfsr ((c.gv ra).toNat % 2 ^ (8 * src.bytes))).2
    setF rd { c with ctl := { c.ctl with lfsr := l } } v

/-- fadd (spec 06 R154). -/
def execFadd (h : Hdr) (rd ra rb : BitVec 4) (ty : FTy) (s : State) : Out := fop2 h s ty rd ra rb fAdd
/-- fsub (spec 06 R154). -/
def execFsub (h : Hdr) (rd ra rb : BitVec 4) (ty : FTy) (s : State) : Out := fop2 h s ty rd ra rb fSub
/-- fmul (spec 06 R154). -/
def execFmul (h : Hdr) (rd ra rb : BitVec 4) (ty : FTy) (s : State) : Out := fop2 h s ty rd ra rb fMul
/-- fdiv (spec 06 R154). -/
def execFdiv (h : Hdr) (rd ra rb : BitVec 4) (ty : FTy) (s : State) : Out := fop2 h s ty rd ra rb fDiv
/-- fmin (spec 06 R155). -/
def execFmin (h : Hdr) (rd ra rb : BitVec 4) (ty : FTy) (s : State) : Out := fop2 h s ty rd ra rb fun t md a b => fMinMax t md false a b
/-- fmax (spec 06 R155). -/
def execFmax (h : Hdr) (rd ra rb : BitVec 4) (ty : FTy) (s : State) : Out := fop2 h s ty rd ra rb fun t md a b => fMinMax t md true a b
/-- fsqrt (spec 06 R154). -/
def execFsqrt (h : Hdr) (rd ra : BitVec 4) (ty : FTy) (s : State) : Out :=
  fpResult h s (fun c => fSqrt ty c.ctl.mode (fopnd c ty ra)) (setF rd)
/-- fneg (spec 06 R156): the sign bit alone, no flag. -/
def execFneg (h : Hdr) (rd ra : BitVec 4) (ty : FTy) (s : State) : Out :=
  rword h s fun c => setF rd c (Nat.xor (fopnd c ty ra) (signBit ty))
/-- fma (spec 06 R157). -/
def execFma (h : Hdr) (rd ra rb : BitVec 4) (ty : FTy) (s : State) : Out := fop3 h s ty rd ra rb fFma
/-- fms (spec 06 R157). -/
def execFms (h : Hdr) (rd ra rb : BitVec 4) (ty : FTy) (s : State) : Out := fop3 h s ty rd ra rb fFms
/-- fcmp.eq (spec 06 R158). -/
def execFcmpEq (h : Hdr) (rd ra rb : BitVec 4) (ty : FTy) (s : State) : Out := fcmp h s ty rd ra rb .eq
/-- fcmp.lt (spec 06 R158). -/
def execFcmpLt (h : Hdr) (rd ra rb : BitVec 4) (ty : FTy) (s : State) : Out := fcmp h s ty rd ra rb .lt
/-- fcmp.le (spec 06 R158). -/
def execFcmpLe (h : Hdr) (rd ra rb : BitVec 4) (ty : FTy) (s : State) : Out := fcmp h s ty rd ra rb .le
/-- fcmp.un (spec 06 R158). -/
def execFcmpUn (h : Hdr) (rd ra rb : BitVec 4) (ty : FTy) (s : State) : Out := fcmp h s ty rd ra rb .un
/-- fcvt.f2f (spec 06 R159). -/
def execFcvtF2f (h : Hdr) (rd ra : BitVec 4) (ty src : FTy) (s : State) : Out := fcvt h s (etyOfF src) (etyOfF ty) rd ra
/-- fcvt.f2i (spec 06 R159). -/
def execFcvtF2i (h : Hdr) (rd ra : BitVec 4) (ty : FTy) (s : State) : Out := fcvt h s (etyOfF ty) .i64 rd ra
/-- fcvt.f2u (spec 06 R159). -/
def execFcvtF2u (h : Hdr) (rd ra : BitVec 4) (ty : FTy) (s : State) : Out := fcvt h s (etyOfF ty) .n64 rd ra
/-- fcvt.i2f (spec 06 R159). -/
def execFcvtI2f (h : Hdr) (rd ra : BitVec 4) (ty : FTy) (s : State) : Out := fcvt h s .i64 (etyOfF ty) rd ra
/-- fcvt.u2f (spec 06 R159). -/
def execFcvtU2f (h : Hdr) (rd ra : BitVec 4) (ty : FTy) (s : State) : Out := fcvt h s .n64 (etyOfF ty) rd ra
/-- fclass (spec 06 R160): reads the encoding. -/
def execFclass (h : Hdr) (rd ra : BitVec 4) (ty : FTy) (s : State) : Out := rword h s fun c => setF rd c (fClass ty (fopnd c ty ra))

end Sys2Proof.Machine
end

