-- ==== Sys2Proof/Machine/Vector.lean ====
section
/-! DEFINITION. Vector words (spec 06 R161 to R173). -/

namespace Sys2Proof.Machine

/-! ### One lane (spec 04 R113, R114; 06 R155, R165, R166) -/

/-- a + b. -/
def laneAdd (t : ETy) (md : RMode) (a b : Nat) : Nat × Fl :=
  match laneOf t with
  | .flt f => fAdd f md a b
  | .sint w => ((a + b) % 2 ^ w, 0)
  | .uint w => ((a + b) % 2 ^ w, 0)
  | .fx => (wrapN 64 (satS (toSigned 64 a + toSigned 64 b) 64), 0)
/-- a − b. -/
def laneSub (t : ETy) (md : RMode) (a b : Nat) : Nat × Fl :=
  match laneOf t with
  | .flt f => fSub f md a b
  | .sint w => (wrapN w ((a : Int) - b), 0)
  | .uint w => (wrapN w ((a : Int) - b), 0)
  | .fx => (wrapN 64 (satS (toSigned 64 a - toSigned 64 b) 64), 0)
/-- a × b. -/
def laneMul (t : ETy) (md : RMode) (a b : Nat) : Nat × Fl :=
  match laneOf t with
  | .flt f => fMul f md a b
  | .sint w => (a * b % 2 ^ w, 0)
  | .uint w => (a * b % 2 ^ w, 0)
  | .fx => (wrapN 64 (satS (rneShift (toSigned 64 a * toSigned 64 b) 32) 64), 0)
/-- a × b ± c with one rounding. vfms.fx64 subtracts c, as the first line of R166 has it; its fx64 line adds c for both words (spec 06 R166; log entry
116, DESIGN CHOICE). -/
def laneFma (sub : Bool) (t : ETy) (md : RMode) (a b c : Nat) : Nat × Fl :=
  match laneOf t with
  | .flt f => if sub then fFms f md a b c else fFma f md a b c
  | .sint w => (wrapN w ((a : Int) * b + (if sub then -(c : Int) else c)), 0)
  | .uint w => (wrapN w ((a : Int) * b + (if sub then -(c : Int) else c)), 0)
  | .fx =>
    let ic := toSigned 64 c * (2 ^ 32 : Nat)
    (wrapN 64 (satS (rneShift (toSigned 64 a * toSigned 64 b + (if sub then -ic else ic)) 32) 64), 0)
/-- Minimum or maximum (spec 06 R155). -/
def laneMinMax (isMax : Bool) (t : ETy) (md : RMode) (a b : Nat) : Nat × Fl :=
  let pick (x y : Int) : Nat := if isMax then (if x < y then b else a) else (if y < x then b else a)
  match laneOf t with
  | .flt f => fMinMax f md isMax a b
  | .sint w => (pick (toSigned w a) (toSigned w b), 0)
  | .uint w => (pick ((a % 2 ^ w : Nat) : Int) ((b % 2 ^ w : Nat) : Int), 0)
  | .fx => (pick (toSigned 64 a) (toSigned 64 b), 0)
/-- |a|. -/
def laneAbs (t : ETy) (a : Nat) : Nat :=
  match laneOf t with
  | .flt f => a % signBit f
  | .sint w => wrapN w (toSigned w a).natAbs
  | .uint _ => a
  | .fx => wrapN 64 (satS (toSigned 64 a).natAbs 64)
/-- −a. -/
def laneNeg (t : ETy) (a : Nat) : Nat :=
  match laneOf t with
  | .flt f => Nat.xor a (signBit f)
  | .sint w => wrapN w (-(a : Int))
  | .uint w => wrapN w (-(a : Int))
  | .fx => wrapN 64 (satS (-(toSigned 64 a)) 64)
/-- a shifted left. -/
def laneShl (t : ETy) (a b : Nat) : Nat := a * 2 ^ (b % (8 * t.bytes)) % 2 ^ (8 * t.bytes)
/-- a shifted right: arithmetic for i types and fx64, logical for n types. -/
def laneShr (t : ETy) (a b : Nat) : Nat :=
  let k := b % (8 * t.bytes)
  match laneOf t with
  | .uint _ => a / 2 ^ k
  | .sint w => wrapN w (toSigned w a / (2 ^ k : Nat))
  | .fx => wrapN 64 (toSigned 64 a / (2 ^ k : Nat))
  | .flt _ => a
/-- A relation of two lanes (spec 06 R171). -/
def laneCmp (cc : FCmp) (t : ETy) (md : RMode) (a b : Nat) : Bool × Fl :=
  let rel (x y : Int) : Bool := match cc with | .eq => x == y | .lt => decide (x < y) | .le => decide (x ≤ y) | .un => false
  match laneOf t with
  | .flt f => fCompare f md cc a b
  | .sint w => (rel (toSigned w a) (toSigned w b), 0)
  | .uint w => (rel ((a % 2 ^ w : Nat) : Int) ((b % 2 ^ w : Nat) : Int), 0)
  | .fx => (rel (toSigned 64 a) (toSigned 64 b), 0)

/-! ### Forms of a vector word (spec 06 R161, R162) -/

/-- Lanes of a result and their flags as a register. -/
def pack (w : Nat) (l : List (Nat × Fl)) : BitVec 256 × List Fl := (ofLanes w (l.map fun x => x.1), l.map fun x => x.2)
/-- Two registers, lane by lane, latency L. -/
def v2 (h : Hdr) (s : State) (wd wa wb : BitVec 3) (ty : VTy) (lat : Nat) (ok : ETy → Bool) (f : ETy → RMode → Nat → Nat → Nat × Fl) : Out :=
  vword h s wd lat fun c =>
    match vtyOfCtl c.ctl ty with
    | .error t => .error t
    | .ok t => if ok t then
        let (v, fs) := pack t.bytes (((lanesOf t.bytes (c.wv wa)).zip (lanesOf t.bytes (c.wv wb))).map fun x => f t c.ctl.mode x.1 x.2)
        .ok (isFloat t, v, fs)
      else .error (shapeTrap c.ctl)
/-- One register, lane by lane. -/
def v1 (h : Hdr) (s : State) (wd wa : BitVec 3) (ty : VTy) (lat : Nat) (ok : ETy → Bool) (f : ETy → RMode → Nat → Nat × Fl) : Out :=
  v2 h s wd wa wa ty lat ok fun t md a _ => f t md a
/-- Three registers, lane by lane. -/
def v3 (h : Hdr) (s : State) (wd wa wb wc : BitVec 3) (ty : VTy) (lat : Nat) (f : ETy → RMode → Nat → Nat → Nat → Nat × Fl) : Out :=
  vword h s wd lat fun c =>
    match vtyOfCtl c.ctl ty with
    | .error t => .error t
    | .ok t =>
      let n := 32 / t.bytes
      let (v, fs) := pack t.bytes ((List.range n).map fun i =>
        f t c.ctl.mode (laneGet (c.wv wa) t.bytes i) (laneGet (c.wv wb) t.bytes i) (laneGet (c.wv wc) t.bytes i))
      .ok (isFloat t, v, fs)
/-- Movement of encodings: no flag, whatever the type (spec 06 R169). -/
def vmove (h : Hdr) (s : State) (wd : BitVec 3) (ty : VTy) (f : Ctx → ETy → Nat → Nat) : Out :=
  vword h s wd 2 fun c =>
    match vtyOfCtl c.ctl ty with
    | .error t => .error t
    | .ok t => .ok (false, ofLanes t.bytes ((List.range (32 / t.bytes)).map (f c t)), [])
/-- A lane field below the lane count of the type in force, else ILLEGAL (spec 06 R169). -/
def laneFits (c : Ctl) (k : BitVec 5) (t : ETy) : Except Trap ETy := if k.toNat < 32 / t.bytes then .ok t else .error (shapeTrap c)
/-- Movement with a lane field. -/
def vmoveK (h : Hdr) (s : State) (wd : BitVec 3) (k : BitVec 5) (ty : VTy) (f : Ctx → ETy → Nat → Nat) : Out :=
  vword h s wd 2 fun c =>
    match (vtyOfCtl c.ctl ty).bind (laneFits c.ctl k) with
    | .error t => .error t
    | .ok t => .ok (false, ofLanes t.bytes ((List.range (32 / t.bytes)).map (f c t)), [])
/-- All types. -/
def anyTy (_ : ETy) : Bool := true
/-- Integer and fixed-point types. -/
def shiftTy (t : ETy) : Bool := !isFloat t
/-- f32, f16 and bf16. -/
def transTy : ETy → Bool
  | .f32 => true | .f16 => true | .bf16 => true
  | .i8 => false | .i16 => false | .i32 => false | .i64 => false | .n8 => false | .n16 => false | .n32 => false | .n64 => false
  | .f64 => false | .e4m3 => false | .e5m2 => false | .fx64 => false

/-! ### VOP and VFMA (spec 06 R165, R166) -/

/-- vadd. -/
def execVadd (h : Hdr) (wd wa wb : BitVec 3) (ty : VTy) (s : State) : Out := v2 h s wd wa wb ty 4 anyTy laneAdd
/-- vsub. -/
def execVsub (h : Hdr) (wd wa wb : BitVec 3) (ty : VTy) (s : State) : Out := v2 h s wd wa wb ty 4 anyTy laneSub
/-- vmul. -/
def execVmul (h : Hdr) (wd wa wb : BitVec 3) (ty : VTy) (s : State) : Out := v2 h s wd wa wb ty 4 anyTy laneMul
/-- vmin. -/
def execVmin (h : Hdr) (wd wa wb : BitVec 3) (ty : VTy) (s : State) : Out := v2 h s wd wa wb ty 4 anyTy (laneMinMax false)
/-- vmax. -/
def execVmax (h : Hdr) (wd wa wb : BitVec 3) (ty : VTy) (s : State) : Out := v2 h s wd wa wb ty 4 anyTy (laneMinMax true)
/-- vabs. -/
def execVabs (h : Hdr) (wd wa : BitVec 3) (ty : VTy) (s : State) : Out := v1 h s wd wa ty 4 anyTy fun t _ a => (laneAbs t a, 0)
/-- vneg. -/
def execVneg (h : Hdr) (wd wa : BitVec 3) (ty : VTy) (s : State) : Out := v1 h s wd wa ty 4 anyTy fun t _ a => (laneNeg t a, 0)
/-- vand. -/
def execVand (h : Hdr) (wd wa wb : BitVec 3) (ty : VTy) (s : State) : Out := v2 h s wd wa wb ty 4 anyTy fun _ _ a b => (Nat.land a b, 0)
/-- vor. -/
def execVor (h : Hdr) (wd wa wb : BitVec 3) (ty : VTy) (s : State) : Out := v2 h s wd wa wb ty 4 anyTy fun _ _ a b => (Nat.lor a b, 0)
/-- vxor. -/
def execVxor (h : Hdr) (wd wa wb : BitVec 3) (ty : VTy) (s : State) : Out := v2 h s wd wa wb ty 4 anyTy fun _ _ a b => (Nat.xor a b, 0)
/-- vshl. -/
def execVshl (h : Hdr) (wd wa wb : BitVec 3) (ty : VTy) (s : State) : Out := v2 h s wd wa wb ty 4 shiftTy fun t _ a b => (laneShl t a b, 0)
/-- vshr. -/
def execVshr (h : Hdr) (wd wa wb : BitVec 3) (ty : VTy) (s : State) : Out := v2 h s wd wa wb ty 4 shiftTy fun t _ a b => (laneShr t a b, 0)
/-- vfma. -/
def execVfma (h : Hdr) (wd wa wb wc : BitVec 3) (ty : VTy) (s : State) : Out := v3 h s wd wa wb wc ty 4 (laneFma false)
/-- vfms. -/
def execVfms (h : Hdr) (wd wa wb wc : BitVec 3) (ty : VTy) (s : State) : Out := v3 h s wd wa wb wc ty 4 (laneFma true)

/-! ### Conversions (spec 06 R167, R168) -/

/-- Convert lanes in order, each taking LFSR where the one before left it: results, flags, and the LFSR after (spec 04 R117). -/
def convertLanes (src dst : ETy) (md : RMode) (sr : Bool) : BitVec 32 → List Nat → List (Nat × Fl) × BitVec 32
  | l, [] => ([], l)
  | l, x :: xs =>
    let (r, l1) := convertLane src dst md sr l x
    let (rs, l2) := convertLanes src dst md sr l1 xs
    (r :: rs, l2)
/-- A converting word: the source lanes it takes, in ascending destination order. Of a word that rounds stochastically LFSR advances at issue unless the
word traps; vunpklo and vunpkhi never do (spec 04 R117, R118). -/
def vconv (h : Hdr) (s : State) (stoch : Bool) (wd : BitVec 3) (ty : VTy) (f : Ctx → ETy → ETy → Option (List Nat)) : Out :=
  lword h s fun s =>
    let c := s.cur
    match c.ctl.shapeTy with
    | .error t => .trap t s
    | .ok src =>
      let dst := match ty with | .shape => src | .of t => t
      match f c src dst with
      | none => .trap (shapeTrap c.ctl) s
      | some xs =>
        let (rs, l) := convertLanes src dst c.ctl.mode (stoch && c.ctl.sr) c.ctl.lfsr xs
        let (v, fs) := pack dst.bytes rs
        match latchRes c (isFloat src || isFloat dst) 4 wd v fs with
        | .ok c' => .ok (s.setCur { c' with ctl := { c'.ctl with lfsr := l } })
        | .error (t, c') => .trap t (s.setCur c')
/-- vcvt (spec 06 R167). -/
def execVcvt (h : Hdr) (wd wa : BitVec 3) (ty : VTy) (s : State) : Out :=
  vconv h s true wd ty fun c src dst => some ((lanesOf src.bytes (c.wv wa)).take (32 / dst.bytes))
/-- vpack (spec 06 R168). -/
def execVpack (h : Hdr) (wd wa wb : BitVec 3) (ty : VTy) (s : State) : Out :=
  vconv h s true wd ty fun c src dst =>
    if 2 * dst.bytes = src.bytes then some (lanesOf src.bytes (c.wv wa) ++ lanesOf src.bytes (c.wv wb)) else none
/-- vunpklo (spec 06 R168). -/
def execVunpklo (h : Hdr) (wd wa : BitVec 3) (ty : VTy) (s : State) : Out :=
  vconv h s false wd ty fun c src dst => if dst.bytes = 2 * src.bytes then some ((lanesOf src.bytes (c.wv wa)).take (16 / src.bytes)) else none
/-- vunpkhi (spec 06 R168). -/
def execVunpkhi (h : Hdr) (wd wa : BitVec 3) (ty : VTy) (s : State) : Out :=
  vconv h s false wd ty fun c src dst => if dst.bytes = 2 * src.bytes then some ((lanesOf src.bytes (c.wv wa)).drop (16 / src.bytes)) else none

/-! ### Lane movement (spec 06 R169, R170) -/

/-- vswp2. -/
def execVswp2 (h : Hdr) (wd wa : BitVec 3) (ty : VTy) (s : State) : Out :=
  vmove h s wd ty fun c t i => laneGet (c.wv wa) t.bytes (Nat.xor i 1)
/-- vrev. -/
def execVrev (h : Hdr) (wd wa : BitVec 3) (ty : VTy) (s : State) : Out :=
  vmove h s wd ty fun c t i => laneGet (c.wv wa) t.bytes (32 / t.bytes - 1 - i)
/-- vshuf. -/
def execVshuf (h : Hdr) (wd wa wb : BitVec 3) (ty : VTy) (s : State) : Out :=
  vmove h s wd ty fun c t i => laneGet (c.wv wa) t.bytes (laneGet (c.wv wb) t.bytes i % (32 / t.bytes))
/-- vrot. -/
def execVrot (h : Hdr) (wd wa : BitVec 3) (k : BitVec 5) (ty : VTy) (s : State) : Out :=
  vmoveK h s wd k ty fun c t i => laneGet (c.wv wa) t.bytes ((i + k.toNat) % (32 / t.bytes))
/-- vbcast. -/
def execVbcast (h : Hdr) (wd wa : BitVec 3) (k : BitVec 5) (ty : VTy) (s : State) : Out :=
  vmoveK h s wd k ty fun c t _ => laneGet (c.wv wa) t.bytes k.toNat
/-- vext: into a general register, sign-extended for i types (spec 06 R170). -/
def execVext (h : Hdr) (wv : BitVec 3) (rg : BitVec 4) (k : BitVec 5) (ty : VTy) (s : State) : Out :=
  tword h s fun c =>
    match (vtyOfCtl c.ctl ty).bind (laneFits c.ctl k) with
    | .error t => .error t
    | .ok t =>
      let v := laneGet (c.wv wv) t.bytes k.toNat
      .ok (c.setG rg (match laneOf t with | .sint w => BitVec.ofInt 64 (toSigned w v) | .uint _ => BitVec.ofNat 64 v | .flt _ => BitVec.ofNat 64 v | .fx => BitVec.ofNat 64 v))
/-- vins: the other lanes keep the values they held at issue (spec 06 R170). -/
def execVins (h : Hdr) (wv : BitVec 3) (rg : BitVec 4) (k : BitVec 5) (ty : VTy) (s : State) : Out :=
  vmoveK h s wv k ty fun c t i => if i = k.toNat then (c.gv rg).toNat % 2 ^ (8 * t.bytes) else laneGet (c.wv wv) t.bytes i
/-- vsplat (spec 06 R170). -/
def execVsplat (h : Hdr) (wv : BitVec 3) (rg : BitVec 4) (ty : VTy) (s : State) : Out :=
  vmove h s wv ty fun c t _ => (c.gv rg).toNat % 2 ^ (8 * t.bytes)

/-! ### Compare, select, nonzero (spec 06 R171) -/

/-- All ones in the lane when the relation holds. -/
def maskLane (t : ETy) (r : Bool × Fl) : Nat × Fl := (if r.1 then 2 ^ (8 * t.bytes) - 1 else 0, r.2)
/-- vcmp.eq. -/
def execVcmpEq (h : Hdr) (wd wa wb : BitVec 3) (ty : VTy) (s : State) : Out := v2 h s wd wa wb ty 2 anyTy fun t md a b => maskLane t (laneCmp .eq t md a b)
/-- vcmp.lt. -/
def execVcmpLt (h : Hdr) (wd wa wb : BitVec 3) (ty : VTy) (s : State) : Out := v2 h s wd wa wb ty 2 anyTy fun t md a b => maskLane t (laneCmp .lt t md a b)
/-- vcmp.le. -/
def execVcmpLe (h : Hdr) (wd wa wb : BitVec 3) (ty : VTy) (s : State) : Out := v2 h s wd wa wb ty 2 anyTy fun t md a b => maskLane t (laneCmp .le t md a b)
/-- vsel. -/
def execVsel (h : Hdr) (wd wa wb wc : BitVec 3) (ty : VTy) (s : State) : Out := v3 h s wd wa wb wc ty 2 fun _ _ a b c => (if c = 0 then b else a, 0)
/-- vnz: a mask and a count of nonzero lanes. -/
def execVnz (h : Hdr) (wd wa : BitVec 3) (ty : VTy) (s : State) : Out :=
  vword h s wd 2 fun c =>
    match vtyOfCtl c.ctl ty with
    | .error t => .error t
    | .ok t =>
      let nz := (lanesOf t.bytes (c.wv wa)).map fun x => !laneZero t x
      let mask := (nz.zipIdx.map fun x => x.1.toNat * 2 ^ x.2).foldl (· + ·) 0
      let cnt := (nz.filter id).length
      .ok (false, BitVec.ofNat 256 (mask + cnt * 2 ^ 32), [])

/-! ### Transcendentals and reductions (spec 06 R172, R173) -/

/-- A VTRANS word. -/
def vtrans (h : Hdr) (s : State) (wd wa : BitVec 3) (ty : VTy) (op : TransOp) : Out :=
  v1 h s wd wa ty 12 transTy fun t md a => match laneOf t with | .flt f => trans op f md a | .sint _ => (a, 0) | .uint _ => (a, 0) | .fx => (a, 0)
/-- vsin. -/
def execVsin (h : Hdr) (wd wa : BitVec 3) (ty : VTy) (s : State) : Out := vtrans h s wd wa ty .sin
/-- vcos. -/
def execVcos (h : Hdr) (wd wa : BitVec 3) (ty : VTy) (s : State) : Out := vtrans h s wd wa ty .cos
/-- vexp. -/
def execVexp (h : Hdr) (wd wa : BitVec 3) (ty : VTy) (s : State) : Out := vtrans h s wd wa ty .exp
/-- vlog2. -/
def execVlog2 (h : Hdr) (wd wa : BitVec 3) (ty : VTy) (s : State) : Out := vtrans h s wd wa ty .log2
/-- vrsqrt. -/
def execVrsqrt (h : Hdr) (wd wa : BitVec 3) (ty : VTy) (s : State) : Out := vtrans h s wd wa ty .rsqrt
/-- vrcp. -/
def execVrcp (h : Hdr) (wd wa : BitVec 3) (ty : VTy) (s : State) : Out := vtrans h s wd wa ty .rcp

/-- One level of the pairwise tree (spec 04 R125). -/
def treeLevel (f : Nat → Nat → Nat × Fl) : List Nat → List (Nat × Fl)
  | a :: b :: r => f a b :: treeLevel f r
  | [a] => [(a, 0)]
  | [] => []
/-- The pairwise tree over at most 2^n lanes: its value and the OR of its flags. -/
def tree (f : Nat → Nat → Nat × Fl) : Nat → List Nat → Nat × Fl
  | 0, l => (l.headD 0, 0)
  | n + 1, l =>
    let r := treeLevel f l
    let (v, fl) := tree f n (r.map fun x => x.1)
    (v, orFl (r.map fun x => x.2) ||| fl)
/-- A reduction into lane 0. No rule says as which lane a node of its tree counts: an enabled exception sets bit 0 of the lane mask in TVAL (spec 04
R123; 06 R173; log entry 115, DESIGN CHOICE). -/
def vred (h : Hdr) (s : State) (wd wa : BitVec 3) (ty : VTy) (f : ETy → RMode → List Nat → Nat × Fl) : Out :=
  vword h s wd 6 fun c =>
    match vtyOfCtl c.ctl ty with
    | .error t => .error t
    | .ok t =>
      let (v, fl) := f t c.ctl.mode (lanesOf t.bytes (c.wv wa))
      .ok (isFloat t, BitVec.ofNat 256 v, [fl])
/-- The number of levels of a register's tree. -/
def levels (t : ETy) : Nat := Nat.log2 (32 / t.bytes)
/-- vrsum: fx64 sums exactly and saturates once. -/
def execVrsum (h : Hdr) (wd wa : BitVec 3) (ty : VTy) (s : State) : Out :=
  vred h s wd wa ty fun t md ls =>
    match laneOf t with
    | .fx => (wrapN 64 (satS ((ls.map (toSigned 64)).foldl (· + ·) 0) 64), 0)
    | .flt _ => tree (laneAdd t md) (levels t) ls
    | .sint _ => tree (laneAdd t md) (levels t) ls
    | .uint _ => tree (laneAdd t md) (levels t) ls
/-- vrmax. -/
def execVrmax (h : Hdr) (wd wa : BitVec 3) (ty : VTy) (s : State) : Out := vred h s wd wa ty fun t md ls => tree (laneMinMax true t md) (levels t) ls
/-- vrmin. -/
def execVrmin (h : Hdr) (wd wa : BitVec 3) (ty : VTy) (s : State) : Out := vred h s wd wa ty fun t md ls => tree (laneMinMax false t md) (levels t) ls

end Sys2Proof.Machine
end

