-- ==== Sys2Proof/Machine/Row.lean ====
section
/-! DEFINITION. Row words: memory to memory on rows of tile memory, beat by beat (spec 06 R174 to R177; log entry 22). -/

namespace Sys2Proof.Machine

/-- An address operand of a ROW word: its register, address, length, and what is done there. -/
structure RowOpnd where
  g : GReg
  a : Nat
  len : Nat
  rd : Bool
  wr : Bool
  deriving DecidableEq, Repr

/-- The checks of R175 for one operand. -/
def State.rowCheck1 (s : State) (o : RowOpnd) : Chk :=
  let c := s.cur
  let at' (i : Nat) : Word := BitVec.ofNat 64 (o.a + i)
  if o.a % 32 ≠ 0 then .trap ⟨0x04, 0, at' 0⟩
  else match firstOff o.len fun i => decide (0x40000 ≤ o.a + i) with
  | some i => .trap (pageTrap 0x04 (o.a + i))
  | none =>
  match firstOff o.len fun i => !s.priv && decide (0x3F000 ≤ o.a + i) with
  | some i => .trap ⟨0x03, 0, at' i⟩
  | none =>
  -- a destination is checked for the write right alone, rowaxpy's read of it too
  match checkHandle o.g o.a o.len (o.rd && !o.wr) o.wr with
  | some t => .trap t
  | none =>
  match (List.range o.len).findSome? fun i => (watchHit c.ctl o.rd o.wr (o.a + i)).map fun w => (i, w) with
  | some (i, w) => .trap ⟨0x41, BitVec.ofNat 8 w, at' i⟩
  | none =>
  match firstOff o.len fun i => o.wr && s.sealedAt s.fcore c.space (o.a + i) with
  | some i => .trap ⟨0x14, 0, at' i⟩
  | none =>
  match firstOff o.len fun i => (o.a + i) / 4096 != 63 && decide (s.allotment s.fcore c.space ≤ (o.a + i) / 4096) with
  | some i => .trap (pageTrap 0x05 (o.a + i))
  | none =>
  match firstOff o.len fun i => !s.resident s.fcore c.space ((o.a + i) / 4096) with
  | some i => .fill ((o.a + i) / 4096)
  | none => .ok .tile
/-- The operands in order: the first trap, else the first page to be filled. -/
def State.rowCheck (s : State) : List RowOpnd → Chk
  | [] => .ok .tile
  | o :: r =>
    match s.rowCheck1 o with
    | .trap t => .trap t
    | .fill p => (match s.rowCheck r with
        | .trap t => .trap t
        | .fill _ => .fill p
        | .ok _ => .fill p)
    | .ok _ => s.rowCheck r

/-- What a beat does: its bytes with the flags of its lanes and the LFSR after. -/
structure BeatOut where
  bytes : List Byte
  flags : List Fl := []
  lfsr : BitVec 32
  deriving DecidableEq, Repr
/-- What a ROW word does: its operands, the destination's bytes per beat, and a beat's result from its sources' bytes. -/
structure RowSpec where
  opnds : Ctx → ETy → Nat → List RowOpnd
  dlen : ETy → Nat
  beat : ETy → Ctx → List (List Byte) → BeatOut

/-! ### The words (spec 06 R174) -/

/-- The type of a row word with a type field: SHAPE's or its own. -/
def rowTy (ty : VTy) (t : ETy) : ETy := match ty with | .shape => t | .of u => u
/-- A destination operand. -/
def rowDst (c : Ctx) (r : BitVec 4) (n : Nat) (rd : Bool) : RowOpnd := ⟨c.gr r, (ea (c.gr r) 0).toNat, n, rd, true⟩
/-- A source operand. -/
def rowSrc (c : Ctx) (r : BitVec 4) (n : Nat) : RowOpnd := ⟨c.gr r, (ea (c.gr r) 0).toNat, n, true, false⟩
/-- Lanes of a beat. -/
def beatLanes (t : ETy) (b : List Byte) : List Nat := elems t.bytes (32 / t.bytes) b
/-- A beat from lanes. -/
def beatOf (t : ETy) (c : Ctx) (l : List (Nat × Fl)) : BeatOut :=
  { bytes := packElems t.bytes (l.map fun x => x.1), flags := l.map fun x => x.2, lfsr := c.ctl.lfsr }
/-- Element by element over two rows. -/
def row2 (rd ra rb : BitVec 4) (ty : VTy) (f : ETy → RMode → Nat → Nat → Nat × Fl) : RowSpec :=
  { opnds := fun c _ B => [rowDst c rd (32 * B) false, rowSrc c ra (32 * B), rowSrc c rb (32 * B)]
    dlen := fun _ => 32
    beat := fun t c bs =>
      let u := rowTy ty t
      beatOf u c (((beatLanes u (bs.getD 0 [])).zip (beatLanes u (bs.getD 1 []))).map fun x => f u c.ctl.mode x.1 x.2) }
/-- rowcpy: byte for byte. -/
def rowcpySpec (rd ra : BitVec 4) : RowSpec :=
  { opnds := fun c _ B => [rowDst c rd (32 * B) false, rowSrc c ra (32 * B)]
    dlen := fun _ => 32
    beat := fun _ c bs => { bytes := bs.getD 0 [], lfsr := c.ctl.lfsr } }
/-- rowzero. -/
def rowzeroSpec (rd : BitVec 4) : RowSpec :=
  { opnds := fun c _ B => [rowDst c rd (32 * B) false]
    dlen := fun _ => 32
    beat := fun _ c _ => { bytes := List.replicate 32 0, lfsr := c.ctl.lfsr } }
/-- rowaxpy: D + s × A with one rounding. -/
def rowaxpySpec (rd ra rb : BitVec 4) (ty : VTy) : RowSpec :=
  { opnds := fun c _ B => [rowDst c rd (32 * B) true, rowSrc c ra (32 * B)]
    dlen := fun _ => 32
    beat := fun t c bs =>
      let u := rowTy ty t
      let k := (c.gv rb).toNat % 2 ^ (8 * u.bytes)
      beatOf u c (((beatLanes u (bs.getD 0 [])).zip (beatLanes u (bs.getD 1 []))).map fun x => laneFma false u c.ctl.mode k x.2 x.1) }
/-- rowcvt: from SHAPE's type to T. -/
def rowcvtSpec (rd ra : BitVec 4) (ty : VTy) : RowSpec :=
  { opnds := fun c t B => [rowDst c rd (32 * B / t.bytes * (rowTy ty t).bytes) false, rowSrc c ra (32 * B)]
    dlen := fun t => 32 / t.bytes * (rowTy ty t).bytes
    beat := fun t c bs =>
      let u := rowTy ty t
      let (rs, l) := convertLanes t u c.ctl.mode c.ctl.sr c.ctl.lfsr (beatLanes t (bs.getD 0 []))
      { beatOf u c rs with lfsr := l } }
/-- What the ROW words do. -/
def rowSpec : Instr → Option RowSpec
  | .rowcpy _ rd ra _ => some (rowcpySpec rd ra)
  | .rowzero _ rd _ => some (rowzeroSpec rd)
  | .rowadd _ rd ra rb ty => some (row2 rd ra rb ty laneAdd)
  | .rowmul _ rd ra rb ty => some (row2 rd ra rb ty laneMul)
  | .rowaxpy _ rd ra rb ty => some (rowaxpySpec rd ra rb ty)
  | .rowmax _ rd ra rb ty => some (row2 rd ra rb ty (laneMinMax true))
  | .rowcvt _ rd ra ty => some (rowcvtSpec rd ra ty)
  | _ => none

/-! ### Beats (spec 06 R176, R177) -/

/-- Clear the poison of the lines that the word has written whole. -/
def State.cleanRow (s : State) (core sp off n : Nat) : State :=
  if off < 0x3F000 ∧ 0x3F000 < off + n then
    (s.clearPoison (tilePa core sp off) (0x3F000 - off)).clearPoison (tilePa core sp 0x3F000) (off + n - 0x3F000)
  else s.clearPoison (tilePa core sp off) n
/-- Beat b of a ROW word of a context: its sources are read, then its result is written, and lines that the word has now written whole are clean; or the
trap that stops it. Where several sources are poisoned TVAL names the first in the order rd, ra, rb, which R176 does not give (spec 06 R176; log
entry 117, DESIGN CHOICE). -/
def rowBeat (s : State) (core k : Nat) (w : RowSpec) (t : ETy) (b : Nat) : State × Option Trap :=
  let c := s.ctx core k
  let os := w.opnds c t c.ctl.beats
  let base := (os.head?.map fun o => o.a).getD 0
  let srcs := (os.filter fun o => o.rd).map fun o => o.a + 32 * b
  match srcs.findSome? fun a => (s.tilePoison core c.space a 32).map fun i => a + i with
  | some a => (s, some (poisonTrap a))
  | none =>
    let o := w.beat t c (srcs.map fun a => s.tileRd core c.space a 32)
    let c := c.raise (orFl o.flags)
    let hit := c.ctl.hits (orFl o.flags)
    if hit ≠ 0 then (s.setCtx core k c, some (fpTrap hit (laneMask c.ctl o.flags + b * 2 ^ 32)))
    else
      let dst := base + b * w.dlen t
      let s := (s.tileWr core c.space dst o.bytes).cleanRow core c.space base (dst + o.bytes.length - base)
      (s.setCtx core k { c with ctl := { c.ctl with lfsr := o.lfsr } }, none)
/-- A ROW word: SHAPE and the type first, then the operands. Its first beat is performed at once when the row unit is free; the context is held until the
unit has performed the others, between which other contexts move (spec 06 R174 to R177; log entry 22). -/
def rowWord (h : Hdr) (s : State) (i : Instr) : Out :=
  lword h s fun s =>
    let c := s.cur
    match c.ctl.shapeTy, rowSpec i with
    | .error t, _ => .trap t s
    | .ok _, none => .ok s
    | .ok t, some w =>
      let os := w.opnds c t c.ctl.beats
      match s.rowCheck os with
      | .trap t => .trap t s
      | .fill p => s.fillPage p
      | .ok _ =>
        let s := os.foldl (fun s o => s.used .tile o.a o.len) s
        let hold (s : State) (b : Nat) : State :=
          (s.setCur { s.cur with hold := .row i b }).onCore s.fcore fun x => { x with rowQ := x.rowQ ++ [s.fctx] }
        if (s.core s.fcore).rowQ.isEmpty then
          match rowBeat s s.fcore s.fctx w t 0 with
          | (s, some t) => .trap t s
          | (s, none) => .wait ((hold s 1).due .rowWordComplete s.fcore)
        else .wait (hold s 0)
/-- ROW_WORD_COMPLETE: the row unit performs the next beat of its oldest word, or finishes the word and takes the next (spec 06 R176, R177). -/
def execRowWordComplete (s : State) : Out :=
  let core := s.occ.a
  match (s.core core).rowQ with
  | [] => .next s
  | k :: rest =>
    let c := s.ctx core k
    let free (s : State) : State :=
      let s := s.onCore core fun x => { x with rowQ := rest }
      if rest.isEmpty then s else s.due .rowWordComplete core
    match c.hold with
    | .row i b =>
      match c.ctl.shapeTy, rowSpec i with
      | .ok t, some w =>
        if c.ctl.beats ≤ b then .next ((free s).unblock core k c)
        else match rowBeat s core k w t b with
          | (s, none) => .next ((s.onCtx core k fun c => { c with hold := .row i (b + 1) }).due .rowWordComplete core)
          | (s, some t) => .next (((free s).onCtx core k fun c => { c with hold := .none }).takeTrapAt core k t false)
      | .error _, _ => .next ((free s).unblock core k c)
      | .ok _, none => .next ((free s).unblock core k c)
    | _ => .next (free s)

/-- rowcpy (spec 06 R174). -/
def execRowcpy (h : Hdr) (rd ra : BitVec 4) (ty : VTy) (s : State) : Out := rowWord h s (.rowcpy h rd ra ty)
/-- rowzero (spec 06 R174). -/
def execRowzero (h : Hdr) (rd : BitVec 4) (ty : VTy) (s : State) : Out := rowWord h s (.rowzero h rd ty)
/-- rowadd (spec 06 R174). -/
def execRowadd (h : Hdr) (rd ra rb : BitVec 4) (ty : VTy) (s : State) : Out := rowWord h s (.rowadd h rd ra rb ty)
/-- rowmul (spec 06 R174). -/
def execRowmul (h : Hdr) (rd ra rb : BitVec 4) (ty : VTy) (s : State) : Out := rowWord h s (.rowmul h rd ra rb ty)
/-- rowmax (spec 06 R174). -/
def execRowmax (h : Hdr) (rd ra rb : BitVec 4) (ty : VTy) (s : State) : Out := rowWord h s (.rowmax h rd ra rb ty)
/-- rowaxpy (spec 06 R174). -/
def execRowaxpy (h : Hdr) (rd ra rb : BitVec 4) (ty : VTy) (s : State) : Out := rowWord h s (.rowaxpy h rd ra rb ty)
/-- rowcvt (spec 06 R174). -/
def execRowcvt (h : Hdr) (rd ra : BitVec 4) (ty : VTy) (s : State) : Out := rowWord h s (.rowcvt h rd ra ty)

end Sys2Proof.Machine
end

