-- ==== Sys2Proof/Machine/EngineEvents.lean ====
section
/-! DEFINITION. Events of engines: token notices, acceptance of commands, copies part by part, walks line by line, dense jobs, and the completions
of dense sequencer words (spec 09 R242 to R262; 10 R270 to R296; 15 R397). -/

namespace Sys2Proof.Machine

/-! ### Token notices (spec 09 R244) -/

/-- Settle a saved token value: the word of a frame's extension that still names the operation (spec 09 R244). -/
def State.noticeSaved (s : State) (core k n : Nat) (tk : Nat) (st : TokSt) : State :=
  let a := extPa core k + 0x200 + 8 * (tk - 1)
  if s.rd a 8 = TokSt.pending.code + 8 * n then s.wr a 8 (st.code + 8 * n) else s
/-- TOKEN_NOTICE: the notice of an operation that has ended reaches the issuing core. -/
def execTokenNotice (s : State) : Out :=
  let n := s.occ.a
  match s.op n with
  | none => .next s
  | some o =>
    if o.ph ≠ .ended then .next s
    else
      let s := if o.engine = .prune then s else s.onCnt o.part o.scope o.core fun x => { x with ops := x.ops - 1 }
      let c := s.ctx o.core o.ctx
      if c.st = .free ∨ o.tk = 0 then .next s
      else if c.grp = [] then
        let s := s.setCtx o.core o.ctx { c with toks := applyNotices c.toks [(n, o.st)] }
        .next (if c.st = .saved ∨ c.st = .stopped then s.noticeSaved o.core o.ctx n o.tk o.st else s)
      else .next (s.setCtx o.core o.ctx { c with notices := c.notices ++ [(n, o.st)] })

/-! ### Acceptance (spec 09 R248, R249, R260) -/

/-- An operation of a pruned subtree ends CANCELLED with REASON PRUNED, counted once in the prune's acknowledgement by the unit that removes it
(spec 09 R260, R261). -/
def Tally.removed (t : Tally) (e : Engine) : Tally :=
  let t := { t with cancelled := t.cancelled + 1 }
  match e with
  | .copy | .copys => { t with copies := t.copies + 1 }
  | .dispatch | .combine | .walk | .djob | .prune => t
/-- An operation of a sweep ends CANCELLED at a unit. A command removed from a send buffer or a retry buffer counts as a cancelled operation, and not as a message
too (log entry 147, DESIGN CHOICE). -/
def State.cancelOwn (s : State) (n unit : Nat) : State :=
  match s.op n with
  | none => s
  | some o => (s.tallyFor o.part o.scope unit fun t => t.removed o.engine).endOp n .cancelled rsnPruned ⟨0, 0, 0⟩ 0 0 true
/-- Operations of a unit that hold an entry of its queue: a started one keeps its own until it ends (log entry 146, DESIGN CHOICE). -/
def State.queued (s : State) (unit : Nat) : Nat := (s.ops.filter fun x => x.2.unit == unit && (x.2.ph == .queued || x.2.ph == .started)).length
/-- The first offset of a list of checks that fails. -/
def badField : List (Nat × Bool) → Option Nat
  | [] => none
  | (o, bad) :: r => if bad then some o else badField r
/-- Reserved bits of block word i above bit lo, or of bits lo to hi. -/
def Op.upper (o : Op) (i lo : Nat) : Bool := o.word i / 2 ^ lo != 0
def Op.field (o : Op) (i lo n : Nat) : Nat := bits (o.word i) lo n
/-- A command reaches its engine: dropped as dead work, turned away from a full queue and tried again, 64 times at most, refused for a bad field,
ended for an input that has failed, or queued (spec 09 R245, R249, R260). -/
def State.acceptOp (s : State) (n unit cap : Nat) (bad : Op → Option Nat) (again : Instr) (enq : State → State) : State :=
  match s.op n with
  | none => s
  | some o =>
    if o.ph ≠ .sent then s
    else
      let s1 := s.setOp n { o with unit := unit, ph := .queued }
      if s.scopeDead o.part o.scope then s1.cancelOwn n unit
      else if cap ≤ s.queued unit then
        if 64 ≤ o.tries then (s.setOp n { o with unit := o.core }).endOp n .failed rsnQueue ⟨0, 0, 0⟩ 0 0 false
        else (s.setOp n { o with tries := o.tries + 1 }).later again n
      else match bad o with
      | some off => s1.endOp n .failed rsnBadcmd ⟨0, 0, BitVec.ofNat 64 off⟩ 0 0 false
      | none =>
        if o.inputFailed then s1.endOp n .cancelled rsnInput ⟨0, 0, 0⟩ 0 0 false
        else enq s1
/-- An accepted operation whose edges are satisfied can start. -/
def Op.ready (o : Op) : Bool := o.ph == .queued && o.edges.isEmpty

/-! ### Copies (spec 09 R251 to R253) -/

/-- Signed value of a stride. -/
def signed64 (v : Nat) : Int := (BitVec.ofNat 64 v).toInt
/-- Rows of a copy: source, destination and length; one row for copy. -/
def Op.copyLen (o : Op) : Nat := if o.engine = .copy then o.field 3 0 40 else o.field 3 0 24
def Op.copyRows (o : Op) : Nat := if o.engine = .copy then 1 else o.field 4 0 32
def Op.copySrc (o : Op) (i : Nat) : Int := (o.field 1 0 48 : Int) + i * (if o.engine = .copy then 0 else signed64 (o.word 5))
def Op.copyDst (o : Op) (i : Nat) : Int := (o.field 2 0 48 : Int) + i * (if o.engine = .copy then 0 else signed64 (o.word 6))
/-- Row i leaves the 48-bit space. -/
def rowLeaves (a : Int) (n : Nat) : Bool := decide (a < 0) || decide ((2 ^ 48 : Nat) < a + n)
/-- The first bad field of a copy or copys block (spec 09 R248, R251). -/
def Op.copyBad (o : Op) : Option Nat :=
  let rows := List.range o.copyRows
  let c := o.engine == .copy
  badField [(0, o.field 0 0 29 != 0), (8, rows.any fun i => rowLeaves (o.copySrc i) o.copyLen), (14, o.upper 1 48),
    (16, rows.any fun i => rowLeaves (o.copyDst i) o.copyLen), (22, o.upper 2 48),
    (24, !c && o.copyLen == 0), (if c then 29 else 27, o.upper 3 (if c then 40 else 24)),
    (32, c && o.field 4 0 32 != 0), (36, o.upper 4 32), (40, c && o.word 5 != 0), (48, c && o.word 6 != 0), (56, o.word 7 != 0)]
/-- Two runs of n bytes meet. -/
def runsMeet (a : Int) (n : Nat) (b : Int) (m : Nat) : Bool := decide (a < b + m) && decide (b < a + n) && n != 0 && m != 0
/-- Source and destination sets meet (spec 09 R251). -/
def Op.overlaps (o : Op) : Bool :=
  (List.range o.copyRows).any fun i => (List.range o.copyRows).any fun j => runsMeet (o.copySrc i) o.copyLen (o.copyDst j) o.copyLen
/-- Some source row meets a run. -/
def Op.readsRun (o : Op) (a n : Nat) : Bool := (List.range o.copyRows).any fun i => runsMeet (o.copySrc i) o.copyLen a n
/-- The window address of byte 0 of a core's tile memory (spec 12 R323). -/
def State.windowBase (s : State) (core : Nat) : Nat := 2 ^ 42 + (s.rankOf core).toNat * 2 ^ 18
/-- Seal entries that a copy's source meets: core, and base with its space (spec 07 R208). -/
def State.sealsMet (s : State) (o : Op) : List (Nat × Nat) :=
  s.cores.flatMap fun x =>
    (x.2.seals.filter fun e =>
      (if x.1 = o.core then e.space == o.space else some e.space == s.spaceFor x.1 o.part o.scope) &&
        (o.readsRun (s.windowBase x.1 + e.base) (2 ^ e.lsz) || (x.1 == o.core && o.readsRun e.base (2 ^ e.lsz)))).map
      fun e => (x.1, e.space * 2 ^ 18 + e.base)
/-- Change the counts of seal entries. -/
def State.countSeals (s : State) (l : List (Nat × Nat)) (f : Nat → Nat) : State :=
  l.foldl (fun s x => s.onCore x.1 fun c => { c with
    seals := c.seals.map fun e => if e.space * 2 ^ 18 + e.base = x.2 then { e with count := f e.count } else e }) s
/-- A copy ends: its seal counts fall, and entries that wait for them go (spec 07 R207, R208). -/
def State.endCopy (s : State) (n : Nat) (st : TokSt) (reason : Nat) (t : Trap) (progress extra : Nat) (own : Bool) : State :=
  match s.op n with
  | none => s
  | some o =>
    let s := s.countSeals o.sealed (· - 1)
    let s := (s.setOp n { o with sealed := [] }).endOp n st reason t progress extra own
    (o.sealed.map fun x => x.1).eraseDups.foldl State.sweepSeals s
/-- COPY_COMMAND_ACCEPT: the entry engine takes a copy command (spec 07 R208; 09 R252). -/
def execCopyCommandAccept (s : State) : Out :=
  let n := s.occ.a
  match s.op n with
  | none => .next s
  | some o =>
    .next (s.acceptOp n (768 + o.core / 8) 32 Op.copyBad .copyCommandAccept fun s =>
      let l := s.sealsMet o
      let full (x : Nat × Nat) : Bool := (s.core x.1).seals.any fun e => e.space * 2 ^ 18 + e.base == x.2 && decide (65535 ≤ e.count)
      if l.any full then s.endOp n .failed 0x08 ⟨0, 0, 0⟩ 0 0 false
      else
        let s := (s.countSeals l (· + 1)).setOp n { o with unit := 768 + o.core / 8, ph := .queued, sealed := l }
        if o.edges.isEmpty then s.due .copyStart n else s)
/-- The copy engine that holds the source of a part: its hedge (spec 09 R252). A source on another module is read by the entry engine (log entry
35). -/
def State.sourceHedge (s : State) (o : Op) (a : Nat) : State × Nat :=
  match s.engPlace o a 1 with
  | .ok (.tile core _ _) => (s, core / 8)
  | .ok (.remote _) => (s, o.core / 8)
  | .ok .global =>
    match s.xlate o.part a with
    | (s, .ok e) => (s, if e.mod = s.modid then homeOf (e.pa a) / 8 else o.core / 8)
    | (s, .error _) => (s, o.core / 8)
  | .error _ => (s, o.core / 8)
/-- Parts of one row: split at every 64 KiB boundary of the source. -/
def splitRow : Nat → Nat → Nat → Nat → List (Nat × Nat × Nat)
  | 0, _, _, _ => []
  | f + 1, a, b, n =>
    if n = 0 then []
    else
      let k := min n (65536 - a % 65536)
      (a, b, k) :: splitRow f (a + k) (b + k) (n - k)
/-- COPY_START: a copy whose edges are satisfied is split into parts (spec 09 R251, R252). -/
def execCopyStart (s : State) : Out :=
  let n := s.occ.a
  match s.op n with
  | none => .next s
  | some o =>
    if !o.ready then .next s
    else if o.inputFailed then .next (s.endCopy n .cancelled rsnInput ⟨0, 0, 0⟩ 0 0 false)
    else if o.copyLen = 0 ∨ o.copyRows = 0 then .next (s.endCopy n .done 0 ⟨0, 0, 0⟩ 0 0 false)
    else if o.overlaps then .next (s.endCopy n .failed rsnOverlap ⟨0, 0, 0⟩ 0 0 false)
    else
      let rows := (List.range o.copyRows).flatMap fun i => splitRow (o.copyLen / 65536 + 2) (o.copySrc i).toNat (o.copyDst i).toNat o.copyLen
      let (s, ps) := rows.foldl (fun (x : State × List CPart) r =>
        let (s, e) := x.1.sourceHedge o r.1
        (s, x.2 ++ [{ engine := e, src := r.1, dst := r.2.1, len := r.2.2 }])) (s, [])
      let s := s.setOp n { o with ph := .started, parts := ps }
      .next ((List.range ps.length).foldl (fun s i => s.due .copyPart n i) s)
/-- Change a part of a copy. -/
def State.onPart (s : State) (n i : Nat) (f : CPart → CPart) : State :=
  match s.op n with
  | none => s
  | some o => s.setOp n { o with parts := o.parts.zipIdx.map fun x => if x.2 = i then f x.1 else x.1 }
/-- Read whole source lines ahead until n bytes stand in the buffer. -/
def readAhead (s : State) (o : Op) (p : CPart) (n : Nat) : Nat → TRes CPart
  | 0 => .ok s p
  | f + 1 =>
    if n ≤ p.buf.length then .ok s p
    else
      let at_ := p.src + p.pos + p.buf.length
      let k := min (64 - at_ % 64) (p.len - p.pos - p.buf.length)
      match s.engRead o at_ k with
      | .busy q => .busy q
      | .fail s r t => .fail s r t
      | .ok s bs bad => readAhead s o { p with buf := p.buf ++ bs.map fun b => (b, bad) } n f
/-- The runs of bytes from an address on that are not covered. -/
def cutRuns (covered : Nat → Bool) : Nat → List Byte → List (Nat × List Byte)
  | _, [] => []
  | a, b :: r =>
    let t := cutRuns covered (a + 1) r
    if covered a then t
    else match t with
      | (a', bs) :: u => if a' = a + 1 then (a, b :: bs) :: u else (a, [b]) :: t
      | [] => [(a, [b])]
/-- The runs of a line of part i that no part of a later row has written: a later row stands over an earlier one, whichever part comes first
(spec 09 R251, R252). -/
def Op.standing (o : Op) (i va : Nat) (bs : List Byte) : List (Nat × List Byte) :=
  match (o.parts.drop (i + 1)).filter fun q => decide (q.dst < va + bs.length) && decide (va < q.dst + q.pos) with
  | [] => [(va, bs)]
  | later => cutRuns (fun a => later.any fun q => decide (q.dst ≤ a) && decide (a < q.dst + q.pos)) va bs
/-- Write the runs of one line. -/
def State.engWrites (s : State) (o : Op) (unit : Nat) (bad : Bool) (tag : Nat) : List (Nat × List Byte) → ERes
  | [] => .ok s [] false
  | (a, bs) :: r => match s.engWrite o unit .copy a bs bad tag with
    | .ok s _ _ => s.engWrites o unit bad tag r
    | x => x
/-- Another part of the copy has sent a write of bytes of a line and has no answer yet: the line waits, so that a later row stands over an earlier one
there too (spec 09 R251; 11 R309). -/
def State.lineTaken (s : State) (n i va k : Nat) : Bool :=
  s.reqs.any fun x => x.2.eng == some n && x.2.kind == .store && x.2.tag != i && decide (x.2.va < va + k ∧ va < x.2.va + x.2.len)
/-- The ports between a part's engine and the hedge of a destination line grant its bytes (spec 15 R400). -/
def State.copyOpen (s : State) (o : Op) (p : CPart) (va : Nat) : Bool :=
  match s.hedgeAt o va with
  | some h => s.usesOpenAs o.part (s.opProfile o) o.cls (moveUses (some p.engine) (some h) 0)
  | none => true
/-- Continuations that a copy engine holds (spec 16 R422). -/
def State.continuations (s : State) (engine : Nat) : Nat :=
  (s.ops.flatMap fun x => x.2.parts.filter fun p => p.engine == engine && p.continuation && !p.done).length
/-- A core that a line of tile memory is pushed to is switched out and refuses it (spec 16 R422). -/
def State.pushRefused (s : State) (o : Op) (va : Nat) : Bool :=
  match s.engPlace o va 1 with
  | .ok (.tile core _ _) => (match (s.core core).run with | .switchingOut | .out | .switchingIn => true | .inn | .resetting | .gated | .ungating => false)
  | _ => false
/-- One destination line of a part: read, written, held for capacity, or stopped (spec 09 R252, R253, R260; 15 R400; 16 R422). -/
def State.copyLine (s : State) (n i : Nat) (o : Op) (p : CPart) : State :=
  let stop := match p.stopAt with | some x => decide (x ≤ p.dst + p.pos) | none => false
  if stop || p.len ≤ p.pos then s.due .copyPartDone n i
  else
    let va := p.dst + p.pos
    let k := min (64 - va % 64) (p.len - p.pos)
    let fail (s : State) (r : Nat) (t : Trap) : State := (s.onPart n i fun p => { p with failed := some (r, t) }).due .copyPartDone n i
    if s.copyOpen o p va = false ∨ s.lineTaken n i va k = true then s.later (if p.continuation then .continuationProbe else .copyPart) n i
    else match readAhead s o p k 3 with
    | .busy q => (s.askEng q).later .copyPart n i
    | .fail s r t => fail s r t
    | .ok s p' =>
      let bad := (p'.buf.take k).any fun x => x.2
      match s.engWrites o (768 + p.engine) bad i (o.standing i va ((p'.buf.take k).map fun x => x.1)) with
      | .busy q =>
        let s := s.askEng q
        -- refused: the remainder waits as a continuation for a probe; a part that would need a ninth waits as it is
        if s.pushRefused o va && (p.continuation || decide (s.continuations p.engine < 8)) then (s.onPart n i fun _ => { p' with continuation := true }).later .continuationProbe n i
        else (s.onPart n i fun _ => { p' with continuation := false }).later .copyPart n i
      | .fail s r t => fail s r t
      | .ok s _ _ =>
        (s.onPart n i fun _ => { p' with buf := p'.buf.drop k, pos := p.pos + k, poisoned := p.poisoned + bad.toNat, continuation := false }).due .copyPart n i
/-- COPY_PART: an engine moves a line of a part (spec 09 R252). -/
def execCopyPart (s : State) : Out :=
  let n := s.occ.a
  let i := s.occ.b
  match s.op n with
  | none => .next s
  | some o => match o.parts[i]? with
    | none => .next s
    | some p => .next (if o.ph = .started && !p.done && p.failed.isNone && !p.continuation then s.copyLine n i o p else s)
/-- CONTINUATION_PROBE: a part refused by a switched-out core tries again from the line at which it was refused (spec 16 R422). -/
def execContinuationProbe (s : State) : Out :=
  let n := s.occ.a
  let i := s.occ.b
  match s.op n with
  | none => .next s
  | some o => match o.parts[i]? with
    | none => .next s
    | some p => .next (if o.ph = .started && !p.done && p.failed.isNone && p.continuation then s.copyLine n i o p else s)
/-- The failed part with the lowest source address. -/
def firstFailed : List CPart → Option (Nat × Nat × Trap)
  | [] => none
  | p :: r => match p.failed, firstFailed r with
    | none, x => x
    | some (re, t), none => some (p.src, re, t)
    | some (re, t), some x => if p.src ≤ x.1 then some (p.src, re, t) else some x
/-- The next multiple of 4096 at or above an address. -/
def next4k (a : Nat) : Nat := (a + 4095) / 4096 * 4096
/-- A part stops as a pruned part does (spec 09 R260). -/
def CPart.stop (p : CPart) : CPart := if p.stopAt.isSome then p else { p with stopAt := some (if p.continuation then 0 else next4k (p.dst + p.pos)) }
/-- COPY_PART_DONE: a part has ended, and the last one ends the copy (spec 09 R252, R253, R261). -/
def execCopyPartDone (s : State) : Out :=
  let n := s.occ.a
  let i := s.occ.b
  match s.op n with
  | none => .next s
  | some o => match o.parts[i]? with
    | none => .next s
    | some p =>
      if o.ph ≠ .started ∨ p.done = true then .next s
      else
        let s := s.flushMarks o.rank o.ctx p.dst (p.dst + p.pos)
        let s := s.onPart n i fun p => { p with done := true, continuation := false }
        let s := if p.failed.isSome then
            match s.op n with
            | some o' =>
              let s := s.setOp n { o' with parts := o'.parts.map fun q => if q.done then q else q.stop }
              (o'.parts.zipIdx.filter fun q => q.1.continuation && !q.1.done).foldl (fun s q => (s.onPart n q.2 fun p => { p with continuation := false }).due .copyPart n q.2) s
            | none => s
          else s
        match s.op n with
        | none => .next s
        | some o =>
          let s := if o.parts.all fun q => q.done then
              let pos := (o.parts.map fun q => q.pos).foldl (· + ·) 0
              let poi := (o.parts.map fun q => q.poisoned).foldl (· + ·) 0
              if o.killed then s.endCopy n .cancelled rsnPruned ⟨0, 0, 0⟩ pos poi true
              else match firstFailed o.parts with
                | some (_, r, t) => s.endCopy n .failed r t pos poi false
                | none => s.endCopy n .done 0 ⟨0, 0, 0⟩ pos poi false
            else s
          .next (s.ackAll (768 + p.engine))

/-! ### Walks (spec 09 R254, R255) -/

/-- The slots of a walk do not fit their buffer, for rows of a length. -/
def Op.slotsOver (o : Op) (len : Nat) : Bool := decide (0x3F000 < o.dbuf + o.nslot * len)
/-- The first bad field of a walk block, for rows of a length. -/
def Op.walkBad (o : Op) (len : Nat) : Option Nat :=
  let k := o.field 7 0 32
  badField [(0, o.field 0 0 29 != 0), (8, o.field 1 0 6 != 0), (14, o.upper 1 48), (20, o.upper 2 33), (30, o.upper 3 48),
    (32, o.field 4 0 5 != 0), (38, o.upper 4 48), (40, o.nslot == 0 || o.slotsOver len), (42, o.field 5 16 16 != 0), (46, o.upper 5 52),
    (48, o.field 6 0 2 != 0 || decide (0x3F000 < o.map + 4 * o.nidx)), (54, o.upper 6 48),
    (56, decide (k < 0x400) || decide (0xFFFFFF00 ≤ k) || k % 4 != 0), (60, o.upper 7 32)]
/-- The row length that a walk's ETD gives, where it can be read now; else 0 (spec 09 R254; log entry 126). -/
def State.walkRow (s : State) (o : Op) : Nat :=
  if o.walkEtd % 64 ≠ 0 then 0
  else match s.engBytes o o.walkEtd 64 with
  | .ok _ bs _ => let d : Etd := leNat bs; if d.rejected false then 0 else d.len
  | .fail .. => 0
  | .busy _ => 0
/-- WALK_COMMAND_ACCEPT (spec 09 R249). -/
def execWalkCommandAccept (s : State) : Out :=
  let n := s.occ.a
  match s.op n with
  | none => .next s
  | some o =>
    let len := if o.edges.isEmpty then s.walkRow o else 0
    .next (s.acceptOp n o.core 8 (fun o => o.walkBad len) .walkCommandAccept fun s =>
      let s := s.onCore o.core fun c => { c with iw := { c.iw with queue := c.iw.queue ++ [n] } }
      if o.edges.isEmpty then s.due .walkStart n else s)
/-- A walk has ended: the next ready one may start. -/
def State.endWalk (s : State) (core n : Nat) (st : TokSt) (reason : Nat) (t : Trap) (own : Bool) : State :=
  let w := (s.core core).iw
  let s := s.onCore core fun c => { c with iw := { c.iw with run := none, inLine := false, pending := [], failed := none, queue := c.iw.queue.filter (· != n) } }
  let s := s.onCtx core 16 fun c => { c.leaveGroup with st := .free, hold := .none }
  let s := s.endOp n st reason t w.progress (w.hits * 2 ^ 32 + w.emitted) own
  let s := s.ackAll core
  match (s.core core).iw.queue.find? fun m => match s.op m with | some o => o.ready | none => true with
  | some m => s.due .walkStart m
  | none => s
/-- WALK_START: the earliest accepted ready walk starts when no walk runs (spec 09 R254). Its ETD is checked for its alignment too (log entry 118, DESIGN
CHOICE). -/
def execWalkStart (s : State) : Out :=
  match s.op s.occ.a with
  | none => .next s
  | some o0 =>
    let core := o0.core
    let w := (s.core core).iw
    if o0.ready && o0.inputFailed then
      -- it never starts, whatever walk runs (spec 09 R245)
      .next ((s.onCore core fun c => { c with iw := { w with queue := w.queue.filter (· != s.occ.a) } }).endOp s.occ.a .cancelled rsnInput ⟨0, 0, 0⟩ 0 0 false)
    else if w.run.isSome then .next s
    else match w.queue.find? fun m => match s.op m with | some o => o.ready && !o.inputFailed | none => false with
    | none => .next s
    | some n => match s.op n with
      | none => .next s
      | some o =>
        let etd := o.walkEtd
        let begun (s : State) : State := (s.onCore core fun c => { c with iw := { ({} : Walker) with queue := w.queue, run := some n } }).setOp n { o with ph := .started }
        if o.nidx = 0 then
          .next (if o.slotsOver (s.walkRow o) then (begun s).endWalk core n .failed rsnBadcmd ⟨0, 0, 40⟩ false else (begun s).endWalk core n .done 0 ⟨0, 0, 0⟩ false)
        else if etd % 64 ≠ 0 then .next ((begun s).endWalk core n .failed rsnFault ⟨0x04, 0, BitVec.ofNat 64 etd⟩ false)
        else if s.reachOpen o etd 1 = false then .next (s.later .walkStart n)
        else match s.engBytes o etd 64 with
        | .busy q => .next ((s.askEng q).later .walkStart n)
        | .fail s r t => .next ((begun s).endWalk core n .failed r t false)
        | .ok s bs _ =>
          let d : Etd := leNat bs
          let s := begun s
          if d.rejected false then .next (s.endWalk core n .failed rsnFault (regionTrap 0x04 etd) false)
          else if o.slotsOver d.len then .next (s.endWalk core n .failed rsnBadcmd ⟨0, 0, 40⟩ false)
          else .next ((s.onCore core fun c => { c with iw := { c.iw with desc := d } }).due .iwLineRun core)
/-- The kernel's context at the start of a run of a line (spec 09 R255). -/
def kernelCtx (o : Op) (idx n : Nat) : Ctx :=
  let a (i : Nat) : GReg := ⟨BitVec.ofNat 64 (o.word (8 + i)), false⟩
  { st := .ready, pc := BitVec.ofNat 32 (o.word 7), npc := BitVec.ofNat 32 (o.word 7), space := o.space
    g := #v[⟨0x41000, false⟩, ⟨BitVec.ofNat 64 idx, false⟩, ⟨BitVec.ofNat 64 n, false⟩, a 0, a 1, a 2, a 3, {}, {}, {}, {}, {}, {}, {}, {}, {}]
    ctl := { base := o.scope, cur := o.scope, linkwait := o.linkwait } }
/-- IW_LINE_RUN: the walk goes on to its next line, or to its end (spec 09 R255, R256, R260). -/
def execIwLineRun (s : State) : Out :=
  let core := s.occ.a
  let w := (s.core core).iw
  match w.run with
  | none => .next s
  | some n => match s.op n with
    | none => .next s
    | some o =>
      if w.inLine then .next s
      else if o.killed then .next (s.endWalk core n .cancelled rsnPruned ⟨0, 0, 0⟩ true)
      else match w.failed with
      | some (r, t) => .next (if w.pending.isEmpty then s.endWalk core n .failed r t false else s)
      | none =>
        if o.nidx ≤ w.idx then .next (if w.pending.isEmpty then s.endWalk core n .done 0 ⟨0, 0, 0⟩ false else s)
        else
          let width := o.idWidth / 8
          let k := min (64 / width) (o.nidx - w.idx)
          if s.reachOpen o (o.field 1 0 48 + w.idx * width) 1 = false then .next (s.later .iwLineRun core)
          else match s.engBytes o (o.field 1 0 48 + w.idx * width) (k * width) with
          | .busy q => .next ((s.askEng q).later .iwLineRun core)
          | .fail s r t => .next ((s.onCore core fun c => { c with iw := { c.iw with failed := some (r, t) } }).due .iwLineRun core)
          | .ok s bs _ =>
            let s := s.onCore core fun c => { c with iw := { c.iw with line := bs, lineN := k, inLine := true } }
            .next (s.setCtx core 16 (kernelCtx o w.idx k))

/-! ### Dense jobs (spec 09 R258; 10 R274, R275; 15 R397) -/

/-- The first bad field of a djob block. -/
def Op.djobBad (o : Op) : Option Nat :=
  badField [(0, o.field 0 0 29 != 0), (8, o.upper 1 1), (22, o.upper 2 48), (24, o.upper 3 3)]
/-- The complex a job names. -/
def Op.djobDie (o : Op) : Nat := o.field 1 0 1
/-- DJOB_ACCEPT (spec 09 R249). -/
def execDjobAccept (s : State) : Out :=
  let n := s.occ.a
  match s.op n with
  | none => .next s
  | some o =>
    let die := o.djobDie
    .next (s.acceptOp n (872 + die) 64 Op.djobBad .djobAccept fun s =>
      (s.onDs die fun d => { d with queue := d.queue ++ [(n, 0)] }).due .jobGrant die)
/-- JPRIO of an entry, and its partition's place behind the last granted one. -/
def jobRank (last : Nat) (o : Op) : Nat := o.field 3 0 3 * 16 + (15 - (o.part + 8 - last - 1) % 8)
/-- The entry the queue grants: the oldest with PASS of 64 or more, else the best by priority and partition, the oldest within one, of those whose
partition is within its dense budget, or of all where none is (spec 15 R397). -/
def bestJob (last : Nat) : List (Nat × Nat × Op) → Option (Nat × Nat × Op)
  | [] => none
  | e :: r => match bestJob last r with
    | none => some e
    | some x => if jobRank last e.2.2 < jobRank last x.2.2 then some x else some e
def pickJob (last : Nat) (within : Op → Bool) (l : List (Nat × Nat × Op)) : Option (Nat × Nat × Op) :=
  match l.find? fun e => decide (64 ≤ e.2.1) with
  | some e => some e
  | none => bestJob last (if l.any fun e => within e.2.2 then l.filter fun e => within e.2.2 else l)
/-- A job's partition is within its dense budget: class 5 of the job slots of a complex (spec 15 R397, R398). -/
def State.denseWithin (s : State) (die : Nat) (o : Op) : Bool := s.withinQuota o.part (s.opProfile o) o.cls 4 die
/-- Clear what a job of another partition left: the job data of the dense buffer, the banks and both planes (spec 10 R275). -/
def State.scrubDs (s : State) (die : Nat) : State :=
  { s with mem := memZero (memZero s.mem (dbPa die 0) 0x15E0000) (planePa die 0 0 0) 0x40000 }
/-- JOB_GRANT: a DS that holds at jget takes the entry that the queue grants (spec 10 R274, R275). -/
def execJobGrant (s : State) : Out :=
  let die := s.occ.a
  let d := s.ds die
  let es := d.queue.filterMap fun e => (s.op e.1).map fun o => (e.1, e.2, o)
  let ready := es.filter fun e => e.2.2.ready
  match ready.find? fun e => e.2.2.inputFailed with
  | some e =>
    let s := s.onDs die fun d => { d with queue := d.queue.filter fun x => x.1 != e.1 }
    .next ((s.endOp e.1 .cancelled rsnInput ⟨0, 0, 0⟩ 0 0 false).due .jobGrant die)
  | none =>
    match d.jgetWait, pickJob d.lastGrant (s.denseWithin die) ready with
    | some dd, some (n, _, o) =>
      -- the other slots of jget's bundle, and what stands before it, perform first (spec 10 R275)
      if !(d.outst.isEmpty && d.pend.isEmpty) then .next (s.later .jobGrant die)
      else
      let s := s.onDs die fun d => { d with
        lastGrant := o.part
        queue := (d.queue.filter fun x => x.1 != n).map fun x => if ready.any fun e => e.1 == x.1 then (x.1, x.2 + 1) else x }
      let s := s.setOp n { o with ph := .started }
      let desc := o.field 2 0 48
      let fail (s : State) (r : Nat) (t : Trap) : Out := .next ((s.endOp n .failed r t 0 0 false).due .jobGrant die)
      match s.engBytes o desc 8 with
      | .busy q => .next ((((s.setDs die d).setOp n o).askEng q).later .jobGrant die)
      | .fail s r t => fail s r t
      | .ok s bs _ =>
        let h := leNat bs
        let entry := h % 2 ^ 32
        if h / 2 ^ 32 ≠ 0 ∨ entry % 16 ≠ 0 ∨ entry < 0x400 ∨ 0xFFFFFF00 ≤ entry ∨ (s.part o.part).codeLen < entry + 16 then
          let (v, s) := s.drawFree
          fail s rsnBadcmd ⟨0, 0, v⟩
        else
          let s := if d.lastPart = some o.part then s else (s.scrubDs die).onDs die fun d => { d with planeTy0 := .bf16, planeTy1 := .bf16 }
          let e : BitVec 32 := BitVec.ofNat 32 entry
          let dn : Ds := { (s.ds die) with
            job := some n, killed := false, flags := 0, jprio := BitVec.ofNat 3 (o.field 3 0 3), desc := BitVec.ofNat 48 desc, lastPart := some o.part
            bankUse := 0, jgetWait := none, tfault := none, xfault := none, tHandling := false, pend := []
            d := Vector.replicate 32 0, a := Vector.replicate 16 {}, dpc := e, npc := e }
          .next ((s.setDs die (dn.write (.d dd) dn.jobWord)))
    | _, _ => .next s

/-! ### Completions of a dense sequencer (spec 10 R270 to R283, R294) -/

/-- DS_RESULT_WRITE: a result reaches its register or generator field (spec 10 R270). -/
def execDsResultWrite (s : State) : Out := .next (s.onDs s.occ.a fun d => d.landAt s.occ.b)
/-- DS_WORD_COMPLETE: a word has its effect and frees its path and sets (spec 10 R271, R272). -/
def execDsWordComplete (s : State) : Out := .next (s.dComplete s.occ.a s.occ.b)
/-- One row piece of a transfer within one memory line: from memory to the dense buffer, or back. A killed job reads zeros and its writes are
discarded (spec 10 R282, R283, R295). -/
def State.xferPiece (s : State) (die : Nat) (w : DWord) (o : Op) (row off k : Nat) : ERes :=
  let va := w.b.mrow row + off
  let at_ := dbPa die (w.a.row row + off)
  let killed := (s.ds die).killed
  let o : Op := { o with system := false }
  match w.op with
  | .xin _ _ =>
    if killed then .ok (s.wrB at_ (List.replicate k 0)) [] false
    else match s.engRead o va k with
      | .ok s bs bad => if bad then eFault s (poisonTrap va) else .ok (s.wrB at_ bs) [] false
      | r => r
  | _ =>
    if killed then .ok s [] false
    else s.engWrite o (872 + die) .dense va (memRead s.mem at_ k) false
/-- The rows' bytes that stand next to each other in one memory line move in one act: from the bytes moved on, at most two halves of it (spec 10 R282). -/
def State.xferLine (s : State) (die : Nat) (w : DWord) (o : Op) (line : Nat) : Nat → Nat → ERes × Nat
  | 0, done => (.ok s [] false, done)
  | f + 1, done =>
    let len := w.a.count.toNat
    let row := done / len
    let off := done % len
    let va := w.b.mrow row + off
    if w.b.count.toNat ≤ row ∨ va / 64 ≠ line then (.ok s [] false, done)
    else
      let k := min (64 - va % 64) (len - off)
      match s.xferPiece die w o row off k with
      | .ok s _ _ => s.xferLine die w o line f (done + k)
      | r => (r, done)
/-- DS_TRANSFER_DONE: an outstanding transfer moves its next line; the last one completes it (spec 10 R282, R283). A line to the tile of a core in reset, or
gated, faults with CODE 0, SUB 0 and DTVAL 0: the spec names no cause for it (log entry 148, DESIGN CHOICE). -/
def execDsTransferDone (s : State) : Out :=
  let die := s.occ.a
  let d := s.ds die
  match d.outst.find? fun w => w.no == s.occ.b, d.job.bind s.op with
  | some w, some o =>
    let len := w.a.count.toNat
    let row := w.done / len
    let off := w.done % len
    if w.b.count.toNat ≤ row then
      let s := match w.op with
        | .xout _ _ => (List.range w.b.count.toNat).foldl (fun (s : State) r => s.flushMarks o.rank 15 (w.b.mrow r) (w.b.mrow r + len)) s
        | _ => s
      .next (s.dRemove die w.no)
    else
      let va := w.b.mrow row + off
      if d.killed = false ∧ s.reachOpen o va (match w.op with | .xin _ _ => 1 | _ => 0) = false then .next (s.later .dsTransferDone die w.no)
      else match s.xferLine die w o (va / 64) 2 w.done with
      | (.busy q, _) => .next ((s.askEng q).later .dsTransferDone die w.no)
      | (.fail s' r t, _) =>
        -- no byte of the faulting line is written
        let s := { s with reqs := s'.reqs, nextNo := s'.nextNo }
        let t : Trap := if r = rsnLink then ⟨0x50, 0x0B, BitVec.ofNat 64 va⟩ else t
        .next (((s.dRemove die w.no).onDs die fun d => { d with xfault := if d.xfault.isNone then some t else d.xfault }).due .dsTransferFault die)
      | (.ok s _ _, done) =>
        .next ((s.onDs die fun d => { d with outst := d.outst.map fun x => if x.no = w.no then { x with done := done } else x }).due .dsTransferDone die w.no)
  | some w, none => .next (s.dRemove die w.no)
  | none, _ => .next s
/-- DS_TRANSFER_FAULT: the fault of a transfer that has stopped is taken at the next bundle boundary, one at a time (spec 10 R283). -/
def execDsTransferFault (s : State) : Out :=
  let die := s.occ.a
  let d := s.ds die
  match d.xfault with
  | none => .next s
  | some t => .next (s.setDs die { d with xfault := none, tfault := if d.tfault.isSome || d.tHandling then d.tfault else some t })
/-- DS_RESET: the SMC resets a complex that is halted, or that it has not started yet, loads the microcode and starts it: bytes = the measured
image, where the machine does not hold it yet (spec 10 R273, R294; 18 R480; log entry 56). -/
def execDsReset (s : State) : Out :=
  let die := s.occ.a
  let d := s.ds die
  if d.up && !d.halted then .next s
  else
    let s := { s with mem := memZero s.mem (planePa die 0 0 0) 0x40000 }
    let s := if d.up then s else s.wrB (ucPa die 0) (s.occ.bytes.take 0x4000)
    .next (s.setDs die { ({} : Ds) with up := true, queue := d.queue, lastPart := d.lastPart, lastGrant := d.lastGrant })

end Sys2Proof.Machine
end

