-- ==== Sys2Proof/Machine/Tde.lean ====
section
/-! DEFINITION. The token dispatch engine: configuration images, COUNT, EXCHANGE, PLACE, records and COMBINE (spec 09 R257; 14 R358 to R378, R491). -/

namespace Sys2Proof.Machine

/-! ### Contexts and images (spec 14 R358 to R361) -/

def State.tde (s : State) (u : Nat) : Tde := (tget s.tdes u).getD {}
def State.setTde (s : State) (u : Nat) (t : Tde) : State := { s with tdes := tset s.tdes u t }
/-- A dispatch context of the TDE of local rank u. -/
def State.dc (s : State) (u c : Nat) : TdeCtx := (tget (s.tde u).ctxs c).getD {}
def State.setDc (s : State) (u c : Nat) (x : TdeCtx) : State :=
  let t := s.tde u
  s.setTde u { t with ctxs := tset t.ctxs c x }
/-- Fields of an image. -/
def TdeCtx.fld (x : TdeCtx) (lo n : Nat) : Nat := bits x.image lo n
def TdeCtx.ptab (x : TdeCtx) : Nat := x.fld 0 48
def TdeCtx.srcl (x : TdeCtx) : Nat := x.fld 64 48
def TdeCtx.nsrc (x : TdeCtx) : Nat := x.fld 112 12 + 1
def TdeCtx.iperm (x : TdeCtx) : Nat := x.fld 128 48
def TdeCtx.dlog (x : TdeCtx) : Nat := x.fld 192 48
def TdeCtx.dlogMax (x : TdeCtx) : Nat := x.fld 256 32
def TdeCtx.cap (x : TdeCtx) : Nat := x.fld 288 32
def TdeCtx.nexp (x : TdeCtx) : Nat := x.fld 320 12 + 1
def TdeCtx.k (x : TdeCtx) : Nat := x.fld 332 3
def TdeCtx.kr (x : TdeCtx) : Nat := x.fld 336 3
def TdeCtx.policy (x : TdeCtx) : Nat := x.fld 340 2
def TdeCtx.glog (x : TdeCtx) : Nat := x.fld 344 4
def TdeCtx.etype (x : TdeCtx) : Nat := x.fld 348 4
def TdeCtx.group (x : TdeCtx) : Nat := x.fld 352 8
def TdeCtx.sptab (x : TdeCtx) : Nat := x.fld 384 48
def TdeCtx.fill (x : TdeCtx) : Nat := x.fld 448 48
/-- The byte offset of the first bad field of an image (spec 14 R360). -/
def TdeCtx.badImage (x : TdeCtx) : Option Nat :=
  let addr (a al : Nat) : Bool := a == 0 || a % al != 0
  let opt (a al : Nat) : Bool := a % al != 0
  badField [(0, addr x.ptab 32), (6, x.fld 48 16 != 0), (8, opt x.srcl 4), (15, x.fld 124 4 != 0), (16, addr x.iperm 8), (22, x.fld 176 16 != 0),
    (24, addr x.dlog 64), (30, x.fld 240 16 != 0), (41, x.k == 0 || decide (4 < x.k)), (41, x.fld 335 1 != 0),
    (42, x.kr == 0 || decide (x.k < x.kr)), (42, x.fld 339 1 != 0), (42, x.policy == 3), (42, x.fld 342 2 != 0), (43, decide (12 < x.glog)),
    (43, x.etype != 9 && x.etype != 10 && x.etype != 11), (45, x.fld 360 24 != 0),
    (48, if x.policy = 1 then addr x.sptab 32 else opt x.sptab 32), (54, x.fld 432 16 != 0), (56, opt x.fill 4), (62, x.fld 496 16 != 0)]
/-- CHECK of an image: CRC-32 of word 5, CAP and NSRCM1 (spec 14 R365). -/
def TdeCtx.check (x : TdeCtx) : BitVec 32 := crc32 (leBytes 8 (x.fld 320 64) ++ leBytes 4 x.cap ++ leBytes 4 (x.nsrc - 1))

/-- Fields of a command block (spec 09 R257). -/
def Op.tdeUnit (o : Op) : Nat := 864 + o.field 1 0 3
def Op.tdeCtx (o : Op) : Nat := o.field 1 8 4
def Op.ntok (o : Op) : Nat := o.field 4 0 32
def Op.beats (o : Op) : Nat := o.field 4 32 5
def Op.rowBytes (o : Op) : Nat := 32 * o.beats
def Op.round (o : Op) : BitVec 32 := BitVec.ofNat 32 (o.word 6)
/-- The first bad field of a dispatch or combine block. -/
def Op.tdeBad (o : Op) : Option Nat :=
  let d := o.engine == .dispatch
  let load := (o.word 1).testBit 16
  let resid := (o.word 1).testBit 17
  badField [(0, o.field 0 0 29 != 0), (8, o.field 1 3 5 != 0), (9, o.field 1 12 4 != 0), (10, (if d then resid else load) || o.upper 1 18),
    (16, d && (if load then o.field 2 0 6 != 0 else o.field 2 0 48 != 0)), (22, o.upper 2 48), (30, o.upper 3 48),
    (36, o.beats == 0 || decide (16 < o.beats) || o.upper 4 37), (40, !d && !resid && o.field 5 0 48 != 0), (46, o.upper 5 48), (52, o.upper 6 32), (56, o.word 7 != 0)]

/-! ### Ends of operations -/

/-- The command of a context that may start: the earliest accepted that is ready (spec 14 R358). -/
def State.tdeFirst (s : State) (u c : Nat) : Option Nat :=
  (s.tde u).queue.find? fun n => match s.op n with | some o => o.ready && o.tdeCtx == c | none => false
/-- Commands that may start: the earliest accepted ready one of each idle context. -/
def State.tdeNext (s : State) (u : Nat) : State :=
  let ready := (s.tde u).queue.filterMap fun n => (s.op n).bind fun o => if o.ready then some (n, o.engine) else none
  ready.foldl (fun s x => s.due (if x.2 = .dispatch then .dispatchStart else .combineStart) x.1) s
/-- An operation of a TDE has ended: its context is idle, its queue entry free. -/
def State.tdeFree (s : State) (u c n : Nat) : State :=
  let t := s.tde u
  let s := s.setTde u { t with queue := t.queue.filter (· != n) }
  let x := s.dc u c
  ((if x.run = some n then s.setDc u c { x with run := none, phase := 0, pass := 0, pairs := [], srcs := [], stage := 0, tab := [], stab := [], rows := [], puts := [],
                                                 after := [], fin := none } else s).tdeNext u).ackAll u
/-- A run of bytes, cut at the lines. -/
def linePuts : Nat → Nat → List Byte → List TPut
  | 0, _, _ => []
  | f + 1, a, bs =>
    if bs.isEmpty then []
    else
      let k := min bs.length (64 - a % 64)
      { a := a, bs := bs.take k } :: linePuts f (a + k) (bs.drop k)
def putRun (a : Nat) (bs : List Byte) : List TPut := linePuts (bs.length / 64 + 2) a bs
/-- Write pieces in order: what is left when a page cannot take one now, or the failure that one meets. An operation that ends passes over what fails. -/
def tdePuts (o : Op) (ending : Bool) : List TPut → State → State × List TPut × Option (Nat × Trap)
  | [], s => (s, [], none)
  | p :: r, s =>
    match s.engWrite o o.tdeUnit .tde p.a p.bs p.bad with
    | .ok s _ _ => tdePuts o ending r s
    | .fail s1 re t => if ending then tdePuts o ending r s1 else (s1, p :: r, some (re, t))
    | .busy q => (s.askEng q, p :: r, none)
/-- Write what a context has still to write. -/
def State.tdeFlush (s : State) (o : Op) (ending : Bool) : State × Option (Nat × Trap) :=
  let (s, left, err) := tdePuts o ending (s.dc o.tdeUnit o.tdeCtx).puts s
  (s.setDc o.tdeUnit o.tdeCtx { s.dc o.tdeUnit o.tdeCtx with puts := left }, err)
/-- Header words 2 and 3 (spec 14 R370). -/
def TdeCtx.w2 (x : TdeCtx) : Nat := min x.placed 0xFFFFFFFF + min x.spilled 0xFFFFFFFF * 2 ^ 32
def TdeCtx.w3 (x : TdeCtx) : Nat := min x.rerouted 0xFFFFFFFF + min x.dropped 0xFFFFFFFF * 2 ^ 32
/-- The drop log header. -/
def TdeCtx.header (x : TdeCtx) (round : BitVec 32) (st : Nat) : List Byte :=
  leBytes 8 (round.toNat + st * 2 ^ 32) ++ leBytes 8 (min (x.dcount - x.dlogMax) 0xFFFFFFFF + min x.dcount x.dlogMax * 2 ^ 32) ++ leBytes 8 x.w2 ++ leBytes 8 x.w3 ++
    leBytes 8 (min x.skipped 0xFFFFFFFF) ++ List.replicate 24 0
/-- A drop record: written while the log has room; DCOUNT counts those that are not (log entry 53). The bytes still to write are collected with their addresses. -/
def TdeCtx.record (x : TdeCtx) (pass reason c expert tok : Nat) : TdeCtx × List TPut :=
  let v := pass * 2 ^ 56 + reason * 2 ^ 48 + c * 2 ^ 44 + expert % 4096 * 2 ^ 32 + tok % 2 ^ 32
  ({ x with dcount := x.dcount + 1 }, if x.dcount < x.dlogMax then [{ a := x.dlog + 64 + 8 * x.dcount, bs := leBytes 8 v }] else [])
/-- A pair is dropped: its record waits for the end of the pass. -/
def TdeCtx.drop (x : TdeCtx) (i reason expert : Nat) : TdeCtx := { x with dropped := x.dropped + 1, drops := x.drops ++ [(i, reason, expert)] }
/-- The records of a pass, in the order of token and choice, are to be written (spec 14 R370). -/
def TdeCtx.flushDrops (x : TdeCtx) : TdeCtx :=
  (List.range x.pairs.length).foldl (fun y i => match x.drops.find? fun d => d.1 == i with
    | none => y
    | some (_, reason, e) =>
      let (y, r) := y.record x.pass reason (i % x.k) e (i / x.k)
      { y with puts := y.puts ++ r }) { x with drops := [] }
/-- The message of an exchange to a peer (spec 14 R365; its built-in address is log entry 29's). -/
def State.exchange (s : State) (u : Nat) (o : Op) (peer : BitVec 24 × Nat) (a0 a1 : Nat) (check : BitVec 32) (counts : List Nat) : State :=
  s.sendNow u { builtinMsg peer.1 0x380 0 o.part o.scope (arg4 (BitVec.ofNat 64 (a0 + peer.2 * 2 ^ 52)) (BitVec.ofNat 64 a1) (check.zeroExtend 64) 0) with
    payload := (counts.flatMap fun n => leBytes 4 n) ++ List.replicate ((32 - counts.length * 4 % 32) % 32) 0, cls := 3 }
/-- Other sources of the list. -/
def TdeCtx.peers (x : TdeCtx) : List (BitVec 24 × Nat) := (x.srcs.zipIdx.filter fun p => p.2 != x.me).map fun p => p.1
/-- A dispatch ends other than DONE: ABORT to its peers while in COUNT or EXCHANGE, an abort record for a prune or a peer's ABORT, its header with the
phase it left (spec 14 R375, R376). It has ended when these are written. -/
def State.abortDispatch (s : State) (n : Nat) (st : TokSt) (reason : Nat) (t : Trap) (own record : Bool) : State :=
  match s.op n with
  | none => s
  | some o =>
    let u := o.tdeUnit
    let x := s.dc u o.tdeCtx
    if x.phase = 5 then s
    else
      let s := if x.phase = 1 ∨ x.phase = 2 then
          x.peers.foldl (fun s p => s.exchange u o p (o.round.toNat + x.pass % 4 * 2 ^ 32 + x.me % 4096 * 2 ^ 40) (2 ^ 20) x.check []) s
        else s
      let y := ({ x with puts := if 3 ≤ x.stage then [] else x.puts } : TdeCtx).flushDrops
      let (y, last) := if record then y.record x.phase 0xFF 0 0 0xFFFFFFFF else (y, [])
      let head := if x.phase = 0 then [] else putRun x.dlog (y.header o.round x.phase)
      (s.setDc u o.tdeCtx { y with phase := 5, rows := [], puts := y.puts ++ last ++ head, fin := some ⟨st, reason, t, own⟩ }).due .dispatchEnd n
/-- A combine ends other than DONE, when the token it is writing and its last record are written (spec 14 R376). -/
def State.stopCombine (s : State) (n : Nat) (st : TokSt) (reason : Nat) (t : Trap) (own : Bool) (puts : List TPut) : State :=
  match s.op n with
  | none => s
  | some o =>
    let x := s.dc o.tdeUnit o.tdeCtx
    if x.phase = 5 then s
    else (s.setDc o.tdeUnit o.tdeCtx { x with phase := 5, puts := puts, fin := some ⟨st, reason, t, own⟩ }).due .combineEnd n
/-- A combine ends. -/
def State.endCombine (s : State) (n : Nat) (st : TokSt) (reason : Nat) (t : Trap) (own : Bool) : State :=
  match s.op n with
  | none => s
  | some o =>
    let x := s.dc o.tdeUnit o.tdeCtx
    (s.endOp n st reason t x.progress (x.resid * 2 ^ 32 + x.zeroed % 2 ^ 32) own).tdeFree o.tdeUnit o.tdeCtx n
/-- TDE_COMMAND_ACCEPT (spec 09 R249). -/
def execTdeCommandAccept (s : State) : Out :=
  let n := s.occ.a
  match s.op n with
  | none => .next s
  | some o =>
    let u := o.tdeUnit
    .next (s.acceptOp n u 8 Op.tdeBad .tdeCommandAccept fun s =>
      let t := s.tde u
      let s := s.setTde u { t with queue := t.queue ++ [n] }
      if o.edges.isEmpty then s.due (if o.engine = .dispatch then .dispatchStart else .combineStart) n else s)

/-! ### COUNT (spec 14 R363, R364) -/

/-- Sources that a list names: ranks and contexts. -/
def sourcesOf (l : List Nat) : List (BitVec 24 × Nat) := l.map fun v => (BitVec.ofNat 24 v, bits v 24 4)
/-- The reason a source list is refused, or its sources and this source's index. -/
def readSources (s : State) (u c : Nat) (l : List Nat) : Except Nat (List (BitVec 24 × Nat) × Nat) :=
  let ranks := l.map fun v => bits v 0 24
  let rise := (ranks.zip (ranks.drop 1)).all fun p => decide (p.1 < p.2)
  if !rise || l.any (fun v => v / 2 ^ 28 != 0) then .error 0x14
  else
    let srcs := sourcesOf l
    match srcs.findIdx? fun x => x == (s.rankOf u, c) with
    | none => .error 0x13
    | some i => .ok (srcs, i)
/-- The scope or one of its ancestors is bound to a fabric group. -/
def groupBound (s : State) (part g : Nat) : Nat → BitVec 16 → Bool
  | 0, _ => false
  | n + 1, id =>
    let e := s.scope part id
    if e.group = some g then true else if id = 0 then false else groupBound s part g n e.parent
/-- Classify the choices of one token; ids come with their poison. -/
def classifyTok (nexp kr : Nat) : Nat → List (Nat × Bool) → List TPair → List (TPair × Nat)
  | _, [], _ => []
  | c, (id, bad) :: r, before =>
    let dup := before.any fun p => p.st == .live && p.id == id
    let (st, reason) : PairSt × Nat :=
      if bad then (.dropped, 0x06) else if id = 0xFFFFFFFF then (.skip, 0) else if nexp ≤ id then (.dropped, 0x04)
      else if dup then (.dropped, 0x05) else (.live, 0)
    let fall := decide (kr ≤ c) && st != .live
    let p : TPair := { id := id, st := if fall then .skip else st, target := id, choice := c }
    (p, if fall then 0 else reason) :: classifyTok nexp kr (c + 1) r (before ++ [p])
/-- Ids of the choices with their poison; CHOICE need not be aligned, and an id may lie in two lines. -/
def readIds (s : State) (o : Op) : Nat → Nat → Nat → TRes (List (Nat × Bool))
  | 0, _, _ => .ok s []
  | f + 1, a, n =>
    if n = 0 then .ok s []
    else match s.engSplit o a 4 with
    | .busy q => .busy q
    | .fail s r t => .fail s r t
    | .ok s bs bad => match readIds s o f (a + 4) (n - 1) with
      | .busy q => .busy q
      | .fail s r t => .fail s r t
      | .ok s l => .ok s ((leNat bs, bad) :: l)
/-- Histogram of the pairs that are to be placed. -/
def TdeCtx.hist (x : TdeCtx) : List Nat :=
  let l := (x.pairs.filter fun p => p.st == .live && decide (p.choice < x.kr || p.re)).map fun p => p.target
  l.foldl (fun h e => h.set e (h.getD e 0 + 1)) (List.replicate x.nexp 0)
/-- Send this pass's histogram to every peer, 128 counts to a message. -/
def State.sendCounts (s : State) (u : Nat) (o : Op) (x : TdeCtx) : State :=
  let h := x.hist
  let cuts := List.range ((x.nexp + 127) / 128)
  -- a link that stays down for LINKWAIT ends the dispatch (spec 14 R365)
  let s := if x.peers.any fun p => modOf p.1 != s.modid then s.later .linkwaitExpiry u 18 o.no else s
  x.peers.foldl (fun s p => cuts.foldl (fun s i =>
    let cs := (h.drop (128 * i)).take 128
    s.exchange u o p (o.round.toNat + x.pass % 4 * 2 ^ 32 + x.me * 2 ^ 40) (128 * i + cs.length * 2 ^ 12) x.check cs) s) s

/-! ### PLACE (spec 14 R362, R366 to R371) -/

/-- Counts of a source for the pass: its own, or those its messages brought. -/
def TdeCtx.counts (x : TdeCtx) (round : BitVec 32) (i : Nat) : List Nat :=
  if i = x.me then x.hist
  else (x.chunks.filter fun c => c.round == round && c.pass == x.pass && c.src == i).foldl (fun h c =>
    (c.counts.zipIdx).foldl (fun h p => h.set (c.first + p.2) p.1) h) (List.replicate x.nexp 0)
/-- Every peer's counts for the pass have come. -/
def TdeCtx.allHeard (x : TdeCtx) (round : BitVec 32) : Bool :=
  (List.range x.srcs.length).all fun i => i == x.me ||
    decide (x.nexp ≤ ((x.chunks.filter fun c => c.round == round && c.pass == x.pass && c.src == i).map fun c => c.counts.length).foldl (· + ·) 0)
/-- An entry as read, or none when it breaks the layout. -/
def TdeCtx.entry (s : State) (x : TdeCtx) (part : Nat) (bs : List Byte) : Option PEntry :=
  let w (i : Nat) : Nat := leNat ((bs.drop (8 * i)).take 8)
  let global (a : Nat) : Bool := a % 32 == 0 && decide (0x50000 ≤ a) && a / 2 ^ 42 != 1
  let mod := BitVec.ofNat 12 (w 0 / 2 ^ 48)
  let member := mod == s.modid || (x.group != 0xFF && ((tget (s.part part).groups x.group).getD []).contains mod)
  if w 0 / 2 ^ 60 = 0 ∧ global (bits (w 0) 0 48) = true ∧ w 1 / 2 ^ 32 = 0 ∧ w 2 / 2 ^ 48 = 0 ∧ global (w 2) = true ∧ w 3 = 0 ∧ member = true then
    some { base := bits (w 0) 0 48, mod := mod, cap := if w 1 = 0 then x.cap else w 1, obase := w 2 }
  else none
/-- Read the entries of a table that are needed and have not been read yet. -/
def readEntries (s : State) (o : Op) (x : TdeCtx) (tab : Nat) : List Nat → Table PEntry → TRes (Table PEntry)
  | [], acc => .ok s acc
  | e :: r, acc =>
    if (tget acc e).isSome then readEntries s o x tab r acc
    else match s.engBytes o (tab + 32 * e) 32 with
    | .busy q => .busy q
    | .fail s re t => .fail s re t
    | .ok s bs _ => match x.entry s o.part bs with
      | none => .fail s 0x15 ⟨0, 0, BitVec.ofNat 64 (tab + 32 * e)⟩
      | some v => readEntries s o x tab r (tset acc e v)
/-- A line of a row on another module, named by the virtual address that the page table there translates (spec 14 R362; log entry 35). -/
def awayPiece (o : Op) (mod : BitVec 12) (va n : Nat) : Piece := { va := va, len := n, mod := mod, pa := 2 ^ 48 + va, attr := o.core }
/-- Decide the pairs of a pass in ascending order: each is placed, or marked OVER (spec 14 R366). n counts the pairs of each expert. -/
def placePairs (kr : Nat) (tab : Table PEntry) (f below : List Nat) : List TPair → List Nat → List TPair
  | [], _ => []
  | p :: r, n =>
    if p.st ≠ .live ∨ (kr ≤ p.choice ∧ p.re = false) then p :: placePairs kr tab f below r n
    else
      let e := p.target
      let slot := f.getD e 0 + below.getD e 0 + n.getD e 0
      let q : TPair := match tget tab e with
        | none => { p with st := .over }
        | some v => if slot < v.cap then { p with st := .placed, slot := slot, mod := v.mod.toNat } else { p with st := .over }
      q :: placePairs kr tab f below r (n.set e (n.getD e 0 + 1))
/-- The lowest fallback of a token that is live and not taken: its place among the pairs. -/
def fallback (x : TdeCtx) (ps : List TPair) (i : Nat) : Option (Nat × TPair) :=
  let t := i / x.k
  ((List.range (x.k - x.kr)).map fun j => t * x.k + x.kr + j).findSome? fun q => (ps[q]?).bind fun p => if p.st = .live ∧ p.re = false then some (q, p) else none
/-- Under NEXT, each OVER pair takes a fallback, or is dropped EXHAUSTED (spec 14 R366). -/
def reroute : List Nat → TdeCtx → TdeCtx
  | [], x => x
  | i :: r, x =>
    match x.pairs[i]? with
    | none => reroute r x
    | some p =>
      match fallback x x.pairs i with
      | some (q, fp) =>
        let ps := (x.pairs.set i { p with st := .live, target := fp.id, choice := fp.choice, re := true }).set q { fp with st := .taken }
        reroute r { x with pairs := ps }
      | none => reroute r ({ x with pairs := x.pairs.set i { p with st := .dropped } }.drop i 0x03 p.id)
/-- Pairs marked OVER, by place. -/
def TdeCtx.overs (x : TdeCtx) : List Nat := (x.pairs.zipIdx.filter fun p => p.1.st == .over).map fun p => p.2
/-- Pairs left OVER are dropped, or spilled into their group's buffer (spec 14 R366, R367). m counts the pairs of each group. -/
def settleOver (sp : Table PEntry) (ob : Table Nat) : List Nat → TdeCtx → Table Nat → TdeCtx
  | [], x, _ => x
  | i :: r, x, m =>
    match x.pairs[i]? with
    | none => settleOver sp ob r x m
    | some p =>
      let drop (reason : Nat) : TdeCtx := { x with pairs := x.pairs.set i { p with st := .dropped } }.drop i reason p.id
      if x.policy = 1 then
        let g := p.target / 2 ^ x.glog
        let q := (tget ob g).getD 0 + (tget m g).getD 0
        let m := tset m g ((tget m g).getD 0 + 1)
        match tget sp g with
        | none => settleOver sp ob r (drop 0x02) m
        | some v =>
          if q < v.cap then settleOver sp ob r { x with pairs := x.pairs.set i { p with st := .spilled, slot := q, mod := v.mod.toNat } } m
          else settleOver sp ob r (drop 0x02) m
      else settleOver sp ob r (drop (if x.policy = 2 then 0x03 else 0x01)) m
/-- The rows that placed and spilled pairs write, in order. -/
def TdeCtx.rowsOf (x : TdeCtx) (o : Op) : List TRow :=
  x.pairs.zipIdx.filterMap fun p =>
    let v := match p.1.st with
      | .placed => (tget x.tab p.1.target).map fun v => (v, false)
      | .spilled => (tget x.stab (p.1.target / 2 ^ x.glog)).map fun v => (v, true)
      | .live | .skip | .dropped | .over | .taken => none
    v.map fun (v : PEntry × Bool) =>
      { mod := v.1.mod, src := o.word 3 + p.2 / x.k * o.rowBytes, dst := v.1.base + p.1.slot * o.rowBytes, left := o.rowBytes, spilled := v.2, re := p.1.re }
/-- The inverse-permutation entry of a pair (spec 14 R369); w stands for the expert of a routed sentinel, which R369 does not give (log entry 127). -/
def permEntry (kr : Nat) (c : Nat) (p : TPair) (w : Nat) : Nat :=
  let fallbackEntry := decide (kr ≤ c)
  if fallbackEntry then c * 2 ^ 60 + 2 ^ 59 + (if p.st = .taken then 2 ^ 58 else 0) + p.id % 4096 * 2 ^ 32
  else match p.st with
    | .skip => c * 2 ^ 60 + 2 ^ 59 + w % 4096 * 2 ^ 32
    | .dropped => c * 2 ^ 60 + 2 ^ 56 + p.id % 4096 * 2 ^ 32
    | .spilled => c * 2 ^ 60 + 2 ^ 57 + p.mod * 2 ^ 44 + p.target * 2 ^ 32 + p.slot
    | .placed | .live | .over | .taken =>
      p.choice * 2 ^ 60 + (if p.re then 2 ^ 58 else 0) + p.mod * 2 ^ 44 + p.target * 2 ^ 32 + p.slot
/-- The entries of a dispatch with their addresses. -/
def State.permEntries (s : State) (x : TdeCtx) : State × List TPut :=
  x.pairs.zipIdx.foldl (fun a p =>
    let c := p.2 % x.k
    let (w, s) := if p.1.st = .skip ∧ c < x.kr then a.1.drawFree else (0, a.1)
    (s, a.2 ++ [{ a := x.iperm + 8 * p.2, bs := leBytes 8 (permEntry x.kr c p.1 w.toNat) }])) (s, [])
/-- The port of a TDE grants its operation data in both directions. -/
def State.tdeOpen (s : State) (o : Op) : Bool := s.engOpen o 0 && s.engOpen o 1
/-- Records, then entries and fills, then the header are written; with them the dispatch is DONE (spec 14 R368 to R371). -/
def State.writeRecords (s : State) (n : Nat) (o : Op) : State :=
  match s.tdeFlush o false with
  | (s, some (r, t)) => s.abortDispatch n .failed r t false false
  | (s, none) =>
    let x := s.dc o.tdeUnit o.tdeCtx
    if x.puts ≠ [] then s.later .dispatchStart n
    else if x.stage = 2 then (s.setDc o.tdeUnit o.tdeCtx { x with stage := 3, puts := x.after, after := [] }).due .dispatchStart n
    else if x.stage = 3 then (s.setDc o.tdeUnit o.tdeCtx { x with stage := 4, puts := putRun x.dlog (x.header o.round 0) }).due .dispatchStart n
    else (s.setDc o.tdeUnit o.tdeCtx { x with phase := 4 }).due .dispatchEnd n
/-- Token rows are written, line by line of the destination, each in one act with its poison; a row counts when its last line is written (spec 14 R368,
R370). With lines left, something is awaited. -/
def writeRows (n : Nat) (o : Op) : Nat → State → State × Option (Nat × Trap)
  | 0, s => (s, none)
  | f + 1, s =>
    let u := o.tdeUnit
    let x := s.dc u o.tdeCtx
    match x.rows with
    | [] => (s, none)
    | w :: rest =>
      if w.left = 0 then
        writeRows n o f (s.setDc u o.tdeCtx { x with rows := rest, placed := x.placed + (!w.spilled).toNat, spilled := x.spilled + w.spilled.toNat,
                                                     rerouted := x.rerouted + w.re.toNat })
      else if s.tdeOpen o = false then (s.later .dispatchStart n, none)
      else
        let k := min w.left (64 - w.dst % 64)
        match s.engSplit o w.src k with
        | .busy q => ((s.askEng q).later .dispatchStart n, none)
        | .fail s1 r t => (s1, some (r, t))
        | .ok s1 bs bad =>
          match (if w.mod ≠ s.modid then s1.engAsk o u (awayPiece o w.mod w.dst k) true bad bs else s1.engWrite o u .tde w.dst bs bad) with
          | .busy q => ((s.askEng q).later .dispatchStart n, none)
          | .fail s1 r t => (s1, some (r, t))
          | .ok s1 _ _ => writeRows n o f (s1.setDc u o.tdeCtx { x with rows := { w with src := w.src + k, dst := w.dst + k, left := w.left - k } :: rest })
/-- A pass of PLACE is decided, with the entries it needs; after the last one the rows are known, and the records, entries and fills (spec 14 R362,
R366, R367). No row is written before the last pass is decided. -/
def State.decidePass (s : State) (n : Nat) (o : Op) : State :=
  let u := o.tdeUnit
  let x := s.dc u o.tdeCtx
  let cs := (List.range x.srcs.length).map fun i => x.counts o.round i
  let at_ (h : List Nat) (e : Nat) : Nat := h.getD e 0
  let es := List.range x.nexp
  let total := es.map fun e => (cs.map fun h => at_ h e).foldl (· + ·) 0
  let below := es.map fun e => ((cs.take x.me).map fun h => at_ h e).foldl (· + ·) 0
  let f := if x.pass = 0 then List.replicate x.nexp 0 else x.f
  let again (s : State) (q : Option Req) : State := (s.askEng q).later .dispatchStart n
  let fail (s : State) (r : Nat) (t : Trap) : State := s.abortDispatch n .failed r t false false
  match readEntries s o x x.ptab (es.filter fun e => total.getD e 0 != 0) x.tab with
  | .busy q => again s q
  | .fail s1 r t => fail s1 r t
  | .ok s1 tab =>
    let away (t : Table PEntry) : Bool := t.any fun p => p.2.mod != s.modid
    let cap (e : Nat) : Nat := ((tget tab e).map fun v => v.cap).getD (2 ^ 32)
    let gs := (es.map fun e => e / 2 ^ x.glog).eraseDups
    let excess (h : Nat → Nat) (g : Nat) : Nat := ((es.filter fun e => e / 2 ^ x.glog == g).map fun e => h e - cap e).foldl (· + ·) 0
    let ob := gs.map fun g => (g, excess (fun e => below.getD e 0) g)
    let tot := gs.map fun g => (g, excess (fun e => total.getD e 0) g)
    let need := if x.policy = 1 then (tot.filter fun p => p.2 != 0).map fun p => p.1 else []
    match readEntries s1 o x x.sptab need x.stab with
    | .busy q => again s q
    | .fail s1 r t => fail s1 r t
    | .ok s1 sp =>
      if (away tab || away sp) && !groupBound s o.part x.group 4097 o.scope then fail s1 0x19 ⟨0, 0, 0⟩
      else
        let f' := es.map fun e => min (cap e) (f.getD e 0 + total.getD e 0)
        let x := { x with pairs := placePairs x.kr tab f below x.pairs (List.replicate x.nexp 0), f := f', tab := tab, stab := sp }
        if x.policy = 2 ∧ x.pass < x.k - x.kr then
          let x := (reroute x.overs x).flushDrops
          let x := { x with pass := x.pass + 1, phase := 2, chunks := x.chunks.filter fun c => !(c.round == o.round && c.pass == x.pass) }
          let s1 := (s1.setDc u o.tdeCtx x).sendCounts u o x
          if x.allHeard o.round then s1.due .dispatchStart n else s1
        else
          let x := (settleOver sp ob x.overs x []).flushDrops
          let (s1, perm) := s1.permEntries x
          let fills : List TPut := if x.fill = 0 then [] else
            (es.map fun e => { a := x.fill + 4 * e, bs := leBytes 4 (f'.getD e 0) }) ++
              (if x.policy = 1 then tot.map fun p => { a := x.fill + 4 * (x.nexp + p.1), bs := leBytes 4 (min (((tget sp p.1).map fun v => v.cap).getD 0) p.2) } else [])
          (s1.setDc u o.tdeCtx { x with stage := 1, rows := x.rowsOf o, after := perm ++ fills }).due .dispatchStart n
/-- PLACE, as far as it comes now (spec 14 R362, R366 to R371). -/
def State.placeTokens (s : State) (n : Nat) (o : Op) : State :=
  let u := o.tdeUnit
  let x := { s.dc u o.tdeCtx with phase := 3 }
  let s := s.setDc u o.tdeCtx x
  if s.tdeOpen o = false then s.later .dispatchStart n
  else if x.stage = 0 then s.decidePass n o
  else if x.stage = 1 then
    match writeRows n o (20 * x.rows.length + 1) s with
    | (s, some (r, t)) => s.abortDispatch n .failed r t false false
    | (s, none) =>
      let x := s.dc u o.tdeCtx
      if x.rows = [] then (s.setDc u o.tdeCtx { x with stage := 2 }).due .dispatchStart n else s
  else s.writeRecords n o

/-! ### The events of a dispatch -/

/-- The load of an image (spec 14 R360): the context, or the failure with its value; busy as it stands. -/
def State.loadImage (s : State) (o : Op) (x : TdeCtx) : TRes TdeCtx :=
  if (o.word 1).testBit 16 = false then (if x.loaded then .ok s x else .fail s 0x10 ⟨0, 0, 0⟩)
  else match s.engBytes o (o.field 2 0 48) 64 with
  | .busy q => .busy q
  | .fail s _ t => .fail s 0x11 ⟨0, 0, t.tval⟩
  | .ok s bs _ =>
    let x := { x with image := leNat bs }
    match x.badImage with
    | some off => .fail s 0x11 ⟨0, 0, BitVec.ofNat 64 off⟩
    | none => .ok s { x with loaded := true }
/-- COUNT: the header is written, the source list read, the choices classified, and the histogram sent (spec 14 R363 to R365). -/
def State.countTokens (s : State) (n : Nat) (o : Op) : State :=
  let u := o.tdeUnit
  let c := o.tdeCtx
  let fail (s : State) (r : Nat) (t : Trap) : State := s.abortDispatch n .failed r t false false
  let again (s : State) (q : Option Req) : State := (s.askEng q).later .dispatchStart n
  match s.tdeFlush o false with
  | (s1, some (r, t)) => fail s1 r t
  | (s1, none) =>
    let x := s1.dc u c
    if x.puts ≠ [] then s1.later .dispatchStart n
    else match s1.engBytes o x.srcl (4 * x.nsrc) with
    | .busy q => again s1 q
    | .fail s2 r t => fail s2 r t
    | .ok s2 bs _ =>
      let l := elems 4 x.nsrc bs
      match readSources s2 u c l with
      | .error r => fail (s2.setDc u c { x with srcs := if r = 0x13 then sourcesOf l else [], me := l.length }) r ⟨0, 0, 0⟩
      | .ok (srcs, me) =>
        let away := srcs.any fun p => modOf p.1 != s.modid
        let s2 := s2.setDc u c { x with srcs := srcs, me := me }
        if away && !(x.group != 0xFF && groupBound s2 o.part x.group 4097 o.scope) then fail s2 0x19 ⟨0, 0, 0⟩
        else match readIds s2 o (o.ntok * x.k) (o.field 5 0 48) (o.ntok * x.k) with
        | .busy q => again s1 q
        | .fail s3 r t => fail s3 r t
        | .ok s3 ids =>
          let ps := (List.range o.ntok).flatMap fun t => classifyTok x.nexp x.kr 0 ((ids.drop (t * x.k)).take x.k) []
          let y := { x with srcs := srcs, me := me, pairs := ps.map fun p => p.1, phase := 2
                            skipped := (ps.zipIdx.filter fun p => p.1.1.st == .skip && decide (p.2 % x.k < x.kr)).length }
          let y := ps.zipIdx.foldl (fun (x : TdeCtx) p => if p.1.2 = 0 then x else x.drop p.2 p.1.2 p.1.1.id) y
          let s3 := (s3.setDc u c y).sendCounts u o y
          -- counts held before are met in EXCHANGE (spec 14 R365)
          if y.chunks.any fun k => k.round == o.round && k.check != y.check then fail s3 0x12 ⟨0, 0, 0⟩
          else if y.allHeard o.round then s3.due .dispatchStart n else s3
/-- A dispatch loads its image, then counts (spec 14 R360). -/
def State.loadAndCount (s : State) (n : Nat) (o : Op) : State :=
  let u := o.tdeUnit
  let c := o.tdeCtx
  let x := s.dc u c
  if s.tdeOpen o = false then s.later .dispatchStart n
  else if x.phase ≠ 0 then s.countTokens n o
  else match s.loadImage o x with
  | .busy q => (s.askEng q).later .dispatchStart n
  | .fail s1 r t => (s1.setDc u c { x with loaded := if r = 0x11 then false else x.loaded }).abortDispatch n .failed r t false false
  | .ok s1 y => (s1.setDc u c { y with phase := 1, puts := putRun y.dlog (y.header o.round 0x80) }).countTokens n o
/-- DISPATCH_START: a dispatch whose inputs are satisfied starts: it loads its image, counts, and sends its histogram; one that runs goes on, to PLACE
when it holds every peer's counts (spec 14 R358 to R365). -/
def execDispatchStart (s : State) : Out :=
  let n := s.occ.a
  match s.op n with
  | none => .next s
  | some o =>
    let u := o.tdeUnit
    let c := o.tdeCtx
    let x := s.dc u c
    if x.run = some n then
      .next (if x.phase ≤ 1 then s.loadAndCount n o else if x.phase = 3 ∨ (x.phase = 2 ∧ x.allHeard o.round = true) then s.placeTokens n o else s)
    else if o.ready && o.inputFailed then .next ((s.endOp n .cancelled rsnInput ⟨0, 0, 0⟩ 0 0 false).tdeFree u c n)
    else if x.run.isSome || s.tdeFirst u c != some n || decide (4 ≤ ((s.tde u).ctxs.filter fun y => y.2.run.isSome).length) then .next s
    else
      let x0 : TdeCtx := { x with run := some n, phase := 0, pass := 0, stage := 0, pairs := [], srcs := [], tab := [], stab := [], rows := [], puts := [], after := [], fin := none,
                                  drops := [], f := [], placed := 0, spilled := 0, rerouted := 0, dropped := 0, skipped := 0, dcount := 0,
                                  heldRound := if x.heldRound = some o.round then none else x.heldRound }
      .next (((s.setOp n { o with ph := .started }).setDc u c x0).loadAndCount n { o with ph := .started })
/-- EXCHANGE_COUNTS: a TDE takes a peer's counts; the last of a pass triggers PLACE (spec 14 R365). a = message. -/
def execExchangeCounts (s : State) : Out :=
  match s.net s.occ.a with
  | none => .next s
  | some nm =>
    let m := nm.msg
    let u := localOf m.dest
    let s := s.delNet m.no
    let a0 := (m.arg 0).toNat
    let c := bits a0 52 4
    let x := s.dc u c
    let k := bits (m.arg 1).toNat 12 8
    let ch : TdeChunk := { round := BitVec.ofNat 32 a0, pass := bits a0 32 2, src := bits a0 40 12, first := bits (m.arg 1).toNat 0 12,
                           counts := elems 4 k m.payload, check := (m.arg 2).truncate 32 }
    let x := { x with chunks := x.chunks ++ [ch] }
    match x.run with
    | none => .next (s.setDc u c { x with heldRound := some ch.round })
    | some n => match s.op n with
      | none => .next (s.setDc u c x)
      | some o =>
        let s := s.setDc u c x
        if o.engine ≠ .dispatch ∨ o.round ≠ ch.round then .next s
        else if x.phase ≠ 2 then .next s
        else if ch.check ≠ x.check then .next (s.abortDispatch n .failed 0x12 ⟨0, 0, 0⟩ false false)
        else .next (if x.allHeard o.round then s.placeTokens n o else s)
/-- TDE_ABORT: an ABORT ends a peer PEERABORT, or discards held counts (spec 14 R375, R491). a = message. -/
def execTdeAbort (s : State) : Out :=
  match s.net s.occ.a with
  | none => .next s
  | some nm =>
    let m := nm.msg
    let u := localOf m.dest
    let s := s.delNet m.no
    let round : BitVec 32 := (m.arg 0).truncate 32
    let c := bits (m.arg 0).toNat 52 4
    let x := s.dc u c
    match x.run.bind fun n => (s.op n).map fun o => (n, o) with
    | some (n, o) =>
      -- under NEXT a source that has passes to come needs the counts of the one that has ended (spec 14 R375)
      let mine := o.engine == .dispatch && o.round == round && (x.phase == 1 || x.phase == 2 || (x.phase == 3 && x.policy == 2 && decide (x.pass < x.k - x.kr)))
      .next (if mine then s.abortDispatch n .failed 0x17 ⟨0, 0, 0⟩ false true else s)
    | none =>
      .next (s.setDc u c { x with chunks := x.chunks.filter fun k => k.round != round, heldRound := if x.heldRound = some round then none else x.heldRound })
/-- DISPATCH_END: everything is performed, and the dispatch ends DONE; or one that ends otherwise has written its last records, and counts of its round are
discarded (spec 14 R361, R368, R372, R375). a = operation. -/
def execDispatchEnd (s : State) : Out :=
  let n := s.occ.a
  match s.op n with
  | none => .next s
  | some o =>
    let u := o.tdeUnit
    let x := s.dc u o.tdeCtx
    let forget (x : TdeCtx) : TdeCtx := { x with chunks := x.chunks.filter fun k => k.round != o.round }
    if x.run ≠ some n then .next s
    else if x.phase = 4 then
      let s := s.setDc u o.tdeCtx { forget x with lastRound := some o.round, lastNtok := o.ntok }
      .next ((s.endOp n .done 0 ⟨0, 0, 0⟩ x.w2 x.w3 false).tdeFree u o.tdeCtx n)
    else match x.fin with
    | none => .next s
    | some e =>
      let (s, _) := s.tdeFlush o true
      let x := s.dc u o.tdeCtx
      if x.puts ≠ [] then .next (s.later .dispatchEnd n)
      else .next (((s.setDc u o.tdeCtx (forget x)).endOp n e.st e.reason e.trap x.w2 x.w3 e.own).tdeFree u o.tdeCtx n)

/-! ### COMBINE (spec 14 R373) -/

/-- Elements of a row with the poison of their lines, or what the read meets. -/
def readRow (s : State) (o : Op) (mod : BitVec 12) : Nat → Nat → Nat → TRes (List (Byte × Bool))
  | 0, _, _ => .ok s []
  | f + 1, a, n =>
    if n = 0 then .ok s []
    else
      let k := min n (64 - a % 64)
      match (if mod ≠ s.modid then s.engAsk o o.tdeUnit (awayPiece o mod a k) false false [] else s.engRead o a k) with
      | .busy q => .busy q
      | .fail s r t => .fail s r t
      | .ok s bs bad => match readRow s o mod f (a + k) (n - k) with
        | .busy q => .busy q
        | .fail s r t => .fail s r t
        | .ok s l => .ok s (bs.map (fun b => (b, bad)) ++ l)
/-- The element type of expert rows. -/
def TdeCtx.ety (x : TdeCtx) : FTy := match x.etype with | 9 => .f32 | 10 => .f16 | _ => .bf16
/-- Add gw times a row to the sums, with poison. -/
def addScaled (t : FTy) (gw : Nat) (gbad : Bool) (sums : List (Nat × Bool)) (row : List (Byte × Bool)) : List (Nat × Bool) :=
  let w := fwidth t / 8
  sums.zipIdx.map fun p =>
    let el := (row.drop (p.2 * w)).take w
    ((fmaV .f32 rne (fval .f32 gw) (fval t (leNat (el.map fun b => b.1))) (fval .f32 p.1.1)).1, p.1.2 || gbad || el.any fun b => b.2)
/-- One choice of a token: the sums, and the counts of dropped pairs. A poisoned entry poisons the output, and what cannot be read through it adds nothing
(spec 14 R373). -/
def combineChoice (s : State) (o : Op) (x : TdeCtx) (t c : Nat) (a : List (Nat × Bool) × Nat × Nat) : TRes (List (Nat × Bool) × Nat × Nat) :=
  match s.engRead o (x.iperm + 8 * (t * x.k + c)) 8 with
  | .busy q => .busy q
  | .fail s r tr => .fail s r tr
  | .ok s vb vbad =>
    let v := leNat vb
    let marked (bad : Bool) : List (Nat × Bool) := a.1.map fun p => (p.1, p.2 || bad)
    if v.testBit 59 then .ok s (marked vbad, a.2)
    else match s.engSplit o (o.field 3 0 48 + 4 * (t * x.k + bits v 60 2)) 4 with
    | .busy q => .busy q
    | .fail s1 r tr => if vbad then .ok s (marked true, a.2) else .fail s1 r tr
    | .ok s gb gbad =>
      let gw := leNat gb
      let use (s : State) (mod : BitVec 12) (addr : Nat) (ebad : Bool) (k : Nat × Nat) : TRes (List (Nat × Bool) × Nat × Nat) :=
        match readRow s o mod 16 addr o.rowBytes with
        | .busy q => .busy q
        | .fail s1 r tr => if ebad then .ok s (marked true, k) else .fail s1 r tr
        | .ok s row => .ok s (addScaled x.ety gw (gbad || ebad) a.1 row, k)
      if v.testBit 56 then
        if (o.word 1).testBit 17 then use s s.modid (o.field 5 0 48 + t * o.rowBytes) vbad (a.2.1 + 1, a.2.2) else .ok s (marked (gbad || vbad), a.2.1, a.2.2 + 1)
      else
        let e := bits v 32 12
        let tab := if v.testBit 57 then x.sptab + 32 * (e / 2 ^ x.glog) else x.ptab + 32 * e
        match s.engRead o tab 32 with
        | .busy q => .busy q
        | .fail s1 r tr => if vbad then .ok s (marked true, a.2) else .fail s1 r tr
        | .ok s bs ebad =>
          let bad := vbad || ebad
          match x.entry s o.part bs with
          | none => if bad then .ok s (marked true, a.2) else .fail s rsnFault (pageTrap 0x07 tab)
          | some pe => use s pe.mod (pe.obase + bits v 0 32 * o.rowBytes) bad a.2
/-- The routed choices of a token, in order. -/
def combineTok (s : State) (o : Op) (x : TdeCtx) (t : Nat) : Nat → Nat → List (Nat × Bool) × Nat × Nat → TRes (List (Nat × Bool) × Nat × Nat)
  | 0, _, a => .ok s a
  | f + 1, c, a =>
    match combineChoice s o x t c a with
    | .ok s a => combineTok s o x t f (c + 1) a
    | r => r
/-- The lines of an output row, poisoned where a source was. -/
def outPuts : Nat → Nat → List (Byte × Bool) → List TPut
  | 0, _, _ => []
  | f + 1, a, l =>
    if l.isEmpty then []
    else
      let k := min l.length (64 - a % 64)
      { a := a, bs := (l.take k).map fun b => b.1, bad := (l.take k).any fun b => b.2 } :: outPuts f (a + k) (l.drop k)
/-- A combine writes the lines of its token, and goes on to the next one. -/
def State.writeToken (s : State) (n : Nat) (o : Op) : State :=
  match s.tdeFlush o false with
  | (s, some (r, t)) => s.stopCombine n .failed r t false []
  | (s, none) =>
    let x := s.dc o.tdeUnit o.tdeCtx
    if x.puts ≠ [] then s.later .combineStart n
    else (s.setDc o.tdeUnit o.tdeCtx { x with progress := x.progress + 1 }).due .combineStart n
/-- COMBINE_START: a combine starts, and writes its tokens one by one (spec 14 R373). a = operation. -/
def execCombineStart (s : State) : Out :=
  let n := s.occ.a
  match s.op n with
  | none => .next s
  | some o =>
    let u := o.tdeUnit
    let c := o.tdeCtx
    let x := s.dc u c
    if x.run = some n then
      if x.phase ≠ 1 then .next s
      else if x.puts = [] ∧ x.progress = o.ntok then .next ((s.setDc u c { x with phase := 4 }).due .combineEnd n)
      else if s.tdeOpen o = false then .next (s.later .combineStart n)
      else if x.puts ≠ [] then .next (s.writeToken n o)
      else
        let t := x.progress
        let w := fwidth x.ety / 8
        match combineTok s o x t x.kr 0 (List.replicate (o.rowBytes / w) (0, false), x.resid, x.zeroed) with
        | .busy q => .next ((s.askEng q).later .combineStart n)
        | .fail s1 r tr => .next (s1.stopCombine n .failed r tr false [])
        | .ok s1 (sums, re, ze) =>
          let out := sums.flatMap fun p => (leBytes w (if x.ety = .f32 then p.1 else (convert .f32 (etyOfF x.ety) (.mode rne) 0 p.1).1)).map fun b => (b, p.2)
          .next ((s1.setDc u c { x with puts := outPuts 16 (o.field 2 0 48 + t * o.rowBytes) out, resid := re, zeroed := ze }).writeToken n o)
    else if o.ready && o.inputFailed then .next ((s.endOp n .cancelled rsnInput ⟨0, 0, 0⟩ 0 0 false).tdeFree u c n)
    else if x.run.isSome || s.tdeFirst u c != some n || decide (4 ≤ ((s.tde u).ctxs.filter fun y => y.2.run.isSome).length) then .next s
    else
      let s := (s.setOp n { o with ph := .started }).setDc u c { x with run := some n, phase := 1, progress := 0, resid := 0, zeroed := 0, puts := [], fin := none }
      if !x.loaded then .next (s.stopCombine n .failed 0x10 ⟨0, 0, 0⟩ false [])
      else if x.lastRound ≠ some o.round ∨ x.lastNtok ≠ o.ntok then .next (s.stopCombine n .failed 0x16 ⟨0, 0, 0⟩ false [])
      else .next (s.due .combineStart n)
/-- COMBINE_END: every output is performed; or a combine that ends otherwise has written its last lines (spec 14 R373, R376). a = operation. -/
def execCombineEnd (s : State) : Out :=
  let n := s.occ.a
  match s.op n with
  | none => .next s
  | some o =>
    let x := s.dc o.tdeUnit o.tdeCtx
    if x.run ≠ some n then .next s
    else if x.phase = 4 then .next (s.endCombine n .done 0 ⟨0, 0, 0⟩ false)
    else match x.fin with
    | none => .next s
    | some e =>
      let (s, _) := s.tdeFlush o true
      .next (if (s.dc o.tdeUnit o.tdeCtx).puts ≠ [] then s.later .combineEnd n else s.endCombine n e.st e.reason e.trap e.own)

/-! ### Prunes (spec 14 R376) -/

/-- A prune notice reaches a TDE: queued commands of the subtree are removed, started ones end CANCELLED with an abort record. -/
def State.sweepTde (s : State) (u part : Nat) (scope : BitVec 16) : State :=
  let mine (n : Nat) : Bool := match s.op n with | some o => o.part == part && s.inScope part scope o.scope | none => false
  let hit := (s.tde u).queue.filter mine
  hit.foldl (fun s n =>
    match s.op n with
    | none => s
    | some o =>
      if o.ph = .queued then
        -- a queued command counts only as a cancelled token
        ((s.tallyFor part o.scope u fun t => { t with cancelled := t.cancelled + 1 }).endOp n .cancelled rsnPruned ⟨0, 0, 0⟩ 0 0 true).tdeFree u o.tdeCtx n
      else
        let x := s.dc u o.tdeCtx
        if x.run = some n ∧ (x.phase = 4 ∨ x.phase = 5) then s
        else
          let s := s.tallyFor part o.scope u fun t => { t with cancelled := t.cancelled + 1, dispatches := t.dispatches + 1 }
          if o.engine = .dispatch then s.abortDispatch n .cancelled rsnPruned ⟨0, 0, 0⟩ true true
          else
            -- the abort record of a combine names no phase of a dispatch: its phase byte is free (log entry 38)
            let (w, s) := s.drawFree
            let (x, recs) := x.record (w.toNat % 256) 0xFF 0 0 0xFFFFFFFF
            (s.setDc u o.tdeCtx x).stopCombine n .cancelled rsnPruned ⟨0, 0, 0⟩ true (x.puts ++ recs)) s

end Sys2Proof.Machine
end

