-- ==== Sys2Proof/Machine/MemEvents.lean ====
section
/-! DEFINITION. Events of memory: translation, page walks, accesses at their homes, replies, fences, the remote tile window, reclaim and close, row
requests, accumulates and landings, built-in memory operations, poison and link waits (spec 07; 11; 12; 13; 17 R443). -/

namespace Sys2Proof.Machine

/-! ### Translation (spec 07 R180, R186; 12 R325 to R330) -/

/-- Fills of a request leave. -/
def State.dropFills (s : State) (core no : Nat) : State := s.onCore core fun c => { c with fills := c.fills.filter fun f => f.no != no }
/-- A request meets a trap in translation: a prefetch is dropped, another request answers (spec 07 R186, R203). -/
def State.reqTrap (s : State) (r : Req) (t : Trap) : State :=
  let s := s.dropFills r.core r.no
  if r.posted then s.delReq r.no else s.answer r (some t)
/-- Fills of lines of checked and versioned regions are not allocated; lines of other modules are (spec 07 R187; 12 R324). -/
def State.pruneFills (s : State) (r : Req) (ps : List Piece) : State :=
  let no (l : Nat) : Bool := ps.any fun p => p.va / 64 == l && (p.rst == 4 || p.rst == 5)
  s.onCore r.core fun c => { c with fills := c.fills.filter fun f => !(f.no == r.no && no f.line) }
/-- The context that waits for a request goes on. -/
def State.goOn (s : State) (r : Req) : State :=
  if (s.ctx r.core r.ctx).hold = .access r.no then s.unblock r.core r.ctx (s.ctx r.core r.ctx) else s
/-- Every part of a request is translated and permitted: it goes to its home, or has the effect of its kind (spec 07 R186, R197, R199; 08 R220, R227;
11 R303, R307). -/
def State.acceptReq (s : State) (r : Req) (ps : List Piece) : State :=
  let r := { r with pieces := ps, accepted := true, phase := .home }
  match r.kind with
  | .load => ((s.pruneFills r ps).setReq r).toHome r
  | .loadNc => (s.setReq r).toHome r
  | .store =>
    let s := (s.l1Store r.core r.va r.data).onCore r.core fun c => { c with
      fills := c.fills.map fun f => if f.line * 64 < r.va + r.len ∧ r.va < f.line * 64 + 64 then { f with install := false } else f }
    let r := { r with posted := true }
    -- the parts of a store to two modules are performed on their own: neither waits for the other (spec 11 R305, R315)
    match ps with
    | [p, q] =>
      if p.mod = q.mod then ((s.setReq r).goOn r).toHome r
      else
        let (n, s) := s.fresh
        let r1 := { r with len := p.len, data := r.data.take p.len, pieces := [p] }
        let r2 := { r with no := n, va := q.va, len := q.len, data := r.data.drop p.len, pieces := [q] }
        ((((s.setReq r1).setReq r2).goOn r).toHome r1).toHome r2
    | _ => ((s.setReq r).goOn r).toHome r
  | .ldv | .stv =>
    let fl := (ps.head?.map fun p => s.floorAt (xlSlice (s.part r.part) r.va) r.part p.region).getD 0
    let r := { r with floor := fl }
    (s.setReq r).toHome r
  | .atom _ => (s.setReq r).toHome r
  | .aacc =>
    let r := { r with posted := true }
    ((s.setReq r).goOn r).due .homeAccess r.no
  | .aaccL =>
    let d : Etd := leNat r.cmp
    let p := ps.headD { va := r.va, len := r.len }
    let xs := elems d.ebytes (r.len / d.ebytes) r.data
    ((s.addLine r.core r.part r.etd d r.va p.mod p.pa xs).delReq r.no).goOn r
  | .callat =>
    let p := ps.headD { va := r.va, len := r.len }
    match s.callTo r.core r.ctx (p.mod ++ BitVec.ofNat 12 (homeOf p.pa)) r.hnd r.dest r.prio r.relord r.args with
    | .error t => (s.delReq r.no).trapBlocked r t
    | .ok s => (s.delReq r.no).goOn r
  | .migrate =>
    let p := ps.headD { va := r.va, len := r.len }
    if p.mod ≠ s.modid then (s.delReq r.no).trapBlocked r ⟨0x22, 0x05, 0⟩
    else
      let s := s.delReq r.no
      match s.moveTo r.core r.ctx (s.rankOf (homeOf p.pa)) with
      | none => (s.stays r).goOn r
      | some s => s
/-- A request whose acceptance lets its context go on waits while the context is saved (spec 16 R417). -/
def State.heldOut (s : State) (r : Req) : Bool := r.bmsg.isNone && !r.posted && (s.ctx r.core r.ctx).st == .saved
/-- TRANSLATION_REQUEST (spec 12 R325, R330). -/
def execTranslationRequest (s : State) : Out :=
  match s.req s.occ.a with
  | none => .next s
  | some r =>
    if r.phase ≠ .translate then .next s
    else match xlPieces s r none r.pieces [] with
    | .walk va => .next ((s.setReq { r with phase := .walk }).due .pageWalkComplete r.no va)
    | .trap t => .next (s.reqTrap r t)
    | .ok ps => .next (if s.heldOut r then s.later .translationRequest r.no else s.acceptReq r ps)
/-- PAGE_WALK_COMPLETE (spec 12 R326, R327). -/
def execPageWalkComplete (s : State) : Out :=
  match s.req s.occ.a with
  | none => .next s
  | some r =>
    if r.phase ≠ .walk then .next s
    else match walkTable s r.part s.occ.b with
    | .error t => .next (s.reqTrap r t)
    | .ok e => .next (((s.xlFill r.part s.occ.b e).setReq { r with phase := .translate }).due .translationRequest r.no)

/-! ### Homes (spec 07 R190 to R195; 11 R298, R299) -/

/-- The bytes that fills of a request read with it: each line whole, in the same act; a poisoned line does not install (spec 11 R303; 12 R324). -/
def State.readFills (s : State) (r : Req) (p : Piece) : State :=
  if (s.core r.core).fills.any fun f => f.no == r.no && f.line == p.va / 64 then
    let lo := p.pa - p.va % 64
    let bad := s.poisonedAt lo 64
    let bs := memRead s.mem lo 64
    (s.onCore r.core fun c => { c with
      fills := c.fills.map fun f => if f.no = r.no ∧ f.line = p.va / 64 then { f with bytes := some bs, install := f.install && !bad } else f }).due .l1FillReply r.no
  else s
/-- The ports of a request of a core to a home on this module; one that came as a message took its ports as that message. -/
def Req.homeUses (r : Req) (p : Piece) : List PortUse := if r.bmsg.isSome || r.eng.isSome then [] else tripUses r.core (homeOf p.pa) p.len
/-- A contribution leaves for its home as a row accumulate, in its turn among the accesses of its context to the page (spec 07 R197; 11 R301). -/
def State.sendContribution (s : State) (r : Req) (p : Piece) : State :=
  let d : Etd := leNat r.cmp
  let xs := elems d.ebytes (r.len / d.ebytes) r.data
  let who := if p.mod = s.modid then s.rankOf r.core else r.rank
  (s.setReq { r with phase := .reply }).sendRow r.core r.part r.scope who r.ctx r.etd r.va p.mod p.pa false (some r.no) (.vals d.ty xs) r.rank
/-- An access to a page that moves queues behind the others at the old home, up to 256; beyond that it is tried again (spec 12 R334). -/
def State.queueMoving (s : State) (m : Moving) (i : Instr) (no : Nat) : State :=
  if m.queued.length < 256 then s.onMoving m.oldFrame fun m => { m with queued := m.queued ++ [(i, { a := no })] } else s.later i no
/-- A part at its home on this module: performed, or parked (spec 07 R190 to R192). -/
def State.homePart (s : State) (r : Req) (p : Piece) : State :=
  let p := { p with pa := s.redirect p.pa }
  let r := { r with pieces := r.pieces.zipIdx.map fun x => if x.2 = r.performed then p else x.1 }
  let s := ((s.charge r.part r.scope 0 (r.homeUses p)).setReq r).readFills r p
  match s.tryReq r.no with
  | some s => if r.kind = .stv then s.stampChanged (p.pa / 64) else s
  | none =>
    let home := homeOf p.pa
    let h := s.home home
    if h.parks.length + h.rowParks.length < 256 then
      (s.setReq { r with phase := .parked }).setHome home { h with parks := h.parks ++ [r.no] }
    else if r.tries < 64 then (s.setReq { r with tries := r.tries + 1 }).later .homeAccess r.no
    else s.answer r (some ⟨0x17, 0x03, BitVec.ofNat 64 p.va⟩)
/-- HOME_ACCESS: the next part of a request, in its turn among those of its context to the page: a contribution leaves, a part of another module goes
there, and a part of this module is performed or parked (spec 07 R186, R190 to R197; 11 R298, R301; 12 R334, R335). -/
def execHomeAccess (s : State) : Out :=
  match s.req s.occ.a with
  | none => .next s
  | some r =>
    if r.phase ≠ .home then .next s
    else match r.pieces[r.performed]? with
    | none => .next s
    | some p =>
      if r.kind = .aacc ∧ r.bmsg = none then .next (if s.behind r then s.later .homeAccess r.no else s.sendContribution r p)
      else if p.mod ≠ s.modid ∨ p.isGlobal = false then .next (s.toHome r)
      else if s.behind r || !(s.usesOpen r.part r.scope 0 (r.homeUses p)) then .next (s.later .homeAccess r.no)
      else .next (match s.movingAt p.pa with
        | some m => s.queueMoving m .homeAccess r.no
        | none => s.homePart r p)
/-- A core takes replies of its contexts only while it is IN (spec 16 R417). -/
def State.replyWaits (s : State) (core k : Nat) : Bool := (s.ctx core k).st == .saved || (match (s.core core).run with | .inn | .switchingOut => false | _ => true)
/-- A reply to a saved context has been NACKed n times: each 64th enters a record in the log of errors (spec 16 R417). -/
def State.replyNack (s : State) (core k n : Nat) : State := if n % 64 = 0 then s.log [0x13, core, k, n] else s
/-- MEMORY_REPLY (spec 07 R186; 16 R408, R417). b = times NACKed. -/
def execMemoryReply (s : State) : Out :=
  match s.req s.occ.a with
  | none => .next s
  | some r =>
    if r.orphan then .next (s.answer r none)
    else if r.phase ≠ .reply then .next s
    else if (s.ctx r.core r.ctx).hold ≠ .access r.no then .next (s.delReq r.no)
    else if s.replyWaits r.core r.ctx then .next ((s.replyNack r.core r.ctx (s.occ.b + 1)).later .memoryReply r.no (s.occ.b + 1))
    else .next ((if r.trap.isSome then s.dropFills r.core r.no else s).takeReply r)
/-- L1_FILL_REPLY (spec 11 R303; 12 R324). -/
def execL1FillReply (s : State) : Out :=
  match s.cores.find? fun x => x.2.fills.any fun f => f.no == s.occ.a && f.bytes.isSome with
  | none => .next s
  | some (core, c) =>
    let mine := c.fills.filter fun f => f.no == s.occ.a && f.bytes.isSome
    let c := { c with fills := c.fills.filter fun f => !(f.no == s.occ.a && f.bytes.isSome) }
    .next (s.setCore core (mine.foldl (fun c f => if f.install then l1Install c f.line (f.bytes.getD []) else c) c))

/-! ### Tile pages and the remote tile window (spec 12 R322, R323) -/

/-- TILE_PAGE_FILL (spec 12 R322): the word is issued again. -/
def execTilePageFill (s : State) : Out :=
  let core := s.occ.a
  let k := s.occ.b
  let c := s.ctx core k
  match c.hold with
  | .tilePage page =>
    if c.st ≠ .ready then .next s
    else match s.pinPage core c.space page with
    | none => .next (s.later .tilePageFill core k)
    | some s => .next (s.onCtx core k fun c => { c with hold := .none })
  | _ => .next s
/-- An access through the window to a core of another module goes there; an atomic finds no atomic-capable path (spec 07 R196; 12 R323). -/
def State.windowAway (s : State) (r : Req) (rank : BitVec 24) : State :=
  if 768 ≤ localOf rank then s.answer r (some (pageTrap 0x08 r.va))
  else match r.kind with
  | .atom _ => s.answer r (some ⟨0x16, if r.sys then 0x02 else 0x01, BitVec.ofNat 64 r.va⟩)
  | .load | .loadNc | .store | .ldv | .stv | .aacc | .aaccL | .callat | .migrate =>
    let r := { r with pieces := [{ va := r.va, len := r.len, mod := modOf rank, pa := r.va }], accepted := true, phase := .home }
    (s.setReq r).toHome r
/-- The ports of an access through the window; one that came as a message took its ports as that message. -/
def Req.windowUses (r : Req) (core : Nat) : List PortUse := if r.bmsg.isSome then [] else tripUses r.core core r.len
/-- REMOTE_TILE_ACCESS: a core that switches out, or is out, refuses the access, which is tried again at most 64 times (spec 12 R323; 16 R417, R420; log
entry 130, DESIGN CHOICE). -/
def execRemoteTileAccess (s : State) : Out :=
  match s.req s.occ.a with
  | none => .next s
  | some r =>
    let rank : BitVec 24 := BitVec.ofNat 24 (r.va / 2 ^ 18)
    let core := localOf rank
    if r.phase ≠ .translate then .next s
    else if modOf rank ≠ s.modid then .next (s.windowAway r rank)
    else
      let out := match (s.core core).run with | .switchingOut | .out | .switchingIn => true | _ => false
      if out && decide (64 ≤ r.tries) then .next (s.answer r (some (pageTrap 0x08 r.va)))
      else if out then .next ((s.setReq { r with tries := r.tries + 1 }).later .remoteTileAccess r.no)
      else if s.behind r || !(s.usesOpen r.part r.scope 0 (r.windowUses core)) then .next (s.later .remoteTileAccess r.no)
      else
        let s := s.charge r.part r.scope 0 (r.windowUses core)
        let (kind, op) : Nat × Nat := match r.kind with
          | .store | .stv | .aacc | .aaccL => (1, 0)
          | .atom op => (2, op)
          | .load | .loadNc | .ldv | .callat | .migrate => (if r.wkind ≠ 0 then 3 else 0, 0)
        match s.window r.part r.scope r.va r.len kind op r.data r.cmp with
        | .wait => .next (s.later .remoteTileAccess r.no)
        | .trap t => .next (s.answer r (some t))
        | .done s bs =>
          let pa := tilePa core ((s.spaceFor core r.part r.scope).getD 8) (tileOff r.va)
          .next ((if kind = 1 ∧ r.bad = true then s.poisonUnits pa r.len else s).answer { r with result := bs, pieces := [{ va := r.va, len := r.len, pa := pa }] } none)

/-! ### Fences, reclaim and close (spec 07 R193, R201, R202, R209) -/

/-- A fence has what it waited for: its L1 and flush-mark effects, and the status of a SYS form (spec 07 R201, R202; 12 R331). -/
def State.finishFence (s : State) (core k : Nat) (kind : BitVec 2) (sys : Bool) (rd : BitVec 4) (lo hi : Nat) (status : Word) : State :=
  let s := if kind = 1 then s else s.l1Drop core lo hi true
  let s := if kind = 0 then s else s.flushMarks (s.actingRank core k) k lo hi
  let c := s.ctx core k
  s.unblock core k (if sys then c.setG rd status else c)
/-- FENCE_COMPLETE (spec 07 R201). -/
def execFenceComplete (s : State) : Out :=
  let core := s.occ.a
  let k := s.occ.b
  match (s.ctx core k).hold with
  | .fence kind sys rd lo hi =>
    if s.replyWaits core k then .next ((s.replyNack core k (s.occ.c + 1)).later .fenceComplete core k (s.occ.c + 1))
    else if kind ≠ 0 ∧ (s.uncovered core k sys lo hi) ≠ [] then .next s
    else .next (s.finishFence core k kind sys rd lo hi (if sys && kind != 0 then s.fenceStatus core k lo hi 0 else 0))
  | _ => .next s
/-- RECLAIM_COMPLETE (spec 07 R193). -/
def execReclaimComplete (s : State) : Out :=
  let core := s.occ.a
  let k := s.occ.b
  match (s.ctx core k).hold with
  | .reclaim 0 => .next (if s.replyWaits core k then (s.replyNack core k (s.occ.c + 1)).later .reclaimComplete core k (s.occ.c + 1) else s.unblock core k (s.ctx core k))
  | _ => .next s
/-- CLOSE_COMPLETE (spec 07 R209). -/
def execCloseComplete (s : State) : Out :=
  let core := s.occ.a
  let k := s.occ.b
  match (s.ctx core k).hold with
  | .close rd _ [] nhome stale =>
    if s.replyWaits core k then .next ((s.replyNack core k (s.occ.c + 1)).later .closeComplete core k (s.occ.c + 1))
    else .next (s.unblock core k ((s.ctx core k).setG rd (BitVec.ofNat 64 (min nhome 255 * 256 + stale.toNat * 2 + (decide (nhome ≠ 0)).toNat))))
  | _ => .next s
/-- The close of a number that waits for a home. -/
def Hold.awaits (h : Hold) (tag : Nat) (home : BitVec 24) : Bool :=
  match h with
  | .close _ no homes _ _ => no % 2 ^ 32 == tag && homes.contains home
  | _ => false
/-- A home's answer to a close: 0 OK, 1 STALE, 2 REFUSED. It is taken by the close whose number it bears, once. -/
def State.closeAnswer (s : State) (core tag : Nat) (home : BitVec 24) (res : Nat) : State :=
  match (List.range 16).find? fun k => (s.ctx core k).hold.awaits tag home with
  | none => s
  | some k => match (s.ctx core k).hold with
    | .close rd no homes nhome stale =>
      let left := homes.filter (· != home)
      let s := s.onCtx core k fun c => { c with hold := .close rd no left (if res = 2 then nhome + 1 else nhome) (stale || res == 1) }
      if left.isEmpty then s.due .closeComplete core k else s
    | _ => s
def CloseRes.code : CloseRes → Nat
  | .ok => 0 | .stale => 1 | .refused => 2
/-- A close notice at one home: its entry, its parked row requests (spec 13 R343). -/
def State.closeAt (s : State) (home : Nat) (m : Msg) (etd : Nat) (t : BitVec 20) (w : BitVec 24) : State × CloseRes :=
  match s.table home etd m with
  | (s, .wait) => (s, .refused)
  | (s, .ok e) =>
    let (e', res) := e.close w t (decide (s.recCount home < 4096))
    let s := s.setTab home e'
    (if e'.wm = e.wm then s else wakeRows s home m.part etd (s.home home).rowParks, res)
  | (s, .full) => (s, .refused)
  | (s, .bad _) => (s, .refused)
/-- A part of a row accumulate of the notice's core that left before it has not been applied: one of its stream that has come, or one that names a frame
whose page has moved to the notice's home. The notice waits (spec 07 R209; 11 R308, R312; 12 R335). -/
def State.partsAhead (s : State) (m : Msg) : Bool :=
  s.fab.msgs.any fun x => x.msg.kind == .builtin && x.msg.addr == 0x208 && decide (x.msg.no < m.no) &&
    ((streamKey x.msg == streamKey m && (x.ph == .arrived || x.ph == .done)) ||
      (x.msg.srclr == m.srclr && modOf x.msg.srank == modOf m.srank && x.msg.part == m.part && x.msg.rowEtd == bits (m.arg 0).toNat 0 48 &&
        modOf x.msg.dest == s.modid && localOf x.msg.dest != localOf m.dest && homeOf (s.redirect (x.msg.arg 0).toNat) == localOf m.dest))
/-- CLOSE_NOTICE (spec 13 R343, R357). -/
def execCloseNotice (s : State) : Out :=
  match s.net s.occ.a with
  | none => .next s
  | some nm =>
    let m := nm.msg
    if s.partsAhead m then .next (s.later .closeNotice m.no)
    else
    let home := localOf m.dest
    let etd := bits (m.arg 0).toNat 0 48
    let t : BitVec 20 := (m.arg 2).truncate 20
    let w : BitVec 24 := (m.arg 3).truncate 24
    match s.table home etd m with
    | (s, .wait) => .next (s.later .closeNotice m.no)
    | _ =>
    let s := s.delNet m.no
    let (s, res) := s.closeAt home m etd t w
    -- while the redirect entry of a page of the table stands, the notice goes on to the page's new home too
    let mine (h : Nat) : Option TabEntry := (s.home h).tabs.find? fun e => e.part == m.part && e.etd == etd
    let news := ((s.moving.filter fun x => x.stage != 0 && x.part == m.part && homeOf x.oldFrame == home &&
      (mine home).any fun e => Etd.hasPage e.desc x.page).map fun x => homeOf x.newFrame).eraseDups.filter fun h => h != home && (mine h).isSome
    let s := news.foldl (fun s h => (s.closeAt h m etd t w).1) s
    let tag : BitVec 32 := (m.arg 1).extractLsb' 32 32
    .next (s.sendNow home { resumeMsg m.srank tag stOK m.prio m.part m.scope (arg4 (BitVec.ofNat 64 res.code) 0 0 0) with
      dest := modOf m.srank ++ m.srclr, noord := true, hw := true, cls := 1 })

/-! ### Rows (spec 13 R345 to R354) -/

/-- A message of a row is handled: it leaves the network, and no home puts it off any more. -/
def State.msgDone (s : State) (m : Msg) : State :=
  ({ s with homes := s.homes.map fun x => (x.1, { x.2 with waits := x.2.waits.filter (· != m.no) }) } : State).delNet m.no
/-- Put a changed message back. -/
def State.setMsg (s : State) (m : Msg) : State :=
  { s with fab := { s.fab with msgs := s.fab.msgs.map fun x => if x.msg.no = m.no then { x with msg := m } else x } }
/-- A contribution has parked at its home (spec 13 R354). -/
def State.contribParked (s : State) (no : Nat) : Bool := s.reqs.any fun x => x.2.bmsg == some no && x.2.kind == .aacc && x.2.phase == .parked
/-- A message of a row that came before it is put off at the home: one behind it waits (spec 13 R351, R353). A parked contribution holds none but the
parts behind it in its stream. -/
def State.mustWait (s : State) (home : Nat) (m : Msg) : Bool :=
  ((s.home home).waits.takeWhile (· != m.no)).any fun n => match s.net n with
    | some x => s.redirect x.msg.pa == m.pa && (!s.contribParked n || (m.addr == 0x208 && streamKey x.msg == streamKey m))
    | none => false
/-- The home puts a message of a row off: it keeps its place among those put off, and comes up again. -/
def State.defer (s : State) (home : Nat) (m : Msg) : State :=
  let s := if (s.home home).waits.contains m.no then s else s.onHome home fun h => { h with waits := h.waits ++ [m.no] }
  s.later m.rowEvent m.no
/-- A message of a row that must wait is put off, and one of a locked row queues behind the lock (spec 13 R353); none when it is taken up. -/
def State.heldUp (s : State) (home : Nat) (m : Msg) : Option State :=
  if s.mustWait home m then some (s.defer home m)
  else if s.rowLocked home m.pa then
    some ((s.onHome home fun h => { h with waits := h.waits.filter (· != m.no) }).queueAtLock home m.pa [m.no])
  else none
/-- A row request at its home on this module. -/
def State.rowHere (s : State) (m : Msg) : State :=
  let home := homeOf m.pa
  match s.heldUp home m with
  | some s => s
  | none =>
    match s.rowAtHome home m with
    | .done s => s.msgDone m
    | .wait s => s.defer home m
    | .full =>
      if m.tries < 64 then (s.setMsg { m with tries := m.tries + 1 }).defer home m
      else (s.rowFail home m ⟨0x17, 0x03, BitVec.ofNat 64 (s.rowVaOf m)⟩).msgDone m
/-- What a request takes that a unit passes on to a home in another hedge (spec 13 R356; 15 R398). -/
def passUses (unit home : Nat) : List PortUse := if unit / 8 = home / 8 then [] else [⟨0, routerOf unit, flitCount 32⟩]
/-- A row request whose row's place is known: behind the others of a page that moves, or passed on to its home, once the torus grants it. -/
def State.rowPlaced (s : State) (m : Msg) (pa : Nat) : State :=
  match s.movingAt pa with
  | some x => s.queueMoving x .rowRequest m.no
  | none =>
    let pa := s.redirect pa
    let us := passUses (localOf m.dest) (homeOf pa)
    if s.usesOpen m.part m.scope m.cls.toNat us = false then s.later .rowRequest m.no
    else
      let m := { m with pa := pa, dest := s.rankOf (homeOf pa) }
      ((s.charge m.part m.scope m.cls.toNat us).setMsg m).rowHere m
/-- ROW_REQUEST (spec 13 R346, R347). -/
def execRowRequest (s : State) : Out :=
  match s.net s.occ.a with
  | none => .next s
  | some nm =>
    let m := nm.msg
    let unit := localOf m.dest
    let va := (m.arg 0).toNat
    if m.rowBits = false then
      .next ((s.sendNow unit { resumeMsg m.srank m.replyTag stBadop m.prio m.part m.scope (arg4 0 0 0 0) with noord := true }).msgDone m)
    else if va % 32 ≠ 0 then .next ((s.rowFail unit m ⟨0x04, 0, m.arg 0⟩).msgDone m)
    else if m.rowPhys then .next (s.rowPlaced m va)
    else if va < 0x50000 ∨ va / 2 ^ 42 = 1 then .next ((s.rowFail unit m (pageTrap 0x02 va)).msgDone m)
    else match s.xlate m.part va with
    | (s, .error t) => .next ((s.rowFail unit m t).msgDone m)
    | (s, .ok e) =>
      match regionCheck (s.region m.part va) m.actor .row with
      | some sub => .next ((s.rowFail unit m (regionTrap sub va)).msgDone m)
      | none =>
        if e.mod ≠ s.modid then
          let m' := { m with dest := e.mod ++ BitVec.ofNat 12 (homeOf (e.pa va)), pa := e.pa va
                             args := arg4 (BitVec.ofNat 64 (e.pa va)) (m.arg 1 ||| 0x800000) (m.arg 2) (m.arg 3) }
          .next ((s.forward m').msgDone m)
        else .next (s.rowPlaced m (e.pa va))
/-- A contribution is discarded at a home that has no table entry for it: counted, and logged under its row's virtual page (spec 13 R342). -/
def State.rowDiscard (s : State) (home : Nat) (m : Msg) : State :=
  (((s.dropMsg home { m with counted := true }).logError m.part 0x24 m.pa ((m.arg 3).toNat / 65536)).rowDone m).msgDone m
/-- The parts of a row that have come, up to this one. -/
def Staged.of (x : Staged) (m : Msg) : Bool := x.stream == streamKey m && x.pa == m.pa
def State.partsOf (s : State) (home : Nat) (m : Msg) : List (List Byte) :=
  (((s.home home).staged.find? fun x => x.of m).map fun x => x.parts).getD [] ++ [m.payload]
/-- The last part of a row accumulate applies the row; with it the message is done. -/
def State.lastPart_ (s : State) (home : Nat) (e : TabEntry) (m : Msg) : RowPut :=
  let d : Etd := e.desc
  let t : FTy := if (m.arg 1).getLsbD 0 then (if d.ty = .f64 then .f64 else .f32) else d.ty
  match s.rowApply home e m m.pa (readParts t (s.partsOf home m)) with
  | .done s => .done ((s.onHome home fun h => { h with staged := h.staged.filter fun x => !x.of m }).msgDone m)
  | r => r
/-- A contribution that must park takes one of the 256 park entries of its home; with none free it is tried again, 64 times at most, and is then discarded
(spec 07 R192; 13 R342, R354; log entry 133). -/
def State.parkPart (s : State) (home : Nat) (e : TabEntry) (m : Msg) : State :=
  let h := s.home home
  if 256 ≤ h.parks.length + h.rowParks.length then
    if m.tries < 64 then (s.setMsg { m with tries := m.tries + 1 }).defer home m
    else ((s.onHome home fun h => { h with staged := h.staged.filter fun x => !x.of m }).rowDiscard home m)
  else
    let va := (m.arg 3).toNat
    let at_ := match s.region m.part va with | some (i, r) => i * 64 + r.st * 8 + r.banked.toNat * 4 | none => 64 * 64 + 3 * 8
    let (n, s) := s.fresh
    let r : Req := { no := n, core := home, ctx := 15, part := m.part, rank := m.actor, scope := m.scope, kind := .aacc, va := va, len := Etd.len e.desc,
                     pieces := [{ va := va, len := Etd.len e.desc, mod := s.modid, pa := m.pa, attr := at_ }], bmsg := some m.no, phase := .parked }
    (s.setReq r).onHome home fun h => { h with parks := h.parks ++ [n], waits := if h.waits.contains m.no then h.waits else h.waits ++ [m.no] }
/-- A part of a row accumulate at its home: staged behind the others of its stream and row; the last applies the row (spec 13 R351, R352). -/
def State.stagePart (s : State) (home : Nat) (e : TabEntry) (m : Msg) : State :=
  if (m.payload.getD 3 0).getLsbD 1 then
    match s.lastPart_ home e m with
    | .done s => s
    | .locks => s.defer home m
    | .park => s.parkPart home e m
  else (s.onHome home fun h => { h with staged := (h.staged.filter fun x => !x.of m) ++ [{ stream := streamKey m, pa := m.pa, parts := s.partsOf home m }] }).msgDone m
/-- Parked STVs and contributions are evaluated under a new floor in the order they parked; after an STV the LDVs of its granule are (spec 07 R191; 13
R354). -/
def retryParks (s : State) (home : Nat) (floor : BitVec 20) : List Nat → State
  | [] => s
  | no :: rest =>
    let gone (s : State) : State := s.onHome home fun h => { h with parks := h.parks.filter (· != no) }
    match s.req no with
    | none => retryParks s home floor rest
    | some r =>
      if r.kind = .aacc then
        match r.bmsg.bind s.net with
        | none => retryParks (gone (s.delReq no)) home floor rest
        | some nm => match s.table home nm.msg.rowEtd nm.msg with
          | (s, .ok e) => (match s.lastPart_ home e nm.msg with
            | .done s' => retryParks (gone (s'.delReq no)) home floor rest
            | .locks => retryParks s home floor rest
            | .park => retryParks s home floor rest)
          | (s, .full) => retryParks s home floor rest
          | (s, .bad _) => retryParks s home floor rest
          | (s, .wait) => retryParks s home floor rest
      else
        let s := s.setReq { r with floor := floor }
        match s.tryReq no with
        | none => retryParks s home floor rest
        | some s' => retryParks ((gone s').stampChanged ((r.pieces[r.performed]?.map fun p => p.pa / 64).getD 0)) home floor rest
/-- What parks for a floor at a home: STVs and contributions of a partition's region entry. -/
def State.floorParks (s : State) (home part region : Nat) : List Nat :=
  (s.home home).parks.filter fun no => match s.req no with
    | some r => (r.kind == .stv || r.kind == .aacc) && r.part == part && (match r.pieces[r.performed]? with | some p => p.region == region | none => false)
    | none => false
/-- RECLAIM_FLOOR_NOTICE: a home and slice takes the new floor and evaluates what parks under it (spec 07 R191, R193; 13 R354). -/
def execReclaimFloorNotice (s : State) : Out :=
  let o := s.occ
  let f : BitVec 20 := o.v.truncate 20
  let old := s.floorAt o.c o.a o.b
  let new := if safter f old then f else old
  let s := s.onHome o.c fun h => { h with floors := tset h.floors (o.a * 64 + o.b) new }
  let s := retryParks s o.c new (s.floorParks o.c o.a o.b)
  let key := o.v.toNat / 2 ^ 20
  let core := key / 17
  let k := key % 17
  match (s.ctx core k).hold with
  | .reclaim n =>
    let s := s.onCtx core k fun c => { c with hold := .reclaim (n - 1) }
    .next (if n ≤ 1 then s.due .reclaimComplete core k else s)
  | _ => .next s
/-- ROW_ACCUMULATE_PART (spec 13 R342, R351 to R354). -/
def execRowAccumulatePart (s : State) : Out :=
  match s.net s.occ.a with
  | none => .next s
  | some nm =>
    match s.movingAt (nm.msg.arg 0).toNat with
    | some x => .next (s.queueMoving x .rowAccumulatePart nm.msg.no)
    | none =>
      let m := { nm.msg with pa := s.redirect (nm.msg.arg 0).toNat }
      let home := homeOf m.pa
      let s := s.setMsg m
      match s.heldUp home m with
      | some s => .next s
      | none =>
        match s.table home m.rowEtd m with
        | (s, .bad _) => .next (s.rowDiscard home m)
        | (s, .wait) => .next (s.defer home m)
        | (s, .full) => .next (if m.tries < 64 then (s.setMsg { m with tries := m.tries + 1 }).defer home m else s.rowDiscard home m)
        | (s, .ok e) => .next (s.stagePart home e m)
/-- FLUSH_DEMAND: the line of the row that the home demands leaves, and no other (spec 13 R348). -/
def execFlushDemand (s : State) : Out :=
  match s.net s.occ.a with
  | none => .next s
  | some nm =>
    let m := nm.msg
    let core := localOf m.dest
    let row := (m.arg 0).toNat
    -- a physical address names the frame where the row stands now, which a line keyed to a frame it has left does too (spec 12 R335)
    let isIt (x : UpdLine) : Bool := if m.rowPhys then x.pa == row || (x.mod == s.modid && s.redirect x.pa == s.redirect row) else x.rowVa == row
    match (s.home core).upd.find? fun x => x.etd == m.rowEtd && x.part == m.part && x.mod == modOf m.srank && isIt x with
    | none => .next (s.msgDone m)
    | some l => .next ((s.flushLine core (s.rankOf core) l).msgDone m)
/-- A landing writes its row into tile memory, with its poison marks. -/
def State.land (s : State) (core sp : Nat) (m : Msg) : Option State :=
  (s.pinPages core sp m.landing m.payload.length).map fun s =>
    let s := s.tileWr core sp m.landing m.payload
    m.poisoned.foldl (fun s u => s.poisonUnits (tilePa core sp (m.landing + 32 * u)) 32) s
/-- A slot of a walk has landed, or its request has failed, which fails the walk (spec 09 R256; 13 R347). -/
def State.slotLanded (s : State) (core : Nat) (o : Op) (landing : Nat) (bad : Option (Nat × Trap)) : State :=
  let d : Etd := (s.core core).iw.desc
  let sl := (landing - o.dbuf) / d.len
  let s := match bad with
    | some (r, t) => if (s.core core).iw.failed.isSome then s else s.failWalk core r t
    | none => s
  let gone (x : Instr × Occ) : Bool := x.1 == .linkwaitExpiry && x.2.a == core && x.2.b == 17 && x.2.c == o.no % 2 ^ 32 * 2 ^ 18 + landing
  let s := { s with timers := s.timers.filter fun x => !gone x }
  (s.onCore core fun c => { c with iw := { c.iw with pending := c.iw.pending.filter (· != sl) } }).due .iwLineRun core
/-- The walk that a core runs, if its number has the tag of a request. -/
def State.walkTagged (s : State) (core tag : Nat) : Option Op :=
  match (s.core core).iw.run with
  | some n => if n % 2 ^ 32 = tag then s.op n else none
  | none => none
/-- ROW_LANDING: a landing names its tile address in arg0; arg3 says whether it is of a walk's request, and its tag (spec 09 R256; 13 R346, R347; log
entry 26). -/
def execRowLanding (s : State) : Out :=
  match s.net s.occ.a with
  | none => .next s
  | some nm =>
    let m0 := nm.msg
    let core := localOf m0.dest
    let m := { m0 with args := arg4 0 0 0 (BitVec.ofNat 64 (bits (m0.arg 0).toNat 0 18 * 2 ^ 32)) }
    if s.scopeDead m.part m.scope then .next ((s.dropDead core m0).msgDone m)
    else match (s.core core).run with
    | .switchingOut | .out | .switchingIn => .next (s.later .rowLanding m.no)
    | .inn | .resetting | .gated | .ungating =>
      let s0 := s.received core m0
      let walk := if m0.hw && (m0.arg 3).getLsbD 32 then s.walkTagged core ((m0.arg 3).toNat % 2 ^ 32) else none
      let space : Option Nat := match walk with | some o => some o.space | none => s.spaceFor core m.part m.scope
      let sealed_ (sp : Nat) : Bool := (List.range m.payload.length).any fun i => s.sealedAt core sp (m.landing + i)
      match walk, space with
      | _, none => .next ((s.dropMsg core m0).msgDone m)
      | some o, some sp =>
        if sealed_ sp then .next ((s0.msgDone m).slotLanded core o m.landing (some (rsnSealed, ⟨0x14, 0, BitVec.ofNat 64 m.landing⟩)))
        else (match s0.land core sp m with
          | none => .next (s.later .rowLanding m.no)
          | some s => .next ((s.msgDone m).slotLanded core o m.landing none))
      | none, some sp =>
        if sealed_ sp then .next ((s.dropMsg core m0).msgDone m)
        else (match s0.land core sp m with
          | none => .next (s.later .rowLanding m.no)
          | some s => .next (s.msgDone m))

/-! ### Built-in memory operations (spec 07 R210, R211) -/

/-- Refuse a built-in with BADOP, when it asks for a reply; else it is dropped and counted (spec 02 R56). -/
def State.badop (s : State) (m : Msg) : State :=
  let unit := localOf m.dest
  let mem := decide (m.addr.toNat < 0x300)
  if mem && (m.arg 1).getLsbD 22 then (s.dropMsg unit { m with counted := true }).delNet m.no
  else (s.sendNow unit { resumeMsg m.srank ((m.arg 1).extractLsb' 32 32) stBadop m.prio m.part m.scope (arg4 0 0 0 0) with noord := true }).delNet m.no
/-- BUILTIN_BADOP (spec 02 R56). -/
def execBuiltinBadop (s : State) : Out :=
  match s.net s.occ.a with
  | none => .next s
  | some nm => .next (s.badop nm.msg)
/-- A built-in memory operation of n bytes: its checks in the order of R180, then its request; align demands natural alignment (spec 07 R210). A
request of another module's hardware has been checked there: it names a byte of memory, a byte of a core's tile memory, or, above 2^48, a virtual
address that is translated here (log entry 26). -/
def builtinOp (s : State) (kind : AKind) (n : Nat) (align : Bool) (mk : Msg → Req → Req) : Out :=
  match s.net s.occ.a with
  | none => .next s
  | some nm =>
    let m := nm.msg
    let home := localOf m.dest
    let a := (m.arg 0).toNat
    let phys := (m.arg 1).getLsbD 23
    let win := a / 2 ^ 42 == 1
    let va := if !phys || win then a else if 2 ^ 48 ≤ a then a - 2 ^ 48 else (s.vaOf m.part a).getD a
    let no := s.nextNo
    let r : Req := mk m { no := no, core := home, ctx := m.sctx, part := m.part, rank := m.actor, scope := m.scope, kind := kind, va := va, len := n,
                          pieces := piecesOf (n / 64 + 2) va n, bmsg := some m.no, phase := .home,
                          wkind := if phys then bits (m.arg 1).toNat 28 3 else 0, unit := modOf m.srank ++ m.srclr, bad := phys && !m.poisoned.isEmpty }
    let s1 := ({ s with nextNo := no + 1 } : State).setReq r
    let fail (t : Trap) : Out := .next (s1.builtinReply r (some t))
    if phys then
      if win then .next ((s1.setReq { r with phase := .translate, pieces := [{ va := va, len := n }] }).due .remoteTileAccess no)
      else if 2 ^ 48 ≤ a then go s1 r fail
      else
        let st := match s.region m.part va with | some (i, x) => i * 64 + x.st * 8 + x.banked.toNat * 4 | none => 64 * 64 + 3 * 8
        .next ((s1.setReq { r with pieces := [{ va := va, len := n, mod := s.modid, pa := a, attr := st }] }).due .homeAccess no)
    else if align && va % n != 0 then fail ⟨0x04, 0, m.arg 0⟩
    else match firstOff n fun i => decide (va + i < 0x50000) || decide (2 ^ 48 ≤ va + i) || (va + i) / 2 ^ 42 == 1 with
    | some i => fail (pageTrap 0x02 (va + i))
    | none =>
      match kind with
      | .ldv => if 2 ^ 19 ≤ sdist r.lo r.hi then fail ⟨0x17, 0x01, m.arg 0⟩ else go s1 r fail
      | _ => go s1 r fail
where
  go (s : State) (r : Req) (fail : Trap → Out) : Out :=
    match xlNow r 4 s with
    | (_, .trap t) => fail t
    | (_, .walk va) => fail (pageTrap 0x06 va)
    | (s, .ok ps) =>
      let fl := (ps.head?.map fun p => s.floorAt (xlSlice (s.part r.part) r.va) r.part p.region).getD 0
      let r := { r with pieces := ps, accepted := true, floor := fl }
      .next ((s.setReq r).toHome r)
/-- The length of a built-in load or store: 1, 2, 4 or 8; hardware's own requests may carry any below 9 (log entry 26). -/
def Msg.blen (m : Msg) : Option Nat :=
  let n := bits (m.arg 1).toNat 0 4
  if n = 1 ∨ n = 2 ∨ n = 4 ∨ n = 8 ∨ ((m.arg 1).getLsbD 23 = true ∧ 1 ≤ n ∧ n ≤ 8) then some n else none
/-- A built-in load or store of the length its message gives. -/
def builtinSized (s : State) (kind : AKind) (mk : Msg → Nat → Req → Req) : Out :=
  match s.net s.occ.a with
  | none => .next s
  | some nm => match nm.msg.blen with
    | none => .next (s.badop nm.msg)
    | some n => builtinOp s kind n false fun m r => mk m n r
/-- A built-in atomic of an operation: 4 or 8 bytes, or the one size of a floating-point add. -/
def builtinAtom (s : State) (op : Nat) : Out :=
  match s.net s.occ.a with
  | none => .next s
  | some nm =>
    let dbl := (nm.msg.arg 1).getLsbD 6
    let n := if dbl then 8 else 4
    if (op = 8 ∧ dbl = true) ∨ (op = 9 ∧ dbl = false) then .next (s.badop nm.msg)
    -- bit 27 of hardware's own request marks the saturating add of a poison log (spec 13 R355; log entry 26)
    else builtinOp s (.atom (if (nm.msg.arg 1).getLsbD 23 && (nm.msg.arg 1).getLsbD 27 then 10 else op)) n true fun m r => { r with data := leBytes n ((m.arg 2).toNat % 2 ^ (8 * n)), cmp := leBytes n ((m.arg 3).toNat % 2 ^ (8 * n)) }

/-- BUILTIN_LOAD (spec 07 R211). -/
def execBuiltinLoad (s : State) : Out := builtinSized s .load fun _ _ r => r
/-- BUILTIN_LOAD_NC (spec 07 R211). -/
def execBuiltinLoadNc (s : State) : Out := builtinSized s .loadNc fun _ _ r => r
/-- BUILTIN_STORE (spec 07 R211). -/
def execBuiltinStore (s : State) : Out := builtinSized s .store fun m n r => { r with data := leBytes n ((m.arg 2).toNat % 2 ^ (8 * n)) }
/-- Bytes of a built-in load or store with a payload: 32; hardware's own requests name their length (log entry 26). -/
def Msg.payLen (m : Msg) : Nat := if (m.arg 1).getLsbD 23 && bits (m.arg 1).toNat 15 7 != 0 then bits (m.arg 1).toNat 15 7 else 32
/-- BUILTIN_LOAD32 (spec 07 R211). -/
def execBuiltinLoad32 (s : State) : Out :=
  match s.net s.occ.a with
  | none => .next s
  | some nm => builtinOp s .load nm.msg.payLen false fun _ r => r
/-- BUILTIN_STORE32 (spec 07 R211): it carries a one-unit payload. -/
def execBuiltinStore32 (s : State) : Out :=
  match s.net s.occ.a with
  | none => .next s
  | some nm =>
    let n := nm.msg.payLen
    if nm.msg.payload.length ≠ (n + 31) / 32 * 32 then .next (s.badop nm.msg)
    else builtinOp s .store n false fun m r => { r with data := m.payload.take n }
/-- BUILTIN_LDV (spec 07 R190, R211). -/
def execBuiltinLdv (s : State) : Out :=
  builtinOp s .ldv 8 true fun m r => { r with lo := (m.arg 2).truncate 20, hi := (m.arg 2).extractLsb' 20 20 }
/-- BUILTIN_STV (spec 07 R191, R211). -/
def execBuiltinStv (s : State) : Out := builtinOp s .stv 8 true fun m r => { r with lo := (m.arg 2).truncate 20, data := leBytes 8 (m.arg 3).toNat }
/-- BUILTIN_ATOM_ADD (spec 07 R194, R211). -/
def execBuiltinAtomAdd (s : State) : Out := builtinAtom s 0
/-- BUILTIN_ATOM_AND (spec 07 R194, R211). -/
def execBuiltinAtomAnd (s : State) : Out := builtinAtom s 1
/-- BUILTIN_ATOM_OR (spec 07 R194, R211). -/
def execBuiltinAtomOr (s : State) : Out := builtinAtom s 2
/-- BUILTIN_ATOM_XOR (spec 07 R194, R211). -/
def execBuiltinAtomXor (s : State) : Out := builtinAtom s 3
/-- BUILTIN_ATOM_SMIN (spec 07 R194, R211). -/
def execBuiltinAtomSmin (s : State) : Out := builtinAtom s 4
/-- BUILTIN_ATOM_SMAX (spec 07 R194, R211). -/
def execBuiltinAtomSmax (s : State) : Out := builtinAtom s 5
/-- BUILTIN_ATOM_SWAP (spec 07 R194, R211). -/
def execBuiltinAtomSwap (s : State) : Out := builtinAtom s 6
/-- BUILTIN_ATOM_CAS (spec 07 R194, R211). -/
def execBuiltinAtomCas (s : State) : Out := builtinAtom s 7
/-- BUILTIN_ATOM_FADD_F32 (spec 07 R194, R211). -/
def execBuiltinAtomFaddF32 (s : State) : Out := builtinAtom s 8
/-- BUILTIN_ATOM_FADD_F64 (spec 07 R194, R211). -/
def execBuiltinAtomFaddF64 (s : State) : Out := builtinAtom s 9

/-! ### Poison, link waits and row words (spec 06 R177; 08 R219; 11 R315; 12 R336, R337; 17 R443, R445) -/

/-- Payload units of a message on its way are poisoned. -/
def State.poisonMsg (s : State) (no : Nat) (units : List Nat) : State :=
  match s.net no with
  | some nm =>
    let us := units.filter fun i => decide (32 * i < nm.msg.payload.length)
    if nm.ph = .flying then s.setNet { nm with msg := { nm.msg with poisoned := nm.msg.poisoned ++ us.filter fun i => !nm.msg.poisoned.contains i } } else s
  | none => s
/-- POISON_ERROR: an uncorrectable error poisons the granule or tile line of an address, logged once for its partition; b = 1: a single-bit error, which ECC
corrects. The SMC counts both (spec 12 R336, R337; 18 R481). b = 2: unit c of message a is damaged on the crossbar, the bridge or a Bramble port; 3: the data
of flit c of message a is damaged: its poison mask, or the flit's POISON bit, marks it (spec 17 R428; 18 R464). -/
def execPoisonError (s : State) : Out :=
  let a := s.occ.a
  if s.occ.b = 2 then .next (s.poisonMsg a [s.occ.c])
  else if s.occ.b = 3 then
    let hit (x : Flit) : Bool := x.kind == .data && x.msg == a && x.idx == s.occ.c
    let s1 := if s.fab.flits.any hit then s.poisonMsg a ((List.range 16).filter fun i => decide (48 + 32 * i < 24 * s.occ.c + 24 ∧ 24 * s.occ.c < 48 + 32 * i + 32)) else s
    .next { s1 with fab := { s1.fab with flits := s1.fab.flits.map fun x => if hit x then { x with poison := true } else x } }
  else
  let s := { s with smc := { s.smc with errors := s.smc.errors + 1 } }
  .next (if s.occ.b = 1 ∨ s.poison.contains (a / 64) then s else ({ s with poison := insertNat s.poison (a / 64) } : State).notePoison a)
/-- A posted access stays unconfirmed: it is entered once in the lost-write log, messages that wait at their interface for it end LINKERR, and a fence
of its context that waits for nothing else completes (spec 08 R219; 11 R305, R315; 17 R440, R445). The number of the entry it made is returned, 0 when
an earlier one stands. -/
def State.storeLost (s : State) (r : Req) : Nat × State :=
  if r.lostSeq ≠ 0 then (0, s)
  else
    let mod := ((r.pieces[r.performed]?).map fun p => p.mod).getD 0
    let (seq, s) := s.logLost r.part 1 0 r.va r.len r.ctx mod r.rank
    let s := (s.setReq { r with phase := .finished, lostSeq := seq }).err r.part r.scope r.core 0x10
    let hit := s.fab.msgs.filter fun x => x.msg.waits.contains r.no && x.ph == .atSender
    (seq, (hit.foldl (fun s x => s.linkErr r.core x.msg) s).checkFence r.core r.ctx)
/-- Log the uncovered stores of a fence; the first number it wrote. -/
def loseAll (s : State) : List Nat → Nat → State × Nat
  | [], q => (s, q)
  | no :: rest, q =>
    match s.req no with
    | none => loseAll s rest q
    | some r =>
      let (n, s) := s.storeLost r
      loseAll s rest (if q = 0 then n else q)
/-- A request to another module that is made for no context: of an engine operation, or of a built-in that came as a message. It waits at most LINKWAIT
(spec 17 R443). -/
def State.askExpired (s : State) (no : Nat) : Option State :=
  match s.req no with
  | none => none
  | some r =>
    if (r.eng.isSome || r.bmsg.isSome) && r.phase == .home && ((r.pieces[r.performed]?).any fun p => p.mod != s.modid) then
      some (s.answer r (some ⟨0x16, 0x03, BitVec.ofNat 64 r.va⟩))
    else none
/-- A walk has waited LINKWAIT for a row that another module was to send: its slot is still empty, and the walk fails (spec 17 R443). -/
def State.rowExpired (s : State) (core tag landing : Nat) : State :=
  match s.walkTagged core tag with
  | none => s
  | some o =>
    let d : Etd := (s.core core).iw.desc
    if (s.core core).iw.pending.contains ((landing - o.dbuf) / d.len) then s.slotLanded core o landing (some (rsnLink, ⟨0, 0, 0⟩)) else s
/-- A dispatch in EXCHANGE ends when the links to its peers on other modules have stayed down for LINKWAIT: that none of the ports has been up stands for it
(spec 14 R365; 17 R443; log entry 4). -/
def State.exchangeExpired (s : State) (n : Nat) : State :=
  match s.op n with
  | none => s
  | some o =>
    if (s.dc o.tdeUnit o.tdeCtx).run ≠ some n ∨ (s.dc o.tdeUnit o.tdeCtx).phase ≠ 2 then s
    else if (List.range 8).any fun i => (s.port i).st == .up then s.later .linkwaitExpiry o.tdeUnit 18 n
    else s.abortDispatch n .failed rsnLink ⟨0, 0, 0⟩ false false
/-- LINKWAIT_EXPIRY: an agent that waits for another module completes with its link failure outcome (spec 07 R196, R202, R209; 14 R365; 17 R443). c is the
number of the access or close; b = 17: a walk's row, 18: a dispatch. -/
def execLinkwaitExpiry (s : State) : Out :=
  let core := s.occ.a
  let k := s.occ.b
  let c := s.ctx core k
  if k = 17 then .next (s.rowExpired core (s.occ.c / 2 ^ 18) (s.occ.c % 2 ^ 18))
  else if k = 18 then .next (s.exchangeExpired s.occ.c)
  else match s.askExpired s.occ.c with
  | some s => .next s
  | none =>
  match c.hold with
  | .access no =>
    match s.req no with
    | none => .next s
    | some r => match r.pieces[r.performed]? with
      | none => .next s
      | some p =>
        if no ≠ s.occ.c ∨ r.phase ≠ .home ∨ p.mod = s.modid then .next s
        else .next (s.answer r (some ⟨0x16, 0x03, BitVec.ofNat 64 r.va⟩))
  | .fence kind sys rd lo hi =>
    let un := s.uncovered core k sys lo hi
    let near := un.filter fun no => match s.req no with | some r => (r.pieces.drop r.performed).any fun p => p.mod == s.modid | none => false
    if !sys || un.isEmpty then .next s
    else if s.replyWaits core k || !near.isEmpty then .next (s.later .linkwaitExpiry core k)
    else
      let (s, q) := loseAll s un 0
      .next (s.finishFence core k kind sys rd lo hi (s.fenceStatus core k lo hi q))
  | .close rd no homes nhome stale =>
    let away := homes.filter fun h => modOf h != s.modid
    let left := homes.filter fun h => modOf h == s.modid
    if no ≠ s.occ.c ∨ away = [] then .next s
    else
      let s := s.setCtx core k { c with hold := .close rd no left (nhome + away.length) stale }
      .next (if left.isEmpty then s.due .closeComplete core k else s)
  | _ => .next s
/-- RELORD_RELEASE: a message that waited for stores is injected (spec 08 R219). -/
def execRelordRelease (s : State) : Out :=
  match s.net s.occ.a with
  | none => .next s
  | some nm => .next (if nm.msg.waits.isEmpty then s.pump (s.streamOf nm.msg) else s)

end Sys2Proof.Machine
end

