-- ==== Sys2Proof/Machine/Arrive.lean ====
section
/-! DEFINITION. Messages at their destination: the checks of a receiving interface, order within a stream, the outbound ring of a host queue, ACK,
NACK, retry and SKIP, and the start of handlers and threads (spec 01 R32 to R34, R39, R40; 02 R49 to R64, R68 to R70; 15 R394; 16 R417, R420 to R425;
17 R431 to R433, R449). -/

namespace Sys2Proof.Machine

/-! ### Dead work -/

/-- The scope is one whose prune has reached this unit, or is DEAD or FREE: a message that carries it is dead work here (spec 01 R41; 02 R64; 08
R239; log entry 46). -/
def State.deadAt (s : State) (unit part : Nat) (scope : BitVec 16) : Bool :=
  (s.pruneAt part scope unit).isSome || (match (s.scope part scope).st with | .dead | .free => true | .live | .dying => false)
/-- A built-in that is no built-in memory operation, of software or a walk: dead work where its scope is (spec 08 R239). -/
def Msg.mayDie (m : Msg) : Bool := m.addr == 0x200 || (decide (0x200 ≤ m.addr.toNat) && !m.byUnit && !m.hw)
/-- A built-in that arrives as dead work. -/
def State.deadBuiltin (s : State) (unit : Nat) (m : Msg) : Bool :=
  m.mayDie && s.deadAt unit m.part m.scope && (s.scope m.part m.scope).st != .free
/-- The thread rank a context message carries, if one is valid (spec 02 R69). -/
def Msg.threadRank (m : Msg) : Option (BitVec 24) :=
  let v := leNat ((m.payload.drop 0x5C).take 4)
  if m.kind = .context ∧ v.testBit 31 = true then some (BitVec.ofNat 24 v) else none
/-- The rank of a moving thread is released when its context message is lost (spec 02 R68). -/
def State.releaseMoving (s : State) (m : Msg) : State :=
  match m.threadRank with
  | some r => { s with fab := { s.fab with ranks := tdel s.fab.ranks (localOf r) } }
  | none => s
/-- A message is dropped as dead work; a moving thread's rank is released (spec 02 R68, R80). -/
def State.dropMoving (s : State) (unit : Nat) (m : Msg) : State := (s.dropDead unit m).releaseMoving m

/-! ### Host queues (spec 17 R449) -/

/-- Entries of the outbound ring. -/
def Vf.ringSize (f : Vf) : Nat := 2 ^ (f.octl.toNat % 16 + 6)
/-- The 64 bytes of an entry: header and arguments, the time (free, log entry 4), TRUNC, and the phase. -/
def ringEntry (m : Msg) (t : Word) (phase : Nat) : List Byte :=
  leBytes 8 m.w0 ++ leBytes 8 m.w1 ++ (m.args.toList.flatMap fun a => leBytes 8 a.val.toNat) ++ leBytes 8 t.toNat ++
    leBytes 4 (!m.payload.isEmpty || !m.code.isEmpty).toNat ++ leBytes 4 (phase * 2 ^ 31)
/-- A host queue takes a message as an entry of its outbound ring, and raises vector 0 unless moderation holds it back; none when it must NACK. -/
def State.hostTake (s : State) (part : Nat) (m : Msg) : Option State :=
  let fn := vfOf part
  let f := s.vf fn
  if f.octl.getLsbD 63 = false ∨ f.ringSize ≤ f.ohead - f.otail then none
  else
    let (t, s) := s.drawFree
    let at_ := f.obase.toNat / 4096 * 4096 + 64 * (f.ohead % f.ringSize)
    let s := { s with fab := { s.fab with hostOut := s.fab.hostOut ++ [(fn, at_, ringEntry m t ((f.ohead / f.ringSize + (Config.ringPhase fn).toNat) % 2))] } }
    let f := { f with ohead := f.ohead + 1 }
    if f.octl.toNat / 256 % 256 = 0 then some ((s.setVf fn f).raiseVec fn 0)
    else if f.moder = [] then some (((s.setVf fn { f with moder := [0] }).raiseVec fn 0).later .moderationExpiry fn)
    else some (s.setVf fn { f with moder := [0, 0] })

/-! ### Answers to hardware (spec 07 R186, R196, R209; 17 R445) -/

/-- The bytes that an answer brings for a part: of a whole line, those of the part (spec 12 R324). -/
def Req.answered (r : Req) (p : Piece) (m : Msg) : List Byte :=
  if r.kind.writes && !(match r.kind with | .atom _ => true | _ => false) then []
  else if m.payload.isEmpty then leBytes p.len (m.arg 0).toNat
  else if r.kind = .load ∧ r.eng = none ∧ m.payload.length = 64 then (m.payload.drop (p.va % 64)).take p.len
  else m.payload.take p.len
/-- The fill of a line takes the bytes that come with an answer. -/
def State.fillFrom (s : State) (r : Req) (p : Piece) (m : Msg) : State :=
  if s.wantsLine r p && m.payload.length == 64 then
    (s.onCore r.core fun c => { c with
      fills := c.fills.map fun f => if f.no = r.no ∧ f.line = p.va / 64 then { f with bytes := some m.payload } else f }).due .l1FillReply r.no
  else s
/-- The answer to a request of this module's hardware: of a close notice, or of a walk's row request that fails; or of a request to another module: the
next part, the trap, or CONFIRMED for a store entered as lost (log entry 26). -/
def State.hwAnswer (s : State) (core : Nat) (m : Msg) : State :=
  let tag := m.addr.toNat
  let t : Trap := ⟨(m.arg 0).truncate 8, (m.arg 0).extractLsb' 8 8, m.arg 1⟩
  if m.cls = 1 then s.closeAnswer core tag m.srank (m.arg 0).toNat
  else match s.reqs.find? fun x => x.1 % 2 ^ 32 == tag && x.2.core == core with
  | none => match s.walkTagged core tag with
    | some o => s.slotLanded core o (m.arg 2).toNat (some (rsnFault, t))
    | none => s
  | some (_, r) =>
    if r.lostSeq ≠ 0 then
      let mod := ((r.pieces[r.performed]?).map fun p => p.mod).getD 0
      let s := ((s.logLost r.part 2 r.lostSeq r.va r.len r.ctx mod r.rank).2).delReq r.no
      -- it has its CONFIRMED entry: a TACK of its packets makes none
      { s with fab := { s.fab with peers := s.fab.peers.map fun x => (x.1, { x.2 with lost := x.2.lost.filter fun y => y.req != r.no }) } }
    else if r.phase ≠ .home then s
    else match r.pieces[r.performed]? with
    | none => s
    | some p =>
      if m.ilen = stFailed then s.answer r (some { t with tval := BitVec.ofNat 64 (p.va + (t.tval.toNat - p.pa)) })
      else if m.ilen ≠ stOK then s.answer r (some ⟨0x16, 0x03, BitVec.ofNat 64 r.va⟩)
      else if r.eng.isSome then s.answer { r with result := r.answered p m, bad := !m.poisoned.isEmpty } none
      else (s.fillFrom r p m).partDone r (r.answered p m)

/-! ### What a receiving interface does with a message whose turn it is -/

/-- It is accepted, dropped or returned, and the order of its stream moves on; or it is NACKed. -/
inductive Taken where
  | ok (s : State)
  | nack (s : State)

/-- The event of a built-in at an LC (spec 02 R56; 07 R211; 08 R232, R237; 13 R345; 15 R388 to R396; 16 R415). -/
def builtinEvent (m : Msg) : Instr :=
  let hard := m.hw || m.byUnit
  match m.addr.toNat with
  | 0x000 => .builtinLoad | 0x004 => .builtinLoadNc | 0x008 => .builtinStore | 0x00C => .builtinLoad32 | 0x010 => .builtinStore32
  | 0x014 => .builtinLdv | 0x018 => .builtinStv
  | 0x100 => .builtinAtomAdd | 0x104 => .builtinAtomAnd | 0x108 => .builtinAtomOr | 0x10C => .builtinAtomXor | 0x110 => .builtinAtomSmin
  | 0x114 => .builtinAtomSmax | 0x118 => .builtinAtomSwap | 0x11C => .builtinAtomCas | 0x120 => .builtinAtomFaddF32 | 0x124 => .builtinAtomFaddF64
  | 0x200 => .rowRequest
  | 0x208 => if hard then .rowAccumulatePart else .builtinBadop
  | 0x20C => if hard then .closeNotice else .builtinBadop
  | 0x210 => if hard then .flushDemand else .builtinBadop
  | 0x218 => if hard then .rowLanding else .builtinBadop
  | 0x300 => .childArrival | 0x304 => .barrierRelease | 0x308 => .brokenNotice
  | 0x310 => .resumeBuiltin | 0x314 => .switchOut | 0x318 => .switchIn | 0x31C => .attention
  | 0x320 => .launchFanout | 0x324 => .waveRequest | 0x328 => .waveReport | 0x32C => .launchRelease
  | 0x330 => .killNotice | 0x340 => .tileSpaceGrant
  | _ => .builtinBadop
/-- The message is taken in and its operation follows as an event of its own: it counts as received when it has been performed (spec 15 R391). -/
def State.takeBuiltin (s : State) (nm : NetMsg) (ev : Instr) : State :=
  let m := nm.msg
  (s.setNet { nm with ph := .arrived, msg := { m with counted := true, owed := countsRank m.dest && !m.counted } }).due ev m.no
/-- A message whose PART is not that of its destination is dropped and logged to the SMC; no reply is sent (spec 17 R433). -/
def State.wrongPart (s : State) (unit : Nat) (m : Msg) : State := ((s.log [0x33, unit, m.part, m.w0, m.w1]).received unit m).delNet m.no
/-- A fan-out that a core has taken in and not performed: its spawn is presented before every other of its launch (spec 15 R401). -/
def State.fanoutWaits (s : State) (core part launch : Nat) : Bool :=
  s.fab.msgs.any fun x => x.ph == .arrived && x.msg.kind == .builtin && x.msg.addr == 0x320 && localOf x.msg.dest == core && x.msg.part == part &&
    s.launchOf part x.msg.scope == some launch
/-- A context message or spawn that a core cannot take goes back (spec 02 R55). -/
def State.sendBack (s : State) (unit : Nat) (nm : NetMsg) (st : BitVec 8) : State := (s.delNet nm.msg.no).returnMsg unit nm.msg st
/-- A halted context wakes (spec 09 R268). -/
def State.wakeHalted (s : State) (core k : Nat) : State :=
  if (s.ctx core k).hold = .halted then s.onCtx core k fun c => { c with hold := .none } else s
/-- A resume at its core: the lowest WAITING context that matches takes it, or it waits in its lane (spec 02 R64). Context 14 wakes from halt (spec
09 R268). -/
def State.takeResume (s : State) (core : Nat) (nm : NetMsg) : State :=
  let m : Msg := { nm.msg with counted := true }
  let s := (s.received core nm.msg).delNet m.no
  match (List.range 16).find? fun k => (s.ctx core k).st == .waiting && (s.ctx core k).takes m with
  | some k => s.wake core k m
  | none =>
    let (n, s) := s.fresh
    (s.onCore core fun c => { c with mailbox := c.mailbox ++ [{ m with came := n }] }).wakeHalted core 14
/-- A spawn or context message waits in the mailbox for a context; a thread that has arrived completes its move (spec 02 R60, R70). -/
def State.takeStart (s : State) (core : Nat) (nm : NetMsg) : State :=
  let (n, s) := s.fresh
  let m : Msg := { nm.msg with came := n }
  let s := (s.delNet m.no).onCore core fun c => { c with mailbox := c.mailbox ++ [m] }
  let s := match m.threadRank with
    | some r => s.due .migrateComplete m.no r.toNat core
    | none => s
  s.due .handlerStart core
/-- A message to a lookup core, in the order of the checks: its partition, its header, the scope's state, the core's state, the tile space of its
launch, and room (spec 01 R34; 02 R49, R55; 15 R396; 16 R417, R424, R425; 17 R433). -/
def State.coreTake (s : State) (core : Nat) (nm : NetMsg) : Taken :=
  let m := nm.msg
  let run := (s.core core).run
  if s.partOf core ≠ some m.part then .ok (s.wrongPart core m)
  else if m.malformed then .ok (s.sendBack core nm stMalformed)
  else match m.kind with
  | .builtin =>
    if s.deadBuiltin core m then .ok ((s.delNet m.no).dropDead core m)
    else if m.addr = 0x320 ∧ run = .ungating then .nack s
    else if m.addr = 0x320 ∧ (run = .switchingOut ∨ run = .out ∨ run = .switchingIn) then .nack s
    else if m.addr = 0x310 ∧ (run = .switchingOut ∨ run = .out ∨ run = .switchingIn) then .nack s
    else
      let s := s.takeBuiltin nm (builtinEvent m)
      .ok (if m.asksSystem then s.wakeHalted core 15 else s)
  | .resume =>
    if m.hw then .ok ((((s.received core m).delNet m.no)).hwAnswer core m)
    else if s.deadAt core m.part m.scope then .ok ((s.delNet m.no).dropDead core m)
    else match run with
    | .switchingOut | .out | .switchingIn => .nack s
    | .resetting | .gated | .ungating => .ok ((s.delNet m.no).dropMsg core m)
    | .inn => if s.hasRoom core m then .ok (s.takeResume core nm) else .nack s
  | .spawn | .context =>
    if s.deadAt core m.part m.scope then .ok ((s.delNet m.no).dropMoving core m)
    else match run with
    | .switchingOut | .out | .switchingIn => .nack s
    | .resetting | .gated | .ungating => .ok (s.sendBack core nm stUndeliverable)
    | .inn =>
      if (s.launchOf m.part m.scope).any (fun l => s.fanoutWaits core m.part l) then .nack s
      else match s.launchOf m.part m.scope, s.spaceFor core m.part m.scope with
      | some l, none =>
        let root := ((tget s.launches l).map fun x => x.scope).getD 0
        let c := s.core core
        if c.refused.contains root then .ok ((s.sendBack core nm stUndeliverable).err m.part root core 0x40)
        else if c.spaceReqs.contains root then .nack s
        else
          let s := s.onCore core fun c => { c with spaceReqs := c.spaceReqs ++ [root] }
          .nack (s.sendNow core { builtinMsg (s.rankOf 876) 0x33C 3 m.part m.scope
            (arg4 (m.scope.zeroExtend 64) ((s.rankOf core).zeroExtend 64) 0 0) with cls := 6 })
      | _, _ => if s.hasRoom core m then .ok (s.takeStart core nm) else .nack s
/-- A TDE context takes a peer's counts: idle and holding none of another ROUND, or running a dispatch of that ROUND that has not completed the pass
(spec 14 R365). -/
def State.tdeTakes (s : State) (u : Nat) (m : Msg) : Bool :=
  let round : BitVec 32 := (m.arg 0).truncate 32
  let t := (tget s.tdes u).getD {}
  let c := (tget t.ctxs (bits (m.arg 0).toNat 52 4)).getD {}
  match c.run with
  | none => c.heldRound.isNone || c.heldRound == some round
  | some n => match s.op n with
    | some o => o.engine == .dispatch && leNat ((o.block.drop 48).take 4) == round.toNat && decide (c.pass ≤ bits (m.arg 0).toNat 32 2)
    | none => false
/-- A message to a unit's rank (spec 01 R494; 15 R382; 17 R449). -/
def State.unitTake (s : State) (u : Nat) (nm : NetMsg) : Taken :=
  let m := nm.msg
  let ev (i : Instr) : Taken := .ok (s.takeBuiltin nm i)
  let bad : Taken := ev .builtinBadop
  if 877 ≤ u then
    -- the answer to a broken slot goes out whatever its scope (spec 17 R449)
    let own := m.kind == .resume && m.srank == m.dest && m.ilen == stMalformed
    if m.part ≠ u - 877 ∨ (own = false ∧ s.deadAt u m.part m.scope = true) then .ok ((s.delNet m.no).dropMsg u m)
    else if m.malformed then .ok (s.sendBack u nm stMalformed)
    else match s.hostTake (u - 877) m with
    | some s => .ok ((s.received u m).delNet m.no)
    | none => .nack s
  else if u < 864 ∧ s.partOf ((u - 768) * 8) ≠ some m.part then .ok (s.wrongPart u m)
  else if m.malformed then .ok (s.sendBack u nm stMalformed)
  else match m.kind with
  | .resume => .ok (if m.hw then ((s.received u m).delNet m.no).hwAnswer u m else (s.delNet m.no).dropMsg u m)
  | .context => .ok (s.sendBack u nm stUndeliverable)
  | .spawn =>
    if u ≠ 876 then .ok (s.sendBack u nm stUndeliverable)
    else if s.deadAt u m.part m.scope then .ok ((s.delNet m.no).dropDead u m)
    else if m.addr ≠ 0x400 ∨ m.plen ≠ 8 then .ok (s.sendBack u nm stBadop)
    else if 16 ≤ (s.part m.part).launchQ.length then .nack s
    else ev .launchSubmission
  | .builtin =>
    let tde := decide (864 ≤ u ∧ u < 872)
    if s.deadBuiltin u m then .ok ((s.delNet m.no).dropDead u m)
    else if tde && decide (864 ≤ localOf m.srank ∧ localOf m.srank < 872) then
      if (m.arg 1).getLsbD 20 then ev .tdeAbort else if s.tdeTakes u m then ev .exchangeCounts else .nack s
    else match m.addr.toNat with
    | 0x330 => ev .killNotice
    | 0x334 => if u = 874 ∨ u = 875 then ev .pruneAcknowledgement else bad
    | 0x338 => if u = 874 ∨ u = 875 then ev .resetReport else bad
    | 0x328 => if u = 876 then ev .waveReport else bad
    | 0x33C => if u = 876 then ev .tileSpaceRequest else bad
    | _ => bad
/-- A message to a thread rank: a resume goes to the core that holds the rank, one that is passed on behind a thread to the core it goes to. Any other
message is returned; of a built-in, R68 says that it is returned UNDELIVERABLE and R55 that none is ever returned: it is dropped and counted (log
entry 113, DESIGN CHOICE). -/
def State.threadTake (s : State) (nm : NetMsg) : Taken :=
  let m := nm.msg
  match s.holder m.dest with
  | none => .ok (s.sendBack m.source nm stUndeliverable)
  | some (holder, moving) =>
    match m.via with
    | some (_, core) => s.coreTake core nm
    | none =>
      if s.partOf holder ≠ some m.part then .ok (s.wrongPart holder m)
      else if moving then .nack s
      else if m.kind ≠ .resume then .ok (s.sendBack holder nm (if m.malformed then stMalformed else stUndeliverable))
      else s.coreTake holder nm
/-- A message whose turn it is, at its destination (spec 01 R39, R40; 02 R68). -/
def State.takeMsg (s : State) (nm : NetMsg) : Taken :=
  let m := nm.msg
  let d := localOf m.dest
  if 1024 ≤ d then s.threadTake nm
  else if 885 ≤ d then .ok (s.sendBack m.source nm stUndeliverable)
  else if 768 ≤ d then s.unitTake d nm
  else s.coreTake d nm

/-! ### Order within a stream (spec 17 R431, R432) -/

/-- The router of the interface at which a stream ends: one of a hedge. -/
def State.streamHedge (s : State) (k : Nat) : Nat :=
  let d : BitVec 24 := BitVec.ofNat 24 k
  routerOf (if localOf d < 1024 then localOf d else ((s.holder d).map fun x => x.1).getD 0)
/-- Messages held in the reorder buffer of a hedge. -/
def State.reorderUsed (s : State) (h : Nat) : Nat :=
  ((s.fab.streams.filter fun x => s.streamHedge x.1 == h).map fun x => x.2.held.length).foldl (· + ·) 0
/-- The expected ORD moves past skipped ones. -/
def passSkips : Nat → Stream → Stream
  | 0, x => x
  | n + 1, x => if x.skips.contains x.expect then passSkips n { x with expect := (x.expect + 1) % 256, skips := x.skips.filter (· != x.expect) } else x
/-- The message whose turn it is among the held ones is handled next. -/
def State.nextHeld (s : State) (k : Nat) : State :=
  let x := passSkips 256 (s.stream k)
  match x.held.find? fun h => h.1 == x.expect with
  | some (o, no) => (s.setStream k { x with held := x.held.filter fun h => h.1 != o }).due .messageArrival no
  | none => s.setStream k x
/-- The stream moves past the message that was expected. -/
def State.advance (s : State) (k : Nat) : State :=
  let x := s.stream k
  (s.setStream k { x with expect := (x.expect + 1) % 256 }).nextHeld k
/-- A message is refused: its sender keeps it for a retry. One from another module is kept by the interface that took it from the fabric (log entry
37). -/
def State.refuse (s : State) (no : Nat) : State := match s.net no with | some nm => s.answerFlit nm false | none => s
/-- MESSAGE_ARRIVAL: a complete message at its destination, in its turn (spec 02 R53; 17 R432). -/
def execMessageArrival (s : State) : Out :=
  match s.net s.occ.a with
  | none => .next s
  | some nm =>
    let no := nm.msg.no
    let k := nm.stream
    if nm.ph ≠ .flying then .next s
    else if nm.msg.noord then
      match s.takeMsg nm with
      | .ok s => .next (s.answerFlit nm true)
      | .nack s => .next (s.refuse no)
    else
      let x := s.stream k
      if nm.ord = x.expect then
        match s.takeMsg nm with
        | .ok s => .next ((s.advance k).answerFlit nm true)
        | .nack s =>
          let x := s.stream k
          let rest := (List.range 255).filterMap fun i => (x.held.find? fun h => h.1 == (x.expect + 1 + i) % 256).map fun h => h.2
          .next (((no :: rest).foldl State.refuse (s.setStream k { x with held := [] })))
      else if x.held.any fun h => h.1 == nm.ord then .next s
      else if s.reorderUsed (s.streamHedge k) < 64 then .next (s.setStream k { x with held := x.held ++ [(nm.ord, no)] })
      else .next (s.refuse no)
/-- ACK_FLIT_ARRIVAL: the sender's retry entry is free, and the stream may send on (spec 17 R431, R432). c is 1 for a message outside the order. -/
def execAckFlitArrival (s : State) : Out :=
  let k := s.occ.b
  let s1 := match s.net s.occ.a with
    | some nm => if nm.ph = .arrived then s.setNet { nm with ph := .done } else s
    | none => s
  if s.occ.c = 1 then .next s1
  else
    let x := s1.stream k
    .next ((s1.setStream k { x with unacked := x.unacked - 1 }).pump k)
/-- A message whose retries have no end: a trap report, which keeps its order, and an answer to an outstanding access (spec 16 R412, R417). -/
def Msg.unbounded (m : Msg) : Bool :=
  m.kind == .resume && (m.hw || (m.cls == 6 && m.sctx == 16 && m.prio == 3 && !m.noord && decide (localOf m.srank < 768)))
/-- A message leaves its retry buffer unaccepted: its ORD is skipped, and it is returned or dropped (spec 02 R55; 16 R420; 17 R432). -/
def State.giveUp (s : State) (nm : NetMsg) (st : BitVec 8) : State :=
  let s := (s.skipOrd nm).delNet nm.msg.no
  -- a fan-out that does not arrive sets UNDELIV (spec 15 R390)
  let s := if nm.msg.kind = .builtin ∧ nm.msg.addr = 0x320 then s.err nm.msg.part nm.msg.scope 876 0x40 else s
  let s := s.returnMsg nm.msg.source nm.msg st
  if nm.msg.noord then s
  else
    let x := s.stream nm.stream
    (s.setStream nm.stream { x with unacked := x.unacked - 1 }).pump nm.stream
/-- A message that its interface still holds, or holds for a retry, leaves the network: its ORD is skipped, and its stream sends on. -/
def State.takeOut (s : State) (nm : NetMsg) : State :=
  let s := (s.skipOrd nm).delNet nm.msg.no
  if nm.ph = .retry ∧ nm.msg.noord = false then
    let x := s.stream nm.stream
    (s.setStream nm.stream { x with unacked := x.unacked - 1 }).pump nm.stream
  else s
/-- NACK_FLIT_ARRIVAL: the sender keeps the message for retry, or returns it after the 64th (spec 16 R412, R420). -/
def execNackFlitArrival (s : State) : Out :=
  match s.net s.occ.a with
  | none => .next s
  | some nm =>
    let n := nm.msg.tries + 1
    let nm := { nm with ph := .retry, msg := { nm.msg with tries := n } }
    if 64 < n ∧ nm.msg.unbounded = false then .next (s.giveUp nm stUndeliverable)
    else
      let s := if n % 64 = 0 ∧ nm.msg.unbounded = true then s.log [0x12, nm.msg.w0, nm.msg.w1, n] else s
      .next ((s.setNet nm).later .nackRetry nm.msg.no)
/-- A message under retry goes out again under the ORD it has. -/
def State.resend (s : State) (nm : NetMsg) : State :=
  if s.foreign nm.msg then ((s.charge nm.msg.part nm.msg.scope nm.msg.cls.toNat (s.msgUses nm.msg)).setNet { nm with ph := .flying }).due .messageArrival nm.msg.no
  else s.transport nm
/-- Messages under retry go out in order, until the ports of one do not grant it (spec 15 R400). -/
def resendAll (s : State) : List NetMsg → State
  | [] => s
  | nm :: r => if s.msgOpen nm.msg = false then s.later .nackRetry nm.msg.no else resendAll (s.resend nm) r
/-- A message of a stream under retry, put among others in the order of their ORDs from the expected one on. -/
def insertOrd (e : Nat) (x : NetMsg) : List NetMsg → List NetMsg
  | [] => [x]
  | y :: r => if (x.ord + 256 - e) % 256 < (y.ord + 256 - e) % 256 then x :: y :: r else y :: insertOrd e x r
/-- NACK_RETRY: the first message of a stream under retry goes out again, and behind it the others in the order of their ORDs (spec 16 R420, R421; 17
R432). -/
def execNackRetry (s : State) : Out :=
  match s.net s.occ.a with
  | none => .next s
  | some nm =>
    if nm.ph ≠ .retry then .next s
    else if nm.msg.noord then .next (resendAll s [nm])
    else
      let k := nm.stream
      let l := (s.fab.msgs.filter fun x => x.ph == .retry && !x.msg.noord && x.stream == k).foldl (fun l x => insertOrd (s.stream k).expect x l) []
      .next (if (l.head?.map fun x => x.msg.no) = some nm.msg.no then resendAll s l else s)
/-- SKIP_FLIT_ARRIVAL: the expected ORD moves over a message that will never arrive, now or when it becomes next (spec 17 R432). a = stream,
b = ord. -/
def execSkipFlitArrival (s : State) : Out :=
  let k := s.occ.a
  let x := s.stream k
  .next ((s.setStream k { x with skips := x.skips ++ [s.occ.b] }).nextHeld k)
/-- SIDEBAND_RESEND: a message that has met no ACK or NACK is sent again with the same ORD; one that has been handled is not (spec 18 R464). -/
def execSidebandResend (s : State) : Out :=
  match s.net s.occ.a with
  | none => .next s
  | some nm =>
    if nm.ph ≠ .flying ∨ nm.got = nm.flits then .next s
    else if s.msgOpen nm.msg = false then .next (s.later .sidebandResend nm.msg.no)
    else .next (({ s with fab := { s.fab with flits := s.fab.flits.filter fun f => f.msg != nm.msg.no || f.kind != .data } } : State).transport nm)
/-- A resume for a thread rank. -/
def Msg.forThread (m : Msg) (r : BitVec 24) : Bool := m.kind == .resume && m.dest == r
/-- MIGRATE_COMPLETE: once the resumes passed on behind a thread have come, its rank table entry names its new core and the in-transit flag clears. Those
that wait at another core, of a thread that came back to where it was, are passed on first (spec 02 R55, R70). b = rank, c = core. -/
def execMigrateComplete (s : State) : Out :=
  let o := s.occ
  let r : BitVec 24 := BitVec.ofNat 24 o.b
  let away := s.cores.filter fun x => x.1 != o.c && (x.2.mailbox.any (Msg.forThread · r) || x.2.spilled.any fun y => y.1.forThread r)
  match s.holder r with
  | some (_, true) =>
    if (s.fab.msgs.any fun x => x.msg.via.isSome && x.msg.forThread r && x.ph != .done) || !away.isEmpty then
      .next ((away.foldl (fun s x => s.passResumes r x.1 o.c) s).later .migrateComplete o.a o.b o.c)
    else .next { s with fab := { s.fab with ranks := tset s.fab.ranks (localOf r) (o.c, false) } }
  | some (_, false) => .next s
  | none => .next s

/-! ### The torus (spec 17 R427 to R430) -/

/-- Neighbour of a router through a port: 0 east, 1 west, 2 and 3 the next and the previous row. -/
def neighbour (r port : Nat) : Nat :=
  let c := r / 8
  let y := r % 8
  match port with
  | 0 => 8 * ((c + 1) % 12) + y
  | 1 => 8 * ((c + 11) % 12) + y
  | 2 => 8 * c + (y + 1) % 8
  | _ => 8 * c + (y + 7) % 8
/-- Ports that shorten the distance to a router, the X direction first. -/
def productive (r dest : Nat) : List Nat :=
  let dx := (dest / 8 + 12 - r / 8) % 12
  let dy := (dest % 8 + 8 - r % 8) % 8
  (if dx ≠ 0 ∧ dx ≤ 6 then [0] else []) ++ (if 6 ≤ dx then [1] else []) ++ (if dy ≠ 0 ∧ dy ≤ 4 then [2] else []) ++ (if 4 ≤ dy then [3] else [])
/-- The rank of a flit: age, the golden router's source, then its source, slot, context and tag. -/
def State.flitRank (s : State) (f : Flit) : Nat :=
  ((((((255 - min f.age 255) * 2 + (if f.src = s.fab.golden then 0 else 1)) * 96 + f.src) * 8 + f.slot % 8) * 16 + f.ctx % 16) * 1024 + f.mtag % 1024) * 8 + f.idx % 8
def insertFlit (s : State) (f : Flit) : List Flit → List Flit
  | [] => [f]
  | g :: r => if s.flitRank f < s.flitRank g then f :: g :: r else g :: insertFlit s f r
/-- The reassembly buffer of a hedge can take a flit: an answer or a SKIP, or one of a message it holds, or of one of 64. -/
def State.canEject (s : State) (f : Flit) : Bool :=
  match (if f.kind = .data then s.net f.msg else none) with
  | none => true
  | some nm => decide (nm.got ≠ 0) ||
    decide ((s.fab.msgs.filter fun x => !x.crossbar && x.ph == .flying && x.got != 0 && decide (x.got < x.flits) && routerOf (s.place x.msg) == f.dest).length < 64)
/-- A flit leaves the torus: an answer reaches its sender, a SKIP its receiver, and the last flit of a message makes it complete, which is then among those that
arrive. -/
def State.eject (s : State) (f : Flit) (came : List NetMsg) : State × List NetMsg :=
  match f.kind with
  | .ack => (s.due .ackFlitArrival f.msg f.stream f.noord.toNat, came)
  | .nack => (s.due .nackFlitArrival f.msg, came)
  | .skip => (s.due .skipFlitArrival f.stream f.ord, came)
  | .data =>
    match s.net f.msg with
    | none => (s, came)
    | some nm =>
      let nm := { nm with got := nm.got + 1 }
      (s.setNet nm, if nm.got = nm.flits then came ++ [nm] else came)
/-- Step 2: up to two flits addressed here leave, in rank order; with the flits that stay, the messages that are now complete. -/
def ejectFlits (s : State) : Nat → List Flit → List Flit → List NetMsg → State × List Flit × List NetMsg
  | _, [], keep, came => (s, keep, came)
  | n, f :: r, keep, came =>
    if f.dest = f.at_ ∧ n < 2 ∧ s.canEject f = true then
      let (s, came) := s.eject f came
      ejectFlits s (n + 1) r keep came
    else ejectFlits s n r (keep ++ [f]) came
/-- Messages complete in one cycle in ascending order of their sender's local rank, then of its context (spec 02 R80). -/
def insertCame (x : NetMsg) : List NetMsg → List NetMsg
  | [] => [x]
  | y :: r => if x.msg.source * 32 + x.msg.sctx < y.msg.source * 32 + y.msg.sctx then x :: y :: r else y :: insertCame x r
/-- A free productive port of a flit. -/
def Flit.way (f : Flit) (ports : List Nat) : Option Nat := (productive f.at_ f.dest).find? fun p => ports.contains p
/-- Step 3: in rank order each flit takes a free productive port; the flits with their ports, those without one, and the ports left. -/
def routeFlits (ports : List Nat) : List Flit → List (Flit × Nat) × List Flit × List Nat
  | [] => ([], [], ports)
  | f :: r =>
    match f.way ports with
    | some p =>
      let (l, rest, left) := routeFlits (ports.filter (· != p)) r
      ((f, p) :: l, rest, left)
    | none =>
      let (l, rest, left) := routeFlits ports r
      (l, f :: rest, left)
/-- A flit moves through a port. -/
def Flit.move (f : Flit) (p : Nat) : Flit :=
  { f with at_ := neighbour f.at_ p, port := p, age := min 255 (f.age + 1) }
/-- The flits that arrive at a router in a cycle: one through each port, and no more than it has links; the others are still on their links. -/
def arriving (links : Nat) (here : List Flit) : List Flit :=
  ((List.range 4).filterMap fun p => here.find? fun f => f.port == p).take links
/-- FLIT_ARRIVAL: a cycle of a router (spec 17 R429, R430). a = router. -/
def execFlitArrival (s : State) : Out :=
  let r := s.occ.a
  let here := s.fab.flits.filter fun f => f.at_ == r
  if here.isEmpty then .next s
  else
    let up := (List.range 4).filter fun p => !s.fab.links.contains (r, p)
    let own := here.filter fun f => f.port == 4
    let come := arriving up.length here
    let later := here.filter fun f => f.port != 4 && !come.contains f
    let s := { s with fab := { s.fab with flits := s.fab.flits.filter fun f => f.at_ != r } }
    -- flits of this router's own interfaces reach one another through its port to them
    let (s, keep, came) := ejectFlits s 0 ((come ++ own.filter fun f => f.dest == r).foldl (fun l f => insertFlit s f l) []) [] []
    let s := (came.foldl (fun l x => insertCame x l) []).foldl (fun s x => s.due .messageArrival x.msg.no) s
    let waits := (own.filter fun f => f.dest != r) ++ keep.filter fun f => f.port == 4
    -- steps 3 and 4: productive ports for all, then any port for the others
    let (fit, rest, left) := routeFlits up (keep.filter fun f => f.port != 4)
    let moved := fit ++ rest.zip left
    let left := left.drop rest.length
    let quiet := (tget s.fab.starving r).getD 0
    let inj := waits.find? fun f => f.dest != r
    let ok := inj.isSome && !left.isEmpty && quiet == 0
    let (moved, waits) : List (Flit × Nat) × List Flit := match inj with
      | some f => if ok then (moved ++ [(f, (f.way left).getD (left.headD 0))], waits.erase f) else (moved, waits)
      | none => (moved, waits)
    let hungry := if ok || inj.isNone then 0 else (tget s.fab.hungry r).getD 0 + 1
    let s := { s with fab := { s.fab with flits := s.fab.flits ++ (moved.map fun x => x.1.move x.2) ++ later ++ waits,
                                          hungry := if hungry = 64 then tdel s.fab.hungry r else if hungry = 0 then tdel s.fab.hungry r else tset s.fab.hungry r hungry,
                                          starving := if quiet ≤ 1 then tdel s.fab.starving r else tset s.fab.starving r (quiet - 1) } }
    let s := if hungry = 64 then s.due .starveSignal r else s
    let s := (moved.map fun x => neighbour r x.2).eraseDups.foldl (fun s n => s.due .flitArrival n) s
    .next (if later.isEmpty && waits.isEmpty then s else s.due .flitArrival r)
/-- STARVE_SIGNAL: every router of the row and column injects nothing for 8 cycles (spec 17 R430). a = router. -/
def execStarveSignal (s : State) : Out :=
  let r := s.occ.a
  let hit := (List.range 96).filter fun x => x / 8 == r / 8 || x % 8 == r % 8
  .next { s with fab := { s.fab with starving := hit.foldl (fun t x => tset t x 8) s.fab.starving } }
/-- GOLDEN_EPOCH: the golden router moves on (spec 17 R429). -/
def execGoldenEpoch (s : State) : Out := .next { s with fab := { s.fab with golden := (s.fab.golden + 1) % 96 } }
/-- TORUS_LINK_FAIL: a link leaves the routing tables in both directions; no flit is lost (spec 17 R430). a = router, b = port. -/
def execTorusLinkFail (s : State) : Out :=
  let r := s.occ.a
  let p := s.occ.b % 4
  let back := (neighbour r p, if p % 2 = 0 then p + 1 else p - 1)
  .next { s with fab := { s.fab with links := s.fab.links ++ ([(r, p), back].filter fun x => !s.fab.links.contains x) } }

/-! ### Handlers and threads start (spec 01 R32, R33; 02 R60, R61, R63; 15 R394) -/

/-- The defaults of a tile space of a core (spec 15 R395). -/
def State.defaults (s : State) (core sp : Nat) : Defaults :=
  if sp < 8 then ((tget (s.core core).spaces sp).map fun x => x.dflt).getD {} else (s.part (s.partNo core)).sysDflt
/-- A context starts a spawn or context message. -/
def State.startMsg (s : State) (core k : Nat) (m : Msg) : State :=
  let sp := (s.spaceFor core m.part m.scope).getD 8
  let d := s.defaults core sp
  let old := (s.ctx core k).ctl
  let id := m.id
  let ctl : Ctl := { old with
    shape := d.shape, fpctl := d.fpctl, linkwait := d.linkwait, wpaddr := d.wpaddr, wpmask := d.wpmask, fpst := 0
    lfsr := lfsrStore (d.seed ^^^ BitVec.ofNat 32 k ^^^ id), base := m.scope, cur := m.scope, rtag := 0, tmid := id, ie := true, reld := false
    inhnd := true, kpend := false, ipend := (s.core core).attention }
  let base : Ctx := { st := .ready, ctl := ctl, space := sp, prio := m.prio,
                      lock := if (s.lockHome m.no).isSome then some m.no else none }
  let s := s.received core m
  match m.kind with
  | .context =>
    let p (o n : Nat) : Nat := leNat ((m.payload.drop o).take n)
    let tags := p 0x5A 2
    let r := m.threadRank
    s.setCtx core k { base with
      g := Vector.ofFn fun i => if i.val < 10 then ⟨BitVec.ofNat 64 (p (8 * i.val) 8), tags.testBit i.val⟩ else {}
      preds := BitVec.ofNat 16 (p 0x58 2) ||| 1, pc := m.addr, npc := m.addr, trank := r
      ctl := { ctl with base := BitVec.ofNat 16 (p 0x52 2), cur := BitVec.ofNat 16 (p 0x50 2), rtag := BitVec.ofNat 32 (p 0x54 4), inhnd := false } }
  | .spawn | .resume | .builtin =>
    let pc : BitVec 32 := if m.inl then BitVec.ofNat 32 inlineBase else m.addr
    let a (i : Fin 4) : GReg := m.args[i.val]
    s.setCtx core k { base with
      g := #v[a 0, a 1, a 2, a 3, ⟨m.srank.zeroExtend 64, false⟩, ⟨BitVec.ofNat 64 (m.plen.toNat * 32 + m.ilen.toNat * 4 * 2 ^ 16), false⟩,
              ⟨id.zeroExtend 64, false⟩, ⟨m.addr.zeroExtend 64, false⟩, {}, {}, {}, {}, {}, {}, {}, {}]
      pc := pc, npc := pc, held := some { m with counted := true }, trank := m.bind, ctl := { ctl with inhnd := m.bind.isNone } }
/-- The head of a lane: its first eligible spawn or context message (spec 15 R394). -/
def State.head (s : State) (core l : Nat) : Option Msg :=
  (s.core core).mailbox.find? fun m => m.prio.toNat == l && !m.heldBack && (m.kind == .spawn || m.kind == .context)
/-- Dead heads are dropped before the selection (spec 02 R60). -/
def State.dropHeads (s : State) (core : Nat) : State :=
  let dead := (s.core core).mailbox.filter fun m => (m.kind == .spawn || m.kind == .context) && s.deadAt core m.part m.scope
  let s := s.onCore core fun c => { c with mailbox := c.mailbox.filter fun m => !(dead.any fun d => d.no == m.no) }
  dead.foldl (fun s m => s.dropMoving core m) s
/-- The lane selection of R394: the lane, and the new SKIP counters. -/
def selectLane (heads : List Nat) (skip : Vector Nat 4) : Option (Nat × Vector Nat 4) :=
  let skip := Vector.ofFn fun (l : Fin 4) => if heads.contains l.val then skip[l.val] else 0
  match heads with
  | [] => none
  | _ =>
    let starved := heads.filter fun l => decide (64 ≤ skip.toList.getD l 0)
    let x := match starved with | l :: _ => l | [] => heads.foldl max 0
    some (x, Vector.ofFn fun (l : Fin 4) => if l.val = x then 0 else if heads.contains l.val ∧ l.val < x then skip[l.val] + 1 else skip[l.val])
/-- HANDLER_START: the lowest FREE context starts the head of the lane that is selected (spec 02 R60; 15 R394). a = core. -/
def execHandlerStart (s : State) : Out :=
  let core := s.occ.a
  if (s.core core).run ≠ .inn then .next s
  else
    let s := s.dropHeads core
    let free := (List.range 14).find? fun k => (s.ctx core k).st == .free
    let heads := (List.range 4).filter fun l => (s.head core l).isSome
    match free with
    | none => .next s
    | some k =>
      match selectLane heads (s.core core).skip with
      | none => .next (s.onCore core fun c => { c with skip := Vector.replicate 4 0 })
      | some (l, skip) =>
        match s.head core l with
        | none => .next s
        | some m =>
          let s := s.onCore core fun c => { c with skip := skip, mailbox := c.mailbox.filter fun x => x.no != m.no }
          .next ((s.startMsg core k m).due .handlerStart core)

end Sys2Proof.Machine
end

