-- ==== Sys2Proof/Machine/ContextEvents.lean ====
section
/-! DEFINITION. Events of contexts and cores: kills, preemption and restore, RESUME, attention, barriers between cores, reset and power gating of a
core (spec 01 R30; 08 R228 to R233, R237; 09 R267; 16 R404, R408, R413 to R419, R424, R425). -/

namespace Sys2Proof.Machine

/-! ### Replies, pauses and kills -/

/-- SCOPE_UNIT_REPLY: scnew or scstat takes its result (spec 08 R235, R236). a = core, b = context. -/
def execScopeUnitReply (s : State) : Out :=
  let core := s.occ.a
  let k := s.occ.b
  let c := s.ctx core k
  match c.hold with
  | .scopeUnit rd no =>
    match s.scopeReqs.find? fun q => q.no == no with
    | none => .next s
    | some q => match q.result with
      | none => .next s
      | some v =>
        if s.replyWaits core k then .next ((s.replyNack core k (s.occ.c + 1)).later .scopeUnitReply core k (s.occ.c + 1))
        else .next (({ s with scopeReqs := s.scopeReqs.filter fun x => x.no != no } : State).unblock core k (c.setG rd v))
  | _ => .next s
/-- PAUSE_EXPIRY (spec 09 R267). a = core, b = context. -/
def execPauseExpiry (s : State) : Out :=
  let c := s.ctx s.occ.a s.occ.b
  .next (if c.hold = .paused then s.setCtx s.occ.a s.occ.b { c with hold := .none } else s)
/-- KILL_TAKEN: a kill is taken at the boundary at which the context stands (spec 01 R30; 16 R409). a = core, b = context. -/
def execKillTaken (s : State) : Out :=
  let c := s.ctx s.occ.a s.occ.b
  .next (if c.st = .ready ∧ c.grp = [] then s.kill s.occ.a s.occ.b else s)

/-! ### Preemption (spec 16 R408, R416 to R419) -/

/-- KIND of an outstanding-access record. -/
def recordKind (s : State) : Hold → Nat
  | .access no => match s.req no with
    | none => 5
    | some r => match r.kind with
      | .load | .loadNc => 1
      | .ldv => 2
      | .atom _ => 3
      | .store | .stv | .aacc | .aaccL | .callat | .migrate => 5
  | .fence .. => 4
  | .none | .paused | .halted | .row .. => 0
  | .reclaim _ | .close .. | .scopeUnit .. | .tilePage _ => 5
/-- The outstanding-access record of a context that is blocked on the word at an address (spec 16 R408). -/
def outRecord (s : State) (c : Ctx) (word : Nat) : List Byte :=
  let (dest, no, va) : Nat × Nat × Nat := match c.hold with
    | .access no => match s.req no with
      | some r => ((match r.kind with
          | .load | .loadNc | .ldv | .atom _ => 128 + (if r.vec then 32 else 0) + r.dest.toNat
          | .store | .stv | .aacc | .aaccL | .callat | .migrate => 0), no, r.va)
      | none => (0, no, 0)
    | .fence _ true rd .. => (128 + rd.toNat, 0, 0)
    | .close rd no .. => (128 + rd.toNat, no, 0)
    | .scopeUnit rd no => (128 + rd.toNat, no, 0)
    | _ => (0, 0, 0)
  leBytes 1 (recordKind s c.hold) ++ leBytes 1 dest ++ leBytes 2 0 ++ leBytes 4 no ++ leBytes 8 va ++ leBytes 4 word ++ List.replicate 44 0
/-- The context is blocked on an access, with a record to be kept. -/
def Hold.blocked : Hold → Bool
  | .access _ | .fence .. | .reclaim _ | .close .. | .scopeUnit .. | .tilePage _ => true
  | .none | .row .. | .paused | .halted => false
/-- The context is held by its ROW word. -/
def Hold.isRow : Hold → Bool
  | .row .. => true
  | .none | .access _ | .fence .. | .reclaim _ | .close .. | .scopeUnit .. | .tilePage _ | .paused | .halted => false
/-- A context becomes SAVED: its frame with KIND 0x02, its record when it is blocked (spec 16 R408, R416). -/
def State.saveCtx (s : State) (core k : Nat) : State :=
  let c := s.ctx core k
  let fst := if c.st = .waiting then 2 else 1
  if c.hold.blocked && !c.grp.isEmpty then
    let fill := match c.hold with | .tilePage _ => true | _ => false
    let done : BitVec 4 := c.performed ||| c.doneMask ||| (if fill then 0 else 1#4 <<< c.slot)
    let start := c.pc - BitVec.ofNat 32 (4 * c.slot)
    let rec_ := outRecord s c c.pc.toNat
    let d := (Ctx.ticks (c.cyclesLeft false) c.commit).leaveGroup
    let d := { d with st := .saved, pc := start, npc := start, ctl := { d.ctl with tpc := start }, hold := if fill then .none else c.hold }
    let s := (s.setCtx core k d).writeFrame core k fst 2 done.toNat
    if fill then s else s.wrB (savePa core + 0x4000 + 0x40 * k) rec_
  else
    -- a context restored while blocked keeps its record and its suppressed slots
    let done := if c.grp = [] ∧ c.hold.blocked = true then c.doneMask.toNat else 0
    let d := { c with st := .saved, ctl := { c.ctl with tpc := c.pc }, hold := if c.hold.blocked then c.hold else .none }
    let s := (s.setCtx core k d).writeFrame core k fst 2 done
    let at_ := savePa core + 0x4000 + 0x40 * k
    if c.hold.blocked then s.wrB at_ (outRecord s c (s.rd (at_ + 0x10) 4)) else s
/-- The preemption control block (spec 16 R416). -/
def State.controlBlock (s : State) (core spilled st reason : Nat) : State :=
  s.wrB (tilePa core 8 0x3FC00) (leBytes 8 (savePa core) ++ leBytes 4 spilled ++ leBytes 4 st ++ leBytes 4 reason)
/-- The reply to a switch-out, switch-in or attention request. -/
def State.sysReply (s : State) (core : Nat) (m : Msg) (st : BitVec 8) (pay : List Byte) : State :=
  s.sendNow core { resumeMsg ((m.arg 1).truncate 24) ((m.arg 1).extractLsb' 32 32) st m.prio m.part m.scope (arg4 0 0 0 0) with
    payload := pay, noord := true, cls := 6 }
/-- Messages with the contexts that hold them, in the order in which they came. -/
def insertByArrival (x : Msg × Option Nat) : List (Msg × Option Nat) → List (Msg × Option Nat)
  | [] => [x]
  | y :: r => if x.1.came < y.1.came then x :: y :: r else y :: insertByArrival x r
def byArrival (l : List (Msg × Option Nat)) : List (Msg × Option Nat) := l.foldl (fun a x => insertByArrival x a) []
/-- Steps 3 to 5 of a switch-out, when every context has been switched out: messages spill, frames of tile pages are unpinned, the control block is
written, and the requesters are answered. -/
def State.switchOutEnd (s : State) (core : Nat) : State :=
  let gone := (List.range 14).all fun k => match (s.ctx core k).st with | .free | .stopped | .saved => true | .ready | .waiting => false
  if (s.core core).run ≠ .switchingOut ∨ gone = false then s
  else
    let c := s.core core
    let held := (List.range 14).filterMap fun k => ((s.ctx core k).held).map fun m => (m, some k)
    let all : List (Msg × Option Nat) := byArrival (held ++ c.mailbox.map fun m => (m, none))
    let s := s.wrB (core * 2 ^ 30 + 0x2FB00000) (all.zipIdx.flatMap fun x => spillBytes x.1.1 x.1.2 (x.2 + 1 == all.length))
    let reason := ((c.sysreq.getLast?).map fun q => q.arg.toNat % 2 ^ 32).getD 0
    let s := s.onCore core fun c => { c with run := .out, mailbox := [], spilled := all, sysreq := [],
                                             frames := c.frames.map fun f => if f.space < 8 then { f with pinned := false } else f }
    let s := s.controlBlock core all.length 2 reason
    c.sysreq.foldl (fun s q => s.sendNow core { resumeMsg q.rank q.tag stOK (BitVec.ofNat 2 q.kind) (s.partNo core) (BitVec.ofNat 16 (q.kind / 4)) (arg4 0 0 0 0) with noord := true, cls := 6 }) s
/-- CONTEXT_SWITCH_OUT: a context of a core that switches out is saved, when its state allows it now (spec 16 R416). a = core, b = context. -/
def execContextSwitchOut (s : State) : Out :=
  let core := s.occ.a
  let k := s.occ.b
  if (s.core core).run ≠ .switchingOut ∨ 14 ≤ k then .next s
  else
    let c := s.ctx core k
    let ready := c.grp.isEmpty && !c.hold.isRow && !c.hold.blocked
    let now : Bool := match c.st with
      | .waiting => true
      | .ready => c.hold.blocked || (c.ctl.ie && ready)
      | .free | .stopped | .saved => false
    -- a kill due at the boundary is taken before the switch-out (spec 16 R403)
    .next ((if c.st = .ready ∧ ready = true ∧ c.ctl.kpend = true then s.kill core k else if now then s.saveCtx core k else s).switchOutEnd core)
/-- The message of a built-in that a core performs has been dealt with. -/
def State.builtinDone (s : State) (m : Msg) : State := s.delNet m.no
/-- SWITCH_OUT: a core starts to switch out. The resident handler in context 15 has no other effect than these steps, and halts again (spec 16
R416; log entry 49). a = message. -/
def execSwitchOut (s : State) : Out :=
  match s.net s.occ.a with
  | none => .next s
  | some nm =>
    let m := nm.msg
    let core := localOf m.dest
    let q : SysReq := { kind := m.prio.toNat + 4 * m.scope.toNat, arg := m.arg 0, rank := (m.arg 1).truncate 24, tag := (m.arg 1).extractLsb' 32 32 }
    match (s.core core).run with
    | .out => .next ((s.builtinDone m).sysReply core m stOK [])
    | .switchingOut => .next ((s.builtinDone m).onCore core fun c => { c with sysreq := c.sysreq ++ [q] })
    | .switchingIn | .resetting | .gated | .ungating => .next (s.later .switchOut m.no)
    | .inn =>
      let s := (s.builtinDone m).onCore core fun c => { c with run := .switchingOut, sysreq := c.sysreq ++ [q] }
      let s := s.controlBlock core 0 1 ((m.arg 0).toNat % 2 ^ 32)
      let live := (List.range 14).filter fun k => (s.ctx core k).st != .free
      let s := live.foldl (fun s k => s.onCtx core k fun c => { c with ctl := { c.ctl with ipend := true } }) s
      .next (if live.isEmpty then s.due .contextSwitchOut core 0 else live.foldl (fun s k => s.due .contextSwitchOut core k) s)
/-- The mailbox is refilled from the spill buffer in its order, each message at a new place; one that a context holds is joined to it again, and the
extension of the context's frame names its new slot (spec 16 R418). -/
def State.refill (s : State) (core : Nat) : State :=
  (s.core core).spilled.foldl (fun (s : State) x =>
    let (n, s) := s.fresh
    let m : Msg := { x.1 with came := n }
    match x.2 with
    | none => s.onCore core fun c => { c with mailbox := c.mailbox ++ [m] }
    | some k =>
      if (s.ctx core k).held.isNone then s
      else (s.onCtx core k fun c => { c with held := c.held.map fun h => { h with came := n } }).wr (extPa core k + 0x290) 8 (128 + (Config.mailSlot n).toNat))
    (s.onCore core fun c => { c with mailbox := [], spilled := [] })
/-- SWITCH_IN: the interface enters SWITCHING IN; then the mailbox is refilled, SAVED contexts are restored, and the core is IN (spec 16 R404, R418).
a = message. -/
def execSwitchIn (s : State) : Out :=
  match s.net s.occ.a with
  | none => .next s
  | some nm =>
    let m := nm.msg
    let core := localOf m.dest
    match (s.core core).run with
    | .inn => .next ((s.builtinDone m).sysReply core m stOK [])
    | .switchingOut | .resetting | .ungating => .next (s.later .switchIn m.no)
    | .gated => .next ((s.builtinDone m).sysReply core m stOK [])
    | .out =>
      let s := (s.onCore core fun c => { c with run := .switchingIn }).setNet { nm with msg := { m with heldBack := true } }
      .next ((s.controlBlock core (s.core core).spilled.length 3 ((m.arg 0).toNat % 2 ^ 32)).later .switchIn m.no)
    | .switchingIn =>
      if m.heldBack = false then .next (s.later .switchIn m.no)
      else
      let s := ((s.builtinDone m).onCore core fun c => { c with run := .inn }).refill core
      let s := (List.range 14).foldl (fun s k => s.onCtx core k fun c => { c with ctl := { c.ctl with ipend := false } }) s
      let s := ((List.range 14).filter fun k => (s.ctx core k).st == .saved).foldl (fun s k => s.restoreSaved core k) s
      let s := s.controlBlock core 0 0 ((m.arg 0).toNat % 2 ^ 32)
      .next ((s.sysReply core m stOK []).due .handlerStart core)
/-- State numbers of a snapshot. -/
def CtxSt.code : CtxSt → Nat
  | .free => 0 | .ready => 1 | .waiting => 2 | .stopped => 3 | .saved => 4
/-- The SNAPSHOT record of a core (spec 16 R404). -/
def State.snapshot (s : State) (core : Nat) : List Byte :=
  let one (k : Nat) : List Byte :=
    let c := s.ctx core k
    let held := decide (k < 14) && c.st == .ready && c.ctl.ie
    leBytes 1 c.st.code ++ leBytes 1 held.toNat ++ leBytes 2 0 ++ leBytes 4 c.nextGroup.toNat ++ leBytes 4 c.ctl.scopeW.toNat ++ leBytes 4 (c.istate k)
  let mine := (s.fab.msgs.filter (s.sentBy core)).length
  let spaces := ((List.range 8).map fun n => match tget (s.core core).spaces n with | some x => x.held.toNat * 2 ^ n | none => 0).foldl (· + ·) 0 +
    (s.partOf core).isSome.toNat * 256
  ((List.range 16).flatMap one) ++ ((List.range 4).flatMap fun l => leBytes 1 (s.laneUsed core (BitVec.ofNat 2 l))) ++
    leBytes 2 (s.unitsUsed core) ++ leBytes 2 mine ++ leBytes 2 spaces ++ List.replicate 246 0
/-- ATTENTION: a core is held at its boundaries, and context 15 answers with the snapshot (spec 16 R404). a = message. -/
def execAttention (s : State) : Out :=
  match s.net s.occ.a with
  | none => .next s
  | some nm =>
    let m := nm.msg
    let core := localOf m.dest
    if m.arg 0 ≠ 1 then .next ((s.builtinDone m).sysReply core m stBadop [])
    else if m.heldBack = false then
      -- accepted: IPEND reads 1, and contexts with IE = 1 stop at their next boundary
      let s := s.onCore core fun c => { c with attention := true }
      let s := (List.range 14).foldl (fun s k => s.onCtx core k fun c => { c with ctl := { c.ctl with ipend := true } }) s
      .next ((s.setNet { nm with msg := { m with heldBack := true } }).later .attention m.no)
    else
      let rec_ := s.snapshot core
      let s := (s.wrB (tilePa core 8 0x3FE00) rec_).wrB (savePa core + 0x4400 + Config.attentionPlace.toNat) rec_
      let keep := (s.core core).run == .switchingOut
      let s := s.onCore core fun c => { c with attention := false }
      let s := (List.range 14).foldl (fun s k =>
        if keep && (s.ctx core k).st != .free then s else s.onCtx core k fun c => { c with ctl := { c.ctl with ipend := false } }) s
      .next ((s.builtinDone m).sysReply core m stOK rec_)

/-! ### RESUME (spec 08 R237; 16 R413) -/

/-- Address of the group after the one that begins at pc: past its stop bit, or past the words that can be fetched. -/
def groupEnd (s : State) (core k : Nat) : Nat → BitVec 32 → BitVec 32
  | 0, pc => pc
  | n + 1, pc =>
    let c := s.ctx core k
    let next := if c.lastInline pc then ((c.held.map fun m => m.addr).getD 0) else pc + 4
    match (s.fetchWord core k pc).2 with
    | .error _ => next
    | .ok w => if w.getLsbD 31 || c.lastInline pc then next else groupEnd s core k n next
/-- A held message is eligible again, the first of its lane (spec 02 R65). -/
def State.requeue (s : State) (core : Nat) (m : Msg) : State :=
  let rec ins : List Msg → List Msg
    | [] => [m]
    | x :: r => if x.prio = m.prio then m :: x :: r else x :: ins r
  (s.onCore core fun c => { c with mailbox := ins c.mailbox }).due .handlerStart core
/-- RESUME_BUILTIN: RETRY, SKIP or END of a STOPPED context (spec 08 R237). a = message. -/
def execResumeBuiltin (s : State) : Out :=
  match s.net s.occ.a with
  | none => .next s
  | some nm =>
    let m := nm.msg
    let core := localOf m.dest
    let k := bits (m.arg 0).toNat 24 4
    let act := (m.arg 1).toNat % 4
    let s := s.builtinDone m
    let c := s.ctx core k
    if 14 ≤ k ∨ c.st ≠ .stopped then .next (s.dropMsg core m)
    else if s.doomed core c then
      .next ((s.dropMsg core m).kill core k (some (if act = 1 then groupEnd s core k 4 (s.framePc core k) else s.framePc core k)))
    else if s.frameHandler core k then
      if act = 0 then
        let held := c.held
        let s := (s.setCtx core k { c with held := none, lock := none }).freeCtx core k
        .next (match held with
          | some h => s.requeue core { h with heldBack := false }
          | none => s)
      else
        let s := match c.held with | some h => s.dropMsg core { h with counted := true } | none => s
        .next ((s.freeCtx core k).ackAll core)
    else if act = 0 then .next (s.restartStopped core k (s.framePc core k) (BitVec.ofNat 4 (s.frame core k 0xBD 1)))
    else if act = 1 then .next (s.restartStopped core k (groupEnd s core k 4 (s.framePc core k)) 0)
    else .next (s.endCtx core k)

/-! ### Barriers between cores (spec 08 R232, R233, R241) -/

/-- CHILD_ARRIVAL: a child node's arrival is combined at its parent; at a node that waits for its own parent's release it is put off until then (log entry 144,
DESIGN CHOICE). a = message. -/
def execChildArrival (s : State) : Out :=
  match s.net s.occ.a with
  | none => .next s
  | some nm =>
    let m := nm.msg
    let core := localOf m.dest
    let n := bits (m.arg 2).toNat 0 6
    let from_ : BitVec 24 := (m.arg 1).truncate 24
    let fb : BitVec 6 := (m.arg 1).extractLsb' 24 6
    let b := s.bar core n
    let me : Word := BitVec.ofNat 64 ((s.rankOf core).toNat + n * 2 ^ 24)
    let s1 := s.builtinDone m
    if !b.armed || b.broken then .next (s1.barMsg core from_ fb 0x308 0 me)
    else if m.heldBack || decide (16 ≤ b.kids.length) then .next ((s1.breakBar core n).barMsg core from_ fb 0x308 0 me)
    else if b.waitsParent then .next (s.later .childArrival m.no)
    else .next (s1.arrive core n { b with kids := b.kids ++ [(from_, fb)] } (m.arg 0))
/-- BARRIER_RELEASE: the parent's release completes a node. a = message. -/
def execBarrierRelease (s : State) : Out :=
  match s.net s.occ.a with
  | none => .next s
  | some nm =>
    let m := nm.msg
    let core := localOf m.dest
    let n := bits (m.arg 2).toNat 0 6
    let b := s.bar core n
    let s := s.builtinDone m
    if !b.armed || b.broken then .next s
    else if m.heldBack || !b.waitsParent then .next (s.breakBar core n)
    else .next (s.completeBar core n (m.arg 0) ((m.arg 1).truncate 16))
/-- BROKEN_NOTICE: the receiving node becomes BROKEN. a = message. -/
def execBrokenNotice (s : State) : Out :=
  match s.net s.occ.a with
  | none => .next s
  | some nm => .next ((s.builtinDone nm.msg).breakBar (localOf nm.msg.dest) (bits (nm.msg.arg 2).toNat 0 6))

/-! ### Reset and power gating of a core (spec 16 R424, R425) -/

/-- One context of a core that is reset is lost: it counts as killed in its scope. -/
def State.loseCtx (s : State) (core k : Nat) : State :=
  let c := s.ctx core k
  if c.st = .free then s
  else
    let s := s.err (s.partNo core) c.ctl.cur core 0x20
    let s := { s with reqs := s.reqs.filterMap (orphaned core k) }
    ((s.discardSends core k).freeCtx core k).setCtx core k {}
/-- LC_RESET: a core is reset (spec 16 R424). a = core. -/
def execLcReset (s : State) : Out :=
  let core := s.occ.a
  let part := s.partNo core
  let s := s.logError part 0x20 (core * 2 ^ 30) 0
  let s := ((s.core core).bars.filter fun b => b.2.armed && !b.2.broken).foldl (fun s b => s.breakBar core b.1) s
  let c := s.core core
  -- the mailbox, the spill buffer, and the messages that trapped handlers hold in their lanes
  let box := c.mailbox ++ ((c.spilled.filter fun x => x.2.isNone).map fun x => x.1) ++
    (List.range 14).filterMap fun k => (s.ctx core k).held.filter fun m => m.heldBack
  let lost := ((List.range 16).filter fun k => (s.ctx core k).st != .free).map fun k => (s.ctx core k).ctl.cur
  let s := s.setCore core { c with mailbox := [], spilled := [], bars := [], seals := [], rowQ := [], l1 := [], fills := [], sysreq := [],
                                   attention := false, run := .resetting }
  let s := (List.range 16).foldl (fun s k => s.loseCtx core k) s
  let s := (c.iw.queue).foldl (fun s n => s.endOp n .failed rsnTarget ⟨0, 0, 0⟩ 0 0 false) s
  let s := (s.onCore core fun c => { c with iw := {} }).setCtx core 16 {}
  let s := box.foldl (fun s m => match m.kind with
    | .spawn | .context => s.returnMsg core m stUndeliverable
    | .resume | .builtin => s.dropMsg core m) s
  -- released sends that the interface has not injected, or holds for a retry, are lost (spec 02 R66; 16 R421; log entry 129)
  let sends := s.fab.msgs.filter fun x => (x.ph == .atSender || x.ph == .retry) && x.msg.source == core && decide (x.msg.sctx < 16) && !x.msg.hw
  let s := sends.foldl (fun s x => ((s.takeOut x).releaseMoving x.msg).err part x.msg.scope core 0x20) s
  let counted (sc : BitVec 16) : Nat := (sends.filter fun x => x.msg.scope == sc && countsRank x.msg.dest).length
  let s := ((lost ++ sends.map fun x => x.msg.scope).eraseDups).foldl (fun s sc =>
    s.sendNow (874 + (s.scope part sc).die) { builtinMsg (s.rankOf (874 + (s.scope part sc).die)) 0x338 3 part sc
      (arg4 ((s.rankOf core).zeroExtend 64) (sc.zeroExtend 64) (BitVec.ofNat 64 (lost.filter (· == sc)).length) (BitVec.ofNat 64 (counted sc))) with cls := 6 }) s
  -- pending continuations to the core fail TARGET at their next probe
  let conts := s.ops.flatMap fun x => (x.2.parts.zipIdx.filter fun p => p.1.continuation).map fun p => (x.1, p.2)
  let s := conts.foldl (fun s x => s.due .continuationProbe x.1 x.2) s
  .next ((s.ackAll core).later .lcResetEnd core)
/-- LC_RESET_END: the core returns IN with every context FREE. a = core. -/
def execLcResetEnd (s : State) : Out :=
  let core := s.occ.a
  if (s.core core).run = .resetting then .next ((s.onCore core fun c => { c with run := .inn }).due .handlerStart core) else .next s
/-- POWER_GATE: an idle core's pipeline is gated. The system space, held for the life of the partition, and the resident handler do not count
(spec 16 R425; log entry 49). a = core. -/
def execPowerGate (s : State) : Out :=
  let core := s.occ.a
  let c := s.core core
  let idle := c.run == .inn && c.spaces.all (fun x => !x.2.held || x.1 == 8) && (List.range 15).all (fun k => (s.ctx core k).st == .free && (s.ctx core k).trank.isNone) &&
    c.bars.all (fun b => !b.2.armed) && c.mailbox.isEmpty && s.fab.ranks.all (fun x => x.2.1 != core)
  .next (if idle then s.onCore core fun c => { c with run := .gated } else s)
/-- UNGATING_END: the core takes fan-outs again (spec 16 R425). a = core. -/
def execUngatingEnd (s : State) : Out :=
  let core := s.occ.a
  .next (if (s.core core).run = .ungating then s.onCore core fun c => { c with run := .inn } else s)

end Sys2Proof.Machine
end

