-- ==== Sys2Proof/Machine/ScopeEvents.lean ====
section
/-! DEFINITION. Events of the scope units: creation and state of scopes, scopes bound for other modules, and prunes: kill notices, what each unit sweeps,
acknowledgements and the end of a prune (spec 01 R41, R42; 08 R235 to R241; 09 R260, R261; 16 R415, R423, R424). -/

namespace Sys2Proof.Machine

/-! ### Creation and state (spec 01 R41, R42; 08 R235, R236) -/

/-- Entries of an id, of whatever partition. -/
def State.idEntries (s : State) (id : Nat) : List ScopeEnt := (List.range 8).filterMap fun p => tget s.scopes (p * 65536 + id)
/-- The id is FREE on this module. -/
def State.idFree (s : State) (id : Nat) : Bool := id != 0 && (s.idEntries id).all fun e => e.st == .free
/-- SCNEW operations when the id last became FREE. -/
def State.idFreed (s : State) (id : Nat) : Nat := (s.idEntries id).foldl (fun n e => max n e.freeAt) 0
/-- SCNEW may hand out a FREE id: one never used, one freed 2^16 SCNEW operations ago, or one freed before every other FREE id. -/
def State.idMay (s : State) (id : Nat) : Bool :=
  s.idFree id && ((s.idEntries id).isEmpty || decide (s.idFreed id + 65536 ≤ s.scnewCount) ||
    (List.range 65536).all fun j => !s.idFree j || (!(s.idEntries j).isEmpty && decide (s.idFreed id ≤ s.idFreed j)))
/-- Scopes that are LIVE, the root of each partition that is set up among them (spec 01 R41). PSETUP, or the end of a prune of scope 0, may make scope 0 the
4097th: the spec gives neither a refusal nor a reservation (log entry 139, DESIGN CHOICE). -/
def State.liveScopes (s : State) : Nat :=
  (s.scopes.filter fun x => x.2.st == .live && x.1 % 65536 != 0).length +
    (s.parts.filter fun x => x.2.isSet && (s.scope x.1 0).st == .live).length
/-- An id SCNEW hands out: which of those it may is free (log entry 45). -/
def State.allocId (s : State) : State × Option (BitVec 16) :=
  let (w, s) := s.drawFree
  if 4096 ≤ s.liveScopes then (s, none)
  else (s, ((List.range 65535).find? fun i => s.idMay ((w.toNat + i) % 65535 + 1)).map fun i => BitVec.ofNat 16 ((w.toNat + i) % 65535 + 1))
/-- A scope becomes LIVE with its counts zero. -/
def State.newScope (s : State) (part : Nat) (id : BitVec 16) (e : ScopeEnt) : State :=
  let k := part * 65536 + id.toNat
  ({ s with counts := s.counts.filter fun x => x.1 / 4096 != k } : State).setScope part id { e with st := .live, part := part }
/-- Contexts of a scope. -/
def State.liveCtxs (s : State) (part : Nat) (id : BitVec 16) : Nat :=
  (s.ctxs.filter fun x => decide (x.1 % 17 < 16) && x.2.st != .free && x.2.ctl.cur == id && s.partNo (x.1 / 17) == part).length
/-- Sum of a count of a scope over the units of the module. -/
def State.sumCnt (s : State) (part : Nat) (id : BitVec 16) (f : Cnt → Nat) : Nat :=
  ((s.counts.filter fun x => x.1 / 4096 == part * 65536 + id.toNat).map fun x => f x.2).foldl (· + ·) 0
/-- States of a scope as scstat reports them. -/
def ScSt.code : ScSt → Nat
  | .free => 0 | .live => 1 | .dying => 2 | .dead => 3
/-- The value scstat writes (spec 08 R236). -/
def State.scstat (s : State) (part : Nat) (id : BitVec 16) (sel : Nat) : Nat :=
  let e := s.scope part id
  if e.st = .free then 0
  else match sel with
  | 0 => e.st.code + e.policy.toNat * 4 + (e.group.getD 0xFF) * 2 ^ 8 + e.parent.toNat * 2 ^ 16
  | 1 => s.liveCtxs part id
  | 2 => s.sumCnt part id Cnt.sent % 2 ^ 32
  | 3 => (s.sumCnt part id Cnt.recvd + e.lostMsgs) % 2 ^ 32
  | 4 => e.dropped
  | _ => 0
/-- The result word of scnew. -/
def scnewWord (nfail status : Nat) (id : BitVec 16) : Word := BitVec.ofNat 64 (min nfail 255 * 2 ^ 24 + status * 2 ^ 16 + id.toNat)
/-- The answer of a member of a group to a binding: bound, refused or unreachable. What a member answers is not of this module: it is free (log entry
4). -/
def memberAnswers (s : State) : List (BitVec 12) → State × Nat × Nat
  | [] => (s, 0, 0)
  | _ :: r =>
    let (w, s) := s.drawFree
    let (s, a, b) := memberAnswers s r
    match w.toNat % 3 with
    | 0 => (s, a, b)
    | 1 => (s, a + 1, b)
    | _ => (s, a, b + 1)
/-- A request has its result: the scope unit replies, after LINKWAIT when a member is silent. -/
def State.scopeAnswer (s : State) (q : ScopeReq) (v : Word) (late : Bool) : State :=
  let s := { s with scopeReqs := s.scopeReqs.map fun (x : ScopeReq) => if x.no = q.no then { x with result := some v } else x }
  if late then s.later .scopeUnitReply q.core q.ctx else s.due .scopeUnitReply q.core q.ctx
/-- SCOPE_REQUEST: a scope unit creates a child scope, or answers scstat (spec 08 R235, R236). a = request. -/
def execScopeRequest (s : State) : Out :=
  match s.scopeReqs.find? fun q => q.no == s.occ.a with
  | none => .next s
  | some q =>
    if q.result.isSome then .next s
    else if q.isNew = false then .next (s.scopeAnswer q (BitVec.ofNat 64 (s.scstat q.part q.scope q.sel)) false)
    else
      let t := q.tmpl.toNat
      let g := bits t 8 8
      let group := if g = 0xFF then none else some g
      let members := (group.bind (tget (s.part q.part).groups)).map fun l => l.filter fun m => m != s.modid
      let s := { s with scnewCount := s.scnewCount + 1 }
      if s.scopeLive q.part q.scope = false then .next (s.scopeAnswer q (scnewWord 0 4 0) false)
      else if group.isSome ∧ members = none then .next (s.scopeAnswer q (scnewWord 0 3 0) false)
      else match s.allocId with
      | (s, none) => .next (s.scopeAnswer q (scnewWord 0 1 0) false)
      | (s, some id) =>
        let (s, refused, silent) := memberAnswers s (members.getD [])
        if refused ≠ 0 then .next (s.scopeAnswer q (scnewWord (refused + silent) 2 0) (silent != 0))
        else if silent ≠ 0 then .next (s.scopeAnswer q (scnewWord silent 5 0) true)
        else
          let s := s.newScope q.part id { parent := q.scope, policy := t.testBit 0, group := group, die := q.core / 384 }
          .next (s.scopeAnswer q (scnewWord 0 0 id) false)
/-- SCOPE_BINDING: this module binds an id for another module's spanning scope, under scope 0, or refuses it (spec 01 R42; 18 R459). a = part,
b = scope, c = group, flag = policy, bytes = the member list of the other module's entry, 2 bytes each, which must be the one held here. At most 4096
scopes are LIVE (spec 01 R41). -/
def execScopeBinding (s : State) : Out :=
  let o := s.occ
  let held := (tget (s.part o.a).groups o.c).map (fun l => l.flatMap fun m => leBytes 2 m.toNat) == some o.bytes
  .next (if (s.part o.a).isSet && held && s.idFree (o.b % 65536) && decide (s.liveScopes < 4096) then
    s.newScope o.a (BitVec.ofNat 16 o.b) { parent := 0, policy := o.flag, group := some o.c, bound := true }
  else s)

/-! ### What the units sweep (spec 08 R239; 09 R260; 14 R376; 16 R423) -/

/-- A message still at its sender, in its retry buffer, or in the transport buffer, is removed and counted at the unit (spec 08 R239; 17 R452). -/
def State.removeMsg (s : State) (unit : Nat) (nm : NetMsg) : State :=
  if nm.ph = .flying then
    let s := (s.delNet nm.msg.no).dropMoving unit nm.msg
    let pair := (modOf nm.msg.dest).toNat
    let p := s.peer pair
    s.setPeer pair { p with buf := p.buf.map fun b => if b.no = nm.msg.no then { b with pkt := { b.pkt with skip := true, kind := 1, body := [] } } else b }
  else (s.dropMoving unit nm.msg).takeOut nm
/-- The messages of a subtree that a unit's interface removes: those at their sender and under retry, and spawns, resumes and moving threads that
are with the transport. Hardware's own messages, the notices and answers of its system built-ins among them, go on. -/
def State.removable (s : State) (unit part : Nat) (scope : BitVec 16) (nm : NetMsg) : Bool :=
  let m := nm.msg
  m.source == unit && m.part == part && !m.hw && !(m.kind == .builtin && decide (0x300 ≤ m.addr.toNat) && m.byUnit) && s.inScope part scope m.scope &&
    modOf m.srank == s.modid &&
    (nm.ph == .atSender || nm.ph == .retry || (nm.ph == .flying && modOf m.dest != s.modid && m.kind != .builtin))
def State.sweepNet (s : State) (unit part : Nat) (scope : BitVec 16) : State :=
  (s.fab.msgs.filter (s.removable unit part scope)).foldl (fun s nm => s.removeMsg unit nm) s
/-- A kill notice reaches a context (spec 08 R239; 07 R212): one that runs is killed at its next boundary, every other one at once. -/
def State.sweepCtx (s : State) (core part : Nat) (scope : BitVec 16) (k : Nat) : State :=
  let c := s.ctx core k
  if c.st = .free ∨ s.inScope part scope c.ctl.cur = false then s
  else
    let now : Bool := match c.st with
      | .ready => c.hold.blocked || c.hold == .paused
      | .waiting | .stopped | .saved => true
      | .free => false
    if now then s.killCtx core k else s.setCtx core k { c with ctl := { c.ctl with kpend := true } }
/-- A kill notice reaches the walker of a core: queued walks are removed, and a started one stops (spec 09 R260). -/
def State.sweepWalker (s : State) (core part : Nat) (scope : BitVec 16) : State :=
  let mine (n : Nat) : Bool := match s.op n with | some o => o.part == part && s.inScope part scope o.scope && !o.killed | none => false
  let w := (s.core core).iw
  let gone := w.queue.filter fun n => mine n && w.run != some n
  let s := s.onCore core fun c => { c with iw := { c.iw with queue := c.iw.queue.filter fun n => !gone.contains n } }
  let s := gone.foldl (fun s n => s.cancelOwn n core) s
  match w.run with
  | none => s
  | some n => match s.op n with
    | none => s
    | some o =>
      if mine n = false then s
      else
        let s := (s.tallyFor part o.scope core fun t => t.removed o.engine).setOp n { o with killed := true }
        if w.inLine then s else s.due .iwLineRun core
/-- A kill notice reaches a lookup core and its interface. -/
def State.sweepCore (s : State) (core part : Nat) (scope : BitVec 16) : State :=
  let s := (List.range 14).foldl (fun s k => s.sweepCtx core part scope k) s
  let dead (m : Msg) : Bool := m.part == part && s.inScope part scope m.scope
  let c := s.core core
  let gone := c.mailbox.filter dead ++ (c.spilled.filter fun x => x.2.isNone && dead x.1).map fun x => x.1
  let s := s.onCore core fun c => { c with mailbox := c.mailbox.filter fun m => !dead m,
                                           spilled := c.spilled.filter fun x => !(x.2.isNone && dead x.1) }
  let s := gone.foldl (fun s m => s.dropMoving core m) s
  let s := s.sweepNet core part scope
  let held := s.ops.filter fun x => x.2.ph == .sent && x.2.core == core && x.2.part == part && s.inScope part scope x.2.scope
  let s := held.foldl (fun s x => s.cancelOwn x.1 core) s
  let s := ((s.core core).bars.filter fun b => b.2.armed && !b.2.broken && s.inScope part scope b.2.scope).foldl (fun s b =>
    (s.tallyFor part b.2.scope core fun t => { t with broken := t.broken + 1 }).breakBar core b.1) s
  s.sweepWalker core part scope
/-- A kill notice reaches a copy engine: queued copies are removed, and its parts of started ones stop (spec 09 R260, R261). -/
def State.sweepCopy (s : State) (unit part : Nat) (scope : BitVec 16) : State :=
  let ops := s.ops.filter fun x => (x.2.engine == .copy || x.2.engine == .copys) && x.2.part == part && s.inScope part scope x.2.scope
  ops.foldl (fun (s : State) x =>
    let n := x.1
    let o := x.2
    if o.ph = .queued ∧ o.unit = unit then
      (s.tallyFor part o.scope unit fun t => t.removed o.engine).endCopy n .cancelled rsnPruned ⟨0, 0, 0⟩ 0 0 true
    else
      -- a part that has written its last byte has ended
      let here : List (CPart × Nat) := o.parts.zipIdx.filter fun p => p.1.engine + 768 == unit && !p.1.done && !(p.1.len != 0 && p.1.pos == p.1.len)
      if o.ph ≠ .started ∨ here = [] then s
      else
        let s := if o.killed then s else s.tallyFor part o.scope unit fun t => t.removed o.engine
        let s := s.setOp n { o with killed := true }
        here.foldl (fun s p => (s.onPart n p.2 fun q => { q.stop with continuation := false }).due .copyPart n p.2) s) s
/-- A kill notice reaches a dense complex: queued jobs are removed, and the job held is marked (spec 10 R295). -/
def State.sweepDense (s : State) (die part : Nat) (scope : BitVec 16) : State :=
  let mine (n : Nat) : Bool := match s.op n with | some o => o.part == part && s.inScope part scope o.scope | none => false
  let unit := 872 + die
  let d := s.ds die
  let gone := (d.queue.map fun e => e.1).filter mine
  let s := s.setDs die { d with queue := d.queue.filter fun e => !gone.contains e.1 }
  let s := gone.foldl (fun s n => s.cancelOwn n unit) s
  match d.job with
  | none => s
  | some n =>
    if mine n && !d.killed then
      let s := match s.op n with
        | some o => s.tallyFor part o.scope unit fun t => t.removed .djob
        | none => s
      s.onDs die fun d => { d with killed := true }
    else s
/-- A kill notice reaches the LU: launches not accepted end when their PARENT is in the subtree (spec 15 R401; 16 R423). Accepted ones whose scope
is in it stop their waves (spec 15 R393). -/
def State.sweepLaunches (s : State) (part : Nat) (scope : BitVec 16) : State :=
  let hit := s.launches.filter fun x => x.2.part == part && (match x.2.st with
    | .queued | .selected | .loading | .binding => s.inScope part scope x.2.parent
    | .spawning | .running => s.inScope part scope x.2.scope
    | .draining | .ended => false)
  hit.foldl (fun (s : State) x =>
    let l := { x.2 with killed := true, st := if x.2.st = .running then .draining else x.2.st }
    ({ s with launches := tset s.launches x.1 l } : State).due .launchEnd x.1) s
/-- What a unit sweeps. -/
def State.sweep (s : State) (u part : Nat) (scope : BitVec 16) : State :=
  if u < 768 then s.sweepCore u part scope
  else
    let s := s.sweepNet u part scope
    if u < 864 then s.sweepCopy u part scope
    else if u < 872 then s.sweepTde u part scope
    else if u < 874 then s.sweepDense (u - 872) part scope
    else if u = 876 then s.sweepLaunches part scope
    else if u = 874 ∨ u = 875 then markDying s part scope none s.scopes
    else s
/-- The acknowledgement of this module to another module's scope unit. -/
def State.memberAck (s : State) (su : BitVec 24) (part : Nat) (scope : BitVec 16) (t : Tally) (flags : Nat) : State :=
  s.sendNow 874 { builtinMsg su 0x334 3 part scope
    (arg4 (BitVec.ofNat 64 (t.msgs * 2 ^ 32 + t.killed)) (BitVec.ofNat 64 (t.broken * 2 ^ 32 + t.copies))
      (BitVec.ofNat 64 (t.dispatches * 2 ^ 32 + flags + scope.toNat)) (BitVec.ofNat 64 (t.discarded * 2 ^ 32 + t.cancelled))) with cls := 6 }
/-- KILL_NOTICE: a prune reaches a unit, which sweeps its work of the subtree; a notice of another module starts the prune of the scope bound here
(spec 08 R238, R239; 16 R423). a = message. -/
def execKillNotice (s : State) : Out :=
  match s.net s.occ.a with
  | none => .next s
  | some nm =>
    let m := nm.msg
    let u := localOf m.dest
    let scope : BitVec 16 := (m.arg 0).truncate 16
    let s := s.builtinDone m
    if modOf m.srank ≠ s.modid then
      if s.groupWith m.part (modOf m.srank) = false then .next (s.unheldGroup m.part)
      else if (s.scope m.part scope).st = .free then .next (s.memberAck m.srank m.part scope {} 0)
      else .next (s.startPrune m.part scope m.srank 16 0 0 true 0 true).2
    else
      match s.prunes.find? fun x => x.1 % 2 ^ 32 == (m.arg 0).toNat / 2 ^ 32 && !x.2.done with
      | none => .next s
      | some (n, p) =>
        let (t, s) := s.fresh
        let s := { s with prunes := tset s.prunes n { p with noticed := p.noticed ++ [u], noticedAt := p.noticedAt ++ [(u, t)] } }
        .next ((s.sweep u p.part p.scope).ackAll u)

/-! ### Acknowledgements and the end of a prune (spec 08 R240; 01 R41) -/

def Tally.plus (a b : Tally) : Tally :=
  { msgs := a.msgs + b.msgs, killed := a.killed + b.killed, broken := a.broken + b.broken, copies := a.copies + b.copies,
    dispatches := a.dispatches + b.dispatches, discarded := a.discarded + b.discarded, cancelled := a.cancelled + b.cancelled }
/-- The counts of an acknowledgement. -/
def ackTally (m : Msg) : Tally :=
  let hi (i : Fin 4) : Nat := (m.arg i).toNat / 2 ^ 32
  let lo (i : Fin 4) : Nat := (m.arg i).toNat % 2 ^ 32
  { msgs := hi 0, killed := lo 0, broken := hi 1, copies := lo 1, dispatches := hi 2, discarded := hi 3, cancelled := lo 3 }
/-- A prune ends: its token, and its PRUNED resume, or its module's acknowledgement (spec 08 R240). -/
def State.reportPrune (s : State) (n : Nat) (already : Bool) : State :=
  match tget s.prunes n with
  | none => s
  | some p =>
    if p.done then s
    else
      let t := if already then {} else (tget p.tally 4096).getD {}
      let flags := min p.silent 255 * 2 ^ 24 + p.partialEnd.toNat * 2 ^ 17 + already.toNat * 2 ^ 16
      let s := { s with prunes := tset s.prunes n { p with done := true } }
      if p.remote then s.memberAck p.rank p.part p.scope t flags
      else
        let s := s.endOp p.op (if p.partialEnd then .failed else .done) 0 ⟨0, 0, 0⟩ 0 0 false
        if p.quiet then s
        else s.sendNow (874 + (s.scope p.part p.scope).die) { resumeMsg p.rank p.tag stPruned 3 p.part p.scopeOf
          (arg4 (BitVec.ofNat 64 (t.msgs * 2 ^ 32 + t.killed)) (BitVec.ofNat 64 (t.broken * 2 ^ 32 + t.copies))
            (BitVec.ofNat 64 (t.dispatches * 2 ^ 32 + flags + p.scope.toNat)) (BitVec.ofNat 64 (t.discarded * 2 ^ 32 + t.cancelled))) with cls := 6 }
/-- Resumes that wait for a scope that is gone are discarded and counted (spec 02 R64). -/
def State.dropResumes (s : State) (part : Nat) (scope : BitVec 16) : State :=
  s.cores.foldl (fun (s : State) x =>
    let gone (m : Msg) : Bool := m.kind == .resume && m.part == part && m.scope == scope
    let old := x.2.mailbox.filter gone ++ (x.2.spilled.filter fun y => y.2.isNone && gone y.1).map fun y => y.1
    if old = [] then s
    else old.foldl (fun s m => s.dropMsg x.1 m) (s.onCore x.1 fun c => { c with
      mailbox := c.mailbox.filter fun m => !gone m, spilled := c.spilled.filter fun y => !(y.2.isNone && gone y.1) })) s
/-- A scope id returns to FREE (spec 01 R41). -/
def State.freeScope (s : State) (part : Nat) (id : BitVec 16) : State :=
  (s.setScope part id { st := .free, part := part, freeAt := s.scnewCount }).dropResumes part id
/-- The launch of a scope has ended, if it is a launch's. -/
def State.launchOver (s : State) (e : ScopeEnt) : Bool :=
  match e.launch.bind (tget s.launches) with
  | none => true
  | some l => l.st == .ended
/-- The scopes of a subtree become DEAD, scope 0 LIVE. -/
def State.allDead (s : State) (part : Nat) (ids : List (BitVec 16)) : State :=
  ids.foldl (fun (s : State) id =>
    let e := s.scope part id
    if e.st = .dying then s.setScope part id { e with st := if id = 0 then .live else .dead } else s) s
/-- DEAD scopes whose prune is complete return to FREE; one of a launch when its launch has ended. -/
def State.settleDead (s : State) (part : Nat) (ids : List (BitVec 16)) : State :=
  ids.foldl (fun (s : State) id =>
    let e := s.scope part id
    if e.st ≠ .dead ∨ (s.prunes.any fun x => !x.2.done && x.2.part == part && s.inScope part x.2.scope id) = true then s
    else if s.launchOver e then s.freeScope part id
    else match e.launch with
      | some l => s.due .launchEnd l
      | none => s) s
/-- Prunes that joined an earlier one of a scope of the subtree. -/
def State.joined (s : State) (part : Nat) (ids : List (BitVec 16)) (remote : Bool) : List Nat :=
  (s.prunes.filter fun x => x.2.already && !x.2.done && x.2.part == part && ids.contains x.2.scope && (x.2.remote || !remote)).map fun x => x.1
/-- Scopes of a subtree, in the table. -/
def State.subtree (s : State) (part : Nat) (root : BitVec 16) : List (BitVec 16) :=
  (s.scopes.filter fun x => x.1 / 65536 == part && s.inScope part root (BitVec.ofNat 16 x.1)).map fun x => BitVec.ofNat 16 x.1
/-- A prune whose units have all acknowledged answers the modules that joined it; when the members have answered, or their LINKWAIT has passed, it
is complete. -/
def State.settlePrune (s : State) (n : Nat) : State :=
  match tget s.prunes n with
  | none => s
  | some p =>
    if p.done || p.already || !p.waiting.isEmpty then s
    else
      let ids := s.subtree p.part p.scope
      let s := (s.joined p.part ids true).foldl (fun s j => s.reportPrune j true) s
      if !p.members.isEmpty then s
      else
        let s := (s.allDead p.part ids).reportPrune n false
        let s := (s.joined p.part ids false).foldl (fun s j => s.reportPrune j true) s
        s.settleDead p.part ids
/-- PRUNE_ACKNOWLEDGEMENT: the scope unit that holds the scope takes a unit's or a member's acknowledgement (spec 08 R240). a = message, or b = a
prune of a scope that is DEAD already, with c = 1. -/
def execPruneAcknowledgement (s : State) : Out :=
  if s.occ.c = 1 then .next (s.reportPrune s.occ.b true)
  else match s.net s.occ.a with
  | none => .next s
  | some nm =>
    let m := nm.msg
    let s := s.builtinDone m
    let from_ := localOf m.srank
    let here := modOf m.srank == s.modid
    let hit (x : Nat × Prune) : Bool := !x.2.done && !x.2.already && x.2.part == m.part &&
      (if here then x.2.scope == m.scope && x.2.waiting.contains from_ else x.2.members.contains (modOf m.srank, m.scope))
    match s.prunes.find? hit with
    | none => .next s
    | some (n, p) =>
      let sum := ((tget p.tally 4096).getD {}).plus (ackTally m)
      let p := { p with
        tally := tset p.tally 4096 sum
        waiting := if here then p.waiting.filter (· != from_) else p.waiting
        members := if here then p.members else p.members.filter (· != (modOf m.srank, m.scope))
        partialEnd := p.partialEnd || (!here && (m.arg 2).getLsbD 17) }
      .next (((({ s with prunes := tset s.prunes n p } : State).ackPrune n 874).ackPrune n 875).settlePrune n)
/-- PRUNE_LINKWAIT_EXPIRY: LINKWAIT has passed for the members that are silent, and the prune completes without them (spec 08 R240). a = prune. -/
def execPruneLinkwaitExpiry (s : State) : Out :=
  let n := s.occ.a
  match tget s.prunes n with
  | none => .next s
  | some p =>
    if p.done || p.members.isEmpty then .next s
    else
      let k := (p.members.map fun x => x.1).eraseDups.length
      .next (({ s with prunes := tset s.prunes n { p with members := [], silent := p.silent + k, partialEnd := true } } : State).settlePrune n)
/-- RESET_REPORT: a scope unit adds the contexts and messages a reset lost (spec 16 R424). a = message. -/
def execResetReport (s : State) : Out :=
  match s.net s.occ.a with
  | none => .next s
  | some nm =>
    let m := nm.msg
    let s := s.builtinDone m
    let id : BitVec 16 := (m.arg 1).truncate 16
    let e := s.scope m.part id
    if e.st = .free then .next s
    else .next (s.setScope m.part id { e with lost := e.lost + (m.arg 2).toNat, lostMsgs := e.lostMsgs + (m.arg 3).toNat })

end Sys2Proof.Machine
end

