-- ==== Sys2Proof/Machine/Launch.lean ====
section
/-! DEFINITION. Events of launches: queueing, validation, loading, acceptance, fan-out, waves, tile spaces on demand, the end of a launch and its
custody record (spec 02 R68; 15 R379 to R401; 18 R468, R469). -/

namespace Sys2Proof.Machine

/-! ### The record (spec 15 R379) -/

/-- Word i of a launch record, and a field of it. -/
def Launch.word (l : Launch) (i : Nat) : Nat := leNat ((l.record.drop (8 * i)).take 8)
def Launch.fld (l : Launch) (i lo n : Nat) : Nat := bits (l.word i) lo n
def Launch.tpages (l : Launch) : Nat := l.fld 0 18 6
def Launch.lane (l : Launch) : BitVec 2 := BitVec.ofNat 2 (l.fld 0 8 3 / 2)
def Launch.ilen (l : Launch) : Nat := l.fld 3 32 24
def Launch.idst (l : Launch) : Nat := l.fld 3 0 32
def Launch.isrc (l : Launch) : Nat := l.fld 2 0 48
def Launch.tsrc (l : Launch) : Nat := l.fld 28 0 48
def Launch.tlen (l : Launch) : Nat := l.fld 29 0 18
def Launch.nrank (l : Launch) : Nat := l.fld 27 48 6
def Launch.rlist (l : Launch) : Nat := l.fld 27 0 48
def Launch.args (l : Launch) : Vector GReg 4 :=
  arg4 (BitVec.ofNat 64 (l.word 8)) (BitVec.ofNat 64 (l.word 9)) (BitVec.ofNat 64 (l.word 10)) (BitVec.ofNat 64 (l.word 11))
/-- Local ranks of a PLACE field, ascending (spec 15 R387). -/
def placed (place : List Byte) : List Nat := (List.range 768).filter fun k => (place.getD (k / 8) 0).getLsbD (k % 8)
/-- Children of a core in the spanning tree of a placement. -/
def kidsOf (P : List Nat) (core : Nat) : List Nat :=
  match P.findIdx? (· == core) with
  | some i => (P.drop (8 * i + 1)).take 8
  | none => []
/-- BADREC: a reserved bit, a VERSION or a field outside its range. -/
def Launch.badRec (l : Launch) : Bool :=
  l.fld 0 48 16 != 0 || l.fld 0 24 8 != 0 || l.fld 0 15 1 != 0 || l.fld 0 11 1 != 0 || l.fld 0 0 8 != 1 || l.tpages == 0 ||
    l.fld 2 48 16 != 0 || (l.fld 0 17 1 == 0 && l.isrc != 0) || l.fld 3 56 8 != 0 || l.ilen % 4 != 0 || l.ilen == 0 || l.idst % 4 != 0 ||
    l.fld 25 20 44 != 0 || l.fld 26 48 16 != 0 || l.fld 27 54 10 != 0 || (l.nrank == 0 && l.rlist != 0) || l.fld 28 48 16 != 0 ||
    (l.tlen == 0 && l.tsrc != 0) || l.fld 29 18 46 != 0 || l.tlen % 64 != 0 || decide (l.tpages * 4096 < l.tlen) || l.word 30 != 0 || l.word 31 != 0
/-- The budget profile of a launch's traffic. -/
def Launch.prof (l : Launch) : Nat := l.fld 0 12 3
/-- A handler lies in the image and is placed as R107 requires. -/
def Launch.entryOk (l : Launch) (e : Nat) : Bool :=
  e % 4 == 0 && decide (0x400 ≤ e ∧ e < 0xFFFFFF00) && decide (l.idst ≤ e ∧ e < l.idst + l.ilen)

/-! ### Reads of the LU (spec 15 R384, R389) -/

/-- The LU as an issuer of accesses, with its own rank, under the system class of a profile; none for what it reads for the SMC. -/
def State.luOp (s : State) (part : Nat) (prof : Option Nat := none) : Op :=
  { engine := .prune, core := 0, ctx := 15, scope := 0, part := part, rank := s.rankOf 876, system := true, unit := 876, prof := prof }
/-- An address of global space. -/
def isGlobal (va n : Nat) : Bool := decide (0x50000 ≤ va) && decide (va + n ≤ 2 ^ 48) && va / 2 ^ 42 != 1 && (va + n - 1) / 2 ^ 42 != 1
/-- Read n bytes of global space for an operation, poison and all. -/
def State.readFor (s : State) (o : Op) (va n : Nat) : ERes :=
  if n = 0 then .ok s [] false
  else if isGlobal va n = false then eFault s (pageTrap 0x02 va)
  else (engReadRun s o (n / 64 + 2) va n [] none).1
/-- Read n clean bytes of global space. -/
def State.luBytes (s : State) (part va n : Nat) (prof : Option Nat := none) : ERes :=
  match s.readFor (s.luOp part prof) va n with
  | .ok s bs true => eFault s (poisonTrap va) |> fun r => if bs.isEmpty then .ok s [] false else r
  | r => r
/-- Read n bytes of the code region within one line, from a code-space address (spec 18 R456). -/
def State.codeRead (s : State) (o : Op) (a n : Nat) : ERes :=
  let va := (s.part o.part).codeVa + a
  match s.xlate o.part va with
  | (s, .error t) => eFault s t
  | (s, .ok e) =>
    let pa := s.redirect (e.pa va)
    let p : Piece := { va := va, len := n, mod := e.mod, pa := if e.mod = s.modid then pa else e.pa va }
    if e.mod ≠ s.modid ∨ (s.movingAt pa).isSome = true ∨ (s.asked o o.unit va n false []).isSome = true then s.engAsk o o.unit p false false []
    else if s.luOpen o (homeOf pa) = false then .busy none
    else if s.poisonedAt pa n then eFault s (poisonTrap va)
    else .ok (s.luMoved o (homeOf pa) n) (memRead s.mem pa n) false
/-- Write bytes of the code region within one line. In a checked region the unit is the writer, and what it has written is flushed, as an engine's part is (spec
12 R331). No instruction cache keeps what has been replaced (log entry 14). -/
def State.codeWrite (s : State) (o : Op) (a : Nat) (bs : List Byte) : ERes :=
  let va := (s.part o.part).codeVa + a
  match s.xlate o.part va with
  | (s, .error t) => eFault s t
  | (s, .ok e) =>
    let pa := s.redirect (e.pa va)
    let p : Piece := { va := va, len := bs.length, mod := e.mod, pa := if e.mod = s.modid then pa else e.pa va }
    if e.mod ≠ s.modid ∨ (s.movingAt pa).isSome = true ∨ (s.asked o o.unit va bs.length true bs).isSome = true then
      match s.engAsk o o.unit p true false bs with
      | .ok s r b => .ok (s.dropCode o.part) r b
      | r => r
    else if s.luOpen o (homeOf pa) = false then .busy none
    else .ok ((((s.store pa bs).markWrite (s.regionSt o.part va) va pa bs.length { rank := o.rank } true).luMoved o (homeOf pa) bs.length).dropCode o.part) [] false
/-- Write a run of bytes of the code region, line by line. -/
def codeWriteRun (s : State) (o : Op) : Nat → Nat → List Byte → ERes
  | 0, _, _ => .ok s [] false
  | f + 1, a, bs =>
    if bs.isEmpty then .ok s [] false
    else
      let k := min bs.length (64 - ((s.part o.part).codeVa + a) % 64)
      match s.codeWrite o a (bs.take k) with
      | .ok s _ _ => codeWriteRun s o f (a + k) (bs.drop k)
      | r => r

/-! ### Messages of the LU -/

/-- A message of launch machinery from a unit, in scope 0 and class 7: a message of the launch's own scope would itself be counted (spec 15 R391,
R392; log entry 42). -/
def State.luSend (s : State) (unit : Nat) (dest : BitVec 24) (addr : BitVec 32) (part : Nat) (args : Vector GReg 4) (pay : List Byte) : State :=
  s.sendNow unit { builtinMsg dest addr 3 part 0 args with payload := pay, cls := 6 }
/-- The seven units of a fan-out and a grant (spec 15 R388); wp is the WPDEF block. -/
def Launch.units (l : Launch) (wp : List Byte) : List Byte :=
  (l.record.drop 96).take 96 ++ leBytes 8 (l.word 1) ++ leBytes 8 (l.word 24) ++ leBytes 8 (l.word 25) ++ leBytes 8 (l.word 0) ++ wp ++
    leBytes 8 (l.word 28) ++ leBytes 8 (l.word 29) ++ List.replicate 16 0
/-- Set a launch. -/
def State.setLaunch (s : State) (lid : Nat) (l : Launch) : State := { s with launches := tset s.launches lid l }

/-! ### Queueing (spec 15 R382, R383; 17 R450, R451) -/

/-- LWSTAT.FULL follows the queue; vector 1 is raised when it clears after a refusal. -/
def State.queueChanged (s : State) (part : Nat) : State :=
  let fn := vfOf part
  let f := s.vf fn
  let full := decide (16 ≤ (s.part part).launchQ.length)
  let was := f.lwstat.getLsbD 1
  let refused := f.lwstat.getLsbD 2
  let v : Word := if full then f.lwstat ||| 2 else f.lwstat &&& ~~~2#64
  let s := s.setVf fn { f with lwstat := v }
  if was && !full && refused then s.raiseVec fn 1 else s
/-- A record enters the queue of its partition with the next launch id. -/
def State.queueLaunch (s : State) (part : Nat) (rec_ : List Byte) (rank : BitVec 24) (sub : BitVec 16) (host : Bool) : Nat × State :=
  let lid := (s.nextLaunch + 1) % 2 ^ 32
  let l : Launch := { part := part, record := rec_, rank := rank, subScope := sub, host := host, parent := BitVec.ofNat 16 (leNat ((rec_.drop 4).take 2)) }
  let p := s.part part
  let s := ({ s with nextLaunch := lid } : State).setLaunch lid l
  (lid, (((s.setPart part { p with launchQ := p.launchQ ++ [lid] }).queueChanged part).due .distributorSelect))
/-- LAUNCH_SUBMISSION: a record sent by a device program enters the queue (spec 15 R382). a = message. -/
def execLaunchSubmission (s : State) : Out :=
  match s.net s.occ.a with
  | none => .next s
  | some nm =>
    let m := nm.msg
    if 16 ≤ (s.part m.part).launchQ.length then .next (s.later .launchSubmission m.no)
    else .next ((s.builtinDone m).queueLaunch m.part (m.payload.take 256) m.srank m.scope false).2
/-- A launch ends: the resume of R386 goes to the submitter, and heads that wait for space are looked at again. -/
def State.finishLaunch (s : State) (lid : Nat) (l : Launch) (st : BitVec 8) (reject : Nat) : State :=
  let dropped := if l.scope = 0 then 0 else (s.scope l.part l.scope).dropped
  let s := (s.dropAsks 0).sendNow 876 { resumeMsg l.rank (BitVec.ofNat 32 (l.fld 1 32 32)) st 3 l.part (if l.host then 0 else l.subScope)
    (arg4 (BitVec.ofNat 64 (lid * 2 ^ 32 + l.scope.toNat * 2 ^ 16 + reject)) (BitVec.ofNat 64 (l.wave % 2 ^ 32 * 2 ^ 32 + l.err.toNat))
      (BitVec.ofNat 64 (dropped % 2 ^ 32)) (BitVec.ofNat 64 l.custody)) with cls := 6 }
  let p := s.part l.part
  let s := (s.setPart l.part { p with launchQ := p.launchQ.filter (· != lid) }).queueChanged l.part
  let s := { s with launches := (tdel s.launches lid).map fun (x : Nat × Launch) => if x.2.part = l.part then (x.1, { x.2 with waitSpace := false }) else x }
  s.due .distributorSelect
/-- The first entry of a partition's queue that is not marked WAITSPACE. -/
def State.nextOf (s : State) (part : Nat) : Option Nat :=
  (s.part part).launchQ.find? fun lid => match tget s.launches lid with | some l => l.st == .queued && !l.waitSpace | none => false
/-- The partition whose entry is selected: the highest QPRIO, then the partition after the one served last. -/
def State.pickPart (s : State) : Option Nat :=
  let ok := (List.range 8).filter fun p => (s.nextOf p).isSome
  let key (p : Nat) : Nat := (s.part p).qprio * 8 + (7 - (p + 8 - s.lastPart - 1) % 8)
  ok.find? fun p => ok.all fun q => decide (key q ≤ key p)
/-- A placed core's spaces that the LU has counted (spec 15 R395). -/
def State.spacesOn (s : State) (core : Nat) : Nat :=
  (s.launches.filter fun x => (match x.2.st with | .spawning | .running | .draining => true | .queued | .selected | .loading | .binding | .ended => false) &&
    (x.2.cores.contains core || x.2.granted.contains core)).length
/-- The rank list, read; or the reject code BADDEFS. -/
def State.rankList (s : State) (l : Launch) : ERes :=
  if l.nrank = 0 then .ok s [] false
  else if l.rlist % 8 ≠ 0 then eFault s ⟨0x04, 0, 0⟩
  else s.luBytes l.part l.rlist (8 * l.nrank) (some l.prof)
/-- Entries of a rank list: handler, zero byte, holder, thread rank (spec 15 R380). -/
def rankEntries (bs : List Byte) : List (Nat × Nat × Nat × Nat) :=
  (List.range (bs.length / 8)).map fun i =>
    let v := leNat ((bs.drop (8 * i)).take 8)
    (v / 2 ^ 32, bits v 24 8, bits v 12 12, bits v 0 12)
/-- BADRANKS: a field out of range, an unplaced holder, a rank that is bound already. -/
def State.badRanks (s : State) (l : Launch) : List (Nat × Nat × Nat × Nat) → Bool
  | [] => false
  | (_, z, h, t) :: r => z != 0 || t < 1024 || !l.cores.contains h || (tget s.fab.ranks t).isSome || r.any (fun x => x.2.2.2 == t) || s.badRanks l r
/-- What the LU meets when it reads memory: a result, or that memory cannot answer yet, with the request to be sent to another module (log entry
35). What it has read is read again once the answer has come. -/
abbrev LuRes (α : Type) := Except (Option Req) (State × α)
/-- The entries of the rank list; none where its read faults. -/
def State.rankEnts (s : State) (l : Launch) : LuRes (Option (List (Nat × Nat × Nat × Nat))) :=
  match s.rankList l with
  | .ok s bs _ => .ok (s, some (rankEntries bs))
  | .fail s _ _ => .ok (s, none)
  | .busy q => .error q
/-- The WPDEF block of a launch, zeros without one; none where it is misaligned or its read faults (spec 15 R380). -/
def State.wpBlock (s : State) (l : Launch) : LuRes (Option (List Byte)) :=
  let wp := l.fld 26 0 48
  if wp = 0 then .ok (s, some (List.replicate 64 0))
  else if wp % 8 ≠ 0 then .ok (s, none)
  else match s.luBytes l.part wp 64 (some l.prof) with
  | .ok s bs _ => .ok (s, some bs)
  | .fail s _ _ => .ok (s, none)
  | .busy q => .error q
/-- The checks of R385, in the order of its table: the code, 0 when all pass, with the rank list and the WPDEF block that have been read. -/
def State.validate (s : State) (l : Launch) : LuRes (Nat × List (Nat × Nat × Nat × Nat) × List Byte) :=
  let p := s.part l.part
  if l.badRec then .ok (s, 0x01, [], [])
  else if l.cores.isEmpty || l.cores.any (fun k => !(partCores p).contains k) then .ok (s, 0x02, [], [])
  else if p.codeLen < l.idst + l.ilen then .ok (s, 0x03, [], [])
  else match s.rankEnts l with
  | .error q => .error q
  | .ok (s, list) =>
    let es := list.getD []
    if !l.entryOk (l.fld 1 0 32) || es.any (fun e => !l.entryOk e.1) then .ok (s, 0x04, [], [])
    else if s.badRanks l es then .ok (s, 0x05, [], [])
    else match s.wpBlock l with
    | .error q => .error q
    | .ok (s, wp) =>
      if list.isNone || wp.isNone then .ok (s, 0x06, [], [])
      else if (s.scope l.part l.parent).st = .free ∨ (l.host = false ∧ s.inScope l.part l.subScope l.parent = false) then .ok (s, 0x07, [], [])
      else .ok (s, 0, es, wp.getD [])
/-- A launch whose PARENT has died before its acceptance ends CANCELLED at its next transition (spec 15 R384, R401). -/
def State.parentGone (s : State) (l : Launch) : Bool := l.killed || s.scopeDead l.part l.parent
/-- VALIDATING: the launch goes on to LOADING or ends; what is still to be read from another module comes first. -/
def State.validating (s : State) (lid : Nat) (l : Launch) : State :=
  if s.parentGone l then s.finishLaunch lid l stCancelled 0
  else match s.validate l with
    | .error q => (s.askEng q).later .distributorSelect
    | .ok (s, code, es, wp) =>
      if code ≠ 0 then s.finishLaunch lid l stFailed code
      else (s.setLaunch lid { l with st := .loading, ents := es, wp := wp }).due .launchLoadDone lid
/-- DISTRIBUTOR_SELECT: the LU takes an entry of a queue and validates it; the entry stays in the queue until it is accepted or ends (spec 15 R382 to
R385). -/
def execDistributorSelect (s : State) : Out :=
  match s.launches.find? fun x => x.2.st == .selected with
  | some (lid, l) => .next (s.validating lid l)
  | none =>
    let busy := s.launches.any fun x => match x.2.st with | .loading | .binding => true | .queued | .selected | .spawning | .running | .draining | .ended => false
    let live := (s.launches.filter fun x => match x.2.st with | .running | .draining => true | .queued | .selected | .loading | .binding | .spawning | .ended => false).length
    if busy || decide (64 ≤ live) then .next s
    else match s.pickPart with
    | none => .next s
    | some part => match s.nextOf part with
      | none => .next s
      | some lid => match tget s.launches lid with
        | none => .next s
        | some l =>
          let l := { l with st := .selected, cores := placed ((l.record.drop 96).take 96), stage := 0, pos := 0, image := [] }
          .next ((({ s with lastPart := part } : State).setLaunch lid l).validating lid l)

/-! ### Loading, binding and acceptance (spec 15 R384, R385, R387 to R389) -/

/-- What LOADING meets next: the launch with more to do, memory that cannot answer yet, or its end with 0 or a reject code. -/
inductive LoadRes where
  | more (s : State) (l : Launch)
  | busy (q : Option Req)
  | ends (s : State) (code : Nat)
/-- The next line of LOADING: the image is copied and hashed, and the tile image read once (spec 15 R384, R385, R389). -/
def State.loadLine (s : State) (l : Launch) : LoadRes :=
  let o := s.luOp l.part (some l.prof)
  let at_ (va n : Nat) : Nat := min (n - l.pos) (64 - (va + l.pos) % 64)
  let tiles (s : State) (l : Launch) : LoadRes :=
    if l.tlen = 0 then .ends s 0 else if l.tsrc % 64 ≠ 0 then .ends s 0x0A else .more s { l with stage := 2, pos := 0, image := [] }
  match l.stage with
  | 0 =>
    if l.fld 0 17 1 = 0 ∨ l.ilen ≤ l.pos then .more s { l with stage := 1, pos := 0 }
    else
      let k := at_ l.isrc l.ilen
      match s.luBytes l.part (l.isrc + l.pos) k (some l.prof) with
      | .busy q => .busy q
      | .fail s _ _ => .ends s 0x03
      | .ok s bs _ => match codeWriteRun s o 3 (l.idst + l.pos) bs with
        | .busy q => .busy q
        | .fail s _ _ => .ends s 0x03
        | .ok s _ _ => .more s { l with pos := l.pos + k }
  | 1 =>
    if l.ilen ≤ l.pos then (if sha256 l.image ≠ (l.record.drop 32).take 32 then .ends s 0x08 else tiles s l)
    else
      let k := at_ ((s.part l.part).codeVa + l.idst) l.ilen
      match s.codeRead o (l.idst + l.pos) k with
      | .busy q => .busy q
      | .fail s _ _ => .ends s 0x03
      | .ok s bs _ => .more s { l with pos := l.pos + k, image := l.image ++ bs }
  | _ =>
    if l.tlen ≤ l.pos then .ends s 0
    else match s.readFor o (l.tsrc + l.pos) 64 with
      | .busy q => .busy q
      | .fail s _ _ => .ends s 0x0A
      | .ok s _ _ => .more s { l with pos := l.pos + 64 }
/-- A gated core is ungated before a space is counted on it (spec 16 R425). -/
def State.ungate (s : State) (core : Nat) : State :=
  if (s.core core).run = .gated then (s.onCore core fun c => { c with run := .ungating }).later .ungatingEnd core else s
/-- Acceptance: the launch leaves its queue, the scope is created, the thread ranks are bound, and the fan-out and the rank spawns go to the LU's interface. The
spec names no die whose scope unit keeps a launch scope: die 0's does (log entry 136, DESIGN CHOICE). -/
def State.acceptLaunch (s : State) (lid : Nat) (l : Launch) (id : BitVec 16) : State :=
  let p := s.part l.part
  let (t, s) := s.drawFree
  let s := s.newScope l.part id { parent := l.parent, policy := (l.word 0).testBit 16, die := 0, launch := some lid }
  let s := (s.setPart l.part { s.part l.part with launchQ := (s.part l.part).launchQ.filter (· != lid) }).queueChanged l.part
  let s := l.cores.foldl State.ungate s
  let s := l.ents.foldl (fun (s : State) e => { s with fab := { s.fab with ranks := tset s.fab.ranks e.2.2.2 (e.2.2.1, false) } }) s
  let first := s.fab.nextMsg
  let l := { l with st := .spawning, scope := id, accTime := t, lostAt := p.lwSeq, logAt := p.poisonSeq + p.errSeq, image := [],
                    outs := (List.range (1 + l.ents.length)).map (first + ·) }
  let s := s.setLaunch lid l
  let s := s.sendNow 876 { builtinMsg (s.rankOf (l.cores.headD 0)) 0x320 3 l.part id l.args with payload := l.units l.wp, cls := 6 }
  let s := l.ents.foldl (fun (s : State) e =>
    s.sendNow 876 { spawnMsg (s.rankOf e.2.2.1) (BitVec.ofNat 32 e.1) l.lane l.part id l.args with bind := some (s.rankOf e.2.2.2), cls := 6 }) s
  (s.due .waveStart lid).due .distributorSelect
/-- LOADING, a line at a time: the copy, the hash and the tile image; then BINDING, or the end. -/
def State.loading (s : State) (lid : Nat) (l : Launch) : State :=
  match s.loadLine l with
  | .busy q => (s.askEng q).later .launchLoadDone lid
  | .more s l => (s.setLaunch lid l).due .launchLoadDone lid
  | .ends s c =>
    if s.parentGone l then s.finishLaunch lid l stCancelled 0
    else if c ≠ 0 then s.finishLaunch lid l stFailed c
    else (s.setLaunch lid { l with st := .binding }).due .launchLoadDone lid
/-- BINDING: the launch binds its scope and spaces and is accepted, waits for space at the head of its queue, or ends. -/
def State.binding (s : State) (lid : Nat) (l : Launch) : State :=
  if l.killed || !s.scopeLive l.part l.parent then s.finishLaunch lid l stCancelled 0
  else if l.cores.any fun k => decide (8 ≤ s.spacesOn k) then
    let p := s.part l.part
    ((s.setPart l.part { p with launchQ := lid :: p.launchQ.filter (· != lid) }).setLaunch lid { l with st := .queued, waitSpace := true, image := [] }).due .distributorSelect
  else match s.allocId with
    | (s, none) => s.finishLaunch lid l stFailed 0x09
    | (s, some id) => s.acceptLaunch lid l id
/-- LAUNCH_LOAD_DONE: the next line of a launch in LOADING, or its BINDING (spec 15 R384, R385). a = launch. -/
def execLaunchLoadDone (s : State) : Out :=
  let lid := s.occ.a
  match tget s.launches lid with
  | none => .next s
  | some l => match l.st with
    | .loading => .next (s.loading lid l)
    | .binding => .next (s.binding lid l)
    | .queued | .selected | .spawning | .running | .draining | .ended => .next s

/-! ### Launch spaces at a core (spec 15 R388, R389, R395, R396) -/

/-- The tile image, line by line: lines whose read faults or is poisoned are marked. -/
def tileLines (s : State) (op : Op) : Nat → Nat → Nat → LuRes (List (List Byte × Bool))
  | 0, _, _ => .ok (s, [])
  | f + 1, va, n =>
    if n = 0 then .ok (s, [])
    else
      let one : LuRes (List Byte × Bool) := match s.readFor op va 64 with
        | .busy q => .error q
        | .fail s _ _ => .ok (s, List.replicate 64 0, true)
        | .ok s bs bad => .ok (s, bs, bad)
      match one with
      | .error q => .error q
      | .ok (s, x) => match tileLines s op f (va + 64) (n - 64) with
        | .error q => .error q
        | .ok (s, r) => .ok (s, x :: r)
/-- A core takes a space for a launch: its defaults, and its pages zero but for the tile image, which its interface reads in class 7 of the launch's profile (spec
12 R321; 15 R389). -/
def State.takeSpace (s : State) (core n part : Nat) (scope : BitVec 16) (pay : List Byte) : Except (Option Req) State :=
  let w (o k : Nat) : Nat := leNat ((pay.drop o).take k)
  let d : Defaults :=
    { shape := BitVec.ofNat 16 (w 0x68 2) &&& 0x0F1F, fpctl := BitVec.ofNat 16 (w 0x6A 2) &&& 0x1F0F, seed := BitVec.ofNat 32 (w 0x6C 4)
      linkwait := BitVec.ofNat 32 (w 0x70 4 % 2 ^ 20)
      wpaddr := Vector.ofFn fun i => BitVec.ofNat 48 (w (0x80 + 8 * i.val) 8)
      wpmask := Vector.ofFn fun i => BitVec.ofNat 64 (w (0xA0 + 8 * i.val) 8) &&& 0xC000FFFFFFFFFFFF }
  let tsrc := w 0xC0 8 % 2 ^ 48
  let tlen := w 0xC8 8 % 2 ^ 18
  let allot := w 0x78 8 / 2 ^ 18 % 64
  let op : Op := { s.luOp part (some (w 0x78 8 / 2 ^ 12 % 8)) with unit := core, rank := s.rankOf core }
  if tlen ≠ 0 ∧ s.reachOpen op tsrc 1 = false then .error none
  else match tileLines s op (tlen / 64 + 1) tsrc tlen with
  | .error q => .error q
  | .ok (s, ls) =>
    let b := tilePa core n 0
    let s := ({ s with mem := memZero s.mem b 0x3F000 } : State).clearPoison b 0x3F000
    let s := (ls.zipIdx).foldl (fun (s : State) x => s.storeMarked (b + 64 * x.2) x.1.1 x.1.2) s
    let s := if ls.any fun x => x.2 then s.err part scope core 8 else s
    .ok (s.onCore core fun c => { c with
      spaces := tset c.spaces n { held := true, scope := scope, allot := allot, dflt := d, launch := (s.launchOf part scope).getD 0 }
      frames := c.frames.filter fun f => f.space != n
      spaceReqs := c.spaceReqs.filter (· != scope), refused := c.refused.filter (· != scope) })
/-- The lowest launch space of a core that is not held. -/
def State.freeSpace (s : State) (core : Nat) : Option Nat :=
  (List.range 8).find? fun n => match tget (s.core core).spaces n with | some x => !x.held | none => true
/-- The number of a space that a core holds or has been granted for a launch. -/
def State.spaceOf (s : State) (core lid : Nat) : Option Nat :=
  ((s.core core).spaces.find? fun x => x.2.held && decide (x.1 < 8) && x.2.launch == lid).map fun x => x.1
/-- LAUNCH_FANOUT: an interface forwards the fan-out, takes a space, and presents the entry handler's spawn (spec 15 R388). a = message. -/
def execLaunchFanout (s : State) : Out :=
  match s.net s.occ.a with
  | none => .next s
  | some nm =>
    let m := nm.msg
    let core := localOf m.dest
    let kids := kidsOf (placed (m.payload.take 96)) core
    if s.deadAt core m.part m.scope then .next ((s.builtinDone m).dropDead core m)
    else
      let s := if m.heldBack then s else
        kids.foldl (fun (s : State) k => s.sendNow core { m with dest := s.rankOf k, counted := false, tries := 0, waits := [] })
          ((s.setNet { nm with msg := { m with heldBack := true } }).onCore core fun c => { c with nodes := c.nodes ++ [{ part := m.part, scope := m.scope, kids := kids }] })
      let own := (s.launchOf m.part m.scope).bind (s.spaceOf core)
      let got : Except (Option Req) State := if (s.spaceFor core m.part m.scope).isSome then .ok s else match (if own.isSome then own else s.freeSpace core) with
        | none => .error none
        | some n => s.takeSpace core n m.part m.scope m.payload
      match got with
      | .error q => .next ((s.askEng q).later .launchFanout m.no)
      | .ok s =>
        let w (o k : Nat) : Nat := leNat ((m.payload.drop o).take k)
        let sp : Msg := { spawnMsg m.dest (BitVec.ofNat 32 (w 0x60 4)) (BitVec.ofNat 2 (w 0x79 1 % 8 / 2)) m.part m.scope m.args with
          no := s.fab.nextMsg, srank := s.rankOf 876, srclr := m.srclr, seqn := m.seqn, sctx := 16, counted := true, cls := 6 }
        match (s.core core).run with
        | .resetting => .next ((s.builtinDone m).err m.part m.scope core 0x40)
        | _ =>
          if s.hasRoom core sp then
            let s := { s.builtinDone m with fab := { (s.builtinDone m).fab with nextMsg := s.fab.nextMsg + 1 } }
            .next ((s.onCore core fun c => { c with mailbox := c.mailbox ++ [sp] }).due .handlerStart core)
          else .next (s.later .launchFanout m.no)
/-- TILE_SPACE_REQUEST: the LU grants a launch a space on a core, or refuses it (spec 15 R396; 16 R425). A core on which the launch's space is counted already,
because it is placed, is granted that space, and is not listed as granted on demand (log entry 43). a = message. -/
def execTileSpaceRequest (s : State) : Out :=
  match s.net s.occ.a with
  | none => .next s
  | some nm =>
    let m := nm.msg
    let s := s.builtinDone m
    let core := localOf ((m.arg 1).truncate 24)
    let scope : BitVec 16 := (m.arg 0).truncate 16
    let refuse (root : BitVec 16) : Out :=
      .next (s.luSend 876 (s.rankOf core) 0x340 m.part (arg4 0x8000000000000000 (root.zeroExtend 64) 0 0) [])
    match s.launchOf m.part scope with
    | none => refuse scope
    | some lid => match tget s.launches lid with
      | none => refuse scope
      | some l =>
        let on := l.st == .spawning || l.st == .running
        let mine := l.cores.contains core || l.granted.contains core
        if !on || (!mine && decide (8 ≤ s.spacesOn core)) then refuse l.scope
        else match (if (s.spaceOf core lid).isSome then s.spaceOf core lid else s.freeSpace core) with
        | none => refuse l.scope
        | some n =>
          let s := (s.ungate core).setLaunch lid (if mine then l else { l with granted := l.granted ++ [core] })
          -- the number is taken now; the interface sets the space up when the grant comes
          let s := if (s.spaceOf core lid).isSome then s
            else s.onCore core fun c => { c with spaces := tset c.spaces n { held := true, ready := false, scope := l.scope, launch := lid } }
          .next (s.luSend 876 (s.rankOf core) 0x340 l.part (arg4 (BitVec.ofNat 64 n) (l.scope.zeroExtend 64) 0 0) (l.units l.wp))
/-- TILE_SPACE_GRANT: the interface sets the granted space up, or returns the launch's messages from now on (spec 15 R396). A space that has been set up, or
released, meanwhile stays as it is. a = message. -/
def execTileSpaceGrant (s : State) : Out :=
  match s.net s.occ.a with
  | none => .next s
  | some nm =>
    let m := nm.msg
    let core := localOf m.dest
    let root : BitVec 16 := (m.arg 1).truncate 16
    let n := (m.arg 0).toNat % 16
    if (m.arg 0).getLsbD 63 then
      let s := ((s.builtinDone m).onCore core fun c => { c with spaceReqs := c.spaceReqs.filter (· != root), refused := c.refused ++ [root] }).err m.part root core 0x40
      .next (s.later .budgetPeriod)
    else if ((tget (s.core core).spaces n).map fun x => x.held && !x.ready && x.scope == root) ≠ some true then
      .next ((s.builtinDone m).onCore core fun c => { c with spaceReqs := c.spaceReqs.filter (· != root) })
    else match s.takeSpace core n m.part root m.payload with
    | .error q => .next ((s.askEng q).later .tileSpaceGrant m.no)
    | .ok s => .next (s.builtinDone m)
/-- A period of 1024 cycles ends: every counter is 0, the profiles and the factor set since the last boundary come into force, and refused interfaces
may ask again. -/
def State.newPeriod (s : State) : State :=
  { s with cores := s.cores.map fun x => (x.1, { x.2 with refused := [] }), parts := s.parts.map fun x => (x.1, { x.2 with inForce := x.2.budgets })
           fab := { s.fab with charged := [], portQ := [], factor := s.smc.freq } }
/-- A packet that waited at a port goes on, unless the transport has given it up meanwhile. -/
def State.portAgain (s : State) (pk : BPacket) : State :=
  if pk.kind = 3 ∨ (s.peer pk.dst.toNat).buf.any (fun x => x.pkt == pk) = true then s.portSend pk else s
/-- BUDGET_PERIOD: the boundary of a period of 1024 cycles; what waited for capacity tries again, class 7 first (spec 15 R396, R398, R400, R401; 18 R479). -/
def execBudgetPeriod (s : State) : Out :=
  let q := s.fab.portQ
  .next ((q.filter (·.cls == 6) ++ q.filter (·.cls != 6)).foldl State.portAgain s.newPeriod).sendHeld

/-! ### Waves (spec 15 R391, R392) -/

/-- The counts a unit keeps of the scopes of a subtree: RECVD, SENT, OPS, LIVE, ERR, and DONE. -/
def State.nodeSums (s : State) (part : Nat) (root : BitVec 16) (hit : Nat → Bool) (live : Bool) : List Nat :=
  let mine := s.counts.filter fun x => hit (x.1 % 4096) && x.1 / 4096 / 65536 == part && s.inScope part root (BitVec.ofNat 16 (x.1 / 4096))
  let sum (f : Cnt → Nat) : Nat := (mine.map fun x => f x.2).foldl (· + ·) 0 % 2 ^ 32
  let lv := if live then (s.ctxs.filter fun x => decide (x.1 % 17 < 16) && hit (x.1 / 17) && x.2.st != .free && s.inScope part root x.2.ctl.cur).length else 0
  let ops := sum Cnt.ops
  [sum Cnt.recvd, sum Cnt.sent, ops, lv, (mine.map fun x => x.2.err.toNat).foldl Nat.lor 0, (lv == 0 && ops == 0).toNat]
/-- Reports combined. -/
def joinSums (a b : List Nat) : List Nat :=
  let add (i : Nat) : Nat := (a.getD i 0 + b.getD i 0) % 2 ^ 32
  [add 0, add 1, add 2, add 3, Nat.lor (a.getD 4 0) (b.getD 4 0), Nat.land (a.getD 5 1) (b.getD 5 1)]
/-- A wave report. -/
def State.sendReport (s : State) (core part : Nat) (up : BitVec 24) (scope : BitVec 16) (no : Nat) (v : List Nat) : State :=
  let x (i : Nat) : Nat := v.getD i 0
  s.luSend core up 0x328 part (arg4 (BitVec.ofNat 64 (x 0 * 2 ^ 32 + x 1)) (BitVec.ofNat 64 (x 2 * 2 ^ 32 + x 3))
    (BitVec.ofNat 64 (x 4 * 2 ^ 32 + x 5 * 2 ^ 16 + no % 2 ^ 16)) (scope.zeroExtend 64)) []
/-- The fields of a report. -/
def reportSums (m : Msg) : List Nat :=
  let v (i : Fin 4) : Nat := (m.arg i).toNat
  [v 0 / 2 ^ 32, v 0 % 2 ^ 32, v 1 / 2 ^ 32, v 1 % 2 ^ 32, v 2 / 2 ^ 32, bits (v 2) 16 1]
/-- A launch in SPAWNING is RUNNING once its fan-out and its rank spawns have left the LU, and ENDING at once if its scope has died (spec 15 R384). -/
def State.spawned (s : State) (lid : Nat) : State :=
  match tget s.launches lid with
  | some l =>
    if l.st ≠ .spawning ∨ (s.fab.msgs.any fun x => l.outs.contains x.msg.no && x.ph == .atSender) = true then s
    else if l.killed then (s.setLaunch lid { l with st := .draining, outs := [] }).due .launchEnd lid
    else s.setLaunch lid { l with st := .running, outs := [] }
  | none => s
/-- WAVE_START: the LU asks the root, and each core granted a space, for a wave, the first one when the last fan-out has left (spec 15 R384, R392, R396).
a = launch. -/
def execWaveStart (s : State) : Out :=
  let lid := s.occ.a
  let s := s.spawned lid
  match tget s.launches lid with
  | none => .next s
  | some l =>
    if l.st = .spawning then .next (s.later .waveStart lid)
    else if l.st ≠ .running then .next s
    else
      let no := l.wave + 1
      let to_ := l.cores.take 1 ++ l.granted
      let s := s.setLaunch lid { l with wave := no, waiting := to_, sums := [0, 0, 0, 0, 0, 1] }
      .next (to_.foldl (fun (s : State) k => s.luSend 876 (s.rankOf k) 0x324 l.part (arg4 0 0 (BitVec.ofNat 64 (no % 2 ^ 16)) (l.scope.zeroExtend 64)) []) s)
/-- The children of a core's node in the tree of a launch. -/
def State.kidsAt (s : State) (core part : Nat) (scope : BitVec 16) : List Nat :=
  ((s.core core).nodes.filter fun x => x.part == part && x.scope == scope).flatMap fun x => x.kids
/-- WAVE_REQUEST: a node takes a snapshot, forwards the request, and reports at once when it has no child (spec 15 R392). a = message. -/
def execWaveRequest (s : State) : Out :=
  match s.net s.occ.a with
  | none => .next s
  | some nm =>
    let m := nm.msg
    let core := localOf m.dest
    let scope : BitVec 16 := (m.arg 3).truncate 16
    let no := (m.arg 2).toNat % 2 ^ 16
    let s := s.builtinDone m
    if s.deadAt core m.part scope then .next s
    else
      let kids := s.kidsAt core m.part scope
      let v := s.nodeSums m.part scope (· == core) true
      if kids = [] then .next (s.sendReport core m.part m.srank scope no v)
      else
        let w : Wave := { part := m.part, scope := scope, no := no, up := m.srank, waiting := kids, sums := v }
        let s := s.onCore core fun c => { c with waves := (c.waves.filter fun x => x.scope != scope || x.part != m.part) ++ [w] }
        .next (kids.foldl (fun (s : State) k => s.luSend core (s.rankOf k) 0x324 m.part (arg4 0 0 (m.arg 2) (m.arg 3)) []) s)
/-- The last report of a wave has come: two waves alike, with DONE and SENT = RECVD, end the launch; else another wave follows. -/
def State.judgeWave (s : State) (lid : Nat) (l : Launch) : State :=
  let seen := l.cores ++ l.granted
  let own := s.nodeSums l.part l.scope (fun u => !seen.contains u) false
  let lost := ((s.subtree l.part l.scope).map fun id => (s.scope l.part id).lostMsgs).foldl (· + ·) 0
  let v := joinSums (joinSums l.sums own) [lost, 0, 0, 0, 0, 1]
  let l' := { l with prev := v, err := BitVec.ofNat 8 (v.getD 4 0) }
  if v = l.prev ∧ v.getD 5 0 = 1 ∧ v.getD 0 0 = v.getD 1 0 then (s.setLaunch lid { l' with st := .draining }).due .launchEnd lid
  else (s.setLaunch lid l').later .waveStart lid
/-- WAVE_REPORT: a child's report is combined at its parent, and the last one at the LU judges the wave (spec 15 R392). a = message. -/
def execWaveReport (s : State) : Out :=
  match s.net s.occ.a with
  | none => .next s
  | some nm =>
    let m := nm.msg
    let u := localOf m.dest
    let scope : BitVec 16 := (m.arg 3).truncate 16
    let no := (m.arg 2).toNat % 2 ^ 16
    let from_ := localOf m.srank
    let s := s.builtinDone m
    if u = 876 then
      match s.launches.find? fun x => x.2.part == m.part && x.2.scope == scope && x.2.st == .running && x.2.wave % 2 ^ 16 == no && x.2.waiting.contains from_ with
      | none => .next s
      | some (lid, l) =>
        let l := { l with waiting := l.waiting.filter (· != from_), sums := joinSums l.sums (reportSums m) }
        .next (if l.waiting.isEmpty then s.judgeWave lid l else s.setLaunch lid l)
    else
      match (s.core u).waves.find? fun w => w.part == m.part && w.scope == scope && w.no == no && w.waiting.contains from_ with
      | none => .next s
      | some w =>
        let rest := (s.core u).waves.filter fun x => x != w
        let w := { w with waiting := w.waiting.filter (· != from_), sums := joinSums w.sums (reportSums m) }
        if w.waiting.isEmpty then .next ((s.onCore u fun c => { c with waves := rest }).sendReport u m.part w.up scope no w.sums)
        else .next (s.onCore u fun c => { c with waves := rest ++ [w] })

/-! ### The end of a launch (spec 15 R393; 18 R468, R469) -/

/-- LAUNCH_RELEASE: a core frees its space of a launch and forwards the release to its children (spec 15 R393). a = message. -/
def execLaunchRelease (s : State) : Out :=
  match s.net s.occ.a with
  | none => .next s
  | some nm =>
    let m := nm.msg
    let core := localOf m.dest
    let scope : BitVec 16 := (m.arg 0).truncate 16
    let s := s.builtinDone m
    let sp := (s.core core).spaces.filter fun x => x.2.held && x.2.scope == scope && decide (x.1 < 8)
    let kids := s.kidsAt core m.part scope
    let s := s.onCore core fun c => { c with
      nodes := c.nodes.filter fun x => !(x.part == m.part && x.scope == scope)
      spaces := c.spaces.filter fun x => !(sp.any fun y => y.1 == x.1)
      frames := c.frames.filter fun f => !(sp.any fun y => y.1 == f.space)
      seals := c.seals.filter fun e => !(sp.any fun y => y.1 == e.space)
      refused := c.refused.filter (· != scope), spaceReqs := c.spaceReqs.filter (· != scope) }
    .next (kids.foldl (fun (s : State) k => s.luSend core (s.rankOf k) 0x32C m.part (arg4 (m.arg 0) 0 0 0) []) s)
/-- Measurement blocks 1 to 5: block 1 is the SHA-256 of the SMC's firmware; the others are those of images and fuses that are no part of the spec (spec 18
R467; log entry 10). -/
def State.measured (s : State) (i : Nat) : List Byte :=
  if i = 1 then sha256 s.smc.firmware else ((Config.signature (0x100 + i) s.smc.firmware) ++ List.replicate 32 0).take 32
/-- Bytes 0x000 to 0x0FF of a custody record. -/
def State.custodyBytes (s : State) (lid : Nat) (l : Launch) (st : BitVec 8) (seq : Nat) (ended : Word) : List Byte :=
  let p := s.part l.part
  leBytes 4 0x4F564352 ++ leBytes 2 1 ++ leBytes 2 0x280 ++ leBytes 8 seq ++ leBytes 4 lid ++ leBytes 2 s.modid.toNat ++ leBytes 1 l.part ++
    leBytes 1 st.toNat ++ leBytes 2 l.scope.toNat ++ leBytes 2 0 ++ leBytes 4 l.err.toNat ++ ((l.record.drop 32).take 32) ++
    s.measured 1 ++ s.measured 2 ++ s.measured 3 ++ s.measured 4 ++ leBytes 8 l.accTime.toNat ++ leBytes 8 ended.toNat ++ leBytes 8 (Config.bootId s.smc.boots).toNat ++
    leBytes 4 l.wave ++ leBytes 4 (s.scope l.part l.scope).dropped ++ leBytes 4 (p.lwSeq - l.lostAt) ++ leBytes 4 (p.poisonSeq + p.errSeq - l.logAt) ++
    List.replicate 24 0
/-- The release goes down the tree and to the cores granted a space. -/
def State.releaseLaunch (s : State) (l : Launch) : State :=
  (l.cores.take 1 ++ l.granted).foldl (fun (s : State) k => s.luSend 876 (s.rankOf k) 0x32C l.part (arg4 (l.scope.zeroExtend 64) 0 0 0) []) s
/-- A quiescent launch scope returns to FREE, with the LIVE scopes its launch made below it (spec 01 R41). -/
def State.freeLaunch (s : State) (lid : Nat) (l : Launch) : State :=
  let ids := (s.subtree l.part l.scope).filter fun id => (s.scope l.part id).st == .live && s.launchOf l.part id == some lid
  ids.foldl (fun s id => s.freeScope l.part id) s
/-- LAUNCH_END: a launch cancelled before acceptance ends; one in ENDING releases its spaces and scope, asks for its custody record, and ends (spec
15 R384, R386, R393; 18 R468). a = launch. -/
def execLaunchEnd (s : State) : Out :=
  let lid := s.occ.a
  match tget s.launches lid with
  | none => .next s
  | some l => match l.st with
    | .queued => .next (if l.killed then s.finishLaunch lid l stCancelled 0 else s)
    | .selected | .loading | .binding | .spawning | .running | .ended => .next s
    | .draining =>
      if l.killed ∧ (s.scope l.part l.scope).st ≠ .dead then .next s
      else
        let (t, s) := s.drawFree
        let st := if l.killed then stPruned else stOK
        let s := if l.released then s else s.releaseLaunch l
        if 256 ≤ s.smc.custQ.length then .next ((s.setLaunch lid { l with released := true }).later .launchEnd lid)
        else
          let seq := s.smc.custNext
          let rec_ := s.custodyBytes lid l st seq t
          let s := { s with smc := { s.smc with custNext := seq + 1, custQ := s.smc.custQ ++ [(seq, l.part, rec_)] } }
          let s := (s.later .custodyRecordSigned).finishLaunch lid { l with custody := seq } st 0
          .next (if l.killed then s.freeScope l.part l.scope else s.freeLaunch lid l)
/-- CUSTODY_RECORD_SIGNED: the SMC signs the oldest request and stores the record in the ring of its partition (spec 18 R468, R469). -/
def execCustodyRecordSigned (s : State) : Out :=
  match s.smc.custQ with
  | [] => .next s
  | (seq, part, b) :: r =>
    let p := s.part part
    let sig := ((Config.signature 3 b) ++ List.replicate 384 0).take 384
    let at_ := s.logArea part + ringCustody + p.custody % 1024 * 640
    let s := (s.wrB at_ (b ++ sig)).setPart part { p with custody := p.custody + 1 }
    .next { s with smc := { s.smc with custQ := r, custPlace := tset (s.smc.custPlace.filter fun x => x.2 != at_) seq at_ } }

end Sys2Proof.Machine
end

