-- ==== Sys2Proof/Machine/Fabric.lean ====
section
/-! DEFINITION. Events of the Bramble fabric: the link layer of a port, its sessions, packets and transport between modules, abandoned packets, merged
requests, and the die-to-die bridge (spec 17 R434 to R445, R452). -/

namespace Sys2Proof.Machine

/-! ### Ports (spec 17 R436 to R438) -/

/-- FSEQ of the oldest flit in the replay buffer. -/
def Port.oldest (p : Port) : BitVec 12 := p.fseq - BitVec.ofNat 12 p.replay.length
/-- An acknowledgement up to a FSEQ frees the flits it covers. -/
def Port.acked (p : Port) (seq : BitVec 12) : Port :=
  let n := (seq + 1 - p.oldest).toNat
  if n = 0 ∨ p.replay.length < n then p else { p with replay := p.replay.drop n, replays := 0 }
/-- A port leaves UP: what its buffers hold is lost, and goes to transport retransmission. -/
def State.portLeaves (s : State) (port : Nat) (st : PortSt) : State :=
  (s.setPort port { s.port port with st := st, replay := [], pend := [], rx := [] }).setMevent 4
/-- The packet whose bytes stand at the head of a stream, with the bytes behind it; none while it is not whole. Header bytes 0 to 15 are in clear; the rest is
decrypted, and its tag checked, under the session's next counter (spec 17 R438, R439). -/
def Port.parse (p : Port) (i : Nat) (bs : List Byte) : Option (BPacket × List Byte) :=
  let n := 48 + leNat ((bs.drop 8).take 2)
  if bs.length < 16 ∨ bs.length < n then none
  else
    let iv := packetIv (BitVec.ofNat 32 (leNat (Config.portSecret i p.sessions 5))) p.rxCounter
    let (rest, ok) := gcmOpen (portKey i p.sessions 1) iv (bs.take 16) ((bs.take n).drop 16)
    let w (lo k : Nat) : Nat := leNat ((bs.drop lo).take k)
    let f := w 10 1
    let c := w 15 1
    some ({ dst := BitVec.ofNat 12 (w 0 2), kind := BitVec.ofNat 4 (w 0 2 / 2 ^ 12), src := BitVec.ofNat 12 (w 2 2), part := BitVec.ofNat 3 (w 2 2 / 2 ^ 12)
            merge := (w 2 2).testBit 15, tseq := BitVec.ofNat 32 (w 4 4), cls := BitVec.ofNat 3 f, poison := f.testBit 3, skip := f.testBit 4
            noord := f.testBit 5, zeros := BitVec.ofNat 5 (f / 64 * 8 + c / 32), ord := BitVec.ofNat 8 (w 11 1), srank := BitVec.ofNat 24 (w 12 3)
            sctx := BitVec.ofNat 4 c, unit := c.testBit 4, w0 := BitVec.ofNat 64 (leNat (rest.take 8)), w1 := BitVec.ofNat 64 (leNat ((rest.drop 8).take 8))
            body := rest.drop 16, tagOk := ok }, bs.drop n)
/-- The whole packets of a port's stream are taken, one after another; zeros between packets fill a flit (log entry 134). n bounds them. -/
def takePackets (port : Nat) : Nat → State → State
  | 0, s => s
  | n + 1, s =>
    let p := s.port port
    if 4 ≤ p.rx.length ∧ leNat (p.rx.take 4) = 0 then takePackets port n (s.setPort port { p with rx := p.rx.drop 4 })
    else match p.parse port p.rx with
    | none => s
    | some (pk, rest) =>
      let s := s.setPort port { p with rx := rest, rxCounter := p.rxCounter + 1 }
      takePackets port n { s with agenda := s.agenda ++ [(.bramblePacket, { a := port, pkt := some pk })] }
/-- LINK_FLIT_RECEIVE: a port takes a link flit, with the acknowledgement and the credits it brings. A data flit in sequence is acknowledged and its packets are
taken; a damaged one is refused; an idle flit, an acknowledgement and a training marker bring no data (spec 17 R436, R437). a = port, bytes = flit. -/
def execLinkFlitReceive (s : State) : Out :=
  let n := s.occ.a
  let f := s.occ.bytes
  let p := s.port n
  if p.st ≠ .up ∨ 8 ≤ n then .next s
  else if f.length ≠ 128 ∨ leNat (f.drop 124) ≠ (crc32 (f.take 124)).toNat then .next (s.linkForm n p.expect 3 [])
  else
    let w0 := leNat (f.take 2)
    let w1 := leNat ((f.drop 2).take 2)
    let seq := BitVec.ofNat 12 w0
    let p := p.acked (BitVec.ofNat 12 w1)
    let s := (s.setPort n { p with credits := p.credits + 8 * (w1 / 2 ^ 12) }).portPump n
    let p := s.port n
    match w0 / 2 ^ 12 with
    | 1 =>
      if seq = p.expect then
        let p := { p with expect := p.expect + 1, freed := p.freed + 1, rx := p.rx ++ (f.drop 4).take 120 }
        .next (takePackets n p.rx.length ((s.setPort n p).linkForm n seq 2 []))
      else if (p.expect - seq).toNat ≤ 512 then .next (s.linkForm n (p.expect - 1) 2 [])
      else .next (s.linkForm n p.expect 3 [])
    | 3 => .next (s.due .replayRequest n seq.toNat)
    | _ => .next s
/-- REPLAY_REQUEST: the flits from the refused one on are sent again; one that has been replayed 8 times and is refused again takes the port down for retraining
(spec 17 R437). a = port, b = FSEQ. -/
def execReplayRequest (s : State) : Out :=
  let n := s.occ.a
  let p := (s.port n).acked (BitVec.ofNat 12 s.occ.b - 1)
  let k := (BitVec.ofNat 12 s.occ.b - p.oldest).toNat
  if p.st ≠ .up ∨ p.replay.length ≤ k then .next s
  else if 8 ≤ p.replays then .next ((s.setPort n p).due .portRetrain n)
  else .next ((p.replay.drop k).foldl (fun (s : State) f => s.linkSend n f) (s.setPort n { p with replays := p.replays + 1 }))
/-- A port trains: a training marker leaves it, and the end of the training follows. -/
def State.train (s : State) (port : Nat) : State := (s.linkForm port (s.port port).fseq 4 []).later .trainingComplete port 1
/-- PORT_RETRAIN: a port enters RETRAIN, or fails a training; after the fourth it goes DOWN (spec 17 R437). a = port. -/
def execPortRetrain (s : State) : Out :=
  let n := s.occ.a
  let p := s.port n
  match p.st with
  | .down => .next s
  | .up => .next ((s.portLeaves n .retrain).train n)
  | .retrain | .remap =>
    let s := s.setPort n { p with failed := p.failed + 1 }
    .next (if 4 ≤ p.failed + 1 then s.due .portDown n else s.linkForm n p.fseq 4 [])
/-- PORT_REMAP: a lane is replaced by a spare of its group, which is brought in; with none left the port goes DOWN (spec 17 R437; 18 R455, R474). a = port. -/
def execPortRemap (s : State) : Out :=
  let n := s.occ.a
  let left := (tget s.fab.spareLanes (n / 2)).getD 2
  if (s.port n).st = .down then .next s
  else if left = 0 then .next (s.due .portDown n)
  else
    let s := { s with fab := { s.fab with spareLanes := tset s.fab.spareLanes (n / 2) (left - 1) } }
    .next (((s.sparing (3 * 4096 + n) (2 ^ 50)).portLeaves n .remap).train n)
/-- PORT_DOWN: a port goes DOWN until the SMC acts (spec 17 R437). a = port. -/
def execPortDown (s : State) : Out := .next (if (s.port s.occ.a).st = .down then s else s.portLeaves s.occ.a .down)
/-- TRAINING_COMPLETE: the port is UP, with its sequence numbers and its session new. A port that is DOWN comes up by the SMC's action alone (spec 17 R437, R438).
a = port; b = 1: the end of a training that the port began. -/
def execTrainingComplete (s : State) : Out :=
  let n := s.occ.a
  let p := s.port n
  let up : Out := .next (((s.setPort n { p with st := .up, failed := 0, replays := 0, fseq := 0, expect := 0, pend := [], rx := [], freed := 0, credits := 0 }).setMevent 4).due .session n)
  match p.st with
  | .up => .next s
  | .retrain | .remap => up
  | .down => if s.occ.b = 1 then .next s else up
/-- A control packet of this module. -/
def ctlPacket (s : State) (dst : BitVec 12) (kind : BitVec 4) (tseq : BitVec 32) (body : List Byte) : BPacket :=
  { dst := dst, kind := kind, src := s.modid, part := 0, merge := false, tseq := tseq, cls := 6, poison := false, skip := false, noord := false, zeros := 0,
    ord := 0, srank := 0, sctx := 0, unit := false, w0 := 0, w1 := 0, body := body, tagOk := true }
/-- SESSION: a session of a port is set up or renewed: a new salt, which is free, and the packet counter at 0 (spec 17 R438). a = port. -/
def execSession (s : State) : Out :=
  let n := s.occ.a
  let (w, s) := s.drawFree
  let p := s.port n
  .next (s.setPort n { p with session := true, salt := w.truncate 32, counter := 0, rxCounter := 0, sessions := p.sessions + 1, tagFails := 0 })
/-- SESSION_COUNTER_LIMIT: the session is renewed before its counter reaches 2^63 (spec 17 R438). a = port. -/
def execSessionCounterLimit (s : State) : Out :=
  .next ((s.sendOn s.occ.a (ctlPacket s 0 7 0 (Config.signature 5 []))).due .session s.occ.a)
/-- KEEPALIVE: an idle port sends idle flits and a KEEPALIVE (spec 17 R436, R439). a = port. -/
def execKeepalive (s : State) : Out :=
  let p := s.port s.occ.a
  .next (if p.st = .up ∧ p.replay = [] ∧ p.pend = [] then (s.linkForm s.occ.a p.fseq 0 []).sendOn s.occ.a (ctlPacket s 0 8 0 []) else s)
/-- BREL: the depths of a switch port stand for the choice of first hops (spec 17 R441). a = port, bytes = depths. -/
def execBrel (s : State) : Out := .next (s.setPort s.occ.a { s.port s.occ.a with brel := s.occ.bytes.take 64 })

/-! ### Packets (spec 17 R439, R440, R442) -/

/-- A packet is dropped and counted. -/
def State.dropPacket (s : State) (port : Nat) : State := s.setPort port { s.port port with dropped := (s.port port).dropped + 1 }
/-- TSEQs taken in order move past those that came ahead. -/
def advancePeer : Nat → Peer → Peer
  | 0, p => p
  | n + 1, p => if p.ahead.contains p.expect.toNat then advancePeer n { p with expect := p.expect + 1, ahead := p.ahead.filter (· != p.expect.toNat) } else p
/-- A TACK becomes due: at once after the 32nd packet, else within 2 µs. -/
def State.oweTack (s : State) (q : Nat) : State :=
  let p := s.peer q
  let s := s.setPeer q { p with untacked := p.untacked + 1 }
  if p.untacked + 1 = 32 then s.due .tackTimer q else if p.untacked = 0 then s.later .tackTimer q else s
/-- The transport takes a TSEQ in its window, once; none for a duplicate. -/
def State.takeTseq (s : State) (q : Nat) (t : BitVec 32) : Option State :=
  let p := s.peer q
  let d := (t - p.expect).toNat
  if 4096 ≤ d ∨ p.ahead.contains t.toNat = true then none
  else if d = 0 then some (s.setPeer q (advancePeer 4096 { p with expect := p.expect + 1 }))
  else some (s.setPeer q { p with ahead := p.ahead ++ [t.toNat] })
/-- The message a packet carries. One from hardware bears UNIT; memory requests, parts of row accumulates and close notices keep their context's stream
(log entry 26). -/
def BMsg (pk : BPacket) : Msg :=
  let m := Msg.ofWords pk.w0.toNat pk.w1.toNat
  let a (i : Nat) : GReg := ⟨BitVec.ofNat 64 (leNat ((pk.body.drop (8 * i)).take 8)), false⟩
  let pay := (pk.body.drop 32).take (32 * m.plen.toNat)
  let code := if m.inl then wordsOf m.ilen.toNat (pk.body.drop (32 + 32 * m.plen.toNat)) else []
  let own := m.kind == .builtin && (decide (m.addr.toNat < 0x200) || m.addr == 0x208 || m.addr == 0x20C)
  { m with
    args := #v[a 0, a 1, a 2, a 3], payload := pay, code := code, srank := pk.srank, part := pk.part.toNat, arank := pk.srank, cls := pk.cls,
    sctx := if pk.unit && !own then 16 else pk.sctx.toNat, noord := pk.noord, hw := pk.unit && decide (localOf pk.srank < 768 ∨ 1024 ≤ localOf pk.srank),
    poisoned := if pk.poison then List.range m.plen.toNat else [], pa := (a 0).val.toNat }
/-- A message from another module enters the network here: it counts as sent at the interface that takes it (spec 15 R391). One that the ports to
that interface do not grant waits and tries again. RTAG is in no packet: that of a spawn, which its return would name, is free (log entries 4 and
112). -/
def State.intoNet (s : State) (pk : BPacket) (m : Msg) (port : Nat) : State :=
  let (tag, s) := if m.kind = .spawn then s.drawFree else (0, s)
  let m := { m with no := s.fab.nextMsg, rtag := tag.truncate 32, inport := some port }
  let s := if countsRank m.dest then s.onCnt m.part m.scope (s.place m) fun c => { c with sent := c.sent + 1 } else s
  let open_ := s.msgOpen m
  let nm : NetMsg := { msg := m, ph := if open_ then .flying else .retry, crossbar := true, stream := streamKey m, ord := pk.ord.toNat, flits := 1, got := 1 }
  let s : State := { s with fab := { s.fab with msgs := s.fab.msgs ++ [nm], nextMsg := s.fab.nextMsg + 1 } }
  if open_ then (s.charge m.part m.scope m.cls.toNat (s.msgUses m)).due .messageArrival m.no else s.later .nackRetry m.no
/-- The merged request that a reply answers, of the core and tag the reply names; one that has been answered already is none (spec 17 R442). -/
def State.mergedAsk (s : State) (m : Msg) : Option NetMsg :=
  let tag : BitVec 32 := if m.kind = .builtin then (m.arg 3).truncate 32 else m.addr
  s.fab.msgs.find? fun x => x.msg.merge && x.msg.kind == .builtin && x.msg.addr == 0x200 && modOf x.msg.srank == s.modid && x.ph != .done &&
    x.msg.srank == m.dest && (x.msg.arg 1).extractLsb' 32 32 == tag
/-- A packet that this module takes, by its KIND. -/
def State.takePacket (s : State) (pk : BPacket) (port : Nat) : State :=
  let q := pk.src.toNat
  let mask : Word := BitVec.ofNat 64 (leNat (pk.body.take 8))
  let ev (i : Instr) (o : Occ) : State := { s with agenda := s.agenda ++ [(i, o)] }
  match pk.kind.toNat with
  | 1 | 2 =>
    match s.takeTseq q pk.tseq with
    | none => s.oweTack q
    | some s =>
      let s := s.oweTack q
      let m := BMsg pk
      let held := match (s.scope m.part m.scope).group with | some g => ((tget (s.part m.part).groups g).getD []).contains pk.src | none => true
      if !pk.skip && held then s.intoNet pk m port
      else
      let s := if held then s else s.unheldGroup m.part
      if pk.noord then s
      else s.due .skipFlitArrival (streamKey m) pk.ord.toNat
  | 3 =>
    let m := BMsg pk
    match s.mergedAsk m with
    | none => s
    -- a request whose TACK is still to come counts when it comes (spec 17 R440)
    | some a => (if a.ph = .arrived then s.delNet a.msg.no else s.setNet { a with ph := .done }).intoNet pk { m with noord := true } port
  | 4 => ev .tack { a := q, b := pk.tseq.toNat, v := mask }
  | 5 => ev .tnack { a := q, b := pk.tseq.toNat }
  | 6 => ev .brel { a := port, bytes := pk.body }
  | 7 => ev .session { a := port }
  | _ => s
/-- BRAMBLE_PACKET: a packet comes by a port: dropped and counted, or taken (spec 17 R438, R439). The fourth failing tag within 1 ms, a matter of
time that is free, takes the port down for a new session. a = port, pkt = packet. -/
def execBramblePacket (s : State) : Out :=
  match s.occ.pkt with
  | none => .next s
  | some pk =>
    let n := s.occ.a
    if !pk.tagOk then
      let s := s.dropPacket n
      let p := s.port n
      let s := s.setPort n { p with tagFails := p.tagFails + 1 }
      if p.tagFails + 1 < 4 then .next s
      else
        let (w, s) := s.drawFree
        .next (if w.getLsbD 0 then s.due .portRetrain n else s)
    else if pk.dst ≠ s.modid ∨ pk.zeros ≠ 0 ∨ pk.kind = 0 ∨ 8 < pk.kind.toNat ∨ 640 < pk.body.length ∨ (4 ≤ pk.kind.toNat ∧ (pk.w0 ≠ 0 ∨ pk.w1 ≠ 0)) then .next (s.dropPacket n)
    else .next (s.takePacket pk n)

/-! ### The transport's sender (spec 17 R440) -/

/-- The request that a message of hardware to another module stands for: the number in its argument 1. -/
def State.askedBy (s : State) (m : Msg) : Option Req :=
  let t := (m.arg 1).toNat / 2 ^ 32
  if m.kind ≠ .builtin ∨ m.hw = false ∨ 0x210 ≤ m.addr.toNat ∨ m.addr = 0x200 ∨ m.addr = 0x20C then none
  else if m.addr = 0x208 then (if t = 0 then none else (s.reqs.find? fun x => (x.1 + 1) % 2 ^ 32 == t).map fun x => x.2)
  else (s.reqs.find? fun x => x.1 % 2 ^ 32 == t && (x.2.core == m.source)).map fun x => x.2
/-- Messages of a posted request, beside one, that are on their way or lost. -/
def State.moreOf (s : State) (r : Req) (no : Nat) : Bool :=
  (s.fab.msgs.any fun x => x.msg.no != no && modOf x.msg.srank == s.modid && (s.askedBy x.msg).map (fun y => y.no) == some r.no) ||
    s.fab.peers.any fun p => p.2.lost.any fun x => x.req == r.no
/-- A posted request is confirmed after its LOST entry: once (spec 17 R445). -/
def State.confirmLost (s : State) (r : Req) (mod : BitVec 12) : State := ((s.logLost r.part 2 r.lostSeq r.va r.len r.ctx mod r.rank).2).delReq r.no
/-- A packet of a posted request is acknowledged: of a row contribution the last one completes it, and one that was entered as lost gets its CONFIRMED entry
(spec 17 R445, R452). -/
def State.confirm (s : State) (m : Msg) : State :=
  match s.askedBy m with
  | none => s
  | some r =>
    if r.posted = false ∨ (r.lostSeq = 0 ∧ m.addr ≠ 0x208) ∨ s.moreOf r m.no = true then s
    else if r.lostSeq ≠ 0 then s.confirmLost r (modOf m.dest)
    else s.storeDone r
/-- A packet is acknowledged: its message counts as received and leaves. A merged request stays until its reply; one that has it is gone. A walk waits at most
LINKWAIT for the row it asked for (spec 17 R440, R442, R443). -/
def State.ackPacket (s : State) (no : Nat) : State :=
  match s.net no with
  | none => s
  | some nm =>
    let m := nm.msg
    let row := m.kind == .builtin && m.addr == 0x200
    let s := (s.received m.source m).confirm m
    if row && m.merge && nm.ph != .done then (s.setNet { nm with ph := .arrived, msg := { m with counted := true } }).later .mreqResend no
    else
      let s := s.delNet no
      if row && nm.ph != .done && decide (m.sctx = 16) && decide (m.source < 768) then s.later .linkwaitExpiry m.source 17 (m.replyTag.toNat * 2 ^ 18 + m.landing) else s
/-- A packet of a stream counts no longer among those not acknowledged, and the stream may send on (spec 17 R431). -/
def State.freeStream (s : State) (k : Option Nat) : State :=
  match k with
  | none => s
  | some k =>
    let x := s.stream k
    (s.setStream k { x with unacked := x.unacked - 1 }).pump k
/-- A TACK names a TSEQ as received: at or before the highest in order, or in the mask of those beyond it. -/
def tacks (b : BitVec 32) (mask : Word) (t : Nat) : Bool :=
  let d := (b - BitVec.ofNat 32 t).toNat
  let u := (BitVec.ofNat 32 t - b).toNat
  decide (d < 2 ^ 31) || (decide (1 ≤ u ∧ u ≤ 64) && mask.getLsbD (u - 1))
/-- Lost packets that have been received after all: each makes the CONFIRMED entry of its LOST one, the last of a request's for all of them. -/
def State.confirmAll (s : State) (q : BitVec 12) : List LostPkt → State
  | [] => s
  | x :: r =>
    let s := match s.req x.req with
      | some y =>
        if x.req ≠ 0 then (if r.any (fun z => z.req == x.req) || s.moreOf y s.fab.nextMsg then s else s.confirmLost y q)
        else (s.logLost x.part 2 x.seq x.va x.len x.ctx q x.rank).2
      | none => if x.req ≠ 0 then s else (s.logLost x.part 2 x.seq x.va x.len x.ctx q x.rank).2
    s.confirmAll q r
/-- TACK: packets that have been received leave the transport buffer; an abandoned store or contribution that has been received is CONFIRMED (spec 17 R440,
R445, R452). a = peer, b = TSEQ, v = mask. -/
def execTack (s : State) : Out :=
  let q := s.occ.a
  let p := s.peer q
  let b := BitVec.ofNat 32 s.occ.b
  let hit (t : Nat) : Bool := tacks b s.occ.v t
  let gone := p.buf.filter fun x => hit x.tseq
  let conf := p.lost.filter fun x => hit x.tseq
  let s := s.setPeer q { p with buf := p.buf.filter fun x => !hit x.tseq, lost := p.lost.filter fun x => !hit x.tseq }
  .next (gone.foldl (fun s x => (s.ackPacket x.no).freeStream x.stream) (s.confirmAll (BitVec.ofNat 12 q) conf))
/-- TNACK: the refused packet is sent again after 1 µs (spec 17 R440). a = peer, b = TSEQ. -/
def execTnack (s : State) : Out := .next (s.later .tnackResend s.occ.a s.occ.b)
/-- TNACK_RESEND (spec 17 R440). a = peer, b = TSEQ. -/
def execTnackResend (s : State) : Out :=
  match (s.peer s.occ.a).buf.find? fun x => x.tseq == s.occ.b with
  | some x => .next (s.portSend x.pkt)
  | none => .next s
/-- TACK_TIMER: a TACK goes to a peer whose packets have not been acknowledged (spec 17 R440). a = peer. -/
def execTackTimer (s : State) : Out :=
  let q := s.occ.a
  let p := s.peer q
  if p.untacked = 0 then .next s
  else
    let top := p.expect - 1
    let mask := (p.ahead.map fun t => 2 ^ ((BitVec.ofNat 32 t - top).toNat - 1)).foldl (· + ·) 0
    .next ((s.setPeer q { p with untacked := 0 }).portSend (ctlPacket s (BitVec.ofNat 12 q) 4 top (leBytes 8 mask)))
/-- TRANSPORT_RESEND: the oldest packet not acknowledged is sent again, every 16 µs (spec 17 R440). a = peer. -/
def execTransportResend (s : State) : Out :=
  let q := s.occ.a
  match (s.peer q).buf with
  | [] => .next s
  | x :: _ => .next ((s.portSend x.pkt).later .transportResend q)
/-- A walk whose row request is abandoned ends FAILED with REASON LINK (spec 17 R443). -/
def State.walkLost (s : State) (m : Msg) : State :=
  match s.walkTagged m.source m.replyTag.toNat with
  | none => s
  | some o => s.slotLanded m.source o m.landing (some (rsnLink, ⟨0, 0, 0⟩))
/-- The dispatch whose counts a lost exchange carried ends FAILED with REASON LINK: the one of that ROUND which has the message's index and its peer (spec 14
R365). -/
def State.exchangeLost (s : State) (m : Msg) : State :=
  let a := (m.arg 0).toNat
  match (s.tde m.source).ctxs.find? fun x => x.2.me == bits a 40 12 && x.2.peers.contains (m.dest, bits a 52 4) && (match x.2.run.bind s.op with
    | some o => o.engine == .dispatch && o.round.toNat == a % 2 ^ 32
    | none => false) with
  | some x => s.abortDispatch (x.2.run.getD 0) .failed rsnLink ⟨0, 0, 0⟩ false false
  | none => s
/-- An abandoned packet that may still be performed: its LOST entry stands with its TSEQ until a TACK names it (spec 17 R445). -/
def State.keepLost (s : State) (q : Nat) (x : LostPkt) : State :=
  let p := s.peer q
  s.setPeer q { p with lost := p.lost ++ [x] }
/-- What becomes of the message of an abandoned packet (spec 17 R440, R443, R445). -/
def State.abandon (s : State) (q tseq : Nat) (m : Msg) : State :=
  let s1 := s.delNet m.no
  match m.kind with
  | .spawn | .context => s1.returnMsg m.source m stLinkerr
  | .resume => s1.dropMsg m.source m
  | .builtin =>
    match s.askedBy m with
    | some r =>
      if r.posted then
        let (n, s) := (s1.received m.source m).storeLost r
        s.keepLost q { tseq := tseq, seq := if n = 0 then r.lostSeq else n, part := r.part, va := r.va, len := r.len, ctx := r.ctx, rank := r.rank, req := r.no }
      else (s1.received m.source m).answer r (some ⟨0x16, 0x03, BitVec.ofNat 64 r.va⟩)
    | none =>
      if m.addr = 0x208 then
        let s := (s1.received m.source m).err m.part m.scope m.source 0x10
        let (n, s) := s.logLost m.part 1 0 (m.arg 3).toNat m.payload.length m.sctx (BitVec.ofNat 12 q) m.srank
        s.keepLost q { tseq := tseq, seq := n, part := m.part, va := (m.arg 3).toNat, len := m.payload.length, ctx := m.sctx, rank := m.srank }
      else if m.addr = 0x200 ∧ m.sctx = 16 ∧ m.source < 768 then (s1.received m.source m).walkLost m
      else if m.addr = 0x380 then s1.exchangeLost m
      else s1.dropMsg m.source m
/-- PACKET_ABANDON: a packet not acknowledged within its LINKWAIT is no longer sent, and what it carries ends (spec 17 R440). a = peer, b = TSEQ. -/
def execPacketAbandon (s : State) : Out :=
  let q := s.occ.a
  let p := s.peer q
  match p.buf.find? fun x => x.tseq == s.occ.b with
  | none => .next s
  | some x =>
    let s := s.setPeer q { p with buf := p.buf.filter fun y => y.tseq != x.tseq }
    .next ((match s.net x.no with
      | none => s
      | some nm => if nm.ph = NetPh.done then s.ackPacket x.no else s.abandon q x.tseq nm.msg).freeStream x.stream)
/-- MREQ_RESEND: a merged request that has no reply within LINKWAIT is sent once more, with MERGE 0 (spec 17 R442). a = message. -/
def execMreqResend (s : State) : Out :=
  match s.net s.occ.a with
  | none => .next s
  | some nm => .next (if nm.msg.merge ∧ nm.ph = .arrived then (s.delNet nm.msg.no).forward { nm.msg with merge := false } else s)
/-- BRIDGE_LANE_FAIL: a lane of the die-to-die bridge fails; the capacity is less until a spare is in (spec 17 R435). -/
def execBridgeLaneFail (s : State) : Out := .next { s with fab := { s.fab with bridgeFailed := s.fab.bridgeFailed + 1 } }

end Sys2Proof.Machine
end

