-- ==== Sys2Proof/Machine/HostLink.lean ====
section
/-! DEFINITION. The host link: inbound and outbound host queues, the launch window, the registers of the functions, MSI-X vectors, and the RESYNC
record (spec 17 R446 to R451; 18 R453, R467, R470 to R473). -/

namespace Sys2Proof.Machine

/-- A function is enabled: with the link up and bring-up ended, the physical one, and those of partitions that are set up (spec 17 R446; 18 R480). -/
def State.fnOn (s : State) (fn : Nat) : Bool := s.smc.linkUp && !s.smc.recovery && (fn == 0 || (decide (fn ≤ 8) && (s.part (fn - 1)).isSet))
/-- An event comes due with a value. -/
def State.dueV (s : State) (i : Instr) (a : Nat) (v : Word) : State := { s with agenda := s.agenda ++ [(i, { a := a, v := v })] }

/-! ### Inbound messages and launches (spec 17 R449, R450) -/

/-- The message in an inbound slot, as the host queue of a partition sends it. -/
def slotMsg (s : State) (part slot : Nat) : Msg :=
  let w (i : Nat) : Word := (tget (s.vf (vfOf part)).inSlots (8 * slot + i)).getD 0
  { Msg.ofWords (w 0).toNat (w 1).toNat with
    args := arg4 (w 2) (w 3) (w 4) (w 5), srclr := BitVec.ofNat 12 (877 + part), srank := s.rankOf (877 + part), arank := s.rankOf (877 + part),
    part := part, sctx := 16 }
/-- A host may not send it: a payload, inline code, or a broken header. -/
def Msg.hostBad (m : Msg) : Bool := m.plen != 0 || m.pay || m.inl || (m.kind == .spawn && m.ilen != 0) || m.malformed
/-- The host queue takes a slot: the message leaves for its destination, or comes back MALFORMED on the outbound ring. A request of the host's
carries no mark of hardware (spec 07 R210). -/
def State.takeSlot (s : State) (part slot : Nat) : State :=
  let u := 877 + part
  let m := slotMsg s part slot
  if m.hostBad then
    s.sendNow u { resumeMsg (s.rankOf u) 0 stMalformed m.prio part m.scope (arg4 (BitVec.ofNat 64 m.w0) (BitVec.ofNat 64 m.w1) (m.arg 0) (m.arg 1)) with noord := true }
  else
    let (q, s) := s.seq u
    let m := if m.kind = .builtin ∧ m.addr.toNat < 0x300 then { m with args := arg4 (m.arg 0) (m.arg 1 &&& ~~~0x800000#64) (m.arg 2) (m.arg 3) } else m
    s.post u { m with seqn := q }
/-- INDB: the host submits a slot, which becomes busy; then the host queue takes it (spec 17 R449). a = function, b = slot, c = 1 when taken. -/
def execIndb (s : State) : Out :=
  let fn := s.occ.a
  let slot := s.occ.b % 64
  let f := s.vf fn
  let busy := f.inbusy.getLsbD slot
  if fn = 0 ∨ s.fnOn fn = false then .next s
  else if s.occ.c = 0 then
    .next (if busy then s else (s.setVf fn { f with inbusy := f.inbusy ||| (1#64 <<< slot) }).due .indb fn slot 1)
  else if busy then .next ((s.setVf fn { f with inbusy := f.inbusy &&& ~~~(1#64 <<< slot) }).takeSlot (fn - 1) slot)
  else .next s
/-- The staged launch record. -/
def Vf.staged (f : Vf) : List Byte := (List.range 32).flatMap fun i => leBytes 8 ((tget f.stage i).getD 0).toNat
/-- LWDB: the staged record is taken: it is queued with the next launch id, or refused by a full queue (spec 17 R450). a = function, c = 1 when
taken. -/
def execLwdb (s : State) : Out :=
  let fn := s.occ.a
  let f := s.vf fn
  let part := fn - 1
  if fn = 0 ∨ s.fnOn fn = false then .next s
  else if s.occ.c = 0 then .next (if f.lwstat.getLsbD 0 then s else (s.setVf fn { f with lwstat := f.lwstat ||| 1 }).due .lwdb fn 0 1)
  else if f.lwstat.getLsbD 0 = false then .next s
  else if 16 ≤ (s.part part).launchQ.length then .next (s.setVf fn { f with lwstat := (f.lwstat &&& ~~~1#64) ||| 4 })
  else
    let s := s.setVf fn { f with lwstat := f.lwstat &&& ~~~5#64 }
    let (lid, s) := s.queueLaunch part f.staged (s.rankOf (877 + part)) 0 true
    let f := s.vf fn
    .next (s.setVf fn { f with lwstat := BitVec.ofNat 64 (lid * 2 ^ 32) ||| (f.lwstat &&& 7) })

/-! ### Vectors (spec 17 R451) -/

/-- MSIX_UNMASK: a vector's mask bit is cleared, and its pending message is sent. a = function, b = vector. -/
def execMsixUnmask (s : State) : Out :=
  let fn := s.occ.a
  let v := s.occ.b
  if s.fnOn fn = false ∨ 4 ≤ v then .next s
  else
    let f := s.vf fn
    let e := (tget f.msixTab v).getD (2 ^ 96)
    let f := { f with msixTab := tset f.msixTab v (e % 2 ^ 96 + e / 2 ^ 97 * 2 ^ 97) }
    if f.pending.getLsbD v then .next ((s.setVf fn { f with pending := f.pending &&& ~~~(1#64 <<< v) }).raiseVec fn v)
    else .next (s.setVf fn f)
/-- MODERATION_EXPIRY: the moderation time ends; vector 0 is raised for entries written in it. a = function. -/
def execModerationExpiry (s : State) : Out :=
  let fn := s.occ.a
  let f := s.vf fn
  match f.moder with
  | [] => .next s
  | [_] => .next (s.setVf fn { f with moder := [] })
  | _ => .next (((s.setVf fn { f with moder := [0] }).raiseVec fn 0).later .moderationExpiry fn)

/-! ### Registers (spec 17 R447, R448; 18 R453, R471) -/

/-- A write of size bytes into a number at a bit position. -/
def putBits (old lo n v : Nat) : Nat := old % 2 ^ lo + v % 2 ^ n * 2 ^ lo + old / 2 ^ (lo + n) * 2 ^ (lo + n)
/-- A write of the MSI-X table; a vector whose mask bit it clears is unmasked. -/
def State.writeMsix (s : State) (fn off size : Nat) (v : Nat) : State :=
  let f := s.vf fn
  let n := off % 64 / 16
  let old := (tget f.msixTab n).getD (2 ^ 96)
  let new := putBits old (8 * (off % 16)) (8 * size) v
  let s := s.setVf fn { f with msixTab := tset f.msixTab n new }
  if bits old 96 1 = 1 ∧ bits new 96 1 = 0 then s.due .msixUnmask fn n else s
/-- A write of a register of a virtual function. -/
def State.writeVf (s : State) (fn off : Nat) (v : Word) : State :=
  let f := s.vf fn
  if off = 0x10 then s.due .indb fn (v.toNat % 64)
  else if off = 0x18 then s.setVf fn { f with obase := v &&& ~~~0xFFF#64 }
  else if off = 0x20 then s.setVf fn { f with octl := v &&& 0x800000000000FF0F }
  else if off = 0x30 then s.setVf fn { f with otail := v.toNat }
  else if off = 0x38 then s.due .lwdb fn
  else if off = 0x48 then s.setPart (fn - 1) { s.part (fn - 1) with qprio := v.toNat % 8 }
  else if 0x1000 ≤ off ∧ off < 0x1100 then (if f.lwstat.getLsbD 0 then s else s.setVf fn { f with stage := tset f.stage ((off - 0x1000) / 8) v })
  else if 0x2000 ≤ off ∧ off < 0x3000 then
    (if f.inbusy.getLsbD ((off - 0x2000) / 64) then s else s.setVf fn { f with inSlots := tset f.inSlots ((off - 0x2000) / 8) v })
  else s
/-- A write of a register of the physical function. -/
def State.writePf (s : State) (off : Nat) (v : Word) : State :=
  if off < 0x40 then { s with smc := { s.smc with cmd := tset s.smc.cmd (off / 8) v } }
  else if off = 0x800 then ({ s with smc := { s.smc with custSeq := v } } : State).due .custseq v.toNat
  else if off = 0x810 then s.dueV .mevent 0 v
  else s
/-- The event of a command's OP (spec 18 R454). -/
def cmdEvent : Nat → Option Instr
  | 1 => some .psetup | 2 => some .ptear | 3 => some .xlinv | 4 => some .regionCmd | 5 => some .smcMigrate | 6 => some .watchCmd
  | 7 => some .budgetCmd | 8 => some .fserv | 9 => some .qprio | 10 => some .modid | 11 => some .pcap | 12 => some .rekey
  | 13 => some .groupCmd | 14 => some .fsload | _ => none
/-- A word of the staged command record. -/
def Smc.staging (m : Smc) (i : Nat) : Nat := ((tget m.cmd i).getD 0).toNat
/-- A command has been performed with a status; its completion follows. -/
def State.cmdDone (s : State) (st : Nat) : State := ({ s with smc := { s.smc with status := some st } } : State).due .smcCommandComplete
/-- The command staged is taken: its record stands aside, and BUSY is set. -/
def State.cmdTake (s : State) : State := { s with smc := { s.smc with run := s.smc.cmd, status := none, cmdstat := s.smc.cmdstat ||| 0x100 } }
/-- A write of CMDDB: the record is taken at once and BUSY is set, and the command follows; it is ignored while a command is performed. An OP that is none
completes BADCMD (spec 18 R454). -/
def State.submitCmd (s : State) : State :=
  if s.smc.cmdstat.getLsbD 8 then s
  else match cmdEvent (s.smc.staging 0 % 256) with
  | some i => s.cmdTake.due i
  | none => s.cmdTake.cmdDone 1
/-- REGISTER_WRITE: a write of a BAR. One that is neither of 8 bytes nor of 4 to the MSI-X table, or to a function that is not enabled, is ignored.
a = function, b = offset, c = size, v = value. -/
def execRegisterWrite (s : State) : Out :=
  let fn := s.occ.a
  let off := s.occ.b
  let size := s.occ.c
  let v := s.occ.v
  if s.fnOn fn = false ∨ off % 8 ≠ 0 ∧ size ≠ 4 then .next s
  else if 0x8000 ≤ off ∧ off < 0x8040 ∧ (size = 8 ∨ size = 4 ∧ off % 4 = 0) then .next (s.writeMsix fn off size v.toNat)
  else if size ≠ 8 then .next s
  else if off = 0x4000 then .next (s.dueV .rscmd fn v)
  else if off = 0x4018 then .next (s.setVf fn { s.vf fn with rspage := v &&& 0xFFFF })
  else if fn ≠ 0 then .next (s.writeVf fn off v)
  else if off = 0x40 then .next s.submitCmd
  else .next (s.writePf off v)

/-- What a read of size bytes of a function's BAR returns: one of 8 bytes, or of 4 in the MSI-X table. Reserved space reads as zero; any other access, and a
function that is not enabled, returns all ones (spec 17 R447, R448; 18 R453, R454, R471). -/
def State.barRead (s : State) (fn off : Nat) (size : Nat := 8) : Word :=
  let f := s.vf fn
  let win : Word :=
    if off = 0x4008 then f.rsstat
    else if off = 0x4010 then BitVec.ofNat 64 f.rsrec.length
    else if off = 0x4018 then f.rspage
    else if 0x4400 ≤ off ∧ off < 0x5000 then BitVec.ofNat 64 (leNat ((f.rsrec.drop (f.rspage.toNat * 3072 + (off - 0x4400))).take 8))
    else if 0x8000 ≤ off ∧ off < 0x8040 then BitVec.ofNat 64 (bits ((tget f.msixTab (off % 64 / 16)).getD (2 ^ 96)) (8 * (off % 16)) 64)
    else if off = 0x9000 then f.pending
    else 0
  if s.fnOn fn = false then ~~~0
  else if size = 4 ∧ off % 4 = 0 ∧ 0x8000 ≤ off ∧ off < 0x8040 then BitVec.ofNat 64 (bits ((tget f.msixTab (off % 64 / 16)).getD (2 ^ 96)) (8 * (off % 16)) 32)
  else if size ≠ 8 ∨ off % 8 ≠ 0 then ~~~0
  else if 0x4000 ≤ off then win
  else if fn = 0 then
    if off < 0x40 then (tget s.smc.cmd (off / 8)).getD 0
    else if off = 0x48 then s.smc.cmdstat
    else if 0x80 ≤ off ∧ off < 0xC0 then (tget s.smc.cmdres ((off - 0x80) / 8)).getD 0
    else if off = 0x800 then s.smc.custSeq
    else if off = 0x808 then s.smc.custStat
    else if off = 0x810 then s.smc.mevent
    else if 0xC00 ≤ off ∧ off < 0xE80 then BitVec.ofNat 64 (leNat ((s.smc.custRec.drop (off - 0xC00)).take 8))
    else 0
  else if off = 0 then BitVec.ofNat 64 (fn - 1 + s.modid.toNat * 2 ^ 24)
  else if off = 0x08 then f.inbusy
  else if off = 0x18 then f.obase
  else if off = 0x20 then f.octl
  else if off = 0x28 then BitVec.ofNat 64 f.ohead
  else if off = 0x30 then BitVec.ofNat 64 f.otail
  else if off = 0x40 then f.lwstat
  else if off = 0x48 then BitVec.ofNat 64 (s.part (fn - 1)).qprio
  else if off = 0x50 then BitVec.ofNat 64 f.loghead
  else if 0x1000 ≤ off ∧ off < 0x1100 then (tget f.stage ((off - 0x1000) / 8)).getD 0
  else if 0x2000 ≤ off ∧ off < 0x3000 then (tget f.inSlots ((off - 0x2000) / 8)).getD 0
  else 0

/-! ### RESYNC (spec 18 R467, R470 to R473) -/

/-- Measurement block 6 of a function: the SHA-256 of the partition record and the hash of the last FSLOAD. -/
def State.block6 (s : State) (fn : Nat) : List Byte :=
  let p := s.part (fn - 1)
  if fn = 0 ∨ p.isSet = false then List.replicate 32 0 else sha256 (p.cfg ++ (p.fsHash ++ List.replicate 32 0).take 32)
/-- The measurement blocks of a function. -/
def State.blocks (s : State) (fn : Nat) : List Byte := ((List.range 5).flatMap fun i => s.measured (i + 1)) ++ s.block6 fn
/-- An entry whose layout the spec leaves open: bytes that depend on its contents alone (log entry 48). -/
def openEntry (kind size : Nat) (xs : List Nat) : List Byte :=
  ((Config.signature (0x200 + kind) (xs.flatMap (leBytes 8))) ++ List.replicate size 0).take size
/-- A section: its heading and entries. -/
def section_ (kind size : Nat) (es : List (List Byte)) : List Byte :=
  leBytes 2 kind ++ leBytes 2 size ++ leBytes 4 es.length ++ es.flatten
def LaunchSt.code : LaunchSt → Nat
  | .queued => 0 | .selected => 1 | .loading => 2 | .binding => 3 | .spawning => 4 | .running => 5 | .draining => 6 | .ended => 7
def PortSt.code : PortSt → Nat
  | .up => 0 | .retrain => 1 | .remap => 2 | .down => 3
/-- The newest 64 entries of a ring whose next sequence number is given. -/
def State.newest (s : State) (part ring next : Nat) : List (List Byte) :=
  let n := min 64 (next - 1)
  (List.range n).map fun i => memRead s.mem (s.logArea part + ring + (next - n + i) % 4096 * 32) 32
/-- Sections of a summary over some partitions. -/
def State.sections (s : State) (fn : Nat) (ps : List Nat) : List (List Byte) :=
  let cov (x : Nat × Launch) : Bool := ps.contains x.2.part
  let b (w : Word) : Nat := w.toNat
  [ section_ 1 64 (ps.map fun n => let p := s.part n
      openEntry 1 64 ([n, p.keySlot, p.rekey.getD 0, p.rekeyAt, p.qprio] ++ p.cfg.map fun x => x.toNat)),
    section_ 2 32 ((s.launches.filter fun x => cov x && x.2.st == .queued).map fun x =>
      openEntry 2 32 [x.2.part, ((s.part x.2.part).launchQ.findIdx? (· == x.1)).getD 0, x.1, x.2.parent.toNat, x.2.fld 1 32 32, x.2.waitSpace.toNat]),
    section_ 3 32 ((s.launches.filter fun x => cov x && x.2.st != .queued).map fun x =>
      openEntry 3 32 [x.1, x.2.st.code, x.2.scope.toNat, x.2.rank.toNat, x.2.fld 1 32 32, x.2.wave]),
    section_ 4 32 ((((ps.filter fun n => (s.part n).isSet && (tget s.scopes (n * 65536)).isNone).map fun n => ((n * 65536, s.scope n 0) : Nat × ScopeEnt)) ++
        s.scopes.filter fun (x : Nat × ScopeEnt) => ps.contains (x.1 / 65536) && x.2.st != ScSt.free).map fun (x : Nat × ScopeEnt) =>
      let id := BitVec.ofNat 16 x.1
      let mine := s.counts.filter fun y => y.1 / 4096 == x.1
      let live := (s.ctxs.filter fun y => decide (y.1 % 17 < 16) && y.2.st != .free && y.2.ctl.cur == id && s.partNo (y.1 / 17) == x.1 / 65536).length
      openEntry 4 32 [x.1, x.2.st.code, x.2.parent.toNat, x.2.policy.toNat, x.2.group.getD 255, live, (mine.map fun y => y.2.sent).foldl (· + ·) 0,
        (mine.map fun y => y.2.recvd).foldl (· + ·) 0, x.2.dropped]),
    section_ 5 16 ((s.tdes.flatMap fun t => t.2.ctxs.map fun c =>
        openEntry 5 16 [t.1, c.1, c.2.loaded.toNat, (c.2.lastRound.map fun r => r.toNat + 1).getD 0]) ++
      s.dss.map fun d => openEntry 5 16 [d.1, d.2.queue.length, d.2.job.getD 0]),
    section_ 6 16 ((List.range 8).map fun i => let p := s.port i
      openEntry 6 16 [i, p.st.code, (tget s.fab.spareLanes (i / 2)).getD 2, b p.counter / 2 ^ 32]),
    section_ 7 192 [s.blocks fn],
    section_ 8 32 (ps.flatMap fun n => let p := s.part n
      s.newest n ringLost p.lwSeq ++ s.newest n ringPoison p.poisonSeq ++ s.newest n ringError p.errSeq),
    section_ 9 16 (ps.flatMap fun n => (s.part n).groups.map fun g =>
      openEntry 9 16 [n, g.1, g.2.length, (crc32 (g.2.flatMap fun m => leBytes 2 m.toNat)).toNat]) ]
/-- The summary record (spec 18 R472). -/
def State.summary (s : State) (fn nonce : Nat) (t : Word) : List Byte :=
  let ps := if fn = 0 then (List.range 8).filter fun n => (s.part n).isSet else [fn - 1]
  let secs := s.sections fn ps
  let head (n : Nat) (v : Nat) : List Byte := leBytes 4 (if ps.contains n then v else 0)
  leBytes 4 0x4F565253 ++ leBytes 2 1 ++ leBytes 2 secs.length ++ leBytes 8 nonce ++ leBytes 8 t.toNat ++ leBytes 8 (Config.bootId s.smc.boots).toNat ++
    leBytes 8 s.nextLaunch ++ ((List.range 8).flatMap fun n => leBytes 4 (s.vf (vfOf n)).ohead) ++ leBytes 8 (s.smc.custNext - 1) ++
    ((List.range 8).flatMap fun n => let p := s.part n
      head n (p.lwSeq - 1) ++ head n (p.poisonSeq - 1) ++ head n (p.errSeq - 1)) ++ List.replicate 16 0 ++ secs.flatten
/-- RSCMD: a driver asks for a summary; ignored while one is built (spec 18 R470). a = function, v = value. -/
def execRscmd (s : State) : Out :=
  let fn := s.occ.a
  let f := s.vf fn
  if s.fnOn fn = false ∨ s.occ.v.getLsbD 0 = false ∨ f.rsstat.getLsbD 1 = true then .next s
  else .next ((s.setVf fn { f with rsstat := (s.occ.v &&& 0xFFFFFFFF00000000) ||| 2 }).later .resyncReady fn)
/-- RESYNC_READY: the record is assembled, of this instant, and vector 2 is raised (spec 18 R470, R473). a = function. -/
def execResyncReady (s : State) : Out :=
  let fn := s.occ.a
  let f := s.vf fn
  if f.rsstat.getLsbD 1 = false then .next s
  else
    let (t, s) := s.drawFree
    let r := s.summary fn (f.rsstat.toNat / 2 ^ 32) t
    .next ((s.setVf fn { f with rsstat := (f.rsstat &&& 0xFFFFFFFF00000000) ||| 1, rsrec := r }).raiseVec fn 2)

end Sys2Proof.Machine
end

