-- ==== Sys2Proof/Machine/Smc.lean ====
section
/-! DEFINITION. The commands of the security and management controller: partitions, regions, watch units, budgets, keys, fabric groups and the
fault service (spec 12 R328 to R335; 15 R383, R399; 16 R411; 17 R444; 18 R453 to R469, R479). -/

namespace Sys2Proof.Machine

/-! ### How a command is performed (spec 18 R454) -/

/-- A word of the command record that is performed. -/
def Smc.word (m : Smc) (i : Nat) : Nat := ((tget m.run i).getD 0).toNat
def Smc.op (m : Smc) : Nat := m.word 0 % 256
def Smc.part (m : Smc) : Nat := bits (m.word 0) 8 3
/-- Bits outside the masks of words 1 to 7 are zero, and so are the reserved bits of word 0 (spec 00 R4; 18 R454, R456). -/
def Smc.clean (m : Smc) (masks : List Nat) : Bool :=
  bits (m.word 0) 11 21 == 0 && (List.range 7).all fun i => Nat.land (m.word (i + 1)) (2 ^ 64 - 1 - masks.getD i 0) == 0
/-- A command's event: the command that CMDDB has taken is performed, or goes on (b = 1); without one, the staged command of that OP is taken. BADCMD for a
nonzero reserved bit or a partition that is not set up. -/
def smcCmd (s : State) (op : Nat) (any : Bool) (masks : List Nat) (go : State → State) : Out :=
  let s' := if s.smc.cmdstat.getLsbD 8 then s else s.cmdTake
  if s.smc.cmdstat.getLsbD 8 = false ∧ (s.smc.staging 0 % 256 ≠ op ∨ s.occ.b = 1) then .next s
  else if s'.smc.op ≠ op ∨ s'.smc.status ≠ none then .next s
  else if s'.smc.clean masks = false ∨ any = false ∧ (s'.part s'.smc.part).isSet = false then .next (s'.cmdDone 1)
  else .next (go s')
/-- SMC_COMMAND_COMPLETE: the command that has been performed completes (spec 18 R454). -/
def execSmcCommandComplete (s : State) : Out :=
  match s.smc.status with
  | none => .next s
  | some st =>
    let v : Word := BitVec.ofNat 64 (s.smc.word 0 / 2 ^ 32 * 2 ^ 32 + 0x200 + st)
    .next (({ s with smc := { s.smc with cmdstat := v, status := none, run := [] } } : State).raiseVec 0 0)

/-! ### Setting up and tearing down (spec 18 R456 to R458) -/

/-- Mask of n bits. -/
def ones (n : Nat) : Nat := 2 ^ n - 1
/-- Masks of the partition record. -/
def recMasks : List Nat := [ones 48, ones 48, ones 40, ones 48, ones 35, 0xFFFFFFFF00FFFFFF, 7]
/-- Hedges the record names. -/
def Smc.hedges (m : Smc) : List Nat := (List.range 96).filter fun h => if h < 48 then (m.word 1).testBit h else (m.word 2).testBit (h - 48)
/-- A rank is an LC of the hedges, or the host queue of the partition. -/
def State.fsRankOk (s : State) (part : Nat) (hedges : List Nat) (r : Nat) : Bool :=
  r / 4096 == s.modid.toNat && ((decide (r % 4096 < 768) && hedges.contains (r % 4096 / 8)) || r % 4096 == 877 + part)
/-- PSETUP is refused (spec 18 R457, R480). -/
def State.setupRefused (s : State) (part : Nat) : Bool :=
  let m := s.smc
  let hs := m.hedges
  let root := m.word 3
  let lim := m.word 5 % 2 ^ 32
  (s.part part).isSet || hs.isEmpty || s.parts.any (fun x => x.2.isSet && x.2.hedges.any fun h => hs.contains h) ||
    root % 512 != 0 || !(hs.contains (root / 2 ^ 33)) || decide (0x30000000 ≤ root % 2 ^ 30) || m.word 4 % 65536 != 0 || lim % 65536 != 0 || lim == 0 || decide (4 < bits (m.word 5) 32 3) ||
    !s.fsRankOk part hs (m.word 6 % 2 ^ 24) || hs.any fun h => m.failedHedges.contains h || m.failedStacks.contains (h / 8)
/-- A fresh 512-bit key, of free words. -/
def drawKey (s : State) : Nat → State × List Word
  | 0 => (s, [])
  | n + 1 =>
    let (w, s) := s.drawFree
    let (s, r) := drawKey s n
    (s, w :: r)
/-- A pseudo-channel, its slice, carve-out and tile frames become zero, and its core has an empty system space and the resident handler halted in
context 15. -/
def State.clearHome (s : State) (carve core : Nat) : State :=
  let out (a : Nat) : Bool := !(a / 2 ^ 30 == core || decide (2 ^ 40 ≤ a ∧ a / 2 ^ 20 = 2 ^ 20 + core))
  let s := { s with mem := memZero (memZero s.mem (core * 2 ^ 30) (2 ^ 30)) (carvePa core 0) (2 ^ 20), poison := s.poison.filter fun g => out (g * 64),
                    grans := s.grans.filter fun x => out (x.1 * 64) }
  let s := s.setHome core { carve := carve }
  let s := s.onCore core fun c => { c with spaces := [(8, { held := true, allot := 63 })], frames := [], l1 := [], plru := [], icache := [], fills := [], seals := [] }
  s.setCtx core 15 { st := .ready, hold := .halted, space := 8 }
/-- PSETUP (spec 18 R457). -/
def execPsetup (s : State) : Out :=
  smcCmd s 1 true recMasks fun s =>
    let m := s.smc
    let part := m.part
    if s.setupRefused part then s.cmdDone 2
    else
      let (s, key) := drawKey s 8
      let hs := m.hedges
      let old := s.part part
      let p : Partition :=
        { isSet := true, hedges := hs, root := m.word 3, codeVa := m.word 4, codeLen := m.word 5 % 2 ^ 32, fsRank := BitVec.ofNat 24 (m.word 6)
          fsTag := BitVec.ofNat 32 (m.word 6 / 2 ^ 32), qprio := m.word 7, cfg := (List.range 7).flatMap fun i => leBytes 8 (m.word (i + 1))
          keySlot := part, rekey := old.rekey, rekeyAt := old.rekeyAt }
      -- custody records that stood in a log area now cleared are gone (spec 18 R469)
      let places := s.smc.custPlace.filter fun x => !(partCores p).contains (x.2 / 2 ^ 30)
      let s := (partCores p).foldl (fun s k => s.clearHome (bits (m.word 5) 32 3) k) s
      let s := { s with smc := { s.smc with keys := tset s.smc.keys part key, custPlace := places }
                        watches := s.watches.filter fun x => x.2.part != some part }
      (s.setPart part p).cmdDone 0
/-- PTEAR: queued launches end, scope 0 is pruned, and when the prune is complete the partition is given up (spec 18 R458). -/
def execPtear (s : State) : Out :=
  smcCmd s 2 false [] fun s =>
    let part := s.smc.part
    let p := s.part part
    if !p.busy then
      let s := p.launchQ.foldl (fun (s : State) lid => match tget s.launches lid with
        | some l => if l.st = .queued then s.finishLaunch lid l stCancelled 0 else s
        | none => s) s
      let s := s.setPart part { s.part part with busy := true }
      (s.startPrune part 0 (s.rankOf 876) 15 0 0 true 0 false).2.later .ptear 0 1
    else if (s.scope part 0).st ≠ .live then s.later .ptear 0 1
    else
      -- the hedges are free; the record still tells where the custody records stand
      let s := s.setPart part { hedges := p.hedges, custody := p.custody, rekey := p.rekey, rekeyAt := p.rekeyAt }
      ({ s with smc := { s.smc with keys := tdel s.smc.keys part } } : State).cmdDone 0

/-! ### Translations, regions and watch units (spec 12 R328 to R333) -/

/-- Other modules of a partition's fabric groups have not all acknowledged what the SMC has told them: how long they take is free (log entries 4, 44
and 57). -/
def State.membersBusy (s : State) (part : Nat) : Bool × State :=
  if (s.part part).groups.any fun g => g.2.any fun m => m != s.modid then
    let (w, s) := s.drawFree
    (w.getLsbD 0, s)
  else (false, s)
/-- Entries that meet n bytes from lo, or all when n is 0, leave the translation caches of a partition. -/
def State.dropXl (s : State) (part lo n : Nat) : State :=
  let meets (e : XlEntry) : Bool := e.part == part &&
    (n == 0 || (decide (e.page * 65536 < lo + n) && decide (lo < (e.page + (if e.big then 8192 else 1)) * 65536)))
  { s with homes := s.homes.map fun x => (x.1, { x.2 with xl := x.2.xl.filter fun e => !meets e }) }
/-- XLINV: entries that meet the range leave the translation caches of the partition; the command completes when the other modules of its fabric
groups have acknowledged too. c = 1: it is the SMC of another module of a fabric group that removes the range here, partition v, base a, length b: the
spec gives the message no form (spec 12 R328; log entry 57). -/
def execXlinv (s : State) : Out :=
  if s.occ.c = 1 then .next (s.dropXl s.occ.v.toNat s.occ.a s.occ.b)
  else smcCmd s 3 false [ones 48, ones 64] fun s =>
    let part := s.smc.part
    let (wait, s) := (s.dropXl part (s.smc.word 1) (s.smc.word 2)).membersBusy part
    if wait then s.later .xlinv 0 1 else s.cmdDone 0
/-- The region entry of three words. -/
def readRegion (a b c : Nat) : Region :=
  { st := bits c 60 4, banked := c.testBit 59, owner := BitVec.ofNat 24 (c / 2 ^ 32), floor := BitVec.ofNat 20 c, limit := b % 2 ^ 32, base := a % 2 ^ 32 }
/-- The SMC refuses an entry: its range, its state, its bank, or an overlap with another valid entry (spec 12 R329). -/
def regionRefused (t : Table Region) (i : Nat) (r : Region) : Bool :=
  decide (r.limit < r.base) || decide (5 < r.st) || (r.banked && r.st != 4) ||
    (r.st != 0 && t.any fun x => x.1 != i && x.2.st != 0 && decide (x.2.base ≤ r.limit) && decide (r.base ≤ x.2.limit))
/-- REGION: an entry is written at every slice of the partition; what parks under its floor is evaluated, and the writer tables of a checked
region start anew (spec 07 R191; 12 R329 to R331). -/
def execRegionCmd (s : State) : Out :=
  smcCmd s 4 false [63, ones 32, ones 32, 0xF8FFFFFF000FFFFF] fun s =>
    let part := s.smc.part
    let i := s.smc.word 1
    let p := s.part part
    let r := readRegion (s.smc.word 2) (s.smc.word 3) (s.smc.word 4)
    let old := (tget p.regions i).getD {}
    if regionRefused p.regions i r then s.cmdDone 2
    else
      let s := s.setPart part { p with regions := tset p.regions i r }
      let s := (partCores p).foldl (fun (s : State) k => s.onHome k fun h =>
        { h with floors := tdel h.floors (part * 64 + i), writers := if old.st = 5 ∨ r.st = 5 then [] else h.writers }) s
      let s := if r.st = 4 then (partCores p).foldl (fun s k => retryParks s k r.floor (s.floorParks k part i)) s else s
      s.cmdDone 0
/-- WATCH: a watch unit is programmed for the partition, or disabled (spec 12 R332). -/
def execWatchCmd (s : State) : Out :=
  smcCmd s 6 false [0x800000000000011F, ones 48, ones 48, 0x7F, 0xFFFFFFFF00FFFFFF] fun s =>
    let m := s.smc
    if 16 ≤ m.word 1 % 32 then s.cmdDone 1
    else
      let key := bits (m.word 1) 8 1 * 16 + m.word 1 % 32
      let w : Watch := { part := if (m.word 1).testBit 63 then some m.part else none, wbase := m.word 2, wmask := m.word 3, kinds := BitVec.ofNat 8 (m.word 4)
                         rank := BitVec.ofNat 24 (m.word 5), tag := BitVec.ofNat 32 (m.word 5 / 2 ^ 32) }
      ({ s with watches := tset s.watches key w } : State).cmdDone 0

/-! ### Budgets, priorities and ranks (spec 15 R383, R399; 16 R411; 17 R444; 18 R479) -/

/-- A budget entry of a partition. -/
def Partition.budget (p : Partition) (profile kind cls : Nat) : Nat × Bool := (tget p.budgets (64 * profile + 8 * kind + cls)).getD (0, p.isSet && cls == 6)
/-- The largest per-profile sum of SHARE of a partition for a port kind. -/
def Partition.maxShare (p : Partition) (kind : Nat) : Nat :=
  ((List.range 8).map fun f => ((List.range 8).map fun c => (p.budget f kind c).1).foldl (· + ·) 0).foldl max 0
/-- BUDGET: the eight entries of a profile and port kind, in force from the next period boundary on (spec 15 R399, R401). -/
def execBudgetCmd (s : State) : Out :=
  smcCmd s 7 false [0x707, 0x87FF87FF87FF87FF, 0x87FF87FF87FF87FF] fun s =>
    let m := s.smc
    let part := m.part
    let f := m.word 1 % 8
    let kind := bits (m.word 1) 8 3
    let ent (c : Nat) : Nat := bits (m.word (2 + c / 4)) (16 * (c % 4)) 16
    let p := s.part part
    let p := { p with budgets := (List.range 8).foldl (fun (t : Table (Nat × Bool)) c => tset t (64 * f + 8 * kind + c) (ent c % 2048, (ent c).testBit 15)) p.budgets }
    let sum : Nat := ((List.range 8).map fun n => if n = part then p.maxShare kind else if (s.part n).isSet then (s.part n).maxShare kind else 0).foldl (· + ·) 0
    if 5 ≤ kind then s.cmdDone 1
    else if 1024 < sum ∨ ((List.range 8).any fun c => decide (1024 < ent c % 2048)) = true then s.cmdDone 2
    else (s.setPart part p).periodDue.cmdDone 0
/-- FSERV: the fault service rank and tag; a rank that is neither an LC of the partition nor its host queue is refused (spec 16 R411). -/
def execFserv (s : State) : Out :=
  smcCmd s 8 false [0xFFFFFFFF00FFFFFF] fun s =>
    let part := s.smc.part
    let p := s.part part
    let w := s.smc.word 1
    if s.fsRankOk part p.hedges (w % 2 ^ 24) then
      (s.setPart part { p with fsRank := BitVec.ofNat 24 w, fsTag := BitVec.ofNat 32 (w / 2 ^ 32) }).cmdDone 0
    else s.cmdDone 2
/-- QPRIO (spec 15 R383). -/
def execQprio (s : State) : Out :=
  smcCmd s 9 false [7] fun s => (s.setPart s.smc.part { s.part s.smc.part with qprio := s.smc.word 1 }).cmdDone 0
/-- MODID: refused while a partition is set up (spec 17 R444). -/
def execModid (s : State) : Out :=
  smcCmd s 10 true [ones 12] fun s =>
    if s.parts.any fun x => x.2.isSet then s.cmdDone 2 else ({ s with modid := BitVec.ofNat 12 (s.smc.word 1) } : State).cmdDone 0
/-- A power cap is in range. -/
def capOk (w : Nat) : Bool := decide (400 ≤ w ∧ w ≤ 950)
/-- PCAP (spec 18 R479). -/
def execPcap (s : State) : Out :=
  smcCmd s 11 true [ones 16] fun s =>
    if capOk (s.smc.word 1) then ({ s with smc := { s.smc with pcap := s.smc.word 1 } } : State).cmdDone 0 else s.cmdDone 1

/-! ### Keys (spec 18 R461 to R463) -/

/-- REKEY: a replacement slot takes a fresh key, and the granules follow one by one. -/
def execRekey (s : State) : Out :=
  smcCmd s 12 false [] fun s =>
    let part := s.smc.part
    let p := s.part part
    if p.rekey.isSome then s.cmdDone 2
    else match (List.range 8).find? fun i => (tget s.smc.keys (8 + i)).isNone with
    | none => s.cmdDone 3
    | some i =>
      let (s, key) := drawKey s 8
      let s := { s with smc := { s.smc with keys := tset s.smc.keys (8 + i) key } }
      ((s.setPart part { p with rekey := some (8 + i), rekeyAt := 0 }).later .rekeyGranule part).cmdDone 0
/-- Granules of a pseudo-channel of 768 MiB. -/
def hbmGrans : Nat := 0xC00000
/-- What the re-encryption of a granule takes at its home: the crossbar port of its hedge, for one unit packet out and one in (log entry 137). -/
def rekeyUses (core : Nat) : List PortUse := [⟨1, 2 * (core / 8), unitBytes 64⟩, ⟨1, 2 * (core / 8) + 1, unitBytes 64⟩]
/-- What an HBM controller holds of a granule of a pseudo-channel: its bytes under the partition's key, the granules that REKEY has reached under the new one. State
holds the plain bytes, which are all that any access meets (spec 18 R461, R463). -/
def State.hbmGranule (s : State) (g : Nat) : List Byte :=
  let bs := memRead s.mem (64 * g) 64
  match s.ownerOf (64 * g) with
  | none => bs
  | some n =>
    let p := s.part n
    let i := ((partCores p).findIdx? (· == g / 2 ^ 24)).getD 0 * hbmGrans + g % 2 ^ 24
    let slot := match p.rekey with | some r => if i < p.rekeyAt then r else n | none => n
    xtsSeal (((tget s.smc.keys slot).getD []).flatMap fun w => leBytes 8 w.toNat) (g % 2 ^ 34) bs
/-- REKEY_GRANULE: one granule is encrypted under the new key, its data unchanged, in class 6; after the last the key moves to the partition's slot. One whose
partition has been torn down frees its slot. a = partition. -/
def execRekeyGranule (s : State) : Out :=
  let part := s.occ.a
  let p := s.part part
  match p.rekey with
  | none => .next s
  | some slot =>
    let us := rekeyUses ((partCores p).getD (p.rekeyAt / hbmGrans) 0)
    if p.isSet ∧ s.usesOpen part 0 5 us = false then .next (s.later .rekeyGranule part)
    else if p.isSet ∧ p.rekeyAt + 1 < (partCores p).length * hbmGrans then
      .next (((s.charge part 0 5 us).setPart part { p with rekeyAt := p.rekeyAt + 1 }).later .rekeyGranule part)
    else
      let keys := tdel s.smc.keys slot
      let keys := match p.isSet, tget s.smc.keys slot with
        | true, some k => tset keys part k
        | _, _ => keys
      .next (({ s with smc := { s.smc with keys := keys } } : State).setPart part { p with rekey := none, rekeyAt := 0 })

/-! ### Fabric groups and the fault service (spec 18 R459, R460) -/

/-- Module ids that rise strictly, each with bits 15:12 zero. -/
def idsRise : List Nat → Bool
  | a :: b :: r => decide (a < b) && idsRise (b :: r)
  | [a] => decide (a < 4096)
  | [] => true
/-- GROUP: an entry of the fabric group table is installed or removed. -/
def execGroupCmd (s : State) : Out :=
  smcCmd s 13 false [0x80000000000000FF, ones 48, ones 13] fun s =>
    let m := s.smc
    let part := m.part
    let p := s.part part
    let i := m.word 1 % 256
    let bound := s.scopes.any fun x => x.1 / 65536 == part && x.2.group == some i && (x.2.st == .live || x.2.st == .dying)
    if i = 255 ∨ bound = true then s.cmdDone 2
    else if (m.word 1).testBit 63 = false then (s.setPart part { p with groups := tdel p.groups i }).cmdDone 0
    else
      let n := m.word 3
      if n = 0 ∨ 4096 < n ∨ m.word 2 % 2 ≠ 0 then s.cmdDone 2
      else match s.luBytes part (m.word 2) (2 * n) with
      | .busy q => (s.askEng q).later .groupCmd 0 1
      | .fail s _ _ => s.cmdDone 2
      | .ok s bs _ =>
        let ids := (List.range n).map fun k => leNat ((bs.drop (2 * k)).take 2)
        if idsRise ids && ids.contains s.modid.toNat then (s.setPart part { s.part part with groups := tset p.groups i (ids.map (BitVec.ofNat 12)) }).cmdDone 0
        else s.cmdDone 2
/-- Context 14 of a core ends whatever it runs (spec 18 R460). -/
def State.endFs (s : State) (core : Nat) : State :=
  if (s.ctx core 14).st = .free then s
  else
    let s := s.writeFrame core 14 1 1 0
    let s := { s with reqs := s.reqs.filterMap (orphaned core 14) }
    (s.discardSends core 14).freeCtx core 14
/-- FSLOAD: the image is read, hashed and copied into the code region, and context 14 of the core of FSRANK starts at its entry. -/
def execFsload (s : State) : Out :=
  smcCmd s 14 false [ones 48, ones 56, ones 32, ones 64, ones 64, ones 64, ones 64] fun s =>
    let m := s.smc
    let part := m.part
    let p := s.part part
    let dst := m.word 2 % 2 ^ 32
    let n := m.word 2 / 2 ^ 32
    let entry := m.word 3
    let core := localOf p.fsRank
    if m.word 1 % 64 ≠ 0 ∨ dst % 4 ≠ 0 ∨ n % 4 ≠ 0 ∨ n = 0 ∨ entry % 4 ≠ 0 ∨ entry < 0x400 ∨ 0xFFFFFF00 ≤ entry ∨ entry < dst ∨ dst + n ≤ entry then s.cmdDone 1
    else if 768 ≤ core ∨ p.codeLen < dst + n then s.cmdDone 2
    else match s.luBytes part (m.word 1) n with
    | .busy q => (s.askEng q).later .fsload 0 1
    | .fail s _ _ => s.cmdDone 2
    | .ok s bs _ =>
      if sha256 bs ≠ (List.range 4).flatMap (fun i => leBytes 8 (m.word (4 + i))) then s.cmdDone 2
      else match codeWriteRun s (s.luOp part) (n / 64 + 2) dst bs with
      | .busy q => (s.askEng q).later .fsload 0 1
      | .fail s _ _ => s.cmdDone 2
      | .ok s _ _ =>
        let s := s.setPart part { s.part part with fsEntry := some (BitVec.ofNat 32 entry), fsCore := core, fsHash := sha256 bs }
        ((s.endFs core).startFs core (BitVec.ofNat 32 entry)).cmdDone 0

/-! ### Page migration (spec 12 R334, R335) -/

/-- The physical address of the leaf of a 64 KiB page, by the tables above it. -/
def leafAddr (s : State) (part va : Nat) : Nat :=
  let t1 := s.rd ((s.part part).root + va / 2 ^ 42 * 8) 8 % 2 ^ 40 / 2 ^ 16 * 2 ^ 16
  let t2 := s.rd (t1 + va / 2 ^ 29 % 2 ^ 13 * 8) 8 % 2 ^ 40 / 2 ^ 16 * 2 ^ 16
  t2 + va / 2 ^ 16 % 2 ^ 13 * 8
/-- SMC_MIGRATE: the new leaf is written, the translating slice marks its entry MOVING, and the old home begins to stream the frame. -/
def execSmcMigrate (s : State) : Out :=
  smcCmd s 5 false [ones 48, 0xFFFFFFFFF0000] fun s =>
    let part := s.smc.part
    let p := s.part part
    let va := s.smc.word 1 / 65536 * 65536
    match walkTable s part va with
    | .error _ => s.cmdDone 2
    | .ok e =>
      let a := leafAddr s part va
      let leaf := s.rd a 8 % 65536 + s.smc.word 2
      match leafOf s part p va leaf false with
      | .error _ => s.cmdDone 2
      | .ok e' =>
        let old := e.pa va
        let new := e'.pa va
        if e.big ∨ e.mod ≠ s.modid ∨ e'.mod ≠ s.modid ∨ old = new ∨ 64 ≤ (s.home (homeOf old)).redirects.length ∨
            s.moving.any (fun m => m.oldFrame == old || (m.newFrame == old && m.stage != 2) || m.oldFrame == new || m.newFrame == new) = true then s.cmdDone 2
        else
          let t := xlSlice p va
          let s := s.wr a 8 leaf
          let s := s.onHome t fun h => { h with xl := h.xl.map fun x => if x.covers part va then { x with moving := true } else x }
          let m : Moving := { oldFrame := old, newFrame := new, part := part, page := va / 65536 }
          ({ s with moving := s.moving ++ [m] } : State).due .migrateRedirectNotice (old / 65536)
/-- The record of the migration of a frame. -/
def State.movingOf (s : State) (frame : Nat) : Option Moving := s.moving.find? fun m => m.oldFrame == frame * 65536
/-- An address of the old frame as it stands in the new one. -/
def Moving.reloc (m : Moving) (pa : Nat) : Nat := if pa / 65536 * 65536 = m.oldFrame then m.newFrame + pa % 65536 else pa
/-- A granule's metadata at the new home: a remote writer's id of a checked region becomes its id there. -/
def moveGran (s : State) (o n : Nat) (checked : Bool) (x : Gran) : State × Gran :=
  let w := x.stamp.toNat % 2 ^ 19
  if checked && decide (2 ^ 18 ≤ w) && w != 0x7FFFF then
    match (s.home o).writers[w - 2 ^ 18]? with
    | some a =>
      let (s, w') := s.widWrite n a.1 a.2
      (s, { x with stamp := BitVec.ofNat 20 (x.stamp.toNat / 2 ^ 19 * 2 ^ 19 + w') })
    | none => (s, x)
  else (s, x)
/-- The frame is streamed to its new home: data, poison, stamps, prior banks, writer ids, accumulation forms, and the park, merge and lock entries and
the put-off work of the page. -/
def State.stream_ (s : State) (m : Moving) : State :=
  let o := homeOf m.oldFrame
  let n := homeOf m.newFrame
  let here (pa : Nat) : Bool := pa / 65536 * 65536 == m.oldFrame
  let s := { s with mem := memWrite s.mem m.newFrame (memRead s.mem m.oldFrame 65536) }
  let g0 := m.oldFrame / 64
  let d (g : Nat) : Nat := m.newFrame / 64 + (g - g0)
  let (inn, out) := s.poison.partition fun g => here (g * 64)
  let out := out.filter fun g => g * 64 / 65536 * 65536 != m.newFrame
  let s := { s with poison := (inn.map d).foldl insertNat out }
  let checked := s.regionSt m.part (m.page * 65536) == 5
  let mine := s.grans.filter fun x => here (x.1 * 64)
  let s := { s with grans := s.grans.filter fun x => !here (x.1 * 64) && x.1 * 64 / 65536 * 65536 != m.newFrame }
  let s := mine.foldl (fun (s : State) x =>
    let (s, g) := moveGran s o n checked x.2
    { s with grans := tset s.grans (d x.1) g }) s
  let inPage (no : Nat) : Bool := match s.req no with
    | some r => match r.pieces[r.performed]? with | some p => here p.pa | none => false
    | none => false
  let ho := s.home o
  let parks := ho.parks.filter inPage
  let rows := ho.rowParks.filter fun r => here r.msg.pa
  let merges := ho.merges.filter fun e => here e.first.pa
  let locks := ho.locks.filter fun l => here l.pa
  let staged := ho.staged.filter fun x => here x.pa
  let forms := ho.forms.filter fun x => here x.pa
  let waits := ho.waits.filter fun no => match s.net no with | some x => here x.msg.pa | none => false
  let put (p : Piece) : Piece := { p with pa := m.reloc p.pa }
  let ask (x : Nat × Req) : Nat × Req := if parks.contains x.1 then (x.1, { x.2 with pieces := x.2.pieces.map put }) else x
  let s := { s with reqs := s.reqs.map ask }
  let mv (x : Msg) : Msg := { x with pa := m.reloc x.pa }
  let held (no : Nat) : Bool := locks.any (fun l => l.queue.contains no) || rows.any (fun r => r.msg.no == no)
  let one (x : NetMsg) : NetMsg := if held x.msg.no then { x with msg := mv x.msg } else x
  let s := { s with fab := { s.fab with msgs := s.fab.msgs.map one } }
  let s := s.onHome o fun h => { h with
    parks := h.parks.filter fun x => !parks.contains x, rowParks := h.rowParks.filter fun r => !here r.msg.pa, merges := h.merges.filter fun e => !here e.first.pa
    forms := h.forms.filter fun x => !here x.pa, waits := h.waits.filter fun x => !waits.contains x
    locks := h.locks.filter fun l => !here l.pa, staged := h.staged.filter fun x => !here x.pa, redirects := h.redirects ++ [(m.oldFrame / 65536, m.newFrame / 65536)] }
  -- the entries of the tables that have this page, where the new home has none of them and room (spec 13 R342, R357)
  let tabs (h : Home) : List TabEntry :=
    (ho.tabs.filter fun e => e.part == m.part && Etd.hasPage e.desc m.page && !(h.tabs.any fun y => y.part == e.part && y.etd == e.etd)).take
      (128 - h.tabs.length)
  s.onHome n fun h => { h with
    parks := h.parks ++ parks, rowParks := h.rowParks ++ rows.map (fun r => { r with msg := mv r.msg })
    merges := h.merges ++ merges.map (fun e => { e with first := mv e.first, joined := e.joined.map mv })
    locks := h.locks ++ locks.map (fun l => { l with pa := m.reloc l.pa }), staged := h.staged ++ staged.map (fun x => { x with pa := m.reloc x.pa })
    forms := h.forms ++ forms.map (fun x => { x with pa := m.reloc x.pa }), waits := h.waits ++ waits
    tabs := h.tabs ++ tabs h }
/-- Requests that wait for a migration go on, in their order, before any that has come due since (spec 11 R299, R313; 12 R334). -/
def State.goQueue (s : State) (m : Moving) : State :=
  s.onMoving m.oldFrame (fun m => { m with queued := [] }) |> fun s => { s with agenda := m.queued ++ s.agenda }
/-- MIGRATE_REDIRECT_NOTICE: the frame has been streamed, the old home's queue is forwarded behind it, and the translating slice sends its marker.
a = old frame. -/
def execMigrateRedirectNotice (s : State) : Out :=
  match s.movingOf s.occ.a with
  | none => .next s
  | some m =>
    let us := moveUses (some (homeOf m.oldFrame / 8)) (some (homeOf m.newFrame / 8)) 65536
    if m.stage ≠ 0 then .next s
    else if s.usesOpen m.part 0 5 us = false then .next (s.later .migrateRedirectNotice s.occ.a)
    else
      let s := (s.charge m.part 0 5 us).stream_ m
      let s := (s.goQueue m).onMoving m.oldFrame fun m => { m with stage := 1 }
      .next (s.due .migrateMarkerReply s.occ.a)
/-- MIGRATE_MARKER_REPLY: the slice forwards new requests to the new home. a = old frame. -/
def execMigrateMarkerReply (s : State) : Out :=
  match s.movingOf s.occ.a with
  | none => .next s
  | some m =>
    if m.stage ≠ 1 then .next s
    else
      let t := xlSlice (s.part m.part) (m.page * 65536)
      let frame := if m.newFrame < 2 ^ 40 then m.newFrame else homeOf m.newFrame * 2 ^ 30 + m.newFrame % 2 ^ 20
      let one (x : XlEntry) : XlEntry := if x.covers m.part (m.page * 65536) && x.moving then { x with moving := false, frame := frame } else x
      let s := s.onHome t fun h => { h with xl := h.xl.map one }
      .next (s.due .migrateEndOfForwarding s.occ.a)
/-- MIGRATE_END_OF_FORWARDING: the new home starts on the requests that came to it directly, and the command completes. a = old frame. -/
def execMigrateEndOfForwarding (s : State) : Out :=
  match s.movingOf s.occ.a with
  | none => .next s
  | some m =>
    if m.stage ≠ 1 then .next s
    else
      let s := (s.goQueue m).onMoving m.oldFrame fun m => { m with stage := 2 }
      let s := if s.smc.cmdstat.getLsbD 8 ∧ s.smc.op = 5 ∧ s.smc.status = none then s.cmdDone 0 else s
      .next (s.later .redirectRelease s.occ.a)
/-- REDIRECT_RELEASE: update-only lines of the old frame are flushed; when none is left and nothing on its way names the frame, the old home's
redirect entry is released and the frame is free, once the other modules of the fabric groups have flushed theirs and dropped their translations
(spec 12 R335). a = old frame. -/
def execRedirectRelease (s : State) : Out :=
  match s.movingOf s.occ.a with
  | none => .next s
  | some m =>
    let here (pa : Nat) : Bool := pa / 65536 * 65536 == m.oldFrame
    let lines := s.homes.flatMap fun h => (h.2.upd.filter fun l => l.mod == s.modid && here l.pa).map fun l => (h.1, l)
    let asks := s.reqs.any fun x => x.2.phase != .finished && x.2.phase != .reply && (x.2.pieces.drop x.2.performed).any fun p => p.mod == s.modid && here p.pa
    let rows := s.fab.msgs.any fun x => x.msg.kind == .builtin && (x.msg.addr == 0x208 || x.msg.addr == 0x200) && here (x.msg.arg 0).toNat
    if m.stage ≠ 2 then .next s
    else if lines ≠ [] then .next ((lines.foldl (fun (s : State) x => s.flushLine x.1 (s.rankOf x.1) x.2) s).later .redirectRelease s.occ.a)
    else if asks || rows then .next (s.later .redirectRelease s.occ.a)
    else
      let (wait, s) := s.membersBusy m.part
      if wait then .next (s.later .redirectRelease s.occ.a)
      else
        let s := s.onHome (homeOf m.oldFrame) fun h => { h with redirects := h.redirects.filter fun x => x.1 != s.occ.a }
        .next { s with moving := s.moving.filter fun x => x.oldFrame != m.oldFrame }

end Sys2Proof.Machine
end

