-- ==== Sys2Proof/Machine/Service.lean ====
section
/-! DEFINITION. Events of the module's service: custody records and module events, attestation, power and clock, spares, takeovers, and module reset
(spec 18 R455, R464 to R469, R474 to R481). -/

namespace Sys2Proof.Machine

/-! ### Custody records and module events (spec 18 R455, R469) -/

/-- CUSTSEQ: CUSTSTAT is loaded: READY with the record, PENDING, GONE or UNKNOWN, and vector 1 of the physical function is raised. a = sequence
number. -/
def execCustseq (s : State) : Out :=
  let n := s.occ.a
  let (st, rec_) : Nat × List Byte := match tget s.smc.custPlace n with
    | some at_ => (0, memRead s.mem at_ 640)
    | none => (if s.smc.custQ.any (fun x => x.1 == n) then 1 else if 1 ≤ n ∧ n < s.smc.custNext then 2 else 3, s.smc.custRec)
  .next ((s.onSmc fun m => { m with custStat := BitVec.ofNat 64 (2 ^ 63 + st), custRec := rec_ }).raiseVec 0 1)
/-- MEVENT: a write of 1 clears a bit of MEVENT. v = value. -/
def execMevent (s : State) : Out := .next (s.onSmc fun m => { m with mevent := m.mevent &&& ~~~s.occ.v })

/-! ### Attestation (spec 18 R466, R467) -/

/-- An SPDM answer, whose bytes are those of the DMTF protocol and no part of the spec (log entry 10). -/
def State.spdmSend (s : State) (fn : Nat) (bs : List Byte) : State := s.onSmc fun m => { m with spdmOut := m.spdmOut ++ [(fn, bs)] }
def State.spdmAnswer (s : State) (fn code : Nat) (body : List Byte) : State :=
  (s.onSmc fun m => { m with spdm := tset m.spdm fn code }).spdmSend fn (body ++ Config.signature (0x400 + code) (s.occ.bytes ++ body))
/-- Functions that answer: the physical one, every virtual one, and 9, the SMC over I3C. -/
def State.spdmOn (s : State) (fn : Nat) : Bool := !s.smc.recovery && ((s.smc.linkUp && decide (fn ≤ 8)) || fn == 9)
/-- A request that needs no session. -/
def spdmPlain (s : State) (code : Nat) : Out := .next (if s.spdmOn s.occ.a then s.spdmAnswer s.occ.a code [] else s)
/-- The step of a function's session: 0 none, 1 in handshake, 2 established. -/
def State.spdmStep (s : State) (fn : Nat) : Nat := (tget s.smc.sessions fn).getD 0
/-- A request of a session at a step, which leads to another; out of place it is answered with an error. -/
def spdmSession (s : State) (code : Nat) (from_ : Nat → Bool) (to_ : Nat) : Out :=
  let fn := s.occ.a
  if s.spdmOn fn = false then .next s
  else if from_ (s.spdmStep fn) then .next ((s.onSmc fun m => { m with sessions := if to_ = 0 then tdel m.sessions fn else tset m.sessions fn to_ }).spdmAnswer fn code [])
  else .next (s.spdmAnswer fn 0x7F [])
/-- GET_VERSION. a = function, bytes = request. -/
def execGetVersion (s : State) : Out := spdmPlain s 0x04
/-- GET_CAPABILITIES. -/
def execGetCapabilities (s : State) : Out := spdmPlain s 0x61
/-- NEGOTIATE_ALGORITHMS. -/
def execNegotiateAlgorithms (s : State) : Out := spdmPlain s 0x63
/-- GET_DIGESTS. -/
def execGetDigests (s : State) : Out := spdmPlain s 0x01
/-- GET_CERTIFICATE. -/
def execGetCertificate (s : State) : Out := spdmPlain s 0x02
/-- CHALLENGE. -/
def execChallenge (s : State) : Out := spdmPlain s 0x03
/-- GET_MEASUREMENTS: the blocks 1 to 6 of the function (spec 18 R467). -/
def execGetMeasurements (s : State) : Out := .next (if s.spdmOn s.occ.a then s.spdmAnswer s.occ.a 0x60 (s.blocks (s.occ.a % 9)) else s)
/-- KEY_EXCHANGE: a session is begun. -/
def execKeyExchange (s : State) : Out := spdmSession s 0x64 (fun _ => true) 1
/-- FINISH: the session is established. -/
def execFinish (s : State) : Out := spdmSession s 0x65 (fun n => n == 1) 2
/-- KEY_UPDATE. -/
def execKeyUpdate (s : State) : Out := spdmSession s 0x69 (fun n => n == 2) 2
/-- END_SESSION. -/
def execEndSession (s : State) : Out := spdmSession s 0x6C (fun n => n == 2) 0
/-- IDE_KEY_PROGRAM: IDE keys are programmed inside a secured session. a = function. -/
def execIdeKeyProgram (s : State) : Out :=
  let fn := s.occ.a
  .next (if s.spdmOn fn ∧ s.spdmStep fn = 2 then (s.onSmc fun m => { m with ide := insertNat m.ide fn }).spdmAnswer fn 0x3F [] else s)

/-! ### The board controller (spec 18 R479, R481) -/

/-- I3C_PCAP_WRITE: the power cap; a value out of range is ignored. a = watts. -/
def execI3cPcapWrite (s : State) : Out := .next (if capOk s.occ.a then s.onSmc fun m => { m with pcap := s.occ.a } else s)
/-- FIRMWARE_STAGING_WRITE: firmware is staged for the next module reset. bytes = image. -/
def execFirmwareStagingWrite (s : State) : Out := .next (s.onSmc fun m => { m with staged := s.occ.bytes })

/-! ### Power, temperature and clock (spec 18 R478, R479) -/

/-- The clock goes to a step; a change sets THERM. -/
def State.toStep (s : State) (n : Nat) : State := if s.smc.clockStep = n then s else (s.onSmc fun m => { m with clockStep := n }).setMevent 0
/-- The capacity factor F changes, in force from the next period boundary on, and sets PCAP. -/
def State.toFactor (s : State) (f : Nat) : State := if s.smc.freq = f then s else ((s.onSmc fun m => { m with freq := f }).setMevent 1).periodDue
/-- Power: the last reports of the rails together stand for the average (log entry 50). -/
def Smc.watts (m : Smc) : Nat := (m.power.map fun x => x.2).foldl (· + ·) 0
/-- The hottest sensor reads a temperature. -/
def State.reads (s : State) : State := s.onSmc fun m => { m with temp := s.occ.a }
/-- POWER_REPORT. a = rail, b = watts. -/
def execPowerReport (s : State) : Out := .next (s.onSmc fun m => { m with power := tset m.power s.occ.a s.occ.b })
/-- THERMAL_STEP_DOWN: one step down at 95 °C or more. a = temperature. -/
def execThermalStepDown (s : State) : Out := .next (if 95 ≤ s.occ.a then s.reads.toStep (min 4 (s.smc.clockStep + 1)) else s.reads)
/-- THERMAL_STEP_UP: one step up at 90 °C or less with power within the cap. a = temperature. -/
def execThermalStepUp (s : State) : Out :=
  .next (if s.occ.a ≤ 90 ∧ s.smc.watts ≤ s.smc.pcap then s.reads.toStep (s.smc.clockStep - 1) else s.reads)
/-- THERMAL_EMERGENCY: step 4 at once at 105 °C. a = temperature. -/
def execThermalEmergency (s : State) : Out := .next (if 105 ≤ s.occ.a then s.reads.toStep 4 else s.reads)
/-- THERMAL_TRIP: at 110 °C scope 0 of every partition is pruned and the clock stops. a = temperature. -/
def execThermalTrip (s : State) : Out :=
  if 110 ≤ s.occ.a then
    let ps := (List.range 8).filter fun n => (s.part n).isSet
    let s := ps.foldl (fun (s : State) n => (s.startPrune n 0 (s.rankOf 876) 15 0 0 true 0 false).2) s.reads
    .next { s with clockStopped := true }
  else .next s.reads
/-- PCAP_ADJUST: over the cap F falls in steps of 64 to 512 and then the clock steps; within it the clock's own steps come back first, then F. -/
def execPcapAdjust (s : State) : Out :=
  let m := s.smc
  .next (if m.pcap < m.watts then (if 512 < m.freq then s.toFactor (m.freq - 64) else s.toStep (min 4 (m.clockStep + 1)))
    else if m.clockStep = 0 then s.toFactor (min 1024 (m.freq + 64)) else s)

/-! ### Takeovers and spares (spec 18 R474 to R477) -/

/-- SMC_TAKEOVER: the dormant SMC takes over; a command that has changed nothing yet completes RETRY, and SPDM sessions end. -/
def execSmcTakeover (s : State) : Out :=
  if s.smc.active ≠ 0 then .next s
  else
    let s := (s.onSmc fun m => { m with active := 1, sessions := [], spdm := [] }).setMevent 3
    .next (if s.smc.cmdstat.getLsbD 8 ∧ s.smc.status = none ∧ s.smc.op ≠ 2 ∧ s.smc.op ≠ 5 then s.cmdDone 4 else s)
/-- LC_TAKEOVER: the spare of a pair of hedges takes over a core with the same rank, pseudo-channel and state; only the lines of the L1, which are
not copied, are gone. a = core. -/
def execLcTakeover (s : State) : Out :=
  let core := s.occ.a
  match (s.core core).run with
  | .resetting | .switchingOut | .switchingIn => .next (s.later .lcTakeover core)
  | .inn | .out | .gated | .ungating =>
    match tget s.smc.spareCores (core / 16) with
    | some _ => .next (s.log [0x21, core])
    | none =>
      let s := s.onSmc fun m => { m with spareCores := tset m.spareCores (core / 16) core }
      let s := (s.l1Drop core 0 (2 ^ 48) true).onCore core fun c => { c with icache := [] }
      .next (s.sparing 0 (core * 2 ^ 30))
/-- Spares of a kind of R474 at one place: 32 lines of a slice, 4 columns of an array, 2 lanes of a port group by R437; of others none is stated. -/
def spareLimit : Nat → Option Nat
  | 1 => some 32 | 5 => some 4 | _ => none
/-- SPARE_BRING_IN: a spare of a row of R474 is brought in; a fabric lane by remapping its port, an array column between jobs. a = row, 1 slice line,
2 HBM row, 3 fabric lane, 4 bridge lane, 5 array column, 6 torus link, which returns to the routing tables; b = its place: a core, a pseudo-channel, a
port, a die, or 4 times a router plus the port of the link. -/
def execSpareBringIn (s : State) : Out :=
  let kind := s.occ.a
  let key := kind * 4096 + s.occ.b
  let used := (tget s.smc.spares key).getD 0
  let left := match spareLimit kind with | some n => decide (used < n) | none => true
  if kind = 0 ∨ 7 ≤ kind ∨ left = false then .next s
  else if kind = 3 then .next (if (tget s.fab.spareLanes (s.occ.b / 2)).getD 2 = 0 then s else s.due .portRemap s.occ.b)
  else if kind = 5 ∧ (s.ds s.occ.b).job.isSome then .next (s.later .spareBringIn kind s.occ.b)
  else
    let r := s.occ.b / 4
    let p := s.occ.b % 4
    let back := (neighbour r p, if p % 2 = 0 then p + 1 else p - 1)
    let s := if kind = 4 then { s with fab := { s.fab with bridgeFailed := s.fab.bridgeFailed - 1 } }
      else if kind = 6 then { s with fab := { s.fab with links := s.fab.links.filter fun x => x != (r, p) && x != back } } else s
    .next (s.sparing key (if kind = 1 ∨ kind = 2 then s.occ.b * 2 ^ 30 else 2 ^ 50))

/-! ### Module reset (spec 18 R480) -/

/-- MODULE_RESET: the module runs its bring-up from the state after reset; spares brought in and parts marked failed stay so, firmware staged takes
effect, and the boot id is drawn anew. a = 0, or the step that fails plus 8 times the stack, hedge or port it fails for: steps 1, 2 and 7 leave
the module in recovery, 3 marks a stack, 4 a hedge, 5 leaves a port DOWN, 6 the host link (log entry 51). -/
def execModuleReset (s : State) : Out :=
  let step := s.occ.a % 8
  let idx := s.occ.a / 8
  let old := s.smc
  let rec_ := step == 1 || step == 2
  let fw := if rec_ || old.staged.isEmpty then old.firmware else old.staged
  let m : Smc :=
    { boots := old.boots + 1, spares := old.spares, spareCores := old.spareCores, staged := if rec_ then old.staged else [], firmware := fw, spdmOut := old.spdmOut
      failedStacks := if step = 3 then insertNat old.failedStacks idx else old.failedStacks
      failedHedges := if step = 4 then insertNat old.failedHedges idx else old.failedHedges
      bootStep := if rec_ || step == 7 then step - 1 else 7, recovery := rec_ || step == 7, linkUp := step != 6
      logs := if step = 0 then [] else [[0x15, step]] }
  let f : Fabric :=
    { linkOut := s.fab.linkOut, outbox := s.fab.outbox, hostOut := s.fab.hostOut, msix := s.fab.msix, spareLanes := s.fab.spareLanes
      ports := if step = 5 then [(idx % 8, { st := .down })] else [] }
  .next { State.reset with free := s.free, nextNo := s.nextNo, smc := m, fab := f }

end Sys2Proof.Machine
end

