-- ==== Sys2Proof/Machine/Dispatch.lean ====
section
/-! DEFINITION. exec: one arm per constructor of Instr, each one direct call of the instruction's meaning. -/

namespace Sys2Proof.Machine

def exec (i : Instr) (s : State) : Host.Outcome State Fault Refusal :=
  match i with
  | .add h rd ra rb => Sys2Proof.Machine.execAdd h rd ra rb s
  | .sub h rd ra rb => Sys2Proof.Machine.execSub h rd ra rb s
  | .andR h rd ra rb => Sys2Proof.Machine.execAndR h rd ra rb s
  | .orR h rd ra rb => Sys2Proof.Machine.execOrR h rd ra rb s
  | .xorR h rd ra rb => Sys2Proof.Machine.execXorR h rd ra rb s
  | .andn h rd ra rb => Sys2Proof.Machine.execAndn h rd ra rb s
  | .sll h rd ra rb => Sys2Proof.Machine.execSll h rd ra rb s
  | .srl h rd ra rb => Sys2Proof.Machine.execSrl h rd ra rb s
  | .sra h rd ra rb => Sys2Proof.Machine.execSra h rd ra rb s
  | .mul h rd ra rb => Sys2Proof.Machine.execMul h rd ra rb s
  | .mulh h rd ra rb => Sys2Proof.Machine.execMulh h rd ra rb s
  | .divS h rd ra rb => Sys2Proof.Machine.execDivS h rd ra rb s
  | .divu h rd ra rb => Sys2Proof.Machine.execDivu h rd ra rb s
  | .remS h rd ra rb => Sys2Proof.Machine.execRemS h rd ra rb s
  | .remu h rd ra rb => Sys2Proof.Machine.execRemu h rd ra rb s
  | .minS h rd ra rb => Sys2Proof.Machine.execMinS h rd ra rb s
  | .maxS h rd ra rb => Sys2Proof.Machine.execMaxS h rd ra rb s
  | .minu h rd ra rb => Sys2Proof.Machine.execMinu h rd ra rb s
  | .maxu h rd ra rb => Sys2Proof.Machine.execMaxu h rd ra rb s
  | .mov h rd ra => Sys2Proof.Machine.execMov h rd ra s
  | .clz h rd ra => Sys2Proof.Machine.execClz h rd ra s
  | .popc h rd ra => Sys2Proof.Machine.execPopc h rd ra s
  | .addi h rd ra imm => Sys2Proof.Machine.execAddi h rd ra imm s
  | .andi h rd ra imm => Sys2Proof.Machine.execAndi h rd ra imm s
  | .ori h rd ra imm => Sys2Proof.Machine.execOri h rd ra imm s
  | .xori h rd ra imm => Sys2Proof.Machine.execXori h rd ra imm s
  | .slli h rd ra amt => Sys2Proof.Machine.execSlli h rd ra amt s
  | .srli h rd ra amt => Sys2Proof.Machine.execSrli h rd ra amt s
  | .srai h rd ra amt => Sys2Proof.Machine.execSrai h rd ra amt s
  | .lui h rd imm => Sys2Proof.Machine.execLui h rd imm s
  | .auipc h rd imm => Sys2Proof.Machine.execAuipc h rd imm s
  | .cmpEq h rd ra rb => Sys2Proof.Machine.execCmpEq h rd ra rb s
  | .cmpNe h rd ra rb => Sys2Proof.Machine.execCmpNe h rd ra rb s
  | .cmpLt h rd ra rb => Sys2Proof.Machine.execCmpLt h rd ra rb s
  | .cmpGe h rd ra rb => Sys2Proof.Machine.execCmpGe h rd ra rb s
  | .cmpLtu h rd ra rb => Sys2Proof.Machine.execCmpLtu h rd ra rb s
  | .cmpGeu h rd ra rb => Sys2Proof.Machine.execCmpGeu h rd ra rb s
  | .cmpiEq h rd ra imm => Sys2Proof.Machine.execCmpiEq h rd ra imm s
  | .cmpiNe h rd ra imm => Sys2Proof.Machine.execCmpiNe h rd ra imm s
  | .cmpiLt h rd ra imm => Sys2Proof.Machine.execCmpiLt h rd ra imm s
  | .cmpiGe h rd ra imm => Sys2Proof.Machine.execCmpiGe h rd ra imm s
  | .cmpiLtu h rd ra imm => Sys2Proof.Machine.execCmpiLtu h rd ra imm s
  | .cmpiGeu h rd ra imm => Sys2Proof.Machine.execCmpiGeu h rd ra imm s
  | .pand h rd ra rb => Sys2Proof.Machine.execPand h rd ra rb s
  | .por h rd ra rb => Sys2Proof.Machine.execPor h rd ra rb s
  | .pxor h rd ra rb => Sys2Proof.Machine.execPxor h rd ra rb s
  | .pandn h rd ra rb => Sys2Proof.Machine.execPandn h rd ra rb s
  | .pnot h rd ra => Sys2Proof.Machine.execPnot h rd ra s
  | .pset h rd val => Sys2Proof.Machine.execPset h rd val s
  | .prd h rd => Sys2Proof.Machine.execPrd h rd s
  | .pwr h ra => Sys2Proof.Machine.execPwr h ra s
  | .br h off => Sys2Proof.Machine.execBr h off s
  | .call h off => Sys2Proof.Machine.execCall h off s
  | .jr h ra => Sys2Proof.Machine.execJr h ra s
  | .jalr h rd ra => Sys2Proof.Machine.execJalr h rd ra s
  | .loopW h ra imm => Sys2Proof.Machine.execLoopW h ra imm s
  | .ld h rd ra size ext imm => Sys2Proof.Machine.execLd h rd ra size ext imm s
  | .st h rd ra size imm => Sys2Proof.Machine.execSt h rd ra size imm s
  | .ldNc h rd ra size ext imm => Sys2Proof.Machine.execLdNc h rd ra size ext imm s
  | .ldw h wv ra imm => Sys2Proof.Machine.execLdw h wv ra imm s
  | .stw h wv ra imm => Sys2Proof.Machine.execStw h wv ra imm s
  | .ldv h rd ra rb => Sys2Proof.Machine.execLdv h rd ra rb s
  | .ldvW h wv ra rb => Sys2Proof.Machine.execLdvW h wv ra rb s
  | .stv h rd ra rb => Sys2Proof.Machine.execStv h rd ra rb s
  | .stvW h wv ra rb => Sys2Proof.Machine.execStvW h wv ra rb s
  | .atomAdd h rd ra rb sys dbl => Sys2Proof.Machine.execAtomAdd h rd ra rb sys dbl s
  | .atomAnd h rd ra rb sys dbl => Sys2Proof.Machine.execAtomAnd h rd ra rb sys dbl s
  | .atomOr h rd ra rb sys dbl => Sys2Proof.Machine.execAtomOr h rd ra rb sys dbl s
  | .atomXor h rd ra rb sys dbl => Sys2Proof.Machine.execAtomXor h rd ra rb sys dbl s
  | .atomSmin h rd ra rb sys dbl => Sys2Proof.Machine.execAtomSmin h rd ra rb sys dbl s
  | .atomSmax h rd ra rb sys dbl => Sys2Proof.Machine.execAtomSmax h rd ra rb sys dbl s
  | .atomSwap h rd ra rb sys dbl => Sys2Proof.Machine.execAtomSwap h rd ra rb sys dbl s
  | .atomCas h rd ra rb sys dbl => Sys2Proof.Machine.execAtomCas h rd ra rb sys dbl s
  | .atomFaddF32 h rd ra rb sys => Sys2Proof.Machine.execAtomFaddF32 h rd ra rb sys s
  | .atomFaddF64 h rd ra rb sys => Sys2Proof.Machine.execAtomFaddF64 h rd ra rb sys s
  | .aacc h rd ra rb => Sys2Proof.Machine.execAacc h rd ra rb s
  | .aaccL h rd ra rb => Sys2Proof.Machine.execAaccL h rd ra rb s
  | .fenceAcq h ra rb => Sys2Proof.Machine.execFenceAcq h ra rb s
  | .fenceRel h ra rb => Sys2Proof.Machine.execFenceRel h ra rb s
  | .fenceFull h ra rb => Sys2Proof.Machine.execFenceFull h ra rb s
  | .fenceX h ra rb => Sys2Proof.Machine.execFenceX h ra rb s
  | .fenceAcqSys h rd ra rb => Sys2Proof.Machine.execFenceAcqSys h rd ra rb s
  | .fenceRelSys h rd ra rb => Sys2Proof.Machine.execFenceRelSys h rd ra rb s
  | .fenceFullSys h rd ra rb => Sys2Proof.Machine.execFenceFullSys h rd ra rb s
  | .fenceXSys h rd ra rb => Sys2Proof.Machine.execFenceXSys h rd ra rb s
  | .l1inv h ra rb => Sys2Proof.Machine.execL1inv h ra rb s
  | .l1pf h ra rb => Sys2Proof.Machine.execL1pf h ra rb s
  | .seal h ra => Sys2Proof.Machine.execSeal h ra s
  | .unseal h ra rb => Sys2Proof.Machine.execUnseal h ra rb s
  | .reclaim h ra rb => Sys2Proof.Machine.execReclaim h ra rb s
  | .closeStep h rd ra rb => Sys2Proof.Machine.execCloseStep h rd ra rb s
  | .hmake h rd ra rb => Sys2Proof.Machine.execHmake h rd ra rb s
  | .hnarrow h rd ra rb => Sys2Proof.Machine.execHnarrow h rd ra rb s
  | .fadd h rd ra rb ty => Sys2Proof.Machine.execFadd h rd ra rb ty s
  | .fsub h rd ra rb ty => Sys2Proof.Machine.execFsub h rd ra rb ty s
  | .fmul h rd ra rb ty => Sys2Proof.Machine.execFmul h rd ra rb ty s
  | .fdiv h rd ra rb ty => Sys2Proof.Machine.execFdiv h rd ra rb ty s
  | .fmin h rd ra rb ty => Sys2Proof.Machine.execFmin h rd ra rb ty s
  | .fmax h rd ra rb ty => Sys2Proof.Machine.execFmax h rd ra rb ty s
  | .fsqrt h rd ra ty => Sys2Proof.Machine.execFsqrt h rd ra ty s
  | .fneg h rd ra ty => Sys2Proof.Machine.execFneg h rd ra ty s
  | .fma h rd ra rb ty => Sys2Proof.Machine.execFma h rd ra rb ty s
  | .fms h rd ra rb ty => Sys2Proof.Machine.execFms h rd ra rb ty s
  | .fcmpEq h rd ra rb ty => Sys2Proof.Machine.execFcmpEq h rd ra rb ty s
  | .fcmpLt h rd ra rb ty => Sys2Proof.Machine.execFcmpLt h rd ra rb ty s
  | .fcmpLe h rd ra rb ty => Sys2Proof.Machine.execFcmpLe h rd ra rb ty s
  | .fcmpUn h rd ra rb ty => Sys2Proof.Machine.execFcmpUn h rd ra rb ty s
  | .fcvtF2f h rd ra ty src => Sys2Proof.Machine.execFcvtF2f h rd ra ty src s
  | .fcvtF2i h rd ra ty => Sys2Proof.Machine.execFcvtF2i h rd ra ty s
  | .fcvtF2u h rd ra ty => Sys2Proof.Machine.execFcvtF2u h rd ra ty s
  | .fcvtI2f h rd ra ty => Sys2Proof.Machine.execFcvtI2f h rd ra ty s
  | .fcvtU2f h rd ra ty => Sys2Proof.Machine.execFcvtU2f h rd ra ty s
  | .fclass h rd ra ty => Sys2Proof.Machine.execFclass h rd ra ty s
  | .vadd h wd wa wb ty => Sys2Proof.Machine.execVadd h wd wa wb ty s
  | .vsub h wd wa wb ty => Sys2Proof.Machine.execVsub h wd wa wb ty s
  | .vmul h wd wa wb ty => Sys2Proof.Machine.execVmul h wd wa wb ty s
  | .vmin h wd wa wb ty => Sys2Proof.Machine.execVmin h wd wa wb ty s
  | .vmax h wd wa wb ty => Sys2Proof.Machine.execVmax h wd wa wb ty s
  | .vabs h wd wa ty => Sys2Proof.Machine.execVabs h wd wa ty s
  | .vneg h wd wa ty => Sys2Proof.Machine.execVneg h wd wa ty s
  | .vand h wd wa wb ty => Sys2Proof.Machine.execVand h wd wa wb ty s
  | .vor h wd wa wb ty => Sys2Proof.Machine.execVor h wd wa wb ty s
  | .vxor h wd wa wb ty => Sys2Proof.Machine.execVxor h wd wa wb ty s
  | .vshl h wd wa wb ty => Sys2Proof.Machine.execVshl h wd wa wb ty s
  | .vshr h wd wa wb ty => Sys2Proof.Machine.execVshr h wd wa wb ty s
  | .vfma h wd wa wb wc ty => Sys2Proof.Machine.execVfma h wd wa wb wc ty s
  | .vfms h wd wa wb wc ty => Sys2Proof.Machine.execVfms h wd wa wb wc ty s
  | .vcvt h wd wa ty => Sys2Proof.Machine.execVcvt h wd wa ty s
  | .vpack h wd wa wb ty => Sys2Proof.Machine.execVpack h wd wa wb ty s
  | .vunpklo h wd wa ty => Sys2Proof.Machine.execVunpklo h wd wa ty s
  | .vunpkhi h wd wa ty => Sys2Proof.Machine.execVunpkhi h wd wa ty s
  | .vswp2 h wd wa ty => Sys2Proof.Machine.execVswp2 h wd wa ty s
  | .vrev h wd wa ty => Sys2Proof.Machine.execVrev h wd wa ty s
  | .vshuf h wd wa wb ty => Sys2Proof.Machine.execVshuf h wd wa wb ty s
  | .vrot h wd wa k ty => Sys2Proof.Machine.execVrot h wd wa k ty s
  | .vbcast h wd wa k ty => Sys2Proof.Machine.execVbcast h wd wa k ty s
  | .vext h wv rg k ty => Sys2Proof.Machine.execVext h wv rg k ty s
  | .vins h wv rg k ty => Sys2Proof.Machine.execVins h wv rg k ty s
  | .vsplat h wv rg ty => Sys2Proof.Machine.execVsplat h wv rg ty s
  | .vcmpEq h wd wa wb ty => Sys2Proof.Machine.execVcmpEq h wd wa wb ty s
  | .vcmpLt h wd wa wb ty => Sys2Proof.Machine.execVcmpLt h wd wa wb ty s
  | .vcmpLe h wd wa wb ty => Sys2Proof.Machine.execVcmpLe h wd wa wb ty s
  | .vsel h wd wa wb wc ty => Sys2Proof.Machine.execVsel h wd wa wb wc ty s
  | .vnz h wd wa ty => Sys2Proof.Machine.execVnz h wd wa ty s
  | .vsin h wd wa ty => Sys2Proof.Machine.execVsin h wd wa ty s
  | .vcos h wd wa ty => Sys2Proof.Machine.execVcos h wd wa ty s
  | .vexp h wd wa ty => Sys2Proof.Machine.execVexp h wd wa ty s
  | .vlog2 h wd wa ty => Sys2Proof.Machine.execVlog2 h wd wa ty s
  | .vrsqrt h wd wa ty => Sys2Proof.Machine.execVrsqrt h wd wa ty s
  | .vrcp h wd wa ty => Sys2Proof.Machine.execVrcp h wd wa ty s
  | .vrsum h wd wa ty => Sys2Proof.Machine.execVrsum h wd wa ty s
  | .vrmax h wd wa ty => Sys2Proof.Machine.execVrmax h wd wa ty s
  | .vrmin h wd wa ty => Sys2Proof.Machine.execVrmin h wd wa ty s
  | .rowcpy h rd ra ty => Sys2Proof.Machine.execRowcpy h rd ra ty s
  | .rowzero h rd ty => Sys2Proof.Machine.execRowzero h rd ty s
  | .rowadd h rd ra rb ty => Sys2Proof.Machine.execRowadd h rd ra rb ty s
  | .rowmul h rd ra rb ty => Sys2Proof.Machine.execRowmul h rd ra rb ty s
  | .rowaxpy h rd ra rb ty => Sys2Proof.Machine.execRowaxpy h rd ra rb ty s
  | .rowmax h rd ra rb ty => Sys2Proof.Machine.execRowmax h rd ra rb ty s
  | .rowcvt h rd ra ty => Sys2Proof.Machine.execRowcvt h rd ra ty s
  | .send h ra rb rc prio rl merge => Sys2Proof.Machine.execSend h ra rb rc prio rl merge s
  | .sendp h ra rb rc prio rl => Sys2Proof.Machine.execSendp h ra rb rc prio rl s
  | .sendc h ra rb rc prio rl => Sys2Proof.Machine.execSendc h ra rb rc prio rl s
  | .recv h rd ra rb => Sys2Proof.Machine.execRecv h rd ra rb s
  | .endCtx h => Sys2Proof.Machine.execEndCtx h s
  | .rel h => Sys2Proof.Machine.execRel h s
  | .migrate h ra => Sys2Proof.Machine.execMigrate h ra s
  | .yield h => Sys2Proof.Machine.execYield h s
  | .callat h ra rb rc prio rl => Sys2Proof.Machine.execCallat h ra rb rc prio rl s
  | .barm h rd ra rb bar => Sys2Proof.Machine.execBarm h rd ra rb bar s
  | .bara h rd ra rb bar => Sys2Proof.Machine.execBara h rd ra rb bar s
  | .barw h rd ra rb bar => Sys2Proof.Machine.execBarw h rd ra rb bar s
  | .barq h rd ra rb bar => Sys2Proof.Machine.execBarq h rd ra rb bar s
  | .scnew h rd ra rb => Sys2Proof.Machine.execScnew h rd ra rb s
  | .scstat h rd ra rb => Sys2Proof.Machine.execScstat h rd ra rb s
  | .prune h tkd ra rb => Sys2Proof.Machine.execPrune h tkd ra rb s
  | .resumeW h rx ra rb => Sys2Proof.Machine.execResumeW h rx ra rb s
  | .copy h tkd tka tkb tkc cb => Sys2Proof.Machine.execCopy h tkd tka tkb tkc cb s
  | .copys h tkd tka tkb tkc cb => Sys2Proof.Machine.execCopys h tkd tka tkb tkc cb s
  | .walk h tkd tka tkb tkc cb => Sys2Proof.Machine.execWalk h tkd tka tkb tkc cb s
  | .dedup h rd ra => Sys2Proof.Machine.execDedup h rd ra s
  | .emit h rd ra => Sys2Proof.Machine.execEmit h rd ra s
  | .slot h ra rb => Sys2Proof.Machine.execSlot h ra rb s
  | .dispatch h tkd tka tkb tkc cb => Sys2Proof.Machine.execDispatch h tkd tka tkb tkc cb s
  | .combine h tkd tka tkb tkc cb => Sys2Proof.Machine.execCombine h tkd tka tkb tkc cb s
  | .djob h tkd tka tkb tkc cb => Sys2Proof.Machine.execDjob h tkd tka tkb tkc cb s
  | .trap h k => Sys2Proof.Machine.execTrap h k s
  | .eret h ra => Sys2Proof.Machine.execEret h ra s
  | .mfs h rd k => Sys2Proof.Machine.execMfs h rd k s
  | .mts h ra k => Sys2Proof.Machine.execMts h ra k s
  | .breakTrap h k => Sys2Proof.Machine.execBreakTrap h k s
  | .pause h k => Sys2Proof.Machine.execPause h k s
  | .halt h => Sys2Proof.Machine.execHalt h s
  | .nop h => Sys2Proof.Machine.execNop h s
  | .dsNopS => Sys2Proof.Machine.execDsNopS s
  | .dAdd dd da db => Sys2Proof.Machine.execDAdd dd da db s
  | .dSub dd da db => Sys2Proof.Machine.execDSub dd da db s
  | .dAnd dd da db => Sys2Proof.Machine.execDAnd dd da db s
  | .dOr dd da db => Sys2Proof.Machine.execDOr dd da db s
  | .dXor dd da db => Sys2Proof.Machine.execDXor dd da db s
  | .dSll dd da db => Sys2Proof.Machine.execDSll dd da db s
  | .dSrl dd da db => Sys2Proof.Machine.execDSrl dd da db s
  | .dMul dd da db => Sys2Proof.Machine.execDMul dd da db s
  | .dAddi dd da imm => Sys2Proof.Machine.execDAddi dd da imm s
  | .dLui dd imm => Sys2Proof.Machine.execDLui dd imm s
  | .dBeq da db off => Sys2Proof.Machine.execDBeq da db off s
  | .dBne da db off => Sys2Proof.Machine.execDBne da db off s
  | .dBlt da db off => Sys2Proof.Machine.execDBlt da db off s
  | .dJmp off => Sys2Proof.Machine.execDJmp off s
  | .jget dd => Sys2Proof.Machine.execJget dd s
  | .jdone da => Sys2Proof.Machine.execJdone da s
  | .agset an sel da => Sys2Proof.Machine.execAgset an sel da s
  | .dret => Sys2Proof.Machine.execDret s
  | .dmfs dd sel => Sys2Proof.Machine.execDmfs dd sel s
  | .dsNopL => Sys2Proof.Machine.execDsNopL s
  | .xin an am => Sys2Proof.Machine.execXin an am s
  | .xout an am => Sys2Proof.Machine.execXout an am s
  | .ldd dd an => Sys2Proof.Machine.execLdd dd an s
  | .std dd an => Sys2Proof.Machine.execStd dd an s
  | .dbcpy an am => Sys2Proof.Machine.execDbcpy an am s
  | .dsNopM => Sys2Proof.Machine.execDsNopM s
  | .mlw an => Sys2Proof.Machine.execMlw an s
  | .mlwt an => Sys2Proof.Machine.execMlwt an s
  | .mswap => Sys2Proof.Machine.execMswap s
  | .mst bank an acc => Sys2Proof.Machine.execMst bank an acc s
  | .mstz bank an acc az => Sys2Proof.Machine.execMstz bank an acc az s
  | .mdrain bank an fmt => Sys2Proof.Machine.execMdrain bank an fmt s
  | .mzero mask => Sys2Proof.Machine.execMzero mask s
  | .mpark => Sys2Proof.Machine.execMpark s
  | .munpark => Sys2Proof.Machine.execMunpark s
  | .dsNopV => Sys2Proof.Machine.execDsNopV s
  | .vbias bank an => Sys2Proof.Machine.execVbias bank an s
  | .vscale bank da => Sys2Proof.Machine.execVscale bank da s
  | .vrelu bank => Sys2Proof.Machine.execVrelu bank s
  | .vclamp bank da db => Sys2Proof.Machine.execVclamp bank da db s
  | .vgelu bank => Sys2Proof.Machine.execVgelu bank s
  | .latchComplete => Sys2Proof.Machine.execLatchComplete s
  | .memoryReply => Sys2Proof.Machine.execMemoryReply s
  | .l1FillReply => Sys2Proof.Machine.execL1FillReply s
  | .tilePageFill => Sys2Proof.Machine.execTilePageFill s
  | .fenceComplete => Sys2Proof.Machine.execFenceComplete s
  | .reclaimComplete => Sys2Proof.Machine.execReclaimComplete s
  | .closeComplete => Sys2Proof.Machine.execCloseComplete s
  | .scopeUnitReply => Sys2Proof.Machine.execScopeUnitReply s
  | .pauseExpiry => Sys2Proof.Machine.execPauseExpiry s
  | .killTaken => Sys2Proof.Machine.execKillTaken s
  | .contextSwitchOut => Sys2Proof.Machine.execContextSwitchOut s
  | .messageArrival => Sys2Proof.Machine.execMessageArrival s
  | .handlerStart => Sys2Proof.Machine.execHandlerStart s
  | .nackRetry => Sys2Proof.Machine.execNackRetry s
  | .nackFlitArrival => Sys2Proof.Machine.execNackFlitArrival s
  | .ackFlitArrival => Sys2Proof.Machine.execAckFlitArrival s
  | .skipFlitArrival => Sys2Proof.Machine.execSkipFlitArrival s
  | .flitArrival => Sys2Proof.Machine.execFlitArrival s
  | .starveSignal => Sys2Proof.Machine.execStarveSignal s
  | .goldenEpoch => Sys2Proof.Machine.execGoldenEpoch s
  | .torusLinkFail => Sys2Proof.Machine.execTorusLinkFail s
  | .sidebandResend => Sys2Proof.Machine.execSidebandResend s
  | .migrateComplete => Sys2Proof.Machine.execMigrateComplete s
  | .builtinLoad => Sys2Proof.Machine.execBuiltinLoad s
  | .builtinLoadNc => Sys2Proof.Machine.execBuiltinLoadNc s
  | .builtinStore => Sys2Proof.Machine.execBuiltinStore s
  | .builtinLoad32 => Sys2Proof.Machine.execBuiltinLoad32 s
  | .builtinStore32 => Sys2Proof.Machine.execBuiltinStore32 s
  | .builtinLdv => Sys2Proof.Machine.execBuiltinLdv s
  | .builtinStv => Sys2Proof.Machine.execBuiltinStv s
  | .builtinAtomAdd => Sys2Proof.Machine.execBuiltinAtomAdd s
  | .builtinAtomAnd => Sys2Proof.Machine.execBuiltinAtomAnd s
  | .builtinAtomOr => Sys2Proof.Machine.execBuiltinAtomOr s
  | .builtinAtomXor => Sys2Proof.Machine.execBuiltinAtomXor s
  | .builtinAtomSmin => Sys2Proof.Machine.execBuiltinAtomSmin s
  | .builtinAtomSmax => Sys2Proof.Machine.execBuiltinAtomSmax s
  | .builtinAtomSwap => Sys2Proof.Machine.execBuiltinAtomSwap s
  | .builtinAtomCas => Sys2Proof.Machine.execBuiltinAtomCas s
  | .builtinAtomFaddF32 => Sys2Proof.Machine.execBuiltinAtomFaddF32 s
  | .builtinAtomFaddF64 => Sys2Proof.Machine.execBuiltinAtomFaddF64 s
  | .builtinBadop => Sys2Proof.Machine.execBuiltinBadop s
  | .rowRequest => Sys2Proof.Machine.execRowRequest s
  | .rowAccumulatePart => Sys2Proof.Machine.execRowAccumulatePart s
  | .closeNotice => Sys2Proof.Machine.execCloseNotice s
  | .flushDemand => Sys2Proof.Machine.execFlushDemand s
  | .rowLanding => Sys2Proof.Machine.execRowLanding s
  | .childArrival => Sys2Proof.Machine.execChildArrival s
  | .barrierRelease => Sys2Proof.Machine.execBarrierRelease s
  | .brokenNotice => Sys2Proof.Machine.execBrokenNotice s
  | .resumeBuiltin => Sys2Proof.Machine.execResumeBuiltin s
  | .switchOut => Sys2Proof.Machine.execSwitchOut s
  | .switchIn => Sys2Proof.Machine.execSwitchIn s
  | .attention => Sys2Proof.Machine.execAttention s
  | .launchFanout => Sys2Proof.Machine.execLaunchFanout s
  | .waveRequest => Sys2Proof.Machine.execWaveRequest s
  | .waveReport => Sys2Proof.Machine.execWaveReport s
  | .launchRelease => Sys2Proof.Machine.execLaunchRelease s
  | .killNotice => Sys2Proof.Machine.execKillNotice s
  | .pruneAcknowledgement => Sys2Proof.Machine.execPruneAcknowledgement s
  | .pruneLinkwaitExpiry => Sys2Proof.Machine.execPruneLinkwaitExpiry s
  | .resetReport => Sys2Proof.Machine.execResetReport s
  | .tileSpaceRequest => Sys2Proof.Machine.execTileSpaceRequest s
  | .tileSpaceGrant => Sys2Proof.Machine.execTileSpaceGrant s
  | .scopeRequest => Sys2Proof.Machine.execScopeRequest s
  | .scopeBinding => Sys2Proof.Machine.execScopeBinding s
  | .translationRequest => Sys2Proof.Machine.execTranslationRequest s
  | .pageWalkComplete => Sys2Proof.Machine.execPageWalkComplete s
  | .homeAccess => Sys2Proof.Machine.execHomeAccess s
  | .reclaimFloorNotice => Sys2Proof.Machine.execReclaimFloorNotice s
  | .remoteTileAccess => Sys2Proof.Machine.execRemoteTileAccess s
  | .poisonError => Sys2Proof.Machine.execPoisonError s
  | .copyCommandAccept => Sys2Proof.Machine.execCopyCommandAccept s
  | .copyStart => Sys2Proof.Machine.execCopyStart s
  | .copyPart => Sys2Proof.Machine.execCopyPart s
  | .copyPartDone => Sys2Proof.Machine.execCopyPartDone s
  | .continuationProbe => Sys2Proof.Machine.execContinuationProbe s
  | .tokenNotice => Sys2Proof.Machine.execTokenNotice s
  | .walkCommandAccept => Sys2Proof.Machine.execWalkCommandAccept s
  | .walkStart => Sys2Proof.Machine.execWalkStart s
  | .iwLineRun => Sys2Proof.Machine.execIwLineRun s
  | .tdeCommandAccept => Sys2Proof.Machine.execTdeCommandAccept s
  | .dispatchStart => Sys2Proof.Machine.execDispatchStart s
  | .exchangeCounts => Sys2Proof.Machine.execExchangeCounts s
  | .tdeAbort => Sys2Proof.Machine.execTdeAbort s
  | .dispatchEnd => Sys2Proof.Machine.execDispatchEnd s
  | .combineStart => Sys2Proof.Machine.execCombineStart s
  | .combineEnd => Sys2Proof.Machine.execCombineEnd s
  | .djobAccept => Sys2Proof.Machine.execDjobAccept s
  | .jobGrant => Sys2Proof.Machine.execJobGrant s
  | .dsResultWrite => Sys2Proof.Machine.execDsResultWrite s
  | .dsTransferDone => Sys2Proof.Machine.execDsTransferDone s
  | .dsTransferFault => Sys2Proof.Machine.execDsTransferFault s
  | .dsReset => Sys2Proof.Machine.execDsReset s
  | .launchSubmission => Sys2Proof.Machine.execLaunchSubmission s
  | .distributorSelect => Sys2Proof.Machine.execDistributorSelect s
  | .launchLoadDone => Sys2Proof.Machine.execLaunchLoadDone s
  | .waveStart => Sys2Proof.Machine.execWaveStart s
  | .launchEnd => Sys2Proof.Machine.execLaunchEnd s
  | .custodyRecordSigned => Sys2Proof.Machine.execCustodyRecordSigned s
  | .budgetPeriod => Sys2Proof.Machine.execBudgetPeriod s
  | .lcReset => Sys2Proof.Machine.execLcReset s
  | .lcResetEnd => Sys2Proof.Machine.execLcResetEnd s
  | .powerGate => Sys2Proof.Machine.execPowerGate s
  | .migrateRedirectNotice => Sys2Proof.Machine.execMigrateRedirectNotice s
  | .migrateMarkerReply => Sys2Proof.Machine.execMigrateMarkerReply s
  | .migrateEndOfForwarding => Sys2Proof.Machine.execMigrateEndOfForwarding s
  | .redirectRelease => Sys2Proof.Machine.execRedirectRelease s
  | .rekeyGranule => Sys2Proof.Machine.execRekeyGranule s
  | .linkFlitReceive => Sys2Proof.Machine.execLinkFlitReceive s
  | .replayRequest => Sys2Proof.Machine.execReplayRequest s
  | .portRetrain => Sys2Proof.Machine.execPortRetrain s
  | .portRemap => Sys2Proof.Machine.execPortRemap s
  | .portDown => Sys2Proof.Machine.execPortDown s
  | .trainingComplete => Sys2Proof.Machine.execTrainingComplete s
  | .session => Sys2Proof.Machine.execSession s
  | .bramblePacket => Sys2Proof.Machine.execBramblePacket s
  | .tack => Sys2Proof.Machine.execTack s
  | .tnack => Sys2Proof.Machine.execTnack s
  | .tackTimer => Sys2Proof.Machine.execTackTimer s
  | .transportResend => Sys2Proof.Machine.execTransportResend s
  | .packetAbandon => Sys2Proof.Machine.execPacketAbandon s
  | .keepalive => Sys2Proof.Machine.execKeepalive s
  | .brel => Sys2Proof.Machine.execBrel s
  | .mreqResend => Sys2Proof.Machine.execMreqResend s
  | .linkwaitExpiry => Sys2Proof.Machine.execLinkwaitExpiry s
  | .bridgeLaneFail => Sys2Proof.Machine.execBridgeLaneFail s
  | .indb => Sys2Proof.Machine.execIndb s
  | .lwdb => Sys2Proof.Machine.execLwdb s
  | .registerWrite => Sys2Proof.Machine.execRegisterWrite s
  | .msixUnmask => Sys2Proof.Machine.execMsixUnmask s
  | .rscmd => Sys2Proof.Machine.execRscmd s
  | .resyncReady => Sys2Proof.Machine.execResyncReady s
  | .psetup => Sys2Proof.Machine.execPsetup s
  | .ptear => Sys2Proof.Machine.execPtear s
  | .xlinv => Sys2Proof.Machine.execXlinv s
  | .regionCmd => Sys2Proof.Machine.execRegionCmd s
  | .smcMigrate => Sys2Proof.Machine.execSmcMigrate s
  | .watchCmd => Sys2Proof.Machine.execWatchCmd s
  | .budgetCmd => Sys2Proof.Machine.execBudgetCmd s
  | .fserv => Sys2Proof.Machine.execFserv s
  | .qprio => Sys2Proof.Machine.execQprio s
  | .modid => Sys2Proof.Machine.execModid s
  | .pcap => Sys2Proof.Machine.execPcap s
  | .rekey => Sys2Proof.Machine.execRekey s
  | .groupCmd => Sys2Proof.Machine.execGroupCmd s
  | .fsload => Sys2Proof.Machine.execFsload s
  | .smcCommandComplete => Sys2Proof.Machine.execSmcCommandComplete s
  | .custseq => Sys2Proof.Machine.execCustseq s
  | .mevent => Sys2Proof.Machine.execMevent s
  | .getVersion => Sys2Proof.Machine.execGetVersion s
  | .getCapabilities => Sys2Proof.Machine.execGetCapabilities s
  | .negotiateAlgorithms => Sys2Proof.Machine.execNegotiateAlgorithms s
  | .getDigests => Sys2Proof.Machine.execGetDigests s
  | .getCertificate => Sys2Proof.Machine.execGetCertificate s
  | .challenge => Sys2Proof.Machine.execChallenge s
  | .getMeasurements => Sys2Proof.Machine.execGetMeasurements s
  | .keyExchange => Sys2Proof.Machine.execKeyExchange s
  | .finish => Sys2Proof.Machine.execFinish s
  | .keyUpdate => Sys2Proof.Machine.execKeyUpdate s
  | .endSession => Sys2Proof.Machine.execEndSession s
  | .ideKeyProgram => Sys2Proof.Machine.execIdeKeyProgram s
  | .i3cPcapWrite => Sys2Proof.Machine.execI3cPcapWrite s
  | .firmwareStagingWrite => Sys2Proof.Machine.execFirmwareStagingWrite s
  | .powerReport => Sys2Proof.Machine.execPowerReport s
  | .thermalStepDown => Sys2Proof.Machine.execThermalStepDown s
  | .thermalStepUp => Sys2Proof.Machine.execThermalStepUp s
  | .thermalEmergency => Sys2Proof.Machine.execThermalEmergency s
  | .thermalTrip => Sys2Proof.Machine.execThermalTrip s
  | .pcapAdjust => Sys2Proof.Machine.execPcapAdjust s
  | .smcTakeover => Sys2Proof.Machine.execSmcTakeover s
  | .lcTakeover => Sys2Proof.Machine.execLcTakeover s
  | .spareBringIn => Sys2Proof.Machine.execSpareBringIn s
  | .moduleReset => Sys2Proof.Machine.execModuleReset s
  | .dsWordComplete => Sys2Proof.Machine.execDsWordComplete s
  | .rowWordComplete => Sys2Proof.Machine.execRowWordComplete s
  | .relordRelease => Sys2Proof.Machine.execRelordRelease s
  | .ungatingEnd => Sys2Proof.Machine.execUngatingEnd s
  | .sessionCounterLimit => Sys2Proof.Machine.execSessionCounterLimit s
  | .moderationExpiry => Sys2Proof.Machine.execModerationExpiry s
  | .tnackResend => Sys2Proof.Machine.execTnackResend s

end Sys2Proof.Machine
end

