-- ==== Sys2Proof/Machine/Step.lean ====
section
/-! DEFINITION. One step of the module: the oldest event that has come due, or a turn of the agent in focus (log entry 3). -/

namespace Sys2Proof.Machine

/-- The turn of a context: one word. -/
def stepLc (core k : Nat) (s : State) : Host.Outcome State Fault Refusal :=
  match s.prepare core k with
  | .done s' => .next s'
  | .run i s' =>
    match exec i s' with
    | .next t => .next (t.settle core k)
    | .fault f => .fault f
    | .refused r => .refused r

/-- The words of a bundle, in order. -/
def runBundle : List Instr → State → Host.Outcome State Fault Refusal
  | [], s => .next s
  | i :: r, s =>
    match exec i s with
    | .next t => runBundle r t
    | .fault f => .fault f
    | .refused x => .refused x
/-- The turn of a dense sequencer: one bundle. -/
def stepDs (die : Nat) (s : State) : Host.Outcome State Fault Refusal :=
  match s.dPrepare die with
  | .done s' => .next s'
  | .run is s' =>
    match runBundle is s' with
    | .next t => .next (t.dSettle die)
    | .fault f => .fault f
    | .refused r => .refused r

/-- The turn of the agent in focus. -/
def turn (s : State) : Host.Outcome State Fault Refusal :=
  match s.focus with
  | .lc core k => stepLc core k s
  | .ds die => stepDs die s
/-- One step: the agent in focus, or the oldest event that has come due where there is one, as a free choice has it. -/
def step (s : State) : Host.Outcome State Fault Refusal :=
  if s.clockStopped then .fault .clockStopped
  else
    match s.agenda with
    | [] => turn s
    | (i, o) :: r =>
      if Config.agentFirst s.free then turn { s with free := s.free + 1 }
      else exec i { s with agenda := r, occ := o, free := s.free + 1 }

/-- The state with a word placed where step fetches it: as the one inline word of the message that the context in focus holds (spec 02 R63),
with no event due before it (log entry 3). -/
def State.withFetchWord (s : State) (_nbits w : Nat) : State :=
  let core := s.fcore
  let k := if s.fctx < 14 then s.fctx else 0
  let c := s.ctx core k
  let m : Msg := { kind := .spawn, inl := true, ilen := 1, addr := 0x400, code := [BitVec.ofNat 32 w] }
  let s := { s with focus := .lc core k, agenda := [], clockStopped := false }
  let s := s.setCore core { s.core core with attention := false }
  s.setCtx core k { c with
    st := .ready, hold := .none, pc := 0xFFFFFF00, npc := 0xFFFFFF00, slot := 0, grp := [], performed := 0, doneMask := 0, fin := false
    latches := c.latches.take 7, held := some m, resumed := false, ctl := { c.ctl with kpend := false, ipend := false } }

end Sys2Proof.Machine
end

