-- ==== Sys2Proof/Laws/State.lean ====
section
/-! SUPPORT. What each update of the state leaves alone, field by field, and what reading back what an update wrote gives: no later proof
unfolds a record update. -/

namespace Sys2Proof.Machine

/-! `State.setCtx` changes a context and no other field. -/

@[simp] theorem State.setCtx_modid (s : State) (core k : Nat) (c : Ctx) : (s.setCtx core k c).modid = s.modid := rfl
@[simp] theorem State.setCtx_focus (s : State) (core k : Nat) (c : Ctx) : (s.setCtx core k c).focus = s.focus := rfl
@[simp] theorem State.setCtx_agenda (s : State) (core k : Nat) (c : Ctx) : (s.setCtx core k c).agenda = s.agenda := rfl
@[simp] theorem State.setCtx_occ (s : State) (core k : Nat) (c : Ctx) : (s.setCtx core k c).occ = s.occ := rfl
@[simp] theorem State.setCtx_timers (s : State) (core k : Nat) (c : Ctx) : (s.setCtx core k c).timers = s.timers := rfl
@[simp] theorem State.setCtx_free (s : State) (core k : Nat) (c : Ctx) : (s.setCtx core k c).free = s.free := rfl
@[simp] theorem State.setCtx_nextNo (s : State) (core k : Nat) (c : Ctx) : (s.setCtx core k c).nextNo = s.nextNo := rfl
@[simp] theorem State.setCtx_cores (s : State) (core k : Nat) (c : Ctx) : (s.setCtx core k c).cores = s.cores := rfl
@[simp] theorem State.setCtx_homes (s : State) (core k : Nat) (c : Ctx) : (s.setCtx core k c).homes = s.homes := rfl
@[simp] theorem State.setCtx_mem (s : State) (core k : Nat) (c : Ctx) : (s.setCtx core k c).mem = s.mem := rfl
@[simp] theorem State.setCtx_poison (s : State) (core k : Nat) (c : Ctx) : (s.setCtx core k c).poison = s.poison := rfl
@[simp] theorem State.setCtx_grans (s : State) (core k : Nat) (c : Ctx) : (s.setCtx core k c).grans = s.grans := rfl
@[simp] theorem State.setCtx_reqs (s : State) (core k : Nat) (c : Ctx) : (s.setCtx core k c).reqs = s.reqs := rfl
@[simp] theorem State.setCtx_parts (s : State) (core k : Nat) (c : Ctx) : (s.setCtx core k c).parts = s.parts := rfl
@[simp] theorem State.setCtx_watches (s : State) (core k : Nat) (c : Ctx) : (s.setCtx core k c).watches = s.watches := rfl
@[simp] theorem State.setCtx_ops (s : State) (core k : Nat) (c : Ctx) : (s.setCtx core k c).ops = s.ops := rfl
@[simp] theorem State.setCtx_tdes (s : State) (core k : Nat) (c : Ctx) : (s.setCtx core k c).tdes = s.tdes := rfl
@[simp] theorem State.setCtx_scopes (s : State) (core k : Nat) (c : Ctx) : (s.setCtx core k c).scopes = s.scopes := rfl
@[simp] theorem State.setCtx_counts (s : State) (core k : Nat) (c : Ctx) : (s.setCtx core k c).counts = s.counts := rfl
@[simp] theorem State.setCtx_scopeReqs (s : State) (core k : Nat) (c : Ctx) : (s.setCtx core k c).scopeReqs = s.scopeReqs := rfl
@[simp] theorem State.setCtx_scnewCount (s : State) (core k : Nat) (c : Ctx) : (s.setCtx core k c).scnewCount = s.scnewCount := rfl
@[simp] theorem State.setCtx_prunes (s : State) (core k : Nat) (c : Ctx) : (s.setCtx core k c).prunes = s.prunes := rfl
@[simp] theorem State.setCtx_dss (s : State) (core k : Nat) (c : Ctx) : (s.setCtx core k c).dss = s.dss := rfl
@[simp] theorem State.setCtx_launches (s : State) (core k : Nat) (c : Ctx) : (s.setCtx core k c).launches = s.launches := rfl
@[simp] theorem State.setCtx_nextLaunch (s : State) (core k : Nat) (c : Ctx) : (s.setCtx core k c).nextLaunch = s.nextLaunch := rfl
@[simp] theorem State.setCtx_lastPart (s : State) (core k : Nat) (c : Ctx) : (s.setCtx core k c).lastPart = s.lastPart := rfl
@[simp] theorem State.setCtx_moving (s : State) (core k : Nat) (c : Ctx) : (s.setCtx core k c).moving = s.moving := rfl
@[simp] theorem State.setCtx_fab (s : State) (core k : Nat) (c : Ctx) : (s.setCtx core k c).fab = s.fab := rfl
@[simp] theorem State.setCtx_vfs (s : State) (core k : Nat) (c : Ctx) : (s.setCtx core k c).vfs = s.vfs := rfl
@[simp] theorem State.setCtx_smc (s : State) (core k : Nat) (c : Ctx) : (s.setCtx core k c).smc = s.smc := rfl
@[simp] theorem State.setCtx_clockStopped (s : State) (core k : Nat) (c : Ctx) : (s.setCtx core k c).clockStopped = s.clockStopped := rfl

/-! `State.setCur` changes the context that issues and no other field. -/

@[simp] theorem State.setCur_modid (s : State) (c : Ctx) : (s.setCur c).modid = s.modid := rfl
@[simp] theorem State.setCur_focus (s : State) (c : Ctx) : (s.setCur c).focus = s.focus := rfl
@[simp] theorem State.setCur_agenda (s : State) (c : Ctx) : (s.setCur c).agenda = s.agenda := rfl
@[simp] theorem State.setCur_occ (s : State) (c : Ctx) : (s.setCur c).occ = s.occ := rfl
@[simp] theorem State.setCur_timers (s : State) (c : Ctx) : (s.setCur c).timers = s.timers := rfl
@[simp] theorem State.setCur_free (s : State) (c : Ctx) : (s.setCur c).free = s.free := rfl
@[simp] theorem State.setCur_nextNo (s : State) (c : Ctx) : (s.setCur c).nextNo = s.nextNo := rfl
@[simp] theorem State.setCur_cores (s : State) (c : Ctx) : (s.setCur c).cores = s.cores := rfl
@[simp] theorem State.setCur_homes (s : State) (c : Ctx) : (s.setCur c).homes = s.homes := rfl
@[simp] theorem State.setCur_mem (s : State) (c : Ctx) : (s.setCur c).mem = s.mem := rfl
@[simp] theorem State.setCur_poison (s : State) (c : Ctx) : (s.setCur c).poison = s.poison := rfl
@[simp] theorem State.setCur_grans (s : State) (c : Ctx) : (s.setCur c).grans = s.grans := rfl
@[simp] theorem State.setCur_reqs (s : State) (c : Ctx) : (s.setCur c).reqs = s.reqs := rfl
@[simp] theorem State.setCur_parts (s : State) (c : Ctx) : (s.setCur c).parts = s.parts := rfl
@[simp] theorem State.setCur_watches (s : State) (c : Ctx) : (s.setCur c).watches = s.watches := rfl
@[simp] theorem State.setCur_ops (s : State) (c : Ctx) : (s.setCur c).ops = s.ops := rfl
@[simp] theorem State.setCur_tdes (s : State) (c : Ctx) : (s.setCur c).tdes = s.tdes := rfl
@[simp] theorem State.setCur_scopes (s : State) (c : Ctx) : (s.setCur c).scopes = s.scopes := rfl
@[simp] theorem State.setCur_counts (s : State) (c : Ctx) : (s.setCur c).counts = s.counts := rfl
@[simp] theorem State.setCur_scopeReqs (s : State) (c : Ctx) : (s.setCur c).scopeReqs = s.scopeReqs := rfl
@[simp] theorem State.setCur_scnewCount (s : State) (c : Ctx) : (s.setCur c).scnewCount = s.scnewCount := rfl
@[simp] theorem State.setCur_prunes (s : State) (c : Ctx) : (s.setCur c).prunes = s.prunes := rfl
@[simp] theorem State.setCur_dss (s : State) (c : Ctx) : (s.setCur c).dss = s.dss := rfl
@[simp] theorem State.setCur_launches (s : State) (c : Ctx) : (s.setCur c).launches = s.launches := rfl
@[simp] theorem State.setCur_nextLaunch (s : State) (c : Ctx) : (s.setCur c).nextLaunch = s.nextLaunch := rfl
@[simp] theorem State.setCur_lastPart (s : State) (c : Ctx) : (s.setCur c).lastPart = s.lastPart := rfl
@[simp] theorem State.setCur_moving (s : State) (c : Ctx) : (s.setCur c).moving = s.moving := rfl
@[simp] theorem State.setCur_fab (s : State) (c : Ctx) : (s.setCur c).fab = s.fab := rfl
@[simp] theorem State.setCur_vfs (s : State) (c : Ctx) : (s.setCur c).vfs = s.vfs := rfl
@[simp] theorem State.setCur_smc (s : State) (c : Ctx) : (s.setCur c).smc = s.smc := rfl
@[simp] theorem State.setCur_clockStopped (s : State) (c : Ctx) : (s.setCur c).clockStopped = s.clockStopped := rfl

/-! `State.finish` changes the mark that the word has performed and no other field. -/

@[simp] theorem State.finish_modid (s : State) : (s.finish).modid = s.modid := rfl
@[simp] theorem State.finish_focus (s : State) : (s.finish).focus = s.focus := rfl
@[simp] theorem State.finish_agenda (s : State) : (s.finish).agenda = s.agenda := rfl
@[simp] theorem State.finish_occ (s : State) : (s.finish).occ = s.occ := rfl
@[simp] theorem State.finish_timers (s : State) : (s.finish).timers = s.timers := rfl
@[simp] theorem State.finish_free (s : State) : (s.finish).free = s.free := rfl
@[simp] theorem State.finish_nextNo (s : State) : (s.finish).nextNo = s.nextNo := rfl
@[simp] theorem State.finish_cores (s : State) : (s.finish).cores = s.cores := rfl
@[simp] theorem State.finish_homes (s : State) : (s.finish).homes = s.homes := rfl
@[simp] theorem State.finish_mem (s : State) : (s.finish).mem = s.mem := rfl
@[simp] theorem State.finish_poison (s : State) : (s.finish).poison = s.poison := rfl
@[simp] theorem State.finish_grans (s : State) : (s.finish).grans = s.grans := rfl
@[simp] theorem State.finish_reqs (s : State) : (s.finish).reqs = s.reqs := rfl
@[simp] theorem State.finish_parts (s : State) : (s.finish).parts = s.parts := rfl
@[simp] theorem State.finish_watches (s : State) : (s.finish).watches = s.watches := rfl
@[simp] theorem State.finish_ops (s : State) : (s.finish).ops = s.ops := rfl
@[simp] theorem State.finish_tdes (s : State) : (s.finish).tdes = s.tdes := rfl
@[simp] theorem State.finish_scopes (s : State) : (s.finish).scopes = s.scopes := rfl
@[simp] theorem State.finish_counts (s : State) : (s.finish).counts = s.counts := rfl
@[simp] theorem State.finish_scopeReqs (s : State) : (s.finish).scopeReqs = s.scopeReqs := rfl
@[simp] theorem State.finish_scnewCount (s : State) : (s.finish).scnewCount = s.scnewCount := rfl
@[simp] theorem State.finish_prunes (s : State) : (s.finish).prunes = s.prunes := rfl
@[simp] theorem State.finish_dss (s : State) : (s.finish).dss = s.dss := rfl
@[simp] theorem State.finish_launches (s : State) : (s.finish).launches = s.launches := rfl
@[simp] theorem State.finish_nextLaunch (s : State) : (s.finish).nextLaunch = s.nextLaunch := rfl
@[simp] theorem State.finish_lastPart (s : State) : (s.finish).lastPart = s.lastPart := rfl
@[simp] theorem State.finish_moving (s : State) : (s.finish).moving = s.moving := rfl
@[simp] theorem State.finish_fab (s : State) : (s.finish).fab = s.fab := rfl
@[simp] theorem State.finish_vfs (s : State) : (s.finish).vfs = s.vfs := rfl
@[simp] theorem State.finish_smc (s : State) : (s.finish).smc = s.smc := rfl
@[simp] theorem State.finish_clockStopped (s : State) : (s.finish).clockStopped = s.clockStopped := rfl

/-! `State.onCtx` changes a context and no other field. -/

@[simp] theorem State.onCtx_modid (s : State) (core k : Nat) (f : Ctx → Ctx) : (s.onCtx core k f).modid = s.modid := rfl
@[simp] theorem State.onCtx_focus (s : State) (core k : Nat) (f : Ctx → Ctx) : (s.onCtx core k f).focus = s.focus := rfl
@[simp] theorem State.onCtx_agenda (s : State) (core k : Nat) (f : Ctx → Ctx) : (s.onCtx core k f).agenda = s.agenda := rfl
@[simp] theorem State.onCtx_occ (s : State) (core k : Nat) (f : Ctx → Ctx) : (s.onCtx core k f).occ = s.occ := rfl
@[simp] theorem State.onCtx_timers (s : State) (core k : Nat) (f : Ctx → Ctx) : (s.onCtx core k f).timers = s.timers := rfl
@[simp] theorem State.onCtx_free (s : State) (core k : Nat) (f : Ctx → Ctx) : (s.onCtx core k f).free = s.free := rfl
@[simp] theorem State.onCtx_nextNo (s : State) (core k : Nat) (f : Ctx → Ctx) : (s.onCtx core k f).nextNo = s.nextNo := rfl
@[simp] theorem State.onCtx_cores (s : State) (core k : Nat) (f : Ctx → Ctx) : (s.onCtx core k f).cores = s.cores := rfl
@[simp] theorem State.onCtx_homes (s : State) (core k : Nat) (f : Ctx → Ctx) : (s.onCtx core k f).homes = s.homes := rfl
@[simp] theorem State.onCtx_mem (s : State) (core k : Nat) (f : Ctx → Ctx) : (s.onCtx core k f).mem = s.mem := rfl
@[simp] theorem State.onCtx_poison (s : State) (core k : Nat) (f : Ctx → Ctx) : (s.onCtx core k f).poison = s.poison := rfl
@[simp] theorem State.onCtx_grans (s : State) (core k : Nat) (f : Ctx → Ctx) : (s.onCtx core k f).grans = s.grans := rfl
@[simp] theorem State.onCtx_reqs (s : State) (core k : Nat) (f : Ctx → Ctx) : (s.onCtx core k f).reqs = s.reqs := rfl
@[simp] theorem State.onCtx_parts (s : State) (core k : Nat) (f : Ctx → Ctx) : (s.onCtx core k f).parts = s.parts := rfl
@[simp] theorem State.onCtx_watches (s : State) (core k : Nat) (f : Ctx → Ctx) : (s.onCtx core k f).watches = s.watches := rfl
@[simp] theorem State.onCtx_ops (s : State) (core k : Nat) (f : Ctx → Ctx) : (s.onCtx core k f).ops = s.ops := rfl
@[simp] theorem State.onCtx_tdes (s : State) (core k : Nat) (f : Ctx → Ctx) : (s.onCtx core k f).tdes = s.tdes := rfl
@[simp] theorem State.onCtx_scopes (s : State) (core k : Nat) (f : Ctx → Ctx) : (s.onCtx core k f).scopes = s.scopes := rfl
@[simp] theorem State.onCtx_counts (s : State) (core k : Nat) (f : Ctx → Ctx) : (s.onCtx core k f).counts = s.counts := rfl
@[simp] theorem State.onCtx_scopeReqs (s : State) (core k : Nat) (f : Ctx → Ctx) : (s.onCtx core k f).scopeReqs = s.scopeReqs := rfl
@[simp] theorem State.onCtx_scnewCount (s : State) (core k : Nat) (f : Ctx → Ctx) : (s.onCtx core k f).scnewCount = s.scnewCount := rfl
@[simp] theorem State.onCtx_prunes (s : State) (core k : Nat) (f : Ctx → Ctx) : (s.onCtx core k f).prunes = s.prunes := rfl
@[simp] theorem State.onCtx_dss (s : State) (core k : Nat) (f : Ctx → Ctx) : (s.onCtx core k f).dss = s.dss := rfl
@[simp] theorem State.onCtx_launches (s : State) (core k : Nat) (f : Ctx → Ctx) : (s.onCtx core k f).launches = s.launches := rfl
@[simp] theorem State.onCtx_nextLaunch (s : State) (core k : Nat) (f : Ctx → Ctx) : (s.onCtx core k f).nextLaunch = s.nextLaunch := rfl
@[simp] theorem State.onCtx_lastPart (s : State) (core k : Nat) (f : Ctx → Ctx) : (s.onCtx core k f).lastPart = s.lastPart := rfl
@[simp] theorem State.onCtx_moving (s : State) (core k : Nat) (f : Ctx → Ctx) : (s.onCtx core k f).moving = s.moving := rfl
@[simp] theorem State.onCtx_fab (s : State) (core k : Nat) (f : Ctx → Ctx) : (s.onCtx core k f).fab = s.fab := rfl
@[simp] theorem State.onCtx_vfs (s : State) (core k : Nat) (f : Ctx → Ctx) : (s.onCtx core k f).vfs = s.vfs := rfl
@[simp] theorem State.onCtx_smc (s : State) (core k : Nat) (f : Ctx → Ctx) : (s.onCtx core k f).smc = s.smc := rfl
@[simp] theorem State.onCtx_clockStopped (s : State) (core k : Nat) (f : Ctx → Ctx) : (s.onCtx core k f).clockStopped = s.clockStopped := rfl

/-! `State.setCore` changes a core and no other field. -/

@[simp] theorem State.setCore_modid (s : State) (n : Nat) (c : Core) : (s.setCore n c).modid = s.modid := rfl
@[simp] theorem State.setCore_focus (s : State) (n : Nat) (c : Core) : (s.setCore n c).focus = s.focus := rfl
@[simp] theorem State.setCore_agenda (s : State) (n : Nat) (c : Core) : (s.setCore n c).agenda = s.agenda := rfl
@[simp] theorem State.setCore_occ (s : State) (n : Nat) (c : Core) : (s.setCore n c).occ = s.occ := rfl
@[simp] theorem State.setCore_timers (s : State) (n : Nat) (c : Core) : (s.setCore n c).timers = s.timers := rfl
@[simp] theorem State.setCore_free (s : State) (n : Nat) (c : Core) : (s.setCore n c).free = s.free := rfl
@[simp] theorem State.setCore_nextNo (s : State) (n : Nat) (c : Core) : (s.setCore n c).nextNo = s.nextNo := rfl
@[simp] theorem State.setCore_ctxs (s : State) (n : Nat) (c : Core) : (s.setCore n c).ctxs = s.ctxs := rfl
@[simp] theorem State.setCore_homes (s : State) (n : Nat) (c : Core) : (s.setCore n c).homes = s.homes := rfl
@[simp] theorem State.setCore_mem (s : State) (n : Nat) (c : Core) : (s.setCore n c).mem = s.mem := rfl
@[simp] theorem State.setCore_poison (s : State) (n : Nat) (c : Core) : (s.setCore n c).poison = s.poison := rfl
@[simp] theorem State.setCore_grans (s : State) (n : Nat) (c : Core) : (s.setCore n c).grans = s.grans := rfl
@[simp] theorem State.setCore_reqs (s : State) (n : Nat) (c : Core) : (s.setCore n c).reqs = s.reqs := rfl
@[simp] theorem State.setCore_parts (s : State) (n : Nat) (c : Core) : (s.setCore n c).parts = s.parts := rfl
@[simp] theorem State.setCore_watches (s : State) (n : Nat) (c : Core) : (s.setCore n c).watches = s.watches := rfl
@[simp] theorem State.setCore_ops (s : State) (n : Nat) (c : Core) : (s.setCore n c).ops = s.ops := rfl
@[simp] theorem State.setCore_tdes (s : State) (n : Nat) (c : Core) : (s.setCore n c).tdes = s.tdes := rfl
@[simp] theorem State.setCore_scopes (s : State) (n : Nat) (c : Core) : (s.setCore n c).scopes = s.scopes := rfl
@[simp] theorem State.setCore_counts (s : State) (n : Nat) (c : Core) : (s.setCore n c).counts = s.counts := rfl
@[simp] theorem State.setCore_scopeReqs (s : State) (n : Nat) (c : Core) : (s.setCore n c).scopeReqs = s.scopeReqs := rfl
@[simp] theorem State.setCore_scnewCount (s : State) (n : Nat) (c : Core) : (s.setCore n c).scnewCount = s.scnewCount := rfl
@[simp] theorem State.setCore_prunes (s : State) (n : Nat) (c : Core) : (s.setCore n c).prunes = s.prunes := rfl
@[simp] theorem State.setCore_dss (s : State) (n : Nat) (c : Core) : (s.setCore n c).dss = s.dss := rfl
@[simp] theorem State.setCore_launches (s : State) (n : Nat) (c : Core) : (s.setCore n c).launches = s.launches := rfl
@[simp] theorem State.setCore_nextLaunch (s : State) (n : Nat) (c : Core) : (s.setCore n c).nextLaunch = s.nextLaunch := rfl
@[simp] theorem State.setCore_lastPart (s : State) (n : Nat) (c : Core) : (s.setCore n c).lastPart = s.lastPart := rfl
@[simp] theorem State.setCore_moving (s : State) (n : Nat) (c : Core) : (s.setCore n c).moving = s.moving := rfl
@[simp] theorem State.setCore_fab (s : State) (n : Nat) (c : Core) : (s.setCore n c).fab = s.fab := rfl
@[simp] theorem State.setCore_vfs (s : State) (n : Nat) (c : Core) : (s.setCore n c).vfs = s.vfs := rfl
@[simp] theorem State.setCore_smc (s : State) (n : Nat) (c : Core) : (s.setCore n c).smc = s.smc := rfl
@[simp] theorem State.setCore_clockStopped (s : State) (n : Nat) (c : Core) : (s.setCore n c).clockStopped = s.clockStopped := rfl

/-! `State.onCore` changes a core and no other field. -/

@[simp] theorem State.onCore_modid (s : State) (n : Nat) (f : Core → Core) : (s.onCore n f).modid = s.modid := rfl
@[simp] theorem State.onCore_focus (s : State) (n : Nat) (f : Core → Core) : (s.onCore n f).focus = s.focus := rfl
@[simp] theorem State.onCore_agenda (s : State) (n : Nat) (f : Core → Core) : (s.onCore n f).agenda = s.agenda := rfl
@[simp] theorem State.onCore_occ (s : State) (n : Nat) (f : Core → Core) : (s.onCore n f).occ = s.occ := rfl
@[simp] theorem State.onCore_timers (s : State) (n : Nat) (f : Core → Core) : (s.onCore n f).timers = s.timers := rfl
@[simp] theorem State.onCore_free (s : State) (n : Nat) (f : Core → Core) : (s.onCore n f).free = s.free := rfl
@[simp] theorem State.onCore_nextNo (s : State) (n : Nat) (f : Core → Core) : (s.onCore n f).nextNo = s.nextNo := rfl
@[simp] theorem State.onCore_ctxs (s : State) (n : Nat) (f : Core → Core) : (s.onCore n f).ctxs = s.ctxs := rfl
@[simp] theorem State.onCore_homes (s : State) (n : Nat) (f : Core → Core) : (s.onCore n f).homes = s.homes := rfl
@[simp] theorem State.onCore_mem (s : State) (n : Nat) (f : Core → Core) : (s.onCore n f).mem = s.mem := rfl
@[simp] theorem State.onCore_poison (s : State) (n : Nat) (f : Core → Core) : (s.onCore n f).poison = s.poison := rfl
@[simp] theorem State.onCore_grans (s : State) (n : Nat) (f : Core → Core) : (s.onCore n f).grans = s.grans := rfl
@[simp] theorem State.onCore_reqs (s : State) (n : Nat) (f : Core → Core) : (s.onCore n f).reqs = s.reqs := rfl
@[simp] theorem State.onCore_parts (s : State) (n : Nat) (f : Core → Core) : (s.onCore n f).parts = s.parts := rfl
@[simp] theorem State.onCore_watches (s : State) (n : Nat) (f : Core → Core) : (s.onCore n f).watches = s.watches := rfl
@[simp] theorem State.onCore_ops (s : State) (n : Nat) (f : Core → Core) : (s.onCore n f).ops = s.ops := rfl
@[simp] theorem State.onCore_tdes (s : State) (n : Nat) (f : Core → Core) : (s.onCore n f).tdes = s.tdes := rfl
@[simp] theorem State.onCore_scopes (s : State) (n : Nat) (f : Core → Core) : (s.onCore n f).scopes = s.scopes := rfl
@[simp] theorem State.onCore_counts (s : State) (n : Nat) (f : Core → Core) : (s.onCore n f).counts = s.counts := rfl
@[simp] theorem State.onCore_scopeReqs (s : State) (n : Nat) (f : Core → Core) : (s.onCore n f).scopeReqs = s.scopeReqs := rfl
@[simp] theorem State.onCore_scnewCount (s : State) (n : Nat) (f : Core → Core) : (s.onCore n f).scnewCount = s.scnewCount := rfl
@[simp] theorem State.onCore_prunes (s : State) (n : Nat) (f : Core → Core) : (s.onCore n f).prunes = s.prunes := rfl
@[simp] theorem State.onCore_dss (s : State) (n : Nat) (f : Core → Core) : (s.onCore n f).dss = s.dss := rfl
@[simp] theorem State.onCore_launches (s : State) (n : Nat) (f : Core → Core) : (s.onCore n f).launches = s.launches := rfl
@[simp] theorem State.onCore_nextLaunch (s : State) (n : Nat) (f : Core → Core) : (s.onCore n f).nextLaunch = s.nextLaunch := rfl
@[simp] theorem State.onCore_lastPart (s : State) (n : Nat) (f : Core → Core) : (s.onCore n f).lastPart = s.lastPart := rfl
@[simp] theorem State.onCore_moving (s : State) (n : Nat) (f : Core → Core) : (s.onCore n f).moving = s.moving := rfl
@[simp] theorem State.onCore_fab (s : State) (n : Nat) (f : Core → Core) : (s.onCore n f).fab = s.fab := rfl
@[simp] theorem State.onCore_vfs (s : State) (n : Nat) (f : Core → Core) : (s.onCore n f).vfs = s.vfs := rfl
@[simp] theorem State.onCore_smc (s : State) (n : Nat) (f : Core → Core) : (s.onCore n f).smc = s.smc := rfl
@[simp] theorem State.onCore_clockStopped (s : State) (n : Nat) (f : Core → Core) : (s.onCore n f).clockStopped = s.clockStopped := rfl

/-! `State.setHome` changes a home and no other field. -/

@[simp] theorem State.setHome_modid (s : State) (n : Nat) (h : Home) : (s.setHome n h).modid = s.modid := rfl
@[simp] theorem State.setHome_focus (s : State) (n : Nat) (h : Home) : (s.setHome n h).focus = s.focus := rfl
@[simp] theorem State.setHome_agenda (s : State) (n : Nat) (h : Home) : (s.setHome n h).agenda = s.agenda := rfl
@[simp] theorem State.setHome_occ (s : State) (n : Nat) (h : Home) : (s.setHome n h).occ = s.occ := rfl
@[simp] theorem State.setHome_timers (s : State) (n : Nat) (h : Home) : (s.setHome n h).timers = s.timers := rfl
@[simp] theorem State.setHome_free (s : State) (n : Nat) (h : Home) : (s.setHome n h).free = s.free := rfl
@[simp] theorem State.setHome_nextNo (s : State) (n : Nat) (h : Home) : (s.setHome n h).nextNo = s.nextNo := rfl
@[simp] theorem State.setHome_ctxs (s : State) (n : Nat) (h : Home) : (s.setHome n h).ctxs = s.ctxs := rfl
@[simp] theorem State.setHome_cores (s : State) (n : Nat) (h : Home) : (s.setHome n h).cores = s.cores := rfl
@[simp] theorem State.setHome_mem (s : State) (n : Nat) (h : Home) : (s.setHome n h).mem = s.mem := rfl
@[simp] theorem State.setHome_poison (s : State) (n : Nat) (h : Home) : (s.setHome n h).poison = s.poison := rfl
@[simp] theorem State.setHome_grans (s : State) (n : Nat) (h : Home) : (s.setHome n h).grans = s.grans := rfl
@[simp] theorem State.setHome_reqs (s : State) (n : Nat) (h : Home) : (s.setHome n h).reqs = s.reqs := rfl
@[simp] theorem State.setHome_parts (s : State) (n : Nat) (h : Home) : (s.setHome n h).parts = s.parts := rfl
@[simp] theorem State.setHome_watches (s : State) (n : Nat) (h : Home) : (s.setHome n h).watches = s.watches := rfl
@[simp] theorem State.setHome_ops (s : State) (n : Nat) (h : Home) : (s.setHome n h).ops = s.ops := rfl
@[simp] theorem State.setHome_tdes (s : State) (n : Nat) (h : Home) : (s.setHome n h).tdes = s.tdes := rfl
@[simp] theorem State.setHome_scopes (s : State) (n : Nat) (h : Home) : (s.setHome n h).scopes = s.scopes := rfl
@[simp] theorem State.setHome_counts (s : State) (n : Nat) (h : Home) : (s.setHome n h).counts = s.counts := rfl
@[simp] theorem State.setHome_scopeReqs (s : State) (n : Nat) (h : Home) : (s.setHome n h).scopeReqs = s.scopeReqs := rfl
@[simp] theorem State.setHome_scnewCount (s : State) (n : Nat) (h : Home) : (s.setHome n h).scnewCount = s.scnewCount := rfl
@[simp] theorem State.setHome_prunes (s : State) (n : Nat) (h : Home) : (s.setHome n h).prunes = s.prunes := rfl
@[simp] theorem State.setHome_dss (s : State) (n : Nat) (h : Home) : (s.setHome n h).dss = s.dss := rfl
@[simp] theorem State.setHome_launches (s : State) (n : Nat) (h : Home) : (s.setHome n h).launches = s.launches := rfl
@[simp] theorem State.setHome_nextLaunch (s : State) (n : Nat) (h : Home) : (s.setHome n h).nextLaunch = s.nextLaunch := rfl
@[simp] theorem State.setHome_lastPart (s : State) (n : Nat) (h : Home) : (s.setHome n h).lastPart = s.lastPart := rfl
@[simp] theorem State.setHome_moving (s : State) (n : Nat) (h : Home) : (s.setHome n h).moving = s.moving := rfl
@[simp] theorem State.setHome_fab (s : State) (n : Nat) (h : Home) : (s.setHome n h).fab = s.fab := rfl
@[simp] theorem State.setHome_vfs (s : State) (n : Nat) (h : Home) : (s.setHome n h).vfs = s.vfs := rfl
@[simp] theorem State.setHome_smc (s : State) (n : Nat) (h : Home) : (s.setHome n h).smc = s.smc := rfl
@[simp] theorem State.setHome_clockStopped (s : State) (n : Nat) (h : Home) : (s.setHome n h).clockStopped = s.clockStopped := rfl

/-! `State.onHome` changes a home and no other field. -/

@[simp] theorem State.onHome_modid (s : State) (n : Nat) (f : Home → Home) : (s.onHome n f).modid = s.modid := rfl
@[simp] theorem State.onHome_focus (s : State) (n : Nat) (f : Home → Home) : (s.onHome n f).focus = s.focus := rfl
@[simp] theorem State.onHome_agenda (s : State) (n : Nat) (f : Home → Home) : (s.onHome n f).agenda = s.agenda := rfl
@[simp] theorem State.onHome_occ (s : State) (n : Nat) (f : Home → Home) : (s.onHome n f).occ = s.occ := rfl
@[simp] theorem State.onHome_timers (s : State) (n : Nat) (f : Home → Home) : (s.onHome n f).timers = s.timers := rfl
@[simp] theorem State.onHome_free (s : State) (n : Nat) (f : Home → Home) : (s.onHome n f).free = s.free := rfl
@[simp] theorem State.onHome_nextNo (s : State) (n : Nat) (f : Home → Home) : (s.onHome n f).nextNo = s.nextNo := rfl
@[simp] theorem State.onHome_ctxs (s : State) (n : Nat) (f : Home → Home) : (s.onHome n f).ctxs = s.ctxs := rfl
@[simp] theorem State.onHome_cores (s : State) (n : Nat) (f : Home → Home) : (s.onHome n f).cores = s.cores := rfl
@[simp] theorem State.onHome_mem (s : State) (n : Nat) (f : Home → Home) : (s.onHome n f).mem = s.mem := rfl
@[simp] theorem State.onHome_poison (s : State) (n : Nat) (f : Home → Home) : (s.onHome n f).poison = s.poison := rfl
@[simp] theorem State.onHome_grans (s : State) (n : Nat) (f : Home → Home) : (s.onHome n f).grans = s.grans := rfl
@[simp] theorem State.onHome_reqs (s : State) (n : Nat) (f : Home → Home) : (s.onHome n f).reqs = s.reqs := rfl
@[simp] theorem State.onHome_parts (s : State) (n : Nat) (f : Home → Home) : (s.onHome n f).parts = s.parts := rfl
@[simp] theorem State.onHome_watches (s : State) (n : Nat) (f : Home → Home) : (s.onHome n f).watches = s.watches := rfl
@[simp] theorem State.onHome_ops (s : State) (n : Nat) (f : Home → Home) : (s.onHome n f).ops = s.ops := rfl
@[simp] theorem State.onHome_tdes (s : State) (n : Nat) (f : Home → Home) : (s.onHome n f).tdes = s.tdes := rfl
@[simp] theorem State.onHome_scopes (s : State) (n : Nat) (f : Home → Home) : (s.onHome n f).scopes = s.scopes := rfl
@[simp] theorem State.onHome_counts (s : State) (n : Nat) (f : Home → Home) : (s.onHome n f).counts = s.counts := rfl
@[simp] theorem State.onHome_scopeReqs (s : State) (n : Nat) (f : Home → Home) : (s.onHome n f).scopeReqs = s.scopeReqs := rfl
@[simp] theorem State.onHome_scnewCount (s : State) (n : Nat) (f : Home → Home) : (s.onHome n f).scnewCount = s.scnewCount := rfl
@[simp] theorem State.onHome_prunes (s : State) (n : Nat) (f : Home → Home) : (s.onHome n f).prunes = s.prunes := rfl
@[simp] theorem State.onHome_dss (s : State) (n : Nat) (f : Home → Home) : (s.onHome n f).dss = s.dss := rfl
@[simp] theorem State.onHome_launches (s : State) (n : Nat) (f : Home → Home) : (s.onHome n f).launches = s.launches := rfl
@[simp] theorem State.onHome_nextLaunch (s : State) (n : Nat) (f : Home → Home) : (s.onHome n f).nextLaunch = s.nextLaunch := rfl
@[simp] theorem State.onHome_lastPart (s : State) (n : Nat) (f : Home → Home) : (s.onHome n f).lastPart = s.lastPart := rfl
@[simp] theorem State.onHome_moving (s : State) (n : Nat) (f : Home → Home) : (s.onHome n f).moving = s.moving := rfl
@[simp] theorem State.onHome_fab (s : State) (n : Nat) (f : Home → Home) : (s.onHome n f).fab = s.fab := rfl
@[simp] theorem State.onHome_vfs (s : State) (n : Nat) (f : Home → Home) : (s.onHome n f).vfs = s.vfs := rfl
@[simp] theorem State.onHome_smc (s : State) (n : Nat) (f : Home → Home) : (s.onHome n f).smc = s.smc := rfl
@[simp] theorem State.onHome_clockStopped (s : State) (n : Nat) (f : Home → Home) : (s.onHome n f).clockStopped = s.clockStopped := rfl

/-! `State.setPart` changes a partition and no other field. -/

@[simp] theorem State.setPart_modid (s : State) (n : Nat) (p : Partition) : (s.setPart n p).modid = s.modid := rfl
@[simp] theorem State.setPart_focus (s : State) (n : Nat) (p : Partition) : (s.setPart n p).focus = s.focus := rfl
@[simp] theorem State.setPart_agenda (s : State) (n : Nat) (p : Partition) : (s.setPart n p).agenda = s.agenda := rfl
@[simp] theorem State.setPart_occ (s : State) (n : Nat) (p : Partition) : (s.setPart n p).occ = s.occ := rfl
@[simp] theorem State.setPart_timers (s : State) (n : Nat) (p : Partition) : (s.setPart n p).timers = s.timers := rfl
@[simp] theorem State.setPart_free (s : State) (n : Nat) (p : Partition) : (s.setPart n p).free = s.free := rfl
@[simp] theorem State.setPart_nextNo (s : State) (n : Nat) (p : Partition) : (s.setPart n p).nextNo = s.nextNo := rfl
@[simp] theorem State.setPart_ctxs (s : State) (n : Nat) (p : Partition) : (s.setPart n p).ctxs = s.ctxs := rfl
@[simp] theorem State.setPart_cores (s : State) (n : Nat) (p : Partition) : (s.setPart n p).cores = s.cores := rfl
@[simp] theorem State.setPart_homes (s : State) (n : Nat) (p : Partition) : (s.setPart n p).homes = s.homes := rfl
@[simp] theorem State.setPart_mem (s : State) (n : Nat) (p : Partition) : (s.setPart n p).mem = s.mem := rfl
@[simp] theorem State.setPart_poison (s : State) (n : Nat) (p : Partition) : (s.setPart n p).poison = s.poison := rfl
@[simp] theorem State.setPart_grans (s : State) (n : Nat) (p : Partition) : (s.setPart n p).grans = s.grans := rfl
@[simp] theorem State.setPart_reqs (s : State) (n : Nat) (p : Partition) : (s.setPart n p).reqs = s.reqs := rfl
@[simp] theorem State.setPart_watches (s : State) (n : Nat) (p : Partition) : (s.setPart n p).watches = s.watches := rfl
@[simp] theorem State.setPart_ops (s : State) (n : Nat) (p : Partition) : (s.setPart n p).ops = s.ops := rfl
@[simp] theorem State.setPart_tdes (s : State) (n : Nat) (p : Partition) : (s.setPart n p).tdes = s.tdes := rfl
@[simp] theorem State.setPart_scopes (s : State) (n : Nat) (p : Partition) : (s.setPart n p).scopes = s.scopes := rfl
@[simp] theorem State.setPart_counts (s : State) (n : Nat) (p : Partition) : (s.setPart n p).counts = s.counts := rfl
@[simp] theorem State.setPart_scopeReqs (s : State) (n : Nat) (p : Partition) : (s.setPart n p).scopeReqs = s.scopeReqs := rfl
@[simp] theorem State.setPart_scnewCount (s : State) (n : Nat) (p : Partition) : (s.setPart n p).scnewCount = s.scnewCount := rfl
@[simp] theorem State.setPart_prunes (s : State) (n : Nat) (p : Partition) : (s.setPart n p).prunes = s.prunes := rfl
@[simp] theorem State.setPart_dss (s : State) (n : Nat) (p : Partition) : (s.setPart n p).dss = s.dss := rfl
@[simp] theorem State.setPart_launches (s : State) (n : Nat) (p : Partition) : (s.setPart n p).launches = s.launches := rfl
@[simp] theorem State.setPart_nextLaunch (s : State) (n : Nat) (p : Partition) : (s.setPart n p).nextLaunch = s.nextLaunch := rfl
@[simp] theorem State.setPart_lastPart (s : State) (n : Nat) (p : Partition) : (s.setPart n p).lastPart = s.lastPart := rfl
@[simp] theorem State.setPart_moving (s : State) (n : Nat) (p : Partition) : (s.setPart n p).moving = s.moving := rfl
@[simp] theorem State.setPart_fab (s : State) (n : Nat) (p : Partition) : (s.setPart n p).fab = s.fab := rfl
@[simp] theorem State.setPart_vfs (s : State) (n : Nat) (p : Partition) : (s.setPart n p).vfs = s.vfs := rfl
@[simp] theorem State.setPart_smc (s : State) (n : Nat) (p : Partition) : (s.setPart n p).smc = s.smc := rfl
@[simp] theorem State.setPart_clockStopped (s : State) (n : Nat) (p : Partition) : (s.setPart n p).clockStopped = s.clockStopped := rfl

/-! `State.setScope` changes a scope and no other field. -/

@[simp] theorem State.setScope_modid (s : State) (part : Nat) (id : BitVec 16) (e : ScopeEnt) : (s.setScope part id e).modid = s.modid := rfl
@[simp] theorem State.setScope_focus (s : State) (part : Nat) (id : BitVec 16) (e : ScopeEnt) : (s.setScope part id e).focus = s.focus := rfl
@[simp] theorem State.setScope_agenda (s : State) (part : Nat) (id : BitVec 16) (e : ScopeEnt) : (s.setScope part id e).agenda = s.agenda := rfl
@[simp] theorem State.setScope_occ (s : State) (part : Nat) (id : BitVec 16) (e : ScopeEnt) : (s.setScope part id e).occ = s.occ := rfl
@[simp] theorem State.setScope_timers (s : State) (part : Nat) (id : BitVec 16) (e : ScopeEnt) : (s.setScope part id e).timers = s.timers := rfl
@[simp] theorem State.setScope_free (s : State) (part : Nat) (id : BitVec 16) (e : ScopeEnt) : (s.setScope part id e).free = s.free := rfl
@[simp] theorem State.setScope_nextNo (s : State) (part : Nat) (id : BitVec 16) (e : ScopeEnt) : (s.setScope part id e).nextNo = s.nextNo := rfl
@[simp] theorem State.setScope_ctxs (s : State) (part : Nat) (id : BitVec 16) (e : ScopeEnt) : (s.setScope part id e).ctxs = s.ctxs := rfl
@[simp] theorem State.setScope_cores (s : State) (part : Nat) (id : BitVec 16) (e : ScopeEnt) : (s.setScope part id e).cores = s.cores := rfl
@[simp] theorem State.setScope_homes (s : State) (part : Nat) (id : BitVec 16) (e : ScopeEnt) : (s.setScope part id e).homes = s.homes := rfl
@[simp] theorem State.setScope_mem (s : State) (part : Nat) (id : BitVec 16) (e : ScopeEnt) : (s.setScope part id e).mem = s.mem := rfl
@[simp] theorem State.setScope_poison (s : State) (part : Nat) (id : BitVec 16) (e : ScopeEnt) : (s.setScope part id e).poison = s.poison := rfl
@[simp] theorem State.setScope_grans (s : State) (part : Nat) (id : BitVec 16) (e : ScopeEnt) : (s.setScope part id e).grans = s.grans := rfl
@[simp] theorem State.setScope_reqs (s : State) (part : Nat) (id : BitVec 16) (e : ScopeEnt) : (s.setScope part id e).reqs = s.reqs := rfl
@[simp] theorem State.setScope_parts (s : State) (part : Nat) (id : BitVec 16) (e : ScopeEnt) : (s.setScope part id e).parts = s.parts := rfl
@[simp] theorem State.setScope_watches (s : State) (part : Nat) (id : BitVec 16) (e : ScopeEnt) : (s.setScope part id e).watches = s.watches := rfl
@[simp] theorem State.setScope_ops (s : State) (part : Nat) (id : BitVec 16) (e : ScopeEnt) : (s.setScope part id e).ops = s.ops := rfl
@[simp] theorem State.setScope_tdes (s : State) (part : Nat) (id : BitVec 16) (e : ScopeEnt) : (s.setScope part id e).tdes = s.tdes := rfl
@[simp] theorem State.setScope_counts (s : State) (part : Nat) (id : BitVec 16) (e : ScopeEnt) : (s.setScope part id e).counts = s.counts := rfl
@[simp] theorem State.setScope_scopeReqs (s : State) (part : Nat) (id : BitVec 16) (e : ScopeEnt) : (s.setScope part id e).scopeReqs = s.scopeReqs := rfl
@[simp] theorem State.setScope_scnewCount (s : State) (part : Nat) (id : BitVec 16) (e : ScopeEnt) : (s.setScope part id e).scnewCount = s.scnewCount := rfl
@[simp] theorem State.setScope_prunes (s : State) (part : Nat) (id : BitVec 16) (e : ScopeEnt) : (s.setScope part id e).prunes = s.prunes := rfl
@[simp] theorem State.setScope_dss (s : State) (part : Nat) (id : BitVec 16) (e : ScopeEnt) : (s.setScope part id e).dss = s.dss := rfl
@[simp] theorem State.setScope_launches (s : State) (part : Nat) (id : BitVec 16) (e : ScopeEnt) : (s.setScope part id e).launches = s.launches := rfl
@[simp] theorem State.setScope_nextLaunch (s : State) (part : Nat) (id : BitVec 16) (e : ScopeEnt) : (s.setScope part id e).nextLaunch = s.nextLaunch := rfl
@[simp] theorem State.setScope_lastPart (s : State) (part : Nat) (id : BitVec 16) (e : ScopeEnt) : (s.setScope part id e).lastPart = s.lastPart := rfl
@[simp] theorem State.setScope_moving (s : State) (part : Nat) (id : BitVec 16) (e : ScopeEnt) : (s.setScope part id e).moving = s.moving := rfl
@[simp] theorem State.setScope_fab (s : State) (part : Nat) (id : BitVec 16) (e : ScopeEnt) : (s.setScope part id e).fab = s.fab := rfl
@[simp] theorem State.setScope_vfs (s : State) (part : Nat) (id : BitVec 16) (e : ScopeEnt) : (s.setScope part id e).vfs = s.vfs := rfl
@[simp] theorem State.setScope_smc (s : State) (part : Nat) (id : BitVec 16) (e : ScopeEnt) : (s.setScope part id e).smc = s.smc := rfl
@[simp] theorem State.setScope_clockStopped (s : State) (part : Nat) (id : BitVec 16) (e : ScopeEnt) : (s.setScope part id e).clockStopped = s.clockStopped := rfl

/-! `State.setOp` changes an operation and no other field. -/

@[simp] theorem State.setOp_modid (s : State) (n : Nat) (o : Op) : (s.setOp n o).modid = s.modid := rfl
@[simp] theorem State.setOp_focus (s : State) (n : Nat) (o : Op) : (s.setOp n o).focus = s.focus := rfl
@[simp] theorem State.setOp_agenda (s : State) (n : Nat) (o : Op) : (s.setOp n o).agenda = s.agenda := rfl
@[simp] theorem State.setOp_occ (s : State) (n : Nat) (o : Op) : (s.setOp n o).occ = s.occ := rfl
@[simp] theorem State.setOp_timers (s : State) (n : Nat) (o : Op) : (s.setOp n o).timers = s.timers := rfl
@[simp] theorem State.setOp_free (s : State) (n : Nat) (o : Op) : (s.setOp n o).free = s.free := rfl
@[simp] theorem State.setOp_nextNo (s : State) (n : Nat) (o : Op) : (s.setOp n o).nextNo = s.nextNo := rfl
@[simp] theorem State.setOp_ctxs (s : State) (n : Nat) (o : Op) : (s.setOp n o).ctxs = s.ctxs := rfl
@[simp] theorem State.setOp_cores (s : State) (n : Nat) (o : Op) : (s.setOp n o).cores = s.cores := rfl
@[simp] theorem State.setOp_homes (s : State) (n : Nat) (o : Op) : (s.setOp n o).homes = s.homes := rfl
@[simp] theorem State.setOp_mem (s : State) (n : Nat) (o : Op) : (s.setOp n o).mem = s.mem := rfl
@[simp] theorem State.setOp_poison (s : State) (n : Nat) (o : Op) : (s.setOp n o).poison = s.poison := rfl
@[simp] theorem State.setOp_grans (s : State) (n : Nat) (o : Op) : (s.setOp n o).grans = s.grans := rfl
@[simp] theorem State.setOp_reqs (s : State) (n : Nat) (o : Op) : (s.setOp n o).reqs = s.reqs := rfl
@[simp] theorem State.setOp_parts (s : State) (n : Nat) (o : Op) : (s.setOp n o).parts = s.parts := rfl
@[simp] theorem State.setOp_watches (s : State) (n : Nat) (o : Op) : (s.setOp n o).watches = s.watches := rfl
@[simp] theorem State.setOp_tdes (s : State) (n : Nat) (o : Op) : (s.setOp n o).tdes = s.tdes := rfl
@[simp] theorem State.setOp_scopes (s : State) (n : Nat) (o : Op) : (s.setOp n o).scopes = s.scopes := rfl
@[simp] theorem State.setOp_counts (s : State) (n : Nat) (o : Op) : (s.setOp n o).counts = s.counts := rfl
@[simp] theorem State.setOp_scopeReqs (s : State) (n : Nat) (o : Op) : (s.setOp n o).scopeReqs = s.scopeReqs := rfl
@[simp] theorem State.setOp_scnewCount (s : State) (n : Nat) (o : Op) : (s.setOp n o).scnewCount = s.scnewCount := rfl
@[simp] theorem State.setOp_prunes (s : State) (n : Nat) (o : Op) : (s.setOp n o).prunes = s.prunes := rfl
@[simp] theorem State.setOp_dss (s : State) (n : Nat) (o : Op) : (s.setOp n o).dss = s.dss := rfl
@[simp] theorem State.setOp_launches (s : State) (n : Nat) (o : Op) : (s.setOp n o).launches = s.launches := rfl
@[simp] theorem State.setOp_nextLaunch (s : State) (n : Nat) (o : Op) : (s.setOp n o).nextLaunch = s.nextLaunch := rfl
@[simp] theorem State.setOp_lastPart (s : State) (n : Nat) (o : Op) : (s.setOp n o).lastPart = s.lastPart := rfl
@[simp] theorem State.setOp_moving (s : State) (n : Nat) (o : Op) : (s.setOp n o).moving = s.moving := rfl
@[simp] theorem State.setOp_fab (s : State) (n : Nat) (o : Op) : (s.setOp n o).fab = s.fab := rfl
@[simp] theorem State.setOp_vfs (s : State) (n : Nat) (o : Op) : (s.setOp n o).vfs = s.vfs := rfl
@[simp] theorem State.setOp_smc (s : State) (n : Nat) (o : Op) : (s.setOp n o).smc = s.smc := rfl
@[simp] theorem State.setOp_clockStopped (s : State) (n : Nat) (o : Op) : (s.setOp n o).clockStopped = s.clockStopped := rfl

/-! `State.setReq` changes a request and no other field. -/

@[simp] theorem State.setReq_modid (s : State) (r : Req) : (s.setReq r).modid = s.modid := rfl
@[simp] theorem State.setReq_focus (s : State) (r : Req) : (s.setReq r).focus = s.focus := rfl
@[simp] theorem State.setReq_agenda (s : State) (r : Req) : (s.setReq r).agenda = s.agenda := rfl
@[simp] theorem State.setReq_occ (s : State) (r : Req) : (s.setReq r).occ = s.occ := rfl
@[simp] theorem State.setReq_timers (s : State) (r : Req) : (s.setReq r).timers = s.timers := rfl
@[simp] theorem State.setReq_free (s : State) (r : Req) : (s.setReq r).free = s.free := rfl
@[simp] theorem State.setReq_nextNo (s : State) (r : Req) : (s.setReq r).nextNo = s.nextNo := rfl
@[simp] theorem State.setReq_ctxs (s : State) (r : Req) : (s.setReq r).ctxs = s.ctxs := rfl
@[simp] theorem State.setReq_cores (s : State) (r : Req) : (s.setReq r).cores = s.cores := rfl
@[simp] theorem State.setReq_homes (s : State) (r : Req) : (s.setReq r).homes = s.homes := rfl
@[simp] theorem State.setReq_mem (s : State) (r : Req) : (s.setReq r).mem = s.mem := rfl
@[simp] theorem State.setReq_poison (s : State) (r : Req) : (s.setReq r).poison = s.poison := rfl
@[simp] theorem State.setReq_grans (s : State) (r : Req) : (s.setReq r).grans = s.grans := rfl
@[simp] theorem State.setReq_parts (s : State) (r : Req) : (s.setReq r).parts = s.parts := rfl
@[simp] theorem State.setReq_watches (s : State) (r : Req) : (s.setReq r).watches = s.watches := rfl
@[simp] theorem State.setReq_ops (s : State) (r : Req) : (s.setReq r).ops = s.ops := rfl
@[simp] theorem State.setReq_tdes (s : State) (r : Req) : (s.setReq r).tdes = s.tdes := rfl
@[simp] theorem State.setReq_scopes (s : State) (r : Req) : (s.setReq r).scopes = s.scopes := rfl
@[simp] theorem State.setReq_counts (s : State) (r : Req) : (s.setReq r).counts = s.counts := rfl
@[simp] theorem State.setReq_scopeReqs (s : State) (r : Req) : (s.setReq r).scopeReqs = s.scopeReqs := rfl
@[simp] theorem State.setReq_scnewCount (s : State) (r : Req) : (s.setReq r).scnewCount = s.scnewCount := rfl
@[simp] theorem State.setReq_prunes (s : State) (r : Req) : (s.setReq r).prunes = s.prunes := rfl
@[simp] theorem State.setReq_dss (s : State) (r : Req) : (s.setReq r).dss = s.dss := rfl
@[simp] theorem State.setReq_launches (s : State) (r : Req) : (s.setReq r).launches = s.launches := rfl
@[simp] theorem State.setReq_nextLaunch (s : State) (r : Req) : (s.setReq r).nextLaunch = s.nextLaunch := rfl
@[simp] theorem State.setReq_lastPart (s : State) (r : Req) : (s.setReq r).lastPart = s.lastPart := rfl
@[simp] theorem State.setReq_moving (s : State) (r : Req) : (s.setReq r).moving = s.moving := rfl
@[simp] theorem State.setReq_fab (s : State) (r : Req) : (s.setReq r).fab = s.fab := rfl
@[simp] theorem State.setReq_vfs (s : State) (r : Req) : (s.setReq r).vfs = s.vfs := rfl
@[simp] theorem State.setReq_smc (s : State) (r : Req) : (s.setReq r).smc = s.smc := rfl
@[simp] theorem State.setReq_clockStopped (s : State) (r : Req) : (s.setReq r).clockStopped = s.clockStopped := rfl

/-! `State.delReq` changes a request and no other field. -/

@[simp] theorem State.delReq_modid (s : State) (n : Nat) : (s.delReq n).modid = s.modid := rfl
@[simp] theorem State.delReq_focus (s : State) (n : Nat) : (s.delReq n).focus = s.focus := rfl
@[simp] theorem State.delReq_agenda (s : State) (n : Nat) : (s.delReq n).agenda = s.agenda := rfl
@[simp] theorem State.delReq_occ (s : State) (n : Nat) : (s.delReq n).occ = s.occ := rfl
@[simp] theorem State.delReq_timers (s : State) (n : Nat) : (s.delReq n).timers = s.timers := rfl
@[simp] theorem State.delReq_free (s : State) (n : Nat) : (s.delReq n).free = s.free := rfl
@[simp] theorem State.delReq_nextNo (s : State) (n : Nat) : (s.delReq n).nextNo = s.nextNo := rfl
@[simp] theorem State.delReq_ctxs (s : State) (n : Nat) : (s.delReq n).ctxs = s.ctxs := rfl
@[simp] theorem State.delReq_cores (s : State) (n : Nat) : (s.delReq n).cores = s.cores := rfl
@[simp] theorem State.delReq_homes (s : State) (n : Nat) : (s.delReq n).homes = s.homes := rfl
@[simp] theorem State.delReq_mem (s : State) (n : Nat) : (s.delReq n).mem = s.mem := rfl
@[simp] theorem State.delReq_poison (s : State) (n : Nat) : (s.delReq n).poison = s.poison := rfl
@[simp] theorem State.delReq_grans (s : State) (n : Nat) : (s.delReq n).grans = s.grans := rfl
@[simp] theorem State.delReq_parts (s : State) (n : Nat) : (s.delReq n).parts = s.parts := rfl
@[simp] theorem State.delReq_watches (s : State) (n : Nat) : (s.delReq n).watches = s.watches := rfl
@[simp] theorem State.delReq_ops (s : State) (n : Nat) : (s.delReq n).ops = s.ops := rfl
@[simp] theorem State.delReq_tdes (s : State) (n : Nat) : (s.delReq n).tdes = s.tdes := rfl
@[simp] theorem State.delReq_scopes (s : State) (n : Nat) : (s.delReq n).scopes = s.scopes := rfl
@[simp] theorem State.delReq_counts (s : State) (n : Nat) : (s.delReq n).counts = s.counts := rfl
@[simp] theorem State.delReq_scopeReqs (s : State) (n : Nat) : (s.delReq n).scopeReqs = s.scopeReqs := rfl
@[simp] theorem State.delReq_scnewCount (s : State) (n : Nat) : (s.delReq n).scnewCount = s.scnewCount := rfl
@[simp] theorem State.delReq_prunes (s : State) (n : Nat) : (s.delReq n).prunes = s.prunes := rfl
@[simp] theorem State.delReq_dss (s : State) (n : Nat) : (s.delReq n).dss = s.dss := rfl
@[simp] theorem State.delReq_launches (s : State) (n : Nat) : (s.delReq n).launches = s.launches := rfl
@[simp] theorem State.delReq_nextLaunch (s : State) (n : Nat) : (s.delReq n).nextLaunch = s.nextLaunch := rfl
@[simp] theorem State.delReq_lastPart (s : State) (n : Nat) : (s.delReq n).lastPart = s.lastPart := rfl
@[simp] theorem State.delReq_moving (s : State) (n : Nat) : (s.delReq n).moving = s.moving := rfl
@[simp] theorem State.delReq_fab (s : State) (n : Nat) : (s.delReq n).fab = s.fab := rfl
@[simp] theorem State.delReq_vfs (s : State) (n : Nat) : (s.delReq n).vfs = s.vfs := rfl
@[simp] theorem State.delReq_smc (s : State) (n : Nat) : (s.delReq n).smc = s.smc := rfl
@[simp] theorem State.delReq_clockStopped (s : State) (n : Nat) : (s.delReq n).clockStopped = s.clockStopped := rfl

/-! `State.setDs` changes a dense sequencer and no other field. -/

@[simp] theorem State.setDs_modid (s : State) (n : Nat) (d : Ds) : (s.setDs n d).modid = s.modid := rfl
@[simp] theorem State.setDs_focus (s : State) (n : Nat) (d : Ds) : (s.setDs n d).focus = s.focus := rfl
@[simp] theorem State.setDs_agenda (s : State) (n : Nat) (d : Ds) : (s.setDs n d).agenda = s.agenda := rfl
@[simp] theorem State.setDs_occ (s : State) (n : Nat) (d : Ds) : (s.setDs n d).occ = s.occ := rfl
@[simp] theorem State.setDs_timers (s : State) (n : Nat) (d : Ds) : (s.setDs n d).timers = s.timers := rfl
@[simp] theorem State.setDs_free (s : State) (n : Nat) (d : Ds) : (s.setDs n d).free = s.free := rfl
@[simp] theorem State.setDs_nextNo (s : State) (n : Nat) (d : Ds) : (s.setDs n d).nextNo = s.nextNo := rfl
@[simp] theorem State.setDs_ctxs (s : State) (n : Nat) (d : Ds) : (s.setDs n d).ctxs = s.ctxs := rfl
@[simp] theorem State.setDs_cores (s : State) (n : Nat) (d : Ds) : (s.setDs n d).cores = s.cores := rfl
@[simp] theorem State.setDs_homes (s : State) (n : Nat) (d : Ds) : (s.setDs n d).homes = s.homes := rfl
@[simp] theorem State.setDs_mem (s : State) (n : Nat) (d : Ds) : (s.setDs n d).mem = s.mem := rfl
@[simp] theorem State.setDs_poison (s : State) (n : Nat) (d : Ds) : (s.setDs n d).poison = s.poison := rfl
@[simp] theorem State.setDs_grans (s : State) (n : Nat) (d : Ds) : (s.setDs n d).grans = s.grans := rfl
@[simp] theorem State.setDs_reqs (s : State) (n : Nat) (d : Ds) : (s.setDs n d).reqs = s.reqs := rfl
@[simp] theorem State.setDs_parts (s : State) (n : Nat) (d : Ds) : (s.setDs n d).parts = s.parts := rfl
@[simp] theorem State.setDs_watches (s : State) (n : Nat) (d : Ds) : (s.setDs n d).watches = s.watches := rfl
@[simp] theorem State.setDs_ops (s : State) (n : Nat) (d : Ds) : (s.setDs n d).ops = s.ops := rfl
@[simp] theorem State.setDs_tdes (s : State) (n : Nat) (d : Ds) : (s.setDs n d).tdes = s.tdes := rfl
@[simp] theorem State.setDs_scopes (s : State) (n : Nat) (d : Ds) : (s.setDs n d).scopes = s.scopes := rfl
@[simp] theorem State.setDs_counts (s : State) (n : Nat) (d : Ds) : (s.setDs n d).counts = s.counts := rfl
@[simp] theorem State.setDs_scopeReqs (s : State) (n : Nat) (d : Ds) : (s.setDs n d).scopeReqs = s.scopeReqs := rfl
@[simp] theorem State.setDs_scnewCount (s : State) (n : Nat) (d : Ds) : (s.setDs n d).scnewCount = s.scnewCount := rfl
@[simp] theorem State.setDs_prunes (s : State) (n : Nat) (d : Ds) : (s.setDs n d).prunes = s.prunes := rfl
@[simp] theorem State.setDs_launches (s : State) (n : Nat) (d : Ds) : (s.setDs n d).launches = s.launches := rfl
@[simp] theorem State.setDs_nextLaunch (s : State) (n : Nat) (d : Ds) : (s.setDs n d).nextLaunch = s.nextLaunch := rfl
@[simp] theorem State.setDs_lastPart (s : State) (n : Nat) (d : Ds) : (s.setDs n d).lastPart = s.lastPart := rfl
@[simp] theorem State.setDs_moving (s : State) (n : Nat) (d : Ds) : (s.setDs n d).moving = s.moving := rfl
@[simp] theorem State.setDs_fab (s : State) (n : Nat) (d : Ds) : (s.setDs n d).fab = s.fab := rfl
@[simp] theorem State.setDs_vfs (s : State) (n : Nat) (d : Ds) : (s.setDs n d).vfs = s.vfs := rfl
@[simp] theorem State.setDs_smc (s : State) (n : Nat) (d : Ds) : (s.setDs n d).smc = s.smc := rfl
@[simp] theorem State.setDs_clockStopped (s : State) (n : Nat) (d : Ds) : (s.setDs n d).clockStopped = s.clockStopped := rfl

/-! `State.onDs` changes a dense sequencer and no other field. -/

@[simp] theorem State.onDs_modid (s : State) (n : Nat) (f : Ds → Ds) : (s.onDs n f).modid = s.modid := rfl
@[simp] theorem State.onDs_focus (s : State) (n : Nat) (f : Ds → Ds) : (s.onDs n f).focus = s.focus := rfl
@[simp] theorem State.onDs_agenda (s : State) (n : Nat) (f : Ds → Ds) : (s.onDs n f).agenda = s.agenda := rfl
@[simp] theorem State.onDs_occ (s : State) (n : Nat) (f : Ds → Ds) : (s.onDs n f).occ = s.occ := rfl
@[simp] theorem State.onDs_timers (s : State) (n : Nat) (f : Ds → Ds) : (s.onDs n f).timers = s.timers := rfl
@[simp] theorem State.onDs_free (s : State) (n : Nat) (f : Ds → Ds) : (s.onDs n f).free = s.free := rfl
@[simp] theorem State.onDs_nextNo (s : State) (n : Nat) (f : Ds → Ds) : (s.onDs n f).nextNo = s.nextNo := rfl
@[simp] theorem State.onDs_ctxs (s : State) (n : Nat) (f : Ds → Ds) : (s.onDs n f).ctxs = s.ctxs := rfl
@[simp] theorem State.onDs_cores (s : State) (n : Nat) (f : Ds → Ds) : (s.onDs n f).cores = s.cores := rfl
@[simp] theorem State.onDs_homes (s : State) (n : Nat) (f : Ds → Ds) : (s.onDs n f).homes = s.homes := rfl
@[simp] theorem State.onDs_mem (s : State) (n : Nat) (f : Ds → Ds) : (s.onDs n f).mem = s.mem := rfl
@[simp] theorem State.onDs_poison (s : State) (n : Nat) (f : Ds → Ds) : (s.onDs n f).poison = s.poison := rfl
@[simp] theorem State.onDs_grans (s : State) (n : Nat) (f : Ds → Ds) : (s.onDs n f).grans = s.grans := rfl
@[simp] theorem State.onDs_reqs (s : State) (n : Nat) (f : Ds → Ds) : (s.onDs n f).reqs = s.reqs := rfl
@[simp] theorem State.onDs_parts (s : State) (n : Nat) (f : Ds → Ds) : (s.onDs n f).parts = s.parts := rfl
@[simp] theorem State.onDs_watches (s : State) (n : Nat) (f : Ds → Ds) : (s.onDs n f).watches = s.watches := rfl
@[simp] theorem State.onDs_ops (s : State) (n : Nat) (f : Ds → Ds) : (s.onDs n f).ops = s.ops := rfl
@[simp] theorem State.onDs_tdes (s : State) (n : Nat) (f : Ds → Ds) : (s.onDs n f).tdes = s.tdes := rfl
@[simp] theorem State.onDs_scopes (s : State) (n : Nat) (f : Ds → Ds) : (s.onDs n f).scopes = s.scopes := rfl
@[simp] theorem State.onDs_counts (s : State) (n : Nat) (f : Ds → Ds) : (s.onDs n f).counts = s.counts := rfl
@[simp] theorem State.onDs_scopeReqs (s : State) (n : Nat) (f : Ds → Ds) : (s.onDs n f).scopeReqs = s.scopeReqs := rfl
@[simp] theorem State.onDs_scnewCount (s : State) (n : Nat) (f : Ds → Ds) : (s.onDs n f).scnewCount = s.scnewCount := rfl
@[simp] theorem State.onDs_prunes (s : State) (n : Nat) (f : Ds → Ds) : (s.onDs n f).prunes = s.prunes := rfl
@[simp] theorem State.onDs_launches (s : State) (n : Nat) (f : Ds → Ds) : (s.onDs n f).launches = s.launches := rfl
@[simp] theorem State.onDs_nextLaunch (s : State) (n : Nat) (f : Ds → Ds) : (s.onDs n f).nextLaunch = s.nextLaunch := rfl
@[simp] theorem State.onDs_lastPart (s : State) (n : Nat) (f : Ds → Ds) : (s.onDs n f).lastPart = s.lastPart := rfl
@[simp] theorem State.onDs_moving (s : State) (n : Nat) (f : Ds → Ds) : (s.onDs n f).moving = s.moving := rfl
@[simp] theorem State.onDs_fab (s : State) (n : Nat) (f : Ds → Ds) : (s.onDs n f).fab = s.fab := rfl
@[simp] theorem State.onDs_vfs (s : State) (n : Nat) (f : Ds → Ds) : (s.onDs n f).vfs = s.vfs := rfl
@[simp] theorem State.onDs_smc (s : State) (n : Nat) (f : Ds → Ds) : (s.onDs n f).smc = s.smc := rfl
@[simp] theorem State.onDs_clockStopped (s : State) (n : Nat) (f : Ds → Ds) : (s.onDs n f).clockStopped = s.clockStopped := rfl

/-! `State.setTde` changes a TDE and no other field. -/

@[simp] theorem State.setTde_modid (s : State) (u : Nat) (t : Tde) : (s.setTde u t).modid = s.modid := rfl
@[simp] theorem State.setTde_focus (s : State) (u : Nat) (t : Tde) : (s.setTde u t).focus = s.focus := rfl
@[simp] theorem State.setTde_agenda (s : State) (u : Nat) (t : Tde) : (s.setTde u t).agenda = s.agenda := rfl
@[simp] theorem State.setTde_occ (s : State) (u : Nat) (t : Tde) : (s.setTde u t).occ = s.occ := rfl
@[simp] theorem State.setTde_timers (s : State) (u : Nat) (t : Tde) : (s.setTde u t).timers = s.timers := rfl
@[simp] theorem State.setTde_free (s : State) (u : Nat) (t : Tde) : (s.setTde u t).free = s.free := rfl
@[simp] theorem State.setTde_nextNo (s : State) (u : Nat) (t : Tde) : (s.setTde u t).nextNo = s.nextNo := rfl
@[simp] theorem State.setTde_ctxs (s : State) (u : Nat) (t : Tde) : (s.setTde u t).ctxs = s.ctxs := rfl
@[simp] theorem State.setTde_cores (s : State) (u : Nat) (t : Tde) : (s.setTde u t).cores = s.cores := rfl
@[simp] theorem State.setTde_homes (s : State) (u : Nat) (t : Tde) : (s.setTde u t).homes = s.homes := rfl
@[simp] theorem State.setTde_mem (s : State) (u : Nat) (t : Tde) : (s.setTde u t).mem = s.mem := rfl
@[simp] theorem State.setTde_poison (s : State) (u : Nat) (t : Tde) : (s.setTde u t).poison = s.poison := rfl
@[simp] theorem State.setTde_grans (s : State) (u : Nat) (t : Tde) : (s.setTde u t).grans = s.grans := rfl
@[simp] theorem State.setTde_reqs (s : State) (u : Nat) (t : Tde) : (s.setTde u t).reqs = s.reqs := rfl
@[simp] theorem State.setTde_parts (s : State) (u : Nat) (t : Tde) : (s.setTde u t).parts = s.parts := rfl
@[simp] theorem State.setTde_watches (s : State) (u : Nat) (t : Tde) : (s.setTde u t).watches = s.watches := rfl
@[simp] theorem State.setTde_ops (s : State) (u : Nat) (t : Tde) : (s.setTde u t).ops = s.ops := rfl
@[simp] theorem State.setTde_scopes (s : State) (u : Nat) (t : Tde) : (s.setTde u t).scopes = s.scopes := rfl
@[simp] theorem State.setTde_counts (s : State) (u : Nat) (t : Tde) : (s.setTde u t).counts = s.counts := rfl
@[simp] theorem State.setTde_scopeReqs (s : State) (u : Nat) (t : Tde) : (s.setTde u t).scopeReqs = s.scopeReqs := rfl
@[simp] theorem State.setTde_scnewCount (s : State) (u : Nat) (t : Tde) : (s.setTde u t).scnewCount = s.scnewCount := rfl
@[simp] theorem State.setTde_prunes (s : State) (u : Nat) (t : Tde) : (s.setTde u t).prunes = s.prunes := rfl
@[simp] theorem State.setTde_dss (s : State) (u : Nat) (t : Tde) : (s.setTde u t).dss = s.dss := rfl
@[simp] theorem State.setTde_launches (s : State) (u : Nat) (t : Tde) : (s.setTde u t).launches = s.launches := rfl
@[simp] theorem State.setTde_nextLaunch (s : State) (u : Nat) (t : Tde) : (s.setTde u t).nextLaunch = s.nextLaunch := rfl
@[simp] theorem State.setTde_lastPart (s : State) (u : Nat) (t : Tde) : (s.setTde u t).lastPart = s.lastPart := rfl
@[simp] theorem State.setTde_moving (s : State) (u : Nat) (t : Tde) : (s.setTde u t).moving = s.moving := rfl
@[simp] theorem State.setTde_fab (s : State) (u : Nat) (t : Tde) : (s.setTde u t).fab = s.fab := rfl
@[simp] theorem State.setTde_vfs (s : State) (u : Nat) (t : Tde) : (s.setTde u t).vfs = s.vfs := rfl
@[simp] theorem State.setTde_smc (s : State) (u : Nat) (t : Tde) : (s.setTde u t).smc = s.smc := rfl
@[simp] theorem State.setTde_clockStopped (s : State) (u : Nat) (t : Tde) : (s.setTde u t).clockStopped = s.clockStopped := rfl

/-! `State.due` changes the events that have come due and no other field. -/

@[simp] theorem State.due_modid (s : State) (i : Instr) (a b c : Nat) : (s.due i a b c).modid = s.modid := rfl
@[simp] theorem State.due_focus (s : State) (i : Instr) (a b c : Nat) : (s.due i a b c).focus = s.focus := rfl
@[simp] theorem State.due_occ (s : State) (i : Instr) (a b c : Nat) : (s.due i a b c).occ = s.occ := rfl
@[simp] theorem State.due_timers (s : State) (i : Instr) (a b c : Nat) : (s.due i a b c).timers = s.timers := rfl
@[simp] theorem State.due_free (s : State) (i : Instr) (a b c : Nat) : (s.due i a b c).free = s.free := rfl
@[simp] theorem State.due_nextNo (s : State) (i : Instr) (a b c : Nat) : (s.due i a b c).nextNo = s.nextNo := rfl
@[simp] theorem State.due_ctxs (s : State) (i : Instr) (a b c : Nat) : (s.due i a b c).ctxs = s.ctxs := rfl
@[simp] theorem State.due_cores (s : State) (i : Instr) (a b c : Nat) : (s.due i a b c).cores = s.cores := rfl
@[simp] theorem State.due_homes (s : State) (i : Instr) (a b c : Nat) : (s.due i a b c).homes = s.homes := rfl
@[simp] theorem State.due_mem (s : State) (i : Instr) (a b c : Nat) : (s.due i a b c).mem = s.mem := rfl
@[simp] theorem State.due_poison (s : State) (i : Instr) (a b c : Nat) : (s.due i a b c).poison = s.poison := rfl
@[simp] theorem State.due_grans (s : State) (i : Instr) (a b c : Nat) : (s.due i a b c).grans = s.grans := rfl
@[simp] theorem State.due_reqs (s : State) (i : Instr) (a b c : Nat) : (s.due i a b c).reqs = s.reqs := rfl
@[simp] theorem State.due_parts (s : State) (i : Instr) (a b c : Nat) : (s.due i a b c).parts = s.parts := rfl
@[simp] theorem State.due_watches (s : State) (i : Instr) (a b c : Nat) : (s.due i a b c).watches = s.watches := rfl
@[simp] theorem State.due_ops (s : State) (i : Instr) (a b c : Nat) : (s.due i a b c).ops = s.ops := rfl
@[simp] theorem State.due_tdes (s : State) (i : Instr) (a b c : Nat) : (s.due i a b c).tdes = s.tdes := rfl
@[simp] theorem State.due_scopes (s : State) (i : Instr) (a b c : Nat) : (s.due i a b c).scopes = s.scopes := rfl
@[simp] theorem State.due_counts (s : State) (i : Instr) (a b c : Nat) : (s.due i a b c).counts = s.counts := rfl
@[simp] theorem State.due_scopeReqs (s : State) (i : Instr) (a b c : Nat) : (s.due i a b c).scopeReqs = s.scopeReqs := rfl
@[simp] theorem State.due_scnewCount (s : State) (i : Instr) (a b c : Nat) : (s.due i a b c).scnewCount = s.scnewCount := rfl
@[simp] theorem State.due_prunes (s : State) (i : Instr) (a b c : Nat) : (s.due i a b c).prunes = s.prunes := rfl
@[simp] theorem State.due_dss (s : State) (i : Instr) (a b c : Nat) : (s.due i a b c).dss = s.dss := rfl
@[simp] theorem State.due_launches (s : State) (i : Instr) (a b c : Nat) : (s.due i a b c).launches = s.launches := rfl
@[simp] theorem State.due_nextLaunch (s : State) (i : Instr) (a b c : Nat) : (s.due i a b c).nextLaunch = s.nextLaunch := rfl
@[simp] theorem State.due_lastPart (s : State) (i : Instr) (a b c : Nat) : (s.due i a b c).lastPart = s.lastPart := rfl
@[simp] theorem State.due_moving (s : State) (i : Instr) (a b c : Nat) : (s.due i a b c).moving = s.moving := rfl
@[simp] theorem State.due_fab (s : State) (i : Instr) (a b c : Nat) : (s.due i a b c).fab = s.fab := rfl
@[simp] theorem State.due_vfs (s : State) (i : Instr) (a b c : Nat) : (s.due i a b c).vfs = s.vfs := rfl
@[simp] theorem State.due_smc (s : State) (i : Instr) (a b c : Nat) : (s.due i a b c).smc = s.smc := rfl
@[simp] theorem State.due_clockStopped (s : State) (i : Instr) (a b c : Nat) : (s.due i a b c).clockStopped = s.clockStopped := rfl

/-! `State.dueV` changes the events that have come due and no other field. -/

@[simp] theorem State.dueV_modid (s : State) (i : Instr) (a : Nat) (v : Word) : (s.dueV i a v).modid = s.modid := rfl
@[simp] theorem State.dueV_focus (s : State) (i : Instr) (a : Nat) (v : Word) : (s.dueV i a v).focus = s.focus := rfl
@[simp] theorem State.dueV_occ (s : State) (i : Instr) (a : Nat) (v : Word) : (s.dueV i a v).occ = s.occ := rfl
@[simp] theorem State.dueV_timers (s : State) (i : Instr) (a : Nat) (v : Word) : (s.dueV i a v).timers = s.timers := rfl
@[simp] theorem State.dueV_free (s : State) (i : Instr) (a : Nat) (v : Word) : (s.dueV i a v).free = s.free := rfl
@[simp] theorem State.dueV_nextNo (s : State) (i : Instr) (a : Nat) (v : Word) : (s.dueV i a v).nextNo = s.nextNo := rfl
@[simp] theorem State.dueV_ctxs (s : State) (i : Instr) (a : Nat) (v : Word) : (s.dueV i a v).ctxs = s.ctxs := rfl
@[simp] theorem State.dueV_cores (s : State) (i : Instr) (a : Nat) (v : Word) : (s.dueV i a v).cores = s.cores := rfl
@[simp] theorem State.dueV_homes (s : State) (i : Instr) (a : Nat) (v : Word) : (s.dueV i a v).homes = s.homes := rfl
@[simp] theorem State.dueV_mem (s : State) (i : Instr) (a : Nat) (v : Word) : (s.dueV i a v).mem = s.mem := rfl
@[simp] theorem State.dueV_poison (s : State) (i : Instr) (a : Nat) (v : Word) : (s.dueV i a v).poison = s.poison := rfl
@[simp] theorem State.dueV_grans (s : State) (i : Instr) (a : Nat) (v : Word) : (s.dueV i a v).grans = s.grans := rfl
@[simp] theorem State.dueV_reqs (s : State) (i : Instr) (a : Nat) (v : Word) : (s.dueV i a v).reqs = s.reqs := rfl
@[simp] theorem State.dueV_parts (s : State) (i : Instr) (a : Nat) (v : Word) : (s.dueV i a v).parts = s.parts := rfl
@[simp] theorem State.dueV_watches (s : State) (i : Instr) (a : Nat) (v : Word) : (s.dueV i a v).watches = s.watches := rfl
@[simp] theorem State.dueV_ops (s : State) (i : Instr) (a : Nat) (v : Word) : (s.dueV i a v).ops = s.ops := rfl
@[simp] theorem State.dueV_tdes (s : State) (i : Instr) (a : Nat) (v : Word) : (s.dueV i a v).tdes = s.tdes := rfl
@[simp] theorem State.dueV_scopes (s : State) (i : Instr) (a : Nat) (v : Word) : (s.dueV i a v).scopes = s.scopes := rfl
@[simp] theorem State.dueV_counts (s : State) (i : Instr) (a : Nat) (v : Word) : (s.dueV i a v).counts = s.counts := rfl
@[simp] theorem State.dueV_scopeReqs (s : State) (i : Instr) (a : Nat) (v : Word) : (s.dueV i a v).scopeReqs = s.scopeReqs := rfl
@[simp] theorem State.dueV_scnewCount (s : State) (i : Instr) (a : Nat) (v : Word) : (s.dueV i a v).scnewCount = s.scnewCount := rfl
@[simp] theorem State.dueV_prunes (s : State) (i : Instr) (a : Nat) (v : Word) : (s.dueV i a v).prunes = s.prunes := rfl
@[simp] theorem State.dueV_dss (s : State) (i : Instr) (a : Nat) (v : Word) : (s.dueV i a v).dss = s.dss := rfl
@[simp] theorem State.dueV_launches (s : State) (i : Instr) (a : Nat) (v : Word) : (s.dueV i a v).launches = s.launches := rfl
@[simp] theorem State.dueV_nextLaunch (s : State) (i : Instr) (a : Nat) (v : Word) : (s.dueV i a v).nextLaunch = s.nextLaunch := rfl
@[simp] theorem State.dueV_lastPart (s : State) (i : Instr) (a : Nat) (v : Word) : (s.dueV i a v).lastPart = s.lastPart := rfl
@[simp] theorem State.dueV_moving (s : State) (i : Instr) (a : Nat) (v : Word) : (s.dueV i a v).moving = s.moving := rfl
@[simp] theorem State.dueV_fab (s : State) (i : Instr) (a : Nat) (v : Word) : (s.dueV i a v).fab = s.fab := rfl
@[simp] theorem State.dueV_vfs (s : State) (i : Instr) (a : Nat) (v : Word) : (s.dueV i a v).vfs = s.vfs := rfl
@[simp] theorem State.dueV_smc (s : State) (i : Instr) (a : Nat) (v : Word) : (s.dueV i a v).smc = s.smc := rfl
@[simp] theorem State.dueV_clockStopped (s : State) (i : Instr) (a : Nat) (v : Word) : (s.dueV i a v).clockStopped = s.clockStopped := rfl

/-! `State.later` changes the timers and no other field. -/

@[simp] theorem State.later_modid (s : State) (i : Instr) (a b c : Nat) : (s.later i a b c).modid = s.modid := rfl
@[simp] theorem State.later_focus (s : State) (i : Instr) (a b c : Nat) : (s.later i a b c).focus = s.focus := rfl
@[simp] theorem State.later_agenda (s : State) (i : Instr) (a b c : Nat) : (s.later i a b c).agenda = s.agenda := rfl
@[simp] theorem State.later_occ (s : State) (i : Instr) (a b c : Nat) : (s.later i a b c).occ = s.occ := rfl
@[simp] theorem State.later_free (s : State) (i : Instr) (a b c : Nat) : (s.later i a b c).free = s.free := rfl
@[simp] theorem State.later_nextNo (s : State) (i : Instr) (a b c : Nat) : (s.later i a b c).nextNo = s.nextNo := rfl
@[simp] theorem State.later_ctxs (s : State) (i : Instr) (a b c : Nat) : (s.later i a b c).ctxs = s.ctxs := rfl
@[simp] theorem State.later_cores (s : State) (i : Instr) (a b c : Nat) : (s.later i a b c).cores = s.cores := rfl
@[simp] theorem State.later_homes (s : State) (i : Instr) (a b c : Nat) : (s.later i a b c).homes = s.homes := rfl
@[simp] theorem State.later_mem (s : State) (i : Instr) (a b c : Nat) : (s.later i a b c).mem = s.mem := rfl
@[simp] theorem State.later_poison (s : State) (i : Instr) (a b c : Nat) : (s.later i a b c).poison = s.poison := rfl
@[simp] theorem State.later_grans (s : State) (i : Instr) (a b c : Nat) : (s.later i a b c).grans = s.grans := rfl
@[simp] theorem State.later_reqs (s : State) (i : Instr) (a b c : Nat) : (s.later i a b c).reqs = s.reqs := rfl
@[simp] theorem State.later_parts (s : State) (i : Instr) (a b c : Nat) : (s.later i a b c).parts = s.parts := rfl
@[simp] theorem State.later_watches (s : State) (i : Instr) (a b c : Nat) : (s.later i a b c).watches = s.watches := rfl
@[simp] theorem State.later_ops (s : State) (i : Instr) (a b c : Nat) : (s.later i a b c).ops = s.ops := rfl
@[simp] theorem State.later_tdes (s : State) (i : Instr) (a b c : Nat) : (s.later i a b c).tdes = s.tdes := rfl
@[simp] theorem State.later_scopes (s : State) (i : Instr) (a b c : Nat) : (s.later i a b c).scopes = s.scopes := rfl
@[simp] theorem State.later_counts (s : State) (i : Instr) (a b c : Nat) : (s.later i a b c).counts = s.counts := rfl
@[simp] theorem State.later_scopeReqs (s : State) (i : Instr) (a b c : Nat) : (s.later i a b c).scopeReqs = s.scopeReqs := rfl
@[simp] theorem State.later_scnewCount (s : State) (i : Instr) (a b c : Nat) : (s.later i a b c).scnewCount = s.scnewCount := rfl
@[simp] theorem State.later_prunes (s : State) (i : Instr) (a b c : Nat) : (s.later i a b c).prunes = s.prunes := rfl
@[simp] theorem State.later_dss (s : State) (i : Instr) (a b c : Nat) : (s.later i a b c).dss = s.dss := rfl
@[simp] theorem State.later_launches (s : State) (i : Instr) (a b c : Nat) : (s.later i a b c).launches = s.launches := rfl
@[simp] theorem State.later_nextLaunch (s : State) (i : Instr) (a b c : Nat) : (s.later i a b c).nextLaunch = s.nextLaunch := rfl
@[simp] theorem State.later_lastPart (s : State) (i : Instr) (a b c : Nat) : (s.later i a b c).lastPart = s.lastPart := rfl
@[simp] theorem State.later_moving (s : State) (i : Instr) (a b c : Nat) : (s.later i a b c).moving = s.moving := rfl
@[simp] theorem State.later_fab (s : State) (i : Instr) (a b c : Nat) : (s.later i a b c).fab = s.fab := rfl
@[simp] theorem State.later_vfs (s : State) (i : Instr) (a b c : Nat) : (s.later i a b c).vfs = s.vfs := rfl
@[simp] theorem State.later_smc (s : State) (i : Instr) (a b c : Nat) : (s.later i a b c).smc = s.smc := rfl
@[simp] theorem State.later_clockStopped (s : State) (i : Instr) (a b c : Nat) : (s.later i a b c).clockStopped = s.clockStopped := rfl

/-! `State.wrB` changes memory and no other field. -/

@[simp] theorem State.wrB_modid (s : State) (a : Nat) (bs : List Byte) : (s.wrB a bs).modid = s.modid := rfl
@[simp] theorem State.wrB_focus (s : State) (a : Nat) (bs : List Byte) : (s.wrB a bs).focus = s.focus := rfl
@[simp] theorem State.wrB_agenda (s : State) (a : Nat) (bs : List Byte) : (s.wrB a bs).agenda = s.agenda := rfl
@[simp] theorem State.wrB_occ (s : State) (a : Nat) (bs : List Byte) : (s.wrB a bs).occ = s.occ := rfl
@[simp] theorem State.wrB_timers (s : State) (a : Nat) (bs : List Byte) : (s.wrB a bs).timers = s.timers := rfl
@[simp] theorem State.wrB_free (s : State) (a : Nat) (bs : List Byte) : (s.wrB a bs).free = s.free := rfl
@[simp] theorem State.wrB_nextNo (s : State) (a : Nat) (bs : List Byte) : (s.wrB a bs).nextNo = s.nextNo := rfl
@[simp] theorem State.wrB_ctxs (s : State) (a : Nat) (bs : List Byte) : (s.wrB a bs).ctxs = s.ctxs := rfl
@[simp] theorem State.wrB_cores (s : State) (a : Nat) (bs : List Byte) : (s.wrB a bs).cores = s.cores := rfl
@[simp] theorem State.wrB_homes (s : State) (a : Nat) (bs : List Byte) : (s.wrB a bs).homes = s.homes := rfl
@[simp] theorem State.wrB_poison (s : State) (a : Nat) (bs : List Byte) : (s.wrB a bs).poison = s.poison := rfl
@[simp] theorem State.wrB_grans (s : State) (a : Nat) (bs : List Byte) : (s.wrB a bs).grans = s.grans := rfl
@[simp] theorem State.wrB_reqs (s : State) (a : Nat) (bs : List Byte) : (s.wrB a bs).reqs = s.reqs := rfl
@[simp] theorem State.wrB_parts (s : State) (a : Nat) (bs : List Byte) : (s.wrB a bs).parts = s.parts := rfl
@[simp] theorem State.wrB_watches (s : State) (a : Nat) (bs : List Byte) : (s.wrB a bs).watches = s.watches := rfl
@[simp] theorem State.wrB_ops (s : State) (a : Nat) (bs : List Byte) : (s.wrB a bs).ops = s.ops := rfl
@[simp] theorem State.wrB_tdes (s : State) (a : Nat) (bs : List Byte) : (s.wrB a bs).tdes = s.tdes := rfl
@[simp] theorem State.wrB_scopes (s : State) (a : Nat) (bs : List Byte) : (s.wrB a bs).scopes = s.scopes := rfl
@[simp] theorem State.wrB_counts (s : State) (a : Nat) (bs : List Byte) : (s.wrB a bs).counts = s.counts := rfl
@[simp] theorem State.wrB_scopeReqs (s : State) (a : Nat) (bs : List Byte) : (s.wrB a bs).scopeReqs = s.scopeReqs := rfl
@[simp] theorem State.wrB_scnewCount (s : State) (a : Nat) (bs : List Byte) : (s.wrB a bs).scnewCount = s.scnewCount := rfl
@[simp] theorem State.wrB_prunes (s : State) (a : Nat) (bs : List Byte) : (s.wrB a bs).prunes = s.prunes := rfl
@[simp] theorem State.wrB_dss (s : State) (a : Nat) (bs : List Byte) : (s.wrB a bs).dss = s.dss := rfl
@[simp] theorem State.wrB_launches (s : State) (a : Nat) (bs : List Byte) : (s.wrB a bs).launches = s.launches := rfl
@[simp] theorem State.wrB_nextLaunch (s : State) (a : Nat) (bs : List Byte) : (s.wrB a bs).nextLaunch = s.nextLaunch := rfl
@[simp] theorem State.wrB_lastPart (s : State) (a : Nat) (bs : List Byte) : (s.wrB a bs).lastPart = s.lastPart := rfl
@[simp] theorem State.wrB_moving (s : State) (a : Nat) (bs : List Byte) : (s.wrB a bs).moving = s.moving := rfl
@[simp] theorem State.wrB_fab (s : State) (a : Nat) (bs : List Byte) : (s.wrB a bs).fab = s.fab := rfl
@[simp] theorem State.wrB_vfs (s : State) (a : Nat) (bs : List Byte) : (s.wrB a bs).vfs = s.vfs := rfl
@[simp] theorem State.wrB_smc (s : State) (a : Nat) (bs : List Byte) : (s.wrB a bs).smc = s.smc := rfl
@[simp] theorem State.wrB_clockStopped (s : State) (a : Nat) (bs : List Byte) : (s.wrB a bs).clockStopped = s.clockStopped := rfl

/-! `State.wr` changes memory and no other field. -/

@[simp] theorem State.wr_modid (s : State) (a n v : Nat) : (s.wr a n v).modid = s.modid := rfl
@[simp] theorem State.wr_focus (s : State) (a n v : Nat) : (s.wr a n v).focus = s.focus := rfl
@[simp] theorem State.wr_agenda (s : State) (a n v : Nat) : (s.wr a n v).agenda = s.agenda := rfl
@[simp] theorem State.wr_occ (s : State) (a n v : Nat) : (s.wr a n v).occ = s.occ := rfl
@[simp] theorem State.wr_timers (s : State) (a n v : Nat) : (s.wr a n v).timers = s.timers := rfl
@[simp] theorem State.wr_free (s : State) (a n v : Nat) : (s.wr a n v).free = s.free := rfl
@[simp] theorem State.wr_nextNo (s : State) (a n v : Nat) : (s.wr a n v).nextNo = s.nextNo := rfl
@[simp] theorem State.wr_ctxs (s : State) (a n v : Nat) : (s.wr a n v).ctxs = s.ctxs := rfl
@[simp] theorem State.wr_cores (s : State) (a n v : Nat) : (s.wr a n v).cores = s.cores := rfl
@[simp] theorem State.wr_homes (s : State) (a n v : Nat) : (s.wr a n v).homes = s.homes := rfl
@[simp] theorem State.wr_poison (s : State) (a n v : Nat) : (s.wr a n v).poison = s.poison := rfl
@[simp] theorem State.wr_grans (s : State) (a n v : Nat) : (s.wr a n v).grans = s.grans := rfl
@[simp] theorem State.wr_reqs (s : State) (a n v : Nat) : (s.wr a n v).reqs = s.reqs := rfl
@[simp] theorem State.wr_parts (s : State) (a n v : Nat) : (s.wr a n v).parts = s.parts := rfl
@[simp] theorem State.wr_watches (s : State) (a n v : Nat) : (s.wr a n v).watches = s.watches := rfl
@[simp] theorem State.wr_ops (s : State) (a n v : Nat) : (s.wr a n v).ops = s.ops := rfl
@[simp] theorem State.wr_tdes (s : State) (a n v : Nat) : (s.wr a n v).tdes = s.tdes := rfl
@[simp] theorem State.wr_scopes (s : State) (a n v : Nat) : (s.wr a n v).scopes = s.scopes := rfl
@[simp] theorem State.wr_counts (s : State) (a n v : Nat) : (s.wr a n v).counts = s.counts := rfl
@[simp] theorem State.wr_scopeReqs (s : State) (a n v : Nat) : (s.wr a n v).scopeReqs = s.scopeReqs := rfl
@[simp] theorem State.wr_scnewCount (s : State) (a n v : Nat) : (s.wr a n v).scnewCount = s.scnewCount := rfl
@[simp] theorem State.wr_prunes (s : State) (a n v : Nat) : (s.wr a n v).prunes = s.prunes := rfl
@[simp] theorem State.wr_dss (s : State) (a n v : Nat) : (s.wr a n v).dss = s.dss := rfl
@[simp] theorem State.wr_launches (s : State) (a n v : Nat) : (s.wr a n v).launches = s.launches := rfl
@[simp] theorem State.wr_nextLaunch (s : State) (a n v : Nat) : (s.wr a n v).nextLaunch = s.nextLaunch := rfl
@[simp] theorem State.wr_lastPart (s : State) (a n v : Nat) : (s.wr a n v).lastPart = s.lastPart := rfl
@[simp] theorem State.wr_moving (s : State) (a n v : Nat) : (s.wr a n v).moving = s.moving := rfl
@[simp] theorem State.wr_fab (s : State) (a n v : Nat) : (s.wr a n v).fab = s.fab := rfl
@[simp] theorem State.wr_vfs (s : State) (a n v : Nat) : (s.wr a n v).vfs = s.vfs := rfl
@[simp] theorem State.wr_smc (s : State) (a n v : Nat) : (s.wr a n v).smc = s.smc := rfl
@[simp] theorem State.wr_clockStopped (s : State) (a n v : Nat) : (s.wr a n v).clockStopped = s.clockStopped := rfl

/-! `State.clearPoison` changes poison marks and no other field. -/

@[simp] theorem State.clearPoison_modid (s : State) (a n : Nat) : (s.clearPoison a n).modid = s.modid := rfl
@[simp] theorem State.clearPoison_focus (s : State) (a n : Nat) : (s.clearPoison a n).focus = s.focus := rfl
@[simp] theorem State.clearPoison_agenda (s : State) (a n : Nat) : (s.clearPoison a n).agenda = s.agenda := rfl
@[simp] theorem State.clearPoison_occ (s : State) (a n : Nat) : (s.clearPoison a n).occ = s.occ := rfl
@[simp] theorem State.clearPoison_timers (s : State) (a n : Nat) : (s.clearPoison a n).timers = s.timers := rfl
@[simp] theorem State.clearPoison_free (s : State) (a n : Nat) : (s.clearPoison a n).free = s.free := rfl
@[simp] theorem State.clearPoison_nextNo (s : State) (a n : Nat) : (s.clearPoison a n).nextNo = s.nextNo := rfl
@[simp] theorem State.clearPoison_ctxs (s : State) (a n : Nat) : (s.clearPoison a n).ctxs = s.ctxs := rfl
@[simp] theorem State.clearPoison_cores (s : State) (a n : Nat) : (s.clearPoison a n).cores = s.cores := rfl
@[simp] theorem State.clearPoison_homes (s : State) (a n : Nat) : (s.clearPoison a n).homes = s.homes := rfl
@[simp] theorem State.clearPoison_mem (s : State) (a n : Nat) : (s.clearPoison a n).mem = s.mem := rfl
@[simp] theorem State.clearPoison_grans (s : State) (a n : Nat) : (s.clearPoison a n).grans = s.grans := rfl
@[simp] theorem State.clearPoison_reqs (s : State) (a n : Nat) : (s.clearPoison a n).reqs = s.reqs := rfl
@[simp] theorem State.clearPoison_parts (s : State) (a n : Nat) : (s.clearPoison a n).parts = s.parts := rfl
@[simp] theorem State.clearPoison_watches (s : State) (a n : Nat) : (s.clearPoison a n).watches = s.watches := rfl
@[simp] theorem State.clearPoison_ops (s : State) (a n : Nat) : (s.clearPoison a n).ops = s.ops := rfl
@[simp] theorem State.clearPoison_tdes (s : State) (a n : Nat) : (s.clearPoison a n).tdes = s.tdes := rfl
@[simp] theorem State.clearPoison_scopes (s : State) (a n : Nat) : (s.clearPoison a n).scopes = s.scopes := rfl
@[simp] theorem State.clearPoison_counts (s : State) (a n : Nat) : (s.clearPoison a n).counts = s.counts := rfl
@[simp] theorem State.clearPoison_scopeReqs (s : State) (a n : Nat) : (s.clearPoison a n).scopeReqs = s.scopeReqs := rfl
@[simp] theorem State.clearPoison_scnewCount (s : State) (a n : Nat) : (s.clearPoison a n).scnewCount = s.scnewCount := rfl
@[simp] theorem State.clearPoison_prunes (s : State) (a n : Nat) : (s.clearPoison a n).prunes = s.prunes := rfl
@[simp] theorem State.clearPoison_dss (s : State) (a n : Nat) : (s.clearPoison a n).dss = s.dss := rfl
@[simp] theorem State.clearPoison_launches (s : State) (a n : Nat) : (s.clearPoison a n).launches = s.launches := rfl
@[simp] theorem State.clearPoison_nextLaunch (s : State) (a n : Nat) : (s.clearPoison a n).nextLaunch = s.nextLaunch := rfl
@[simp] theorem State.clearPoison_lastPart (s : State) (a n : Nat) : (s.clearPoison a n).lastPart = s.lastPart := rfl
@[simp] theorem State.clearPoison_moving (s : State) (a n : Nat) : (s.clearPoison a n).moving = s.moving := rfl
@[simp] theorem State.clearPoison_fab (s : State) (a n : Nat) : (s.clearPoison a n).fab = s.fab := rfl
@[simp] theorem State.clearPoison_vfs (s : State) (a n : Nat) : (s.clearPoison a n).vfs = s.vfs := rfl
@[simp] theorem State.clearPoison_smc (s : State) (a n : Nat) : (s.clearPoison a n).smc = s.smc := rfl
@[simp] theorem State.clearPoison_clockStopped (s : State) (a n : Nat) : (s.clearPoison a n).clockStopped = s.clockStopped := rfl

/-! `State.markPoison` changes poison marks and no other field. -/

@[simp] theorem State.markPoison_modid (s : State) (a n : Nat) : (s.markPoison a n).modid = s.modid := rfl
@[simp] theorem State.markPoison_focus (s : State) (a n : Nat) : (s.markPoison a n).focus = s.focus := rfl
@[simp] theorem State.markPoison_agenda (s : State) (a n : Nat) : (s.markPoison a n).agenda = s.agenda := rfl
@[simp] theorem State.markPoison_occ (s : State) (a n : Nat) : (s.markPoison a n).occ = s.occ := rfl
@[simp] theorem State.markPoison_timers (s : State) (a n : Nat) : (s.markPoison a n).timers = s.timers := rfl
@[simp] theorem State.markPoison_free (s : State) (a n : Nat) : (s.markPoison a n).free = s.free := rfl
@[simp] theorem State.markPoison_nextNo (s : State) (a n : Nat) : (s.markPoison a n).nextNo = s.nextNo := rfl
@[simp] theorem State.markPoison_ctxs (s : State) (a n : Nat) : (s.markPoison a n).ctxs = s.ctxs := rfl
@[simp] theorem State.markPoison_cores (s : State) (a n : Nat) : (s.markPoison a n).cores = s.cores := rfl
@[simp] theorem State.markPoison_homes (s : State) (a n : Nat) : (s.markPoison a n).homes = s.homes := rfl
@[simp] theorem State.markPoison_mem (s : State) (a n : Nat) : (s.markPoison a n).mem = s.mem := rfl
@[simp] theorem State.markPoison_grans (s : State) (a n : Nat) : (s.markPoison a n).grans = s.grans := rfl
@[simp] theorem State.markPoison_reqs (s : State) (a n : Nat) : (s.markPoison a n).reqs = s.reqs := rfl
@[simp] theorem State.markPoison_parts (s : State) (a n : Nat) : (s.markPoison a n).parts = s.parts := rfl
@[simp] theorem State.markPoison_watches (s : State) (a n : Nat) : (s.markPoison a n).watches = s.watches := rfl
@[simp] theorem State.markPoison_ops (s : State) (a n : Nat) : (s.markPoison a n).ops = s.ops := rfl
@[simp] theorem State.markPoison_tdes (s : State) (a n : Nat) : (s.markPoison a n).tdes = s.tdes := rfl
@[simp] theorem State.markPoison_scopes (s : State) (a n : Nat) : (s.markPoison a n).scopes = s.scopes := rfl
@[simp] theorem State.markPoison_counts (s : State) (a n : Nat) : (s.markPoison a n).counts = s.counts := rfl
@[simp] theorem State.markPoison_scopeReqs (s : State) (a n : Nat) : (s.markPoison a n).scopeReqs = s.scopeReqs := rfl
@[simp] theorem State.markPoison_scnewCount (s : State) (a n : Nat) : (s.markPoison a n).scnewCount = s.scnewCount := rfl
@[simp] theorem State.markPoison_prunes (s : State) (a n : Nat) : (s.markPoison a n).prunes = s.prunes := rfl
@[simp] theorem State.markPoison_dss (s : State) (a n : Nat) : (s.markPoison a n).dss = s.dss := rfl
@[simp] theorem State.markPoison_launches (s : State) (a n : Nat) : (s.markPoison a n).launches = s.launches := rfl
@[simp] theorem State.markPoison_nextLaunch (s : State) (a n : Nat) : (s.markPoison a n).nextLaunch = s.nextLaunch := rfl
@[simp] theorem State.markPoison_lastPart (s : State) (a n : Nat) : (s.markPoison a n).lastPart = s.lastPart := rfl
@[simp] theorem State.markPoison_moving (s : State) (a n : Nat) : (s.markPoison a n).moving = s.moving := rfl
@[simp] theorem State.markPoison_fab (s : State) (a n : Nat) : (s.markPoison a n).fab = s.fab := rfl
@[simp] theorem State.markPoison_vfs (s : State) (a n : Nat) : (s.markPoison a n).vfs = s.vfs := rfl
@[simp] theorem State.markPoison_smc (s : State) (a n : Nat) : (s.markPoison a n).smc = s.smc := rfl
@[simp] theorem State.markPoison_clockStopped (s : State) (a n : Nat) : (s.markPoison a n).clockStopped = s.clockStopped := rfl

/-! `State.store` changes memory and its poison marks and no other field. -/

@[simp] theorem State.store_modid (s : State) (a : Nat) (bs : List Byte) : (s.store a bs).modid = s.modid := rfl
@[simp] theorem State.store_focus (s : State) (a : Nat) (bs : List Byte) : (s.store a bs).focus = s.focus := rfl
@[simp] theorem State.store_agenda (s : State) (a : Nat) (bs : List Byte) : (s.store a bs).agenda = s.agenda := rfl
@[simp] theorem State.store_occ (s : State) (a : Nat) (bs : List Byte) : (s.store a bs).occ = s.occ := rfl
@[simp] theorem State.store_timers (s : State) (a : Nat) (bs : List Byte) : (s.store a bs).timers = s.timers := rfl
@[simp] theorem State.store_free (s : State) (a : Nat) (bs : List Byte) : (s.store a bs).free = s.free := rfl
@[simp] theorem State.store_nextNo (s : State) (a : Nat) (bs : List Byte) : (s.store a bs).nextNo = s.nextNo := rfl
@[simp] theorem State.store_ctxs (s : State) (a : Nat) (bs : List Byte) : (s.store a bs).ctxs = s.ctxs := rfl
@[simp] theorem State.store_cores (s : State) (a : Nat) (bs : List Byte) : (s.store a bs).cores = s.cores := rfl
@[simp] theorem State.store_homes (s : State) (a : Nat) (bs : List Byte) : (s.store a bs).homes = s.homes := rfl
@[simp] theorem State.store_grans (s : State) (a : Nat) (bs : List Byte) : (s.store a bs).grans = s.grans := rfl
@[simp] theorem State.store_reqs (s : State) (a : Nat) (bs : List Byte) : (s.store a bs).reqs = s.reqs := rfl
@[simp] theorem State.store_parts (s : State) (a : Nat) (bs : List Byte) : (s.store a bs).parts = s.parts := rfl
@[simp] theorem State.store_watches (s : State) (a : Nat) (bs : List Byte) : (s.store a bs).watches = s.watches := rfl
@[simp] theorem State.store_ops (s : State) (a : Nat) (bs : List Byte) : (s.store a bs).ops = s.ops := rfl
@[simp] theorem State.store_tdes (s : State) (a : Nat) (bs : List Byte) : (s.store a bs).tdes = s.tdes := rfl
@[simp] theorem State.store_scopes (s : State) (a : Nat) (bs : List Byte) : (s.store a bs).scopes = s.scopes := rfl
@[simp] theorem State.store_counts (s : State) (a : Nat) (bs : List Byte) : (s.store a bs).counts = s.counts := rfl
@[simp] theorem State.store_scopeReqs (s : State) (a : Nat) (bs : List Byte) : (s.store a bs).scopeReqs = s.scopeReqs := rfl
@[simp] theorem State.store_scnewCount (s : State) (a : Nat) (bs : List Byte) : (s.store a bs).scnewCount = s.scnewCount := rfl
@[simp] theorem State.store_prunes (s : State) (a : Nat) (bs : List Byte) : (s.store a bs).prunes = s.prunes := rfl
@[simp] theorem State.store_dss (s : State) (a : Nat) (bs : List Byte) : (s.store a bs).dss = s.dss := rfl
@[simp] theorem State.store_launches (s : State) (a : Nat) (bs : List Byte) : (s.store a bs).launches = s.launches := rfl
@[simp] theorem State.store_nextLaunch (s : State) (a : Nat) (bs : List Byte) : (s.store a bs).nextLaunch = s.nextLaunch := rfl
@[simp] theorem State.store_lastPart (s : State) (a : Nat) (bs : List Byte) : (s.store a bs).lastPart = s.lastPart := rfl
@[simp] theorem State.store_moving (s : State) (a : Nat) (bs : List Byte) : (s.store a bs).moving = s.moving := rfl
@[simp] theorem State.store_fab (s : State) (a : Nat) (bs : List Byte) : (s.store a bs).fab = s.fab := rfl
@[simp] theorem State.store_vfs (s : State) (a : Nat) (bs : List Byte) : (s.store a bs).vfs = s.vfs := rfl
@[simp] theorem State.store_smc (s : State) (a : Nat) (bs : List Byte) : (s.store a bs).smc = s.smc := rfl
@[simp] theorem State.store_clockStopped (s : State) (a : Nat) (bs : List Byte) : (s.store a bs).clockStopped = s.clockStopped := rfl

/-! `State.onCnt` changes a count and no other field. -/

@[simp] theorem State.onCnt_modid (s : State) (part : Nat) (id : BitVec 16) (u : Nat) (f : Cnt → Cnt) : (s.onCnt part id u f).modid = s.modid := rfl
@[simp] theorem State.onCnt_focus (s : State) (part : Nat) (id : BitVec 16) (u : Nat) (f : Cnt → Cnt) : (s.onCnt part id u f).focus = s.focus := rfl
@[simp] theorem State.onCnt_agenda (s : State) (part : Nat) (id : BitVec 16) (u : Nat) (f : Cnt → Cnt) : (s.onCnt part id u f).agenda = s.agenda := rfl
@[simp] theorem State.onCnt_occ (s : State) (part : Nat) (id : BitVec 16) (u : Nat) (f : Cnt → Cnt) : (s.onCnt part id u f).occ = s.occ := rfl
@[simp] theorem State.onCnt_timers (s : State) (part : Nat) (id : BitVec 16) (u : Nat) (f : Cnt → Cnt) : (s.onCnt part id u f).timers = s.timers := rfl
@[simp] theorem State.onCnt_free (s : State) (part : Nat) (id : BitVec 16) (u : Nat) (f : Cnt → Cnt) : (s.onCnt part id u f).free = s.free := rfl
@[simp] theorem State.onCnt_nextNo (s : State) (part : Nat) (id : BitVec 16) (u : Nat) (f : Cnt → Cnt) : (s.onCnt part id u f).nextNo = s.nextNo := rfl
@[simp] theorem State.onCnt_ctxs (s : State) (part : Nat) (id : BitVec 16) (u : Nat) (f : Cnt → Cnt) : (s.onCnt part id u f).ctxs = s.ctxs := rfl
@[simp] theorem State.onCnt_cores (s : State) (part : Nat) (id : BitVec 16) (u : Nat) (f : Cnt → Cnt) : (s.onCnt part id u f).cores = s.cores := rfl
@[simp] theorem State.onCnt_homes (s : State) (part : Nat) (id : BitVec 16) (u : Nat) (f : Cnt → Cnt) : (s.onCnt part id u f).homes = s.homes := rfl
@[simp] theorem State.onCnt_mem (s : State) (part : Nat) (id : BitVec 16) (u : Nat) (f : Cnt → Cnt) : (s.onCnt part id u f).mem = s.mem := rfl
@[simp] theorem State.onCnt_poison (s : State) (part : Nat) (id : BitVec 16) (u : Nat) (f : Cnt → Cnt) : (s.onCnt part id u f).poison = s.poison := rfl
@[simp] theorem State.onCnt_grans (s : State) (part : Nat) (id : BitVec 16) (u : Nat) (f : Cnt → Cnt) : (s.onCnt part id u f).grans = s.grans := rfl
@[simp] theorem State.onCnt_reqs (s : State) (part : Nat) (id : BitVec 16) (u : Nat) (f : Cnt → Cnt) : (s.onCnt part id u f).reqs = s.reqs := rfl
@[simp] theorem State.onCnt_parts (s : State) (part : Nat) (id : BitVec 16) (u : Nat) (f : Cnt → Cnt) : (s.onCnt part id u f).parts = s.parts := rfl
@[simp] theorem State.onCnt_watches (s : State) (part : Nat) (id : BitVec 16) (u : Nat) (f : Cnt → Cnt) : (s.onCnt part id u f).watches = s.watches := rfl
@[simp] theorem State.onCnt_ops (s : State) (part : Nat) (id : BitVec 16) (u : Nat) (f : Cnt → Cnt) : (s.onCnt part id u f).ops = s.ops := rfl
@[simp] theorem State.onCnt_tdes (s : State) (part : Nat) (id : BitVec 16) (u : Nat) (f : Cnt → Cnt) : (s.onCnt part id u f).tdes = s.tdes := rfl
@[simp] theorem State.onCnt_scopes (s : State) (part : Nat) (id : BitVec 16) (u : Nat) (f : Cnt → Cnt) : (s.onCnt part id u f).scopes = s.scopes := rfl
@[simp] theorem State.onCnt_scopeReqs (s : State) (part : Nat) (id : BitVec 16) (u : Nat) (f : Cnt → Cnt) : (s.onCnt part id u f).scopeReqs = s.scopeReqs := rfl
@[simp] theorem State.onCnt_scnewCount (s : State) (part : Nat) (id : BitVec 16) (u : Nat) (f : Cnt → Cnt) : (s.onCnt part id u f).scnewCount = s.scnewCount := rfl
@[simp] theorem State.onCnt_prunes (s : State) (part : Nat) (id : BitVec 16) (u : Nat) (f : Cnt → Cnt) : (s.onCnt part id u f).prunes = s.prunes := rfl
@[simp] theorem State.onCnt_dss (s : State) (part : Nat) (id : BitVec 16) (u : Nat) (f : Cnt → Cnt) : (s.onCnt part id u f).dss = s.dss := rfl
@[simp] theorem State.onCnt_launches (s : State) (part : Nat) (id : BitVec 16) (u : Nat) (f : Cnt → Cnt) : (s.onCnt part id u f).launches = s.launches := rfl
@[simp] theorem State.onCnt_nextLaunch (s : State) (part : Nat) (id : BitVec 16) (u : Nat) (f : Cnt → Cnt) : (s.onCnt part id u f).nextLaunch = s.nextLaunch := rfl
@[simp] theorem State.onCnt_lastPart (s : State) (part : Nat) (id : BitVec 16) (u : Nat) (f : Cnt → Cnt) : (s.onCnt part id u f).lastPart = s.lastPart := rfl
@[simp] theorem State.onCnt_moving (s : State) (part : Nat) (id : BitVec 16) (u : Nat) (f : Cnt → Cnt) : (s.onCnt part id u f).moving = s.moving := rfl
@[simp] theorem State.onCnt_fab (s : State) (part : Nat) (id : BitVec 16) (u : Nat) (f : Cnt → Cnt) : (s.onCnt part id u f).fab = s.fab := rfl
@[simp] theorem State.onCnt_vfs (s : State) (part : Nat) (id : BitVec 16) (u : Nat) (f : Cnt → Cnt) : (s.onCnt part id u f).vfs = s.vfs := rfl
@[simp] theorem State.onCnt_smc (s : State) (part : Nat) (id : BitVec 16) (u : Nat) (f : Cnt → Cnt) : (s.onCnt part id u f).smc = s.smc := rfl
@[simp] theorem State.onCnt_clockStopped (s : State) (part : Nat) (id : BitVec 16) (u : Nat) (f : Cnt → Cnt) : (s.onCnt part id u f).clockStopped = s.clockStopped := rfl

/-! `State.setLaunch` changes a launch and no other field. -/

@[simp] theorem State.setLaunch_modid (s : State) (n : Nat) (l : Launch) : (s.setLaunch n l).modid = s.modid := rfl
@[simp] theorem State.setLaunch_focus (s : State) (n : Nat) (l : Launch) : (s.setLaunch n l).focus = s.focus := rfl
@[simp] theorem State.setLaunch_agenda (s : State) (n : Nat) (l : Launch) : (s.setLaunch n l).agenda = s.agenda := rfl
@[simp] theorem State.setLaunch_occ (s : State) (n : Nat) (l : Launch) : (s.setLaunch n l).occ = s.occ := rfl
@[simp] theorem State.setLaunch_timers (s : State) (n : Nat) (l : Launch) : (s.setLaunch n l).timers = s.timers := rfl
@[simp] theorem State.setLaunch_free (s : State) (n : Nat) (l : Launch) : (s.setLaunch n l).free = s.free := rfl
@[simp] theorem State.setLaunch_nextNo (s : State) (n : Nat) (l : Launch) : (s.setLaunch n l).nextNo = s.nextNo := rfl
@[simp] theorem State.setLaunch_ctxs (s : State) (n : Nat) (l : Launch) : (s.setLaunch n l).ctxs = s.ctxs := rfl
@[simp] theorem State.setLaunch_cores (s : State) (n : Nat) (l : Launch) : (s.setLaunch n l).cores = s.cores := rfl
@[simp] theorem State.setLaunch_homes (s : State) (n : Nat) (l : Launch) : (s.setLaunch n l).homes = s.homes := rfl
@[simp] theorem State.setLaunch_mem (s : State) (n : Nat) (l : Launch) : (s.setLaunch n l).mem = s.mem := rfl
@[simp] theorem State.setLaunch_poison (s : State) (n : Nat) (l : Launch) : (s.setLaunch n l).poison = s.poison := rfl
@[simp] theorem State.setLaunch_grans (s : State) (n : Nat) (l : Launch) : (s.setLaunch n l).grans = s.grans := rfl
@[simp] theorem State.setLaunch_reqs (s : State) (n : Nat) (l : Launch) : (s.setLaunch n l).reqs = s.reqs := rfl
@[simp] theorem State.setLaunch_parts (s : State) (n : Nat) (l : Launch) : (s.setLaunch n l).parts = s.parts := rfl
@[simp] theorem State.setLaunch_watches (s : State) (n : Nat) (l : Launch) : (s.setLaunch n l).watches = s.watches := rfl
@[simp] theorem State.setLaunch_ops (s : State) (n : Nat) (l : Launch) : (s.setLaunch n l).ops = s.ops := rfl
@[simp] theorem State.setLaunch_tdes (s : State) (n : Nat) (l : Launch) : (s.setLaunch n l).tdes = s.tdes := rfl
@[simp] theorem State.setLaunch_scopes (s : State) (n : Nat) (l : Launch) : (s.setLaunch n l).scopes = s.scopes := rfl
@[simp] theorem State.setLaunch_counts (s : State) (n : Nat) (l : Launch) : (s.setLaunch n l).counts = s.counts := rfl
@[simp] theorem State.setLaunch_scopeReqs (s : State) (n : Nat) (l : Launch) : (s.setLaunch n l).scopeReqs = s.scopeReqs := rfl
@[simp] theorem State.setLaunch_scnewCount (s : State) (n : Nat) (l : Launch) : (s.setLaunch n l).scnewCount = s.scnewCount := rfl
@[simp] theorem State.setLaunch_prunes (s : State) (n : Nat) (l : Launch) : (s.setLaunch n l).prunes = s.prunes := rfl
@[simp] theorem State.setLaunch_dss (s : State) (n : Nat) (l : Launch) : (s.setLaunch n l).dss = s.dss := rfl
@[simp] theorem State.setLaunch_nextLaunch (s : State) (n : Nat) (l : Launch) : (s.setLaunch n l).nextLaunch = s.nextLaunch := rfl
@[simp] theorem State.setLaunch_lastPart (s : State) (n : Nat) (l : Launch) : (s.setLaunch n l).lastPart = s.lastPart := rfl
@[simp] theorem State.setLaunch_moving (s : State) (n : Nat) (l : Launch) : (s.setLaunch n l).moving = s.moving := rfl
@[simp] theorem State.setLaunch_fab (s : State) (n : Nat) (l : Launch) : (s.setLaunch n l).fab = s.fab := rfl
@[simp] theorem State.setLaunch_vfs (s : State) (n : Nat) (l : Launch) : (s.setLaunch n l).vfs = s.vfs := rfl
@[simp] theorem State.setLaunch_smc (s : State) (n : Nat) (l : Launch) : (s.setLaunch n l).smc = s.smc := rfl
@[simp] theorem State.setLaunch_clockStopped (s : State) (n : Nat) (l : Launch) : (s.setLaunch n l).clockStopped = s.clockStopped := rfl

/-! `State.setVf` changes a function and no other field. -/

@[simp] theorem State.setVf_modid (s : State) (n : Nat) (v : Vf) : (s.setVf n v).modid = s.modid := rfl
@[simp] theorem State.setVf_focus (s : State) (n : Nat) (v : Vf) : (s.setVf n v).focus = s.focus := rfl
@[simp] theorem State.setVf_agenda (s : State) (n : Nat) (v : Vf) : (s.setVf n v).agenda = s.agenda := rfl
@[simp] theorem State.setVf_occ (s : State) (n : Nat) (v : Vf) : (s.setVf n v).occ = s.occ := rfl
@[simp] theorem State.setVf_timers (s : State) (n : Nat) (v : Vf) : (s.setVf n v).timers = s.timers := rfl
@[simp] theorem State.setVf_free (s : State) (n : Nat) (v : Vf) : (s.setVf n v).free = s.free := rfl
@[simp] theorem State.setVf_nextNo (s : State) (n : Nat) (v : Vf) : (s.setVf n v).nextNo = s.nextNo := rfl
@[simp] theorem State.setVf_ctxs (s : State) (n : Nat) (v : Vf) : (s.setVf n v).ctxs = s.ctxs := rfl
@[simp] theorem State.setVf_cores (s : State) (n : Nat) (v : Vf) : (s.setVf n v).cores = s.cores := rfl
@[simp] theorem State.setVf_homes (s : State) (n : Nat) (v : Vf) : (s.setVf n v).homes = s.homes := rfl
@[simp] theorem State.setVf_mem (s : State) (n : Nat) (v : Vf) : (s.setVf n v).mem = s.mem := rfl
@[simp] theorem State.setVf_poison (s : State) (n : Nat) (v : Vf) : (s.setVf n v).poison = s.poison := rfl
@[simp] theorem State.setVf_grans (s : State) (n : Nat) (v : Vf) : (s.setVf n v).grans = s.grans := rfl
@[simp] theorem State.setVf_reqs (s : State) (n : Nat) (v : Vf) : (s.setVf n v).reqs = s.reqs := rfl
@[simp] theorem State.setVf_parts (s : State) (n : Nat) (v : Vf) : (s.setVf n v).parts = s.parts := rfl
@[simp] theorem State.setVf_watches (s : State) (n : Nat) (v : Vf) : (s.setVf n v).watches = s.watches := rfl
@[simp] theorem State.setVf_ops (s : State) (n : Nat) (v : Vf) : (s.setVf n v).ops = s.ops := rfl
@[simp] theorem State.setVf_tdes (s : State) (n : Nat) (v : Vf) : (s.setVf n v).tdes = s.tdes := rfl
@[simp] theorem State.setVf_scopes (s : State) (n : Nat) (v : Vf) : (s.setVf n v).scopes = s.scopes := rfl
@[simp] theorem State.setVf_counts (s : State) (n : Nat) (v : Vf) : (s.setVf n v).counts = s.counts := rfl
@[simp] theorem State.setVf_scopeReqs (s : State) (n : Nat) (v : Vf) : (s.setVf n v).scopeReqs = s.scopeReqs := rfl
@[simp] theorem State.setVf_scnewCount (s : State) (n : Nat) (v : Vf) : (s.setVf n v).scnewCount = s.scnewCount := rfl
@[simp] theorem State.setVf_prunes (s : State) (n : Nat) (v : Vf) : (s.setVf n v).prunes = s.prunes := rfl
@[simp] theorem State.setVf_dss (s : State) (n : Nat) (v : Vf) : (s.setVf n v).dss = s.dss := rfl
@[simp] theorem State.setVf_launches (s : State) (n : Nat) (v : Vf) : (s.setVf n v).launches = s.launches := rfl
@[simp] theorem State.setVf_nextLaunch (s : State) (n : Nat) (v : Vf) : (s.setVf n v).nextLaunch = s.nextLaunch := rfl
@[simp] theorem State.setVf_lastPart (s : State) (n : Nat) (v : Vf) : (s.setVf n v).lastPart = s.lastPart := rfl
@[simp] theorem State.setVf_moving (s : State) (n : Nat) (v : Vf) : (s.setVf n v).moving = s.moving := rfl
@[simp] theorem State.setVf_fab (s : State) (n : Nat) (v : Vf) : (s.setVf n v).fab = s.fab := rfl
@[simp] theorem State.setVf_smc (s : State) (n : Nat) (v : Vf) : (s.setVf n v).smc = s.smc := rfl
@[simp] theorem State.setVf_clockStopped (s : State) (n : Nat) (v : Vf) : (s.setVf n v).clockStopped = s.clockStopped := rfl

/-! `State.log` changes the log of the SMC and no other field. -/

@[simp] theorem State.log_modid (s : State) (r : List Nat) : (s.log r).modid = s.modid := rfl
@[simp] theorem State.log_focus (s : State) (r : List Nat) : (s.log r).focus = s.focus := rfl
@[simp] theorem State.log_agenda (s : State) (r : List Nat) : (s.log r).agenda = s.agenda := rfl
@[simp] theorem State.log_occ (s : State) (r : List Nat) : (s.log r).occ = s.occ := rfl
@[simp] theorem State.log_timers (s : State) (r : List Nat) : (s.log r).timers = s.timers := rfl
@[simp] theorem State.log_free (s : State) (r : List Nat) : (s.log r).free = s.free := rfl
@[simp] theorem State.log_nextNo (s : State) (r : List Nat) : (s.log r).nextNo = s.nextNo := rfl
@[simp] theorem State.log_ctxs (s : State) (r : List Nat) : (s.log r).ctxs = s.ctxs := rfl
@[simp] theorem State.log_cores (s : State) (r : List Nat) : (s.log r).cores = s.cores := rfl
@[simp] theorem State.log_homes (s : State) (r : List Nat) : (s.log r).homes = s.homes := rfl
@[simp] theorem State.log_mem (s : State) (r : List Nat) : (s.log r).mem = s.mem := rfl
@[simp] theorem State.log_poison (s : State) (r : List Nat) : (s.log r).poison = s.poison := rfl
@[simp] theorem State.log_grans (s : State) (r : List Nat) : (s.log r).grans = s.grans := rfl
@[simp] theorem State.log_reqs (s : State) (r : List Nat) : (s.log r).reqs = s.reqs := rfl
@[simp] theorem State.log_parts (s : State) (r : List Nat) : (s.log r).parts = s.parts := rfl
@[simp] theorem State.log_watches (s : State) (r : List Nat) : (s.log r).watches = s.watches := rfl
@[simp] theorem State.log_ops (s : State) (r : List Nat) : (s.log r).ops = s.ops := rfl
@[simp] theorem State.log_tdes (s : State) (r : List Nat) : (s.log r).tdes = s.tdes := rfl
@[simp] theorem State.log_scopes (s : State) (r : List Nat) : (s.log r).scopes = s.scopes := rfl
@[simp] theorem State.log_counts (s : State) (r : List Nat) : (s.log r).counts = s.counts := rfl
@[simp] theorem State.log_scopeReqs (s : State) (r : List Nat) : (s.log r).scopeReqs = s.scopeReqs := rfl
@[simp] theorem State.log_scnewCount (s : State) (r : List Nat) : (s.log r).scnewCount = s.scnewCount := rfl
@[simp] theorem State.log_prunes (s : State) (r : List Nat) : (s.log r).prunes = s.prunes := rfl
@[simp] theorem State.log_dss (s : State) (r : List Nat) : (s.log r).dss = s.dss := rfl
@[simp] theorem State.log_launches (s : State) (r : List Nat) : (s.log r).launches = s.launches := rfl
@[simp] theorem State.log_nextLaunch (s : State) (r : List Nat) : (s.log r).nextLaunch = s.nextLaunch := rfl
@[simp] theorem State.log_lastPart (s : State) (r : List Nat) : (s.log r).lastPart = s.lastPart := rfl
@[simp] theorem State.log_moving (s : State) (r : List Nat) : (s.log r).moving = s.moving := rfl
@[simp] theorem State.log_fab (s : State) (r : List Nat) : (s.log r).fab = s.fab := rfl
@[simp] theorem State.log_vfs (s : State) (r : List Nat) : (s.log r).vfs = s.vfs := rfl
@[simp] theorem State.log_clockStopped (s : State) (r : List Nat) : (s.log r).clockStopped = s.clockStopped := rfl

/-! `State.onSmc` changes the SMC and no other field. -/

@[simp] theorem State.onSmc_modid (s : State) (f : Smc → Smc) : (s.onSmc f).modid = s.modid := rfl
@[simp] theorem State.onSmc_focus (s : State) (f : Smc → Smc) : (s.onSmc f).focus = s.focus := rfl
@[simp] theorem State.onSmc_agenda (s : State) (f : Smc → Smc) : (s.onSmc f).agenda = s.agenda := rfl
@[simp] theorem State.onSmc_occ (s : State) (f : Smc → Smc) : (s.onSmc f).occ = s.occ := rfl
@[simp] theorem State.onSmc_timers (s : State) (f : Smc → Smc) : (s.onSmc f).timers = s.timers := rfl
@[simp] theorem State.onSmc_free (s : State) (f : Smc → Smc) : (s.onSmc f).free = s.free := rfl
@[simp] theorem State.onSmc_nextNo (s : State) (f : Smc → Smc) : (s.onSmc f).nextNo = s.nextNo := rfl
@[simp] theorem State.onSmc_ctxs (s : State) (f : Smc → Smc) : (s.onSmc f).ctxs = s.ctxs := rfl
@[simp] theorem State.onSmc_cores (s : State) (f : Smc → Smc) : (s.onSmc f).cores = s.cores := rfl
@[simp] theorem State.onSmc_homes (s : State) (f : Smc → Smc) : (s.onSmc f).homes = s.homes := rfl
@[simp] theorem State.onSmc_mem (s : State) (f : Smc → Smc) : (s.onSmc f).mem = s.mem := rfl
@[simp] theorem State.onSmc_poison (s : State) (f : Smc → Smc) : (s.onSmc f).poison = s.poison := rfl
@[simp] theorem State.onSmc_grans (s : State) (f : Smc → Smc) : (s.onSmc f).grans = s.grans := rfl
@[simp] theorem State.onSmc_reqs (s : State) (f : Smc → Smc) : (s.onSmc f).reqs = s.reqs := rfl
@[simp] theorem State.onSmc_parts (s : State) (f : Smc → Smc) : (s.onSmc f).parts = s.parts := rfl
@[simp] theorem State.onSmc_watches (s : State) (f : Smc → Smc) : (s.onSmc f).watches = s.watches := rfl
@[simp] theorem State.onSmc_ops (s : State) (f : Smc → Smc) : (s.onSmc f).ops = s.ops := rfl
@[simp] theorem State.onSmc_tdes (s : State) (f : Smc → Smc) : (s.onSmc f).tdes = s.tdes := rfl
@[simp] theorem State.onSmc_scopes (s : State) (f : Smc → Smc) : (s.onSmc f).scopes = s.scopes := rfl
@[simp] theorem State.onSmc_counts (s : State) (f : Smc → Smc) : (s.onSmc f).counts = s.counts := rfl
@[simp] theorem State.onSmc_scopeReqs (s : State) (f : Smc → Smc) : (s.onSmc f).scopeReqs = s.scopeReqs := rfl
@[simp] theorem State.onSmc_scnewCount (s : State) (f : Smc → Smc) : (s.onSmc f).scnewCount = s.scnewCount := rfl
@[simp] theorem State.onSmc_prunes (s : State) (f : Smc → Smc) : (s.onSmc f).prunes = s.prunes := rfl
@[simp] theorem State.onSmc_dss (s : State) (f : Smc → Smc) : (s.onSmc f).dss = s.dss := rfl
@[simp] theorem State.onSmc_launches (s : State) (f : Smc → Smc) : (s.onSmc f).launches = s.launches := rfl
@[simp] theorem State.onSmc_nextLaunch (s : State) (f : Smc → Smc) : (s.onSmc f).nextLaunch = s.nextLaunch := rfl
@[simp] theorem State.onSmc_lastPart (s : State) (f : Smc → Smc) : (s.onSmc f).lastPart = s.lastPart := rfl
@[simp] theorem State.onSmc_moving (s : State) (f : Smc → Smc) : (s.onSmc f).moving = s.moving := rfl
@[simp] theorem State.onSmc_fab (s : State) (f : Smc → Smc) : (s.onSmc f).fab = s.fab := rfl
@[simp] theorem State.onSmc_vfs (s : State) (f : Smc → Smc) : (s.onSmc f).vfs = s.vfs := rfl
@[simp] theorem State.onSmc_clockStopped (s : State) (f : Smc → Smc) : (s.onSmc f).clockStopped = s.clockStopped := rfl

/-! `State.setStream` changes a stream and no other field. -/

@[simp] theorem State.setStream_modid (s : State) (k : Nat) (x : Stream) : (s.setStream k x).modid = s.modid := rfl
@[simp] theorem State.setStream_focus (s : State) (k : Nat) (x : Stream) : (s.setStream k x).focus = s.focus := rfl
@[simp] theorem State.setStream_agenda (s : State) (k : Nat) (x : Stream) : (s.setStream k x).agenda = s.agenda := rfl
@[simp] theorem State.setStream_occ (s : State) (k : Nat) (x : Stream) : (s.setStream k x).occ = s.occ := rfl
@[simp] theorem State.setStream_timers (s : State) (k : Nat) (x : Stream) : (s.setStream k x).timers = s.timers := rfl
@[simp] theorem State.setStream_free (s : State) (k : Nat) (x : Stream) : (s.setStream k x).free = s.free := rfl
@[simp] theorem State.setStream_nextNo (s : State) (k : Nat) (x : Stream) : (s.setStream k x).nextNo = s.nextNo := rfl
@[simp] theorem State.setStream_ctxs (s : State) (k : Nat) (x : Stream) : (s.setStream k x).ctxs = s.ctxs := rfl
@[simp] theorem State.setStream_cores (s : State) (k : Nat) (x : Stream) : (s.setStream k x).cores = s.cores := rfl
@[simp] theorem State.setStream_homes (s : State) (k : Nat) (x : Stream) : (s.setStream k x).homes = s.homes := rfl
@[simp] theorem State.setStream_mem (s : State) (k : Nat) (x : Stream) : (s.setStream k x).mem = s.mem := rfl
@[simp] theorem State.setStream_poison (s : State) (k : Nat) (x : Stream) : (s.setStream k x).poison = s.poison := rfl
@[simp] theorem State.setStream_grans (s : State) (k : Nat) (x : Stream) : (s.setStream k x).grans = s.grans := rfl
@[simp] theorem State.setStream_reqs (s : State) (k : Nat) (x : Stream) : (s.setStream k x).reqs = s.reqs := rfl
@[simp] theorem State.setStream_parts (s : State) (k : Nat) (x : Stream) : (s.setStream k x).parts = s.parts := rfl
@[simp] theorem State.setStream_watches (s : State) (k : Nat) (x : Stream) : (s.setStream k x).watches = s.watches := rfl
@[simp] theorem State.setStream_ops (s : State) (k : Nat) (x : Stream) : (s.setStream k x).ops = s.ops := rfl
@[simp] theorem State.setStream_tdes (s : State) (k : Nat) (x : Stream) : (s.setStream k x).tdes = s.tdes := rfl
@[simp] theorem State.setStream_scopes (s : State) (k : Nat) (x : Stream) : (s.setStream k x).scopes = s.scopes := rfl
@[simp] theorem State.setStream_counts (s : State) (k : Nat) (x : Stream) : (s.setStream k x).counts = s.counts := rfl
@[simp] theorem State.setStream_scopeReqs (s : State) (k : Nat) (x : Stream) : (s.setStream k x).scopeReqs = s.scopeReqs := rfl
@[simp] theorem State.setStream_scnewCount (s : State) (k : Nat) (x : Stream) : (s.setStream k x).scnewCount = s.scnewCount := rfl
@[simp] theorem State.setStream_prunes (s : State) (k : Nat) (x : Stream) : (s.setStream k x).prunes = s.prunes := rfl
@[simp] theorem State.setStream_dss (s : State) (k : Nat) (x : Stream) : (s.setStream k x).dss = s.dss := rfl
@[simp] theorem State.setStream_launches (s : State) (k : Nat) (x : Stream) : (s.setStream k x).launches = s.launches := rfl
@[simp] theorem State.setStream_nextLaunch (s : State) (k : Nat) (x : Stream) : (s.setStream k x).nextLaunch = s.nextLaunch := rfl
@[simp] theorem State.setStream_lastPart (s : State) (k : Nat) (x : Stream) : (s.setStream k x).lastPart = s.lastPart := rfl
@[simp] theorem State.setStream_moving (s : State) (k : Nat) (x : Stream) : (s.setStream k x).moving = s.moving := rfl
@[simp] theorem State.setStream_vfs (s : State) (k : Nat) (x : Stream) : (s.setStream k x).vfs = s.vfs := rfl
@[simp] theorem State.setStream_smc (s : State) (k : Nat) (x : Stream) : (s.setStream k x).smc = s.smc := rfl
@[simp] theorem State.setStream_clockStopped (s : State) (k : Nat) (x : Stream) : (s.setStream k x).clockStopped = s.clockStopped := rfl

/-! `State.setNet` changes a message on its way and no other field. -/

@[simp] theorem State.setNet_modid (s : State) (m : NetMsg) : (s.setNet m).modid = s.modid := rfl
@[simp] theorem State.setNet_focus (s : State) (m : NetMsg) : (s.setNet m).focus = s.focus := rfl
@[simp] theorem State.setNet_agenda (s : State) (m : NetMsg) : (s.setNet m).agenda = s.agenda := rfl
@[simp] theorem State.setNet_occ (s : State) (m : NetMsg) : (s.setNet m).occ = s.occ := rfl
@[simp] theorem State.setNet_timers (s : State) (m : NetMsg) : (s.setNet m).timers = s.timers := rfl
@[simp] theorem State.setNet_free (s : State) (m : NetMsg) : (s.setNet m).free = s.free := rfl
@[simp] theorem State.setNet_nextNo (s : State) (m : NetMsg) : (s.setNet m).nextNo = s.nextNo := rfl
@[simp] theorem State.setNet_ctxs (s : State) (m : NetMsg) : (s.setNet m).ctxs = s.ctxs := rfl
@[simp] theorem State.setNet_cores (s : State) (m : NetMsg) : (s.setNet m).cores = s.cores := rfl
@[simp] theorem State.setNet_homes (s : State) (m : NetMsg) : (s.setNet m).homes = s.homes := rfl
@[simp] theorem State.setNet_mem (s : State) (m : NetMsg) : (s.setNet m).mem = s.mem := rfl
@[simp] theorem State.setNet_poison (s : State) (m : NetMsg) : (s.setNet m).poison = s.poison := rfl
@[simp] theorem State.setNet_grans (s : State) (m : NetMsg) : (s.setNet m).grans = s.grans := rfl
@[simp] theorem State.setNet_reqs (s : State) (m : NetMsg) : (s.setNet m).reqs = s.reqs := rfl
@[simp] theorem State.setNet_parts (s : State) (m : NetMsg) : (s.setNet m).parts = s.parts := rfl
@[simp] theorem State.setNet_watches (s : State) (m : NetMsg) : (s.setNet m).watches = s.watches := rfl
@[simp] theorem State.setNet_ops (s : State) (m : NetMsg) : (s.setNet m).ops = s.ops := rfl
@[simp] theorem State.setNet_tdes (s : State) (m : NetMsg) : (s.setNet m).tdes = s.tdes := rfl
@[simp] theorem State.setNet_scopes (s : State) (m : NetMsg) : (s.setNet m).scopes = s.scopes := rfl
@[simp] theorem State.setNet_counts (s : State) (m : NetMsg) : (s.setNet m).counts = s.counts := rfl
@[simp] theorem State.setNet_scopeReqs (s : State) (m : NetMsg) : (s.setNet m).scopeReqs = s.scopeReqs := rfl
@[simp] theorem State.setNet_scnewCount (s : State) (m : NetMsg) : (s.setNet m).scnewCount = s.scnewCount := rfl
@[simp] theorem State.setNet_prunes (s : State) (m : NetMsg) : (s.setNet m).prunes = s.prunes := rfl
@[simp] theorem State.setNet_dss (s : State) (m : NetMsg) : (s.setNet m).dss = s.dss := rfl
@[simp] theorem State.setNet_launches (s : State) (m : NetMsg) : (s.setNet m).launches = s.launches := rfl
@[simp] theorem State.setNet_nextLaunch (s : State) (m : NetMsg) : (s.setNet m).nextLaunch = s.nextLaunch := rfl
@[simp] theorem State.setNet_lastPart (s : State) (m : NetMsg) : (s.setNet m).lastPart = s.lastPart := rfl
@[simp] theorem State.setNet_moving (s : State) (m : NetMsg) : (s.setNet m).moving = s.moving := rfl
@[simp] theorem State.setNet_vfs (s : State) (m : NetMsg) : (s.setNet m).vfs = s.vfs := rfl
@[simp] theorem State.setNet_smc (s : State) (m : NetMsg) : (s.setNet m).smc = s.smc := rfl
@[simp] theorem State.setNet_clockStopped (s : State) (m : NetMsg) : (s.setNet m).clockStopped = s.clockStopped := rfl

/-! `State.delNet` changes the messages on their way and the counts and no other field. -/

@[simp] theorem State.delNet_modid (s : State) (n : Nat) : (s.delNet n).modid = s.modid := rfl
@[simp] theorem State.delNet_focus (s : State) (n : Nat) : (s.delNet n).focus = s.focus := rfl
@[simp] theorem State.delNet_agenda (s : State) (n : Nat) : (s.delNet n).agenda = s.agenda := rfl
@[simp] theorem State.delNet_occ (s : State) (n : Nat) : (s.delNet n).occ = s.occ := rfl
@[simp] theorem State.delNet_timers (s : State) (n : Nat) : (s.delNet n).timers = s.timers := rfl
@[simp] theorem State.delNet_free (s : State) (n : Nat) : (s.delNet n).free = s.free := rfl
@[simp] theorem State.delNet_nextNo (s : State) (n : Nat) : (s.delNet n).nextNo = s.nextNo := rfl
@[simp] theorem State.delNet_ctxs (s : State) (n : Nat) : (s.delNet n).ctxs = s.ctxs := rfl
@[simp] theorem State.delNet_cores (s : State) (n : Nat) : (s.delNet n).cores = s.cores := rfl
@[simp] theorem State.delNet_homes (s : State) (n : Nat) : (s.delNet n).homes = s.homes := rfl
@[simp] theorem State.delNet_mem (s : State) (n : Nat) : (s.delNet n).mem = s.mem := rfl
@[simp] theorem State.delNet_poison (s : State) (n : Nat) : (s.delNet n).poison = s.poison := rfl
@[simp] theorem State.delNet_grans (s : State) (n : Nat) : (s.delNet n).grans = s.grans := rfl
@[simp] theorem State.delNet_reqs (s : State) (n : Nat) : (s.delNet n).reqs = s.reqs := rfl
@[simp] theorem State.delNet_parts (s : State) (n : Nat) : (s.delNet n).parts = s.parts := rfl
@[simp] theorem State.delNet_watches (s : State) (n : Nat) : (s.delNet n).watches = s.watches := rfl
@[simp] theorem State.delNet_ops (s : State) (n : Nat) : (s.delNet n).ops = s.ops := rfl
@[simp] theorem State.delNet_tdes (s : State) (n : Nat) : (s.delNet n).tdes = s.tdes := rfl
@[simp] theorem State.delNet_scopes (s : State) (n : Nat) : (s.delNet n).scopes = s.scopes := rfl
@[simp] theorem State.delNet_scopeReqs (s : State) (n : Nat) : (s.delNet n).scopeReqs = s.scopeReqs := rfl
@[simp] theorem State.delNet_scnewCount (s : State) (n : Nat) : (s.delNet n).scnewCount = s.scnewCount := rfl
@[simp] theorem State.delNet_prunes (s : State) (n : Nat) : (s.delNet n).prunes = s.prunes := rfl
@[simp] theorem State.delNet_dss (s : State) (n : Nat) : (s.delNet n).dss = s.dss := rfl
@[simp] theorem State.delNet_launches (s : State) (n : Nat) : (s.delNet n).launches = s.launches := rfl
@[simp] theorem State.delNet_nextLaunch (s : State) (n : Nat) : (s.delNet n).nextLaunch = s.nextLaunch := rfl
@[simp] theorem State.delNet_lastPart (s : State) (n : Nat) : (s.delNet n).lastPart = s.lastPart := rfl
@[simp] theorem State.delNet_moving (s : State) (n : Nat) : (s.delNet n).moving = s.moving := rfl
@[simp] theorem State.delNet_vfs (s : State) (n : Nat) : (s.delNet n).vfs = s.vfs := rfl
@[simp] theorem State.delNet_smc (s : State) (n : Nat) : (s.delNet n).smc = s.smc := rfl
@[simp] theorem State.delNet_clockStopped (s : State) (n : Nat) : (s.delNet n).clockStopped = s.clockStopped := rfl

/-! `State.setPeer` changes a peer and no other field. -/

@[simp] theorem State.setPeer_modid (s : State) (n : Nat) (p : Peer) : (s.setPeer n p).modid = s.modid := rfl
@[simp] theorem State.setPeer_focus (s : State) (n : Nat) (p : Peer) : (s.setPeer n p).focus = s.focus := rfl
@[simp] theorem State.setPeer_agenda (s : State) (n : Nat) (p : Peer) : (s.setPeer n p).agenda = s.agenda := rfl
@[simp] theorem State.setPeer_occ (s : State) (n : Nat) (p : Peer) : (s.setPeer n p).occ = s.occ := rfl
@[simp] theorem State.setPeer_timers (s : State) (n : Nat) (p : Peer) : (s.setPeer n p).timers = s.timers := rfl
@[simp] theorem State.setPeer_free (s : State) (n : Nat) (p : Peer) : (s.setPeer n p).free = s.free := rfl
@[simp] theorem State.setPeer_nextNo (s : State) (n : Nat) (p : Peer) : (s.setPeer n p).nextNo = s.nextNo := rfl
@[simp] theorem State.setPeer_ctxs (s : State) (n : Nat) (p : Peer) : (s.setPeer n p).ctxs = s.ctxs := rfl
@[simp] theorem State.setPeer_cores (s : State) (n : Nat) (p : Peer) : (s.setPeer n p).cores = s.cores := rfl
@[simp] theorem State.setPeer_homes (s : State) (n : Nat) (p : Peer) : (s.setPeer n p).homes = s.homes := rfl
@[simp] theorem State.setPeer_mem (s : State) (n : Nat) (p : Peer) : (s.setPeer n p).mem = s.mem := rfl
@[simp] theorem State.setPeer_poison (s : State) (n : Nat) (p : Peer) : (s.setPeer n p).poison = s.poison := rfl
@[simp] theorem State.setPeer_grans (s : State) (n : Nat) (p : Peer) : (s.setPeer n p).grans = s.grans := rfl
@[simp] theorem State.setPeer_reqs (s : State) (n : Nat) (p : Peer) : (s.setPeer n p).reqs = s.reqs := rfl
@[simp] theorem State.setPeer_parts (s : State) (n : Nat) (p : Peer) : (s.setPeer n p).parts = s.parts := rfl
@[simp] theorem State.setPeer_watches (s : State) (n : Nat) (p : Peer) : (s.setPeer n p).watches = s.watches := rfl
@[simp] theorem State.setPeer_ops (s : State) (n : Nat) (p : Peer) : (s.setPeer n p).ops = s.ops := rfl
@[simp] theorem State.setPeer_tdes (s : State) (n : Nat) (p : Peer) : (s.setPeer n p).tdes = s.tdes := rfl
@[simp] theorem State.setPeer_scopes (s : State) (n : Nat) (p : Peer) : (s.setPeer n p).scopes = s.scopes := rfl
@[simp] theorem State.setPeer_counts (s : State) (n : Nat) (p : Peer) : (s.setPeer n p).counts = s.counts := rfl
@[simp] theorem State.setPeer_scopeReqs (s : State) (n : Nat) (p : Peer) : (s.setPeer n p).scopeReqs = s.scopeReqs := rfl
@[simp] theorem State.setPeer_scnewCount (s : State) (n : Nat) (p : Peer) : (s.setPeer n p).scnewCount = s.scnewCount := rfl
@[simp] theorem State.setPeer_prunes (s : State) (n : Nat) (p : Peer) : (s.setPeer n p).prunes = s.prunes := rfl
@[simp] theorem State.setPeer_dss (s : State) (n : Nat) (p : Peer) : (s.setPeer n p).dss = s.dss := rfl
@[simp] theorem State.setPeer_launches (s : State) (n : Nat) (p : Peer) : (s.setPeer n p).launches = s.launches := rfl
@[simp] theorem State.setPeer_nextLaunch (s : State) (n : Nat) (p : Peer) : (s.setPeer n p).nextLaunch = s.nextLaunch := rfl
@[simp] theorem State.setPeer_lastPart (s : State) (n : Nat) (p : Peer) : (s.setPeer n p).lastPart = s.lastPart := rfl
@[simp] theorem State.setPeer_moving (s : State) (n : Nat) (p : Peer) : (s.setPeer n p).moving = s.moving := rfl
@[simp] theorem State.setPeer_vfs (s : State) (n : Nat) (p : Peer) : (s.setPeer n p).vfs = s.vfs := rfl
@[simp] theorem State.setPeer_smc (s : State) (n : Nat) (p : Peer) : (s.setPeer n p).smc = s.smc := rfl
@[simp] theorem State.setPeer_clockStopped (s : State) (n : Nat) (p : Peer) : (s.setPeer n p).clockStopped = s.clockStopped := rfl

/-! `State.setPort` changes a port and no other field. -/

@[simp] theorem State.setPort_modid (s : State) (n : Nat) (p : Port) : (s.setPort n p).modid = s.modid := rfl
@[simp] theorem State.setPort_focus (s : State) (n : Nat) (p : Port) : (s.setPort n p).focus = s.focus := rfl
@[simp] theorem State.setPort_agenda (s : State) (n : Nat) (p : Port) : (s.setPort n p).agenda = s.agenda := rfl
@[simp] theorem State.setPort_occ (s : State) (n : Nat) (p : Port) : (s.setPort n p).occ = s.occ := rfl
@[simp] theorem State.setPort_timers (s : State) (n : Nat) (p : Port) : (s.setPort n p).timers = s.timers := rfl
@[simp] theorem State.setPort_free (s : State) (n : Nat) (p : Port) : (s.setPort n p).free = s.free := rfl
@[simp] theorem State.setPort_nextNo (s : State) (n : Nat) (p : Port) : (s.setPort n p).nextNo = s.nextNo := rfl
@[simp] theorem State.setPort_ctxs (s : State) (n : Nat) (p : Port) : (s.setPort n p).ctxs = s.ctxs := rfl
@[simp] theorem State.setPort_cores (s : State) (n : Nat) (p : Port) : (s.setPort n p).cores = s.cores := rfl
@[simp] theorem State.setPort_homes (s : State) (n : Nat) (p : Port) : (s.setPort n p).homes = s.homes := rfl
@[simp] theorem State.setPort_mem (s : State) (n : Nat) (p : Port) : (s.setPort n p).mem = s.mem := rfl
@[simp] theorem State.setPort_poison (s : State) (n : Nat) (p : Port) : (s.setPort n p).poison = s.poison := rfl
@[simp] theorem State.setPort_grans (s : State) (n : Nat) (p : Port) : (s.setPort n p).grans = s.grans := rfl
@[simp] theorem State.setPort_reqs (s : State) (n : Nat) (p : Port) : (s.setPort n p).reqs = s.reqs := rfl
@[simp] theorem State.setPort_parts (s : State) (n : Nat) (p : Port) : (s.setPort n p).parts = s.parts := rfl
@[simp] theorem State.setPort_watches (s : State) (n : Nat) (p : Port) : (s.setPort n p).watches = s.watches := rfl
@[simp] theorem State.setPort_ops (s : State) (n : Nat) (p : Port) : (s.setPort n p).ops = s.ops := rfl
@[simp] theorem State.setPort_tdes (s : State) (n : Nat) (p : Port) : (s.setPort n p).tdes = s.tdes := rfl
@[simp] theorem State.setPort_scopes (s : State) (n : Nat) (p : Port) : (s.setPort n p).scopes = s.scopes := rfl
@[simp] theorem State.setPort_counts (s : State) (n : Nat) (p : Port) : (s.setPort n p).counts = s.counts := rfl
@[simp] theorem State.setPort_scopeReqs (s : State) (n : Nat) (p : Port) : (s.setPort n p).scopeReqs = s.scopeReqs := rfl
@[simp] theorem State.setPort_scnewCount (s : State) (n : Nat) (p : Port) : (s.setPort n p).scnewCount = s.scnewCount := rfl
@[simp] theorem State.setPort_prunes (s : State) (n : Nat) (p : Port) : (s.setPort n p).prunes = s.prunes := rfl
@[simp] theorem State.setPort_dss (s : State) (n : Nat) (p : Port) : (s.setPort n p).dss = s.dss := rfl
@[simp] theorem State.setPort_launches (s : State) (n : Nat) (p : Port) : (s.setPort n p).launches = s.launches := rfl
@[simp] theorem State.setPort_nextLaunch (s : State) (n : Nat) (p : Port) : (s.setPort n p).nextLaunch = s.nextLaunch := rfl
@[simp] theorem State.setPort_lastPart (s : State) (n : Nat) (p : Port) : (s.setPort n p).lastPart = s.lastPart := rfl
@[simp] theorem State.setPort_moving (s : State) (n : Nat) (p : Port) : (s.setPort n p).moving = s.moving := rfl
@[simp] theorem State.setPort_vfs (s : State) (n : Nat) (p : Port) : (s.setPort n p).vfs = s.vfs := rfl
@[simp] theorem State.setPort_smc (s : State) (n : Nat) (p : Port) : (s.setPort n p).smc = s.smc := rfl
@[simp] theorem State.setPort_clockStopped (s : State) (n : Nat) (p : Port) : (s.setPort n p).clockStopped = s.clockStopped := rfl

/-! `State.linkSend` changes the flits sent and no other field. -/

@[simp] theorem State.linkSend_modid (s : State) (n : Nat) (f : List Byte) : (s.linkSend n f).modid = s.modid := rfl
@[simp] theorem State.linkSend_focus (s : State) (n : Nat) (f : List Byte) : (s.linkSend n f).focus = s.focus := rfl
@[simp] theorem State.linkSend_agenda (s : State) (n : Nat) (f : List Byte) : (s.linkSend n f).agenda = s.agenda := rfl
@[simp] theorem State.linkSend_occ (s : State) (n : Nat) (f : List Byte) : (s.linkSend n f).occ = s.occ := rfl
@[simp] theorem State.linkSend_timers (s : State) (n : Nat) (f : List Byte) : (s.linkSend n f).timers = s.timers := rfl
@[simp] theorem State.linkSend_free (s : State) (n : Nat) (f : List Byte) : (s.linkSend n f).free = s.free := rfl
@[simp] theorem State.linkSend_nextNo (s : State) (n : Nat) (f : List Byte) : (s.linkSend n f).nextNo = s.nextNo := rfl
@[simp] theorem State.linkSend_ctxs (s : State) (n : Nat) (f : List Byte) : (s.linkSend n f).ctxs = s.ctxs := rfl
@[simp] theorem State.linkSend_cores (s : State) (n : Nat) (f : List Byte) : (s.linkSend n f).cores = s.cores := rfl
@[simp] theorem State.linkSend_homes (s : State) (n : Nat) (f : List Byte) : (s.linkSend n f).homes = s.homes := rfl
@[simp] theorem State.linkSend_mem (s : State) (n : Nat) (f : List Byte) : (s.linkSend n f).mem = s.mem := rfl
@[simp] theorem State.linkSend_poison (s : State) (n : Nat) (f : List Byte) : (s.linkSend n f).poison = s.poison := rfl
@[simp] theorem State.linkSend_grans (s : State) (n : Nat) (f : List Byte) : (s.linkSend n f).grans = s.grans := rfl
@[simp] theorem State.linkSend_reqs (s : State) (n : Nat) (f : List Byte) : (s.linkSend n f).reqs = s.reqs := rfl
@[simp] theorem State.linkSend_parts (s : State) (n : Nat) (f : List Byte) : (s.linkSend n f).parts = s.parts := rfl
@[simp] theorem State.linkSend_watches (s : State) (n : Nat) (f : List Byte) : (s.linkSend n f).watches = s.watches := rfl
@[simp] theorem State.linkSend_ops (s : State) (n : Nat) (f : List Byte) : (s.linkSend n f).ops = s.ops := rfl
@[simp] theorem State.linkSend_tdes (s : State) (n : Nat) (f : List Byte) : (s.linkSend n f).tdes = s.tdes := rfl
@[simp] theorem State.linkSend_scopes (s : State) (n : Nat) (f : List Byte) : (s.linkSend n f).scopes = s.scopes := rfl
@[simp] theorem State.linkSend_counts (s : State) (n : Nat) (f : List Byte) : (s.linkSend n f).counts = s.counts := rfl
@[simp] theorem State.linkSend_scopeReqs (s : State) (n : Nat) (f : List Byte) : (s.linkSend n f).scopeReqs = s.scopeReqs := rfl
@[simp] theorem State.linkSend_scnewCount (s : State) (n : Nat) (f : List Byte) : (s.linkSend n f).scnewCount = s.scnewCount := rfl
@[simp] theorem State.linkSend_prunes (s : State) (n : Nat) (f : List Byte) : (s.linkSend n f).prunes = s.prunes := rfl
@[simp] theorem State.linkSend_dss (s : State) (n : Nat) (f : List Byte) : (s.linkSend n f).dss = s.dss := rfl
@[simp] theorem State.linkSend_launches (s : State) (n : Nat) (f : List Byte) : (s.linkSend n f).launches = s.launches := rfl
@[simp] theorem State.linkSend_nextLaunch (s : State) (n : Nat) (f : List Byte) : (s.linkSend n f).nextLaunch = s.nextLaunch := rfl
@[simp] theorem State.linkSend_lastPart (s : State) (n : Nat) (f : List Byte) : (s.linkSend n f).lastPart = s.lastPart := rfl
@[simp] theorem State.linkSend_moving (s : State) (n : Nat) (f : List Byte) : (s.linkSend n f).moving = s.moving := rfl
@[simp] theorem State.linkSend_vfs (s : State) (n : Nat) (f : List Byte) : (s.linkSend n f).vfs = s.vfs := rfl
@[simp] theorem State.linkSend_smc (s : State) (n : Nat) (f : List Byte) : (s.linkSend n f).smc = s.smc := rfl
@[simp] theorem State.linkSend_clockStopped (s : State) (n : Nat) (f : List Byte) : (s.linkSend n f).clockStopped = s.clockStopped := rfl

/-! ### Tables -/

/-- What a key reads after it was set. -/
@[simp] theorem tget_tset_same {α : Type} (t : Table α) (n : Nat) (x : α) : tget (tset t n x) n = some x := by
  induction t with
  | nil => simp [tset, tget]
  | cons e r ih =>
    obtain ⟨k, v⟩ := e
    simp only [tset]
    split
    · simp [tget]
    · split
      · simp [tget]
      · rename_i h1 h2
        simp [tget, Ne.symm h2, ih]
/-- Setting one key leaves the others. -/
theorem tget_tset_ne {α : Type} (t : Table α) (m n : Nat) (x : α) (h : m ≠ n) : tget (tset t n x) m = tget t m := by
  induction t with
  | nil => simp [tset, tget, Ne.symm h]
  | cons e r ih =>
    obtain ⟨k, v⟩ := e
    simp only [tset]
    split
    · simp [tget, Ne.symm h]
    · split
      · rename_i h1 h2
        subst h2
        simp [tget, Ne.symm h]
      · simp [tget, ih]

/-! ### Reading back -/

@[simp] theorem State.ctx_setCtx_same (s : State) (core k : Nat) (c : Ctx) : (s.setCtx core k c).ctx core k = c := by
  simp [State.ctx, State.setCtx]
theorem ckey_inj {c k c' k' : Nat} (hk : k < 17) (hk' : k' < 17) (h : ckey c k = ckey c' k') : c = c' ∧ k = k' := by
  simp only [ckey] at h; omega
/-- Setting one context leaves the others. -/
theorem State.ctx_setCtx_ne (s : State) {core k core' k' : Nat} (c : Ctx) (hk : k < 17) (hk' : k' < 17)
    (h : ¬(core' = core ∧ k' = k)) : (s.setCtx core k c).ctx core' k' = s.ctx core' k' := by
  have : ckey core' k' ≠ ckey core k := fun e => h (ckey_inj hk' hk e)
  simp [State.ctx, State.setCtx, tget_tset_ne _ _ _ _ this]
@[simp] theorem State.fcore_of (s : State) (core k : Nat) (c : Ctx) : (s.setCtx core k c).fcore = s.fcore := rfl
@[simp] theorem State.fctx_of (s : State) (core k : Nat) (c : Ctx) : (s.setCtx core k c).fctx = s.fctx := rfl
@[simp] theorem State.fcore_setCur (s : State) (c : Ctx) : (s.setCur c).fcore = s.fcore := rfl
@[simp] theorem State.fctx_setCur (s : State) (c : Ctx) : (s.setCur c).fctx = s.fctx := rfl
@[simp] theorem State.cur_setCur (s : State) (c : Ctx) : (s.setCur c).cur = c := by
  simp [State.cur, State.setCur, State.ctx, State.setCtx, State.fcore, State.fctx]
@[simp] theorem State.cur_finish (s : State) : s.finish.cur = { s.cur with fin := true } := by simp [State.finish]
@[simp] theorem State.core_setCore_same (s : State) (n : Nat) (c : Core) : (s.setCore n c).core n = c := by simp [State.core, State.setCore]
@[simp] theorem State.home_setHome_same (s : State) (n : Nat) (c : Home) : (s.setHome n c).home n = c := by simp [State.home, State.setHome]
@[simp] theorem State.part_setPart_same (s : State) (n : Nat) (p : Partition) : (s.setPart n p).part n = p := by simp [State.part, State.setPart]
@[simp] theorem State.op_setOp_same (s : State) (n : Nat) (o : Op) : (s.setOp n o).op n = some o := by simp [State.op, State.setOp]
@[simp] theorem State.req_setReq_same (s : State) (r : Req) : (s.setReq r).req r.no = some r := by simp [State.req, State.setReq]
@[simp] theorem State.ds_setDs_same (s : State) (n : Nat) (d : Ds) : (s.setDs n d).ds n = d := by simp [State.ds, State.setDs]
@[simp] theorem State.scope_setScope_same (s : State) (p : Nat) (id : BitVec 16) (e : ScopeEnt) : (s.setScope p id e).scope p id = e := by
  simp [State.scope, State.setScope]

end Sys2Proof.Machine
end

