-- ==== Sys2Proof/Laws/Memory.lean ====
section
/-! SUPPORT. The laws of memory: every operation keeps the canonical form, a byte read after a write is the byte written, and a write leaves every
other byte alone. -/

namespace Sys2Proof.Machine

/-! ### The canonical form -/

theorem wfFrom_mono {lo lo' : Nat} {m : Memory} (h : lo' ≤ lo) (hm : Memory.wfFrom lo m = true) : Memory.wfFrom lo' m = true := by
  cases m with
  | nil => rfl
  | cons e r =>
    obtain ⟨a, v⟩ := e
    simp only [Memory.wfFrom, Bool.and_eq_true, decide_eq_true_eq] at hm ⊢
    exact ⟨⟨by omega, hm.1.2⟩, hm.2⟩
/-- Every listed address is below a bound. -/
def memBelow (hi : Nat) (m : Memory) : Prop := ∀ e ∈ m, e.1 < hi
theorem memCells_wf (a : Nat) (bs : List Byte) : Memory.wfFrom a (memCells a bs) = true := by
  induction bs generalizing a with
  | nil => rfl
  | cons b r ih =>
    simp only [memCells]
    split
    · exact wfFrom_mono (Nat.le_succ a) (ih (a + 1))
    · simp_all [Memory.wfFrom]
theorem memCells_below (a : Nat) (bs : List Byte) : memBelow (a + bs.length) (memCells a bs) := by
  induction bs generalizing a with
  | nil => simp [memBelow, memCells]
  | cons b r ih =>
    have := ih (a + 1)
    simp only [memCells, memBelow, List.length_cons] at this ⊢
    split
    · intro e he; have := this e he; omega
    · intro e he
      rcases List.mem_cons.1 he with rfl | he
      · simp
      · have := this e he; omega
theorem memFrom_wf {lo : Nat} (a : Nat) {m : Memory} (hm : Memory.wfFrom lo m = true) : Memory.wfFrom (max lo a) (memFrom m a) = true := by
  induction m generalizing lo with
  | nil => rfl
  | cons e r ih =>
    obtain ⟨b, w⟩ := e
    simp only [Memory.wfFrom, Bool.and_eq_true, decide_eq_true_eq] at hm
    simp only [memFrom]
    split
    · exact wfFrom_mono (by omega) (ih hm.2)
    · simp only [Memory.wfFrom, Bool.and_eq_true, decide_eq_true_eq]
      exact ⟨⟨by omega, hm.1.2⟩, hm.2⟩
theorem append_wf {lo hi : Nat} {cs m : Memory} (hc : Memory.wfFrom lo cs = true) (hb : memBelow hi cs) (hm : Memory.wfFrom hi m = true) (hl : lo ≤ hi) :
    Memory.wfFrom lo (cs ++ m) = true := by
  induction cs generalizing lo with
  | nil => exact wfFrom_mono hl hm
  | cons e r ih =>
    obtain ⟨a, v⟩ := e
    simp only [Memory.wfFrom, Bool.and_eq_true, decide_eq_true_eq, List.cons_append] at hc ⊢
    have ha : a < hi := hb (a, v) (by simp)
    exact ⟨hc.1, ih hc.2 (fun e he => hb e (by simp [he])) (by omega)⟩
theorem memSplice_wf {lo a n : Nat} {m cs : Memory} (hm : Memory.wfFrom lo m = true) (hc : Memory.wfFrom a cs = true) (hb : memBelow (a + n) cs) :
    Memory.wfFrom (min lo a) (memSplice m a n cs) = true := by
  induction m generalizing lo with
  | nil => exact wfFrom_mono (by omega) hc
  | cons e r ih =>
    obtain ⟨b, w⟩ := e
    simp only [memSplice]
    split
    · rename_i h
      simp only [Memory.wfFrom, Bool.and_eq_true, decide_eq_true_eq] at hm ⊢
      refine ⟨⟨by omega, hm.1.2⟩, ?_⟩
      exact wfFrom_mono (by omega) (ih hm.2)
    · rename_i h
      refine wfFrom_mono (Nat.min_le_right lo a) (append_wf hc hb ?_ (by omega))
      exact wfFrom_mono (by omega) (memFrom_wf (a + n) hm)
/-- A write of a run of bytes keeps the canonical form. -/
theorem memWrite_wf {m : Memory} (a : Nat) (bs : List Byte) (h : Memory.wf m = true) : Memory.wf (memWrite m a bs) = true :=
  wfFrom_mono (Nat.zero_le _) (memSplice_wf h (memCells_wf a bs) (memCells_below a bs))
/-- Zeroing a run of bytes keeps the canonical form. -/
theorem memZero_wf {m : Memory} (a n : Nat) (h : Memory.wf m = true) : Memory.wf (memZero m a n) = true :=
  wfFrom_mono (Nat.zero_le _) (memSplice_wf h rfl (by simp [memBelow]))
theorem memSet_wfFrom {lo a : Nat} {m : Memory} (v : Byte) (h : Memory.wfFrom lo m = true) (hl : lo ≤ a) : Memory.wfFrom lo (memSet m a v) = true := by
  induction m generalizing lo with
  | nil =>
    simp only [memSet]
    split
    · rfl
    · rename_i hv
      simp only [Memory.wfFrom, Bool.and_eq_true, decide_eq_true_eq, bne_iff_ne]
      exact ⟨⟨hl, hv⟩, trivial⟩
  | cons e r ih =>
    obtain ⟨b, w⟩ := e
    have h0 := h
    simp only [Memory.wfFrom, Bool.and_eq_true, decide_eq_true_eq] at h
    simp only [memSet]
    split
    · split
      · exact h0
      · simp only [Memory.wfFrom, Bool.and_eq_true, decide_eq_true_eq]
        exact ⟨⟨hl, by simp_all⟩, ⟨by omega, h.1.2⟩, h.2⟩
    · split
      · subst a
        split
        · exact wfFrom_mono (by omega) h.2
        · simp only [Memory.wfFrom, Bool.and_eq_true, decide_eq_true_eq]
          exact ⟨⟨hl, by simp_all⟩, h.2⟩
      · simp only [Memory.wfFrom, Bool.and_eq_true, decide_eq_true_eq]
        exact ⟨h.1, ih h.2 (by omega)⟩
/-- Writing one byte keeps the canonical form. -/
theorem memSet_wf {m : Memory} (a : Nat) (v : Byte) (h : Memory.wf m = true) : Memory.wf (memSet m a v) = true :=
  memSet_wfFrom v h (Nat.zero_le _)
/-- Memory right after reset has the canonical form. -/
theorem reset_mem_wf : Memory.wf State.reset.mem = true := rfl
theorem wrB_wf {s : State} (a : Nat) (bs : List Byte) (h : Memory.wf s.mem = true) : Memory.wf (s.wrB a bs).mem = true := memWrite_wf a bs h
theorem wr_wf {s : State} (a n v : Nat) (h : Memory.wf s.mem = true) : Memory.wf (s.wr a n v).mem = true := memWrite_wf a _ h
theorem store_wf {s : State} (a : Nat) (bs : List Byte) (h : Memory.wf s.mem = true) : Memory.wf (s.store a bs).mem = true := memWrite_wf a bs h

/-! ### Reading what was written -/

theorem memGet_lt {lo x : Nat} {m : Memory} (hm : Memory.wfFrom lo m = true) (hx : x < lo) : memGet m x = 0 := by
  cases m with
  | nil => rfl
  | cons e r =>
    obtain ⟨a, v⟩ := e
    simp only [Memory.wfFrom, Bool.and_eq_true, decide_eq_true_eq] at hm
    have : a ≠ x := by omega
    have : x < a := by omega
    simp [memGet, *]
theorem memGet_append {lo hi x : Nat} {cs m : Memory} (hc : Memory.wfFrom lo cs = true) (hb : memBelow hi cs) (hm : Memory.wfFrom hi m = true) :
    memGet (cs ++ m) x = if x < hi then memGet cs x else memGet m x := by
  induction cs generalizing lo with
  | nil =>
    split
    · rename_i h; simpa [memGet] using memGet_lt hm h
    · rfl
  | cons e r ih =>
    obtain ⟨a, v⟩ := e
    simp only [Memory.wfFrom, Bool.and_eq_true, decide_eq_true_eq] at hc
    have ha : a < hi := hb (a, v) (by simp)
    have ih := ih hc.2 (fun e he => hb e (by simp [he]))
    simp only [List.cons_append, memGet, ih]
    by_cases h1 : a = x
    · subst h1; simp [ha]
    · by_cases h2 : x < a
      · have : x < hi := by omega
        simp [h1, h2, this]
      · by_cases h3 : x < hi <;> simp [h1, h2, h3]
theorem memGet_memCells (a x : Nat) (bs : List Byte) : memGet (memCells a bs) x = if a ≤ x then bs.getD (x - a) 0 else 0 := by
  induction bs generalizing a with
  | nil => simp [memCells, memGet]
  | cons b r ih =>
    simp only [memCells]
    by_cases hx : a = x
    · subst hx
      by_cases hb : b = 0
      · simp [hb, ih]
      · rw [if_neg hb]; simp [memGet]
    · have key : (if a + 1 ≤ x then r.getD (x - (a + 1)) 0 else 0) = if a ≤ x then (b :: r).getD (x - a) 0 else 0 := by
        by_cases h : a + 1 ≤ x
        · have h' : a ≤ x := by omega
          obtain ⟨k, rfl⟩ : ∃ k, x = a + 1 + k := ⟨x - (a + 1), by omega⟩
          have e1 : a + 1 + k - (a + 1) = k := by omega
          have e2 : a + 1 + k - a = k + 1 := by omega
          simp [h', e1, e2]
        · have h' : ¬ a ≤ x := by omega
          simp [h, h']
      by_cases hb : b = 0
      · rw [if_pos hb, ih]; exact key
      · simp only [hb, if_false, memGet, hx]
        by_cases h2 : x < a
        · have : ¬ a ≤ x := by omega
          simp [h2, this]
        · simp only [h2, if_false, ih]
          exact key
theorem memGet_memFrom {lo x : Nat} (a : Nat) {m : Memory} (hm : Memory.wfFrom lo m = true) (hx : a ≤ x) : memGet (memFrom m a) x = memGet m x := by
  induction m generalizing lo with
  | nil => rfl
  | cons e r ih =>
    obtain ⟨b, w⟩ := e
    simp only [Memory.wfFrom, Bool.and_eq_true, decide_eq_true_eq] at hm
    simp only [memFrom]
    split
    · have h1 : b ≠ x := by omega
      have h2 : ¬ x < b := by omega
      simp [ih hm.2, memGet, h1, h2]
    · rfl
/-- What a byte reads after a run of bytes was replaced. -/
theorem memGet_memSplice {lo a n x : Nat} {m cs : Memory} (hm : Memory.wfFrom lo m = true) (hc : Memory.wfFrom a cs = true) (hb : memBelow (a + n) cs) :
    memGet (memSplice m a n cs) x = if a ≤ x ∧ x < a + n then memGet cs x else memGet m x := by
  induction m generalizing lo with
  | nil =>
    simp only [memSplice, memGet]
    split
    · rfl
    · rename_i h
      by_cases hx : x < a
      · exact memGet_lt hc hx
      · have h3 : a + n ≤ x := by omega
        have := memGet_append (x := x) (m := []) hc hb rfl
        simpa [show ¬ x < a + n by omega, memGet] using this
  | cons e r ih =>
    obtain ⟨b, w⟩ := e
    have h0 := hm
    simp only [Memory.wfFrom, Bool.and_eq_true, decide_eq_true_eq] at hm
    simp only [memSplice]
    split
    · rename_i h
      have ih := ih hm.2
      simp only [memGet, ih]
      by_cases h1 : b = x
      · subst h1
        have : ¬ (a ≤ b ∧ b < a + n) := by omega
        simp [this]
      · by_cases h2 : x < b
        · have : ¬ (a ≤ x ∧ x < a + n) := by omega
          simp [h1, h2, this]
        · simp [h1, h2]
    · rename_i h
      have hf := memFrom_wf (a + n) h0
      rw [memGet_append hc hb (wfFrom_mono (by omega) hf)]
      by_cases h1 : x < a + n
      · by_cases h2 : a ≤ x
        · simp [h1, h2]
        · have h3 : memGet cs x = 0 := memGet_lt hc (by omega)
          have h4 : b ≠ x := by omega
          have h5 : x < b := by omega
          simp [h1, h2, h3, memGet, h4, h5]
      · have h2 : ¬ (a ≤ x ∧ x < a + n) := by omega
        rw [if_neg h1, if_neg h2]
        exact memGet_memFrom (a + n) h0 (by omega)
/-- Every byte after a run of bytes was written. -/
theorem memGet_memWrite {m : Memory} (a x : Nat) (bs : List Byte) (h : Memory.wf m = true) :
    memGet (memWrite m a bs) x = if a ≤ x ∧ x < a + bs.length then bs.getD (x - a) 0 else memGet m x := by
  rw [memWrite, memGet_memSplice h (memCells_wf a bs) (memCells_below a bs)]
  split
  · rename_i hx; rw [memGet_memCells]; simp [hx.1]
  · rfl
/-- Every byte after a run of bytes was zeroed. -/
theorem memGet_memZero {m : Memory} (a n x : Nat) (h : Memory.wf m = true) :
    memGet (memZero m a n) x = if a ≤ x ∧ x < a + n then 0 else memGet m x := by
  rw [memZero, memGet_memSplice h (cs := []) rfl (by simp [memBelow])]; rfl
/-- Every byte after one byte was written. -/
theorem memGet_memSet {lo : Nat} {m : Memory} (a x : Nat) (v : Byte) (h : Memory.wfFrom lo m = true) :
    memGet (memSet m a v) x = if x = a then v else memGet m x := by
  induction m generalizing lo with
  | nil =>
    by_cases hv : v = 0
    · simp [memSet, hv, memGet]
    · simp only [memSet, hv, if_false, memGet]
      by_cases hx : x = a
      · simp [hx]
      · simp [hx, Ne.symm hx]
  | cons e r ih =>
    obtain ⟨b, w⟩ := e
    simp only [Memory.wfFrom, Bool.and_eq_true, decide_eq_true_eq] at h
    have h2 := memGet_lt (x := b) h.2 (by omega)
    simp only [memSet]
    by_cases hab : a < b
    · by_cases hv : v = 0
      · simp only [hab, hv, if_true]
        by_cases hx : x = a
        · subst hx; have : b ≠ x := by omega
          simp [memGet, this, hab]
        · simp [hx]
      · simp only [hab, hv, if_true, if_false, memGet]
        by_cases hx : x = a
        · simp [hx]
        · simp only [Ne.symm hx, if_false, hx]
          by_cases hxa : x < a
          · have h3 : b ≠ x := by omega
            have h4 : x < b := by omega
            simp [hxa, h3, h4]
          · simp [hxa]
    · by_cases hab' : a = b
      · subst hab'
        by_cases hv : v = 0
        · simp only [hv, Nat.lt_irrefl, if_false, if_true]
          by_cases hx : x = a
          · subst hx; simp [h2]
          · simp only [hx, if_false, memGet, Ne.symm hx]
            by_cases hxa : x < a
            · simpa [hxa] using memGet_lt h.2 (by omega)
            · simp [hxa]
        · simp only [hv, Nat.lt_irrefl, if_false, if_true, memGet]
          by_cases hx : x = a
          · simp [hx]
          · simp [hx, Ne.symm hx]
      · simp only [hab, hab', if_false, memGet, ih h.2]
        by_cases hx : x = a
        · subst hx
          have h3 : b ≠ x := by omega
          simp [h3, show ¬ x < b by omega]
        · simp [hx]
theorem memRead_length (m : Memory) (a n : Nat) : (memRead m a n).length = n := by
  induction n generalizing a with
  | zero => rfl
  | succ n ih => simp [memRead, ih]
theorem memRead_getD (m : Memory) (a n i : Nat) (h : i < n) : (memRead m a n).getD i 0 = memGet m (a + i) := by
  induction n generalizing a i with
  | zero => omega
  | succ n ih =>
    cases i with
    | zero => simp [memRead]
    | succ i =>
      have := ih (a + 1) i (by omega)
      simp only [memRead, List.getD_cons_succ, this]
      congr 1; omega
theorem memRead_congr {m m' : Memory} (a n : Nat) (h : ∀ x, a ≤ x → x < a + n → memGet m x = memGet m' x) : memRead m a n = memRead m' a n := by
  induction n generalizing a with
  | zero => rfl
  | succ n ih =>
    simp only [memRead]
    rw [h a (by omega) (by omega), ih (a + 1) (fun x h1 h2 => h x (by omega) (by omega))]
/-- Reading a run of bytes that was just written gives it. -/
theorem memRead_memWrite_same {m : Memory} (a : Nat) (bs : List Byte) (h : Memory.wf m = true) : memRead (memWrite m a bs) a bs.length = bs := by
  apply List.ext_getElem (by simp [memRead_length])
  intro i h1 h2
  have e := memRead_getD (memWrite m a bs) a bs.length i h2
  rw [List.getD_eq_getElem _ _ h1] at e
  rw [e, memGet_memWrite a (a + i) bs h]
  simp [h2]
/-- Reading outside a run of bytes that was written gives what stood there. -/
theorem memRead_memWrite_ne {m : Memory} (a b n : Nat) (bs : List Byte) (h : Memory.wf m = true) (hd : b + n ≤ a ∨ a + bs.length ≤ b) :
    memRead (memWrite m a bs) b n = memRead m b n := by
  apply memRead_congr
  intro x h1 h2
  rw [memGet_memWrite a x bs h, if_neg]
  omega
/-- Bytes and numbers. -/
@[simp] theorem leBytes_length (n v : Nat) : (leBytes n v).length = n := by
  induction n generalizing v with
  | zero => rfl
  | succ n ih => simp [leBytes, ih]
theorem leNat_leBytes (n v : Nat) : leNat (leBytes n v) = v % 2 ^ (8 * n) := by
  induction n generalizing v with
  | zero => simp [leBytes, leNat, Nat.mod_one]
  | succ n ih =>
    simp only [leBytes, leNat, ih, BitVec.toNat_ofNat]
    have e : 2 ^ (8 * (n + 1)) = 256 * 2 ^ (8 * n) := by rw [show 8 * (n + 1) = 8 + 8 * n by ring, pow_add]; norm_num
    rw [e, Nat.mod_mul]; simp
/-- A number read where it was written: the number, reduced to its bytes. -/
theorem rd_wr_same (s : State) (a n v : Nat) (h : Memory.wf s.mem = true) : (s.wr a n v).rd a n = v % 2 ^ (8 * n) := by
  have := memRead_memWrite_same a (leBytes n v) h
  rw [leBytes_length] at this
  simp [State.rd, State.wr, State.wrB, this, leNat_leBytes]

end Sys2Proof.Machine
end

