-- ==== Sys2Proof/Safety.lean ====
section
/-! DEFINITION. The terms that claims are stated in: the next state of a word that changes only its own context, what a word leaves alone, the
invariant of a run, and what counts as a safe run. -/

namespace Sys2Proof

/-- The header of an L-code word: its S and N bits and its guard; D-code words and events have none (spec 03 R81, R82). -/
def Instr.hdr : Instr → Option Hdr
  | .add h .. => some h
  | .sub h .. => some h
  | .andR h .. => some h
  | .orR h .. => some h
  | .xorR h .. => some h
  | .andn h .. => some h
  | .sll h .. => some h
  | .srl h .. => some h
  | .sra h .. => some h
  | .mul h .. => some h
  | .mulh h .. => some h
  | .divS h .. => some h
  | .divu h .. => some h
  | .remS h .. => some h
  | .remu h .. => some h
  | .minS h .. => some h
  | .maxS h .. => some h
  | .minu h .. => some h
  | .maxu h .. => some h
  | .mov h .. => some h
  | .clz h .. => some h
  | .popc h .. => some h
  | .addi h .. => some h
  | .andi h .. => some h
  | .ori h .. => some h
  | .xori h .. => some h
  | .slli h .. => some h
  | .srli h .. => some h
  | .srai h .. => some h
  | .lui h .. => some h
  | .auipc h .. => some h
  | .cmpEq h .. => some h
  | .cmpNe h .. => some h
  | .cmpLt h .. => some h
  | .cmpGe h .. => some h
  | .cmpLtu h .. => some h
  | .cmpGeu h .. => some h
  | .cmpiEq h .. => some h
  | .cmpiNe h .. => some h
  | .cmpiLt h .. => some h
  | .cmpiGe h .. => some h
  | .cmpiLtu h .. => some h
  | .cmpiGeu h .. => some h
  | .pand h .. => some h
  | .por h .. => some h
  | .pxor h .. => some h
  | .pandn h .. => some h
  | .pnot h .. => some h
  | .pset h .. => some h
  | .prd h .. => some h
  | .pwr h .. => some h
  | .br h .. => some h
  | .call h .. => some h
  | .jr h .. => some h
  | .jalr h .. => some h
  | .loopW h .. => some h
  | .ld h .. => some h
  | .st h .. => some h
  | .ldNc h .. => some h
  | .ldw h .. => some h
  | .stw h .. => some h
  | .ldv h .. => some h
  | .ldvW h .. => some h
  | .stv h .. => some h
  | .stvW h .. => some h
  | .atomAdd h .. => some h
  | .atomAnd h .. => some h
  | .atomOr h .. => some h
  | .atomXor h .. => some h
  | .atomSmin h .. => some h
  | .atomSmax h .. => some h
  | .atomSwap h .. => some h
  | .atomCas h .. => some h
  | .atomFaddF32 h .. => some h
  | .atomFaddF64 h .. => some h
  | .aacc h .. => some h
  | .aaccL h .. => some h
  | .fenceAcq h .. => some h
  | .fenceRel h .. => some h
  | .fenceFull h .. => some h
  | .fenceX h .. => some h
  | .fenceAcqSys h .. => some h
  | .fenceRelSys h .. => some h
  | .fenceFullSys h .. => some h
  | .fenceXSys h .. => some h
  | .l1inv h .. => some h
  | .l1pf h .. => some h
  | .seal h .. => some h
  | .unseal h .. => some h
  | .reclaim h .. => some h
  | .closeStep h .. => some h
  | .hmake h .. => some h
  | .hnarrow h .. => some h
  | .fadd h .. => some h
  | .fsub h .. => some h
  | .fmul h .. => some h
  | .fdiv h .. => some h
  | .fmin h .. => some h
  | .fmax h .. => some h
  | .fsqrt h .. => some h
  | .fneg h .. => some h
  | .fma h .. => some h
  | .fms h .. => some h
  | .fcmpEq h .. => some h
  | .fcmpLt h .. => some h
  | .fcmpLe h .. => some h
  | .fcmpUn h .. => some h
  | .fcvtF2f h .. => some h
  | .fcvtF2i h .. => some h
  | .fcvtF2u h .. => some h
  | .fcvtI2f h .. => some h
  | .fcvtU2f h .. => some h
  | .fclass h .. => some h
  | .vadd h .. => some h
  | .vsub h .. => some h
  | .vmul h .. => some h
  | .vmin h .. => some h
  | .vmax h .. => some h
  | .vabs h .. => some h
  | .vneg h .. => some h
  | .vand h .. => some h
  | .vor h .. => some h
  | .vxor h .. => some h
  | .vshl h .. => some h
  | .vshr h .. => some h
  | .vfma h .. => some h
  | .vfms h .. => some h
  | .vcvt h .. => some h
  | .vpack h .. => some h
  | .vunpklo h .. => some h
  | .vunpkhi h .. => some h
  | .vswp2 h .. => some h
  | .vrev h .. => some h
  | .vshuf h .. => some h
  | .vrot h .. => some h
  | .vbcast h .. => some h
  | .vext h .. => some h
  | .vins h .. => some h
  | .vsplat h .. => some h
  | .vcmpEq h .. => some h
  | .vcmpLt h .. => some h
  | .vcmpLe h .. => some h
  | .vsel h .. => some h
  | .vnz h .. => some h
  | .vsin h .. => some h
  | .vcos h .. => some h
  | .vexp h .. => some h
  | .vlog2 h .. => some h
  | .vrsqrt h .. => some h
  | .vrcp h .. => some h
  | .vrsum h .. => some h
  | .vrmax h .. => some h
  | .vrmin h .. => some h
  | .rowcpy h .. => some h
  | .rowzero h .. => some h
  | .rowadd h .. => some h
  | .rowmul h .. => some h
  | .rowaxpy h .. => some h
  | .rowmax h .. => some h
  | .rowcvt h .. => some h
  | .send h .. => some h
  | .sendp h .. => some h
  | .sendc h .. => some h
  | .recv h .. => some h
  | .endCtx h => some h
  | .rel h => some h
  | .migrate h .. => some h
  | .yield h => some h
  | .callat h .. => some h
  | .barm h .. => some h
  | .bara h .. => some h
  | .barw h .. => some h
  | .barq h .. => some h
  | .scnew h .. => some h
  | .scstat h .. => some h
  | .prune h .. => some h
  | .resumeW h .. => some h
  | .copy h .. => some h
  | .copys h .. => some h
  | .walk h .. => some h
  | .dedup h .. => some h
  | .emit h .. => some h
  | .slot h .. => some h
  | .dispatch h .. => some h
  | .combine h .. => some h
  | .djob h .. => some h
  | .trap h .. => some h
  | .eret h .. => some h
  | .mfs h .. => some h
  | .mts h .. => some h
  | .breakTrap h .. => some h
  | .pause h .. => some h
  | .halt h => some h
  | .nop h => some h
  | .dsNopS => none
  | .dAdd .. => none
  | .dSub .. => none
  | .dAnd .. => none
  | .dOr .. => none
  | .dXor .. => none
  | .dSll .. => none
  | .dSrl .. => none
  | .dMul .. => none
  | .dAddi .. => none
  | .dLui .. => none
  | .dBeq .. => none
  | .dBne .. => none
  | .dBlt .. => none
  | .dJmp .. => none
  | .jget .. => none
  | .jdone .. => none
  | .agset .. => none
  | .dret => none
  | .dmfs .. => none
  | .dsNopL => none
  | .xin .. => none
  | .xout .. => none
  | .ldd .. => none
  | .std .. => none
  | .dbcpy .. => none
  | .dsNopM => none
  | .mlw .. => none
  | .mlwt .. => none
  | .mswap => none
  | .mst .. => none
  | .mstz .. => none
  | .mdrain .. => none
  | .mzero .. => none
  | .mpark => none
  | .munpark => none
  | .dsNopV => none
  | .vbias .. => none
  | .vscale .. => none
  | .vrelu .. => none
  | .vclamp .. => none
  | .vgelu .. => none
  | .latchComplete => none
  | .memoryReply => none
  | .l1FillReply => none
  | .tilePageFill => none
  | .fenceComplete => none
  | .reclaimComplete => none
  | .closeComplete => none
  | .scopeUnitReply => none
  | .pauseExpiry => none
  | .killTaken => none
  | .contextSwitchOut => none
  | .messageArrival => none
  | .handlerStart => none
  | .nackRetry => none
  | .nackFlitArrival => none
  | .ackFlitArrival => none
  | .skipFlitArrival => none
  | .flitArrival => none
  | .starveSignal => none
  | .goldenEpoch => none
  | .torusLinkFail => none
  | .sidebandResend => none
  | .migrateComplete => none
  | .builtinLoad => none
  | .builtinLoadNc => none
  | .builtinStore => none
  | .builtinLoad32 => none
  | .builtinStore32 => none
  | .builtinLdv => none
  | .builtinStv => none
  | .builtinAtomAdd => none
  | .builtinAtomAnd => none
  | .builtinAtomOr => none
  | .builtinAtomXor => none
  | .builtinAtomSmin => none
  | .builtinAtomSmax => none
  | .builtinAtomSwap => none
  | .builtinAtomCas => none
  | .builtinAtomFaddF32 => none
  | .builtinAtomFaddF64 => none
  | .builtinBadop => none
  | .rowRequest => none
  | .rowAccumulatePart => none
  | .closeNotice => none
  | .flushDemand => none
  | .rowLanding => none
  | .childArrival => none
  | .barrierRelease => none
  | .brokenNotice => none
  | .resumeBuiltin => none
  | .switchOut => none
  | .switchIn => none
  | .attention => none
  | .launchFanout => none
  | .waveRequest => none
  | .waveReport => none
  | .launchRelease => none
  | .killNotice => none
  | .pruneAcknowledgement => none
  | .pruneLinkwaitExpiry => none
  | .resetReport => none
  | .tileSpaceRequest => none
  | .tileSpaceGrant => none
  | .scopeRequest => none
  | .scopeBinding => none
  | .translationRequest => none
  | .pageWalkComplete => none
  | .homeAccess => none
  | .reclaimFloorNotice => none
  | .remoteTileAccess => none
  | .poisonError => none
  | .copyCommandAccept => none
  | .copyStart => none
  | .copyPart => none
  | .copyPartDone => none
  | .continuationProbe => none
  | .tokenNotice => none
  | .walkCommandAccept => none
  | .walkStart => none
  | .iwLineRun => none
  | .tdeCommandAccept => none
  | .dispatchStart => none
  | .exchangeCounts => none
  | .tdeAbort => none
  | .dispatchEnd => none
  | .combineStart => none
  | .combineEnd => none
  | .djobAccept => none
  | .jobGrant => none
  | .dsResultWrite => none
  | .dsTransferDone => none
  | .dsTransferFault => none
  | .dsReset => none
  | .launchSubmission => none
  | .distributorSelect => none
  | .launchLoadDone => none
  | .waveStart => none
  | .launchEnd => none
  | .custodyRecordSigned => none
  | .budgetPeriod => none
  | .lcReset => none
  | .lcResetEnd => none
  | .powerGate => none
  | .migrateRedirectNotice => none
  | .migrateMarkerReply => none
  | .migrateEndOfForwarding => none
  | .redirectRelease => none
  | .rekeyGranule => none
  | .linkFlitReceive => none
  | .replayRequest => none
  | .portRetrain => none
  | .portRemap => none
  | .portDown => none
  | .trainingComplete => none
  | .session => none
  | .bramblePacket => none
  | .tack => none
  | .tnack => none
  | .tackTimer => none
  | .transportResend => none
  | .packetAbandon => none
  | .keepalive => none
  | .brel => none
  | .mreqResend => none
  | .linkwaitExpiry => none
  | .bridgeLaneFail => none
  | .indb => none
  | .lwdb => none
  | .registerWrite => none
  | .msixUnmask => none
  | .rscmd => none
  | .resyncReady => none
  | .psetup => none
  | .ptear => none
  | .xlinv => none
  | .regionCmd => none
  | .smcMigrate => none
  | .watchCmd => none
  | .budgetCmd => none
  | .fserv => none
  | .qprio => none
  | .modid => none
  | .pcap => none
  | .rekey => none
  | .groupCmd => none
  | .fsload => none
  | .smcCommandComplete => none
  | .custseq => none
  | .mevent => none
  | .getVersion => none
  | .getCapabilities => none
  | .negotiateAlgorithms => none
  | .getDigests => none
  | .getCertificate => none
  | .challenge => none
  | .getMeasurements => none
  | .keyExchange => none
  | .finish => none
  | .keyUpdate => none
  | .endSession => none
  | .ideKeyProgram => none
  | .i3cPcapWrite => none
  | .firmwareStagingWrite => none
  | .powerReport => none
  | .thermalStepDown => none
  | .thermalStepUp => none
  | .thermalEmergency => none
  | .thermalTrip => none
  | .pcapAdjust => none
  | .smcTakeover => none
  | .lcTakeover => none
  | .spareBringIn => none
  | .moduleReset => none
  | .dsWordComplete => none
  | .rowWordComplete => none
  | .relordRelease => none
  | .ungatingEnd => none
  | .sessionCounterLimit => none
  | .moderationExpiry => none
  | .tnackResend => none

end Sys2Proof

namespace Sys2Proof.Machine

/-- The invariant of every run: memory keeps its canonical form. -/
def State.Inv (s : State) : Prop := Memory.wf s.mem = true
/-- A run is safe while a step answers a next state: it meets no fault and no refusal. -/
def State.safe (s : State) : Prop := ∃ t, step s = .next t

/-- The context that issues becomes c, and its word has performed. -/
def State.wrote (s : State) (c : Ctx) : State := s.setCur { c with fin := true }
/-- Between s and t, only the context that issues changes; ckey is one number for each context of each core. -/
def State.onlyCur (s t : State) : Prop :=
  t = { s with ctxs := t.ctxs } ∧ ∀ core k, ckey core k ≠ ckey s.fcore s.fctx → t.ctx core k = s.ctx core k
/-- Every byte of memory reads as before. -/
def State.sameBytes (s t : State) : Prop := ∀ a, memGet t.mem a = memGet s.mem a
/-- Of memory, only bytes of the send-buffer staging of the context that issues may change (spec 16 R408). -/
def State.onlyStaged (s t : State) : Prop :=
  ∀ a, ¬(stagePa s.fcore s.fctx ≤ a ∧ a < stagePa s.fcore s.fctx + stageLen) → memGet t.mem a = memGet s.mem a
/-- Of a context, only general register rd may change, beside the mark that the word has performed. -/
def Ctx.onlyG (rd : BitVec 4) (c d : Ctx) : Prop := d = { c with g := d.g, fin := d.fin } ∧ ∀ r, r ≠ rd → d.gr r = c.gr r
/-- Of a context, only predicate pd may change, beside the mark that the word has performed; p0 reads 1 whatever is written. -/
def Ctx.onlyP (pd : BitVec 4) (c d : Ctx) : Prop := d = { c with preds := d.preds, fin := d.fin } ∧ ∀ p, p ≠ pd → d.pr p = c.pr p


/-- The messages of the network have numbers that have been given out. -/
def State.numbered (s : State) : Prop := ∀ x ∈ s.fab.msgs, x.msg.no < s.fab.nextMsg
/-- Between s and t a message is formed that has the property p; the first new message of a step is the one of the number s gives next. -/
def State.formed (s t : State) (p : Msg → Prop) : Prop := ∃ x ∈ t.fab.msgs, x.msg.no = s.fab.nextMsg ∧ p x.msg
/-- In t an event is due that was not among those due in s. -/
def State.dues (s t : State) (i : Instr) (a : Nat := 0) (b : Nat := 0) (c : Nat := 0) : Prop :=
  (i, ({ a := a, b := b, c := c } : Occ)) ∈ t.agenda.drop s.agenda.length
/-- The addresses between groups of a context are aligned: it goes on without a trap of its own (spec 01 R16). -/
def Ctx.aligned (c : Ctx) : Prop := c.pc.toNat % 4 = 0 ∧ c.npc.toNat % 4 = 0
/-- An access that a context of its core waits for: no built-in's and no engine's, not posted, its requester not killed. -/
def Req.own (r : Req) : Prop := r.bmsg = none ∧ r.posted = false ∧ r.orphan = false ∧ r.eng = none ∧ r.wkind = 0

end Sys2Proof.Machine
end

