-- ==== Sys2Proof/Laws/Ops.lean ====
section
/-! SUPPORT. What the shared forms of a word answer: under a true guard its body, under a false one nothing but the mark that it has been dealt
with. A meaning is one of these forms, so a claim about an instruction cites the lemma of its form. -/

namespace Sys2Proof.Machine

/-- Setting one key twice leaves the second value. -/
@[simp] theorem tset_tset {α : Type} (t : Table α) (n : Nat) (x y : α) : tset (tset t n x) n y = tset t n y := by
  induction t with
  | nil => simp [tset]
  | cons e r ih =>
    obtain ⟨k, v⟩ := e
    simp only [tset]
    by_cases h1 : n < k
    · simp [h1, tset]
    · by_cases h2 : n = k
      · simp [h2, tset]
      · simp [h1, h2, tset, ih]

/-- Setting the context that issues twice leaves the second. -/
@[simp] theorem State.setCur_setCur (s : State) (c d : Ctx) : (s.setCur c).setCur d = s.setCur d := by
  simp [State.setCur, State.setCtx, State.fcore, State.fctx]
/-- A word that leaves context c and retires. -/
@[simp] theorem State.finish_setCur (s : State) (c : Ctx) : (s.setCur c).finish = s.wrote c := by
  simp [State.finish, State.wrote]
/-- A word that changes nothing. -/
theorem State.finish_wrote (s : State) : s.finish = s.wrote s.cur := rfl
@[simp] theorem State.cur_wrote (s : State) (c : Ctx) : (s.wrote c).cur = { c with fin := true } := by simp [State.wrote]

/-- A word whose guard is false performs nothing (spec 05 R133). -/
theorem lword_off {h : Hdr} {s : State} (body : State → Res) (g : s.cur.guard h = false) : lword h s body = .next s.finish := by
  simp [lword, g]
/-- A word that performs. -/
theorem lword_ok {h : Hdr} {s t : State} {body : State → Res} (g : s.cur.guard h = true) (e : body s = .ok t) :
    lword h s body = .next t.finish := by
  simp [lword, g, e]
/-- A word that traps. -/
theorem lword_trap {h : Hdr} {s u : State} {t : Trap} {body : State → Res} (g : s.cur.guard h = true) (e : body s = .trap t u) :
    lword h s body = .next (u.takeTrap t) := by
  simp [lword, g, e]
/-- A word that waits. -/
theorem lword_wait {h : Hdr} {s t : State} {body : State → Res} (g : s.cur.guard h = true) (e : body s = .wait t) :
    lword h s body = .next t := by
  simp [lword, g, e]
/-- A word that is to be issued again. -/
theorem lword_again {h : Hdr} {s t : State} {body : State → Res} (g : s.cur.guard h = true) (e : body s = .again t) :
    lword h s body = .next t := by
  simp [lword, g, e]
/-- Whatever its body does, a word answers a next state. -/
theorem lword_next (h : Hdr) (s : State) (body : State → Res) : ∃ t, lword h s body = .next t := by
  simp only [lword]
  split
  · split <;> exact ⟨_, rfl⟩
  · exact ⟨_, rfl⟩

/-- A word of the registers: the context it leaves. -/
theorem rword_on {h : Hdr} {s : State} (f : Ctx → Ctx) (g : s.cur.guard h = true) : rword h s f = .next (s.wrote (f s.cur)) := by
  simp [rword, lword, g]
/-- A word of the registers with a check that passes. -/
theorem tword_on {h : Hdr} {s : State} {f : Ctx → Except Trap Ctx} {c : Ctx} (g : s.cur.guard h = true) (e : f s.cur = .ok c) :
    tword h s f = .next (s.wrote c) := by
  simp [tword, lword, g, e]
/-- A word of the registers with a check that fails. -/
theorem tword_trap {h : Hdr} {s : State} {f : Ctx → Except Trap Ctx} {t : Trap} (g : s.cur.guard h = true) (e : f s.cur = .error t) :
    tword h s f = .next (s.takeTrap t) := by
  simp [tword, lword, g, e]
/-- A floating-point word none of whose flags is enabled. -/
theorem fpResult_on {h : Hdr} {s : State} {r : Ctx → Nat × Fl} {wr : Ctx → Nat → Ctx} (g : s.cur.guard h = true)
    (e : s.cur.ctl.hits (r s.cur).2 = 0) : fpResult h s r wr = .next (s.wrote (wr (s.cur.raise (r s.cur).2) (r s.cur).1)) := by
  simp [fpResult, lword, g, e]
/-- A floating-point word one of whose flags is enabled traps with its destination unchanged (spec 04 R122). -/
theorem fpResult_trap {h : Hdr} {s : State} {r : Ctx → Nat × Fl} {wr : Ctx → Nat → Ctx} (g : s.cur.guard h = true)
    (e : s.cur.ctl.hits (r s.cur).2 ≠ 0) :
    fpResult h s r wr = .next ((s.setCur (s.cur.raise (r s.cur).2)).takeTrap (fpTrap (s.cur.ctl.hits (r s.cur).2) 1)) := by
  simp only [fpResult, lword, g, if_true, if_neg e]
/-- A vector result with no precise exception goes into a latch (spec 01 R13). -/
theorem latchRes_latch {c : Ctx} {fp : Bool} {lat : Nat} {wd : BitVec 3} {v : BitVec 256} {fs : List Fl} (n : (fp && c.ctl.enables != 0) = false) :
    latchRes c fp lat wd v fs = .ok { c with latches := c.latches ++ [⟨wd, v, lat, orFl fs⟩] } := by
  simp only [latchRes, n, Bool.false_eq_true, if_false]
/-- A floating-point vector result with an exception enabled and none of its flags enabled is written at issue (spec 04 R122). -/
theorem latchRes_write {c : Ctx} {fp : Bool} {lat : Nat} {wd : BitVec 3} {v : BitVec 256} {fs : List Fl} (p : (fp && c.ctl.enables != 0) = true)
    (e : c.ctl.hits (orFl fs) = 0) : latchRes c fp lat wd v fs = .ok ((c.setW wd v).raise (orFl fs)) := by
  simp only [latchRes, p, e, if_true]
/-- A floating-point vector result one of whose flags is enabled traps FPTRAP, its destination unchanged (spec 04 R122, R123). -/
theorem latchRes_trap {c : Ctx} {fp : Bool} {lat : Nat} {wd : BitVec 3} {v : BitVec 256} {fs : List Fl} (p : (fp && c.ctl.enables != 0) = true)
    (e : c.ctl.hits (orFl fs) ≠ 0) :
    latchRes c fp lat wd v fs = .error (fpTrap (c.ctl.hits (orFl fs)) (laneMask c.ctl fs), c.raise (orFl fs)) := by
  simp only [latchRes, p, e, if_true, if_false]
/-- A vector word whose result goes into a latch. -/
theorem vword_latch {h : Hdr} {s : State} {wd : BitVec 3} {lat : Nat} {f : Ctx → Except Trap (Bool × BitVec 256 × List Fl)} {fp : Bool}
    {v : BitVec 256} {fs : List Fl} (g : s.cur.guard h = true) (e : f s.cur = .ok (fp, v, fs)) (n : (fp && s.cur.ctl.enables != 0) = false) :
    vword h s wd lat f = .next (s.wrote { s.cur with latches := s.cur.latches ++ [⟨wd, v, lat, orFl fs⟩] }) := by
  simp only [vword, lword, g, if_true, e, latchRes_latch n, State.finish_setCur]

/-! ### What a word that has been dealt with leaves alone -/

/-- Writing the context in focus changes no other context. -/
theorem wrote_only (s : State) (c : Ctx) : s.onlyCur (s.wrote c) := by
  refine ⟨rfl, ?_⟩
  intro core k h
  simp [State.wrote, State.setCur, State.setCtx, State.ctx, tget_tset_ne _ _ _ _ h]
/-- Writing the context in focus changes no byte of memory. -/
theorem wrote_same (s : State) (c : Ctx) : s.sameBytes (s.wrote c) := fun _ => rfl
/-- The mark that a word has been dealt with changes no other context. -/
theorem finish_only (s : State) : s.onlyCur s.finish := wrote_only s s.cur
/-- A context that is only marked keeps every general register. -/
theorem onlyG_refl (c : Ctx) (rd : BitVec 4) : c.onlyG rd { c with fin := true } := ⟨rfl, fun _ _ => rfl⟩
/-- A write of one general register keeps the others. -/
theorem onlyG_setGT (c : Ctx) (rd : BitVec 4) (x : GReg) : c.onlyG rd { c.setGT rd x with fin := true } := by
  refine ⟨rfl, ?_⟩
  intro r hr
  have : rd.toNat ≠ r.toNat := fun e => hr (BitVec.eq_of_toNat_eq e.symm)
  simp [Ctx.gr, Ctx.setGT, this]
/-- A word of the registers that writes one general register changes nothing else, whatever its guard. -/
theorem rword_frame {h : Hdr} {s t : State} {rd : BitVec 4} {f : Ctx → Ctx} (hf : ∃ x, f s.cur = s.cur.setGT rd x) (e : rword h s f = .next t) :
    s.onlyCur t ∧ s.cur.onlyG rd t.cur ∧ s.sameBytes t := by
  cases g : s.cur.guard h
  · rw [rword, lword_off _ g] at e; cases e
    exact ⟨finish_only s, by rw [State.cur_finish]; exact onlyG_refl _ _, fun _ => rfl⟩
  · rw [rword_on _ g] at e; cases e
    obtain ⟨x, hx⟩ := hf
    exact ⟨wrote_only _ _, by rw [State.cur_wrote, hx]; exact onlyG_setGT _ _ _, fun _ => rfl⟩

end Sys2Proof.Machine
end

