-- ==== Sys2Proof/Laws/PerInstr.lean ====
section
/-! SUPPORT. Statements made instruction by instruction. Encoding: an instruction that is well formed and has a word decodes from that word to
itself, an L-code word by the decoder of L-code, a D-code word by the decoder of its slot. -/

namespace Sys2Proof.Laws

/-- The word of a well-formed instruction decodes to the instruction. -/
def Encoding.Statement (i : Instr) : Prop :=
  i.wf = true → ∀ w, encode i = some w → match i.dslot with
    | none => decodeL w = .ok i
    | some k => decodeD k w = .ok i

/-! ### Fields of a word -/

theorem fld_eq (w lo n p q : Nat) (hp : 2 ^ lo = p) (hq : 2 ^ n = q) : fld w lo n = w / p % q := by subst hp hq; rfl
theorem fld_maj (h : Hdr) (maj x : Nat) (hm : maj < 64) (hx : x < 2097152) : fld (encL h maj x) 21 6 = maj := by
  rw [fld_eq _ 21 6 2097152 64 rfl rfl]
  simp only [encL]
  have h1 := h.gp.isLt
  omega
theorem fld_low (h : Hdr) (maj x : Nat) (hx : x < 2097152) : fld (encL h maj x) 0 21 = x := by
  rw [fld_eq _ 0 21 1 2097152 rfl rfl]
  simp only [encL]
  omega
theorem hdrOf_encL (h : Hdr) (maj x : Nat) (hm : maj < 64) (hx : x < 2097152) : hdrOf (encL h maj x) = h := by
  obtain ⟨s, n, g⟩ := h
  have hg := g.isLt
  have e1 : fld (encL ⟨s, n, g⟩ maj x) 31 1 = s.toNat := by
    rw [fld_eq _ 31 1 2147483648 2 rfl rfl]
    simp only [encL]
    cases s <;> cases n <;> simp only [Bool.toNat_true, Bool.toNat_false] <;> omega
  have e2 : fld (encL ⟨s, n, g⟩ maj x) 30 1 = n.toNat := by
    rw [fld_eq _ 30 1 1073741824 2 rfl rfl]
    simp only [encL]
    cases s <;> cases n <;> simp only [Bool.toNat_true, Bool.toNat_false] <;> omega
  have e3 : fld (encL ⟨s, n, g⟩ maj x) 27 3 = g.toNat := by
    rw [fld_eq _ 27 3 134217728 8 rfl rfl]
    simp only [encL]
    cases s <;> cases n <;> simp only [Bool.toNat_true, Bool.toNat_false] <;> omega
  simp only [hdrOf, e1, e2, e3, BitVec.ofNat_toNat, BitVec.setWidth_eq]
  cases s <;> cases n <;> rfl
theorem msize_lt (z : MSize) : z.code < 4 := by cases z <;> decide
theorem vty_lt (t : VTy) : t.code < 16 := by
  cases t with
  | shape => decide
  | of e => cases e <;> decide
theorem fty_lt (t : FTy) : t.code < 6 := by cases t <;> decide
theorem fop_lt {t : FTy} {r : Reject} (h : (need (fopOk t) r).isNone = true) : t.code < 4 := by
  cases t <;> first | decide | (simp [need, fopOk] at h)
theorem agsel_lt (t : AgSel) : t.code < 3 := by cases t <;> decide
theorem dreg_lt (t : DReg) : t.code < 4 := by cases t <;> decide
@[simp] theorem msizeOf_code (z : MSize) : msizeOf z.code = z := by cases z <;> rfl
@[simp] theorem vtyOf_code (t : VTy) : vtyOf t.code = t := by
  cases t with
  | shape => rfl
  | of e => cases e <;> rfl
@[simp] theorem ftyOf_code (t : FTy) : ftyOf t.code = some t := by cases t <;> rfl
@[simp] theorem agSelOf_code (t : AgSel) : agSelOf t.code = some t := by cases t <;> rfl
@[simp] theorem dregOf_code (t : DReg) : dregOf t.code = some t := by cases t <;> rfl
theorem bool_lt (b : Bool) : b.toNat < 2 := by cases b <;> decide
@[simp] theorem bool_code (b : Bool) : (b.toNat == 1) = b := by cases b <;> rfl
theorem checked_of_wf {i : Instr} (h : i.wf = true) : i.check = none := by simpa [Instr.wf] using h
theorem decodeL_of {w : Nat} {i : Instr} (h : rawL w = .ok i) (hw : i.wf = true) : decodeL w = .ok i := by
  simp [decodeL, h, checked_of_wf hw]

/-! ### Encoding, instruction by instruction -/

-- one theorem at a time: each of them makes equations of the decoder
set_option Elab.async false

theorem rawL_01 (h : Hdr) (x : Nat) (hx : x < 2097152) : rawL (encL h 1 x) = rawMaj01 h x := by
  simp only [rawL, fld_maj h 1 x (by omega) hx, fld_low h 1 x hx, hdrOf_encL h 1 x (by omega) hx]

theorem rawL_02 (h : Hdr) (x : Nat) (hx : x < 2097152) : rawL (encL h 2 x) = rawMaj02 h x := by
  simp only [rawL, fld_maj h 2 x (by omega) hx, fld_low h 2 x hx, hdrOf_encL h 2 x (by omega) hx]

theorem rawL_03 (h : Hdr) (x : Nat) (hx : x < 2097152) : rawL (encL h 3 x) = rawMaj03 h x := by
  simp only [rawL, fld_maj h 3 x (by omega) hx, fld_low h 3 x hx, hdrOf_encL h 3 x (by omega) hx]

theorem rawL_04 (h : Hdr) (x : Nat) (hx : x < 2097152) : rawL (encL h 4 x) = rawMaj04 h x := by
  simp only [rawL, fld_maj h 4 x (by omega) hx, fld_low h 4 x hx, hdrOf_encL h 4 x (by omega) hx]

theorem rawL_05 (h : Hdr) (x : Nat) (hx : x < 2097152) : rawL (encL h 5 x) = rawMaj05 h x := by
  simp only [rawL, fld_maj h 5 x (by omega) hx, fld_low h 5 x hx, hdrOf_encL h 5 x (by omega) hx]

theorem rawL_06 (h : Hdr) (x : Nat) (hx : x < 2097152) : rawL (encL h 6 x) = rawMaj06 h x := by
  simp only [rawL, fld_maj h 6 x (by omega) hx, fld_low h 6 x hx, hdrOf_encL h 6 x (by omega) hx]

theorem rawL_07 (h : Hdr) (x : Nat) (hx : x < 2097152) : rawL (encL h 7 x) = rawMaj07 h x := by
  simp only [rawL, fld_maj h 7 x (by omega) hx, fld_low h 7 x hx, hdrOf_encL h 7 x (by omega) hx]

theorem rawL_08 (h : Hdr) (x : Nat) (hx : x < 2097152) : rawL (encL h 8 x) = rawMaj08 h x := by
  simp only [rawL, fld_maj h 8 x (by omega) hx, fld_low h 8 x hx, hdrOf_encL h 8 x (by omega) hx]

theorem rawL_09 (h : Hdr) (x : Nat) (hx : x < 2097152) : rawL (encL h 9 x) = rawMaj09 h x := by
  simp only [rawL, fld_maj h 9 x (by omega) hx, fld_low h 9 x hx, hdrOf_encL h 9 x (by omega) hx]

theorem rawL_0a (h : Hdr) (x : Nat) (hx : x < 2097152) : rawL (encL h 10 x) = rawMaj0a h x := by
  simp only [rawL, fld_maj h 10 x (by omega) hx, fld_low h 10 x hx, hdrOf_encL h 10 x (by omega) hx]

theorem rawL_0b (h : Hdr) (x : Nat) (hx : x < 2097152) : rawL (encL h 11 x) = rawMaj0b h x := by
  simp only [rawL, fld_maj h 11 x (by omega) hx, fld_low h 11 x hx, hdrOf_encL h 11 x (by omega) hx]

theorem rawL_0c (h : Hdr) (x : Nat) (hx : x < 2097152) : rawL (encL h 12 x) = rawMaj0c h x := by
  simp only [rawL, fld_maj h 12 x (by omega) hx, fld_low h 12 x hx, hdrOf_encL h 12 x (by omega) hx]

theorem rawL_0d (h : Hdr) (x : Nat) (hx : x < 2097152) : rawL (encL h 13 x) = rawMaj0d h x := by
  simp only [rawL, fld_maj h 13 x (by omega) hx, fld_low h 13 x hx, hdrOf_encL h 13 x (by omega) hx]

theorem rawL_0e (h : Hdr) (x : Nat) (hx : x < 2097152) : rawL (encL h 14 x) = rawMaj0e h x := by
  simp only [rawL, fld_maj h 14 x (by omega) hx, fld_low h 14 x hx, hdrOf_encL h 14 x (by omega) hx]

theorem rawL_0f (h : Hdr) (x : Nat) (hx : x < 2097152) : rawL (encL h 15 x) = rawMaj0f h x := by
  simp only [rawL, fld_maj h 15 x (by omega) hx, fld_low h 15 x hx, hdrOf_encL h 15 x (by omega) hx]

theorem rawL_10 (h : Hdr) (x : Nat) (hx : x < 2097152) : rawL (encL h 16 x) = rawMaj10 h x := by
  simp only [rawL, fld_maj h 16 x (by omega) hx, fld_low h 16 x hx, hdrOf_encL h 16 x (by omega) hx]

theorem rawL_11 (h : Hdr) (x : Nat) (hx : x < 2097152) : rawL (encL h 17 x) = rawMaj11 h x := by
  simp only [rawL, fld_maj h 17 x (by omega) hx, fld_low h 17 x hx, hdrOf_encL h 17 x (by omega) hx]

theorem rawL_12 (h : Hdr) (x : Nat) (hx : x < 2097152) : rawL (encL h 18 x) = rawMaj12 h x := by
  simp only [rawL, fld_maj h 18 x (by omega) hx, fld_low h 18 x hx, hdrOf_encL h 18 x (by omega) hx]

theorem rawL_13 (h : Hdr) (x : Nat) (hx : x < 2097152) : rawL (encL h 19 x) = rawMaj13 h x := by
  simp only [rawL, fld_maj h 19 x (by omega) hx, fld_low h 19 x hx, hdrOf_encL h 19 x (by omega) hx]

theorem rawL_14 (h : Hdr) (x : Nat) (hx : x < 2097152) : rawL (encL h 20 x) = rawMaj14 h x := by
  simp only [rawL, fld_maj h 20 x (by omega) hx, fld_low h 20 x hx, hdrOf_encL h 20 x (by omega) hx]

theorem rawL_15 (h : Hdr) (x : Nat) (hx : x < 2097152) : rawL (encL h 21 x) = rawMaj15 h x := by
  simp only [rawL, fld_maj h 21 x (by omega) hx, fld_low h 21 x hx, hdrOf_encL h 21 x (by omega) hx]

theorem rawL_16 (h : Hdr) (x : Nat) (hx : x < 2097152) : rawL (encL h 22 x) = rawMaj16 h x := by
  simp only [rawL, fld_maj h 22 x (by omega) hx, fld_low h 22 x hx, hdrOf_encL h 22 x (by omega) hx]

theorem rawL_17 (h : Hdr) (x : Nat) (hx : x < 2097152) : rawL (encL h 23 x) = rawMaj17 h x := by
  simp only [rawL, fld_maj h 23 x (by omega) hx, fld_low h 23 x hx, hdrOf_encL h 23 x (by omega) hx]

theorem rawL_18 (h : Hdr) (x : Nat) (hx : x < 2097152) : rawL (encL h 24 x) = rawMaj18 h x := by
  simp only [rawL, fld_maj h 24 x (by omega) hx, fld_low h 24 x hx, hdrOf_encL h 24 x (by omega) hx]

theorem rawL_19 (h : Hdr) (x : Nat) (hx : x < 2097152) : rawL (encL h 25 x) = rawMaj19 h x := by
  simp only [rawL, fld_maj h 25 x (by omega) hx, fld_low h 25 x hx, hdrOf_encL h 25 x (by omega) hx]

theorem rawL_1a (h : Hdr) (x : Nat) (hx : x < 2097152) : rawL (encL h 26 x) = rawMaj1a h x := by
  simp only [rawL, fld_maj h 26 x (by omega) hx, fld_low h 26 x hx, hdrOf_encL h 26 x (by omega) hx]

theorem rawL_20 (h : Hdr) (x : Nat) (hx : x < 2097152) : rawL (encL h 32 x) = rawMaj20 h x := by
  simp only [rawL, fld_maj h 32 x (by omega) hx, fld_low h 32 x hx, hdrOf_encL h 32 x (by omega) hx]

theorem rawL_21 (h : Hdr) (x : Nat) (hx : x < 2097152) : rawL (encL h 33 x) = rawMaj21 h x := by
  simp only [rawL, fld_maj h 33 x (by omega) hx, fld_low h 33 x hx, hdrOf_encL h 33 x (by omega) hx]

theorem rawL_22 (h : Hdr) (x : Nat) (hx : x < 2097152) : rawL (encL h 34 x) = rawMaj22 h x := by
  simp only [rawL, fld_maj h 34 x (by omega) hx, fld_low h 34 x hx, hdrOf_encL h 34 x (by omega) hx]

theorem rawL_23 (h : Hdr) (x : Nat) (hx : x < 2097152) : rawL (encL h 35 x) = rawMaj23 h x := by
  simp only [rawL, fld_maj h 35 x (by omega) hx, fld_low h 35 x hx, hdrOf_encL h 35 x (by omega) hx]

theorem rawL_24 (h : Hdr) (x : Nat) (hx : x < 2097152) : rawL (encL h 36 x) = rawMaj24 h x := by
  simp only [rawL, fld_maj h 36 x (by omega) hx, fld_low h 36 x hx, hdrOf_encL h 36 x (by omega) hx]

theorem rawL_28 (h : Hdr) (x : Nat) (hx : x < 2097152) : rawL (encL h 40 x) = rawMaj28 h x := by
  simp only [rawL, fld_maj h 40 x (by omega) hx, fld_low h 40 x hx, hdrOf_encL h 40 x (by omega) hx]

theorem rawL_29 (h : Hdr) (x : Nat) (hx : x < 2097152) : rawL (encL h 41 x) = rawMaj29 h x := by
  simp only [rawL, fld_maj h 41 x (by omega) hx, fld_low h 41 x hx, hdrOf_encL h 41 x (by omega) hx]

theorem rawL_2a (h : Hdr) (x : Nat) (hx : x < 2097152) : rawL (encL h 42 x) = rawMaj2a h x := by
  simp only [rawL, fld_maj h 42 x (by omega) hx, fld_low h 42 x hx, hdrOf_encL h 42 x (by omega) hx]

theorem rawL_2b (h : Hdr) (x : Nat) (hx : x < 2097152) : rawL (encL h 43 x) = rawMaj2b h x := by
  simp only [rawL, fld_maj h 43 x (by omega) hx, fld_low h 43 x hx, hdrOf_encL h 43 x (by omega) hx]

theorem rawL_2c (h : Hdr) (x : Nat) (hx : x < 2097152) : rawL (encL h 44 x) = rawMaj2c h x := by
  simp only [rawL, fld_maj h 44 x (by omega) hx, fld_low h 44 x hx, hdrOf_encL h 44 x (by omega) hx]

theorem rawL_2d (h : Hdr) (x : Nat) (hx : x < 2097152) : rawL (encL h 45 x) = rawMaj2d h x := by
  simp only [rawL, fld_maj h 45 x (by omega) hx, fld_low h 45 x hx, hdrOf_encL h 45 x (by omega) hx]

theorem rawL_2e (h : Hdr) (x : Nat) (hx : x < 2097152) : rawL (encL h 46 x) = rawMaj2e h x := by
  simp only [rawL, fld_maj h 46 x (by omega) hx, fld_low h 46 x hx, hdrOf_encL h 46 x (by omega) hx]

theorem rawL_2f (h : Hdr) (x : Nat) (hx : x < 2097152) : rawL (encL h 47 x) = rawMaj2f h x := by
  simp only [rawL, fld_maj h 47 x (by omega) hx, fld_low h 47 x hx, hdrOf_encL h 47 x (by omega) hx]

theorem rawL_30 (h : Hdr) (x : Nat) (hx : x < 2097152) : rawL (encL h 48 x) = rawMaj30 h x := by
  simp only [rawL, fld_maj h 48 x (by omega) hx, fld_low h 48 x hx, hdrOf_encL h 48 x (by omega) hx]

theorem rawL_31 (h : Hdr) (x : Nat) (hx : x < 2097152) : rawL (encL h 49 x) = rawMaj31 h x := by
  simp only [rawL, fld_maj h 49 x (by omega) hx, fld_low h 49 x hx, hdrOf_encL h 49 x (by omega) hx]

theorem rawL_32 (h : Hdr) (x : Nat) (hx : x < 2097152) : rawL (encL h 50 x) = rawMaj32 h x := by
  simp only [rawL, fld_maj h 50 x (by omega) hx, fld_low h 50 x hx, hdrOf_encL h 50 x (by omega) hx]

theorem rawL_33 (h : Hdr) (x : Nat) (hx : x < 2097152) : rawL (encL h 51 x) = rawMaj33 h x := by
  simp only [rawL, fld_maj h 51 x (by omega) hx, fld_low h 51 x hx, hdrOf_encL h 51 x (by omega) hx]

theorem rawL_34 (h : Hdr) (x : Nat) (hx : x < 2097152) : rawL (encL h 52 x) = rawMaj34 h x := by
  simp only [rawL, fld_maj h 52 x (by omega) hx, fld_low h 52 x hx, hdrOf_encL h 52 x (by omega) hx]

theorem rawL_35 (h : Hdr) (x : Nat) (hx : x < 2097152) : rawL (encL h 53 x) = rawMaj35 h x := by
  simp only [rawL, fld_maj h 53 x (by omega) hx, fld_low h 53 x hx, hdrOf_encL h 53 x (by omega) hx]

theorem rawL_36 (h : Hdr) (x : Nat) (hx : x < 2097152) : rawL (encL h 54 x) = rawMaj36 h x := by
  simp only [rawL, fld_maj h 54 x (by omega) hx, fld_low h 54 x hx, hdrOf_encL h 54 x (by omega) hx]

theorem rawL_37 (h : Hdr) (x : Nat) (hx : x < 2097152) : rawL (encL h 55 x) = rawMaj37 h x := by
  simp only [rawL, fld_maj h 55 x (by omega) hx, fld_low h 55 x hx, hdrOf_encL h 55 x (by omega) hx]

theorem rawL_38 (h : Hdr) (x : Nat) (hx : x < 2097152) : rawL (encL h 56 x) = rawMaj38 h x := by
  simp only [rawL, fld_maj h 56 x (by omega) hx, fld_low h 56 x hx, hdrOf_encL h 56 x (by omega) hx]

theorem rawL_39 (h : Hdr) (x : Nat) (hx : x < 2097152) : rawL (encL h 57 x) = rawMaj39 h x := by
  simp only [rawL, fld_maj h 57 x (by omega) hx, fld_low h 57 x hx, hdrOf_encL h 57 x (by omega) hx]

theorem rawL_3a (h : Hdr) (x : Nat) (hx : x < 2097152) : rawL (encL h 58 x) = rawMaj3a h x := by
  simp only [rawL, fld_maj h 58 x (by omega) hx, fld_low h 58 x hx, hdrOf_encL h 58 x (by omega) hx]

theorem rawL_3b (h : Hdr) (x : Nat) (hx : x < 2097152) : rawL (encL h 59 x) = rawMaj3b h x := by
  simp only [rawL, fld_maj h 59 x (by omega) hx, fld_low h 59 x hx, hdrOf_encL h 59 x (by omega) hx]

theorem rawL_3c (h : Hdr) (x : Nat) (hx : x < 2097152) : rawL (encL h 60 x) = rawMaj3c h x := by
  simp only [rawL, fld_maj h 60 x (by omega) hx, fld_low h 60 x hx, hdrOf_encL h 60 x (by omega) hx]

theorem layout_0 (f0 f1 f2 : Nat) (_ : f0 < 16) (_ : f1 < 16) (_ : f2 < 16) :
    f0 * 131072 + f1 * 8192 + f2 * 512 < 2097152 ∧ fld (f0 * 131072 + f1 * 8192 + f2 * 512) 0 9 = 0 ∧ fld (f0 * 131072 + f1 * 8192 + f2 * 512) 17 4 = f0 ∧ fld (f0 * 131072 + f1 * 8192 + f2 * 512) 13 4 = f1 ∧ fld (f0 * 131072 + f1 * 8192 + f2 * 512) 9 4 = f2 := by
  simp only [fld]
  omega

theorem Encoding.add (h : Hdr) (rd : BitVec 4) (ra : BitVec 4) (rb : BitVec 4) : Encoding.Statement (.add h rd ra rb) := by
  intro hw w he
  obtain rfl := Option.some.inj he
  obtain ⟨hx, e0, e1, e2, e3⟩ := layout_0 rd.toNat ra.toNat rb.toNat rd.isLt ra.isLt rb.isLt
  refine decodeL_of ?_ hw
  rw [rawL_01 h _ hx]
  simp [rawMaj01, e0, e1, e2, e3]

theorem layout_1 (f0 f1 f2 K k0 : Nat) (_ : f0 < 16) (_ : f1 < 16) (_ : f2 < 16) (_ : K = k0 * 1) (_ : k0 < 512) :
    f0 * 131072 + f1 * 8192 + f2 * 512 + K < 2097152 ∧ fld (f0 * 131072 + f1 * 8192 + f2 * 512 + K) 0 9 = k0 ∧ fld (f0 * 131072 + f1 * 8192 + f2 * 512 + K) 17 4 = f0 ∧ fld (f0 * 131072 + f1 * 8192 + f2 * 512 + K) 13 4 = f1 ∧ fld (f0 * 131072 + f1 * 8192 + f2 * 512 + K) 9 4 = f2 := by
  simp only [fld]
  omega

theorem Encoding.sub (h : Hdr) (rd : BitVec 4) (ra : BitVec 4) (rb : BitVec 4) : Encoding.Statement (.sub h rd ra rb) := by
  intro hw w he
  obtain rfl := Option.some.inj he
  obtain ⟨hx, e0, e1, e2, e3⟩ := layout_1 rd.toNat ra.toNat rb.toNat 1 1 rd.isLt ra.isLt rb.isLt rfl (by decide)
  refine decodeL_of ?_ hw
  rw [rawL_01 h _ hx]
  simp [rawMaj01, e0, e1, e2, e3]

theorem Encoding.andR (h : Hdr) (rd : BitVec 4) (ra : BitVec 4) (rb : BitVec 4) : Encoding.Statement (.andR h rd ra rb) := by
  intro hw w he
  obtain rfl := Option.some.inj he
  obtain ⟨hx, e0, e1, e2, e3⟩ := layout_1 rd.toNat ra.toNat rb.toNat 2 2 rd.isLt ra.isLt rb.isLt rfl (by decide)
  refine decodeL_of ?_ hw
  rw [rawL_01 h _ hx]
  simp [rawMaj01, e0, e1, e2, e3]

theorem Encoding.orR (h : Hdr) (rd : BitVec 4) (ra : BitVec 4) (rb : BitVec 4) : Encoding.Statement (.orR h rd ra rb) := by
  intro hw w he
  obtain rfl := Option.some.inj he
  obtain ⟨hx, e0, e1, e2, e3⟩ := layout_1 rd.toNat ra.toNat rb.toNat 3 3 rd.isLt ra.isLt rb.isLt rfl (by decide)
  refine decodeL_of ?_ hw
  rw [rawL_01 h _ hx]
  simp [rawMaj01, e0, e1, e2, e3]

theorem Encoding.xorR (h : Hdr) (rd : BitVec 4) (ra : BitVec 4) (rb : BitVec 4) : Encoding.Statement (.xorR h rd ra rb) := by
  intro hw w he
  obtain rfl := Option.some.inj he
  obtain ⟨hx, e0, e1, e2, e3⟩ := layout_1 rd.toNat ra.toNat rb.toNat 4 4 rd.isLt ra.isLt rb.isLt rfl (by decide)
  refine decodeL_of ?_ hw
  rw [rawL_01 h _ hx]
  simp [rawMaj01, e0, e1, e2, e3]

theorem Encoding.andn (h : Hdr) (rd : BitVec 4) (ra : BitVec 4) (rb : BitVec 4) : Encoding.Statement (.andn h rd ra rb) := by
  intro hw w he
  obtain rfl := Option.some.inj he
  obtain ⟨hx, e0, e1, e2, e3⟩ := layout_1 rd.toNat ra.toNat rb.toNat 5 5 rd.isLt ra.isLt rb.isLt rfl (by decide)
  refine decodeL_of ?_ hw
  rw [rawL_01 h _ hx]
  simp [rawMaj01, e0, e1, e2, e3]

theorem Encoding.sll (h : Hdr) (rd : BitVec 4) (ra : BitVec 4) (rb : BitVec 4) : Encoding.Statement (.sll h rd ra rb) := by
  intro hw w he
  obtain rfl := Option.some.inj he
  obtain ⟨hx, e0, e1, e2, e3⟩ := layout_1 rd.toNat ra.toNat rb.toNat 6 6 rd.isLt ra.isLt rb.isLt rfl (by decide)
  refine decodeL_of ?_ hw
  rw [rawL_01 h _ hx]
  simp [rawMaj01, e0, e1, e2, e3]

theorem Encoding.srl (h : Hdr) (rd : BitVec 4) (ra : BitVec 4) (rb : BitVec 4) : Encoding.Statement (.srl h rd ra rb) := by
  intro hw w he
  obtain rfl := Option.some.inj he
  obtain ⟨hx, e0, e1, e2, e3⟩ := layout_1 rd.toNat ra.toNat rb.toNat 7 7 rd.isLt ra.isLt rb.isLt rfl (by decide)
  refine decodeL_of ?_ hw
  rw [rawL_01 h _ hx]
  simp [rawMaj01, e0, e1, e2, e3]

theorem Encoding.sra (h : Hdr) (rd : BitVec 4) (ra : BitVec 4) (rb : BitVec 4) : Encoding.Statement (.sra h rd ra rb) := by
  intro hw w he
  obtain rfl := Option.some.inj he
  obtain ⟨hx, e0, e1, e2, e3⟩ := layout_1 rd.toNat ra.toNat rb.toNat 8 8 rd.isLt ra.isLt rb.isLt rfl (by decide)
  refine decodeL_of ?_ hw
  rw [rawL_01 h _ hx]
  simp [rawMaj01, e0, e1, e2, e3]

theorem Encoding.mul (h : Hdr) (rd : BitVec 4) (ra : BitVec 4) (rb : BitVec 4) : Encoding.Statement (.mul h rd ra rb) := by
  intro hw w he
  obtain rfl := Option.some.inj he
  obtain ⟨hx, e0, e1, e2, e3⟩ := layout_1 rd.toNat ra.toNat rb.toNat 9 9 rd.isLt ra.isLt rb.isLt rfl (by decide)
  refine decodeL_of ?_ hw
  rw [rawL_01 h _ hx]
  simp [rawMaj01, e0, e1, e2, e3]

theorem Encoding.mulh (h : Hdr) (rd : BitVec 4) (ra : BitVec 4) (rb : BitVec 4) : Encoding.Statement (.mulh h rd ra rb) := by
  intro hw w he
  obtain rfl := Option.some.inj he
  obtain ⟨hx, e0, e1, e2, e3⟩ := layout_1 rd.toNat ra.toNat rb.toNat 10 10 rd.isLt ra.isLt rb.isLt rfl (by decide)
  refine decodeL_of ?_ hw
  rw [rawL_01 h _ hx]
  simp [rawMaj01, e0, e1, e2, e3]

theorem Encoding.divS (h : Hdr) (rd : BitVec 4) (ra : BitVec 4) (rb : BitVec 4) : Encoding.Statement (.divS h rd ra rb) := by
  intro hw w he
  obtain rfl := Option.some.inj he
  obtain ⟨hx, e0, e1, e2, e3⟩ := layout_1 rd.toNat ra.toNat rb.toNat 11 11 rd.isLt ra.isLt rb.isLt rfl (by decide)
  refine decodeL_of ?_ hw
  rw [rawL_01 h _ hx]
  simp [rawMaj01, e0, e1, e2, e3]

theorem Encoding.divu (h : Hdr) (rd : BitVec 4) (ra : BitVec 4) (rb : BitVec 4) : Encoding.Statement (.divu h rd ra rb) := by
  intro hw w he
  obtain rfl := Option.some.inj he
  obtain ⟨hx, e0, e1, e2, e3⟩ := layout_1 rd.toNat ra.toNat rb.toNat 12 12 rd.isLt ra.isLt rb.isLt rfl (by decide)
  refine decodeL_of ?_ hw
  rw [rawL_01 h _ hx]
  simp [rawMaj01, e0, e1, e2, e3]

theorem Encoding.remS (h : Hdr) (rd : BitVec 4) (ra : BitVec 4) (rb : BitVec 4) : Encoding.Statement (.remS h rd ra rb) := by
  intro hw w he
  obtain rfl := Option.some.inj he
  obtain ⟨hx, e0, e1, e2, e3⟩ := layout_1 rd.toNat ra.toNat rb.toNat 13 13 rd.isLt ra.isLt rb.isLt rfl (by decide)
  refine decodeL_of ?_ hw
  rw [rawL_01 h _ hx]
  simp [rawMaj01, e0, e1, e2, e3]

theorem Encoding.remu (h : Hdr) (rd : BitVec 4) (ra : BitVec 4) (rb : BitVec 4) : Encoding.Statement (.remu h rd ra rb) := by
  intro hw w he
  obtain rfl := Option.some.inj he
  obtain ⟨hx, e0, e1, e2, e3⟩ := layout_1 rd.toNat ra.toNat rb.toNat 14 14 rd.isLt ra.isLt rb.isLt rfl (by decide)
  refine decodeL_of ?_ hw
  rw [rawL_01 h _ hx]
  simp [rawMaj01, e0, e1, e2, e3]

theorem Encoding.minS (h : Hdr) (rd : BitVec 4) (ra : BitVec 4) (rb : BitVec 4) : Encoding.Statement (.minS h rd ra rb) := by
  intro hw w he
  obtain rfl := Option.some.inj he
  obtain ⟨hx, e0, e1, e2, e3⟩ := layout_1 rd.toNat ra.toNat rb.toNat 15 15 rd.isLt ra.isLt rb.isLt rfl (by decide)
  refine decodeL_of ?_ hw
  rw [rawL_01 h _ hx]
  simp [rawMaj01, e0, e1, e2, e3]

theorem Encoding.maxS (h : Hdr) (rd : BitVec 4) (ra : BitVec 4) (rb : BitVec 4) : Encoding.Statement (.maxS h rd ra rb) := by
  intro hw w he
  obtain rfl := Option.some.inj he
  obtain ⟨hx, e0, e1, e2, e3⟩ := layout_1 rd.toNat ra.toNat rb.toNat 16 16 rd.isLt ra.isLt rb.isLt rfl (by decide)
  refine decodeL_of ?_ hw
  rw [rawL_01 h _ hx]
  simp [rawMaj01, e0, e1, e2, e3]

theorem Encoding.minu (h : Hdr) (rd : BitVec 4) (ra : BitVec 4) (rb : BitVec 4) : Encoding.Statement (.minu h rd ra rb) := by
  intro hw w he
  obtain rfl := Option.some.inj he
  obtain ⟨hx, e0, e1, e2, e3⟩ := layout_1 rd.toNat ra.toNat rb.toNat 17 17 rd.isLt ra.isLt rb.isLt rfl (by decide)
  refine decodeL_of ?_ hw
  rw [rawL_01 h _ hx]
  simp [rawMaj01, e0, e1, e2, e3]

theorem Encoding.maxu (h : Hdr) (rd : BitVec 4) (ra : BitVec 4) (rb : BitVec 4) : Encoding.Statement (.maxu h rd ra rb) := by
  intro hw w he
  obtain rfl := Option.some.inj he
  obtain ⟨hx, e0, e1, e2, e3⟩ := layout_1 rd.toNat ra.toNat rb.toNat 18 18 rd.isLt ra.isLt rb.isLt rfl (by decide)
  refine decodeL_of ?_ hw
  rw [rawL_01 h _ hx]
  simp [rawMaj01, e0, e1, e2, e3]

theorem layout_2 (f0 f1 K k0 : Nat) (_ : f0 < 16) (_ : f1 < 16) (_ : K = k0 * 1) (_ : k0 < 512) :
    f0 * 131072 + f1 * 8192 + K < 2097152 ∧ fld (f0 * 131072 + f1 * 8192 + K) 0 9 = k0 ∧ fld (f0 * 131072 + f1 * 8192 + K) 9 4 = 0 ∧ fld (f0 * 131072 + f1 * 8192 + K) 17 4 = f0 ∧ fld (f0 * 131072 + f1 * 8192 + K) 13 4 = f1 := by
  simp only [fld]
  omega

theorem Encoding.mov (h : Hdr) (rd : BitVec 4) (ra : BitVec 4) : Encoding.Statement (.mov h rd ra) := by
  intro hw w he
  obtain rfl := Option.some.inj he
  obtain ⟨hx, e0, e1, e2, e3⟩ := layout_2 rd.toNat ra.toNat 19 19 rd.isLt ra.isLt rfl (by decide)
  refine decodeL_of ?_ hw
  rw [rawL_01 h _ hx]
  simp [rawMaj01, e0, e1, e2, e3]

theorem Encoding.clz (h : Hdr) (rd : BitVec 4) (ra : BitVec 4) : Encoding.Statement (.clz h rd ra) := by
  intro hw w he
  obtain rfl := Option.some.inj he
  obtain ⟨hx, e0, e1, e2, e3⟩ := layout_2 rd.toNat ra.toNat 20 20 rd.isLt ra.isLt rfl (by decide)
  refine decodeL_of ?_ hw
  rw [rawL_01 h _ hx]
  simp [rawMaj01, e0, e1, e2, e3]

theorem Encoding.popc (h : Hdr) (rd : BitVec 4) (ra : BitVec 4) : Encoding.Statement (.popc h rd ra) := by
  intro hw w he
  obtain rfl := Option.some.inj he
  obtain ⟨hx, e0, e1, e2, e3⟩ := layout_2 rd.toNat ra.toNat 21 21 rd.isLt ra.isLt rfl (by decide)
  refine decodeL_of ?_ hw
  rw [rawL_01 h _ hx]
  simp [rawMaj01, e0, e1, e2, e3]

theorem layout_3 (f0 f1 f2 : Nat) (_ : f0 < 16) (_ : f1 < 16) (_ : f2 < 8192) :
    f0 * 131072 + f1 * 8192 + f2 < 2097152 ∧ fld (f0 * 131072 + f1 * 8192 + f2) 17 4 = f0 ∧ fld (f0 * 131072 + f1 * 8192 + f2) 13 4 = f1 ∧ fld (f0 * 131072 + f1 * 8192 + f2) 0 13 = f2 := by
  simp only [fld]
  omega

theorem Encoding.addi (h : Hdr) (rd : BitVec 4) (ra : BitVec 4) (imm : BitVec 13) : Encoding.Statement (.addi h rd ra imm) := by
  intro hw w he
  obtain rfl := Option.some.inj he
  obtain ⟨hx, e0, e1, e2⟩ := layout_3 rd.toNat ra.toNat imm.toNat rd.isLt ra.isLt imm.isLt
  refine decodeL_of ?_ hw
  rw [rawL_02 h _ hx]
  simp [rawMaj02, e0, e1, e2]

theorem Encoding.andi (h : Hdr) (rd : BitVec 4) (ra : BitVec 4) (imm : BitVec 13) : Encoding.Statement (.andi h rd ra imm) := by
  intro hw w he
  obtain rfl := Option.some.inj he
  obtain ⟨hx, e0, e1, e2⟩ := layout_3 rd.toNat ra.toNat imm.toNat rd.isLt ra.isLt imm.isLt
  refine decodeL_of ?_ hw
  rw [rawL_03 h _ hx]
  simp [rawMaj03, e0, e1, e2]

theorem Encoding.ori (h : Hdr) (rd : BitVec 4) (ra : BitVec 4) (imm : BitVec 13) : Encoding.Statement (.ori h rd ra imm) := by
  intro hw w he
  obtain rfl := Option.some.inj he
  obtain ⟨hx, e0, e1, e2⟩ := layout_3 rd.toNat ra.toNat imm.toNat rd.isLt ra.isLt imm.isLt
  refine decodeL_of ?_ hw
  rw [rawL_04 h _ hx]
  simp [rawMaj04, e0, e1, e2]

theorem Encoding.xori (h : Hdr) (rd : BitVec 4) (ra : BitVec 4) (imm : BitVec 13) : Encoding.Statement (.xori h rd ra imm) := by
  intro hw w he
  obtain rfl := Option.some.inj he
  obtain ⟨hx, e0, e1, e2⟩ := layout_3 rd.toNat ra.toNat imm.toNat rd.isLt ra.isLt imm.isLt
  refine decodeL_of ?_ hw
  rw [rawL_05 h _ hx]
  simp [rawMaj05, e0, e1, e2]

theorem layout_4 (f0 f1 f2 : Nat) (_ : f0 < 16) (_ : f1 < 16) (_ : f2 < 64) :
    f0 * 131072 + f1 * 8192 + f2 < 2097152 ∧ fld (f0 * 131072 + f1 * 8192 + f2) 6 2 = 0 ∧ fld (f0 * 131072 + f1 * 8192 + f2) 8 5 = 0 ∧ fld (f0 * 131072 + f1 * 8192 + f2) 17 4 = f0 ∧ fld (f0 * 131072 + f1 * 8192 + f2) 13 4 = f1 ∧ fld (f0 * 131072 + f1 * 8192 + f2) 0 6 = f2 := by
  simp only [fld]
  omega

theorem Encoding.slli (h : Hdr) (rd : BitVec 4) (ra : BitVec 4) (amt : BitVec 6) : Encoding.Statement (.slli h rd ra amt) := by
  intro hw w he
  obtain rfl := Option.some.inj he
  obtain ⟨hx, e0, e1, e2, e3, e4⟩ := layout_4 rd.toNat ra.toNat amt.toNat rd.isLt ra.isLt amt.isLt
  refine decodeL_of ?_ hw
  rw [rawL_06 h _ hx]
  simp [rawMaj06, e0, e1, e2, e3, e4]

theorem layout_5 (f0 f1 f2 K k0 : Nat) (_ : f0 < 16) (_ : f1 < 16) (_ : f2 < 64) (_ : K = k0 * 64) (_ : k0 < 4) :
    f0 * 131072 + f1 * 8192 + f2 + K < 2097152 ∧ fld (f0 * 131072 + f1 * 8192 + f2 + K) 6 2 = k0 ∧ fld (f0 * 131072 + f1 * 8192 + f2 + K) 8 5 = 0 ∧ fld (f0 * 131072 + f1 * 8192 + f2 + K) 17 4 = f0 ∧ fld (f0 * 131072 + f1 * 8192 + f2 + K) 13 4 = f1 ∧ fld (f0 * 131072 + f1 * 8192 + f2 + K) 0 6 = f2 := by
  simp only [fld]
  omega

theorem Encoding.srli (h : Hdr) (rd : BitVec 4) (ra : BitVec 4) (amt : BitVec 6) : Encoding.Statement (.srli h rd ra amt) := by
  intro hw w he
  obtain rfl := Option.some.inj he
  obtain ⟨hx, e0, e1, e2, e3, e4⟩ := layout_5 rd.toNat ra.toNat amt.toNat 64 1 rd.isLt ra.isLt amt.isLt rfl (by decide)
  refine decodeL_of ?_ hw
  rw [rawL_06 h _ hx]
  simp [rawMaj06, e0, e1, e2, e3, e4]

theorem Encoding.srai (h : Hdr) (rd : BitVec 4) (ra : BitVec 4) (amt : BitVec 6) : Encoding.Statement (.srai h rd ra amt) := by
  intro hw w he
  obtain rfl := Option.some.inj he
  obtain ⟨hx, e0, e1, e2, e3, e4⟩ := layout_5 rd.toNat ra.toNat amt.toNat 128 2 rd.isLt ra.isLt amt.isLt rfl (by decide)
  refine decodeL_of ?_ hw
  rw [rawL_06 h _ hx]
  simp [rawMaj06, e0, e1, e2, e3, e4]

theorem layout_6 (f0 f1 : Nat) (_ : f0 < 16) (_ : f1 < 131072) :
    f0 * 131072 + f1 < 2097152 ∧ fld (f0 * 131072 + f1) 17 4 = f0 ∧ fld (f0 * 131072 + f1) 0 17 = f1 := by
  simp only [fld]
  omega

theorem Encoding.lui (h : Hdr) (rd : BitVec 4) (imm : BitVec 17) : Encoding.Statement (.lui h rd imm) := by
  intro hw w he
  obtain rfl := Option.some.inj he
  obtain ⟨hx, e0, e1⟩ := layout_6 rd.toNat imm.toNat rd.isLt imm.isLt
  refine decodeL_of ?_ hw
  rw [rawL_07 h _ hx]
  simp [rawMaj07, e0, e1]

theorem Encoding.auipc (h : Hdr) (rd : BitVec 4) (imm : BitVec 17) : Encoding.Statement (.auipc h rd imm) := by
  intro hw w he
  obtain rfl := Option.some.inj he
  obtain ⟨hx, e0, e1⟩ := layout_6 rd.toNat imm.toNat rd.isLt imm.isLt
  refine decodeL_of ?_ hw
  rw [rawL_08 h _ hx]
  simp [rawMaj08, e0, e1]

theorem Encoding.cmpEq (h : Hdr) (rd : BitVec 4) (ra : BitVec 4) (rb : BitVec 4) : Encoding.Statement (.cmpEq h rd ra rb) := by
  intro hw w he
  obtain rfl := Option.some.inj he
  obtain ⟨hx, e0, e1, e2, e3⟩ := layout_0 rd.toNat ra.toNat rb.toNat rd.isLt ra.isLt rb.isLt
  refine decodeL_of ?_ hw
  rw [rawL_09 h _ hx]
  simp [rawMaj09, e0, e1, e2, e3]

theorem Encoding.cmpNe (h : Hdr) (rd : BitVec 4) (ra : BitVec 4) (rb : BitVec 4) : Encoding.Statement (.cmpNe h rd ra rb) := by
  intro hw w he
  obtain rfl := Option.some.inj he
  obtain ⟨hx, e0, e1, e2, e3⟩ := layout_1 rd.toNat ra.toNat rb.toNat 1 1 rd.isLt ra.isLt rb.isLt rfl (by decide)
  refine decodeL_of ?_ hw
  rw [rawL_09 h _ hx]
  simp [rawMaj09, e0, e1, e2, e3]

theorem Encoding.cmpLt (h : Hdr) (rd : BitVec 4) (ra : BitVec 4) (rb : BitVec 4) : Encoding.Statement (.cmpLt h rd ra rb) := by
  intro hw w he
  obtain rfl := Option.some.inj he
  obtain ⟨hx, e0, e1, e2, e3⟩ := layout_1 rd.toNat ra.toNat rb.toNat 2 2 rd.isLt ra.isLt rb.isLt rfl (by decide)
  refine decodeL_of ?_ hw
  rw [rawL_09 h _ hx]
  simp [rawMaj09, e0, e1, e2, e3]

theorem Encoding.cmpGe (h : Hdr) (rd : BitVec 4) (ra : BitVec 4) (rb : BitVec 4) : Encoding.Statement (.cmpGe h rd ra rb) := by
  intro hw w he
  obtain rfl := Option.some.inj he
  obtain ⟨hx, e0, e1, e2, e3⟩ := layout_1 rd.toNat ra.toNat rb.toNat 3 3 rd.isLt ra.isLt rb.isLt rfl (by decide)
  refine decodeL_of ?_ hw
  rw [rawL_09 h _ hx]
  simp [rawMaj09, e0, e1, e2, e3]

theorem Encoding.cmpLtu (h : Hdr) (rd : BitVec 4) (ra : BitVec 4) (rb : BitVec 4) : Encoding.Statement (.cmpLtu h rd ra rb) := by
  intro hw w he
  obtain rfl := Option.some.inj he
  obtain ⟨hx, e0, e1, e2, e3⟩ := layout_1 rd.toNat ra.toNat rb.toNat 4 4 rd.isLt ra.isLt rb.isLt rfl (by decide)
  refine decodeL_of ?_ hw
  rw [rawL_09 h _ hx]
  simp [rawMaj09, e0, e1, e2, e3]

theorem Encoding.cmpGeu (h : Hdr) (rd : BitVec 4) (ra : BitVec 4) (rb : BitVec 4) : Encoding.Statement (.cmpGeu h rd ra rb) := by
  intro hw w he
  obtain rfl := Option.some.inj he
  obtain ⟨hx, e0, e1, e2, e3⟩ := layout_1 rd.toNat ra.toNat rb.toNat 5 5 rd.isLt ra.isLt rb.isLt rfl (by decide)
  refine decodeL_of ?_ hw
  rw [rawL_09 h _ hx]
  simp [rawMaj09, e0, e1, e2, e3]

theorem layout_7 (f0 f1 f2 : Nat) (_ : f0 < 16) (_ : f1 < 16) (_ : f2 < 1024) :
    f0 * 131072 + f1 * 8192 + f2 < 2097152 ∧ fld (f0 * 131072 + f1 * 8192 + f2) 10 3 = 0 ∧ fld (f0 * 131072 + f1 * 8192 + f2) 17 4 = f0 ∧ fld (f0 * 131072 + f1 * 8192 + f2) 13 4 = f1 ∧ fld (f0 * 131072 + f1 * 8192 + f2) 0 10 = f2 := by
  simp only [fld]
  omega

theorem Encoding.cmpiEq (h : Hdr) (rd : BitVec 4) (ra : BitVec 4) (imm : BitVec 10) : Encoding.Statement (.cmpiEq h rd ra imm) := by
  intro hw w he
  obtain rfl := Option.some.inj he
  obtain ⟨hx, e0, e1, e2, e3⟩ := layout_7 rd.toNat ra.toNat imm.toNat rd.isLt ra.isLt imm.isLt
  refine decodeL_of ?_ hw
  rw [rawL_0a h _ hx]
  simp [rawMaj0a, e0, e1, e2, e3]

theorem layout_8 (f0 f1 f2 K k0 : Nat) (_ : f0 < 16) (_ : f1 < 16) (_ : f2 < 1024) (_ : K = k0 * 1024) (_ : k0 < 8) :
    f0 * 131072 + f1 * 8192 + f2 + K < 2097152 ∧ fld (f0 * 131072 + f1 * 8192 + f2 + K) 10 3 = k0 ∧ fld (f0 * 131072 + f1 * 8192 + f2 + K) 17 4 = f0 ∧ fld (f0 * 131072 + f1 * 8192 + f2 + K) 13 4 = f1 ∧ fld (f0 * 131072 + f1 * 8192 + f2 + K) 0 10 = f2 := by
  simp only [fld]
  omega

theorem Encoding.cmpiNe (h : Hdr) (rd : BitVec 4) (ra : BitVec 4) (imm : BitVec 10) : Encoding.Statement (.cmpiNe h rd ra imm) := by
  intro hw w he
  obtain rfl := Option.some.inj he
  obtain ⟨hx, e0, e1, e2, e3⟩ := layout_8 rd.toNat ra.toNat imm.toNat 1024 1 rd.isLt ra.isLt imm.isLt rfl (by decide)
  refine decodeL_of ?_ hw
  rw [rawL_0a h _ hx]
  simp [rawMaj0a, e0, e1, e2, e3]

theorem Encoding.cmpiLt (h : Hdr) (rd : BitVec 4) (ra : BitVec 4) (imm : BitVec 10) : Encoding.Statement (.cmpiLt h rd ra imm) := by
  intro hw w he
  obtain rfl := Option.some.inj he
  obtain ⟨hx, e0, e1, e2, e3⟩ := layout_8 rd.toNat ra.toNat imm.toNat 2048 2 rd.isLt ra.isLt imm.isLt rfl (by decide)
  refine decodeL_of ?_ hw
  rw [rawL_0a h _ hx]
  simp [rawMaj0a, e0, e1, e2, e3]

theorem Encoding.cmpiGe (h : Hdr) (rd : BitVec 4) (ra : BitVec 4) (imm : BitVec 10) : Encoding.Statement (.cmpiGe h rd ra imm) := by
  intro hw w he
  obtain rfl := Option.some.inj he
  obtain ⟨hx, e0, e1, e2, e3⟩ := layout_8 rd.toNat ra.toNat imm.toNat 3072 3 rd.isLt ra.isLt imm.isLt rfl (by decide)
  refine decodeL_of ?_ hw
  rw [rawL_0a h _ hx]
  simp [rawMaj0a, e0, e1, e2, e3]

theorem Encoding.cmpiLtu (h : Hdr) (rd : BitVec 4) (ra : BitVec 4) (imm : BitVec 10) : Encoding.Statement (.cmpiLtu h rd ra imm) := by
  intro hw w he
  obtain rfl := Option.some.inj he
  obtain ⟨hx, e0, e1, e2, e3⟩ := layout_8 rd.toNat ra.toNat imm.toNat 4096 4 rd.isLt ra.isLt imm.isLt rfl (by decide)
  refine decodeL_of ?_ hw
  rw [rawL_0a h _ hx]
  simp [rawMaj0a, e0, e1, e2, e3]

theorem Encoding.cmpiGeu (h : Hdr) (rd : BitVec 4) (ra : BitVec 4) (imm : BitVec 10) : Encoding.Statement (.cmpiGeu h rd ra imm) := by
  intro hw w he
  obtain rfl := Option.some.inj he
  obtain ⟨hx, e0, e1, e2, e3⟩ := layout_8 rd.toNat ra.toNat imm.toNat 5120 5 rd.isLt ra.isLt imm.isLt rfl (by decide)
  refine decodeL_of ?_ hw
  rw [rawL_0a h _ hx]
  simp [rawMaj0a, e0, e1, e2, e3]

theorem Encoding.pand (h : Hdr) (rd : BitVec 4) (ra : BitVec 4) (rb : BitVec 4) : Encoding.Statement (.pand h rd ra rb) := by
  intro hw w he
  obtain rfl := Option.some.inj he
  obtain ⟨hx, e0, e1, e2, e3⟩ := layout_0 rd.toNat ra.toNat rb.toNat rd.isLt ra.isLt rb.isLt
  refine decodeL_of ?_ hw
  rw [rawL_0b h _ hx]
  simp [rawMaj0b, e0, e1, e2, e3]

theorem Encoding.por (h : Hdr) (rd : BitVec 4) (ra : BitVec 4) (rb : BitVec 4) : Encoding.Statement (.por h rd ra rb) := by
  intro hw w he
  obtain rfl := Option.some.inj he
  obtain ⟨hx, e0, e1, e2, e3⟩ := layout_1 rd.toNat ra.toNat rb.toNat 1 1 rd.isLt ra.isLt rb.isLt rfl (by decide)
  refine decodeL_of ?_ hw
  rw [rawL_0b h _ hx]
  simp [rawMaj0b, e0, e1, e2, e3]

theorem Encoding.pxor (h : Hdr) (rd : BitVec 4) (ra : BitVec 4) (rb : BitVec 4) : Encoding.Statement (.pxor h rd ra rb) := by
  intro hw w he
  obtain rfl := Option.some.inj he
  obtain ⟨hx, e0, e1, e2, e3⟩ := layout_1 rd.toNat ra.toNat rb.toNat 2 2 rd.isLt ra.isLt rb.isLt rfl (by decide)
  refine decodeL_of ?_ hw
  rw [rawL_0b h _ hx]
  simp [rawMaj0b, e0, e1, e2, e3]

theorem Encoding.pandn (h : Hdr) (rd : BitVec 4) (ra : BitVec 4) (rb : BitVec 4) : Encoding.Statement (.pandn h rd ra rb) := by
  intro hw w he
  obtain rfl := Option.some.inj he
  obtain ⟨hx, e0, e1, e2, e3⟩ := layout_1 rd.toNat ra.toNat rb.toNat 3 3 rd.isLt ra.isLt rb.isLt rfl (by decide)
  refine decodeL_of ?_ hw
  rw [rawL_0b h _ hx]
  simp [rawMaj0b, e0, e1, e2, e3]

theorem Encoding.pnot (h : Hdr) (rd : BitVec 4) (ra : BitVec 4) : Encoding.Statement (.pnot h rd ra) := by
  intro hw w he
  obtain rfl := Option.some.inj he
  obtain ⟨hx, e0, e1, e2, e3⟩ := layout_2 rd.toNat ra.toNat 4 4 rd.isLt ra.isLt rfl (by decide)
  refine decodeL_of ?_ hw
  rw [rawL_0b h _ hx]
  simp [rawMaj0b, e0, e1, e2, e3]

theorem layout_9 (f0 f1 K k0 : Nat) (_ : f0 < 16) (_ : f1 < 2) (_ : K = k0 * 1) (_ : k0 < 512) :
    f0 * 131072 + f1 * 8192 + K < 2097152 ∧ fld (f0 * 131072 + f1 * 8192 + K) 0 9 = k0 ∧ fld (f0 * 131072 + f1 * 8192 + K) 9 4 = 0 ∧ fld (f0 * 131072 + f1 * 8192 + K) 14 3 = 0 ∧ fld (f0 * 131072 + f1 * 8192 + K) 17 4 = f0 ∧ fld (f0 * 131072 + f1 * 8192 + K) 13 1 = f1 := by
  simp only [fld]
  omega

theorem Encoding.pset (h : Hdr) (rd : BitVec 4) (val : Bool) : Encoding.Statement (.pset h rd val) := by
  intro hw w he
  obtain rfl := Option.some.inj he
  obtain ⟨hx, e0, e1, e2, e3, e4⟩ := layout_9 rd.toNat val.toNat 5 5 rd.isLt (bool_lt val) rfl (by decide)
  refine decodeL_of ?_ hw
  rw [rawL_0b h _ hx]
  simp [rawMaj0b, e0, e1, e2, e3, e4]

theorem layout_10 (f0 K k0 : Nat) (_ : f0 < 16) (_ : K = k0 * 1) (_ : k0 < 512) :
    f0 * 131072 + K < 2097152 ∧ fld (f0 * 131072 + K) 0 9 = k0 ∧ fld (f0 * 131072 + K) 9 8 = 0 ∧ fld (f0 * 131072 + K) 17 4 = f0 := by
  simp only [fld]
  omega

theorem Encoding.prd (h : Hdr) (rd : BitVec 4) : Encoding.Statement (.prd h rd) := by
  intro hw w he
  obtain rfl := Option.some.inj he
  obtain ⟨hx, e0, e1, e2⟩ := layout_10 rd.toNat 6 6 rd.isLt rfl (by decide)
  refine decodeL_of ?_ hw
  rw [rawL_0b h _ hx]
  simp [rawMaj0b, e0, e1, e2]

theorem layout_11 (f0 K k0 : Nat) (_ : f0 < 16) (_ : K = k0 * 1) (_ : k0 < 512) :
    f0 * 8192 + K < 2097152 ∧ fld (f0 * 8192 + K) 0 9 = k0 ∧ fld (f0 * 8192 + K) 9 4 = 0 ∧ fld (f0 * 8192 + K) 17 4 = 0 ∧ fld (f0 * 8192 + K) 13 4 = f0 := by
  simp only [fld]
  omega

theorem Encoding.pwr (h : Hdr) (ra : BitVec 4) : Encoding.Statement (.pwr h ra) := by
  intro hw w he
  obtain rfl := Option.some.inj he
  obtain ⟨hx, e0, e1, e2, e3⟩ := layout_11 ra.toNat 7 7 ra.isLt rfl (by decide)
  refine decodeL_of ?_ hw
  rw [rawL_0b h _ hx]
  simp [rawMaj0b, e0, e1, e2, e3]

theorem layout_12 (f0 : Nat) (_ : f0 < 2097152) :
    f0 < 2097152 ∧ fld (f0) 0 21 = f0 := by
  simp only [fld]
  omega

theorem Encoding.br (h : Hdr) (off : BitVec 21) : Encoding.Statement (.br h off) := by
  intro hw w he
  obtain rfl := Option.some.inj he
  obtain ⟨hx, e0⟩ := layout_12 off.toNat off.isLt
  refine decodeL_of ?_ hw
  rw [rawL_0c h _ hx]
  simp [rawMaj0c, e0]

theorem Encoding.call (h : Hdr) (off : BitVec 21) : Encoding.Statement (.call h off) := by
  intro hw w he
  obtain rfl := Option.some.inj he
  obtain ⟨hx, e0⟩ := layout_12 off.toNat off.isLt
  refine decodeL_of ?_ hw
  rw [rawL_0d h _ hx]
  simp [rawMaj0d, e0]

theorem layout_13 (f0 : Nat) (_ : f0 < 16) :
    f0 * 8192 < 2097152 ∧ fld (f0 * 8192) 0 9 = 0 ∧ fld (f0 * 8192) 9 4 = 0 ∧ fld (f0 * 8192) 17 4 = 0 ∧ fld (f0 * 8192) 13 4 = f0 := by
  simp only [fld]
  omega

theorem Encoding.jr (h : Hdr) (ra : BitVec 4) : Encoding.Statement (.jr h ra) := by
  intro hw w he
  obtain rfl := Option.some.inj he
  obtain ⟨hx, e0, e1, e2, e3⟩ := layout_13 ra.toNat ra.isLt
  refine decodeL_of ?_ hw
  rw [rawL_0e h _ hx]
  simp [rawMaj0e, e0, e1, e2, e3]

theorem Encoding.jalr (h : Hdr) (rd : BitVec 4) (ra : BitVec 4) : Encoding.Statement (.jalr h rd ra) := by
  intro hw w he
  obtain rfl := Option.some.inj he
  obtain ⟨hx, e0, e1, e2, e3⟩ := layout_2 rd.toNat ra.toNat 1 1 rd.isLt ra.isLt rfl (by decide)
  refine decodeL_of ?_ hw
  rw [rawL_0e h _ hx]
  simp [rawMaj0e, e0, e1, e2, e3]

theorem layout_14 (f0 f1 : Nat) (_ : f0 < 16) (_ : f1 < 8192) :
    f0 * 8192 + f1 < 2097152 ∧ fld (f0 * 8192 + f1) 17 4 = 0 ∧ fld (f0 * 8192 + f1) 13 4 = f0 ∧ fld (f0 * 8192 + f1) 0 13 = f1 := by
  simp only [fld]
  omega

theorem Encoding.loopW (h : Hdr) (ra : BitVec 4) (imm : BitVec 13) : Encoding.Statement (.loopW h ra imm) := by
  intro hw w he
  obtain rfl := Option.some.inj he
  obtain ⟨hx, e0, e1, e2⟩ := layout_14 ra.toNat imm.toNat ra.isLt imm.isLt
  refine decodeL_of ?_ hw
  rw [rawL_0f h _ hx]
  simp [rawMaj0f, e0, e1, e2]

theorem layout_15 (f0 f1 f2 f3 f4 : Nat) (_ : f0 < 16) (_ : f1 < 16) (_ : f2 < 4) (_ : f3 < 2) (_ : f4 < 1024) :
    f0 * 131072 + f1 * 8192 + f2 * 2048 + f3 * 1024 + f4 < 2097152 ∧ fld (f0 * 131072 + f1 * 8192 + f2 * 2048 + f3 * 1024 + f4) 17 4 = f0 ∧ fld (f0 * 131072 + f1 * 8192 + f2 * 2048 + f3 * 1024 + f4) 13 4 = f1 ∧ fld (f0 * 131072 + f1 * 8192 + f2 * 2048 + f3 * 1024 + f4) 11 2 = f2 ∧ fld (f0 * 131072 + f1 * 8192 + f2 * 2048 + f3 * 1024 + f4) 10 1 = f3 ∧ fld (f0 * 131072 + f1 * 8192 + f2 * 2048 + f3 * 1024 + f4) 0 10 = f4 := by
  simp only [fld]
  omega

theorem Encoding.ld (h : Hdr) (rd : BitVec 4) (ra : BitVec 4) (size : MSize) (ext : Bool) (imm : BitVec 10) : Encoding.Statement (.ld h rd ra size ext imm) := by
  intro hw w he
  obtain rfl := Option.some.inj he
  obtain ⟨hx, e0, e1, e2, e3, e4⟩ := layout_15 rd.toNat ra.toNat size.code ext.toNat imm.toNat rd.isLt ra.isLt (msize_lt size) (bool_lt ext) imm.isLt
  refine decodeL_of ?_ hw
  rw [rawL_10 h _ hx]
  simp [rawMaj10, e0, e1, e2, e3, e4]

theorem layout_16 (f0 f1 f2 f3 : Nat) (_ : f0 < 16) (_ : f1 < 16) (_ : f2 < 4) (_ : f3 < 1024) :
    f0 * 131072 + f1 * 8192 + f2 * 2048 + f3 < 2097152 ∧ fld (f0 * 131072 + f1 * 8192 + f2 * 2048 + f3) 10 1 = 0 ∧ fld (f0 * 131072 + f1 * 8192 + f2 * 2048 + f3) 17 4 = f0 ∧ fld (f0 * 131072 + f1 * 8192 + f2 * 2048 + f3) 13 4 = f1 ∧ fld (f0 * 131072 + f1 * 8192 + f2 * 2048 + f3) 11 2 = f2 ∧ fld (f0 * 131072 + f1 * 8192 + f2 * 2048 + f3) 0 10 = f3 := by
  simp only [fld]
  omega

theorem Encoding.st (h : Hdr) (rd : BitVec 4) (ra : BitVec 4) (size : MSize) (imm : BitVec 10) : Encoding.Statement (.st h rd ra size imm) := by
  intro hw w he
  obtain rfl := Option.some.inj he
  obtain ⟨hx, e0, e1, e2, e3, e4⟩ := layout_16 rd.toNat ra.toNat size.code imm.toNat rd.isLt ra.isLt (msize_lt size) imm.isLt
  refine decodeL_of ?_ hw
  rw [rawL_11 h _ hx]
  simp [rawMaj11, e0, e1, e2, e3, e4]

theorem Encoding.ldNc (h : Hdr) (rd : BitVec 4) (ra : BitVec 4) (size : MSize) (ext : Bool) (imm : BitVec 10) : Encoding.Statement (.ldNc h rd ra size ext imm) := by
  intro hw w he
  obtain rfl := Option.some.inj he
  obtain ⟨hx, e0, e1, e2, e3, e4⟩ := layout_15 rd.toNat ra.toNat size.code ext.toNat imm.toNat rd.isLt ra.isLt (msize_lt size) (bool_lt ext) imm.isLt
  refine decodeL_of ?_ hw
  rw [rawL_12 h _ hx]
  simp [rawMaj12, e0, e1, e2, e3, e4]

theorem layout_17 (f0 f1 f2 : Nat) (_ : f0 < 8) (_ : f1 < 16) (_ : f2 < 1024) :
    f0 * 131072 + f1 * 8192 + f2 < 2097152 ∧ fld (f0 * 131072 + f1 * 8192 + f2) 20 1 = 0 ∧ fld (f0 * 131072 + f1 * 8192 + f2) 10 3 = 0 ∧ fld (f0 * 131072 + f1 * 8192 + f2) 17 3 = f0 ∧ fld (f0 * 131072 + f1 * 8192 + f2) 13 4 = f1 ∧ fld (f0 * 131072 + f1 * 8192 + f2) 0 10 = f2 := by
  simp only [fld]
  omega

theorem Encoding.ldw (h : Hdr) (wv : BitVec 3) (ra : BitVec 4) (imm : BitVec 10) : Encoding.Statement (.ldw h wv ra imm) := by
  intro hw w he
  obtain rfl := Option.some.inj he
  obtain ⟨hx, e0, e1, e2, e3, e4⟩ := layout_17 wv.toNat ra.toNat imm.toNat wv.isLt ra.isLt imm.isLt
  refine decodeL_of ?_ hw
  rw [rawL_13 h _ hx]
  simp [rawMaj13, e0, e1, e2, e3, e4]

theorem layout_18 (f0 f1 f2 K k0 : Nat) (_ : f0 < 8) (_ : f1 < 16) (_ : f2 < 1024) (_ : K = k0 * 1048576) (_ : k0 < 2) :
    f0 * 131072 + f1 * 8192 + f2 + K < 2097152 ∧ fld (f0 * 131072 + f1 * 8192 + f2 + K) 20 1 = k0 ∧ fld (f0 * 131072 + f1 * 8192 + f2 + K) 10 3 = 0 ∧ fld (f0 * 131072 + f1 * 8192 + f2 + K) 17 3 = f0 ∧ fld (f0 * 131072 + f1 * 8192 + f2 + K) 13 4 = f1 ∧ fld (f0 * 131072 + f1 * 8192 + f2 + K) 0 10 = f2 := by
  simp only [fld]
  omega

theorem Encoding.stw (h : Hdr) (wv : BitVec 3) (ra : BitVec 4) (imm : BitVec 10) : Encoding.Statement (.stw h wv ra imm) := by
  intro hw w he
  obtain rfl := Option.some.inj he
  obtain ⟨hx, e0, e1, e2, e3, e4⟩ := layout_18 wv.toNat ra.toNat imm.toNat 1048576 1 wv.isLt ra.isLt imm.isLt rfl (by decide)
  refine decodeL_of ?_ hw
  rw [rawL_13 h _ hx]
  simp [rawMaj13, e0, e1, e2, e3, e4]

theorem Encoding.ldv (h : Hdr) (rd : BitVec 4) (ra : BitVec 4) (rb : BitVec 4) : Encoding.Statement (.ldv h rd ra rb) := by
  intro hw w he
  obtain rfl := Option.some.inj he
  obtain ⟨hx, e0, e1, e2, e3⟩ := layout_0 rd.toNat ra.toNat rb.toNat rd.isLt ra.isLt rb.isLt
  refine decodeL_of ?_ hw
  rw [rawL_14 h _ hx]
  simp [rawMaj14, e0, e1, e2, e3]

theorem layout_19 (f0 f1 f2 K k0 : Nat) (_ : f0 < 8) (_ : f1 < 16) (_ : f2 < 16) (_ : K = k0 * 1) (_ : k0 < 512) :
    f0 * 131072 + f1 * 8192 + f2 * 512 + K < 2097152 ∧ fld (f0 * 131072 + f1 * 8192 + f2 * 512 + K) 0 9 = k0 ∧ fld (f0 * 131072 + f1 * 8192 + f2 * 512 + K) 20 1 = 0 ∧ fld (f0 * 131072 + f1 * 8192 + f2 * 512 + K) 17 3 = f0 ∧ fld (f0 * 131072 + f1 * 8192 + f2 * 512 + K) 13 4 = f1 ∧ fld (f0 * 131072 + f1 * 8192 + f2 * 512 + K) 9 4 = f2 := by
  simp only [fld]
  omega

theorem Encoding.ldvW (h : Hdr) (wv : BitVec 3) (ra : BitVec 4) (rb : BitVec 4) : Encoding.Statement (.ldvW h wv ra rb) := by
  intro hw w he
  obtain rfl := Option.some.inj he
  obtain ⟨hx, e0, e1, e2, e3, e4⟩ := layout_19 wv.toNat ra.toNat rb.toNat 1 1 wv.isLt ra.isLt rb.isLt rfl (by decide)
  refine decodeL_of ?_ hw
  rw [rawL_14 h _ hx]
  simp [rawMaj14, e0, e1, e2, e3, e4]

theorem Encoding.stv (h : Hdr) (rd : BitVec 4) (ra : BitVec 4) (rb : BitVec 4) : Encoding.Statement (.stv h rd ra rb) := by
  intro hw w he
  obtain rfl := Option.some.inj he
  obtain ⟨hx, e0, e1, e2, e3⟩ := layout_0 rd.toNat ra.toNat rb.toNat rd.isLt ra.isLt rb.isLt
  refine decodeL_of ?_ hw
  rw [rawL_15 h _ hx]
  simp [rawMaj15, e0, e1, e2, e3]

theorem Encoding.stvW (h : Hdr) (wv : BitVec 3) (ra : BitVec 4) (rb : BitVec 4) : Encoding.Statement (.stvW h wv ra rb) := by
  intro hw w he
  obtain rfl := Option.some.inj he
  obtain ⟨hx, e0, e1, e2, e3, e4⟩ := layout_19 wv.toNat ra.toNat rb.toNat 1 1 wv.isLt ra.isLt rb.isLt rfl (by decide)
  refine decodeL_of ?_ hw
  rw [rawL_15 h _ hx]
  simp [rawMaj15, e0, e1, e2, e3, e4]

theorem layout_20 (f0 f1 f2 f3 f4 : Nat) (_ : f0 < 16) (_ : f1 < 16) (_ : f2 < 16) (_ : f3 < 2) (_ : f4 < 2) :
    f0 * 131072 + f1 * 8192 + f2 * 512 + f3 * 256 + f4 * 64 < 2097152 ∧ fld (f0 * 131072 + f1 * 8192 + f2 * 512 + f3 * 256 + f4 * 64) 0 5 = 0 ∧ fld (f0 * 131072 + f1 * 8192 + f2 * 512 + f3 * 256 + f4 * 64) 5 1 = 0 ∧ fld (f0 * 131072 + f1 * 8192 + f2 * 512 + f3 * 256 + f4 * 64) 7 1 = 0 ∧ fld (f0 * 131072 + f1 * 8192 + f2 * 512 + f3 * 256 + f4 * 64) 17 4 = f0 ∧ fld (f0 * 131072 + f1 * 8192 + f2 * 512 + f3 * 256 + f4 * 64) 13 4 = f1 ∧ fld (f0 * 131072 + f1 * 8192 + f2 * 512 + f3 * 256 + f4 * 64) 9 4 = f2 ∧ fld (f0 * 131072 + f1 * 8192 + f2 * 512 + f3 * 256 + f4 * 64) 8 1 = f3 ∧ fld (f0 * 131072 + f1 * 8192 + f2 * 512 + f3 * 256 + f4 * 64) 6 1 = f4 := by
  simp only [fld]
  omega

theorem Encoding.atomAdd (h : Hdr) (rd : BitVec 4) (ra : BitVec 4) (rb : BitVec 4) (sys : Bool) (dbl : Bool) : Encoding.Statement (.atomAdd h rd ra rb sys dbl) := by
  intro hw w he
  obtain rfl := Option.some.inj he
  obtain ⟨hx, e0, e1, e2, e3, e4, e5, e6, e7⟩ := layout_20 rd.toNat ra.toNat rb.toNat sys.toNat dbl.toNat rd.isLt ra.isLt rb.isLt (bool_lt sys) (bool_lt dbl)
  refine decodeL_of ?_ hw
  rw [rawL_16 h _ hx]
  simp [rawMaj16, e0, e1, e2, e3, e4, e5, e6, e7]

theorem layout_21 (f0 f1 f2 f3 f4 K k0 : Nat) (_ : f0 < 16) (_ : f1 < 16) (_ : f2 < 16) (_ : f3 < 2) (_ : f4 < 2) (_ : K = k0 * 1) (_ : k0 < 32) :
    f0 * 131072 + f1 * 8192 + f2 * 512 + f3 * 256 + f4 * 64 + K < 2097152 ∧ fld (f0 * 131072 + f1 * 8192 + f2 * 512 + f3 * 256 + f4 * 64 + K) 0 5 = k0 ∧ fld (f0 * 131072 + f1 * 8192 + f2 * 512 + f3 * 256 + f4 * 64 + K) 5 1 = 0 ∧ fld (f0 * 131072 + f1 * 8192 + f2 * 512 + f3 * 256 + f4 * 64 + K) 7 1 = 0 ∧ fld (f0 * 131072 + f1 * 8192 + f2 * 512 + f3 * 256 + f4 * 64 + K) 17 4 = f0 ∧ fld (f0 * 131072 + f1 * 8192 + f2 * 512 + f3 * 256 + f4 * 64 + K) 13 4 = f1 ∧ fld (f0 * 131072 + f1 * 8192 + f2 * 512 + f3 * 256 + f4 * 64 + K) 9 4 = f2 ∧ fld (f0 * 131072 + f1 * 8192 + f2 * 512 + f3 * 256 + f4 * 64 + K) 8 1 = f3 ∧ fld (f0 * 131072 + f1 * 8192 + f2 * 512 + f3 * 256 + f4 * 64 + K) 6 1 = f4 := by
  simp only [fld]
  omega

theorem Encoding.atomAnd (h : Hdr) (rd : BitVec 4) (ra : BitVec 4) (rb : BitVec 4) (sys : Bool) (dbl : Bool) : Encoding.Statement (.atomAnd h rd ra rb sys dbl) := by
  intro hw w he
  obtain rfl := Option.some.inj he
  obtain ⟨hx, e0, e1, e2, e3, e4, e5, e6, e7⟩ := layout_21 rd.toNat ra.toNat rb.toNat sys.toNat dbl.toNat 1 1 rd.isLt ra.isLt rb.isLt (bool_lt sys) (bool_lt dbl) rfl (by decide)
  refine decodeL_of ?_ hw
  rw [rawL_16 h _ hx]
  simp [rawMaj16, e0, e1, e2, e3, e4, e5, e6, e7]

theorem Encoding.atomOr (h : Hdr) (rd : BitVec 4) (ra : BitVec 4) (rb : BitVec 4) (sys : Bool) (dbl : Bool) : Encoding.Statement (.atomOr h rd ra rb sys dbl) := by
  intro hw w he
  obtain rfl := Option.some.inj he
  obtain ⟨hx, e0, e1, e2, e3, e4, e5, e6, e7⟩ := layout_21 rd.toNat ra.toNat rb.toNat sys.toNat dbl.toNat 2 2 rd.isLt ra.isLt rb.isLt (bool_lt sys) (bool_lt dbl) rfl (by decide)
  refine decodeL_of ?_ hw
  rw [rawL_16 h _ hx]
  simp [rawMaj16, e0, e1, e2, e3, e4, e5, e6, e7]

theorem Encoding.atomXor (h : Hdr) (rd : BitVec 4) (ra : BitVec 4) (rb : BitVec 4) (sys : Bool) (dbl : Bool) : Encoding.Statement (.atomXor h rd ra rb sys dbl) := by
  intro hw w he
  obtain rfl := Option.some.inj he
  obtain ⟨hx, e0, e1, e2, e3, e4, e5, e6, e7⟩ := layout_21 rd.toNat ra.toNat rb.toNat sys.toNat dbl.toNat 3 3 rd.isLt ra.isLt rb.isLt (bool_lt sys) (bool_lt dbl) rfl (by decide)
  refine decodeL_of ?_ hw
  rw [rawL_16 h _ hx]
  simp [rawMaj16, e0, e1, e2, e3, e4, e5, e6, e7]

theorem Encoding.atomSmin (h : Hdr) (rd : BitVec 4) (ra : BitVec 4) (rb : BitVec 4) (sys : Bool) (dbl : Bool) : Encoding.Statement (.atomSmin h rd ra rb sys dbl) := by
  intro hw w he
  obtain rfl := Option.some.inj he
  obtain ⟨hx, e0, e1, e2, e3, e4, e5, e6, e7⟩ := layout_21 rd.toNat ra.toNat rb.toNat sys.toNat dbl.toNat 4 4 rd.isLt ra.isLt rb.isLt (bool_lt sys) (bool_lt dbl) rfl (by decide)
  refine decodeL_of ?_ hw
  rw [rawL_16 h _ hx]
  simp [rawMaj16, e0, e1, e2, e3, e4, e5, e6, e7]

theorem Encoding.atomSmax (h : Hdr) (rd : BitVec 4) (ra : BitVec 4) (rb : BitVec 4) (sys : Bool) (dbl : Bool) : Encoding.Statement (.atomSmax h rd ra rb sys dbl) := by
  intro hw w he
  obtain rfl := Option.some.inj he
  obtain ⟨hx, e0, e1, e2, e3, e4, e5, e6, e7⟩ := layout_21 rd.toNat ra.toNat rb.toNat sys.toNat dbl.toNat 5 5 rd.isLt ra.isLt rb.isLt (bool_lt sys) (bool_lt dbl) rfl (by decide)
  refine decodeL_of ?_ hw
  rw [rawL_16 h _ hx]
  simp [rawMaj16, e0, e1, e2, e3, e4, e5, e6, e7]

theorem Encoding.atomSwap (h : Hdr) (rd : BitVec 4) (ra : BitVec 4) (rb : BitVec 4) (sys : Bool) (dbl : Bool) : Encoding.Statement (.atomSwap h rd ra rb sys dbl) := by
  intro hw w he
  obtain rfl := Option.some.inj he
  obtain ⟨hx, e0, e1, e2, e3, e4, e5, e6, e7⟩ := layout_21 rd.toNat ra.toNat rb.toNat sys.toNat dbl.toNat 6 6 rd.isLt ra.isLt rb.isLt (bool_lt sys) (bool_lt dbl) rfl (by decide)
  refine decodeL_of ?_ hw
  rw [rawL_16 h _ hx]
  simp [rawMaj16, e0, e1, e2, e3, e4, e5, e6, e7]

theorem Encoding.atomCas (h : Hdr) (rd : BitVec 4) (ra : BitVec 4) (rb : BitVec 4) (sys : Bool) (dbl : Bool) : Encoding.Statement (.atomCas h rd ra rb sys dbl) := by
  intro hw w he
  obtain rfl := Option.some.inj he
  obtain ⟨hx, e0, e1, e2, e3, e4, e5, e6, e7⟩ := layout_21 rd.toNat ra.toNat rb.toNat sys.toNat dbl.toNat 7 7 rd.isLt ra.isLt rb.isLt (bool_lt sys) (bool_lt dbl) rfl (by decide)
  refine decodeL_of ?_ hw
  rw [rawL_16 h _ hx]
  simp [rawMaj16, e0, e1, e2, e3, e4, e5, e6, e7]

theorem layout_22 (f0 f1 f2 f3 K k0 : Nat) (_ : f0 < 16) (_ : f1 < 16) (_ : f2 < 16) (_ : f3 < 2) (_ : K = k0 * 1) (_ : k0 < 32) :
    f0 * 131072 + f1 * 8192 + f2 * 512 + f3 * 256 + K < 2097152 ∧ fld (f0 * 131072 + f1 * 8192 + f2 * 512 + f3 * 256 + K) 0 5 = k0 ∧ fld (f0 * 131072 + f1 * 8192 + f2 * 512 + f3 * 256 + K) 5 3 = 0 ∧ fld (f0 * 131072 + f1 * 8192 + f2 * 512 + f3 * 256 + K) 17 4 = f0 ∧ fld (f0 * 131072 + f1 * 8192 + f2 * 512 + f3 * 256 + K) 13 4 = f1 ∧ fld (f0 * 131072 + f1 * 8192 + f2 * 512 + f3 * 256 + K) 9 4 = f2 ∧ fld (f0 * 131072 + f1 * 8192 + f2 * 512 + f3 * 256 + K) 8 1 = f3 := by
  simp only [fld]
  omega

theorem Encoding.atomFaddF32 (h : Hdr) (rd : BitVec 4) (ra : BitVec 4) (rb : BitVec 4) (sys : Bool) : Encoding.Statement (.atomFaddF32 h rd ra rb sys) := by
  intro hw w he
  obtain rfl := Option.some.inj he
  obtain ⟨hx, e0, e1, e2, e3, e4, e5⟩ := layout_22 rd.toNat ra.toNat rb.toNat sys.toNat 8 8 rd.isLt ra.isLt rb.isLt (bool_lt sys) rfl (by decide)
  refine decodeL_of ?_ hw
  rw [rawL_16 h _ hx]
  simp [rawMaj16, e0, e1, e2, e3, e4, e5]

theorem layout_23 (f0 f1 f2 f3 K k0 k1 : Nat) (_ : f0 < 16) (_ : f1 < 16) (_ : f2 < 16) (_ : f3 < 2) (_ : K = k0 * 1 + k1 * 32) (_ : k0 < 32) (_ : k1 < 8) :
    f0 * 131072 + f1 * 8192 + f2 * 512 + f3 * 256 + K < 2097152 ∧ fld (f0 * 131072 + f1 * 8192 + f2 * 512 + f3 * 256 + K) 0 5 = k0 ∧ fld (f0 * 131072 + f1 * 8192 + f2 * 512 + f3 * 256 + K) 5 3 = k1 ∧ fld (f0 * 131072 + f1 * 8192 + f2 * 512 + f3 * 256 + K) 17 4 = f0 ∧ fld (f0 * 131072 + f1 * 8192 + f2 * 512 + f3 * 256 + K) 13 4 = f1 ∧ fld (f0 * 131072 + f1 * 8192 + f2 * 512 + f3 * 256 + K) 9 4 = f2 ∧ fld (f0 * 131072 + f1 * 8192 + f2 * 512 + f3 * 256 + K) 8 1 = f3 := by
  simp only [fld]
  omega

theorem Encoding.atomFaddF64 (h : Hdr) (rd : BitVec 4) (ra : BitVec 4) (rb : BitVec 4) (sys : Bool) : Encoding.Statement (.atomFaddF64 h rd ra rb sys) := by
  intro hw w he
  obtain rfl := Option.some.inj he
  obtain ⟨hx, e0, e1, e2, e3, e4, e5⟩ := layout_23 rd.toNat ra.toNat rb.toNat sys.toNat 73 9 2 rd.isLt ra.isLt rb.isLt (bool_lt sys) rfl (by decide) (by decide)
  refine decodeL_of ?_ hw
  rw [rawL_16 h _ hx]
  simp [rawMaj16, e0, e1, e2, e3, e4, e5]

theorem Encoding.aacc (h : Hdr) (rd : BitVec 4) (ra : BitVec 4) (rb : BitVec 4) : Encoding.Statement (.aacc h rd ra rb) := by
  intro hw w he
  obtain rfl := Option.some.inj he
  obtain ⟨hx, e0, e1, e2, e3⟩ := layout_0 rd.toNat ra.toNat rb.toNat rd.isLt ra.isLt rb.isLt
  refine decodeL_of ?_ hw
  rw [rawL_17 h _ hx]
  simp [rawMaj17, e0, e1, e2, e3]

theorem Encoding.aaccL (h : Hdr) (rd : BitVec 4) (ra : BitVec 4) (rb : BitVec 4) : Encoding.Statement (.aaccL h rd ra rb) := by
  intro hw w he
  obtain rfl := Option.some.inj he
  obtain ⟨hx, e0, e1, e2, e3⟩ := layout_1 rd.toNat ra.toNat rb.toNat 1 1 rd.isLt ra.isLt rb.isLt rfl (by decide)
  refine decodeL_of ?_ hw
  rw [rawL_17 h _ hx]
  simp [rawMaj17, e0, e1, e2, e3]

theorem layout_24 (f0 f1 : Nat) (_ : f0 < 16) (_ : f1 < 16) :
    f0 * 8192 + f1 * 512 < 2097152 ∧ fld (f0 * 8192 + f1 * 512) 0 9 = 0 ∧ fld (f0 * 8192 + f1 * 512) 17 4 = 0 ∧ fld (f0 * 8192 + f1 * 512) 13 4 = f0 ∧ fld (f0 * 8192 + f1 * 512) 9 4 = f1 := by
  simp only [fld]
  omega

theorem Encoding.fenceAcq (h : Hdr) (ra : BitVec 4) (rb : BitVec 4) : Encoding.Statement (.fenceAcq h ra rb) := by
  intro hw w he
  obtain rfl := Option.some.inj he
  obtain ⟨hx, e0, e1, e2, e3⟩ := layout_24 ra.toNat rb.toNat ra.isLt rb.isLt
  refine decodeL_of ?_ hw
  rw [rawL_18 h _ hx]
  simp [rawMaj18, e0, e1, e2, e3]

theorem layout_25 (f0 f1 K k0 : Nat) (_ : f0 < 16) (_ : f1 < 16) (_ : K = k0 * 1) (_ : k0 < 512) :
    f0 * 8192 + f1 * 512 + K < 2097152 ∧ fld (f0 * 8192 + f1 * 512 + K) 0 9 = k0 ∧ fld (f0 * 8192 + f1 * 512 + K) 17 4 = 0 ∧ fld (f0 * 8192 + f1 * 512 + K) 13 4 = f0 ∧ fld (f0 * 8192 + f1 * 512 + K) 9 4 = f1 := by
  simp only [fld]
  omega

theorem Encoding.fenceRel (h : Hdr) (ra : BitVec 4) (rb : BitVec 4) : Encoding.Statement (.fenceRel h ra rb) := by
  intro hw w he
  obtain rfl := Option.some.inj he
  obtain ⟨hx, e0, e1, e2, e3⟩ := layout_25 ra.toNat rb.toNat 1 1 ra.isLt rb.isLt rfl (by decide)
  refine decodeL_of ?_ hw
  rw [rawL_18 h _ hx]
  simp [rawMaj18, e0, e1, e2, e3]

theorem Encoding.fenceFull (h : Hdr) (ra : BitVec 4) (rb : BitVec 4) : Encoding.Statement (.fenceFull h ra rb) := by
  intro hw w he
  obtain rfl := Option.some.inj he
  obtain ⟨hx, e0, e1, e2, e3⟩ := layout_25 ra.toNat rb.toNat 2 2 ra.isLt rb.isLt rfl (by decide)
  refine decodeL_of ?_ hw
  rw [rawL_18 h _ hx]
  simp [rawMaj18, e0, e1, e2, e3]

theorem Encoding.fenceX (h : Hdr) (ra : BitVec 4) (rb : BitVec 4) : Encoding.Statement (.fenceX h ra rb) := by
  intro hw w he
  obtain rfl := Option.some.inj he
  obtain ⟨hx, e0, e1, e2, e3⟩ := layout_25 ra.toNat rb.toNat 3 3 ra.isLt rb.isLt rfl (by decide)
  refine decodeL_of ?_ hw
  rw [rawL_18 h _ hx]
  simp [rawMaj18, e0, e1, e2, e3]

theorem Encoding.fenceAcqSys (h : Hdr) (rd : BitVec 4) (ra : BitVec 4) (rb : BitVec 4) : Encoding.Statement (.fenceAcqSys h rd ra rb) := by
  intro hw w he
  obtain rfl := Option.some.inj he
  obtain ⟨hx, e0, e1, e2, e3⟩ := layout_1 rd.toNat ra.toNat rb.toNat 4 4 rd.isLt ra.isLt rb.isLt rfl (by decide)
  refine decodeL_of ?_ hw
  rw [rawL_18 h _ hx]
  simp [rawMaj18, e0, e1, e2, e3]

theorem Encoding.fenceRelSys (h : Hdr) (rd : BitVec 4) (ra : BitVec 4) (rb : BitVec 4) : Encoding.Statement (.fenceRelSys h rd ra rb) := by
  intro hw w he
  obtain rfl := Option.some.inj he
  obtain ⟨hx, e0, e1, e2, e3⟩ := layout_1 rd.toNat ra.toNat rb.toNat 5 5 rd.isLt ra.isLt rb.isLt rfl (by decide)
  refine decodeL_of ?_ hw
  rw [rawL_18 h _ hx]
  simp [rawMaj18, e0, e1, e2, e3]

theorem Encoding.fenceFullSys (h : Hdr) (rd : BitVec 4) (ra : BitVec 4) (rb : BitVec 4) : Encoding.Statement (.fenceFullSys h rd ra rb) := by
  intro hw w he
  obtain rfl := Option.some.inj he
  obtain ⟨hx, e0, e1, e2, e3⟩ := layout_1 rd.toNat ra.toNat rb.toNat 6 6 rd.isLt ra.isLt rb.isLt rfl (by decide)
  refine decodeL_of ?_ hw
  rw [rawL_18 h _ hx]
  simp [rawMaj18, e0, e1, e2, e3]

theorem Encoding.fenceXSys (h : Hdr) (rd : BitVec 4) (ra : BitVec 4) (rb : BitVec 4) : Encoding.Statement (.fenceXSys h rd ra rb) := by
  intro hw w he
  obtain rfl := Option.some.inj he
  obtain ⟨hx, e0, e1, e2, e3⟩ := layout_1 rd.toNat ra.toNat rb.toNat 7 7 rd.isLt ra.isLt rb.isLt rfl (by decide)
  refine decodeL_of ?_ hw
  rw [rawL_18 h _ hx]
  simp [rawMaj18, e0, e1, e2, e3]

theorem Encoding.l1inv (h : Hdr) (ra : BitVec 4) (rb : BitVec 4) : Encoding.Statement (.l1inv h ra rb) := by
  intro hw w he
  obtain rfl := Option.some.inj he
  obtain ⟨hx, e0, e1, e2, e3⟩ := layout_24 ra.toNat rb.toNat ra.isLt rb.isLt
  refine decodeL_of ?_ hw
  rw [rawL_19 h _ hx]
  simp [rawMaj19, e0, e1, e2, e3]

theorem Encoding.l1pf (h : Hdr) (ra : BitVec 4) (rb : BitVec 4) : Encoding.Statement (.l1pf h ra rb) := by
  intro hw w he
  obtain rfl := Option.some.inj he
  obtain ⟨hx, e0, e1, e2, e3⟩ := layout_25 ra.toNat rb.toNat 1 1 ra.isLt rb.isLt rfl (by decide)
  refine decodeL_of ?_ hw
  rw [rawL_19 h _ hx]
  simp [rawMaj19, e0, e1, e2, e3]

theorem Encoding.seal (h : Hdr) (ra : BitVec 4) : Encoding.Statement (.seal h ra) := by
  intro hw w he
  obtain rfl := Option.some.inj he
  obtain ⟨hx, e0, e1, e2, e3⟩ := layout_13 ra.toNat ra.isLt
  refine decodeL_of ?_ hw
  rw [rawL_1a h _ hx]
  simp [rawMaj1a, e0, e1, e2, e3]

theorem Encoding.unseal (h : Hdr) (ra : BitVec 4) (rb : BitVec 4) : Encoding.Statement (.unseal h ra rb) := by
  intro hw w he
  obtain rfl := Option.some.inj he
  obtain ⟨hx, e0, e1, e2, e3⟩ := layout_25 ra.toNat rb.toNat 1 1 ra.isLt rb.isLt rfl (by decide)
  refine decodeL_of ?_ hw
  rw [rawL_1a h _ hx]
  simp [rawMaj1a, e0, e1, e2, e3]

theorem Encoding.reclaim (h : Hdr) (ra : BitVec 4) (rb : BitVec 4) : Encoding.Statement (.reclaim h ra rb) := by
  intro hw w he
  obtain rfl := Option.some.inj he
  obtain ⟨hx, e0, e1, e2, e3⟩ := layout_25 ra.toNat rb.toNat 2 2 ra.isLt rb.isLt rfl (by decide)
  refine decodeL_of ?_ hw
  rw [rawL_1a h _ hx]
  simp [rawMaj1a, e0, e1, e2, e3]

theorem Encoding.closeStep (h : Hdr) (rd : BitVec 4) (ra : BitVec 4) (rb : BitVec 4) : Encoding.Statement (.closeStep h rd ra rb) := by
  intro hw w he
  obtain rfl := Option.some.inj he
  obtain ⟨hx, e0, e1, e2, e3⟩ := layout_1 rd.toNat ra.toNat rb.toNat 3 3 rd.isLt ra.isLt rb.isLt rfl (by decide)
  refine decodeL_of ?_ hw
  rw [rawL_1a h _ hx]
  simp [rawMaj1a, e0, e1, e2, e3]

theorem Encoding.hmake (h : Hdr) (rd : BitVec 4) (ra : BitVec 4) (rb : BitVec 4) : Encoding.Statement (.hmake h rd ra rb) := by
  intro hw w he
  obtain rfl := Option.some.inj he
  obtain ⟨hx, e0, e1, e2, e3⟩ := layout_1 rd.toNat ra.toNat rb.toNat 4 4 rd.isLt ra.isLt rb.isLt rfl (by decide)
  refine decodeL_of ?_ hw
  rw [rawL_1a h _ hx]
  simp [rawMaj1a, e0, e1, e2, e3]

theorem Encoding.hnarrow (h : Hdr) (rd : BitVec 4) (ra : BitVec 4) (rb : BitVec 4) : Encoding.Statement (.hnarrow h rd ra rb) := by
  intro hw w he
  obtain rfl := Option.some.inj he
  obtain ⟨hx, e0, e1, e2, e3⟩ := layout_1 rd.toNat ra.toNat rb.toNat 5 5 rd.isLt ra.isLt rb.isLt rfl (by decide)
  refine decodeL_of ?_ hw
  rw [rawL_1a h _ hx]
  simp [rawMaj1a, e0, e1, e2, e3]

theorem layout_26 (f0 f1 f2 f3 : Nat) (_ : f0 < 16) (_ : f1 < 16) (_ : f2 < 16) (_ : f3 < 4) :
    f0 * 131072 + f1 * 8192 + f2 * 512 + f3 * 128 < 2097152 ∧ fld (f0 * 131072 + f1 * 8192 + f2 * 512 + f3 * 128) 0 3 = 0 ∧ fld (f0 * 131072 + f1 * 8192 + f2 * 512 + f3 * 128) 3 4 = 0 ∧ fld (f0 * 131072 + f1 * 8192 + f2 * 512 + f3 * 128) 17 4 = f0 ∧ fld (f0 * 131072 + f1 * 8192 + f2 * 512 + f3 * 128) 13 4 = f1 ∧ fld (f0 * 131072 + f1 * 8192 + f2 * 512 + f3 * 128) 9 4 = f2 ∧ fld (f0 * 131072 + f1 * 8192 + f2 * 512 + f3 * 128) 7 2 = f3 := by
  simp only [fld]
  omega

theorem Encoding.fadd (h : Hdr) (rd : BitVec 4) (ra : BitVec 4) (rb : BitVec 4) (ty : FTy) : Encoding.Statement (.fadd h rd ra rb ty) := by
  intro hw w he
  obtain rfl := Option.some.inj he
  obtain ⟨hx, e0, e1, e2, e3, e4, e5⟩ := layout_26 rd.toNat ra.toNat rb.toNat ty.code rd.isLt ra.isLt rb.isLt (fop_lt (t := ty) hw)
  refine decodeL_of ?_ hw
  rw [rawL_20 h _ hx]
  simp [rawMaj20, e0, e1, e2, e3, e4, e5]

theorem layout_27 (f0 f1 f2 f3 K k0 : Nat) (_ : f0 < 16) (_ : f1 < 16) (_ : f2 < 16) (_ : f3 < 4) (_ : K = k0 * 1) (_ : k0 < 8) :
    f0 * 131072 + f1 * 8192 + f2 * 512 + f3 * 128 + K < 2097152 ∧ fld (f0 * 131072 + f1 * 8192 + f2 * 512 + f3 * 128 + K) 0 3 = k0 ∧ fld (f0 * 131072 + f1 * 8192 + f2 * 512 + f3 * 128 + K) 3 4 = 0 ∧ fld (f0 * 131072 + f1 * 8192 + f2 * 512 + f3 * 128 + K) 17 4 = f0 ∧ fld (f0 * 131072 + f1 * 8192 + f2 * 512 + f3 * 128 + K) 13 4 = f1 ∧ fld (f0 * 131072 + f1 * 8192 + f2 * 512 + f3 * 128 + K) 9 4 = f2 ∧ fld (f0 * 131072 + f1 * 8192 + f2 * 512 + f3 * 128 + K) 7 2 = f3 := by
  simp only [fld]
  omega

theorem Encoding.fsub (h : Hdr) (rd : BitVec 4) (ra : BitVec 4) (rb : BitVec 4) (ty : FTy) : Encoding.Statement (.fsub h rd ra rb ty) := by
  intro hw w he
  obtain rfl := Option.some.inj he
  obtain ⟨hx, e0, e1, e2, e3, e4, e5⟩ := layout_27 rd.toNat ra.toNat rb.toNat ty.code 1 1 rd.isLt ra.isLt rb.isLt (fop_lt (t := ty) hw) rfl (by decide)
  refine decodeL_of ?_ hw
  rw [rawL_20 h _ hx]
  simp [rawMaj20, e0, e1, e2, e3, e4, e5]

theorem Encoding.fmul (h : Hdr) (rd : BitVec 4) (ra : BitVec 4) (rb : BitVec 4) (ty : FTy) : Encoding.Statement (.fmul h rd ra rb ty) := by
  intro hw w he
  obtain rfl := Option.some.inj he
  obtain ⟨hx, e0, e1, e2, e3, e4, e5⟩ := layout_27 rd.toNat ra.toNat rb.toNat ty.code 2 2 rd.isLt ra.isLt rb.isLt (fop_lt (t := ty) hw) rfl (by decide)
  refine decodeL_of ?_ hw
  rw [rawL_20 h _ hx]
  simp [rawMaj20, e0, e1, e2, e3, e4, e5]

theorem Encoding.fdiv (h : Hdr) (rd : BitVec 4) (ra : BitVec 4) (rb : BitVec 4) (ty : FTy) : Encoding.Statement (.fdiv h rd ra rb ty) := by
  intro hw w he
  obtain rfl := Option.some.inj he
  obtain ⟨hx, e0, e1, e2, e3, e4, e5⟩ := layout_27 rd.toNat ra.toNat rb.toNat ty.code 3 3 rd.isLt ra.isLt rb.isLt (fop_lt (t := ty) hw) rfl (by decide)
  refine decodeL_of ?_ hw
  rw [rawL_20 h _ hx]
  simp [rawMaj20, e0, e1, e2, e3, e4, e5]

theorem Encoding.fmin (h : Hdr) (rd : BitVec 4) (ra : BitVec 4) (rb : BitVec 4) (ty : FTy) : Encoding.Statement (.fmin h rd ra rb ty) := by
  intro hw w he
  obtain rfl := Option.some.inj he
  obtain ⟨hx, e0, e1, e2, e3, e4, e5⟩ := layout_27 rd.toNat ra.toNat rb.toNat ty.code 4 4 rd.isLt ra.isLt rb.isLt (fop_lt (t := ty) hw) rfl (by decide)
  refine decodeL_of ?_ hw
  rw [rawL_20 h _ hx]
  simp [rawMaj20, e0, e1, e2, e3, e4, e5]

theorem Encoding.fmax (h : Hdr) (rd : BitVec 4) (ra : BitVec 4) (rb : BitVec 4) (ty : FTy) : Encoding.Statement (.fmax h rd ra rb ty) := by
  intro hw w he
  obtain rfl := Option.some.inj he
  obtain ⟨hx, e0, e1, e2, e3, e4, e5⟩ := layout_27 rd.toNat ra.toNat rb.toNat ty.code 5 5 rd.isLt ra.isLt rb.isLt (fop_lt (t := ty) hw) rfl (by decide)
  refine decodeL_of ?_ hw
  rw [rawL_20 h _ hx]
  simp [rawMaj20, e0, e1, e2, e3, e4, e5]

theorem layout_28 (f0 f1 f2 K k0 : Nat) (_ : f0 < 16) (_ : f1 < 16) (_ : f2 < 4) (_ : K = k0 * 1) (_ : k0 < 8) :
    f0 * 131072 + f1 * 8192 + f2 * 128 + K < 2097152 ∧ fld (f0 * 131072 + f1 * 8192 + f2 * 128 + K) 0 3 = k0 ∧ fld (f0 * 131072 + f1 * 8192 + f2 * 128 + K) 3 4 = 0 ∧ fld (f0 * 131072 + f1 * 8192 + f2 * 128 + K) 9 4 = 0 ∧ fld (f0 * 131072 + f1 * 8192 + f2 * 128 + K) 17 4 = f0 ∧ fld (f0 * 131072 + f1 * 8192 + f2 * 128 + K) 13 4 = f1 ∧ fld (f0 * 131072 + f1 * 8192 + f2 * 128 + K) 7 2 = f2 := by
  simp only [fld]
  omega

theorem Encoding.fsqrt (h : Hdr) (rd : BitVec 4) (ra : BitVec 4) (ty : FTy) : Encoding.Statement (.fsqrt h rd ra ty) := by
  intro hw w he
  obtain rfl := Option.some.inj he
  obtain ⟨hx, e0, e1, e2, e3, e4, e5⟩ := layout_28 rd.toNat ra.toNat ty.code 6 6 rd.isLt ra.isLt (fop_lt (t := ty) hw) rfl (by decide)
  refine decodeL_of ?_ hw
  rw [rawL_20 h _ hx]
  simp [rawMaj20, e0, e1, e2, e3, e4, e5]

theorem Encoding.fneg (h : Hdr) (rd : BitVec 4) (ra : BitVec 4) (ty : FTy) : Encoding.Statement (.fneg h rd ra ty) := by
  intro hw w he
  obtain rfl := Option.some.inj he
  obtain ⟨hx, e0, e1, e2, e3, e4, e5⟩ := layout_28 rd.toNat ra.toNat ty.code 7 7 rd.isLt ra.isLt (fop_lt (t := ty) hw) rfl (by decide)
  refine decodeL_of ?_ hw
  rw [rawL_20 h _ hx]
  simp [rawMaj20, e0, e1, e2, e3, e4, e5]

theorem Encoding.fma (h : Hdr) (rd : BitVec 4) (ra : BitVec 4) (rb : BitVec 4) (ty : FTy) : Encoding.Statement (.fma h rd ra rb ty) := by
  intro hw w he
  obtain rfl := Option.some.inj he
  obtain ⟨hx, e0, e1, e2, e3, e4, e5⟩ := layout_26 rd.toNat ra.toNat rb.toNat ty.code rd.isLt ra.isLt rb.isLt (fop_lt (t := ty) hw)
  refine decodeL_of ?_ hw
  rw [rawL_21 h _ hx]
  simp [rawMaj21, e0, e1, e2, e3, e4, e5]

theorem Encoding.fms (h : Hdr) (rd : BitVec 4) (ra : BitVec 4) (rb : BitVec 4) (ty : FTy) : Encoding.Statement (.fms h rd ra rb ty) := by
  intro hw w he
  obtain rfl := Option.some.inj he
  obtain ⟨hx, e0, e1, e2, e3, e4, e5⟩ := layout_27 rd.toNat ra.toNat rb.toNat ty.code 1 1 rd.isLt ra.isLt rb.isLt (fop_lt (t := ty) hw) rfl (by decide)
  refine decodeL_of ?_ hw
  rw [rawL_21 h _ hx]
  simp [rawMaj21, e0, e1, e2, e3, e4, e5]

theorem Encoding.fcmpEq (h : Hdr) (rd : BitVec 4) (ra : BitVec 4) (rb : BitVec 4) (ty : FTy) : Encoding.Statement (.fcmpEq h rd ra rb ty) := by
  intro hw w he
  obtain rfl := Option.some.inj he
  obtain ⟨hx, e0, e1, e2, e3, e4, e5⟩ := layout_26 rd.toNat ra.toNat rb.toNat ty.code rd.isLt ra.isLt rb.isLt (fop_lt (t := ty) hw)
  refine decodeL_of ?_ hw
  rw [rawL_22 h _ hx]
  simp [rawMaj22, e0, e1, e2, e3, e4, e5]

theorem Encoding.fcmpLt (h : Hdr) (rd : BitVec 4) (ra : BitVec 4) (rb : BitVec 4) (ty : FTy) : Encoding.Statement (.fcmpLt h rd ra rb ty) := by
  intro hw w he
  obtain rfl := Option.some.inj he
  obtain ⟨hx, e0, e1, e2, e3, e4, e5⟩ := layout_27 rd.toNat ra.toNat rb.toNat ty.code 1 1 rd.isLt ra.isLt rb.isLt (fop_lt (t := ty) hw) rfl (by decide)
  refine decodeL_of ?_ hw
  rw [rawL_22 h _ hx]
  simp [rawMaj22, e0, e1, e2, e3, e4, e5]

theorem Encoding.fcmpLe (h : Hdr) (rd : BitVec 4) (ra : BitVec 4) (rb : BitVec 4) (ty : FTy) : Encoding.Statement (.fcmpLe h rd ra rb ty) := by
  intro hw w he
  obtain rfl := Option.some.inj he
  obtain ⟨hx, e0, e1, e2, e3, e4, e5⟩ := layout_27 rd.toNat ra.toNat rb.toNat ty.code 2 2 rd.isLt ra.isLt rb.isLt (fop_lt (t := ty) hw) rfl (by decide)
  refine decodeL_of ?_ hw
  rw [rawL_22 h _ hx]
  simp [rawMaj22, e0, e1, e2, e3, e4, e5]

theorem Encoding.fcmpUn (h : Hdr) (rd : BitVec 4) (ra : BitVec 4) (rb : BitVec 4) (ty : FTy) : Encoding.Statement (.fcmpUn h rd ra rb ty) := by
  intro hw w he
  obtain rfl := Option.some.inj he
  obtain ⟨hx, e0, e1, e2, e3, e4, e5⟩ := layout_27 rd.toNat ra.toNat rb.toNat ty.code 3 3 rd.isLt ra.isLt rb.isLt (fop_lt (t := ty) hw) rfl (by decide)
  refine decodeL_of ?_ hw
  rw [rawL_22 h _ hx]
  simp [rawMaj22, e0, e1, e2, e3, e4, e5]

theorem layout_29 (f0 f1 f2 f3 : Nat) (_ : f0 < 16) (_ : f1 < 16) (_ : f2 < 8) (_ : f3 < 8) :
    f0 * 131072 + f1 * 8192 + f2 * 64 + f3 * 8 < 2097152 ∧ fld (f0 * 131072 + f1 * 8192 + f2 * 64 + f3 * 8) 0 3 = 0 ∧ fld (f0 * 131072 + f1 * 8192 + f2 * 64 + f3 * 8) 9 4 = 0 ∧ fld (f0 * 131072 + f1 * 8192 + f2 * 64 + f3 * 8) 17 4 = f0 ∧ fld (f0 * 131072 + f1 * 8192 + f2 * 64 + f3 * 8) 13 4 = f1 ∧ fld (f0 * 131072 + f1 * 8192 + f2 * 64 + f3 * 8) 6 3 = f2 ∧ fld (f0 * 131072 + f1 * 8192 + f2 * 64 + f3 * 8) 3 3 = f3 := by
  simp only [fld]
  omega

theorem Encoding.fcvtF2f (h : Hdr) (rd : BitVec 4) (ra : BitVec 4) (ty : FTy) (src : FTy) : Encoding.Statement (.fcvtF2f h rd ra ty src) := by
  intro hw w he
  obtain rfl := Option.some.inj he
  obtain ⟨hx, e0, e1, e2, e3, e4, e5⟩ := layout_29 rd.toNat ra.toNat ty.code src.code rd.isLt ra.isLt (Nat.lt_of_lt_of_le (fty_lt ty) (by decide)) (Nat.lt_of_lt_of_le (fty_lt src) (by decide))
  refine decodeL_of ?_ hw
  rw [rawL_23 h _ hx]
  unfold rawMaj23
  simp only [e0, e1, e2, e3, e4, e5, if_true, ftyOf_code, BitVec.ofNat_toNat, BitVec.setWidth_eq]

theorem layout_30 (f0 f1 f2 K k0 : Nat) (_ : f0 < 16) (_ : f1 < 16) (_ : f2 < 8) (_ : K = k0 * 1) (_ : k0 < 8) :
    f0 * 131072 + f1 * 8192 + f2 * 64 + K < 2097152 ∧ fld (f0 * 131072 + f1 * 8192 + f2 * 64 + K) 0 3 = k0 ∧ fld (f0 * 131072 + f1 * 8192 + f2 * 64 + K) 3 3 = 0 ∧ fld (f0 * 131072 + f1 * 8192 + f2 * 64 + K) 9 4 = 0 ∧ fld (f0 * 131072 + f1 * 8192 + f2 * 64 + K) 17 4 = f0 ∧ fld (f0 * 131072 + f1 * 8192 + f2 * 64 + K) 13 4 = f1 ∧ fld (f0 * 131072 + f1 * 8192 + f2 * 64 + K) 6 3 = f2 := by
  simp only [fld]
  omega

theorem Encoding.fcvtF2i (h : Hdr) (rd : BitVec 4) (ra : BitVec 4) (ty : FTy) : Encoding.Statement (.fcvtF2i h rd ra ty) := by
  intro hw w he
  obtain rfl := Option.some.inj he
  obtain ⟨hx, e0, e1, e2, e3, e4, e5⟩ := layout_30 rd.toNat ra.toNat ty.code 1 1 rd.isLt ra.isLt (Nat.lt_of_lt_of_le (fty_lt ty) (by decide)) rfl (by decide)
  refine decodeL_of ?_ hw
  rw [rawL_23 h _ hx]
  simp [rawMaj23, e0, e1, e2, e3, e4, e5]

theorem Encoding.fcvtF2u (h : Hdr) (rd : BitVec 4) (ra : BitVec 4) (ty : FTy) : Encoding.Statement (.fcvtF2u h rd ra ty) := by
  intro hw w he
  obtain rfl := Option.some.inj he
  obtain ⟨hx, e0, e1, e2, e3, e4, e5⟩ := layout_30 rd.toNat ra.toNat ty.code 2 2 rd.isLt ra.isLt (Nat.lt_of_lt_of_le (fty_lt ty) (by decide)) rfl (by decide)
  refine decodeL_of ?_ hw
  rw [rawL_23 h _ hx]
  simp [rawMaj23, e0, e1, e2, e3, e4, e5]

theorem Encoding.fcvtI2f (h : Hdr) (rd : BitVec 4) (ra : BitVec 4) (ty : FTy) : Encoding.Statement (.fcvtI2f h rd ra ty) := by
  intro hw w he
  obtain rfl := Option.some.inj he
  obtain ⟨hx, e0, e1, e2, e3, e4, e5⟩ := layout_30 rd.toNat ra.toNat ty.code 3 3 rd.isLt ra.isLt (Nat.lt_of_lt_of_le (fty_lt ty) (by decide)) rfl (by decide)
  refine decodeL_of ?_ hw
  rw [rawL_23 h _ hx]
  simp [rawMaj23, e0, e1, e2, e3, e4, e5]

theorem Encoding.fcvtU2f (h : Hdr) (rd : BitVec 4) (ra : BitVec 4) (ty : FTy) : Encoding.Statement (.fcvtU2f h rd ra ty) := by
  intro hw w he
  obtain rfl := Option.some.inj he
  obtain ⟨hx, e0, e1, e2, e3, e4, e5⟩ := layout_30 rd.toNat ra.toNat ty.code 4 4 rd.isLt ra.isLt (Nat.lt_of_lt_of_le (fty_lt ty) (by decide)) rfl (by decide)
  refine decodeL_of ?_ hw
  rw [rawL_23 h _ hx]
  simp [rawMaj23, e0, e1, e2, e3, e4, e5]

theorem layout_31 (f0 f1 f2 : Nat) (_ : f0 < 16) (_ : f1 < 16) (_ : f2 < 4) :
    f0 * 131072 + f1 * 8192 + f2 * 128 < 2097152 ∧ fld (f0 * 131072 + f1 * 8192 + f2 * 128) 0 7 = 0 ∧ fld (f0 * 131072 + f1 * 8192 + f2 * 128) 9 4 = 0 ∧ fld (f0 * 131072 + f1 * 8192 + f2 * 128) 17 4 = f0 ∧ fld (f0 * 131072 + f1 * 8192 + f2 * 128) 13 4 = f1 ∧ fld (f0 * 131072 + f1 * 8192 + f2 * 128) 7 2 = f2 := by
  simp only [fld]
  omega

theorem Encoding.fclass (h : Hdr) (rd : BitVec 4) (ra : BitVec 4) (ty : FTy) : Encoding.Statement (.fclass h rd ra ty) := by
  intro hw w he
  obtain rfl := Option.some.inj he
  obtain ⟨hx, e0, e1, e2, e3, e4⟩ := layout_31 rd.toNat ra.toNat ty.code rd.isLt ra.isLt (fop_lt (t := ty) hw)
  refine decodeL_of ?_ hw
  rw [rawL_24 h _ hx]
  simp [rawMaj24, e0, e1, e2, e3, e4]

theorem layout_32 (f0 f1 f2 f3 : Nat) (_ : f0 < 8) (_ : f1 < 8) (_ : f2 < 8) (_ : f3 < 16) :
    f0 * 262144 + f1 * 32768 + f2 * 4096 + f3 < 2097152 ∧ fld (f0 * 262144 + f1 * 32768 + f2 * 4096 + f3) 4 5 = 0 ∧ fld (f0 * 262144 + f1 * 32768 + f2 * 4096 + f3) 9 3 = 0 ∧ fld (f0 * 262144 + f1 * 32768 + f2 * 4096 + f3) 18 3 = f0 ∧ fld (f0 * 262144 + f1 * 32768 + f2 * 4096 + f3) 15 3 = f1 ∧ fld (f0 * 262144 + f1 * 32768 + f2 * 4096 + f3) 12 3 = f2 ∧ fld (f0 * 262144 + f1 * 32768 + f2 * 4096 + f3) 0 4 = f3 := by
  simp only [fld]
  omega

theorem Encoding.vadd (h : Hdr) (wd : BitVec 3) (wa : BitVec 3) (wb : BitVec 3) (ty : VTy) : Encoding.Statement (.vadd h wd wa wb ty) := by
  intro hw w he
  obtain rfl := Option.some.inj he
  obtain ⟨hx, e0, e1, e2, e3, e4, e5⟩ := layout_32 wd.toNat wa.toNat wb.toNat ty.code wd.isLt wa.isLt wb.isLt (vty_lt ty)
  refine decodeL_of ?_ hw
  rw [rawL_28 h _ hx]
  simp [rawMaj28, e0, e1, e2, e3, e4, e5]

theorem layout_33 (f0 f1 f2 f3 K k0 : Nat) (_ : f0 < 8) (_ : f1 < 8) (_ : f2 < 8) (_ : f3 < 16) (_ : K = k0 * 16) (_ : k0 < 32) :
    f0 * 262144 + f1 * 32768 + f2 * 4096 + f3 + K < 2097152 ∧ fld (f0 * 262144 + f1 * 32768 + f2 * 4096 + f3 + K) 4 5 = k0 ∧ fld (f0 * 262144 + f1 * 32768 + f2 * 4096 + f3 + K) 9 3 = 0 ∧ fld (f0 * 262144 + f1 * 32768 + f2 * 4096 + f3 + K) 18 3 = f0 ∧ fld (f0 * 262144 + f1 * 32768 + f2 * 4096 + f3 + K) 15 3 = f1 ∧ fld (f0 * 262144 + f1 * 32768 + f2 * 4096 + f3 + K) 12 3 = f2 ∧ fld (f0 * 262144 + f1 * 32768 + f2 * 4096 + f3 + K) 0 4 = f3 := by
  simp only [fld]
  omega

theorem Encoding.vsub (h : Hdr) (wd : BitVec 3) (wa : BitVec 3) (wb : BitVec 3) (ty : VTy) : Encoding.Statement (.vsub h wd wa wb ty) := by
  intro hw w he
  obtain rfl := Option.some.inj he
  obtain ⟨hx, e0, e1, e2, e3, e4, e5⟩ := layout_33 wd.toNat wa.toNat wb.toNat ty.code 16 1 wd.isLt wa.isLt wb.isLt (vty_lt ty) rfl (by decide)
  refine decodeL_of ?_ hw
  rw [rawL_28 h _ hx]
  simp [rawMaj28, e0, e1, e2, e3, e4, e5]

theorem Encoding.vmul (h : Hdr) (wd : BitVec 3) (wa : BitVec 3) (wb : BitVec 3) (ty : VTy) : Encoding.Statement (.vmul h wd wa wb ty) := by
  intro hw w he
  obtain rfl := Option.some.inj he
  obtain ⟨hx, e0, e1, e2, e3, e4, e5⟩ := layout_33 wd.toNat wa.toNat wb.toNat ty.code 32 2 wd.isLt wa.isLt wb.isLt (vty_lt ty) rfl (by decide)
  refine decodeL_of ?_ hw
  rw [rawL_28 h _ hx]
  simp [rawMaj28, e0, e1, e2, e3, e4, e5]

theorem Encoding.vmin (h : Hdr) (wd : BitVec 3) (wa : BitVec 3) (wb : BitVec 3) (ty : VTy) : Encoding.Statement (.vmin h wd wa wb ty) := by
  intro hw w he
  obtain rfl := Option.some.inj he
  obtain ⟨hx, e0, e1, e2, e3, e4, e5⟩ := layout_33 wd.toNat wa.toNat wb.toNat ty.code 48 3 wd.isLt wa.isLt wb.isLt (vty_lt ty) rfl (by decide)
  refine decodeL_of ?_ hw
  rw [rawL_28 h _ hx]
  simp [rawMaj28, e0, e1, e2, e3, e4, e5]

theorem Encoding.vmax (h : Hdr) (wd : BitVec 3) (wa : BitVec 3) (wb : BitVec 3) (ty : VTy) : Encoding.Statement (.vmax h wd wa wb ty) := by
  intro hw w he
  obtain rfl := Option.some.inj he
  obtain ⟨hx, e0, e1, e2, e3, e4, e5⟩ := layout_33 wd.toNat wa.toNat wb.toNat ty.code 64 4 wd.isLt wa.isLt wb.isLt (vty_lt ty) rfl (by decide)
  refine decodeL_of ?_ hw
  rw [rawL_28 h _ hx]
  simp [rawMaj28, e0, e1, e2, e3, e4, e5]

theorem layout_34 (f0 f1 f2 K k0 : Nat) (_ : f0 < 8) (_ : f1 < 8) (_ : f2 < 16) (_ : K = k0 * 16) (_ : k0 < 32) :
    f0 * 262144 + f1 * 32768 + f2 + K < 2097152 ∧ fld (f0 * 262144 + f1 * 32768 + f2 + K) 4 5 = k0 ∧ fld (f0 * 262144 + f1 * 32768 + f2 + K) 9 6 = 0 ∧ fld (f0 * 262144 + f1 * 32768 + f2 + K) 18 3 = f0 ∧ fld (f0 * 262144 + f1 * 32768 + f2 + K) 15 3 = f1 ∧ fld (f0 * 262144 + f1 * 32768 + f2 + K) 0 4 = f2 := by
  simp only [fld]
  omega

theorem Encoding.vabs (h : Hdr) (wd : BitVec 3) (wa : BitVec 3) (ty : VTy) : Encoding.Statement (.vabs h wd wa ty) := by
  intro hw w he
  obtain rfl := Option.some.inj he
  obtain ⟨hx, e0, e1, e2, e3, e4⟩ := layout_34 wd.toNat wa.toNat ty.code 80 5 wd.isLt wa.isLt (vty_lt ty) rfl (by decide)
  refine decodeL_of ?_ hw
  rw [rawL_28 h _ hx]
  simp [rawMaj28, e0, e1, e2, e3, e4]

theorem Encoding.vneg (h : Hdr) (wd : BitVec 3) (wa : BitVec 3) (ty : VTy) : Encoding.Statement (.vneg h wd wa ty) := by
  intro hw w he
  obtain rfl := Option.some.inj he
  obtain ⟨hx, e0, e1, e2, e3, e4⟩ := layout_34 wd.toNat wa.toNat ty.code 96 6 wd.isLt wa.isLt (vty_lt ty) rfl (by decide)
  refine decodeL_of ?_ hw
  rw [rawL_28 h _ hx]
  simp [rawMaj28, e0, e1, e2, e3, e4]

theorem Encoding.vand (h : Hdr) (wd : BitVec 3) (wa : BitVec 3) (wb : BitVec 3) (ty : VTy) : Encoding.Statement (.vand h wd wa wb ty) := by
  intro hw w he
  obtain rfl := Option.some.inj he
  obtain ⟨hx, e0, e1, e2, e3, e4, e5⟩ := layout_33 wd.toNat wa.toNat wb.toNat ty.code 112 7 wd.isLt wa.isLt wb.isLt (vty_lt ty) rfl (by decide)
  refine decodeL_of ?_ hw
  rw [rawL_28 h _ hx]
  simp [rawMaj28, e0, e1, e2, e3, e4, e5]

theorem Encoding.vor (h : Hdr) (wd : BitVec 3) (wa : BitVec 3) (wb : BitVec 3) (ty : VTy) : Encoding.Statement (.vor h wd wa wb ty) := by
  intro hw w he
  obtain rfl := Option.some.inj he
  obtain ⟨hx, e0, e1, e2, e3, e4, e5⟩ := layout_33 wd.toNat wa.toNat wb.toNat ty.code 128 8 wd.isLt wa.isLt wb.isLt (vty_lt ty) rfl (by decide)
  refine decodeL_of ?_ hw
  rw [rawL_28 h _ hx]
  simp [rawMaj28, e0, e1, e2, e3, e4, e5]

theorem Encoding.vxor (h : Hdr) (wd : BitVec 3) (wa : BitVec 3) (wb : BitVec 3) (ty : VTy) : Encoding.Statement (.vxor h wd wa wb ty) := by
  intro hw w he
  obtain rfl := Option.some.inj he
  obtain ⟨hx, e0, e1, e2, e3, e4, e5⟩ := layout_33 wd.toNat wa.toNat wb.toNat ty.code 144 9 wd.isLt wa.isLt wb.isLt (vty_lt ty) rfl (by decide)
  refine decodeL_of ?_ hw
  rw [rawL_28 h _ hx]
  simp [rawMaj28, e0, e1, e2, e3, e4, e5]

theorem Encoding.vshl (h : Hdr) (wd : BitVec 3) (wa : BitVec 3) (wb : BitVec 3) (ty : VTy) : Encoding.Statement (.vshl h wd wa wb ty) := by
  intro hw w he
  obtain rfl := Option.some.inj he
  obtain ⟨hx, e0, e1, e2, e3, e4, e5⟩ := layout_33 wd.toNat wa.toNat wb.toNat ty.code 160 10 wd.isLt wa.isLt wb.isLt (vty_lt ty) rfl (by decide)
  refine decodeL_of ?_ hw
  rw [rawL_28 h _ hx]
  simp [rawMaj28, e0, e1, e2, e3, e4, e5]

theorem Encoding.vshr (h : Hdr) (wd : BitVec 3) (wa : BitVec 3) (wb : BitVec 3) (ty : VTy) : Encoding.Statement (.vshr h wd wa wb ty) := by
  intro hw w he
  obtain rfl := Option.some.inj he
  obtain ⟨hx, e0, e1, e2, e3, e4, e5⟩ := layout_33 wd.toNat wa.toNat wb.toNat ty.code 176 11 wd.isLt wa.isLt wb.isLt (vty_lt ty) rfl (by decide)
  refine decodeL_of ?_ hw
  rw [rawL_28 h _ hx]
  simp [rawMaj28, e0, e1, e2, e3, e4, e5]

theorem layout_35 (f0 f1 f2 f3 f4 : Nat) (_ : f0 < 8) (_ : f1 < 8) (_ : f2 < 8) (_ : f3 < 8) (_ : f4 < 16) :
    f0 * 262144 + f1 * 32768 + f2 * 4096 + f3 * 512 + f4 < 2097152 ∧ fld (f0 * 262144 + f1 * 32768 + f2 * 4096 + f3 * 512 + f4) 4 5 = 0 ∧ fld (f0 * 262144 + f1 * 32768 + f2 * 4096 + f3 * 512 + f4) 18 3 = f0 ∧ fld (f0 * 262144 + f1 * 32768 + f2 * 4096 + f3 * 512 + f4) 15 3 = f1 ∧ fld (f0 * 262144 + f1 * 32768 + f2 * 4096 + f3 * 512 + f4) 12 3 = f2 ∧ fld (f0 * 262144 + f1 * 32768 + f2 * 4096 + f3 * 512 + f4) 9 3 = f3 ∧ fld (f0 * 262144 + f1 * 32768 + f2 * 4096 + f3 * 512 + f4) 0 4 = f4 := by
  simp only [fld]
  omega

theorem Encoding.vfma (h : Hdr) (wd : BitVec 3) (wa : BitVec 3) (wb : BitVec 3) (wc : BitVec 3) (ty : VTy) : Encoding.Statement (.vfma h wd wa wb wc ty) := by
  intro hw w he
  obtain rfl := Option.some.inj he
  obtain ⟨hx, e0, e1, e2, e3, e4, e5⟩ := layout_35 wd.toNat wa.toNat wb.toNat wc.toNat ty.code wd.isLt wa.isLt wb.isLt wc.isLt (vty_lt ty)
  refine decodeL_of ?_ hw
  rw [rawL_29 h _ hx]
  simp [rawMaj29, e0, e1, e2, e3, e4, e5]

theorem layout_36 (f0 f1 f2 f3 f4 K k0 : Nat) (_ : f0 < 8) (_ : f1 < 8) (_ : f2 < 8) (_ : f3 < 8) (_ : f4 < 16) (_ : K = k0 * 16) (_ : k0 < 32) :
    f0 * 262144 + f1 * 32768 + f2 * 4096 + f3 * 512 + f4 + K < 2097152 ∧ fld (f0 * 262144 + f1 * 32768 + f2 * 4096 + f3 * 512 + f4 + K) 4 5 = k0 ∧ fld (f0 * 262144 + f1 * 32768 + f2 * 4096 + f3 * 512 + f4 + K) 18 3 = f0 ∧ fld (f0 * 262144 + f1 * 32768 + f2 * 4096 + f3 * 512 + f4 + K) 15 3 = f1 ∧ fld (f0 * 262144 + f1 * 32768 + f2 * 4096 + f3 * 512 + f4 + K) 12 3 = f2 ∧ fld (f0 * 262144 + f1 * 32768 + f2 * 4096 + f3 * 512 + f4 + K) 9 3 = f3 ∧ fld (f0 * 262144 + f1 * 32768 + f2 * 4096 + f3 * 512 + f4 + K) 0 4 = f4 := by
  simp only [fld]
  omega

theorem Encoding.vfms (h : Hdr) (wd : BitVec 3) (wa : BitVec 3) (wb : BitVec 3) (wc : BitVec 3) (ty : VTy) : Encoding.Statement (.vfms h wd wa wb wc ty) := by
  intro hw w he
  obtain rfl := Option.some.inj he
  obtain ⟨hx, e0, e1, e2, e3, e4, e5⟩ := layout_36 wd.toNat wa.toNat wb.toNat wc.toNat ty.code 16 1 wd.isLt wa.isLt wb.isLt wc.isLt (vty_lt ty) rfl (by decide)
  refine decodeL_of ?_ hw
  rw [rawL_29 h _ hx]
  simp [rawMaj29, e0, e1, e2, e3, e4, e5]

theorem layout_37 (f0 f1 f2 : Nat) (_ : f0 < 8) (_ : f1 < 8) (_ : f2 < 16) :
    f0 * 262144 + f1 * 32768 + f2 < 2097152 ∧ fld (f0 * 262144 + f1 * 32768 + f2) 4 5 = 0 ∧ fld (f0 * 262144 + f1 * 32768 + f2) 9 6 = 0 ∧ fld (f0 * 262144 + f1 * 32768 + f2) 18 3 = f0 ∧ fld (f0 * 262144 + f1 * 32768 + f2) 15 3 = f1 ∧ fld (f0 * 262144 + f1 * 32768 + f2) 0 4 = f2 := by
  simp only [fld]
  omega

theorem Encoding.vcvt (h : Hdr) (wd : BitVec 3) (wa : BitVec 3) (ty : VTy) : Encoding.Statement (.vcvt h wd wa ty) := by
  intro hw w he
  obtain rfl := Option.some.inj he
  obtain ⟨hx, e0, e1, e2, e3, e4⟩ := layout_37 wd.toNat wa.toNat ty.code wd.isLt wa.isLt (vty_lt ty)
  refine decodeL_of ?_ hw
  rw [rawL_2a h _ hx]
  simp [rawMaj2a, e0, e1, e2, e3, e4]

theorem Encoding.vpack (h : Hdr) (wd : BitVec 3) (wa : BitVec 3) (wb : BitVec 3) (ty : VTy) : Encoding.Statement (.vpack h wd wa wb ty) := by
  intro hw w he
  obtain rfl := Option.some.inj he
  obtain ⟨hx, e0, e1, e2, e3, e4, e5⟩ := layout_33 wd.toNat wa.toNat wb.toNat ty.code 16 1 wd.isLt wa.isLt wb.isLt (vty_lt ty) rfl (by decide)
  refine decodeL_of ?_ hw
  rw [rawL_2a h _ hx]
  simp [rawMaj2a, e0, e1, e2, e3, e4, e5]

theorem Encoding.vunpklo (h : Hdr) (wd : BitVec 3) (wa : BitVec 3) (ty : VTy) : Encoding.Statement (.vunpklo h wd wa ty) := by
  intro hw w he
  obtain rfl := Option.some.inj he
  obtain ⟨hx, e0, e1, e2, e3, e4⟩ := layout_34 wd.toNat wa.toNat ty.code 32 2 wd.isLt wa.isLt (vty_lt ty) rfl (by decide)
  refine decodeL_of ?_ hw
  rw [rawL_2a h _ hx]
  simp [rawMaj2a, e0, e1, e2, e3, e4]

theorem Encoding.vunpkhi (h : Hdr) (wd : BitVec 3) (wa : BitVec 3) (ty : VTy) : Encoding.Statement (.vunpkhi h wd wa ty) := by
  intro hw w he
  obtain rfl := Option.some.inj he
  obtain ⟨hx, e0, e1, e2, e3, e4⟩ := layout_34 wd.toNat wa.toNat ty.code 48 3 wd.isLt wa.isLt (vty_lt ty) rfl (by decide)
  refine decodeL_of ?_ hw
  rw [rawL_2a h _ hx]
  simp [rawMaj2a, e0, e1, e2, e3, e4]

theorem Encoding.vswp2 (h : Hdr) (wd : BitVec 3) (wa : BitVec 3) (ty : VTy) : Encoding.Statement (.vswp2 h wd wa ty) := by
  intro hw w he
  obtain rfl := Option.some.inj he
  obtain ⟨hx, e0, e1, e2, e3, e4⟩ := layout_37 wd.toNat wa.toNat ty.code wd.isLt wa.isLt (vty_lt ty)
  refine decodeL_of ?_ hw
  rw [rawL_2b h _ hx]
  simp [rawMaj2b, e0, e1, e2, e3, e4]

theorem Encoding.vrev (h : Hdr) (wd : BitVec 3) (wa : BitVec 3) (ty : VTy) : Encoding.Statement (.vrev h wd wa ty) := by
  intro hw w he
  obtain rfl := Option.some.inj he
  obtain ⟨hx, e0, e1, e2, e3, e4⟩ := layout_34 wd.toNat wa.toNat ty.code 16 1 wd.isLt wa.isLt (vty_lt ty) rfl (by decide)
  refine decodeL_of ?_ hw
  rw [rawL_2b h _ hx]
  simp [rawMaj2b, e0, e1, e2, e3, e4]

theorem Encoding.vshuf (h : Hdr) (wd : BitVec 3) (wa : BitVec 3) (wb : BitVec 3) (ty : VTy) : Encoding.Statement (.vshuf h wd wa wb ty) := by
  intro hw w he
  obtain rfl := Option.some.inj he
  obtain ⟨hx, e0, e1, e2, e3, e4, e5⟩ := layout_33 wd.toNat wa.toNat wb.toNat ty.code 32 2 wd.isLt wa.isLt wb.isLt (vty_lt ty) rfl (by decide)
  refine decodeL_of ?_ hw
  rw [rawL_2b h _ hx]
  simp [rawMaj2b, e0, e1, e2, e3, e4, e5]

theorem layout_38 (f0 f1 f2 f3 K k0 : Nat) (_ : f0 < 8) (_ : f1 < 8) (_ : f2 < 32) (_ : f3 < 16) (_ : K = k0 * 16) (_ : k0 < 32) :
    f0 * 262144 + f1 * 32768 + f2 * 512 + f3 + K < 2097152 ∧ fld (f0 * 262144 + f1 * 32768 + f2 * 512 + f3 + K) 4 5 = k0 ∧ fld (f0 * 262144 + f1 * 32768 + f2 * 512 + f3 + K) 14 1 = 0 ∧ fld (f0 * 262144 + f1 * 32768 + f2 * 512 + f3 + K) 18 3 = f0 ∧ fld (f0 * 262144 + f1 * 32768 + f2 * 512 + f3 + K) 15 3 = f1 ∧ fld (f0 * 262144 + f1 * 32768 + f2 * 512 + f3 + K) 9 5 = f2 ∧ fld (f0 * 262144 + f1 * 32768 + f2 * 512 + f3 + K) 0 4 = f3 := by
  simp only [fld]
  omega

theorem Encoding.vrot (h : Hdr) (wd : BitVec 3) (wa : BitVec 3) (k : BitVec 5) (ty : VTy) : Encoding.Statement (.vrot h wd wa k ty) := by
  intro hw w he
  obtain rfl := Option.some.inj he
  obtain ⟨hx, e0, e1, e2, e3, e4, e5⟩ := layout_38 wd.toNat wa.toNat k.toNat ty.code 48 3 wd.isLt wa.isLt k.isLt (vty_lt ty) rfl (by decide)
  refine decodeL_of ?_ hw
  rw [rawL_2b h _ hx]
  simp [rawMaj2b, e0, e1, e2, e3, e4, e5]

theorem Encoding.vbcast (h : Hdr) (wd : BitVec 3) (wa : BitVec 3) (k : BitVec 5) (ty : VTy) : Encoding.Statement (.vbcast h wd wa k ty) := by
  intro hw w he
  obtain rfl := Option.some.inj he
  obtain ⟨hx, e0, e1, e2, e3, e4, e5⟩ := layout_38 wd.toNat wa.toNat k.toNat ty.code 64 4 wd.isLt wa.isLt k.isLt (vty_lt ty) rfl (by decide)
  refine decodeL_of ?_ hw
  rw [rawL_2b h _ hx]
  simp [rawMaj2b, e0, e1, e2, e3, e4, e5]

theorem layout_39 (f0 f1 f2 f3 K k0 : Nat) (_ : f0 < 8) (_ : f1 < 16) (_ : f2 < 32) (_ : f3 < 16) (_ : K = k0 * 16) (_ : k0 < 32) :
    f0 * 262144 + f1 * 16384 + f2 * 512 + f3 + K < 2097152 ∧ fld (f0 * 262144 + f1 * 16384 + f2 * 512 + f3 + K) 4 5 = k0 ∧ fld (f0 * 262144 + f1 * 16384 + f2 * 512 + f3 + K) 18 3 = f0 ∧ fld (f0 * 262144 + f1 * 16384 + f2 * 512 + f3 + K) 14 4 = f1 ∧ fld (f0 * 262144 + f1 * 16384 + f2 * 512 + f3 + K) 9 5 = f2 ∧ fld (f0 * 262144 + f1 * 16384 + f2 * 512 + f3 + K) 0 4 = f3 := by
  simp only [fld]
  omega

theorem Encoding.vext (h : Hdr) (wv : BitVec 3) (rg : BitVec 4) (k : BitVec 5) (ty : VTy) : Encoding.Statement (.vext h wv rg k ty) := by
  intro hw w he
  obtain rfl := Option.some.inj he
  obtain ⟨hx, e0, e1, e2, e3, e4⟩ := layout_39 wv.toNat rg.toNat k.toNat ty.code 80 5 wv.isLt rg.isLt k.isLt (vty_lt ty) rfl (by decide)
  refine decodeL_of ?_ hw
  rw [rawL_2b h _ hx]
  simp [rawMaj2b, e0, e1, e2, e3, e4]

theorem Encoding.vins (h : Hdr) (wv : BitVec 3) (rg : BitVec 4) (k : BitVec 5) (ty : VTy) : Encoding.Statement (.vins h wv rg k ty) := by
  intro hw w he
  obtain rfl := Option.some.inj he
  obtain ⟨hx, e0, e1, e2, e3, e4⟩ := layout_39 wv.toNat rg.toNat k.toNat ty.code 96 6 wv.isLt rg.isLt k.isLt (vty_lt ty) rfl (by decide)
  refine decodeL_of ?_ hw
  rw [rawL_2b h _ hx]
  simp [rawMaj2b, e0, e1, e2, e3, e4]

theorem layout_40 (f0 f1 f2 K k0 : Nat) (_ : f0 < 8) (_ : f1 < 16) (_ : f2 < 16) (_ : K = k0 * 16) (_ : k0 < 32) :
    f0 * 262144 + f1 * 16384 + f2 + K < 2097152 ∧ fld (f0 * 262144 + f1 * 16384 + f2 + K) 4 5 = k0 ∧ fld (f0 * 262144 + f1 * 16384 + f2 + K) 9 5 = 0 ∧ fld (f0 * 262144 + f1 * 16384 + f2 + K) 18 3 = f0 ∧ fld (f0 * 262144 + f1 * 16384 + f2 + K) 14 4 = f1 ∧ fld (f0 * 262144 + f1 * 16384 + f2 + K) 0 4 = f2 := by
  simp only [fld]
  omega

theorem Encoding.vsplat (h : Hdr) (wv : BitVec 3) (rg : BitVec 4) (ty : VTy) : Encoding.Statement (.vsplat h wv rg ty) := by
  intro hw w he
  obtain rfl := Option.some.inj he
  obtain ⟨hx, e0, e1, e2, e3, e4⟩ := layout_40 wv.toNat rg.toNat ty.code 112 7 wv.isLt rg.isLt (vty_lt ty) rfl (by decide)
  refine decodeL_of ?_ hw
  rw [rawL_2b h _ hx]
  simp [rawMaj2b, e0, e1, e2, e3, e4]

theorem Encoding.vcmpEq (h : Hdr) (wd : BitVec 3) (wa : BitVec 3) (wb : BitVec 3) (ty : VTy) : Encoding.Statement (.vcmpEq h wd wa wb ty) := by
  intro hw w he
  obtain rfl := Option.some.inj he
  obtain ⟨hx, e0, e1, e2, e3, e4, e5⟩ := layout_32 wd.toNat wa.toNat wb.toNat ty.code wd.isLt wa.isLt wb.isLt (vty_lt ty)
  refine decodeL_of ?_ hw
  rw [rawL_2c h _ hx]
  simp [rawMaj2c, e0, e1, e2, e3, e4, e5]

theorem Encoding.vcmpLt (h : Hdr) (wd : BitVec 3) (wa : BitVec 3) (wb : BitVec 3) (ty : VTy) : Encoding.Statement (.vcmpLt h wd wa wb ty) := by
  intro hw w he
  obtain rfl := Option.some.inj he
  obtain ⟨hx, e0, e1, e2, e3, e4, e5⟩ := layout_33 wd.toNat wa.toNat wb.toNat ty.code 16 1 wd.isLt wa.isLt wb.isLt (vty_lt ty) rfl (by decide)
  refine decodeL_of ?_ hw
  rw [rawL_2c h _ hx]
  simp [rawMaj2c, e0, e1, e2, e3, e4, e5]

theorem Encoding.vcmpLe (h : Hdr) (wd : BitVec 3) (wa : BitVec 3) (wb : BitVec 3) (ty : VTy) : Encoding.Statement (.vcmpLe h wd wa wb ty) := by
  intro hw w he
  obtain rfl := Option.some.inj he
  obtain ⟨hx, e0, e1, e2, e3, e4, e5⟩ := layout_33 wd.toNat wa.toNat wb.toNat ty.code 32 2 wd.isLt wa.isLt wb.isLt (vty_lt ty) rfl (by decide)
  refine decodeL_of ?_ hw
  rw [rawL_2c h _ hx]
  simp [rawMaj2c, e0, e1, e2, e3, e4, e5]

theorem Encoding.vsel (h : Hdr) (wd : BitVec 3) (wa : BitVec 3) (wb : BitVec 3) (wc : BitVec 3) (ty : VTy) : Encoding.Statement (.vsel h wd wa wb wc ty) := by
  intro hw w he
  obtain rfl := Option.some.inj he
  obtain ⟨hx, e0, e1, e2, e3, e4, e5⟩ := layout_36 wd.toNat wa.toNat wb.toNat wc.toNat ty.code 48 3 wd.isLt wa.isLt wb.isLt wc.isLt (vty_lt ty) rfl (by decide)
  refine decodeL_of ?_ hw
  rw [rawL_2c h _ hx]
  simp [rawMaj2c, e0, e1, e2, e3, e4, e5]

theorem Encoding.vnz (h : Hdr) (wd : BitVec 3) (wa : BitVec 3) (ty : VTy) : Encoding.Statement (.vnz h wd wa ty) := by
  intro hw w he
  obtain rfl := Option.some.inj he
  obtain ⟨hx, e0, e1, e2, e3, e4⟩ := layout_34 wd.toNat wa.toNat ty.code 64 4 wd.isLt wa.isLt (vty_lt ty) rfl (by decide)
  refine decodeL_of ?_ hw
  rw [rawL_2c h _ hx]
  simp [rawMaj2c, e0, e1, e2, e3, e4]

theorem Encoding.vsin (h : Hdr) (wd : BitVec 3) (wa : BitVec 3) (ty : VTy) : Encoding.Statement (.vsin h wd wa ty) := by
  intro hw w he
  obtain rfl := Option.some.inj he
  obtain ⟨hx, e0, e1, e2, e3, e4⟩ := layout_37 wd.toNat wa.toNat ty.code wd.isLt wa.isLt (vty_lt ty)
  refine decodeL_of ?_ hw
  rw [rawL_2d h _ hx]
  simp [rawMaj2d, e0, e1, e2, e3, e4]

theorem Encoding.vcos (h : Hdr) (wd : BitVec 3) (wa : BitVec 3) (ty : VTy) : Encoding.Statement (.vcos h wd wa ty) := by
  intro hw w he
  obtain rfl := Option.some.inj he
  obtain ⟨hx, e0, e1, e2, e3, e4⟩ := layout_34 wd.toNat wa.toNat ty.code 16 1 wd.isLt wa.isLt (vty_lt ty) rfl (by decide)
  refine decodeL_of ?_ hw
  rw [rawL_2d h _ hx]
  simp [rawMaj2d, e0, e1, e2, e3, e4]

theorem Encoding.vexp (h : Hdr) (wd : BitVec 3) (wa : BitVec 3) (ty : VTy) : Encoding.Statement (.vexp h wd wa ty) := by
  intro hw w he
  obtain rfl := Option.some.inj he
  obtain ⟨hx, e0, e1, e2, e3, e4⟩ := layout_34 wd.toNat wa.toNat ty.code 32 2 wd.isLt wa.isLt (vty_lt ty) rfl (by decide)
  refine decodeL_of ?_ hw
  rw [rawL_2d h _ hx]
  simp [rawMaj2d, e0, e1, e2, e3, e4]

theorem Encoding.vlog2 (h : Hdr) (wd : BitVec 3) (wa : BitVec 3) (ty : VTy) : Encoding.Statement (.vlog2 h wd wa ty) := by
  intro hw w he
  obtain rfl := Option.some.inj he
  obtain ⟨hx, e0, e1, e2, e3, e4⟩ := layout_34 wd.toNat wa.toNat ty.code 48 3 wd.isLt wa.isLt (vty_lt ty) rfl (by decide)
  refine decodeL_of ?_ hw
  rw [rawL_2d h _ hx]
  simp [rawMaj2d, e0, e1, e2, e3, e4]

theorem Encoding.vrsqrt (h : Hdr) (wd : BitVec 3) (wa : BitVec 3) (ty : VTy) : Encoding.Statement (.vrsqrt h wd wa ty) := by
  intro hw w he
  obtain rfl := Option.some.inj he
  obtain ⟨hx, e0, e1, e2, e3, e4⟩ := layout_34 wd.toNat wa.toNat ty.code 64 4 wd.isLt wa.isLt (vty_lt ty) rfl (by decide)
  refine decodeL_of ?_ hw
  rw [rawL_2d h _ hx]
  simp [rawMaj2d, e0, e1, e2, e3, e4]

theorem Encoding.vrcp (h : Hdr) (wd : BitVec 3) (wa : BitVec 3) (ty : VTy) : Encoding.Statement (.vrcp h wd wa ty) := by
  intro hw w he
  obtain rfl := Option.some.inj he
  obtain ⟨hx, e0, e1, e2, e3, e4⟩ := layout_34 wd.toNat wa.toNat ty.code 80 5 wd.isLt wa.isLt (vty_lt ty) rfl (by decide)
  refine decodeL_of ?_ hw
  rw [rawL_2d h _ hx]
  simp [rawMaj2d, e0, e1, e2, e3, e4]

theorem Encoding.vrsum (h : Hdr) (wd : BitVec 3) (wa : BitVec 3) (ty : VTy) : Encoding.Statement (.vrsum h wd wa ty) := by
  intro hw w he
  obtain rfl := Option.some.inj he
  obtain ⟨hx, e0, e1, e2, e3, e4⟩ := layout_37 wd.toNat wa.toNat ty.code wd.isLt wa.isLt (vty_lt ty)
  refine decodeL_of ?_ hw
  rw [rawL_2e h _ hx]
  simp [rawMaj2e, e0, e1, e2, e3, e4]

theorem Encoding.vrmax (h : Hdr) (wd : BitVec 3) (wa : BitVec 3) (ty : VTy) : Encoding.Statement (.vrmax h wd wa ty) := by
  intro hw w he
  obtain rfl := Option.some.inj he
  obtain ⟨hx, e0, e1, e2, e3, e4⟩ := layout_34 wd.toNat wa.toNat ty.code 16 1 wd.isLt wa.isLt (vty_lt ty) rfl (by decide)
  refine decodeL_of ?_ hw
  rw [rawL_2e h _ hx]
  simp [rawMaj2e, e0, e1, e2, e3, e4]

theorem Encoding.vrmin (h : Hdr) (wd : BitVec 3) (wa : BitVec 3) (ty : VTy) : Encoding.Statement (.vrmin h wd wa ty) := by
  intro hw w he
  obtain rfl := Option.some.inj he
  obtain ⟨hx, e0, e1, e2, e3, e4⟩ := layout_34 wd.toNat wa.toNat ty.code 32 2 wd.isLt wa.isLt (vty_lt ty) rfl (by decide)
  refine decodeL_of ?_ hw
  rw [rawL_2e h _ hx]
  simp [rawMaj2e, e0, e1, e2, e3, e4]

theorem layout_41 (f0 f1 f2 : Nat) (_ : f0 < 16) (_ : f1 < 16) (_ : f2 < 16) :
    f0 * 131072 + f1 * 8192 + f2 < 2097152 ∧ fld (f0 * 131072 + f1 * 8192 + f2) 4 5 = 0 ∧ fld (f0 * 131072 + f1 * 8192 + f2) 9 4 = 0 ∧ fld (f0 * 131072 + f1 * 8192 + f2) 17 4 = f0 ∧ fld (f0 * 131072 + f1 * 8192 + f2) 13 4 = f1 ∧ fld (f0 * 131072 + f1 * 8192 + f2) 0 4 = f2 := by
  simp only [fld]
  omega

theorem Encoding.rowcpy (h : Hdr) (rd : BitVec 4) (ra : BitVec 4) (ty : VTy) : Encoding.Statement (.rowcpy h rd ra ty) := by
  intro hw w he
  obtain rfl := Option.some.inj he
  obtain ⟨hx, e0, e1, e2, e3, e4⟩ := layout_41 rd.toNat ra.toNat ty.code rd.isLt ra.isLt (vty_lt ty)
  refine decodeL_of ?_ hw
  rw [rawL_2f h _ hx]
  simp [rawMaj2f, e0, e1, e2, e3, e4]

theorem layout_42 (f0 f1 K k0 : Nat) (_ : f0 < 16) (_ : f1 < 16) (_ : K = k0 * 16) (_ : k0 < 32) :
    f0 * 131072 + f1 + K < 2097152 ∧ fld (f0 * 131072 + f1 + K) 4 5 = k0 ∧ fld (f0 * 131072 + f1 + K) 9 8 = 0 ∧ fld (f0 * 131072 + f1 + K) 17 4 = f0 ∧ fld (f0 * 131072 + f1 + K) 0 4 = f1 := by
  simp only [fld]
  omega

theorem Encoding.rowzero (h : Hdr) (rd : BitVec 4) (ty : VTy) : Encoding.Statement (.rowzero h rd ty) := by
  intro hw w he
  obtain rfl := Option.some.inj he
  obtain ⟨hx, e0, e1, e2, e3⟩ := layout_42 rd.toNat ty.code 16 1 rd.isLt (vty_lt ty) rfl (by decide)
  refine decodeL_of ?_ hw
  rw [rawL_2f h _ hx]
  simp [rawMaj2f, e0, e1, e2, e3]

theorem layout_43 (f0 f1 f2 f3 K k0 : Nat) (_ : f0 < 16) (_ : f1 < 16) (_ : f2 < 16) (_ : f3 < 16) (_ : K = k0 * 16) (_ : k0 < 32) :
    f0 * 131072 + f1 * 8192 + f2 * 512 + f3 + K < 2097152 ∧ fld (f0 * 131072 + f1 * 8192 + f2 * 512 + f3 + K) 4 5 = k0 ∧ fld (f0 * 131072 + f1 * 8192 + f2 * 512 + f3 + K) 17 4 = f0 ∧ fld (f0 * 131072 + f1 * 8192 + f2 * 512 + f3 + K) 13 4 = f1 ∧ fld (f0 * 131072 + f1 * 8192 + f2 * 512 + f3 + K) 9 4 = f2 ∧ fld (f0 * 131072 + f1 * 8192 + f2 * 512 + f3 + K) 0 4 = f3 := by
  simp only [fld]
  omega

theorem Encoding.rowadd (h : Hdr) (rd : BitVec 4) (ra : BitVec 4) (rb : BitVec 4) (ty : VTy) : Encoding.Statement (.rowadd h rd ra rb ty) := by
  intro hw w he
  obtain rfl := Option.some.inj he
  obtain ⟨hx, e0, e1, e2, e3, e4⟩ := layout_43 rd.toNat ra.toNat rb.toNat ty.code 32 2 rd.isLt ra.isLt rb.isLt (vty_lt ty) rfl (by decide)
  refine decodeL_of ?_ hw
  rw [rawL_2f h _ hx]
  simp [rawMaj2f, e0, e1, e2, e3, e4]

theorem Encoding.rowmul (h : Hdr) (rd : BitVec 4) (ra : BitVec 4) (rb : BitVec 4) (ty : VTy) : Encoding.Statement (.rowmul h rd ra rb ty) := by
  intro hw w he
  obtain rfl := Option.some.inj he
  obtain ⟨hx, e0, e1, e2, e3, e4⟩ := layout_43 rd.toNat ra.toNat rb.toNat ty.code 48 3 rd.isLt ra.isLt rb.isLt (vty_lt ty) rfl (by decide)
  refine decodeL_of ?_ hw
  rw [rawL_2f h _ hx]
  simp [rawMaj2f, e0, e1, e2, e3, e4]

theorem Encoding.rowaxpy (h : Hdr) (rd : BitVec 4) (ra : BitVec 4) (rb : BitVec 4) (ty : VTy) : Encoding.Statement (.rowaxpy h rd ra rb ty) := by
  intro hw w he
  obtain rfl := Option.some.inj he
  obtain ⟨hx, e0, e1, e2, e3, e4⟩ := layout_43 rd.toNat ra.toNat rb.toNat ty.code 64 4 rd.isLt ra.isLt rb.isLt (vty_lt ty) rfl (by decide)
  refine decodeL_of ?_ hw
  rw [rawL_2f h _ hx]
  simp [rawMaj2f, e0, e1, e2, e3, e4]

theorem Encoding.rowmax (h : Hdr) (rd : BitVec 4) (ra : BitVec 4) (rb : BitVec 4) (ty : VTy) : Encoding.Statement (.rowmax h rd ra rb ty) := by
  intro hw w he
  obtain rfl := Option.some.inj he
  obtain ⟨hx, e0, e1, e2, e3, e4⟩ := layout_43 rd.toNat ra.toNat rb.toNat ty.code 80 5 rd.isLt ra.isLt rb.isLt (vty_lt ty) rfl (by decide)
  refine decodeL_of ?_ hw
  rw [rawL_2f h _ hx]
  simp [rawMaj2f, e0, e1, e2, e3, e4]

theorem layout_44 (f0 f1 f2 K k0 : Nat) (_ : f0 < 16) (_ : f1 < 16) (_ : f2 < 16) (_ : K = k0 * 16) (_ : k0 < 32) :
    f0 * 131072 + f1 * 8192 + f2 + K < 2097152 ∧ fld (f0 * 131072 + f1 * 8192 + f2 + K) 4 5 = k0 ∧ fld (f0 * 131072 + f1 * 8192 + f2 + K) 9 4 = 0 ∧ fld (f0 * 131072 + f1 * 8192 + f2 + K) 17 4 = f0 ∧ fld (f0 * 131072 + f1 * 8192 + f2 + K) 13 4 = f1 ∧ fld (f0 * 131072 + f1 * 8192 + f2 + K) 0 4 = f2 := by
  simp only [fld]
  omega

theorem Encoding.rowcvt (h : Hdr) (rd : BitVec 4) (ra : BitVec 4) (ty : VTy) : Encoding.Statement (.rowcvt h rd ra ty) := by
  intro hw w he
  obtain rfl := Option.some.inj he
  obtain ⟨hx, e0, e1, e2, e3, e4⟩ := layout_44 rd.toNat ra.toNat ty.code 96 6 rd.isLt ra.isLt (vty_lt ty) rfl (by decide)
  refine decodeL_of ?_ hw
  rw [rawL_2f h _ hx]
  simp [rawMaj2f, e0, e1, e2, e3, e4]

theorem layout_45 (f0 f1 f2 f3 f4 f5 : Nat) (_ : f0 < 16) (_ : f1 < 16) (_ : f2 < 16) (_ : f3 < 4) (_ : f4 < 2) (_ : f5 < 2) :
    f0 * 131072 + f1 * 8192 + f2 * 512 + f3 * 128 + f4 * 64 + f5 * 32 < 2097152 ∧ fld (f0 * 131072 + f1 * 8192 + f2 * 512 + f3 * 128 + f4 * 64 + f5 * 32) 0 5 = 0 ∧ fld (f0 * 131072 + f1 * 8192 + f2 * 512 + f3 * 128 + f4 * 64 + f5 * 32) 17 4 = f0 ∧ fld (f0 * 131072 + f1 * 8192 + f2 * 512 + f3 * 128 + f4 * 64 + f5 * 32) 13 4 = f1 ∧ fld (f0 * 131072 + f1 * 8192 + f2 * 512 + f3 * 128 + f4 * 64 + f5 * 32) 9 4 = f2 ∧ fld (f0 * 131072 + f1 * 8192 + f2 * 512 + f3 * 128 + f4 * 64 + f5 * 32) 7 2 = f3 ∧ fld (f0 * 131072 + f1 * 8192 + f2 * 512 + f3 * 128 + f4 * 64 + f5 * 32) 6 1 = f4 ∧ fld (f0 * 131072 + f1 * 8192 + f2 * 512 + f3 * 128 + f4 * 64 + f5 * 32) 5 1 = f5 := by
  simp only [fld]
  omega

theorem Encoding.send (h : Hdr) (ra : BitVec 4) (rb : BitVec 4) (rc : BitVec 4) (prio : BitVec 2) (rl : Bool) (merge : Bool) : Encoding.Statement (.send h ra rb rc prio rl merge) := by
  intro hw w he
  obtain rfl := Option.some.inj he
  obtain ⟨hx, e0, e1, e2, e3, e4, e5, e6⟩ := layout_45 ra.toNat rb.toNat rc.toNat prio.toNat rl.toNat merge.toNat ra.isLt rb.isLt rc.isLt prio.isLt (bool_lt rl) (bool_lt merge)
  refine decodeL_of ?_ hw
  rw [rawL_30 h _ hx]
  simp [rawMaj30, e0, e1, e2, e3, e4, e5, e6]

theorem layout_46 (f0 f1 f2 f3 f4 : Nat) (_ : f0 < 16) (_ : f1 < 16) (_ : f2 < 16) (_ : f3 < 4) (_ : f4 < 2) :
    f0 * 131072 + f1 * 8192 + f2 * 512 + f3 * 128 + f4 * 64 < 2097152 ∧ fld (f0 * 131072 + f1 * 8192 + f2 * 512 + f3 * 128 + f4 * 64) 0 5 = 0 ∧ fld (f0 * 131072 + f1 * 8192 + f2 * 512 + f3 * 128 + f4 * 64) 5 1 = 0 ∧ fld (f0 * 131072 + f1 * 8192 + f2 * 512 + f3 * 128 + f4 * 64) 17 4 = f0 ∧ fld (f0 * 131072 + f1 * 8192 + f2 * 512 + f3 * 128 + f4 * 64) 13 4 = f1 ∧ fld (f0 * 131072 + f1 * 8192 + f2 * 512 + f3 * 128 + f4 * 64) 9 4 = f2 ∧ fld (f0 * 131072 + f1 * 8192 + f2 * 512 + f3 * 128 + f4 * 64) 7 2 = f3 ∧ fld (f0 * 131072 + f1 * 8192 + f2 * 512 + f3 * 128 + f4 * 64) 6 1 = f4 := by
  simp only [fld]
  omega

theorem Encoding.sendp (h : Hdr) (ra : BitVec 4) (rb : BitVec 4) (rc : BitVec 4) (prio : BitVec 2) (rl : Bool) : Encoding.Statement (.sendp h ra rb rc prio rl) := by
  intro hw w he
  obtain rfl := Option.some.inj he
  obtain ⟨hx, e0, e1, e2, e3, e4, e5, e6⟩ := layout_46 ra.toNat rb.toNat rc.toNat prio.toNat rl.toNat ra.isLt rb.isLt rc.isLt prio.isLt (bool_lt rl)
  refine decodeL_of ?_ hw
  rw [rawL_31 h _ hx]
  simp [rawMaj31, e0, e1, e2, e3, e4, e5, e6]

theorem Encoding.sendc (h : Hdr) (ra : BitVec 4) (rb : BitVec 4) (rc : BitVec 4) (prio : BitVec 2) (rl : Bool) : Encoding.Statement (.sendc h ra rb rc prio rl) := by
  intro hw w he
  obtain rfl := Option.some.inj he
  obtain ⟨hx, e0, e1, e2, e3, e4, e5, e6⟩ := layout_46 ra.toNat rb.toNat rc.toNat prio.toNat rl.toNat ra.isLt rb.isLt rc.isLt prio.isLt (bool_lt rl)
  refine decodeL_of ?_ hw
  rw [rawL_32 h _ hx]
  simp [rawMaj32, e0, e1, e2, e3, e4, e5, e6]

theorem Encoding.recv (h : Hdr) (rd : BitVec 4) (ra : BitVec 4) (rb : BitVec 4) : Encoding.Statement (.recv h rd ra rb) := by
  intro hw w he
  obtain rfl := Option.some.inj he
  obtain ⟨hx, e0, e1, e2, e3⟩ := layout_0 rd.toNat ra.toNat rb.toNat rd.isLt ra.isLt rb.isLt
  refine decodeL_of ?_ hw
  rw [rawL_33 h _ hx]
  simp [rawMaj33, e0, e1, e2, e3]

theorem Encoding.endCtx (h : Hdr) : Encoding.Statement (.endCtx h) := by
  intro hw w he
  obtain rfl := Option.some.inj he
  have e0 : fld 0 0 9 = 0 := rfl
  have e1 : fld 0 9 12 = 0 := rfl
  refine decodeL_of ?_ hw
  rw [rawL_34 h _ (by decide)]
  simp [rawMaj34, e0, e1]

theorem Encoding.rel (h : Hdr) : Encoding.Statement (.rel h) := by
  intro hw w he
  obtain rfl := Option.some.inj he
  have e0 : fld 1 0 9 = 1 := rfl
  have e1 : fld 1 9 12 = 0 := rfl
  refine decodeL_of ?_ hw
  rw [rawL_34 h _ (by decide)]
  simp [rawMaj34, e0, e1]

theorem Encoding.migrate (h : Hdr) (ra : BitVec 4) : Encoding.Statement (.migrate h ra) := by
  intro hw w he
  obtain rfl := Option.some.inj he
  obtain ⟨hx, e0, e1, e2, e3⟩ := layout_11 ra.toNat 2 2 ra.isLt rfl (by decide)
  refine decodeL_of ?_ hw
  rw [rawL_34 h _ hx]
  simp [rawMaj34, e0, e1, e2, e3]

theorem Encoding.yield (h : Hdr) : Encoding.Statement (.yield h) := by
  intro hw w he
  obtain rfl := Option.some.inj he
  have e0 : fld 3 0 9 = 3 := rfl
  have e1 : fld 3 9 12 = 0 := rfl
  refine decodeL_of ?_ hw
  rw [rawL_34 h _ (by decide)]
  simp [rawMaj34, e0, e1]

theorem Encoding.callat (h : Hdr) (ra : BitVec 4) (rb : BitVec 4) (rc : BitVec 4) (prio : BitVec 2) (rl : Bool) : Encoding.Statement (.callat h ra rb rc prio rl) := by
  intro hw w he
  obtain rfl := Option.some.inj he
  obtain ⟨hx, e0, e1, e2, e3, e4, e5, e6⟩ := layout_46 ra.toNat rb.toNat rc.toNat prio.toNat rl.toNat ra.isLt rb.isLt rc.isLt prio.isLt (bool_lt rl)
  refine decodeL_of ?_ hw
  rw [rawL_35 h _ hx]
  simp [rawMaj35, e0, e1, e2, e3, e4, e5, e6]

theorem layout_47 (f0 f1 f2 f3 : Nat) (_ : f0 < 16) (_ : f1 < 16) (_ : f2 < 16) (_ : f3 < 64) :
    f0 * 131072 + f1 * 8192 + f2 * 512 + f3 < 2097152 ∧ fld (f0 * 131072 + f1 * 8192 + f2 * 512 + f3) 7 2 = 0 ∧ fld (f0 * 131072 + f1 * 8192 + f2 * 512 + f3) 6 1 = 0 ∧ fld (f0 * 131072 + f1 * 8192 + f2 * 512 + f3) 17 4 = f0 ∧ fld (f0 * 131072 + f1 * 8192 + f2 * 512 + f3) 13 4 = f1 ∧ fld (f0 * 131072 + f1 * 8192 + f2 * 512 + f3) 9 4 = f2 ∧ fld (f0 * 131072 + f1 * 8192 + f2 * 512 + f3) 0 6 = f3 := by
  simp only [fld]
  omega

theorem Encoding.barm (h : Hdr) (rd : BitVec 4) (ra : BitVec 4) (rb : BitVec 4) (bar : BitVec 6) : Encoding.Statement (.barm h rd ra rb bar) := by
  intro hw w he
  obtain rfl := Option.some.inj he
  obtain ⟨hx, e0, e1, e2, e3, e4, e5⟩ := layout_47 rd.toNat ra.toNat rb.toNat bar.toNat rd.isLt ra.isLt rb.isLt bar.isLt
  refine decodeL_of ?_ hw
  rw [rawL_36 h _ hx]
  simp [rawMaj36, e0, e1, e2, e3, e4, e5]

theorem layout_48 (f0 f1 f2 f3 K k0 : Nat) (_ : f0 < 16) (_ : f1 < 16) (_ : f2 < 16) (_ : f3 < 64) (_ : K = k0 * 128) (_ : k0 < 4) :
    f0 * 131072 + f1 * 8192 + f2 * 512 + f3 + K < 2097152 ∧ fld (f0 * 131072 + f1 * 8192 + f2 * 512 + f3 + K) 7 2 = k0 ∧ fld (f0 * 131072 + f1 * 8192 + f2 * 512 + f3 + K) 6 1 = 0 ∧ fld (f0 * 131072 + f1 * 8192 + f2 * 512 + f3 + K) 17 4 = f0 ∧ fld (f0 * 131072 + f1 * 8192 + f2 * 512 + f3 + K) 13 4 = f1 ∧ fld (f0 * 131072 + f1 * 8192 + f2 * 512 + f3 + K) 9 4 = f2 ∧ fld (f0 * 131072 + f1 * 8192 + f2 * 512 + f3 + K) 0 6 = f3 := by
  simp only [fld]
  omega

theorem Encoding.bara (h : Hdr) (rd : BitVec 4) (ra : BitVec 4) (rb : BitVec 4) (bar : BitVec 6) : Encoding.Statement (.bara h rd ra rb bar) := by
  intro hw w he
  obtain rfl := Option.some.inj he
  obtain ⟨hx, e0, e1, e2, e3, e4, e5⟩ := layout_48 rd.toNat ra.toNat rb.toNat bar.toNat 128 1 rd.isLt ra.isLt rb.isLt bar.isLt rfl (by decide)
  refine decodeL_of ?_ hw
  rw [rawL_36 h _ hx]
  simp [rawMaj36, e0, e1, e2, e3, e4, e5]

theorem Encoding.barw (h : Hdr) (rd : BitVec 4) (ra : BitVec 4) (rb : BitVec 4) (bar : BitVec 6) : Encoding.Statement (.barw h rd ra rb bar) := by
  intro hw w he
  obtain rfl := Option.some.inj he
  obtain ⟨hx, e0, e1, e2, e3, e4, e5⟩ := layout_48 rd.toNat ra.toNat rb.toNat bar.toNat 256 2 rd.isLt ra.isLt rb.isLt bar.isLt rfl (by decide)
  refine decodeL_of ?_ hw
  rw [rawL_36 h _ hx]
  simp [rawMaj36, e0, e1, e2, e3, e4, e5]

theorem Encoding.barq (h : Hdr) (rd : BitVec 4) (ra : BitVec 4) (rb : BitVec 4) (bar : BitVec 6) : Encoding.Statement (.barq h rd ra rb bar) := by
  intro hw w he
  obtain rfl := Option.some.inj he
  obtain ⟨hx, e0, e1, e2, e3, e4, e5⟩ := layout_48 rd.toNat ra.toNat rb.toNat bar.toNat 384 3 rd.isLt ra.isLt rb.isLt bar.isLt rfl (by decide)
  refine decodeL_of ?_ hw
  rw [rawL_36 h _ hx]
  simp [rawMaj36, e0, e1, e2, e3, e4, e5]

theorem Encoding.scnew (h : Hdr) (rd : BitVec 4) (ra : BitVec 4) (rb : BitVec 4) : Encoding.Statement (.scnew h rd ra rb) := by
  intro hw w he
  obtain rfl := Option.some.inj he
  obtain ⟨hx, e0, e1, e2, e3⟩ := layout_0 rd.toNat ra.toNat rb.toNat rd.isLt ra.isLt rb.isLt
  refine decodeL_of ?_ hw
  rw [rawL_37 h _ hx]
  simp [rawMaj37, e0, e1, e2, e3]

theorem Encoding.scstat (h : Hdr) (rd : BitVec 4) (ra : BitVec 4) (rb : BitVec 4) : Encoding.Statement (.scstat h rd ra rb) := by
  intro hw w he
  obtain rfl := Option.some.inj he
  obtain ⟨hx, e0, e1, e2, e3⟩ := layout_1 rd.toNat ra.toNat rb.toNat 1 1 rd.isLt ra.isLt rb.isLt rfl (by decide)
  refine decodeL_of ?_ hw
  rw [rawL_37 h _ hx]
  simp [rawMaj37, e0, e1, e2, e3]

theorem Encoding.prune (h : Hdr) (tkd : BitVec 3) (ra : BitVec 4) (rb : BitVec 4) : Encoding.Statement (.prune h tkd ra rb) := by
  intro hw w he
  obtain rfl := Option.some.inj he
  obtain ⟨hx, e0, e1, e2, e3, e4⟩ := layout_19 tkd.toNat ra.toNat rb.toNat 2 2 tkd.isLt ra.isLt rb.isLt rfl (by decide)
  refine decodeL_of ?_ hw
  rw [rawL_37 h _ hx]
  simp [rawMaj37, e0, e1, e2, e3, e4]

theorem Encoding.resumeW (h : Hdr) (rx : BitVec 4) (ra : BitVec 4) (rb : BitVec 4) : Encoding.Statement (.resumeW h rx ra rb) := by
  intro hw w he
  obtain rfl := Option.some.inj he
  obtain ⟨hx, e0, e1, e2, e3⟩ := layout_1 rx.toNat ra.toNat rb.toNat 3 3 rx.isLt ra.isLt rb.isLt rfl (by decide)
  refine decodeL_of ?_ hw
  rw [rawL_37 h _ hx]
  simp [rawMaj37, e0, e1, e2, e3]

theorem layout_49 (f0 f1 f2 f3 f4 : Nat) (_ : f0 < 8) (_ : f1 < 8) (_ : f2 < 8) (_ : f3 < 8) (_ : f4 < 16) :
    f0 * 262144 + f1 * 32768 + f2 * 4096 + f3 * 512 + f4 * 32 < 2097152 ∧ fld (f0 * 262144 + f1 * 32768 + f2 * 4096 + f3 * 512 + f4 * 32) 0 5 = 0 ∧ fld (f0 * 262144 + f1 * 32768 + f2 * 4096 + f3 * 512 + f4 * 32) 18 3 = f0 ∧ fld (f0 * 262144 + f1 * 32768 + f2 * 4096 + f3 * 512 + f4 * 32) 15 3 = f1 ∧ fld (f0 * 262144 + f1 * 32768 + f2 * 4096 + f3 * 512 + f4 * 32) 12 3 = f2 ∧ fld (f0 * 262144 + f1 * 32768 + f2 * 4096 + f3 * 512 + f4 * 32) 9 3 = f3 ∧ fld (f0 * 262144 + f1 * 32768 + f2 * 4096 + f3 * 512 + f4 * 32) 5 4 = f4 := by
  simp only [fld]
  omega

theorem Encoding.copy (h : Hdr) (tkd : BitVec 3) (tka : BitVec 3) (tkb : BitVec 3) (tkc : BitVec 3) (cb : BitVec 4) : Encoding.Statement (.copy h tkd tka tkb tkc cb) := by
  intro hw w he
  obtain rfl := Option.some.inj he
  obtain ⟨hx, e0, e1, e2, e3, e4, e5⟩ := layout_49 tkd.toNat tka.toNat tkb.toNat tkc.toNat cb.toNat tkd.isLt tka.isLt tkb.isLt tkc.isLt cb.isLt
  refine decodeL_of ?_ hw
  rw [rawL_38 h _ hx]
  simp [rawMaj38, e0, e1, e2, e3, e4, e5]

theorem layout_50 (f0 f1 f2 f3 f4 K k0 : Nat) (_ : f0 < 8) (_ : f1 < 8) (_ : f2 < 8) (_ : f3 < 8) (_ : f4 < 16) (_ : K = k0 * 1) (_ : k0 < 32) :
    f0 * 262144 + f1 * 32768 + f2 * 4096 + f3 * 512 + f4 * 32 + K < 2097152 ∧ fld (f0 * 262144 + f1 * 32768 + f2 * 4096 + f3 * 512 + f4 * 32 + K) 0 5 = k0 ∧ fld (f0 * 262144 + f1 * 32768 + f2 * 4096 + f3 * 512 + f4 * 32 + K) 18 3 = f0 ∧ fld (f0 * 262144 + f1 * 32768 + f2 * 4096 + f3 * 512 + f4 * 32 + K) 15 3 = f1 ∧ fld (f0 * 262144 + f1 * 32768 + f2 * 4096 + f3 * 512 + f4 * 32 + K) 12 3 = f2 ∧ fld (f0 * 262144 + f1 * 32768 + f2 * 4096 + f3 * 512 + f4 * 32 + K) 9 3 = f3 ∧ fld (f0 * 262144 + f1 * 32768 + f2 * 4096 + f3 * 512 + f4 * 32 + K) 5 4 = f4 := by
  simp only [fld]
  omega

theorem Encoding.copys (h : Hdr) (tkd : BitVec 3) (tka : BitVec 3) (tkb : BitVec 3) (tkc : BitVec 3) (cb : BitVec 4) : Encoding.Statement (.copys h tkd tka tkb tkc cb) := by
  intro hw w he
  obtain rfl := Option.some.inj he
  obtain ⟨hx, e0, e1, e2, e3, e4, e5⟩ := layout_50 tkd.toNat tka.toNat tkb.toNat tkc.toNat cb.toNat 1 1 tkd.isLt tka.isLt tkb.isLt tkc.isLt cb.isLt rfl (by decide)
  refine decodeL_of ?_ hw
  rw [rawL_38 h _ hx]
  simp [rawMaj38, e0, e1, e2, e3, e4, e5]

theorem Encoding.walk (h : Hdr) (tkd : BitVec 3) (tka : BitVec 3) (tkb : BitVec 3) (tkc : BitVec 3) (cb : BitVec 4) : Encoding.Statement (.walk h tkd tka tkb tkc cb) := by
  intro hw w he
  obtain rfl := Option.some.inj he
  obtain ⟨hx, e0, e1, e2, e3, e4, e5⟩ := layout_49 tkd.toNat tka.toNat tkb.toNat tkc.toNat cb.toNat tkd.isLt tka.isLt tkb.isLt tkc.isLt cb.isLt
  refine decodeL_of ?_ hw
  rw [rawL_39 h _ hx]
  simp [rawMaj39, e0, e1, e2, e3, e4, e5]

theorem layout_51 (f0 f1 K k0 : Nat) (_ : f0 < 16) (_ : f1 < 16) (_ : K = k0 * 1) (_ : k0 < 32) :
    f0 * 131072 + f1 * 8192 + K < 2097152 ∧ fld (f0 * 131072 + f1 * 8192 + K) 0 5 = k0 ∧ fld (f0 * 131072 + f1 * 8192 + K) 5 8 = 0 ∧ fld (f0 * 131072 + f1 * 8192 + K) 17 4 = f0 ∧ fld (f0 * 131072 + f1 * 8192 + K) 13 4 = f1 := by
  simp only [fld]
  omega

theorem Encoding.dedup (h : Hdr) (rd : BitVec 4) (ra : BitVec 4) : Encoding.Statement (.dedup h rd ra) := by
  intro hw w he
  obtain rfl := Option.some.inj he
  obtain ⟨hx, e0, e1, e2, e3⟩ := layout_51 rd.toNat ra.toNat 1 1 rd.isLt ra.isLt rfl (by decide)
  refine decodeL_of ?_ hw
  rw [rawL_39 h _ hx]
  simp [rawMaj39, e0, e1, e2, e3]

theorem Encoding.emit (h : Hdr) (rd : BitVec 4) (ra : BitVec 4) : Encoding.Statement (.emit h rd ra) := by
  intro hw w he
  obtain rfl := Option.some.inj he
  obtain ⟨hx, e0, e1, e2, e3⟩ := layout_51 rd.toNat ra.toNat 2 2 rd.isLt ra.isLt rfl (by decide)
  refine decodeL_of ?_ hw
  rw [rawL_39 h _ hx]
  simp [rawMaj39, e0, e1, e2, e3]

theorem layout_52 (f0 f1 K k0 : Nat) (_ : f0 < 16) (_ : f1 < 16) (_ : K = k0 * 1) (_ : k0 < 32) :
    f0 * 8192 + f1 * 512 + K < 2097152 ∧ fld (f0 * 8192 + f1 * 512 + K) 0 5 = k0 ∧ fld (f0 * 8192 + f1 * 512 + K) 5 4 = 0 ∧ fld (f0 * 8192 + f1 * 512 + K) 17 4 = 0 ∧ fld (f0 * 8192 + f1 * 512 + K) 13 4 = f0 ∧ fld (f0 * 8192 + f1 * 512 + K) 9 4 = f1 := by
  simp only [fld]
  omega

theorem Encoding.slot (h : Hdr) (ra : BitVec 4) (rb : BitVec 4) : Encoding.Statement (.slot h ra rb) := by
  intro hw w he
  obtain rfl := Option.some.inj he
  obtain ⟨hx, e0, e1, e2, e3, e4⟩ := layout_52 ra.toNat rb.toNat 3 3 ra.isLt rb.isLt rfl (by decide)
  refine decodeL_of ?_ hw
  rw [rawL_39 h _ hx]
  simp [rawMaj39, e0, e1, e2, e3, e4]

theorem Encoding.dispatch (h : Hdr) (tkd : BitVec 3) (tka : BitVec 3) (tkb : BitVec 3) (tkc : BitVec 3) (cb : BitVec 4) : Encoding.Statement (.dispatch h tkd tka tkb tkc cb) := by
  intro hw w he
  obtain rfl := Option.some.inj he
  obtain ⟨hx, e0, e1, e2, e3, e4, e5⟩ := layout_49 tkd.toNat tka.toNat tkb.toNat tkc.toNat cb.toNat tkd.isLt tka.isLt tkb.isLt tkc.isLt cb.isLt
  refine decodeL_of ?_ hw
  rw [rawL_3a h _ hx]
  simp [rawMaj3a, e0, e1, e2, e3, e4, e5]

theorem Encoding.combine (h : Hdr) (tkd : BitVec 3) (tka : BitVec 3) (tkb : BitVec 3) (tkc : BitVec 3) (cb : BitVec 4) : Encoding.Statement (.combine h tkd tka tkb tkc cb) := by
  intro hw w he
  obtain rfl := Option.some.inj he
  obtain ⟨hx, e0, e1, e2, e3, e4, e5⟩ := layout_50 tkd.toNat tka.toNat tkb.toNat tkc.toNat cb.toNat 1 1 tkd.isLt tka.isLt tkb.isLt tkc.isLt cb.isLt rfl (by decide)
  refine decodeL_of ?_ hw
  rw [rawL_3a h _ hx]
  simp [rawMaj3a, e0, e1, e2, e3, e4, e5]

theorem Encoding.djob (h : Hdr) (tkd : BitVec 3) (tka : BitVec 3) (tkb : BitVec 3) (tkc : BitVec 3) (cb : BitVec 4) : Encoding.Statement (.djob h tkd tka tkb tkc cb) := by
  intro hw w he
  obtain rfl := Option.some.inj he
  obtain ⟨hx, e0, e1, e2, e3, e4, e5⟩ := layout_49 tkd.toNat tka.toNat tkb.toNat tkc.toNat cb.toNat tkd.isLt tka.isLt tkb.isLt tkc.isLt cb.isLt
  refine decodeL_of ?_ hw
  rw [rawL_3b h _ hx]
  simp [rawMaj3b, e0, e1, e2, e3, e4, e5]

theorem layout_53 (f0 : Nat) (_ : f0 < 256) :
    f0 * 512 < 2097152 ∧ fld (f0 * 512) 0 9 = 0 ∧ fld (f0 * 512) 17 4 = 0 ∧ fld (f0 * 512) 9 8 = f0 := by
  simp only [fld]
  omega

theorem Encoding.trap (h : Hdr) (k : BitVec 8) : Encoding.Statement (.trap h k) := by
  intro hw w he
  obtain rfl := Option.some.inj he
  obtain ⟨hx, e0, e1, e2⟩ := layout_53 k.toNat k.isLt
  refine decodeL_of ?_ hw
  rw [rawL_3c h _ hx]
  simp [rawMaj3c, e0, e1, e2]

theorem Encoding.eret (h : Hdr) (ra : BitVec 4) : Encoding.Statement (.eret h ra) := by
  intro hw w he
  obtain rfl := Option.some.inj he
  obtain ⟨hx, e0, e1, e2⟩ := layout_10 ra.toNat 1 1 ra.isLt rfl (by decide)
  refine decodeL_of ?_ hw
  rw [rawL_3c h _ hx]
  simp [rawMaj3c, e0, e1, e2]

theorem layout_54 (f0 f1 K k0 : Nat) (_ : f0 < 16) (_ : f1 < 256) (_ : K = k0 * 1) (_ : k0 < 512) :
    f0 * 131072 + f1 * 512 + K < 2097152 ∧ fld (f0 * 131072 + f1 * 512 + K) 0 9 = k0 ∧ fld (f0 * 131072 + f1 * 512 + K) 17 4 = f0 ∧ fld (f0 * 131072 + f1 * 512 + K) 9 8 = f1 := by
  simp only [fld]
  omega

theorem Encoding.mfs (h : Hdr) (rd : BitVec 4) (k : BitVec 8) : Encoding.Statement (.mfs h rd k) := by
  intro hw w he
  obtain rfl := Option.some.inj he
  obtain ⟨hx, e0, e1, e2⟩ := layout_54 rd.toNat k.toNat 2 2 rd.isLt k.isLt rfl (by decide)
  refine decodeL_of ?_ hw
  rw [rawL_3c h _ hx]
  simp [rawMaj3c, e0, e1, e2]

theorem Encoding.mts (h : Hdr) (ra : BitVec 4) (k : BitVec 8) : Encoding.Statement (.mts h ra k) := by
  intro hw w he
  obtain rfl := Option.some.inj he
  obtain ⟨hx, e0, e1, e2⟩ := layout_54 ra.toNat k.toNat 3 3 ra.isLt k.isLt rfl (by decide)
  refine decodeL_of ?_ hw
  rw [rawL_3c h _ hx]
  simp [rawMaj3c, e0, e1, e2]

theorem layout_55 (f0 K k0 : Nat) (_ : f0 < 256) (_ : K = k0 * 1) (_ : k0 < 512) :
    f0 * 512 + K < 2097152 ∧ fld (f0 * 512 + K) 0 9 = k0 ∧ fld (f0 * 512 + K) 17 4 = 0 ∧ fld (f0 * 512 + K) 9 8 = f0 := by
  simp only [fld]
  omega

theorem Encoding.breakTrap (h : Hdr) (k : BitVec 8) : Encoding.Statement (.breakTrap h k) := by
  intro hw w he
  obtain rfl := Option.some.inj he
  obtain ⟨hx, e0, e1, e2⟩ := layout_55 k.toNat 4 4 k.isLt rfl (by decide)
  refine decodeL_of ?_ hw
  rw [rawL_3c h _ hx]
  simp [rawMaj3c, e0, e1, e2]

theorem Encoding.pause (h : Hdr) (k : BitVec 8) : Encoding.Statement (.pause h k) := by
  intro hw w he
  obtain rfl := Option.some.inj he
  obtain ⟨hx, e0, e1, e2⟩ := layout_55 k.toNat 5 5 k.isLt rfl (by decide)
  refine decodeL_of ?_ hw
  rw [rawL_3c h _ hx]
  simp [rawMaj3c, e0, e1, e2]

theorem Encoding.halt (h : Hdr) : Encoding.Statement (.halt h) := by
  intro hw w he
  obtain rfl := Option.some.inj he
  have e0 : fld 6 0 9 = 6 := rfl
  have e1 : fld 6 9 12 = 0 := rfl
  refine decodeL_of ?_ hw
  rw [rawL_3c h _ (by decide)]
  simp [rawMaj3c, e0, e1]

theorem Encoding.nop (h : Hdr) : Encoding.Statement (.nop h) := by
  intro hw w he
  obtain rfl := Option.some.inj he
  have e0 : fld 7 0 9 = 7 := rfl
  have e1 : fld 7 9 12 = 0 := rfl
  refine decodeL_of ?_ hw
  rw [rawL_3c h _ (by decide)]
  simp [rawMaj3c, e0, e1]

theorem Encoding.dsNopS : Encoding.Statement (.dsNopS) := by
  intro _ w he
  obtain rfl := Option.some.inj he
  have e0 : fld 0 27 5 = 0 := rfl
  have e1 : fld 0 0 27 = 0 := rfl
  simp [Instr.dslot, decodeD, rawS, e0, e1]

theorem Encoding.dsNopL : Encoding.Statement (.dsNopL) := by
  intro _ w he
  obtain rfl := Option.some.inj he
  have e0 : fld 0 27 5 = 0 := rfl
  have e1 : fld 0 0 27 = 0 := rfl
  simp [Instr.dslot, decodeD, rawL1, e0, e1]

theorem Encoding.dsNopM : Encoding.Statement (.dsNopM) := by
  intro _ w he
  obtain rfl := Option.some.inj he
  have e0 : fld 0 27 5 = 0 := rfl
  have e1 : fld 0 0 27 = 0 := rfl
  simp [Instr.dslot, decodeD, rawM, e0, e1]

theorem Encoding.dsNopV : Encoding.Statement (.dsNopV) := by
  intro _ w he
  obtain rfl := Option.some.inj he
  have e0 : fld 0 27 5 = 0 := rfl
  have e1 : fld 0 0 27 = 0 := rfl
  simp [Instr.dslot, decodeD, rawV, e0, e1]

theorem layout_56 (f0 f1 f2 K k0 : Nat) (_ : f0 < 32) (_ : f1 < 32) (_ : f2 < 32) (_ : K = k0 * 134217728) (_ : k0 < 32) :
    K + f0 * 4194304 + f1 * 131072 + f2 * 4096 < 4294967296 ∧ fld (K + f0 * 4194304 + f1 * 131072 + f2 * 4096) 27 5 = k0 ∧ fld (K + f0 * 4194304 + f1 * 131072 + f2 * 4096) 0 12 = 0 ∧ fld (K + f0 * 4194304 + f1 * 131072 + f2 * 4096) 22 5 = f0 ∧ fld (K + f0 * 4194304 + f1 * 131072 + f2 * 4096) 17 5 = f1 ∧ fld (K + f0 * 4194304 + f1 * 131072 + f2 * 4096) 12 5 = f2 := by
  simp only [fld]
  omega

theorem Encoding.dAdd (dd : BitVec 5) (da : BitVec 5) (db : BitVec 5) : Encoding.Statement (.dAdd dd da db) := by
  intro _ w he
  obtain rfl := Option.some.inj he
  obtain ⟨hx, e0, e1, e2, e3, e4⟩ := layout_56 dd.toNat da.toNat db.toNat 134217728 1 dd.isLt da.isLt db.isLt rfl (by decide)
  simp [Instr.dslot, decodeD, rawS, e0, e1, e2, e3, e4]

theorem Encoding.dSub (dd : BitVec 5) (da : BitVec 5) (db : BitVec 5) : Encoding.Statement (.dSub dd da db) := by
  intro _ w he
  obtain rfl := Option.some.inj he
  obtain ⟨hx, e0, e1, e2, e3, e4⟩ := layout_56 dd.toNat da.toNat db.toNat 268435456 2 dd.isLt da.isLt db.isLt rfl (by decide)
  simp [Instr.dslot, decodeD, rawS, e0, e1, e2, e3, e4]

theorem Encoding.dAnd (dd : BitVec 5) (da : BitVec 5) (db : BitVec 5) : Encoding.Statement (.dAnd dd da db) := by
  intro _ w he
  obtain rfl := Option.some.inj he
  obtain ⟨hx, e0, e1, e2, e3, e4⟩ := layout_56 dd.toNat da.toNat db.toNat 402653184 3 dd.isLt da.isLt db.isLt rfl (by decide)
  simp [Instr.dslot, decodeD, rawS, e0, e1, e2, e3, e4]

theorem Encoding.dOr (dd : BitVec 5) (da : BitVec 5) (db : BitVec 5) : Encoding.Statement (.dOr dd da db) := by
  intro _ w he
  obtain rfl := Option.some.inj he
  obtain ⟨hx, e0, e1, e2, e3, e4⟩ := layout_56 dd.toNat da.toNat db.toNat 536870912 4 dd.isLt da.isLt db.isLt rfl (by decide)
  simp [Instr.dslot, decodeD, rawS, e0, e1, e2, e3, e4]

theorem Encoding.dXor (dd : BitVec 5) (da : BitVec 5) (db : BitVec 5) : Encoding.Statement (.dXor dd da db) := by
  intro _ w he
  obtain rfl := Option.some.inj he
  obtain ⟨hx, e0, e1, e2, e3, e4⟩ := layout_56 dd.toNat da.toNat db.toNat 671088640 5 dd.isLt da.isLt db.isLt rfl (by decide)
  simp [Instr.dslot, decodeD, rawS, e0, e1, e2, e3, e4]

theorem Encoding.dSll (dd : BitVec 5) (da : BitVec 5) (db : BitVec 5) : Encoding.Statement (.dSll dd da db) := by
  intro _ w he
  obtain rfl := Option.some.inj he
  obtain ⟨hx, e0, e1, e2, e3, e4⟩ := layout_56 dd.toNat da.toNat db.toNat 805306368 6 dd.isLt da.isLt db.isLt rfl (by decide)
  simp [Instr.dslot, decodeD, rawS, e0, e1, e2, e3, e4]

theorem Encoding.dSrl (dd : BitVec 5) (da : BitVec 5) (db : BitVec 5) : Encoding.Statement (.dSrl dd da db) := by
  intro _ w he
  obtain rfl := Option.some.inj he
  obtain ⟨hx, e0, e1, e2, e3, e4⟩ := layout_56 dd.toNat da.toNat db.toNat 939524096 7 dd.isLt da.isLt db.isLt rfl (by decide)
  simp [Instr.dslot, decodeD, rawS, e0, e1, e2, e3, e4]

theorem Encoding.dMul (dd : BitVec 5) (da : BitVec 5) (db : BitVec 5) : Encoding.Statement (.dMul dd da db) := by
  intro _ w he
  obtain rfl := Option.some.inj he
  obtain ⟨hx, e0, e1, e2, e3, e4⟩ := layout_56 dd.toNat da.toNat db.toNat 1073741824 8 dd.isLt da.isLt db.isLt rfl (by decide)
  simp [Instr.dslot, decodeD, rawS, e0, e1, e2, e3, e4]

theorem layout_57 (f0 f1 f2 K k0 : Nat) (_ : f0 < 32) (_ : f1 < 32) (_ : f2 < 131072) (_ : K = k0 * 134217728) (_ : k0 < 32) :
    K + f0 * 4194304 + f1 * 131072 + f2 < 4294967296 ∧ fld (K + f0 * 4194304 + f1 * 131072 + f2) 27 5 = k0 ∧ fld (K + f0 * 4194304 + f1 * 131072 + f2) 22 5 = f0 ∧ fld (K + f0 * 4194304 + f1 * 131072 + f2) 17 5 = f1 ∧ fld (K + f0 * 4194304 + f1 * 131072 + f2) 0 17 = f2 := by
  simp only [fld]
  omega

theorem Encoding.dAddi (dd : BitVec 5) (da : BitVec 5) (imm : BitVec 17) : Encoding.Statement (.dAddi dd da imm) := by
  intro _ w he
  obtain rfl := Option.some.inj he
  obtain ⟨hx, e0, e1, e2, e3⟩ := layout_57 dd.toNat da.toNat imm.toNat 1207959552 9 dd.isLt da.isLt imm.isLt rfl (by decide)
  simp [Instr.dslot, decodeD, rawS, e0, e1, e2, e3]

theorem layout_58 (f0 f1 K k0 : Nat) (_ : f0 < 32) (_ : f1 < 4194304) (_ : K = k0 * 134217728) (_ : k0 < 32) :
    K + f0 * 4194304 + f1 < 4294967296 ∧ fld (K + f0 * 4194304 + f1) 27 5 = k0 ∧ fld (K + f0 * 4194304 + f1) 22 5 = f0 ∧ fld (K + f0 * 4194304 + f1) 0 22 = f1 := by
  simp only [fld]
  omega

theorem Encoding.dLui (dd : BitVec 5) (imm : BitVec 22) : Encoding.Statement (.dLui dd imm) := by
  intro _ w he
  obtain rfl := Option.some.inj he
  obtain ⟨hx, e0, e1, e2⟩ := layout_58 dd.toNat imm.toNat 1342177280 10 dd.isLt imm.isLt rfl (by decide)
  simp [Instr.dslot, decodeD, rawS, e0, e1, e2]

theorem Encoding.dBeq (da : BitVec 5) (db : BitVec 5) (off : BitVec 17) : Encoding.Statement (.dBeq da db off) := by
  intro _ w he
  obtain rfl := Option.some.inj he
  obtain ⟨hx, e0, e1, e2, e3⟩ := layout_57 da.toNat db.toNat off.toNat 1476395008 11 da.isLt db.isLt off.isLt rfl (by decide)
  simp [Instr.dslot, decodeD, rawS, e0, e1, e2, e3]

theorem Encoding.dBne (da : BitVec 5) (db : BitVec 5) (off : BitVec 17) : Encoding.Statement (.dBne da db off) := by
  intro _ w he
  obtain rfl := Option.some.inj he
  obtain ⟨hx, e0, e1, e2, e3⟩ := layout_57 da.toNat db.toNat off.toNat 1610612736 12 da.isLt db.isLt off.isLt rfl (by decide)
  simp [Instr.dslot, decodeD, rawS, e0, e1, e2, e3]

theorem Encoding.dBlt (da : BitVec 5) (db : BitVec 5) (off : BitVec 17) : Encoding.Statement (.dBlt da db off) := by
  intro _ w he
  obtain rfl := Option.some.inj he
  obtain ⟨hx, e0, e1, e2, e3⟩ := layout_57 da.toNat db.toNat off.toNat 1744830464 13 da.isLt db.isLt off.isLt rfl (by decide)
  simp [Instr.dslot, decodeD, rawS, e0, e1, e2, e3]

theorem layout_59 (f0 K k0 : Nat) (_ : f0 < 134217728) (_ : K = k0 * 134217728) (_ : k0 < 32) :
    K + f0 < 4294967296 ∧ fld (K + f0) 27 5 = k0 ∧ fld (K + f0) 0 27 = f0 := by
  simp only [fld]
  omega

theorem Encoding.dJmp (off : BitVec 27) : Encoding.Statement (.dJmp off) := by
  intro _ w he
  obtain rfl := Option.some.inj he
  obtain ⟨hx, e0, e1⟩ := layout_59 off.toNat 1879048192 14 off.isLt rfl (by decide)
  simp [Instr.dslot, decodeD, rawS, e0, e1]

theorem layout_60 (f0 K k0 : Nat) (_ : f0 < 32) (_ : K = k0 * 134217728) (_ : k0 < 32) :
    K + f0 * 4194304 < 4294967296 ∧ fld (K + f0 * 4194304) 27 5 = k0 ∧ fld (K + f0 * 4194304) 0 22 = 0 ∧ fld (K + f0 * 4194304) 22 5 = f0 := by
  simp only [fld]
  omega

theorem Encoding.jget (dd : BitVec 5) : Encoding.Statement (.jget dd) := by
  intro _ w he
  obtain rfl := Option.some.inj he
  obtain ⟨hx, e0, e1, e2⟩ := layout_60 dd.toNat 2013265920 15 dd.isLt rfl (by decide)
  simp [Instr.dslot, decodeD, rawS, e0, e1, e2]

theorem Encoding.jdone (da : BitVec 5) : Encoding.Statement (.jdone da) := by
  intro _ w he
  obtain rfl := Option.some.inj he
  obtain ⟨hx, e0, e1, e2⟩ := layout_60 da.toNat 2147483648 16 da.isLt rfl (by decide)
  simp [Instr.dslot, decodeD, rawS, e0, e1, e2]

theorem layout_61 (f0 f1 f2 K k0 : Nat) (_ : f0 < 16) (_ : f1 < 4) (_ : f2 < 32) (_ : K = k0 * 134217728) (_ : k0 < 32) :
    K + f0 * 8388608 + f1 * 2097152 + f2 * 65536 < 4294967296 ∧ fld (K + f0 * 8388608 + f1 * 2097152 + f2 * 65536) 27 5 = k0 ∧ fld (K + f0 * 8388608 + f1 * 2097152 + f2 * 65536) 0 16 = 0 ∧ fld (K + f0 * 8388608 + f1 * 2097152 + f2 * 65536) 23 4 = f0 ∧ fld (K + f0 * 8388608 + f1 * 2097152 + f2 * 65536) 21 2 = f1 ∧ fld (K + f0 * 8388608 + f1 * 2097152 + f2 * 65536) 16 5 = f2 := by
  simp only [fld]
  omega

theorem Encoding.agset (an : BitVec 4) (sel : AgSel) (da : BitVec 5) : Encoding.Statement (.agset an sel da) := by
  intro _ w he
  obtain rfl := Option.some.inj he
  obtain ⟨hx, e0, e1, e2, e3, e4⟩ := layout_61 an.toNat sel.code da.toNat 2281701376 17 an.isLt (Nat.lt_of_lt_of_le (agsel_lt sel) (by decide)) da.isLt rfl (by decide)
  simp [Instr.dslot, decodeD, rawS, e0, e1, e2, e3, e4]

theorem Encoding.dret : Encoding.Statement (.dret) := by
  intro _ w he
  obtain rfl := Option.some.inj he
  have e0 : fld 2415919104 27 5 = 18 := rfl
  have e1 : fld 2415919104 0 27 = 0 := rfl
  simp [Instr.dslot, decodeD, rawS, e0, e1]

theorem layout_62 (f0 f1 K k0 : Nat) (_ : f0 < 32) (_ : f1 < 32) (_ : K = k0 * 134217728) (_ : k0 < 32) :
    K + f0 * 4194304 + f1 * 131072 < 4294967296 ∧ fld (K + f0 * 4194304 + f1 * 131072) 27 5 = k0 ∧ fld (K + f0 * 4194304 + f1 * 131072) 0 17 = 0 ∧ fld (K + f0 * 4194304 + f1 * 131072) 22 5 = f0 ∧ fld (K + f0 * 4194304 + f1 * 131072) 17 5 = f1 := by
  simp only [fld]
  omega

theorem Encoding.dmfs (dd : BitVec 5) (sel : DReg) : Encoding.Statement (.dmfs dd sel) := by
  intro _ w he
  obtain rfl := Option.some.inj he
  obtain ⟨hx, e0, e1, e2, e3⟩ := layout_62 dd.toNat sel.code 2550136832 19 dd.isLt (Nat.lt_of_lt_of_le (dreg_lt sel) (by decide)) rfl (by decide)
  simp [Instr.dslot, decodeD, rawS, e0, e1, e2, e3]

theorem layout_63 (f0 f1 K k0 : Nat) (_ : f0 < 16) (_ : f1 < 16) (_ : K = k0 * 134217728) (_ : k0 < 32) :
    K + f0 * 8388608 + f1 * 524288 < 4294967296 ∧ fld (K + f0 * 8388608 + f1 * 524288) 27 5 = k0 ∧ fld (K + f0 * 8388608 + f1 * 524288) 0 19 = 0 ∧ fld (K + f0 * 8388608 + f1 * 524288) 23 4 = f0 ∧ fld (K + f0 * 8388608 + f1 * 524288) 19 4 = f1 := by
  simp only [fld]
  omega

theorem Encoding.xin (an : BitVec 4) (am : BitVec 4) : Encoding.Statement (.xin an am) := by
  intro _ w he
  obtain rfl := Option.some.inj he
  obtain ⟨hx, e0, e1, e2, e3⟩ := layout_63 an.toNat am.toNat 134217728 1 an.isLt am.isLt rfl (by decide)
  simp [Instr.dslot, decodeD, rawL1, e0, e1, e2, e3]

theorem Encoding.xout (an : BitVec 4) (am : BitVec 4) : Encoding.Statement (.xout an am) := by
  intro _ w he
  obtain rfl := Option.some.inj he
  obtain ⟨hx, e0, e1, e2, e3⟩ := layout_63 an.toNat am.toNat 268435456 2 an.isLt am.isLt rfl (by decide)
  simp [Instr.dslot, decodeD, rawL1, e0, e1, e2, e3]

theorem layout_64 (f0 f1 K k0 : Nat) (_ : f0 < 32) (_ : f1 < 16) (_ : K = k0 * 134217728) (_ : k0 < 32) :
    K + f0 * 4194304 + f1 * 262144 < 4294967296 ∧ fld (K + f0 * 4194304 + f1 * 262144) 27 5 = k0 ∧ fld (K + f0 * 4194304 + f1 * 262144) 0 18 = 0 ∧ fld (K + f0 * 4194304 + f1 * 262144) 22 5 = f0 ∧ fld (K + f0 * 4194304 + f1 * 262144) 18 4 = f1 := by
  simp only [fld]
  omega

theorem Encoding.ldd (dd : BitVec 5) (an : BitVec 4) : Encoding.Statement (.ldd dd an) := by
  intro _ w he
  obtain rfl := Option.some.inj he
  obtain ⟨hx, e0, e1, e2, e3⟩ := layout_64 dd.toNat an.toNat 402653184 3 dd.isLt an.isLt rfl (by decide)
  simp [Instr.dslot, decodeD, rawL1, e0, e1, e2, e3]

theorem Encoding.std (dd : BitVec 5) (an : BitVec 4) : Encoding.Statement (.std dd an) := by
  intro _ w he
  obtain rfl := Option.some.inj he
  obtain ⟨hx, e0, e1, e2, e3⟩ := layout_64 dd.toNat an.toNat 536870912 4 dd.isLt an.isLt rfl (by decide)
  simp [Instr.dslot, decodeD, rawL1, e0, e1, e2, e3]

theorem Encoding.dbcpy (an : BitVec 4) (am : BitVec 4) : Encoding.Statement (.dbcpy an am) := by
  intro _ w he
  obtain rfl := Option.some.inj he
  obtain ⟨hx, e0, e1, e2, e3⟩ := layout_63 an.toNat am.toNat 671088640 5 an.isLt am.isLt rfl (by decide)
  simp [Instr.dslot, decodeD, rawL1, e0, e1, e2, e3]

theorem layout_65 (f0 K k0 : Nat) (_ : f0 < 16) (_ : K = k0 * 134217728) (_ : k0 < 32) :
    K + f0 * 8388608 < 4294967296 ∧ fld (K + f0 * 8388608) 27 5 = k0 ∧ fld (K + f0 * 8388608) 0 23 = 0 ∧ fld (K + f0 * 8388608) 23 4 = f0 := by
  simp only [fld]
  omega

theorem Encoding.mlw (an : BitVec 4) : Encoding.Statement (.mlw an) := by
  intro _ w he
  obtain rfl := Option.some.inj he
  obtain ⟨hx, e0, e1, e2⟩ := layout_65 an.toNat 134217728 1 an.isLt rfl (by decide)
  simp [Instr.dslot, decodeD, rawM, e0, e1, e2]

theorem Encoding.mlwt (an : BitVec 4) : Encoding.Statement (.mlwt an) := by
  intro _ w he
  obtain rfl := Option.some.inj he
  obtain ⟨hx, e0, e1, e2⟩ := layout_65 an.toNat 268435456 2 an.isLt rfl (by decide)
  simp [Instr.dslot, decodeD, rawM, e0, e1, e2]

theorem Encoding.mswap : Encoding.Statement (.mswap) := by
  intro _ w he
  obtain rfl := Option.some.inj he
  have e0 : fld 402653184 27 5 = 3 := rfl
  have e1 : fld 402653184 0 27 = 0 := rfl
  simp [Instr.dslot, decodeD, rawM, e0, e1]

theorem layout_66 (f0 f1 f2 K k0 : Nat) (_ : f0 < 8) (_ : f1 < 16) (_ : f2 < 2) (_ : K = k0 * 134217728) (_ : k0 < 32) :
    K + f0 * 16777216 + f1 * 1048576 + f2 * 524288 < 4294967296 ∧ fld (K + f0 * 16777216 + f1 * 1048576 + f2 * 524288) 27 5 = k0 ∧ fld (K + f0 * 16777216 + f1 * 1048576 + f2 * 524288) 0 19 = 0 ∧ fld (K + f0 * 16777216 + f1 * 1048576 + f2 * 524288) 24 3 = f0 ∧ fld (K + f0 * 16777216 + f1 * 1048576 + f2 * 524288) 20 4 = f1 ∧ fld (K + f0 * 16777216 + f1 * 1048576 + f2 * 524288) 19 1 = f2 := by
  simp only [fld]
  omega

theorem Encoding.mst (bank : BitVec 3) (an : BitVec 4) (acc : Bool) : Encoding.Statement (.mst bank an acc) := by
  intro _ w he
  obtain rfl := Option.some.inj he
  obtain ⟨hx, e0, e1, e2, e3, e4⟩ := layout_66 bank.toNat an.toNat acc.toNat 536870912 4 bank.isLt an.isLt (bool_lt acc) rfl (by decide)
  simp [Instr.dslot, decodeD, rawM, e0, e1, e2, e3, e4]

theorem layout_67 (f0 f1 f2 f3 K k0 : Nat) (_ : f0 < 8) (_ : f1 < 16) (_ : f2 < 2) (_ : f3 < 16) (_ : K = k0 * 134217728) (_ : k0 < 32) :
    K + f0 * 16777216 + f1 * 1048576 + f2 * 524288 + f3 * 32768 < 4294967296 ∧ fld (K + f0 * 16777216 + f1 * 1048576 + f2 * 524288 + f3 * 32768) 27 5 = k0 ∧ fld (K + f0 * 16777216 + f1 * 1048576 + f2 * 524288 + f3 * 32768) 0 15 = 0 ∧ fld (K + f0 * 16777216 + f1 * 1048576 + f2 * 524288 + f3 * 32768) 24 3 = f0 ∧ fld (K + f0 * 16777216 + f1 * 1048576 + f2 * 524288 + f3 * 32768) 20 4 = f1 ∧ fld (K + f0 * 16777216 + f1 * 1048576 + f2 * 524288 + f3 * 32768) 19 1 = f2 ∧ fld (K + f0 * 16777216 + f1 * 1048576 + f2 * 524288 + f3 * 32768) 15 4 = f3 := by
  simp only [fld]
  omega

theorem Encoding.mstz (bank : BitVec 3) (an : BitVec 4) (acc : Bool) (az : BitVec 4) : Encoding.Statement (.mstz bank an acc az) := by
  intro _ w he
  obtain rfl := Option.some.inj he
  obtain ⟨hx, e0, e1, e2, e3, e4, e5⟩ := layout_67 bank.toNat an.toNat acc.toNat az.toNat 671088640 5 bank.isLt an.isLt (bool_lt acc) az.isLt rfl (by decide)
  simp [Instr.dslot, decodeD, rawM, e0, e1, e2, e3, e4, e5]

theorem layout_68 (f0 f1 f2 K k0 : Nat) (_ : f0 < 8) (_ : f1 < 16) (_ : f2 < 16) (_ : K = k0 * 134217728) (_ : k0 < 32) :
    K + f0 * 16777216 + f1 * 1048576 + f2 * 65536 < 4294967296 ∧ fld (K + f0 * 16777216 + f1 * 1048576 + f2 * 65536) 27 5 = k0 ∧ fld (K + f0 * 16777216 + f1 * 1048576 + f2 * 65536) 0 16 = 0 ∧ fld (K + f0 * 16777216 + f1 * 1048576 + f2 * 65536) 24 3 = f0 ∧ fld (K + f0 * 16777216 + f1 * 1048576 + f2 * 65536) 20 4 = f1 ∧ fld (K + f0 * 16777216 + f1 * 1048576 + f2 * 65536) 16 4 = f2 := by
  simp only [fld]
  omega

theorem Encoding.mdrain (bank : BitVec 3) (an : BitVec 4) (fmt : BitVec 4) : Encoding.Statement (.mdrain bank an fmt) := by
  intro _ w he
  obtain rfl := Option.some.inj he
  obtain ⟨hx, e0, e1, e2, e3, e4⟩ := layout_68 bank.toNat an.toNat fmt.toNat 805306368 6 bank.isLt an.isLt fmt.isLt rfl (by decide)
  simp [Instr.dslot, decodeD, rawM, e0, e1, e2, e3, e4]

theorem layout_69 (f0 K k0 : Nat) (_ : f0 < 256) (_ : K = k0 * 134217728) (_ : k0 < 32) :
    K + f0 * 524288 < 4294967296 ∧ fld (K + f0 * 524288) 27 5 = k0 ∧ fld (K + f0 * 524288) 0 19 = 0 ∧ fld (K + f0 * 524288) 19 8 = f0 := by
  simp only [fld]
  omega

theorem Encoding.mzero (mask : BitVec 8) : Encoding.Statement (.mzero mask) := by
  intro _ w he
  obtain rfl := Option.some.inj he
  obtain ⟨hx, e0, e1, e2⟩ := layout_69 mask.toNat 939524096 7 mask.isLt rfl (by decide)
  simp [Instr.dslot, decodeD, rawM, e0, e1, e2]

theorem Encoding.mpark : Encoding.Statement (.mpark) := by
  intro _ w he
  obtain rfl := Option.some.inj he
  have e0 : fld 1073741824 27 5 = 8 := rfl
  have e1 : fld 1073741824 0 27 = 0 := rfl
  simp [Instr.dslot, decodeD, rawM, e0, e1]

theorem Encoding.munpark : Encoding.Statement (.munpark) := by
  intro _ w he
  obtain rfl := Option.some.inj he
  have e0 : fld 1207959552 27 5 = 9 := rfl
  have e1 : fld 1207959552 0 27 = 0 := rfl
  simp [Instr.dslot, decodeD, rawM, e0, e1]

theorem layout_70 (f0 f1 K k0 : Nat) (_ : f0 < 8) (_ : f1 < 16) (_ : K = k0 * 134217728) (_ : k0 < 32) :
    K + f0 * 16777216 + f1 * 1048576 < 4294967296 ∧ fld (K + f0 * 16777216 + f1 * 1048576) 27 5 = k0 ∧ fld (K + f0 * 16777216 + f1 * 1048576) 0 20 = 0 ∧ fld (K + f0 * 16777216 + f1 * 1048576) 24 3 = f0 ∧ fld (K + f0 * 16777216 + f1 * 1048576) 20 4 = f1 := by
  simp only [fld]
  omega

theorem Encoding.vbias (bank : BitVec 3) (an : BitVec 4) : Encoding.Statement (.vbias bank an) := by
  intro _ w he
  obtain rfl := Option.some.inj he
  obtain ⟨hx, e0, e1, e2, e3⟩ := layout_70 bank.toNat an.toNat 134217728 1 bank.isLt an.isLt rfl (by decide)
  simp [Instr.dslot, decodeD, rawV, e0, e1, e2, e3]

theorem layout_71 (f0 f1 K k0 : Nat) (_ : f0 < 8) (_ : f1 < 32) (_ : K = k0 * 134217728) (_ : k0 < 32) :
    K + f0 * 16777216 + f1 * 524288 < 4294967296 ∧ fld (K + f0 * 16777216 + f1 * 524288) 27 5 = k0 ∧ fld (K + f0 * 16777216 + f1 * 524288) 0 19 = 0 ∧ fld (K + f0 * 16777216 + f1 * 524288) 24 3 = f0 ∧ fld (K + f0 * 16777216 + f1 * 524288) 19 5 = f1 := by
  simp only [fld]
  omega

theorem Encoding.vscale (bank : BitVec 3) (da : BitVec 5) : Encoding.Statement (.vscale bank da) := by
  intro _ w he
  obtain rfl := Option.some.inj he
  obtain ⟨hx, e0, e1, e2, e3⟩ := layout_71 bank.toNat da.toNat 268435456 2 bank.isLt da.isLt rfl (by decide)
  simp [Instr.dslot, decodeD, rawV, e0, e1, e2, e3]

theorem layout_72 (f0 K k0 : Nat) (_ : f0 < 8) (_ : K = k0 * 134217728) (_ : k0 < 32) :
    K + f0 * 16777216 < 4294967296 ∧ fld (K + f0 * 16777216) 27 5 = k0 ∧ fld (K + f0 * 16777216) 0 24 = 0 ∧ fld (K + f0 * 16777216) 24 3 = f0 := by
  simp only [fld]
  omega

theorem Encoding.vrelu (bank : BitVec 3) : Encoding.Statement (.vrelu bank) := by
  intro _ w he
  obtain rfl := Option.some.inj he
  obtain ⟨hx, e0, e1, e2⟩ := layout_72 bank.toNat 402653184 3 bank.isLt rfl (by decide)
  simp [Instr.dslot, decodeD, rawV, e0, e1, e2]

theorem layout_73 (f0 f1 f2 K k0 : Nat) (_ : f0 < 8) (_ : f1 < 32) (_ : f2 < 32) (_ : K = k0 * 134217728) (_ : k0 < 32) :
    K + f0 * 16777216 + f1 * 524288 + f2 * 16384 < 4294967296 ∧ fld (K + f0 * 16777216 + f1 * 524288 + f2 * 16384) 27 5 = k0 ∧ fld (K + f0 * 16777216 + f1 * 524288 + f2 * 16384) 0 14 = 0 ∧ fld (K + f0 * 16777216 + f1 * 524288 + f2 * 16384) 24 3 = f0 ∧ fld (K + f0 * 16777216 + f1 * 524288 + f2 * 16384) 19 5 = f1 ∧ fld (K + f0 * 16777216 + f1 * 524288 + f2 * 16384) 14 5 = f2 := by
  simp only [fld]
  omega

theorem Encoding.vclamp (bank : BitVec 3) (da : BitVec 5) (db : BitVec 5) : Encoding.Statement (.vclamp bank da db) := by
  intro _ w he
  obtain rfl := Option.some.inj he
  obtain ⟨hx, e0, e1, e2, e3, e4⟩ := layout_73 bank.toNat da.toNat db.toNat 536870912 4 bank.isLt da.isLt db.isLt rfl (by decide)
  simp [Instr.dslot, decodeD, rawV, e0, e1, e2, e3, e4]

theorem Encoding.vgelu (bank : BitVec 3) : Encoding.Statement (.vgelu bank) := by
  intro _ w he
  obtain rfl := Option.some.inj he
  obtain ⟨hx, e0, e1, e2⟩ := layout_72 bank.toNat 671088640 5 bank.isLt rfl (by decide)
  simp [Instr.dslot, decodeD, rawV, e0, e1, e2]

theorem Encoding.latchComplete : Encoding.Statement .latchComplete := by intro _ w he; cases he

theorem Encoding.memoryReply : Encoding.Statement .memoryReply := by intro _ w he; cases he

theorem Encoding.l1FillReply : Encoding.Statement .l1FillReply := by intro _ w he; cases he

theorem Encoding.tilePageFill : Encoding.Statement .tilePageFill := by intro _ w he; cases he

theorem Encoding.fenceComplete : Encoding.Statement .fenceComplete := by intro _ w he; cases he

theorem Encoding.reclaimComplete : Encoding.Statement .reclaimComplete := by intro _ w he; cases he

theorem Encoding.closeComplete : Encoding.Statement .closeComplete := by intro _ w he; cases he

theorem Encoding.scopeUnitReply : Encoding.Statement .scopeUnitReply := by intro _ w he; cases he

theorem Encoding.pauseExpiry : Encoding.Statement .pauseExpiry := by intro _ w he; cases he

theorem Encoding.killTaken : Encoding.Statement .killTaken := by intro _ w he; cases he

theorem Encoding.contextSwitchOut : Encoding.Statement .contextSwitchOut := by intro _ w he; cases he

theorem Encoding.messageArrival : Encoding.Statement .messageArrival := by intro _ w he; cases he

theorem Encoding.handlerStart : Encoding.Statement .handlerStart := by intro _ w he; cases he

theorem Encoding.nackRetry : Encoding.Statement .nackRetry := by intro _ w he; cases he

theorem Encoding.nackFlitArrival : Encoding.Statement .nackFlitArrival := by intro _ w he; cases he

theorem Encoding.ackFlitArrival : Encoding.Statement .ackFlitArrival := by intro _ w he; cases he

theorem Encoding.skipFlitArrival : Encoding.Statement .skipFlitArrival := by intro _ w he; cases he

theorem Encoding.flitArrival : Encoding.Statement .flitArrival := by intro _ w he; cases he

theorem Encoding.starveSignal : Encoding.Statement .starveSignal := by intro _ w he; cases he

theorem Encoding.goldenEpoch : Encoding.Statement .goldenEpoch := by intro _ w he; cases he

theorem Encoding.torusLinkFail : Encoding.Statement .torusLinkFail := by intro _ w he; cases he

theorem Encoding.sidebandResend : Encoding.Statement .sidebandResend := by intro _ w he; cases he

theorem Encoding.migrateComplete : Encoding.Statement .migrateComplete := by intro _ w he; cases he

theorem Encoding.builtinLoad : Encoding.Statement .builtinLoad := by intro _ w he; cases he

theorem Encoding.builtinLoadNc : Encoding.Statement .builtinLoadNc := by intro _ w he; cases he

theorem Encoding.builtinStore : Encoding.Statement .builtinStore := by intro _ w he; cases he

theorem Encoding.builtinLoad32 : Encoding.Statement .builtinLoad32 := by intro _ w he; cases he

theorem Encoding.builtinStore32 : Encoding.Statement .builtinStore32 := by intro _ w he; cases he

theorem Encoding.builtinLdv : Encoding.Statement .builtinLdv := by intro _ w he; cases he

theorem Encoding.builtinStv : Encoding.Statement .builtinStv := by intro _ w he; cases he

theorem Encoding.builtinAtomAdd : Encoding.Statement .builtinAtomAdd := by intro _ w he; cases he

theorem Encoding.builtinAtomAnd : Encoding.Statement .builtinAtomAnd := by intro _ w he; cases he

theorem Encoding.builtinAtomOr : Encoding.Statement .builtinAtomOr := by intro _ w he; cases he

theorem Encoding.builtinAtomXor : Encoding.Statement .builtinAtomXor := by intro _ w he; cases he

theorem Encoding.builtinAtomSmin : Encoding.Statement .builtinAtomSmin := by intro _ w he; cases he

theorem Encoding.builtinAtomSmax : Encoding.Statement .builtinAtomSmax := by intro _ w he; cases he

theorem Encoding.builtinAtomSwap : Encoding.Statement .builtinAtomSwap := by intro _ w he; cases he

theorem Encoding.builtinAtomCas : Encoding.Statement .builtinAtomCas := by intro _ w he; cases he

theorem Encoding.builtinAtomFaddF32 : Encoding.Statement .builtinAtomFaddF32 := by intro _ w he; cases he

theorem Encoding.builtinAtomFaddF64 : Encoding.Statement .builtinAtomFaddF64 := by intro _ w he; cases he

theorem Encoding.builtinBadop : Encoding.Statement .builtinBadop := by intro _ w he; cases he

theorem Encoding.rowRequest : Encoding.Statement .rowRequest := by intro _ w he; cases he

theorem Encoding.rowAccumulatePart : Encoding.Statement .rowAccumulatePart := by intro _ w he; cases he

theorem Encoding.closeNotice : Encoding.Statement .closeNotice := by intro _ w he; cases he

theorem Encoding.flushDemand : Encoding.Statement .flushDemand := by intro _ w he; cases he

theorem Encoding.rowLanding : Encoding.Statement .rowLanding := by intro _ w he; cases he

theorem Encoding.childArrival : Encoding.Statement .childArrival := by intro _ w he; cases he

theorem Encoding.barrierRelease : Encoding.Statement .barrierRelease := by intro _ w he; cases he

theorem Encoding.brokenNotice : Encoding.Statement .brokenNotice := by intro _ w he; cases he

theorem Encoding.resumeBuiltin : Encoding.Statement .resumeBuiltin := by intro _ w he; cases he

theorem Encoding.switchOut : Encoding.Statement .switchOut := by intro _ w he; cases he

theorem Encoding.switchIn : Encoding.Statement .switchIn := by intro _ w he; cases he

theorem Encoding.attention : Encoding.Statement .attention := by intro _ w he; cases he

theorem Encoding.launchFanout : Encoding.Statement .launchFanout := by intro _ w he; cases he

theorem Encoding.waveRequest : Encoding.Statement .waveRequest := by intro _ w he; cases he

theorem Encoding.waveReport : Encoding.Statement .waveReport := by intro _ w he; cases he

theorem Encoding.launchRelease : Encoding.Statement .launchRelease := by intro _ w he; cases he

theorem Encoding.killNotice : Encoding.Statement .killNotice := by intro _ w he; cases he

theorem Encoding.pruneAcknowledgement : Encoding.Statement .pruneAcknowledgement := by intro _ w he; cases he

theorem Encoding.pruneLinkwaitExpiry : Encoding.Statement .pruneLinkwaitExpiry := by intro _ w he; cases he

theorem Encoding.resetReport : Encoding.Statement .resetReport := by intro _ w he; cases he

theorem Encoding.tileSpaceRequest : Encoding.Statement .tileSpaceRequest := by intro _ w he; cases he

theorem Encoding.tileSpaceGrant : Encoding.Statement .tileSpaceGrant := by intro _ w he; cases he

theorem Encoding.scopeRequest : Encoding.Statement .scopeRequest := by intro _ w he; cases he

theorem Encoding.scopeBinding : Encoding.Statement .scopeBinding := by intro _ w he; cases he

theorem Encoding.translationRequest : Encoding.Statement .translationRequest := by intro _ w he; cases he

theorem Encoding.pageWalkComplete : Encoding.Statement .pageWalkComplete := by intro _ w he; cases he

theorem Encoding.homeAccess : Encoding.Statement .homeAccess := by intro _ w he; cases he

theorem Encoding.reclaimFloorNotice : Encoding.Statement .reclaimFloorNotice := by intro _ w he; cases he

theorem Encoding.remoteTileAccess : Encoding.Statement .remoteTileAccess := by intro _ w he; cases he

theorem Encoding.poisonError : Encoding.Statement .poisonError := by intro _ w he; cases he

theorem Encoding.copyCommandAccept : Encoding.Statement .copyCommandAccept := by intro _ w he; cases he

theorem Encoding.copyStart : Encoding.Statement .copyStart := by intro _ w he; cases he

theorem Encoding.copyPart : Encoding.Statement .copyPart := by intro _ w he; cases he

theorem Encoding.copyPartDone : Encoding.Statement .copyPartDone := by intro _ w he; cases he

theorem Encoding.continuationProbe : Encoding.Statement .continuationProbe := by intro _ w he; cases he

theorem Encoding.tokenNotice : Encoding.Statement .tokenNotice := by intro _ w he; cases he

theorem Encoding.walkCommandAccept : Encoding.Statement .walkCommandAccept := by intro _ w he; cases he

theorem Encoding.walkStart : Encoding.Statement .walkStart := by intro _ w he; cases he

theorem Encoding.iwLineRun : Encoding.Statement .iwLineRun := by intro _ w he; cases he

theorem Encoding.tdeCommandAccept : Encoding.Statement .tdeCommandAccept := by intro _ w he; cases he

theorem Encoding.dispatchStart : Encoding.Statement .dispatchStart := by intro _ w he; cases he

theorem Encoding.exchangeCounts : Encoding.Statement .exchangeCounts := by intro _ w he; cases he

theorem Encoding.tdeAbort : Encoding.Statement .tdeAbort := by intro _ w he; cases he

theorem Encoding.dispatchEnd : Encoding.Statement .dispatchEnd := by intro _ w he; cases he

theorem Encoding.combineStart : Encoding.Statement .combineStart := by intro _ w he; cases he

theorem Encoding.combineEnd : Encoding.Statement .combineEnd := by intro _ w he; cases he

theorem Encoding.djobAccept : Encoding.Statement .djobAccept := by intro _ w he; cases he

theorem Encoding.jobGrant : Encoding.Statement .jobGrant := by intro _ w he; cases he

theorem Encoding.dsResultWrite : Encoding.Statement .dsResultWrite := by intro _ w he; cases he

theorem Encoding.dsTransferDone : Encoding.Statement .dsTransferDone := by intro _ w he; cases he

theorem Encoding.dsTransferFault : Encoding.Statement .dsTransferFault := by intro _ w he; cases he

theorem Encoding.dsReset : Encoding.Statement .dsReset := by intro _ w he; cases he

theorem Encoding.launchSubmission : Encoding.Statement .launchSubmission := by intro _ w he; cases he

theorem Encoding.distributorSelect : Encoding.Statement .distributorSelect := by intro _ w he; cases he

theorem Encoding.launchLoadDone : Encoding.Statement .launchLoadDone := by intro _ w he; cases he

theorem Encoding.waveStart : Encoding.Statement .waveStart := by intro _ w he; cases he

theorem Encoding.launchEnd : Encoding.Statement .launchEnd := by intro _ w he; cases he

theorem Encoding.custodyRecordSigned : Encoding.Statement .custodyRecordSigned := by intro _ w he; cases he

theorem Encoding.budgetPeriod : Encoding.Statement .budgetPeriod := by intro _ w he; cases he

theorem Encoding.lcReset : Encoding.Statement .lcReset := by intro _ w he; cases he

theorem Encoding.lcResetEnd : Encoding.Statement .lcResetEnd := by intro _ w he; cases he

theorem Encoding.powerGate : Encoding.Statement .powerGate := by intro _ w he; cases he

theorem Encoding.migrateRedirectNotice : Encoding.Statement .migrateRedirectNotice := by intro _ w he; cases he

theorem Encoding.migrateMarkerReply : Encoding.Statement .migrateMarkerReply := by intro _ w he; cases he

theorem Encoding.migrateEndOfForwarding : Encoding.Statement .migrateEndOfForwarding := by intro _ w he; cases he

theorem Encoding.redirectRelease : Encoding.Statement .redirectRelease := by intro _ w he; cases he

theorem Encoding.rekeyGranule : Encoding.Statement .rekeyGranule := by intro _ w he; cases he

theorem Encoding.linkFlitReceive : Encoding.Statement .linkFlitReceive := by intro _ w he; cases he

theorem Encoding.replayRequest : Encoding.Statement .replayRequest := by intro _ w he; cases he

theorem Encoding.portRetrain : Encoding.Statement .portRetrain := by intro _ w he; cases he

theorem Encoding.portRemap : Encoding.Statement .portRemap := by intro _ w he; cases he

theorem Encoding.portDown : Encoding.Statement .portDown := by intro _ w he; cases he

theorem Encoding.trainingComplete : Encoding.Statement .trainingComplete := by intro _ w he; cases he

theorem Encoding.session : Encoding.Statement .session := by intro _ w he; cases he

theorem Encoding.bramblePacket : Encoding.Statement .bramblePacket := by intro _ w he; cases he

theorem Encoding.tack : Encoding.Statement .tack := by intro _ w he; cases he

theorem Encoding.tnack : Encoding.Statement .tnack := by intro _ w he; cases he

theorem Encoding.tackTimer : Encoding.Statement .tackTimer := by intro _ w he; cases he

theorem Encoding.transportResend : Encoding.Statement .transportResend := by intro _ w he; cases he

theorem Encoding.packetAbandon : Encoding.Statement .packetAbandon := by intro _ w he; cases he

theorem Encoding.keepalive : Encoding.Statement .keepalive := by intro _ w he; cases he

theorem Encoding.brel : Encoding.Statement .brel := by intro _ w he; cases he

theorem Encoding.mreqResend : Encoding.Statement .mreqResend := by intro _ w he; cases he

theorem Encoding.linkwaitExpiry : Encoding.Statement .linkwaitExpiry := by intro _ w he; cases he

theorem Encoding.bridgeLaneFail : Encoding.Statement .bridgeLaneFail := by intro _ w he; cases he

theorem Encoding.indb : Encoding.Statement .indb := by intro _ w he; cases he

theorem Encoding.lwdb : Encoding.Statement .lwdb := by intro _ w he; cases he

theorem Encoding.registerWrite : Encoding.Statement .registerWrite := by intro _ w he; cases he

theorem Encoding.msixUnmask : Encoding.Statement .msixUnmask := by intro _ w he; cases he

theorem Encoding.rscmd : Encoding.Statement .rscmd := by intro _ w he; cases he

theorem Encoding.resyncReady : Encoding.Statement .resyncReady := by intro _ w he; cases he

theorem Encoding.psetup : Encoding.Statement .psetup := by intro _ w he; cases he

theorem Encoding.ptear : Encoding.Statement .ptear := by intro _ w he; cases he

theorem Encoding.xlinv : Encoding.Statement .xlinv := by intro _ w he; cases he

theorem Encoding.regionCmd : Encoding.Statement .regionCmd := by intro _ w he; cases he

theorem Encoding.smcMigrate : Encoding.Statement .smcMigrate := by intro _ w he; cases he

theorem Encoding.watchCmd : Encoding.Statement .watchCmd := by intro _ w he; cases he

theorem Encoding.budgetCmd : Encoding.Statement .budgetCmd := by intro _ w he; cases he

theorem Encoding.fserv : Encoding.Statement .fserv := by intro _ w he; cases he

theorem Encoding.qprio : Encoding.Statement .qprio := by intro _ w he; cases he

theorem Encoding.modid : Encoding.Statement .modid := by intro _ w he; cases he

theorem Encoding.pcap : Encoding.Statement .pcap := by intro _ w he; cases he

theorem Encoding.rekey : Encoding.Statement .rekey := by intro _ w he; cases he

theorem Encoding.groupCmd : Encoding.Statement .groupCmd := by intro _ w he; cases he

theorem Encoding.fsload : Encoding.Statement .fsload := by intro _ w he; cases he

theorem Encoding.smcCommandComplete : Encoding.Statement .smcCommandComplete := by intro _ w he; cases he

theorem Encoding.custseq : Encoding.Statement .custseq := by intro _ w he; cases he

theorem Encoding.mevent : Encoding.Statement .mevent := by intro _ w he; cases he

theorem Encoding.getVersion : Encoding.Statement .getVersion := by intro _ w he; cases he

theorem Encoding.getCapabilities : Encoding.Statement .getCapabilities := by intro _ w he; cases he

theorem Encoding.negotiateAlgorithms : Encoding.Statement .negotiateAlgorithms := by intro _ w he; cases he

theorem Encoding.getDigests : Encoding.Statement .getDigests := by intro _ w he; cases he

theorem Encoding.getCertificate : Encoding.Statement .getCertificate := by intro _ w he; cases he

theorem Encoding.challenge : Encoding.Statement .challenge := by intro _ w he; cases he

theorem Encoding.getMeasurements : Encoding.Statement .getMeasurements := by intro _ w he; cases he

theorem Encoding.keyExchange : Encoding.Statement .keyExchange := by intro _ w he; cases he

theorem Encoding.finish : Encoding.Statement .finish := by intro _ w he; cases he

theorem Encoding.keyUpdate : Encoding.Statement .keyUpdate := by intro _ w he; cases he

theorem Encoding.endSession : Encoding.Statement .endSession := by intro _ w he; cases he

theorem Encoding.ideKeyProgram : Encoding.Statement .ideKeyProgram := by intro _ w he; cases he

theorem Encoding.i3cPcapWrite : Encoding.Statement .i3cPcapWrite := by intro _ w he; cases he

theorem Encoding.firmwareStagingWrite : Encoding.Statement .firmwareStagingWrite := by intro _ w he; cases he

theorem Encoding.powerReport : Encoding.Statement .powerReport := by intro _ w he; cases he

theorem Encoding.thermalStepDown : Encoding.Statement .thermalStepDown := by intro _ w he; cases he

theorem Encoding.thermalStepUp : Encoding.Statement .thermalStepUp := by intro _ w he; cases he

theorem Encoding.thermalEmergency : Encoding.Statement .thermalEmergency := by intro _ w he; cases he

theorem Encoding.thermalTrip : Encoding.Statement .thermalTrip := by intro _ w he; cases he

theorem Encoding.pcapAdjust : Encoding.Statement .pcapAdjust := by intro _ w he; cases he

theorem Encoding.smcTakeover : Encoding.Statement .smcTakeover := by intro _ w he; cases he

theorem Encoding.lcTakeover : Encoding.Statement .lcTakeover := by intro _ w he; cases he

theorem Encoding.spareBringIn : Encoding.Statement .spareBringIn := by intro _ w he; cases he

theorem Encoding.moduleReset : Encoding.Statement .moduleReset := by intro _ w he; cases he

theorem Encoding.dsWordComplete : Encoding.Statement .dsWordComplete := by intro _ w he; cases he

theorem Encoding.rowWordComplete : Encoding.Statement .rowWordComplete := by intro _ w he; cases he

theorem Encoding.relordRelease : Encoding.Statement .relordRelease := by intro _ w he; cases he

theorem Encoding.ungatingEnd : Encoding.Statement .ungatingEnd := by intro _ w he; cases he

theorem Encoding.sessionCounterLimit : Encoding.Statement .sessionCounterLimit := by intro _ w he; cases he

theorem Encoding.moderationExpiry : Encoding.Statement .moderationExpiry := by intro _ w he; cases he

theorem Encoding.tnackResend : Encoding.Statement .tnackResend := by intro _ w he; cases he


end Sys2Proof.Laws
end

