-- ==== Sys2Proof/Certificates/Slice0/Obligations.lean ====
section
/-! DEFINITION. The statements about this model that are to be proved: each obligation formalises rules of the spec, or says a property of the whole
machine. -/
open Sys2Proof Sys2Proof.Machine

/-- Every integer word of one result writes the value of its table to its destination, tag 0 (mov keeps the tag), and completes.

Three-register integer words (spec 05 R134): each writes its result to g[rd] with tag 0 and changes nothing else. A shift amount is b[5:0]; mulh is the high half of the signed product; min and max compare as signed values, minu and maxu as unsigned ones.

mov copies value and tag; clz counts the leading zero bits and popc the 1 bits of its source (spec 05 R134; 01 R10).

Immediate words (spec 05 R136 to R138): the 13-bit immediate is sign-extended for all four of addi, andi, ori and xori; lui and auipc place the sign-extended immediate at multiples of 0x2000, auipc from the address of its own word. -/
def Obligations.IntegerResults : Prop :=
  (
    ∀ (h : Hdr) (rd ra rb : BitVec 4) (s : State), s.cur.guard h = true →
      let a := s.cur.gv ra
      let b := s.cur.gv rb
      let n := b.toNat % 64
      let completes (i : Instr) (v : Word) : Prop := exec i s = .next (s.wrote (s.cur.setG rd v))
      completes (.add h rd ra rb) (a + b) ∧ completes (.sub h rd ra rb) (a - b) ∧
      completes (.andR h rd ra rb) (a &&& b) ∧ completes (.orR h rd ra rb) (a ||| b) ∧ completes (.xorR h rd ra rb) (a ^^^ b) ∧
      completes (.andn h rd ra rb) (a &&& ~~~b) ∧
      completes (.sll h rd ra rb) (BitVec.ofNat 64 (a.toNat * 2 ^ n)) ∧ completes (.srl h rd ra rb) (BitVec.ofNat 64 (a.toNat / 2 ^ n)) ∧
      completes (.sra h rd ra rb) (BitVec.ofInt 64 (a.toInt / 2 ^ n)) ∧
      completes (.mul h rd ra rb) (BitVec.ofInt 64 (a.toInt * b.toInt)) ∧
      completes (.mulh h rd ra rb) ((a.signExtend 128 * b.signExtend 128).extractLsb' 64 64) ∧
      completes (.minS h rd ra rb) (if a.toInt ≤ b.toInt then a else b) ∧ completes (.maxS h rd ra rb) (if a.toInt ≤ b.toInt then b else a) ∧
      completes (.minu h rd ra rb) (if a.toNat ≤ b.toNat then a else b) ∧ completes (.maxu h rd ra rb) (if a.toNat ≤ b.toNat then b else a)) ∧
  (
    ∀ (h : Hdr) (rd ra : BitVec 4) (s : State), s.cur.guard h = true →
      let a := s.cur.gv ra
      exec (.mov h rd ra) s = .next (s.wrote (s.cur.setGT rd (s.cur.gr ra))) ∧
      (∃ n ≤ 64, exec (.clz h rd ra) s = .next (s.wrote (s.cur.setG rd (BitVec.ofNat 64 n))) ∧
        a.toNat < 2 ^ (64 - n) ∧ (a ≠ 0 → 2 ^ (64 - n) ≤ 2 * a.toNat)) ∧
      exec (.popc h rd ra) s = .next (s.wrote (s.cur.setG rd (BitVec.ofNat 64 ((List.range 64).countP fun i => a.getLsbD i))))) ∧
  (
    ∀ (h : Hdr) (rd ra : BitVec 4) (imm : BitVec 13) (amt : BitVec 6) (up : BitVec 17) (s : State), s.cur.guard h = true →
      let a := s.cur.gv ra
      let completes (i : Instr) (v : Word) : Prop := exec i s = .next (s.wrote (s.cur.setG rd v))
      completes (.addi h rd ra imm) (BitVec.ofInt 64 (a.toInt + imm.toInt)) ∧ completes (.andi h rd ra imm) (a &&& imm.signExtend 64) ∧
      completes (.ori h rd ra imm) (a ||| imm.signExtend 64) ∧ completes (.xori h rd ra imm) (a ^^^ imm.signExtend 64) ∧
      completes (.slli h rd ra amt) (BitVec.ofNat 64 (a.toNat * 2 ^ amt.toNat)) ∧ completes (.srli h rd ra amt) (BitVec.ofNat 64 (a.toNat / 2 ^ amt.toNat)) ∧
      completes (.srai h rd ra amt) (BitVec.ofInt 64 (a.toInt / 2 ^ amt.toNat)) ∧
      completes (.lui h rd up) (BitVec.ofInt 64 (up.toInt * 0x2000)) ∧
      completes (.auipc h rd up) (BitVec.ofInt 64 (s.cur.pc.toNat + up.toInt * 0x2000)))

/-- Division (spec 05 R135): it truncates toward zero; a zero divisor gives the all-ones quotient and the dividend as remainder; the most negative number divided by −1 gives itself and 0; and nothing traps. -/
def Obligations.DivisionTruncates : Prop :=
  ∀ (h : Hdr) (rd ra rb : BitVec 4) (s : State), s.cur.guard h = true →
    let a := s.cur.gv ra
    let b := s.cur.gv rb
    ∃ q m qu mu : Word,
      exec (.divS h rd ra rb) s = .next (s.wrote (s.cur.setG rd q)) ∧ exec (.remS h rd ra rb) s = .next (s.wrote (s.cur.setG rd m)) ∧
      exec (.divu h rd ra rb) s = .next (s.wrote (s.cur.setG rd qu)) ∧ exec (.remu h rd ra rb) s = .next (s.wrote (s.cur.setG rd mu)) ∧
      (b = 0 → q = 0xFFFFFFFFFFFFFFFF ∧ m = a ∧ qu = 0xFFFFFFFFFFFFFFFF ∧ mu = a) ∧
      (a = 0x8000000000000000 ∧ b = 0xFFFFFFFFFFFFFFFF → q = a ∧ m = 0) ∧
      (b ≠ 0 ∧ ¬(a = 0x8000000000000000 ∧ b = 0xFFFFFFFFFFFFFFFF) → q.toInt = Int.tdiv a.toInt b.toInt ∧ m = a - q * b ∧ m.toInt = Int.tmod a.toInt b.toInt) ∧
      (b ≠ 0 → qu.toNat = a.toNat / b.toNat ∧ mu = a - qu * b)

/-- Compares and predicate words write the truth of their conditions; p0 reads 1 and discards writes.

Compares (spec 05 R140): each writes the truth of its condition to its predicate; a write to p0 is discarded (spec 01 R12). The immediate of cmpi is sign-extended for eq, ne, lt and ge, zero-extended for ltu and geu.

Predicate words (spec 05 R141; 01 R12): p0 reads 1 and a write to it is discarded; prd reads the whole word, bit 0 as 1; pwr writes p1 to p15 from bits 15:1. -/
def Obligations.ComparesAndPredicates : Prop :=
  (
    ∀ (h : Hdr) (pd ra rb : BitVec 4) (imm : BitVec 10) (s : State), s.cur.guard h = true →
      let a := s.cur.gv ra
      let b := s.cur.gv rb
      let completes (i : Instr) (p : Prop) : Prop := ∃ v : Bool, (v = true ↔ p) ∧ exec i s = .next (s.wrote (s.cur.setP pd v))
      completes (.cmpEq h pd ra rb) (a = b) ∧ completes (.cmpNe h pd ra rb) (a ≠ b) ∧
      completes (.cmpLt h pd ra rb) (a.toInt < b.toInt) ∧ completes (.cmpGe h pd ra rb) (b.toInt ≤ a.toInt) ∧
      completes (.cmpLtu h pd ra rb) (a.toNat < b.toNat) ∧ completes (.cmpGeu h pd ra rb) (b.toNat ≤ a.toNat) ∧
      completes (.cmpiEq h pd ra imm) (a.toInt = imm.toInt) ∧ completes (.cmpiNe h pd ra imm) (a.toInt ≠ imm.toInt) ∧
      completes (.cmpiLt h pd ra imm) (a.toInt < imm.toInt) ∧ completes (.cmpiGe h pd ra imm) (imm.toInt ≤ a.toInt) ∧
      completes (.cmpiLtu h pd ra imm) (a.toNat < imm.toNat) ∧ completes (.cmpiGeu h pd ra imm) (imm.toNat ≤ a.toNat)) ∧
  (
    ∀ (h : Hdr) (pd pa pb rd ra : BitVec 4) (v : Bool) (s : State), s.cur.guard h = true →
      let p (r : BitVec 4) : Bool := r = 0 ∨ s.cur.preds.getLsbD r.toNat = true
      let completes (i : Instr) (x : Bool) : Prop := exec i s = .next (s.wrote (s.cur.setP pd x))
      completes (.pand h pd pa pb) (p pa && p pb) ∧ completes (.por h pd pa pb) (p pa || p pb) ∧ completes (.pxor h pd pa pb) (p pa ^^ p pb) ∧
      completes (.pandn h pd pa pb) (p pa && !p pb) ∧ completes (.pnot h pd pa) (!p pa) ∧ completes (.pset h pd v) v ∧
      (∃ w : Word, exec (.prd h rd) s = .next (s.wrote (s.cur.setG rd w)) ∧
        w.toNat < 2 ^ 16 ∧ ∀ i : BitVec 4, w.getLsbD i.toNat = p i) ∧
      (∃ c : Ctx, exec (.pwr h ra) s = .next (s.wrote c) ∧ c = { s.cur with preds := c.preds } ∧
        ∀ i : BitVec 4, c.pr i = (i = 0 ∨ (s.cur.gv ra).getLsbD i.toNat = true)))

/-- A guard that is false (spec 05 R133): the word, whichever it is, leaves every register, predicate and control register as it was, and the context goes on with the word after it. -/
def Obligations.FalseGuardPerformsNothing : Prop :=
  ∀ (i : Instr) (h : Hdr) (s : State), i.hdr = some h → s.cur.guard h = false →
    exec i s = .next (s.wrote s.cur) ∧ (s.wrote s.cur).cur.npc = s.cur.npc ∧
    (s.wrote s.cur).cur.g = s.cur.g ∧ (s.wrote s.cur).cur.preds = s.cur.preds ∧ (s.wrote s.cur).cur.w = s.cur.w ∧
    (s.wrote s.cur).cur.ctl = s.cur.ctl ∧ (s.wrote s.cur).cur.toks = s.cur.toks

/-- br, call, jr, jalr and loop go to their targets and link; a bad target traps ALIGN, ILLEGAL or PAGE with no link written.

Taken transfers (spec 05 R142 to R146): a target that is aligned and lies in the partition's code region is taken; call and jalr write the address of the word after them, and a target read from the link register is the value before the write. loop leaves past the body with its counter at 0, else counts down and enters.

Targets a transfer does not take (spec 05 R142): misalignment traps ALIGN first, then an inline address outside the words of the held message traps ILLEGAL, then an address outside the code region traps PAGE with sub-cause 0x01; neither link nor counter is written. -/
def Obligations.ControlTransfers : Prop :=
  (
    ∀ (h : Hdr) (rd ra : BitVec 4) (off : BitVec 21) (imm : BitVec 13) (s : State), s.cur.guard h = true →
      let c := s.cur
      let ok (t : BitVec 32) : Prop := t.toNat % 4 = 0 ∧ t.toNat < 0xFFFFFF00 ∧ t.toNat < (s.part s.curPart).codeLen
      let tb : BitVec 32 := BitVec.ofInt 32 (c.pc.toNat + 4 * off.toInt)
      let tr : BitVec 32 := (c.gv ra).truncate 32
      let tl : BitVec 32 := BitVec.ofNat 32 (c.pc.toNat + 4 * (imm.toNat + 1))
      let link : Word := (c.pc + 4).zeroExtend 64
      let goes (i : Instr) (d : Ctx) (t : BitVec 32) (bubble : Nat) : Prop := exec i s = .next (s.wrote { d with npc := t, bubble := bubble })
      (ok tb → goes (.br h off) c tb 1 ∧ goes (.call h off) (c.setG 15 link) tb 1) ∧
      (ok tr → goes (.jr h ra) c tr 2 ∧ goes (.jalr h rd ra) (c.setG rd link) tr 2) ∧
      (c.gv ra = 0 → ok tl → goes (.loopW h ra imm) c tl 1) ∧
      (c.gv ra ≠ 0 → exec (.loopW h ra imm) s = .next (s.wrote { c.setG ra (c.gv ra - 1) with npc := c.nextPc }))) ∧
  (
    ∀ (h : Hdr) (rd ra : BitVec 4) (s : State), s.cur.guard h = true →
      let t : BitVec 32 := (s.cur.gv ra).truncate 32
      let traps (code sub : BitVec 8) : Prop :=
        exec (.jr h ra) s = .next (s.takeTrap ⟨code, sub, t.zeroExtend 64⟩) ∧ exec (.jalr h rd ra) s = .next (s.takeTrap ⟨code, sub, t.zeroExtend 64⟩)
      (t.toNat % 4 ≠ 0 → traps 0x04 0) ∧
      (t.toNat % 4 = 0 → 0xFFFFFF00 ≤ t.toNat → s.cur.held = none → traps 0x01 0) ∧
      (t.toNat % 4 = 0 → t.toNat < 0xFFFFFF00 → (s.part s.curPart).codeLen ≤ t.toNat → traps 0x10 0x01))

/-- mfs reads a control register; mts checks the mode and the scope and writes at the group boundary, field by field.

mfs and mts (spec 05 R148, R149; 01 R18): a read is zero-extended with tag 0; a write waits for the boundary of the group. The registers of system mode trap PRIV in user mode; SCOPE.CUR takes only a LIVE scope of the subtree of SCOPE.BASE there.

What the boundary makes of a pending write (spec 01 R19 to R25; 05 R149): each register takes the bits of its width, reserved fields stay 0, LFSR never becomes 0, and mts to ISTATE writes IE alone. -/
def Obligations.ControlRegisterWrites : Prop :=
  (
    ∀ (h : Hdr) (rd ra : BitVec 4) (k : BitVec 8) (s : State), s.cur.guard h = true →
      let c := s.cur
      let v := c.gv ra
      let pends (v : Word) : Host.Outcome State Fault Refusal := .next (s.wrote { c with pendMts := c.pendMts ++ [(k.toNat, v)] })
      let sys : Prop := k = 8 ∨ k = 9 ∨ k = 10 ∨ k = 11 ∨ k = 14
      exec (.mfs h rd k) s = .next (s.wrote (c.setG rd (s.mfsVal k.toNat))) ∧
      (s.priv = true → exec (.mts h ra k) s = pends v) ∧
      (s.priv = false → sys → exec (.mts h ra k) s = .next (s.takeTrap ⟨0x03, 0, 0⟩)) ∧
      (s.priv = false → ¬sys → k ≠ 4 → exec (.mts h ra k) s = pends v) ∧
      (s.priv = false → k = 4 → s.scopeLive s.curPart (v.truncate 16) = false → exec (.mts h ra k) s = .next (s.takeTrap ⟨0x23, 0, v⟩)) ∧
      (s.priv = false → k = 4 → s.scopeLive s.curPart (v.truncate 16) = true → s.inScope s.curPart c.ctl.base (v.truncate 16) = false →
        exec (.mts h ra k) s = .next (s.takeTrap ⟨0x03, 0, v⟩)) ∧
      (s.priv = false → k = 4 → s.scopeLive s.curPart (v.truncate 16) = true → s.inScope s.curPart c.ctl.base (v.truncate 16) = true →
        exec (.mts h ra k) s = pends ((c.ctl.base ++ (v.truncate 16 : BitVec 16)).zeroExtend 64))) ∧
  (
    ∀ (c : Ctx) (v : Word), c.sweep = [] → c.pendFl = 0 →
      let after (k : Nat) : Ctl := ({ c with pendMts := [(k, v)] } : Ctx).commit.ctl
      after 0 = { c.ctl with shape := v.truncate 16 &&& 0x0F1F } ∧ after 1 = { c.ctl with fpctl := v.truncate 16 &&& 0x1F0F } ∧
      after 2 = { c.ctl with fpst := v.truncate 8 &&& 0x3F } ∧
      (after 3).lfsr = (if (v.truncate 32 : BitVec 32) = 0 then 1 else v.truncate 32) ∧
      after 4 = { c.ctl with base := v.extractLsb' 16 16, cur := v.truncate 16 } ∧ after 5 = { c.ctl with rtag := v.truncate 32 } ∧
      after 6 = { c.ctl with linkwait := v.truncate 32 &&& 0xFFFFF } ∧ after 8 = { c.ctl with cause := v.truncate 32 &&& 0xFFFFF } ∧
      after 9 = { c.ctl with tval := v } ∧ after 10 = { c.ctl with tpc := v.truncate 32 } ∧ after 11 = { c.ctl with tmid := v.truncate 32 } ∧
      after 14 = { c.ctl with ie := v.getLsbD 0 })

/-- nop has no effect beyond issuing as a member of its group (spec 05 R151); yield lets no group of the context issue in the next cycle (spec 08 R224); pause k lets none issue for 16 × k cycles, after which a timer lets it go on (spec 09 R267). -/
def Obligations.NopYieldPause : Prop :=
  ∀ (h : Hdr) (k : BitVec 8) (s : State), s.cur.guard h = true →
    exec (.nop h) s = .next (s.wrote s.cur) ∧ exec (.yield h) s = .next (s.wrote { s.cur with bubble := 1 }) ∧
    exec (.pause h 0) s = exec (.yield h) s ∧
    (k ≠ 0 → ∃ t, exec (.pause h k) s = .next t ∧ t.cur = { s.cur with bubble := 16, hold := .paused, fin := true } ∧
      t.timers = s.timers ++ [(.pauseExpiry, { a := s.fcore, b := s.fctx })])

/-- Scalar words change only their destination register or predicate: no other register, context or byte of memory.

The frame of the words that write one general register (spec 05 R131 to R138, R141, R145, R148): whatever the guard, no other general register, no predicate, no vector register, no token, no control register, no other context and no byte of memory changes.

The frame of the words that write one predicate (spec 05 R140, R141): p0 reads 1 after as before, and nothing but the destination changes. -/
def Obligations.ScalarFrames : Prop :=
  (
    ∀ (h : Hdr) (rd ra rb : BitVec 4) (imm : BitVec 13) (amt : BitVec 6) (up : BitVec 17) (k : BitVec 8) (s t : State),
      ∀ i ∈ [Instr.add h rd ra rb, .sub h rd ra rb, .andR h rd ra rb, .orR h rd ra rb, .xorR h rd ra rb, .andn h rd ra rb, .sll h rd ra rb,
          .srl h rd ra rb, .sra h rd ra rb, .mul h rd ra rb, .mulh h rd ra rb, .divS h rd ra rb, .divu h rd ra rb, .remS h rd ra rb,
          .remu h rd ra rb, .minS h rd ra rb, .maxS h rd ra rb, .minu h rd ra rb, .maxu h rd ra rb, .mov h rd ra, .clz h rd ra, .popc h rd ra,
          .addi h rd ra imm, .andi h rd ra imm, .ori h rd ra imm, .xori h rd ra imm, .slli h rd ra amt, .srli h rd ra amt, .srai h rd ra amt,
          .lui h rd up, .auipc h rd up, .prd h rd, .mfs h rd k],
        exec i s = .next t → s.onlyCur t ∧ s.cur.onlyG rd t.cur ∧ s.sameBytes t) ∧
  (
    ∀ (h : Hdr) (pd pa pb ra rb : BitVec 4) (imm : BitVec 10) (v : Bool) (s t : State),
      ∀ i ∈ [Instr.cmpEq h pd ra rb, .cmpNe h pd ra rb, .cmpLt h pd ra rb, .cmpGe h pd ra rb, .cmpLtu h pd ra rb, .cmpGeu h pd ra rb,
          .cmpiEq h pd ra imm, .cmpiNe h pd ra imm, .cmpiLt h pd ra imm, .cmpiGe h pd ra imm, .cmpiLtu h pd ra imm, .cmpiGeu h pd ra imm,
          .pand h pd pa pb, .por h pd pa pb, .pxor h pd pa pb, .pandn h pd pa pb, .pnot h pd pa, .pset h pd v],
        exec i s = .next t → s.onlyCur t ∧ s.cur.onlyP pd t.cur ∧ s.sameBytes t)

/-- The frame of the words that write a vector register through a result latch (spec 01 R13; 06 R162): of the context, only its latches, its vector destination, the floating flags that wait for the boundary, and LFSR where the word converts, may change; no general register, no predicate, no other context and no byte of memory does, unless the word traps, ILLEGAL for its type or lane or, with an exception enabled, FPTRAP. With no exception enabled the word writes a latch and nothing else but LFSR; with one enabled a floating-point word writes its destination at issue. -/
def Obligations.VectorFrame : Prop :=
  ∀ (h : Hdr) (wd wa wb wc : BitVec 3) (rg : BitVec 4) (k : BitVec 5) (ty : VTy) (s t : State), s.cur.guard h = true →
    ∀ i ∈ [Instr.vadd h wd wa wb ty, .vsub h wd wa wb ty, .vmul h wd wa wb ty, .vmin h wd wa wb ty, .vmax h wd wa wb ty, .vabs h wd wa ty,
        .vneg h wd wa ty, .vand h wd wa wb ty, .vor h wd wa wb ty, .vxor h wd wa wb ty, .vshl h wd wa wb ty, .vshr h wd wa wb ty,
        .vfma h wd wa wb wc ty, .vfms h wd wa wb wc ty, .vsel h wd wa wb wc ty, .vcmpEq h wd wa wb ty, .vcmpLt h wd wa wb ty, .vcmpLe h wd wa wb ty,
        .vnz h wd wa ty, .vswp2 h wd wa ty, .vrev h wd wa ty, .vshuf h wd wa wb ty, .vrot h wd wa k ty, .vbcast h wd wa k ty, .vins h wd rg k ty, .vsplat h wd rg ty,
        .vsin h wd wa ty, .vcos h wd wa ty, .vexp h wd wa ty, .vlog2 h wd wa ty, .vrsqrt h wd wa ty, .vrcp h wd wa ty,
        .vrsum h wd wa ty, .vrmax h wd wa ty, .vrmin h wd wa ty, .vcvt h wd wa ty, .vpack h wd wa wb ty, .vunpklo h wd wa ty, .vunpkhi h wd wa ty],
      exec i s = .next t →
      exec i s = .next (s.takeTrap (shapeTrap s.cur.ctl)) ∨
      (s.onlyCur t ∧ s.sameBytes t ∧
        ((∃ l : Latch, l.dest = wd ∧ t.cur = { s.cur with latches := s.cur.latches ++ [l], ctl := { s.cur.ctl with lfsr := t.cur.ctl.lfsr }, fin := true }) ∨
          (s.cur.ctl.enables ≠ 0 ∧ ∃ (v : BitVec 256) (f : Fl),
            t.cur = { s.cur.setW wd v with pendFl := s.cur.pendFl ||| f, ctl := { s.cur.ctl with lfsr := t.cur.ctl.lfsr }, fin := true }))) ∨
      (s.cur.ctl.enables ≠ 0 ∧ ∃ (f : Fl) (lanes : Word), s.cur.ctl.hits f ≠ 0 ∧
        exec i s = .next ((s.setCur { s.cur with pendFl := s.cur.pendFl ||| f }).takeTrap ⟨0x30, s.cur.ctl.hits f, lanes⟩))

/-- Scalar floating-point words write their rounded result and raise flags, or trap FPTRAP where an enabled flag is raised.

Scalar floating-point words (spec 06 R152 to R160; 04 R116, R122, R123): each operand is the low bits of its register, the result is rounded once and written zero-extended with tag 0, the flags raised wait for the boundary; where a flag raised is enabled the word traps FPTRAP with its destination unchanged. fneg and fclass raise none.

Scalar floating-point compares and conversions (spec 06 R158, R159): a compare writes its predicate; a conversion reads its source type and writes its destination type, and a stochastic one advances LFSR. -/
def Obligations.ScalarFloatWords : Prop :=
  (
    ∀ (h : Hdr) (rd ra rb : BitVec 4) (ty : FTy) (s : State), s.cur.guard h = true →
      let c := s.cur
      let md := c.ctl.mode
      let a := (c.gv ra).toNat % 2 ^ fwidth ty
      let b := (c.gv rb).toNat % 2 ^ fwidth ty
      let d := (c.gv rd).toNat % 2 ^ fwidth ty
      let completes (i : Instr) (r : Nat × Fl) : Prop :=
        (c.ctl.hits r.2 = 0 → exec i s = .next (s.wrote (({ c with pendFl := c.pendFl ||| r.2 } : Ctx).setG rd (BitVec.ofNat 64 r.1)))) ∧
        (c.ctl.hits r.2 ≠ 0 → exec i s = .next ((s.setCur { c with pendFl := c.pendFl ||| r.2 }).takeTrap ⟨0x30, c.ctl.hits r.2, 1⟩))
      completes (.fadd h rd ra rb ty) (fAdd ty md a b) ∧ completes (.fsub h rd ra rb ty) (fSub ty md a b) ∧ completes (.fmul h rd ra rb ty) (fMul ty md a b) ∧
      completes (.fdiv h rd ra rb ty) (fDiv ty md a b) ∧ completes (.fmin h rd ra rb ty) (fMinMax ty md false a b) ∧
      completes (.fmax h rd ra rb ty) (fMinMax ty md true a b) ∧ completes (.fsqrt h rd ra ty) (fSqrt ty md a) ∧
      completes (.fma h rd ra rb ty) (fFma ty md a b d) ∧ completes (.fms h rd ra rb ty) (fFms ty md a b d) ∧
      exec (.fneg h rd ra ty) s = .next (s.wrote (c.setG rd (BitVec.ofNat 64 (a ^^^ 2 ^ (fwidth ty - 1))))) ∧
      exec (.fclass h rd ra ty) s = .next (s.wrote (c.setG rd (BitVec.ofNat 64 (fClass ty a))))) ∧
  (
    ∀ (h : Hdr) (rd ra rb : BitVec 4) (ty src : FTy) (s : State), s.cur.guard h = true →
      let c := s.cur
      let md := c.ctl.mode
      let a := (c.gv ra).toNat % 2 ^ fwidth ty
      let b := (c.gv rb).toNat % 2 ^ fwidth ty
      let traps (i : Instr) (f : Fl) : Prop :=
        c.ctl.hits f ≠ 0 → exec i s = .next ((s.setCur { c with pendFl := c.pendFl ||| f }).takeTrap ⟨0x30, c.ctl.hits f, 1⟩)
      let tests (i : Instr) (cc : FCmp) : Prop :=
        let r := fCompare ty md cc a b
        (c.ctl.hits r.2 = 0 → exec i s = .next (s.wrote (({ c with pendFl := c.pendFl ||| r.2 } : Ctx).setP rd r.1))) ∧ traps i r.2
      let turns (i : Instr) (x y : ETy) : Prop :=
        let r := convertLane x y md c.ctl.sr c.ctl.lfsr ((c.gv ra).toNat % 2 ^ (8 * x.bytes))
        (c.ctl.hits r.1.2 = 0 →
          exec i s = .next (s.wrote (({ c with pendFl := c.pendFl ||| r.1.2, ctl := { c.ctl with lfsr := r.2 } } : Ctx).setG rd (BitVec.ofNat 64 r.1.1)))) ∧ traps i r.1.2
      tests (.fcmpEq h rd ra rb ty) .eq ∧ tests (.fcmpLt h rd ra rb ty) .lt ∧ tests (.fcmpLe h rd ra rb ty) .le ∧ tests (.fcmpUn h rd ra rb ty) .un ∧
      turns (.fcvtF2f h rd ra ty src) (etyOfF src) (etyOfF ty) ∧ turns (.fcvtF2i h rd ra ty) (etyOfF ty) .i64 ∧
      turns (.fcvtF2u h rd ra ty) (etyOfF ty) .n64 ∧ turns (.fcvtI2f h rd ra ty) .i64 (etyOfF ty) ∧ turns (.fcvtU2f h rd ra ty) .n64 (etyOfF ty))

/-- What the rounding of spec 04 makes of the corners (spec 04 R116 to R121; 06 R154, R155): sums, products and quotients of NaNs, zeros and infinities in f32. -/
def Obligations.FloatCorners : Prop :=
  let rne : RMode := ⟨0, false⟩
  fAdd .f32 rne 0x3F800000 0x40000000 = (0x40400000, 0) ∧
  (fSub .f32 rne 0x7F800000 0x7F800000).1 = 0x7FC00000 ∧
  fDiv .f32 rne 0x3F800000 0 = (0x7F800000, 8) ∧
  (fMul .f32 rne 0x7F800000 0).1 = 0x7FC00000 ∧
  (fSqrt .f32 rne 0xBF800000).1 = 0x7FC00000 ∧
  fFma .f32 rne 0x40000000 0x40400000 0x3F800000 = (0x40E00000, 0) ∧
  (fCompare .f32 rne .un 0x7FC00000 0x3F800000).1 = true ∧ (fCompare .f32 rne .eq 0x80000000 0).1 = true

/-- Lanewise vector words (spec 06 R161 to R166, R171, R172; 01 R13): the result goes through a result latch of its word's latency with the flags of its lanes; an integer word never traps on a value; while a trap enable is set a floating-point word writes its register at once, or traps FPTRAP where an enabled flag is raised (spec 04 R122; which words count as floating-point is this model's, log entry 114). -/
def Obligations.VectorLaneResults : Prop :=
  ∀ (h : Hdr) (wd wa wb wc : BitVec 3) (t : ETy) (s : State), s.cur.guard h = true →
    let c := s.cur
    let md := c.ctl.mode
    let n := 32 / t.bytes
    let completes (i : Instr) (lat : Nat) (f : Nat → Nat → Nat → Nat × Fl) : Prop :=
      ∃ l : List (Nat × Fl), l.length = n ∧
        (∀ k < n, l[k]? = some (f (laneGet (c.wv wa) t.bytes k) (laneGet (c.wv wb) t.bytes k) (laneGet (c.wv wc) t.bytes k))) ∧
        let v := ofLanes t.bytes (l.map fun x => x.1)
        let f := orFl (l.map fun x => x.2)
        let precise : Bool := isFloat t && c.ctl.enables != 0
        (precise = false → exec i s = .next (s.wrote { c with latches := c.latches ++ [⟨wd, v, lat, f⟩] })) ∧
        (precise = true → c.ctl.hits f = 0 → exec i s = .next (s.wrote { c.setW wd v with pendFl := c.pendFl ||| f })) ∧
        (precise = true → c.ctl.hits f ≠ 0 → ∃ lanes : Nat,
          exec i s = .next ((s.setCur { c with pendFl := c.pendFl ||| f }).takeTrap ⟨0x30, c.ctl.hits f, BitVec.ofNat 64 lanes⟩) ∧
          ∀ k, lanes.testBit k = ((l[k]?).any fun x => c.ctl.hits x.2 != 0))
    let ty : VTy := .of t
    let mask (b : Bool) : Nat := if b then 2 ^ (8 * t.bytes) - 1 else 0
    completes (.vadd h wd wa wb ty) 4 (fun a b _ => laneAdd t md a b) ∧ completes (.vsub h wd wa wb ty) 4 (fun a b _ => laneSub t md a b) ∧
    completes (.vmul h wd wa wb ty) 4 (fun a b _ => laneMul t md a b) ∧ completes (.vmin h wd wa wb ty) 4 (fun a b _ => laneMinMax false t md a b) ∧
    completes (.vmax h wd wa wb ty) 4 (fun a b _ => laneMinMax true t md a b) ∧ completes (.vabs h wd wa ty) 4 (fun a _ _ => (laneAbs t a, 0)) ∧
    completes (.vneg h wd wa ty) 4 (fun a _ _ => (laneNeg t a, 0)) ∧ completes (.vand h wd wa wb ty) 4 (fun a b _ => (a &&& b, 0)) ∧
    completes (.vor h wd wa wb ty) 4 (fun a b _ => (a ||| b, 0)) ∧ completes (.vxor h wd wa wb ty) 4 (fun a b _ => (a ^^^ b, 0)) ∧
    completes (.vfma h wd wa wb wc ty) 4 (fun a b x => laneFma false t md a b x) ∧ completes (.vfms h wd wa wb wc ty) 4 (fun a b x => laneFma true t md a b x) ∧
    completes (.vsel h wd wa wb wc ty) 2 (fun a b x => (if x = 0 then b else a, 0)) ∧
    completes (.vcmpEq h wd wa wb ty) 2 (fun a b _ => (mask (laneCmp .eq t md a b).1, (laneCmp .eq t md a b).2)) ∧
    completes (.vcmpLt h wd wa wb ty) 2 (fun a b _ => (mask (laneCmp .lt t md a b).1, (laneCmp .lt t md a b).2)) ∧
    completes (.vcmpLe h wd wa wb ty) 2 (fun a b _ => (mask (laneCmp .le t md a b).1, (laneCmp .le t md a b).2)) ∧
    (isFloat t = false → completes (.vshl h wd wa wb ty) 4 (fun a b _ => (a * 2 ^ (b % (8 * t.bytes)) % 2 ^ (8 * t.bytes), 0)) ∧
      completes (.vshr h wd wa wb ty) 4 (fun a b _ => (laneShr t a b, 0))) ∧
    (∀ f : FTy, laneOf t = .flt f → transTy t = true →
      completes (.vsin h wd wa ty) 12 (fun a _ _ => trans .sin f md a) ∧ completes (.vcos h wd wa ty) 12 (fun a _ _ => trans .cos f md a) ∧
      completes (.vexp h wd wa ty) 12 (fun a _ _ => trans .exp f md a) ∧ completes (.vlog2 h wd wa ty) 12 (fun a _ _ => trans .log2 f md a) ∧
      completes (.vrsqrt h wd wa ty) 12 (fun a _ _ => trans .rsqrt f md a) ∧ completes (.vrcp h wd wa ty) 12 (fun a _ _ => trans .rcp f md a))

/-- Vector words that move, convert or reduce lanes complete with the results of their rules; a lane beyond the type of SHAPE traps ILLEGAL.

Words that move lanes (spec 06 R169, R170): with the type the word names, or that of SHAPE, they move encodings, raise no flag and complete; a lane field below the lane count names a lane, and one beyond the type of SHAPE traps ILLEGAL at issue; vext writes a general register, sign-extended for signed types; vnz leaves a mask and a count.

Conversions and reductions of vector registers (spec 06 R167, R168, R173; 04 R117, R118, R122, R125): the lanes convert in ascending order, each taking LFSR where the one before left it, but for vunpklo and vunpkhi, which never round stochastically; vpack takes both sources, vunpklo and vunpkhi half of one; a reduction leaves its value in lane 0 of an otherwise zero register, fx64 sums exactly and saturates once. The source of a conversion is of the type of SHAPE, its result of the type the word names. With an exception enabled a floating-point word writes its register at issue, or traps FPTRAP with LFSR and the register unchanged; of a reduction the mask has bit 0 (the model's choice, log entry 115). A vpack to other than half the width, or a vunpklo or vunpkhi to other than twice, traps ILLEGAL (06 R161). -/
def Obligations.VectorMovementAndConversions : Prop :=
  (
    ∀ (h : Hdr) (wd wa wb : BitVec 3) (rg : BitVec 4) (k : BitVec 5) (ty : VTy) (t : ETy) (s : State), s.cur.guard h = true → vtyOfCtl s.cur.ctl ty = .ok t →
      let c := s.cur
      let n := 32 / t.bytes
      let a (i : Nat) := laneGet (c.wv wa) t.bytes i
      let b (i : Nat) := laneGet (c.wv wb) t.bytes i
      let low := (c.gv rg).toNat % 2 ^ (8 * t.bytes)
      let completes (i : Instr) (f : Nat → Nat) : Prop :=
        exec i s = .next (s.wrote { c with latches := c.latches ++ [⟨wd, ofLanes t.bytes ((List.range n).map f), 2, 0⟩] })
      completes (.vswp2 h wd wa ty) (fun i => a (if i % 2 = 0 then i + 1 else i - 1)) ∧ completes (.vrev h wd wa ty) (fun i => a (n - 1 - i)) ∧ completes (.vshuf h wd wa wb ty) (fun i => a (b i % n)) ∧ completes (.vsplat h wd rg ty) (fun _ => low) ∧
      (k.toNat < n → completes (.vrot h wd wa k ty) (fun i => a ((i + k.toNat) % n)) ∧ completes (.vbcast h wd wa k ty) (fun _ => a k.toNat) ∧
        completes (.vins h wd rg k ty) (fun i => if i = k.toNat then low else laneGet (c.wv wd) t.bytes i) ∧
        ∃ v : Word, exec (.vext h wa rg k ty) s = .next (s.wrote (c.setG rg v)) ∧
          (∀ w, laneOf t = .sint w → v.toInt = toSigned w (a k.toNat)) ∧ ((∀ w, laneOf t ≠ .sint w) → v.toNat = a k.toNat)) ∧
      (ty = .shape → n ≤ k.toNat → ∀ i ∈ [Instr.vrot h wd wa k ty, .vbcast h wd wa k ty, .vins h wd rg k ty, .vext h wa rg k ty],
        exec i s = .next (s.takeTrap ⟨0x01, 0, c.ctl.shape.zeroExtend 64⟩)) ∧
      ∃ m : Nat, exec (.vnz h wd wa ty) s =
          .next (s.wrote { c with latches := c.latches ++ [⟨wd, BitVec.ofNat 256 (m + 2 ^ 32 * (List.range 32).countP m.testBit), 2, 0⟩] }) ∧
        ∀ i, m.testBit i = (decide (i < n) && !laneZero t (a i))) ∧
  (
    ∀ (h : Hdr) (wd wa wb : BitVec 3) (t : ETy) (ty : VTy) (s : State), s.cur.guard h = true → vtyOfCtl s.cur.ctl ty = .ok t →
      let c := s.cur
      let md := c.ctl.mode
      let ends (i : Instr) (fp : Bool) (lat : Nat) (v : BitVec 256) (lfsr : BitVec 32) (fs : List Fl) : Prop :=
        let f := orFl fs
        let d : Ctx := { c with ctl := { c.ctl with lfsr := lfsr } }
        let precise : Bool := fp && c.ctl.enables != 0
        (precise = false → exec i s = .next (s.wrote { d with latches := c.latches ++ [⟨wd, v, lat, f⟩] })) ∧
        (precise = true → c.ctl.hits f = 0 → exec i s = .next (s.wrote { d.setW wd v with pendFl := c.pendFl ||| f })) ∧
        (precise = true → c.ctl.hits f ≠ 0 → ∃ lanes : Nat,
          exec i s = .next ((s.setCur { c with pendFl := c.pendFl ||| f }).takeTrap ⟨0x30, c.ctl.hits f, BitVec.ofNat 64 lanes⟩) ∧
          ∀ k, lanes.testBit k = ((fs[k]?).any fun x => c.ctl.hits x != 0))
      let sums (i : Instr) (r : Nat × Fl) : Prop := ends i (isFloat t) 6 (BitVec.ofNat 256 r.1) c.ctl.lfsr [r.2]
      let e := lanesOf t.bytes (c.wv wa)
      (∀ src : ETy, c.ctl.shapeTy = .ok src →
        let a := lanesOf src.bytes (c.wv wa)
        let b := lanesOf src.bytes (c.wv wb)
        let turns (i : Instr) (sr : Bool) (xs : List Nat) : Prop :=
          let r := convertLanes src t md sr c.ctl.lfsr xs
          ends i (isFloat src || isFloat t) 4 (ofLanes t.bytes (r.1.map fun x => x.1)) r.2 (r.1.map fun x => x.2)
        let illegal (i : Instr) : Prop := exec i s = .next (s.takeTrap ⟨0x01, 0, c.ctl.shape.zeroExtend 64⟩)
        turns (.vcvt h wd wa ty) c.ctl.sr (a.take (32 / t.bytes)) ∧
        (if 2 * t.bytes = src.bytes then turns (.vpack h wd wa wb ty) c.ctl.sr (a ++ b) else illegal (.vpack h wd wa wb ty)) ∧
        (if t.bytes = 2 * src.bytes then turns (.vunpklo h wd wa ty) false (a.take (16 / src.bytes)) ∧ turns (.vunpkhi h wd wa ty) false (a.drop (16 / src.bytes))
          else illegal (.vunpklo h wd wa ty) ∧ illegal (.vunpkhi h wd wa ty))) ∧
      sums (.vrmax h wd wa ty) (tree (laneMinMax true t md) (levels t) e) ∧ sums (.vrmin h wd wa ty) (tree (laneMinMax false t md) (levels t) e) ∧
      sums (.vrsum h wd wa ty) (if laneOf t = .fx then (wrapN 64 (satS ((e.map (toSigned 64)).foldl (· + ·) 0) 64), 0) else tree (laneAdd t md) (levels t) e))

/-- Result latches (spec 01 R13, R14): at the end of a cycle a latch that has run out writes its register and ORs its flags into FPST, in issue order, so that of two latches to one register the later issued stands; the others count down. LATCH_COMPLETE lets one complete. -/
def Obligations.LatchesComplete : Prop :=
  (∀ (c : Ctx) (l m : Latch), l.rem ≤ 1 → m.rem ≤ 1 → l.dest = m.dest → c.latches = [l, m] →
    c.tick.wv m.dest = m.val ∧ c.tick.latches = [] ∧ c.tick.ctl.fpst = c.ctl.fpst ||| l.flags ||| m.flags) ∧
  (∀ (c : Ctx) (l : Latch), 1 < l.rem → c.latches = [l] → c.tick = { c with latches := [⟨l.dest, l.val, l.rem - 1, l.flags⟩] }) ∧
  (∀ (s : State) (l : Latch), let c := s.ctx s.occ.a s.occ.b
    c.latches[s.occ.c]? = some l →
    ∃ d : Ctx, exec .latchComplete s = .next (s.setCtx s.occ.a s.occ.b d) ∧ d.wv l.dest = l.val ∧ (∀ r, r ≠ l.dest → d.wv r = c.wv r) ∧
      d.ctl.fpst = c.ctl.fpst ||| l.flags ∧ d.latches = c.latches.eraseIdx s.occ.c ∧ d.g = c.g ∧ d.preds = c.preds)

/-- Loads and stores of the core's own tile memory move their bytes, least significant first, and change no other byte.

Loads of the core's own tile memory and of the inbox view (spec 02 R62; 07 R180, R185, R188; 12 R321; 00 R3): when the checks of R180 pass and no byte is poisoned, the bytes at the address are read, the least significant first, at once; a load of 1, 2 or 4 bytes is sign-extended or zero-extended as its word says, with tag 0. No other register, no other context and no byte of memory changes.

Stores to the core's own tile memory (spec 07 R180, R185, R188; 12 R321): when the checks pass, the bytes of the source are stored at the address, the least significant first, and every other byte of memory reads as before; no register changes. -/
def Obligations.TileLoadsAndStores : Prop :=
  (
    ∀ (h : Hdr) (rd ra : BitVec 4) (wd : BitVec 3) (size : MSize) (ext : Bool) (imm : BitVec 10) (s : State), s.cur.guard h = true →
      let c := s.cur
      let at_ (n : Nat) : Nat := (ea (c.gr ra) (imm.signExtend 64 * BitVec.ofNat 64 n)).toNat
      let byte (n i : Nat) : Byte := memGet s.mem (tilePa s.fcore c.space (tileOff (at_ n) + i))
      let clean (n : Nat) : Prop := ∀ i < n, tilePa s.fcore c.space (tileOff (at_ n) + i) / 64 ∉ s.poison
      let loads (i : Instr) (d : Ctx) : Prop := ∃ t, exec i s = .next t ∧ t.cur = { d with fin := true } ∧ t.ctxs = (s.wrote d).ctxs ∧ t.mem = s.mem
      let extends_ (v : Word) (n : Nat) (b : Nat → Byte) : Prop := (∀ i < n, v.extractLsb' (8 * i) 8 = b i) ∧
        (ext = false → v.toNat < 2 ^ (8 * n)) ∧ (ext = true → v.toInt < 2 ^ (8 * n - 1) ∧ -2 ^ (8 * n - 1) ≤ v.toInt)
      (s.check (at_ (msz size)) (msz size) 0 true false (c.gr ra) = .ok .tile → clean (msz size) →
        ∃ v : Word, loads (.ld h rd ra size ext imm) (c.setG rd v) ∧ loads (.ldNc h rd ra size ext imm) (c.setG rd v) ∧ extends_ v (msz size) (byte (msz size))) ∧
      (s.check (at_ 32) 32 0 true false (c.gr ra) = .ok .tile → clean 32 →
        ∃ v : BitVec 256, loads (.ldw h wd ra imm) (c.setW wd v) ∧ ∀ i < 32, v.extractLsb' (8 * i) 8 = byte 32 i) ∧
      (s.check (at_ (msz size)) (msz size) 0 true false (c.gr ra) = .ok .inbox → (∀ m, c.held = some m → m.poisoned = []) →
        ∃ v : Word, loads (.ld h rd ra size ext imm) (c.setG rd v) ∧ loads (.ldNc h rd ra size ext imm) (c.setG rd v) ∧
          extends_ v (msz size) fun i => inboxByte c (at_ (msz size) - 0x40000 + i))) ∧
  (
    ∀ (h : Hdr) (rd ra : BitVec 4) (wd : BitVec 3) (size : MSize) (imm : BitVec 10) (s : State), s.cur.guard h = true → s.fctx ≠ 16 →
      let c := s.cur
      let at_ (n : Nat) : Nat := (ea (c.gr ra) (imm.signExtend 64 * BitVec.ofNat 64 n)).toNat
      let pa (n i : Nat) : Nat := tilePa s.fcore c.space (tileOff (at_ n) + i)
      let stores (i : Instr) (n : Nat) (byte : Nat → Byte) : Prop :=
        s.check (at_ n) n 0 false true (c.gr ra) = .ok .tile →
        ∃ t, exec i s = .next t ∧ (∀ j < n, memGet t.mem (pa n j) = byte j) ∧ (∀ x, (∀ j < n, x ≠ pa n j) → memGet t.mem x = memGet s.mem x) ∧
          t.cur = { c with fin := true } ∧ t.ctxs = (s.wrote c).ctxs
      stores (.st h rd ra size imm) (msz size) (fun j => (c.gv rd).extractLsb' (8 * j) 8) ∧
      stores (.stw h wd ra imm) 32 (fun j => (c.wv wd).extractLsb' (8 * j) 8))

/-- Atomics on the core's own tile memory (spec 07 R194 to R196): the old value is read into the destination, the new one stored, in one act; an integer result of 4 bytes is sign-extended; nothing else changes. -/
def Obligations.TileAtomics : Prop :=
  ∀ (h : Hdr) (rd ra rb : BitVec 4) (sys dbl : Bool) (s : State), s.cur.guard h = true →
    let c := s.cur
    let a : Nat := (ea (c.gr ra) 0).toNat
    let pa (j : Nat) : Nat := tilePa s.fcore c.space (tileOff a + j)
    let does (i : Instr) (n : Nat) (sgn : Bool) (new : Nat → Nat → Nat → Nat) : Prop :=
      s.check a n n true true (c.gr ra) = .ok .tile → (∀ j < n, pa j / 64 ∉ s.poison) →
      ∃ (t : State) (old : Nat), exec i s = .next t ∧ (∀ j < n, memGet s.mem (pa j) = BitVec.ofNat 8 (old / 256 ^ j)) ∧ old < 256 ^ n ∧
        (∀ j < n, memGet t.mem (pa j) = BitVec.ofNat 8 (new old ((c.gv rb).toNat % 256 ^ n) ((c.gv rd).toNat % 256 ^ n) / 256 ^ j)) ∧
        (∀ x, (∀ j < n, x ≠ pa j) → memGet t.mem x = memGet s.mem x) ∧
        t.cur = { c.setG rd (if sgn then BitVec.ofInt 64 (toSigned (8 * n) old) else BitVec.ofNat 64 old) with fin := true }
    let n := if dbl then 8 else 4
    let i2 (f : Int → Int → Int) (x y : Nat) : Nat := wrapN (8 * n) (f (toSigned (8 * n) x) (toSigned (8 * n) y))
    does (.atomAdd h rd ra rb sys dbl) n true (fun x y _ => (x + y) % 256 ^ n) ∧ does (.atomAnd h rd ra rb sys dbl) n true (fun x y _ => x &&& y) ∧
    does (.atomOr h rd ra rb sys dbl) n true (fun x y _ => x ||| y) ∧ does (.atomXor h rd ra rb sys dbl) n true (fun x y _ => x ^^^ y) ∧
    does (.atomSmin h rd ra rb sys dbl) n true (fun x y _ => i2 min x y) ∧ does (.atomSmax h rd ra rb sys dbl) n true (fun x y _ => i2 max x y) ∧
    does (.atomSwap h rd ra rb sys dbl) n true (fun _ y _ => y) ∧ does (.atomCas h rd ra rb sys dbl) n true (fun x y z => if x = z then y else x) ∧
    does (.atomFaddF32 h rd ra rb sys) 4 false (fun x y _ => (fAdd .f32 ⟨0, false⟩ x y).1) ∧
    does (.atomFaddF64 h rd ra rb sys) 8 false (fun x y _ => (fAdd .f64 ⟨0, false⟩ x y).1)

/-- Accesses that leave the core (spec 07 R183, R186, R190, R191, R194; 12 R325): when the checks pass and the address is global, the word blocks on a request that carries the access, cut at every 64-byte boundary, to the slice that translates it; no register changes until the reply. A plain load does so when it misses the L1; when every byte hits there, and translation and region pass, it completes at once with the bytes of the lines. -/
def Obligations.GlobalAccessesBlock : Prop :=
  ∀ (h : Hdr) (rd ra rb : BitVec 4) (wd : BitVec 3) (size : MSize) (ext sys dbl : Bool) (imm : BitVec 10) (s : State), s.cur.guard h = true → s.fctx ≠ 16 →
    let c := s.cur
    let at_ (n : Nat) : Nat := (ea (c.gr ra) (imm.signExtend 64 * BitVec.ofNat 64 n)).toNat
    let a : Nat := (ea (c.gr ra) 0).toNat
    let posts (i : Instr) (k : AKind) (a n : Nat) : Prop :=
      ∃ (t : State) (r : Req), exec i s = .next t ∧ t.cur = { c with hold := .access s.nextNo } ∧ t.req s.nextNo = some r ∧ r.kind = k ∧ r.va = a ∧
        r.len = n ∧ r.core = s.fcore ∧ r.ctx = s.fctx ∧ t.agenda = s.agenda ++ [(.translationRequest, { a := s.nextNo })] ∧ t.mem = s.mem ∧
        (r.pieces.map fun p => p.len).foldl (· + ·) 0 = n ∧ ∀ p ∈ r.pieces, p.va % 64 + p.len ≤ 64
    let n := if dbl then 8 else 4
    let glob (a n al : Nat) (x y : Bool) : Prop := s.check a n al x y (c.gr ra) = .ok .global
    let window := sdist ((c.gv rb).truncate 20) ((c.gv rb).extractLsb' 20 20)
    (glob (at_ (msz size)) (msz size) 0 true false →
      (s.l1Hit s.fcore (at_ (msz size)) (msz size) = none → posts (.ld h rd ra size ext imm) .load (at_ (msz size)) (msz size)) ∧
      (∀ bs e, s.l1Hit s.fcore (at_ (msz size)) (msz size) = some bs → at_ (msz size) % 64 + msz size ≤ 64 → s.xlHit s.curPart (at_ (msz size)) = some e →
        s.region s.curPart (at_ (msz size)) = none →
        ∃ t, exec (.ld h rd ra size ext imm) s = .next t ∧ t.mem = s.mem ∧ t.reqs = s.reqs ∧ t.cur = { c.setG rd
          (if ext then BitVec.ofInt 64 (toSigned (8 * msz size) (leNat bs)) else BitVec.ofNat 64 (leNat bs)) with fin := true }) ∧
      posts (.ldNc h rd ra size ext imm) .loadNc (at_ (msz size)) (msz size)) ∧
    (glob (at_ 32) 32 0 true false → s.l1Hit s.fcore (at_ 32) 32 = none → posts (.ldw h wd ra imm) .load (at_ 32) 32) ∧
    (glob (at_ (msz size)) (msz size) 0 false true → posts (.st h rd ra size imm) .store (at_ (msz size)) (msz size)) ∧
    (glob (at_ 32) 32 0 false true → posts (.stw h wd ra imm) .store (at_ 32) 32) ∧
    (window < 2 ^ 19 → (glob a 8 8 true false → posts (.ldv h rd ra rb) .ldv a 8) ∧ (glob a 32 32 true false → posts (.ldvW h wd ra rb) .ldv a 32)) ∧
    (glob a 8 8 false true → posts (.stv h rd ra rb) .stv a 8) ∧ (glob a 32 32 false true → posts (.stvW h wd ra rb) .stv a 32) ∧
    (glob a n n true true →
      ∀ x ∈ [(Instr.atomAdd h rd ra rb sys dbl, 0), (.atomAnd h rd ra rb sys dbl, 1), (.atomOr h rd ra rb sys dbl, 2), (.atomXor h rd ra rb sys dbl, 3),
          (.atomSmin h rd ra rb sys dbl, 4), (.atomSmax h rd ra rb sys dbl, 5), (.atomSwap h rd ra rb sys dbl, 6), (.atomCas h rd ra rb sys dbl, 7)],
        posts x.1 (.atom x.2) a n) ∧
    (glob a 4 4 true true → posts (.atomFaddF32 h rd ra rb sys) (.atom 8) a 4) ∧ (glob a 8 8 true true → posts (.atomFaddF64 h rd ra rb sys) (.atom 9) a 8)

/-- The order of the checks of an access (spec 07 R180, R182): misalignment traps ALIGN before anything else; an address no place answers to traps PAGE with sub-cause 0x02; the system page traps PRIV in user mode; a store to the inbox view traps PAGE with sub-cause 0x03; each with the first offending byte in TVAL. -/
def Obligations.AccessChecksInOrder : Prop :=
  ∀ (s : State) (a n al : Nat) (rd wr : Bool) (g : GReg), 0 < n →
    (al ≠ 0 → a % al ≠ 0 → s.check a n al rd wr g = .trap ⟨0x04, 0, BitVec.ofNat 64 a⟩) ∧
    (al = 0 ∨ a % al = 0 → 2 ^ 48 ≤ a → s.check a n al rd wr g = .trap ⟨0x10, 0x02, BitVec.ofNat 64 a⟩) ∧
    (al = 0 ∨ a % al = 0 → 0x3F000 ≤ a → a + n ≤ 0x40000 → s.priv = false → s.check a n al rd wr g = .trap ⟨0x03, 0, BitVec.ofNat 64 a⟩) ∧
    (al = 0 ∨ a % al = 0 → 0x40000 ≤ a → a + n ≤ 0x41000 → s.fctx ≠ 16 → g.tag = false → s.cur.ctl.wpmask = Vector.replicate 4 0 →
      s.check a n al rd wr g = if wr then .trap ⟨0x10, 0x03, BitVec.ofNat 64 a⟩ else .ok .inbox)

/-- hmake and hnarrow build handles that hold no more than allowed; seal and unseal keep the seal table.

Handles (spec 07 R204, R205; 01 R9): hmake builds a tagged handle from a base and a template when its kind, size and alignment allow it; hnarrow gives a smaller handle inside a tagged one, with no right the old one lacks; the first check that fails traps HANDLE or ALIGN with the data of g[ra] in TVAL.

seal and unseal (spec 07 R206, R207): an entry of the core's seal table is taken for the buffer, at most 16, no two overlapping; sealing a sealed buffer again changes nothing; unseal marks the entry with the tag that its notice will carry. -/
def Obligations.HandlesAndSeals : Prop :=
  (
    ∀ (h : Hdr) (rd ra rb : BitVec 4) (s : State), s.cur.guard h = true →
      let c := s.cur
      let x := c.gv ra
      let y := c.gv rb
      let base (v : Word) : Nat := v.toNat % 2 ^ 48
      let lsz (v : Word) : Nat := v.toNat / 2 ^ 48 % 256
      let kind (v : Word) : Nat := v.toNat / 2 ^ 60
      let rights (v : Word) : BitVec 4 := v.extractLsb' 56 4
      let traps (i : Instr) (code sub : BitVec 8) : Prop := exec i s = .next (s.takeTrap ⟨code, sub, x⟩)
      let made (i : Instr) (z : Word) : Prop := exec i s = .next (s.wrote (c.setGT rd ⟨z, true⟩))
      (kind y ≠ 1 ∧ kind y ≠ 2 → traps (.hmake h rd ra rb) 0x13 0x04) ∧
      ((kind y = 1 ∨ kind y = 2) → lsz y < 6 ∨ 40 < lsz y → traps (.hmake h rd ra rb) 0x13 0x05) ∧
      ((kind y = 1 ∨ kind y = 2) → 6 ≤ lsz y → lsz y ≤ 40 → base x % 2 ^ lsz y ≠ 0 → traps (.hmake h rd ra rb) 0x04 0) ∧
      (6 ≤ lsz y → lsz y ≤ 40 → base x % 2 ^ lsz y = 0 → (kind y = 1 ∧ base x + 2 ^ lsz y ≤ 0x3F000) ∨ (kind y = 2 ∧ 0x41000 ≤ base x) →
        ∃ z, made (.hmake h rd ra rb) z ∧ base z = base x ∧ lsz z = lsz y ∧ kind z = kind y ∧ rights z = rights y) ∧
      ((c.gr ra).tag = false → traps (.hnarrow h rd ra rb) 0x13 0x03) ∧
      ((c.gr ra).tag = true → lsz y < 6 ∨ lsz x < lsz y → traps (.hnarrow h rd ra rb) 0x13 0x05) ∧
      ((c.gr ra).tag = true → 6 ≤ lsz y → lsz y ≤ lsz x → base y % 2 ^ lsz y = 0 → base y + 2 ^ lsz y ≤ 2 ^ lsz x →
        ∃ z, made (.hnarrow h rd ra rb) z ∧ base z = (base x + base y) % 2 ^ 48 ∧ lsz z = lsz y ∧ kind z = kind x ∧ rights z = rights x &&& rights y)) ∧
  (
    ∀ (h : Hdr) (ra rb : BitVec 4) (s : State), s.cur.guard h = true →
      let c := s.cur
      let g := c.gr ra
      let base : Nat := g.val.toNat % 2 ^ 48
      let lsz : Nat := g.val.toNat / 2 ^ 48 % 256
      let seals := (s.core s.fcore).seals
      let good : Prop := g.tag = true ∧ g.val.toNat / 2 ^ 60 = 1 ∧ g.val.getLsbD 57 = true
      let whole (e : Seal) : Prop := e.space = c.space ∧ e.base = base ∧ e.lsz = lsz ∧ e.unsealing = false
      let meets (e : Seal) : Prop := e.space = c.space ∧ e.base < base + 2 ^ lsz ∧ base < e.base + 2 ^ e.lsz
      (g.tag = false → exec (.seal h ra) s = .next (s.takeTrap ⟨0x13, 0x03, g.val⟩) ∧ exec (.unseal h ra rb) s = .next (s.takeTrap ⟨0x13, 0x03, g.val⟩)) ∧
      (good → (∃ e ∈ seals, whole e) → exec (.seal h ra) s = .next (s.wrote c)) ∧
      (good → (∀ e ∈ seals, ¬meets e ∧ ¬whole e) → seals.length < 16 →
        ∃ (t : State) (e : Seal), exec (.seal h ra) s = .next t ∧ (t.core s.fcore).seals = seals ++ [e] ∧ whole e ∧ t.cur = { c with fin := true } ∧ t.mem = s.mem) ∧
      (good → (∀ e ∈ seals, ¬meets e ∧ ¬whole e) → 16 ≤ seals.length → exec (.seal h ra) s = .next (s.takeTrap ⟨0x13, 0x06, g.val⟩)) ∧
      (good → (∃ e ∈ seals, whole e) → (∀ e ∈ seals, e.count ≠ 0) →
        ∃ t, exec (.unseal h ra rb) s = .next t ∧ t.cur = { c with fin := true } ∧ (t.core s.fcore).seals.length = seals.length ∧
          ∀ e ∈ (t.core s.fcore).seals, e.space = c.space → e.base = base → e.lsz = lsz → e.unsealing = true) ∧
      (good → (∀ e ∈ seals, ¬whole e) → exec (.unseal h ra rb) s = .next (s.takeTrap ⟨0x13, 0x08, g.val⟩)))

/-- Sending (spec 02 R65; 08 R213 to R218; 01 R11): a send whose arguments may travel goes into the context's send buffer behind the sends before it; it carries the four argument registers with their tags and the context's scope, its tagged arguments are swept at the boundary, and nothing leaves the core before a release; the thirty-third traps SENDOVF. Of memory only the staging of the context's send buffer changes (spec 16 R408). -/
def Obligations.SendsAreBuffered : Prop :=
  ∀ (h : Hdr) (ra rb rc : BitVec 4) (prio : BitVec 2) (rl merge : Bool) (s : State), s.cur.guard h = true →
    let c := s.cur
    let dst : BitVec 24 := (c.gv ra).truncate 24
    let addr : BitVec 32 := (c.gv rb).truncate 32
    let args : Vector GReg 4 := #v[c.gr rc, c.gr (rc + 1), c.gr (rc + 2), c.gr (rc + 3)]
    let desc := c.gr (rc + 4)
    let buffersWith (args : Vector GReg 4) (i : Instr) (kind : MKind) (payload : List Byte) (code : List (BitVec 32)) : Prop :=
      ∃ (t : State) (m : Msg), exec i s = .next t ∧ t.cur.sends = c.sends ++ [.msg m] ∧ m.dest = dst ∧ m.addr = addr ∧ m.kind = kind ∧ m.prio = prio ∧
        m.relord = rl ∧ m.args = args ∧ m.payload = payload ∧ m.code = code ∧ m.scope = c.ctl.cur ∧ m.sctx = s.fctx ∧ t.fab.msgs = s.fab.msgs ∧
        s.onlyStaged t ∧ t.cur.g = c.g ∧ t.cur.preds = c.preds ∧ t.cur.w = c.w ∧ t.cur.ctl = c.ctl
    let buffers := buffersWith args
    -- PHYS, bit 23 of the second argument of a memory operation, is always sent as 0 (spec 07 R210)
    let noPhys : Vector GReg 4 := #v[args[0], ⟨args[1].val &&& ~~~0x800000#64, args[1].tag⟩, args[2], args[3]]
    argTrap (s.rankOf s.fcore) dst rc.toNat args.toList = none →
    (c.sends.length < 32 → (c.gv ra).getLsbD 24 = false → 0x400 ≤ addr.toNat →
      buffers (.send h ra rb rc prio rl merge) .spawn [] [] ∧
      (∀ bs, s.descriptor desc 32 = .ok bs → buffers (.sendp h ra rb rc prio rl) .spawn bs []) ∧
      (∀ bs, s.descriptor desc 4 = .ok bs → buffers (.sendc h ra rb rc prio rl) .spawn [] (wordsOf (bs.length / 4) bs))) ∧
    (c.sends.length < 32 → (c.gv ra).getLsbD 24 = false →
      (addr.toNat < 0x300 → buffersWith noPhys (.send h ra rb rc prio rl merge) .builtin [] []) ∧
      (s.priv = true → 0x300 ≤ addr.toNat → addr.toNat ≤ 0x3FC → buffers (.send h ra rb rc prio rl merge) .builtin [] [])) ∧
    (c.sends.length < 32 → (c.gv ra).getLsbD 24 = true → buffers (.send h ra rb rc prio rl merge) .resume [] []) ∧
    (32 ≤ c.sends.length → (c.gv ra).getLsbD 24 = true → exec (.send h ra rb rc prio rl merge) s = .next (s.takeTrap ⟨0x20, 0, 0⟩)) ∧
    (s.priv = false → (c.gv ra).getLsbD 24 = false → 0x300 ≤ addr.toNat → addr.toNat ≤ 0x3FC →
      exec (.send h ra rb rc prio rl merge) s = .next (s.takeTrap ⟨0x03, 0, 0⟩))

/-- rel hands the sends over, end frees the context, recv takes the earliest fitting resume or waits.

Releasing and ending (spec 02 R65; 08 R222, R223): rel hands the buffered sends to the interface, leaves the buffer empty and sets RELD; end releases as well and leaves the context FREE with no message held and no latch live.

recv (spec 08 R225, R226; 02 R64): the context releases its sends; where a queued resume satisfies the filter, the earliest one is consumed: its four arguments go to g0 to g3 with their tags and its status word to the destination; else the context becomes WAITING with the filter. -/
def Obligations.ReleaseEndReceive : Prop :=
  (
    ∀ (h : Hdr) (s : State), s.cur.guard h = true → s.fctx < 14 → s.canRelease s.fcore s.fctx = true →
      (∃ t, exec (.rel h) s = .next t ∧ t.cur.sends = [] ∧ t.cur.ctl = { s.cur.ctl with reld := true } ∧ t.cur.g = s.cur.g ∧ t.cur.preds = s.cur.preds ∧
        t.cur.w = s.cur.w ∧ t.cur.toks = s.cur.toks ∧ t.cur.fin = true ∧ t.mem = s.mem) ∧
      (∃ t, exec (.endCtx h) s = .next t ∧ t.cur.st = .free ∧ t.cur.sends = [] ∧ t.cur.held = none ∧ t.cur.latches = [] ∧ t.mem = s.mem)) ∧
  (
    ∀ (h : Hdr) (rd ra rb : BitVec 4) (s : State), s.cur.guard h = true → s.fctx < 14 → s.canRelease s.fcore s.fctx = true → s.cur.sends = [] →
      s.cur.pendMts = [] → s.cur.sweep = [] →
      let c := s.cur
      let fits (m : Msg) : Prop := m.kind = .resume ∧ (m.addr ^^^ (c.gv ra).truncate 32) &&& (c.gv rb).truncate 32 = 0 ∧
        (localOf m.dest < 768 ∨ c.trank = some m.dest)
      let box := (s.core s.fcore).mailbox
      ((∀ m ∈ box, ¬fits m) →
        ∃ t, exec (.recv h rd ra rb) s = .next t ∧ t.cur.st = .waiting ∧ t.cur.recv = ⟨(c.gv ra).truncate 32, (c.gv rb).truncate 32, rd⟩ ∧
          ((∀ l ∈ c.latches, l.rem ≤ 16) → t.cur.latches = []) ∧ (t.core s.fcore).mailbox = box ∧ t.mem = s.mem) ∧
      (∀ p m q, box = p ++ m :: q → (∀ x ∈ p, ¬fits x) → fits m →
        ∃ t, exec (.recv h rd ra rb) s = .next t ∧ t.cur.st = c.st ∧ t.cur.held = some m ∧ t.cur.fin = true ∧
          t.cur.gv rd = BitVec.ofNat 64 (m.addr.toNat * 2 ^ 32 + m.srclr.toNat * 2 ^ 20 + m.plen.toNat * 2 ^ 8 + m.ilen.toNat) ∧
          (∀ (k : Fin 4) (r : BitVec 4), r.toNat = k.val → r ≠ rd → t.cur.gr r = m.args[k]) ∧
          (∀ r : BitVec 4, 4 ≤ r.toNat → r ≠ rd → t.cur.gr r = c.gr r) ∧ t.mem = s.mem))

/-- Named barriers (spec 01 R43; 08 R228 to R232): barm arms one with no arrival and the identity of its operation; bara on a node that others have still to reach counts the arrival, combines its value and answers the generation; barw waits for the generation it names; barq reads the node. Each writes its status word to g[rd]; on an unarmed node it says so. -/
def Obligations.BarrierWords : Prop :=
  ∀ (h : Hdr) (rd ra rb : BitVec 4) (bar : BitVec 6) (s : State), s.cur.guard h = true →
    let c := s.cur
    let a := c.gv ra
    let b := s.bar s.fcore bar.toNat
    let completes (i : Instr) (v : Nat) (p : State → Prop) : Prop := ∃ t, exec i s = .next t ∧ t.cur = { c.setG rd (BitVec.ofNat 64 v) with fin := true } ∧ t.mem = s.mem ∧ p t
    let node (t : State) : Barrier := t.bar s.fcore bar.toNat
    let g := b.gen.toNat
    (a.toNat % 65536 = 0 → completes (.barm h rd ra rb bar) (g + 2 ^ 19) fun t => node t = b) ∧
    (a.toNat % 65536 ≠ 0 → (c.gv rb).getLsbD 63 = false → b.waiters = [] →
      completes (.barm h rd ra rb bar) ((g + 1) % 65536) fun t =>
        (node t).armed = true ∧ (node t).parts = a.truncate 16 ∧ (node t).arrived = 0 ∧ (node t).op = a.extractLsb' 16 2 ∧ (node t).gen = b.gen + 1 ∧
        (node t).broken = false ∧ (node t).link = none ∧ (node t).acc = (if (a.extractLsb' 16 2 : BitVec 2) = 0 then BitVec.allOnes 64 else 0)) ∧
    (b.armed = false → completes (.bara h rd ra rb bar) (g + 2 ^ 17) (fun t => node t = b) ∧ completes (.barw h rd ra rb bar) (g + 2 ^ 17) fun t => node t = b) ∧
    (b.armed = true → b.broken = false → b.waitsParent = false → b.arrived + 1 ≠ b.parts →
      completes (.bara h rd ra rb bar) g fun t => (node t).arrived = b.arrived + 1 ∧ (node t).acc = barCombine b.op b.acc a ∧ (node t).gen = b.gen) ∧
    (b.armed = true → b.broken = false → b.waitsParent = false → b.arrived + 1 = b.parts → b.link = none →
      completes (.bara h rd ra rb bar) g fun t => (node t).arrived = 0 ∧ (node t).gen = b.gen + 1 ∧ (node t).waiters = []) ∧
    (b.armed = true → b.broken = false → (a.truncate 16 : BitVec 16) ≠ b.gen → completes (.barw h rd ra rb bar) (g + 2 ^ 18) fun t => node t = b) ∧
    (b.armed = true → b.broken = false → (a.truncate 16 : BitVec 16) = b.gen →
      completes (.barw h rd ra rb bar) g fun t => ⟨s.fctx, (c.gv rb).truncate 32, c.ctl.cur⟩ ∈ (node t).waiters) ∧
    completes (.barq h rd ra rb bar) (b.arrived.toNat + g * 2 ^ 16 + b.parts.toNat * 2 ^ 32 + b.armed.toNat * 2 ^ 48 + b.broken.toNat * 2 ^ 49 + b.op.toNat * 2 ^ 50)
      fun t => node t = b

/-- Scope words (spec 08 R234 to R238): scnew asks the scope unit for a child of SCOPE.CUR, which must be LIVE, and scstat for a field of a scope, each holding its context until the unit replies; resume is of system mode and is a buffered built-in to 0x0310; prune of a LIVE scope of the subtree acts at issue, setting the scope DYING and its token PENDING. -/
def Obligations.ScopeWords : Prop :=
  ∀ (h : Hdr) (rd rx ra rb : BitVec 4) (tk : BitVec 3) (s : State), s.cur.guard h = true →
    let c := s.cur
    let asks (i : Instr) (isNew : Bool) (scope : BitVec 16) : Prop :=
      ∃ (t : State) (q : ScopeReq), exec i s = .next t ∧ t.cur = { c with hold := .scopeUnit rd s.nextNo } ∧ t.scopeReqs = s.scopeReqs ++ [q] ∧
        q.no = s.nextNo ∧ q.isNew = isNew ∧ q.scope = scope ∧ q.core = s.fcore ∧ q.ctx = s.fctx ∧ t.agenda = s.agenda ++ [(.scopeRequest, { a := s.nextNo })] ∧ t.mem = s.mem
    let id : BitVec 16 := (c.gv ra).truncate 16
    ((s.scope s.curPart c.ctl.cur).st = .live → asks (.scnew h rd ra rb) true c.ctl.cur) ∧
    ((s.scope s.curPart c.ctl.cur).st ≠ .live → exec (.scnew h rd ra rb) s = .next (s.takeTrap ⟨0x23, 0, c.ctl.cur.zeroExtend 64⟩)) ∧
    asks (.scstat h rd ra rb) false id ∧
    (s.priv = false → exec (.resumeW h rx ra rb) s = .next (s.takeTrap ⟨0x03, 0, 0⟩)) ∧
    (s.priv = true → c.sends.length < 32 →
      ∃ (t : State) (m : Msg), exec (.resumeW h rx ra rb) s = .next t ∧ t.cur.sends = c.sends ++ [.msg m] ∧ m.kind = .builtin ∧ m.addr = 0x310 ∧
        m.dest = (c.gv ra).truncate 24 ∧ m.arg 0 = c.gv ra ∧ m.arg 1 = c.gv rb ∧ t.cur.g = c.g ∧ s.onlyStaged t) ∧
    (s.priv = false → id = 0 ∨ s.inScope s.curPart c.ctl.base id = false → exec (.prune h tk ra rb) s = .next (s.takeTrap ⟨0x03, 0, c.gv ra⟩)) ∧
    (s.priv = true → (s.scope s.curPart id).st = .free → exec (.prune h tk ra rb) s = .next (s.takeTrap ⟨0x23, 0, c.gv ra⟩)) ∧
    (s.priv = true ∨ (id ≠ 0 ∧ s.inScope s.curPart c.ctl.base id = true) → (s.scope s.curPart id).st = .live →
      ∃ t, exec (.prune h tk ra rb) s = .next t ∧ t.cur = { c.setTok tk ⟨.pending, s.nextNo⟩ with fin := true } ∧ (t.scope s.curPart id).st = .dying ∧ t.mem = s.mem)

/-- callat and migrate (spec 02 R69 to R71; 08 R220, R227): a window address names its core at once, a local address the own core; callat buffers a spawn whose payload is the caller's rank and RTAG; migrate to the own core moves nothing. A global address is translated first. -/
def Obligations.CallatAndMigrate : Prop :=
  ∀ (h : Hdr) (ra rb rc : BitVec 4) (prio : BitVec 2) (rl : Bool) (s : State), s.cur.guard h = true → s.fctx < 14 →
    let c := s.cur
    let a : Nat := (ea (c.gr ra) 0).toNat
    let me := s.rankOf s.fcore
    let args : Vector GReg 4 := #v[c.gr rc, c.gr (rc + 1), c.gr (rc + 2), c.gr (rc + 3)]
    s.nameCheck (c.gr ra) a = none →
    (a < 0x3F000 → argTrap me me rc.toNat args.toList = none → c.sends.length < 32 →
      ∃ (t : State) (m : Msg), exec (.callat h ra rb rc prio rl) s = .next t ∧ t.cur.sends = c.sends ++ [.msg m] ∧ m.dest = me ∧ m.kind = .spawn ∧
        m.addr = (c.gv rb).truncate 32 ∧ m.args = args ∧ m.prio = prio ∧ m.payload.take 16 = leBytes 8 me.toNat ++ leBytes 8 c.ctl.rtag.toNat ∧
        t.cur.g = c.g ∧ s.onlyStaged t) ∧
    (2 ^ 18 * 2 ^ 25 ≤ a → a < 2 ^ 48 →
      ∃ (t : State) (r : Req), exec (.callat h ra rb rc prio rl) s = .next t ∧ t.cur = { c with hold := .access s.nextNo } ∧ t.req s.nextNo = some r ∧
        r.kind = .callat ∧ r.va = a ∧ t.agenda = s.agenda ++ [(.translationRequest, { a := s.nextNo })] ∧ t.mem = s.mem) ∧
    (moveTrap s.fctx c = none →
      (a < 0x3F000 → exec (.migrate h ra) s = .next (s.wrote c)) ∧
      (2 ^ 18 * 2 ^ 25 ≤ a → a < 2 ^ 48 →
        ∃ (t : State) (r : Req), exec (.migrate h ra) s = .next t ∧ t.cur = { c with hold := .access s.nextNo } ∧ t.req s.nextNo = some r ∧ r.kind = .migrate ∧ r.va = a)) ∧
    (c.toks.toList.any (fun x => x.st == .pending) = true → exec (.migrate h ra) s = .next (s.takeTrap ⟨0x22, 0x01, 0⟩))

/-- Engine words buffer their command and make their token PENDING; walker words act on the walk of their core.

Engine words (spec 09 R242, R246, R247): the command block is read at issue; the command goes into the send buffer behind the sends before it and starts only when it is released; the token register becomes PENDING on the new operation.

Walker words (spec 09 R256): they act on the walk that runs on the core, from its kernel. dedup answers the slot of an id in the window and counts a hit; emit takes the next slot and asks for the row; an id of all ones is empty; slot stores the low 32 bits at its place in the map. -/
def Obligations.EngineAndWalkerWords : Prop :=
  (
    ∀ (h : Hdr) (tkd tka tkb tkc : BitVec 3) (cb : BitVec 4) (s : State), s.cur.guard h = true →
      let c := s.cur
      let a : Nat := (ea (c.gr cb) 0).toNat
      ∀ x ∈ [(Instr.copy h tkd tka tkb tkc cb, Engine.copy, 64), (.copys h tkd tka tkb tkc cb, .copys, 64), (.walk h tkd tka tkb tkc cb, .walk, 96),
          (.dispatch h tkd tka tkb tkc cb, .dispatch, 64), (.combine h tkd tka tkb tkc cb, .combine, 64), (.djob h tkd tka tkb tkc cb, .djob, 32)],
        (a % 32 ≠ 0 → exec x.1 s = .next (s.takeTrap ⟨0x04, 0, BitVec.ofNat 64 a⟩)) ∧
        (a % 32 = 0 → a + x.2.2 ≤ 0x41000 → ∀ bs, s.readDesc (c.gr cb) a x.2.2 = .ok bs →
          (32 ≤ c.sends.length → exec x.1 s = .next (s.takeTrap ⟨0x20, 0, 0⟩)) ∧
          (c.sends.length < 32 → ∃ (t : State) (o : Op), exec x.1 s = .next t ∧ t.op s.nextNo = some o ∧ o.engine = x.2.1 ∧ o.block = bs ∧ o.ph = .buffered ∧
            o.scope = c.ctl.cur ∧ o.core = s.fcore ∧ o.ctx = s.fctx ∧ t.cur.sends = c.sends ++ [.cmd ⟨s.nextNo⟩] ∧
            t.cur.toks = (c.setTok tkd ⟨.pending, s.nextNo⟩).toks ∧ t.cur.g = c.g ∧ t.agenda = s.agenda ∧ s.onlyStaged t))) ∧
  (
    ∀ (h : Hdr) (rd ra rb : BitVec 4) (o : Op) (s : State), s.cur.guard h = true → s.fctx = 16 → s.walkOp s.fcore = some o →
      let c := s.cur
      let x : Nat := (c.gv ra).toNat % 2 ^ o.idWidth
      let w := (s.core s.fcore).iw
      let d : Etd := w.desc
      (x = 2 ^ o.idWidth - 1 → ∀ i ∈ [Instr.dedup h rd ra, .emit h rd ra], exec i s = .next (s.wrote (c.setG rd (BitVec.allOnes 64)))) ∧
      (x ≠ 2 ^ o.idWidth - 1 → (∀ y ∈ w.window, y.1 ≠ x) → exec (.dedup h rd ra) s = .next (s.wrote (c.setG rd 0x8000000000000000))) ∧
      (x ≠ 2 ^ o.idWidth - 1 → ∀ p n q, w.window = p ++ (x, n) :: q → (∀ y ∈ p, y.1 ≠ x) →
        ∃ t, exec (.dedup h rd ra) s = .next t ∧ t.cur = { c.setG rd (BitVec.ofNat 64 n) with fin := true } ∧ (t.core s.fcore).iw.hits = w.hits + 1) ∧
      (x ≠ 2 ^ o.idWidth - 1 → x < d.rows → w.counter < o.nslot →
        ∃ t, exec (.emit h rd ra) s = .next t ∧ t.cur = { c.setG rd (BitVec.ofNat 64 w.counter) with fin := true } ∧ (t.core s.fcore).iw.counter = w.counter + 1 ∧
          (t.core s.fcore).iw.emitted = w.emitted + 1 ∧ (t.core s.fcore).iw.window = ((x, w.counter) :: w.window).take 256 ∧ t.mem = s.mem) ∧
      ((c.gv ra).toNat < o.nidx → s.check (o.map + 4 * (c.gv ra).toNat) 4 0 false true {} = .ok .tile →
        ∃ t, exec (.slot h ra rb) s = .next t ∧ t.cur = { c with fin := true } ∧
          let pa (j : Nat) : Nat := tilePa s.fcore c.space (tileOff (o.map + 4 * (c.gv ra).toNat) + j)
          (∀ j < 4, memGet t.mem (pa j) = (c.gv rb).extractLsb' (8 * j) 8) ∧ ∀ y, (∀ j < 4, y ≠ pa j) → memGet t.mem y = memGet s.mem y))

/-- Row words (spec 06 R174 to R177): with SHAPE valid and every operand passing the checks of R175 over all its beats, a word that finds the row unit free performs its first beat as it issues: it reads 32 bytes of each source and writes the beat of its results at its destination, bytes outside of which read as before, and is held in the row unit, which performs the other beats as events; one that finds the unit busy queues behind the others. rowcpy and rowzero, and the elementwise words while no exception is enabled. -/
def Obligations.RowWordsOneBeat : Prop :=
  ∀ (h : Hdr) (rd ra rb : BitVec 4) (vt : VTy) (t : ETy) (s : State), s.cur.guard h = true → s.cur.ctl.shapeTy = .ok t → s.cur.ctl.enables = 0 →
    let c := s.cur
    let u : ETy := match vt with | .shape => t | .of x => x
    let md := c.ctl.mode
    let B : Nat := c.ctl.beats
    let at_ (r : BitVec 4) : Nat := (ea (c.gr r) 0).toNat
    let pa (j : Nat) : Nat := tilePa s.fcore c.space (at_ rd + j)
    let lane (w : Nat) (r : BitVec 4) (k : Nat) : Nat := leNat (s.tileRd s.fcore c.space (at_ r + w * k) w)
    let ok (l : List RowOpnd) : Prop := s.rowCheck l = .ok .tile ∧ ∀ o ∈ l, o.rd = true → ∀ j < 32, tilePa s.fcore c.space (o.a + j) / 64 ∉ s.poison
    let d : RowOpnd := ⟨c.gr rd, at_ rd, 32 * B, false, true⟩
    let a : RowOpnd := ⟨c.gr ra, at_ ra, 32 * B, true, false⟩
    let b : RowOpnd := ⟨c.gr rb, at_ rb, 32 * B, true, false⟩
    let runs (i : Instr) (n : Nat) (byte : Nat → Byte) : Prop :=
      ∃ x, exec i s = .next x ∧ x.cur.g = c.g ∧ x.cur.preds = c.preds ∧ x.cur.w = c.w ∧ (x.core s.fcore).rowQ = (s.core s.fcore).rowQ ++ [s.fctx] ∧
        ((s.core s.fcore).rowQ = [] → x.cur.hold = .row i 1 ∧ x.agenda = s.agenda ++ [(.rowWordComplete, { a := s.fcore })] ∧
          (∀ j < n, memGet x.mem (pa j) = byte j) ∧ ∀ y, (∀ j < n, y ≠ pa j) → memGet x.mem y = memGet s.mem y) ∧
        ((s.core s.fcore).rowQ ≠ [] → x.cur.hold = .row i 0 ∧ x.agenda = s.agenda ∧ x.mem = s.mem)
    let each (f : Nat → Nat) (j : Nat) : Byte := BitVec.ofNat 8 (f (j / u.bytes) / 256 ^ (j % u.bytes))
    (ok [d, a] → runs (.rowcpy h rd ra vt) 32 fun j => memGet s.mem (tilePa s.fcore c.space (at_ ra + j))) ∧
    (ok [d] → runs (.rowzero h rd vt) 32 fun _ => 0) ∧
    (ok [d, a, b] → runs (.rowadd h rd ra rb vt) 32 (each fun k => (laneAdd u md (lane u.bytes ra k) (lane u.bytes rb k)).1) ∧
      runs (.rowmul h rd ra rb vt) 32 (each fun k => (laneMul u md (lane u.bytes ra k) (lane u.bytes rb k)).1) ∧
      runs (.rowmax h rd ra rb vt) 32 (each fun k => (laneMinMax true u md (lane u.bytes ra k) (lane u.bytes rb k)).1)) ∧
    (ok [{ d with rd := true }, a] →
      runs (.rowaxpy h rd ra rb vt) 32
        (each fun k => (laneFma false u md ((c.gv rb).toNat % 2 ^ (8 * u.bytes)) (lane u.bytes ra k) (lane u.bytes rd k)).1)) ∧
    (ok [{ d with len := 32 * B / t.bytes * u.bytes }, a] → runs (.rowcvt h rd ra vt) (32 / t.bytes * u.bytes) (each fun k =>
      (((convertLanes t u md c.ctl.sr c.ctl.lfsr ((List.range (32 / t.bytes)).map (lane t.bytes ra))).1[k]?).getD (0, 0)).1))

/-- A fence holds its context until the accesses it orders are done; l1inv drops and l1pf fills lines of a range.

Fences (spec 07 R200 to R202): the context waits on its fence and nothing else changes; an acquire fence, or one with nothing to wait for, completes as the next event; where LINKWAIT is 0, a fence of all modules that meets a link that is down does not wait for it (spec 01 R25).

L1 range words (spec 07 R187, R203): l1inv drops the lines of its range from the core's L1 and keeps the rest; l1pf asks for fills of the absent lines and changes no register and no byte. -/
def Obligations.FencesAndRanges : Prop :=
  (
    ∀ (h : Hdr) (rd ra rb : BitVec 4) (s : State), s.cur.guard h = true →
      let c := s.cur
      let n : Nat := if (c.gr ra).tag = true ∧ c.gv rb = 0 then handleSize (c.gv ra) else (c.gv rb).toNat
      let lo : Nat := if n = 0 then 0 else (c.gv ra).toNat % 2 ^ 48
      let hi : Nat := if n = 0 then 2 ^ 48 else min (lo + n) (2 ^ 48)
      ∀ x ∈ [(Instr.fenceAcq h ra rb, (0 : BitVec 2), false, (0 : BitVec 4)), (.fenceRel h ra rb, 1, false, 0), (.fenceFull h ra rb, 2, false, 0), (.fenceX h ra rb, 3, false, 0),
          (.fenceAcqSys h rd ra rb, 0, true, rd), (.fenceRelSys h rd ra rb, 1, true, rd), (.fenceFullSys h rd ra rb, 2, true, rd), (.fenceXSys h rd ra rb, 3, true, rd)],
        let held := s.setCur { c with hold := .fence x.2.1 x.2.2.1 x.2.2.2 lo hi }
        let done : Prop := exec x.1 s = .next { held with agenda := s.agenda ++ [(.fenceComplete, { a := s.fcore, b := s.fctx })] }
        (x.2.1 = 0 → done) ∧
        (x.2.1 ≠ 0 → held.uncovered s.fcore s.fctx x.2.2.1 lo hi = [] → done) ∧
        (x.2.1 ≠ 0 → held.uncovered s.fcore s.fctx x.2.2.1 lo hi ≠ [] → ∃ t, exec x.1 s = .next t ∧ t.ctxs = held.ctxs ∧ t.mem = s.mem ∧
          let noLink : Prop := x.2.2.1 = true ∧ c.ctl.linkwait = 0 ∧ ∀ i < 8, (s.port i).st ≠ .up
          (noLink → t.agenda = s.agenda ++ [(.linkwaitExpiry, { a := s.fcore, b := s.fctx })]) ∧ (¬noLink → t.agenda = s.agenda))) ∧
  (
    ∀ (h : Hdr) (ra rb : BitVec 4) (s : State), s.cur.guard h = true →
      let c := s.cur
      let n : Nat := (c.gv rb).toNat
      let lo : Nat := (c.gv ra).toNat % 2 ^ 48
      ((c.gr ra).tag = false → 0 < n → ∃ t, exec (.l1inv h ra rb) s = .next t ∧ t.cur = { c with fin := true } ∧ t.mem = s.mem ∧
        ∀ l, l ∈ (t.core s.fcore).l1 ↔ l ∈ (s.core s.fcore).l1 ∧ ¬(lo < l.line * 64 + 64 ∧ l.line * 64 < min (lo + n) (2 ^ 48))) ∧
      (∃ t, exec (.l1pf h ra rb) s = .next t ∧ t.cur = { c with fin := true } ∧ t.mem = s.mem ∧ (t.core s.fcore).l1 = (s.core s.fcore).l1) ∧
      ((c.gr ra).tag = false → n = 0 → exec (.l1pf h ra rb) s = .next (s.wrote c)))

/-- aacc sends the row to the home of its target, reclaim raises the floor of a region, close asks the homes of a table.

Row accumulation (spec 07 R197): the descriptor is read first, then, with both operands passing their checks, the contribution leaves for the home of its target as one posted access, carrying the row's bytes as they stand at issue.

reclaim and close (spec 07 R193, R209; 12 R329; 13 R344): reclaim raises the floor of a banked versioned region, sends it to every home of the partition and waits for them; it traps REGION elsewhere. close reads its descriptor first, and then, with none of its context's contributions to the table under way, waits for the homes of its table. -/
def Obligations.AccumulateReclaimClose : Prop :=
  (
    ∀ (h : Hdr) (rd ra rb : BitVec 4) (s : State), s.cur.guard h = true → s.fctx ≠ 16 →
      let c := s.cur
      let et : Nat := (ea (c.gr rb) 0).toNat
      let ca : Nat := (ea (c.gr rd) 0).toNat
      let ta : Nat := (ea (c.gr ra) 0).toNat
      ∀ x ∈ [(Instr.aacc h rd ra rb, AKind.aacc), (.aaccL h rd ra rb, .aaccL)],
        (et % 64 ≠ 0 → exec x.1 s = .next (s.takeTrap ⟨0x04, 0, BitVec.ofNat 64 et⟩)) ∧
        (et % 64 = 0 → s.fetched et 64 = none → placeOf false (s.rankOf s.fcore) et = some .global →
          ∃ (t : State) (r : Req), exec x.1 s = .next t ∧ t.cur = { c with hold := .access s.nextNo } ∧ t.req s.nextNo = some r ∧ r.fetch = true ∧ r.va = et ∧ r.len = 64) ∧
        (∀ q, et % 64 = 0 → s.fetched et 64 = some q → Etd.rejected (leNat q.result) (s.regionSt s.curPart ta == 4) = false →
          s.check ca (Etd.len (leNat q.result)) 32 true false (c.gr rd) = .ok .tile →
          s.tilePoison s.fcore c.space (tileOff ca) (Etd.len (leNat q.result)) = none → ta % 65536 + Etd.len (leNat q.result) ≤ 65536 →
          s.check ta (Etd.len (leNat q.result)) 32 false true (c.gr ra) true = .ok .global →
          ∃ (t : State) (r : Req), exec x.1 s = .next t ∧ t.cur = { c with hold := .access s.nextNo } ∧ t.req s.nextNo = some r ∧ r.kind = x.2 ∧ r.va = ta ∧
            r.data = s.tileRd s.fcore c.space (tileOff ca) (Etd.len (leNat q.result)) ∧ r.etd = et ∧ t.mem = s.mem) ∧
        (∀ q, et % 64 = 0 → s.fetched et 64 = some q → Etd.rejected (leNat q.result) (s.regionSt s.curPart ta == 4) = true →
          exec x.1 s = .next (s.dropFetched.takeTrap ⟨0x11, 0x04, BitVec.ofNat 64 et⟩))) ∧
  (
    ∀ (h : Hdr) (rd ra rb : BitVec 4) (s : State), s.cur.guard h = true → s.fctx ≠ 16 →
      let c := s.cur
      let a : Nat := (ea (c.gr ra) 0).toNat
      (placeOf false (s.rankOf s.fcore) a ≠ some .global → exec (.reclaim h ra rb) s = .next (s.takeTrap ⟨0x10, 0x02, BitVec.ofNat 64 a⟩)) ∧
      (∀ e i r, placeOf false (s.rankOf s.fcore) a = some .global → s.xlHit s.curPart a = some e → s.region s.curPart a = some (i, r) → e.mod = s.modid →
        (r.st ≠ 4 → exec (.reclaim h ra rb) s = .next (s.takeTrap ⟨0x11, 0x02, BitVec.ofNat 64 a⟩)) ∧
        (r.st = 4 → r.banked = false → exec (.reclaim h ra rb) s = .next (s.takeTrap ⟨0x11, 0x03, BitVec.ofNat 64 a⟩)) ∧
        (r.st = 4 → r.banked = true →
          let f : BitVec 20 := (c.gv rb).truncate 20
          let homes := partCores (s.part s.curPart)
          ∃ t, exec (.reclaim h ra rb) s = .next t ∧ t.cur = { c with hold := .reclaim homes.length } ∧ t.mem = s.mem ∧
            (∃ r', tget (t.part s.curPart).regions i = some r' ∧ r'.floor = if safter f r.floor then f else r.floor) ∧
            (t.agenda.drop s.agenda.length).map (fun x => (x.1, x.2.c)) = homes.map fun k => (Instr.reclaimFloorNotice, k))) ∧
      (a % 64 ≠ 0 → exec (.closeStep h rd ra rb) s = .next (s.takeTrap ⟨0x04, 0, BitVec.ofNat 64 a⟩)) ∧
      (∀ q, a % 64 = 0 → s.fetched a 64 = some q → Etd.rejected (leNat q.result) false = true →
        exec (.closeStep h rd ra rb) s = .next (s.dropFetched.takeTrap ⟨0x11, 0x04, BitVec.ofNat 64 a⟩)) ∧
      (∀ q e, a % 64 = 0 → s.fetched a 64 = some q → Etd.rejected (leNat q.result) false = false → Etd.hlist (leNat q.result) = 0 →
        s.xlHit s.curPart (Etd.base (leNat q.result)) = some e → e.mod = s.modid →
        let home := homeOf (e.pa (Etd.base (leNat q.result)))
        home < 768 → (s.part s.curPart).hedges.contains (home / 8) = true →
        s.contributes a = false →
        ∃ t n, exec (.closeStep h rd ra rb) s = .next t ∧ t.cur = { c with hold := .close rd n [s.rankOf home] 0 false } ∧ t.mem = s.mem) ∧
      (a % 64 = 0 → s.fetched a 64 = none → placeOf false (s.rankOf s.fcore) a = some .global →
        ∃ (t : State) (r : Req), exec (.closeStep h rd ra rb) s = .next t ∧ t.cur = { c with hold := .access s.nextNo } ∧ t.req s.nextNo = some r ∧
          r.fetch = true ∧ r.va = a ∧ r.len = 64))

/-- trap, break, halt and eret check the mode (spec 09 R264, R265, R266, R268): trap k stops with cause k in system mode and PRIV in user mode, break k with BREAK and sub-cause k in both, halt and eret are of system mode; halt with no wake event pending leaves the context halted, and with one goes on. eret of a context that is neither STOPPED nor SAVED traps ILLEGAL 0x03. -/
def Obligations.SystemWordsCheckMode : Prop :=
  ∀ (h : Hdr) (k : BitVec 8) (ra : BitVec 4) (s : State), s.cur.guard h = true →
    let c := s.cur
    let priv : Prop := s.priv = false
    let n : Nat := (c.gv ra).toNat % 16
    exec (.trap h k) s = .next (s.takeTrap (if s.priv then ⟨k, 0, 0⟩ else ⟨0x03, 0, 0⟩)) ∧
    exec (.breakTrap h k) s = .next (s.takeTrap ⟨0x40, k, 0⟩) ∧
    (priv → exec (.halt h) s = .next (s.takeTrap ⟨0x03, 0, 0⟩) ∧ exec (.eret h ra) s = .next (s.takeTrap ⟨0x03, 0, 0⟩)) ∧
    (¬priv → s.wakePending s.fcore s.fctx = false → exec (.halt h) s = .next (s.wrote { c with hold := .halted })) ∧
    (¬priv → s.wakePending s.fcore s.fctx = true → exec (.halt h) s = .next (s.wrote c)) ∧
    (¬priv → 14 ≤ n ∨ ((s.ctx s.fcore n).st ≠ .stopped ∧ (s.ctx s.fcore n).st ≠ .saved) → exec (.eret h ra) s = .next (s.takeTrap ⟨0x01, 0x03, c.gv ra⟩)) ∧
    (¬priv → n < 14 → (s.ctx s.fcore n).st = .stopped → s.frameHandler s.fcore n = true → exec (.eret h ra) s = .next (s.takeTrap ⟨0x01, 0x04, c.gv ra⟩))

/-- Words of the spec's own programs decode to the instructions they stand for (spec 03 R81, R90, R91, R103; 19 to 21). -/
def Obligations.DecodeSamples : Prop :=
  let h : Hdr := ⟨false, false, 0⟩
  let e : Hdr := ⟨true, false, 0⟩
  ∀ x ∈ [((0x00224600 : Nat), Instr.add h 1 2 3), (0x00530100, .addi h 9 8 0x100), (0x80423FFF, .addi e 1 1 0x1FFF), (0x00DBA01F, .slli h 13 13 31),
      (0x80E20092, .lui e 1 0x92), (0x00222204, .xorR h 1 1 1), (0x00240013, .mov h 2 0), (0x81E04003, .loopW e 2 3),
      (0x8208B402, .ld e 4 5 .b4 true 2), (0x8254B800, .ldNc e 10 5 .b8 false 0), (0x82DB9646, .atomSwap e 13 12 11 false true),
      (0x85F4001F, .rowzero e 10 .shape), (0x05081009, .vadd h 2 0 1 (.of .f32)), (0x852C1409, .vfma e 3 0 1 2 (.of .f32)),
      (0x83013803, .fenceX e 9 12), (0x86D95000, .barm e 12 10 8 0), (0x86ED9000, .scnew e 6 12 8), (0x86E48A02, .prune e 2 4 5),
      (0x867AFE00, .recv e 13 7 15), (0x86134000, .send e 9 10 0 0 false false), (0x87050080, .copy e 1 2 0 0 4),
      (0x878C0803, .mts e 6 4), (0x86800000, .endCtx e), (0x86800001, .rel e), (0xD1800008, .br ⟨true, true, 2⟩ 8)],
    decodeTableWord 32 x.1 = some x.2

/-- Every well-formed instruction that has a word decodes from it to itself, by the decoder of L-code or of its D-code slot, with every operand at every value its encoding admits (spec 03 R81, R90, R91, R94, R95). -/
def Obligations.EncodeDecode : Prop := ∀ i, Laws.Encoding.Statement i

/-- A step is exec of the event that is due, or of the decoded word of its slot with its settling.

An event that has come due is performed when it is its turn: step takes the oldest out of the agenda and is exec of it. Whose turn it is, where an agent could also move, is a free value (log entry 3).

With no event due, a step of a context inside a group is exec of the word in its slot, as decoded, and then the word's settling: the next slot, or the boundary of the group (spec 02 R63; 03 R84, R85). exec finds npc at the word behind.

A step of a context between groups fetches and checks the whole group, and is exec of its first word where no slot is suppressed, no latch is live and no kill or preemption is due (spec 02 R63; 03 R84 to R89; 16 R402, R403). -/
def Obligations.StepRunsDecodedInstruction : Prop :=
  (
    ∀ (s : State) (i : Instr) (o : Occ) (r : List (Instr × Occ)), s.clockStopped = false → s.agenda = (i, o) :: r → Config.agentFirst s.free = false →
      step s = exec i { s with agenda := r, occ := o, free := s.free + 1 }) ∧
  (
    ∀ (s : State) (core k : Nat) (i : Instr), s.clockStopped = false → s.agenda = [] → s.focus = .lc core k → canMove s (ckey core k) = true →
      let c := s.ctx core k
      c.grp ≠ [] → c.doneMask.getLsbD c.slot = false → decodeL (c.grp.getD c.slot 0).toNat = .ok i →
      step s = match exec i (s.setCtx core k { c with npc := c.nextPc }) with
        | .next t => .next (t.settle core k)
        | .fault f => .fault f
        | .refused x => .refused x) ∧
  (
    ∀ (s u : State) (core k : Nat) (w : BitVec 32) (ws : List (BitVec 32)) (i : Instr) (is : List Instr),
      s.clockStopped = false → s.agenda = [] → s.focus = .lc core k → canMove s (ckey core k) = true → k < 14 →
      let c := s.ctx core k
      c.grp = [] → c.ctl.kpend = false → c.ctl.ipend = false → c.pc.toNat % 4 = 0 → c.doneMask = 0 →
      s.fetchGroup core k = (u, .ok (w :: ws, i :: is)) → (u.ctx core k).latches = [] → u.doomed core (u.ctx core k) = false → latchNeed (i :: is) ≤ 8 →
      decodeL w.toNat = .ok i ∧
      step s = match exec i (u.setCtx core k { u.ctx core k with grp := w :: ws, slot := 0, performed := 0, resumed := false, npc := (u.ctx core k).nextPc }) with
        | .next t => .next (t.settle core k)
        | .fault f => .fault f
        | .refused x => .refused x)

/-- A word placed where step fetches it is the one step runs: at any state whose focus is on an LC context with no latch, boundary or dead scope in its way, step of the state that withFetchWord makes is exec of the decoded word and its settling. The focus on a context is a field of the model's own (log entry 3). -/
def Obligations.PlacedWordRuns : Prop :=
  ∀ (s : State) (n core k w : Nat) (i : Instr), s.focus = .lc core k → core < 768 → k < 14 → w < 2 ^ 32 → decodeL w = .ok i → walkerOnly i = false →
    (s.ctx core k).latches = [] → s.doomed core (s.ctx core k) = false →
    let p := s.withFetchWord n w
    let c := p.ctx core k
    step p = match exec i (p.setCtx core k { c with grp := [BitVec.ofNat 32 w], npc := 0x400 }) with
      | .next t => .next (t.settle core k)
      | .fault f => .fault f
      | .refused x => .refused x

/-- The checks of a group (spec 03 R86, R87, R89, R92): a word that decodes to nothing is ILLEGAL with the word as TVAL, a control transfer ahead of another word is ILLEGAL, as is a lane field beyond the lanes of the type a valid SHAPE gives, and a later word that shares a register with an earlier one, one of the two writing it, is GROUPDEP at the later word with the lowest such register in TVAL. -/
def Obligations.GroupRules : Prop :=
  (∀ (w : BitVec 32) (r : Reject) (ws : List (BitVec 32)) (n : Nat) (b : Bool) (sh : BitVec 16), decodeL w.toNat = .error r →
    checkWords false sh n b 0 {} (w :: ws) = .error (⟨0x01, 0, w.zeroExtend 64⟩, 0)) ∧
  (∀ (w : BitVec 32) (ws : List (BitVec 32)) (n : Nat) (b : Bool) (sh : BitVec 16) (x : Instr), decodeL w.toNat = .ok x →
    (isTransfer x = true ∧ n ≠ 1) ∨ laneBeyond sh x = true → checkWords false sh n b 0 {} (w :: ws) = .error (⟨0x01, 0, w.zeroExtend 64⟩, 0)) ∧
  (∀ (v w : BitVec 32) (sh : BitVec 16) (x y : Instr), laneBeyond sh x = false → laneBeyond sh y = false → decodeL v.toNat = .ok x → decodeL w.toNat = .ok y →
    (isTransfer x || isAlone x || isAlone y || walkerOnly x || walkerOnly y || (isSend x && isSend y) || (isEngine x && isEngine y)) = false →
    let rx := (regSets x).reads ||| guardBit v
    let ry := (regSets y).reads ||| guardBit w
    let shared := ((regSets y).writes &&& (rx ||| (regSets x).writes)) ||| ((regSets x).writes &&& ry)
    (shared ≠ 0 → checkWords false sh 2 false 0 {} [v, w] = .error (⟨0x02, 0, BitVec.ofNat 64 (regCode shared)⟩, 1)) ∧
    (shared = 0 → (∀ a b, mtsReg x = some a → mtsReg y = some b → a ≠ b) → checkWords false sh 2 false 0 {} [v, w] = .ok [x, y]))

/-- What reset leaves where the spec gives it: every control register at the value of its table, p0 at 1, every token register EMPTY, every named barrier unarmed with every field zero, every dense sequencer's registers zero, and scope 0 LIVE (spec 01 R12, R15, R18, R28, R29, R41, R43, R46). -/
def Obligations.ResetValues : Prop :=
  let s := State.reset
  (∀ core k, let c := s.ctx core k
    c.ctl.shape = 0 ∧ c.ctl.fpctl = 0 ∧ c.ctl.fpst = 0 ∧ c.ctl.lfsr = 1 ∧ c.ctl.scopeW = 0 ∧ c.ctl.rtag = 0 ∧ c.ctl.linkwait = 0x64 ∧
    c.ctl.cause = 0 ∧ c.ctl.tval = 0 ∧ c.ctl.tpc = 0 ∧ c.ctl.tmid = 0 ∧ c.istate k = (if k = 14 ∨ k = 15 then 3 else 1) ∧
    (∀ i : Fin 4, c.ctl.wpaddr[i] = 0 ∧ c.ctl.wpmask[i] = 0) ∧ c.pr 0 = true ∧ (∀ r, (c.tok r).st = .empty)) ∧
  (∀ core n, let b := s.bar core n
    b.armed = false ∧ b.parts = 0 ∧ b.arrived = 0 ∧ b.op = 0 ∧ b.acc = 0 ∧ b.gen = 0 ∧ b.broken = false ∧ b.scope = 0) ∧
  (∀ die, let d := s.ds die
    (∀ i : Fin 32, d.d[i] = 0) ∧ (∀ i : Fin 16, d.a[i] = {}) ∧ d.dpc = 0 ∧ d.job = none ∧ d.dcause = 0 ∧ d.dtpc = 0 ∧ d.dtval = 0) ∧
  (∀ part, s.scopeLive part 0 = true) ∧ s.clockStopped = false

/-- The invariant holds of the state at reset, and its messages are numbered. What memory holds at reset is the model's choice (log entry 2). -/
def Obligations.ResetSatisfiesInv : Prop := State.reset.Inv ∧ State.reset.numbered

/-- Every step keeps the invariant: whatever word or event is performed, memory keeps its canonical form, so that two memories with the same bytes are the same data. The canonical form of memory is the model's (log entry 2); that what is stored is what a read gives rests on spec 00 R3 and 12 R321. -/
def Obligations.StepKeepsInv : Prop := ∀ s t : State, s.Inv → step s = .next t → t.Inv

/-- Every step keeps the messages of the network numbered below the next number, so that the message a step forms is told apart from those on their way. The numbers are fields of the model's own (log entry 3), which give each message of spec 02 its identity. -/
def Obligations.StepKeepsNumbering : Prop := ∀ s t : State, s.numbered → step s = .next t → t.numbered

/-- No instruction or event ends a run: exec answers a next state for every one of them in every state, and a step stops only where a thermal trip has stopped the clocks (spec 18 R478). Where the spec leaves a value open the machine goes on with a free value (log entry 4). -/
def Obligations.StopsOnlyWithClocks : Prop :=
  (∀ (i : Instr) (s : State), ∃ t, exec i s = .next t) ∧
  ∀ s : State, (s.clockStopped = true → step s = .fault .clockStopped) ∧ (s.clockStopped = false → s.safe)

/-- Taking a trap in a user context (spec 01 R26; 02 R65; 16 R402, R406): it stops at the word; CAUSE, TVAL and TPC are written, TMID is left; the general registers stand as they are where no sweep is due; the frame in the system page and its extension record it, and no other byte changes. A trap after a release in a handler is TORN: its code becomes the sub-cause. -/
def Obligations.TrapEntry : Prop :=
  ∀ (s : State) (core k : Nat) (t : Trap) (decode : Bool), s.Inv → core < 768 → k < 14 →
    let c := s.ctx core k
    let u := s.takeTrapAt core k t decode
    let d := u.ctx core k
    c.slot < 4 → (c.pendMts.all fun x => x.1 != 11) = true →
    d.st = .stopped ∧ d.pc = c.pc ∧ d.ctl.tpc = c.pc ∧ d.ctl.tval = t.tval ∧ d.ctl.tmid = c.ctl.tmid ∧
    d.ctl.cause.toNat = c.slot * 2 ^ 18 + (if c.ctl.inhnd && c.ctl.reld then 2 ^ 17 + 2 ^ 16 + t.code.toNat * 2 ^ 8 + 0x21
      else (if c.ctl.inhnd then 2 ^ 16 else 0) + t.sub.toNat * 2 ^ 8 + t.code.toNat) ∧
    (c.sweep = [] → d.g = c.g) ∧ d.preds = c.preds ∧
    u.frame core k 0x84 4 = d.ctl.cause.toNat ∧ u.frame core k 0x88 8 = t.tval.toNat ∧ u.frame core k 0x90 4 = c.pc.toNat ∧
    u.frame core k 0x94 4 = c.ctl.tmid.toNat ∧ u.frame core k 0xA4 1 = 1 ∧
    (∀ i : Fin 16, u.frame core k (8 * i.val) 8 = (d.g[i]).val.toNat) ∧
    (∀ a, ¬(framePa core k ≤ a ∧ a < framePa core k + 0xC0) → ¬(extPa core k ≤ a ∧ a < extPa core k + 0x400) → memGet u.mem a = memGet s.mem a)

/-- The return from a trap (spec 09 R265; 16 R402, R413): eret of a STOPPED context whose frame says READY gives it back its general registers with their tags, its predicates and its trap registers as the frame holds them, reserved bits as 0 (spec 00 R4), and its faulting group to issue again at TPC − 4 × SLOT, with the slots DONEMASK names suppressed. -/
def Obligations.EretRestores : Prop :=
  ∀ (h : Hdr) (ra : BitVec 4) (s : State), s.cur.guard h = true → s.priv = true →
    let core := s.fcore
    let k : Nat := (s.cur.gv ra).toNat % 16
    k < 14 → (s.ctx core k).st = .stopped → s.frameHandler core k = false → (s.framePc core k).toNat % 4 = 0 → s.frame core k 0xA4 1 ≠ 2 →
    ∃ t, exec (.eret h ra) s = .next t ∧ t.cur = { s.cur with fin := true } ∧ t.mem = s.mem ∧
      let d := t.ctx core k
      d.st = .ready ∧ d.pc = s.framePc core k ∧ d.doneMask = BitVec.ofNat 4 (s.frame core k 0xBD 1) ∧ d.grp = [] ∧
      (∀ i : Fin 16, d.g[i] = ⟨BitVec.ofNat 64 (s.frame core k (8 * i.val) 8), (s.frame core k 0x80 2).testBit i.val⟩) ∧
      (∀ p : BitVec 4, p ≠ 0 → d.pr p = (s.frame core k 0x82 2).testBit p.toNat) ∧
      d.ctl.cause = BitVec.ofNat 32 (s.frame core k 0x84 4) &&& 0xFFFFF ∧ d.ctl.tval = BitVec.ofNat 64 (s.frame core k 0x88 8) ∧
      d.ctl.tpc = BitVec.ofNat 32 (s.frame core k 0x90 4) ∧ d.ctl.tmid = BitVec.ofNat 32 (s.frame core k 0x94 4) ∧
      d.ctl.fpst = BitVec.ofNat 8 (s.frame core k 0xA7 1) &&& 0x3F

/-- S-slot words of a dense sequencer compute, branch, and get and end jobs.

S-slot words of a dense sequencer (spec 10 R270, R278 to R280, R276): a result is on its way to its register or generator field for one cycle, three for mul, and nothing else changes. The source registers have no write on its way.

Transfers of the S slot and the words of a job (spec 10 R273, R275, R277, R279, R293): a branch taken to an address of the space it fetches from makes that the next bundle, one not taken changes nothing; a target outside traps PAGE; jget holds the sequencer until the queue grants a job, jdone until every earlier word has completed; dret leaves the handler for DTPC. -/
def Obligations.DenseScalarAndTransferWords : Prop :=
  (
    ∀ (dd da db : BitVec 5) (an : BitVec 4) (imm : BitVec 17) (up : BitVec 22) (sel : AgSel) (r : DReg) (s : State),
      (∀ p ∈ s.dsCur.pend, p.dest ≠ .d da ∧ p.dest ≠ .d db) →
      let d := s.dsCur
      let a := d.dv da
      let b := d.dv db
      let n := b.toNat % 64
      let completes (i : Instr) (x : DDest) (v : Word) (L : Nat) : Prop := exec i s = .next (s.onDs s.fdie fun d => { d with pend := d.pend ++ [⟨x, v, L⟩] })
      completes (.dAdd dd da db) (.d dd) (a + b) 1 ∧ completes (.dSub dd da db) (.d dd) (a - b) 1 ∧ completes (.dAnd dd da db) (.d dd) (a &&& b) 1 ∧
      completes (.dOr dd da db) (.d dd) (a ||| b) 1 ∧ completes (.dXor dd da db) (.d dd) (a ^^^ b) 1 ∧
      completes (.dSll dd da db) (.d dd) (BitVec.ofNat 64 (a.toNat * 2 ^ n)) 1 ∧ completes (.dSrl dd da db) (.d dd) (BitVec.ofNat 64 (a.toNat / 2 ^ n)) 1 ∧
      completes (.dMul dd da db) (.d dd) (BitVec.ofNat 64 (a.toNat * b.toNat)) 3 ∧
      completes (.dAddi dd da imm) (.d dd) (BitVec.ofInt 64 (a.toInt + imm.toInt)) 1 ∧ completes (.dLui dd up) (.d dd) (BitVec.ofInt 64 (up.toInt * 0x20000)) 1 ∧
      completes (.agset an sel da) (match sel with | .base => .base an | .stride => .stride an | .count => .count an) a 1 ∧
      completes (.dmfs dd r) (.d dd) (match r with | .dcause => d.dcause.zeroExtend 64 | .dtpc => d.dtpc.zeroExtend 64 | .dtval => d.dtval | .job => d.jobWord) 1 ∧
      exec .dsNopS s = .next s ∧ exec .dsNopL s = .next s ∧ exec .dsNopM s = .next s ∧ exec .dsNopV s = .next s) ∧
  (
    ∀ (dd da db : BitVec 5) (off : BitVec 17) (far : BitVec 27) (s : State), (∀ p ∈ s.dsCur.pend, p.dest ≠ .d da ∧ p.dest ≠ .d db) →
      let d := s.dsCur
      let a := d.dv da
      let b := d.dv db
      let at_ : BitVec 32 := d.dpc + off.signExtend 32 * 16
      let far_ : BitVec 32 := d.dpc + far.signExtend 32 * 16
      let goes (i : Instr) (x : BitVec 32) : Prop :=
        exec i s = .next (if s.dSpaceOk d x then s.onDs s.fdie fun d => { d with npc := x, bub := true } else s.dTrap s.fdie ⟨0x10, 0x01, BitVec.ofNat 64 x.toNat⟩ x)
      (a = b → goes (.dBeq da db off) at_ ∧ exec (.dBne da db off) s = .next s) ∧
      (a ≠ b → goes (.dBne da db off) at_ ∧ exec (.dBeq da db off) s = .next s) ∧
      (a.toInt < b.toInt → goes (.dBlt da db off) at_) ∧ (b.toInt ≤ a.toInt → exec (.dBlt da db off) s = .next s) ∧ goes (.dJmp far) far_ ∧
      (d.job = none → exec (.jget dd) s = .next { (s.onDs s.fdie fun d => { d with jgetWait := some dd }) with agenda := s.agenda ++ [(.jobGrant, { a := s.fdie })] }) ∧
      (d.job ≠ none → exec (.jdone da) s = .next (s.onDs s.fdie fun d => { d with jdoneWait := some a })) ∧
      (d.hmode = true → d.parked = false →
        exec .dret s = .next (s.onDs s.fdie fun d => { d with dcause := d.dcause &&& 0xFFFEFFFF, npc := d.dtpc, bub := true, tHandling := false })) ∧
      (d.job ≠ none → exec (.jget dd) s = .next (s.dTrap s.fdie ⟨0x50, 0x0A, 0⟩ d.dpc)) ∧
      (d.job = none → exec (.jdone da) s = .next (s.dTrap s.fdie ⟨0x50, 0x09, 0⟩ d.dpc)) ∧
      (d.hmode = false ∨ d.parked = true → exec .dret s = .next (s.dTrap s.fdie ⟨0x50, 0x07, 0⟩ d.dpc)))

/-- L, M and V words become outstanding words of their operands; misuse traps DSTATE into the handler.

Words of the L, M and V slots that pass their issue checks (spec 10 R271, R281 to R290, R293): each becomes an outstanding word of its operands as they stand, behind the earlier ones, and moves no byte yet; a transfer comes due by its own event, a transfer or copy of no rows does nothing; a bank a pass or vector word writes joins the bank-use mask; ldd and std advance BASE by STRIDE, and ldd's doubleword is on its way for four cycles.

Misuse of dense state (spec 10 R281 to R293): a word that fails an issue check traps DSTATE with the check's sub-cause, and the sequencer enters its handler at 0x40 with DCAUSE, DTPC and DTVAL written; inside the handler the complex halts instead. -/
def Obligations.DenseArrayWords : Prop :=
  (
    ∀ (an am : BitVec 4) (dd da db : BitVec 5) (bank : BitVec 3) (acc : Bool) (fmt : BitVec 4) (mask : BitVec 8) (s : State),
      (∀ p ∈ s.dsCur.pend, p.dest ≠ .d da ∧ p.dest ≠ .d db ∧ p.dest ≠ .d dd) →
      let d := s.dsCur
      let g := d.ag an
      let ok (i : Instr) : Prop := d.check i = none
      let issues (i : Instr) (q : State → DWord → Prop) : Prop := ok i →
        ∃ (t : State) (w : DWord), exec i s = .next t ∧ t.mem = s.mem ∧ t.dsCur.outst = d.outst ++ [w] ∧ w.op = i ∧ w.no = s.nextNo ∧ t.nextNo = s.nextNo + 1 ∧
          t.dsCur.d = d.d ∧ t.dsCur.a = d.a ∧ t.dsCur.job = d.job ∧ q t w
      let plain (t : State) : Prop := t.dsCur.pend = d.pend ∧ t.timers = s.timers ∧ t.dsCur.bankUse = d.bankUse
      let onBank (t : State) : Prop := t.dsCur.pend = d.pend ∧ t.timers = s.timers ∧ ∀ k : Nat, t.dsCur.bankUse.getLsbD k = (d.bankUse.getLsbD k || k == bank.toNat)
      let next : Word := (g.base + g.stride.signExtend 48).zeroExtend 64
      let moves (i : Instr) : Prop :=
        (ok i → (d.ag am).count = 0 → exec i s = .next s) ∧
        ((d.ag am).count ≠ 0 → issues i fun t w => w.a = g ∧ w.b = d.ag am ∧ w.xfer = true ∧ t.timers = s.timers ++ [(.dsTransferDone, { a := s.fdie, b := s.nextNo })])
      moves (.xin an am) ∧ moves (.xout an am) ∧
      ((d.ag am).count ≠ 0 → issues (.dbcpy an am) fun t w => w.a = g ∧ w.b = d.ag am ∧ w.xfer = false ∧ plain t) ∧
      issues (.ldd dd an) (fun t _ => t.dsCur.pend = d.pend ++ [⟨.d dd, BitVec.ofNat 64 (s.rd (dbPa s.fdie g.addr) 8), 4⟩, ⟨.base an, next, 1⟩]) ∧
      issues (.std dd an) (fun t w => w.a = g ∧ w.v = d.dv dd ∧ t.dsCur.pend = d.pend ++ [⟨.base an, next, 1⟩]) ∧
      issues (.mlw an) (fun t w => w.a = g ∧ plain t) ∧ issues (.mlwt an) (fun t w => w.a = g ∧ plain t) ∧ issues .mswap (fun t _ => plain t) ∧
      issues (.mst bank an acc) (fun t w => w.a = g ∧ onBank t) ∧ issues (.mstz bank an acc am) (fun t w => w.a = g ∧ w.z = d.ag am ∧ onBank t) ∧
      issues (.mdrain bank an fmt) (fun t w => w.a = g ∧ plain t) ∧ issues (.mzero mask) (fun t _ => plain t) ∧
      issues .mpark (fun t _ => plain t) ∧ issues .munpark (fun t _ => plain t) ∧
      issues (.vbias bank an) (fun t w => w.a = g ∧ onBank t) ∧ issues (.vscale bank da) (fun t w => w.x = (d.dv da).truncate 32 ∧ onBank t) ∧
      issues (.vrelu bank) (fun t _ => onBank t) ∧ issues (.vgelu bank) (fun t _ => onBank t) ∧
      issues (.vclamp bank da db) (fun t w => w.x = (d.dv da).truncate 32 ∧ w.y = (d.dv db).truncate 32 ∧ onBank t)) ∧
  (
    ∀ (an am : BitVec 4) (bank : BitVec 3) (acc : Bool) (fmt : BitVec 4) (mask : BitVec 8) (s : State),
      let d := s.dsCur
      let g := d.ag an
      let traps (i : Instr) (t : Trap) : Prop := exec i s = .next (s.dTrap s.fdie t d.dpc)
      let busy : Prop := d.hmode = true ∧ d.parked = false
      let bad : Trap := ⟨0x50, 0x08, 2⟩
      (d.job = none → traps (.xin an am) ⟨0x50, 0x09, 1⟩ ∧ traps (.xout an am) ⟨0x50, 0x09, 1⟩) ∧
      (∀ v, g.count.toNat = v → v % 32 ≠ 0 ∨ v < 32 ∨ 0x100000 < v → traps (.dbcpy an am) ⟨0x50, 0x05, BitVec.ofNat 64 (1 + v * 2 ^ 32)⟩) ∧
      (busy → traps (.mlw an) bad ∧ traps (.mlwt an) bad ∧ traps .mswap bad ∧ traps (.mst bank an acc) bad ∧ traps (.mstz bank an acc am) bad ∧
        traps (.mdrain bank an fmt) bad ∧ traps (.mzero mask) bad ∧ traps (.vbias bank an) ⟨0x50, 0x08, 3⟩ ∧ traps (.vrelu bank) ⟨0x50, 0x08, 3⟩ ∧
        traps (.vgelu bank) ⟨0x50, 0x08, 3⟩) ∧
      (d.hmode = false → (∀ v, g.count.toNat = v → v = 0 ∨ 256 < v →
        traps (.mlw an) ⟨0x50, 0x05, BitVec.ofNat 64 (2 + v * 2 ^ 32)⟩ ∧ traps (.mst bank an acc) ⟨0x50, 0x05, BitVec.ofNat 64 (2 + v * 2 ^ 32)⟩ ∧
        traps (.mdrain bank an fmt) ⟨0x50, 0x05, BitVec.ofNat 64 (2 + v * 2 ^ 32)⟩)) ∧
      (d.hmode = false → traps (.mzero 0) ⟨0x50, 0x05, 2⟩ ∧ traps .mpark ⟨0x50, 0x07, 2⟩ ∧ traps .munpark ⟨0x50, 0x07, 2⟩) ∧
      (∀ (t : Trap) (pc : BitVec 32), d.hmode = false →
        let e := (s.dTrap s.fdie t pc).dsCur
        e.dcause.toNat = 2 ^ 16 + t.sub.toNat * 2 ^ 8 + t.code.toNat ∧ e.dtpc = pc ∧ e.dtval = t.tval ∧ e.npc = 0x40 ∧ e.job = d.job ∧ e.d = d.d ∧ e.a = d.a) ∧
      (∀ (t : Trap) (pc : BitVec 32), d.hmode = true → (s.dTrap s.fdie t pc).dsCur.halted = true ∧ (s.dTrap s.fdie t pc).dsCur.job = none))

/-- An access is translated, checked against its region, and performed at its home in one act.

Translation and page walks (spec 07 R180, R186; 12 R325 to R330): a hit with a permitted kind sends the access to its home with the leaf's frame, a forbidden one answers REGION, a miss walks; a walk that ends enters its leaf or answers the fault.

What a home does with a part of an access, in one act (spec 07 R190, R191, R194; 11 R298; 12 R331, R337): a load answers the bytes, a posted store writes them, an atomic answers the old bytes and writes the new, a versioned load whose stamp lies in its range answers the bytes and one ahead of its granule parks, a versioned store newer than its granule writes bytes and stamp. -/
def Obligations.TranslationAndHomeEvents : Prop :=
  (
    ∀ (s : State) (r : Req) (p : Piece), s.req s.occ.a = some r → r.no = s.occ.a → r.own → r.pieces = [p] → r.performed = 0 → p.isGlobal = true →
      let does (i : Instr) (q : State → Prop) : Prop := ∃ t, exec i s = .next t ∧ t.mem = s.mem ∧ q t
      let now (t : State) (q : Req → Prop) : Prop := ∃ x, t.req r.no = some x ∧ q x
      (∀ e, r.phase = .translate → r.kind = .load ∨ r.kind = .loadNc → s.heldOut r = false → s.xlHit r.part p.va = some e →
        (regionCheck (s.region r.part p.va) r.rank .read = none → e.mod = s.modid → does .translationRequest fun t =>
          t.agenda = s.agenda ++ [(.homeAccess, { a := r.no })] ∧
          now t fun x => x.phase = .home ∧ x.accepted = true ∧ x.pieces = [{ p with mod := e.mod, pa := e.pa p.va, attr := attrOf (s.region r.part p.va) e }]) ∧
        (∀ sub, regionCheck (s.region r.part p.va) r.rank .read = some sub → does .translationRequest fun t =>
          now t fun x => x.phase = .reply ∧ x.trap = some ⟨0x11, sub, BitVec.ofNat 64 p.va⟩)) ∧
      (r.phase = .translate → s.xlHit r.part p.va = none → does .translationRequest fun t =>
        t.agenda = s.agenda ++ [(.pageWalkComplete, { a := r.no, b := p.va })] ∧ now t fun x => x.phase = .walk) ∧
      (∀ e, r.phase = .walk → walkTable s r.part s.occ.b = .ok e → does .pageWalkComplete fun t =>
        (t.home (xlSlice (s.part r.part) s.occ.b)).xl = (e :: (s.home (xlSlice (s.part r.part) s.occ.b)).xl).take 2048 ∧
        t.agenda = s.agenda ++ [(.translationRequest, { a := r.no })] ∧ now t fun x => x.phase = .translate) ∧
      (∀ u, r.phase = .walk → walkTable s r.part s.occ.b = .error u → does .pageWalkComplete fun t => now t fun x => x.phase = .reply ∧ x.trap = some u)) ∧
  (
    ∀ (s : State) (r : Req) (p : Piece), s.req s.occ.a = some r → r.no = s.occ.a → r.phase = .home → r.pieces = [p] → r.performed = 0 → r.result = [] →
      p.mod = s.modid → p.isGlobal = true → s.behind r = false → s.usesOpen r.part r.scope 0 (r.homeUses p) = true → s.movingAt p.pa = none →
      let pa := s.redirect p.pa
      let g := (tget s.grans (pa / 64)).getD {}
      let does (q : State → Prop) : Prop := ∃ t, exec .homeAccess s = .next t ∧ q t
      let answers (t : State) (bs : List Byte) : Prop := s.dues t .memoryReply r.no ∧ ∃ x, t.req r.no = some x ∧ x.phase = .reply ∧ x.trap = none ∧ x.result = bs
      let seg := (r.data.drop (p.va - r.va)).take p.len
      (r.kind = .load ∨ r.kind = .loadNc → r.own → p.rst ≠ 5 → s.poisonedAt pa p.len = false → does fun t => t.mem = s.mem ∧ answers t (memRead s.mem pa p.len)) ∧
      (r.kind = .load → r.own → p.rst ≠ 5 → s.poisonedAt pa p.len = true → does fun t =>
        t.mem = s.mem ∧ ∃ x, t.req r.no = some x ∧ x.phase = .reply ∧ x.trap = some ⟨0x15, 0, BitVec.ofNat 64 (p.va + s.firstPoison pa p.len)⟩) ∧
      (r.kind = .store → does fun t => t.mem = memWrite s.mem pa seg) ∧
      (∀ op, r.kind = .atom op → r.own → s.poisonedAt pa p.len = false → does fun t => answers t (memRead s.mem pa p.len) ∧
        t.mem = memWrite s.mem pa (leBytes p.len (atomNew op p.len (s.rd pa p.len) (leNat r.data) (leNat r.cmp)))) ∧
      (r.kind = .ldv → r.own → sfits g.stamp r.lo r.hi = true → s.poisonedAt pa p.len = false → does fun t => t.mem = s.mem ∧ answers t (memRead s.mem pa p.len)) ∧
      (r.kind = .ldv → sfits g.stamp r.lo r.hi = false → safter r.lo g.stamp = true → (s.home (homeOf pa)).parks.length + (s.home (homeOf pa)).rowParks.length < 256 →
        does fun t => t.mem = s.mem ∧ (t.home (homeOf pa)).parks = (s.home (homeOf pa)).parks ++ [r.no] ∧ ∃ x, t.req r.no = some x ∧ x.phase = .parked) ∧
      (r.kind = .stv → r.own → p.banked = false → safter r.lo g.stamp = true → (s.home (homeOf pa)).parks = [] → does fun t =>
        t.mem = memWrite s.mem pa seg ∧ ∃ x, tget t.grans (pa / 64) = some x ∧ x.stamp = r.lo ∧ x.prior = g.prior))

/-- Replies, fills, fences, reclaims and closes complete and let their context go on.

The answer of an access reaches the context that waits (spec 07 R185, R186; 16 R408): its destination register takes the value, zero- or sign-extended, and the context goes on; a trap stops it at its word. A fill enters the L1, a tile page comes into a frame, and an access through the window of a core reads its tile memory (spec 07 R187; 12 R322, R323).

Fences, reclaim and close complete (spec 07 R193, R201, R209; 13 R343): the context goes on, a fence other than a release drops the L1 lines of its range, a SYS form and a close write their status; a floor notice raises the floor of a home; a home answers a close notice. A link that stays down answers ATOMPATH 0x03. -/
def Obligations.ReplyAndFenceEvents : Prop :=
  (
    ∀ (s : State) (r : Req),
      let does (i : Instr) (q : State → Prop) : Prop := ∃ t, exec i s = .next t ∧ t.mem = s.mem ∧ q t
      let v := leNat r.result
      (s.req s.occ.a = some r → r.orphan = false → r.phase = .reply → (s.ctx r.core r.ctx).hold = .access r.no → s.replyWaits r.core r.ctx = false →
        (s.ctx r.core r.ctx).aligned →
        (r.trap = none → r.fetch = false → r.vec = false → r.kind = .load ∨ r.kind = .loadNc ∨ r.kind = .ldv ∨ (∃ op, r.kind = .atom op) → does .memoryReply fun t =>
          (t.ctx r.core r.ctx).hold = .none ∧
          (t.ctx r.core r.ctx).gr r.dest = ⟨if r.ext then BitVec.ofInt 64 (toSigned (8 * r.len) v) else BitVec.ofNat 64 v, false⟩) ∧
        (∀ u, r.trap = some u → r.ctx < 14 → ∃ t, exec .memoryReply s = .next t ∧ (t.ctx r.core r.ctx).st = .stopped ∧ (t.ctx r.core r.ctx).ctl.tval = u.tval)) ∧
      (∀ core c f bs, s.cores.find? (fun x => x.2.fills.any fun f => f.no == s.occ.a && f.bytes.isSome) = some (core, c) → c.fills = [f] → f.bytes = some bs →
        f.install = true → does .l1FillReply fun t => (t.core core).fills = [] ∧
          ∃ x, (t.core core).l1.head? = some x ∧ x.line = f.line ∧ x.bytes = bs) ∧
      (∀ page, let core := s.occ.a
        let c := s.ctx core s.occ.b
        c.hold = .tilePage page → c.st = .ready → page ≠ 63 → ((s.core core).frames.any fun f => f.space == c.space && f.page == page) = false →
        (s.core core).frames.length < 63 → does .tilePageFill fun t =>
          (t.ctx core s.occ.b).hold = .none ∧ (t.core core).frames = (s.core core).frames ++ [{ space := c.space, page := page, pinned := true }]) ∧
      (let core := r.va / 2 ^ 18 % 4096
        let off := tileOff r.va
        s.req s.occ.a = some r → r.no = s.occ.a → r.own → r.phase = .translate → r.kind = .load → modOf (BitVec.ofNat 24 (r.va / 2 ^ 18)) = s.modid → core < 768 →
        (s.core core).run = .inn → s.behind r = false → s.partOf core = some r.part → s.launchOf r.part r.scope = none → 0x3F000 ≤ off → off + r.len ≤ 0x40000 → r.len ≤ 32 →
        s.tilePoison core 8 off r.len = none → s.usesOpen r.part r.scope 0 (tripUses r.core core r.len) = true → does .remoteTileAccess fun t => s.dues t .memoryReply r.no ∧
          ∃ x, t.req r.no = some x ∧ x.phase = .reply ∧ x.trap = none ∧ x.result = s.tileRd core 8 off r.len)) ∧
  (
    ∀ (s : State),
      let core := s.occ.a
      let k := s.occ.b
      let c := s.ctx core k
      let does (i : Instr) (q : State → Prop) : Prop := ∃ t, exec i s = .next t ∧ t.mem = s.mem ∧ q t
      (∀ kind sys rd lo hi, c.hold = .fence kind sys rd lo hi → s.replyWaits core k = false → kind = 0 ∨ s.uncovered core k sys lo hi = [] → c.aligned →
        does .fenceComplete fun t => (t.ctx core k).hold = .none ∧ (sys = true → (t.ctx core k).gr rd = ⟨if kind = 0 then 0 else s.fenceStatus core k lo hi 0, false⟩) ∧
          (kind ≠ 1 → ∀ x ∈ (t.core core).l1, ¬(x.line * 64 < hi ∧ lo < x.line * 64 + 64))) ∧
      (c.hold = .reclaim 0 → s.replyWaits core k = false → c.aligned → does .reclaimComplete fun t => (t.ctx core k).hold = .none) ∧
      (∀ rd no nhome stale, c.hold = .close rd no [] nhome stale → s.replyWaits core k = false → c.aligned → does .closeComplete fun t =>
        (t.ctx core k).hold = .none ∧ (t.ctx core k).gv rd = BitVec.ofNat 64 (min nhome 255 * 256 + (if stale then 2 else 0) + (if nhome = 0 then 0 else 1))) ∧
      (let f : BitVec 20 := s.occ.v.truncate 20
        let old := s.floorAt s.occ.c s.occ.a s.occ.b
        let key := s.occ.v.toNat / 2 ^ 20
        (s.home s.occ.c).parks = [] → does .reclaimFloorNotice fun t => t.floorAt s.occ.c s.occ.a s.occ.b = (if safter f old then f else old) ∧
          (∀ n, (s.ctx (key / 17) (key % 17)).hold = .reclaim n → (t.ctx (key / 17) (key % 17)).hold = .reclaim (n - 1) ∧
            (n = 1 → s.dues t .reclaimComplete (key / 17) (key % 17)))) ∧
      (∀ nm e e' res, s.numbered → s.net s.occ.a = some nm →
        let m := nm.msg
        let home := localOf m.dest
        let etd := (m.arg 0).toNat % 2 ^ 48
        s.partsAhead m = false → (s.home home).tabs.find? (fun e => e.part == m.part && e.etd == etd) = some e → (∀ x ∈ s.moving, x.part = m.part → homeOf x.oldFrame ≠ home) → (s.home home).rowParks = [] →
        e.close ((m.arg 3).truncate 24) ((m.arg 2).truncate 20) (decide (s.recCount home < 4096)) = (e', res) → does .closeNotice fun t =>
          (t.home home).tabs.find? (fun e => e.part == m.part && e.etd == etd) = some e' ∧
          s.formed t fun x => x.kind = .resume ∧ x.dest = modOf m.srank ++ m.srclr ∧ x.addr = (m.arg 1).extractLsb' 32 32 ∧ x.arg 0 = BitVec.ofNat 64 res.code) ∧
      (∀ r p, k < 17 → c.hold = .access s.occ.c → s.req s.occ.c = some r → r.no = s.occ.c → r.own → r.phase = .home → r.pieces[r.performed]? = some p → p.mod ≠ s.modid →
        does .linkwaitExpiry fun t => ∃ x, t.req r.no = some x ∧ x.phase = .reply ∧ x.trap = some ⟨0x16, 0x03, BitVec.ofNat 64 r.va⟩))

/-- Row requests, contributions, flushes and landings act at their homes; errors poison; row words finish.

Rows of embedding tables at their homes (spec 13 R346, R347, R348, R352): an admitted request answers the row's bytes in one act, the last part of a contribution changes the row by the rule of its table, a flush demand sends its line away, and a landing writes its row into tile memory.

Other events of memory: an uncorrectable error poisons its granule, a corrected one is only counted (spec 12 R336); a message that waits for no store any more leaves its interface (spec 08 R219); the row unit performs the next beat of its oldest word, or finishes it and its context goes on (spec 06 R176, R177). -/
def Obligations.RowAndUnitEvents : Prop :=
  (
    ∀ (s : State) (nm : NetMsg), s.numbered → s.net s.occ.a = some nm →
      let m := nm.msg
      let does (i : Instr) (q : State → Prop) : Prop := ∃ t, exec i s = .next t ∧ q t
      let free (pa : Nat) : Prop := s.movingAt pa = none ∧ s.redirect pa = pa ∧ (s.home (homeOf pa)).waits = [] ∧ ((s.home (homeOf pa)).locks.any fun l => l.pa == pa) = false
      let table (pa : Nat) (e : TabEntry) : Prop := (s.home (homeOf pa)).tabs.find? (fun e => e.part == m.part && e.etd == m.rowEtd) = some e
      (∀ e, let pa := (m.arg 0).toNat
        m.rowBits = true → pa % 32 = 0 → m.rowPhys = true → m.rowLand = false → m.rowStrict = false → m.merge = false → free pa → table pa e → e.admits m = true →
        s.usesOpen m.part m.scope m.cls.toNat (passUses (localOf m.dest) (homeOf pa)) = true → s.regionSt m.part (s.rowVaOf { m with pa := pa }) ≠ 5 →
        (Etd.mode e.desc = 2 → s.regionSt m.part (s.rowVaOf { m with pa := pa }) ≠ 4) →
        s.poisonedAt pa (Etd.len e.desc) = false → does .rowRequest fun t => t.mem = s.mem ∧
          s.formed t fun x => x.kind = .resume ∧ x.dest = m.srank ∧ x.addr = m.replyTag ∧ x.ilen = 0 ∧ x.payload = memRead s.mem pa (Etd.len e.desc)) ∧
      (m.rowBits = false → does .rowRequest fun t => t.mem = s.mem ∧ s.formed t fun x => x.kind = .resume ∧ x.addr = m.replyTag ∧ x.ilen = 8) ∧
      (∀ e, let pa := (m.arg 0).toNat
        let d : Etd := e.desc
        free pa → table pa e → (m.payload.getD 3 0).getLsbD 1 = true → (m.arg 1).getLsbD 0 = false → (s.home (homeOf pa)).staged = [] → Etd.mode d ≠ 2 →
        s.poisonedAt pa d.len = false → s.region m.part (m.arg 3).toNat = none → does .rowAccumulatePart fun t =>
          let c := readParts d.ty [m.payload]
          let row := memRead s.mem pa d.len
          let forms := ((s.home (homeOf pa)).formsOf e.part e.etd pa (elems d.ebytes (d.len / d.ebytes) row)).add d (c.asForms d)
          t.mem = memWrite s.mem pa (if d.fx then packElems d.ebytes forms.now else applyRow d row c)) ∧
      (let core := localOf m.dest
        ∀ l, (s.home core).upd.find? (fun x => x.etd == m.rowEtd && x.part == m.part && x.mod == modOf m.srank &&
            (if m.rowPhys then x.pa == (m.arg 0).toNat || (x.mod == s.modid && s.redirect x.pa == s.redirect (m.arg 0).toNat) else x.rowVa == (m.arg 0).toNat)) = some l →
          does .flushDemand fun t => t.mem = s.mem ∧ l ∉ (t.home core).upd) ∧
      (let core := localOf m.dest
        let off := (m.arg 0).toNat % 2 ^ 18
        let n := m.payload.length
        ∀ sp, s.scopeDead m.part m.scope = false → (s.core core).run = .inn → (s.core core).iw.run = none → s.spaceFor core m.part m.scope = some sp →
          (s.core core).seals = [] → 0 < n → (off + n - 1) / 4096 = off / 4096 → off < 0x3F000 → m.poisoned = [] →
          ((s.core core).frames.any fun f => f.space == sp && f.page == off / 4096) = true → does .rowLanding fun t => t.mem = memWrite s.mem (tilePa core sp off) m.payload)) ∧
  (
    ∀ (s : State),
      let does (i : Instr) (q : State → Prop) : Prop := ∃ t, exec i s = .next t ∧ q t
      (s.occ.b = 0 → s.poison.contains (s.occ.a / 64) = false → does .poisonError fun t =>
        t.poison = insertNat s.poison (s.occ.a / 64) ∧ t.ctxs = s.ctxs ∧ (s.ownerOf s.occ.a = none → t.mem = s.mem)) ∧
      (s.occ.b = 1 → does .poisonError fun t => t.poison = s.poison ∧ t.mem = s.mem ∧ t.smc.errors = s.smc.errors + 1) ∧
      (∀ nm, s.fab.msgs = [nm] → nm.msg.no = s.occ.a → nm.ph = .atSender → nm.msg.waits = [] → nm.msg.noord = false → nm.msg.merge = false →
        (s.stream (s.streamOf nm.msg)).unacked < 128 → s.msgOpen nm.msg = true → does .relordRelease fun t => t.mem = s.mem ∧ ∃ x, t.net s.occ.a = some x ∧ x.ph = .flying ∧ x.msg = nm.msg) ∧
      (∀ k rest i b, (s.core s.occ.a).rowQ = k :: rest → (s.ctx s.occ.a k).hold = .row i b →
        let c := s.ctx s.occ.a k
        (c.ctl.beats ≤ b → c.aligned → does .rowWordComplete fun t => t.mem = s.mem ∧ (t.core s.occ.a).rowQ = rest ∧ (t.ctx s.occ.a k).hold = .none) ∧
        (∀ w u s', b < c.ctl.beats → c.ctl.shapeTy = .ok u → rowSpec i = some w → rowBeat s s.occ.a k w u b = (s', none) →
          exec .rowWordComplete s = .next ((s'.onCtx s.occ.a k fun c => { c with hold := .row i (b + 1) }).due .rowWordComplete s.occ.a))))

/-- The built-in memory operations of another core's message (spec 02 R56; 07 R210, R211): each becomes an access of its kind and length for the acting rank of its sender, at the home of its translated address; a misaligned atomic or versioned one answers FAILED with ALIGN, and one that is not described answers BADOP. -/
def Obligations.BuiltinMemoryEvents : Prop :=
  ∀ (s : State) (nm : NetMsg) (e : XlEntry), s.numbered → s.net s.occ.a = some nm →
    let m := nm.msg
    let va := (m.arg 0).toNat
    let dbl := (m.arg 1).getLsbD 6
    let ok (k : RKind) (n : Nat) : Prop := (m.arg 1).getLsbD 23 = false ∧ 0x50000 ≤ va ∧ va + n ≤ 2 ^ 42 ∧ va % 64 + n ≤ 64 ∧ s.xlHit m.part va = some e ∧
      e.mod = s.modid ∧ regionCheck (s.region m.part va) m.actor k = none
    let asks (i : Instr) (kind : AKind) (n : Nat) (q : Req → Prop) : Prop := ∃ (t : State) (r : Req), exec i s = .next t ∧ t.mem = s.mem ∧
      t.agenda = s.agenda ++ [(.homeAccess, { a := s.nextNo })] ∧ t.req s.nextNo = some r ∧ r.kind = kind ∧ r.va = va ∧ r.len = n ∧ r.rank = m.actor ∧
      r.bmsg = some m.no ∧ r.phase = .home ∧ q r
    let fails (i : Instr) : Prop := ∃ t, exec i s = .next t ∧ t.mem = s.mem ∧
      ((m.arg 1).getLsbD 22 = false → s.formed t fun x => x.kind = .resume ∧ x.ilen = 3 ∧ x.arg 0 = 4 ∧ x.arg 1 = m.arg 0)
    (∀ n, n = 1 ∨ n = 2 ∨ n = 4 ∨ n = 8 → (m.arg 1).toNat % 16 = n →
      (ok .read n → asks .builtinLoad .load n (fun _ => True) ∧ asks .builtinLoadNc .loadNc n (fun _ => True)) ∧
      (ok .write n → asks .builtinStore .store n fun r => r.data = leBytes n (m.arg 2).toNat)) ∧
    (ok .read 32 → asks .builtinLoad32 .load 32 (fun _ => True)) ∧
    (ok .write 32 → m.payload.length = 32 → asks .builtinStore32 .store 32 fun r => r.data = m.payload) ∧
    (ok .ldv 8 → va % 8 = 0 → sdist ((m.arg 2).truncate 20) ((m.arg 2).extractLsb' 20 20) < 2 ^ 19 →
      asks .builtinLdv .ldv 8 fun r => r.lo = (m.arg 2).truncate 20 ∧ r.hi = (m.arg 2).extractLsb' 20 20) ∧
    (ok .stv 8 → va % 8 = 0 → asks .builtinStv .stv 8 fun r => r.lo = (m.arg 2).truncate 20 ∧ r.data = leBytes 8 (m.arg 3).toNat) ∧
    (∀ x ∈ [(Instr.builtinAtomAdd, 0), (.builtinAtomAnd, 1), (.builtinAtomOr, 2), (.builtinAtomXor, 3), (.builtinAtomSmin, 4), (.builtinAtomSmax, 5),
        (.builtinAtomSwap, 6), (.builtinAtomCas, 7), (.builtinAtomFaddF32, 8), (.builtinAtomFaddF64, 9)],
      let n := if dbl then 8 else 4
      (x.2 = 8 → dbl = false) → (x.2 = 9 → dbl = true) →
      (ok .atom n → va % n = 0 → asks x.1 (.atom x.2) n fun r => leNat r.data = (m.arg 2).toNat % 2 ^ (8 * n) ∧ leNat r.cmp = (m.arg 3).toNat % 2 ^ (8 * n)) ∧
      ((m.arg 1).getLsbD 23 = false → va % n ≠ 0 → fails x.1)) ∧
    (m.addr.toNat < 0x300 → (m.arg 1).getLsbD 22 = false → ∃ t, exec .builtinBadop s = .next t ∧ t.mem = s.mem ∧
      s.formed t fun x => x.kind = .resume ∧ x.dest = m.srank ∧ x.addr = (m.arg 1).extractLsb' 32 32 ∧ x.ilen = 8)

/-- Messages arrive in the order of their stream; flits move one hop nearer and eject at their destination.

Messages at their destination (spec 02 R53, R55, R60, R64, R68, R70; 16 R420; 17 R431, R432): the message of the expected ORD is taken, a spawn into the mailbox and a resume by the lowest WAITING context that matches; a later one is held; acknowledgements free the stream, refusals are retried, skips close gaps.

The torus (spec 17 R427 to R430): a flit at its destination leaves, the last of a message completes it, and an answer or a SKIP has its effect; another moves one hop nearer, the X direction first; a starving router stops its row and column for 8 cycles; the golden router moves on each epoch; a failed link is left out in both directions. -/
def Obligations.ArrivalAndTorusEvents : Prop :=
  (
    ∀ (s : State),
      let does (i : Instr) (q : State → Prop) : Prop := ∃ t, exec i s = .next t ∧ t.mem = s.mem ∧ q t
      let k := s.occ.a
      (∀ nm, s.net s.occ.a = some nm → nm.ph = .flying → nm.msg.noord = false →
        let m := nm.msg
        let core := localOf m.dest
        let x := s.stream nm.stream
        (nm.ord = x.expect → x.held = [] → x.skips = [] → core < 768 → s.partOf core = some m.part → m.malformed = false → s.deadAt core m.part m.scope = false →
          (s.core core).run = .inn → s.hasRoom core m = true →
          (m.kind = .spawn → s.launchOf m.part m.scope = none → does .messageArrival fun t => (t.core core).mailbox = (s.core core).mailbox ++ [{ m with came := s.nextNo }] ∧
            (t.stream nm.stream).expect = (x.expect + 1) % 256 ∧ s.dues t .handlerStart core ∧
            (s.foreign m = true → s.dues t .ackFlitArrival m.no nm.stream) ∧
            (s.foreign m = false → ∃ f ∈ t.fab.flits, f.kind = .ack ∧ f.msg = m.no ∧ f.dest = routerOf m.source)) ∧
          (∀ w, m.kind = .resume → m.hw = false → (List.range 16).find? (fun w => (s.ctx core w).st == .waiting && (s.ctx core w).takes m) = some w →
            does .messageArrival fun t => (t.ctx core w).st = .ready ∧ (t.stream nm.stream).expect = (x.expect + 1) % 256 ∧
              (t.ctx core w).gv (s.ctx core w).recv.rd = BitVec.ofNat 64 (m.addr.toNat * 2 ^ 32 + m.srclr.toNat * 2 ^ 20 + m.plen.toNat * 2 ^ 8 + m.ilen.toNat))) ∧
        (nm.ord ≠ x.expect → (x.held.any fun h => h.1 == nm.ord) = false → s.reorderUsed (s.streamHedge nm.stream) < 64 → does .messageArrival fun t =>
          (t.stream nm.stream).held = x.held ++ [(nm.ord, m.no)] ∧ (t.stream nm.stream).expect = x.expect)) ∧
      (∀ nm, s.fab.msgs = [nm] → nm.msg.no = s.occ.a → nm.ph = .arrived → s.occ.c = 1 → does .ackFlitArrival fun t => ∃ x, t.net s.occ.a = some x ∧ x.ph = .done) ∧
      (s.fab.msgs = [] → s.occ.c = 0 → does .ackFlitArrival fun t => (t.stream s.occ.b).unacked = (s.stream s.occ.b).unacked - 1) ∧
      (∀ nm, s.net s.occ.a = some nm → nm.msg.tries < 63 → does .nackFlitArrival fun t => (.nackRetry, { a := s.occ.a }) ∈ t.timers ∧
        ∃ x, t.net s.occ.a = some x ∧ x.ph = .retry ∧ x.msg = { nm.msg with tries := nm.msg.tries + 1 }) ∧
      (∀ nm, s.net s.occ.a = some nm → nm.ph = .retry → nm.msg.merge = false → s.msgOpen nm.msg = true →
        (nm.msg.noord = false → s.fab.msgs.filter (fun x => x.ph == .retry && !x.msg.noord && x.stream == nm.stream) = [nm]) → does .nackRetry fun t =>
        ∃ x, t.net s.occ.a = some x ∧ x.ph = .flying ∧ x.msg = nm.msg ∧ x.ord = nm.ord) ∧
      (∀ nm, s.net s.occ.a = some nm → nm.ph = .flying → nm.got ≠ nm.flits → nm.msg.merge = false → s.msgOpen nm.msg = true → does .sidebandResend fun t =>
        ∃ x, t.net s.occ.a = some x ∧ x.ph = .flying ∧ x.got = 0 ∧ x.ord = nm.ord) ∧
      ((s.stream k).held = [] → (s.stream k).skips = [] → (s.stream k).expect < 256 → does .skipFlitArrival fun t =>
        (s.occ.b = (s.stream k).expect → (t.stream k).expect = ((s.stream k).expect + 1) % 256 ∧ (t.stream k).skips = []) ∧
        (s.occ.b ≠ (s.stream k).expect → (t.stream k).expect = (s.stream k).expect ∧ (t.stream k).skips = [s.occ.b])) ∧
      (∀ c, let r : BitVec 24 := BitVec.ofNat 24 s.occ.b
        s.holder r = some (c, true) → (∀ x ∈ s.fab.msgs, x.msg.forThread r = true → x.msg.via = none) →
        (∀ x ∈ s.cores, x.1 ≠ s.occ.c → (∀ m ∈ x.2.mailbox, m.forThread r = false) ∧ ∀ y ∈ x.2.spilled, y.1.forThread r = false) →
        does .migrateComplete fun t => t.holder r = some (s.occ.c, false))) ∧
  (
    ∀ (s : State),
      let does (i : Instr) (q : State → Prop) : Prop := ∃ t, exec i s = .next t ∧ t.mem = s.mem ∧ q t
      let r := s.occ.a
      let others := s.fab.flits.filter fun f => f.at_ != r
      (∀ f nm, s.fab.flits.filter (fun f => f.at_ == r) = [f] → f.dest = r → f.kind = .data → f.port = 4 ∨ (f.port < 4 ∧ s.fab.links = []) → s.net f.msg = some nm →
        s.canEject f = true → nm.got + 1 = nm.flits →
        does .flitArrival fun t => t.fab.flits = others ∧ s.dues t .messageArrival f.msg) ∧
      (∀ f, s.fab.flits.filter (fun f => f.at_ == r) = [f] → f.dest = r → f.port = 4 → does .flitArrival fun t =>
        (f.kind = .ack → s.dues t .ackFlitArrival f.msg f.stream f.noord.toNat) ∧ (f.kind = .nack → s.dues t .nackFlitArrival f.msg) ∧
        (f.kind = .skip → s.dues t .skipFlitArrival f.stream f.ord)) ∧
      (∀ f p, s.fab.flits.filter (fun f => f.at_ == r) = [f] → f.dest ≠ r → f.port < 4 → s.fab.links = [] → (productive r f.dest).head? = some p →
        does .flitArrival fun t => t.fab.flits = others ++ [f.move p] ∧ s.dues t .flitArrival (neighbour r p)) ∧
      does .starveSignal (fun t => ∀ x, x < 96 → x / 8 = r / 8 ∨ x % 8 = r % 8 → tget t.fab.starving x = some 8) ∧
      does .goldenEpoch (fun t => t.fab.golden = (s.fab.golden + 1) % 96) ∧
      does .torusLinkFail (fun t => (r, s.occ.b % 4) ∈ t.fab.links ∧
        (neighbour r (s.occ.b % 4), if s.occ.b % 2 = 0 then s.occ.b % 4 + 1 else s.occ.b % 4 - 1) ∈ t.fab.links ∧ t.fab.flits = s.fab.flits))

/-- Handlers start with the registers of their message; scope replies, kills and preemption act on their context.

Handlers start (spec 01 R32; 02 R60, R61, R63; 15 R394): the lowest FREE context starts the message, its registers as the table of R61 has them and its control registers at the values of a handler start.

Replies of the scope unit, pauses, kills, switch-out and switch-in (spec 01 R30; 08 R235; 09 R267; 16 R404, R408, R409, R416, R418). -/
def Obligations.HandlerAndPreemptionEvents : Prop :=
  (
    ∀ (s : State) (m : Msg) (k : Nat),
      let core := s.occ.a
      (s.core core).run = .inn → (s.core core).mailbox = [m] → m.kind = .spawn → m.heldBack = false → m.bind = none → s.deadAt core m.part m.scope = false →
      (List.range 14).find? (fun k => (s.ctx core k).st == .free) = some k →
      ∃ t, exec .handlerStart s = .next t ∧ t.mem = s.mem ∧ (t.core core).mailbox = [] ∧
        let c := t.ctx core k
        c.st = .ready ∧ c.pc = (if m.inl then 0xFFFFFF00 else m.addr) ∧ (∀ i : Fin 4, c.g[i.val] = m.args[i]) ∧ c.gr 4 = ⟨m.srank.zeroExtend 64, false⟩ ∧
        c.gr 6 = ⟨(m.srclr ++ m.seqn : BitVec 32).zeroExtend 64, false⟩ ∧ c.gr 7 = ⟨m.addr.zeroExtend 64, false⟩ ∧ (∀ r : BitVec 4, 8 ≤ r.toNat → c.gr r = {}) ∧
        c.preds = 1 ∧ (∀ r, (c.tok r).st = .empty) ∧ c.ctl.base = m.scope ∧ c.ctl.cur = m.scope ∧ c.ctl.tmid = m.srclr ++ m.seqn ∧ c.ctl.fpst = 0 ∧ c.ctl.rtag = 0 ∧
        c.ctl.inhnd = true ∧ c.ctl.reld = false ∧ c.ctl.ie = true) ∧
  (
    ∀ (s : State),
      let core := s.occ.a
      let k := s.occ.b
      let c := s.ctx core k
      let does (i : Instr) (q : State → Prop) : Prop := ∃ t, exec i s = .next t ∧ q t
      (∀ rd no q v, c.hold = .scopeUnit rd no → s.scopeReqs.find? (fun q => q.no == no) = some q → q.result = some v → s.replyWaits core k = false → c.aligned →
        does .scopeUnitReply fun t => t.mem = s.mem ∧ (t.ctx core k).hold = .none ∧ (t.ctx core k).gr rd = ⟨v, false⟩) ∧
      (c.hold = .paused → does .pauseExpiry fun t => t = s.setCtx core k { c with hold := .none }) ∧
      (c.st = .ready → c.grp = [] → k < 14 → s.Inv → does .killTaken fun t => (t.ctx core k).st = .free ∧ t.frame core k 0xA5 1 = 3 ∧
        t.frame core k 0x84 4 = (if c.ctl.inhnd then 0x10060 else 0x60)) ∧
      ((s.core core).run = .switchingOut → k < 14 → c.st = .ready → c.hold = .none → c.ctl.ie = true → c.ctl.kpend = false → c.grp = [] → does .contextSwitchOut fun t =>
        (t.ctx core k).st = .saved ∧ (t.ctx core k).ctl.tpc = c.pc ∧ (t.ctx core k).g = c.g) ∧
      (∀ nm, s.numbered → s.net s.occ.a = some nm →
        let m := nm.msg
        let n := localOf m.dest
        let answered (t : State) (st : BitVec 8) : Prop := s.formed t fun x => x.kind = .resume ∧ x.dest = (m.arg 1).truncate 24 ∧ x.addr = (m.arg 1).extractLsb' 32 32 ∧ x.ilen = st
        ((s.core n).run = .inn → does .switchOut fun t => (t.core n).run = .switchingOut ∧
          (t.core n).sysreq.length = (s.core n).sysreq.length + 1 ∧ ∀ i < 14, (s.ctx n i).st ≠ .free → (t.ctx n i).ctl.ipend = true ∧ s.dues t .contextSwitchOut n i) ∧
        ((s.core n).run = .out → does .switchOut fun t => t.mem = s.mem ∧ answered t 0) ∧
        ((s.core n).run = .out → does .switchIn fun t => (t.core n).run = .switchingIn ∧ (.switchIn, { a := m.no }) ∈ t.timers) ∧
        ((s.core n).run = .switchingIn → m.heldBack = true → does .switchIn fun t => (t.core n).run = .inn ∧ (t.core n).spilled = [] ∧ answered t 0) ∧
        (m.arg 0 = 1 → m.heldBack = false → does .attention fun t => t.mem = s.mem ∧ (t.core n).attention = true ∧ (.attention, { a := m.no }) ∈ t.timers) ∧
        (m.arg 0 = 1 → m.heldBack = true → does .attention fun t => (t.core n).attention = false ∧ answered t 0 ∧ s.formed t fun x => x.payload = s.snapshot n)))

/-- RESUME, barriers between cores, reset and power of a core, and the scope units act as their rules say.

RESUME of a stopped context, barriers between cores, reset and power gating of a core (spec 08 R232, R233, R237; 16 R413, R424, R425).

Events of the scope units (spec 01 R41, R42; 08 R235, R236, R239, R240; 16 R424): scnew makes a LIVE child of its scope, scstat reports a scope's state, a binding with the member list held here makes the id LIVE under scope 0, a kill notice ends the waiting contexts of its subtree, and the last acknowledgement, or LINKWAIT, completes a prune. -/
def Obligations.CoreAndScopeUnitEvents : Prop :=
  (
    ∀ (s : State),
      let does (i : Instr) (q : State → Prop) : Prop := ∃ t, exec i s = .next t ∧ q t
      (∀ nm, s.net s.occ.a = some nm →
        let m := nm.msg
        let core := localOf m.dest
        let k := (m.arg 0).toNat / 2 ^ 24 % 16
        let n := (m.arg 2).toNat % 64
        let b := s.bar core n
        (k < 14 → (s.ctx core k).st = .stopped → s.doomed core (s.ctx core k) = false → s.frameHandler core k = false → s.frame core k 0xA4 1 ≠ 2 →
          ((m.arg 1).toNat % 4 = 0 → does .resumeBuiltin fun t => t.mem = s.mem ∧ (t.ctx core k).st = .ready ∧ (t.ctx core k).pc = s.framePc core k ∧
            (t.ctx core k).doneMask = BitVec.ofNat 4 (s.frame core k 0xBD 1)) ∧
          (2 ≤ (m.arg 1).toNat % 4 → does .resumeBuiltin fun t => (t.ctx core k).st = .free)) ∧
        (b.armed = true → b.broken = false → m.heldBack = false → b.kids.length < 16 → b.waitsParent = false → b.arrived + 1 ≠ b.parts → does .childArrival fun t =>
          t.mem = s.mem ∧ (t.bar core n).arrived = b.arrived + 1 ∧ (t.bar core n).acc = barCombine b.op b.acc (m.arg 0) ∧
          (t.bar core n).kids = b.kids ++ [((m.arg 1).truncate 24, (m.arg 1).extractLsb' 24 6)]) ∧
        (b.armed = true → b.broken = false → m.heldBack = false → b.waitsParent = true → does .barrierRelease fun t =>
          t.mem = s.mem ∧ (t.bar core n).gen = b.gen + 1 ∧ (t.bar core n).arrived = 0 ∧ (t.bar core n).waiters = [] ∧ (t.bar core n).armed = true) ∧
        (b.armed = true → b.broken = false → does .brokenNotice fun t => t.mem = s.mem ∧ (t.bar core n).broken = true ∧ (t.bar core n).waiters = [])) ∧
      (let core := s.occ.a
        let c := s.core core
        does .lcReset (fun t => (t.core core).run = .resetting ∧ (∀ k < 16, (t.ctx core k).st = .free) ∧ (.lcResetEnd, { a := core }) ∈ t.timers) ∧
        (c.run = .resetting → does .lcResetEnd fun t => t.mem = s.mem ∧ (t.core core).run = .inn) ∧
        (c.run = .inn → c.spaces = [] → (∀ k < 15, (s.ctx core k).st = .free ∧ (s.ctx core k).trank = none) → c.bars = [] → c.mailbox = [] → s.fab.ranks = [] →
          does .powerGate fun t => t = s.setCore core { c with run := .gated }) ∧
        (c.run = .ungating → does .ungatingEnd fun t => t = s.setCore core { c with run := .inn }))) ∧
  (
    ∀ (s : State),
      let does (i : Instr) (q : State → Prop) : Prop := ∃ t, exec i s = .next t ∧ q t
      (∀ q, s.scopeReqs.find? (fun q => q.no == s.occ.a) = some q → q.result = none →
        let answered (t : State) (v : Word) : Prop := s.dues t .scopeUnitReply q.core q.ctx ∧ ∃ x ∈ t.scopeReqs, x.no = q.no ∧ x.result = some v
        let e := s.scope q.part q.scope
        (q.isNew = false → q.sel = 0 → e.st ≠ .free → does .scopeRequest fun t => t.mem = s.mem ∧
          answered t (BitVec.ofNat 64 (e.st.code + e.policy.toNat * 4 + (e.group.getD 0xFF) * 2 ^ 8 + e.parent.toNat * 2 ^ 16))) ∧
        (q.isNew = true → e.st ≠ .live → does .scopeRequest fun t => t.mem = s.mem ∧ answered t (BitVec.ofNat 64 (4 * 2 ^ 16))) ∧
        (q.isNew = true → e.st = .live → q.tmpl.toNat / 2 ^ 8 % 2 ^ 8 = 0xFF → q.part < 8 → s.liveScopes < 4096 → (∃ j, 1 ≤ j ∧ j < 65536 ∧ s.idMay j = true) →
          does .scopeRequest fun t => t.mem = s.mem ∧ ∃ id : BitVec 16, id ≠ 0 ∧ (t.scope q.part id).st = .live ∧ (t.scope q.part id).parent = q.scope ∧
            (s.scope q.part id).st = .free ∧ answered t (BitVec.ofNat 64 id.toNat))) ∧
      (∀ o, o = s.occ → o.b < 65536 → (s.part o.a).isSet = true → (tget (s.part o.a).groups o.c).map (fun l => l.flatMap fun m => leBytes 2 m.toNat) = some o.bytes → s.idFree o.b = true → s.liveScopes < 4096 → does .scopeBinding fun t =>
          t.mem = s.mem ∧ (t.scope o.a (BitVec.ofNat 16 o.b)).st = .live ∧ (t.scope o.a (BitVec.ofNat 16 o.b)).parent = 0 ∧ (t.scope o.a (BitVec.ofNat 16 o.b)).bound = true) ∧
      (∀ nm, s.net s.occ.a = some nm → modOf nm.msg.srank ≠ s.modid → s.groupWith nm.msg.part (modOf nm.msg.srank) = false → does .killNotice fun t =>
        t.scopes = s.scopes ∧ t.prunes = s.prunes ∧ t.ctxs = s.ctxs) ∧
      (∀ nm n p, s.net s.occ.a = some nm → modOf nm.msg.srank = s.modid →
        let u := localOf nm.msg.dest
        s.prunes.find? (fun x => x.1 % 2 ^ 32 == (nm.msg.arg 0).toNat / 2 ^ 32 && !x.2.done) = some (n, p) → does .killNotice fun t =>
          (∃ x, tget t.prunes n = some x ∧ u ∈ x.noticed) ∧
          (u < 768 → ∀ k < 14, (s.ctx u k).st = .waiting → s.inScope p.part p.scope (s.ctx u k).ctl.cur = true → (t.ctx u k).st = .free)) ∧
      (∀ nm n p, s.occ.c = 0 → s.net s.occ.a = some nm → modOf nm.msg.srank = s.modid →
        s.prunes.find? (fun x => !x.2.done && !x.2.already && x.2.part == nm.msg.part && (x.2.scope == nm.msg.scope && x.2.waiting.contains (localOf nm.msg.srank))) = some (n, p) →
        p.waiting = [localOf nm.msg.srank] → p.members = [] → does .pruneAcknowledgement fun t => t.mem = s.mem ∧ ∃ x, tget t.prunes n = some x ∧ x.done = true) ∧
      (∀ p, tget s.prunes s.occ.a = some p → p.done = false → p.already = false → p.members ≠ [] → p.waiting = [] → does .pruneLinkwaitExpiry fun t =>
        t.mem = s.mem ∧ ∃ x, tget t.prunes s.occ.a = some x ∧ x.done = true ∧ x.partialEnd = true ∧ x.members = []) ∧
      (∀ nm, s.net s.occ.a = some nm →
        let id : BitVec 16 := (nm.msg.arg 1).truncate 16
        let e := s.scope nm.msg.part id
        e.st ≠ .free → does .resetReport fun t => t.mem = s.mem ∧ t.scope nm.msg.part id =
          { e with lost := e.lost + (nm.msg.arg 2).toNat, lostMsgs := e.lostMsgs + (nm.msg.arg 3).toNat }))

/-- Engines accept, refuse or retry commands; copies are split, moved line by line and ended.

Acceptance of commands and notices of their ends (spec 09 R244, R248, R249, R260): an engine with room queues a command that is well formed and starts it when it has no inputs to wait for; one with a bad field ends FAILED; one of a dead scope ends CANCELLED; the notice of an end settles every token register that still names the operation.

Copies (spec 09 R251 to R253, R260; 16 R422): a copy that can start is split into parts that each lie within 64 KiB of source and together are all of it; overlap and an empty copy end it at once; a part reads what stands between it and its next destination line and writes it; the last part done ends the copy. -/
def Obligations.CommandAndCopyEvents : Prop :=
  (
    ∀ (s : State) (n : Nat) (o : Op), s.occ.a = n → s.op n = some o →
      let ends (i : Instr) (st : TokSt) : Prop := ∃ t x, exec i s = .next t ∧ t.op n = some x ∧ x.ph = .ended ∧ x.st = st ∧ s.dues t .tokenNotice n
      let accepts (i : Instr) (unit cap : Nat) (bad : Option Nat) (start : Instr) (on : Nat) : Prop :=
        (s.scopeDead o.part o.scope = true → ends i .cancelled) ∧
        (s.scopeDead o.part o.scope = false → s.queued unit < cap →
          (bad.isSome = true → ends i .failed) ∧ (bad = none → o.inputFailed = true → ends i .cancelled) ∧
          (bad = none → o.inputFailed = false → ∃ t x, exec i s = .next t ∧ t.mem = s.mem ∧ t.op n = some x ∧ x.ph = .queued ∧ x.unit = unit ∧
            (o.edges = [] → s.dues t start on))) ∧
        (s.scopeDead o.part o.scope = false → cap ≤ s.queued unit → (64 ≤ o.tries → ends i .failed) ∧
          (o.tries < 64 → ∃ t x, exec i s = .next t ∧ t.mem = s.mem ∧ t.op n = some x ∧ x.ph = .sent ∧ x.tries = o.tries + 1 ∧ (i, { a := n }) ∈ t.timers))
      (o.ph = .sent →
        (s.sealsMet o = [] → accepts .copyCommandAccept (768 + o.core / 8) 32 o.copyBad .copyStart n) ∧
        accepts .walkCommandAccept o.core 8 (o.walkBad (if o.edges = [] then s.walkRow o else 0)) .walkStart n ∧
        accepts .tdeCommandAccept o.tdeUnit 8 o.tdeBad (if o.engine = .dispatch then .dispatchStart else .combineStart) n ∧
        accepts .djobAccept (872 + o.djobDie) 64 o.djobBad .jobGrant o.djobDie) ∧
      (o.ph = .ended → o.tk ≠ 0 → let c := s.ctx o.core o.ctx
        c.st = .ready → c.grp = [] → ∃ t, exec .tokenNotice s = .next t ∧ t.mem = s.mem ∧
          let d := t.ctx o.core o.ctx
          d.st = c.st ∧ d.g = c.g ∧ d.pc = c.pc ∧ ∀ i : Fin 8, d.toks[i] = (if c.toks[i].st = .pending ∧ c.toks[i].op = n then ⟨o.st, n⟩ else c.toks[i]))) ∧
  (
    ∀ (s : State) (n : Nat) (o : Op), s.occ.a = n → s.op n = some o →
      let ends (i : Instr) (st : TokSt) : Prop := ∃ t x, exec i s = .next t ∧ t.op n = some x ∧ x.ph = .ended ∧ x.st = st ∧ s.dues t .tokenNotice n
      (o.ready = true → o.inputFailed = false → o.sealed = [] →
        (o.copyLen = 0 → ends .copyStart .done) ∧
        (0 < o.copyLen → 0 < o.copyRows → o.overlaps = true → ends .copyStart .failed) ∧
        (o.engine = .copy → 0 < o.copyLen → o.overlaps = false → ∃ t x, exec .copyStart s = .next t ∧ t.mem = s.mem ∧ t.op n = some x ∧ x.ph = .started ∧
          (x.parts.map fun p => p.len).foldl (· + ·) 0 = o.copyLen ∧
          ∀ i p, x.parts[i]? = some p → s.dues t .copyPart n i ∧ p.pos = 0 ∧ p.done = false ∧ 0 < p.len ∧ p.src / 65536 = (p.src + p.len - 1) / 65536 ∧
            (p.src : Int) - o.copySrc 0 = (p.dst : Int) - o.copyDst 0)) ∧
      (∀ p, o.ph = .started → o.parts = [p] → p.done = false → s.occ.b = 0 →
        let va := p.dst + p.pos
        let k := min (64 - va % 64) (p.len - p.pos)
        (∀ i c, (i, c) ∈ [(Instr.copyPart, false), (.continuationProbe, true)] → p.continuation = c → p.failed = none → p.stopAt = none → p.buf = [] → p.pos < p.len →
          p.src % 64 = p.dst % 64 → s.copyOpen o p va = true → s.lineTaken n 0 va k = false →
          (∀ s1 bs bad s2, s.engRead o (p.src + p.pos) k = .ok s1 bs bad → bs.length = k → s1.engWrite o (768 + p.engine) .copy va bs bad = .ok s2 [] false → s2.op n = some o →
            ∃ t x q, exec i s = .next t ∧ t.mem = s2.mem ∧ t.op n = some x ∧ x.parts = [q] ∧ q.pos = p.pos + k ∧ q.buf = [] ∧ q.continuation = false ∧
              q.poisoned = p.poisoned + bad.toNat ∧ s2.dues t .copyPart n) ∧
          (∀ s1 r u, s.engRead o (p.src + p.pos) k = .fail s1 r u → s1.op n = some o → ∃ t x q, exec i s = .next t ∧ t.op n = some x ∧ x.parts = [q] ∧ q.failed = some (r, u) ∧
            s1.dues t .copyPartDone n)) ∧
        (o.killed = false → (p.failed = none → ends .copyPartDone .done) ∧ (p.failed.isSome = true → ends .copyPartDone .failed)) ∧
        (o.killed = true → ends .copyPartDone .cancelled)))

/-- Accesses of engines (spec 09 R251, R253; 10 R282, R283; 12 R322, R334, R337): in tile memory of a core a read gives its bytes and a write changes them, a sealed byte refuses it and a core that is switched out takes it later; in the global space of this module the same at the translated address. -/
def Obligations.EngineAccesses : Prop :=
  ∀ (s : State) (o : Op) (unit va : Nat) (kind : WKind) (bs : List Byte), 0 < bs.length →
    let n := bs.length
    (∀ core sp off, s.engPlace o va n = .ok (.tile core sp off) → (off < 0x3F000 → off + n ≤ 0x3F000) → (s.pinPages core sp off n).isSome = true →
      (∃ s1, s.engRead o va n = .ok s1 (s.tileRd core sp off n) (s.tilePoison core sp off n).isSome ∧ s1.mem = s.mem) ∧
      ((s.core core).run = .inn → (∀ i < n, s.sealedAt core sp (off + i) = false) →
        ∃ s1, s.engWrite o unit kind va bs false = .ok s1 [] false ∧ s1.mem = memWrite s.mem (tilePa core sp off) bs) ∧
      (∀ i < n, (s.core core).run = .inn → s.sealedAt core sp (off + i) = true → (∀ j < i, s.sealedAt core sp (off + j) = false) →
        s.engWrite o unit kind va bs false = .fail s 0x07 ⟨0x14, 0, BitVec.ofNat 64 (va + i)⟩) ∧
      ((s.core core).run = .out → s.engWrite o unit kind va bs false = .busy none)) ∧
    (∀ e, s.engPlace o va n = .ok .global → s.xlHit o.part va = some e → e.mod = s.modid → s.movingAt (s.redirect (e.pa va)) = none →
      (s.region o.part va = none → o.prof = none → s.asked o o.unit va n false [] = none → ∃ s1 bad, s.engRead o va n = .ok s1 (memRead s.mem (s.redirect (e.pa va)) n) bad ∧ s1.mem = s.mem) ∧
      (∀ sub, regionCheck (s.region o.part va) o.rank .engineWrite = some sub → ∃ s1, s.engWrite o unit kind va bs false = .fail s1 0x01 (regionTrap sub va) ∧ s1.mem = s.mem) ∧
      (s.region o.part va = none → s.asked o unit va n true bs = none → s.watches = [] → ∃ s1, s.engWrite o unit kind va bs false = .ok s1 [] false ∧
        s1.mem = memWrite s.mem (s.redirect (e.pa va)) bs))

/-- Walks run their kernel line by line; dense jobs are granted and dense words complete.

Walks (spec 09 R254, R255; 12 R329): the earliest walk that can start reads its ETD and goes on to its first line, a walk of no indices ends at once; a line's ids are read and the kernel starts with its arguments; after the last line the walk ends. A walk whose slots overrun their buffer is BADCMD.

Dense jobs and the completions of dense words (spec 09 R258; 10 R270, R271, R274, R275, R280 to R283, R294): the queue grants a job to a complex that waits, whose registers are then clear but for the JOB value; results and words complete and leave their lists; a transfer moves one line at a time; its fault waits for the next boundary; a reset of a complex starts it anew. -/
def Obligations.WalkAndDenseEvents : Prop :=
  (
    ∀ (s : State) (n : Nat) (o : Op), s.op n = some o →
      let core := o.core
      let w := (s.core core).iw
      let ends (i : Instr) (st : TokSt) : Prop := ∃ t x, exec i s = .next t ∧ t.op n = some x ∧ x.ph = .ended ∧ x.st = st ∧ s.dues t .tokenNotice n
      (s.occ.a = n → w.run = none → w.queue.head? = some n → o.ready = true →
        (o.inputFailed = true → ends .walkStart .cancelled) ∧
        (o.inputFailed = false → o.nidx = 0 → ends .walkStart (if o.slotsOver (s.walkRow o) then .failed else .done)) ∧
        (o.inputFailed = false → 0 < o.nidx → o.walkEtd % 64 ≠ 0 → ends .walkStart .failed) ∧
        (o.inputFailed = false → 0 < o.nidx → o.walkEtd % 64 = 0 → s.reachOpen o o.walkEtd 1 = true → ∀ s1 bs, s.engBytes o o.walkEtd 64 = .ok s1 bs false →
          let d : Etd := leNat bs
          d.rejected false = false → o.slotsOver d.len = false →
            ∃ t, exec .walkStart s = .next t ∧ t.mem = s1.mem ∧ (t.core core).iw.run = some n ∧ (t.core core).iw.desc = d ∧ (t.core core).iw.idx = 0 ∧
              s1.dues t .iwLineRun core)) ∧
      (s.occ.a = core → w.run = some n → w.inLine = false → o.ph = .started →
        (o.killed = true → ends .iwLineRun .cancelled) ∧
        (o.killed = false → w.pending = [] → (w.failed.isSome = true → ends .iwLineRun .failed) ∧ (w.failed = none → o.nidx ≤ w.idx → ends .iwLineRun .done)) ∧
        (o.killed = false → w.failed = none → w.idx < o.nidx →
          let width := o.idWidth / 8
          let k := min (64 / width) (o.nidx - w.idx)
          s.reachOpen o (o.field 1 0 48 + w.idx * width) 1 = true →
          ∀ s1 bs, s.engBytes o (o.field 1 0 48 + w.idx * width) (k * width) = .ok s1 bs false → ∃ t, exec .iwLineRun s = .next t ∧ t.mem = s1.mem ∧
            (t.core core).iw.line = bs ∧ (t.core core).iw.lineN = k ∧ (t.core core).iw.inLine = true ∧
            let c := t.ctx core 16
            c.st = .ready ∧ c.pc = BitVec.ofNat 32 (o.word 7) ∧ c.gv 0 = 0x41000 ∧ c.gv 1 = BitVec.ofNat 64 w.idx ∧ c.gv 2 = BitVec.ofNat 64 k ∧
            (∀ i : Fin 4, c.g[3 + i.val] = ⟨BitVec.ofNat 64 (o.word (8 + i)), false⟩) ∧ c.ctl.cur = o.scope))) ∧
  (
    ∀ (s : State),
      let die := s.occ.a
      let d := s.ds die
      let does (i : Instr) (q : State → Prop) : Prop := ∃ t, exec i s = .next t ∧ q t
      (∀ n p o dd, d.queue = [(n, p)] → s.op n = some o → o.ready = true → d.jgetWait = some dd →
        (o.inputFailed = true → does .jobGrant fun t => ∃ x, t.op n = some x ∧ x.ph = .ended ∧ x.st = .cancelled) ∧
        (o.inputFailed = false → d.outst = [] → d.pend = [] → ∀ s1 bs, ((s.setDs die { d with lastGrant := o.part, queue := [] }).setOp n { o with ph := .started }).engBytes o (o.field 2 0 48) 8
            = .ok s1 bs false → leNat bs / 2 ^ 32 = 0 → leNat bs % 16 = 0 → 0x400 ≤ leNat bs → leNat bs < 0xFFFFFF00 → leNat bs + 16 ≤ (s1.part o.part).codeLen →
          does .jobGrant fun t => let e := t.ds die
            e.job = some n ∧ e.killed = false ∧ e.dpc = BitVec.ofNat 32 (leNat bs) ∧ e.lastPart = some o.part ∧ e.jgetWait = none ∧ e.dv dd = e.jobWord ∧
            (∀ r, r ≠ dd → e.dv r = 0) ∧ (∀ r, e.ag r = {}) ∧ (d.lastPart = some o.part → t.mem = s1.mem))) ∧
      (∀ p, d.pend[s.occ.b]? = some p → does .dsResultWrite fun t => t.mem = s.mem ∧ (t.ds die).pend = d.pend.eraseIdx s.occ.b ∧
        (∀ r, (t.ds die).dv r = if p.dest = .d r then p.val else d.dv r) ∧ ∀ r, (t.ds die).ag r =
          (if p.dest = .base r then { d.ag r with base := p.val.truncate 48 } else if p.dest = .stride r then { d.ag r with stride := p.val.truncate 32 }
           else if p.dest = .count r then { d.ag r with count := p.val.truncate 32 } else d.ag r)) ∧
      (∀ w, d.outst.find? (fun w => w.no == s.occ.b) = some w →
        does .dsWordComplete (fun t => ∀ y ∈ (t.ds die).outst, y ∈ d.outst ∧ y.no ≠ w.no) ∧
        (∀ x y, w.op = .std x y → does .dsWordComplete fun t => t.mem = memWrite s.mem (dbPa die w.a.addr) (leBytes 8 w.v.toNat)) ∧
        (w.op = .mswap → does .dsWordComplete fun t => t.mem = s.mem ∧ (t.ds die).active = !d.active) ∧
        (∀ x y, w.op = .dbcpy x y → w.b.count = 1 → does .dsWordComplete fun t => t = (dbMove s die w.a.count.toNat (w.a.row 0) (w.b.row 0)).dRemove die w.no) ∧
        (∀ x y n o, w.op = .xin x y → d.job = some n → s.op n = some o → 0 < w.a.count.toNat →
          let len := w.a.count.toNat
          let row := w.done / len
          let off := w.done % len
          let va := w.b.mrow row + off
          let k := min (64 - va % 64) (len - off)
          (w.b.count.toNat ≤ row → does .dsTransferDone fun t => t.mem = s.mem ∧ ∀ y ∈ (t.ds die).outst, y.no ≠ w.no) ∧
          let alone := off + k < len ∨ w.b.count.toNat ≤ row + 1 ∨ w.b.mrow (row + 1) / 64 ≠ va / 64
          (row < w.b.count.toNat → d.killed = false → s.reachOpen o va 1 = true → alone → ∀ s1 bs, s.engRead { o with system := false } va k = .ok s1 bs false → s1.ds die = d →
            does .dsTransferDone fun t => t.mem = memWrite s1.mem (dbPa die (w.a.row row + off)) bs ∧
              ∃ y ∈ (t.ds die).outst, y.no = w.no ∧ y.done = w.done + k) ∧
          (row < w.b.count.toNat → d.killed = false → s.reachOpen o va 1 = true → ∀ s1 r u, s.engRead { o with system := false } va k = .fail s1 r u → s1.ds die = d → d.xfault = none →
            does .dsTransferDone fun t => t.mem = s.mem ∧ (t.ds die).xfault = some (if r = 0x0C then ⟨0x50, 0x0B, BitVec.ofNat 64 va⟩ else u) ∧
              s.dues t .dsTransferFault die))) ∧
      (∀ u, d.xfault = some u → d.tfault = none → d.tHandling = false → does .dsTransferFault fun t => t = s.setDs die { d with xfault := none, tfault := some u }) ∧
      (d.up = false ∨ d.halted = true → does .dsReset fun t => (t.ds die).up = true ∧ (t.ds die).halted = false ∧ (t.ds die).job = none ∧ (t.ds die).queue = d.queue ∧
        ∀ r, (t.ds die).dv r = 0))

/-- Dispatch and combine (spec 14 R358 to R365, R372 to R375, R491): a dispatch that can start goes from COUNT to EXCHANGE with its pairs classified; counts of a peer are held for their round, and a different CHECK fails it; an ABORT fails it or discards what is held; one that fails ends when its last records are written; it ends DONE with its context idle and its round remembered; a combine of that round starts, writes its tokens in order and ends. -/
def Obligations.TokenDispatchEvents : Prop :=
  ∀ (s : State) (n : Nat) (o : Op), s.op n = some o → o.ph ≠ .ended →
    let u := o.tdeUnit
    let c := o.tdeCtx
    let x := s.dc u c
    let does (i : Instr) (q : State → Prop) : Prop := ∃ t, exec i s = .next t ∧ q t
    let ends (i : Instr) (st : TokSt) : Prop := does i fun t => ∃ y, t.op n = some y ∧ y.ph = .ended ∧ y.st = st ∧ s.dues t .tokenNotice n
    let may := s.occ.a = n ∧ x.run = none ∧ o.ready = true
    let canStart := may ∧ s.tdeFirst u c = some n ∧ ((s.tde u).ctxs.filter fun y => y.2.run.isSome).length < 4
    let o1 : Op := { o with ph := .started }
    let x0 : TdeCtx := { x with run := some n, phase := 0, pass := 0, stage := 0, pairs := [], srcs := [], tab := [], stab := [], rows := [], puts := [], after := [], fin := none,
                                drops := [], f := [], placed := 0, spilled := 0, rerouted := 0, dropped := 0, skipped := 0, dcount := 0,
                                heldRound := if x.heldRound = some o.round then none else x.heldRound }
    let x1 : TdeCtx := { x0 with phase := 1, puts := putRun x0.dlog (x0.header o.round 0x80) }
    let s0 := ((s.setOp n o1).setDc u c x0).setDc u c x1
    let aborts (i : Instr) (r : Nat) : Prop := does i fun t => (t.dc u c).phase = 5 ∧ (t.dc u c).fin = some ⟨.failed, r, ⟨0, 0, 0⟩, false⟩ ∧ s.dues t .dispatchEnd n
    (may → o.inputFailed = true → ends .dispatchStart .cancelled ∧ ends .combineStart .cancelled) ∧
    (canStart → o.inputFailed = false → (o.word 1).testBit 16 = false → x.loaded = true → x.chunks = [] → s.engOpen o 0 = true → s.engOpen o 1 = true →
      let z : TdeCtx := { x1 with puts := [] }
      ∀ s1 s2 s3 bs srcs me ids, s0.tdeFlush o1 false = (s1, none) → s1.dc u c = z → s1.engBytes o1 x.srcl (4 * x.nsrc) = .ok s2 bs false →
        readSources s2 u c (elems 4 x.nsrc bs) = .ok (srcs, me) → (∀ p ∈ srcs, modOf p.1 = s.modid) →
        readIds (s2.setDc u c { z with srcs := srcs, me := me }) o1 (o.ntok * x.k) (o.field 5 0 48) (o.ntok * x.k) = .ok s3 ids →
        let ps := (List.range o.ntok).flatMap fun t => classifyTok x.nexp x.kr 0 ((ids.drop (t * x.k)).take x.k) []
        (∀ p ∈ ps, p.2 = 0) → does .dispatchStart fun t => let y := t.dc u c
          y.run = some n ∧ y.phase = 2 ∧ y.pass = 0 ∧ y.srcs = srcs ∧ y.me = me ∧ y.pairs = (ps.map fun p => p.1) ∧
            (srcs.length = 1 → me = 0 → s3.dues t .dispatchStart n)) ∧
    (∀ nm, s.net s.occ.a = some nm → localOf nm.msg.dest = u → bits (nm.msg.arg 0).toNat 52 4 = c →
      let m := nm.msg
      let round : BitVec 32 := BitVec.ofNat 32 (m.arg 0).toNat
      let k := bits (m.arg 1).toNat 12 8
      let ch : TdeChunk := { round := round, pass := bits (m.arg 0).toNat 32 2, src := bits (m.arg 0).toNat 40 12, first := bits (m.arg 1).toNat 0 12,
                             counts := elems 4 k m.payload, check := (m.arg 2).truncate 32 }
      let y : TdeCtx := { x with chunks := x.chunks ++ [ch] }
      (x.run = none → does .exchangeCounts fun t => t.mem = s.mem ∧ t.dc u c = { y with heldRound := some round }) ∧
      (x.run = some n → o.engine = .dispatch → o.round = round → x.phase = 2 → ch.check = x.check → y.allHeard o.round = false →
        does .exchangeCounts fun t => t.mem = s.mem ∧ t.dc u c = y) ∧
      (x.run = some n → o.engine = .dispatch → o.round = round → x.phase = 2 → ch.check ≠ x.check → aborts .exchangeCounts 0x12) ∧
      (x.run = none → does .tdeAbort fun t => t.mem = s.mem ∧ (t.dc u c).heldRound ≠ some round ∧ ∀ z, z ∈ (t.dc u c).chunks ↔ z ∈ x.chunks ∧ z.round ≠ round) ∧
      (x.run = some n → o.engine = .dispatch → o.round = round → x.phase = 1 ∨ x.phase = 2 → aborts .tdeAbort 0x17)) ∧
    (s.occ.a = n → x.run = some n → x.phase = 4 →
      ends .dispatchEnd .done ∧ ends .combineEnd .done ∧
      does .dispatchEnd fun t => (t.dc u c).run = none ∧ (t.dc u c).lastRound = some o.round ∧ (t.dc u c).lastNtok = o.ntok) ∧
    (∀ e, s.occ.a = n → x.run = some n → x.phase = 5 → x.puts = [] → x.fin = some e → ends .dispatchEnd e.st ∧ ends .combineEnd e.st) ∧
    (canStart → o.inputFailed = false → x.loaded = true → x.lastRound = some o.round → x.lastNtok = o.ntok → does .combineStart fun t => t.mem = s.mem ∧
      (t.dc u c).run = some n ∧ (t.dc u c).progress = 0 ∧ s.dues t .combineStart n) ∧
    (canStart → o.inputFailed = false → x.loaded = false → does .combineStart fun t => (t.dc u c).phase = 5 ∧ (t.dc u c).fin = some ⟨.failed, 0x10, ⟨0, 0, 0⟩, false⟩ ∧
      s.dues t .combineEnd n) ∧
    (s.occ.a = n → x.run = some n → x.phase = 1 → x.puts = [] →
      (x.progress = o.ntok → does .combineStart fun t => t.mem = s.mem ∧ (t.dc u c).phase = 4 ∧ s.dues t .combineEnd n) ∧
      (x.progress ≠ o.ntok → s.engOpen o 0 = true → s.engOpen o 1 = true → ∀ s1 sums re ze s2,
        combineTok s o x x.progress x.kr 0 (List.replicate (o.rowBytes / (fwidth x.ety / 8)) (0, false), x.resid, x.zeroed) = .ok s1 (sums, re, ze) → x.ety = .f32 →
        let bs := sums.flatMap fun p => (leBytes 4 p.1).map fun b => (b, p.2)
        let y : TdeCtx := { x with resid := re, zeroed := ze, puts := outPuts 16 (o.field 2 0 48 + x.progress * o.rowBytes) bs }
        (s1.setDc u c y).tdeFlush o false = (s2, none) → s2.dc u c = { y with puts := [] } →
        does .combineStart fun t => t.mem = s2.mem ∧ (t.dc u c).progress = x.progress + 1 ∧ (t.dc u c).resid = re ∧ (t.dc u c).zeroed = ze ∧
          s2.dues t .combineStart n))

/-- Placement (spec 14 R366): in a pass, two pairs of the same expert that are placed get different slots, from the rows the expert holds and those of lower sources upward, each below the capacity of the expert; every other pair of the pass stays as it was or is over capacity. -/
def Obligations.PlacementSlots : Prop :=
  ∀ (kr : Nat) (tab : Table PEntry) (f below n : List Nat) (ps : List TPair), (∀ p ∈ ps, p.target < n.length) →
    let out := placePairs kr tab f below ps n
    out.length = ps.length ∧
    ∀ i p q, ps[i]? = some p → out[i]? = some q →
      let mine (p : TPair) : Prop := p.st = .live ∧ (p.choice < kr ∨ p.re = true)
      (¬mine p → q = p) ∧ (mine p → q.target = p.target ∧ (q.st = .over ∨ q.st = .placed)) ∧
      (mine p → q.st = .placed → f.getD p.target 0 + below.getD p.target 0 + n.getD p.target 0 ≤ q.slot ∧ ∃ v, tget tab p.target = some v ∧ q.slot < v.cap ∧
        ∀ (j : Nat) (p' q' : TPair), j ≠ i → ps[j]? = some p' → out[j]? = some q' → mine p' → q'.st = .placed → q'.target = q.target → q'.slot ≠ q.slot)

/-- Launches queue, are checked and loaded, get spaces, run waves and end with a custody record; ports grant traffic by budget.

Launches queue and are checked (spec 15 R382 to R386, R388): a submitted record enters its partition's queue with a new id, or waits while the queue is full; the distributor takes the first entry of the selected queue that waits for no space and rejects a record that fails a check with that check's code, the first ones being BADREC, an empty or foreign placement, and an image beyond the code region; a record that passes is loaded line by line; a loaded launch binds its scope and spaces and is accepted, waits for space, or ends.

Spaces of launches at cores (spec 15 R388, R389, R393, R395, R396, R398): a fan-out takes a space whose pages are zero, forwards itself to the children of the core and presents the entry handler's spawn; a space on demand is granted with a free number or refused; a grant sets the space up, a refusal is remembered until a budget period ends; a release gives the space back and goes on to the children.

Waves and the end of a launch (spec 15 R384, R386, R391 to R393; 18 R468, R469): each wave asks the root, whose nodes answer with their counts or ask their children; the last report judges it, and two waves alike with as many messages received as sent end the launch; its end gives the submitter OK, frees the scope and asks for the custody record, which the SMC signs into the partition's ring.

Interference budgets (spec 15 R398 to R401; 18 R457, R479): while a partition that is set up has no profile in force, a port grants it class 7 while capacity is left, and nothing else; a packet is charged whole to its partition, profile and class at each port it takes and to no other; what a port does not grant stays where it is and is neither dropped nor refused; at the boundary of a period every counter is 0, the profiles and the capacity factor set meanwhile come into force, and a message that waited goes out when its ports grant it. When a boundary comes, and which ports an engine's data asks, is this model's (log entry 36). -/
def Obligations.LaunchEvents : Prop :=
  (
    ∀ (s : State), s.numbered →
      let does (i : Instr) (q : State → Prop) : Prop := ∃ t, exec i s = .next t ∧ q t
      (∀ nm, s.net s.occ.a = some nm →
        let m := nm.msg
        let q := (s.part m.part).launchQ
        (q.length < 16 → does .launchSubmission fun t => t.mem = s.mem ∧ s.dues t .distributorSelect ∧ ∃ lid l, (t.part m.part).launchQ = q ++ [lid] ∧
          tget t.launches lid = some l ∧ l.record = m.payload.take 256 ∧ l.rank = m.srank ∧ l.part = m.part ∧ l.subScope = m.scope ∧ l.host = false ∧ l.st = .queued) ∧
        (16 ≤ q.length → does .launchSubmission fun t => t = s.later .launchSubmission m.no)) ∧
      (∀ part lid l0, (∀ x ∈ s.launches, x.2.st ≠ .selected ∧ x.2.st ≠ .loading ∧ x.2.st ≠ .binding) → s.launches.length < 64 → s.pickPart = some part →
        s.nextOf part = some lid → tget s.launches lid = some l0 → l0.part = part → l0.killed = false → s.scopeDead part l0.parent = false →
        let p := s.part part
        let cores := placed ((l0.record.drop 96).take 96)
        let rejects (c : Nat) : Prop := does .distributorSelect fun t => t.mem = s.mem ∧ tget t.launches lid = none ∧ (t.part part).launchQ = p.launchQ.filter (· != lid) ∧
          s.formed t fun x => x.kind = .resume ∧ x.dest = l0.rank ∧ x.ilen = stFailed ∧ (x.arg 0).toNat % 2 ^ 16 = c
        let wellPlaced := cores ≠ [] ∧ ∀ k ∈ cores, k ∈ partCores p
        (l0.badRec = true → rejects 0x01) ∧
        (l0.badRec = false → ¬wellPlaced → rejects 0x02) ∧
        (l0.badRec = false → wellPlaced → p.codeLen < l0.idst + l0.ilen → rejects 0x03) ∧
        (l0.badRec = false → wellPlaced → l0.idst + l0.ilen ≤ p.codeLen → l0.nrank = 0 → l0.fld 26 0 48 = 0 →
          (l0.entryOk (l0.fld 1 0 32) = false → rejects 0x04) ∧
          (l0.entryOk (l0.fld 1 0 32) = true → (s.scope part l0.parent).st = .free → rejects 0x07) ∧
          (l0.entryOk (l0.fld 1 0 32) = true → (s.scope part l0.parent).st ≠ .free → (l0.host = true ∨ s.inScope part l0.subScope l0.parent = true) →
            does .distributorSelect fun t => t.mem = s.mem ∧ (∃ l, tget t.launches lid = some l ∧ l.st = .loading ∧ l.cores = cores) ∧
              (t.part part).launchQ = p.launchQ ∧ s.dues t .launchLoadDone lid))) ∧
      (∀ l, tget s.launches s.occ.a = some l → l.st = .loading →
        let lid := s.occ.a
        (∀ s1 l1, s.loadLine l = .more s1 l1 → does .launchLoadDone fun t => t.mem = s1.mem ∧ tget t.launches lid = some l1 ∧ s1.dues t .launchLoadDone lid) ∧
        (∀ s1 c, s.loadLine l = .ends s1 c → s1.numbered →
          (l.killed = true ∨ s1.scopeDead l.part l.parent = true → does .launchLoadDone fun t => t.mem = s1.mem ∧ tget t.launches lid = none ∧
            s1.formed t fun x => x.kind = .resume ∧ x.dest = l.rank ∧ x.ilen = stCancelled) ∧
          (l.killed = false → s1.scopeDead l.part l.parent = false →
            (c ≠ 0 → c < 2 ^ 16 → does .launchLoadDone fun t => t.mem = s1.mem ∧ tget t.launches lid = none ∧
              s1.formed t fun x => x.kind = .resume ∧ x.dest = l.rank ∧ x.ilen = stFailed ∧ (x.arg 0).toNat % 2 ^ 16 = c) ∧
            (c = 0 → does .launchLoadDone fun t => t.mem = s1.mem ∧ tget t.launches lid = some { l with st := .binding } ∧ s1.dues t .launchLoadDone lid)))) ∧
      (∀ l, tget s.launches s.occ.a = some l → l.st = .binding →
        let lid := s.occ.a
        (l.killed = true ∨ s.scopeLive l.part l.parent = false → does .launchLoadDone fun t => t.mem = s.mem ∧ tget t.launches lid = none ∧
          s.formed t fun x => x.kind = .resume ∧ x.dest = l.rank ∧ x.ilen = stCancelled) ∧
        (l.killed = false → s.scopeLive l.part l.parent = true →
          ((∃ k ∈ l.cores, 8 ≤ s.spacesOn k) → does .launchLoadDone fun t => t.mem = s.mem ∧ (t.part l.part).launchQ.head? = some lid ∧
            ∃ x, tget t.launches lid = some x ∧ x.waitSpace = true ∧ x.st = .queued) ∧
          ((∀ k ∈ l.cores, s.spacesOn k < 8) → ∀ s2 id, s.allocId = (s2, some id) → s2.numbered → does .launchLoadDone fun t =>
            t.mem = s.mem ∧ (t.scope l.part id).st = .live ∧ (t.scope l.part id).parent = l.parent ∧ (t.scope l.part id).launch = some lid ∧
            (∃ x, tget t.launches lid = some x ∧ x.st = .spawning ∧ x.scope = id) ∧ lid ∉ (t.part l.part).launchQ ∧ s2.dues t .waveStart lid ∧
            s2.formed t fun x => x.kind = .builtin ∧ x.addr = 0x320 ∧ x.dest = s2.rankOf (l.cores.headD 0) ∧ x.scope = id ∧ x.args = l.args)))) ∧
  (
    ∀ (s : State), s.numbered →
      let does (i : Instr) (q : State → Prop) : Prop := ∃ t, exec i s = .next t ∧ q t
      let field (m : Msg) (o k : Nat) : Nat := leNat ((m.payload.drop o).take k)
      (∀ nm, s.net s.occ.a = some nm →
        let m := nm.msg
        let core := localOf m.dest
        let kids := kidsOf (placed (m.payload.take 96)) core
        let space (t : State) (n : Nat) (scope : BitVec 16) : Prop :=
          ∃ x, tget (t.core core).spaces n = some x ∧ x.held = true ∧ x.ready = true ∧ x.scope = scope ∧ x.allot = field m 0x78 8 / 2 ^ 18 % 64 ∧
            x.dflt.linkwait = BitVec.ofNat 32 (field m 0x70 4 % 2 ^ 20)
        (∀ n, s.deadAt core m.part m.scope = false → s.spaceFor core m.part m.scope = none → (s.launchOf m.part m.scope).bind (s.spaceOf core) = none → s.freeSpace core = some n →
          field m 0xC8 8 % 2 ^ 18 = 0 →
          (s.core core).run = .inn → (s.core core).mailbox = [] → m.heldBack = true ∨ kids = [] → s.unitsUsed core < 1024 → (∀ i : BitVec 2, s.laneUsed core i < 8) →
          does .launchFanout fun t => t.mem = memZero s.mem (tilePa core n 0) 0x3F000 ∧ space t n m.scope ∧ s.dues t .handlerStart core ∧
            ∃ sp, (t.core core).mailbox = [sp] ∧ sp.kind = .spawn ∧ sp.addr = BitVec.ofNat 32 (field m 0x60 4) ∧ sp.args = m.args ∧ sp.scope = m.scope) ∧
        (∀ k, s.deadAt core m.part m.scope = false → m.heldBack = false → kids = [k] → does .launchFanout fun t =>
          (∃ y ∈ (t.core core).nodes, y.part = m.part ∧ y.scope = m.scope ∧ y.kids = [k]) ∧
          s.formed t fun x => x.addr = m.addr ∧ x.dest = s.rankOf k ∧ x.payload = m.payload ∧ x.args = m.args) ∧
        (∀ n, (m.arg 0).getLsbD 63 = false → n = (m.arg 0).toNat % 16 → field m 0xC8 8 % 2 ^ 18 = 0 →
          (tget (s.core core).spaces n).map (fun x => x.held && !x.ready && x.scope == (m.arg 1).truncate 16) = some true → does .tileSpaceGrant fun t =>
          t.mem = memZero s.mem (tilePa core n 0) 0x3F000 ∧ space t n ((m.arg 1).truncate 16)) ∧
        ((m.arg 0).getLsbD 63 = true → does .tileSpaceGrant fun t => t.mem = s.mem ∧ ((m.arg 1).truncate 16 : BitVec 16) ∈ (t.core core).refused ∧
          (.budgetPeriod, {}) ∈ t.timers) ∧
        (∀ scope : BitVec 16, scope = (m.arg 0).truncate 16 →
          (does .launchRelease fun t => t.mem = s.mem ∧ (∀ x ∈ (t.core core).spaces, x.1 < 8 → x.2.held = true → x.2.scope ≠ scope) ∧
            ∀ y ∈ (t.core core).nodes, y.part = m.part → y.scope ≠ scope) ∧
          (∀ k, s.kidsAt core m.part scope = [k] → does .launchRelease fun t => s.formed t fun x => x.addr = 0x32C ∧ x.dest = s.rankOf k ∧ x.arg 0 = m.arg 0)) ∧
        (let scope : BitVec 16 := (m.arg 0).truncate 16
          let core := localOf ((m.arg 1).truncate 24)
          (s.launchOf m.part scope = none → does .tileSpaceRequest fun t => t.mem = s.mem ∧
            s.formed t fun x => x.addr = 0x340 ∧ x.dest = s.rankOf core ∧ x.arg 0 = 0x8000000000000000 ∧ (x.arg 1).truncate 16 = scope) ∧
          (∀ lid l n, s.launchOf m.part scope = some lid → tget s.launches lid = some l → l.st = .running → s.spacesOn core < 8 → l.cores.contains core = false →
            l.granted.contains core = false → s.spaceOf core lid = none → s.freeSpace core = some n → n < 8 → does .tileSpaceRequest fun t => t.mem = s.mem ∧
              (∃ x, tget t.launches lid = some x ∧ core ∈ x.granted) ∧ (∃ x, tget (t.core core).spaces n = some x ∧ x.held = true ∧ x.launch = lid) ∧
              s.formed t fun x => x.addr = 0x340 ∧ x.dest = s.rankOf core ∧ x.arg 0 = BitVec.ofNat 64 n ∧ (x.arg 1).truncate 16 = l.scope) ∧
          (∀ lid l n, s.launchOf m.part scope = some lid → tget s.launches lid = some l → l.st = .running → l.cores.contains core = true → s.spaceOf core lid = some n →
            does .tileSpaceRequest fun t => t.mem = s.mem ∧ tget t.launches lid = some l ∧
              s.formed t fun x => x.addr = 0x340 ∧ x.dest = s.rankOf core ∧ x.arg 0 = BitVec.ofNat 64 n ∧ (x.arg 1).truncate 16 = l.scope))) ∧
      (s.fab.portQ = [] → (∀ x ∈ s.fab.msgs, x.ph ≠ .atSender) → does .budgetPeriod fun t => t.mem = s.mem ∧ t.ctxs = s.ctxs ∧ t.fab.msgs = s.fab.msgs ∧
        ∀ k, (t.core k).refused = [] ∧ (t.core k).spaces = (s.core k).spaces)) ∧
  (
    ∀ (s : State), s.numbered →
      let does (i : Instr) (q : State → Prop) : Prop := ∃ t, exec i s = .next t ∧ q t
      (∀ l k, tget s.launches s.occ.a = some l → l.st = .running → l.cores.take 1 = [k] → l.granted = [] → does .waveStart fun t => t.mem = s.mem ∧
        (∃ x, tget t.launches s.occ.a = some x ∧ x.wave = l.wave + 1 ∧ x.waiting = [k]) ∧
        s.formed t fun x => x.addr = 0x324 ∧ x.dest = s.rankOf k ∧ x.arg 2 = BitVec.ofNat 64 ((l.wave + 1) % 2 ^ 16) ∧ (x.arg 3).truncate 16 = l.scope) ∧
      (∀ l, tget s.launches s.occ.a = some l → l.st = .spawning → l.killed = false →
        ((∀ x ∈ s.fab.msgs, l.outs.contains x.msg.no = true → x.ph ≠ .atSender) → does .waveStart fun t => t.mem = s.mem ∧
          ∃ x, tget t.launches s.occ.a = some x ∧ x.st = .running ∧ x.wave = l.wave + 1) ∧
        ((∃ x ∈ s.fab.msgs, l.outs.contains x.msg.no = true ∧ x.ph = .atSender) → does .waveStart fun t => t = s.later .waveStart s.occ.a)) ∧
      (∀ nm, s.net s.occ.a = some nm →
        let m := nm.msg
        let u := localOf m.dest
        let s' := s.delNet m.no
        let scope : BitVec 16 := (m.arg 3).truncate 16
        let no := (m.arg 2).toNat % 2 ^ 16
        let v := s'.nodeSums m.part scope (· == u) true
        let word (l : List Nat) (i : Nat) : Word := BitVec.ofNat 64 (l.getD (2 * i) 0 * 2 ^ 32 + l.getD (2 * i + 1) 0)
        (s.deadAt u m.part scope = false →
          (s.kidsAt u m.part scope = [] → does .waveRequest fun t => t.mem = s.mem ∧
            s.formed t fun x => x.addr = 0x328 ∧ x.dest = m.srank ∧ x.arg 0 = word v 0 ∧ x.arg 1 = word v 1 ∧ (x.arg 2).toNat % 2 ^ 16 = no) ∧
          (∀ k, s.kidsAt u m.part scope = [k] → does .waveRequest fun t => t.mem = s.mem ∧
            ({ part := m.part, scope := scope, no := no, up := m.srank, waiting := [k], sums := v } : Wave) ∈ (t.core u).waves ∧
            s.formed t fun x => x.addr = 0x324 ∧ x.dest = s.rankOf k ∧ x.arg 2 = m.arg 2)) ∧
        (∀ w, u ≠ 876 → (s.core u).waves = [w] → w.part = m.part → w.scope = scope → w.no = no → w.waiting.contains (localOf m.srank) = true →
          let sums := joinSums w.sums (reportSums m)
          (w.waiting = [localOf m.srank] → does .waveReport fun t => t.mem = s.mem ∧ (t.core u).waves = [] ∧
            s.formed t fun x => x.addr = 0x328 ∧ x.dest = w.up ∧ x.arg 0 = word sums 0 ∧ x.arg 1 = word sums 1) ∧
          (∀ y ∈ w.waiting, y ≠ localOf m.srank → does .waveReport fun t => t.mem = s.mem ∧
            (t.core u).waves = [{ w with waiting := w.waiting.filter (· != localOf m.srank), sums := sums }])) ∧
        (∀ lid l, u = 876 → s.launches = [(lid, l)] → l.part = m.part → l.scope = scope → l.st = .running → l.wave % 2 ^ 16 = no → l.waiting = [localOf m.srank] →
          let own := s'.nodeSums l.part l.scope (fun u => !(l.cores ++ l.granted).contains u) false
          let lost := ((s.subtree l.part l.scope).map fun id => (s.scope l.part id).lostMsgs).foldl (· + ·) 0
          let v := joinSums (joinSums (joinSums l.sums (reportSums m)) own) [lost, 0, 0, 0, 0, 1]
          let quiet : Prop := v = l.prev ∧ v.getD 5 0 = 1 ∧ v.getD 0 0 = v.getD 1 0
          (quiet → does .waveReport fun t => t.mem = s.mem ∧ s.dues t .launchEnd lid ∧ ∃ x, tget t.launches lid = some x ∧ x.st = .draining) ∧
          (¬quiet → does .waveReport fun t => t.mem = s.mem ∧ (.waveStart, { a := lid }) ∈ t.timers ∧
            ∃ x, tget t.launches lid = some x ∧ x.st = .running ∧ x.prev = v ∧ x.waiting = []))) ∧
      (∀ l, tget s.launches s.occ.a = some l →
        let lid := s.occ.a
        (l.st = .draining → l.killed = false → l.released = true → s.smc.custQ.length < 256 → does .launchEnd fun t => t.mem = s.mem ∧
          tget t.launches lid = none ∧ t.smc.custNext = s.smc.custNext + 1 ∧ t.smc.custQ.length = s.smc.custQ.length + 1 ∧
          s.formed t fun x => x.kind = .resume ∧ x.dest = l.rank ∧ x.ilen = 0 ∧ (x.arg 3).toNat = s.smc.custNext % 2 ^ 64 ∧ (x.arg 0).toNat % 2 ^ 16 = 0) ∧
        (l.st = .draining → l.killed = false → 256 ≤ s.smc.custQ.length → does .launchEnd fun t => t.mem = s.mem ∧ (.launchEnd, { a := lid }) ∈ t.timers ∧
          ∃ x, tget t.launches lid = some x ∧ x.released = true)) ∧
      (∀ seq part b r, s.smc.custQ = (seq, part, b) :: r → b.length = 256 → does .custodyRecordSigned fun t => t.smc.custQ = r ∧
        (t.part part).custody = (s.part part).custody + 1 ∧
        ∃ sig, sig.length = 384 ∧ t.mem = memWrite s.mem (s.logArea part + 0x60000 + (s.part part).custody % 1024 * 640) (b ++ sig) ∧
          tget t.smc.custPlace seq = some (s.logArea part + 0x60000 + (s.part part).custody % 1024 * 640))) ∧
  (
    ∀ (s : State),
      (∀ (part prof cls : Nat) (u : PortUse), (s.part part).inForce = [] →
        (s.portGrants part prof cls u = true ↔ (s.part part).isSet = true ∧ cls = 6 ∧ s.chargedAll u.kind u.port * 1024 < s.portCap u.kind * 1024)) ∧
      (∀ (part prof cls : Nat) (u : PortUse) (k p q r c : Nat), part < 8 → prof < 8 → cls < 8 → u.port < 256 → p < 256 → q < 8 → r < 8 → c < 8 →
        (s.chargeAs part prof cls [u]).chargedAt k p q r c = s.chargedAt k p q r c + (if k = u.kind ∧ p = u.port ∧ q = part ∧ r = prof ∧ c = cls then u.amount else 0)) ∧
      (∀ r p, s.req s.occ.a = some r → r.phase = .home → r.pieces[r.performed]? = some p → p.mod = s.modid → p.isGlobal = true →
        (r.kind = .aacc → r.bmsg ≠ none) → s.usesOpen r.part r.scope 0 (r.homeUses p) = false →
        exec .homeAccess s = .next (s.later .homeAccess r.no)) ∧
      (∀ nm, s.net s.occ.a = some nm → nm.ph = .retry → s.msgOpen nm.msg = false →
        (nm.msg.noord = false → s.fab.msgs.filter (fun x => x.ph == .retry && !x.msg.noord && x.stream == nm.stream) = [nm]) → exec .nackRetry s = .next (s.later .nackRetry nm.msg.no)) ∧
      (∀ nm, s.fab.msgs = [nm] → nm.msg.no = s.occ.a → nm.ph = .atSender → nm.msg.noord = false → s.msgOpen nm.msg = false → exec .relordRelease s = .next s) ∧
      (s.fab.portQ = [] →
        ((∀ x ∈ s.fab.msgs, x.ph ≠ .atSender) → exec .budgetPeriod s = .next s.newPeriod) ∧
        (∀ nm, s.fab.msgs = [nm] → nm.ph = .atSender → nm.msg.waits = [] → nm.msg.merge = false → (s.stream (s.streamOf nm.msg)).unacked < 128 →
          s.newPeriod.msgOpen nm.msg = true → ∃ t x, exec .budgetPeriod s = .next t ∧ t.mem = s.mem ∧ t.net nm.msg.no = some x ∧ x.ph = .flying ∧ x.msg = nm.msg)) ∧
      s.newPeriod.fab.charged = [] ∧ s.newPeriod.fab.factor = s.smc.freq ∧
      ∀ part, (s.newPeriod.part part).inForce = (s.part part).budgets ∧ (s.newPeriod.part part).budgets = (s.part part).budgets)

/-- Bramble ports acknowledge, replay and retrain; packets enter once and are acknowledged.

The link layer of a Bramble port and its sessions (spec 17 R435 to R439, R441): a good data flit in sequence is acknowledged, one damaged or out of sequence refused, a refusal replayed, and the eighth replay retrains the port; a port retrains, remaps a lane while spares are left, goes DOWN and comes UP with new numbers and a new session; an idle port keeps its link alive; credit reports and failed bridge lanes are noted.

Packets between modules (spec 17 R438 to R440, R442): a packet that fails its tag, or is for another module, is dropped and counted; one that is new enters the network and its TSEQ counts as taken, a duplicate does not enter; acknowledgements free the transport buffer, refusals and time-outs send again, an abandoned packet ends what it carries, and a merged request without a reply is sent once more unmerged. -/
def Obligations.FabricEvents : Prop :=
  (
    ∀ (s : State),
      let n := s.occ.a
      let p := s.port n
      let does (i : Instr) (q : State → Prop) : Prop := ∃ t, exec i s = .next t ∧ t.mem = s.mem ∧ t.ctxs = s.ctxs ∧ q t
      let left := (tget s.fab.spareLanes (n / 2)).getD 2
      (n < 8 → p.st = .up →
        let f := s.occ.bytes
        let good : Prop := f.length = 128 ∧ leNat (f.drop 124) = (crc32 (f.take 124)).toNat
        let w0 := leNat (f.take 2)
        let seq := BitVec.ofNat 12 w0
        let w1 := leNat ((f.drop 2).take 2)
        let s1 := (s.setPort n { p.acked (BitVec.ofNat 12 w1) with credits := p.credits + 8 * (w1 / 2 ^ 12) }).portPump n
        let p1 := s1.port n
        let sends (q : BitVec 12) (kind : Nat) (p2 : Port) (t : State) : Prop := t.fab.linkOut.getLast? = some (n, p2.flit q kind [])
        (¬good → does .linkFlitReceive fun t => t.fab.linkOut = s.fab.linkOut ++ [(n, p.flit p.expect 3 [])] ∧ t.port n = { p with freed := p.freed - 8 * p.back }) ∧
        (good → w0 / 2 ^ 12 = 1 → seq = p.expect → does .linkFlitReceive fun t => (t.port n).expect = p.expect + 1 ∧
          sends seq 2 { p1 with expect := p.expect + 1, freed := p1.freed + 1 } t) ∧
        (good → w0 / 2 ^ 12 = 1 → seq ≠ p.expect → does .linkFlitReceive fun t => (t.port n).expect = p.expect ∧ (t.port n).rx = p.rx ∧
          (if (p.expect - seq).toNat ≤ 512 then sends (p.expect - 1) 2 p1 t else sends p.expect 3 p1 t)) ∧
        (good → w0 / 2 ^ 12 = 3 → does .linkFlitReceive fun t => s.dues t .replayRequest n seq.toNat) ∧
        (good → w0 / 2 ^ 12 ≠ 1 → w0 / 2 ^ 12 ≠ 3 → does .linkFlitReceive fun t => t = s1) ∧
        (let b := BitVec.ofNat 12 s.occ.b
          let q := p.acked (b - 1)
          let k := (b - q.oldest).toNat
          k < q.replay.length →
            (q.replays < 8 → does .replayRequest fun t => (t.port n).replays = q.replays + 1 ∧ t.fab.linkOut = s.fab.linkOut ++ (q.replay.drop k).map fun f => (n, f)) ∧
            (8 ≤ q.replays → does .replayRequest fun t => s.dues t .portRetrain n)) ∧
        does .portRetrain (fun t => (t.port n).st = .retrain ∧ (t.port n).replay = [] ∧ t.smc.mevent.getLsbD 4 = true ∧ (.trainingComplete, { a := n, b := 1 }) ∈ t.timers) ∧
        (p.replay = [] → p.pend = [] → does .keepalive fun t => t.fab.outbox = s.fab.outbox ++ [ctlPacket s 0 8 0 []])) ∧
      (p.st = .retrain ∨ p.st = .remap → does .portRetrain fun t => (t.port n).failed = p.failed + 1 ∧ (4 ≤ p.failed + 1 → s.dues t .portDown n)) ∧
      (p.st ≠ .down → 0 < left → s.ownerOf (2 ^ 50) = none → does .portRemap fun t => (t.port n).st = .remap ∧ tget t.fab.spareLanes (n / 2) = some (left - 1) ∧
        t.smc.mevent.getLsbD 2 = true ∧ t.smc.mevent.getLsbD 4 = true ∧ (.trainingComplete, { a := n, b := 1 }) ∈ t.timers) ∧
      (p.st ≠ .down → left = 0 → does .portRemap fun t => s.dues t .portDown n) ∧
      (p.st ≠ .down → does .portDown fun t => (t.port n).st = .down ∧ (t.port n).replay = [] ∧ t.smc.mevent.getLsbD 4 = true) ∧
      (p.st = .down → does .portDown fun t => t = s) ∧
      (p.st = .retrain ∨ p.st = .remap ∨ (p.st = .down ∧ s.occ.b ≠ 1) → does .trainingComplete fun t =>
        (t.port n).st = .up ∧ (t.port n).fseq = 0 ∧ (t.port n).expect = 0 ∧ (t.port n).failed = 0 ∧ s.dues t .session n) ∧
      (p.st = .down → s.occ.b = 1 → does .trainingComplete fun t => t = s) ∧
      does .session (fun t => (t.port n).session = true ∧ (t.port n).counter = 0 ∧ (t.port n).rxCounter = 0 ∧ (t.port n).sessions = p.sessions + 1 ∧ (t.port n).tagFails = 0) ∧
      does .sessionCounterLimit (fun t => s.dues t .session n) ∧
      does .brel (fun t => t.port n = { p with brel := s.occ.bytes.take 64 }) ∧
      does .bridgeLaneFail fun t => t.fab.bridgeFailed = s.fab.bridgeFailed + 1) ∧
  (
    ∀ (s : State), s.numbered →
      let a := s.occ.a
      let does (i : Instr) (q : State → Prop) : Prop := ∃ t, exec i s = .next t ∧ t.ctxs = s.ctxs ∧ q t
      (∀ pk, s.occ.pkt = some pk →
        let q := pk.src.toNat
        (pk.tagOk = false → (s.port a).tagFails + 1 < 4 → does .bramblePacket fun t => (t.port a).dropped = (s.port a).dropped + 1 ∧
          (t.port a).tagFails = (s.port a).tagFails + 1 ∧ t.fab.msgs = s.fab.msgs ∧ t.mem = s.mem) ∧
        (pk.tagOk = true → pk.dst ≠ s.modid ∨ pk.zeros ≠ 0 ∨ pk.kind = 0 ∨ 8 < pk.kind.toNat ∨ 640 < pk.body.length ∨
            (4 ≤ pk.kind.toNat ∧ (pk.w0 ≠ 0 ∨ pk.w1 ≠ 0)) → does .bramblePacket fun t =>
          (t.port a).dropped = (s.port a).dropped + 1 ∧ t.fab.msgs = s.fab.msgs ∧ t.mem = s.mem) ∧
        (pk.tagOk = true → pk.dst = s.modid → pk.zeros = 0 → pk.body.length ≤ 640 →
          (pk.kind = 1 ∨ pk.kind = 2 → (s.scope (BMsg pk).part (BMsg pk).scope).group = none →
            (pk.skip = false → pk.tseq = (s.peer q).expect → (s.peer q).ahead = [] → does .bramblePacket fun t => t.mem = s.mem ∧ (t.peer q).expect = pk.tseq + 1 ∧
              (if s.msgOpen { BMsg pk with no := s.fab.nextMsg, inport := some a } then s.dues t .messageArrival s.fab.nextMsg else (.nackRetry, { a := s.fab.nextMsg }) ∈ t.timers) ∧
              s.formed t fun x => ∃ tag, x = { BMsg pk with no := s.fab.nextMsg, rtag := tag, inport := some a } ∧ ((BMsg pk).kind ≠ .spawn → tag = 0)) ∧
            (4096 ≤ (pk.tseq - (s.peer q).expect).toNat → does .bramblePacket fun t => t.mem = s.mem ∧ t.fab.msgs = s.fab.msgs ∧ (t.peer q).expect = (s.peer q).expect)) ∧
          (pk.kind = 4 → pk.w0 = 0 → pk.w1 = 0 → does .bramblePacket fun t =>
            t.agenda = s.agenda ++ [(.tack, { a := q, b := pk.tseq.toNat, v := BitVec.ofNat 64 (leNat (pk.body.take 8)) })]) ∧
          (pk.kind = 5 → pk.w0 = 0 → pk.w1 = 0 → does .bramblePacket fun t => t.agenda = s.agenda ++ [(.tnack, { a := q, b := pk.tseq.toNat })]))) ∧
      (∀ buf, buf = (s.peer a).buf →
        (∀ t pk no nm, buf = [{ tseq := t, pkt := pk, no := no, stream := none }] → (s.peer a).lost = [] → s.net no = some nm → nm.msg.noord = true → nm.msg.merge = false → s.askedBy nm.msg = none →
          (tacks (BitVec.ofNat 32 s.occ.b) s.occ.v t = true → does .tack fun u => u.mem = s.mem ∧ (u.peer a).buf = [] ∧ u.net no = none) ∧
          (tacks (BitVec.ofNat 32 s.occ.b) s.occ.v t = false → does .tack fun u => u.mem = s.mem ∧ (u.peer a).buf = buf ∧ u.fab.msgs = s.fab.msgs) ∧
          (nm.msg.kind = .resume → nm.ph ≠ .done → s.occ.b = t → does .packetAbandon fun u => u.mem = s.mem ∧ (u.peer a).buf = [] ∧ u.net no = none)) ∧
        (∀ x, buf.find? (fun x => x.tseq == s.occ.b) = some x → does .tnackResend fun t => t = s.portSend x.pkt) ∧
        (∀ x r, buf = x :: r → does .transportResend fun t => t = (s.portSend x.pkt).later .transportResend a)) ∧
      does .tnack (fun t => t.mem = s.mem ∧ (.tnackResend, { a := a, b := s.occ.b }) ∈ t.timers) ∧
      (0 < (s.peer a).untacked → (∃ i < 8, (s.port i).st = .up) → does .tackTimer fun t => t.mem = s.mem ∧ (t.peer a).untacked = 0 ∧
        ∃ pk, t.fab.outbox = s.fab.outbox ++ [pk] ∧ pk.kind = 4 ∧ pk.dst = BitVec.ofNat 12 a ∧ pk.tseq = (s.peer a).expect - 1) ∧
      (∀ nm, s.net a = some nm → nm.msg.merge = true → nm.ph = .arrived → does .mreqResend fun t =>
        t.mem = s.mem ∧ t.net a = none ∧ s.formed t fun x => x.merge = false ∧ x.dest = nm.msg.dest ∧ x.addr = nm.msg.addr ∧ x.args = nm.msg.args))

/-- The host link (spec 17 R446 to R451; 18 R454, R470 to R473): a submitted slot becomes busy and then leaves as a message, or comes back MALFORMED; a staged launch is queued or refused; an unmasked vector that was pending is raised; writes of the registers have the effects of their offsets; a RESYNC record is built on command. -/
def Obligations.HostEvents : Prop :=
  ∀ (s : State), s.numbered →
    let fn := s.occ.a
    let f := s.vf fn
    let does (i : Instr) (q : State → Prop) : Prop := ∃ t, exec i s = .next t ∧ t.mem = s.mem ∧ t.ctxs = s.ctxs ∧ q t
    (s.fnOn fn = true →
      (0 < fn →
        let part := fn - 1
        let slot := s.occ.b % 64
        let m := slotMsg s part slot
        (s.occ.c = 0 → f.inbusy.getLsbD slot = false → does .indb fun t => (t.vf fn).inbusy.getLsbD slot = true ∧ s.dues t .indb fn slot 1) ∧
        (s.occ.c = 1 → f.inbusy.getLsbD slot = true → m.hostBad = false → m.merge = false → does .indb fun t => (t.vf fn).inbusy.getLsbD slot = false ∧
          s.formed t fun x => x.kind = m.kind ∧ x.dest = m.dest ∧ x.addr = m.addr ∧ x.srank = s.rankOf (877 + part) ∧ x.arg 0 = m.arg 0 ∧ x.arg 2 = m.arg 2) ∧
        (s.occ.c = 1 → f.inbusy.getLsbD slot = true → m.hostBad = true → does .indb fun t => (t.vf fn).inbusy.getLsbD slot = false ∧
          s.formed t fun x => x.kind = .resume ∧ x.ilen = stMalformed ∧ x.dest = s.rankOf (877 + part) ∧ x.arg 0 = BitVec.ofNat 64 m.w0) ∧
        (s.occ.c = 0 → f.lwstat.getLsbD 0 = false → does .lwdb fun t => (t.vf fn).lwstat.getLsbD 0 = true ∧ s.dues t .lwdb fn 0 1) ∧
        (s.occ.c = 1 → f.lwstat.getLsbD 0 = true → 16 ≤ (s.part part).launchQ.length → does .lwdb fun t =>
          (t.vf fn).lwstat.getLsbD 0 = false ∧ (t.vf fn).lwstat.getLsbD 2 = true ∧ t.launches = s.launches) ∧
        (s.occ.c = 1 → f.lwstat.getLsbD 0 = true → (s.part part).launchQ.length < 16 → does .lwdb fun t => (t.vf fn).lwstat.getLsbD 0 = false ∧
          let lid := (t.vf fn).lwstat.toNat / 2 ^ 32
          (t.part part).launchQ = (s.part part).launchQ ++ [lid] ∧ ∃ l, tget t.launches lid = some l ∧ l.record = f.staged ∧ l.host = true) ∧
        (s.occ.c = 8 →
          (s.occ.b = 0x10 → does .registerWrite fun t => s.dues t .indb fn (s.occ.v.toNat % 64)) ∧
          (s.occ.b = 0x18 → does .registerWrite fun t => (t.vf fn).obase = s.occ.v &&& ~~~0xFFF#64) ∧
          (s.occ.b = 0x20 → does .registerWrite fun t => (t.vf fn).octl = s.occ.v &&& 0x800000000000FF0F) ∧
          (s.occ.b = 0x30 → does .registerWrite fun t => (t.vf fn).otail = s.occ.v.toNat) ∧
          (s.occ.b = 0x38 → does .registerWrite fun t => s.dues t .lwdb fn) ∧
          (s.occ.b = 0x48 → does .registerWrite fun t => (t.part part).qprio = s.occ.v.toNat % 8) ∧
          (∀ i < 32, s.occ.b = 0x1000 + 8 * i → does .registerWrite fun t => (t.vf fn).stage = if f.lwstat.getLsbD 0 then f.stage else tset f.stage i s.occ.v) ∧
          (∀ i < 512, s.occ.b = 0x2000 + 8 * i → does .registerWrite fun t =>
            (t.vf fn).inSlots = if f.inbusy.getLsbD (i / 8) then f.inSlots else tset f.inSlots i s.occ.v))) ∧
      (s.occ.b < 4 →
        let masked (v : Nat) : Nat := v % 2 ^ 96 + v / 2 ^ 97 * 2 ^ 97
        (f.pending.getLsbD s.occ.b = false → does .msixUnmask fun t => t.fab.msix = s.fab.msix ∧ tget (t.vf fn).msixTab s.occ.b = some (masked ((tget f.msixTab s.occ.b).getD (2 ^ 96)))) ∧
        (f.pending.getLsbD s.occ.b = true → does .msixUnmask fun t => t.fab.msix = s.fab.msix ++ [(fn, s.occ.b)] ∧ (t.vf fn).pending.getLsbD s.occ.b = false)) ∧
      (s.occ.c = 8 → s.occ.b = 0x4000 → does .registerWrite fun t => t.agenda = s.agenda ++ [(.rscmd, { a := fn, v := s.occ.v })]) ∧
      (∀ i op ev, fn = 0 → s.occ.c = 8 → (i < 8 → s.occ.b = 8 * i → does .registerWrite fun t => tget t.smc.cmd i = some s.occ.v) ∧
        (s.occ.b = 0x40 → s.smc.cmdstat.getLsbD 8 = false → s.smc.staging 0 % 256 = op → cmdEvent op = some ev → does .registerWrite fun t => s.dues t ev ∧ t.smc.run = s.smc.cmd ∧
          t.smc.cmdstat.getLsbD 8 = true) ∧
        (s.occ.b = 0x40 → s.smc.cmdstat.getLsbD 8 = true → does .registerWrite fun t => t = s)) ∧
      (s.occ.v.getLsbD 0 = true → f.rsstat.getLsbD 1 = false → does .rscmd fun t => (t.vf fn).rsstat = (s.occ.v &&& 0xFFFFFFFF00000000) ||| 2 ∧
        (.resyncReady, { a := fn }) ∈ t.timers)) ∧
    (f.rsstat.getLsbD 1 = true → does .resyncReady fun t => (t.vf fn).rsstat = (f.rsstat &&& 0xFFFFFFFF00000000) ||| 1 ∧ (t.vf fn).rsrec.take 4 = leBytes 4 0x4F565253) ∧
    (∀ v, f.moder = [v] → does .moderationExpiry fun t => (t.vf fn).moder = [] ∧ t.fab.msix = s.fab.msix) ∧
    (∀ v w r, f.moder = v :: w :: r → f.masked 0 = false → does .moderationExpiry fun t => t.fab.msix = s.fab.msix ++ [(fn, 0)] ∧ (.moderationExpiry, { a := fn }) ∈ t.timers)

/-- Commands of the management controller are checked, have their effects and complete.

Commands of the security and management controller (spec 12 R328 to R332; 15 R383, R399; 16 R411; 17 R444; 18 R454, R456 to R463, R479): a command that CMDDB has taken is performed, and a staged one is taken; a reserved bit or a partition that is not set up completes it BADCMD; each command that is not refused has its effect and completes OK; the completion reports status and sequence.

A teardown ends, a command completes, keys are changed and pages move (spec 12 R334, R335; 18 R454, R458, R462, R463): PTEAR gives its partition up when scope 0 is LIVE again; a completion clears BUSY and reports; REKEY goes on granule by granule, and the new key takes the place of the old one; a migrating frame is streamed, its slice marks the entry stable, the new home starts, and the redirect ends when nothing names the old frame. -/
def Obligations.ControllerCommands : Prop :=
  (
    ∀ (s : State),
      let busy := s.smc.cmdstat.getLsbD 8
      let u := if busy then s else s.cmdTake
      let m := u.smc
      let part := m.part
      let p := u.part part
      let w (i : Nat) : Nat := m.word i
      let completes (t : State) (st : Nat) : Prop := t.smc.status = some st ∧ t.smc.cmdstat.getLsbD 8 = true ∧ s.dues t .smcCommandComplete
      let commands : List (Nat × Instr × Bool × List Nat) :=
        [(1, .psetup, true, recMasks), (2, .ptear, false, []), (3, .xlinv, false, [ones 48, ones 64]), (4, .regionCmd, false, [63, ones 32, ones 32, 0xF8FFFFFF000FFFFF]),
         (5, .smcMigrate, false, [ones 48, 0xFFFFFFFFF0000]), (6, .watchCmd, false, [0x800000000000011F, ones 48, ones 48, 0x7F, 0xFFFFFFFF00FFFFFF]),
         (7, .budgetCmd, false, [0x707, 0x87FF87FF87FF87FF, 0x87FF87FF87FF87FF]), (8, .fserv, false, [0xFFFFFFFF00FFFFFF]), (9, .qprio, false, [7]),
         (10, .modid, true, [ones 12]), (11, .pcap, true, [ones 16]), (12, .rekey, false, []), (13, .groupCmd, false, [0x80000000000000FF, ones 48, ones 13]),
         (14, .fsload, false, [ones 48, ones 56, ones 32, ones 64, ones 64, ones 64, ones 64])]
      ∀ op i any masks, (op, i, any, masks) ∈ commands → m.op = op → m.status = none → busy = true ∨ s.occ.b = 0 → (op = 3 → s.occ.c ≠ 1) →
        let runs (q : State → Prop) : Prop := ∃ t, exec i s = .next t ∧ q t
        let same (st : Nat) : Prop := runs fun t => completes t st ∧ t.mem = s.mem ∧ t.ctxs = s.ctxs ∧ t.parts = s.parts ∧ t.homes = s.homes
        (m.clean masks = false ∨ any = false ∧ p.isSet = false → same 1) ∧
        (m.clean masks = true → any = true ∨ p.isSet = true →
          (op = 1 → (u.setupRefused part = true → same 2) ∧ (u.setupRefused part = false → runs fun t => completes t 0 ∧
            let x := t.part part
            x.isSet = true ∧ x.hedges = m.hedges ∧ x.root = w 3 ∧ x.codeVa = w 4 ∧ x.codeLen = w 5 % 2 ^ 32 ∧ x.fsRank = BitVec.ofNat 24 (w 6) ∧ x.qprio = w 7 ∧
            (tget t.smc.keys part).isSome = true ∧ ∀ k ∈ partCores x, (t.core k).l1 = [] ∧ (t.core k).frames = [] ∧ (t.ctx k 15).hold = .halted)) ∧
          (op = 2 → p.busy = false → p.launchQ = [] → runs fun t => (t.part part).busy = true ∧ (.ptear, { b := 1 }) ∈ t.timers) ∧
          (op = 3 → runs fun t => t.mem = s.mem ∧ (∀ k, ∀ e, e ∈ (t.home k).xl ↔ e ∈ (s.home k).xl ∧
            ¬(e.part = part ∧ (w 2 = 0 ∨ e.page * 65536 < w 1 + w 2 ∧ w 1 < (e.page + (if e.big then 8192 else 1)) * 65536))) ∧
            ((∀ g ∈ p.groups, ∀ x ∈ g.2, x = s.modid) → completes t 0) ∧ (completes t 0 ∨ (.xlinv, { b := 1 }) ∈ t.timers)) ∧
          (op = 4 → let r := readRegion (w 2) (w 3) (w 4)
            (regionRefused p.regions (w 1) r = true → same 2) ∧
            (regionRefused p.regions (w 1) r = false → runs fun t => completes t 0 ∧ tget (t.part part).regions (w 1) = some r)) ∧
          (op = 5 → ((∃ x, walkTable u part (w 1 / 65536 * 65536) = .error x) → same 2) ∧
            ∀ e e', let va := w 1 / 65536 * 65536
              let a := leafAddr u part va
              let leaf := u.rd a 8 % 65536 + w 2
              walkTable u part va = .ok e → leafOf u part p va leaf false = .ok e' → e.big = false → e.mod = s.modid → e'.mod = s.modid → e.pa va ≠ e'.pa va →
              (s.home (homeOf (e.pa va))).redirects.length < 64 → s.moving = [] →
              runs fun t => t.mem = memWrite s.mem a (leBytes 8 leaf) ∧ t.moving = [{ oldFrame := e.pa va, newFrame := e'.pa va, part := part, page := va / 65536 }] ∧
                s.dues t .migrateRedirectNotice (e.pa va / 65536)) ∧
          (op = 6 → w 1 % 32 < 16 → runs fun t => completes t 0 ∧ t.mem = s.mem ∧ ∃ x, tget t.watches (bits (w 1) 8 1 * 16 + w 1 % 32) = some x ∧
            x.part = (if (w 1).testBit 63 then some part else none) ∧ x.wbase = w 2 ∧ x.wmask = w 3 ∧ x.tag = BitVec.ofNat 32 (w 5 / 2 ^ 32)) ∧
          (op = 7 → let kind := bits (w 1) 8 3
            let ent (c : Nat) : Nat := bits (w (2 + c / 4)) (16 * (c % 4)) 16
            (5 ≤ kind → same 1) ∧
            let q := { p with budgets := (List.range 8).foldl (fun (b : Table (Nat × Bool)) c => tset b (64 * (w 1 % 8) + 8 * kind + c) (ent c % 2048, (ent c).testBit 15)) p.budgets }
            let total := ((List.range 8).map fun n => if n = part then q.maxShare kind else if (u.part n).isSet then (u.part n).maxShare kind else 0).foldl (· + ·) 0
            (kind < 5 → 1024 < total ∨ (∃ c < 8, 1024 < ent c % 2048) → same 2) ∧
            (kind < 5 → total ≤ 1024 → (∀ c < 8, ent c % 2048 ≤ 1024) → runs fun t => completes t 0 ∧
              (∃ x ∈ t.timers, x.1 = .budgetPeriod) ∧ (t.part part).inForce = p.inForce ∧
              ∀ c < 8, (t.part part).budget (w 1 % 8) kind c = (ent c % 2048, (ent c).testBit 15))) ∧
          (op = 8 → (u.fsRankOk part p.hedges (w 1 % 2 ^ 24) = false → same 2) ∧ (u.fsRankOk part p.hedges (w 1 % 2 ^ 24) = true → runs fun t => completes t 0 ∧
            (t.part part).fsRank = BitVec.ofNat 24 (w 1) ∧ (t.part part).fsTag = BitVec.ofNat 32 (w 1 / 2 ^ 32))) ∧
          (op = 9 → runs fun t => completes t 0 ∧ (t.part part).qprio = w 1) ∧
          (op = 10 → ((∃ x ∈ s.parts, x.2.isSet = true) → same 2) ∧ ((∀ x ∈ s.parts, x.2.isSet = false) → runs fun t => completes t 0 ∧ t.modid = BitVec.ofNat 12 (w 1))) ∧
          (op = 11 → (w 1 < 400 ∨ 950 < w 1 → same 1) ∧ (400 ≤ w 1 → w 1 ≤ 950 → runs fun t => completes t 0 ∧ t.smc.pcap = w 1)) ∧
          (op = 12 → (p.rekey.isSome = true → same 2) ∧ ∀ j < 8, p.rekey = none → (∀ k < j, (tget s.smc.keys (8 + k)).isSome = true) → tget s.smc.keys (8 + j) = none →
            runs fun t => completes t 0 ∧ (t.part part).rekey = some (8 + j) ∧ (tget t.smc.keys (8 + j)).isSome = true ∧ (.rekeyGranule, { a := part }) ∈ t.timers) ∧
          (op = 13 → let j := w 1 % 256
            (j = 255 ∨ (∃ x ∈ s.scopes, x.1 / 65536 = part ∧ x.2.group = some j ∧ x.2.st = .live) → same 2) ∧ (j ≠ 255 → s.scopes = [] →
              ((w 1).testBit 63 = false → runs fun t => completes t 0 ∧ tget (t.part part).groups j = none) ∧
              ((w 1).testBit 63 = true → w 3 = 0 ∨ w 2 % 2 ≠ 0 → same 2) ∧
              (∀ q, (w 1).testBit 63 = true → 0 < w 3 → w 3 ≤ 4096 → w 2 % 2 = 0 → u.luBytes part (w 2) (2 * w 3) = .busy q → runs fun t => t = (u.askEng q).later .groupCmd 0 1) ∧
              ((w 1).testBit 63 = true → 0 < w 3 → w 3 ≤ 4096 → w 2 % 2 = 0 → ∀ s1 bs, u.luBytes part (w 2) (2 * w 3) = .ok s1 bs false →
                s1.smc = u.smc → s1.agenda = s.agenda →
                let ids := (List.range (w 3)).map fun k => leNat ((bs.drop (2 * k)).take 2)
                idsRise ids = true → ids.contains s1.modid.toNat = true → runs fun t => completes t 0 ∧ tget (t.part part).groups j = some (ids.map (BitVec.ofNat 12))))) ∧
          (op = 14 → w 1 % 64 = 0 → w 2 % 4 = 0 → w 2 / 2 ^ 32 % 4 = 0 → 0 < w 2 / 2 ^ 32 → w 3 % 4 = 0 → 0x400 ≤ w 3 → w 3 < 0xFFFFFF00 → w 2 % 2 ^ 32 ≤ w 3 →
            w 3 < w 2 % 2 ^ 32 + w 2 / 2 ^ 32 → let core := localOf p.fsRank
            (768 ≤ core ∨ p.codeLen < w 2 % 2 ^ 32 + w 2 / 2 ^ 32 → same 2) ∧
            (∀ q, core < 768 → w 2 % 2 ^ 32 + w 2 / 2 ^ 32 ≤ p.codeLen → u.luBytes part (w 1) (w 2 / 2 ^ 32) = .busy q → runs fun t => t = (u.askEng q).later .fsload 0 1) ∧
            (core < 768 → w 2 % 2 ^ 32 + w 2 / 2 ^ 32 ≤ p.codeLen → ∀ s1 bs s2, u.luBytes part (w 1) (w 2 / 2 ^ 32) = .ok s1 bs false →
              sha256 bs = (List.range 4).flatMap (fun i => leBytes 8 (w (4 + i))) → codeWriteRun s1 (s1.luOp part) (w 2 / 2 ^ 32 / 64 + 2) (w 2 % 2 ^ 32) bs = .ok s2 [] false →
              s2.smc = u.smc → s2.agenda = s.agenda → (s2.ctx core 14).st = .free → runs fun t => completes t 0 ∧ (t.part part).fsEntry = some (BitVec.ofNat 32 (w 3)) ∧
                (t.ctx core 14).st = .ready ∧ (t.ctx core 14).pc = BitVec.ofNat 32 (w 3))))) ∧
  (
    ∀ (s : State),
      let does (i : Instr) (q : State → Prop) : Prop := ∃ t, exec i s = .next t ∧ q t
      (∀ st, s.smc.status = some st → does .smcCommandComplete fun t => t.mem = s.mem ∧ t.smc.status = none ∧
        t.smc.cmdstat = BitVec.ofNat 64 (s.smc.word 0 / 2 ^ 32 * 2 ^ 32 + 0x200 + st)) ∧
      (s.smc.cmdstat.getLsbD 8 = true → s.smc.op = 2 → s.smc.status = none → s.smc.clean [] = true → (s.part s.smc.part).isSet = true → (s.part s.smc.part).busy = true →
        (s.scope s.smc.part 0).st = .live → does .ptear fun t => t.mem = s.mem ∧ (t.part s.smc.part).isSet = false ∧ (t.part s.smc.part).hedges = (s.part s.smc.part).hedges ∧
          tget t.smc.keys s.smc.part = none ∧ t.smc.status = some 0 ∧ s.dues t .smcCommandComplete) ∧
      (s.occ.c = 1 → does .xlinv fun t => t = s.dropXl s.occ.v.toNat s.occ.a s.occ.b) ∧
      (∀ slot, let part := s.occ.a
        let p := s.part part
        let room := s.usesOpen part 0 5 (rekeyUses ((partCores p).getD (p.rekeyAt / hbmGrans) 0))
        p.rekey = some slot → p.isSet = true →
          (room = false → does .rekeyGranule fun t => t = s.later .rekeyGranule part) ∧
          (room = true → p.rekeyAt + 1 < (partCores p).length * 0xC00000 → does .rekeyGranule fun t => t.mem = s.mem ∧ (t.part part).rekeyAt = p.rekeyAt + 1 ∧
            (.rekeyGranule, { a := part }) ∈ t.timers) ∧
          (∀ k, room = true → (partCores p).length * 0xC00000 ≤ p.rekeyAt + 1 → slot ≠ part → tget s.smc.keys slot = some k → does .rekeyGranule fun t => t.mem = s.mem ∧
            (t.part part).rekey = none ∧ tget t.smc.keys part = some k ∧ tget t.smc.keys slot = none)) ∧
      (∀ m, s.moving = [m] → s.movingOf s.occ.a = some m →
        (m.stage = 0 → s.usesOpen m.part 0 5 (moveUses (some (homeOf m.oldFrame / 8)) (some (homeOf m.newFrame / 8)) 65536) = true → does .migrateRedirectNotice fun t => t.mem = memWrite s.mem m.newFrame (memRead s.mem m.oldFrame 65536) ∧
          (m.oldFrame / 65536, m.newFrame / 65536) ∈ (t.home (homeOf m.oldFrame)).redirects ∧ s.dues t .migrateMarkerReply s.occ.a ∧ ∃ y, t.moving = [y] ∧ y.stage = 1) ∧
        (m.stage = 1 → let slice := xlSlice (s.part m.part) (m.page * 65536)
          (does .migrateMarkerReply fun t => t.mem = s.mem ∧ s.dues t .migrateEndOfForwarding s.occ.a ∧
            ∀ x ∈ (t.home slice).xl, x.covers m.part (m.page * 65536) = true → x.moving = false) ∧
          (does .migrateEndOfForwarding fun t => t.mem = s.mem ∧ (.redirectRelease, { a := s.occ.a }) ∈ t.timers ∧ (∃ y, t.moving = [y] ∧ y.stage = 2 ∧ y.queued = []) ∧
            (s.smc.cmdstat.getLsbD 8 = true → s.smc.op = 5 → s.smc.status = none → t.smc.status = some 0 ∧ s.dues t .smcCommandComplete))) ∧
        (m.stage = 2 → (∀ h ∈ s.homes, h.2.upd = []) → s.reqs = [] → s.fab.msgs = [] → (∀ g ∈ (s.part m.part).groups, ∀ x ∈ g.2, x = s.modid) → does .redirectRelease fun t => t.mem = s.mem ∧ t.moving = [] ∧
          ∀ x ∈ (t.home (homeOf m.oldFrame)).redirects, x.1 ≠ s.occ.a)))

/-- The module's service (spec 18 R455, R464 to R469, R474 to R481): custody records are fetched by number, event bits cleared by a write of 1, attestation requests answered in their order, power and temperature reported and acted on, spares and standby controllers brought in, and the module reset. The bytes of attestation messages, the average power and the reset's failing step are this model's (log entries 10, 50 and 51). -/
def Obligations.ServiceEvents : Prop :=
  ∀ (s : State),
    let o := s.occ
    let m := s.smc
    let does (i : Instr) (q : State → Prop) : Prop := ∃ t, exec i s = .next t ∧ q t
    let keeps (t : State) : Prop := t.mem = s.mem ∧ t.ctxs = s.ctxs ∧ t.parts = s.parts
    let cust (st : Nat) (t : State) : Prop := keeps t ∧ t.smc.custStat = BitVec.ofNat 64 (2 ^ 63 + st)
    (∀ at_, tget m.custPlace o.a = some at_ → does .custseq fun t => cust 0 t ∧ t.smc.custRec = memRead s.mem at_ 640) ∧
    (tget m.custPlace o.a = none → (∃ x ∈ m.custQ, x.1 = o.a) → does .custseq (cust 1)) ∧
    (tget m.custPlace o.a = none → (∀ x ∈ m.custQ, x.1 ≠ o.a) → does .custseq (cust (if 1 ≤ o.a ∧ o.a < m.custNext then 2 else 3))) ∧
    does .mevent (fun t => keeps t ∧ t.smc.mevent = m.mevent &&& ~~~o.v) ∧
    (s.spdmOn o.a = true →
      let answers (code : Nat) (t : State) : Prop := keeps t ∧ tget t.smc.spdm o.a = some code ∧ t.smc.spdmOut.length = m.spdmOut.length + 1
      let step := s.spdmStep o.a
      (∀ i code, (i, code) ∈ [(Instr.getVersion, 0x04), (.getCapabilities, 0x61), (.negotiateAlgorithms, 0x63), (.getDigests, 0x01), (.getCertificate, 0x02),
        (.challenge, 0x03), (.getMeasurements, 0x60), (.keyExchange, 0x64)] → does i (answers code)) ∧
      does .keyExchange (fun t => t.spdmStep o.a = 1) ∧
      (step = 1 → does .finish fun t => answers 0x65 t ∧ t.spdmStep o.a = 2) ∧
      (step = 2 → does .keyUpdate (fun t => answers 0x69 t ∧ t.spdmStep o.a = 2) ∧ does .endSession (fun t => answers 0x6C t ∧ t.spdmStep o.a = 0) ∧
        does .ideKeyProgram fun t => answers 0x3F t ∧ o.a ∈ t.smc.ide) ∧
      (step = 0 → ∀ i ∈ [Instr.finish, .keyUpdate, .endSession], does i fun t => answers 0x7F t ∧ t.spdmStep o.a = 0)) ∧
    (does .i3cPcapWrite fun t => keeps t ∧ t.smc.pcap = if 400 ≤ o.a ∧ o.a ≤ 950 then o.a else m.pcap) ∧
    does .firmwareStagingWrite (fun t => keeps t ∧ t.smc.staged = o.bytes) ∧
    does .powerReport (fun t => keeps t ∧ tget t.smc.power o.a = some o.b) ∧
    does .thermalStepDown (fun t => keeps t ∧ t.smc.temp = o.a ∧ t.smc.clockStep = if 95 ≤ o.a then min 4 (m.clockStep + 1) else m.clockStep) ∧
    does .thermalStepUp (fun t => keeps t ∧ t.smc.temp = o.a ∧ t.smc.clockStep = if o.a ≤ 90 ∧ m.watts ≤ m.pcap then m.clockStep - 1 else m.clockStep) ∧
    does .thermalEmergency (fun t => keeps t ∧ t.smc.temp = o.a ∧ t.smc.clockStep = if 105 ≤ o.a then 4 else m.clockStep) ∧
    does .thermalTrip (fun t => t.smc.temp = o.a ∧ (110 ≤ o.a → t.clockStopped = true) ∧ (o.a < 110 → keeps t ∧ t.clockStopped = s.clockStopped)) ∧
    does .pcapAdjust (fun t => keeps t ∧
      t.smc.freq = (if m.pcap < m.watts then (if 512 < m.freq then m.freq - 64 else m.freq) else if m.clockStep = 0 then min 1024 (m.freq + 64) else m.freq) ∧
      t.smc.clockStep = if m.pcap < m.watts ∧ m.freq ≤ 512 then min 4 (m.clockStep + 1) else m.clockStep) ∧
    (m.active = 0 → does .smcTakeover fun t => keeps t ∧ t.smc.active = 1 ∧ t.smc.sessions = [] ∧ t.smc.mevent.getLsbD 3 = true ∧
      (m.cmdstat.getLsbD 8 = true → m.status = none → m.op ≠ 2 → m.op ≠ 5 → t.smc.status = some 4 ∧ s.dues t .smcCommandComplete)) ∧
    ((s.core o.a).run = .inn → tget m.spareCores (o.a / 16) = none → does .lcTakeover fun t => t.ctxs = s.ctxs ∧ tget t.smc.spareCores (o.a / 16) = some o.a ∧
      t.smc.mevent.getLsbD 2 = true ∧ (t.core o.a).frames = (s.core o.a).frames) ∧
    (∀ kind, kind = o.a → 1 ≤ kind → kind < 7 →
      let key := kind * 4096 + o.b
      let used := (tget m.spares key).getD 0
      (kind = 1 → used < 32) → (kind = 5 → used < 4 ∧ (s.ds o.b).job = none) →
        (kind = 3 → 0 < (tget s.fab.spareLanes (o.b / 2)).getD 2 → does .spareBringIn fun t => keeps t ∧ t.smc = m ∧ s.dues t .portRemap o.b) ∧
        (kind = 3 → (tget s.fab.spareLanes (o.b / 2)).getD 2 = 0 → does .spareBringIn fun t => t = s) ∧
        (kind ≠ 3 → does .spareBringIn fun t => tget t.smc.spares key = some (used + 1) ∧ t.smc.mevent.getLsbD 2 = true ∧ t.ctxs = s.ctxs ∧
          (kind = 4 → t.fab.bridgeFailed = s.fab.bridgeFailed - 1) ∧ (kind = 6 → (o.b / 4, o.b % 4) ∉ t.fab.links))) ∧
    does .moduleReset fun t => t.mem = State.reset.mem ∧ t.ctxs = State.reset.ctxs ∧ t.cores = State.reset.cores ∧ t.parts = State.reset.parts ∧
      t.modid = State.reset.modid ∧ t.smc.spares = m.spares ∧ t.smc.spareCores = m.spareCores ∧
      (o.a = 0 → t.smc.recovery = false ∧ t.smc.linkUp = true ∧ t.smc.staged = [] ∧ t.smc.firmware = (if m.staged.isEmpty then m.firmware else m.staged)) ∧
      (o.a = 1 → t.smc.recovery = true ∧ t.smc.firmware = m.firmware ∧ t.smc.staged = m.staged) ∧ (o.a = 6 → t.smc.linkUp = false)
end

