-- ==== Sys2Proof/Tests/Slice0.lean ====
section
/-! SUPPORT. Tests of this model: ill-formed terms refused, words of the spec decoded, single steps with the results the spec gives, and for every
statement that has hypotheses a concrete state and operands that meet them. -/

namespace Sys2Proof.Tests
open Sys2Proof Sys2Proof.Machine

/-- Header with S set, always performed. -/
abbrev e : Hdr := ⟨true, false, 0⟩
/-- Header whose guard is false. -/
abbrev no : Hdr := ⟨true, true, 0⟩

/-! ### Ill-formed terms (spec 03 R92) -/

theorem test_loop_offset_refused : Instr.check (.loopW e 1 0) = some .loopOffset := by decide
theorem test_extension_refused : Instr.check (.ld e 1 2 .b8 true 0) = some .extension := by decide
theorem test_extension_nc_refused : Instr.check (.ldNc e 1 2 .b8 true 0) = some .extension := by decide
theorem test_scalar_type_refused : Instr.check (.fadd e 1 2 3 .e4m3) = some .typeCode := by decide
theorem test_shift_type_refused : Instr.check (.vshl e 1 2 3 (.of .f32)) = some .typeCode := by decide
theorem test_transcendental_type_refused : Instr.check (.vsin e 1 2 (.of .f64)) = some .typeCode := by decide
theorem test_pack_type_refused : Instr.check (.vpack e 1 2 3 (.of .i64)) = some .typeCode := by decide
theorem test_unpack_type_refused : Instr.check (.vunpklo e 1 2 (.of .i8)) = some .typeCode := by decide
theorem test_lane_refused : Instr.check (.vrot e 1 2 8 (.of .f32)) = some .laneRange := by decide
theorem test_send_register_refused : Instr.check (.send e 1 2 13 0 false false) = some .registerRange := by decide
theorem test_sendp_register_refused : Instr.check (.sendp e 1 2 12 0 false) = some .registerRange := by decide
theorem test_callat_register_refused : Instr.check (.callat e 1 2 13 0 false) = some .registerRange := by decide
theorem test_unassigned_register_refused : Instr.check (.mfs e 1 7) = some .controlRegister := by decide
theorem test_read_only_register_refused : Instr.check (.mts e 1 12) = some .controlRegister := by decide
theorem test_well_formed_accepted : Instr.wf (.vrot e 1 2 7 (.of .f32)) = true ∧ Instr.wf (.loopW e 1 1) = true := by decide

/-! ### Words of the spec (03 R90 to R96 and the programs of 05 to 10, 19 to 21) -/

/-- The words decode to the instructions, and the instructions are well formed. -/
def reads (l : List (Nat × Instr)) : Bool := l.all fun x => decodeTableWord 32 x.1 == some x.2 && x.2.wf
theorem test_decode_integer : reads [(0x00224600, .add ⟨false, false, 0⟩ 1 2 3), (0x00222204, .xorR ⟨false, false, 0⟩ 1 1 1), (0x00240013, .mov ⟨false, false, 0⟩ 2 0),
  (0x80423FFF, .addi e 1 1 0x1FFF), (0x00530100, .addi ⟨false, false, 0⟩ 9 8 0x100), (0x00DBA01F, .slli ⟨false, false, 0⟩ 13 13 31), (0x80E20092, .lui e 1 0x92)] = true := by decide
theorem test_decode_transfers : reads [(0x819FFFFD, .br e 0x1FFFFD), (0x81E04003, .loopW e 2 3), (0xD1800008, .br ⟨true, true, 2⟩ 8)] = true := by decide
theorem test_decode_memory : reads [(0x8208B402, .ld e 4 5 .b4 true 2), (0x820AD800, .ld e 5 6 .b8 false 0), (0x8254B800, .ldNc e 10 5 .b8 false 0)] = true := by decide
theorem test_decode_atomics : reads [(0x82DB9646, .atomSwap e 13 12 11 false true), (0x82C24647, .atomCas e 1 2 3 false true)] = true := by decide
theorem test_decode_fences : reads [(0x83013803, .fenceX e 9 12)] = true := by decide
theorem test_decode_vector : reads [(0x05081009, .vadd ⟨false, false, 0⟩ 2 0 1 (.of .f32)), (0x852C1409, .vfma e 3 0 1 2 (.of .f32)), (0x85F4001F, .rowzero e 10 .shape)] = true := by decide
theorem test_decode_messages : reads [(0x86134000, .send e 9 10 0 0 false false), (0x86334000, .sendp e 9 10 0 0 false), (0x867AFE00, .recv e 13 7 15),
  (0x86800000, .endCtx e), (0x86800001, .rel e)] = true := by decide
theorem test_decode_barriers_scopes : reads [(0x86D95000, .barm e 12 10 8 0), (0x86ED9000, .scnew e 6 12 8), (0x86E48A02, .prune e 2 4 5), (0x86E6DA02, .prune e 3 6 13)] = true := by decide
theorem test_decode_engines : reads [(0x87050080, .copy e 1 2 0 0 4), (0x87040140, .copy e 1 0 0 0 10)] = true := by decide
theorem test_decode_system : reads [(0x87801800, .trap e 12), (0x878C0803, .mts e 6 4)] = true := by decide
theorem test_decode_dense : ([(decodeD 0 0x40C22000, Instr.dMul 3 1 2), (decodeD 0 0x09060000, .dAdd 4 3 0), (decodeD 2 0x20100000, .mst 0 1 false), (decodeD 3 0x18000000, .vrelu 0),
  (decodeD 0 0x78000000, .jget 0), (decodeD 0 0x80400000, .jdone 1)].all fun x => match x.1 with | .ok i => i == x.2 | .error _ => false) = true := by decide
theorem test_decode_refuses : decodeTableWord 32 0 = none ∧ decodeTableWord 32 0x81E04000 = none ∧ decodeTableWord 32 0x87800E03 = none := by decide

/-! ### Small states -/

/-- A context with these general registers. -/
def cx (l : List (BitVec 4 × Word)) : Ctx := l.foldl (fun c x => c.setG x.1 x.2) { st := .ready }
/-- Reset, with this context in focus on core 0: 15 is of system mode, 0 of user mode. -/
def onK (k : Nat) (c : Ctx) : State := ({ State.reset with focus := .lc 0 k } : State).setCur c
def sysS (c : Ctx) : State := onK 15 c
def usrS (c : Ctx) : State := onK 0 c
/-- Partition 0 is the first hedge, with a code region of 4 KiB. -/
def inPart (s : State) : State := { s with parts := [(0, { isSet := true, hedges := [0], codeLen := 0x1000 })] }
/-- The next state of an outcome. -/
def nx (o : Host.Outcome State Fault Refusal) : State := match o with | .next t => t | .fault _ => State.reset | .refused _ => State.reset
def gOf (o : Host.Outcome State Fault Refusal) (r : BitVec 4) : Word := (nx o).cur.gv r
def stopped (o : Host.Outcome State Fault Refusal) (code sub : Nat) : Bool :=
  let c := (nx o).cur
  c.st == .stopped && c.ctl.cause.toNat % 256 == code && c.ctl.cause.toNat / 256 % 256 == sub

/-! ### Single steps; the values are those of the spec's tables and examples -/

theorem test_add_wraps : gOf (exec (.add e 1 2 3) (sysS (cx [(2, 0xFFFFFFFFFFFFFFFF), (3, 2)]))) 1 = 1 := by decide
theorem test_sub_order : gOf (exec (.sub e 1 2 3) (sysS (cx [(2, 5), (3, 7)]))) 1 = 0xFFFFFFFFFFFFFFFE := by decide
theorem test_andn : gOf (exec (.andn e 1 2 3) (sysS (cx [(2, 0xF), (3, 0x5)]))) 1 = 0xA := by decide
theorem test_sll_amount : gOf (exec (.sll e 1 2 3) (sysS (cx [(2, 1), (3, 65)]))) 1 = 2 := by decide
theorem test_sra_fills : gOf (exec (.sra e 1 2 3) (sysS (cx [(2, 0x8000000000000000), (3, 63)]))) 1 = 0xFFFFFFFFFFFFFFFF := by decide
theorem test_mulh_signed : gOf (exec (.mulh e 1 2 3) (sysS (cx [(2, 0xFFFFFFFFFFFFFFFF), (3, 2)]))) 1 = 0xFFFFFFFFFFFFFFFF := by decide
theorem test_div_truncates : gOf (exec (.divS e 1 2 3) (sysS (cx [(2, 0xFFFFFFFFFFFFFFF9), (3, 2)]))) 1 = 0xFFFFFFFFFFFFFFFD := by decide
theorem test_rem_sign : gOf (exec (.remS e 1 2 3) (sysS (cx [(2, 0xFFFFFFFFFFFFFFF9), (3, 2)]))) 1 = 0xFFFFFFFFFFFFFFFF := by decide
theorem test_div_by_zero : gOf (exec (.divu e 1 2 3) (sysS (cx [(2, 9)]))) 1 = 0xFFFFFFFFFFFFFFFF := by decide
theorem test_min_signed : gOf (exec (.minS e 1 2 3) (sysS (cx [(2, 0xFFFFFFFFFFFFFFFF), (3, 1)]))) 1 = 0xFFFFFFFFFFFFFFFF := by decide
theorem test_minu : gOf (exec (.minu e 1 2 3) (sysS (cx [(2, 0xFFFFFFFFFFFFFFFF), (3, 1)]))) 1 = 1 := by decide
theorem test_clz : gOf (exec (.clz e 1 2) (sysS (cx [(2, 1)]))) 1 = 63 ∧ gOf (exec (.clz e 1 2) (sysS (cx []))) 1 = 64 := by decide
theorem test_popc : gOf (exec (.popc e 1 2) (sysS (cx [(2, 0xFF01)]))) 1 = 9 := by decide
theorem test_mov_keeps_tag : ((nx (exec (.mov e 1 2) (sysS ((cx []).setGT 2 ⟨5, true⟩)))).cur.gr 1) = ⟨5, true⟩ := by decide
theorem test_andi_sign_extends : gOf (exec (.andi e 1 2 0x1FFE) (sysS (cx [(2, 0xFFFFFFFFFFFFFFFF)]))) 1 = 0xFFFFFFFFFFFFFFFE := by decide
theorem test_lui : gOf (exec (.lui e 1 0x92) (sysS (cx []))) 1 = 0x124000 := by decide
theorem test_lui_addi : gOf (exec (.addi e 1 1 0x1FFF) (sysS (cx [(1, 0x124000)]))) 1 = 0x123FFF := by decide
theorem test_auipc : gOf (exec (.auipc e 1 1) (sysS { cx [] with pc := 0x400 })) 1 = 0x2400 := by decide
theorem test_cmp_signed : (nx (exec (.cmpLt e 1 2 3) (sysS (cx [(2, 0xFFFFFFFFFFFFFFFF), (3, 1)])))).cur.pr 1 = true := by decide
theorem test_cmp_unsigned : (nx (exec (.cmpLtu e 1 2 3) (sysS (cx [(2, 0xFFFFFFFFFFFFFFFF), (3, 1)])))).cur.pr 1 = false := by decide
theorem test_cmp_p0_discarded : (nx (exec (.cmpNe e 0 2 2) (sysS (cx [])))).cur.pr 0 = true := by decide
theorem test_cmpi_unsigned_immediate : (nx (exec (.cmpiLtu e 1 2 0x3FF) (sysS (cx [(2, 0x3FE)])))).cur.pr 1 = true := by decide
theorem test_pwr_prd : gOf (exec (.prd e 1) (nx (exec (.pwr e 2) (sysS (cx [(2, 0x10006)]))))) 1 = 7 := by decide
theorem test_false_guard : gOf (exec (.add no 1 2 3) (sysS (cx [(1, 9), (2, 1)]))) 1 = 9 := by decide
theorem test_br_back : (nx (exec (.br e 0x1FFFFD) (inPart (usrS { cx [] with pc := 0x418 })))).cur.npc = 0x40C := by decide
theorem test_call_links : gOf (exec (.call e 2) (inPart (usrS { cx [] with pc := 0x400 }))) 15 = 0x404 := by decide
theorem test_jalr_same_register : (nx (exec (.jalr e 3 3) (inPart (usrS { cx [(3, 0x800)] with pc := 0x400 })))).cur.npc = 0x800 ∧
  gOf (exec (.jalr e 3 3) (inPart (usrS { cx [(3, 0x800)] with pc := 0x400 }))) 3 = 0x404 := by decide
theorem test_jr_misaligned : stopped (exec (.jr e 3) (inPart (usrS (cx [(3, 2)])))) 0x04 0 = true := by decide
theorem test_loop_leaves : (nx (exec (.loopW e 2 3) (inPart (usrS { cx [] with pc := 0x40C })))).cur.npc = 0x41C := by decide
theorem test_loop_counts : gOf (exec (.loopW e 2 3) (inPart (usrS { cx [(2, 5)] with pc := 0x40C }))) 2 = 4 := by decide
theorem test_mfs_reset : gOf (exec (.mfs e 1 3) (sysS (cx []))) 1 = 1 ∧ gOf (exec (.mfs e 1 6) (sysS (cx []))) 1 = 0x64 := by decide
theorem test_mts_user : stopped (exec (.mts e 1 8) (inPart (usrS (cx [])))) 0x03 0 = true := by decide
theorem test_fadd : gOf (exec (.fadd e 1 2 3 .f32) (sysS (cx [(2, 0x3F800000), (3, 0x40000000)]))) 1 = 0x40400000 := by decide
theorem test_fms : gOf (exec (.fms e 1 2 3 .f32) (sysS (cx [(1, 0x3F800000), (2, 0x40000000), (3, 0x40400000)]))) 1 = 0x40A00000 := by decide
theorem test_fneg_zero : gOf (exec (.fneg e 1 2 .f64) (sysS (cx []))) 1 = 0x8000000000000000 := by decide
theorem test_fcmp_zero_equal : (nx (exec (.fcmpEq e 1 2 3 .f32) (sysS (cx [(2, 0x80000000)])))).cur.pr 1 = true := by decide
theorem test_fcvt_truncates : gOf (exec (.fcvtF2i e 1 2 .f32) (sysS (cx [(2, 0x40200000)]))) 1 = 2 := by decide
theorem test_vadd_lane : ((nx (exec (.vadd e 1 2 3 (.of .i32)) (sysS (((cx []).setW 2 0x0000000200000001).setW 3 0x0000000300000004)))).cur.latches.map fun l => (l.dest, l.val, l.rem)) =
  [(1, 0x0000000500000005, 4)] := by decide
theorem test_vext_signed : gOf (exec (.vext e 2 1 0 (.of .i8)) (sysS ((cx []).setW 2 0x80))) 1 = 0xFFFFFFFFFFFFFF80 := by decide
theorem test_vrsum_fx : ((nx (exec (.vrmax e 1 2 (.of .i32)) (sysS ((cx []).setW 2 0x0000000700000003)))).cur.latches.map fun l => (l.dest, l.val, l.rem)) = [(1, 7, 6)] := by decide
theorem test_store_load_little_endian : gOf (exec (.ld e 4 2 .b2 true 0) (nx (exec (.st e 1 2 .b4 0) (sysS (cx [(1, 0x11FF80), (2, 0x3F000)]))))) 4 = 0xFFFFFFFFFFFFFF80 := by decide
theorem test_atomic_swap : gOf (exec (.atomSwap e 1 2 3 false false) (nx (exec (.st e 4 2 .b4 0) (sysS (cx [(2, 0x3F000), (3, 9), (4, 0x80000000)]))))) 1 = 0xFFFFFFFF80000000 := by decide
theorem test_atomic_misaligned : stopped (exec (.atomAdd e 1 2 3 false true) (sysS (cx [(2, 0x3F004)]))) 0x04 0 = true := by decide
theorem test_user_system_page : stopped (exec (.ld e 1 2 .b1 false 0) (inPart (usrS (cx [(2, 0x3F000)])))) 0x03 0 = true := by decide
theorem test_hnarrow_untagged : stopped (exec (.hnarrow e 1 2 3) (sysS (cx []))) 0x13 0x03 = true := by decide
theorem test_send_buffers : (nx (exec (.send e 9 10 0 0 false false) (inPart (usrS (cx [(10, 0x400)]))))).cur.sends.length = 1 := by decide
theorem test_user_builtin_send : stopped (exec (.send e 9 10 0 0 false false) (inPart (usrS (cx [(10, 0x300)])))) 0x03 0 = true := by decide
theorem test_end_frees : (nx (exec (.endCtx e) (inPart (usrS (cx []))))).cur.st = .free := by decide
theorem test_barm_generation : gOf (exec (.barm e 1 2 3 5) (inPart (usrS (cx [(2, 3)])))) 1 = 1 := by decide
theorem test_bara_unarmed : gOf (exec (.bara e 1 2 3 5) (inPart (usrS (cx [])))) 1 = 0x20000 := by decide
theorem test_break_traps : stopped (exec (.breakTrap e 7) (inPart (usrS (cx [])))) 0x40 7 = true := by decide
theorem test_trap_user : stopped (exec (.trap e 7) (inPart (usrS (cx [])))) 0x03 0 = true := by decide
theorem test_eret_not_stopped : stopped (exec (.eret e 2) (sysS (cx []))) 0x01 0x03 = true := by decide
theorem test_dense_mul_latency : ((nx (exec (.dMul 3 1 2) State.reset)).dsCur.pend.map fun p => p.rem) = [3] := by decide
theorem test_dense_dret : (nx (exec .dret State.reset)).dsCur.dcause.toNat % 2 ^ 16 = 0x0750 := by decide
theorem test_step_runs_placed_word : ((nx (step ((usrS (cx [(2, 5), (3, 7)])).withFetchWord 32 0x80224600))).ctx 0 0).gv 1 = 12 := by decide

/-! ### Witnesses: a state and operands that meet the hypotheses of each statement, clause by clause -/

theorem witness_IntegerResults : (sysS (cx [(2, 5)])).cur.guard e = true := by decide
theorem witness_DivisionTruncates : let s := fun a b : Word => sysS (cx [(2, a), (3, b)])
    (s 9 0).cur.guard e = true ∧ (s 9 0).cur.gv 3 = 0 ∧
    ((s 0x8000000000000000 0xFFFFFFFFFFFFFFFF).cur.gv 2 = 0x8000000000000000 ∧ (s 0x8000000000000000 0xFFFFFFFFFFFFFFFF).cur.gv 3 = 0xFFFFFFFFFFFFFFFF) ∧
    ((s 7 2).cur.gv 3 ≠ 0 ∧ ¬((s 7 2).cur.gv 2 = 0x8000000000000000 ∧ (s 7 2).cur.gv 3 = 0xFFFFFFFFFFFFFFFF)) := by decide
theorem witness_ComparesAndPredicates : (sysS (cx [(2, 5)])).cur.guard e = true := by decide
theorem witness_FalseGuardPerformsNothing : Instr.hdr (.add no 1 2 3) = some no ∧ (sysS (cx [])).cur.guard no = false := by decide

/-- A user context at 0x400 of partition 0, g3 the target or counter. -/
def at400 (t : Word) : State := inPart (usrS { cx [(3, t)] with pc := 0x400 })
theorem witness_ControlTransfers : let s := at400 0x404
    s.cur.guard e = true ∧ (s.part s.curPart).codeLen = 0x1000 ∧
    (BitVec.ofInt 32 (s.cur.pc.toNat + 4 * (2 : BitVec 21).toInt)).toNat = 0x408 ∧ ((s.cur.gv 3).truncate 32 : BitVec 32).toNat = 0x404 ∧
    (at400 0).cur.gv 3 = 0 ∧ s.cur.pc.toNat + 4 * ((0x2FE : BitVec 13).toNat + 1) = 0xFFC ∧ s.cur.gv 3 ≠ 0 ∧
    ((at400 2).cur.gv 3).toNat % 4 ≠ 0 ∧
    (((at400 0xFFFFFF00).cur.gv 3).truncate 32 : BitVec 32).toNat = 0xFFFFFF00 ∧ (at400 0xFFFFFF00).cur.held = none ∧
    (((at400 0x1000).cur.gv 3).truncate 32 : BitVec 32).toNat = (s.part s.curPart).codeLen := by decide

/-- Partition 0 with scope 5 LIVE below scope 0, a context whose SCOPE.BASE is b, g2 = v. -/
def inScopes (k : Nat) (b : BitVec 16) (v : Word) : State :=
  { inPart (onK k { cx [(2, v)] with ctl := { base := b, cur := b } }) with scopes := [(5, { st := .live, parent := 0 })] }
theorem witness_ControlRegisterWrites :
    (inScopes 15 0 1).priv = true ∧ (inScopes 0 0 1).priv = false ∧ (inScopes 0 0 1).cur.guard e = true ∧
    (inScopes 0 0 9).scopeLive 0 9 = false ∧ (inScopes 0 0 9).curPart = 0 ∧
    ((inScopes 0 5 0).scopeLive 0 0 = true ∧ (inScopes 0 5 0).inScope 0 5 0 = false) ∧
    ((inScopes 0 0 5).scopeLive 0 5 = true ∧ (inScopes 0 0 5).inScope 0 0 5 = true) ∧ (cx []).sweep = [] ∧ (cx []).pendFl = 0 := by decide
theorem witness_NopYieldPause : (usrS (cx [])).cur.guard e = true ∧ (1 : BitVec 8) ≠ 0 := by decide
theorem witness_ScalarFrames : (∃ t, exec (.sub e 1 2 3) (usrS (cx [])) = .next t) ∧ ∃ t, exec (.cmpLt e 1 2 3) (usrS (cx [])) = .next t := ⟨⟨_, rfl⟩, ⟨_, rfl⟩⟩
/-- A context with every floating trap enabled. -/
def enabled (l : List (BitVec 4 × Word)) : State := usrS { cx l with ctl := { fpctl := 0x1F00 } }
theorem witness_VectorFrame : (usrS (cx [])).cur.guard e = true ∧ (∃ t, exec (.vadd e 1 2 3 (.of .f32)) (usrS (cx [])) = .next t) ∧
    ∃ t, exec (.vadd e 1 2 3 (.of .f32)) (enabled []) = .next t :=
  ⟨by decide, ⟨_, rfl⟩, ⟨_, rfl⟩⟩
theorem witness_ScalarFloatWords : let s := enabled [(2, 0x3F800000)]
    s.cur.guard e = true ∧ s.cur.ctl.hits (fAdd .f32 s.cur.ctl.mode 0x3F800000 0).2 = 0 ∧ s.cur.ctl.hits (fDiv .f32 s.cur.ctl.mode 0x3F800000 0).2 ≠ 0 ∧
    s.cur.ctl.hits (fCompare .f32 s.cur.ctl.mode .eq 0x3F800000 0).2 = 0 ∧
    s.cur.ctl.hits (convertLane .f32 .i64 s.cur.ctl.mode s.cur.ctl.sr s.cur.ctl.lfsr 0x3F800000).1.2 = 0 := by decide
theorem witness_VectorLaneResults : (usrS (cx [])).cur.guard e = true ∧ (isFloat .f32 && (usrS (cx [])).cur.ctl.enables != 0) = false ∧ isFloat .i32 = false ∧
    laneOf .f32 = .flt .f32 ∧ transTy .f32 = true ∧
    (isFloat .f32 && (enabled []).cur.ctl.enables != 0) = true ∧ (enabled []).cur.ctl.hits 0 = 0 ∧ (enabled []).cur.ctl.hits (laneAdd .f32 (enabled []).cur.ctl.mode 0x7F800001 0).2 ≠ 0 := by decide
theorem witness_VectorMovementAndConversions : (7 : BitVec 5).toNat < 32 / ETy.bytes .f32 ∧ 32 / ETy.bytes .f32 ≤ (8 : BitVec 5).toNat ∧ laneOf .i32 = .sint 32 ∧
    (∀ w ∈ [8, 16, 32, 64], laneOf .f32 ≠ .sint w) ∧ (usrS { cx [] with ctl := { shape := 0x0901 } }).cur.guard e = true ∧
    vtyOfCtl (usrS { cx [] with ctl := { shape := 0x0901 } }).cur.ctl .shape = .ok .f32 ∧ vtyOfCtl (usrS { cx [] with ctl := { shape := 0x0901 } }).cur.ctl (.of .i32) = .ok .i32 ∧ (usrS { cx [] with ctl := { shape := 0x0901 } }).cur.ctl.shapeTy = .ok .f32 ∧
    2 * ETy.bytes .f16 = ETy.bytes .f32 ∧ ETy.bytes .f64 = 2 * ETy.bytes .f32 ∧ laneOf .fx64 = .fx ∧
    2 * ETy.bytes .i32 ≠ ETy.bytes .f32 ∧ (isFloat .f32 && (usrS (cx [])).cur.ctl.enables != 0) = false ∧ (isFloat .f32 && (enabled []).cur.ctl.enables != 0) = true ∧
    (enabled []).cur.ctl.hits 0 = 0 ∧ (enabled []).cur.ctl.hits (laneAdd .f32 (enabled []).cur.ctl.mode 0x7F800001 0).2 ≠ 0 := by decide
theorem witness_LatchesComplete : let l : Latch := ⟨3, 7, 1, 0⟩
    let m : Latch := ⟨3, 8, 1, 1⟩
    let s : State := usrS { cx [] with latches := [l, m] }
    l.rem ≤ 1 ∧ m.rem ≤ 1 ∧ l.dest = m.dest ∧ 1 < (⟨3, 7, 2, 0⟩ : Latch).rem ∧ (s.ctx s.occ.a s.occ.b).latches[s.occ.c]? = some l := by decide

/-- The system context with g2 at an address of its system page, g3 and g1 values. -/
def sysPage (a : Word) : State := sysS { cx [(1, 5), (2, a), (3, 6)] with space := 8 }
theorem witness_TileLoadsAndStores : let s := sysPage 0x3F000
    s.cur.guard e = true ∧ s.fctx ≠ 16 ∧ (ea (s.cur.gr 2) 0).toNat = 0x3F000 ∧ s.check 0x3F000 8 0 true false (s.cur.gr 2) = .ok .tile ∧
    (∀ i < 8, tilePa 0 8 (tileOff 0x3F000 + i) / 64 ∉ s.poison) ∧ s.check 0x3F000 32 0 true false (s.cur.gr 2) = .ok .tile ∧
    (∀ i < 32, tilePa 0 8 (tileOff 0x3F000 + i) / 64 ∉ s.poison) ∧
    s.check 0x3FFF8 8 0 false true ((sysPage 0x3FFF8).cur.gr 2) = .ok .tile ∧ s.check 0x3F000 32 0 false true (s.cur.gr 2) = .ok .tile := by decide
theorem witness_TileAtomics : let s := sysPage 0x3F000
    s.check 0x3F000 8 8 true true (s.cur.gr 2) = .ok .tile ∧ s.check 0x3F000 4 4 true true (s.cur.gr 2) = .ok .tile ∧ ∀ j < 8, tilePa 0 8 (tileOff 0x3F000 + j) / 64 ∉ s.poison := by decide
/-- A user context with g2 a global address. -/
def glob (a : Word) : State := inPart (usrS (cx [(2, a), (3, 0)]))
theorem witness_GlobalAccessesBlock : let s := glob 0x100000
    s.check 0x100000 8 0 true false (s.cur.gr 2) = .ok .global ∧ s.l1Hit 0 0x100000 8 = none ∧ s.check 0x100000 32 0 true false (s.cur.gr 2) = .ok .global ∧
    s.l1Hit 0 0x100000 32 = none ∧ s.check 0x100000 8 0 false true (s.cur.gr 2) = .ok .global ∧ s.check 0x100000 32 0 false true (s.cur.gr 2) = .ok .global ∧
    sdist ((s.cur.gv 3).truncate 20) ((s.cur.gv 3).extractLsb' 20 20) < 2 ^ 19 ∧
    s.check 0x100000 8 8 true false (s.cur.gr 2) = .ok .global ∧ s.check 0x100000 32 32 true false (s.cur.gr 2) = .ok .global ∧
    s.check 0x100000 8 8 false true (s.cur.gr 2) = .ok .global ∧ s.check 0x100000 32 32 false true (s.cur.gr 2) = .ok .global ∧
    s.check 0x100000 4 4 true true (s.cur.gr 2) = .ok .global := by decide
theorem witness_AccessChecksInOrder : let s := glob 0
    (8 ≠ 0 ∧ 4 % 8 ≠ 0) ∧ 2 ^ 48 % 8 = 0 ∧ s.priv = false ∧ 0x3FFF8 + 8 ≤ 0x40000 ∧ s.fctx ≠ 16 ∧ ({} : GReg).tag = false ∧
    s.cur.ctl.wpmask = Vector.replicate 4 0 := by decide
/-- g2 a handle or base, g3 a template. -/
def handles (x : GReg) (y : Word) : State := inPart (usrS (((cx []).setGT 2 x).setG 3 y))
theorem witness_HandlesAndSeals :
    ((0x0 : Word).toNat / 2 ^ 60 ≠ 1) ∧
    ((0x1005000000000000 : Word).toNat / 2 ^ 60 = 1 ∧ (0x1005000000000000 : Word).toNat / 2 ^ 48 % 256 = 5) ∧
    ((0x1006000000000000 : Word).toNat / 2 ^ 48 % 256 = 6 ∧ 0x20 % 2 ^ 6 ≠ 0) ∧ 0x40 % 2 ^ 6 = 0 ∧ 0x40 + 2 ^ 6 ≤ 0x3F000 ∧
    ((0x2006000000000000 : Word).toNat / 2 ^ 60 = 2 ∧ 0x41000 ≤ 0x41000) ∧
    ((handles ⟨0, false⟩ 0).cur.gr 2).tag = false ∧
    ((handles ⟨0x1007000000000000, true⟩ 0x0006000000000040).cur.gr 2).tag = true ∧ 0x40 + 2 ^ 6 ≤ 2 ^ 7 ∧
    ((0x1206000000001000 : Word).toNat / 2 ^ 60 = 1 ∧ (0x1206000000001000 : Word).getLsbD 57 = true) := by decide
/-- A core with these seal entries, g2 a tagged handle of 64 bytes at 0x1000 with the write right. -/
def sealed (l : List Seal) : State := (handles ⟨0x1206000000001000, true⟩ 0).setCore 0 { seals := l }
theorem witness_seals : let mine : Seal := { space := 8, base := 0x1000, lsz := 6, count := 1 }
    let far (i : Nat) : Seal := { space := 8, base := 0x2000 + 64 * i, lsz := 6 }
    ((sealed [mine]).core 0).seals = [mine] ∧ (sealed [mine]).cur.space = 8 ∧ mine.count ≠ 0 ∧
    (∀ x ∈ ((sealed [far 0]).core 0).seals, ¬(x.space = 8 ∧ x.base < 0x1000 + 2 ^ 6 ∧ 0x1000 < x.base + 2 ^ x.lsz)) ∧
    16 ≤ ((sealed ((List.range 16).map far)).core 0).seals.length := by decide
/-- Sends: g9 the destination (bit 24 for a resume), g10 the address, g4 a descriptor of no units; n sends buffered already. -/
def sending (k : Nat) (d a : Word) (n : Nat) : State := inPart (onK k { cx [(9, d), (10, a)] with sends := List.replicate n (.cmd ⟨0⟩) })
theorem witness_SendsAreBuffered : let s := sending 0 0 0x400 31
    s.cur.guard e = true ∧ argTrap (s.rankOf s.fcore) ((s.cur.gv 9).truncate 24) 0 [s.cur.gr 0, s.cur.gr 1, s.cur.gr 2, s.cur.gr 3] = none ∧ s.cur.sends.length < 32 ∧
    (s.cur.gv 9).getLsbD 24 = false ∧ 0x400 ≤ ((s.cur.gv 10).truncate 32 : BitVec 32).toNat ∧
    (match s.descriptor (s.cur.gr 4) 32 with | .ok bs => bs.length | _ => 1) = 0 ∧ (match s.descriptor (s.cur.gr 4) 4 with | .ok bs => bs.length | _ => 1) = 0 ∧
    ((sending 0 0 0x200 31).cur.gv 10).toNat < 0x300 ∧ ((sending 15 0 0x300 31).priv = true ∧ 0x300 ≤ ((sending 15 0 0x300 31).cur.gv 10).toNat) ∧
    ((sending 0 0x1000000 0 32).cur.gv 9).getLsbD 24 = true ∧ 32 ≤ (sending 0 0x1000000 0 32).cur.sends.length ∧
    s.priv = false ∧ ((sending 0 0 0x3FC 0).cur.gv 10).toNat = 0x3FC := by decide
/-- A resume in the mailbox of core 0, its status register the tag. -/
def boxed (l : List Msg) : State := (inPart (usrS (cx [(2, 5), (3, 0xFFFFFFFF)]))).setCore 0 { mailbox := l }
theorem witness_ReleaseEndReceive : let m : Msg := { kind := .resume, addr := 5, dest := 0 }
    let s := boxed [m]
    s.cur.guard e = true ∧ s.fctx < 14 ∧ s.canRelease s.fcore s.fctx = true ∧ s.cur.sends = [] ∧ s.cur.pendMts = [] ∧ s.cur.sweep = [] ∧
    (s.core 0).mailbox = [] ++ m :: [] ∧ (m.addr ^^^ 5) &&& 0xFFFFFFFF = 0 ∧ localOf m.dest < 768 ∧ ((boxed []).core 0).mailbox = [] := by decide
/-- Barrier 5 of core 0, g2 and g3 the operands. -/
def barred (b : Barrier) (x y : Word) : State := (inPart (usrS (cx [(2, x), (3, y)]))).setCore 0 { bars := [(5, b)] }
theorem witness_BarrierWords : let b2 : Barrier := { armed := true, parts := 2 }
    (barred {} 0 0).cur.guard e = true ∧ (barred {} 0 0).fcore = 0 ∧ (0 : Word).toNat % 65536 = 0 ∧ (0xFFFF : Word).toNat % 65536 ≠ 0 ∧ (0 : Word).getLsbD 63 = false ∧
    ((barred {} 1 0).bar 0 5).waiters = [] ∧ ((barred {} 1 0).bar 0 5).armed = false ∧ ((barred b2 1 0).bar 0 5) = b2 ∧ b2.arrived + 1 ≠ b2.parts ∧
    ({ b2 with arrived := 1 } : Barrier).arrived + 1 = b2.parts ∧ b2.link = none ∧ b2.waitsParent = false ∧ b2.broken = false ∧
    ((0x10001 : Word).truncate 16 : BitVec 16) ≠ b2.gen ∧ ((0x10000 : Word).truncate 16 : BitVec 16) = b2.gen := by decide
theorem witness_ScopeWords : let s := inScopes 0 0 5
    s.cur.guard e = true ∧ (s.scope s.curPart s.cur.ctl.cur).st = .live ∧ ((inScopes 0 7 5).scope 0 (inScopes 0 7 5).cur.ctl.cur).st ≠ .live ∧ s.priv = false ∧
    (inScopes 15 0 5).priv = true ∧ (inScopes 15 0 5).cur.sends.length < 32 ∧ s.inScope s.curPart s.cur.ctl.base 5 = true ∧ (inScopes 0 5 9).inScope 0 5 9 = false ∧
    ((inScopes 15 0 9).scope 0 9).st = .free ∧ (s.scope s.curPart 5).st = .live := by decide
/-- g2 an address, with a token PENDING when asked. -/
def moving (a : Word) (p : Bool) : State := inPart (usrS { cx [(2, a)] with toks := if p then (Vector.replicate 8 {}).set 1 ⟨.pending, 3⟩ else Vector.replicate 8 {} })
theorem witness_CallatAndMigrate : let s := moving 0x1000 false
    s.cur.guard e = true ∧ s.fctx < 14 ∧ s.nameCheck (s.cur.gr 2) 0x1000 = none ∧ argTrap (s.rankOf 0) (s.rankOf 0) 4 [s.cur.gr 4, s.cur.gr 5, s.cur.gr 6, s.cur.gr 7] = none ∧
    s.cur.sends.length < 32 ∧ moveTrap s.fctx s.cur = none ∧ (moving 0x80000000000 false).nameCheck ((moving 0x80000000000 false).cur.gr 2) 0x80000000000 = none ∧
    2 ^ 18 * 2 ^ 25 ≤ 0x80000000000 ∧ (moving 0x1000 true).cur.toks.toList.any (fun x => x.st == .pending) = true := by decide
theorem witness_FencesAndRanges : let s := glob 0
    let held := s.setCur { s.cur with hold := .fence 1 false 0 0 (2 ^ 48) }
    let r : Req := { no := 1, core := 0, ctx := 0, part := 0, rank := 0, scope := 0, kind := .store, va := 0x100000, len := 8, pieces := [⟨0x100000, 8, 0, 0, 0⟩], posted := true }
    s.cur.guard e = true ∧ held.uncovered 0 0 false 0 (2 ^ 48) = [] ∧
    ({ held with reqs := [(1, r)] } : State).uncovered 0 0 false 0 (2 ^ 48) ≠ [] ∧ ({ held with reqs := [(1, r)] } : State).uncovered 0 0 true 0 (2 ^ 48) ≠ [] ∧ (held.port 0).st = .up ∧
    (∀ i < 8, (({ held with fab := { ports := (List.range 8).map fun n => (n, { st := .down }) } } : State).port i).st ≠ .up) ∧
    (s.cur.gr 2).tag = false ∧ 0 < ((sysPage 64).cur.gv 3).toNat ∧ (s.cur.gv 3).toNat = 0 := by decide
/-- An Etd of rows of one beat (fixed forms only matter where a clause names them). -/
theorem witness_SystemWordsCheckMode : (usrS (cx [])).priv = false ∧ (sysS (cx [])).priv = true ∧ (sysS (cx [])).wakePending 0 15 = false ∧
    ((onK 14 (cx [])).setCore 0 { mailbox := [{ kind := .resume, dest := 14 }] }).fcore = 0 ∧ ((sysS (cx [(2, 13)])).ctx 0 13).st = .free ∧ 14 ≤ (15 : Word).toNat % 16 ∧
    (((sysS (cx [])).setCtx 0 13 { st := .stopped }).ctx 0 13).st = .stopped := by decide
theorem witness_DecodeWords : (decodeL 0x80224600).toOption = some (.add e 1 2 3) ∧ decodeTableWord 32 0 = none := by decide

/-! ### Witnesses: memory events -/

/-- Every class of partition 0 has BORROW at every port. -/
def budgeted (s : State) : State := s.setPart 0 { s.part 0 with inForce := (List.range 40).map fun i => (i, (0, true)) }
/-- Request 3 of core 0, context 0, with one piece of 8 bytes at va. -/
def rq (k : AKind) (ph : Phase) (va : Nat) : Req :=
  { no := 3, core := 0, ctx := 0, part := 0, rank := 0, scope := 0, kind := k, va := va, len := 8, pieces := [⟨va, 8, 0, va, 0⟩], phase := ph, data := leBytes 8 0x1234 }
/-- The context of request r waits for it; the event names the request. -/
def waitsFor (r : Req) : State :=
  { (inPart (usrS { cx [] with hold := .access 3 })) with reqs := [(3, r)], occ := { a := 3, b := r.va } }
/-- A leaf of the page at 0x100000 on this module. -/
def leaf : XlEntry := { part := 0, page := 16, big := false, mod := 0, frame := 16, carve := false, atomcap := true }
def cached (s : State) : State := s.setHome (xlSlice (s.part 0) 0x100000) { xl := [leaf] }
def regioned (s : State) (r : Region) : State := { s with parts := [(0, { isSet := true, hedges := [0], codeLen := 0x1000, regions := [(0, r)] })] }
theorem witness_TranslationEvents : let r := rq .load .translate 0x100000
    let s := waitsFor r
    s.req s.occ.a = some r ∧ r.no = s.occ.a ∧ r.own ∧ r.pieces = [⟨0x100000, 8, 0, 0x100000, 0⟩] ∧ r.performed = 0 ∧ s.heldOut r = false ∧
    (cached s).xlHit 0 0x100000 = some leaf ∧ regionCheck ((cached s).region 0 0x100000) r.rank .read = none ∧ leaf.mod = s.modid ∧
    (∃ sub, regionCheck ((regioned (cached s) { st := 2, base := 16, limit := 31, owner := 5 }).region 0 0x100000) r.rank .read = some sub) ∧
    (⟨0x100000, 8, 0, 0x100000, 0⟩ : Piece).isGlobal = true ∧ s.xlHit 0 0x100000 = none ∧ (∃ u, walkTable (waitsFor { r with phase := .walk }) 0 0x100000 = .error u) :=
  ⟨by decide, by decide, by unfold Req.own; decide, by decide, by decide, by decide, by decide, by decide, by decide, ⟨_, rfl⟩, by decide, by decide, ⟨_, rfl⟩⟩
theorem witness_HomeEvents : let r := rq .load .home 0x100000
    let s := waitsFor r
    let p : Piece := ⟨0x100000, 8, 0, 0x100000, 0⟩
    s.req s.occ.a = some r ∧ r.pieces = [p] ∧ r.result = [] ∧ p.mod = s.modid ∧ s.movingAt p.pa = none ∧ s.redirect p.pa = p.pa ∧ r.own ∧ p.rst ≠ 5 ∧ s.poisonedAt p.pa 8 = false ∧
    ({ s with poison := [0x4000] } : State).poisonedAt p.pa 8 = true ∧ sfits 0 0 0 = true ∧ sfits 0 1 2 = false ∧ safter 1 0 = true ∧
    p.isGlobal = true ∧ s.behind r = false ∧ (s.home (homeOf p.pa)).parks = [] ∧ p.banked = false ∧ s.usesOpen 0 0 0 (r.homeUses p) = true ∧
    (budgeted s).usesOpen 0 0 0 ({ r with core := 8 }.homeUses p) = true ∧ s.usesOpen 0 0 0 ({ r with core := 8 }.homeUses p) = false := by unfold Req.own; decide
theorem witness_ReplyEvents : let r := { rq .load .reply 0x100000 with result := leBytes 8 7 }
    let s := waitsFor r
    let f : L1Fill := { no := 3, line := 9, part := 0, bytes := some (List.replicate 64 0) }
    let s2 : State := { (s.setCore 0 { fills := [f] }) with occ := { a := 3 } }
    let s3 : State := { (inPart (usrS { cx [] with hold := .tilePage 1 })) with occ := { a := 0, b := 0 } }
    let w := { rq .load .translate 0x4000003F000 with len := 8 }
    let s4 : State := { waitsFor w with occ := { a := 3 } }
    (s.req s.occ.a = some r ∧ r.orphan = false ∧ (s.ctx 0 0).hold = .access 3 ∧ s.replyWaits 0 0 = false ∧ (s.ctx 0 0).aligned ∧ r.fetch = false ∧ r.vec = false) ∧
    ((s2.cores.find? (fun x => x.2.fills.any fun f => f.no == s2.occ.a && f.bytes.isSome)).map (fun x => x.1) = some 0 ∧ f.install = true) ∧
    ((s3.ctx 0 0).hold = .tilePage 1 ∧ (s3.ctx 0 0).st = .ready ∧ ((s3.core 0).frames.any fun f => f.space == 8 && f.page == 1) = false ∧ (s3.core 0).frames.length < 63) ∧
    (s4.req 3 = some w ∧ w.own ∧ w.va / 2 ^ 18 % 4096 = 0 ∧ tileOff w.va = 0x3F000 ∧ modOf (BitVec.ofNat 24 (w.va / 2 ^ 18)) = s4.modid ∧ (s4.core 0).run = .inn ∧
      s4.partOf 0 = some 0 ∧ s4.launchOf 0 0 = none ∧ s4.tilePoison 0 8 0x3F000 8 = none ∧ s4.behind w = false ∧ s4.usesOpen 0 0 0 (tripUses w.core 0 8) = true) := by unfold Ctx.aligned Req.own; decide
/-- Context 0 of core 0 held so, the event at it. -/
def heldAt (h : Hold) (o : Occ) : State := { (inPart (usrS { cx [] with hold := h })) with occ := o }
/-- A message 5 to a unit of this module, arrived; the event names it. -/
def arrived (m : Msg) : State :=
  let s : State := inPart State.reset
  { s with fab := { msgs := [{ msg := { m with no := 5 }, ph := .arrived }], nextMsg := 6 }, occ := { a := 5 } }
theorem witness_FenceAndCloseEvents :
    let s := heldAt (.fence 2 true 1 0 64) {}
    (s.ctx 0 0).hold = .fence 2 true 1 0 64 ∧ s.replyWaits 0 0 = false ∧ s.uncovered 0 0 true 0 64 = [] ∧ (s.ctx 0 0).aligned ∧
    ((heldAt (.reclaim 0) {}).ctx 0 0).hold = .reclaim 0 ∧ ((heldAt (.close 1 0 [] 1 false) {}).ctx 0 0).hold = .close 1 0 [] 1 false ∧
    ((heldAt (.reclaim 1) { v := 0 }).home 0).parks = [] ∧ ((heldAt (.reclaim 1) { v := 0 }).ctx (0 / 17) (0 % 17)).hold = .reclaim 1 ∧
    (let m : Msg := { addr := 0x314, args := #v[⟨0x40000, false⟩, {}, {}, {}] }
     let t : TabEntry := { part := 0, etd := 0x40000, desc := 0, wm := 0 }
     let s := (arrived m).setHome 0 { tabs := [t] }
     s.numbered ∧ (s.home 0).tabs.find? (fun e => e.part == 0 && e.etd == 0x40000) = some t ∧ (s.home 0).redirects = [] ∧ (s.home 0).rowParks = [] ∧ s.partsAhead { m with no := 5 } = false) ∧
    (let r := { rq .load .home 0x100000 with pieces := [⟨0x100000, 8, 1, 0, 0⟩] }
     let s : State := { heldAt (.access 3) { c := 3 } with reqs := [(3, r)] }
     s.req s.occ.c = some r ∧ r.own ∧ r.pieces[r.performed]? = some ⟨0x100000, 8, 1, 0, 0⟩ ∧ (1 : BitVec 12) ≠ s.modid) := by unfold Ctx.aligned State.numbered Req.own; decide
/-- A descriptor of rows of one beat of f32. -/
def etd1 : Nat := 0x100000 + 2 ^ 128 + 9 * 2 ^ 136
theorem witness_RowEvents :
    -- a strict request by physical address for a row of the table at 0x40000, which has STALE 15
    let q : Msg := { addr := 0x200, args := #v[⟨0x100000, false⟩, ⟨0x800000, false⟩, ⟨0x40000, false⟩, {}] }
    let e : TabEntry := { part := 0, etd := 0x40000, desc := etd1 + 15 * 2 ^ 152, wm := 0 }
    let sq := (budgeted (arrived q)).setHome (homeOf 0x100000) { tabs := [e] }
    let m : Msg := { addr := 0x300, args := #v[⟨0x100000, false⟩, {}, {}, {}] }
    let s := arrived m
    (sq.numbered ∧ (sq.net sq.occ.a).isSome = true ∧ q.rowBits = true ∧ q.rowPhys = true ∧ q.rowLand = false ∧ q.rowStrict = false ∧ e.admits q = true ∧
      (sq.home (homeOf 0x100000)).tabs.find? (fun e => e.part == q.part && e.etd == q.rowEtd) = some e ∧
      sq.usesOpen q.part q.scope q.cls.toNat (passUses (localOf q.dest) (homeOf 0x100000)) = true ∧ sq.regionSt q.part (sq.rowVaOf { q with pa := 0x100000 }) = 3) ∧
    s.numbered ∧ (s.net s.occ.a).isSome = true ∧ s.movingAt 0x100000 = none ∧ s.redirect 0x100000 = 0x100000 ∧
    ((s.home (homeOf 0x100000)).locks.any fun l => l.pa == 0x100000) = false ∧ s.poisonedAt 0x100000 (Etd.len etd1) = false ∧ (s.home (homeOf 0x100000)).staged = [] ∧ (s.home (homeOf 0x100000)).waits = [] ∧
    Etd.mode etd1 ≠ 2 ∧ s.region 0 0x100000 = none ∧ s.scopeDead 0 0 = false ∧ (s.core 0).run = .inn ∧ (s.core 0).iw.run = none ∧ (s.core 0).seals = [] := by unfold State.numbered; decide
theorem witness_MemoryUnitEvents :
    let s : State := { State.reset with occ := { a := 0x100000 } }
    let nm : NetMsg := { msg := { no := 5 } }
    let s2 : State := budgeted { State.reset with fab := { msgs := [nm], nextMsg := 6 }, occ := { a := 5 } }
    let s3 : State := (heldAt (.row (.rowzero e 1 .shape) 1) {}).setCore 0 { rowQ := [0] }
    s.occ.b = 0 ∧ s.poison.contains (s.occ.a / 64) = false ∧ s.ownerOf s.occ.a = none ∧
    (s2.fab.msgs = [nm] ∧ nm.ph = .atSender ∧ nm.msg.waits = [] ∧ nm.msg.noord = false ∧ nm.msg.merge = false ∧ (s2.stream (s2.streamOf nm.msg)).unacked < 128 ∧
      s2.msgOpen nm.msg = true) ∧
    ((s3.core s3.occ.a).rowQ = [0] ∧ (s3.ctx 0 0).hold = .row (.rowzero e 1 .shape) 1 ∧ (s3.ctx 0 0).ctl.beats ≤ 1 ∧ (s3.ctx 0 0).aligned) := by unfold Ctx.aligned; decide
/-- A built-in of core 8's context for virtual address 0x100000, length 8, with its translation at hand. -/
def builtin_ (va : Word) (w : Word) : State := cached (arrived { kind := .builtin, addr := 0x300, args := #v[⟨va, false⟩, ⟨w, false⟩, {}, {}], payload := List.replicate 32 0 })
theorem witness_BuiltinMemoryEvents :
    let s := builtin_ 0x100000 8
    s.numbered ∧ (s.net s.occ.a).isSome = true ∧ (8 : Word).getLsbD 23 = false ∧ s.xlHit 0 0x100000 = some leaf ∧ leaf.mod = s.modid ∧
    (∀ k ∈ [RKind.read, .write, .ldv, .stv, .atom], regionCheck (s.region 0 0x100000) 0 k = none ∨ k = .ldv ∨ k = .stv) ∧
    sdist 0 0 < 2 ^ 19 ∧ 0x100004 % 8 ≠ 0 ∧ (0x40 : Word).getLsbD 6 = true ∧ (8 : Word).getLsbD 22 = false ∧ (0x2FC : BitVec 32).toNat < 0x300 := by unfold State.numbered; decide
/-- One f32 element at 0 after contributions to an FX64 table of scale 0, and to an FP32 one. -/
def fxAfter (xs : List Nat) : List Nat :=
  (xs.foldl (fun (r : RowForm) x => r.add (etd1 + 2 ^ 140 : Nat) [formOf .f32 0 x]) { part := 0, etd := 0, pa := 0, base := [0], forms := [{}], now := [0] }).now
def fpAfter (xs : List Nat) : List Byte := xs.foldl (fun r x => applyRow etd1 r (.vals .f32 [x])) (leBytes 4 0)
/-- The example of spec 04 R126. -/
theorem test_fx_any_order : fxAfter [0x4B800000, 0x3F800000, 0x3F800000] = [0x4B800001] ∧ fxAfter [0x3F800000, 0x3F800000, 0x4B800000] = [0x4B800001] := by decide
theorem test_fp_arrival_order : leNat (fpAfter [0x4B800000, 0x3F800000, 0x3F800000]) = 0x4B800000 ∧ leNat (fpAfter [0x3F800000, 0x3F800000, 0x4B800000]) = 0x4B800001 := by decide
theorem witness_l1_hit : let s := (cached (glob 0x100000)).onCore 0 fun c => { c with l1 := [{ line := 0x4000, bytes := List.replicate 64 7 }] }
    s.fcore = 0 ∧ s.l1Hit 0 0x100000 8 = some (List.replicate 8 7) ∧ 0x100000 % 64 + 8 ≤ 64 ∧ s.xlHit s.curPart 0x100000 = some leaf ∧ s.region s.curPart 0x100000 = none := by decide
theorem witness_flush_demand : let l : UpdLine := { etd := 0, desc := 0, part := 0, rowVa := 0x100000, pa := 0x100000, mod := 0 }
    let m : Msg := { addr := 0x20C, args := #v[⟨0x100000, false⟩, {}, {}, {}] }
    let s := (arrived m).setHome 0 { upd := [l] }
    s.numbered ∧ (s.net s.occ.a).isSome = true ∧ localOf m.dest = 0 ∧
    (s.home 0).upd.find? (fun x => x.etd == m.rowEtd && x.part == m.part && x.mod == modOf m.srank &&
      (if m.rowPhys then x.pa == (m.arg 0).toNat || (x.mod == s.modid && s.redirect x.pa == s.redirect (m.arg 0).toNat) else x.rowVa == (m.arg 0).toNat)) = some l := by unfold State.numbered; decide
theorem witness_versioned : let s := regioned (builtin_ 0x100000 0) { st := 4, base := 16, limit := 31 }
    regionCheck (s.region 0 0x100000) 0 .ldv = none ∧ regionCheck (s.region 0 0x100000) 0 .stv = none := by decide

/-! ### Witnesses: messages, torus, handlers, contexts, cores and scopes -/

/-- One message on its way to core 0 with this ORD; the event names it. -/
def flying (m : Msg) (ord : Nat) : State :=
  let s : State := inPart State.reset
  { s with fab := { msgs := [{ msg := { m with no := 5 }, ph := .flying, ord := ord, stream := 3 }], nextMsg := 6 }, occ := { a := 5 } }
theorem witness_ArrivalEvents :
    let s := flying { kind := .spawn, addr := 0x400 } 0
    let m : Msg := { kind := .spawn, addr := 0x400, no := 5 }
    (s.net s.occ.a).isSome = true ∧ (0 : Nat) = (s.stream 3).expect ∧ (s.stream 3).held = [] ∧ (s.stream 3).skips = [] ∧ localOf m.dest < 768 ∧ s.partOf (localOf m.dest) = some m.part ∧
    m.malformed = false ∧ s.deadAt 0 0 0 = false ∧ (s.core 0).run = .inn ∧ s.hasRoom 0 m = true ∧ s.launchOf 0 0 = none ∧
    (let r : Msg := { kind := .resume, no := 5, addr := 7 }
     let s := (flying { kind := .resume, addr := 7 } 0).setCtx 0 2 { st := .waiting, recv := ⟨7, 0xFF, 1⟩ }
     r.hw = false ∧ (List.range 16).find? (fun w => (s.ctx 0 w).st == .waiting && (s.ctx 0 w).takes r) = some 2) ∧
    (let s := flying { kind := .spawn, addr := 0x400 } 1
     1 ≠ (s.stream 3).expect ∧ ((s.stream 3).held.any fun h => h.1 == 1) = false ∧ s.reorderUsed (s.streamHedge 3) < 64) ∧
    ((s.stream 0).expect < 256 ∧ ({ no := 5 } : Msg).tries < 63 ∧ modOf (0 : BitVec 24) = s.modid ∧ (budgeted s).msgOpen m = true ∧ s.msgOpen m = false) ∧
    (let nm : NetMsg := { msg := { no := 5 }, ph := .retry }
     let s := budgeted { State.reset with fab := { msgs := [nm], nextMsg := 6 }, occ := { a := 5 } }
     s.net s.occ.a = some nm ∧ s.fab.msgs.filter (fun x => x.ph == .retry && !x.msg.noord && x.stream == nm.stream) = [nm] ∧ s.msgOpen nm.msg = true ∧
       s.fab.msgs = [nm] ∧ ({ nm with ph := .flying, got := 0, flits := 1 } : NetMsg).got ≠ 1 ∧ ({ nm with ph := .arrived } : NetMsg).ph = .arrived) ∧
    (let s : State := { State.reset with fab := { ranks := [(9, (3, true))] }, occ := { b := 9, c := 4 } }
     s.fab.msgs = [] ∧ s.cores = [] ∧
     s.holder (BitVec.ofNat 24 s.occ.b) = some (3, true)) := by decide
theorem witness_TorusEvents :
    let f : Flit := { msg := 5, idx := 1, last := true, dest := 2, at_ := 2, port := 0, ord := 0, stream := 0 }
    let s : State := { State.reset with fab := { msgs := [{ msg := { no := 5 }, ph := .flying, got := 1 }], nextMsg := 6, flits := [f] }, occ := { a := 2 } }
    let g : Flit := { f with dest := 3 }
    let s2 : State := { s with fab := { s.fab with flits := [g] } }
    s.fab.flits.filter (fun f => f.at_ == s.occ.a) = [f] ∧ f.dest = s.occ.a ∧ f.kind = .data ∧ f.port < 4 ∧ s.fab.links = [] ∧ (1 : Nat) = 0 + 1 ∧ ({ f with port := 4, kind := .ack } : Flit).port = 4 ∧ (s.net f.msg).isSome = true ∧ s.canEject f = true ∧
    s2.fab.flits.filter (fun f => f.at_ == s2.occ.a) = [g] ∧ g.dest ≠ s2.occ.a ∧ g.port < 4 ∧ s2.fab.links = [] ∧ (productive 2 3).head?.isSome = true := by decide
theorem witness_HandlerAndPreemptionEvents :
    let m : Msg := { kind := .spawn, addr := 0x400 }
    let s := (inPart State.reset).setCore 0 { mailbox := [m] }
    (s.core s.occ.a).run = .inn ∧ m.heldBack = false ∧ m.bind = none ∧ s.deadAt 0 0 0 = false ∧ (List.range 14).find? (fun k => (s.ctx 0 k).st == .free) = some 0 ∧
    (let q : ScopeReq := { no := 4, core := 0, ctx := 0, part := 0, isNew := false, scope := 0, result := some 1 }
     let s : State := { heldAt (.scopeUnit 1 4) {} with scopeReqs := [q] }
     (s.ctx 0 0).hold = .scopeUnit 1 4 ∧ s.scopeReqs.find? (fun q => q.no == 4) = some q ∧ s.replyWaits 0 0 = false) ∧
    (((heldAt .paused {}).ctx 0 0).hold = .paused ∧ ((usrS (cx [])).ctx 0 0).st = .ready ∧ ((usrS (cx [])).ctx 0 0).grp = []) ∧
    ((((usrS (cx [])).setCore 0 { run := .switchingOut }).core 0).run = .switchingOut ∧ ((usrS (cx [])).ctx 0 0).ctl.ie = true) ∧
    (let s := (arrived { args := #v[⟨1, false⟩, {}, {}, {}] }).setCore 0 { run := .out }
     (s.net s.occ.a).isSome = true ∧ s.numbered ∧ (s.core 0).run = .out ∧ ((arrived {}).core 0).run = .inn) ∧
    (let s := (arrived { heldBack := true, args := #v[⟨1, false⟩, {}, {}, {}] }).setCore 0 { run := .switchingIn }
     (s.net s.occ.a).isSome = true ∧ s.numbered ∧ (s.core 0).run = .switchingIn ∧ (s.net s.occ.a).map (fun x => x.msg.heldBack) = some true) := by unfold State.numbered; decide
theorem witness_kill : (usrS (cx [])).Inv ∧ (arrived {}).numbered := by
  unfold State.Inv State.numbered; decide
theorem witness_CoreAndScopeUnitEvents :
    (let s := (arrived {}).setCtx 0 0 { st := .stopped }
     (s.ctx 0 0).st = .stopped ∧ s.doomed 0 (s.ctx 0 0) = false ∧ s.frameHandler 0 0 = false ∧ s.frame 0 0 0xA4 1 ≠ 2 ∧ (0 : Word).toNat % 4 = 0 ∧ 2 ≤ (2 : Word).toNat % 4) ∧
    (let b : Barrier := { armed := true, parts := 3 }
     let s := (arrived {}).setCore 0 { bars := [(0, b)] }
     (s.net s.occ.a).map (fun x => x.msg.heldBack) = some false ∧ s.bar 0 0 = b ∧ b.broken = false ∧ b.kids.length < 16 ∧ b.waitsParent = false ∧ b.arrived + 1 ≠ b.parts ∧ ({ b with waitsParent := true } : Barrier).waitsParent = true) ∧
    ((({} : Core).run = .inn ∧ ({} : Core).spaces = [] ∧ (∀ k < 15, (State.reset.ctx 0 k).st = .free ∧ (State.reset.ctx 0 k).trank = none)) ∧ State.reset.fab.ranks = []) ∧
    (((State.reset.setCore 0 { run := .resetting }).core 0).run = .resetting ∧ ((State.reset.setCore 0 { run := .ungating }).core 0).run = .ungating) ∧
    (let q : ScopeReq := { no := 4, core := 0, ctx := 0, part := 0, isNew := false, scope := 5 }
     let s : State := { inScopes 0 0 0 with scopeReqs := [q], occ := { a := 4 } }
     s.scopeReqs.find? (fun q => q.no == s.occ.a) = some q ∧ q.result = none ∧ (s.scope 0 5).st ≠ .free ∧ (s.scope 0 9).st ≠ .live ∧
       ({ q with isNew := true, tmpl := 0xFF00 } : ScopeReq).tmpl.toNat / 2 ^ 8 % 2 ^ 8 = 0xFF ∧ s.liveScopes < 4096) ∧
    (let s : State := { State.reset with parts := [(0, { isSet := true, groups := [(1, [0])] })], occ := { b := 7, c := 1, bytes := leBytes 2 0 } }
     s.occ.b < 65536 ∧ (s.part s.occ.a).isSet = true ∧ (tget (s.part s.occ.a).groups s.occ.c).map (fun l => l.flatMap fun m => leBytes 2 m.toNat) = some s.occ.bytes ∧ s.idFree s.occ.b = true ∧ s.liveScopes < 4096) := by decide
theorem witness_scnew_id : State.reset.idMay 1 = true := by unfold State.idMay; decide
theorem witness_prunes :
    let p : Prune := { scope := 5, part := 0, rank := 0, ctx := 0, scopeOf := 0, tag := 0, quiet := false, waiting := [0] }
    let s : State := { (arrived { scope := 5, args := #v[⟨0x900000000, false⟩, {}, {}, {}] }) with prunes := [(9, p)], scopes := [(5, { st := .dying })] }
    (s.prunes.find? (fun x => x.1 % 2 ^ 32 == 9 && !x.2.done)).isSome = true ∧ modOf (0 : BitVec 24) = s.modid ∧
    ((s.setCtx 0 1 { st := .waiting, ctl := { cur := 5 } }).inScope 0 5 5 = true) ∧ s.occ.c = 0 ∧ (s.prunes.find? (fun x => !x.2.done && !x.2.already && x.2.part == 0 && (x.2.scope == 5 && x.2.waiting.contains (localOf 0)))).isSome = true ∧
    (let s : State := arrived { srank := 0x1000 }
     (s.net s.occ.a).isSome = true ∧ modOf (0x1000 : BitVec 24) ≠ s.modid ∧ s.groupWith 0 (modOf 0x1000) = false) ∧ p.waiting = [localOf 0] ∧ p.members = [] ∧ p.done = false ∧ p.already = false ∧
    ({ p with members := [(1, 5)], waiting := [] } : Prune).members ≠ [] ∧ (s.scope 0 5).st ≠ .free := by decide

/-! ### Witnesses: engines, walker, rows, descriptors -/

/-- A context with g4 the command block at the start of the system page; n sends buffered already. -/
def blockAt (a : Word) (n : Nat) : State := sysS { cx [(4, a)] with sends := List.replicate n (.cmd ⟨0⟩), space := 8 }
theorem witness_EngineWords : let s := blockAt 0x3F020 31
    s.cur.guard e = true ∧ (ea (s.cur.gr 4) 0).toNat = 0x3F020 ∧ (ea ((blockAt 0x3F021 0).cur.gr 4) 0).toNat % 32 ≠ 0 ∧
    (match s.readDesc (s.cur.gr 4) 0x3F020 64 with | .ok bs => bs.length | _ => 0) = 64 ∧ s.cur.sends.length < 32 ∧ 32 ≤ (blockAt 0x3F020 32).cur.sends.length := by decide
/-- An operation of core 0 in system mode with a command block whose words are zero but these. -/
def opOf (en : Engine) (l : List (Nat × Nat)) : Op :=
  { engine := en, core := 0, ctx := 15, scope := 0, part := 0, rank := 0, system := true, ph := .started, space := 8
    block := (List.range 12).flatMap fun i => leBytes 8 ((tget l i).getD 0) }
/-- The walker of core 0 runs operation 7, a walk of 4 ids of 32 bits with 2 slots; g2 the id. -/
def walking (x : Word) (w : Walker) (l : List (Nat × Nat)) : State :=
  { ((({ State.reset with focus := .lc 0 16 } : State).setCore 0 { iw := { w with run := some 7 } }).setCur { cx [(2, x)] with space := 8 }) with ops := [(7, opOf .walk l)] }
theorem witness_WalkerWords : let s := walking 5 { window := [(4, 0), (5, 1)] } []
    s.cur.guard e = true ∧ s.fctx = 16 ∧ s.walkOp 0 = some (opOf .walk []) ∧ (s.cur.gv 2).toNat % 2 ^ (opOf .walk []).idWidth ≠ 2 ^ (opOf .walk []).idWidth - 1 ∧
    ((walking 0xFFFFFFFFFFFFFFFF {} []).cur.gv 2).toNat % 2 ^ (opOf .walk []).idWidth = 2 ^ (opOf .walk []).idWidth - 1 ∧
    (s.core 0).iw.window = [(4, 0)] ++ (5, 1) :: [] ∧ (∀ y ∈ (({ } : Walker)).window, y.1 ≠ 5) := by decide
/-- Two operands of a row word at 0x3F000 and 0x3F020, one beat of f32, in the system page. -/
def rowS : State := sysS { cx [(1, 0x3F000), (2, 0x3F020), (3, 0x3F040)] with space := 8, ctl := { shape := 0x0901 } }
theorem witness_RowWordsOneBeat : let c := rowS.cur
    let d : RowOpnd := ⟨c.gr 1, 0x3F000, 32, false, true⟩
    let a : RowOpnd := ⟨c.gr 2, 0x3F020, 32, true, false⟩
    let b : RowOpnd := ⟨c.gr 3, 0x3F040, 32, true, false⟩
    c.guard e = true ∧ c.ctl.shapeTy = .ok .f32 ∧ c.ctl.beats = 1 ∧ c.ctl.enables = 0 ∧ (ea (c.gr 1) 0).toNat = 0x3F000 ∧
    rowS.rowCheck [d, a, b] = .ok .tile ∧ rowS.rowCheck [{ d with rd := true }, a] = .ok .tile ∧ (rowS.core rowS.fcore).rowQ = [] ∧ rowS.rowCheck [d] = .ok .tile ∧
    ∀ o ∈ [{ d with rd := true }, a, b], o.rd = true → ∀ j < 32, tilePa rowS.fcore c.space (o.a + j) / 64 ∉ rowS.poison := by decide
/-- A row word of two beats at the head of its core's queue, with one beat performed. -/
def rowRuns : State := ((sysS { cx [(1, 0x3F000)] with space := 8, ctl := { shape := 0x0902 }, hold := .row (.rowzero e 1 .shape) 1 }).onCore 0 fun c => { c with rowQ := [15] })
theorem witness_row_beat : (rowRuns.core 0).rowQ = [15] ∧ (rowRuns.ctx 0 15).hold = .row (.rowzero e 1 .shape) 1 ∧ 1 < (rowRuns.ctx 0 15).ctl.beats ∧
    (rowRuns.ctx 0 15).ctl.shapeTy = .ok .f32 ∧ (match rowSpec (.rowzero e 1 .shape) with | some w => (rowBeat rowRuns 0 15 w .f32 1).2 == none | none => false) = true := by decide
/-- A descriptor of 1 row of one beat of f32 in one shard of 64 KiB at 0x100000, with one writer. -/
def etd2 : Nat := 0x100000 + 2 ^ 128 + 9 * 2 ^ 136 + 16 * 2 ^ 164 + 2 ^ 212
/-- The read of a descriptor at 0x200000 has come: these bytes. -/
def fetchedS (e : Nat) : State :=
  let c := cx [(1, 0x3F000), (2, 0x100000), (3, 0x200000)]
  let s := inPart (sysS { c with space := 8 })
  { s with reqs := [(3, { rq .loadNc .finished 0x200000 with core := 0, ctx := 15, len := 64, fetch := true, result := leBytes 64 e })] }
set_option maxRecDepth 4000 in
theorem witness_AccumulateReclaimClose :
    ((fetchedS etd2).fetched 0x200000 64).map (fun q => (Etd.rejected (leNat q.result) false, Etd.len (leNat q.result), Etd.hlist (leNat q.result))) = some (false, 32, 0) ∧
    ((fetchedS 0).fetched 0x200000 64).map (fun q => Etd.rejected (leNat q.result) false) = some true ∧
    (fetchedS etd2).contributes 0x200000 = false ∧ ((fetchedS etd2).regionSt 0 0x100000 == 4) = false ∧
    (sysPage 0).fetched 0x200000 64 = none ∧ placeOf false ((sysPage 0).rankOf 0) 0x200000 = some .global ∧ 0x200020 % 64 ≠ 0 ∧
    (fetchedS etd2).check 0x3F000 32 32 true false ((fetchedS etd2).cur.gr 1) = .ok .tile ∧ (fetchedS etd2).tilePoison 0 8 (tileOff 0x3F000) 32 = none ∧
    0x100000 % 65536 + 32 ≤ 65536 ∧ (fetchedS etd2).check 0x100000 32 32 false true ((fetchedS etd2).cur.gr 2) true = .ok .global ∧
    placeOf false ((sysPage 0).rankOf 0) 0x1000 ≠ some .global ∧
    (cached (regioned (usrS (cx [])) { st := 4, banked := true, base := 16, limit := 31 })).xlHit 0 0x100000 = some leaf ∧
    ((regioned (usrS (cx [])) { st := 4, banked := true, base := 16, limit := 31 }).region 0 0x100000).map (fun x => (x.2.st, x.2.banked)) = some (4, true) ∧
    ((regioned (usrS (cx [])) { st := 4, base := 16, limit := 31 }).region 0 0x100000).map (fun x => (x.2.st, x.2.banked)) = some (4, false) ∧
    ((regioned (usrS (cx [])) { st := 1, base := 16, limit := 31 }).region 0 0x100000).map (fun x => x.2.st) = some 1 ∧
    homeOf (leaf.pa 0x100000) < 768 ∧ ((inPart State.reset).part 0).hedges.contains (homeOf (leaf.pa 0x100000) / 8) = true := by decide
theorem witness_halt_wakes : ((onK 14 (cx [])).setCore 0 { mailbox := [{ kind := .resume, dest := 0 }] }).wakePending 0 14 = true := by decide

/-! ### Witnesses: steps, groups, traps -/

/-- A user context inside a group of one word. -/
def inGroup (w : BitVec 32) : State := inPart (usrS { cx [] with pc := 0x400, npc := 0x400, grp := [w] })
theorem witness_StepRunsDecodedInstruction : let s := inGroup 0x80224600
    s.clockStopped = false ∧ s.agenda = [] ∧ s.focus = .lc 0 0 ∧ canMove s (ckey 0 0) = true ∧ (s.ctx 0 0).grp ≠ [] ∧ (s.ctx 0 0).doneMask.getLsbD (s.ctx 0 0).slot = false ∧
    (match decodeL ((s.ctx 0 0).grp.getD (s.ctx 0 0).slot 0).toNat with | .ok i => i == .add e 1 2 3 | .error _ => false) = true := by decide
/-- A user context that holds a message with one inline word, between groups. -/
def inlined : State := inPart (usrS { cx [] with pc := 0xFFFFFF00, npc := 0xFFFFFF00, held := some { inl := true, ilen := 1, code := [0x80224600] } })
theorem witness_StepStartsGroup : let s := inlined
    canMove s (ckey 0 0) = true ∧ (s.ctx 0 0).grp = [] ∧ (s.ctx 0 0).ctl.kpend = false ∧ (s.ctx 0 0).ctl.ipend = false ∧ (s.ctx 0 0).pc.toNat % 4 = 0 ∧
    (s.ctx 0 0).doneMask = 0 ∧ (match s.fetchGroup 0 0 with | (u, .ok (w :: _, i :: is)) => w == 0x80224600 && i == .add e 1 2 3 && (u.ctx 0 0).latches == [] && !u.doomed 0 (u.ctx 0 0) && decide (latchNeed (i :: is) ≤ 8) | _ => false) = true := by decide
theorem witness_StepPerformsEvent : let s : State := { State.reset with agenda := [(.goldenEpoch, {})] }
    s.clockStopped = false ∧ s.agenda = (.goldenEpoch, {}) :: [] := by decide
theorem witness_PlacedWordRuns : let s := usrS (cx [])
    s.focus = .lc 0 0 ∧ (0 : Nat) < 768 ∧ 0x80224600 < 2 ^ 32 ∧ (match decodeL 0x80224600 with | .ok i => i == .add e 1 2 3 && !walkerOnly i | .error _ => false) = true ∧
    (s.ctx 0 0).latches = [] ∧ s.doomed 0 (s.ctx 0 0) = false := by decide
theorem witness_GroupRules : (match decodeL 0 with | .ok _ => false | .error _ => true) = true ∧
    (match decodeL 0x019FFFFD with | .ok x => isTransfer x | .error _ => false) = true ∧
    (match decodeL 0x00224600, decodeL 0x80222200 with
      | .ok x, .ok y => !(isTransfer x || isAlone x || isAlone y || walkerOnly x || walkerOnly y || (isSend x && isSend y) || (isEngine x && isEngine y)) &&
          ((regSets x).writes &&& (regSets y).reads != 0) && !laneBeyond 0x0901 x && !laneBeyond 0x0901 y
      | _, _ => false) = true ∧
    laneBeyond 0x0901 (.vrot e 1 2 8 .shape) = true ∧ laneBeyond 0x0901 (.vrot e 1 2 7 .shape) = false := by decide
theorem witness_TrapEntry : let s := inGroup 0x80224600
    s.Inv ∧ (s.ctx 0 0).slot < 4 ∧ ((s.ctx 0 0).pendMts.all fun x => x.1 != 11) = true ∧ (s.ctx 0 0).sweep = [] := by unfold State.Inv; decide
theorem witness_EretRestores : let s := (sysS (cx [(2, 3)])).setCtx 0 3 { st := .stopped }
    s.cur.guard e = true ∧ s.priv = true ∧ (s.cur.gv 2).toNat % 16 < 14 ∧ (s.ctx 0 3).st = .stopped ∧ s.frameHandler 0 3 = false ∧ (s.framePc 0 3).toNat % 4 = 0 ∧ s.frame 0 3 0xA4 1 ≠ 2 := by decide
theorem witness_StepKeepsInv : State.reset.Inv ∧ State.reset.numbered ∧ ∃ t, step State.reset = .next t := by
  refine ⟨?_, ?_, ⟨_, rfl⟩⟩
  · unfold State.Inv; decide
  · unfold State.numbered; decide
theorem witness_StopsOnlyWithClocks : ({ State.reset with clockStopped := true } : State).clockStopped = true ∧ State.reset.clockStopped = false := by decide

/-! ### Witnesses: dense sequencers -/

/-- A dense sequencer with these registers and generators, a job held. -/
def dsS (d : Ds) : State := ({ State.reset with focus := .ds 0 } : State).setDs 0 { d with up := true }
theorem witness_DenseScalarAndTransferWords : let s := dsS { d := (Vector.replicate 32 0).set 2 5 }
    (∀ p ∈ s.dsCur.pend, p.dest ≠ .d 1 ∧ p.dest ≠ .d 2) ∧ s.dsCur.dv 1 ≠ s.dsCur.dv 2 ∧ s.dsCur.dv 1 = s.dsCur.dv 3 ∧ (s.dsCur.dv 1).toInt < (s.dsCur.dv 2).toInt ∧
    (s.dsCur.dv 2).toInt ≥ (s.dsCur.dv 1).toInt ∧ s.dsCur.job = none ∧ (dsS { job := some 7 }).dsCur.job ≠ none ∧ (dsS { dcause := 0x10000 }).dsCur.hmode = true ∧
    (dsS { dcause := 0x10000 }).dsCur.parked = false ∧ s.dsCur.hmode = false := by decide
/-- Generators: 0 rows of 1 KiB in the buffer, 1 one row, 2 one row of bf16 activations. -/
def gens : Vector AGen 16 := (((Vector.replicate 16 {}).set 0 ⟨0, 1024, 1024⟩).set 1 ⟨0, 64, 1⟩).set 2 ⟨0xB00000000000, 512, 1⟩
theorem witness_DenseArrayWords : let d := (dsS { job := some 7, a := gens }).dsCur
    (∀ i ∈ [Instr.xin 0 1, .xout 0 1, .dbcpy 0 1, .ldd 1 0, .std 1 0, .mlw 2, .mlwt 2, .mswap, .mst 0 2 false, .mstz 0 2 false 0, .mdrain 0 1 0xB, .mzero 1,
        .vbias 0 0, .vscale 0 1, .vrelu 0, .vgelu 0, .vclamp 0 1 2], d.check i = none) ∧
    (d.ag 1).count ≠ 0 ∧ (d.ag 3).count = 0 ∧ d.check (.xin 0 3) = none ∧
    (let h := (dsS { job := some 7, a := gens, dcause := 0x10000 }).dsCur
     h.check .mpark = none ∧ h.hmode = true ∧ h.parked = false ∧ (dsS { dcause := 0x30000 }).dsCur.check .munpark = none) ∧
    d.hmode = false ∧ ((d.ag 3).count.toNat = 0 ∧ (d.ag 0).count.toNat = 1024 ∧ 256 < 1024) ∧ (1 % 32 ≠ 0) ∧ (dsS {}).dsCur.job = none := by decide

/-! ### Witnesses: engine events -/

/-- Operation 7 of core 0, in a partition whose engines hold nothing else; the event names it. -/
def withOp (o : Op) (s : State := inPart State.reset) : State := { s with ops := [(7, o)], occ := { a := 7 } }
/-- Blocks of 16 bytes from 0x3F000 to 0x3F100, of a walk of 4 ids, of a round with no token, and of a job of die 0. -/
def copyBlk : List (Nat × Nat) := [(1, 0x3F000), (2, 0x3F100), (3, 16)]
def walkBlk : List (Nat × Nat) := [(1, 0x3F040), (2, 4), (3, 0x3F000), (4, 0x3D000), (5, 2), (6, 0x3E000), (7, 0x400)]
def deadScope (s : State) : State := { s with scopes := [(0, { st := .dead })] }
set_option maxRecDepth 4000 in
theorem witness_CommandAcceptance :
    let o := { opOf .copy copyBlk with ph := .sent }
    let s := withOp o
    s.op s.occ.a = some o ∧ s.sealsMet o = [] ∧ s.scopeDead 0 0 = false ∧ (deadScope s).scopeDead 0 0 = true ∧ s.queued (768 + o.core / 8) < 32 ∧ o.copyBad = none ∧
    o.inputFailed = false ∧ o.edges = [] ∧ o.tries < 64 ∧ ({ o with tries := 64 } : Op).tries = 64 ∧ (opOf .copy [(0, 1), (3, 16)]).copyBad.isSome = true ∧
    (let o := { opOf .walk walkBlk with ph := .sent }; o.walkBad ((withOp o).walkRow o) = none ∧ o.edges = [] ∧ (withOp o).queued o.core < 8 ∧ ((opOf .walk []).walkBad 0).isSome = true) ∧
    (let o := { opOf .djob [(1, 1)] with ph := .sent }; o.djobBad = none ∧ o.djobDie = 1 ∧ (opOf .djob [(1, 2)]).djobBad.isSome = true ∧ (withOp o).queued (872 + o.djobDie) < 64) ∧
    (let o := { opOf .dispatch [(1, 0x101), (4, 2 ^ 32)] with ph := .sent }; (withOp o).queued o.tdeUnit < 8 ∧ (opOf .dispatch [(0, 1)]).tdeBad.isSome = true) ∧
    (let o := { opOf .copy copyBlk with ph := .ended, st := .done, tk := 1 }
     let s := (withOp o).setCtx 0 15 { cx [] with toks := (Vector.replicate 8 {}).set 1 ⟨.pending, 7⟩ }
     (s.ctx o.core o.ctx).st = .ready ∧ (s.ctx o.core o.ctx).grp = [] ∧ o.tk ≠ 0 ∧ (s.ctx o.core o.ctx).toks[1].op = 7) := by decide
/-- A copy of one part that has moved nothing. -/
def copyPartOp (p : CPart) : Op := { opOf .copy copyBlk with ph := .started, parts := [p] }
def part0 : CPart := { engine := 0, src := 0x3F000, dst := 0x3F100, len := 16 }
theorem witness_CopyEvents :
    let o := { opOf .copy copyBlk with ph := .queued }
    let s := withOp o
    s.op s.occ.a = some o ∧ o.ready = true ∧ o.inputFailed = false ∧ o.sealed = [] ∧ 0 < o.copyLen ∧ o.overlaps = false ∧
    ({ opOf .copy [] with ph := .queued } : Op).copyLen = 0 ∧ (opOf .copy [(1, 0x3F000), (2, 0x3F00F), (3, 16)]).overlaps = true ∧
    (let o := copyPartOp part0
     let s := withOp o
     o.parts = [part0] ∧ s.occ.b = 0 ∧ o.ph = .started ∧ o.killed = false ∧ part0.done = false ∧ part0.failed = none ∧ part0.stopAt = none ∧ part0.buf = [] ∧
     s.lineTaken 7 0 0x3F100 16 = false ∧ part0.pos < part0.len ∧ part0.src % 64 = part0.dst % 64 ∧ s.copyOpen o part0 0x3F100 = true ∧
     (match s.engRead o 0x3F000 16 with
      | .ok s1 bs bad => bs.length == 16 && (match s1.engWrite o 768 .copy 0x3F100 bs bad with | .ok s2 [] false => decide (s2.op 7 = some o) | _ => false)
      | _ => false) = true ∧
     (match s.engRead o 0x40000 16 with | .fail s1 _ _ => decide (s1.op 7 = some o) | _ => false) = true) := by decide
theorem witness_EngineAccesses :
    let o := opOf .copy copyBlk
    let s := withOp o
    s.engPlace o 0x3F000 16 = .ok (.tile 0 8 0x3F000) ∧ (s.pinPages 0 8 0x3F000 16).isSome = true ∧ (s.core 0).run = .inn ∧ (∀ i < 16, s.sealedAt 0 8 (0x3F000 + i) = false) ∧
    ((s.setCore 0 { seals := [{ space := 8, base := 0x3F000, lsz := 6 }] }).sealedAt 0 8 0x3F000) = true ∧ ((s.setCore 0 { run := .out }).core 0).run = .out ∧
    s.engPlace o 0x100000 16 = .ok .global ∧ (cached s).xlHit 0 0x100000 = some leaf ∧ leaf.mod = (cached s).modid ∧
    (cached s).movingAt ((cached s).redirect (leaf.pa 0x100000)) = none ∧ (cached s).region 0 0x100000 = none ∧ (cached s).watches = [] ∧ o.prof = none ∧
    (cached s).asked o o.unit 0x100000 16 false [] = none ∧ (cached s).asked o 768 0x100000 16 true (List.replicate 16 1) = none ∧
    (regionCheck ((regioned s { st := 2, base := 16, limit := 31, owner := 5 }).region 0 0x100000) 0 .engineWrite).isSome = true := by decide

/-- The system page of core 0 begins with these bytes. -/
def sysBytes (bs : List Byte) (s : State) : State := { s with mem := memWrite s.mem (tilePa 0 8 0x3F000) bs }
/-- What a read of an engine gives when it succeeds. -/
def eOk (r : ERes) (f : State → List Byte → Bool) : Bool := match r with | .ok s bs false => f s bs | _ => false
set_option maxRecDepth 4000 in
theorem witness_WalkEvents :
    let o := { opOf .walk walkBlk with ph := .queued }
    let s := sysBytes (leBytes 64 etd2) ((withOp o).setCore 0 { iw := { queue := [7] } })
    s.op s.occ.a = some o ∧ (s.core 0).iw.run = none ∧ (s.core 0).iw.queue.head? = some 7 ∧ o.ready = true ∧ o.inputFailed = false ∧ 0 < o.nidx ∧ o.walkEtd % 64 = 0 ∧
    ({ opOf .walk [] with ph := .queued } : Op).nidx = 0 ∧ (opOf .walk [(3, 8)]).walkEtd % 64 ≠ 0 ∧
    s.reachOpen o o.walkEtd 1 = true ∧ ({ opOf .walk [] with ph := .queued } : Op).slotsOver 0 = false ∧
    eOk (s.engBytes o o.walkEtd 64) (fun s1 bs => !Etd.rejected (leNat bs) false && o.slotsOver (Etd.len (leNat bs)) == false) = true ∧
    (let o := { opOf .walk walkBlk with ph := .started }
     let s := (withOp o).setCore 0 { iw := { run := some 7 } }
     ({ s with occ := {} } : State).occ.a = o.core ∧ (s.core 0).iw.run = some 7 ∧ (s.core 0).iw.inLine = false ∧ o.killed = false ∧ (s.core 0).iw.pending = [] ∧
     (s.core 0).iw.failed = none ∧ (s.core 0).iw.idx < o.nidx ∧ s.reachOpen o 0x3F040 1 = true ∧ eOk (s.engBytes o 0x3F040 16) (fun _ bs => bs.length == 16) = true) := by decide
/-- Die 0's complex, at dense sequencer d; the event names the die and b. -/
def onDie (d : Ds) (b : Nat) (ops : List (Nat × Op) := []) : State := { inPart (dsS d) with ops := ops, occ := { a := 0, b := b } }
/-- A job of die 0 with its descriptor at 0x3F000. -/
def jobOp (ph : OpPh) : Op := { opOf .djob [(2, 0x3F000)] with ph := ph }
theorem witness_DenseEvents :
    (let s := sysBytes (leBytes 8 0x400) (onDie { queue := [(7, 0)], jgetWait := some 3 } 0 [(7, jobOp .queued)])
     (s.ds 0).queue = [(7, 0)] ∧ (s.ds 0).outst = [] ∧ (s.ds 0).pend = [] ∧ s.op 7 = some (jobOp .queued) ∧ (jobOp .queued).ready = true ∧ (s.ds 0).jgetWait = some 3 ∧
     eOk (((s.setDs 0 { s.ds 0 with lastGrant := 0, queue := [] }).setOp 7 (jobOp .started)).engBytes (jobOp .queued) 0x3F000 8) (fun s1 bs =>
       leNat bs == 0x400 && decide (0x400 + 16 ≤ (s1.part 0).codeLen)) = true) ∧
    ((onDie { pend := [⟨.d 3, 5, 1⟩] } 0).ds 0).pend[0]? = some ⟨.d 3, 5, 1⟩ ∧
    (∀ i ∈ [Instr.std 1 0, .mswap, .dbcpy 0 1, .xin 0 1],
      (((onDie { outst := [{ no := 2, op := i }] } 2).ds 0).outst.find? (fun w => w.no == 2)) = some { no := 2, op := i }) ∧
    (let s := onDie { xfault := some ⟨3, 0, 0⟩ } 0; (s.ds 0).xfault = some ⟨3, 0, 0⟩ ∧ (s.ds 0).tfault = none ∧ (s.ds 0).tHandling = false) ∧
    (State.reset.ds 0).up = false := by decide
theorem witness_transfer :
    let w : DWord := { no := 2, op := .xin 0 1, a := ⟨0, 64, 64⟩, b := ⟨0x2000, 64, 1⟩ }
    let s := onDie { outst := [w], job := some 7 } 2 [(7, jobOp .started)]
    (s.ds 0).job = some 7 ∧ s.op 7 = some (jobOp .started) ∧ 0 < w.a.count.toNat ∧ w.done / 64 < w.b.count.toNat ∧ (s.ds 0).killed = false ∧ s.reachOpen (jobOp .started) 0x2000 1 = true ∧
    (budgeted (cached s)).reachOpen { jobOp .started with unit := 872 } 0x100000 1 = true ∧ (cached s).reachOpen { jobOp .started with unit := 872 } 0x100000 1 = false ∧
    w.b.count.toNat ≤ ({ w with done := 64 } : DWord).done / 64 ∧ w.b.count.toNat ≤ 0 + 1 ∧
    (match s.engRead { jobOp .started with system := false } 0x40000 64 with | .fail s1 _ _ => decide (s1.ds 0 = s.ds 0) | _ => false) = true ∧
    eOk ((cached s).engRead { jobOp .started with system := false } 0x100000 64) (fun s1 _ => s1.ds 0 == s.ds 0) = true := by decide
/-- A context of a TDE with one source, two experts, one routed choice of f32; its drop log and source list in the system page. -/
def tdeX : TdeCtx := { loaded := true, image := 0x3F100 * 2 ^ 64 + 0x3F000 * 2 ^ 192 + 2 ^ 320 + 2 ^ 332 + 2 ^ 336 + 9 * 2 ^ 348 }
/-- A round of one token for context 1 of the TDE 865. -/
def tdeOp (en : Engine) (ph : OpPh) : Op := { opOf en [(1, 0x101), (4, 1 + 2 ^ 32), (5, 0x3F200)] with ph := ph }
def tdeS (o : Op) (x : TdeCtx) : State := { withOp o (budgeted (inPart State.reset)) with tdes := [(865, { queue := [7], ctxs := [(1, x)] })] }
/-- Counts of source 3 for a round, sent to that context. -/
def countsMsg (check : Word) : Msg :=
  { dest := 865, args := #v[⟨BitVec.ofNat 64 (2 ^ 52 + 3 * 2 ^ 40), false⟩, ⟨BitVec.ofNat 64 (2 ^ 12), false⟩, ⟨check, false⟩, {}], payload := leBytes 32 5 }
def heard (o : Op) (x : TdeCtx) (m : Msg) : State := { (arrived m).setDc 865 1 x with ops := [(7, o)] }
set_option maxRecDepth 20000 in
theorem witness_TokenDispatchEvents :
    (let o := tdeOp .dispatch .queued
     let s := { tdeS o tdeX with mem := memWrite (tdeS o tdeX).mem (tilePa 0 8 0x3F100) (leBytes 4 (865 + 2 ^ 24)) }
     let o1 : Op := { o with ph := .started }
     let x0 : TdeCtx := { tdeX with run := some 7 }
     let x1 : TdeCtx := { x0 with phase := 1, puts := putRun x0.dlog (x0.header o.round 0x80) }
     let s0 := ((s.setOp 7 o1).setDc 865 1 x0).setDc 865 1 x1
     let z : TdeCtx := { x1 with puts := [] }
     s.op 7 = some o ∧ o.ph ≠ .ended ∧ o.tdeUnit = 865 ∧ o.tdeCtx = 1 ∧ (s.dc 865 1).run = none ∧ o.ready = true ∧ s.tdeFirst 865 1 = some 7 ∧
     ((s.tde 865).ctxs.filter fun y => y.2.run.isSome).length < 4 ∧ o.inputFailed = false ∧ s.engOpen o 0 = true ∧ s.engOpen o 1 = true ∧ (o.word 1).testBit 16 = false ∧ tdeX.chunks = [] ∧ tdeX.heldRound ≠ some o.round ∧
     (match s0.tdeFlush o1 false with
      | (s1, none) => decide (s1.dc 865 1 = z) && eOk (s1.engBytes o1 tdeX.srcl (4 * tdeX.nsrc)) (fun s2 bs =>
         match readSources s2 865 1 (elems 4 tdeX.nsrc bs) with
         | .ok (srcs, me) => srcs == [(865, 1)] && me == 0 && (srcs.all fun p => modOf p.1 == s2.modid) &&
             (match readIds (s2.setDc 865 1 { z with srcs := srcs, me := me }) o1 (o.ntok * tdeX.k) 0x3F200 (o.ntok * tdeX.k) with
              | .ok _ ids => (classifyTok tdeX.nexp tdeX.kr 0 ids []).all fun p => p.2 == 0
              | _ => false)
         | .error _ => false)
      | _ => false) = true) ∧
    (let m := countsMsg 0
     let run : TdeCtx := { tdeX with run := some 7, phase := 2, srcs := [(865, 1), (866, 1)] }
     let ch : TdeChunk := { round := 0, pass := 0, src := 3, first := 0, counts := [5], check := 0 }
     localOf m.dest = 865 ∧ bits (m.arg 0).toNat 52 4 = 1 ∧ ((heard (tdeOp .dispatch .started) tdeX m).net 5).isSome = true ∧ tdeX.run = none ∧
     elems 4 1 m.payload = [5] ∧ (tdeOp .dispatch .started).round = 0 ∧ run.check ≠ 0 ∧ ({ run with chunks := [{ ch with check := run.check }] } : TdeCtx).allHeard 0 = false ∧
     ((countsMsg (run.check.zeroExtend 64)).arg 2).truncate 32 = run.check) ∧
    (let o := tdeOp .combine .queued
     let x : TdeCtx := { tdeX with lastRound := some 0, lastNtok := 1 }
     (tdeS o x).dc 865 1 = x ∧ o.ready = true ∧ (tdeS o x).tdeFirst 865 1 = some 7 ∧ x.lastRound = some o.round ∧ x.lastNtok = o.ntok ∧ ({} : TdeCtx).loaded = false) ∧
    (let x : TdeCtx := { tdeX with run := some 7, phase := 4 }; (tdeS (tdeOp .combine .started) x).dc 865 1 = x ∧ x.run = some 7 ∧ x.phase = 4) ∧
    (let o := tdeOp .combine .started
     let x : TdeCtx := { tdeX with image := tdeX.image + 0x3F300 * 2 ^ 128, run := some 7, phase := 1 }
     let s := { tdeS o x with mem := memWrite (tdeS o x).mem (tilePa 0 8 0x3F300) (leBytes 8 (2 ^ 59)) }
     s.engOpen { o with unit := 865 } 0 = true ∧ s.engOpen o 0 = true ∧ s.engOpen o 1 = true ∧ x.ety = .f32 ∧ x.puts = [] ∧ x.progress ≠ o.ntok ∧ ({ x with progress := 1 } : TdeCtx).progress = o.ntok ∧
     (match combineTok s o x 0 x.kr 0 (List.replicate (o.rowBytes / 4) (0, false), x.resid, x.zeroed) with
      | .ok s1 (sums, re, ze) =>
        let y : TdeCtx := { x with resid := re, zeroed := ze, puts := outPuts 16 (o.field 2 0 48) (sums.flatMap fun p => (leBytes 4 p.1).map fun b => (b, p.2)) }
        (match (s1.setDc 865 1 y).tdeFlush o false with | (s2, none) => decide (s2.dc 865 1 = { y with puts := [] }) | _ => false)
      | _ => false) = true) ∧
    (let x : TdeCtx := { tdeX with run := some 7, phase := 5, fin := some ⟨.failed, 0x10, ⟨0, 0, 0⟩, false⟩ }
     (tdeS (tdeOp .combine .started) x).dc 865 1 = x ∧ x.run = some 7 ∧ x.phase = 5 ∧ x.puts = [] ∧ x.fin.isSome = true) := by decide
/-- Two pairs of expert 0, whose buffer has two rows. -/
theorem witness_PlacementSlots :
    let ps : List TPair := [{ id := 0 }, { id := 0 }]
    (∀ p ∈ ps, p.target < ([0, 0] : List Nat).length) ∧
    (placePairs 1 [(0, ⟨0x3F800, 0, 2, 0⟩)] [0, 0] [0, 0] ps [0, 0]).map (fun q => (q.st == .placed, q.slot)) = [(true, 0), (true, 1)] := by decide

/-! ### Witnesses: launches -/

/-- A launch record: one word of code at 0x400, which is the entry handler; core 0 placed; one tile page; the hash of four zero bytes, SHA-256's own. -/
def launchWords : List (Nat × Nat) := [(0, 0x40001), (1, 0x400), (3, 0x400 + 4 * 2 ^ 32), (4, 0xdb2fa90498613fdf), (5, 0x48d73dc42d195740), (6, 0x8c49bc52dc8a77ea),
  (7, 0x1911b814c02405e8), (12, 1)]
def recOf (l : List (Nat × Nat)) : List Byte := (List.range 32).flatMap fun i => leBytes 8 ((tget l i).getD 0)
def launch1 (st : LaunchSt) (ws : List (Nat × Nat) := launchWords) : Launch := { st := st, part := 0, record := recOf ws, cores := [0], host := true }
/-- Launch 1, at the head of its partition's queue when it is queued. -/
def launching (l : Launch) : State :=
  let s := inPart State.reset
  { (s.setPart 0 { s.part 0 with launchQ := if l.st = .queued then [1] else [] }) with launches := [(1, l)], occ := { a := 1 }, scopes := [(0, { st := .live })] }
/-- The launch at the queue's head is live, not busy and not dead. -/
def chosen (l : Launch) : Bool :=
  let s := launching l
  s.pickPart == some 0 && (s.part 0).launchQ == [1] && tget s.launches 1 == some l && l.st == .queued && l.part == 0 && !s.scopeDead 0 0 && (s.scope 0 0).st == .live
set_option maxRecDepth 20000 in
theorem witness_LaunchStartEvents :
    (((arrived { addr := 0x334, payload := recOf launchWords }).net 5).isSome = true ∧ ((arrived {}).part 0).launchQ.length < 16) ∧ (launching (launch1 .queued)).fab.msgs = [] ∧
    (let l := launch1 .queued
     chosen l = true ∧ l.badRec = false ∧ (placed ((l.record.drop 96).take 96) = [0]) ∧ 0 ∈ partCores ((launching l).part 0) ∧ l.idst + l.ilen ≤ 0x1000 ∧ l.nrank = 0 ∧
     l.fld 26 0 48 = 0 ∧ l.entryOk (l.fld 1 0 32) = true ∧ l.parent = 0) ∧
    (let l := launch1 .queued [(0, 2)]; chosen l = true ∧ l.badRec = true) ∧
    (let l := launch1 .queued (launchWords.map fun x => if x.1 = 12 then (12, 2 ^ 8) else x)
     chosen l = true ∧ l.badRec = false ∧ (partCores ((launching l).part 0)).contains ((placed ((l.record.drop 96).take 96)).headD 0) = false) ∧
    (let l := launch1 .queued (launchWords.map fun x => if x.1 = 3 then (3, 0x1000 + 4 * 2 ^ 32) else x); chosen l = true ∧ l.badRec = false ∧ 0x1000 < l.idst + l.ilen) ∧
    (let l := launch1 .queued (launchWords.map fun x => if x.1 = 1 then (1, 0x404) else x); chosen l = true ∧ l.badRec = false ∧ l.entryOk (l.fld 1 0 32) = false) := by decide
set_option maxRecDepth 20000 in
/-- An image in place is hashed without a copy, and with no tile image loading ends there. -/
theorem witness_launch_loads :
    (let l := launch1 .loading
     let s := launching l
     s.numbered ∧ tget s.launches s.occ.a = some l ∧ l.killed = false ∧ s.scopeDead l.part l.parent = false ∧ (deadScope s).scopeDead l.part l.parent = true ∧
     (match s.loadLine l with | .more _ l1 => l1.stage | _ => 0) = 1 ∧
     (match s.loadLine { l with stage := 1, pos := 4, image := [0, 0, 0, 0] } with | .ends s1 c => (c, decide (s1 = s)) | _ => (1, false)) = (0, true) ∧
     (match s.loadLine { l with stage := 1, pos := 4, image := [0, 0, 0, 1] } with | .ends s1 c => (c, decide (s1 = s)) | _ => (1, false)) = (8, true)) ∧
    (let l := launch1 .binding
     let s := launching l
     tget s.launches s.occ.a = some l ∧ s.scopeLive l.part l.parent = true ∧ s.scopeLive l.part 9 = false ∧ (∀ k ∈ l.cores, s.spacesOn k < 8) ∧
     (match s.allocId with | (s2, some _) => s2.fab.msgs == [] | _ => false) = true ∧
     8 ≤ ({ s with launches := (List.range 8).map fun i => (i + 2, launch1 .running) } : State).spacesOn 0) := by unfold State.numbered; decide +kernel
set_option maxRecDepth 20000 in
theorem witness_LaunchSpaceEvents :
    (let s := { arrived { addr := 0x320, scope := 5, payload := leBytes 96 1 ++ List.replicate 128 0 } with scopes := [(5, { st := .live, launch := some 1 })] }
     s.deadAt 0 0 5 = false ∧ s.spaceFor 0 0 5 = none ∧ (s.launchOf 0 5).bind (s.spaceOf 0) = none ∧ leNat (((leBytes 96 1 ++ List.replicate 128 0).drop 0xC8).take 8) % 2 ^ 18 = 0 ∧ s.freeSpace 0 = some 0 ∧ (s.core 0).run = .inn ∧ (s.core 0).mailbox = [] ∧ kidsOf (placed (leBytes 96 1)) 0 = [] ∧
     kidsOf (placed (leBytes 96 3)) 0 = [1] ∧ s.unitsUsed 0 < 1024 ∧ ∀ i : BitVec 2, s.laneUsed 0 i < 8) ∧
    ((0x8000000000000000 : Word).getLsbD 63 = true ∧ (3 : Word).getLsbD 63 = false) ∧
    (let s := { arrived { addr := 0x330 } with launches := [(1, { launch1 .running with cores := [1] })], scopes := [(5, { st := .live, launch := some 1 })] }
     s.launchOf 0 5 = some 1 ∧ (arrived {}).launchOf 0 5 = none ∧ s.spacesOn 0 < 8 ∧ s.freeSpace 0 = some 0 ∧ s.spaceOf 0 1 = none ∧
     (s.setCore 0 { spaces := [(0, { held := true, launch := 1, scope := 5 })] }).spaceOf 0 1 = some 0 ∧
     (tget ((s.setCore 0 { spaces := [(0, { held := true, ready := false, launch := 1, scope := 5 })] }).core 0).spaces 0).map (fun x => x.held && !x.ready && x.scope == 5) = some true ∧
     (s.setCore 0 { nodes := [{ part := 0, scope := 5, kids := [1] }] }).kidsAt 0 0 5 = [1] ∧ s.fab.portQ = []) := by decide
set_option maxRecDepth 4000 in
theorem witness_LaunchEndEvents :
    (let s := launching (launch1 .running); tget s.launches s.occ.a = some (launch1 .running) ∧ (launch1 .running).cores.take 1 = [0] ∧ (launch1 .running).granted = []) ∧
    (let l := { launch1 .spawning with outs := [5] }
     let s := { launching l with fab := { msgs := [{ msg := { no := 5 } }], nextMsg := 6 } }
     tget s.launches s.occ.a = some l ∧ s.numbered ∧ (∃ x ∈ s.fab.msgs, l.outs.contains x.msg.no = true ∧ x.ph = .atSender) ∧ (launching l).fab.msgs = []) ∧
    (let s := (arrived { addr := 0x324, dest := 0 }).setCore 0 { spaces := [(0, { held := true, scope := 0 })] }
     s.deadAt 0 0 0 = false ∧ (s.core 0).spaces = [(0, { held := true, scope := 0 })]) ∧
    (let w : Wave := { part := 0, scope := 0, no := 0, up := 876, waiting := [0], sums := [] }
     let s := (arrived { addr := 0x328, dest := 0 }).setCore 0 { waves := [w] }
     (s.core 0).waves = [w] ∧ w.waiting.contains (localOf 0) = true ∧ ({ w with waiting := [0, 1] } : Wave).waiting.contains 0 = true) ∧
    (let s := { arrived { addr := 0x328, dest := 876 } with launches := [(1, { launch1 .running with waiting := [0] })] }
     s.launches = [(1, { launch1 .running with waiting := [0] })] ∧ localOf (876 : BitVec 24) = 876 ∧
     joinSums (joinSums (joinSums [0, 0, 0, 0, 0, 1] (reportSums { args := #v[{}, {}, ⟨2 ^ 16, false⟩, {}] })) [0, 0, 0, 0, 0, 1]) [0, 0, 0, 0, 0, 1] = [0, 0, 0, 0, 0, 1]) ∧
    (let s := launching { launch1 .draining with released := true }; s.smc.custQ.length < 256 ∧ (tget s.launches 1).isSome = true) ∧
    (({ State.reset with smc := { custQ := [(1, 0, List.replicate 256 0)] } } : State).smc.custQ = [(1, 0, List.replicate 256 0)] ∧ (List.replicate 256 (0 : Byte)).length = 256) := by unfold State.numbered; decide
/-- A message of core 0 to core 8 waits at its sender, of this class. -/
def waiting (cls : BitVec 3) : State := { inPart State.reset with fab := { msgs := [{ msg := { no := 5, dest := 8, cls := cls } }], nextMsg := 6 }, occ := { a := 5 } }
theorem witness_BudgetRules :
    ((waiting 0).part 0).inForce = [] ∧ ((waiting 0).part 0).isSet = true ∧ (waiting 0).fab.portQ = [] ∧ ((waiting 0).net 5).isSome = true ∧
    (waiting 0).msgOpen { no := 5, dest := 8 } = false ∧ (waiting 6).newPeriod.msgOpen { no := 5, dest := 8, cls := 6 } = true ∧
    ((waiting 0).stream ((waiting 0).streamOf { no := 5, dest := 8 })).unacked < 128 ∧ (∀ x ∈ State.reset.fab.msgs, x.ph ≠ .atSender) ∧
    (let r := { rq .load .home 0x100000 with core := 8 }
     let s := waitsFor r
     s.req s.occ.a = some r ∧ r.pieces[r.performed]? = some ⟨0x100000, 8, 0, 0x100000, 0⟩ ∧ s.usesOpen 0 0 0 (r.homeUses ⟨0x100000, 8, 0, 0x100000, 0⟩) = false ∧
     (⟨0x100000, 8, 0, 0x100000, 0⟩ : Piece).isGlobal = true ∧ r.kind ≠ .aacc) ∧
    (let nm : NetMsg := { msg := { no := 5, dest := 8 }, ph := .retry }
     let s := { waiting 0 with fab := { msgs := [nm], nextMsg := 6 } }
     s.net s.occ.a = some nm ∧ s.msgOpen nm.msg = false ∧ s.fab.msgs.filter (fun x => x.ph == .retry && !x.msg.noord && x.stream == nm.stream) = [nm]) := by decide
/-- At the boundary the class-7 message, 48 bytes, goes as two flits, which its router is charged (spec 15 R398; 17 R427; 18 R457). -/
theorem test_period_charges : (match execBudgetPeriod (waiting 6) with
    | .next t => (t.fab.msgs.map fun x => x.ph == .flying) == [true] && t.chargedAt 0 0 0 0 6 == 2 && t.fab.flits.length == 2
    | _ => false) = true := by decide
/-- A class-1 message waits on, and with SHARE of the torus injection in force it goes (spec 15 R399, R401). -/
theorem test_period_profile : (match execBudgetPeriod (waiting 0), execBudgetPeriod ((waiting 0).setPart 0 { isSet := true, budgets := [(0, (1, false))] }) with
    | .next t, .next u => (t.fab.msgs.map fun x => x.ph == .atSender) == [true] && (u.fab.msgs.map fun x => x.ph == .flying) == [true]
    | _, _ => false) = true := by decide

/-! ### Witnesses: the fabric and the host link -/

def portIn (st : PortSt) (p : Port := {}) : State := ({ State.reset with occ := { a := 2 } } : State).setPort 2 { p with st := st }
/-- A link flit of this FTYPE and FSEQ with its CRC. -/
def flitOf (ftype seq : Nat) : List Byte :=
  let b := leBytes 2 (seq + ftype * 2 ^ 12) ++ List.replicate 122 0
  b ++ leBytes 4 (crc32 b).toNat
set_option maxRecDepth 20000 in
theorem witness_LinkEvents :
    let s := portIn .up
    s.occ.a < 8 ∧ (s.port 2).st = .up ∧ (∀ f ∈ [0, 1, 3], ∀ q ∈ [0, 5], (flitOf f q).length = 128 ∧ leNat ((flitOf f q).drop 124) = (crc32 ((flitOf f q).take 124)).toNat ∧
      leNat ((flitOf f q).take 2) / 2 ^ 12 = f ∧ BitVec.ofNat 12 (leNat ((flitOf f q).take 2)) = BitVec.ofNat 12 q) ∧ (s.port 2).expect = 0 ∧ ([] : List Byte).length ≠ 128 ∧
    (let p : Port := { replay := [flitOf 1 0], fseq := 1 }
     let q := p.acked ((0 : BitVec 12) - 1)
     ((0 : BitVec 12) - q.oldest).toNat < q.replay.length ∧ q.replays < 8 ∧ 8 ≤ (({ p with replays := 8 } : Port).acked ((0 : BitVec 12) - 1)).replays) ∧
    (s.port 2).replay = [] ∧ (s.port 2).pend = [] ∧ ((portIn .retrain { failed := 3 }).port 2).st = .retrain ∧ 4 ≤ ((portIn .retrain { failed := 3 }).port 2).failed + 1 ∧
    0 < (tget s.fab.spareLanes 1).getD 2 ∧ (tget ({ s with fab := { s.fab with spareLanes := [(1, 0)] } } : State).fab.spareLanes 1).getD 2 = 0 ∧
    s.ownerOf (2 ^ 50) = none ∧ ((portIn .down).port 2).st = .down ∧ (portIn .down).occ.b ≠ 1 ∧ ({ portIn .down with occ := { a := 2, b := 1 } } : State).occ.b = 1 := by decide +kernel
/-- A packet of this module from module 3. -/
def pk0 (kind : BitVec 4) (tseq : BitVec 32) : BPacket :=
  { dst := 0, kind := kind, src := 3, part := 0, merge := false, tseq := tseq, cls := 0, poison := false, skip := false, noord := false, zeros := 0, ord := 0, srank := 0x3000,
    sctx := 0, unit := false, w0 := 0, w1 := 0, body := List.replicate 32 0, tagOk := true }
/-- Packet 4 to module 3 waits in the transport's buffer; it carries message 5, a resume outside the order. -/
def inTransport (nm : NetMsg) (o : Occ) : State :=
  ({ State.reset with fab := { msgs := [nm], nextMsg := 6 }, occ := { o with a := 3 } } : State).setPeer 3 { buf := [{ tseq := 4, pkt := pk0 1 4, no := 5, stream := none }], untacked := 1 }
theorem witness_PacketEvents :
    (let s : State := { State.reset with occ := { pkt := some (pk0 1 0) } }
     s.numbered ∧ s.occ.pkt = some (pk0 1 0) ∧ (pk0 1 0).dst = s.modid ∧ (pk0 1 0).zeros = 0 ∧ (pk0 1 0).body.length ≤ 640 ∧ (pk0 1 0).tseq = (s.peer 3).expect ∧
     (s.peer 3).ahead = [] ∧ (s.port 0).tagFails + 1 < 4 ∧ 4096 ≤ ((pk0 1 5000).tseq - (s.peer 3).expect).toNat ∧ ({ pk0 1 0 with dst := 9 } : BPacket).dst ≠ s.modid ∧ (s.scope (BMsg (pk0 1 0)).part (BMsg (pk0 1 0)).scope).group = none ∧
     (budgeted s).msgOpen { BMsg (pk0 1 0) with no := 0, inport := some 0 } = true ∧ s.msgOpen { BMsg (pk0 1 0) with no := 0, inport := some 0 } = false ∧ (pk0 4 0).kind = 4 ∧ (pk0 5 0).kind = 5 ∧ (pk0 4 0).w0 = 0 ∧ (pk0 4 0).w1 = 0 ∧ (4 ≤ (pk0 4 0).kind.toNat ∧ ({ pk0 4 0 with w1 := 1 } : BPacket).w1 ≠ 0)) ∧
    (let nm : NetMsg := { msg := { no := 5, kind := .resume, noord := true }, ph := .flying }
     let s := inTransport nm { b := 4 }
     s.numbered ∧ (s.peer s.occ.a).buf = [{ tseq := 4, pkt := pk0 1 4, no := 5, stream := none }] ∧ nm.ph ≠ .done ∧ (s.peer 3).lost = [] ∧ s.net 5 = some nm ∧ s.askedBy nm.msg = none ∧ tacks 4 0 4 = true ∧ tacks 2 0 4 = false ∧
     tacks 2 2 4 = true ∧ s.occ.b = 4 ∧ 0 < (s.peer 3).untacked ∧ (s.port 0).st = .up) ∧
    (let nm : NetMsg := { msg := { no := 5, merge := true }, ph := .arrived }; (arrived { merge := true }).net 5 = some nm ∧ nm.msg.merge = true ∧ nm.ph = .arrived) := by
  unfold State.numbered; decide
/-- The event of function 1, whose partition is set up. -/
def hostS (f : Vf) (o : Occ) : State := { (inPart State.reset).setVf 1 f with occ := { o with a := 1 } }
/-- A resume to core 0 stands in slot 2. -/
def slots : Table Word := [(16, 0x10000000)]
set_option maxRecDepth 4000 in
theorem witness_HostEvents :
    (let s := hostS {} { b := 2 }
     s.numbered ∧ s.fnOn s.occ.a = true ∧ s.occ.c = 0 ∧ (s.vf 1).inbusy.getLsbD 2 = false ∧ (s.vf 1).lwstat.getLsbD 0 = false ∧ s.occ.b < 4 ∧ (s.vf 1).pending.getLsbD 2 = false ∧
     ((hostS { pending := 4 } { b := 2 }).vf 1).pending.getLsbD 2 = true) ∧
    (let s := hostS { inbusy := 4, inSlots := slots, lwstat := 1 } { b := 2, c := 1 }
     s.occ.c = 1 ∧ (s.vf 1).inbusy.getLsbD 2 = true ∧ (slotMsg s 0 2).hostBad = false ∧ (slotMsg s 0 2).merge = false ∧ (s.vf 1).lwstat.getLsbD 0 = true ∧
     (s.part 0).launchQ.length < 16 ∧ 16 ≤ ((s.setPart 0 { isSet := true, launchQ := List.range 16 }).part 0).launchQ.length) ∧
    (slotMsg (hostS { inSlots := [(16, 0xFFFFFFFFFFFFFFFF)] } {}) 0 2).hostBad = true ∧
    (let s : State := { State.reset with occ := { a := 0, b := 0x40, c := 8, v := 1 }, smc := { cmd := [(0, 11)] } }
     s.fnOn 0 = true ∧ s.smc.cmdstat.getLsbD 8 = false ∧ s.smc.staging 0 % 256 = 11 ∧ ({ s with smc := { s.smc with cmdstat := 0x100 } } : State).smc.cmdstat.getLsbD 8 = true ∧ cmdEvent 11 = some .pcap ∧ s.occ.v.getLsbD 0 = true ∧ (s.vf 0).rsstat.getLsbD 1 = false) ∧
    ((hostS { rsstat := 2 } {}).vf 1).rsstat.getLsbD 1 = true ∧ ((hostS { moder := [0] } {}).vf 1).moder = [0] ∧
    (let f := (hostS { moder := [0, 0], octl := 2 ^ 63, msixTab := [(0, 0)] } {}).vf 1; f.moder = [0, 0] ∧ f.masked 0 = false) := by unfold State.numbered; decide

/-! ### Witnesses: the controller and the module's service -/

/-- A staged command of this OP for partition 0, with these further words. -/
def cmdS (op : Nat) (l : List (Nat × Word) := []) (s : State := inPart State.reset) : State :=
  { s with smc := { s.smc with cmd := (0, BitVec.ofNat 64 op) :: l } }
/-- Partition 0's tables stand at 0x20000 and 0x30000, and map its pages 0 and 16. -/
def tabled : State := { inPart State.reset with
  mem := memWrite (memWrite (memWrite (memWrite [] 0 (leBytes 8 0x20001)) 0x20000 (leBytes 8 0x30001)) 0x30000 (leBytes 8 0x60003)) 0x30080 (leBytes 8 0x40003) }
/-- The setup record of hedge 0. -/
def setupWords : List (Nat × Word) := [(1, 1), (3, 0x200), (4, 0), (5, 0x10000), (6, 0), (7, 3)]
set_option maxRecDepth 4000 in
theorem witness_ControllerCommands :
    (∀ op ∈ List.range 15, (cmdS op).smc.cmdstat.getLsbD 8 = false ∧ (cmdS op).cmdTake.smc.op = op ∧ (cmdS op).cmdTake.smc.status = none ∧ (cmdS op).occ.b = 0 ∧ (cmdS op).occ.c ≠ 1 ∧
      (cmdS op).cmdTake.smc.cmdstat.getLsbD 8 = true) ∧
    ((cmdS 9 [(1, 8)]).cmdTake.smc.clean [7] = false ∧ (cmdS 9 [(1, 5)]).cmdTake.smc.clean [7] = true ∧ ((cmdS 9).cmdTake.part 0).isSet = true) ∧
    (let u := (cmdS 1 setupWords State.reset).cmdTake; u.smc.clean recMasks = true ∧ u.setupRefused 0 = false ∧ (cmdS 1 setupWords).cmdTake.setupRefused 0 = true) ∧
    (((cmdS 2).part 0).busy = false ∧ ((cmdS 2).part 0).launchQ = []) ∧
    ((cmdS 3).cmdTake.smc.clean [ones 48, ones 64] = true ∧ ∀ g ∈ ((cmdS 3).cmdTake.part 0).groups, ∀ x ∈ g.2, x = (cmdS 3).cmdTake.modid) ∧
    (let r := readRegion 16 31 (2 * 2 ^ 60); regionRefused [] 3 r = false ∧ regionRefused [(2, r)] 3 r = true ∧
     (cmdS 4 [(1, 3), (2, 16), (3, 31), (4, 0x2000000000000000)]).cmdTake.smc.clean [63, ones 32, ones 32, 0xF8FFFFFF000FFFFF] = true) ∧
    ((cmdS 6 [(1, 0x8000000000000105)]).cmdTake.smc.word 1 % 32 < 16 ∧ (cmdS 6 [(1, 0x8000000000000105)]).cmdTake.smc.clean [0x800000000000011F, ones 48, ones 48, 0x7F, 0xFFFFFFFF00FFFFFF] = true) ∧
    (let m := (cmdS 7 [(1, 0x100), (2, 0x80)]).cmdTake.smc
     m.clean [0x707, 0x87FF87FF87FF87FF, 0x87FF87FF87FF87FF] = true ∧ bits (m.word 1) 8 3 < 5 ∧ ∀ c < 8, bits (m.word (2 + c / 4)) (16 * (c % 4)) 16 % 2048 ≤ 1024) ∧
    ((cmdS 8).cmdTake.fsRankOk 0 [0] 0 = true ∧ (cmdS 8).cmdTake.fsRankOk 0 [0] 8 = false ∧ (∀ x ∈ (cmdS 10 [] State.reset).parts, x.2.isSet = false) ∧
     (∃ x ∈ (cmdS 10).parts, x.2.isSet = true)) ∧
    (400 ≤ (cmdS 11 [(1, 400)]).cmdTake.smc.word 1 ∧ (cmdS 11 [(1, 400)]).cmdTake.smc.word 1 ≤ 950 ∧ (cmdS 11 [(1, 399)]).cmdTake.smc.word 1 < 400) ∧
    (((cmdS 12).part 0).rekey = none ∧ tget (cmdS 12).smc.keys 8 = none ∧ (({ (inPart State.reset).part 0 with rekey := some 8 } : Partition).rekey.isSome = true)) := by decide
set_option maxRecDepth 4000 in
theorem witness_controller_reads_memory :
    (let u := (cmdS 5 [(1, 0x100000), (2, 0x10000)] tabled).cmdTake
     (match walkTable u 0 0x100000, leafOf u 0 (u.part 0) 0x100000 (u.rd (leafAddr u 0 0x100000) 8 % 65536 + 0x10000) false with
      | .ok e, .ok e' => !e.big && e.mod == u.modid && e'.mod == u.modid && e.pa 0x100000 == 0x40000 && e'.pa 0x100000 == 0x10000 &&
          decide ((u.home (homeOf 0x40000)).redirects.length < 64) && u.moving.isEmpty
      | _, _ => false) = true ∧ u.smc.clean [ones 48, 0xFFFFFFFFF0000] = true) ∧
    (let u := (cmdS 13 [(1, 0x8000000000000002), (2, 0x100000), (3, 1)] tabled).cmdTake
     u.scopes = [] ∧ u.smc.clean [0x80000000000000FF, ones 48, ones 13] = true ∧
     eOk (u.luBytes 0 0x100000 2) (fun s1 bs => s1.smc == u.smc && s1.agenda == u.agenda &&
       (let ids := (List.range 1).map fun k => leNat ((bs.drop (2 * k)).take 2); idsRise ids && ids.contains s1.modid.toNat)) = true) := by decide
theorem witness_fsload_reads : let u := (cmdS 14 [(1, 0x100000), (2, 0x400000400), (3, 0x400)] tabled).cmdTake
    eOk (u.luBytes 0 0x100000 4) (fun s1 bs => sha256 bs == (List.range 4).flatMap (fun i => leBytes 8 ((tget launchWords (4 + i)).getD 0)) &&
      (match codeWriteRun s1 (s1.luOp 0) 2 0x400 bs with | .ok s2 [] false => s2.smc == u.smc && s2.agenda == u.agenda && (s2.ctx 0 14).st == .free | _ => false)) = true := by decide +kernel
/-- A frame that moves from 0x40000 to 0x50000, of partition 0's page 16. -/
def movingS (n : Nat) : State := { inPart State.reset with moving := [{ oldFrame := 0x40000, newFrame := 0x50000, part := 0, page := 16, stage := n }], occ := { a := 4 } }
theorem witness_SmcProgress :
    ({ State.reset with smc := { status := some 0 } } : State).smc.status = some 0 ∧
    (let s : State := { State.reset with parts := [(0, { isSet := true, busy := true })], scopes := [(0, { st := .live })], smc := { cmdstat := 0x100, run := [(0, 2)] } }
     s.smc.cmdstat.getLsbD 8 = true ∧ s.smc.op = 2 ∧ s.smc.status = none ∧ s.smc.clean [] = true ∧ (s.part s.smc.part).busy = true ∧ (s.scope s.smc.part 0).st = .live) ∧
    (let s : State := { State.reset with parts := [(0, { isSet := true, hedges := [0], rekey := some 8 })], smc := { keys := [(8, [])] } }
     (s.part s.occ.a).rekey = some 8 ∧ (s.part 0).rekeyAt + 1 < (partCores (s.part 0)).length * 0xC00000 ∧ s.usesOpen 0 0 5 (rekeyUses 0) = false ∧ (budgeted s).usesOpen 0 0 5 (rekeyUses 0) = true ∧ (tget s.smc.keys 8).isSome = true) ∧
    (∀ n < 3, ((movingS n).movingOf (movingS n).occ.a).map (fun m => m.stage) = some n ∧ (movingS n).moving.length = 1 ∧ (∀ h ∈ (movingS n).homes, h.2.upd = []) ∧
      (movingS n).usesOpen 0 0 5 (moveUses (some (homeOf 0x40000 / 8)) (some (homeOf 0x50000 / 8)) 65536) = true ∧ (movingS n).reqs = [] ∧ (movingS n).fab.msgs = [] ∧ ∀ g ∈ ((movingS n).part 0).groups, ∀ x ∈ g.2, x = (movingS n).modid) := by decide
theorem witness_ServiceEvents :
    (let s : State := { State.reset with occ := { a := 1 }, smc := { custPlace := [(1, 0x60000)], custNext := 3, custQ := [(2, 0, [])] } }
     tget s.smc.custPlace s.occ.a = some 0x60000 ∧ tget s.smc.custPlace 2 = none ∧ (∃ x ∈ s.smc.custQ, x.1 = 2) ∧ ∀ x ∈ s.smc.custQ, x.1 ≠ 9) ∧
    State.reset.spdmOn 0 = true ∧ (∀ n < 3, ({ State.reset with smc := { sessions := [(0, n)] } } : State).spdmStep 0 = n) ∧ State.reset.smc.active = 0 ∧
    (State.reset.core 0).run = .inn ∧ tget State.reset.smc.spareCores 0 = none ∧ (tget State.reset.smc.spares 0x1000).getD 0 < 4 ∧ 0 < (tget State.reset.fab.spareLanes 1).getD 2 ∧ (State.reset.ds 0).job = none := by decide
end Sys2Proof.Tests
end

section
/-! PROOFS. The machine state (spec 01): vector words and result latches, the state at reset, what the network leaves alone, named barriers, trap frames and
taking a trap. -/

namespace Sys2Proof.Machine

/-! ### Vector words (spec 01 R13; 06 R162) -/

/-- The effects a vector word on destination wd may have, o being what it answers and t the next state: the trap of SHAPE; a latch, or its destination at
issue where an exception is enabled; FPTRAP where an exception is enabled. -/
def VectorEffect (s : State) (wd : BitVec 3) (o : Out) (t : State) : Prop :=
  o = .next (s.takeTrap (shapeTrap s.cur.ctl)) ∨
  (s.onlyCur t ∧ s.sameBytes t ∧
    ((∃ l : Latch, l.dest = wd ∧ t.cur = { s.cur with latches := s.cur.latches ++ [l], ctl := { s.cur.ctl with lfsr := t.cur.ctl.lfsr }, fin := true }) ∨
      (s.cur.ctl.enables ≠ 0 ∧ ∃ (v : BitVec 256) (f : Fl),
        t.cur = { s.cur.setW wd v with pendFl := s.cur.pendFl ||| f, ctl := { s.cur.ctl with lfsr := t.cur.ctl.lfsr }, fin := true }))) ∨
  (s.cur.ctl.enables ≠ 0 ∧ ∃ (f : Fl) (lanes : Word), s.cur.ctl.hits f ≠ 0 ∧
    o = .next ((s.setCur { s.cur with pendFl := s.cur.pendFl ||| f }).takeTrap ⟨0x30, s.cur.ctl.hits f, lanes⟩))

/-- What the body of a vector word on destination wd may answer. -/
inductive VectorRes (s : State) (wd : BitVec 3) : Res → Prop
  | latch (l : Latch) (lf : BitVec 32) (hl : l.dest = wd) :
      VectorRes s wd (.ok (s.setCur { s.cur with latches := s.cur.latches ++ [l], ctl := { s.cur.ctl with lfsr := lf } }))
  | write (v : BitVec 256) (f : Fl) (lf : BitVec 32) (he : s.cur.ctl.enables ≠ 0) :
      VectorRes s wd (.ok (s.setCur { s.cur.setW wd v with pendFl := s.cur.pendFl ||| f, ctl := { s.cur.ctl with lfsr := lf } }))
  | shape : VectorRes s wd (.trap (shapeTrap s.cur.ctl) s)
  | flags (f : Fl) (lanes : Nat) (he : s.cur.ctl.enables ≠ 0) (hh : s.cur.ctl.hits f ≠ 0) :
      VectorRes s wd (.trap (fpTrap (s.cur.ctl.hits f) lanes) (s.setCur (s.cur.raise f)))

section
variable {h : Hdr} {s t : State} {wd wa wb wc : BitVec 3} {ty : VTy}

/-- A word that leaves a context and retires changes no other context. -/
theorem finish_setCur_only (s : State) (c : Ctx) : s.onlyCur (s.setCur c).finish := by
  rw [State.finish_setCur]
  exact wrote_only s c
/-- A word whose body answers as a vector word's has its effects. -/
theorem VectorRes.effect {body : State → Res} (g : s.cur.guard h = true) (hr : VectorRes s wd (body s)) (et : lword h s body = .next t) :
    VectorEffect s wd (lword h s body) t := by
  generalize hb : body s = r at hr
  cases hr with
  | latch l lf hl =>
    cases (lword_ok g hb).symm.trans et
    exact .inr (.inl ⟨finish_setCur_only s _, fun _ => rfl, .inl ⟨l, hl, by simp only [State.finish_setCur, State.cur_wrote]⟩⟩)
  | write v f lf he =>
    cases (lword_ok g hb).symm.trans et
    exact .inr (.inl ⟨finish_setCur_only s _, fun _ => rfl, .inr ⟨he, v, f, by simp only [State.finish_setCur, State.cur_wrote]⟩⟩)
  | shape => exact .inl (lword_trap g hb)
  | flags f lanes he hh => exact .inr (.inr ⟨he, f, BitVec.ofNat 64 lanes, hh, lword_trap g hb⟩)

/-- A vector result goes into a latch of its destination, or, with an exception enabled, into its destination or into FPTRAP. -/
theorem latchRes_cases (c : Ctx) (fp : Bool) (lat : Nat) (wd : BitVec 3) (v : BitVec 256) (fs : List Fl) :
    (∃ l : Latch, l.dest = wd ∧ latchRes c fp lat wd v fs = .ok { c with latches := c.latches ++ [l] }) ∨
    (c.ctl.enables ≠ 0 ∧ ∃ f, latchRes c fp lat wd v fs = .ok ((c.setW wd v).raise f)) ∨
    (c.ctl.enables ≠ 0 ∧ ∃ f lanes, c.ctl.hits f ≠ 0 ∧ latchRes c fp lat wd v fs = .error (fpTrap (c.ctl.hits f) lanes, c.raise f)) := by
  cases p : fp && c.ctl.enables != 0 with
  | false => exact .inl ⟨⟨wd, v, lat, orFl fs⟩, rfl, latchRes_latch p⟩
  | true =>
    have he : c.ctl.enables ≠ 0 := by simp_all
    by_cases e : c.ctl.hits (orFl fs) = 0
    · exact .inr (.inl ⟨he, orFl fs, latchRes_write p e⟩)
    · exact .inr (.inr ⟨he, orFl fs, laneMask c.ctl fs, e, latchRes_trap p e⟩)

/-- A vector word whose operands meet no trap but that of SHAPE has the effects of a vector word. -/
theorem vword_effect {lat : Nat} {f : Ctx → Except Trap (Bool × BitVec 256 × List Fl)} (g : s.cur.guard h = true)
    (hf : ∀ tr, f s.cur = .error tr → tr = shapeTrap s.cur.ctl) (et : vword h s wd lat f = .next t) : VectorEffect s wd (vword h s wd lat f) t := by
  refine VectorRes.effect g ?_ et
  dsimp only
  split
  next tr hc =>
    obtain rfl := hf tr hc
    exact .shape
  next fp v fs _ =>
    rcases latchRes_cases s.cur fp lat wd v fs with ⟨l, hl, hr⟩ | ⟨he, fl, hr⟩ | ⟨he, fl, lanes, hh, hr⟩ <;> simp only [hr]
    · exact .latch l s.cur.ctl.lfsr hl
    · exact .write v fl s.cur.ctl.lfsr he
    · exact .flags fl lanes he hh

/-- SHAPE gives a type, or its own trap. -/
theorem shapeTy_error {c : Ctl} {tr : Trap} (e : c.shapeTy = .error tr) : tr = shapeTrap c := by
  unfold Ctl.shapeTy at e
  split at e
  · cases e; rfl
  · split at e <;> cases e; rfl
/-- A vector word has a type, or the trap of SHAPE. -/
theorem vtyOfCtl_error {c : Ctl} {tr : Trap} (e : vtyOfCtl c ty = .error tr) : tr = shapeTrap c := by
  cases ty with
  | of t => cases e
  | shape => exact shapeTy_error e
/-- A vector word with a lane field has a type with that lane, or the trap of SHAPE. -/
theorem vtyOfCtl_laneFits_error {c : Ctl} {k : BitVec 5} {tr : Trap} (e : (vtyOfCtl c ty).bind (laneFits c k) = .error tr) : tr = shapeTrap c := by
  cases ht : vtyOfCtl c ty with
  | error tr' =>
    rw [ht] at e; cases e
    exact vtyOfCtl_error ht
  | ok t =>
    rw [ht] at e
    simp only [Except.bind, laneFits] at e
    split at e <;> cases e; rfl

/-- Words of two registers, lane by lane. -/
theorem v2_effect {lat : Nat} {ok : ETy → Bool} {f : ETy → RMode → Nat → Nat → Nat × Fl} (g : s.cur.guard h = true)
    (et : v2 h s wd wa wb ty lat ok f = .next t) : VectorEffect s wd (v2 h s wd wa wb ty lat ok f) t := by
  refine vword_effect g (fun tr e => ?_) et
  split at e
  · cases e; exact vtyOfCtl_error ‹_›
  · split at e <;> cases e; rfl
/-- Words of one register, lane by lane. -/
theorem v1_effect {lat : Nat} {ok : ETy → Bool} {f : ETy → RMode → Nat → Nat × Fl} (g : s.cur.guard h = true)
    (et : v1 h s wd wa ty lat ok f = .next t) : VectorEffect s wd (v1 h s wd wa ty lat ok f) t := by
  unfold v1 at et ⊢
  exact v2_effect g et
/-- Transcendentals. -/
theorem vtrans_effect {op : TransOp} (g : s.cur.guard h = true) (et : vtrans h s wd wa ty op = .next t) :
    VectorEffect s wd (vtrans h s wd wa ty op) t := by
  unfold vtrans at et ⊢
  exact v1_effect g et
/-- Words of three registers, lane by lane. -/
theorem v3_effect {lat : Nat} {f : ETy → RMode → Nat → Nat → Nat → Nat × Fl} (g : s.cur.guard h = true)
    (et : v3 h s wd wa wb wc ty lat f = .next t) : VectorEffect s wd (v3 h s wd wa wb wc ty lat f) t := by
  refine vword_effect g (fun tr e => ?_) et
  split at e <;> cases e; exact vtyOfCtl_error ‹_›
/-- Words that move encodings. -/
theorem vmove_effect {f : Ctx → ETy → Nat → Nat} (g : s.cur.guard h = true) (et : vmove h s wd ty f = .next t) :
    VectorEffect s wd (vmove h s wd ty f) t := by
  refine vword_effect g (fun tr e => ?_) et
  split at e <;> cases e; exact vtyOfCtl_error ‹_›
/-- Words that move encodings, with a lane field. -/
theorem vmoveK_effect {k : BitVec 5} {f : Ctx → ETy → Nat → Nat} (g : s.cur.guard h = true) (et : vmoveK h s wd k ty f = .next t) :
    VectorEffect s wd (vmoveK h s wd k ty f) t := by
  refine vword_effect g (fun tr e => ?_) et
  split at e <;> cases e; exact vtyOfCtl_laneFits_error ‹_›
/-- Reductions. -/
theorem vred_effect {f : ETy → RMode → List Nat → Nat × Fl} (g : s.cur.guard h = true) (et : vred h s wd wa ty f = .next t) :
    VectorEffect s wd (vred h s wd wa ty f) t := by
  refine vword_effect g (fun tr e => ?_) et
  split at e <;> cases e; exact vtyOfCtl_error ‹_›
/-- vnz. -/
theorem execVnz_effect (g : s.cur.guard h = true) (et : execVnz h wd wa ty s = .next t) : VectorEffect s wd (execVnz h wd wa ty s) t := by
  refine vword_effect g (fun tr e => ?_) et
  split at e <;> cases e; exact vtyOfCtl_error ‹_›
/-- Conversions, which alone move LFSR. -/
theorem vconv_effect {stoch : Bool} {f : Ctx → ETy → ETy → Option (List Nat)} (g : s.cur.guard h = true) (et : vconv h s stoch wd ty f = .next t) :
    VectorEffect s wd (vconv h s stoch wd ty f) t := by
  refine VectorRes.effect g ?_ et
  dsimp only
  split
  next tr e =>
    obtain rfl := shapeTy_error e
    exact .shape
  next src _ =>
    split
    next => exact .shape
    next dst _ xs _ =>
      generalize convertLanes .. = r
      obtain ⟨rs, lf⟩ := r
      rcases latchRes_cases s.cur _ 4 wd _ _ with ⟨l, hl, hr⟩ | ⟨he, fl, hr⟩ | ⟨he, fl, lanes, hh, hr⟩ <;> simp only [pack] <;> rw [hr]
      · exact .latch l lf hl
      · exact .write _ fl lf he
      · exact .flags fl lanes he hh

end

/-- Settles O9: each word is one of the forms above, and its answer is one of a vector word's. -/
theorem vectorFrame : Obligations.VectorFrame := by
  intro h wd wa wb wc rg k ty s t g
  change ∀ i ∈ _, exec i s = .next t → VectorEffect s wd (exec i s) t
  simp only [List.forall_mem_cons]
  dsimp only [exec, execVadd, execVsub, execVmul, execVmin, execVmax, execVabs, execVneg, execVand, execVor, execVxor, execVshl, execVshr, execVfma,
    execVfms, execVsel, execVcmpEq, execVcmpLt, execVcmpLe, execVswp2, execVrev, execVshuf, execVrot, execVbcast, execVins, execVsplat, execVsin,
    execVcos, execVexp, execVlog2, execVrsqrt, execVrcp, execVrsum, execVrmax, execVrmin, execVcvt, execVpack, execVunpklo, execVunpkhi]
  exact ⟨v2_effect g, v2_effect g, v2_effect g, v2_effect g, v2_effect g, v1_effect g, v1_effect g, v2_effect g, v2_effect g, v2_effect g,
    v2_effect g, v2_effect g, v3_effect g, v3_effect g, v3_effect g, v2_effect g, v2_effect g, v2_effect g, execVnz_effect g,
    vmove_effect g, vmove_effect g, vmove_effect g, vmoveK_effect g, vmoveK_effect g, vmoveK_effect g, vmove_effect g,
    vtrans_effect g, vtrans_effect g, vtrans_effect g, vtrans_effect g, vtrans_effect g, vtrans_effect g, vred_effect g, vred_effect g, vred_effect g,
    vconv_effect g, vconv_effect g, vconv_effect g, vconv_effect g, fun _ h => nomatch h⟩

/-! ### Result latches (spec 01 R13, R14) -/

/-- A vector register reads what was written to it. -/
@[simp] theorem Ctx.wv_setW_same (c : Ctx) (r : BitVec 3) (v : BitVec 256) : (c.setW r v).wv r = v := by
  simp [Ctx.wv, Ctx.setW]
/-- A write of one vector register keeps the others. -/
theorem Ctx.wv_setW_ne (c : Ctx) {r r' : BitVec 3} (v : BitVec 256) (hr : r' ≠ r) : (c.setW r v).wv r' = c.wv r' := by
  have : r.toNat ≠ r'.toNat := fun e => hr (BitVec.eq_of_toNat_eq e.symm)
  simp [Ctx.wv, Ctx.setW, this]

/-- A latch that has run out writes its register and ORs its flags into FPST. -/
theorem latchStep_done (c : Ctx) (ls : List Latch) {l : Latch} (hl : l.rem ≤ 1) :
    latchStep (c, ls) l = ({ c.setW l.dest l.val with ctl := { c.ctl with fpst := c.ctl.fpst ||| l.flags } }, ls) := by
  simp only [latchStep, hl, if_true]; rfl
/-- A latch that has not run out counts down. -/
theorem latchStep_waits (c : Ctx) (ls : List Latch) {l : Latch} (hl : 1 < l.rem) :
    latchStep (c, ls) l = (c, ls ++ [{ l with rem := l.rem - 1 }]) := by
  simp only [latchStep, Nat.not_le.2 hl, if_false]

/-- A context once its latch with number i has completed out of its turn. -/
def Ctx.completeLatch (c : Ctx) (i : Nat) (l : Latch) : Ctx :=
  { c.setW l.dest l.val with latches := c.latches.eraseIdx i, ctl := { c.ctl with fpst := c.ctl.fpst ||| l.flags } }
/-- LATCH_COMPLETE completes the latch it names. -/
theorem execLatchComplete_some (s : State) {l : Latch} (hl : (s.ctx s.occ.a s.occ.b).latches[s.occ.c]? = some l) :
    execLatchComplete s = .next (s.setCtx s.occ.a s.occ.b ((s.ctx s.occ.a s.occ.b).completeLatch s.occ.c l)) := by
  dsimp only [execLatchComplete]
  rw [hl]
  rfl

/-- Settles O14: two latches that end together complete in issue order; one that has not run out counts down; LATCH_COMPLETE completes the one it names. -/
theorem latchesComplete : Obligations.LatchesComplete := by
  refine ⟨fun c l m hl hm hd hc => ?_, fun c l hl hc => ?_, fun s l => ?_⟩
  · have ht : c.tick = { (c.setW l.dest l.val).setW m.dest m.val with ctl := { c.ctl with fpst := c.ctl.fpst ||| l.flags ||| m.flags }, latches := [] } := by
      simp only [Ctx.tick, hc, List.foldl_cons, List.foldl_nil, latchStep_done _ _ hl, latchStep_done _ _ hm]; rfl
    rw [ht]
    exact ⟨Ctx.wv_setW_same _ _ _, rfl, rfl⟩
  · simp only [Ctx.tick, hc, List.foldl_cons, List.foldl_nil, latchStep_waits _ _ hl, List.nil_append]
  · intro c hc
    exact ⟨c.completeLatch s.occ.c l, execLatchComplete_some s hc, Ctx.wv_setW_same c _ _, fun r hr => Ctx.wv_setW_ne c _ hr, rfl, rfl, rfl, rfl⟩

/-! ### The state at reset -/

/-- Settles O36: memory at reset lists no byte, and no message is on its way. -/
theorem resetSatisfiesInv : Obligations.ResetSatisfiesInv :=
  ⟨reset_mem_wf, fun _ hx => nomatch hx⟩

/-! ### What the interfaces of the network leave alone (spec 17 R427 to R441) -/

/-- Between s and t the contexts, memory and the focus stand: the agent that issues is as it was. -/
structure CtxKept (s t : State) : Prop where
  ctxs : t.ctxs = s.ctxs
  mem : t.mem = s.mem
  focus : t.focus = s.focus
/-- Between s and t every named barrier stands as well: what forming and sending a message keeps. -/
structure NetKept (s t : State) : Prop extends CtxKept s t where
  bars : ∀ core n, t.bar core n = s.bar core n

namespace CtxKept

variable {s t u : State}

theorem trans (a : CtxKept s t) (b : CtxKept t u) : CtxKept s u := ⟨b.ctxs.trans a.ctxs, b.mem.trans a.mem, b.focus.trans a.focus⟩
theorem ctx (h : CtxKept s t) (core k : Nat) : t.ctx core k = s.ctx core k := by simp only [State.ctx, h.ctxs]
theorem cur (h : CtxKept s t) : t.cur = s.cur := by simp only [State.cur, State.fcore, State.fctx, h.focus, h.ctx]
theorem curScope (h : CtxKept s t) : t.curScope = s.curScope := by simp only [State.curScope, h.cur]

end CtxKept

namespace NetKept

variable {s t u : State}

/-- An update of other fields than contexts, memory, focus and cores. -/
theorem of_eq (hx : t.ctxs = s.ctxs) (hm : t.mem = s.mem) (hf : t.focus = s.focus) (hc : t.cores = s.cores) : NetKept s t :=
  ⟨⟨hx, hm, hf⟩, fun core n => by simp only [State.bar, State.core, hc]⟩
theorem refl (s : State) : NetKept s s := .of_eq rfl rfl rfl rfl
theorem trans (a : NetKept s t) (b : NetKept t u) : NetKept s u :=
  ⟨a.toCtxKept.trans b.toCtxKept, fun core n => (b.bars core n).trans (a.bars core n)⟩
/-- An act that keeps them, after an update of other fields. -/
theorem after (b : NetKept t u) (hx : t.ctxs = s.ctxs) (hm : t.mem = s.mem) (hf : t.focus = s.focus) (hc : t.cores = s.cores) : NetKept s u :=
  (of_eq hx hm hf hc).trans b
/-- An act that keeps them, and under a condition a further one. -/
theorem then_if {c : Prop} [Decidable c] (a : NetKept s t) (b : NetKept t u) : NetKept s (if c then t else u) := by
  split
  · exact a
  · exact a.trans b
/-- Acts that keep them, one after another. -/
theorem foldl {α : Type} {f : State → α → State} (hf : ∀ s x, NetKept s (f s x)) (l : List α) (s : State) : NetKept s (l.foldl f s) := by
  induction l generalizing s with
  | nil => exact refl s
  | cons x r ih => exact (hf s x).trans (ih _)

end NetKept

/-- A period boundary is set. -/
theorem periodDue_kept (s : State) : NetKept s s.periodDue := by
  unfold State.periodDue
  split <;> exact .of_eq rfl rfl rfl rfl
/-- Packets are charged to ports. -/
theorem chargeAs_kept (s : State) (part prof cls : Nat) (us : List PortUse) : NetKept s (s.chargeAs part prof cls us) := by
  unfold State.chargeAs
  split
  · exact .refl s
  · exact (periodDue_kept _).after rfl rfl rfl rfl
theorem charge_kept (s : State) (part : Nat) (scope : BitVec 16) (cls : Nat) (us : List PortUse) : NetKept s (s.charge part scope cls us) :=
  chargeAs_kept ..

/-- The packet stream leaves a port. -/
theorem pumpFlits_kept (port n : Nat) (s : State) : NetKept s (pumpFlits port n s) := by
  induction n generalizing s with
  | zero => exact .refl s
  | succ n ih =>
    unfold pumpFlits
    dsimp only
    split
    · exact .refl s
    · exact (ih _).after rfl rfl rfl rfl
/-- A port that is up sends what its replay buffer has room for. -/
theorem portPump_kept (s : State) (port : Nat) : NetKept s (s.portPump port) := by
  unfold State.portPump
  split
  · exact pumpFlits_kept ..
  · exact .refl s
/-- A packet leaves by a port. -/
theorem sendOn_kept (s : State) (i : Nat) (pk : BPacket) : NetKept s (s.sendOn i pk) := by
  unfold State.sendOn
  extract_lets p fab s1 s2
  have h : NetKept s s2 := (portPump_kept _ i).after rfl rfl rfl rfl
  split
  · exact h.trans (.of_eq rfl rfl rfl rfl)
  · exact h
/-- The choice of a first-hop port draws a free value. -/
theorem firstHop_kept (s : State) (p : BPacket) : NetKept s (s.firstHop p).1 := by
  unfold State.firstHop
  dsimp only
  split <;> exact .of_eq rfl rfl rfl rfl
/-- A packet goes to its first-hop port. -/
theorem portSend_kept (s : State) (pk : BPacket) : NetKept s (s.portSend pk) := by
  refine (firstHop_kept s pk).trans ?_
  unfold State.portSend
  dsimp only
  split
  · exact .refl _
  split
  · exact sendOn_kept ..
  split
  · exact (charge_kept ..).trans (sendOn_kept ..)
  split
  · exact .refl _
  · exact .of_eq rfl rfl rfl rfl

/-- A message counts as received. -/
theorem received_kept (s : State) (unit : Nat) (m : Msg) : NetKept s (s.received unit m) := by
  unfold State.received
  split <;> exact .of_eq rfl rfl rfl rfl
/-- A message goes out under its ORD. -/
theorem transport_kept (s : State) (nm : NetMsg) : NetKept s (s.transport nm) := by
  unfold State.transport
  extract_lets m n at_ nm1 nm2 s1 q p pk s2 s3
  have h1 : NetKept s s1 := (charge_kept ..).trans (.of_eq rfl rfl rfl rfl)
  refine h1.trans ?_
  split
  · split
    · exact ((portSend_kept ..).trans (received_kept ..)).trans (.of_eq rfl rfl rfl rfl)
    · have h3 : NetKept s1 s3 := NetKept.trans (t := s2.portSend pk) ((portSend_kept s2 pk).after rfl rfl rfl rfl) (.of_eq rfl rfl rfl rfl)
      split
      · exact h3.trans (.of_eq rfl rfl rfl rfl)
      · exact h3
  · split <;> exact .of_eq rfl rfl rfl rfl
/-- A message leaves its interface. -/
theorem leave_kept (s : State) (nm : NetMsg) : NetKept s (s.leave nm) := by
  unfold State.leave
  extract_lets m s1 k st ord s2
  have h1 : NetKept s s1 := by
    unfold s1
    split <;> exact .of_eq rfl rfl rfl rfl
  have h2 : NetKept s1 s2 := by
    unfold s2
    split <;> exact .of_eq rfl rfl rfl rfl
  exact h1.trans (h2.trans (transport_kept ..))
/-- The messages of a stream leave in their order. -/
theorem pumpList_kept (ok : State → Msg → Bool) (s : State) (l : List NetMsg) : NetKept s (pumpList ok s l) := by
  induction l generalizing s with
  | nil => exact .refl s
  | cons nm r ih =>
    unfold pumpList
    split
    · exact .refl s
    split
    · exact ih s
    split
    · exact .refl s
    split
    · exact .refl s
    · exact (leave_kept s nm).trans (ih _)
theorem pump_kept (s : State) (k : Nat) : NetKept s (s.pump k) := pumpList_kept ..
/-- A message goes to an interface. -/
theorem post_kept (s : State) (u : Nat) (m : Msg) : NetKept s (s.post u m) := by
  unfold State.post
  extract_lets m1 s1 nm fab s2
  have h1 : NetKept s s1 := by
    unfold s1
    split <;> exact .of_eq rfl rfl rfl rfl
  have h2 : NetKept s s2 := h1.trans (.of_eq rfl rfl rfl rfl)
  refine h2.trans ?_
  split
  · unfold State.leaveFree
    split
    · exact leave_kept ..
    · exact .refl _
  · exact pump_kept ..
/-- A core's message counter moves, and nothing else of it. -/
theorem seq_kept (s : State) (u : Nat) : NetKept s (s.seq u).2 := by
  unfold State.seq
  split
  · refine ⟨⟨rfl, rfl, rfl⟩, fun core n => ?_⟩
    by_cases e : core = u
    · subst e; simp only [State.bar, State.core_setCore_same]
    · simp only [State.bar, State.core, State.setCore, tget_tset_ne _ _ _ _ e]
  · exact .of_eq rfl rfl rfl rfl
/-- The hardware forms a message and sends it. -/
theorem sendNow_kept (s : State) (u : Nat) (m : Msg) : NetKept s (s.sendNow u m) :=
  (seq_kept s u).trans (post_kept ..)

/-! ### Named barriers (spec 08 R228 to R232) -/

@[simp] theorem State.bar_setBar_same (s : State) (core n : Nat) (b : Barrier) : (s.setBar core n b).bar core n = b := by
  simp only [State.bar, State.setBar, State.onCore, State.core_setCore_same, tget_tset_same, Option.getD_some]
theorem setBar_kept (s : State) (core n : Nat) (b : Barrier) : CtxKept s (s.setBar core n b) := ⟨rfl, rfl, rfl⟩
theorem notify_kept (s : State) (core : Nat) (w : Waiter) (st : BitVec 8) (acc gen : Word) : NetKept s (s.notify core w st acc gen) := sendNow_kept ..
theorem barMsg_kept (s : State) (core : Nat) (node : BitVec 24) (bar : BitVec 6) (addr : BitVec 32) (a0 a1 : Word) :
    NetKept s (s.barMsg core node bar addr a0 a1) := sendNow_kept ..

/-- A node that completes keeps the contexts and memory. -/
theorem completeBar_kept (s : State) (core n : Nat) (acc : Word) (rg : BitVec 16) : CtxKept s (s.completeBar core n acc rg) :=
  ((NetKept.foldl (fun _ _ => barMsg_kept ..) _ _).trans (NetKept.foldl (fun _ _ => notify_kept ..) _ _)).toCtxKept.trans (setBar_kept ..)
/-- What a node is once it has completed. -/
theorem bar_completeBar (s : State) (core n : Nat) (acc : Word) (rg : BitVec 16) :
    (s.completeBar core n acc rg).bar core n =
      { s.bar core n with arrived := 0, acc := barIdentity (s.bar core n).op, gen := (s.bar core n).gen + 1, kids := [], waiters := [],
                          participants := [], waitsParent := false } :=
  State.bar_setBar_same ..
/-- An arrival that others have still to follow is combined. -/
theorem arrive_more (s : State) (core n : Nat) {b : Barrier} (v : Word) (hp : b.arrived + 1 ≠ b.parts) :
    s.arrive core n b v = s.setBar core n { b with acc := barCombine b.op b.acc v, arrived := b.arrived + 1 } := by
  simp only [State.arrive, hp, if_false]
/-- The last arrival at a root completes it. -/
theorem arrive_last (s : State) (core n : Nat) {b : Barrier} (v : Word) (hp : b.arrived + 1 = b.parts) (hl : b.link = none) :
    s.arrive core n b v = (s.setBar core n { b with acc := barCombine b.op b.acc v, arrived := b.arrived + 1 }).completeBar core n
      (barCombine b.op b.acc v) b.gen := by
  simp only [State.arrive, hp, if_true, State.arriveAll, State.bar_setBar_same, hl]
/-- A waiter that registers is among the waiters. -/
theorem mem_insertW (l : List Waiter) (w : Waiter) : w ∈ insertW l w := by
  induction l with
  | nil => simp [insertW]
  | cons x r ih => simp only [insertW]; split_ifs <;> simp [ih]

/-- A status word by the case it reports (spec 08 R228). -/
theorem barStatus_ok (gen : BitVec 16) : barStatus gen false false false false = BitVec.ofNat 64 gen.toNat := by simp [barStatus]
theorem barStatus_unarmed (gen : BitVec 16) : barStatus gen false true false false = BitVec.ofNat 64 (gen.toNat + 2 ^ 17) := by simp [barStatus]
theorem barStatus_stale (gen : BitVec 16) : barStatus gen false false true false = BitVec.ofNat 64 (gen.toNat + 2 ^ 18) := by simp [barStatus]
theorem barStatus_err (gen : BitVec 16) : barStatus gen false false false true = BitVec.ofNat 64 (gen.toNat + 2 ^ 19) := by simp [barStatus]

/-- A BAR word completes: the number v in its destination, memory as it was, and the node as b. -/
def BarAnswer (s : State) (rd : BitVec 4) (n : Nat) (o : Out) (v : Nat) (b : Barrier) : Prop :=
  ∃ t, o = .next t ∧ t.cur = { s.cur.setG rd (BitVec.ofNat 64 v) with fin := true } ∧ t.mem = s.mem ∧ t.bar s.fcore n = b
/-- A BAR word that answers with a state and a status word completes. -/
theorem barWord_answers {h : Hdr} {s u : State} {rd : BitVec 4} {f : State → Option (State × Word)} {w : Word} {v n : Nat} {b : Barrier}
    (g : s.cur.guard h = true) (e : f s = some (u, w)) (hw : w = BitVec.ofNat 64 v) (k : CtxKept s u) (hb : u.bar s.fcore n = b) :
    BarAnswer s rd n (barWord h s rd f) v b := by
  subst hw
  refine ⟨(u.setCur (u.cur.setG rd (BitVec.ofNat 64 v))).finish, lword_ok g (by simp only [e]), ?_, k.mem, hb⟩
  rw [State.finish_setCur, State.cur_wrote, k.cur]

section
variable {h : Hdr} {rd ra rb : BitVec 4} {bar : BitVec 6} {s : State}

/-- barm of no participants changes nothing (spec 08 R229). -/
theorem execBarm_none (g : s.cur.guard h = true) (hp : ((s.cur.gv ra).truncate 16 : BitVec 16) = 0) :
    BarAnswer s rd bar.toNat (execBarm h rd ra rb bar s) ((s.bar s.fcore bar.toNat).gen.toNat + 2 ^ 19) (s.bar s.fcore bar.toNat) :=
  barWord_answers g (if_pos (.inl hp)) (barStatus_err _) (NetKept.refl s).toCtxKept rfl
/-- barm of a root arms it anew (spec 08 R229). -/
theorem execBarm_root (g : s.cur.guard h = true) (hp : ((s.cur.gv ra).truncate 16 : BitVec 16) ≠ 0) (hr : (s.cur.gv rb).getLsbD 63 = false) :
    BarAnswer s rd bar.toNat (execBarm h rd ra rb bar s) ((s.bar s.fcore bar.toNat).gen + 1).toNat
      { armed := true, parts := (s.cur.gv ra).truncate 16, op := (s.cur.gv ra).extractLsb' 16 2, acc := barIdentity ((s.cur.gv ra).extractLsb' 16 2),
        gen := (s.bar s.fcore bar.toNat).gen + 1, scope := s.curScope, link := none } := by
  let b := s.bar s.fcore bar.toNat
  have hk : CtxKept s (b.waiters.foldl (fun s' w => s'.notify s.fcore w stBroken b.acc (b.gen.zeroExtend 64)) s) :=
    (NetKept.foldl (fun _ _ => notify_kept ..) _ _).toCtxKept
  refine barWord_answers g ((if_neg (not_or.2 ⟨hp, fun x => Bool.false_ne_true (hr.symm.trans x.1)⟩)).trans rfl) (barStatus_ok _)
    ⟨hk.ctxs, hk.mem, hk.focus⟩ ((State.bar_setBar_same ..).trans ?_)
  rw [if_neg (by rw [hr]; exact Bool.false_ne_true), CtxKept.curScope (s := s)]
  exact ⟨hk.ctxs, hk.mem, hk.focus⟩
/-- bara on an unarmed node changes nothing (spec 08 R230). -/
theorem execBara_unarmed (g : s.cur.guard h = true) (ha : (s.bar s.fcore bar.toNat).armed = false) :
    BarAnswer s rd bar.toNat (execBara h rd ra rb bar s) ((s.bar s.fcore bar.toNat).gen.toNat + 2 ^ 17) (s.bar s.fcore bar.toNat) :=
  barWord_answers g (if_pos ha) (barStatus_unarmed _) (NetKept.refl s).toCtxKept rfl
/-- What bara leaves of a whole node before the arrival is combined: the context is a participant, and a waiter unless it asked for no notice. -/
def barJoined (s : State) (b : Barrier) (rb : BitVec 4) : Barrier :=
  { b with waiters := if (s.cur.gv rb).getLsbD 63 then b.waiters
                      else insertW b.waiters { ctx := s.fctx, tag := (s.cur.gv rb).truncate 32, scope := s.curScope },
           participants := if b.participants.contains s.fctx then b.participants else b.participants ++ [s.fctx] }
/-- bara on a whole node is an arrival (spec 08 R230). -/
theorem execBara_arrives {b : Barrier} (g : s.cur.guard h = true) (hb : s.bar s.fcore bar.toNat = b) (ha : b.armed = true) (hk : b.broken = false)
    (hw : b.waitsParent = false) {u : State} (hu : s.arrive s.fcore bar.toNat (barJoined s b rb) (s.cur.gv ra) = u) (k : CtxKept s u) :
    BarAnswer s rd bar.toNat (execBara h rd ra rb bar s) b.gen.toNat (u.bar s.fcore bar.toNat) := by
  subst hb hu
  refine barWord_answers g ((if_neg ?_).trans ((if_neg ?_).trans ((if_neg ?_).trans rfl))) (barStatus_ok _) k rfl <;> simp [ha, hk, hw]
/-- barw on an unarmed node changes nothing (spec 08 R231). -/
theorem execBarw_unarmed (g : s.cur.guard h = true) (ha : (s.bar s.fcore bar.toNat).armed = false) :
    BarAnswer s rd bar.toNat (execBarw h rd ra rb bar s) ((s.bar s.fcore bar.toNat).gen.toNat + 2 ^ 17) (s.bar s.fcore bar.toNat) :=
  barWord_answers g (if_pos ha) (barStatus_unarmed _) (NetKept.refl s).toCtxKept rfl
/-- barw for another generation than the node's changes nothing (spec 08 R231). -/
theorem execBarw_stale {b : Barrier} (g : s.cur.guard h = true) (hb : s.bar s.fcore bar.toNat = b) (ha : b.armed = true) (hk : b.broken = false)
    (hg : ((s.cur.gv ra).truncate 16 : BitVec 16) ≠ b.gen) :
    BarAnswer s rd bar.toNat (execBarw h rd ra rb bar s) (b.gen.toNat + 2 ^ 18) b := by
  subst hb
  refine barWord_answers g ((if_neg ?_).trans ((if_neg ?_).trans (if_pos hg))) (barStatus_stale _) (NetKept.refl s).toCtxKept rfl <;> simp [ha, hk]
/-- barw for the node's generation registers a waiter (spec 08 R231). -/
theorem execBarw_waits {b : Barrier} (g : s.cur.guard h = true) (hb : s.bar s.fcore bar.toNat = b) (ha : b.armed = true) (hk : b.broken = false)
    (hg : ((s.cur.gv ra).truncate 16 : BitVec 16) = b.gen) :
    BarAnswer s rd bar.toNat (execBarw h rd ra rb bar s) b.gen.toNat
      { b with waiters := insertW b.waiters ⟨s.fctx, (s.cur.gv rb).truncate 32, s.curScope⟩ } := by
  subst hb
  refine barWord_answers g ((if_neg ?_).trans ((if_neg ?_).trans (if_neg (not_not.2 hg)))) (barStatus_ok _) (setBar_kept s _ _ _) (State.bar_setBar_same ..) <;>
    simp [ha, hk]
/-- barq reads the node (spec 08 R231). -/
theorem execBarq_reads {b : Barrier} (g : s.cur.guard h = true) (hb : s.bar s.fcore bar.toNat = b) :
    BarAnswer s rd bar.toNat (execBarq h rd ra rb bar s) (b.arrived.toNat + b.gen.toNat * 2 ^ 16 + b.parts.toNat * 2 ^ 32 +
      b.armed.toNat * 2 ^ 48 + b.broken.toNat * 2 ^ 49 + b.op.toNat * 2 ^ 50) b := by
  subst hb
  unfold execBarq
  exact barWord_answers g rfl rfl (NetKept.refl s).toCtxKept rfl

end

/-- Settles O22, one clause for each case of the four words. -/
theorem barrierWords : Obligations.BarrierWords := by
  intro h rd ra rb bar s g c a b completes node gen
  have parts_eq : (a.truncate 16 : BitVec 16).toNat = a.toNat % 65536 := by simp
  refine ⟨fun h0 => ?_, fun h0 hr _ => ?_, fun ha => ⟨execBara_unarmed g ha, execBarw_unarmed g ha⟩, fun ha hk hw hp => ?_, fun ha hk hw hp hl => ?_,
    fun ha hk hg => execBarw_stale g rfl ha hk hg, fun ha hk hg => ?_, execBarq_reads (ra := ra) (rb := rb) g rfl⟩
  · have hp : (a.truncate 16 : BitVec 16) = 0 := BitVec.eq_of_toNat_eq (by rw [parts_eq, h0]; rfl)
    exact execBarm_none g hp
  · have hp : (a.truncate 16 : BitVec 16) ≠ 0 := fun e => h0 (by rw [← parts_eq, e]; rfl)
    obtain ⟨t, he, hc, hm, hb⟩ := execBarm_root (rd := rd) (bar := bar) g hp hr
    rw [BitVec.toNat_add] at hc
    refine ⟨t, he, hc, hm, ?_⟩
    simp [node, hb, barIdentity, a, b, c]
  · obtain ⟨t, he, hc, hm, hb⟩ := execBara_arrives (rd := rd) (rb := rb) g rfl ha hk hw (arrive_more _ _ _ _ hp) (setBar_kept ..)
    refine ⟨t, he, hc, hm, ?_⟩
    simp [node, hb, barJoined, a, b, c]
  · obtain ⟨t, he, hc, hm, hb⟩ := execBara_arrives (rd := rd) (rb := rb) g rfl ha hk hw (arrive_last _ _ _ _ hp hl)
      ((setBar_kept ..).trans (completeBar_kept ..))
    refine ⟨t, he, hc, hm, ?_⟩
    simp [node, hb, bar_completeBar, barJoined, b]
  · obtain ⟨t, he, hc, hm, hb⟩ := execBarw_waits (rd := rd) (rb := rb) g rfl ha hk hg
    refine ⟨t, he, hc, hm, ?_⟩
    simp only [node, hb]
    exact mem_insertW _ _

/-! ### The trap frame (spec 16 R406, R407) -/

/-- Fields one after another, each of a width in bytes and a number, least significant byte first. -/
def fieldBytes (l : List (Nat × Nat)) : List Byte := l.flatMap fun x => leBytes x.1 x.2
/-- Where field j of a list of fields begins. -/
def fieldAt (l : List (Nat × Nat)) (j : Nat) : Nat := ((l.take j).map Prod.fst).sum

theorem fieldBytes_length (l : List (Nat × Nat)) : (fieldBytes l).length = (l.map Prod.fst).sum := by
  simp [fieldBytes, List.length_flatMap]
/-- A field reads back. -/
theorem fieldBytes_field {l : List (Nat × Nat)} {j n v : Nat} (h : l[j]? = some (n, v)) : ((fieldBytes l).drop (fieldAt l j)).take n = leBytes n v := by
  obtain ⟨hj, he⟩ := List.getElem?_eq_some_iff.1 h
  have hl : fieldBytes l = fieldBytes (l.take j) ++ (leBytes n v ++ fieldBytes (l.drop (j + 1))) := by
    conv_lhs => rw [← List.take_append_drop j l, List.drop_eq_getElem_cons hj, he]
    simp [fieldBytes]
  rw [hl, List.drop_left' (by rw [fieldBytes_length]; rfl), List.take_left' (leBytes_length n v)]

/-- The fields of the base part of a frame behind the general registers. -/
def frameScalars (c : Ctx) (k fstate kind done seq : Nat) : List (Nat × Nat) :=
  [(2, (c.g.toList.zipIdx.map fun x => x.1.tag.toNat * 2 ^ x.2).foldl (· + ·) 0), (2, c.preds.toNat), (4, c.ctl.cause.toNat), (8, c.ctl.tval.toNat),
   (4, c.ctl.tpc.toNat), (4, c.ctl.tmid.toNat), (4, c.ctl.scopeW.toNat), (4, c.ctl.rtag.toNat), (4, c.istate k), (1, fstate), (1, kind),
   (1, c.latches.length), (1, c.ctl.fpst.toNat), (8, leNat (c.latches.map fun l => BitVec.ofNat 8 (128 + l.dest.toNat * 16 + l.rem))),
   (4, c.recv.filt.toNat), (4, c.recv.mask.toNat), (4, seq), (1, c.recv.rd.toNat), (1, done), (2, 0)]
/-- The base part of a frame, field by field. -/
def frameFields (c : Ctx) (k fstate kind done seq : Nat) : List (Nat × Nat) :=
  c.g.toList.map (fun x => (8, x.val.toNat)) ++ frameScalars c k fstate kind done seq
/-- The bytes of the base part are those of its fields. -/
theorem frameBytes_eq (c : Ctx) (k fstate kind done seq : Nat) : frameBytes c k fstate kind done seq = fieldBytes (frameFields c k fstate kind done seq) := by
  unfold frameBytes frameFields frameScalars fieldBytes
  simp only [List.flatMap_append, List.flatMap_map, List.flatMap_cons, List.flatMap_nil, List.append_assoc, List.append_nil]
/-- Pieces of one length, one after another. -/
theorem length_flatMap_const {α β : Type} {l : List α} {f : α → List β} {n : Nat} (h : ∀ x, (f x).length = n) :
    (l.flatMap f).length = l.length * n := by
  rw [List.length_flatMap, List.sum_eq_card_nsmul _ n (by simp [h])]
  simp
theorem frameBytes_length (c : Ctx) (k fstate kind done seq : Nat) : (frameBytes c k fstate kind done seq).length = 0xC0 := by
  unfold frameBytes
  simp only [List.length_append, leBytes_length]
  rw [length_flatMap_const (fun _ => leBytes_length 8 _), Vector.length_toList]
theorem extBytes_length (c : Ctx) : (extBytes c).length = 0x298 := by
  unfold extBytes
  simp only [List.length_append, leBytes_length]
  rw [length_flatMap_const (fun _ => leBytes_length 32 _), length_flatMap_const (fun _ => leBytes_length 32 _),
    length_flatMap_const (fun _ => leBytes_length 8 _), length_flatMap_const (fun _ => leBytes_length 8 _),
    length_flatMap_const (fun _ => leBytes_length 8 _)]
  simp only [Vector.length_toList, List.length_range, List.length_drop]
/-- The general registers take eight bytes each. -/
theorem regFields_width (l : List GReg) : ((l.map fun x => (8, x.val.toNat)).map Prod.fst).sum = 8 * l.length := by
  rw [List.map_map, List.sum_eq_card_nsmul _ 8 fun x hx => by obtain ⟨_, _, rfl⟩ := List.mem_map.1 hx; rfl]
  simp [Nat.mul_comm]
/-- A general register is the field of its number. -/
theorem frameFields_g (c : Ctx) (k fstate kind done seq : Nat) (i : Fin 16) :
    (frameFields c k fstate kind done seq)[i.val]? = some (8, (c.g[i]).val.toNat) := by
  have hi : i.val < (c.g.toList.map fun x => (8, x.val.toNat)).length := by simp
  rw [frameFields, List.getElem?_append_left hi]
  simp
theorem fieldAt_g (c : Ctx) (k fstate kind done seq : Nat) (i : Fin 16) : fieldAt (frameFields c k fstate kind done seq) i.val = 8 * i.val := by
  have hi : i.val ≤ (c.g.toList.map fun x => (8, x.val.toNat)).length := by simp
  rw [fieldAt, frameFields, List.take_append_of_le_length hi, ← List.map_take, regFields_width]
  simp
/-- The field behind the general registers with number m is field 16 + m. -/
theorem frameFields_scalar (c : Ctx) (k fstate kind done seq m : Nat) :
    (frameFields c k fstate kind done seq)[16 + m]? = (frameScalars c k fstate kind done seq)[m]? := by
  rw [frameFields, List.getElem?_append_right (by simp)]
  simp
theorem fieldAt_scalar (c : Ctx) (k fstate kind done seq m : Nat) :
    fieldAt (frameFields c k fstate kind done seq) (16 + m) = 0x80 + fieldAt (frameScalars c k fstate kind done seq) m := by
  rw [fieldAt, frameFields, List.take_append, List.take_of_length_le (by simp), List.map_append, List.sum_append, regFields_width]
  simp [fieldAt]

/-- Reading inside a run of bytes that was written gives that part of it. -/
theorem memRead_memWrite_part {m : Memory} (a off n : Nat) {bs : List Byte} (h : Memory.wf m = true) (hn : off + n ≤ bs.length) :
    memRead (memWrite m a bs) (a + off) n = (bs.drop off).take n := by
  refine List.ext_getElem (by simp [memRead_length]; omega) fun i h1 h2 => ?_
  rw [memRead_length] at h1
  have e := memRead_getD (memWrite m a bs) (a + off) n i h1
  rw [memGet_memWrite a _ bs h, if_pos (by omega), List.getD_eq_getElem _ _ (by rwa [memRead_length]), List.getD_eq_getElem _ _ (by omega)] at e
  rw [e]
  simp only [List.getElem_take, List.getElem_drop]
  congr 1
  omega

/-- The base part stands in the system page of its core. -/
theorem framePa_eq (core k : Nat) : framePa core k = core * 2 ^ 30 + 0x2FFFF000 + 0xC0 * k := by
  simp only [framePa, tilePa, ge_iff_le, Nat.le_refl, or_true, if_true]
  omega
/-- The extension of a context lies below its base part. -/
theorem extPa_below (core k : Nat) (hk : k < 16) : extPa core k + 0x400 ≤ framePa core k := by
  rw [framePa_eq, extPa, savePa]
  omega

/-- The bytes of memory once the frame of a context has been written: base part, extension, and zeros to its end. -/
theorem writeFrame_mem (s : State) (core k fstate kind done : Nat) : ∃ seq, (s.writeFrame core k fstate kind done).mem =
    memWrite (memWrite (memWrite s.mem (framePa core k) (frameBytes (s.ctx core k).foldFlags k fstate kind done seq)) (extPa core k)
      (extBytes (s.ctx core k).foldFlags)) (extPa core k + 0x298) (List.replicate 360 0) :=
  ⟨_, rfl⟩
/-- Writing the frame of a context folds the flags of its latches into FPST. -/
theorem writeFrame_ctx (s : State) (core k fstate kind done : Nat) : (s.writeFrame core k fstate kind done).ctx core k = (s.ctx core k).foldFlags :=
  State.ctx_setCtx_same ..
/-- A field of a frame that was written reads as written. -/
theorem writeFrame_frame {s : State} {core k fstate kind done j n v off : Nat} (hs : s.Inv) (hk : k < 16) (hn : off + n ≤ 0xC0)
    (hf : ∀ seq, (frameFields (s.ctx core k).foldFlags k fstate kind done seq)[j]? = some (n, v))
    (ho : ∀ seq, fieldAt (frameFields (s.ctx core k).foldFlags k fstate kind done seq) j = off) :
    (s.writeFrame core k fstate kind done).frame core k off n = v % 2 ^ (8 * n) := by
  obtain ⟨seq, hm⟩ := writeFrame_mem s core k fstate kind done
  have hb := frameBytes_length (s.ctx core k).foldFlags k fstate kind done seq
  have hx := extBytes_length (s.ctx core k).foldFlags
  have hlow := extPa_below core k hk
  have hw1 := memWrite_wf (framePa core k) (frameBytes (s.ctx core k).foldFlags k fstate kind done seq) hs
  rw [State.frame, State.rd, hm, memRead_memWrite_ne _ _ _ _ (memWrite_wf _ _ hw1) (.inr (by rw [List.length_replicate]; omega)),
    memRead_memWrite_ne _ _ _ _ hw1 (.inr (by omega)), memRead_memWrite_part _ _ _ hs (by omega), frameBytes_eq, ← ho seq, fieldBytes_field (hf seq),
    leNat_leBytes]
/-- Writing the frame of a context changes no byte outside it and its extension. -/
theorem writeFrame_other {s : State} {core k fstate kind done a : Nat} (hs : s.Inv) (hb : ¬(framePa core k ≤ a ∧ a < framePa core k + 0xC0))
    (he : ¬(extPa core k ≤ a ∧ a < extPa core k + 0x400)) : memGet (s.writeFrame core k fstate kind done).mem a = memGet s.mem a := by
  obtain ⟨seq, hm⟩ := writeFrame_mem s core k fstate kind done
  have hl := frameBytes_length (s.ctx core k).foldFlags k fstate kind done seq
  have hx := extBytes_length (s.ctx core k).foldFlags
  have hw1 := memWrite_wf (framePa core k) (frameBytes (s.ctx core k).foldFlags k fstate kind done seq) hs
  rw [hm, memGet_memWrite _ _ _ (memWrite_wf _ _ hw1), if_neg (by rw [List.length_replicate]; omega), memGet_memWrite _ _ _ hw1, if_neg (by omega),
    memGet_memWrite _ _ _ hs, if_neg (by omega)]
/-- The general registers of a frame that was written. -/
theorem writeFrame_frame_g {s : State} {core k fstate kind done : Nat} (hs : s.Inv) (hk : k < 16) (i : Fin 16) :
    (s.writeFrame core k fstate kind done).frame core k (8 * i.val) 8 = ((s.ctx core k).foldFlags.g[i]).val.toNat := by
  rw [writeFrame_frame hs hk (by omega) (fun _ => frameFields_g ..) fun _ => fieldAt_g ..]
  exact Nat.mod_eq_of_lt (BitVec.isLt _)
/-- A field of a frame that was written, behind the general registers. -/
theorem writeFrame_frame_scalar {s : State} {core k fstate kind done m n v off : Nat} (hs : s.Inv) (hk : k < 16) (hn : 0x80 + off + n ≤ 0xC0)
    (hf : ∀ seq, (frameScalars (s.ctx core k).foldFlags k fstate kind done seq)[m]? = some (n, v))
    (ho : ∀ seq, fieldAt (frameScalars (s.ctx core k).foldFlags k fstate kind done seq) m = off) :
    (s.writeFrame core k fstate kind done).frame core k (0x80 + off) n = v % 2 ^ (8 * n) :=
  writeFrame_frame (j := 16 + m) hs hk hn (fun seq => (frameFields_scalar ..).trans (hf seq)) fun seq => by rw [fieldAt_scalar, ho seq]
/-- The trap registers and FSTATE of a frame that was written (spec 16 R406). -/
theorem writeFrame_trap {s : State} {core k fstate kind done : Nat} (hs : s.Inv) (hk : k < 16) :
    let u := s.writeFrame core k fstate kind done
    let c := s.ctx core k
    u.frame core k 0x84 4 = c.ctl.cause.toNat ∧ u.frame core k 0x88 8 = c.ctl.tval.toNat ∧ u.frame core k 0x90 4 = c.ctl.tpc.toNat ∧
    u.frame core k 0x94 4 = c.ctl.tmid.toNat ∧ u.frame core k 0xA4 1 = fstate % 256 := by
  have field {m n v off : Nat} (hn : 0x80 + off + n ≤ 0xC0) (hf : ∀ seq, (frameScalars (s.ctx core k).foldFlags k fstate kind done seq)[m]? = some (n, v))
      (ho : ∀ seq, fieldAt (frameScalars (s.ctx core k).foldFlags k fstate kind done seq) m = off) := writeFrame_frame_scalar hs hk hn hf ho
  refine ⟨(field (m := 2) (off := 4) (by omega) (fun _ => rfl) fun _ => rfl).trans ?_,
    (field (m := 3) (off := 8) (by omega) (fun _ => rfl) fun _ => rfl).trans ?_,
    (field (m := 4) (off := 16) (by omega) (fun _ => rfl) fun _ => rfl).trans ?_,
    (field (m := 5) (off := 20) (by omega) (fun _ => rfl) fun _ => rfl).trans ?_,
    field (m := 9) (off := 36) (by omega) (fun _ => rfl) fun _ => rfl⟩
  all_goals exact Nat.mod_eq_of_lt (BitVec.isLt _)

/-! ### Taking a trap (spec 01 R26; 02 R65; 16 R402, R406) -/

/-- Between contexts c and d cycles pass: vector registers, latches and FPST may change, and nothing else. -/
def Ctx.Timed (c d : Ctx) : Prop := ∃ w ls f, d = { c with w := w, latches := ls, ctl := { c.ctl with fpst := f } }
theorem Ctx.Timed.refl (c : Ctx) : c.Timed c := ⟨c.w, c.latches, c.ctl.fpst, rfl⟩
theorem Ctx.Timed.trans {c d e : Ctx} (h : c.Timed d) (h' : d.Timed e) : c.Timed e := by
  obtain ⟨_, _, _, rfl⟩ := h
  obtain ⟨w, ls, f, rfl⟩ := h'
  exact ⟨w, ls, f, rfl⟩
theorem latchStep_timed (a : Ctx × List Latch) (l : Latch) : a.1.Timed (latchStep a l).1 := by
  unfold latchStep
  split
  · exact ⟨_, _, _, rfl⟩
  · exact .refl _
theorem foldl_latchStep_timed (ls : List Latch) (a : Ctx × List Latch) : a.1.Timed (ls.foldl latchStep a).1 := by
  induction ls generalizing a with
  | nil => exact .refl _
  | cons l r ih => exact (latchStep_timed a l).trans (ih _)
/-- The end of a cycle. -/
theorem tick_timed (c : Ctx) : c.Timed c.tick :=
  (foldl_latchStep_timed c.latches (c, [])).trans ⟨_, _, _, rfl⟩
theorem ticks_timed (n : Nat) (c : Ctx) : c.Timed (Ctx.ticks n c) := by
  induction n generalizing c with
  | zero => exact .refl c
  | succ n ih => exact (tick_timed c).trans (ih _)
/-- Delays outside the program let cycles pass. -/
theorem delay_timed (s : State) (core k : Nat) : (s.ctx core k).Timed ((s.delay core k).ctx core k) ∧ (s.delay core k).mem = s.mem := by
  unfold State.delay
  split
  · exact ⟨.refl _, rfl⟩
  · exact ⟨by rw [State.ctx_setCtx_same]; exact ticks_timed .., rfl⟩

/-- A write of another control register leaves TMID. -/
theorem applyMts_tmid (c : Ctl) {k : Nat} (v : Word) (hk : k ≠ 11) : (applyMts c k v).tmid = c.tmid := by
  unfold applyMts
  split <;> trivial
/-- Writes of other control registers leave TMID. -/
theorem foldl_applyMts_tmid (l : List (Nat × Word)) (c : Ctl) (hl : (l.all fun x => x.1 != 11) = true) :
    (l.foldl (fun (a : Ctl) (x : Nat × Word) => applyMts a x.1 x.2) c).tmid = c.tmid := by
  induction l generalizing c with
  | nil => rfl
  | cons x r ih =>
    rw [List.all_cons, Bool.and_eq_true, bne_iff_ne] at hl
    rw [List.foldl_cons, ih _ hl.2, applyMts_tmid _ _ hl.1]

/-- A context leaves its group and stops at an address, with the trap registers written. -/
def Ctx.stopAt (d : Ctx) (pc : BitVec 32) (cause : BitVec 32) (tval : Word) : Ctx :=
  let d := d.leaveGroup
  { d with st := .stopped, hold := .none, pc := pc, npc := pc, ctl := { d.ctl with cause := cause, tval := tval, tpc := pc } }
/-- A context as a trap leaves it, before its frame is written. -/
def trapCtx (c : Ctx) (t : Trap) (decode : Bool) : Ctx :=
  (Ctx.ticks (c.cyclesLeft decode) c.commit).stopAt c.pc (causeWord t c.slot (c.ctl.inhnd && c.ctl.reld) c.ctl.inhnd) t.tval

theorem stopAt_g (d : Ctx) (pc cause : BitVec 32) (tval : Word) : (d.stopAt pc cause tval).g = d.g := rfl
theorem stopAt_preds (d : Ctx) (pc cause : BitVec 32) (tval : Word) : (d.stopAt pc cause tval).preds = d.preds := rfl
theorem stopAt_tmid (d : Ctx) (pc cause : BitVec 32) (tval : Word) : (d.stopAt pc cause tval).ctl.tmid = d.ctl.tmid := rfl

theorem trapCtx_preds (c : Ctx) (t : Trap) (decode : Bool) : (trapCtx c t decode).preds = c.preds := by
  obtain ⟨w, ls, f, e⟩ := ticks_timed (c.cyclesLeft decode) c.commit
  rw [trapCtx, stopAt_preds, e]
  rfl
/-- The general registers stand where no sweep is due (spec 01 R11). -/
theorem trapCtx_g {c : Ctx} (t : Trap) (decode : Bool) (hs : c.sweep = []) : (trapCtx c t decode).g = c.g := by
  obtain ⟨w, ls, f, e⟩ := ticks_timed (c.cyclesLeft decode) c.commit
  rw [trapCtx, stopAt_g, e]
  simp [Ctx.commit, hs]
/-- TMID stands where no write of it is due. -/
theorem trapCtx_tmid {c : Ctx} (t : Trap) (decode : Bool) (hm : (c.pendMts.all fun x => x.1 != 11) = true) : (trapCtx c t decode).ctl.tmid = c.ctl.tmid := by
  obtain ⟨w, ls, f, e⟩ := ticks_timed (c.cyclesLeft decode) c.commit
  rw [trapCtx, stopAt_tmid, e]
  exact foldl_applyMts_tmid _ _ hm

/-- CAUSE of a trap as a number (spec 01 R26, R27): a trap after a release is TORN, and its code is the sub-cause. -/
theorem causeWord_toNat (t : Trap) {slot : Nat} (inhnd reld : Bool) (hs : slot < 4) :
    (causeWord t slot (inhnd && reld) inhnd).toNat = slot * 2 ^ 18 + (if inhnd && reld then 2 ^ 17 + 2 ^ 16 + t.code.toNat * 2 ^ 8 + 0x21
      else (if inhnd then 2 ^ 16 else 0) + t.sub.toNat * 2 ^ 8 + t.code.toNat) := by
  have hc := t.code.isLt
  have hb := t.sub.isLt
  rw [causeWord, BitVec.toNat_ofNat, Nat.mod_eq_of_lt]
  · cases inhnd <;> cases reld <;> simp [Nat.add_assoc]
  · cases inhnd <;> cases reld <;> simp <;> omega

/-- The registers of a context as a trap leaves it, where c is the context before and c' the one once the delay of a word that waited has passed. -/
theorem trapCtx_registers {c c' : Ctx} (t : Trap) (decode : Bool) (h : c.Timed c') (hs : c.slot < 4) (hm : (c.pendMts.all fun x => x.1 != 11) = true) :
    let x := trapCtx c' t decode
    x.st = .stopped ∧ x.pc = c.pc ∧ x.ctl.tpc = c.pc ∧ x.ctl.tval = t.tval ∧ x.ctl.tmid = c.ctl.tmid ∧
    x.ctl.cause.toNat = c.slot * 2 ^ 18 + (if c.ctl.inhnd && c.ctl.reld then 2 ^ 17 + 2 ^ 16 + t.code.toNat * 2 ^ 8 + 0x21
      else (if c.ctl.inhnd then 2 ^ 16 else 0) + t.sub.toNat * 2 ^ 8 + t.code.toNat) ∧
    (c.sweep = [] → x.g = c.g) ∧ x.preds = c.preds := by
  have hg := trapCtx_g (c := c') t decode
  obtain ⟨_, _, _, rfl⟩ := h
  exact ⟨rfl, rfl, rfl, rfl, trapCtx_tmid t decode hm, causeWord_toNat t _ _ hs, hg, trapCtx_preds _ t decode⟩

/-- What follows the frame of a trap keeps: memory, and of the context all but its sends and the message it holds. -/
def TrapKept (core k : Nat) (s t : State) : Prop := t.mem = s.mem ∧ ∃ sd hd, t.ctx core k = { s.ctx core k with sends := sd, held := hd }
theorem TrapKept.refl (core k : Nat) (s : State) : TrapKept core k s s := ⟨rfl, _, _, rfl⟩
theorem TrapKept.trans {core k : Nat} {s t u : State} (a : TrapKept core k s t) (b : TrapKept core k t u) : TrapKept core k s u := by
  obtain ⟨hm, _, _, hc⟩ := a
  obtain ⟨hm', sd, hd, hc'⟩ := b
  exact ⟨hm'.trans hm, sd, hd, by rw [hc', hc]⟩
theorem CtxKept.trapKept {core k : Nat} {s t : State} (h : CtxKept s t) : TrapKept core k s t := ⟨h.mem, _, _, h.ctx core k⟩

/-- Marking the scopes of a subtree keeps the contexts and memory. -/
theorem markDying_kept (part : Nat) (root : BitVec 16) (die : Option Nat) (l : List (Nat × ScopeEnt)) (s : State) :
    NetKept s (markDying s part root die l) := by
  induction l generalizing s with
  | nil => exact .refl s
  | cons x r ih =>
    unfold markDying
    dsimp only
    split
    · exact (ih _).after rfl rfl rfl rfl
    · exact ih s
/-- A prune that starts keeps the contexts and memory. -/
theorem startPrune_kept (s : State) (part : Nat) (scope : BitVec 16) (rank : BitVec 24) (ctx : Nat) (scopeOf : BitVec 16) (tag : BitVec 32)
    (quiet : Bool) (op : Nat) (remote : Bool) : NetKept s (s.startPrune part scope rank ctx scopeOf tag quiet op remote).2 := by
  unfold State.startPrune
  dsimp only
  split
  · split <;> exact .of_eq rfl rfl rfl rfl
  · refine NetKept.then_if ?_ (.of_eq rfl rfl rfl rfl)
    refine NetKept.trans (NetKept.trans ?_ (NetKept.foldl (fun _ _ => sendNow_kept ..) _ _)) (NetKept.foldl (fun _ _ => sendNow_kept ..) _ _)
    exact (markDying_kept ..).after rfl rfl rfl rfl

/-- A trap in a user context: time passes where the word waited, the trap is recorded in the context, its frame is written, and what follows keeps both. -/
theorem takeTrapAt_user (s : State) (core : Nat) {k : Nat} (t : Trap) (decode : Bool) (hk : k < 14) :
    ∃ (u : State) (done : Nat), u.mem = s.mem ∧ (s.ctx core k).Timed (u.ctx core k) ∧
      TrapKept core k ((u.setCtx core k (trapCtx (u.ctx core k) t decode)).writeFrame core k 1 1 done) (s.takeTrapAt core k t decode) := by
  unfold State.takeTrapAt
  rw [if_neg (by omega)]
  extract_lets u c hnd torn n done slot tpc c1 ctl1 ctl c2 s1 s2 part s3 s4 s5 p s6
  refine ⟨u, done, ?_, ?_, ?_⟩
  · unfold u
    split
    · rfl
    · exact (delay_timed ..).2
  · unfold u
    split
    · exact .refl _
    · exact (delay_timed ..).1
  have h3 : TrapKept core k s2 s3 := ⟨rfl, _, _, rfl⟩
  have h4 : TrapKept core k s3 s4 := by
    unfold s4
    split
    · exact ⟨rfl, _, _, State.ctx_setCtx_same ..⟩
    · exact .refl ..
  have h5 : TrapKept core k s4 s5 := by
    unfold s5
    split
    · exact ⟨rfl, _, _, State.ctx_setCtx_same ..⟩
    · exact .refl ..
  refine ((h3.trans h4).trans h5).trans ?_
  rw [if_pos hk]
  have h6 : TrapKept core k s5 s6 := (sendNow_kept ..).toCtxKept.trapKept
  refine h6.trans ?_
  split
  · exact (startPrune_kept ..).toCtxKept.trapKept
  · exact .refl ..

/-- Settles O40: the trap registers stand in the context once time has passed and the boundary has been committed, its frame is written from them, and
what follows changes neither. -/
theorem trapEntry : Obligations.TrapEntry := by
  intro s core k t decode hs hcore hk c u d hslot hmts
  obtain ⟨v, done, hvm, hv, hu, sd, held, hctx⟩ := takeTrapAt_user s core t decode hk
  have hk16 : k < 16 := by omega
  generalize hw : v.setCtx core k (trapCtx (v.ctx core k) t decode) = w at hu hctx
  have hwi : w.Inv := by rw [← hw]; exact (congrArg _ hvm).trans hs
  have hwc : w.ctx core k = trapCtx (v.ctx core k) t decode := by rw [← hw, State.ctx_setCtx_same]
  have hregs := trapCtx_registers t decode hv hslot hmts
  rw [← hwc] at hregs
  have hd : d = { (w.ctx core k).foldFlags with sends := sd, held := held } := by rw [← writeFrame_ctx w core k 1 1 done]; exact hctx
  have hfr : ∀ off n, u.frame core k off n = (w.writeFrame core k 1 1 done).frame core k off n := fun off n => by
    simp only [State.frame, State.rd, u, hu]
  obtain ⟨hst, hpc, htpc, htval, htmid, hcause, hg, hpreds⟩ := hregs
  obtain ⟨fcause, ftval, ftpc, ftmid, fstate⟩ := writeFrame_trap (core := core) (fstate := 1) (kind := 1) (done := done) hwi hk16
  simp only [hfr, hd]
  refine ⟨hst, hpc, htpc, htval, htmid, hcause, hg, hpreds, fcause, ftval.trans (congrArg _ htval), ftpc.trans (congrArg _ htpc),
    ftmid.trans (congrArg _ htmid), fstate, fun i => writeFrame_frame_g hwi hk16 i, fun a hb he => ?_⟩
  calc memGet u.mem a = memGet (w.writeFrame core k 1 1 done).mem a := by rw [hu]
    _ = memGet w.mem a := writeFrame_other hwi hb he
    _ = memGet s.mem a := by rw [← hw]; exact congrArg (memGet · a) hvm

end Sys2Proof.Machine
end

section
/-! PROOFS. The execution model (spec 02; 03): the turn of a context, loads and stores of tile memory, what the network keeps of its messages, built-in memory
operations, messages at their destination and the torus. -/

namespace Sys2Proof.Machine

/-! ### The turn of a context (spec 02 R63; 03 R84 to R89) -/

/-- A step with no event due is the turn of the agent in focus. -/
theorem step_turn {s : State} (hc : s.clockStopped = false) (ha : s.agenda = []) : step s = turn s := by
  simp only [step, hc, ha, Bool.false_eq_true, if_false]
/-- A step takes the oldest event that is due, where it is the event's turn. -/
theorem step_event {s : State} {i : Instr} {o : Occ} {r : List (Instr × Occ)} (hc : s.clockStopped = false) (ha : s.agenda = (i, o) :: r)
    (hf : Config.agentFirst s.free = false) : step s = exec i { s with agenda := r, occ := o, free := s.free + 1 } := by
  simp only [step, hc, ha, hf, Bool.false_eq_true, if_false]
/-- With no event due, the step of a context for which issue has a word is exec of the word, and its settling. -/
theorem step_run {s u : State} {core k : Nat} {i : Instr} (hc : s.clockStopped = false) (ha : s.agenda = []) (hf : s.focus = .lc core k)
    (h : s.prepare core k = .run i u) :
    step s = match exec i u with
      | .next t => .next (t.settle core k)
      | .fault f => .fault f
      | .refused x => .refused x := by
  rw [step_turn hc ha, turn, hf]
  dsimp only [stepLc]
  rw [h] <;> rfl
/-- Setting a context twice leaves the second. -/
theorem State.setCtx_setCtx (s : State) (core k : Nat) (c d : Ctx) : (s.setCtx core k c).setCtx core k d = s.setCtx core k d := by
  simp only [State.setCtx, tset_tset]
/-- A word of a slot that is not suppressed is the one to perform, with npc at the word behind it. -/
theorem runSlot_run {s : State} {core k : Nat} {i : Instr} (hd : (s.ctx core k).doneMask.getLsbD (s.ctx core k).slot = false)
    (hi : decodeL ((s.ctx core k).grp.getD (s.ctx core k).slot 0).toNat = .ok i) :
    s.runSlot core k = .run i (s.setCtx core k { s.ctx core k with npc := (s.ctx core k).nextPc }) := by
  simp only [State.runSlot, hd, Bool.false_eq_true, if_false, hi]

/-- Translating an address changes no context. -/
theorem xlate_ctxs (s : State) (pn va : Nat) : (s.xlate pn va).1.ctxs = s.ctxs := by
  unfold State.xlate
  split
  · rfl
  · split <;> rfl
/-- Fetching a word changes no context. -/
theorem fetchWord_ctxs (s : State) (core k : Nat) (pc : BitVec 32) : (s.fetchWord core k pc).1.ctxs = s.ctxs := by
  unfold State.fetchWord
  dsimp only
  split
  · split
    · split <;> rfl
    · rfl
  split
  · rfl
  split
  · rfl
  have hx := xlate_ctxs s (s.partNo core) ((s.part (s.partNo core)).codeVa + pc.toNat)
  generalize s.xlate _ _ = x at hx
  obtain ⟨v, e | e⟩ := x <;> dsimp only at hx ⊢
  · exact hx
  · split_ifs <;> exact hx
theorem fetchList_ctxs (core k n : Nat) (s : State) (pc : BitVec 32) : (fetchList s core k n pc).1.ctxs = s.ctxs := by
  induction n generalizing s pc with
  | zero => rfl
  | succ n ih =>
    have hw := fetchWord_ctxs s core k pc
    unfold fetchList
    generalize s.fetchWord core k pc = x at hw
    obtain ⟨v, e | w⟩ := x <;> dsimp only at hw ⊢
    · exact hw
    · split
      · exact hw
      · exact (ih v (pc + 4)).trans hw
/-- Fetching a group changes no context. -/
theorem fetchGroup_ctxs (s : State) (core k : Nat) : (s.fetchGroup core k).1.ctxs = s.ctxs := by
  have hl := fetchList_ctxs core k 4 s (s.ctx core k).pc
  unfold State.fetchGroup
  dsimp only
  split <;> split <;> exact hl
/-- The first instruction of a group that passes its checks is the decoded first word. -/
theorem checkWords_head {iw : Bool} {sh : BitVec 16} {n i : Nat} {b : Bool} {acc : GroupAcc} {w : BitVec 32} {ws : List (BitVec 32)} {x : Instr}
    {xs : List Instr} (h : checkWords iw sh n b i acc (w :: ws) = .ok (x :: xs)) : decodeL w.toNat = .ok x := by
  unfold checkWords at h
  split at h
  · cases h
  next y hy =>
    dsimp only at h
    split at h
    · cases h
    split at h
    · cases h
    split at h
    · cases h
    · cases h; exact hy
/-- The words of a group that was fetched have passed the checks. -/
theorem fetchGroup_head {s u : State} {core k : Nat} {w : BitVec 32} {ws : List (BitVec 32)} {i : Instr} {is : List Instr}
    (h : s.fetchGroup core k = (u, .ok (w :: ws, i :: is))) : decodeL w.toNat = .ok i := by
  unfold State.fetchGroup at h
  dsimp only at h
  split at h
  · split at h <;> cases h
  · split at h
    · cases h
    next hc =>
      injection h with _ hr
      injection hr with hr
      injection hr with hw hi
      rw [hw, hi] at hc
      exact checkWords_head hc
/-- With no word suppressed every word of a group is to be performed. -/
theorem unsuppressed_zero (xs : List Instr) : unsuppressed 0 xs = xs := by
  simp [unsuppressed]
/-- No cycle passes for a context without live latches. -/
theorem delay_idle {s : State} {core k : Nat} (h : (s.ctx core k).latches = []) : s.delay core k = s := by
  simp only [State.delay, h, List.isEmpty_nil, if_true]
theorem markDoomed_alive {s : State} {core k : Nat} (h : s.doomed core (s.ctx core k) = false) : s.markDoomed core k = s := by
  simp only [State.markDoomed, h, Bool.false_and, Bool.false_eq_true, if_false]

/-- Issue between groups: the group is fetched whole, and its first word is the one to perform where nothing stands in its way. -/
theorem prepare_group {s u : State} {core k : Nat} {w : BitVec 32} {ws : List (BitVec 32)} {i : Instr} {is : List Instr}
    (hm : canMove s (ckey core k) = true) (hk : k < 14) (hg : (s.ctx core k).grp = []) (hkp : (s.ctx core k).ctl.kpend = false)
    (hip : (s.ctx core k).ctl.ipend = false) (hpc : (s.ctx core k).pc.toNat % 4 = 0) (hd : (s.ctx core k).doneMask = 0)
    (hf : s.fetchGroup core k = (u, .ok (w :: ws, i :: is))) (hl : (u.ctx core k).latches = []) (ha : u.doomed core (u.ctx core k) = false)
    (hn : latchNeed (i :: is) ≤ 8) :
    s.prepare core k = .run i (u.setCtx core k
      { u.ctx core k with grp := w :: ws, slot := 0, performed := 0, resumed := false, npc := (u.ctx core k).nextPc }) := by
  have hctx : u.ctx core k = s.ctx core k := by
    have hx := fetchGroup_ctxs s core k
    rw [hf] at hx
    exact congrArg (fun t => (tget t (ckey core k)).getD {}) hx
  rw [← hctx] at hkp hip hd hg hpc
  let c : Ctx := { u.ctx core k with grp := w :: ws, slot := 0, performed := 0, resumed := false }
  have hrun : (u.setCtx core k c).runSlot core k = .run i ((u.setCtx core k c).setCtx core k { c with npc := c.nextPc }) := by
    have hc : (u.setCtx core k c).ctx core k = c := State.ctx_setCtx_same ..
    have hw := runSlot_run (s := u.setCtx core k c) (core := core) (k := k) (i := i)
    rw [hc] at hw
    exact hw (by simp [c, hd]) (fetchGroup_head hf)
  have hk16 : k ≠ 16 := by omega
  have hall : unsuppressed (u.ctx core k).doneMask (i :: is) = i :: is := by rw [hd, unsuppressed_zero]
  have hfew : ¬8 < (u.ctx core k).latches.length + latchNeed (i :: is) := by rw [hl, List.length_nil]; omega
  unfold State.prepare
  rw [← hctx]
  simp only [hm, hg, hkp, hip, hpc, hf, hk16, Bool.true_eq_false, Bool.false_eq_true, false_and, if_false, if_true, ne_eq, not_true_eq_false,
    delay_idle hl, ite_self, markDoomed_alive ha, hall, Bool.false_and, hfew]
  exact hrun.trans (congrArg (Prep.run i) (State.setCtx_setCtx ..))
/-- Issue within a group: the word of the slot. -/
theorem prepare_slot {s : State} {core k : Nat} (hm : canMove s (ckey core k) = true) (hg : (s.ctx core k).grp ≠ []) :
    s.prepare core k = s.runSlot core k := by
  simp only [State.prepare, hm, hg, Bool.true_eq_false, if_false]

/-- Settles O32: the event that is due, the word of a slot, and the first word of a group that was fetched. -/
theorem stepRunsDecodedInstruction : Obligations.StepRunsDecodedInstruction := by
  refine ⟨fun s i o r hc ha hf => step_event hc ha hf, fun s core k i hc ha hf hm hg hd hi => ?_,
    fun s u core k w ws i is hc ha hf hm hk hg hkp hip hpc hd hfe hl hal hn => ⟨fetchGroup_head hfe, ?_⟩⟩
  · exact step_run hc ha hf ((prepare_slot hm hg).trans (runSlot_run hd hi))
  · exact step_run hc ha hf (prepare_group hm hk hg hkp hip hpc hd hfe hl hal hn)

/-! ### A placed word that the checks of its group refuse (spec 03 R89, R92; 06 R169) -/

/-- User context 0 of core 0 with a SHAPE of eight lanes of four bytes each. -/
def eightLanes : State := { State.reset with focus := .lc 0 0, ctxs := [(0, { ctl := { shape := 0x0901 } })] }
/-- Rotate by eight lanes of the type that SHAPE gives, which has lanes 0 to 7. -/
def rotateBeyond : Instr := .vrot ⟨true, false, 0⟩ 1 2 8 .shape
/-- TVAL of context 0 of core 0 after an outcome. -/
def tvalAfter (o : Out) : Word :=
  match o with
  | .next t => (t.ctx 0 0).ctl.tval
  | .fault _ => 0
  | .refused _ => 0
/-- The next state of an outcome, once the word of context 0 of core 0 has been settled. -/
def settled (o : Out) : Out :=
  match o with
  | .next t => .next (t.settle 0 0)
  | .fault f => .fault f
  | .refused x => .refused x

theorem decodeL_rotateBeyond : decodeL 0x8565103F = .ok rotateBeyond := by decide
/-- The step refuses the group at its decode, with the word in TVAL. -/
theorem tvalAfter_step_rotateBeyond : tvalAfter (step (eightLanes.withFetchWord 32 0x8565103F)) = 0x8565103F := by decide
/-- exec of the word would trap at its issue, with SHAPE in TVAL. -/
theorem tvalAfter_exec_rotateBeyond :
    let p := eightLanes.withFetchWord 32 0x8565103F
    tvalAfter (settled (exec rotateBeyond (p.setCtx 0 0 { p.ctx 0 0 with grp := [0x8565103F], npc := 0x400 }))) = 0x0901 := by decide

/-- Refutes O33: a word whose lane field lies beyond the type of SHAPE traps at the decode of its group, so that the step is not exec of it. -/
theorem not_placedWordRuns : ¬ Obligations.PlacedWordRuns := by
  intro h
  have hv := congrArg tvalAfter
    (h eightLanes 32 0 0 0x8565103F rotateBeyond rfl (by decide) (by decide) (by decide) decodeL_rotateBeyond rfl rfl (by decide))
  rw [tvalAfter_step_rotateBeyond] at hv
  exact absurd (hv.trans tvalAfter_exec_rotateBeyond) (by decide)

/-! ### Bytes of memory and of numbers (spec 00 R3) -/

/-- The cells from an address up hold nothing below it. -/
theorem memGet_memFrom_below {a x : Nat} (m : Memory) (hx : x < a) : memGet (memFrom m a) x = 0 := by
  induction m with
  | nil => rfl
  | cons e r ih =>
    obtain ⟨b, w⟩ := e
    simp only [memFrom]
    split
    · exact ih
    · have h1 : b ≠ x := by omega
      have h2 : x < b := by omega
      simp [memGet, h1, h2]
/-- The cells from an address up read as the whole memory does there. -/
theorem memGet_memFrom_above {a x : Nat} (m : Memory) (hx : a ≤ x) : memGet (memFrom m a) x = memGet m x := by
  induction m with
  | nil => rfl
  | cons e r ih =>
    obtain ⟨b, w⟩ := e
    simp only [memFrom]
    split
    · have h1 : b ≠ x := by omega
      have h2 : ¬x < b := by omega
      simp [ih, memGet, h1, h2]
    · rfl
/-- Cells below a bound, and behind them a memory that holds nothing below it. -/
theorem memGet_append_of_zero {lo hi x : Nat} {cs m : Memory} (hc : Memory.wfFrom lo cs = true) (hb : memBelow hi cs) (hm : x < hi → memGet m x = 0) :
    memGet (cs ++ m) x = if x < hi then memGet cs x else memGet m x := by
  induction cs generalizing lo with
  | nil =>
    split
    · exact hm ‹_›
    · rfl
  | cons e r ih =>
    obtain ⟨a, v⟩ := e
    simp only [Memory.wfFrom, Bool.and_eq_true, decide_eq_true_eq] at hc
    have ha : a < hi := hb (a, v) (by simp)
    simp only [List.cons_append, memGet, ih hc.2 fun e he => hb e (by simp [he])]
    by_cases h1 : x < hi
    · simp [h1]
    · have h2 : a ≠ x := by omega
      have h3 : ¬x < a := by omega
      simp [h1, h2, h3]
/-- What a byte reads after a run of bytes was replaced, in any memory. -/
theorem memGet_memSplice_any {a n x : Nat} {cs : Memory} (m : Memory) (hc : Memory.wfFrom a cs = true) (hb : memBelow (a + n) cs) :
    memGet (memSplice m a n cs) x = if a ≤ x ∧ x < a + n then memGet cs x else memGet m x := by
  induction m with
  | nil =>
    have h := memGet_append_of_zero (x := x) (m := []) hc hb fun _ => rfl
    rw [List.append_nil] at h
    rw [memSplice]
    by_cases h1 : x < a
    · simp [memGet_lt hc h1, memGet]
    · simp only [Nat.not_lt.1 h1, true_and]
      exact h
  | cons e r ih =>
    obtain ⟨b, w⟩ := e
    simp only [memSplice]
    split
    next hba =>
      simp only [memGet, ih]
      by_cases h1 : a ≤ x
      · have h2 : b ≠ x := by omega
        have h3 : ¬x < b := by omega
        simp [h2, h3]
      · simp [h1]
    next hba =>
      rw [memGet_append_of_zero hc hb fun h => memGet_memFrom_below _ h]
      by_cases h1 : x < a + n
      · by_cases h2 : a ≤ x
        · simp [h1, h2]
        · have h3 : b ≠ x := by omega
          have h4 : x < b := by omega
          simp [h1, h2, memGet_lt hc (Nat.not_le.1 h2), memGet, h3, h4]
      · rw [if_neg h1, if_neg (by omega), memGet_memFrom_above _ (by omega)]
/-- Every byte after a run of bytes was written, in any memory. -/
theorem memGet_memWrite_any (m : Memory) (a x : Nat) (bs : List Byte) :
    memGet (memWrite m a bs) x = if a ≤ x ∧ x < a + bs.length then bs.getD (x - a) 0 else memGet m x := by
  rw [memWrite, memGet_memSplice_any m (memCells_wf a bs) (memCells_below a bs)]
  split
  next hx => rw [memGet_memCells, if_pos hx.1]
  · rfl

/-- Bit j of byte i of a number of bytes. -/
theorem leNat_testBit (bs : List Byte) (i : Nat) {j : Nat} (hj : j < 8) : (leNat bs).testBit (8 * i + j) = (bs.getD i 0).getLsbD j := by
  induction bs generalizing i with
  | nil => simp [leNat]
  | cons b r ih =>
    have hb := b.isLt
    rw [leNat, Nat.add_comm, show 256 * leNat r = 2 ^ 8 * leNat r from rfl, Nat.testBit_two_pow_mul_add _ hb]
    cases i with
    | zero => simp [hj, BitVec.getLsbD]
    | succ i => rw [if_neg (by omega), show 8 * (i + 1) + j - 8 = 8 * i + j by omega, ih]; simp
theorem leNat_lt (bs : List Byte) : leNat bs < 2 ^ (8 * bs.length) := by
  induction bs with
  | nil => simp [leNat]
  | cons b r ih =>
    have hb := b.isLt
    rw [List.length_cons, Nat.mul_succ, pow_add, leNat]
    omega
/-- A byte of a register that holds a number of bytes. -/
theorem extract_leNat {w i : Nat} (bs : List Byte) (hw : 8 * i + 8 ≤ w) : (BitVec.ofNat w (leNat bs)).extractLsb' (8 * i) 8 = bs.getD i 0 := by
  apply BitVec.eq_of_getLsbD_eq
  intro j hj
  rw [BitVec.getLsbD_extractLsb', BitVec.getLsbD_ofNat, leNat_testBit _ _ hj]
  simp [hj, show 8 * i + j < w by omega]
/-- A byte of the bytes of a number. -/
theorem leBytes_getD {n j : Nat} (v : Nat) (hj : j < n) : (leBytes n v).getD j 0 = BitVec.ofNat 8 (v / 2 ^ (8 * j)) := by
  induction n generalizing v j with
  | zero => omega
  | succ n ih =>
    cases j with
    | zero => exact BitVec.eq_of_toNat_eq (by simp [leBytes])
    | succ j =>
      rw [leBytes, List.getD_cons_succ, ih _ (by omega), Nat.div_div_eq_div_mul, Nat.mul_succ, pow_add,
        show (2 : Nat) ^ 8 = 256 from rfl, Nat.mul_comm]
/-- A byte of the bytes of a register. -/
theorem leBytes_toNat_getD {n w j : Nat} (v : BitVec w) (hj : j < n) : (leBytes n v.toNat).getD j 0 = v.extractLsb' (8 * j) 8 := by
  rw [leBytes_getD _ hj]
  apply BitVec.eq_of_toNat_eq
  simp [Nat.shiftRight_eq_div_pow]

/-! ### Loads and stores of tile memory (spec 07 R180, R185, R188; 12 R321) -/

/-- A number of w bits read as a signed one is the integer of its bits. -/
theorem toSigned_eq_toInt {w : Nat} (hw : 0 < w) (x : Nat) : toSigned w x = (BitVec.ofNat w x).toInt := by
  have h2 : 2 ^ w = 2 * 2 ^ (w - 1) := by rw [← Nat.pow_succ']; congr 1; omega
  simp only [toSigned, BitVec.toInt, BitVec.toNat_ofNat]
  split <;> split <;> omega
/-- What a load of n bytes leaves: the bytes, then zeros, or copies of their sign (spec 07 R185). -/
theorem loadValue_bytes {n : Nat} {bs : List Byte} (ext : Bool) (h0 : 0 < n) (h8 : n ≤ 8) (hl : bs.length = n) :
    (∀ i < n, (loadValue n ext (leNat bs)).extractLsb' (8 * i) 8 = bs.getD i 0) ∧
    (ext = false → (loadValue n ext (leNat bs)).toNat < 2 ^ (8 * n)) ∧
    (ext = true → (loadValue n ext (leNat bs)).toInt < 2 ^ (8 * n - 1) ∧ -2 ^ (8 * n - 1) ≤ (loadValue n ext (leNat bs)).toInt) := by
  have hlt : leNat bs < 2 ^ (8 * n) := hl ▸ leNat_lt bs
  cases ext with
  | false =>
    refine ⟨fun i hi => extract_leNat bs (by omega), fun _ => ?_, fun h => nomatch h⟩
    exact (Nat.mod_le _ _).trans_lt hlt
  | true =>
    have hs : loadValue n true (leNat bs) = (BitVec.ofNat (8 * n) (leNat bs)).signExtend 64 := by
      rw [loadValue, if_pos rfl, toSigned_eq_toInt (by omega)]; rfl
    rw [hs]
    refine ⟨fun i hi => ?_, (nomatch ·), fun _ => ?_⟩
    · rw [← extract_leNat bs (show 8 * i + 8 ≤ 8 * n by omega)]
      apply BitVec.eq_of_getLsbD_eq
      intro j hj
      simp only [BitVec.getLsbD_extractLsb', BitVec.getLsbD_signExtend, show 8 * i + j < 64 by omega, show 8 * i + j < 8 * n by omega, decide_true, Bool.true_and, if_true]
    · rw [BitVec.toInt_signExtend_of_le (by omega)]
      exact ⟨BitVec.toInt_lt, BitVec.le_toInt _⟩
theorem msz_pos (z : MSize) : 0 < msz z := by cases z <;> decide
theorem msz_le (z : MSize) : msz z ≤ 8 := by cases z <;> decide

/-- The use of a place changes no context. -/
theorem wrote_used_ctxs (s : State) (p : Place) (a n : Nat) (d : Ctx) : ((s.used p a n).wrote d).ctxs = (s.wrote d).ctxs := by cases p <;> rfl
theorem used_mem (s : State) (p : Place) (a n : Nat) : (s.used p a n).mem = s.mem := by cases p <;> rfl
theorem used_cur (s : State) (p : Place) (a n : Nat) : (s.used p a n).cur = s.cur := by cases p <;> rfl

/-- A word that leaves context d and changes neither another context nor memory. -/
def LoadsTo (s : State) (o : Out) (d : Ctx) : Prop :=
  ∃ t, o = .next t ∧ t.cur = { d with fin := true } ∧ t.ctxs = (s.wrote d).ctxs ∧ t.mem = s.mem
/-- A load of the core's own tile memory, or of its inbox view, leaves the bytes that stand there. -/
theorem loadWord_here {h : Hdr} {s : State} {ra : BitVec 4} {off : Word} {n : Nat} {kind : AKind} {fill : Bool} {set : Ctx → Nat → Ctx} {mk : Req → Req}
    {p : Place} {bs : List Byte} (g : s.cur.guard h = true) (hp : p = .tile ∨ p = .inbox)
    (hc : s.check (ea (s.cur.gr ra) off).toNat n 0 true false (s.cur.gr ra) = .ok p) (hr : s.localRd p (ea (s.cur.gr ra) off).toNat n = .ok bs) :
    LoadsTo s (loadWord h s ra off n kind fill set mk) (set s.cur (leNat bs)) := by
  refine ⟨_, lword_ok g (t := (s.used p (ea (s.cur.gr ra) off).toNat n).setCur (set s.cur (leNat bs))) ?_, ?_, ?_, ?_⟩
  · obtain rfl | rfl := hp <;> simp only [hc, hr]
  · rw [State.finish_setCur, State.cur_wrote]
  · rw [State.finish_setCur, wrote_used_ctxs]
  · exact used_mem ..
/-- A read of tile memory without poison. -/
theorem localRd_tile {s : State} {a n : Nat} (h : ∀ i < n, tilePa s.fcore s.cur.space (tileOff a + i) / 64 ∉ s.poison) :
    s.localRd .tile a n = .ok (s.tileRd s.fcore s.cur.space (tileOff a) n) := by
  have hp : s.tilePoison s.fcore s.cur.space (tileOff a) n = none := by
    simpa [State.tilePoison, List.find?_eq_none] using h
  simp only [State.localRd, hp]
/-- A read of the inbox view of a message without poison. -/
theorem localRd_inbox {s : State} {a n : Nat} (h : ∀ m, s.cur.held = some m → m.poisoned = []) :
    s.localRd .inbox a n = .ok ((List.range n).map fun i => inboxByte s.cur (a - 0x40000 + i)) := by
  have hr : inboxRd s.cur (a - 0x40000) n = .ok ((List.range n).map fun i => inboxByte s.cur (a - 0x40000 + i)) := by
    unfold inboxRd
    dsimp only
    rw [List.find?_eq_none.2]
    intro i _
    cases hh : s.cur.held with
    | none => simp
    | some m => simp [h m hh]
  simp only [State.localRd, hr]
/-- A byte of a list of bytes by their numbers. -/
theorem getD_map_range {n i : Nat} (f : Nat → Byte) (hi : i < n) : ((List.range n).map f).getD i 0 = f i := by
  simp [List.getD, hi]

/-- A tile address lies below the inbox view, or in the window of the agent itself. -/
theorem placeOf_tile {iw : Bool} {me : BitVec 24} {a : Nat} (h : placeOf iw me a = some .tile) :
    a < 2 ^ 18 ∨ (a / 2 ^ 42 = 1 ∧ BitVec.ofNat 24 (a / 2 ^ 18) = me) := by
  unfold placeOf at h
  dsimp only at h
  split_ifs at h with h1 h2 h3 h4 h5 h6 h7 h8 <;> cases h
  · exact .inl h1
  · exact .inr ⟨h7, h8⟩
/-- Bytes of tile memory one after another keep within one space. -/
theorem tileOff_within {iw : Bool} {me : BitVec 24} {a n : Nat} (h : ∀ i < n, placeOf iw me (a + i) = some .tile) (hn : 0 < n) :
    tileOff a + n ≤ 2 ^ 18 := by
  by_contra hc
  have ha := placeOf_tile (h 0 hn)
  have hb := placeOf_tile (h (2 ^ 18 - tileOff a) (by unfold tileOff at *; omega))
  unfold tileOff at *
  obtain ha | ⟨ha, hr⟩ := ha
  · obtain hb | ⟨hb, -⟩ := hb <;> omega
  obtain hb | ⟨hb, hr'⟩ := hb
  · omega
  -- both through the window: one rank names one core
  have := congrArg BitVec.toNat (hr.trans hr'.symm)
  simp only [BitVec.toNat_ofNat] at this
  omega
/-- A test that fails at no offset below n. -/
theorem firstOff_none {n : Nat} {f : Nat → Bool} (h : firstOff n f = none) {i : Nat} (hi : i < n) : f i = false := by
  have := List.find?_eq_none.1 h i (List.mem_range.2 hi)
  simpa using this
/-- Every byte of an access to tile memory lies there, once the checks have passed (spec 07 R180, R183). -/
theorem check_tile {s : State} {a n al : Nat} {rd wr w : Bool} {g : GReg} (h : s.check a n al rd wr g w = .ok .tile) :
    ∀ i < n, placeOf (s.fctx == 16) (s.rankOf s.fcore) (a + i) = some .tile := by
  unfold State.check at h
  dsimp only at h
  split at h
  · cases h
  split at h
  · cases h
  next hsome =>
  iterate 7
    split at h
    · cases h
  split at h
  · split at h <;> cases h
  next hsame =>
    intro i hi
    have h0 := firstOff_none hsome (i := 0) (by omega)
    have hi := firstOff_none hsame hi
    have hp : placeOf (s.fctx == 16) (s.rankOf s.fcore) (a + i) = placeOf (s.fctx == 16) (s.rankOf s.fcore) (a + 0) := by simpa using hi
    rw [hp]
    injection h with h
    generalize placeOf .. = o at h h0
    cases o with
    | none => cases h0
    | some p => exact congrArg some h

/-- Every byte after a clean write. -/
theorem store_mem (s : State) (a x : Nat) (bs : List Byte) :
    memGet (s.store a bs).mem x = if a ≤ x ∧ x < a + bs.length then bs.getD (x - a) 0 else memGet s.mem x :=
  memGet_memWrite_any ..
/-- A write of tile memory changes memory and its poison marks. -/
theorem tileWr_only (s : State) (core sp off : Nat) (bs : List Byte) : ∃ m p, s.tileWr core sp off bs = { s with mem := m, poison := p } := by
  unfold State.tileWr
  dsimp only
  split <;> exact ⟨_, _, rfl⟩
/-- The system page stands behind the pages of every space. -/
theorem tilePa_system (core sp : Nat) : tilePa core sp 0x3F000 = core * 2 ^ 30 + 0x2FFFF000 := by
  simp [tilePa, Nat.add_assoc]
/-- Bytes written to a tile space stand there, and no other byte of memory changes (spec 12 R321). -/
theorem tileWr_bytes (s : State) (core sp : Nat) {off : Nat} {bs : List Byte} (h : off + bs.length ≤ 2 ^ 18) :
    (∀ j < bs.length, memGet (s.tileWr core sp off bs).mem (tilePa core sp (off + j)) = bs.getD j 0) ∧
    (∀ x, (∀ j < bs.length, x ≠ tilePa core sp (off + j)) → memGet (s.tileWr core sp off bs).mem x = memGet s.mem x) := by
  unfold State.tileWr
  dsimp only
  split
  next hc =>
    obtain ⟨k, hk⟩ : ∃ k, k = 0x3F000 - off := ⟨_, rfl⟩
    rw [← hk]
    have hlo : ∀ j < k, tilePa core sp (off + j) = tilePa core sp off + j ∧ tilePa core sp off + j < tilePa core sp 0x3F000 := by
      intro j hj
      rw [tilePa_system]
      simp only [tilePa]
      split_ifs <;> omega
    have hhi : ∀ j, k ≤ j → j < bs.length → tilePa core sp (off + j) = tilePa core sp 0x3F000 + (j - k) := by
      intro j hj hl
      rw [tilePa_system, tilePa, if_pos (by omega)]
      omega
    refine ⟨fun j hj => ?_, fun x hx => ?_⟩ <;> rw [store_mem, store_mem, List.length_take, List.length_drop]
    · by_cases hjk : j < k
      · obtain ⟨e, hlt⟩ := hlo j hjk
        rw [e, if_neg (by omega), if_pos (by omega), Nat.add_sub_cancel_left]
        simp [hjk]
      · rw [hhi j (by omega) hj, if_pos (by omega), Nat.add_sub_cancel_left]
        simp [show k + (j - k) = j by omega]
    · rw [if_neg, if_neg]
      · intro ⟨h1, h2⟩
        exact hx (x - tilePa core sp off) (by omega) (by rw [(hlo _ (by omega)).1]; omega)
      · intro ⟨h1, h2⟩
        exact hx (k + (x - tilePa core sp 0x3F000)) (by omega) (by rw [hhi _ (by omega) (by omega)]; omega)
  next hc =>
    have hpa : ∀ j < bs.length, tilePa core sp (off + j) = tilePa core sp off + j := by
      intro j hj
      simp only [tilePa]
      split_ifs <;> omega
    refine ⟨fun j hj => ?_, fun x hx => ?_⟩ <;> rw [store_mem]
    · rw [hpa j hj, if_pos (by omega), Nat.add_sub_cancel_left]
    · rw [if_neg]
      intro ⟨h1, h2⟩
      exact hx (x - tilePa core sp off) (by omega) (by rw [hpa _ (by omega)]; omega)

/-- A store to the core's own tile memory: its bytes stand there, and every other byte of memory and every register is as it was. -/
theorem storeWord_tile {h : Hdr} {s : State} {ra : BitVec 4} {off : Word} {n : Nat} {data : Ctx → List Byte} (g : s.cur.guard h = true) (hk : s.fctx ≠ 16)
    (hn : 0 < n) (hl : (data s.cur).length = n) (hc : s.check (ea (s.cur.gr ra) off).toNat n 0 false true (s.cur.gr ra) = .ok .tile) :
    let pa (j : Nat) : Nat := tilePa s.fcore s.cur.space (tileOff (ea (s.cur.gr ra) off).toNat + j)
    ∃ t, storeWord h s ra off n data = .next t ∧ (∀ j < n, memGet t.mem (pa j) = (data s.cur).getD j 0) ∧
      (∀ x, (∀ j < n, x ≠ pa j) → memGet t.mem x = memGet s.mem x) ∧ t.cur = { s.cur with fin := true } ∧ t.ctxs = (s.wrote s.cur).ctxs := by
  obtain ⟨hb, ho⟩ := tileWr_bytes s s.fcore s.cur.space (bs := data s.cur) (by rw [hl]; exact tileOff_within (check_tile hc) hn)
  rw [hl] at hb ho
  refine ⟨_, lword_ok g (t := (s.tileWr s.fcore s.cur.space (tileOff (ea (s.cur.gr ra) off).toNat) (data s.cur)).used .tile (ea (s.cur.gr ra) off).toNat n) ?_,
    hb, ho, ?_, ?_⟩
  · simp only [hk, false_and, if_false, hc]
  · obtain ⟨m, p, e⟩ := tileWr_only s s.fcore s.cur.space (tileOff (ea (s.cur.gr ra) off).toNat) (data s.cur)
    rw [State.cur_finish, used_cur, e]
    rfl
  · obtain ⟨m, p, e⟩ := tileWr_only s s.fcore s.cur.space (tileOff (ea (s.cur.gr ra) off).toNat) (data s.cur)
    rw [State.finish_wrote, wrote_used_ctxs, used_cur, e]
    rfl

section
variable {h : Hdr} {s : State} {rd ra : BitVec 4} {wd : BitVec 3} {size : MSize} {ext : Bool} {imm : BitVec 10} {p : Place} {bs : List Byte} {n : Nat}

/-- Where a load of n bytes with the LM offset of its word finds its bytes on the core. -/
structure LoadsHere (s : State) (ra : BitVec 4) (imm : BitVec 10) (n : Nat) (p : Place) (bs : List Byte) : Prop where
  place : p = .tile ∨ p = .inbox
  checks : s.check (ea (s.cur.gr ra) (lmOff imm n)).toNat n 0 true false (s.cur.gr ra) = .ok p
  reads : s.localRd p (ea (s.cur.gr ra) (lmOff imm n)).toNat n = .ok bs
theorem execLd_here (g : s.cur.guard h = true) (hl : LoadsHere s ra imm (msz size) p bs) :
    LoadsTo s (execLd h rd ra size ext imm s) (s.cur.setG rd (loadValue (msz size) ext (leNat bs))) :=
  loadWord_here g hl.place hl.checks hl.reads
theorem execLdNc_here (g : s.cur.guard h = true) (hl : LoadsHere s ra imm (msz size) p bs) :
    LoadsTo s (execLdNc h rd ra size ext imm s) (s.cur.setG rd (loadValue (msz size) ext (leNat bs))) :=
  loadWord_here g hl.place hl.checks hl.reads
theorem execLdw_here (g : s.cur.guard h = true) (hl : LoadsHere s ra imm 32 p bs) :
    LoadsTo s (execLdw h wd ra imm s) (s.cur.setW wd (BitVec.ofNat 256 (leNat bs))) :=
  loadWord_here g hl.place hl.checks hl.reads

end

/-- Settles O15: a load reads the bytes of its place and extends them, a store writes the bytes of its source there. -/
theorem tileLoadsAndStores : Obligations.TileLoadsAndStores := by
  refine ⟨fun h rd ra wd size ext imm s g => ⟨fun hc hp => ?_, fun hc hp => ?_, fun hc hp => ?_⟩, fun h rd ra wd size imm s g hk => ⟨fun hc => ?_, fun hc => ?_⟩⟩
  · have hl : LoadsHere s ra imm (msz size) .tile _ := ⟨.inl rfl, hc, localRd_tile hp⟩
    obtain ⟨hb, hz, hs⟩ := loadValue_bytes ext (msz_pos size) (msz_le size)
      (show (s.tileRd s.fcore s.cur.space (tileOff (ea (s.cur.gr ra) (lmOff imm (msz size))).toNat) (msz size)).length = msz size by simp [State.tileRd])
    exact ⟨_, execLd_here g hl, execLdNc_here g hl, fun i hi => (hb i hi).trans (getD_map_range _ hi), hz, hs⟩
  · have hl : LoadsHere s ra imm 32 .tile _ := ⟨.inl rfl, hc, localRd_tile hp⟩
    exact ⟨_, execLdw_here g hl, fun i hi => (extract_leNat _ (by omega)).trans (getD_map_range _ hi)⟩
  · have hl : LoadsHere s ra imm (msz size) .inbox _ := ⟨.inr rfl, hc, localRd_inbox hp⟩
    obtain ⟨hb, hz, hs⟩ := loadValue_bytes ext (msz_pos size) (msz_le size)
      (show ((List.range (msz size)).map fun i => inboxByte s.cur ((ea (s.cur.gr ra) (lmOff imm (msz size))).toNat - 0x40000 + i)).length = msz size by simp)
    exact ⟨_, execLd_here g hl, execLdNc_here g hl, fun i hi => (hb i hi).trans (getD_map_range _ hi), hz, hs⟩
  · obtain ⟨t, e, hb, hr⟩ := storeWord_tile (data := fun c => leBytes (msz size) (c.gv rd).toNat) g hk (msz_pos size) (leBytes_length ..) hc
    exact ⟨t, e, fun j hj => (hb j hj).trans (leBytes_toNat_getD _ hj), hr⟩
  · obtain ⟨t, e, hb, hr⟩ := storeWord_tile (data := fun c => leBytes 32 (c.wv wd).toNat) g hk (by decide) (leBytes_length ..) hc
    exact ⟨t, e, fun j hj => (hb j hj).trans (leBytes_toNat_getD _ hj), hr⟩

/-! ### What the network keeps of its messages (spec 02 R52, R55; 17 R427 to R441) -/

/-- A message found by its number has it. -/
theorem findMsg_no {l : List NetMsg} {n : Nat} {nm : NetMsg} (h : findMsg l n = some nm) : nm.msg.no = n := by
  induction l with
  | nil => cases h
  | cons x r ih =>
    rw [findMsg] at h
    split at h
    · cases h; assumption
    · exact ih h
theorem findMsg_mem {l : List NetMsg} {n : Nat} {nm : NetMsg} (h : findMsg l n = some nm) : nm ∈ l := by
  induction l with
  | nil => cases h
  | cons x r ih =>
    rw [findMsg] at h
    split at h
    · cases h; exact List.mem_cons_self ..
    · exact List.mem_cons_of_mem _ (ih h)
theorem State.net_no {s : State} {n : Nat} {nm : NetMsg} (h : s.net n = some nm) : nm.msg.no = n := findMsg_no h
theorem State.net_mem {s : State} {n : Nat} {nm : NetMsg} (h : s.net n = some nm) : nm ∈ s.fab.msgs := findMsg_mem h
/-- The first message of a number, once every one of the number has been replaced. -/
theorem findMsg_replace {l : List NetMsg} {x y : NetMsg} (h : findMsg l x.msg.no = some y) :
    findMsg (l.map fun z => if z.msg.no = x.msg.no then x else z) x.msg.no = some x := by
  induction l with
  | nil => cases h
  | cons z r ih =>
    rw [findMsg] at h
    rw [List.map_cons, findMsg]
    by_cases hz : z.msg.no = x.msg.no
    · simp [hz]
    · rw [if_neg hz] at h
      rw [if_neg hz, if_neg hz, ih h]
/-- A message that was replaced is found. -/
theorem State.net_setNet {s : State} {x y : NetMsg} (h : s.net x.msg.no = some y) : (s.setNet x).net x.msg.no = some x := findMsg_replace h
theorem State.mem_setNet {s : State} {x y : NetMsg} (hy : y ∈ s.fab.msgs) (hn : y.msg.no = x.msg.no) : x ∈ (s.setNet x).fab.msgs :=
  List.mem_map.2 ⟨y, hy, if_pos hn⟩

/-- Between s and t no message comes to the network, leaves it or changes. -/
structure MsgsKept (s t : State) : Prop where
  msgs : t.fab.msgs = s.fab.msgs
  next : t.fab.nextMsg = s.fab.nextMsg

namespace MsgsKept

variable {s t u : State}

theorem refl (s : State) : MsgsKept s s := ⟨rfl, rfl⟩
theorem trans (a : MsgsKept s t) (b : MsgsKept t u) : MsgsKept s u := ⟨b.msgs.trans a.msgs, b.next.trans a.next⟩
/-- An act that keeps them, after an update of other fields. -/
theorem after (b : MsgsKept t u) (hm : t.fab.msgs = s.fab.msgs) (hn : t.fab.nextMsg = s.fab.nextMsg) : MsgsKept s u := trans ⟨hm, hn⟩ b
theorem net (a : MsgsKept s t) (n : Nat) : t.net n = s.net n := congrArg (findMsg · n) a.msgs
/-- They stay as they are where a message is replaced before as well. -/
theorem setNet (a : MsgsKept s t) (x : NetMsg) : MsgsKept (s.setNet x) (t.setNet x) := ⟨congrArg (List.map _) a.msgs, a.next⟩

end MsgsKept

theorem periodDue_msgs (s : State) : MsgsKept s s.periodDue := by
  unfold State.periodDue
  split <;> exact ⟨rfl, rfl⟩
theorem charge_msgs (s : State) (part : Nat) (scope : BitVec 16) (cls : Nat) (us : List PortUse) : MsgsKept s (s.charge part scope cls us) := by
  unfold State.charge State.chargeAs
  split
  · exact .refl s
  · exact (periodDue_msgs _).after rfl rfl
theorem pumpFlits_msgs (port n : Nat) (s : State) : MsgsKept s (pumpFlits port n s) := by
  induction n generalizing s with
  | zero => exact .refl s
  | succ n ih =>
    unfold pumpFlits
    dsimp only
    split
    · exact .refl s
    · exact (ih _).after rfl rfl
theorem portPump_msgs (s : State) (port : Nat) : MsgsKept s (s.portPump port) := by
  unfold State.portPump
  split
  · exact pumpFlits_msgs ..
  · exact .refl s
theorem sendOn_msgs (s : State) (i : Nat) (pk : BPacket) : MsgsKept s (s.sendOn i pk) := by
  unfold State.sendOn
  extract_lets p fab s1 s2
  have h : MsgsKept s s2 := (portPump_msgs _ i).after rfl rfl
  split
  · exact h.trans ⟨rfl, rfl⟩
  · exact h
/-- A packet that goes to its first-hop port, or waits there, keeps the messages. -/
theorem portSend_msgs (s : State) (pk : BPacket) : MsgsKept s (s.portSend pk) := by
  have hf : MsgsKept s (s.firstHop pk).1 := by
    unfold State.firstHop
    dsimp only
    split <;> exact ⟨rfl, rfl⟩
  refine hf.trans ?_
  unfold State.portSend
  dsimp only
  split
  · exact .refl _
  split
  · exact sendOn_msgs ..
  split
  · exact (charge_msgs ..).trans (sendOn_msgs ..)
  split
  · exact .refl _
  · exact ⟨rfl, rfl⟩

/-- A packet of a message without MERGE is no reply to a merged request. -/
theorem packetKind_ne_mrep {m : Msg} (h : m.merge = false) : packetKind m ≠ 3 := by simp [packetKind, h]
/-- A message without MERGE that goes out stays in the network, on its way under its ORD, and the others stay as they are. -/
theorem transport_msgs (s : State) {nm : NetMsg} (h : nm.msg.merge = false) :
    ∃ y : NetMsg, y.msg = nm.msg ∧ y.ph = .flying ∧ y.got = 0 ∧ y.ord = nm.ord ∧ MsgsKept (s.setNet y) (s.transport nm) := by
  unfold State.transport
  extract_lets m n at_ nm1 nm2 s1 q p pk s2 s3
  have h1 : MsgsKept (s.setNet nm2) s1 := (charge_msgs ..).setNet nm2
  refine ⟨nm2, rfl, rfl, rfl, rfl, h1.trans ?_⟩
  split
  · rw [if_neg (show pk.kind ≠ 3 from packetKind_ne_mrep h)]
    have h3 : MsgsKept s1 s3 := .trans (t := s2.portSend pk) ((portSend_msgs s2 pk).after rfl rfl) ⟨rfl, rfl⟩
    split
    · exact h3.trans ⟨rfl, rfl⟩
    · exact h3
  · split <;> exact ⟨rfl, rfl⟩
/-- A message without MERGE that leaves its interface stays in the network. -/
theorem leave_msgs (s : State) {nm : NetMsg} (h : nm.msg.merge = false) :
    ∃ y : NetMsg, y.msg = nm.msg ∧ MsgsKept (s.setNet y) (s.leave nm) := by
  unfold State.leave
  extract_lets m s1 k st ord s2
  have h1 : MsgsKept s s1 := by
    unfold s1
    split <;> exact ⟨rfl, rfl⟩
  have h2 : MsgsKept s1 s2 := by
    unfold s2
    split <;> exact ⟨rfl, rfl⟩
  obtain ⟨y, hy, -, -, -, hk⟩ := transport_msgs s2 (nm := { nm with stream := k, ord := ord }) h
  exact ⟨y, hy, ((h1.trans h2).setNet y).trans hk⟩
/-- A message outside the order of streams that goes to an interface is in the network under the next number. -/
theorem post_mem (s : State) (u : Nat) {m : Msg} (h : m.merge = false) (ho : m.noord = true) :
    ∃ x ∈ (s.post u m).fab.msgs, x.msg = { m with no := s.fab.nextMsg, owed := false } := by
  unfold State.post
  extract_lets m1 s1 nm fab s2
  have hm : nm ∈ s2.fab.msgs := List.mem_append_right _ (List.mem_singleton_self nm)
  rw [if_pos (show m1.noord = true from ho)]
  unfold State.leaveFree
  split
  · obtain ⟨y, hy, hk⟩ := leave_msgs s2 (nm := nm) h
    refine ⟨y, ?_, hy⟩
    rw [hk.msgs]
    exact State.mem_setNet hm (by rw [hy])
  · exact ⟨nm, hm, rfl⟩
theorem seq_msgs (s : State) (u : Nat) : MsgsKept s (s.seq u).2 := by
  unfold State.seq
  split <;> exact ⟨rfl, rfl⟩
/-- A message as the hardware of local rank u sends it under a message counter (spec 01 R48 SendNow). -/
def Msg.fromUnit (m : Msg) (s : State) (u : Nat) (q : BitVec 20) : Msg :=
  { m with srank := s.rankOf u, srclr := BitVec.ofNat 12 u, seqn := q, sctx := 16,
           plen := BitVec.ofNat 8 ((m.payload.length + 31) / 32), pay := !m.payload.isEmpty }
/-- A message outside the order of streams that the hardware forms is in the network, under the next number. -/
theorem sendNow_formed (s : State) (u : Nat) {m : Msg} {p : Msg → Prop} (h : m.merge = false) (ho : m.noord = true)
    (hp : ∀ q, p { m.fromUnit s u q with no := s.fab.nextMsg, owed := false }) : s.formed (s.sendNow u m) p := by
  have hk := seq_msgs s u
  have hm : (s.seq u).2.modid = s.modid := by
    unfold State.seq
    split <;> rfl
  obtain ⟨x, hx, e⟩ := post_mem (s.seq u).2 u (m := m.fromUnit (s.seq u).2 u (s.seq u).1) h ho
  rw [hk.next, Msg.fromUnit, State.rankOf, hm] at e
  exact ⟨x, hx, by rw [e], by rw [e]; exact hp _⟩

/-! ### Built-in memory operations (spec 02 R56; 07 R210, R211) -/

/-- An access within one line is one part (spec 07 R183). -/
theorem piecesOf_line {a n : Nat} (f : Nat) (h0 : 0 < n) (h : a % 64 + n ≤ 64) : piecesOf (f + 1) a n = [{ va := a, len := n }] := by
  have hk : min n (64 - a % 64) = n := by omega
  have hr : piecesOf f (a + n) 0 = [] := by cases f <;> rfl
  simp only [piecesOf, Nat.pos_iff_ne_zero.1 h0, if_false, hk, Nat.sub_self, hr]
/-- Step 8 of R180 for a part that its translation slice holds on this module, and whose region permits it. -/
theorem xlPieces_one {s : State} {r : Req} {p : Piece} {e : XlEntry} (hg : p.isGlobal = true) (hx : s.xlHit r.part p.va = some e) (he : e.mod = s.modid)
    (hr : (r.kind.region.bind fun k => regionCheck (s.region r.part p.va) r.rank k) = none) (hk : r.kind ≠ .aacc) (hk' : r.kind ≠ .aaccL) :
    xlPieces s r none [p] [] = .ok [{ p with mod := e.mod, pa := e.pa p.va, attr := attrOf (s.region r.part p.va) e }] := by
  have ha : atomPath s r.kind r.sys e = none := by
    unfold atomPath
    split <;> simp [he]
  simp [xlPieces, hg, hx, hr, hk, hk', ha, he]

/-- The access that a built-in of another core's software asks for, before its operation adds to it (spec 07 R210). -/
def builtinReq (s : State) (m : Msg) (kind : AKind) (n : Nat) : Req :=
  { no := s.nextNo, core := localOf m.dest, ctx := m.sctx, part := m.part, rank := m.actor, scope := m.scope, kind := kind, va := (m.arg 0).toNat, len := n,
    pieces := piecesOf (n / 64 + 2) (m.arg 0).toNat n, bmsg := some m.no, phase := .home, unit := modOf m.srank ++ m.srclr }

/-- A built-in of software for n bytes of one line that translation and the region table of this module permit as an access of a kind. -/
structure BuiltinOk (s : State) (m : Msg) (e : XlEntry) (k : RKind) (n : Nat) : Prop where
  software : (m.arg 1).getLsbD 23 = false
  low : 0x50000 ≤ (m.arg 0).toNat
  high : (m.arg 0).toNat + n ≤ 2 ^ 42
  line : (m.arg 0).toNat % 64 + n ≤ 64
  hit : s.xlHit m.part (m.arg 0).toNat = some e
  here : e.mod = s.modid
  permitted : regionCheck (s.region m.part (m.arg 0).toNat) m.actor k = none

/-- The state in which a built-in's access has its number and its request. -/
def State.numberReq (s : State) (r : Req) : State := ({ s with nextNo := s.nextNo + 1 } : State).setReq r

section
variable {s : State} {nm : NetMsg} {e : XlEntry} {kind : AKind} {k : RKind} {n : Nat} {align : Bool} {mk : Msg → Req → Req} {r : Req}

/-- A misaligned built-in of software that must be aligned fails with ALIGN. -/
theorem builtinOp_misaligned (hn : s.net s.occ.a = some nm) (hs : (nm.msg.arg 1).getLsbD 23 = false) (ha : (nm.msg.arg 0).toNat % n ≠ 0)
    (hr : mk nm.msg (builtinReq s nm.msg kind n) = r) :
    builtinOp s kind n true mk = .next ((s.numberReq r).builtinReply r (some ⟨0x04, 0, nm.msg.arg 0⟩)) := by
  unfold builtinOp
  rw [hn]
  simp only [hs, Bool.not_false, Bool.true_or, if_true, Bool.false_eq_true, if_false, Bool.false_and, Bool.true_and, bne_iff_ne.2 ha]
  rw [← hr]
  rfl
/-- A built-in of software that passes the checks of its address is translated as the access it asks for. -/
theorem builtinOp_go (hn : s.net s.occ.a = some nm) (ok : BuiltinOk s nm.msg e k n) (ha : align = true → (nm.msg.arg 0).toNat % n = 0)
    (hr : mk nm.msg (builtinReq s nm.msg kind n) = r) (hv : kind = .ldv → sdist r.lo r.hi < 2 ^ 19) :
    builtinOp s kind n align mk = builtinOp.go (s.numberReq r) r fun t => .next ((s.numberReq r).builtinReply r (some t)) := by
  obtain ⟨hs, hlo, hhi, -, -, -, -⟩ := ok
  have hf : (firstOff n fun i => decide ((nm.msg.arg 0).toNat + i < 0x50000) || decide (2 ^ 48 ≤ (nm.msg.arg 0).toNat + i) ||
      ((nm.msg.arg 0).toNat + i) / 2 ^ 42 == 1) = none := by
    refine List.find?_eq_none.2 fun i hi => ?_
    have := List.mem_range.1 hi
    simp
    omega
  have hal : (align && (nm.msg.arg 0).toNat % n != 0) = false := by
    cases align with
    | false => rfl
    | true => simp [ha rfl]
  subst hr
  unfold builtinOp
  rw [hn]
  simp only [hs, Bool.not_false, Bool.true_or, if_true, Bool.false_eq_true, if_false, Bool.false_and, hal, hf]
  split
  · exact if_neg (Nat.not_le.2 (hv rfl))
  · rfl

/-- A built-in becomes an access at its home: of its kind, place and length, and for the acting rank of its sender. -/
def AsksHome (s : State) (m : Msg) (o : Out) (kind : AKind) (n : Nat) (q : Req → Prop) : Prop :=
  ∃ (t : State) (r : Req), o = .next t ∧ t.mem = s.mem ∧ t.agenda = s.agenda ++ [(.homeAccess, { a := s.nextNo })] ∧ t.req s.nextNo = some r ∧
    r.kind = kind ∧ r.va = (m.arg 0).toNat ∧ r.len = n ∧ r.rank = m.actor ∧ r.bmsg = some m.no ∧ r.phase = .home ∧ q r
theorem AsksHome.mono {m : Msg} {o : Out} {q q' : Req → Prop} (h : AsksHome s m o kind n q) (hq : ∀ r, q r → q' r) : AsksHome s m o kind n q' := by
  obtain ⟨t, r, ho, hm, ha, hr, hk, hva, hl, hrk, hb, hp, h⟩ := h
  exact ⟨t, r, ho, hm, ha, hr, hk, hva, hl, hrk, hb, hp, hq r h⟩
/-- A translated access of one part on this module is due at its home. -/
theorem go_home {p : Piece} {fail : Trap → Out} (hp : r.pieces = [p]) (h0 : r.performed = 0) (hg : p.isGlobal = true) (hx : s.xlHit r.part p.va = some e)
    (he : e.mod = s.modid) (hk : r.kind.region = some k) (hka : k ≠ .aacc) (hr : regionCheck (s.region r.part p.va) r.rank k = none) :
    ∃ ps fl, builtinOp.go (s.numberReq r) r fail =
      .next (((s.numberReq r).setReq { r with pieces := ps, accepted := true, floor := fl }).due .homeAccess r.no) := by
  have hx' : xlPieces (s.numberReq r) r none [p] [] = .ok [{ p with mod := e.mod, pa := e.pa p.va, attr := attrOf (s.region r.part p.va) e }] := by
    refine xlPieces_one hg hx he (by rw [hk]; exact hr) ?_ ?_ <;> intro h <;> rw [h] at hk <;> cases hk <;> exact hka rfl
  have hh : e.mod = (s.numberReq r).modid := he
  unfold builtinOp.go
  simp only [xlNow, hp, hx', State.toHome, h0, List.getElem?_cons_zero]
  rw [if_pos ⟨hh, hg⟩]
  exact ⟨_, _, rfl⟩

/-- A built-in of software that passes its checks asks for its access. -/
theorem builtinOp_asks {d c : List Byte} {lo hi : BitVec 20} (hn : s.net s.occ.a = some nm) (ok : BuiltinOk s nm.msg e k n) (h0 : 0 < n)
    (hk : kind.region = some k) (hka : k ≠ .aacc) (ha : align = true → (nm.msg.arg 0).toNat % n = 0)
    (hr : mk nm.msg (builtinReq s nm.msg kind n) = { builtinReq s nm.msg kind n with data := d, cmp := c, lo := lo, hi := hi })
    (hv : kind = .ldv → sdist lo hi < 2 ^ 19) :
    AsksHome s nm.msg (builtinOp s kind n align mk) kind n fun r => r.data = d ∧ r.cmp = c ∧ r.lo = lo ∧ r.hi = hi := by
  have hp : (builtinReq s nm.msg kind n).pieces = [{ va := (nm.msg.arg 0).toNat, len := n }] := piecesOf_line _ h0 ok.line
  have hg : Piece.isGlobal { va := (nm.msg.arg 0).toNat, len := n } = true := by
    have := ok.low
    have := ok.high
    simp [Piece.isGlobal]
    omega
  obtain ⟨ps, fl, hgo⟩ := go_home (r := { builtinReq s nm.msg kind n with data := d, cmp := c, lo := lo, hi := hi })
    (fail := fun t => .next ((s.numberReq _).builtinReply _ (some t))) hp rfl hg ok.hit ok.here hk hka ok.permitted
  exact ⟨_, _, (builtinOp_go hn ok ha hr hv).trans hgo, rfl, rfl, State.req_setReq_same .., rfl, rfl, rfl, rfl, rfl, rfl, rfl, rfl, rfl, rfl⟩

/-- A message formed after acts that take no number. -/
theorem State.formed_of_next {s t u : State} {p : Msg → Prop} (h : t.fab.nextMsg = s.fab.nextMsg) (hf : t.formed u p) : s.formed u p := by
  obtain ⟨x, hx, hn, hp⟩ := hf
  exact ⟨x, hx, hn.trans h, hp⟩
/-- A built-in of software that fails with a trap: the resume FAILED with the cause and the value, where a reply is asked for. -/
theorem builtinReply_failed {tr : Trap} (hn : s.net s.occ.a = some nm) (hs : (nm.msg.arg 1).getLsbD 23 = false) (hb : r.bmsg = some nm.msg.no) :
    ((s.numberReq r).builtinReply r (some tr)).mem = s.mem ∧
    ((nm.msg.arg 1).getLsbD 22 = false → s.formed ((s.numberReq r).builtinReply r (some tr)) fun x =>
      x.kind = .resume ∧ x.ilen = 3 ∧ x.arg 0 = BitVec.ofNat 64 tr.code.toNat ∧ x.arg 1 = tr.tval) := by
  have hn' : (s.numberReq r).net nm.msg.no = some nm := by rw [State.net_no hn]; exact hn
  unfold State.builtinReply
  rw [hb]
  simp only [Option.bind_some, hn', hs, Bool.false_eq_true, if_false]
  refine ⟨?_, fun h => ?_⟩
  · split
    · rfl
    · exact (sendNow_kept ..).mem
  · rw [if_neg (by rw [h]; exact Bool.false_ne_true)]
    refine State.formed_of_next (t := ((s.numberReq r).delReq r.no).delNet nm.msg.no) rfl ?_
    refine sendNow_formed _ _ ?_ ?_ fun q => ?_
    · rfl
    · rfl
    · exact ⟨rfl, rfl, rfl, rfl⟩
/-- A built-in that is not described answers BADOP, where a reply is asked for. -/
theorem badop_formed {m : Msg} (hno : m.no < s.fab.nextMsg) (hr : (m.arg 1).getLsbD 22 = false) :
    (s.badop m).mem = s.mem ∧ s.formed (s.badop m) fun x => x.kind = .resume ∧ x.dest = m.srank ∧ x.addr = (m.arg 1).extractLsb' 32 32 ∧ x.ilen = 8 := by
  unfold State.badop
  simp only [hr, Bool.and_false, Bool.false_eq_true, if_false]
  refine ⟨(sendNow_kept ..).mem, ?_⟩
  obtain ⟨x, hx, hxn, hp⟩ := sendNow_formed s (localOf m.dest)
    (m := { resumeMsg m.srank ((m.arg 1).extractLsb' 32 32) stBadop m.prio m.part m.scope (arg4 0 0 0 0) with noord := true })
    (p := fun x => x.kind = .resume ∧ x.dest = m.srank ∧ x.addr = (m.arg 1).extractLsb' 32 32 ∧ x.ilen = 8) rfl rfl fun q => ⟨rfl, rfl, rfl, rfl⟩
  refine ⟨x, List.mem_filter.2 ⟨hx, ?_⟩, hxn, hp⟩
  simp
  omega

/-- The bytes of a number are those of its residue. -/
theorem leBytes_mod (n v : Nat) : leBytes n (v % 2 ^ (8 * n)) = leBytes n v := by
  induction n generalizing v with
  | zero => rfl
  | succ n ih =>
    have e : 2 ^ (8 * (n + 1)) = 256 * 2 ^ (8 * n) := by rw [Nat.mul_succ, pow_add]; norm_num [Nat.mul_comm]
    rw [leBytes, leBytes, e, Nat.mod_mul_right_mod, Nat.mod_mul_right_div_self, ih]
/-- The checks of software's request, as the statement writes them. -/
theorem BuiltinOk.of {m : Msg} (h : (m.arg 1).getLsbD 23 = false ∧ 0x50000 ≤ (m.arg 0).toNat ∧ (m.arg 0).toNat + n ≤ 2 ^ 42 ∧ (m.arg 0).toNat % 64 + n ≤ 64 ∧
    s.xlHit m.part (m.arg 0).toNat = some e ∧ e.mod = s.modid ∧ regionCheck (s.region m.part (m.arg 0).toNat) m.actor k = none) : BuiltinOk s m e k n := by
  obtain ⟨hs, hlo, hhi, hl, hx, he, hr⟩ := h
  exact ⟨hs, hlo, hhi, hl, hx, he, hr⟩

/-- A load or store whose message gives a length performs it. -/
theorem builtinSized_eq {mk : Msg → Nat → Req → Req} (hn : s.net s.occ.a = some nm) (h : n = 1 ∨ n = 2 ∨ n = 4 ∨ n = 8) (hb : (nm.msg.arg 1).toNat % 16 = n) :
    builtinSized s kind mk = builtinOp s kind n false fun m r => mk m n r := by
  have hl : bits (nm.msg.arg 1).toNat 0 4 = n := by simpa [bits] using hb
  have hb' : nm.msg.blen = some n := by
    unfold Msg.blen
    simp only [hl]
    rw [if_pos (by tauto)]
  unfold builtinSized
  rw [hn]
  simp only [hb']
/-- A load or store of software with a payload is of 32 bytes. -/
theorem payLen_software {m : Msg} (hs : (m.arg 1).getLsbD 23 = false) : m.payLen = 32 := by
  unfold Msg.payLen
  rw [hs]
  rfl

theorem builtinLoad_asks (hn : s.net s.occ.a = some nm) (h : n = 1 ∨ n = 2 ∨ n = 4 ∨ n = 8) (hb : (nm.msg.arg 1).toNat % 16 = n)
    (hk : kind.region = some .read) (hv : kind ≠ .ldv) (ok : BuiltinOk s nm.msg e .read n) :
    AsksHome s nm.msg (builtinSized s kind fun _ _ r => r) kind n fun _ => True := by
  rw [builtinSized_eq hn h hb]
  exact AsksHome.mono (builtinOp_asks hn ok (by omega) hk nofun nofun rfl fun h => absurd h hv) fun _ _ => trivial
theorem builtinStore_asks (hn : s.net s.occ.a = some nm) (h : n = 1 ∨ n = 2 ∨ n = 4 ∨ n = 8) (hb : (nm.msg.arg 1).toNat % 16 = n)
    (ok : BuiltinOk s nm.msg e .write n) :
    AsksHome s nm.msg (execBuiltinStore s) .store n fun r => r.data = leBytes n (nm.msg.arg 2).toNat := by
  unfold execBuiltinStore
  rw [builtinSized_eq hn h hb, ← leBytes_mod]
  exact AsksHome.mono (builtinOp_asks hn ok (by omega) rfl nofun nofun rfl nofun) fun _ ⟨hd, _⟩ => hd
theorem builtinLoad32_asks (hn : s.net s.occ.a = some nm) (ok : BuiltinOk s nm.msg e .read 32) :
    AsksHome s nm.msg (execBuiltinLoad32 s) .load 32 fun _ => True := by
  unfold execBuiltinLoad32
  simp only [hn, payLen_software ok.software]
  exact AsksHome.mono (builtinOp_asks hn ok (by omega) rfl nofun nofun rfl nofun) fun _ _ => trivial
theorem builtinStore32_asks (hn : s.net s.occ.a = some nm) (ok : BuiltinOk s nm.msg e .write 32) (hl : nm.msg.payload.length = 32) :
    AsksHome s nm.msg (execBuiltinStore32 s) .store 32 fun r => r.data = nm.msg.payload := by
  unfold execBuiltinStore32
  simp only [hn, payLen_software ok.software, hl]
  rw [if_neg (by decide)]
  have hd : nm.msg.payload.take 32 = nm.msg.payload := List.take_of_length_le hl.le
  exact AsksHome.mono (builtinOp_asks hn ok (by omega) rfl nofun nofun rfl nofun) fun _ ⟨h, _⟩ => h.trans hd
theorem builtinLdv_asks (hn : s.net s.occ.a = some nm) (ok : BuiltinOk s nm.msg e .ldv 8) (ha : (nm.msg.arg 0).toNat % 8 = 0)
    (hv : sdist ((nm.msg.arg 2).truncate 20) ((nm.msg.arg 2).extractLsb' 20 20) < 2 ^ 19) :
    AsksHome s nm.msg (execBuiltinLdv s) .ldv 8 fun r => r.lo = (nm.msg.arg 2).truncate 20 ∧ r.hi = (nm.msg.arg 2).extractLsb' 20 20 :=
  AsksHome.mono (builtinOp_asks hn ok (by omega) rfl nofun (fun _ => ha) rfl fun _ => hv) fun _ ⟨_, _, h⟩ => h
theorem builtinStv_asks (hn : s.net s.occ.a = some nm) (ok : BuiltinOk s nm.msg e .stv 8) (ha : (nm.msg.arg 0).toNat % 8 = 0) :
    AsksHome s nm.msg (execBuiltinStv s) .stv 8 fun r => r.lo = (nm.msg.arg 2).truncate 20 ∧ r.data = leBytes 8 (nm.msg.arg 3).toNat :=
  AsksHome.mono (builtinOp_asks hn ok (by omega) rfl nofun (fun _ => ha) rfl nofun) fun _ ⟨hd, _, hlo, _⟩ => ⟨hlo, hd⟩

/-- The size of an atomic as its message gives it. -/
def Msg.atomBytes (m : Msg) : Nat := if (m.arg 1).getLsbD 6 then 8 else 4
/-- The operation of software's atomic: of its size and aligned, with the operands of its message. -/
theorem builtinAtom_eq {op : Nat} (hn : s.net s.occ.a = some nm) (hs : (nm.msg.arg 1).getLsbD 23 = false)
    (h8 : op = 8 → (nm.msg.arg 1).getLsbD 6 = false) (h9 : op = 9 → (nm.msg.arg 1).getLsbD 6 = true) :
    builtinAtom s op = builtinOp s (.atom op) nm.msg.atomBytes true fun m r =>
      { r with data := leBytes nm.msg.atomBytes ((m.arg 2).toNat % 2 ^ (8 * nm.msg.atomBytes)), cmp := leBytes nm.msg.atomBytes ((m.arg 3).toNat % 2 ^ (8 * nm.msg.atomBytes)) } := by
  have hc : ¬((op = 8 ∧ (nm.msg.arg 1).getLsbD 6 = true) ∨ (op = 9 ∧ (nm.msg.arg 1).getLsbD 6 = false)) := by
    rintro (⟨h, hd⟩ | ⟨h, hd⟩)
    · rw [h8 h] at hd; cases hd
    · rw [h9 h] at hd; cases hd
  unfold builtinAtom
  simp only [hn, if_neg hc, hs, Bool.false_and, Bool.false_eq_true, if_false]
  rfl
theorem builtinAtom_asks {op : Nat} (hn : s.net s.occ.a = some nm) (h8 : op = 8 → (nm.msg.arg 1).getLsbD 6 = false)
    (h9 : op = 9 → (nm.msg.arg 1).getLsbD 6 = true) (ok : BuiltinOk s nm.msg e .atom nm.msg.atomBytes) (ha : (nm.msg.arg 0).toNat % nm.msg.atomBytes = 0) :
    AsksHome s nm.msg (builtinAtom s op) (.atom op) nm.msg.atomBytes fun r =>
      leNat r.data = (nm.msg.arg 2).toNat % 2 ^ (8 * nm.msg.atomBytes) ∧ leNat r.cmp = (nm.msg.arg 3).toNat % 2 ^ (8 * nm.msg.atomBytes) := by
  have h0 : 0 < nm.msg.atomBytes := by unfold Msg.atomBytes; split <;> omega
  rw [builtinAtom_eq hn ok.software h8 h9]
  refine AsksHome.mono (builtinOp_asks hn ok h0 rfl nofun (fun _ => ha) rfl nofun) fun r ⟨hd, hc, _⟩ => ?_
  rw [hd, hc, leNat_leBytes, leNat_leBytes, Nat.mod_mod, Nat.mod_mod]
  exact ⟨rfl, rfl⟩
/-- A misaligned atomic of software fails with ALIGN (cause 4) and its address. -/
theorem builtinAtom_misaligned {op : Nat} (hn : s.net s.occ.a = some nm) (h8 : op = 8 → (nm.msg.arg 1).getLsbD 6 = false)
    (h9 : op = 9 → (nm.msg.arg 1).getLsbD 6 = true) (hs : (nm.msg.arg 1).getLsbD 23 = false) (ha : (nm.msg.arg 0).toNat % nm.msg.atomBytes ≠ 0) :
    ∃ t, builtinAtom s op = .next t ∧ t.mem = s.mem ∧ ((nm.msg.arg 1).getLsbD 22 = false → s.formed t fun x =>
      x.kind = .resume ∧ x.ilen = 3 ∧ x.arg 0 = 4 ∧ x.arg 1 = nm.msg.arg 0) := by
  rw [builtinAtom_eq hn hs h8 h9, builtinOp_misaligned hn hs ha rfl]
  exact ⟨_, rfl, builtinReply_failed hn hs rfl⟩
/-- What an atomic of software does: its access, or ALIGN. -/
theorem builtinAtom_clause {i : Instr} {op : Nat} (hn : s.net s.occ.a = some nm) (hi : exec i s = builtinAtom s op) :
    (op = 8 → (nm.msg.arg 1).getLsbD 6 = false) → (op = 9 → (nm.msg.arg 1).getLsbD 6 = true) →
    ((nm.msg.arg 1).getLsbD 23 = false ∧ 0x50000 ≤ (nm.msg.arg 0).toNat ∧ (nm.msg.arg 0).toNat + nm.msg.atomBytes ≤ 2 ^ 42 ∧
        (nm.msg.arg 0).toNat % 64 + nm.msg.atomBytes ≤ 64 ∧ s.xlHit nm.msg.part (nm.msg.arg 0).toNat = some e ∧ e.mod = s.modid ∧
        regionCheck (s.region nm.msg.part (nm.msg.arg 0).toNat) nm.msg.actor .atom = none → (nm.msg.arg 0).toNat % nm.msg.atomBytes = 0 →
      AsksHome s nm.msg (exec i s) (.atom op) nm.msg.atomBytes fun r =>
        leNat r.data = (nm.msg.arg 2).toNat % 2 ^ (8 * nm.msg.atomBytes) ∧ leNat r.cmp = (nm.msg.arg 3).toNat % 2 ^ (8 * nm.msg.atomBytes)) ∧
    ((nm.msg.arg 1).getLsbD 23 = false → (nm.msg.arg 0).toNat % nm.msg.atomBytes ≠ 0 →
      ∃ t, exec i s = .next t ∧ t.mem = s.mem ∧ ((nm.msg.arg 1).getLsbD 22 = false → s.formed t fun x =>
        x.kind = .resume ∧ x.ilen = 3 ∧ x.arg 0 = 4 ∧ x.arg 1 = nm.msg.arg 0)) := by
  rw [hi]
  exact fun h8 h9 => ⟨fun ok ha => builtinAtom_asks hn h8 h9 (.of ok) ha, fun hs ha => builtinAtom_misaligned hn h8 h9 hs ha⟩
theorem execBuiltinBadop_eq (hn : s.net s.occ.a = some nm) : execBuiltinBadop s = .next (s.badop nm.msg) := by
  unfold execBuiltinBadop
  rw [hn]

end

/-- Settles O47: each operation is the general built-in access of its kind, and an unknown one is answered BADOP. -/
theorem builtinMemoryEvents : Obligations.BuiltinMemoryEvents := by
  unfold Obligations.BuiltinMemoryEvents
  intro s nm e hnum hn
  refine ⟨fun n h hb => ⟨fun ok => ⟨?_, ?_⟩, fun ok => ?_⟩, fun ok => ?_, fun ok hl => ?_, fun ok ha hv => ?_, fun ok ha => ?_, ?_, fun _ hr => ?_⟩
  · exact builtinLoad_asks hn h hb rfl nofun (.of ok)
  · exact builtinLoad_asks hn h hb rfl nofun (.of ok)
  · exact builtinStore_asks hn h hb (.of ok)
  · exact builtinLoad32_asks hn (.of ok)
  · exact builtinStore32_asks hn (.of ok) hl
  · exact builtinLdv_asks hn (.of ok) ha hv
  · exact builtinStv_asks hn (.of ok) ha
  · have hi : ∀ x ∈ [(Instr.builtinAtomAdd, 0), (.builtinAtomAnd, 1), (.builtinAtomOr, 2), (.builtinAtomXor, 3), (.builtinAtomSmin, 4),
        (.builtinAtomSmax, 5), (.builtinAtomSwap, 6), (.builtinAtomCas, 7), (.builtinAtomFaddF32, 8), (.builtinAtomFaddF64, 9)],
        exec x.1 s = builtinAtom s x.2 := by
      simp only [List.forall_mem_cons, List.not_mem_nil, false_implies, implies_true, and_true]
      exact ⟨rfl, rfl, rfl, rfl, rfl, rfl, rfl, rfl, rfl, rfl⟩
    exact fun x hx => builtinAtom_clause hn (hi x hx)
  · exact ⟨_, execBuiltinBadop_eq hn, badop_formed (hnum _ (State.net_mem hn)) hr⟩

/-! ### Messages at their destination (spec 02 R53, R55, R60, R64, R68, R70; 16 R420; 17 R431, R432) -/

/-- What has come due behind the events of s is due. -/
theorem dues_of_append {s t : State} {l : List (Instr × Occ)} {i : Instr} {a b c : Nat} (h : t.agenda = s.agenda ++ l)
    (hm : (i, ({ a := a, b := b, c := c } : Occ)) ∈ l) : s.dues t i a b c := by
  unfold State.dues
  rw [h, List.drop_left]
  exact hm
@[simp] theorem State.stream_setStream_same (s : State) (k : Nat) (x : Stream) : (s.setStream k x).stream k = x := by
  simp only [State.stream, State.setStream, tget_tset_same, Option.getD_some]
@[simp] theorem State.setStream_setStream (s : State) (k : Nat) (x y : Stream) : (s.setStream k x).setStream k y = s.setStream k y := by
  simp only [State.setStream, tset_tset]

/-- No skipped ORD is passed where none is known. -/
theorem passSkips_nil (n : Nat) {x : Stream} (h : x.skips = []) : passSkips n x = x := by
  cases n with
  | zero => rfl
  | succ n =>
    rw [passSkips, h]
    rfl
/-- One skipped ORD is passed where it is the expected one. -/
theorem passSkips_one (n : Nat) {x : Stream} {b : Nat} (h : x.skips = [b]) :
    passSkips (n + 1) x = if b = x.expect then { x with expect := (x.expect + 1) % 256, skips := [] } else x := by
  by_cases e : b = x.expect
  · rw [passSkips, if_pos e, h, if_pos (by simp [e]), passSkips_nil n (by simp [e])]
    simp [e]
  · rw [passSkips, if_neg e, h, if_neg (by simp [Ne.symm e])]
/-- With no message held, the stream goes past its skipped ORDs and nothing comes due. -/
theorem nextHeld_eq {s : State} {k : Nat} (h : (passSkips 256 (s.stream k)).held = []) : s.nextHeld k = s.setStream k (passSkips 256 (s.stream k)) := by
  unfold State.nextHeld
  simp only [h, List.find?_nil]
/-- With no message held and no ORD skipped, the next ORD is expected. -/
theorem advance_eq {s : State} {k : Nat} (hh : (s.stream k).held = []) (hs : (s.stream k).skips = []) :
    s.advance k = s.setStream k { s.stream k with expect := ((s.stream k).expect + 1) % 256 } := by
  unfold State.advance
  have hp := passSkips_nil 256 (x := { s.stream k with expect := ((s.stream k).expect + 1) % 256 }) hs
  rw [nextHeld_eq (by rw [State.stream_setStream_same, hp]; exact hh), State.stream_setStream_same, hp, State.setStream_setStream]

/-- The answer of the destination: nothing of cores, contexts, memory and streams changes by it. -/
structure Answered (s t : State) (nm : NetMsg) : Prop where
  mem : t.mem = s.mem
  cores : t.cores = s.cores
  ctxs : t.ctxs = s.ctxs
  streams : t.fab.streams = s.fab.streams
  agenda : ∃ x, t.agenda = s.agenda ++ [x] ∧ (s.foreign nm.msg = true → x = (.ackFlitArrival, { a := nm.msg.no, b := nm.stream, c := nm.msg.noord.toNat }))
  flit : s.foreign nm.msg = false → ∃ f ∈ t.fab.flits, f.kind = .ack ∧ f.msg = nm.msg.no ∧ f.dest = routerOf nm.msg.source
theorem answerFlit_answered (s : State) (nm : NetMsg) : Answered s (s.answerFlit nm true) nm := by
  unfold State.answerFlit
  by_cases h : s.foreign nm.msg = true
  · simp only [h, if_true]
    exact ⟨rfl, rfl, rfl, rfl, ⟨_, rfl, fun _ => rfl⟩, fun h' => absurd (h.symm.trans h') nofun⟩
  · simp only [h]
    exact ⟨rfl, rfl, rfl, rfl, ⟨_, rfl, fun h' => absurd h' h⟩, fun _ => ⟨_, List.mem_append_right _ (List.mem_singleton_self _), rfl, rfl, rfl⟩⟩

section
variable {s t : State} {nm : NetMsg}

/-- The message of the expected ORD, once its destination took it: the stream goes on, and the destination answers. -/
theorem messageArrival_took (hn : s.net s.occ.a = some nm) (hp : nm.ph = .flying) (ho : nm.msg.noord = false) (he : nm.ord = (s.stream nm.stream).expect)
    (ht : s.takeMsg nm = .ok t) : execMessageArrival s = .next ((t.advance nm.stream).answerFlit nm true) := by
  unfold execMessageArrival
  simp only [hn, hp, ho, ne_eq, not_true_eq_false, if_false, Bool.false_eq_true, ← he, if_true, ht]
/-- What the acceptance of a message leaves: the next ORD is expected, and the rest is as its taking left it. -/
theorem took_answered (hm : t.mem = s.mem) (hs : t.fab.streams = s.fab.streams) (hi : t.modid = s.modid) {l : List (Instr × Occ)} (ha : t.agenda = s.agenda ++ l)
    (hh : (s.stream nm.stream).held = []) (hk : (s.stream nm.stream).skips = []) :
    let u := (t.advance nm.stream).answerFlit nm true
    u.mem = s.mem ∧ u.cores = t.cores ∧ u.ctxs = t.ctxs ∧ (u.stream nm.stream).expect = ((s.stream nm.stream).expect + 1) % 256 ∧
      (∃ x, u.agenda = s.agenda ++ (l ++ [x]) ∧ (s.foreign nm.msg = true → x = (.ackFlitArrival, { a := nm.msg.no, b := nm.stream, c := nm.msg.noord.toNat }))) ∧
      (s.foreign nm.msg = false → ∃ f ∈ u.fab.flits, f.kind = .ack ∧ f.msg = nm.msg.no ∧ f.dest = routerOf nm.msg.source) := by
  have hx : t.stream nm.stream = s.stream nm.stream := by simp only [State.stream, hs]
  have hf : ∀ m, t.foreign m = s.foreign m := fun m => by simp only [State.foreign, hi]
  rw [advance_eq (hx ▸ hh) (hx ▸ hk)]
  obtain ⟨mem, cores, ctxs, streams, ⟨x, ag, fx⟩, flit⟩ := answerFlit_answered (t.setStream nm.stream { t.stream nm.stream with expect := ((t.stream nm.stream).expect + 1) % 256 }) nm
  refine ⟨mem.trans hm, cores, ctxs, ?_, ⟨x, ?_, fun h => fx ((hf _).trans h)⟩, fun h => flit ((hf _).trans h)⟩
  · rw [State.stream, streams, ← State.stream, State.stream_setStream_same, hx]
  · rw [ag, State.setStream_agenda, ha, List.append_assoc]

/-- A core in partition, alive and with room takes a spawn of the system or of its launch's own work into its mailbox. -/
theorem takeMsg_spawn (hc : localOf nm.msg.dest < 768) (hp : s.partOf (localOf nm.msg.dest) = some nm.msg.part) (hm : nm.msg.malformed = false)
    (hd : s.deadAt (localOf nm.msg.dest) nm.msg.part nm.msg.scope = false) (hr : (s.core (localOf nm.msg.dest)).run = .inn)
    (hroom : s.hasRoom (localOf nm.msg.dest) nm.msg = true) (hk : nm.msg.kind = .spawn) (hl : s.launchOf nm.msg.part nm.msg.scope = none) :
    s.takeMsg nm = .ok (s.takeStart (localOf nm.msg.dest) nm) := by
  unfold State.takeMsg State.coreTake
  simp only [if_neg (show ¬1024 ≤ localOf nm.msg.dest by omega), if_neg (show ¬885 ≤ localOf nm.msg.dest by omega),
    if_neg (show ¬768 ≤ localOf nm.msg.dest by omega), hp, hm, hd, hr, hroom, hk, hl, ne_eq, not_true_eq_false, if_false, Bool.false_eq_true, Option.any_none, if_true]
/-- A spawn stands at the end of the mailbox, and a handler start is due. -/
theorem takeStart_spawn {core : Nat} (hk : nm.msg.kind = .spawn) :
    s.takeStart core nm = ((({ s with nextNo := s.nextNo + 1 } : State).delNet nm.msg.no).onCore core fun c =>
      { c with mailbox := c.mailbox ++ [{ nm.msg with came := s.nextNo }] }).due .handlerStart core := by
  have ht : ({ nm.msg with came := s.nextNo } : Msg).threadRank = none := if_neg (by simp [hk])
  unfold State.takeStart State.fresh
  simp only [ht]
/-- A core in partition, alive and with room takes a resume. -/
theorem takeMsg_resume (hc : localOf nm.msg.dest < 768) (hp : s.partOf (localOf nm.msg.dest) = some nm.msg.part) (hm : nm.msg.malformed = false)
    (hd : s.deadAt (localOf nm.msg.dest) nm.msg.part nm.msg.scope = false) (hr : (s.core (localOf nm.msg.dest)).run = .inn)
    (hroom : s.hasRoom (localOf nm.msg.dest) nm.msg = true) (hk : nm.msg.kind = .resume) (hw : nm.msg.hw = false) :
    s.takeMsg nm = .ok (s.takeResume (localOf nm.msg.dest) nm) := by
  unfold State.takeMsg State.coreTake
  simp only [if_neg (show ¬1024 ≤ localOf nm.msg.dest by omega), if_neg (show ¬885 ≤ localOf nm.msg.dest by omega),
    if_neg (show ¬768 ≤ localOf nm.msg.dest by omega), hp, hm, hd, hr, hroom, hk, hw, ne_eq, not_true_eq_false, if_false, Bool.false_eq_true, if_true]
/-- The lowest WAITING context that a resume matches takes it. -/
theorem takeResume_wakes {core w : Nat} (h : (List.range 16).find? (fun w => (s.ctx core w).st == .waiting && (s.ctx core w).takes nm.msg) = some w) :
    s.takeResume core nm = ((s.received core nm.msg).delNet nm.msg.no).wake core w { nm.msg with counted := true } := by
  have hc : ∀ w, ((s.received core nm.msg).delNet nm.msg.no).ctx core w = s.ctx core w := fun w => (received_kept s core nm.msg).ctx core w
  unfold State.takeResume
  simp only [hc]
  rw [show (List.range 16).find? (fun w => (s.ctx core w).st == .waiting && (s.ctx core w).takes { nm.msg with counted := true }) = some w from h]
@[simp] theorem Ctx.gv_setG_same (c : Ctx) (r : BitVec 4) (v : Word) : (c.setG r v).gv r = v := by
  simp [Ctx.gv, Ctx.gr, Ctx.setG, Ctx.setGT]
/-- The status word of a resume stands in the register of its recv. -/
theorem gv_consume (c : Ctx) (m : Msg) : (c.consume m).gv c.recv.rd = statusWord m := by
  unfold Ctx.consume
  split <;> exact Ctx.gv_setG_same ..

/-- A spawn of the expected ORD goes into the mailbox, and its source is answered. -/
theorem messageArrival_spawn (hn : s.net s.occ.a = some nm) (hf : nm.ph = .flying) (ho : nm.msg.noord = false) (he : nm.ord = (s.stream nm.stream).expect)
    (hh : (s.stream nm.stream).held = []) (hk : (s.stream nm.stream).skips = []) (hs : nm.msg.kind = .spawn)
    (ht : s.takeMsg nm = .ok (s.takeStart (localOf nm.msg.dest) nm)) :
    ∃ t, execMessageArrival s = .next t ∧ t.mem = s.mem ∧
      (t.core (localOf nm.msg.dest)).mailbox = (s.core (localOf nm.msg.dest)).mailbox ++ [{ nm.msg with came := s.nextNo }] ∧
      (t.stream nm.stream).expect = ((s.stream nm.stream).expect + 1) % 256 ∧ s.dues t .handlerStart (localOf nm.msg.dest) ∧
      (s.foreign nm.msg = true → s.dues t .ackFlitArrival nm.msg.no nm.stream) ∧
      (s.foreign nm.msg = false → ∃ f ∈ t.fab.flits, f.kind = .ack ∧ f.msg = nm.msg.no ∧ f.dest = routerOf nm.msg.source) := by
  rw [takeStart_spawn hs] at ht
  obtain ⟨mem, cores, -, hx, ⟨x, ag, fx⟩, flit⟩ := took_answered (nm := nm) (s := s)
    (t := ((({ s with nextNo := s.nextNo + 1 } : State).delNet nm.msg.no).onCore (localOf nm.msg.dest) fun c =>
      { c with mailbox := c.mailbox ++ [{ nm.msg with came := s.nextNo }] }).due .handlerStart (localOf nm.msg.dest)) rfl rfl rfl (l := [_]) rfl hh hk
  refine ⟨_, messageArrival_took hn hf ho he ht, mem, ?_, hx, dues_of_append ag (List.mem_cons_self ..), fun h => dues_of_append ag ?_, flit⟩
  · rw [State.core, cores]
    exact congrArg Core.mailbox (State.core_setCore_same ..)
  · rw [fx h, ho]
    exact List.mem_cons_of_mem _ (List.mem_singleton_self _)
theorem State.ctx_of_ctxs {s t : State} (h : t.ctxs = s.ctxs) (core k : Nat) : t.ctx core k = s.ctx core k := by simp only [State.ctx, h]
theorem State.ctx_wake_same (s : State) (core k : Nat) (m : Msg) : (s.wake core k m).ctx core k = { (s.ctx core k).consume m with st := .ready } :=
  State.ctx_setCtx_same ..
theorem received_streams (s : State) (u : Nat) (m : Msg) : (s.received u m).fab.streams = s.fab.streams := by
  unfold State.received
  split <;> rfl
theorem received_modid (s : State) (u : Nat) (m : Msg) : (s.received u m).modid = s.modid := by
  unfold State.received
  split <;> rfl
theorem received_agenda (s : State) (u : Nat) (m : Msg) : (s.received u m).agenda = s.agenda := by
  unfold State.received
  split <;> rfl
/-- A resume of the expected ORD wakes the lowest WAITING context that it matches. -/
theorem messageArrival_resume {w : Nat} (hn : s.net s.occ.a = some nm) (hf : nm.ph = .flying) (ho : nm.msg.noord = false)
    (he : nm.ord = (s.stream nm.stream).expect) (hh : (s.stream nm.stream).held = []) (hk : (s.stream nm.stream).skips = [])
    (hw : (List.range 16).find? (fun w => (s.ctx (localOf nm.msg.dest) w).st == .waiting && (s.ctx (localOf nm.msg.dest) w).takes nm.msg) = some w)
    (ht : s.takeMsg nm = .ok (s.takeResume (localOf nm.msg.dest) nm)) :
    ∃ t, execMessageArrival s = .next t ∧ t.mem = s.mem ∧ (t.ctx (localOf nm.msg.dest) w).st = .ready ∧
      (t.stream nm.stream).expect = ((s.stream nm.stream).expect + 1) % 256 ∧
      (t.ctx (localOf nm.msg.dest) w).gv (s.ctx (localOf nm.msg.dest) w).recv.rd = statusWord nm.msg := by
  rw [takeResume_wakes hw] at ht
  obtain ⟨mem, -, ctxs, hx, -, -⟩ := took_answered (nm := nm) (s := s)
    (t := ((s.received (localOf nm.msg.dest) nm.msg).delNet nm.msg.no).wake (localOf nm.msg.dest) w { nm.msg with counted := true })
    (received_kept s (localOf nm.msg.dest) nm.msg).mem (received_streams s (localOf nm.msg.dest) nm.msg)
    (received_modid s (localOf nm.msg.dest) nm.msg) (l := []) (by rw [List.append_nil]; exact received_agenda s (localOf nm.msg.dest) nm.msg) hh hk
  have hc := (State.ctx_of_ctxs ctxs (localOf nm.msg.dest) w).trans (State.ctx_wake_same ..)
  have hs : ((s.received (localOf nm.msg.dest) nm.msg).delNet nm.msg.no).ctx (localOf nm.msg.dest) w = s.ctx (localOf nm.msg.dest) w :=
    (received_kept s (localOf nm.msg.dest) nm.msg).ctx ..
  rw [hs] at hc
  refine ⟨_, messageArrival_took hn hf ho he ht, mem, ?_, hx, ?_⟩
  · rw [hc]
  · rw [hc]
    exact gv_consume (s.ctx (localOf nm.msg.dest) w) { nm.msg with counted := true }
/-- A message of a later ORD is held in the reorder buffer while it has room. -/
theorem messageArrival_held (hn : s.net s.occ.a = some nm) (hf : nm.ph = .flying) (ho : nm.msg.noord = false) (he : nm.ord ≠ (s.stream nm.stream).expect)
    (hh : ((s.stream nm.stream).held.any fun h => h.1 == nm.ord) = false) (hr : s.reorderUsed (s.streamHedge nm.stream) < 64) :
    execMessageArrival s = .next (s.setStream nm.stream { s.stream nm.stream with held := (s.stream nm.stream).held ++ [(nm.ord, s.occ.a)] }) := by
  unfold execMessageArrival
  simp only [hn, hf, ho, he, hh, hr, ne_eq, not_true_eq_false, if_false, Bool.false_eq_true, if_true, State.net_no hn]

/-! Acknowledgements, refusals and gaps. -/

/-- With no message in the network no stream has one to send. -/
theorem pump_empty {k : Nat} (h : s.fab.msgs = []) : s.pump k = s := by
  unfold State.pump State.pumpIf
  rw [h]
  rfl
/-- The acknowledgement of a message outside the order of streams ends its sending. -/
theorem ackFlitArrival_done (hn : s.net s.occ.a = some nm) (hp : nm.ph = .arrived) (hc : s.occ.c = 1) :
    ∃ t, execAckFlitArrival s = .next t ∧ t.mem = s.mem ∧ ∃ x, t.net s.occ.a = some x ∧ x.ph = .done := by
  refine ⟨s.setNet { nm with ph := .done }, ?_, rfl, { nm with ph := .done }, ?_, rfl⟩
  · unfold execAckFlitArrival
    simp only [hn, hp, hc, if_true]
  · rw [← State.net_no hn]
    exact State.net_setNet (x := { nm with ph := .done }) (y := nm) (by rw [State.net_no hn, hn])
/-- The acknowledgement of a message of a stream frees its place there. -/
theorem ackFlitArrival_freed (hm : s.fab.msgs = []) (hc : s.occ.c = 0) :
    ∃ t, execAckFlitArrival s = .next t ∧ t.mem = s.mem ∧ (t.stream s.occ.b).unacked = (s.stream s.occ.b).unacked - 1 := by
  have hn : s.net s.occ.a = none := by rw [State.net, hm]; rfl
  refine ⟨s.setStream s.occ.b { s.stream s.occ.b with unacked := (s.stream s.occ.b).unacked - 1 }, ?_, rfl, by simp⟩
  unfold execAckFlitArrival
  simp only [hn, hc]
  rw [if_neg (by decide), pump_empty]
  exact hm
/-- A refused message waits to be sent again, one try older. -/
theorem nackFlitArrival_eq (hn : s.net s.occ.a = some nm) (ht : nm.msg.tries < 63) :
    execNackFlitArrival s = .next ((s.setNet { nm with ph := .retry, msg := { nm.msg with tries := nm.msg.tries + 1 } }).later .nackRetry s.occ.a) := by
  unfold execNackFlitArrival
  simp only [hn]
  rw [if_neg (by omega), if_neg (by omega), State.net_no hn]
theorem nackFlitArrival_waits (hn : s.net s.occ.a = some nm) (ht : nm.msg.tries < 63) :
    ∃ t, execNackFlitArrival s = .next t ∧ t.mem = s.mem ∧ (.nackRetry, { a := s.occ.a }) ∈ t.timers ∧
      ∃ x, t.net s.occ.a = some x ∧ x.ph = .retry ∧ x.msg = { nm.msg with tries := nm.msg.tries + 1 } := by
  refine ⟨_, nackFlitArrival_eq hn ht, rfl, List.mem_append_right _ (List.mem_singleton_self _),
    { nm with ph := .retry, msg := { nm.msg with tries := nm.msg.tries + 1 } }, ?_, rfl, rfl⟩
  rw [← State.net_no hn]
  exact State.net_setNet (s := s) (x := { nm with ph := .retry, msg := { nm.msg with tries := nm.msg.tries + 1 } }) (y := nm) (by rw [State.net_no hn, hn])
/-- The retry of a message whose ports grant it, and before which none of its stream is under retry, sends it again. -/
theorem nackRetry_eq (hn : s.net s.occ.a = some nm) (hr : nm.ph = .retry) (ho : s.msgOpen nm.msg = true)
    (hf : nm.msg.noord = false → s.fab.msgs.filter (fun x => x.ph == .retry && !x.msg.noord && x.stream == nm.stream) = [nm]) :
    execNackRetry s = .next (s.resend nm) := by
  have ha : resendAll s [nm] = s.resend nm := by
    rw [resendAll, if_neg (by rw [ho]; nofun)]
    rfl
  unfold execNackRetry
  simp only [hn, hr, ne_eq, not_true_eq_false, if_false]
  cases h : nm.msg.noord with
  | true => rw [if_pos rfl, ha]
  | false =>
    simp only [hf h, List.foldl_cons, List.foldl_nil, insertOrd, List.head?_cons, Option.map_some, if_true, Bool.false_eq_true, if_false, ha]
/-- A message without MERGE that is sent again is on its way, under its ORD. -/
theorem resend_flying (hn : s.net s.occ.a = some nm) (hm : nm.msg.merge = false) :
    (s.resend nm).mem = s.mem ∧ ∃ x, (s.resend nm).net s.occ.a = some x ∧ x.ph = .flying ∧ x.msg = nm.msg ∧ x.ord = nm.ord := by
  unfold State.resend
  split
  · refine ⟨(charge_kept ..).mem, { nm with ph := .flying }, ?_, rfl, rfl, rfl⟩
    rw [← State.net_no hn]
    refine State.net_setNet (x := { nm with ph := .flying }) (y := nm) ?_
    rw [(charge_msgs ..).net, State.net_no hn, hn]
  · obtain ⟨y, hy, hp, -, hord, hk⟩ := transport_msgs s hm
    refine ⟨(transport_kept ..).mem, y, ?_, hp, hy, hord⟩
    rw [hk.net, ← State.net_no hn, ← hy]
    exact State.net_setNet (y := nm) (by rw [hy, State.net_no hn, hn])
/-- Data of a message that were lost on the torus are sent again, under its ORD. -/
theorem sidebandResend_eq (hn : s.net s.occ.a = some nm) (hf : nm.ph = .flying) (hg : nm.got ≠ nm.flits) (ho : s.msgOpen nm.msg = true) :
    execSidebandResend s = .next (({ s with fab := { s.fab with flits := s.fab.flits.filter fun f => f.msg != nm.msg.no || f.kind != .data } } : State).transport nm) := by
  unfold execSidebandResend
  simp only [hn, hf, hg, ho, ne_eq, not_true_eq_false, or_self, if_false, Bool.true_eq_false]
theorem sidebandResend_flying (hn : s.net s.occ.a = some nm) (hf : nm.ph = .flying) (hg : nm.got ≠ nm.flits) (hm : nm.msg.merge = false)
    (ho : s.msgOpen nm.msg = true) : ∃ t, execSidebandResend s = .next t ∧ t.mem = s.mem ∧
      ∃ x, t.net s.occ.a = some x ∧ x.ph = .flying ∧ x.got = 0 ∧ x.ord = nm.ord := by
  have he := sidebandResend_eq hn hf hg ho
  obtain ⟨y, hy, hp, hgot, hord, hk⟩ :=
    transport_msgs { s with fab := { s.fab with flits := s.fab.flits.filter fun f => f.msg != nm.msg.no || f.kind != .data } } hm
  refine ⟨_, he, (transport_kept ..).mem, y, ?_, hp, hgot, hord⟩
  rw [hk.net, ← State.net_no hn, ← hy]
  exact State.net_setNet (y := nm) (by rw [hy, State.net_no hn]; exact hn)
/-- A SKIP closes the gap it stands for, or waits until its ORD is expected. -/
theorem skipFlitArrival_eq (hh : (s.stream s.occ.a).held = []) (hk : (s.stream s.occ.a).skips = []) :
    execSkipFlitArrival s = .next (s.setStream s.occ.a
      (if s.occ.b = (s.stream s.occ.a).expect then { s.stream s.occ.a with expect := ((s.stream s.occ.a).expect + 1) % 256, skips := [] }
       else { s.stream s.occ.a with skips := [s.occ.b] })) := by
  have hp := passSkips_one 255 (x := { s.stream s.occ.a with skips := [s.occ.b] }) rfl
  unfold execSkipFlitArrival
  simp only [hk, List.nil_append]
  rw [nextHeld_eq, State.stream_setStream_same, hp, State.setStream_setStream]
  rw [State.stream_setStream_same, hp]
  split <;> exact hh
/-- A thread rank whose moving is over stands at its new core. -/
theorem migrateComplete_eq {c : Nat} (hr : s.holder (BitVec.ofNat 24 s.occ.b) = some (c, true))
    (hm : ∀ x ∈ s.fab.msgs, x.msg.forThread (BitVec.ofNat 24 s.occ.b) = true → x.msg.via = none)
    (hc : ∀ x ∈ s.cores, x.1 ≠ s.occ.c → (∀ m ∈ x.2.mailbox, m.forThread (BitVec.ofNat 24 s.occ.b) = false) ∧
      ∀ y ∈ x.2.spilled, y.1.forThread (BitVec.ofNat 24 s.occ.b) = false) :
    execMigrateComplete s = .next { s with fab := { s.fab with ranks := tset s.fab.ranks (localOf (BitVec.ofNat 24 s.occ.b)) (s.occ.c, false) } } := by
  have ha : (s.cores.filter fun x => x.1 != s.occ.c && (x.2.mailbox.any (Msg.forThread · (BitVec.ofNat 24 s.occ.b)) ||
      x.2.spilled.any fun y => y.1.forThread (BitVec.ofNat 24 s.occ.b))) = [] := by
    refine List.filter_eq_nil_iff.2 fun x hx h => ?_
    simp only [Bool.and_eq_true, bne_iff_ne, Bool.or_eq_true, List.any_eq_true] at h
    obtain ⟨hne, ⟨m, hm', h⟩ | ⟨y, hy, h⟩⟩ := h
    · exact absurd (h.symm.trans ((hc x hx hne).1 m hm')) nofun
    · exact absurd (h.symm.trans ((hc x hx hne).2 y hy)) nofun
  have hv : (s.fab.msgs.any fun x => x.msg.via.isSome && x.msg.forThread (BitVec.ofNat 24 s.occ.b) && x.ph != .done) = false := by
    refine List.any_eq_false.2 fun x hx h => ?_
    simp only [Bool.and_eq_true] at h
    obtain ⟨⟨hs, ht⟩, -⟩ := h
    rw [hm x hx ht] at hs
    cases hs
  unfold execMigrateComplete
  simp only [hr, ha, hv, List.isEmpty_nil, Bool.not_true, Bool.or_self, Bool.false_eq_true, if_false]

end

/-! ### The torus (spec 17 R427 to R430) -/

/-- A flit leaves a router's queues for an interface: contexts and memory stay. -/
theorem eject_kept (s : State) (f : Flit) (came : List NetMsg) : NetKept s (s.eject f came).1 := by
  unfold State.eject
  split
  · exact .of_eq rfl rfl rfl rfl
  · exact .of_eq rfl rfl rfl rfl
  · exact .of_eq rfl rfl rfl rfl
  · split <;> exact .of_eq rfl rfl rfl rfl
theorem ejectFlits_kept (s : State) (n : Nat) (l keep : List Flit) (came : List NetMsg) : NetKept s (ejectFlits s n l keep came).1 := by
  induction l generalizing s n keep came with
  | nil => exact .refl s
  | cons f r ih =>
    unfold ejectFlits
    split
    · exact (eject_kept ..).trans (ih ..)
    · exact ih ..
/-- Events that come due one after another change neither contexts nor memory. -/
theorem foldl_due_kept {α : Type} (i : Instr) (f : α → Nat) (l : List α) (s : State) : NetKept s (l.foldl (fun s x => s.due i (f x)) s) :=
  .foldl (f := fun s x => s.due i (f x)) (fun _ _ => .of_eq rfl rfl rfl rfl) ..
/-- The end of a router's cycle: flits move out, others wait, and the events of the next cycle are due. -/
def State.flitsOut (s : State) (r : Nat) (moved : List (Flit × Nat)) (later waits : List Flit) (quiet hungry : Nat) : State :=
  let s := { s with fab := { s.fab with flits := s.fab.flits ++ (moved.map fun x => x.1.move x.2) ++ later ++ waits,
                                        hungry := if hungry = 64 then tdel s.fab.hungry r else if hungry = 0 then tdel s.fab.hungry r else tset s.fab.hungry r hungry,
                                        starving := if quiet ≤ 1 then tdel s.fab.starving r else tset s.fab.starving r (quiet - 1) } }
  let s := if hungry = 64 then s.due .starveSignal r else s
  let s := (moved.map fun x => neighbour r x.2).eraseDups.foldl (fun s n => s.due .flitArrival n) s
  if later.isEmpty && waits.isEmpty then s else s.due .flitArrival r
theorem flitsOut_kept (s : State) (r : Nat) (moved : List (Flit × Nat)) (later waits : List Flit) (quiet hungry : Nat) :
    NetKept s (s.flitsOut r moved later waits quiet hungry) := by
  unfold State.flitsOut
  extract_lets fab s1 s2 s3
  have h1 : NetKept s s1 := .of_eq rfl rfl rfl rfl
  have h2 : NetKept s1 s2 := by
    unfold s2
    split <;> exact .of_eq rfl rfl rfl rfl
  have h3 : NetKept s2 s3 := foldl_due_kept ..
  have h := (h1.trans h2).trans h3
  split
  · exact h
  · exact h.trans (.of_eq rfl rfl rfl rfl)
/-- A cycle of a router always ends, and changes no context and no memory. -/
theorem flitArrival_kept (s : State) : ∃ t, execFlitArrival s = .next t ∧ NetKept s t := by
  unfold execFlitArrival
  extract_lets r here
  split
  · exact ⟨_, rfl, .refl s⟩
  next up own come later fab s0 h =>
    have hs : NetKept s s0 := .of_eq rfl rfl rfl rfl
    have h0 := ejectFlits_kept s0 0 ((come ++ own.filter fun f => f.dest == r).foldl (fun l f => insertFlit s0 f l) []) [] []
    generalize ejectFlits s0 0 ((come ++ own.filter fun f => f.dest == r).foldl (fun l f => insertFlit s0 f l) []) [] [] = p at h0 ⊢
    obtain ⟨s1, keep, came⟩ := p
    dsimp only at h0 ⊢
    generalize routeFlits up (keep.filter fun f => f.port != 4) = q
    obtain ⟨fit, rest, left⟩ := q
    dsimp only
    have h1 := hs.trans h0
    -- whether a waiting flit is injected or not
    split
    all_goals
      refine ⟨_, rfl, h1.trans ?_⟩
      exact (foldl_due_kept .messageArrival (fun x => x.msg.no) (came.foldl (fun l x => insertCame x l) []) s1).trans (flitsOut_kept ..)

/-- The flits of a router whose only one came through a link, while every link is up: it comes, alone. -/
theorem arriving_single {f : Flit} (h : f.port < 4) : arriving 4 [f] = [f] := by
  unfold arriving
  obtain h | h | h | h : f.port = 0 ∨ f.port = 1 ∨ f.port = 2 ∨ f.port = 3 := by omega
  all_goals simp [h, List.range_succ]
/-- A flit of the interface of its router does not come through a link. -/
theorem arriving_own {n : Nat} {f : Flit} (h : f.port = 4) : arriving n [f] = [] := by
  unfold arriving
  simp [h, List.range_succ]

/-- The state without the flits of a router. -/
def State.dropFlits (s : State) (r : Nat) : State := { s with fab := { s.fab with flits := s.fab.flits.filter fun f => f.at_ != r } }
/-- The only flit of a router is there. -/
theorem at_of_single {l : List Flit} {r : Nat} {f : Flit} (h : l.filter (fun f => f.at_ == r) = [f]) : f.at_ = r := by
  have hm : f ∈ l.filter fun f => f.at_ == r := h ▸ List.mem_singleton_self f
  simpa using (List.mem_filter.1 hm).2

section
variable {s : State} {f : Flit}

/-- The one flit of a router comes through its link, all links being up, or goes to an interface of the same router: none is behind it on its link, and none
waits to be injected. -/
theorem single_arrives {n r : Nat} {here : List Flit} (hh : here = [f]) (hp : (f.port = 4 ∧ f.dest = r) ∨ (f.port < 4 ∧ n = 4)) :
    (arriving n here ++ (here.filter fun f => f.port == 4).filter fun f => f.dest == r) = [f] ∧
    (here.filter fun g => g.port != 4 && !(arriving n here).contains g) = [] ∧ ((here.filter fun f => f.port == 4).filter fun f => f.dest != r) = [] := by
  subst hh
  obtain ⟨hp, hd⟩ | ⟨hp, rfl⟩ := hp
  · simp [arriving_own hp, hp, hd]
  · simp [arriving_single hp, hp.ne]
/-- The cycle of a router with one flit, once it is known which flits leave and which move. -/
theorem flitArrival_single {s1 : State} {keep : List Flit} {came : List NetMsg} {fit : List (Flit × Nat)} {left : List Nat}
    (hh : s.fab.flits.filter (fun f => f.at_ == s.occ.a) = [f]) (hp : (f.port = 4 ∧ f.dest = s.occ.a) ∨ (f.port < 4 ∧ s.fab.links = []))
    (hq : ejectFlits (s.dropFlits s.occ.a) 0 [f] [] [] = (s1, keep, came)) (hk : (keep.filter fun f => f.port == 4) = [])
    (hr : routeFlits ((List.range 4).filter fun p => !s.fab.links.contains (s.occ.a, p)) (keep.filter fun f => f.port != 4) = (fit, [], left)) :
    ∃ quiet, execFlitArrival s = .next
      (((came.foldl (fun l x => insertCame x l) []).foldl (fun s x => s.due .messageArrival x.msg.no) s1).flitsOut s.occ.a fit [] [] quiet 0) := by
  have hn : (f.port = 4 ∧ f.dest = s.occ.a) ∨ (f.port < 4 ∧ ((List.range 4).filter fun p => !s.fab.links.contains (s.occ.a, p)).length = 4) :=
    hp.imp_right fun ⟨h, hl⟩ => ⟨h, by rw [hl]; rfl⟩
  obtain ⟨hcome, hlater, hown⟩ := single_arrives hh hn
  unfold execFlitArrival
  extract_lets r here
  rw [if_neg (by rw [show here = [f] from hh]; exact Bool.false_ne_true)]
  rename_i up own come later fab s0
  rw [show come ++ (own.filter fun f => f.dest == r) = [f] from hcome, show ejectFlits s0 0 ([f].foldl (fun l f => insertFlit s0 f l) []) [] [] = (s1, keep, came) from hq]
  dsimp only
  rw [hr, hk, show (own.filter fun f => f.dest != r) = [] from hown, show later = [] from hlater]
  simp only [List.append_nil, List.zip_nil_left, List.find?_nil, Option.isSome_none, Option.isNone_none, Bool.or_true, if_true]
  unfold State.flitsOut
  simp only [List.append_nil]
  exact ⟨_, rfl⟩
/-- The one flit of its router, addressed here: it leaves the torus, and nothing else moves. -/
theorem flitArrival_ejects {s1 : State} {came : List NetMsg} (hh : s.fab.flits.filter (fun f => f.at_ == s.occ.a) = [f]) (hd : f.dest = s.occ.a)
    (hp : f.port = 4 ∨ (f.port < 4 ∧ s.fab.links = [])) (hc : s.canEject f = true) (he : (s.dropFlits s.occ.a).eject f [] = (s1, came)) : ∃ quiet, execFlitArrival s = .next
      (((came.foldl (fun l x => insertCame x l) []).foldl (fun s x => s.due .messageArrival x.msg.no) s1).flitsOut s.occ.a [] [] [] quiet 0) := by
  refine flitArrival_single (left := _) (keep := []) hh (hp.imp_left fun h => ⟨h, hd⟩) ?_ rfl rfl
  unfold ejectFlits
  rw [if_pos ⟨hd.trans (at_of_single hh).symm, by omega, hc⟩, he]
  rfl
/-- The productive ports of a flit are ports of the torus. -/
theorem productive_lt {r d p : Nat} (h : p ∈ productive r d) : p < 4 := by
  unfold productive at h
  simp only [List.mem_append, List.mem_ite_nil_right, List.mem_singleton] at h
  omega
/-- The one flit of its router, addressed elsewhere, takes its first productive port while every link is up. -/
theorem flitArrival_moves {p : Nat} (hh : s.fab.flits.filter (fun f => f.at_ == s.occ.a) = [f]) (hd : f.dest ≠ s.occ.a) (hp : f.port < 4)
    (hl : s.fab.links = []) (hw : (productive s.occ.a f.dest).head? = some p) :
    ∃ quiet, execFlitArrival s = .next ((s.dropFlits s.occ.a).flitsOut s.occ.a [(f, p)] [] [] quiet 0) := by
  have ha := at_of_single hh
  obtain ⟨l, hw⟩ := List.head?_eq_some_iff.1 hw
  have hway : f.way (List.range 4) = some p := by
    have hp : p < 4 := productive_lt (hw ▸ List.mem_cons_self ..)
    rw [Flit.way, ha, hw, List.find?_cons, show (List.range 4).contains p = true by simpa using hp]
  have hq : ejectFlits (s.dropFlits s.occ.a) 0 [f] [] [] = (s.dropFlits s.occ.a, [f], []) := by
    unfold ejectFlits
    rw [if_neg fun h => hd (h.1.trans ha)]
    rfl
  refine flitArrival_single (came := []) (left := (List.range 4).filter (· != p)) hh (.inr ⟨hp, hl⟩) hq (by simp [hp.ne]) ?_
  have hf : ([f].filter fun f => f.port != 4) = [f] := by simp [hp.ne]
  have hup : ((List.range 4).filter fun p => !s.fab.links.contains (s.occ.a, p)) = List.range 4 := by rw [hl]; rfl
  rw [hf, hup, routeFlits, hway]
  rfl
/-- Where nothing moves or waits, the flits that were left stay, and nothing more is due. -/
theorem flitsOut_none (s : State) (r quiet : Nat) : (s.flitsOut r [] [] [] quiet 0).fab.flits = s.fab.flits ∧ (s.flitsOut r [] [] [] quiet 0).agenda = s.agenda :=
  ⟨by simp [State.flitsOut], rfl⟩
/-- A flit that moves stands at the next router, where a cycle is due. -/
theorem flitsOut_one (s : State) (r p quiet : Nat) (f : Flit) : (s.flitsOut r [(f, p)] [] [] quiet 0).fab.flits = s.fab.flits ++ [f.move p] ∧
    (s.flitsOut r [(f, p)] [] [] quiet 0).agenda = s.agenda ++ [(.flitArrival, { a := neighbour r p })] :=
  ⟨by simp [State.flitsOut, List.eraseDups, List.eraseDupsBy, List.eraseDupsBy.loop, State.due], rfl⟩
end

theorem tget_foldl_tset (l : List Nat) {t : Table Nat} {x v : Nat} (h : x ∈ l ∨ tget t x = some v) : tget (l.foldl (fun t x => tset t x v) t) x = some v := by
  induction l generalizing t with
  | nil => exact h.resolve_left nofun
  | cons y r ih =>
    refine ih ?_
    by_cases e : x = y
    · exact .inr (e ▸ tget_tset_same ..)
    · rw [tget_tset_ne _ _ _ _ e]
      exact h.imp_left fun hm => (List.mem_cons.1 hm).resolve_left e
/-- What is added unless it is there already is there. -/
theorem mem_append_new {α : Type} [BEq α] [LawfulBEq α] {l new : List α} {x : α} (h : x ∈ new) : x ∈ l ++ new.filter fun x => !l.contains x := by
  by_cases hx : x ∈ l
  · exact List.mem_append_left _ hx
  · exact List.mem_append_right _ (List.mem_filter.2 ⟨h, by simpa using hx⟩)

section
variable {s : State} {f : Flit}

/-- The last flit of a message completes it: it leaves the torus, and the message arrives. -/
theorem flitArrival_completes {nm : NetMsg} (hh : s.fab.flits.filter (fun f => f.at_ == s.occ.a) = [f]) (hd : f.dest = s.occ.a) (hk : f.kind = .data)
    (hp : f.port = 4 ∨ (f.port < 4 ∧ s.fab.links = [])) (hn : s.net f.msg = some nm) (hc : s.canEject f = true) (hg : nm.got + 1 = nm.flits) :
    ∃ t, execFlitArrival s = .next t ∧ t.mem = s.mem ∧ t.fab.flits = s.fab.flits.filter (fun f => f.at_ != s.occ.a) ∧ s.dues t .messageArrival f.msg := by
  have he : (s.dropFlits s.occ.a).eject f [] = ((s.dropFlits s.occ.a).setNet { nm with got := nm.got + 1 }, [{ nm with got := nm.got + 1 }]) := by
    unfold State.eject
    rw [hk]
    dsimp only
    rw [show (s.dropFlits s.occ.a).net f.msg = some nm from hn]
    simp only [hg, if_true, List.nil_append]
  obtain ⟨q, ht⟩ := flitArrival_ejects hh hd hp hc he
  obtain ⟨hf, ha⟩ := flitsOut_none ((([{ nm with got := nm.got + 1 }] : List NetMsg).foldl (fun l x => insertCame x l) []).foldl
    (fun s x => s.due .messageArrival x.msg.no) ((s.dropFlits s.occ.a).setNet { nm with got := nm.got + 1 })) s.occ.a q
  refine ⟨_, ht, (flitsOut_kept ..).mem, hf, dues_of_append (l := [(.messageArrival, { a := f.msg })]) (ha.trans ?_) (List.mem_singleton_self _)⟩
  rw [← State.net_no hn]
  rfl
/-- An answer or a SKIP that leaves the torus has its effect: its event is due. -/
theorem flitArrival_answers (hh : s.fab.flits.filter (fun f => f.at_ == s.occ.a) = [f]) (hd : f.dest = s.occ.a) (hp : f.port = 4) :
    ∃ t, execFlitArrival s = .next t ∧ t.mem = s.mem ∧ (f.kind = .ack → s.dues t .ackFlitArrival f.msg f.stream f.noord.toNat) ∧
      (f.kind = .nack → s.dues t .nackFlitArrival f.msg) ∧ (f.kind = .skip → s.dues t .skipFlitArrival f.stream f.ord) := by
  by_cases hk : f.kind = .data
  · obtain ⟨t, ht, hkept⟩ := flitArrival_kept s
    exact ⟨t, ht, hkept.mem, by rw [hk]; exact ⟨nofun, nofun, nofun⟩⟩
  have hc : s.canEject f = true := by
    unfold State.canEject
    rw [if_neg hk]
  cases hkind : f.kind with
  | data => exact absurd hkind hk
  | ack =>
    obtain ⟨q, ht⟩ := flitArrival_ejects hh hd (.inl hp) hc (came := []) (by unfold State.eject; rw [hkind])
    exact ⟨_, ht, (flitsOut_kept ..).mem, fun _ => dues_of_append (l := [_]) (flitsOut_none _ _ q).2 (List.mem_singleton_self _), nofun, nofun⟩
  | nack =>
    obtain ⟨q, ht⟩ := flitArrival_ejects hh hd (.inl hp) hc (came := []) (by unfold State.eject; rw [hkind])
    exact ⟨_, ht, (flitsOut_kept ..).mem, nofun, fun _ => dues_of_append (l := [_]) (flitsOut_none _ _ q).2 (List.mem_singleton_self _), nofun⟩
  | skip =>
    obtain ⟨q, ht⟩ := flitArrival_ejects hh hd (.inl hp) hc (came := []) (by unfold State.eject; rw [hkind])
    exact ⟨_, ht, (flitsOut_kept ..).mem, nofun, nofun, fun _ => dues_of_append (l := [_]) (flitsOut_none _ _ q).2 (List.mem_singleton_self _)⟩
/-- A flit addressed elsewhere stands one hop nearer, and a cycle of that router is due. -/
theorem flitArrival_hops {p : Nat} (hh : s.fab.flits.filter (fun f => f.at_ == s.occ.a) = [f]) (hd : f.dest ≠ s.occ.a) (hp : f.port < 4)
    (hl : s.fab.links = []) (hw : (productive s.occ.a f.dest).head? = some p) :
    ∃ t, execFlitArrival s = .next t ∧ t.mem = s.mem ∧ t.fab.flits = s.fab.flits.filter (fun f => f.at_ != s.occ.a) ++ [f.move p] ∧
      s.dues t .flitArrival (neighbour s.occ.a p) := by
  obtain ⟨q, ht⟩ := flitArrival_moves hh hd hp hl hw
  obtain ⟨hf, ha⟩ := flitsOut_one (s.dropFlits s.occ.a) s.occ.a p q f
  exact ⟨_, ht, (flitsOut_kept ..).mem, hf, dues_of_append ha (List.mem_singleton_self _)⟩
/-- A starving router stops the injection of its row and column for 8 cycles. -/
theorem starveSignal_eq : ∃ t, execStarveSignal s = .next t ∧ t.mem = s.mem ∧ ∀ x, x < 96 → x / 8 = s.occ.a / 8 ∨ x % 8 = s.occ.a % 8 → tget t.fab.starving x = some 8 := by
  refine ⟨_, rfl, rfl, fun x hx h => tget_foldl_tset _ (.inl ?_)⟩
  simpa [hx] using h
/-- A failed link is left out in both directions. -/
theorem torusLinkFail_eq : ∃ t, execTorusLinkFail s = .next t ∧ t.mem = s.mem ∧ (s.occ.a, s.occ.b % 4) ∈ t.fab.links ∧
    (neighbour s.occ.a (s.occ.b % 4), if s.occ.b % 2 = 0 then s.occ.b % 4 + 1 else s.occ.b % 4 - 1) ∈ t.fab.links ∧ t.fab.flits = s.fab.flits := by
  refine ⟨_, rfl, rfl, mem_append_new (List.mem_cons_self ..), mem_append_new (List.mem_cons_of_mem _ ?_), rfl⟩
  rw [show s.occ.b % 4 % 2 = s.occ.b % 2 by omega]
  exact List.mem_singleton_self _

end

/-- Settles O48: what each event makes of the message or flit it names, by the lemmas of its operation. -/
theorem arrivalAndTorusEvents : Obligations.ArrivalAndTorusEvents := by
  unfold Obligations.ArrivalAndTorusEvents
  refine ⟨fun s => ⟨fun nm hn hf ho => ⟨fun he hh hk hc hp hm hd hr hroom => ⟨fun hs hl => ?_, fun w hs hw hfind => ?_⟩, fun he hh hr => ?_⟩,
    fun nm hms hno hph hc => ?_, fun hms hc => ?_, fun nm hn ht => ?_, fun nm hn hr hm ho hf => ?_, fun nm hn hf hg hm ho => ?_, fun hh hk he => ?_,
    fun c hr hm hc => ?_⟩,
    fun s => ⟨fun f nm hh hd hk hp hn hc hg => ?_, fun f hh hd hp => ?_, fun f p hh hd hp hl hw => ?_, starveSignal_eq, ⟨_, rfl, rfl, rfl⟩, torusLinkFail_eq⟩⟩
  · exact messageArrival_spawn hn hf ho he hh hk hs (takeMsg_spawn hc hp hm hd hr hroom hs hl)
  · exact messageArrival_resume hn hf ho he hh hk hfind (takeMsg_resume hc hp hm hd hr hroom hs hw)
  · exact ⟨_, messageArrival_held hn hf ho he hh hr, rfl, by simp [State.net_no hn], by simp⟩
  · exact ackFlitArrival_done (by rw [State.net, hms, findMsg, if_pos hno]) hph hc
  · exact ackFlitArrival_freed hms hc
  · exact nackFlitArrival_waits hn ht
  · exact ⟨_, nackRetry_eq hn hr ho hf, resend_flying hn hm⟩
  · exact sidebandResend_flying hn hf hg hm ho
  · refine ⟨_, skipFlitArrival_eq hh hk, rfl, fun e => ?_, fun e => ?_⟩
    · rw [State.stream_setStream_same, if_pos e]
      exact ⟨rfl, rfl⟩
    · rw [State.stream_setStream_same, if_neg e]
      exact ⟨rfl, rfl⟩
  · exact ⟨_, migrateComplete_eq hr hm hc, rfl, tget_tset_same ..⟩
  · exact flitArrival_completes hh hd hk hp hn hc hg
  · exact flitArrival_answers hh hd hp
  · exact flitArrival_hops hh hd hp hl hw

/-! ### The numbers of messages (log entry 3)

Whether every step keeps the messages numbered below the next number (StepKeepsNumbering) is left open: it hangs on the free value Config.agentFirst, of which nothing is known: a close notice takes a
parked row request back into the network under the number it was parked with, which no state bounds, and a close notice is performed where an event goes before
the agents. -/

/-- A close notice at home 0 raises the watermark of a table to 1, where a row request of step 1 with the number 100 is parked at a locked row of the table. -/
def parkedAt (free : Nat) : State :=
  ({ free := free, fab := { msgs := [{ ph := .arrived, msg := { no := 0, kind := .builtin, args := arg4 0 0 1 0 } }], nextMsg := 1 } } : State).setHome 0
    { tabs := [{ part := 0, etd := 0, desc := 2 ^ 212, wm := 0 }], rowParks := [{ msg := { no := 100, args := arg4 0 0 0 1 } }],
      locks := [{ pa := 0, handlerMsg := 5 }] }
theorem parkedAt_numbered (n : Nat) : (parkedAt n).numbered := fun _ hx => by
  rw [List.mem_singleton.1 hx]
  exact Nat.one_pos
/-- A message outside the order of streams takes the next number at its interface, and those of other numbers stay. -/
theorem post_numbers (s : State) (u : Nat) {m : Msg} (h : m.merge = false) (ho : m.noord = true) :
    (s.post u m).fab.nextMsg = s.fab.nextMsg + 1 ∧ ∀ x ∈ s.fab.msgs, x.msg.no ≠ s.fab.nextMsg → x ∈ (s.post u m).fab.msgs := by
  unfold State.post
  extract_lets m1 s1 nm fab s2
  have hs : MsgsKept s s1 := by
    unfold s1
    split <;> exact ⟨rfl, rfl⟩
  have hn : s2.fab.nextMsg = s.fab.nextMsg + 1 := congrArg (· + 1) hs.next
  have hk : ∀ x ∈ s.fab.msgs, x ∈ s2.fab.msgs := fun x hx => List.mem_append_left _ (hs.msgs ▸ hx)
  rw [if_pos (show m1.noord = true from ho)]
  unfold State.leaveFree
  split
  · obtain ⟨y, hy, hl⟩ := leave_msgs s2 (nm := nm) h
    refine ⟨hl.next.trans hn, fun x hx hne => ?_⟩
    rw [hl.msgs]
    exact List.mem_map.2 ⟨x, hk x hx, if_neg (by rw [hy]; exact hne)⟩
  · exact ⟨hn, fun x hx _ => hk x hx⟩
theorem sendNow_numbers (s : State) (u : Nat) {m : Msg} (h : m.merge = false) (ho : m.noord = true) :
    (s.sendNow u m).fab.nextMsg = s.fab.nextMsg + 1 ∧ ∀ x ∈ s.fab.msgs, x.msg.no ≠ s.fab.nextMsg → x ∈ (s.sendNow u m).fab.msgs := by
  have hs := seq_msgs s u
  rw [← hs.next, ← hs.msgs]
  exact post_numbers (s.seq u).2 u h ho
/-- The parked request comes back under its number, where the next number is 1. -/
theorem closeNotice_unparks (n : Nat) : ∃ (t : State) (m : Msg), execCloseNotice (parkedAt n) = .next (t.sendNow 0 m) ∧ m.merge = false ∧ m.noord = true ∧
    t.fab.nextMsg = 1 ∧ ∃ x ∈ t.fab.msgs, x.msg.no = 100 := by
  refine ⟨(((parkedAt n).delNet 0).closeAt 0 { no := 0, kind := .builtin, args := arg4 0 0 1 0 } 0 1 0).1, _, rfl, rfl, rfl, rfl, _, List.mem_singleton_self _, rfl⟩
/-- Where an event once goes before the agents, not every step keeps the numbering. -/
theorem not_stepKeepsNumbering_of_eventFirst {n : Nat} (h : Config.agentFirst n = false) : ¬ Obligations.StepKeepsNumbering := by
  intro hk
  obtain ⟨t, m, ht, hm, ho, hx, x, hmem, hno⟩ := closeNotice_unparks (n + 1)
  have hs : step { parkedAt n with agenda := [(.closeNotice, {})] } = .next (t.sendNow 0 m) := by
    rw [← ht]
    unfold step
    rw [if_neg (show ¬(parkedAt n).clockStopped = true from Bool.false_ne_true)]
    exact if_neg (show ¬Config.agentFirst n = true by rw [h]; exact Bool.false_ne_true)
  obtain ⟨hnext, hkeep⟩ := sendNow_numbers t 0 hm ho
  have := hk { parkedAt n with agenda := [(.closeNotice, {})] } _ (parkedAt_numbered n) hs x (hkeep x hmem (by omega))
  omega

end Sys2Proof.Machine
end

section
/-! PROOFS. The formats (spec 03): what an instruction's word decodes to, words the spec writes out, and the checks of a group. -/

namespace Sys2Proof.Machine
open Sys2Proof.Laws

/-! ### The decoder and the encoder (spec 03 R81, R90, R91, R94, R95) -/

/-- An instruction without a word has nothing to decode. -/
theorem encoding_of_no_word {i : Instr} (h : encode i = none) : Encoding.Statement i := by
  intro _ w he
  rw [h] at he
  cases he

/-- Settles O31, each word by the lemma of its layout; an event has no word. -/
theorem encodeDecode : Obligations.EncodeDecode
  -- the integer and predicate words, the transfers and the memory words (spec 05; 07)
  | .add .. => by apply Encoding.add | .sub .. => by apply Encoding.sub | .andR .. => by apply Encoding.andR | .orR .. => by apply Encoding.orR
  | .xorR .. => by apply Encoding.xorR | .andn .. => by apply Encoding.andn | .sll .. => by apply Encoding.sll | .srl .. => by apply Encoding.srl
  | .sra .. => by apply Encoding.sra | .mul .. => by apply Encoding.mul | .mulh .. => by apply Encoding.mulh | .divS .. => by apply Encoding.divS
  | .divu .. => by apply Encoding.divu | .remS .. => by apply Encoding.remS | .remu .. => by apply Encoding.remu | .minS .. => by apply Encoding.minS
  | .maxS .. => by apply Encoding.maxS | .minu .. => by apply Encoding.minu | .maxu .. => by apply Encoding.maxu | .mov .. => by apply Encoding.mov
  | .clz .. => by apply Encoding.clz | .popc .. => by apply Encoding.popc | .addi .. => by apply Encoding.addi | .andi .. => by apply Encoding.andi
  | .ori .. => by apply Encoding.ori | .xori .. => by apply Encoding.xori | .slli .. => by apply Encoding.slli | .srli .. => by apply Encoding.srli
  | .srai .. => by apply Encoding.srai | .lui .. => by apply Encoding.lui | .auipc .. => by apply Encoding.auipc | .cmpEq .. => by apply Encoding.cmpEq
  | .cmpNe .. => by apply Encoding.cmpNe | .cmpLt .. => by apply Encoding.cmpLt | .cmpGe .. => by apply Encoding.cmpGe
  | .cmpLtu .. => by apply Encoding.cmpLtu | .cmpGeu .. => by apply Encoding.cmpGeu | .cmpiEq .. => by apply Encoding.cmpiEq
  | .cmpiNe .. => by apply Encoding.cmpiNe | .cmpiLt .. => by apply Encoding.cmpiLt | .cmpiGe .. => by apply Encoding.cmpiGe
  | .cmpiLtu .. => by apply Encoding.cmpiLtu | .cmpiGeu .. => by apply Encoding.cmpiGeu | .pand .. => by apply Encoding.pand
  | .por .. => by apply Encoding.por | .pxor .. => by apply Encoding.pxor | .pandn .. => by apply Encoding.pandn | .pnot .. => by apply Encoding.pnot
  | .pset .. => by apply Encoding.pset | .prd .. => by apply Encoding.prd | .pwr .. => by apply Encoding.pwr | .br .. => by apply Encoding.br
  | .call .. => by apply Encoding.call | .jr .. => by apply Encoding.jr | .jalr .. => by apply Encoding.jalr | .loopW .. => by apply Encoding.loopW
  | .ld .. => by apply Encoding.ld | .st .. => by apply Encoding.st | .ldNc .. => by apply Encoding.ldNc | .ldw .. => by apply Encoding.ldw
  | .stw .. => by apply Encoding.stw | .ldv .. => by apply Encoding.ldv | .ldvW .. => by apply Encoding.ldvW | .stv .. => by apply Encoding.stv
  | .stvW .. => by apply Encoding.stvW | .atomAdd .. => by apply Encoding.atomAdd | .atomAnd .. => by apply Encoding.atomAnd
  | .atomOr .. => by apply Encoding.atomOr | .atomXor .. => by apply Encoding.atomXor | .atomSmin .. => by apply Encoding.atomSmin
  | .atomSmax .. => by apply Encoding.atomSmax | .atomSwap .. => by apply Encoding.atomSwap | .atomCas .. => by apply Encoding.atomCas
  | .atomFaddF32 .. => by apply Encoding.atomFaddF32 | .atomFaddF64 .. => by apply Encoding.atomFaddF64 | .aacc .. => by apply Encoding.aacc
  | .aaccL .. => by apply Encoding.aaccL | .fenceAcq .. => by apply Encoding.fenceAcq | .fenceRel .. => by apply Encoding.fenceRel
  | .fenceFull .. => by apply Encoding.fenceFull | .fenceX .. => by apply Encoding.fenceX | .fenceAcqSys .. => by apply Encoding.fenceAcqSys
  | .fenceRelSys .. => by apply Encoding.fenceRelSys | .fenceFullSys .. => by apply Encoding.fenceFullSys | .fenceXSys .. => by apply Encoding.fenceXSys
  | .l1inv .. => by apply Encoding.l1inv | .l1pf .. => by apply Encoding.l1pf | .seal .. => by apply Encoding.seal | .unseal .. => by apply Encoding.unseal
  | .reclaim .. => by apply Encoding.reclaim | .closeStep .. => by apply Encoding.closeStep | .hmake .. => by apply Encoding.hmake
  | .hnarrow .. => by apply Encoding.hnarrow
  -- the floating-point, vector and row words (spec 06)
  | .fadd .. => by apply Encoding.fadd | .fsub .. => by apply Encoding.fsub | .fmul .. => by apply Encoding.fmul | .fdiv .. => by apply Encoding.fdiv
  | .fmin .. => by apply Encoding.fmin | .fmax .. => by apply Encoding.fmax | .fsqrt .. => by apply Encoding.fsqrt | .fneg .. => by apply Encoding.fneg
  | .fma .. => by apply Encoding.fma | .fms .. => by apply Encoding.fms | .fcmpEq .. => by apply Encoding.fcmpEq | .fcmpLt .. => by apply Encoding.fcmpLt
  | .fcmpLe .. => by apply Encoding.fcmpLe | .fcmpUn .. => by apply Encoding.fcmpUn | .fcvtF2f .. => by apply Encoding.fcvtF2f
  | .fcvtF2i .. => by apply Encoding.fcvtF2i | .fcvtF2u .. => by apply Encoding.fcvtF2u | .fcvtI2f .. => by apply Encoding.fcvtI2f
  | .fcvtU2f .. => by apply Encoding.fcvtU2f | .fclass .. => by apply Encoding.fclass | .vadd .. => by apply Encoding.vadd
  | .vsub .. => by apply Encoding.vsub | .vmul .. => by apply Encoding.vmul | .vmin .. => by apply Encoding.vmin | .vmax .. => by apply Encoding.vmax
  | .vabs .. => by apply Encoding.vabs | .vneg .. => by apply Encoding.vneg | .vand .. => by apply Encoding.vand | .vor .. => by apply Encoding.vor
  | .vxor .. => by apply Encoding.vxor | .vshl .. => by apply Encoding.vshl | .vshr .. => by apply Encoding.vshr | .vfma .. => by apply Encoding.vfma
  | .vfms .. => by apply Encoding.vfms | .vcvt .. => by apply Encoding.vcvt | .vpack .. => by apply Encoding.vpack
  | .vunpklo .. => by apply Encoding.vunpklo | .vunpkhi .. => by apply Encoding.vunpkhi | .vswp2 .. => by apply Encoding.vswp2
  | .vrev .. => by apply Encoding.vrev | .vshuf .. => by apply Encoding.vshuf | .vrot .. => by apply Encoding.vrot | .vbcast .. => by apply Encoding.vbcast
  | .vext .. => by apply Encoding.vext | .vins .. => by apply Encoding.vins | .vsplat .. => by apply Encoding.vsplat
  | .vcmpEq .. => by apply Encoding.vcmpEq | .vcmpLt .. => by apply Encoding.vcmpLt | .vcmpLe .. => by apply Encoding.vcmpLe
  | .vsel .. => by apply Encoding.vsel | .vnz .. => by apply Encoding.vnz | .vsin .. => by apply Encoding.vsin | .vcos .. => by apply Encoding.vcos
  | .vexp .. => by apply Encoding.vexp | .vlog2 .. => by apply Encoding.vlog2 | .vrsqrt .. => by apply Encoding.vrsqrt | .vrcp .. => by apply Encoding.vrcp
  | .vrsum .. => by apply Encoding.vrsum | .vrmax .. => by apply Encoding.vrmax | .vrmin .. => by apply Encoding.vrmin
  | .rowcpy .. => by apply Encoding.rowcpy | .rowzero .. => by apply Encoding.rowzero | .rowadd .. => by apply Encoding.rowadd
  | .rowmul .. => by apply Encoding.rowmul | .rowaxpy .. => by apply Encoding.rowaxpy | .rowmax .. => by apply Encoding.rowmax
  | .rowcvt .. => by apply Encoding.rowcvt
  -- the messages, barriers, scopes, engines and the system (spec 08; 09)
  | .send .. => by apply Encoding.send | .sendp .. => by apply Encoding.sendp | .sendc .. => by apply Encoding.sendc | .recv .. => by apply Encoding.recv
  | .endCtx .. => by apply Encoding.endCtx | .rel .. => by apply Encoding.rel | .migrate .. => by apply Encoding.migrate
  | .yield .. => by apply Encoding.yield | .callat .. => by apply Encoding.callat | .barm .. => by apply Encoding.barm | .bara .. => by apply Encoding.bara
  | .barw .. => by apply Encoding.barw | .barq .. => by apply Encoding.barq | .scnew .. => by apply Encoding.scnew | .scstat .. => by apply Encoding.scstat
  | .prune .. => by apply Encoding.prune | .resumeW .. => by apply Encoding.resumeW | .copy .. => by apply Encoding.copy
  | .copys .. => by apply Encoding.copys | .walk .. => by apply Encoding.walk | .dedup .. => by apply Encoding.dedup | .emit .. => by apply Encoding.emit
  | .slot .. => by apply Encoding.slot | .dispatch .. => by apply Encoding.dispatch | .combine .. => by apply Encoding.combine
  | .djob .. => by apply Encoding.djob | .trap .. => by apply Encoding.trap | .eret .. => by apply Encoding.eret | .mfs .. => by apply Encoding.mfs
  | .mts .. => by apply Encoding.mts | .breakTrap .. => by apply Encoding.breakTrap | .pause .. => by apply Encoding.pause
  | .halt .. => by apply Encoding.halt | .nop .. => by apply Encoding.nop
  -- D-code, by slot (spec 10)
  | .dsNopS .. => by apply Encoding.dsNopS | .dAdd .. => by apply Encoding.dAdd | .dSub .. => by apply Encoding.dSub | .dAnd .. => by apply Encoding.dAnd
  | .dOr .. => by apply Encoding.dOr | .dXor .. => by apply Encoding.dXor | .dSll .. => by apply Encoding.dSll | .dSrl .. => by apply Encoding.dSrl
  | .dMul .. => by apply Encoding.dMul | .dAddi .. => by apply Encoding.dAddi | .dLui .. => by apply Encoding.dLui | .dBeq .. => by apply Encoding.dBeq
  | .dBne .. => by apply Encoding.dBne | .dBlt .. => by apply Encoding.dBlt | .dJmp .. => by apply Encoding.dJmp | .jget .. => by apply Encoding.jget
  | .jdone .. => by apply Encoding.jdone | .agset .. => by apply Encoding.agset | .dret .. => by apply Encoding.dret | .dmfs .. => by apply Encoding.dmfs
  | .dsNopL .. => by apply Encoding.dsNopL | .xin .. => by apply Encoding.xin | .xout .. => by apply Encoding.xout | .ldd .. => by apply Encoding.ldd
  | .std .. => by apply Encoding.std | .dbcpy .. => by apply Encoding.dbcpy | .dsNopM .. => by apply Encoding.dsNopM | .mlw .. => by apply Encoding.mlw
  | .mlwt .. => by apply Encoding.mlwt | .mswap .. => by apply Encoding.mswap | .mst .. => by apply Encoding.mst | .mstz .. => by apply Encoding.mstz
  | .mdrain .. => by apply Encoding.mdrain | .mzero .. => by apply Encoding.mzero | .mpark .. => by apply Encoding.mpark
  | .munpark .. => by apply Encoding.munpark | .dsNopV .. => by apply Encoding.dsNopV | .vbias .. => by apply Encoding.vbias
  | .vscale .. => by apply Encoding.vscale | .vrelu .. => by apply Encoding.vrelu | .vclamp .. => by apply Encoding.vclamp
  | .vgelu .. => by apply Encoding.vgelu
  -- the events
  | .latchComplete | .memoryReply | .l1FillReply | .tilePageFill | .fenceComplete | .reclaimComplete | .closeComplete | .scopeUnitReply | .pauseExpiry
  | .killTaken | .contextSwitchOut | .messageArrival | .handlerStart | .nackRetry | .nackFlitArrival | .ackFlitArrival | .skipFlitArrival | .flitArrival
  | .starveSignal | .goldenEpoch | .torusLinkFail | .sidebandResend | .migrateComplete | .builtinLoad | .builtinLoadNc | .builtinStore | .builtinLoad32
  | .builtinStore32 | .builtinLdv | .builtinStv | .builtinAtomAdd | .builtinAtomAnd | .builtinAtomOr | .builtinAtomXor | .builtinAtomSmin | .builtinAtomSmax
  | .builtinAtomSwap | .builtinAtomCas | .builtinAtomFaddF32 | .builtinAtomFaddF64 | .builtinBadop | .rowRequest | .rowAccumulatePart | .closeNotice
  | .flushDemand | .rowLanding | .childArrival | .barrierRelease | .brokenNotice | .resumeBuiltin | .switchOut | .switchIn | .attention | .launchFanout
  | .waveRequest | .waveReport | .launchRelease | .killNotice | .pruneAcknowledgement | .pruneLinkwaitExpiry | .resetReport | .tileSpaceRequest
  | .tileSpaceGrant | .scopeRequest | .scopeBinding | .translationRequest | .pageWalkComplete | .homeAccess | .reclaimFloorNotice | .remoteTileAccess
  | .poisonError | .copyCommandAccept | .copyStart | .copyPart | .copyPartDone | .continuationProbe | .tokenNotice | .walkCommandAccept | .walkStart
  | .iwLineRun | .tdeCommandAccept | .dispatchStart | .exchangeCounts | .tdeAbort | .dispatchEnd | .combineStart | .combineEnd | .djobAccept | .jobGrant
  | .dsResultWrite | .dsTransferDone | .dsTransferFault | .dsReset | .launchSubmission | .distributorSelect | .launchLoadDone | .waveStart | .launchEnd
  | .custodyRecordSigned | .budgetPeriod | .lcReset | .lcResetEnd | .powerGate | .migrateRedirectNotice | .migrateMarkerReply | .migrateEndOfForwarding
  | .redirectRelease | .rekeyGranule | .linkFlitReceive | .replayRequest | .portRetrain | .portRemap | .portDown | .trainingComplete | .session
  | .bramblePacket | .tack | .tnack | .tackTimer | .transportResend | .packetAbandon | .keepalive | .brel | .mreqResend | .linkwaitExpiry | .bridgeLaneFail
  | .indb | .lwdb | .registerWrite | .msixUnmask | .rscmd | .resyncReady | .psetup | .ptear | .xlinv | .regionCmd | .smcMigrate | .watchCmd | .budgetCmd
  | .fserv | .qprio | .modid | .pcap | .rekey | .groupCmd | .fsload | .smcCommandComplete | .custseq | .mevent | .getVersion | .getCapabilities
  | .negotiateAlgorithms | .getDigests | .getCertificate | .challenge | .getMeasurements | .keyExchange | .finish | .keyUpdate | .endSession
  | .ideKeyProgram | .i3cPcapWrite | .firmwareStagingWrite | .powerReport | .thermalStepDown | .thermalStepUp | .thermalEmergency | .thermalTrip
  | .pcapAdjust | .smcTakeover | .lcTakeover | .spareBringIn | .moduleReset | .dsWordComplete | .rowWordComplete | .relordRelease | .ungatingEnd
  | .sessionCounterLimit | .moderationExpiry | .tnackResend => encoding_of_no_word rfl

/-- The table's decoder reads back the word of a well-formed L-code instruction. -/
theorem decodeTableWord_of_encode {i : Instr} {w : Nat} (hwf : i.wf = true) (hl : i.dslot = none) (he : encode i = some w) :
    decodeTableWord 32 w = some i := by
  have hd := encodeDecode i hwf w he
  rw [hl] at hd
  simp only [decodeTableWord, Nat.le_refl, if_true, hd]

/-- Settles O30: each word is the one that the encoder gives its instruction, which is well formed. -/
theorem decodeSamples : Obligations.DecodeSamples := by
  dsimp only [Obligations.DecodeSamples]
  intro x hx
  have hw : x.2.wf = true ∧ x.2.dslot = none ∧ encode x.2 = some x.1 := by
    revert x
    decide
  obtain ⟨hwf, hl, he⟩ := hw
  exact decodeTableWord_of_encode hwf hl he

/-! ### The checks of a group (spec 03 R86, R87, R89, R92) -/

/-- A decoded word that its place in the group, the words before it, the profile or SHAPE forbids (spec 03 R86, R92, R93). -/
def misplaced (iw : Bool) (sh : BitVec 16) (n : Nat) (b : Bool) (i : Nat) (acc : GroupAcc) (w : BitVec 32) (x : Instr) : Bool :=
  (isTransfer x && !(i + 1 == n)) || (isAlone x && n != 1) || (isSend x && acc.send) || (isEngine x && acc.engine) ||
    (iw && !inProfile x) || (!iw && walkerOnly x) || (i == 3 && !w.getLsbD 31 && !b) || laneBeyond sh x
/-- What a word reads and writes, its guard included (spec 03 R87). -/
def guardedSets (w : BitVec 32) (x : Instr) : RegSets := { regSets x with reads := (regSets x).reads ||| guardBit w }
/-- What a word that has passed its checks leaves for those of the next. -/
def GroupAcc.push (acc : GroupAcc) (i : Nat) (w : BitVec 32) (x : Instr) : GroupAcc :=
  { sets := (i, guardedSets w x, mtsReg x) :: acc.sets, send := acc.send || isSend x, engine := acc.engine || isEngine x }

section
variable {iw b : Bool} {sh : BitVec 16} {n i : Nat} {acc : GroupAcc} {w : BitVec 32} {x : Instr}

theorem checkWords_undecodable {r : Reject} (h : decodeL w.toNat = .error r) (ws : List (BitVec 32)) :
    checkWords iw sh n b i acc (w :: ws) = .error (⟨0x01, 0, w.zeroExtend 64⟩, i) := by
  simp only [checkWords, h]
theorem checkWords_misplaced (h : decodeL w.toNat = .ok x) (hm : misplaced iw sh n b i acc w x = true) (ws : List (BitVec 32)) :
    checkWords iw sh n b i acc (w :: ws) = .error (⟨0x01, 0, w.zeroExtend 64⟩, i) := by
  rw [misplaced] at hm
  simp only [checkWords, h, hm, if_true]
theorem checkWords_dependent (h : decodeL w.toNat = .ok x) (hm : misplaced iw sh n b i acc w x = false) {t : Trap}
    (ht : depTrap (guardedSets w x) (mtsReg x) acc.sets.reverse = some t) (ws : List (BitVec 32)) :
    checkWords iw sh n b i acc (w :: ws) = .error (t, i) := by
  rw [misplaced] at hm
  rw [guardedSets] at ht
  simp only [checkWords, h, hm, Bool.false_eq_true, if_false, ht]
/-- A word that passes its checks leaves the group to those of the words behind it. -/
theorem checkWords_pass (h : decodeL w.toNat = .ok x) (hm : misplaced iw sh n b i acc w x = false)
    (ht : depTrap (guardedSets w x) (mtsReg x) acc.sets.reverse = none) (ws : List (BitVec 32)) :
    checkWords iw sh n b i acc (w :: ws) = (checkWords iw sh n b (i + 1) (acc.push i w x) ws).map (x :: ·) := by
  rw [misplaced] at hm
  rw [guardedSets] at ht
  simp only [checkWords, h, hm, Bool.false_eq_true, if_false, ht, GroupAcc.push, guardedSets]
  cases checkWords iw sh n b (i + 1) _ ws <;> rfl
end

/-- The registers that a word shares with an earlier one, one of the two writing them (spec 03 R87). -/
def sharedRegs (later earlier : RegSets) : BitVec 48 :=
  (later.writes &&& (earlier.reads ||| earlier.writes)) ||| (earlier.writes &&& later.reads)

/-- A shared register is GROUPDEP, its code in TVAL with the earlier slot (spec 03 R89). -/
theorem depTrap_shared {sets e : RegSets} (h : sharedRegs sets e ≠ 0) (m k : Option Nat) (i : Nat) (r : List (Nat × RegSets × Option Nat)) :
    depTrap sets m ((i, e, k) :: r) = some ⟨0x02, 0, BitVec.ofNat 64 (regCode (sharedRegs sets e) + i * 2 ^ 8)⟩ :=
  if_pos h
/-- An earlier word that shares no register and writes no control register of the word's is passed over. -/
theorem depTrap_apart {sets e : RegSets} {m k : Option Nat} (h : sharedRegs sets e = 0) (hk : ∀ a b, k = some a → m = some b → a ≠ b) (i : Nat)
    (r : List (Nat × RegSets × Option Nat)) : depTrap sets m ((i, e, k) :: r) = depTrap sets m r := by
  rw [sharedRegs] at h
  simp only [depTrap, h, ne_eq, not_true_eq_false, if_false]
  split
  next a b => exact if_neg fun hab => hk b a rfl rfl hab.symm
  · rfl

/-- Settles O34, by the rules above at slots 0 and 1. -/
theorem groupRules : Obligations.GroupRules := by
  refine ⟨fun w r ws n b sh h => checkWords_undecodable h ws, fun w ws n b sh x h hx => checkWords_misplaced h ?_ ws,
    fun v w sh x y hlx hly hx hy hno => ?_⟩
  · obtain ⟨ht, hn⟩ | hl := hx
    · simp [misplaced, ht, Ne.symm hn]
    · simp [misplaced, hl]
  · simp only [Bool.or_eq_false_iff] at hno
    obtain ⟨⟨⟨⟨⟨⟨htx, hax⟩, hay⟩, hwx⟩, hwy⟩, hsend⟩, hengine⟩ := hno
    have hmx : misplaced false sh 2 false 0 {} v x = false := by simp [misplaced, htx, hax, hwx, hlx]
    have hmy : misplaced false sh 2 false 1 (GroupAcc.push {} 0 v x) w y = false := by
      simp [misplaced, GroupAcc.push, hay, hwy, hly, Bool.and_comm (isSend y), Bool.and_comm (isEngine y), hsend, hengine]
    intro rx ry shared
    rw [checkWords_pass hx hmx rfl]
    refine ⟨fun hs => ?_, fun hs hk => ?_⟩
    · have hd := depTrap_shared (sets := guardedSets w y) (e := guardedSets v x) hs (mtsReg y) (mtsReg x) 0 []
      rw [Nat.zero_mul, Nat.add_zero] at hd
      rw [checkWords_dependent hy hmy hd]
      rfl
    · have hd := depTrap_apart (sets := guardedSets w y) (e := guardedSets v x) hs hk 0 []
      rw [checkWords_pass hy hmy hd]
      rfl

end Sys2Proof.Machine
end

section
/-! PROOFS. The number formats (spec 04): invalid operations, division by zero, results that need no rounding, and what the encodings of f32 read as. -/

namespace Sys2Proof.Machine

/-! ### Invalid operations and division by zero (spec 04 R121) -/

section
variable (t : FTy) (md : RMode)

/-- ∞ − ∞ is invalid. -/
theorem addV_inf_opposite (neg : Bool) : addV t md (.inf neg) (.inf !neg) = nanRes t true :=
  if_neg fun h => Bool.not_ne_self neg h.symm

/-- ∞ × 0 is invalid. -/
theorem mulV_inf_zero (na nb : Bool) (e : Int) : mulV t md (.inf na) (.fin nb 0 e) = nanRes t true := rfl

/-- A finite number other than zero, divided by zero, is an infinity with DZ. -/
theorem divV_by_zero {ma : Nat} (ha : ma ≠ 0) (na nb : Bool) (ea eb : Int) :
    divV t md (.fin na ma ea) (.fin nb 0 eb) = ((infRes t (na != nb)).1, flDZ) :=
  if_neg ha

/-- The square root of a negative number other than zero is invalid. -/
theorem sqrtV_negative {m : Nat} (hm : m ≠ 0) (e : Int) : sqrtV t md (.fin true m e) = nanRes t true :=
  if_neg hm

/-- The product of a fused multiply-add is not rounded before the sum (spec 06 R157). -/
theorem fmaV_finite (na nb nc : Bool) (ma mb mc : Nat) (ea eb ec : Int) :
    fmaV t md (.fin na ma ea) (.fin nb mb eb) (.fin nc mc ec) = addV t md (.fin (na != nb) (ma * mb) (ea + eb)) (.fin nc mc ec) := by
  simp [fmaV, FVal.isInf, FVal.isNaN]
end

/-! ### Compares (spec 06 R158) -/

section
variable {t : FTy} {md : RMode} {a b : Nat}

/-- Whatever is compared with a NaN is unordered. -/
theorem fCompare_un_of_nan {sig : Bool} (ha : opnd t md a = .nan sig) : (fCompare t md .un a b).1 = true := by
  simp [fCompare, ha, FVal.isNaN]

/-- Zeros are equal whatever their signs. -/
theorem fCompare_eq_of_zeros {na nb : Bool} {ea eb : Int} (ha : opnd t md a = .fin na 0 ea) (hb : opnd t md b = .fin nb 0 eb) :
    (fCompare t md .eq a b).1 = true := by
  simp [fCompare, ha, hb, FVal.isNaN, cmpV]
end

/-! ### Results that need no rounding (spec 04 R116, R119) -/

theorem roundsUp_exact (rm : BitVec 2) (neg odd : Bool) : roundsUp rm neg odd false (-1) = false := by
  unfold roundsUp
  split <;> rfl

/-- Cutting where only zero bits are below leaves no remainder. -/
theorem cutAt_exact (k j : Nat) (e : Int) : cutAt (k * 2 ^ j) e (e + j) false = (k, false, -1) := by
  obtain rfl | hj := Nat.eq_zero_or_pos j
  · simp [cutAt]
  · have hlt : ¬ e + j ≤ e := by omega
    simp [cutAt, hlt]

/-- A magnitude of at most the largest finite value, rounded from itself and not below the smallest normal, is encoded with no flag. -/
theorem finishRound_exact {t : FTy} {mag : Nat} (h : mag ≤ maxFinite t) (md : RMode) (ov : BitVec 2) (neg : Bool) :
    finishRound t md ov neg false false mag = ((if neg then signBit t else 0) + mag, 0) := by
  simp [finishRound, Nat.not_lt.mpr h]

/-- A significand k of full width at last place q names a normal number of the format. -/
structure NormalAt (t : FTy) (k : Nat) (q : Int) : Prop where
  low : 2 ^ mbits t ≤ k
  high : k < 2 ^ (mbits t + 1)
  exponent : 1 - (fbias t : Int) - mbits t ≤ q
  finite : encMag t k q ≤ maxFinite t

section
variable {t : FTy} {md : RMode} {k j : Nat} {e : Int}

theorem NormalAt.pos {q : Int} (h : NormalAt t k q) : 0 < k := Nat.lt_of_lt_of_le (Nat.two_pow_pos _) h.low

theorem NormalAt.log2 {q : Int} (h : NormalAt t k q) (j : Nat) : Nat.log2 (k * 2 ^ j) = mbits t + j := by
  rw [Nat.log2_eq_iff (Nat.mul_pos h.pos (Nat.two_pow_pos j)).ne', Nat.pow_add, Nat.add_right_comm, Nat.pow_add]
  exact ⟨Nat.mul_le_mul_right _ h.low, Nat.mul_lt_mul_of_pos_right h.high (Nat.two_pow_pos j)⟩

/-- A normal number of the format rounds to its own encoding in every mode, raising nothing. -/
theorem roundF_exact (h : NormalAt t k (e + j)) (md : RMode) (neg : Bool) :
    roundF t md neg (k * 2 ^ j) e false = ((if neg then signBit t else 0) + encMag t k (e + j), 0) := by
  have hm : k * 2 ^ j ≠ 0 := (Nat.mul_pos h.pos (Nat.two_pow_pos j)).ne'
  have hE : ((mbits t + j : Nat) : Int) + e - mbits t = e + j := by omega
  have hq : lastPlace t ((mbits t + j : Nat) + e) = e + j := by rw [lastPlace, hE, max_eq_left h.exponent]
  have hlog : Nat.log2 k = mbits t := by simpa using h.log2 0
  have htiny : ¬ (mbits t : Int) + (e + j) < 1 - fbias t := by have := h.exponent; omega
  simp only [roundF, hm, false_and, if_false, h.log2 j, hq, hE, cutAt_exact, roundsUp_exact, Bool.false_eq_true, hlog, htiny, decide_false, h.high.ne]
  exact finishRound_exact h.finite md md.rm neg

theorem sgn_ne_zero (neg : Bool) {m : Nat} (hm : 0 < m) : sgn neg m ≠ 0 := by
  cases neg <;> simp [sgn] <;> omega

/-- An integer other than zero is rounded from its sign and its magnitude. -/
theorem roundInt_sgn {m : Nat} (hm : 0 < m) (neg : Bool) : roundInt t md (sgn neg m) e = roundF t md neg m e false := by
  rw [roundInt, if_neg (sgn_ne_zero neg hm)]
  have hm' : ¬ (m : Int) < 0 := by omega
  cases neg <;> simp [sgn, hm, hm']

/-- A sum that is a normal number of the format is exact in every mode, raising nothing. -/
theorem addV_exact {na nb neg : Bool} {ma mb : Nat} {ea eb : Int} (h : NormalAt t k (min ea eb + j))
    (hsum : sgn na ma * (2 ^ (ea - min ea eb).toNat : Nat) + sgn nb mb * (2 ^ (eb - min ea eb).toNat : Nat) = sgn neg (k * 2 ^ j)) (md : RMode) :
    addV t md (.fin na ma ea) (.fin nb mb eb) = ((if neg then signBit t else 0) + encMag t k (min ea eb + j), 0) := by
  have hpos : 0 < k * 2 ^ j := Nat.mul_pos h.pos (Nat.two_pow_pos j)
  have hfin : ¬ (ma = 0 ∧ mb = 0 ∧ na = nb) := by
    rintro ⟨rfl, rfl, -⟩
    exact sgn_ne_zero neg hpos (by simpa [sgn] using hsum.symm)
  simp only [addV, hfin, if_false, hsum, roundInt_sgn hpos, roundF_exact h]
end

/-! ### Encodings of f32 (spec 04 R110 to R112, R119) -/

/-- The flush of FTZ leaves every encoding but those of subnormal numbers as it is. -/
theorem opnd_of_not_subnormal {t : FTy} {x : Nat} {v : FVal} (h : isSubn t (x % 2 ^ fwidth t) = false) (hv : fval t (x % 2 ^ fwidth t) = v)
    (md : RMode) : opnd t md x = v := by
  simp [opnd, flushIn, h, hv]

section
variable (md : RMode)
theorem opnd_f32_zero : opnd .f32 md 0 = .fin false 0 (-149) := opnd_of_not_subnormal (by decide) (by decide) md
theorem opnd_f32_negZero : opnd .f32 md 0x80000000 = .fin true 0 (-149) := opnd_of_not_subnormal (by decide) (by decide) md
theorem opnd_f32_one : opnd .f32 md 0x3F800000 = .fin false 0x800000 (-23) := opnd_of_not_subnormal (by decide) (by decide) md
theorem opnd_f32_negOne : opnd .f32 md 0xBF800000 = .fin true 0x800000 (-23) := opnd_of_not_subnormal (by decide) (by decide) md
theorem opnd_f32_two : opnd .f32 md 0x40000000 = .fin false 0x800000 (-22) := opnd_of_not_subnormal (by decide) (by decide) md
theorem opnd_f32_three : opnd .f32 md 0x40400000 = .fin false 0xC00000 (-22) := opnd_of_not_subnormal (by decide) (by decide) md
theorem opnd_f32_inf : opnd .f32 md 0x7F800000 = .inf false := opnd_of_not_subnormal (by decide) (by decide) md
theorem opnd_f32_quietNaN : opnd .f32 md 0x7FC00000 = .nan false := opnd_of_not_subnormal (by decide) (by decide) md
end

/-- Settles O11: each corner is a rule above at the numbers that its encodings read as. -/
theorem floatCorners : Obligations.FloatCorners := by
  dsimp only [Obligations.FloatCorners]
  refine ⟨?sum, ?difference, ?quotient, ?product, ?root, ?fused, fCompare_un_of_nan (opnd_f32_quietNaN _),
    fCompare_eq_of_zeros (opnd_f32_negZero _) (opnd_f32_zero _)⟩
  case sum =>
    rw [fAdd, opnd_f32_one, opnd_f32_two]
    exact addV_exact (neg := false) (k := 0xC00000) (j := 1) ⟨by decide, by decide, by decide, by decide⟩ (by decide) _
  case difference => rw [fSub, opnd_f32_inf, FVal.flip, addV_inf_opposite]; rfl
  case quotient => rw [fDiv, opnd_f32_one, opnd_f32_zero, divV_by_zero _ _ (by decide)]; rfl
  case product => rw [fMul, opnd_f32_inf, opnd_f32_zero, mulV_inf_zero]; rfl
  case root => rw [fSqrt, opnd_f32_negOne, sqrtV_negative _ _ (by decide)]; rfl
  case fused =>
    rw [fFma, opnd_f32_two, opnd_f32_three, opnd_f32_one, fmaV_finite]
    exact addV_exact (neg := false) (k := 0xE00000) (j := 23) ⟨by decide, by decide, by decide, by decide⟩ (by decide) _

end Sys2Proof.Machine
end

section
/-! PROOFS. Scalar words and control (spec 05): words whose guard is false, integer results, division, compares and predicates, control registers, words
that pass the time, and what a scalar word leaves alone. -/

namespace Sys2Proof.Machine

/-- A word whose body leaves context c. -/
theorem lword_setCur {h : Hdr} {s : State} {c : Ctx} {body : State → Res} (g : s.cur.guard h = true) (e : body s = .ok (s.setCur c)) :
    lword h s body = .next (s.wrote c) := by
  rw [lword_ok g e, State.finish_setCur]

/-! ### A word whose guard is false (spec 05 R133) -/

/-- Every L-code word is a form of `lword`, which performs no body under a false guard. -/
theorem exec_unguarded {i : Instr} {h : Hdr} {s : State} (hi : i.hdr = some h) (g : s.cur.guard h ≠ true) : exec i s = .next (s.wrote s.cur) := by
  cases i <;> cases hi <;> exact if_neg g

/-- Settles O4: nothing is performed but the mark that the word has been dealt with. -/
theorem falseGuardPerformsNothing : Obligations.FalseGuardPerformsNothing := by
  intro i h s hi g
  rw [State.cur_wrote]
  exact ⟨exec_unguarded hi (ne_true_of_eq_false g), rfl, rfl, rfl, rfl, rfl, rfl⟩

/-! ### Integer results (spec 05 R134, R136 to R138) -/

section
variable (a b : Word) (n : Nat)

theorem shiftLeft_eq_ofNat : a <<< n = BitVec.ofNat 64 (a.toNat * 2 ^ n) :=
  BitVec.eq_of_toNat_eq (by rw [BitVec.toNat_shiftLeft, Nat.shiftLeft_eq, BitVec.toNat_ofNat])

theorem ushiftRight_eq_ofNat : a >>> n = BitVec.ofNat 64 (a.toNat / 2 ^ n) := by
  rw [← Nat.shiftRight_eq_div_pow, ← BitVec.toNat_ushiftRight, BitVec.ofNat_toNat, BitVec.setWidth_eq]

theorem sshiftRight_eq_ofInt : a.sshiftRight n = BitVec.ofInt 64 (a.toInt / 2 ^ n) := by
  rw [BitVec.sshiftRight_eq, Int.shiftRight_eq_div_pow]
  norm_cast

theorem mul_eq_ofInt : a * b = BitVec.ofInt 64 (a.toInt * b.toInt) := by
  rw [BitVec.ofInt_mul, BitVec.ofInt_toInt, BitVec.ofInt_toInt]

/-- The high half of the signed product is that of the product at twice the width. -/
theorem mulHigh_eq_extractLsb' : mulHigh a b = (a.signExtend 128 * b.signExtend 128).extractLsb' 64 64 := by
  have hp : a.signExtend 128 * b.signExtend 128 = BitVec.ofInt 128 (a.toInt * b.toInt) := (BitVec.ofInt_mul ..).symm
  refine BitVec.eq_of_toNat_eq ?_
  rw [hp, mulHigh, BitVec.extractLsb'_toNat, BitVec.toNat_ofInt, BitVec.toNat_ofInt, Nat.shiftRight_eq_div_pow]
  generalize a.toInt * b.toInt = p
  omega

/-- Where different words have different keys, a strict comparison of the keys chooses as a weak one does, if it does so between equal words. -/
theorem ite_lt_eq_ite_le {α : Type} [LinearOrder α] {k : Word → α} (hk : Function.Injective k) {x y : Word} (h : a = b → x = y) :
    (if k a < k b then x else y) = if k a ≤ k b then x else y := by
  obtain hlt | heq | hgt := lt_trichotomy (k a) (k b)
  · rw [if_pos hlt, if_pos hlt.le]
  · rw [if_neg heq.not_lt, if_pos heq.le, h (hk heq)]
  · rw [if_neg hgt.not_gt, if_neg hgt.not_ge]

/-- What clzFrom counts in a word below 2 ^ n: no bit at or above bit 64 - clzFrom a n is set, and the one below is. -/
theorem clzFrom_spec (hn : n ≤ 64) (ha : a.toNat < 2 ^ n) :
    clzFrom a n ≤ 64 ∧ a.toNat < 2 ^ (64 - clzFrom a n) ∧ (a ≠ 0 → 2 ^ (64 - clzFrom a n) ≤ 2 * a.toNat) := by
  induction n with
  | zero => exact ⟨Nat.le_refl 64, ha, fun h0 => absurd (BitVec.eq_of_toNat_eq (Nat.lt_one_iff.mp ha)) h0⟩
  | succ n ih =>
    rw [clzFrom]
    split
    next hbit =>
      have hle : 2 ^ n ≤ a.toNat := Nat.ge_two_pow_of_testBit hbit
      have hw : 64 - (63 - n) = n + 1 := by omega
      exact ⟨by omega, hw ▸ ha, fun _ => by rw [hw, Nat.pow_succ]; omega⟩
    next hbit =>
      exact ih (by omega) (Nat.lt_of_not_le fun hle => hbit (Nat.testBit_of_two_pow_le_and_two_pow_add_one_gt hle ha))

theorem popBelow_eq_countP : popBelow a n = (List.range n).countP fun i => a.getLsbD i := by
  induction n with
  | zero => rfl
  | succ n ih =>
    rw [popBelow, ih, List.range_succ, List.countP_append, List.countP_singleton, Nat.add_comm]
    cases a.getLsbD n <;> rfl

theorem add_signExtend_eq_ofInt (imm : BitVec 13) : a + imm.signExtend 64 = BitVec.ofInt 64 (a.toInt + imm.toInt) := by
  rw [BitVec.ofInt_add, BitVec.ofInt_toInt]; rfl
end

theorem signExtend_mul_eq_ofInt (imm : BitVec 17) : imm.signExtend 64 * 0x2000 = BitVec.ofInt 64 (imm.toInt * 0x2000) := by
  rw [BitVec.ofInt_mul]; rfl

theorem zeroExtend_add_eq_ofInt (pc : BitVec 32) (imm : BitVec 17) :
    pc.zeroExtend 64 + imm.signExtend 64 * 0x2000 = BitVec.ofInt 64 (pc.toNat + imm.toInt * 0x2000) := by
  rw [BitVec.ofInt_add, ← signExtend_mul_eq_ofInt, BitVec.ofInt_natCast, BitVec.ofNat_toNat]

section
variable {h : Hdr} {s : State} {rd ra rb : BitVec 4} {v : Word} (g : s.cur.guard h = true)
include g

theorem alu_completes {f : Word → Word → Word} (hv : f (s.cur.gv ra) (s.cur.gv rb) = v) : alu h s rd ra rb f = .next (s.wrote (s.cur.setG rd v)) :=
  hv ▸ rword_on _ g

theorem alu1_completes {f : Word → Word} (hv : f (s.cur.gv ra) = v) : alu1 h s rd ra f = .next (s.wrote (s.cur.setG rd v)) :=
  hv ▸ rword_on _ g
end

/-- Settles O1: each word is one of the forms above, and its result the value of its table. -/
theorem integerResults : Obligations.IntegerResults := by
  dsimp only [Obligations.IntegerResults, exec, execAdd, execSub, execAndR, execOrR, execXorR, execAndn, execSll, execSrl, execSra, execMul, execMulh,
    execMinS, execMaxS, execMinu, execMaxu, execMov, execClz, execPopc, execAddi, execAndi, execOri, execXori, execSlli, execSrli, execSrai, execLui,
    execAuipc]
  refine ⟨fun h rd ra rb s g => ?three, fun h rd ra s g => ?two, fun h rd ra imm amt up s g => ?immediate⟩
  case three =>
    refine ⟨alu_completes g rfl, alu_completes g rfl, alu_completes g rfl, alu_completes g rfl, alu_completes g rfl, alu_completes g rfl,
      alu_completes g (shiftLeft_eq_ofNat ..), alu_completes g (ushiftRight_eq_ofNat ..), alu_completes g (sshiftRight_eq_ofInt ..),
      alu_completes g (mul_eq_ofInt ..), alu_completes g (mulHigh_eq_extractLsb' ..), alu_completes g ?min, alu_completes g ?max,
      alu_completes g ?minu, alu_completes g ?maxu⟩ <;> simp only [BitVec.slt_iff_toInt_lt, BitVec.ult_iff_toNat_lt]
    case min => exact ite_lt_eq_ite_le _ _ (fun _ _ => BitVec.eq_of_toInt_eq) id
    case max => exact ite_lt_eq_ite_le _ _ (fun _ _ => BitVec.eq_of_toInt_eq) Eq.symm
    case minu => exact ite_lt_eq_ite_le _ _ BitVec.toNat_injective id
    case maxu => exact ite_lt_eq_ite_le _ _ BitVec.toNat_injective Eq.symm
  case two =>
    obtain ⟨hn, hlt, hge⟩ := clzFrom_spec (s.cur.gv ra) 64 (Nat.le_refl 64) (s.cur.gv ra).isLt
    exact ⟨rword_on _ g, ⟨_, hn, rword_on _ g, hlt, hge⟩, alu1_completes g (congrArg _ (popBelow_eq_countP ..))⟩
  case immediate =>
    exact ⟨alu1_completes g (add_signExtend_eq_ofInt ..), alu1_completes g rfl, alu1_completes g rfl, alu1_completes g rfl,
      alu1_completes g (shiftLeft_eq_ofNat ..), alu1_completes g (ushiftRight_eq_ofNat ..), alu1_completes g (sshiftRight_eq_ofInt ..),
      signExtend_mul_eq_ofInt up ▸ rword_on _ g, zeroExtend_add_eq_ofInt s.cur.pc up ▸ rword_on _ g⟩

/-! ### Division (spec 05 R135) -/

/-- The most negative number by -1: the one signed quotient that does not fit. -/
def QuotientOverflows (a b : Word) : Prop := a = 0x8000000000000000 ∧ b = 0xFFFFFFFFFFFFFFFF

section
variable {a b : Word} (hb : b ≠ 0)
include hb

theorem divSigned_of_overflow (ho : QuotientOverflows a b) : divSigned a b = a := (if_neg hb).trans (if_pos ho)
theorem remSigned_of_overflow (ho : QuotientOverflows a b) : remSigned a b = 0 := (if_neg hb).trans (if_pos ho)

section
variable (ho : ¬QuotientOverflows a b)
include ho

theorem divSigned_of_fits : divSigned a b = BitVec.ofInt 64 (Int.tdiv a.toInt b.toInt) := (if_neg hb).trans (if_neg ho)
theorem remSigned_of_fits : remSigned a b = BitVec.ofInt 64 (Int.tmod a.toInt b.toInt) := (if_neg hb).trans (if_neg ho)

theorem toInt_divSigned : (divSigned a b).toInt = Int.tdiv a.toInt b.toInt := by
  have hq : (a.sdiv b).toInt = Int.tdiv a.toInt b.toInt := BitVec.toInt_sdiv_of_ne_or_ne a b (not_and_or.mp ho)
  rw [divSigned_of_fits hb ho, ← hq, BitVec.ofInt_toInt]

theorem toInt_remSigned : (remSigned a b).toInt = Int.tmod a.toInt b.toInt := by
  rw [remSigned_of_fits hb ho, ← BitVec.toInt_srem, BitVec.ofInt_toInt]

theorem remSigned_eq_sub : remSigned a b = a - divSigned a b * b := by
  have hsum : BitVec.ofInt 64 (Int.tmod a.toInt b.toInt + Int.tdiv a.toInt b.toInt * b.toInt) = a := by
    rw [Int.tmod_add_tdiv_mul, BitVec.ofInt_toInt]
  rw [BitVec.ofInt_add, BitVec.ofInt_mul, BitVec.ofInt_toInt] at hsum
  rw [remSigned_of_fits hb ho, divSigned_of_fits hb ho]
  exact eq_sub_of_add_eq hsum
end

theorem toNat_divUnsigned : (divUnsigned a b).toNat = a.toNat / b.toNat := by
  rw [divUnsigned, if_neg hb, ← BitVec.udiv_def, BitVec.toNat_udiv]

theorem remUnsigned_eq_sub : remUnsigned a b = a - divUnsigned a b * b := by
  have hsum : BitVec.ofNat 64 (a.toNat % b.toNat + a.toNat / b.toNat * b.toNat) = a := by
    rw [Nat.mod_add_div', BitVec.ofNat_toNat, BitVec.setWidth_eq]
  rw [BitVec.ofNat_add, BitVec.ofNat_mul, BitVec.ofNat_toNat, BitVec.setWidth_eq] at hsum
  rw [remUnsigned, divUnsigned, if_neg hb, if_neg hb]
  exact eq_sub_of_add_eq hsum
end

/-- Settles O2, one clause for each case of the operands. -/
theorem divisionTruncates : Obligations.DivisionTruncates := by
  dsimp only [Obligations.DivisionTruncates, exec, execDivS, execRemS, execDivu, execRemu]
  intro h rd ra rb s g
  refine ⟨_, _, _, _, alu_completes g rfl, alu_completes g rfl, alu_completes g rfl, alu_completes g rfl, fun hb => ?zero, fun ho => ?overflow,
    fun ⟨hb, ho⟩ => ?signed, fun hb => ?unsigned⟩
  case zero => exact ⟨if_pos hb, if_pos hb, if_pos hb, if_pos hb⟩
  case overflow =>
    have hb : s.cur.gv rb ≠ 0 := by rw [ho.2]; decide
    exact ⟨divSigned_of_overflow hb ho, remSigned_of_overflow hb ho⟩
  case signed => exact ⟨toInt_divSigned hb ho, remSigned_eq_sub hb ho, toInt_remSigned hb ho⟩
  case unsigned => exact ⟨toNat_divUnsigned hb, remUnsigned_eq_sub hb⟩

/-! ### Compares and predicate words (spec 05 R140, R141; 01 R12) -/

section
variable (a b : Word)
theorem not_slt_iff : (!a.slt b) = true ↔ b.toInt ≤ a.toInt := by rw [← BitVec.sle_eq_not_slt, BitVec.sle_iff_toInt_le]
theorem not_ult_iff : (!a.ult b) = true ↔ b.toNat ≤ a.toNat := by rw [← BitVec.ule_eq_not_ult, BitVec.ule_iff_toNat_le]
end

/-- A compare writes the truth of its condition. -/
theorem cmpWord_completes {h : Hdr} {s : State} {pd ra : BitVec 4} {b : Ctx → Word} {f : Word → Word → Bool} {p : Prop} (g : s.cur.guard h = true)
    (hp : f (s.cur.gv ra) (b s.cur) = true ↔ p) : ∃ v : Bool, (v = true ↔ p) ∧ cmpWord h s pd ra b f = .next (s.wrote (s.cur.setP pd v)) :=
  ⟨_, hp, rword_on _ g⟩

theorem pr_eq_decide (c : Ctx) (r : BitVec 4) : c.pr r = decide (r = 0 ∨ c.preds.getLsbD r.toNat = true) := by
  by_cases h0 : r = 0 <;> simp [Ctx.pr, h0]

theorem getLsbD_or_one (x : BitVec 16) (r : BitVec 4) : (x ||| 1#16).getLsbD r.toNat = decide (r = 0 ∨ x.getLsbD r.toNat = true) := by
  have h0 : r.toNat = 0 ↔ r = 0 := by rw [← BitVec.toNat_inj]; rfl
  rw [BitVec.getLsbD_or, BitVec.getLsbD_one]
  simp [h0, Bool.or_comm]

/-- The predicates that prd reads are those that words test. -/
theorem getLsbD_preds_or_one (c : Ctx) (r : BitVec 4) : (c.preds ||| 1#16).getLsbD r.toNat = c.pr r := by
  rw [getLsbD_or_one, pr_eq_decide]

theorem pr_of_preds_or_one (c : Ctx) (x : BitVec 16) (r : BitVec 4) :
    ({ c with preds := x ||| 1#16 } : Ctx).pr r = decide (r = 0 ∨ x.getLsbD r.toNat = true) := by
  rw [← getLsbD_preds_or_one, BitVec.or_assoc, BitVec.or_self, getLsbD_or_one]

/-- Settles O3: a compare writes the truth of its condition, and a predicate word what its sources read. -/
theorem comparesAndPredicates : Obligations.ComparesAndPredicates := by
  dsimp only [Obligations.ComparesAndPredicates, exec, execCmpEq, execCmpNe, execCmpLt, execCmpGe, execCmpLtu, execCmpGeu, execCmpiEq, execCmpiNe,
    execCmpiLt, execCmpiGe, execCmpiLtu, execCmpiGeu, execPand, execPor, execPxor, execPandn, execPnot, execPset, execPrd, execPwr]
  refine ⟨fun h pd ra rb imm s g => ?compares, fun h pd pa pb rd ra v s g => ?predicates⟩
  case compares =>
    have hi : (imm.signExtend 64).toInt = imm.toInt := BitVec.toInt_signExtend_of_le (by decide)
    have hz : (imm.zeroExtend 64).toNat = imm.toNat := BitVec.toNat_setWidth_of_le (by decide)
    rw [← hi, ← hz]
    simp only [ne_eq, BitVec.toInt_inj]
    exact ⟨cmpWord_completes g beq_iff_eq, cmpWord_completes g bne_iff_ne, cmpWord_completes g BitVec.slt_iff_toInt_lt,
      cmpWord_completes g (not_slt_iff ..), cmpWord_completes g BitVec.ult_iff_toNat_lt, cmpWord_completes g (not_ult_iff ..),
      cmpWord_completes g beq_iff_eq, cmpWord_completes g bne_iff_ne, cmpWord_completes g BitVec.slt_iff_toInt_lt,
      cmpWord_completes g (not_slt_iff ..), cmpWord_completes g BitVec.ult_iff_toNat_lt, cmpWord_completes g (not_ult_iff ..)⟩
  case predicates =>
    simp only [← pr_eq_decide]
    rw [← Bool.bne_eq_xor]
    refine ⟨rword_on _ g, rword_on _ g, rword_on _ g, rword_on _ g, rword_on _ g, rword_on _ g, ⟨_, rword_on _ g, ?low, fun r => ?read⟩,
      _, rword_on _ g, rfl, fun r => ?written⟩
    case low => exact (BitVec.toNat_setWidth_of_le (by decide)).trans_lt (s.cur.preds ||| 1).isLt
    case read =>
      have hl : r.toNat < 64 := r.isLt.trans (by decide)
      rw [BitVec.getLsbD_setWidth, decide_eq_true hl, Bool.true_and]
      exact getLsbD_preds_or_one s.cur r
    case written =>
      have hw := pr_of_preds_or_one s.cur ((s.cur.gv ra).truncate 16) r
      rw [BitVec.getLsbD_setWidth, decide_eq_true r.isLt, Bool.true_and] at hw
      exact (congrArg (· = true) hw).trans decide_eq_true_eq

/-! ### Control registers (spec 05 R148, R149; 01 R18 to R25) -/

theorem ctlSystem_iff (k : BitVec 8) : ctlSystem k.toNat = true ↔ k = 8 ∨ k = 9 ∨ k = 10 ∨ k = 11 ∨ k = 14 := by
  simp [ctlSystem, ← BitVec.toNat_inj, or_assoc]

/-- The context after an mts: its write waits for the boundary. -/
def Ctx.pend (c : Ctx) (k : BitVec 8) (v : Word) : Ctx := { c with pendMts := c.pendMts ++ [(k.toNat, v)] }

section
variable {h : Hdr} {s : State} {ra : BitVec 4} {k : BitVec 8} (g : s.cur.guard h = true)
include g

theorem execMts_system (hp : s.priv = true) : execMts h ra k s = .next (s.wrote (s.cur.pend k (s.cur.gv ra))) :=
  lword_setCur g (if_pos hp)

section
variable (hp : s.priv = false)
include hp

theorem execMts_user_system_register (hk : ctlSystem k.toNat = true) : execMts h ra k s = .next (s.takeTrap ⟨0x03, 0, 0⟩) :=
  lword_trap g ((if_neg (ne_true_of_eq_false hp)).trans (if_pos hk))

theorem execMts_user (hk : ctlSystem k.toNat = false) (hs : k ≠ 4) : execMts h ra k s = .next (s.wrote (s.cur.pend k (s.cur.gv ra))) :=
  lword_setCur g ((if_neg (ne_true_of_eq_false hp)).trans ((if_neg (ne_true_of_eq_false hk)).trans (if_neg hs)))

theorem execMts_scope_not_live (hl : s.scopeLive s.curPart ((s.cur.gv ra).truncate 16) = false) :
    execMts h ra 4 s = .next (s.takeTrap ⟨0x23, 0, s.cur.gv ra⟩) :=
  lword_trap g ((if_neg (ne_true_of_eq_false hp)).trans (if_pos hl))

section
variable (hl : s.scopeLive s.curPart ((s.cur.gv ra).truncate 16) = true)
include hl

theorem execMts_scope_outside (hi : s.inScope s.curPart s.cur.ctl.base ((s.cur.gv ra).truncate 16) = false) :
    execMts h ra 4 s = .next (s.takeTrap ⟨0x03, 0, s.cur.gv ra⟩) :=
  lword_trap g ((if_neg (ne_true_of_eq_false hp)).trans ((if_neg (ne_false_of_eq_true hl)).trans (if_pos hi)))

theorem execMts_scope_inside (hi : s.inScope s.curPart s.cur.ctl.base ((s.cur.gv ra).truncate 16) = true) :
    execMts h ra 4 s = .next (s.wrote (s.cur.pend 4 ((s.cur.ctl.base ++ (s.cur.gv ra).truncate 16).zeroExtend 64))) :=
  lword_setCur g ((if_neg (ne_true_of_eq_false hp)).trans ((if_neg (ne_false_of_eq_true hl)).trans (if_neg (ne_false_of_eq_true hi))))
end
end
end

/-- The boundary applies the one write that waits, where no flag was raised. -/
theorem commit_ctl_single {c : Ctx} (hf : c.pendFl = 0) (k : Nat) (v : Word) :
    ({ c with pendMts := [(k, v)] } : Ctx).commit.ctl = applyMts c.ctl k v := by
  simp [Ctx.commit, hf]

/-- Settles O6: the words by the cases of mode, register and scope, the boundary register by register. -/
theorem controlRegisterWrites : Obligations.ControlRegisterWrites := by
  dsimp only [Obligations.ControlRegisterWrites, exec]
  refine ⟨fun h rd ra k s g => ?words, fun c v _ hf => ?boundary⟩
  case words =>
    simp only [← ctlSystem_iff, Bool.not_eq_true]
    refine ⟨lword_setCur g rfl, execMts_system g, execMts_user_system_register g, execMts_user g, ?notLive, ?outside, ?inside⟩ <;> rintro hp rfl
    case notLive => exact execMts_scope_not_live g hp
    case outside => exact execMts_scope_outside g hp
    case inside => exact execMts_scope_inside g hp
  case boundary =>
    simp only [commit_ctl_single hf]
    exact ⟨rfl, rfl, rfl, rfl, rfl, rfl, rfl, rfl, rfl, rfl, rfl, rfl⟩

/-! ### Words that pass the time (spec 05 R151; 08 R224; 09 R267) -/

section
variable {h : Hdr} {s : State} (g : s.cur.guard h = true)
include g

theorem execNop_eq : execNop h s = .next (s.wrote s.cur) := lword_ok g rfl
theorem execYield_eq : execYield h s = .next (s.wrote { s.cur with bubble := 1 }) := lword_setCur g rfl
theorem execPause_zero : execPause h 0 s = .next (s.wrote { s.cur with bubble := 1 }) := lword_setCur g rfl
theorem execPause_holds {k : BitVec 8} (hk : k ≠ 0) :
    execPause h k s = .next ((s.setCur { s.cur with bubble := 16, hold := .paused }).later .pauseExpiry s.fcore s.fctx).finish :=
  lword_ok g (if_neg hk)
end

theorem State.cur_later (s : State) (i : Instr) (a b c : Nat) : (s.later i a b c).cur = s.cur := rfl

/-- Settles O7: a pause holds its context until the timer that it adds. -/
theorem nopYieldPause : Obligations.NopYieldPause := by
  dsimp only [Obligations.NopYieldPause, exec]
  intro h k s g
  refine ⟨execNop_eq g, execYield_eq g, (execPause_zero g).trans (execYield_eq g).symm, fun hk => ⟨_, execPause_holds g hk, ?_, rfl⟩⟩
  rw [State.cur_finish, State.cur_later, State.cur_setCur]

/-! ### What a scalar word leaves alone (spec 05 R131 to R148) -/

theorem Ctx.pr_setP_ne (c : Ctx) {pd p : BitVec 4} (v : Bool) (hp : p ≠ pd) : (c.setP pd v).pr p = c.pr p := by
  have hn : pd.toNat ≠ p.toNat := fun e => hp (BitVec.eq_of_toNat_eq e.symm)
  have hbit : (1#16 <<< pd.toNat).getLsbD p.toNat = false := by
    rw [← BitVec.twoPow_eq, BitVec.getLsbD_twoPow, decide_eq_false hn, Bool.and_false]
  rw [Ctx.setP]
  split
  · rfl
  · have hl : p.toNat < 16 := p.isLt
    cases v <;> simp only [Ctx.pr, BitVec.getLsbD_or, BitVec.getLsbD_and, BitVec.getLsbD_not, hbit, hl, Bool.false_eq_true, if_false, if_true,
      decide_true, Bool.not_false, Bool.and_true, Bool.or_false]

/-- A write of one predicate keeps the others. -/
theorem onlyP_setP (c : Ctx) (pd : BitVec 4) (v : Bool) : c.onlyP pd { c.setP pd v with fin := true } := by
  refine ⟨?_, fun p hp => c.pr_setP_ne v hp⟩
  rw [Ctx.setP]
  split <;> rfl

section
variable {h : Hdr} {s t : State} {rd ra rb pd : BitVec 4}

theorem setG_frame {f : Ctx → Word} (e : (rword h s fun c => c.setG rd (f c)) = .next t) : s.onlyCur t ∧ s.cur.onlyG rd t.cur ∧ s.sameBytes t :=
  rword_frame ⟨_, rfl⟩ e
theorem alu_frame {f : Word → Word → Word} (e : alu h s rd ra rb f = .next t) : s.onlyCur t ∧ s.cur.onlyG rd t.cur ∧ s.sameBytes t :=
  setG_frame e
theorem alu1_frame {f : Word → Word} (e : alu1 h s rd ra f = .next t) : s.onlyCur t ∧ s.cur.onlyG rd t.cur ∧ s.sameBytes t :=
  setG_frame e
theorem execMov_frame (e : execMov h rd ra s = .next t) : s.onlyCur t ∧ s.cur.onlyG rd t.cur ∧ s.sameBytes t :=
  rword_frame ⟨_, rfl⟩ e
/-- What mfs writes is a value of the state that it reads. -/
theorem execMfs_frame {k : BitVec 8} (e : execMfs h rd k s = .next t) : s.onlyCur t ∧ s.cur.onlyG rd t.cur ∧ s.sameBytes t :=
  setG_frame (f := fun _ => s.mfsVal k.toNat) e

/-- A word of the registers that writes one predicate changes nothing else, whatever its guard. -/
theorem setP_frame {f : Ctx → Bool} (e : (rword h s fun c => c.setP pd (f c)) = .next t) : s.onlyCur t ∧ s.cur.onlyP pd t.cur ∧ s.sameBytes t := by
  cases g : s.cur.guard h
  · rw [rword, lword_off _ g] at e; cases e
    exact ⟨finish_only s, by rw [State.cur_finish]; exact ⟨rfl, fun _ _ => rfl⟩, fun _ => rfl⟩
  · rw [rword_on _ g] at e; cases e
    exact ⟨wrote_only _ _, by rw [State.cur_wrote]; exact onlyP_setP _ _ _, wrote_same _ _⟩
theorem cmpWord_frame {b : Ctx → Word} {f : Word → Word → Bool} (e : cmpWord h s pd ra b f = .next t) :
    s.onlyCur t ∧ s.cur.onlyP pd t.cur ∧ s.sameBytes t :=
  setP_frame e
end

/-- Settles O8: each word is one of the forms above. -/
theorem scalarFrames : Obligations.ScalarFrames := by
  refine ⟨fun h rd ra rb imm amt up k s t => ?general, fun h pd pa pb ra rb imm v s t => ?predicate⟩ <;> simp only [List.forall_mem_cons]
  case general =>
    dsimp only [exec, execAdd, execSub, execAndR, execOrR, execXorR, execAndn, execSll, execSrl, execSra, execMul, execMulh, execDivS, execDivu, execRemS,
      execRemu, execMinS, execMaxS, execMinu, execMaxu, execClz, execPopc, execAddi, execAndi, execOri, execXori, execSlli, execSrli, execSrai, execLui,
      execAuipc, execPrd]
    exact ⟨alu_frame, alu_frame, alu_frame, alu_frame, alu_frame, alu_frame, alu_frame, alu_frame, alu_frame, alu_frame, alu_frame, alu_frame,
      alu_frame, alu_frame, alu_frame, alu_frame, alu_frame, alu_frame, alu_frame, execMov_frame, alu1_frame, alu1_frame, alu1_frame, alu1_frame,
      alu1_frame, alu1_frame, alu1_frame, alu1_frame, alu1_frame, setG_frame, setG_frame, setG_frame, execMfs_frame, fun _ h => nomatch h⟩
  case predicate =>
    dsimp only [exec, execCmpEq, execCmpNe, execCmpLt, execCmpGe, execCmpLtu, execCmpGeu, execCmpiEq, execCmpiNe, execCmpiLt, execCmpiGe, execCmpiLtu,
      execCmpiGeu, execPand, execPor, execPxor, execPandn, execPnot, execPset]
    exact ⟨cmpWord_frame, cmpWord_frame, cmpWord_frame, cmpWord_frame, cmpWord_frame, cmpWord_frame, cmpWord_frame, cmpWord_frame, cmpWord_frame,
      cmpWord_frame, cmpWord_frame, cmpWord_frame, setP_frame, setP_frame, setP_frame, setP_frame, setP_frame, setP_frame, fun _ h => nomatch h⟩

end Sys2Proof.Machine
end

section
/-! PROOFS. Floating-point, vector and row words (spec 06): scalar floating-point words, vector words that compute lane by lane, and row words. -/

namespace Sys2Proof.Machine

/-! ### Scalar floating-point words (spec 06 R152 to R160) -/

/-- How a scalar floating-point word that raises flags f ends, o being its answer: it leaves context d, or, one of the flags being enabled, it traps FPTRAP
with nothing but the flags raised (spec 04 R122, R123). -/
def FloatEnds (s : State) (o : Out) (f : Fl) (d : Ctx) : Prop :=
  (s.cur.ctl.hits f = 0 → o = .next (s.wrote d)) ∧
  (s.cur.ctl.hits f ≠ 0 → o = .next ((s.setCur (s.cur.raise f)).takeTrap (fpTrap (s.cur.ctl.hits f) 1)))

section
variable {h : Hdr} {s : State} {t : FTy} {rd ra rb : BitVec 4}

/-- The form of the scalar floating-point words. -/
theorem fpResult_ends {r : Ctx → Nat × Fl} {wr : Ctx → Nat → Ctx} (g : s.cur.guard h = true) :
    FloatEnds s (fpResult h s r wr) (r s.cur).2 (wr (s.cur.raise (r s.cur).2) (r s.cur).1) :=
  ⟨fpResult_on g, fpResult_trap g⟩
theorem fop2_ends {f : FTy → RMode → Nat → Nat → Nat × Fl} (g : s.cur.guard h = true) :
    let r := f t s.cur.ctl.mode (fopnd s.cur t ra) (fopnd s.cur t rb)
    FloatEnds s (fop2 h s t rd ra rb f) r.2 (setF rd (s.cur.raise r.2) r.1) :=
  fpResult_ends g
theorem fop3_ends {f : FTy → RMode → Nat → Nat → Nat → Nat × Fl} (g : s.cur.guard h = true) :
    let r := f t s.cur.ctl.mode (fopnd s.cur t ra) (fopnd s.cur t rb) (fopnd s.cur t rd)
    FloatEnds s (fop3 h s t rd ra rb f) r.2 (setF rd (s.cur.raise r.2) r.1) :=
  fpResult_ends g
theorem execFsqrt_ends (g : s.cur.guard h = true) :
    let r := fSqrt t s.cur.ctl.mode (fopnd s.cur t ra)
    FloatEnds s (execFsqrt h rd ra t s) r.2 (setF rd (s.cur.raise r.2) r.1) :=
  fpResult_ends g
theorem execFneg_writes (g : s.cur.guard h = true) :
    execFneg h rd ra t s = .next (s.wrote (setF rd s.cur (fopnd s.cur t ra ^^^ signBit t))) :=
  rword_on _ g
theorem execFclass_writes (g : s.cur.guard h = true) :
    execFclass h rd ra t s = .next (s.wrote (setF rd s.cur (fClass t (fopnd s.cur t ra)))) :=
  rword_on _ g

/-- The number that a compare answers is 1 exactly when its relation holds. -/
theorem toNat_beq_one (b : Bool) : (b.toNat == 1) = b := by cases b <;> rfl
theorem fcmp_ends {cc : FCmp} (g : s.cur.guard h = true) :
    let r := fCompare t s.cur.ctl.mode cc (fopnd s.cur t ra) (fopnd s.cur t rb)
    FloatEnds s (fcmp h s t rd ra rb cc) r.2 ((s.cur.raise r.2).setP rd r.1) := by
  intro r
  rw [← toNat_beq_one r.1]
  exact fpResult_ends g
theorem fcvt_ends {src dst : ETy} (g : s.cur.guard h = true) :
    let r := convertLane src dst s.cur.ctl.mode s.cur.ctl.sr s.cur.ctl.lfsr ((s.cur.gv ra).toNat % 2 ^ (8 * src.bytes))
    FloatEnds s (fcvt h s src dst rd ra) r.1.2 (setF rd { s.cur.raise r.1.2 with ctl := { s.cur.ctl with lfsr := r.2 } } r.1.1) :=
  fpResult_ends g

end

/-- Settles O10: each word is one of the forms above. -/
theorem scalarFloatWords : Obligations.ScalarFloatWords := by
  refine ⟨fun h rd ra rb ty s g => ?results, fun h rd ra rb ty src s g => ?comparesAndConversions⟩
  case results =>
    exact ⟨fop2_ends (f := fAdd) g, fop2_ends (f := fSub) g, fop2_ends (f := fMul) g, fop2_ends (f := fDiv) g,
      fop2_ends (f := fun t md => fMinMax t md false) g, fop2_ends (f := fun t md => fMinMax t md true) g, execFsqrt_ends g,
      fop3_ends (f := fFma) g, fop3_ends (f := fFms) g, execFneg_writes g, execFclass_writes g⟩
  case comparesAndConversions =>
    exact ⟨fcmp_ends g, fcmp_ends g, fcmp_ends g, fcmp_ends g, fcvt_ends g, fcvt_ends g, fcvt_ends g, fcvt_ends g, fcvt_ends g⟩

/-! ### Lanewise vector words (spec 06 R161 to R166, R171, R172; 01 R13) -/

/-- The lane mask of an FPTRAP: bit 0 is the first lane's, the lanes behind it stand one bit higher (spec 04 R123). -/
theorem laneMask_cons (c : Ctl) (f : Fl) (fs : List Fl) : laneMask c (f :: fs) = (c.hits f != 0).toNat + 2 * laneMask c fs := by
  have hz : (fs.zipIdx 1).filter (fun x => c.hits x.1 != 0) = (fs.zipIdx.filter fun x => c.hits x.1 != 0).map fun x => (x.1, x.2 + 1) := by
    rw [show fs.zipIdx 1 = fs.zipIdx.map fun x => (x.1, x.2 + 1) from List.zipIdx_succ .., List.filter_map]
    rfl
  have hs : ∀ l : List (Fl × Nat), (l.map fun x => 2 ^ (x.2 + 1)).sum = 2 * (l.map fun x => 2 ^ x.2).sum := by
    intro l
    simp only [pow_succ', List.sum_map_mul_left]
  simp only [laneMask, ← List.sum_eq_foldl, List.zipIdx_cons, List.filter_cons, Nat.zero_add, hz]
  cases c.hits f != 0 <;> simp [Function.comp_def, hs]
/-- Bit k of the lane mask is set exactly when lane k raised an enabled flag. -/
theorem testBit_laneMask (c : Ctl) (fs : List Fl) (k : Nat) : (laneMask c fs).testBit k = (fs[k]?).any fun f => c.hits f != 0 := by
  induction fs generalizing k with
  | nil => simp [laneMask]
  | cons f fs ih =>
    rw [laneMask_cons]
    cases k with
    | zero =>
      rw [Nat.testBit_zero, Nat.add_mul_mod_self_left, List.getElem?_cons_zero, Option.any_some]
      cases c.hits f != 0 <;> rfl
    | succ k =>
      rw [Nat.testBit_succ, List.getElem?_cons_succ, ← ih]
      congr 1
      have := (c.hits f != 0).toNat_lt
      omega

/-- How a vector word whose lanes come out as l ends, o being its answer: its result goes into a latch of latency lat, but for a floating-point word with an
exception enabled, which writes its register at issue or traps FPTRAP naming the lanes that raised an enabled flag (spec 01 R13; 04 R122, R123). -/
def LanesEnd (s : State) (wd : BitVec 3) (t : ETy) (lat : Nat) (l : List (Nat × Fl)) (o : Out) : Prop :=
  let c := s.cur
  let v := ofLanes t.bytes (l.map fun x => x.1)
  let f := orFl (l.map fun x => x.2)
  let precise : Bool := isFloat t && c.ctl.enables != 0
  (precise = false → o = .next (s.wrote { c with latches := c.latches ++ [⟨wd, v, lat, f⟩] })) ∧
  (precise = true → c.ctl.hits f = 0 → o = .next (s.wrote ((c.setW wd v).raise f))) ∧
  (precise = true → c.ctl.hits f ≠ 0 → ∃ lanes : Nat, o = .next ((s.setCur (c.raise f)).takeTrap (fpTrap (c.ctl.hits f) lanes)) ∧
    ∀ k, lanes.testBit k = ((l[k]?).any fun x => c.ctl.hits x.2 != 0))
/-- How a word of type t that computes each lane by f from the same lane of its sources ends. -/
def Lanewise (s : State) (wd wa wb wc : BitVec 3) (t : ETy) (lat : Nat) (f : Nat → Nat → Nat → Nat × Fl) (o : Out) : Prop :=
  let a (r : BitVec 3) (k : Nat) : Nat := laneGet (s.cur.wv r) t.bytes k
  ∃ l : List (Nat × Fl), l.length = 32 / t.bytes ∧ (∀ k < 32 / t.bytes, l[k]? = some (f (a wa k) (a wb k) (a wc k))) ∧ LanesEnd s wd t lat l o

section
variable {h : Hdr} {s : State} {wd wa wb wc : BitVec 3} {t : ETy} {lat : Nat}

/-- The form of the vector words. -/
theorem vword_ends {b : Ctx → Except Trap (Bool × BitVec 256 × List Fl)} {l : List (Nat × Fl)} (g : s.cur.guard h = true)
    (e : b s.cur = .ok (isFloat t, pack t.bytes l)) : LanesEnd s wd t lat l (vword h s wd lat b) := by
  refine ⟨vword_latch g e, fun p hf => ?write, fun p hf => ⟨laneMask s.cur.ctl (l.map fun x => x.2), ?trap, fun k => ?mask⟩⟩
  case write =>
    rw [← State.finish_setCur]
    refine lword_ok g ?_
    simp only [e, pack, latchRes_write p hf]
  case trap =>
    refine lword_trap g ?_
    simp only [e, pack, latchRes_trap p hf]
  case mask =>
    rw [testBit_laneMask, List.getElem?_map, Option.any_map]
/-- The results of a lanewise word, by their lane numbers. -/
theorem lanewise_of_ends {f : Nat → Nat → Nat → Nat × Fl} {o : Out}
    (e : LanesEnd s wd t lat ((List.range (32 / t.bytes)).map fun k =>
      f (laneGet (s.cur.wv wa) t.bytes k) (laneGet (s.cur.wv wb) t.bytes k) (laneGet (s.cur.wv wc) t.bytes k)) o) :
    Lanewise s wd wa wb wc t lat f o :=
  ⟨_, by simp, fun k hk => by simp [hk], e⟩
/-- Words of two registers, with a type they allow. -/
theorem v2_lanewise {ok : ETy → Bool} (f : ETy → RMode → Nat → Nat → Nat × Fl) (g : s.cur.guard h = true) (ht : ok t = true) :
    Lanewise s wd wa wb wc t lat (fun a b _ => f t s.cur.ctl.mode a b) (v2 h s wd wa wb (.of t) lat ok f) := by
  refine lanewise_of_ends (vword_ends g ?_)
  simp only [vtyOfCtl, ht, if_true, lanesOf, List.zip_map', List.map_map]
  rfl
/-- Words of one register, with a type they allow. -/
theorem v1_lanewise {ok : ETy → Bool} (f : ETy → RMode → Nat → Nat × Fl) (g : s.cur.guard h = true) (ht : ok t = true) :
    Lanewise s wd wa wb wc t lat (fun a _ _ => f t s.cur.ctl.mode a) (v1 h s wd wa (.of t) lat ok f) := by
  obtain ⟨l, hn, hl, he⟩ := v2_lanewise (wd := wd) (wa := wa) (wb := wa) (wc := wc) (lat := lat) (fun t md a _ => f t md a) g ht
  exact ⟨l, hn, hl, he⟩
/-- Words of three registers. -/
theorem v3_lanewise (f : ETy → RMode → Nat → Nat → Nat → Nat × Fl) (g : s.cur.guard h = true) :
    Lanewise s wd wa wb wc t lat (f t s.cur.ctl.mode) (v3 h s wd wa wb wc (.of t) lat f) :=
  lanewise_of_ends (vword_ends g rfl)
/-- Transcendentals of a float type they allow. -/
theorem vtrans_lanewise {op : TransOp} {f : FTy} (g : s.cur.guard h = true) (hf : laneOf t = .flt f) (ht : transTy t = true) :
    Lanewise s wd wa wb wc t 12 (fun a _ _ => trans op f s.cur.ctl.mode a) (vtrans h s wd wa (.of t) op) := by
  have e := v1_lanewise (wd := wd) (wa := wa) (wb := wb) (wc := wc) (lat := 12)
    (fun t md a => match laneOf t with | .flt f => trans op f md a | .sint _ => (a, 0) | .uint _ => (a, 0) | .fx => (a, 0)) g ht
  simp only [hf] at e
  exact e

end

/-- Settles O12: each word is one of the forms above. -/
theorem vectorLaneResults : Obligations.VectorLaneResults := by
  intro h wd wa wb wc t s g
  have one (f) : Lanewise s wd wa wb wc t 4 (fun a _ _ => f t s.cur.ctl.mode a) (v1 h s wd wa (.of t) 4 anyTy f) := v1_lanewise f g rfl
  have two (lat f) : Lanewise s wd wa wb wc t lat (fun a b _ => f t s.cur.ctl.mode a b) (v2 h s wd wa wb (.of t) lat anyTy f) := v2_lanewise f g rfl
  have three (lat f) : Lanewise s wd wa wb wc t lat (f t s.cur.ctl.mode) (v3 h s wd wa wb wc (.of t) lat f) := v3_lanewise f g
  have compare (cc) := two 2 fun t md a b => maskLane t (laneCmp cc t md a b)
  refine ⟨two 4 laneAdd, two 4 laneSub, two 4 laneMul, two 4 (laneMinMax false), two 4 (laneMinMax true),
    one fun t _ a => (laneAbs t a, 0), one fun t _ a => (laneNeg t a, 0),
    two 4 fun _ _ a b => (a &&& b, 0), two 4 fun _ _ a b => (a ||| b, 0), two 4 fun _ _ a b => (a ^^^ b, 0),
    three 4 (laneFma false), three 4 (laneFma true), three 2 fun _ _ a b x => (if x = 0 then b else a, 0),
    compare .eq, compare .lt, compare .le, fun hi => ?shifts, fun f hf ht => ?transcendentals⟩
  case shifts =>
    have shift (f) : Lanewise s wd wa wb wc t 4 (fun a b _ => f t s.cur.ctl.mode a b) (v2 h s wd wa wb (.of t) 4 shiftTy f) :=
      v2_lanewise f g (by rw [shiftTy, hi]; rfl)
    exact ⟨shift fun t _ a b => (laneShl t a b, 0), shift fun t _ a b => (laneShr t a b, 0)⟩
  case transcendentals =>
    have transcendental (op) : Lanewise s wd wa wb wc t 12 (fun a _ _ => trans op f s.cur.ctl.mode a) (vtrans h s wd wa (.of t) op) := vtrans_lanewise g hf ht
    exact ⟨transcendental .sin, transcendental .cos, transcendental .exp, transcendental .log2, transcendental .rsqrt, transcendental .rcp⟩

/-! ### Rows of tile memory by their lanes (spec 06 R174, R177; 12 R321) -/

/-- The elements of a run of bytes, by their numbers. -/
theorem elems_eq_map (w n : Nat) (l : List Byte) : elems w n l = (List.range n).map fun k => leNat ((l.drop (w * k)).take w) := by
  induction n generalizing l with
  | zero => rfl
  | succ n ih =>
    rw [elems, ih, List.range_succ_eq_map, List.map_cons, List.map_map, Nat.mul_zero, List.drop_zero]
    congr 1
    refine List.map_congr_left fun k _ => ?_
    rw [Function.comp_apply, List.drop_drop, Nat.mul_succ, Nat.add_comm w]
theorem tileRd_length (s : State) (core sp off n : Nat) : (s.tileRd core sp off n).length = n := by simp [State.tileRd]
/-- Bytes within a read of tile memory. -/
theorem tileRd_drop_take (s : State) (core sp off : Nat) {n i k : Nat} (hk : i + k ≤ n) :
    ((s.tileRd core sp off n).drop i).take k = s.tileRd core sp (off + i) k := by
  apply List.ext_getElem
  · simp only [State.tileRd, List.length_take, List.length_drop, List.length_map, List.length_range]; omega
  · intro j h1 h2
    simp [State.tileRd, Nat.add_assoc]
theorem tileRd_getD (s : State) (core sp off : Nat) {n j : Nat} (hj : j < n) :
    (s.tileRd core sp off n).getD j 0 = memGet s.mem (tilePa core sp (off + j)) :=
  getD_map_range _ hj
/-- The lanes of a type fill a beat. -/
theorem lanes_mul_bytes (t : ETy) : 32 / t.bytes * t.bytes = 32 := by cases t <;> rfl
theorem bytes_pos (t : ETy) : 0 < t.bytes := by cases t <;> decide

/-- Lane k of a source of a row word, lanes of w bytes, the beat at off. -/
def State.rowLane (s : State) (off w k : Nat) : Nat := leNat (s.tileRd s.fcore s.cur.space (off + w * k) w)
/-- The lanes of a beat that was read from tile memory. -/
theorem beatLanes_tileRd (s : State) (t : ETy) (off : Nat) :
    beatLanes t (s.tileRd s.fcore s.cur.space off 32) = (List.range (32 / t.bytes)).map (s.rowLane off t.bytes) := by
  rw [beatLanes, elems_eq_map]
  refine List.map_congr_left fun k hk => ?_
  have hin : t.bytes * k + t.bytes ≤ 32 := by
    rw [← Nat.mul_succ, Nat.mul_comm]
    exact (Nat.mul_le_mul_right _ (List.mem_range.1 hk)).trans_eq (lanes_mul_bytes t)
  rw [tileRd_drop_take _ _ _ _ hin]
  rfl
/-- The pairs of lanes of two such beats. -/
theorem zip_beatLanes_tileRd (s : State) (t : ETy) (x y : Nat) :
    (beatLanes t (s.tileRd s.fcore s.cur.space x 32)).zip (beatLanes t (s.tileRd s.fcore s.cur.space y 32)) =
      (List.range (32 / t.bytes)).map fun k => (s.rowLane x t.bytes k, s.rowLane y t.bytes k) := by
  rw [beatLanes_tileRd, beatLanes_tileRd, List.zip_map']

theorem packElems_length (w : Nat) (xs : List Nat) : (packElems w xs).length = xs.length * w := by
  simp [packElems, List.length_flatMap, leBytes_length]
/-- A byte of the bytes of elements. -/
theorem packElems_getD {w j : Nat} (xs : List Nat) (hj : j < xs.length * w) :
    (packElems w xs).getD j 0 = BitVec.ofNat 8 (xs.getD (j / w) 0 / 256 ^ (j % w)) := by
  induction xs generalizing j with
  | nil => simp at hj
  | cons x xs ih =>
    rw [packElems, List.flatMap_cons]
    by_cases hw : j < w
    · rw [List.getD_append _ _ _ _ (by rwa [leBytes_length]), leBytes_getD _ hw, Nat.div_eq_of_lt hw, Nat.mod_eq_of_lt hw, List.getD_cons_zero, pow_mul]
      rfl
    · have hl : j - w < xs.length * w := by rw [List.length_cons, Nat.succ_mul] at hj; omega
      have hw0 : 0 < w := Nat.pos_of_ne_zero fun h => by simp [h] at hl
      rw [List.getD_append_right _ _ _ _ (by rw [leBytes_length]; omega), leBytes_length]
      refine (ih hl).trans ?_
      rw [Nat.mod_eq_sub_mod (Nat.not_lt.1 hw), Nat.div_eq_sub_div hw0 (Nat.not_lt.1 hw), List.getD_cons_succ]

/-- Byte j of the lanes r k of type t, least significant byte first. -/
def laneByte (t : ETy) (r : Nat → Nat) (j : Nat) : Byte := BitVec.ofNat 8 (r (j / t.bytes) / 256 ^ (j % t.bytes))
/-- The bytes of n lanes. -/
theorem packElems_lanes {t : ETy} {n j : Nat} (r : Nat → Nat) (hj : j < n * t.bytes) :
    (packElems t.bytes ((List.range n).map r)).getD j 0 = laneByte t r j := by
  have hk : j / t.bytes < n := Nat.div_lt_of_lt_mul (by rwa [Nat.mul_comm])
  rw [packElems_getD _ (by simpa using hj), laneByte, List.getD_eq_getElem _ _ (by simpa using hk), List.getElem_map, List.getElem_range]

/-! ### The operands of a row word (spec 06 R175) -/

/-- A row operand that passes its checks lies in tile memory. -/
theorem rowCheck1_within {s : State} {o : RowOpnd} (h : s.rowCheck1 o = .ok .tile) : ∀ i < o.len, o.a + i < 0x40000 := by
  unfold State.rowCheck1 at h
  dsimp only at h
  split at h
  · cases h
  split at h
  · cases h
  next hin =>
    intro i hi
    simpa using firstOff_none hin hi
/-- The checks pass on no place but tile memory. -/
theorem rowCheck1_ok {s : State} {o : RowOpnd} {p : Place} (h : s.rowCheck1 o = .ok p) : p = .tile := by
  unfold State.rowCheck1 at h
  dsimp only at h
  split at h
  · cases h
  iterate 7
    split at h
    · cases h
  cases h; rfl
/-- The operands of a row word that passes its checks lie in tile memory. -/
theorem rowCheck_within {s : State} {os : List RowOpnd} (h : s.rowCheck os = .ok .tile) : ∀ o ∈ os, ∀ i < o.len, o.a + i < 0x40000 := by
  induction os with
  | nil => simp
  | cons o os ih =>
    rw [State.rowCheck] at h
    split at h
    · cases h
    · split at h <;> cases h
    next p ho =>
      obtain rfl := rowCheck1_ok ho
      intro o' ho'
      obtain rfl | ho' := List.mem_cons.1 ho'
      · exact rowCheck1_within ho
      · exact ih h o' ho'

/-- x differs from s in nothing but what cores keep of their tile pages; the queues of the row units are as they were. -/
def State.onlyFrames (s x : State) : Prop := ∃ cs, x = { s with cores := cs } ∧ ∀ k, (x.core k).rowQ = (s.core k).rowQ
theorem State.onlyFrames_refl (s : State) : s.onlyFrames s := ⟨s.cores, rfl, fun _ => rfl⟩
theorem State.onlyFrames_trans {s x y : State} (hx : s.onlyFrames x) (hy : x.onlyFrames y) : s.onlyFrames y := by
  obtain ⟨_, rfl, hq⟩ := hx
  obtain ⟨cs, rfl, hq'⟩ := hy
  exact ⟨cs, rfl, fun k => (hq' k).trans (hq k)⟩
/-- The use of a tile page changes only the order in which the pages of its core were used (spec 12 R322). -/
theorem used_tile_only (s : State) (a n : Nat) : s.onlyFrames (s.used .tile a n) := by
  refine ⟨_, rfl, fun k => ?_⟩
  change ((s.setCore s.fcore _).core k).rowQ = _
  by_cases hk : k = s.fcore
  · subst hk
    rw [State.core_setCore_same]
    dsimp only
    split <;> rfl
  · simp only [State.core, State.setCore, tget_tset_ne _ _ _ _ hk]
/-- So does the use of all operands of a row word. -/
theorem foldl_used_only (os : List RowOpnd) (s : State) : s.onlyFrames (os.foldl (fun s o => s.used .tile o.a o.len) s) := by
  induction os generalizing s with
  | nil => exact s.onlyFrames_refl
  | cons o os ih => exact State.onlyFrames_trans (used_tile_only s o.a o.len) (ih _)

/-! ### The first beat of a row word (spec 06 R174 to R177) -/

/-- The bytes that the first beat of a row word of the context that issues reads from each source. -/
def State.rowSources (s : State) (os : List RowOpnd) : List (List Byte) :=
  (os.filter fun o => o.rd).map fun o => s.tileRd s.fcore s.cur.space o.a 32
/-- No source of the first beat is poisoned. -/
def State.rowClean (s : State) (os : List RowOpnd) : Prop :=
  ∀ o ∈ os, o.rd = true → ∀ j < 32, tilePa s.fcore s.cur.space (o.a + j) / 64 ∉ s.poison
/-- The operands of a row word pass their checks, and no source of the first beat is poisoned. -/
def State.rowReady (s : State) (os : List RowOpnd) : Prop := s.rowCheck os = .ok .tile ∧ s.rowClean os

/-- Clearing the poison of a row changes poison marks only. -/
theorem cleanRow_only (s : State) (core sp off n : Nat) : ∃ p, s.cleanRow core sp off n = { s with poison := p } := by
  unfold State.cleanRow
  split <;> exact ⟨_, rfl⟩
/-- With clean sources and no exception enabled the first beat writes its bytes at the destination, and changes no general, predicate or vector register. -/
theorem rowBeat_first {s : State} {w : RowSpec} {t : ETy} {os : List RowOpnd} {d : RowOpnd} {o : BeatOut} (he : s.cur.ctl.enables = 0)
    (hos : w.opnds s.cur t s.cur.ctl.beats = d :: os) (hp : s.rowClean (d :: os)) (ho : w.beat t s.cur (s.rowSources (d :: os)) = o) :
    ∃ m p e, rowBeat s s.fcore s.fctx w t 0 = (({ s with mem := m, poison := p } : State).setCur e, none) ∧
      m = (s.tileWr s.fcore s.cur.space d.a o.bytes).mem ∧ e.g = s.cur.g ∧ e.preds = s.cur.preds ∧ e.w = s.cur.w := by
  have hclean : (((d :: os).filter fun o => o.rd).map fun o => o.a).findSome? (fun a =>
      (s.tilePoison s.fcore s.cur.space a 32).map fun i => a + i) = none := by
    simp only [List.findSome?_eq_none_iff, List.mem_map, List.mem_filter, Option.map_eq_none_iff, State.tilePoison, List.find?_eq_none]
    rintro _ ⟨x, ⟨hx, hr⟩, rfl⟩ i hi
    simpa using hp x hx hr i (List.mem_range.1 hi)
  have hsrc : (((d :: os).filter fun o => o.rd).map fun o => o.a).map (fun a => s.tileRd s.fcore s.cur.space a 32) = s.rowSources (d :: os) :=
    List.map_map ..
  have hhits (f : Fl) : (s.cur.raise f).ctl.hits f = 0 := by simp [Ctl.hits, Ctx.raise, he]
  obtain ⟨m, p, hw⟩ := tileWr_only s s.fcore s.cur.space d.a o.bytes
  obtain ⟨p', hc⟩ := cleanRow_only { s with mem := m, poison := p } s.fcore s.cur.space d.a (d.a + o.bytes.length - d.a)
  refine ⟨m, p', { s.cur.raise (orFl o.flags) with ctl := { s.cur.ctl with lfsr := o.lfsr } }, ?_, by rw [hw], rfl, rfl, rfl⟩
  unfold rowBeat
  simp only [show s.ctx s.fcore s.fctx = s.cur from rfl, hos, Nat.mul_zero, Nat.zero_mul, Nat.add_zero, hclean, hsrc, ho, hhits, ne_eq, not_true_eq_false,
    if_false, List.head?_cons, Option.map_some, Option.getD_some, show (s.cur.raise (orFl o.flags)).space = s.cur.space from rfl, hw, hc]
  rfl
/-- The context that issues is held in the row unit of its core with b beats of word i performed, behind the words already there. -/
def State.rowHeld (s : State) (i : Instr) (b : Nat) : State :=
  (s.setCur { s.cur with hold := .row i b }).onCore s.fcore fun x => { x with rowQ := x.rowQ ++ [s.fctx] }
theorem State.cur_rowHeld (s : State) (i : Instr) (b : Nat) : (s.rowHeld i b).cur = { s.cur with hold := .row i b } :=
  State.cur_setCur s _
theorem State.rowQ_rowHeld (s : State) (i : Instr) (b : Nat) :
    ((s.rowHeld i b).core s.fcore).rowQ = (s.core s.fcore).rowQ ++ [s.fctx] :=
  congrArg Core.rowQ (State.core_setCore_same ..)

/-- How a row word i runs whose first beat leaves byte j at off + j for j < n: with the row unit free the bytes stand there as the word issues, and the word is
held for its next beat; with the unit busy it is held behind the others (log entry 22). -/
def RowRuns (s : State) (i : Instr) (off n : Nat) (byte : Nat → Byte) (out : Out) : Prop :=
  let c := s.cur
  let pa (j : Nat) : Nat := tilePa s.fcore c.space (off + j)
  ∃ x, out = .next x ∧ x.cur.g = c.g ∧ x.cur.preds = c.preds ∧ x.cur.w = c.w ∧ (x.core s.fcore).rowQ = (s.core s.fcore).rowQ ++ [s.fctx] ∧
    ((s.core s.fcore).rowQ = [] → x.cur.hold = .row i 1 ∧ x.agenda = s.agenda ++ [(.rowWordComplete, { a := s.fcore })] ∧
      (∀ j < n, memGet x.mem (pa j) = byte j) ∧ ∀ y, (∀ j < n, y ≠ pa j) → memGet x.mem y = memGet s.mem y) ∧
    ((s.core s.fcore).rowQ ≠ [] → x.cur.hold = .row i 0 ∧ x.agenda = s.agenda ∧ x.mem = s.mem)

section
variable {h : Hdr} {s : State} {i : Instr} {w : RowSpec} {t : ETy} {os : List RowOpnd} {d : RowOpnd} {o : BeatOut}

/-- A row word whose operands pass finds the unit busy. u is the state with the operands' pages used. -/
theorem rowWord_busy {u : State} (g : s.cur.guard h = true) (ht : s.cur.ctl.shapeTy = .ok t) (hi : rowSpec i = some w)
    (hc : s.rowCheck (w.opnds s.cur t s.cur.ctl.beats) = .ok .tile)
    (hu : (w.opnds s.cur t s.cur.ctl.beats).foldl (fun s o => s.used .tile o.a o.len) s = u) (hq : (u.core u.fcore).rowQ ≠ []) :
    rowWord h s i = .next (u.rowHeld i 0) := by
  refine lword_wait g ?_
  simp only [ht, hi, hc, hu]
  exact if_neg (by simpa using hq)
/-- A row word whose operands pass finds the unit free, and its first beat does not trap. -/
theorem rowWord_free {u y : State} (g : s.cur.guard h = true) (ht : s.cur.ctl.shapeTy = .ok t) (hi : rowSpec i = some w)
    (hc : s.rowCheck (w.opnds s.cur t s.cur.ctl.beats) = .ok .tile)
    (hu : (w.opnds s.cur t s.cur.ctl.beats).foldl (fun s o => s.used .tile o.a o.len) s = u) (hq : (u.core u.fcore).rowQ = [])
    (hb : rowBeat u u.fcore u.fctx w t 0 = (y, none)) : rowWord h s i = .next ((y.rowHeld i 1).due .rowWordComplete y.fcore) := by
  refine lword_wait g ?_
  simp only [ht, hi, hc, hu]
  rw [if_pos (by rw [hq]; rfl), hb]
  rfl

variable (g : s.cur.guard h = true) (ht : s.cur.ctl.shapeTy = .ok t) (he : s.cur.ctl.enables = 0)
include g ht he

/-- A word whose operands pass and whose sources are clean, no exception being enabled, runs with the bytes of its first beat. -/
theorem rowWord_runs {n : Nat} {byte : Nat → Byte} (hi : rowSpec i = some w) (hos : w.opnds s.cur t s.cur.ctl.beats = d :: os)
    (hr : s.rowReady (d :: os)) (ho : w.beat t s.cur (s.rowSources (d :: os)) = o) (hn : o.bytes.length = n) (h0 : 0 < n) (hl : n ≤ d.len)
    (hbyte : ∀ j < n, o.bytes.getD j 0 = byte j) : RowRuns s i d.a n byte (rowWord h s i) := by
  obtain ⟨hc, hp⟩ := hr
  have hlast := rowCheck_within hc d List.mem_cons_self (n - 1) (by omega)
  obtain ⟨cs, hu, hq⟩ := foldl_used_only (d :: os) s
  rw [hu] at hq
  rw [← hos] at hc hu
  by_cases hfree : (s.core s.fcore).rowQ = []
  · obtain ⟨m, p, e, hb, rfl, heg, hep, hew⟩ := rowBeat_first (s := { s with cores := cs }) he hos hp ho
    obtain ⟨hput, hrest⟩ := tileWr_bytes { s with cores := cs } s.fcore s.cur.space (off := d.a) (bs := o.bytes) (by omega)
    rw [hn] at hput hrest
    have hx := rowWord_free g ht hi hc hu ((hq _).trans hfree) hb
    have hcur (y : State) : ((y.setCur e).rowHeld i 1).cur = { e with hold := .row i 1 } := by rw [State.cur_rowHeld, State.cur_setCur]
    exact ⟨_, hx, (congrArg Ctx.g (hcur _)).trans heg, (congrArg Ctx.preds (hcur _)).trans hep, (congrArg Ctx.w (hcur _)).trans hew,
      (State.rowQ_rowHeld ..).trans (congrArg (· ++ [s.fctx]) (hq s.fcore)),
      fun _ => ⟨congrArg Ctx.hold (hcur _), rfl, fun j hj => (hput j hj).trans (hbyte j hj), hrest⟩, absurd hfree⟩
  · have hcur : (({ s with cores := cs } : State).rowHeld i 0).cur = { s.cur with hold := .row i 0 } := State.cur_rowHeld ..
    exact ⟨_, rowWord_busy g ht hi hc hu (by rwa [hq]), by rw [hcur], by rw [hcur], by rw [hcur],
      (State.rowQ_rowHeld ..).trans (congrArg (· ++ [s.fctx]) (hq s.fcore)), fun hf => absurd hf hfree, fun _ => ⟨by rw [hcur], rfl, rfl⟩⟩
end

/-! ### The row words (spec 06 R174) -/

section
variable {h : Hdr} {s : State} {i : Instr} {w : RowSpec} {t : ETy} {os : List RowOpnd} {d : RowOpnd} {rd ra rb : BitVec 4} {vt : VTy}

/-- A valid SHAPE has a beat. -/
theorem beats_pos {c : Ctl} (ht : c.shapeTy = .ok t) : 0 < c.beats := by
  unfold Ctl.shapeTy at ht
  split at ht
  · cases ht
  · omega
/-- A list by its numbers. -/
theorem eq_map_getElem?_getD {α : Type} (l : List α) (x : α) : l = (List.range l.length).map fun k => (l[k]?).getD x := by
  apply List.ext_getElem <;> simp +contextual
/-- As many lanes are converted as there are. -/
theorem convertLanes_length (src dst : ETy) (md : RMode) (sr : Bool) (l : BitVec 32) (xs : List Nat) :
    (convertLanes src dst md sr l xs).1.length = xs.length := by
  induction xs generalizing l with
  | nil => rfl
  | cons x xs ih => exact congrArg (· + 1) (ih _)

variable (g : s.cur.guard h = true) (ht : s.cur.ctl.shapeTy = .ok t) (he : s.cur.ctl.enables = 0)
include g ht he

/-- A word whose first beat leaves n lanes of type u runs with their bytes. -/
theorem rowWord_lanes {u : ETy} {n : Nat} {r : Nat → Nat × Fl} (hi : rowSpec i = some w)
    (hos : w.opnds s.cur t s.cur.ctl.beats = d :: os) (hr : s.rowReady (d :: os))
    (ho : (w.beat t s.cur (s.rowSources (d :: os))).bytes = (beatOf u s.cur ((List.range n).map r)).bytes)
    (h0 : 0 < n * u.bytes) (hl : n * u.bytes ≤ d.len) : RowRuns s i d.a (n * u.bytes) (laneByte u fun k => (r k).1) (rowWord h s i) := by
  have hb : (beatOf u s.cur ((List.range n).map r)).bytes = packElems u.bytes ((List.range n).map fun k => (r k).1) := by
    simp only [beatOf, List.map_map, Function.comp_def]
  rw [hb] at ho
  refine rowWord_runs g ht he hi hos hr rfl ?_ h0 hl fun j hj => ?_
  · rw [ho, packElems_length]; simp
  · rw [ho]; exact packElems_lanes _ hj
/-- A word whose first beat leaves the lanes of a whole beat of type u runs with their bytes. -/
theorem rowWord_beat {u : ETy} {r : Nat → Nat × Fl} (hi : rowSpec i = some w) (hos : w.opnds s.cur t s.cur.ctl.beats = d :: os)
    (hr : s.rowReady (d :: os)) (hd : d.len = 32 * s.cur.ctl.beats)
    (ho : (w.beat t s.cur (s.rowSources (d :: os))).bytes = (beatOf u s.cur ((List.range (32 / u.bytes)).map r)).bytes) :
    RowRuns s i d.a 32 (laneByte u fun k => (r k).1) (rowWord h s i) := by
  have hB := beats_pos ht
  have e := rowWord_lanes g ht he hi hos hr ho (by rw [lanes_mul_bytes]; decide) (by rw [lanes_mul_bytes]; omega)
  rwa [lanes_mul_bytes] at e

/-- rowcpy copies its source. -/
theorem rowcpy_runs (hr : s.rowReady ((rowcpySpec rd ra).opnds s.cur t s.cur.ctl.beats)) :
    RowRuns s (.rowcpy h rd ra vt) (ea (s.cur.gr rd) 0).toNat 32
      (fun j => memGet s.mem (tilePa s.fcore s.cur.space ((ea (s.cur.gr ra) 0).toNat + j))) (execRowcpy h rd ra vt s) := by
  have hB := beats_pos ht
  exact rowWord_runs g ht he rfl rfl hr rfl (tileRd_length ..) (by decide) (show 32 ≤ 32 * s.cur.ctl.beats by omega) fun j hj =>
    tileRd_getD _ _ _ _ hj
/-- rowzero writes zeros. -/
theorem rowzero_runs (hr : s.rowReady ((rowzeroSpec rd).opnds s.cur t s.cur.ctl.beats)) :
    RowRuns s (.rowzero h rd vt) (ea (s.cur.gr rd) 0).toNat 32 (fun _ => 0) (execRowzero h rd vt s) := by
  have hB := beats_pos ht
  exact rowWord_runs g ht he rfl rfl hr rfl List.length_replicate (by decide) (show 32 ≤ 32 * s.cur.ctl.beats by omega) fun j hj =>
    List.getD_replicate _ hj
/-- Words element by element over two rows. -/
theorem row2_runs {f : ETy → RMode → Nat → Nat → Nat × Fl} (hi : rowSpec i = some (row2 rd ra rb vt f))
    (hr : s.rowReady ((row2 rd ra rb vt f).opnds s.cur t s.cur.ctl.beats)) :
    let u := rowTy vt t
    let lane (r : BitVec 4) : Nat → Nat := s.rowLane (ea (s.cur.gr r) 0).toNat u.bytes
    RowRuns s i (ea (s.cur.gr rd) 0).toNat 32 (laneByte u fun k => (f u s.cur.ctl.mode (lane ra k) (lane rb k)).1) (rowWord h s i) := by
  intro u lane
  refine rowWord_beat (r := fun k => f u s.cur.ctl.mode (lane ra k) (lane rb k)) g ht he hi rfl hr rfl ?_
  change (beatOf u s.cur (((beatLanes u (s.tileRd s.fcore s.cur.space _ 32)).zip (beatLanes u (s.tileRd s.fcore s.cur.space _ 32))).map _)).bytes = _
  rw [zip_beatLanes_tileRd, List.map_map]
  rfl
/-- rowaxpy adds a multiple of its source to its destination. -/
theorem rowaxpy_runs (hr : s.rowReady ((rowaxpySpec rd ra rb vt).opnds s.cur t s.cur.ctl.beats)) :
    let u := rowTy vt t
    let lane (r : BitVec 4) : Nat → Nat := s.rowLane (ea (s.cur.gr r) 0).toNat u.bytes
    RowRuns s (.rowaxpy h rd ra rb vt) (ea (s.cur.gr rd) 0).toNat 32
      (laneByte u fun k => (laneFma false u s.cur.ctl.mode ((s.cur.gv rb).toNat % 2 ^ (8 * u.bytes)) (lane ra k) (lane rd k)).1)
      (execRowaxpy h rd ra rb vt s) := by
  intro u lane
  refine rowWord_beat (r := fun k => laneFma false u s.cur.ctl.mode ((s.cur.gv rb).toNat % 2 ^ (8 * u.bytes)) (lane ra k) (lane rd k))
    g ht he rfl rfl hr rfl ?_
  change (beatOf u s.cur (((beatLanes u (s.tileRd s.fcore s.cur.space _ 32)).zip (beatLanes u (s.tileRd s.fcore s.cur.space _ 32))).map _)).bytes = _
  rw [zip_beatLanes_tileRd, List.map_map]
  rfl
/-- rowcvt converts the lanes of its source in order. -/
theorem rowcvt_runs (hr : s.rowReady ((rowcvtSpec rd ra vt).opnds s.cur t s.cur.ctl.beats)) :
    let u := rowTy vt t
    let xs := (List.range (32 / t.bytes)).map (s.rowLane (ea (s.cur.gr ra) 0).toNat t.bytes)
    RowRuns s (.rowcvt h rd ra vt) (ea (s.cur.gr rd) 0).toNat (32 / t.bytes * u.bytes)
      (laneByte u fun k => (((convertLanes t u s.cur.ctl.mode s.cur.ctl.sr s.cur.ctl.lfsr xs).1[k]?).getD (0, 0)).1) (execRowcvt h rd ra vt s) := by
  intro u xs
  have hB := beats_pos ht
  have hlen : 32 / t.bytes ≤ 32 * s.cur.ctl.beats / t.bytes := Nat.div_le_div_right (by omega)
  have hpos : 0 < 32 / t.bytes := Nat.pos_of_ne_zero fun h0 => by simpa [h0] using lanes_mul_bytes t
  refine rowWord_lanes (r := fun k => ((convertLanes t u s.cur.ctl.mode s.cur.ctl.sr s.cur.ctl.lfsr xs).1[k]?).getD (0, 0)) g ht he rfl rfl hr ?_
    (Nat.mul_pos hpos (bytes_pos u)) (Nat.mul_le_mul_right _ hlen)
  change (beatOf u s.cur (convertLanes t u s.cur.ctl.mode s.cur.ctl.sr s.cur.ctl.lfsr (beatLanes t (s.tileRd s.fcore s.cur.space _ 32))).1).bytes = _
  have hn : (convertLanes t u s.cur.ctl.mode s.cur.ctl.sr s.cur.ctl.lfsr xs).1.length = 32 / t.bytes := by
    rw [convertLanes_length, List.length_map, List.length_range]
  have hl := eq_map_getElem?_getD (convertLanes t u s.cur.ctl.mode s.cur.ctl.sr s.cur.ctl.lfsr xs).1 (0, 0)
  rw [hn] at hl
  rw [beatLanes_tileRd, ← hl]
  rfl
end

/-- Settles O26: each word is one of those above. -/
theorem rowWordsOneBeat : Obligations.RowWordsOneBeat := by
  intro h rd ra rb vt t s g ht he
  exact ⟨fun hr => rowcpy_runs g ht he hr, fun hr => rowzero_runs g ht he hr,
    fun hr => ⟨row2_runs (f := laneAdd) g ht he rfl hr, row2_runs (f := laneMul) g ht he rfl hr, row2_runs (f := laneMinMax true) g ht he rfl hr⟩,
    fun hr => rowaxpy_runs g ht he hr, fun hr => rowcvt_runs g ht he hr⟩

end Sys2Proof.Machine
end
section
/-! PROOFS. Memory words and the events they wait for (spec 07; 11; 12): the order of the checks of an access, atomics on tile memory, accesses to the
global space, replies, fills, fences and closes, and two statements refuted. -/

namespace Sys2Proof.Machine

/-! ### The places of an address and the order of the checks of an access (spec 07 R180, R182) -/

theorem placeOf_of_tile {iw : Bool} {me : BitVec 24} {a : Nat} (h : a < 0x40000) : placeOf iw me a = some .tile := if_pos h
theorem placeOf_of_inbox {me : BitVec 24} {a : Nat} (hl : 0x40000 ≤ a) (hu : a < 0x41000) : placeOf false me a = some .inbox := by
  rw [placeOf, if_neg (by omega), if_pos hu]; rfl
theorem placeOf_beyond {iw : Bool} {me : BitVec 24} {a : Nat} (h : 2 ^ 48 ≤ a) : placeOf iw me a = none := by
  rw [placeOf, if_neg (by omega), if_neg (by omega), if_neg (by omega), if_neg (by omega)]
theorem firstOff_zero {n : Nat} {f : Nat → Bool} (hn : 0 < n) (hf : f 0 = true) : firstOff n f = some 0 := by
  obtain ⟨m, rfl⟩ : ∃ m, n = m + 1 := ⟨n - 1, by omega⟩
  rw [firstOff, List.range_succ_eq_map, List.find?_cons_of_pos hf]
theorem firstOff_eq_none {n : Nat} {f : Nat → Bool} (h : ∀ i < n, f i = false) : firstOff n f = none := by
  rw [firstOff, List.find?_eq_none]
  intro i hi
  simp [h i (List.mem_range.1 hi)]
/-- A reset watchpoint sees nothing. -/
theorem watchHit_none {c : Ctl} (h : c.wpmask = Vector.replicate 4 0) (rd wr : Bool) (a : Nat) : watchHit c rd wr a = none := by
  rw [watchHit, h, List.find?_eq_none]
  intro i hi
  have hi := List.mem_range.1 hi
  interval_cases i <;> simp [Vector.getD]

section
variable {s : State} {a n al : Nat} {rd wr : Bool} {g : GReg}

theorem check_misaligned (h0 : al ≠ 0) (h : a % al ≠ 0) : s.check a n al rd wr g = .trap ⟨0x04, 0, BitVec.ofNat 64 a⟩ := if_pos ⟨h0, h⟩
theorem check_unplaced (hn : 0 < n) (hal : al = 0 ∨ a % al = 0) (h : 2 ^ 48 ≤ a) : s.check a n al rd wr g = .trap ⟨0x10, 0x02, BitVec.ofNat 64 a⟩ := by
  unfold State.check
  dsimp only
  rw [if_neg (by tauto), firstOff_zero hn (by rw [Nat.add_zero, placeOf_beyond h]; rfl)]
  rfl
theorem check_systemPage (hn : 0 < n) (hal : al = 0 ∨ a % al = 0) (hl : 0x3F000 ≤ a) (hu : a + n ≤ 0x40000) (hp : s.priv = false) :
    s.check a n al rd wr g = .trap ⟨0x03, 0, BitVec.ofNat 64 a⟩ := by
  have hpl : ∀ i < n, placeOf (s.fctx == 16) (s.rankOf s.fcore) (a + i) = some .tile := fun i hi => placeOf_of_tile (by omega)
  unfold State.check
  dsimp only
  rw [if_neg (by tauto), firstOff_eq_none fun i hi => by rw [hpl i hi]; rfl]
  dsimp only
  rw [firstOff_zero hn (by rw [hpl 0 hn, hp]; exact decide_eq_true (by unfold tileOff; omega))]
  rfl
theorem check_inbox (hn : 0 < n) (hal : al = 0 ∨ a % al = 0) (hl : 0x40000 ≤ a) (hu : a + n ≤ 0x41000) (hc : s.fctx ≠ 16) (hg : g.tag = false)
    (hw : s.cur.ctl.wpmask = Vector.replicate 4 0) :
    s.check a n al rd wr g = if wr then .trap ⟨0x10, 0x03, BitVec.ofNat 64 a⟩ else .ok .inbox := by
  have hpl : ∀ i < n, placeOf (s.fctx == 16) (s.rankOf s.fcore) (a + i) = some .inbox := fun i hi => by
    rw [beq_eq_false_iff_ne.2 hc]; exact placeOf_of_inbox (by omega) (by omega)
  have hh : checkHandle g a n rd wr = none := by simp [checkHandle, hg]
  have hwatch : ((List.range n).findSome? fun i => (watchHit s.cur.ctl rd wr (a + i)).map fun w => (i, w)) = none := by
    simp [List.findSome?_eq_none_iff, watchHit_none hw]
  unfold State.check
  dsimp only
  rw [if_neg (by tauto), firstOff_eq_none fun i hi => by rw [hpl i hi]; rfl]
  dsimp only
  rw [firstOff_eq_none fun i hi => by rw [hpl i hi, Bool.and_false]]
  dsimp only
  rw [hh]
  dsimp only
  rw [hwatch]
  dsimp only
  rw [firstOff_eq_none fun i hi => by rw [hpl i hi, show (some Place.inbox == some Place.tile) = false from rfl, Bool.and_false, Bool.false_and]]
  cases wr with
  | true => dsimp only; rw [firstOff_zero hn (by rw [hpl 0 hn]; rfl)]; rfl
  | false =>
    dsimp only
    rw [firstOff_eq_none fun i hi => Bool.false_and _]
    dsimp only
    rw [firstOff_eq_none fun i hi => by rw [hpl i hi]; rfl]
    dsimp only
    rw [firstOff_eq_none fun i hi => by rw [hpl i hi]; rfl]
    dsimp only
    rw [firstOff_eq_none fun i hi => by rw [hpl i hi, hpl 0 hn]; rfl, hpl 0 hn]
    rfl
end

/-- Settles O18, one check at a time. -/
theorem accessChecksInOrder : Obligations.AccessChecksInOrder := by
  intro s a n al rd wr g hn
  exact ⟨check_misaligned, check_unplaced hn, check_systemPage hn, check_inbox hn⟩

/-! ### Atomics on tile memory (spec 07 R194 to R196) -/

theorem pow_bytes (n : Nat) : 256 ^ n = 2 ^ (8 * n) := by rw [pow_mul]; rfl
/-- A byte of a number of bytes. -/
theorem leNat_byte (bs : List Byte) (j : Nat) : BitVec.ofNat 8 (leNat bs / 256 ^ j) = bs.getD j 0 := by
  apply BitVec.eq_of_getLsbD_eq
  intro i hi
  rw [BitVec.getLsbD_ofNat, pow_bytes, Nat.testBit_div_two_pow, Nat.add_comm, leNat_testBit bs j hi]
  simp [hi]
theorem tilePoison_none {s : State} {core sp off n : Nat} (h : ∀ j < n, tilePa core sp (off + j) / 64 ∉ s.poison) : s.tilePoison core sp off n = none := by
  simpa [State.tilePoison, List.find?_eq_none] using h
/-- The low bits of the signed reading of a number are the number. -/
theorem wrapN_toSigned {w x : Nat} (hx : x < 2 ^ w) : wrapN w (toSigned w x) = x := by
  have hmod : (x : Int) % (2 ^ w : Nat) = x := Int.emod_eq_of_lt (by omega) (by omega)
  unfold wrapN toSigned
  dsimp only
  rw [Nat.mod_eq_of_lt hx]
  split
  · rw [hmod]; rfl
  · rw [Int.sub_emod_right, hmod]; rfl
theorem atomNew_smin {n x y z : Nat} (hx : x < 256 ^ n) (hy : y < 256 ^ n) :
    atomNew 4 n x y z = wrapN (8 * n) (min (toSigned (8 * n) x) (toSigned (8 * n) y)) := by
  rw [pow_bytes] at hx hy
  rw [min_def, apply_ite (wrapN _), wrapN_toSigned hx, wrapN_toSigned hy]
  rfl
theorem atomNew_smax {n x y z : Nat} (hx : x < 256 ^ n) (hy : y < 256 ^ n) :
    atomNew 5 n x y z = wrapN (8 * n) (max (toSigned (8 * n) x) (toSigned (8 * n) y)) := by
  rw [pow_bytes] at hx hy
  rw [max_def, apply_ite (wrapN _), wrapN_toSigned hx, wrapN_toSigned hy]
  rfl

section
variable {h : Hdr} {s : State} {op : Nat} {rd ra rb : BitVec 4} {sys sgn : Bool} {n : Nat} {new : Nat → Nat → Nat → Nat}

/-- An atomic on the core's own tile memory stores what its operation makes of the old bytes and its operands, and answers the old bytes. -/
theorem atomWord_tile {off : Nat} (g : s.cur.guard h = true) (hn : 0 < n)
    (hnew : ∀ x y z, x < 256 ^ n → y < 256 ^ n → atomNew op n x y z = new x y z)
    (hc : s.check (ea (s.cur.gr ra) 0).toNat n n true true (s.cur.gr ra) = .ok .tile) (hoff : tileOff (ea (s.cur.gr ra) 0).toNat = off)
    (hp : ∀ j < n, tilePa s.fcore s.cur.space (off + j) / 64 ∉ s.poison) :
    let pa (j : Nat) : Nat := tilePa s.fcore s.cur.space (off + j)
    ∃ t old, atomWord h s op rd ra rb sys n sgn = .next t ∧ (∀ j < n, memGet s.mem (pa j) = BitVec.ofNat 8 (old / 256 ^ j)) ∧ old < 256 ^ n ∧
      (∀ j < n, memGet t.mem (pa j) = BitVec.ofNat 8 (new old ((s.cur.gv rb).toNat % 256 ^ n) ((s.cur.gv rd).toNat % 256 ^ n) / 256 ^ j)) ∧
      (∀ x, (∀ j < n, x ≠ pa j) → memGet t.mem x = memGet s.mem x) ∧ t.cur = { s.cur.setG rd (loadValue n sgn old) with fin := true } := by
  obtain ⟨old, hold⟩ : ∃ old, old = leNat (s.tileRd s.fcore s.cur.space off n) := ⟨_, rfl⟩
  obtain ⟨bs, hbs⟩ : ∃ bs, bs = leBytes n (atomNew op n old ((s.cur.gv rb).toNat % 256 ^ n) ((s.cur.gv rd).toNat % 256 ^ n)) := ⟨_, rfl⟩
  have hlt : old < 256 ^ n := by simpa [hold, pow_bytes, tileRd_length] using leNat_lt (s.tileRd s.fcore s.cur.space off n)
  have hy : (s.cur.gv rb).toNat % 256 ^ n < 256 ^ n := Nat.mod_lt _ (Nat.pow_pos (by decide))
  have hl : bs.length = n := hbs ▸ leBytes_length ..
  obtain ⟨hb, ho⟩ := tileWr_bytes s s.fcore s.cur.space (off := off) (bs := bs) (by rw [hl, ← hoff]; exact tileOff_within (check_tile hc) hn)
  rw [hl] at hb ho
  refine ⟨_, old, lword_ok g (t := ((s.tileWr s.fcore s.cur.space off bs).used .tile (ea (s.cur.gr ra) 0).toNat n).setCur
    (s.cur.setG rd (loadValue n sgn old))) ?_, fun j hj => ?_, hlt, fun j hj => ?_, ho, ?_⟩
  · simp only [hc, hoff, tilePoison_none hp, ← pow_bytes, ← hold, ← hbs]
  · rw [hold, leNat_byte, tileRd_getD _ _ _ _ hj]
  · refine (hb j hj).trans ?_
    rw [hbs, leBytes_getD _ hj, ← pow_bytes, hnew _ _ _ hlt hy]
  · rw [State.cur_finish, State.cur_setCur]
end

/-- Settles O16: each operation is one of `atomNew`. -/
theorem tileAtomics : Obligations.TileAtomics := by
  intro h rd ra rb sys dbl s g c a pa does n i2
  have hn : 0 < n := by dsimp only [n]; cases dbl <;> decide
  exact ⟨fun hc => atomWord_tile (op := 0) (new := fun x y _ => (x + y) % 256 ^ n) g hn (fun x y _ _ _ => congrArg ((x + y) % ·) (pow_bytes n).symm) hc rfl,
    fun hc => atomWord_tile g hn (fun _ _ _ _ _ => rfl) hc rfl, fun hc => atomWord_tile g hn (fun _ _ _ _ _ => rfl) hc rfl,
    fun hc => atomWord_tile g hn (fun _ _ _ _ _ => rfl) hc rfl, fun hc => atomWord_tile g hn (fun _ _ _ => atomNew_smin) hc rfl,
    fun hc => atomWord_tile g hn (fun _ _ _ => atomNew_smax) hc rfl, fun hc => atomWord_tile g hn (fun _ _ _ _ _ => rfl) hc rfl,
    fun hc => atomWord_tile g hn (fun _ _ _ _ _ => rfl) hc rfl, fun hc => atomWord_tile g (by decide) (fun _ _ _ _ _ => rfl) hc rfl,
    fun hc => atomWord_tile g (by decide) (fun _ _ _ _ _ => rfl) hc rfl⟩

/-! ### The pieces of an access (spec 07 R183) -/

theorem piecesOf_zero (f a : Nat) : piecesOf f a 0 = [] := by cases f <;> rfl
theorem piecesOf_succ {n : Nat} (f a : Nat) (hn : n ≠ 0) :
    piecesOf (f + 1) a n = { va := a, len := min n (64 - a % 64) } :: piecesOf f (a + min n (64 - a % 64)) (n - min n (64 - a % 64)) := if_neg hn
/-- No piece crosses a 64-byte boundary. -/
theorem piecesOf_lines {f a n : Nat} {p : Piece} (h : p ∈ piecesOf f a n) : p.va % 64 + p.len ≤ 64 := by
  induction f generalizing a n with
  | zero => cases h
  | succ f ih =>
    by_cases hn : n = 0
    · rw [hn, piecesOf_zero] at h; cases h
    · rw [piecesOf_succ f a hn] at h
      obtain rfl | h := List.mem_cons.1 h
      · show a % 64 + min n (64 - a % 64) ≤ 64
        omega
      · exact ih h
/-- Where the pieces have fuel for the lines of an access, each of its bytes lies in one of them. -/
theorem piecesOf_covers {f a n j : Nat} (hf : a % 64 + n ≤ 64 * f) (hj : j < n) : ∃ p ∈ piecesOf f a n, p.va ≤ a + j ∧ a + j < p.va + p.len := by
  induction f generalizing a n j with
  | zero => omega
  | succ f ih =>
    rw [piecesOf_succ f a (by omega)]
    by_cases hk : j < min n (64 - a % 64)
    · exact ⟨_, List.mem_cons_self .., by dsimp only; omega, by dsimp only; omega⟩
    · obtain ⟨p, hp, hl, hu⟩ := ih (a := a + min n (64 - a % 64)) (n := n - min n (64 - a % 64)) (j := j - min n (64 - a % 64)) (by omega) (by omega)
      exact ⟨p, List.mem_cons_of_mem _ hp, by omega, by omega⟩
/-- The lengths of the pieces make up the access. -/
theorem piecesOf_length {f a n : Nat} (c : Nat) (hf : n = 0 ∨ a % 64 + n ≤ 64 * f) : ((piecesOf f a n).map fun p => p.len).foldl (· + ·) c = c + n := by
  induction f generalizing a n c with
  | zero => obtain rfl : n = 0 := by omega
            rfl
  | succ f ih =>
    by_cases hn : n = 0
    · rw [hn, piecesOf_zero]; rfl
    · rw [piecesOf_succ f a hn, List.map_cons, List.foldl_cons, ih _ (by omega)]
      dsimp only
      omega

/-! ### Accesses to the global space (spec 07 R180, R183, R186) -/

theorem placeOf_global {iw : Bool} {me : BitVec 24} {a : Nat} (h : placeOf iw me a = some .global) : 0x50000 ≤ a ∧ a / 2 ^ 42 ≠ 1 := by
  unfold placeOf at h
  dsimp only at h
  split_ifs at h with h1 h2 h3 h4 h5 h6 h7 h8 <;> cases h
  exact ⟨by omega, h7⟩
/-- An access that the checks leave to translation has a byte of the global space. -/
theorem check_global {s : State} {a n al : Nat} {rd wr w : Bool} {g : GReg} (hn : 0 < n) (h : s.check a n al rd wr g w = .ok .global) :
    ∃ i < n, placeOf (s.fctx == 16) (s.rankOf s.fcore) (a + i) = some .global := by
  unfold State.check at h
  dsimp only at h
  split at h
  · cases h
  split at h
  · cases h
  next hsome =>
  iterate 7
    split at h
    · cases h
  split at h
  · split at h
    next hany => simpa using hany
    · cases h
  · refine ⟨0, hn, ?_⟩
    have h0 := firstOff_none hsome hn
    injection h with h
    generalize placeOf .. = o at h h0
    cases o with
    | none => cases h0
    | some p => exact congrArg some h
/-- A piece with a byte of the global space lies in it. -/
theorem isGlobal_of_byte {iw : Bool} {me : BitVec 24} {p : Piece} {b : Nat} (hb : placeOf iw me b = some .global) (hl : p.va ≤ b) (hu : b < p.va + p.len)
    (h : p.va % 64 + p.len ≤ 64) : p.isGlobal = true := by
  obtain ⟨h0, h1⟩ := placeOf_global hb
  have : p.va / 2 ^ 42 ≠ 1 := by omega
  simp only [Piece.isGlobal, Bool.and_eq_true, decide_eq_true_eq, bne_iff_ne]
  omega
theorem piecesOf_global {s : State} {a n al : Nat} {rd wr w : Bool} {g : GReg} (hn : 0 < n) (h : s.check a n al rd wr g w = .ok .global) :
    ∃ p ∈ piecesOf (n / 64 + 2) a n, p.isGlobal = true := by
  obtain ⟨i, hi, hb⟩ := check_global hn h
  obtain ⟨p, hp, hl, hu⟩ := piecesOf_covers (f := n / 64 + 2) (a := a) (by omega) hi
  exact ⟨p, hp, isGlobal_of_byte hb hl hu (piecesOf_lines hp)⟩

/-- The word holds its context for a request that carries an access of n bytes at a to the slice that translates it. -/
def Posts (s : State) (o : Out) (k : AKind) (a n : Nat) : Prop :=
  ∃ (t : State) (r : Req), o = .next t ∧ t.cur = { s.cur with hold := .access s.nextNo } ∧ t.req s.nextNo = some r ∧ r.kind = k ∧ r.va = a ∧
    r.len = n ∧ r.core = s.fcore ∧ r.ctx = s.fctx ∧ t.agenda = s.agenda ++ [(.translationRequest, { a := s.nextNo })] ∧ t.mem = s.mem ∧
    (r.pieces.map fun p => p.len).foldl (· + ·) 0 = n ∧ ∀ p ∈ r.pieces, p.va % 64 + p.len ≤ 64
/-- A request is one for an access, whatever it carries besides. -/
structure CarriesAccess (s : State) (r : Req) (k : AKind) (a n : Nat) : Prop where
  no : r.no = s.nextNo
  kind : r.kind = k
  va : r.va = a
  len : r.len = n
  core : r.core = s.fcore
  ctx : r.ctx = s.fctx
  pieces : r.pieces = piecesOf (n / 64 + 2) a n

section
variable {h : Hdr} {s : State} {body : State → Res} {r : Req} {k : AKind} {a n al : Nat} {rd wr w : Bool} {x : GReg}

/-- A word that blocks on its request posts it, whatever it has changed in the cores' shared state. -/
theorem posts_of_block {cs : Table Core} (g : s.cur.guard h = true) (hn : 0 < n) (hc : s.check a n al rd wr x w = .ok .global) (hr : CarriesAccess s r k a n)
    (hb : body s = { s with cores := cs }.block r) : Posts s (lword h s body) k a n := by
  obtain ⟨p, hp, hg⟩ := piecesOf_global hn hc
  have hany : r.pieces.any Piece.isGlobal = true := List.any_eq_true.2 ⟨p, hr.pieces ▸ hp, hg⟩
  refine ⟨_, r, lword_wait g hb, ?_, ?_, hr.kind, hr.va, hr.len, hr.core, hr.ctx, ?_, rfl, ?_, ?_⟩
  · rw [← hr.no]; exact State.cur_setCur ..
  · rw [← hr.no]; exact tget_tset_same ..
  · rw [hany, hr.no]; rfl
  · rw [hr.pieces, piecesOf_length 0 (.inr (by omega)), Nat.zero_add]
  · intro p hp
    rw [hr.pieces] at hp
    exact piecesOf_lines hp
end

section
variable {h : Hdr} {s : State} {ra rb : BitVec 4} {off : Word} {n : Nat} {kind : AKind} {fill : Bool} {set : Ctx → Nat → Ctx} {mk : Req → Req}
  {data : Ctx → List Byte} (g : s.cur.guard h = true) (hn : 0 < n)
include g hn

theorem loadWord_posts (hc : s.check (ea (s.cur.gr ra) off).toNat n 0 true false (s.cur.gr ra) = .ok .global)
    (hmiss : (if kind = .load then s.l1Hit s.fcore (ea (s.cur.gr ra) off).toNat n else none) = none)
    (hmk : CarriesAccess s (mk (s.mkReq kind (ea (s.cur.gr ra) off).toNat n)) kind (ea (s.cur.gr ra) off).toNat n) :
    Posts s (loadWord h s ra off n kind fill set mk) kind (ea (s.cur.gr ra) off).toNat n := by
  cases fill with
  | true => exact posts_of_block g hn hc hmk (by simp only [hc, hmiss]; rfl)
  | false => exact posts_of_block (cs := s.cores) g hn hc hmk (by simp only [hc, hmiss]; rfl)
theorem storeWord_posts (hk : s.fctx ≠ 16) (hc : s.check (ea (s.cur.gr ra) off).toNat n 0 false true (s.cur.gr ra) = .ok .global) :
    Posts s (storeWord h s ra off n data) .store (ea (s.cur.gr ra) off).toNat n :=
  posts_of_block (cs := s.cores) g hn hc ⟨rfl, rfl, rfl, rfl, rfl, rfl, rfl⟩ (by simp only [hk, false_and, if_false, hc]; rfl)
theorem ldvWord_posts (hc : s.check (ea (s.cur.gr ra) 0).toNat n n true false (s.cur.gr ra) = .ok .global)
    (hw : sdist ((s.cur.gv rb).truncate 20) ((s.cur.gv rb).extractLsb' 20 20) < 2 ^ 19)
    (hmk : ∀ r, CarriesAccess s r .ldv (ea (s.cur.gr ra) 0).toNat n → CarriesAccess s (mk r) .ldv (ea (s.cur.gr ra) 0).toNat n) :
    Posts s (ldvWord h s ra rb n mk) .ldv (ea (s.cur.gr ra) 0).toNat n :=
  posts_of_block (cs := s.cores) g hn hc (hmk _ ⟨rfl, rfl, rfl, rfl, rfl, rfl, rfl⟩) (by simp only [hc, if_neg (Nat.not_le.2 hw)]; rfl)
theorem stvWord_posts (hc : s.check (ea (s.cur.gr ra) 0).toNat n n false true (s.cur.gr ra) = .ok .global) :
    Posts s (stvWord h s ra rb n data) .stv (ea (s.cur.gr ra) 0).toNat n :=
  posts_of_block (cs := s.cores) g hn hc ⟨rfl, rfl, rfl, rfl, rfl, rfl, rfl⟩ (by simp only [hc]; rfl)
theorem atomWord_posts {op : Nat} {rd : BitVec 4} {sys sgn : Bool}
    (hc : s.check (ea (s.cur.gr ra) 0).toNat n n true true (s.cur.gr ra) = .ok .global) :
    Posts s (atomWord h s op rd ra rb sys n sgn) (.atom op) (ea (s.cur.gr ra) 0).toNat n :=
  posts_of_block g hn hc ⟨rfl, rfl, rfl, rfl, rfl, rfl, rfl⟩ (by simp only [hc]; rfl)
end

section
variable {h : Hdr} {s : State} {ra : BitVec 4} {off : Word} {n : Nat} {fill : Bool} {set : Ctx → Nat → Ctx} {mk : Req → Req} {bs : List Byte} {e : XlEntry}

/-- A load of a part that its slice holds, of a page in no region, passes translation, on whichever module the page lies. -/
theorem xlPieces_load {r : Req} {p : Piece} (hk : r.kind = .load) (hg : p.isGlobal = true) (hx : s.xlHit r.part p.va = some e)
    (hr : s.region r.part p.va = none) : xlPieces s r none [p] [] = .ok [{ p with mod := e.mod, pa := e.pa p.va, attr := attrOf none e }] := by
  simp [xlPieces, hg, hx, hr, hk, AKind.region, regionCheck, atomPath]
theorem xlNow_load {a k : Nat} (hg : ({ va := a, len := n } : Piece).isGlobal = true) (h0 : 0 < n) (hl : a % 64 + n ≤ 64)
    (hx : s.xlHit s.curPart a = some e) (hr : s.region s.curPart a = none) :
    xlNow (s.mkReq .load a n) (k + 1) s = (s, .ok [{ va := a, len := n, mod := e.mod, pa := e.pa a, attr := attrOf none e }]) := by
  have hp : (s.mkReq .load a n).pieces = [{ va := a, len := n }] := piecesOf_line (n / 64 + 1) h0 hl
  have hxl : xlPieces s (s.mkReq .load a n) none (s.mkReq .load a n).pieces [] = _ := hp ▸ xlPieces_load rfl hg hx hr
  rw [xlNow, hxl]
/-- Bytes outside every region are in the ordinary state. -/
theorem rst_of_no_region (p : Piece) (h : p.attr = attrOf none e) : p.rst = 3 := by
  rw [Piece.rst, h, attrOf]
  cases e.carve <;> cases e.atomcap <;> rfl
/-- A load whose bytes lie in the L1, translation permitting, completes with them. -/
theorem loadWord_hit {a : Nat} (ha : (ea (s.cur.gr ra) off).toNat = a) (g : s.cur.guard h = true) (hn : 0 < n)
    (hc : s.check a n 0 true false (s.cur.gr ra) = .ok .global) (hb : s.l1Hit s.fcore a n = some bs) (hl : a % 64 + n ≤ 64)
    (hx : s.xlHit s.curPart a = some e) (hr : s.region s.curPart a = none) :
    ∃ t, loadWord h s ra off n .load fill set mk = .next t ∧ t.mem = s.mem ∧ t.reqs = s.reqs ∧ t.cur = { set s.cur (leNat bs) with fin := true } := by
  obtain ⟨i, hi, hp⟩ := check_global hn hc
  have hxl := xlNow_load (k := 3) (isGlobal_of_byte (p := { va := a, len := n }) hp (Nat.le_add_right ..) (Nat.add_lt_add_left hi _) hl) hn hl hx hr
  have hst := rst_of_no_region (e := e) { va := a, len := n, mod := e.mod, pa := e.pa a, attr := attrOf none e } rfl
  refine ⟨_, lword_ok g (t := (s.l1Use s.fcore a n).setCur (set s.cur (leNat bs))) ?_, rfl, rfl, ?_⟩
  · simp [ha, hc, hb, hxl, hst]
  · rw [State.cur_finish, State.cur_setCur]
end

/-- Settles O17: each word is one of those above. -/
theorem globalAccessesBlock : Obligations.GlobalAccessesBlock := by
  intro h rd ra rb wd size ext sys dbl imm s g hk c at_ a posts n glob window
  have hn : 0 < n := by dsimp only [n]; cases dbl <;> decide
  refine ⟨fun hc => ⟨fun hm => ?_, fun bs e hb hl hx hr => ?_, ?_⟩, fun hc hm => ?_, fun hc => ?_, fun hc => ?_, fun hw => ⟨fun hc => ?_, fun hc => ?_⟩,
    fun hc => ?_, fun hc => ?_, fun hc => ?_, fun hc => ?_, fun hc => ?_⟩
  · show Posts s (execLd h rd ra size ext imm s) .load (at_ (msz size)) (msz size)
    exact loadWord_posts g (msz_pos size) hc ((if_pos rfl).trans hm) ⟨rfl, rfl, rfl, rfl, rfl, rfl, rfl⟩
  · show ∃ t, execLd h rd ra size ext imm s = .next t ∧ t.mem = s.mem ∧ t.reqs = s.reqs ∧
      t.cur = { c.setG rd (loadValue (msz size) ext (leNat bs)) with fin := true }
    exact loadWord_hit rfl g (msz_pos size) hc hb hl hx hr
  · show Posts s (execLdNc h rd ra size ext imm s) .loadNc (at_ (msz size)) (msz size)
    exact loadWord_posts g (msz_pos size) hc (if_neg (by decide)) ⟨rfl, rfl, rfl, rfl, rfl, rfl, rfl⟩
  · show Posts s (execLdw h wd ra imm s) .load (at_ 32) 32
    exact loadWord_posts g (by decide) hc ((if_pos rfl).trans hm) ⟨rfl, rfl, rfl, rfl, rfl, rfl, rfl⟩
  · show Posts s (execSt h rd ra size imm s) .store (at_ (msz size)) (msz size)
    exact storeWord_posts g (msz_pos size) hk hc
  · show Posts s (execStw h wd ra imm s) .store (at_ 32) 32
    exact storeWord_posts g (by decide) hk hc
  · show Posts s (execLdv h rd ra rb s) .ldv a 8
    exact ldvWord_posts g (by decide) hc hw fun _ hr => ⟨hr.no, hr.kind, hr.va, hr.len, hr.core, hr.ctx, hr.pieces⟩
  · show Posts s (execLdvW h wd ra rb s) .ldv a 32
    exact ldvWord_posts g (by decide) hc hw fun _ hr => ⟨hr.no, hr.kind, hr.va, hr.len, hr.core, hr.ctx, hr.pieces⟩
  · show Posts s (execStv h rd ra rb s) .stv a 8
    exact stvWord_posts g (by decide) hc
  · show Posts s (execStvW h wd ra rb s) .stv a 32
    exact stvWord_posts g (by decide) hc
  · have hall op : Posts s (atomWord h s op rd ra rb sys n true) (.atom op) a n := atomWord_posts g hn hc
    simp only [List.forall_mem_cons, List.not_mem_nil, false_implies, implies_true, and_true]
    exact ⟨hall 0, hall 1, hall 2, hall 3, hall 4, hall 5, hall 6, hall 7⟩
  · show Posts s (execAtomFaddF32 h rd ra rb sys s) (.atom 8) a 4
    exact atomWord_posts g (by decide) hc
  · show Posts s (execAtomFaddF64 h rd ra rb sys s) (.atom 9) a 8
    exact atomWord_posts g (by decide) hc

/-! ### A blocked word completes (spec 03 R85; 07 R186; 16 R408) -/

/-- Cycles leave the hold, the PCs and the general registers. -/
theorem Ctx.Timed.hold {c d : Ctx} (h : c.Timed d) : d.hold = c.hold := by obtain ⟨_, _, _, rfl⟩ := h; rfl
theorem Ctx.Timed.pc {c d : Ctx} (h : c.Timed d) : d.pc = c.pc := by obtain ⟨_, _, _, rfl⟩ := h; rfl
theorem Ctx.Timed.npc {c d : Ctx} (h : c.Timed d) : d.npc = c.npc := by obtain ⟨_, _, _, rfl⟩ := h; rfl
theorem Ctx.Timed.gr {c d : Ctx} (h : c.Timed d) (r : BitVec 4) : d.gr r = c.gr r := by obtain ⟨_, _, _, rfl⟩ := h; rfl
theorem Ctx.gr_setG_same (c : Ctx) (r : BitVec 4) (v : Word) : (c.setG r v).gr r = ⟨v, false⟩ := by simp [Ctx.gr, Ctx.setG, Ctx.setGT]
/-- The sweep leaves an untagged register (spec 01 R11). -/
theorem commit_gr {c : Ctx} {r : BitVec 4} {v : Word} (h : c.gr r = ⟨v, false⟩) : c.commit.gr r = ⟨v, false⟩ := by
  unfold Ctx.gr at *
  dsimp only [Ctx.commit]
  split
  · exact h
  · simp [sweepRegs, h]
/-- What the retiring of a word keeps: the hold, the PC of the next group as the PC, and what an untagged register holds. -/
structure Retires (c d : Ctx) : Prop where
  hold : d.hold = c.hold
  pc : d.pc = c.npc
  gr : ∀ r v, c.gr r = ⟨v, false⟩ → d.gr r = ⟨v, false⟩
theorem boundary_retires (c : Ctx) : Retires c c.boundary := by
  have ht := ticks_timed (c.bubble + 1) c.commit
  exact ⟨ht.hold, ht.npc, fun r v h => (ht.gr r).trans (commit_gr h)⟩
theorem retire_retires (c : Ctx) : Retires c c.retire := by
  unfold Ctx.retire
  extract_lets c1 d
  split
  · have hd : Retires c d := ⟨rfl, rfl, fun _ _ h => h⟩
    split
    · exact ⟨(tick_timed d).hold.trans hd.hold, (tick_timed d).pc.trans hd.pc, fun r v h => ((tick_timed d).gr r).trans (hd.gr r v h)⟩
    · exact hd
  · obtain ⟨hh, hp, hg⟩ := boundary_retires c1
    exact ⟨hh, hp, hg⟩

/-- A context whose blocked word has completed: the word retires, or its group, which was restored with it, is issued again. -/
def Ctx.unblocked (c : Ctx) : Ctx := if c.grp = [] then { c with hold := .none } else { c with hold := .none }.retire
theorem unblocked_hold (c : Ctx) : c.unblocked.hold = .none := by
  unfold Ctx.unblocked
  split
  · rfl
  · exact (retire_retires _).hold
theorem unblocked_gr {c : Ctx} {r : BitVec 4} {v : Word} (h : c.gr r = ⟨v, false⟩) : c.unblocked.gr r = ⟨v, false⟩ := by
  unfold Ctx.unblocked
  split
  · exact h
  · exact (retire_retires _).gr r v h
/-- Where the addresses between its groups are aligned, the context goes on. -/
theorem unblock_aligned {c : Ctx} (s : State) (core k : Nat) (h : c.aligned) : s.unblock core k c = s.setCtx core k c.unblocked := by
  have hpc : c.unblocked.pc.toNat % 4 = 0 := by
    unfold Ctx.unblocked
    split
    · exact h.1
    · rw [(retire_retires _).pc]; exact h.2
  exact if_neg fun ⟨_, hmis, _⟩ => hmis hpc
theorem aligned_setG {c : Ctx} (h : c.aligned) (r : BitVec 4) (v : Word) : (c.setG r v).aligned := h

/-! ### MEMORY_REPLY (spec 07 R185, R186; 16 R408) -/

section
variable {s : State} {r : Req} (hr : s.req s.occ.a = some r) (horphan : r.orphan = false) (hphase : r.phase = .reply)
  (hhold : (s.ctx r.core r.ctx).hold = .access r.no) (hwait : s.replyWaits r.core r.ctx = false)
include hr horphan hphase hhold hwait

/-- A reply reaches the context that waits for it. -/
theorem memoryReply_takes : exec .memoryReply s = .next ((if r.trap.isSome then s.dropFills r.core r.no else s).takeReply r) := by
  show execMemoryReply s = _
  simp [execMemoryReply, hr, horphan, hphase, hhold, hwait]
/-- A value goes to the destination register and the context goes on. -/
theorem memoryReply_value (ha : (s.ctx r.core r.ctx).aligned) (ht : r.trap = none) (hf : r.fetch = false) (hv : r.vec = false)
    (hk : r.kind = .load ∨ r.kind = .loadNc ∨ r.kind = .ldv ∨ ∃ op, r.kind = .atom op) :
    exec .memoryReply s = .next ((s.delReq r.no).setCtx r.core r.ctx ((s.ctx r.core r.ctx).setG r.dest (loadValue r.len r.ext (leNat r.result))).unblocked) := by
  have hw : r.writeBack (s.ctx r.core r.ctx) = (s.ctx r.core r.ctx).setG r.dest (loadValue r.len r.ext (leNat r.result)) := by
    unfold Req.writeBack
    obtain hk | hk | hk | ⟨op, hk⟩ := hk <;> rw [hk, hf, hv] <;> rfl
  have htake : s.takeReply r = (s.delReq r.no).unblock r.core r.ctx (r.writeBack (s.ctx r.core r.ctx)) := by simp only [State.takeReply, ht, hf]; rfl
  rw [memoryReply_takes hr horphan hphase hhold hwait, ht]
  exact congrArg Host.Outcome.next (htake.trans (by rw [hw]; exact unblock_aligned _ _ _ (aligned_setG ha ..)))
/-- A trap stops a user context at its word. -/
theorem memoryReply_trap {u : Trap} (ht : r.trap = some u) (hk : r.ctx < 14) :
    ∃ t, exec .memoryReply s = .next t ∧ (t.ctx r.core r.ctx).st = .stopped ∧ (t.ctx r.core r.ctx).ctl.tval = u.tval := by
  rw [memoryReply_takes hr horphan hphase hhold hwait, ht]
  refine ⟨_, rfl, ?_⟩
  simp only [State.takeReply, ht, State.trapBlocked]
  generalize State.setCtx .. = w
  obtain ⟨v, done, -, -, -, sd, hd, hc⟩ := takeTrapAt_user w r.core u false hk
  rw [hc, writeFrame_ctx, State.ctx_setCtx_same]
  exact ⟨rfl, rfl⟩
end

/-! ### Fills of the L1 and of tile pages (spec 07 R187; 11 R303; 12 R322) -/

section
variable {s : State}

/-- The line that comes back enters the L1 with its bytes, and its fill is done. -/
theorem l1FillReply_installs {core : Nat} {c : Core} {f : L1Fill} {bs : List Byte}
    (hc : s.cores.find? (fun x => x.2.fills.any fun f => f.no == s.occ.a && f.bytes.isSome) = some (core, c)) (hf : c.fills = [f]) (hb : f.bytes = some bs)
    (hi : f.install = true) : exec .l1FillReply s = .next (s.setCore core (l1Install { c with fills := [] } f.line bs)) := by
  have hp := List.find?_some hc
  simp only [hf, List.any_cons, List.any_nil, Bool.or_false] at hp
  have hmine : (c.fills.filter fun f => f.no == s.occ.a && f.bytes.isSome) = [f] := by rw [hf, List.filter_cons, if_pos hp]; rfl
  have hrest : (c.fills.filter fun f => !(f.no == s.occ.a && f.bytes.isSome)) = [] := by rw [hf, List.filter_cons_of_neg (by rw [hp]; decide)]; rfl
  show execL1FillReply s = _
  simp only [execL1FillReply, hc, hmine, hrest, List.foldl_cons, List.foldl_nil, hi, if_true, hb, Option.getD_some]
/-- A line enters the L1 at the head, and the fills stay. -/
theorem l1Install_head (c : Core) (line : Nat) (bs : List Byte) :
    (l1Install c line bs).fills = c.fills ∧ ∃ x, (l1Install c line bs).l1.head? = some x ∧ x.line = line ∧ x.bytes = bs := ⟨rfl, _, rfl, rfl, rfl⟩
/-- The page comes into an empty frame, and the word is issued again. -/
theorem tilePageFill_pins {page : Nat} (hh : (s.ctx s.occ.a s.occ.b).hold = .tilePage page) (hst : (s.ctx s.occ.a s.occ.b).st = .ready) (hp : page ≠ 63)
    (hnew : ((s.core s.occ.a).frames.any fun f => f.space == (s.ctx s.occ.a s.occ.b).space && f.page == page) = false)
    (hlen : (s.core s.occ.a).frames.length < 63) :
    exec .tilePageFill s = .next ((s.onCore s.occ.a fun c => { c with frames := (s.core s.occ.a).frames ++
      [{ space := (s.ctx s.occ.a s.occ.b).space, page := page, pinned := true }] }).onCtx s.occ.a s.occ.b fun c => { c with hold := .none }) := by
  have hfr : takeFrame (s.core s.occ.a).frames (s.ctx s.occ.a s.occ.b).space page =
      some ((s.core s.occ.a).frames ++ [{ space := (s.ctx s.occ.a s.occ.b).space, page := page, pinned := true }]) := by
    unfold takeFrame
    dsimp only
    rw [if_neg (by rw [hnew]; decide), if_pos hlen]
  show execTilePageFill s = _
  simp only [execTilePageFill, hh, hst, ne_eq, not_true_eq_false, if_false, State.pinPage, hp, hfr, Option.map_some]
end

/-! ### Fences, reclaim and close (spec 07 R193, R201, R209; 13 R343) -/

section
variable {s : State} {core k : Nat}

/-- A fence that ends lets its context go on with its status, and leaves no line of its range in the L1, unless it is a release. -/
theorem finishFence_goesOn (kind : BitVec 2) (sys : Bool) (rd : BitVec 4) (lo hi : Nat) (status : Word) (ha : (s.ctx core k).aligned) :
    let t := s.finishFence core k kind sys rd lo hi status
    t.mem = s.mem ∧ (t.ctx core k).hold = .none ∧ (sys = true → (t.ctx core k).gr rd = ⟨status, false⟩) ∧
    (kind ≠ 1 → ∀ x ∈ (t.core core).l1, ¬(x.line * 64 < hi ∧ lo < x.line * 64 + 64)) := by
  unfold State.finishFence
  extract_lets s1 s2 c t
  have h1 : s1.mem = s.mem ∧ s1.ctxs = s.ctxs ∧ (kind ≠ 1 → ∀ x ∈ (s1.core core).l1, ¬(x.line * 64 < hi ∧ lo < x.line * 64 + 64)) := by
    unfold s1
    split
    next hk => exact ⟨rfl, rfl, fun h => absurd hk h⟩
    · refine ⟨rfl, rfl, fun _ x hx => ?_⟩
      rw [State.l1Drop, State.onCore, State.core_setCore_same] at hx
      exact of_decide_eq_false (Bool.not_eq_true' _ ▸ (List.mem_filter.1 hx).2)
  have h2 : s2.mem = s1.mem ∧ s2.ctxs = s1.ctxs ∧ s2.cores = s1.cores := by
    unfold s2
    split <;> exact ⟨rfl, rfl, rfl⟩
  obtain ⟨hm, hx, hl⟩ := h1
  obtain ⟨hm', hx', hc⟩ := h2
  have hctx : c = s.ctx core k := by unfold c State.ctx; rw [hx', hx]
  have hal : (if sys then c.setG rd status else c).aligned := by rw [hctx]; split <;> exact ha
  have ht : t = s2.setCtx core k (if sys then c.setG rd status else c).unblocked := unblock_aligned _ _ _ hal
  rw [ht, State.ctx_setCtx_same]
  refine ⟨hm'.trans hm, unblocked_hold _, fun h => ?_, fun h => ?_⟩
  · rw [if_pos h]
    exact unblocked_gr (Ctx.gr_setG_same ..)
  · have hcore : (s2.setCtx core k (if sys then c.setG rd status else c).unblocked).core core = s1.core core :=
      congrArg (fun l => (tget l core).getD ({} : Core)) hc
    rw [hcore]
    exact hl h
end

section
variable {s : State} (hwait : s.replyWaits s.occ.a s.occ.b = false)
include hwait

theorem fenceComplete_finishes {kind : BitVec 2} {sys : Bool} {rd : BitVec 4} {lo hi : Nat} (hh : (s.ctx s.occ.a s.occ.b).hold = .fence kind sys rd lo hi)
    (hu : kind = 0 ∨ s.uncovered s.occ.a s.occ.b sys lo hi = []) :
    exec .fenceComplete s = .next (s.finishFence s.occ.a s.occ.b kind sys rd lo hi
      (if sys && kind != 0 then s.fenceStatus s.occ.a s.occ.b lo hi 0 else 0)) := by
  have hn : ¬(kind ≠ 0 ∧ s.uncovered s.occ.a s.occ.b sys lo hi ≠ []) := by tauto
  show execFenceComplete s = _
  simp only [execFenceComplete, hh, hwait, Bool.false_eq_true, if_false, hn]
theorem reclaimComplete_goesOn (hh : (s.ctx s.occ.a s.occ.b).hold = .reclaim 0) (ha : (s.ctx s.occ.a s.occ.b).aligned) :
    exec .reclaimComplete s = .next (s.setCtx s.occ.a s.occ.b (s.ctx s.occ.a s.occ.b).unblocked) := by
  show execReclaimComplete s = _
  simp only [execReclaimComplete, hh, hwait, Bool.false_eq_true, if_false, unblock_aligned _ _ _ ha]
theorem closeComplete_goesOn {rd : BitVec 4} {no nhome : Nat} {stale : Bool} (hh : (s.ctx s.occ.a s.occ.b).hold = .close rd no [] nhome stale)
    (ha : (s.ctx s.occ.a s.occ.b).aligned) :
    exec .closeComplete s = .next (s.setCtx s.occ.a s.occ.b ((s.ctx s.occ.a s.occ.b).setG rd
      (BitVec.ofNat 64 (min nhome 255 * 256 + stale.toNat * 2 + (decide (nhome ≠ 0)).toNat))).unblocked) := by
  show execCloseComplete s = _
  simp only [execCloseComplete, hh, hwait, Bool.false_eq_true, if_false, unblock_aligned _ _ _ (aligned_setG ha ..)]
end

/-! ### RECLAIM_FLOOR_NOTICE and LINKWAIT_EXPIRY (spec 07 R193, R196; 17 R443) -/

section
variable {s : State}

/-- Without parked requests, the home takes the newer floor, and a reclaim that waits counts it. -/
theorem reclaimFloorNotice_raises (hp : (s.home s.occ.c).parks = []) :
    let f : BitVec 20 := s.occ.v.truncate 20
    let old := s.floorAt s.occ.c s.occ.a s.occ.b
    let core := s.occ.v.toNat / 2 ^ 20 / 17
    let k := s.occ.v.toNat / 2 ^ 20 % 17
    ∃ t, exec .reclaimFloorNotice s = .next t ∧ t.mem = s.mem ∧ t.floorAt s.occ.c s.occ.a s.occ.b = (if safter f old then f else old) ∧
      ∀ n, (s.ctx core k).hold = .reclaim n → (t.ctx core k).hold = .reclaim (n - 1) ∧ (n = 1 → s.dues t .reclaimComplete core k) := by
  intro f old core k
  obtain ⟨u, hu⟩ : ∃ u, u = s.onHome s.occ.c fun h => { h with floors := tset h.floors (s.occ.a * 64 + s.occ.b) (if safter f old then f else old) } :=
    ⟨_, rfl⟩
  have hpark : u.floorParks s.occ.c s.occ.a s.occ.b = [] := by
    rw [hu, State.floorParks, State.onHome, State.home_setHome_same, hp]
    rfl
  have hfloor : u.floorAt s.occ.c s.occ.a s.occ.b = (if safter f old then f else old) := by
    rw [hu, State.floorAt, State.onHome, State.home_setHome_same, tget_tset_same]
  have hctx : u.ctx core k = s.ctx core k := by rw [hu]; rfl
  have hag : u.agenda = s.agenda := by rw [hu]; rfl
  have he : exec .reclaimFloorNotice s = match (u.ctx core k).hold with
      | .reclaim n => .next (if n ≤ 1 then (u.onCtx core k fun c => { c with hold := .reclaim (n - 1) }).due .reclaimComplete core k
          else u.onCtx core k fun c => { c with hold := .reclaim (n - 1) })
      | _ => .next u := by
    show execReclaimFloorNotice s = _
    unfold execReclaimFloorNotice
    dsimp only
    rw [← hu, hpark]
    rfl
  rw [he, hctx]
  split
  next n hn =>
    refine ⟨_, rfl, ?_, ?_, fun m hm => ?_⟩
    · split <;> rw [hu] <;> rfl
    · refine Eq.trans ?_ hfloor
      split <;> rfl
    · obtain rfl : n = m := by rw [hn] at hm; injection hm
      refine ⟨?_, fun h1 => ?_⟩
      · split <;> exact congrArg Ctx.hold (State.ctx_setCtx_same ..)
      · rw [if_pos (by omega)]
        exact dues_of_append (congrArg (· ++ _) hag) (List.mem_singleton.2 rfl)
  next hn => exact ⟨u, rfl, by rw [hu]; rfl, hfloor, fun n h => absurd h (hn n)⟩

/-- A link that stays down answers ATOMPATH 0x03. -/
theorem linkwaitExpiry_answers {r : Req} {p : Piece} (hk : s.occ.b < 17) (hh : (s.ctx s.occ.a s.occ.b).hold = .access s.occ.c)
    (hr : s.req s.occ.c = some r) (ho : r.own) (hph : r.phase = .home) (hp : r.pieces[r.performed]? = some p) (hm : p.mod ≠ s.modid) :
    exec .linkwaitExpiry s = .next (s.answer r (some ⟨0x16, 0x03, BitVec.ofNat 64 r.va⟩)) := by
  obtain ⟨hb, -, -, he, -⟩ := ho
  have hask : s.askExpired s.occ.c = none := by simp [State.askExpired, hr, hb, he]
  have h17 : s.occ.b ≠ 17 := by omega
  have h18 : s.occ.b ≠ 18 := by omega
  show execLinkwaitExpiry s = _
  simp only [execLinkwaitExpiry, h17, h18, if_false, hask, hh, hr, hp, hph, hm, ne_eq, not_true_eq_false, false_or]
end
/-- The answer to an access of a context of its own core. -/
theorem answer_own {r : Req} (s : State) (t : Option Trap) (ho : r.own) : s.answer r t = (s.setReq { r with phase := .reply, trap := t }).due .memoryReply r.no := by
  obtain ⟨hb, hp, horph, he, -⟩ := ho
  simp [State.answer, hb, hp, horph, he]

/-! ### REMOTE_TILE_ACCESS (spec 12 R323) -/

/-- A charge changes the counters of the ports and the timers only. -/
theorem chargeAs_only (s : State) (part prof cls : Nat) (us : List PortUse) :
    ∃ ch ts, s.chargeAs part prof cls us = { s with fab := { s.fab with charged := ch }, timers := ts } := by
  unfold State.chargeAs
  split
  · exact ⟨_, _, rfl⟩
  · unfold State.periodDue
    dsimp only
    split <;> exact ⟨_, _, rfl⟩
/-- The launch of a scope is found in the scopes. -/
theorem launchUp_congr {s t : State} (h : t.scopes = s.scopes) (part n : Nat) (id : BitVec 16) : launchUp t part n id = launchUp s part n id := by
  induction n generalizing id with
  | zero => rfl
  | succ n ih =>
    have hs : t.scope part id = s.scope part id := by unfold State.scope; rw [h]
    unfold launchUp
    rw [hs, ih]
theorem launchOf_congr {s t : State} (h : t.scopes = s.scopes) (part : Nat) (id : BitVec 16) : t.launchOf part id = s.launchOf part id := by
  rw [State.launchOf, State.launchOf, launchUp_congr h]
theorem localOf_ofNat (n : Nat) : localOf (BitVec.ofNat 24 n) = n % 4096 := by
  rw [localOf, BitVec.toNat_ofNat, Nat.mod_mod_of_dvd _ (by decide)]

/-- An access of n bytes at va through the window of a core of this module meets the system page of the system space there, and no poison. -/
structure MeetsSystemPage (s : State) (part : Nat) (scope : BitVec 16) (va n core : Nat) : Prop where
  here : modOf (BitVec.ofNat 24 (va / 2 ^ 18)) = s.modid
  rank : localOf (BitVec.ofNat 24 (va / 2 ^ 18)) = core
  isCore : core < 768
  owned : s.partOf core = some part
  system : s.launchOf part scope = none
  low : 0x3F000 ≤ tileOff va
  high : tileOff va + n ≤ 0x40000
  clean : s.tilePoison core 8 (tileOff va) n = none
theorem window_reads_system {s : State} {part va n core : Nat} {scope : BitVec 16} (data cmp : List Byte) (h : MeetsSystemPage s part scope va n core) :
    s.window part scope va n 0 0 data cmp = .done s (s.tileRd core 8 (tileOff va) n) := by
  obtain ⟨hm, hr, hc, hp, hl, h0, h1, hb⟩ := h
  have hsp : s.spaceFor core part scope = some 8 := by rw [State.spaceFor, hl]
  have hseal : ((List.range n).find? fun i => (0 == 1 || 0 == 2) && s.sealedAt core 8 (tileOff (va + i))) = none := List.find?_eq_none.2 fun _ _ => by simp
  have hover : s.pageOver core 8 va n = none := by
    rw [State.pageOver, List.find?_eq_none]
    intro i hi
    have hi := List.mem_range.1 hi
    have : tileOff (va + i) / 4096 = 63 := by unfold tileOff at *; omega
    simp [this]
  have hpin : s.pinPages core 8 (tileOff va) n = some s := by
    have h63 : tileOff va / 4096 = 63 := by unfold tileOff at *; omega
    have hend : (tileOff va + n - 1) / 4096 = 63 ∨ n = 0 := by omega
    simp only [State.pinPages, State.pinPage, h63, if_true, hend]
  have hgo : ¬(modOf (BitVec.ofNat 24 (va / 2 ^ 18)) ≠ s.modid ∨ 768 ≤ core ∨ s.partOf core ≠ some part) := by
    rw [not_or, not_or]; exact ⟨not_not.2 hm, by omega, not_not.2 hp⟩
  unfold State.window
  dsimp only
  rw [hr, if_neg hgo, hsp]
  dsimp only
  rw [hseal]
  dsimp only
  rw [hover]
  dsimp only
  rw [hpin]
  dsimp only
  rw [if_neg (by decide), if_neg (by decide), hb]
  rfl

section
variable {s : State} {r : Req} {core : Nat}

/-- A read of the system page of a core that is IN, by a context, is answered with the bytes that stand there. -/
theorem remoteTileAccess_reads (hr : s.req s.occ.a = some r) (ho : r.own) (hph : r.phase = .translate) (hk : r.kind = .load)
    (h : MeetsSystemPage s r.part r.scope r.va r.len core) (hrun : (s.core core).run = .inn) (hbe : s.behind r = false)
    (hu : s.usesOpen r.part r.scope 0 (tripUses r.core core r.len) = true) :
    ∃ t, exec .remoteTileAccess s = .next t ∧ t.mem = s.mem ∧ s.dues t .memoryReply r.no ∧
      ∃ x, t.req r.no = some x ∧ x.phase = .reply ∧ x.trap = none ∧ x.result = s.tileRd core 8 (tileOff r.va) r.len := by
  have ⟨hbm, _, _, _, hw⟩ := ho
  have huses : r.windowUses core = tripUses r.core core r.len := by rw [Req.windowUses, hbm]; rfl
  obtain ⟨u, hcharge⟩ : ∃ u, u = s.charge r.part r.scope 0 (r.windowUses core) := ⟨_, rfl⟩
  obtain ⟨ch, ts, hch⟩ : ∃ ch ts, u = { s with fab := { s.fab with charged := ch }, timers := ts } := hcharge ▸ chargeAs_only ..
  have hsys : u.launchOf r.part r.scope = none := (launchOf_congr (s := s) (by rw [hch]) ..).trans h.system
  have hmeets : MeetsSystemPage u r.part r.scope r.va r.len core :=
    ⟨by rw [hch]; exact h.here, h.rank, h.isCore, by rw [hch]; exact h.owned, hsys, h.low, h.high, by rw [hch]; exact h.clean⟩
  have hwin := window_reads_system r.data r.cmp hmeets
  obtain ⟨pa, hpa⟩ : ∃ pa, pa = tilePa core ((u.spaceFor core r.part r.scope).getD 8) (tileOff r.va) := ⟨_, rfl⟩
  obtain ⟨x, hx, he⟩ : ∃ x : Req, (x.own ∧ x.no = r.no ∧ x.result = u.tileRd core 8 (tileOff r.va) r.len) ∧ exec .remoteTileAccess s = .next (u.answer x none) := by
    refine ⟨{ r with result := u.tileRd core 8 (tileOff r.va) r.len, pieces := [{ va := r.va, len := r.len, pa := pa }] }, ⟨ho, rfl, rfl⟩, ?_⟩
    show execRemoteTileAccess s = _
    unfold execRemoteTileAccess
    rw [hr]
    dsimp only
    rw [if_neg (not_not.2 hph), if_neg (not_not.2 h.here), h.rank, hrun, hbe, huses, hu, ← huses, ← hcharge, hk, hw]
    dsimp only
    simp only [Bool.false_and, Bool.false_eq_true, if_false, Bool.not_true, Bool.or_false, ne_eq, not_true_eq_false, hwin, Nat.zero_ne_one, false_and, hpa]
  obtain ⟨hxo, hxn, hxr⟩ := hx
  rw [he, answer_own u none hxo]
  refine ⟨_, rfl, by rw [hch]; rfl, dues_of_append (l := [(.memoryReply, { a := r.no })]) (by rw [hch, ← hxn]; rfl) (List.mem_singleton.2 rfl),
    { x with phase := .reply, trap := none }, ?_, rfl, rfl, ?_⟩
  · rw [← hxn]; exact State.req_setReq_same u { x with phase := .reply, trap := none }
  · rw [hxr, hch]; rfl
end

/-! ### What a message that leaves keeps of the homes (spec 17 R427 to R441) -/

theorem charge_homes (s : State) (part : Nat) (scope : BitVec 16) (cls : Nat) (us : List PortUse) : (s.charge part scope cls us).homes = s.homes := by
  obtain ⟨ch, ts, h⟩ := chargeAs_only s part (s.profile part scope) cls us
  rw [State.charge, h]
theorem pumpFlits_homes (port n : Nat) (s : State) : (pumpFlits port n s).homes = s.homes := by
  induction n generalizing s with
  | zero => rfl
  | succ n ih =>
    unfold pumpFlits
    dsimp only
    split
    · rfl
    · exact ih _
theorem sendOn_homes (s : State) (i : Nat) (pk : BPacket) : (s.sendOn i pk).homes = s.homes := by
  unfold State.sendOn
  extract_lets p fab s1 s2
  have h : s2.homes = s.homes := by
    unfold s2 State.portPump
    split
    · exact pumpFlits_homes ..
    · rfl
  split <;> exact h
theorem portSend_homes (s : State) (pk : BPacket) : (s.portSend pk).homes = s.homes := by
  have hf : (s.firstHop pk).1.homes = s.homes := by
    unfold State.firstHop
    dsimp only
    split <;> rfl
  refine Eq.trans ?_ hf
  unfold State.portSend
  dsimp only
  split
  · rfl
  split
  · exact sendOn_homes ..
  split
  · exact (sendOn_homes ..).trans (charge_homes ..)
  split <;> rfl
theorem transport_homes (s : State) (nm : NetMsg) : (s.transport nm).homes = s.homes := by
  unfold State.transport
  extract_lets m n at_ nm1 nm2 s1 q p pk s2 s3
  have h1 : s1.homes = s.homes := charge_homes ..
  refine Eq.trans ?_ h1
  split
  · split
    · refine Eq.trans ?_ (portSend_homes s1 { pk with tseq := 0 })
      unfold State.received
      split <;> rfl
    · have h3 : s3.homes = s1.homes := portSend_homes s2 pk
      split <;> exact h3
  · split <;> rfl
theorem leave_homes (s : State) (nm : NetMsg) : (s.leave nm).homes = s.homes := by
  unfold State.leave
  extract_lets m s1 k st ord s2
  have h1 : s1.homes = s.homes := by unfold s1; split <;> rfl
  have h2 : s2.homes = s1.homes := by unfold s2; split <;> rfl
  exact (transport_homes ..).trans (h2.trans h1)
/-- Forming and sending a message outside the order of streams keeps the homes. -/
theorem sendNow_homes (s : State) (u : Nat) {m : Msg} (ho : m.noord = true) : (s.sendNow u m).homes = s.homes := by
  have hs : (s.seq u).2.homes = s.homes := by unfold State.seq; split <;> rfl
  refine Eq.trans ?_ hs
  show ((s.seq u).2.post u (m.fromUnit (s.seq u).2 u (s.seq u).1)).homes = _
  unfold State.post
  extract_lets m1 s1 nm fab s2
  have h1 : s1.homes = (s.seq u).2.homes := by unfold s1; split <;> rfl
  rw [if_pos (show m1.noord = true from ho)]
  unfold State.leaveFree
  split
  · exact (leave_homes ..).trans h1
  · exact h1

/-! ### CLOSE_NOTICE (spec 13 R343) -/

/-- A close keeps the table an entry is of. -/
theorem close_table (e : TabEntry) (w : BitVec 24) (t : BitVec 20) (free : Bool) : (e.close w t free).1.part = e.part ∧ (e.close w t free).1.etd = e.etd := by
  unfold TabEntry.close
  dsimp only
  split
  · split
    · exact ⟨rfl, rfl⟩
    · split <;> exact ⟨rfl, rfl⟩
  · split
    · exact ⟨rfl, rfl⟩
    · split <;> exact ⟨rfl, rfl⟩
/-- The entry that a home finds after one of the same table has been replaced. -/
theorem find?_map_replace {part etd : Nat} {e e' : TabEntry} {l : List TabEntry} (h : l.find? (fun x => x.part == part && x.etd == etd) = some e)
    (hp : e'.part = part) (he : e'.etd = etd) :
    (l.map fun x => if x.part = e'.part ∧ x.etd = e'.etd then e' else x).find? (fun x => x.part == part && x.etd == etd) = some e' := by
  subst hp he
  induction l with
  | nil => cases h
  | cons x r ih =>
    rw [List.map_cons]
    by_cases hx : x.part = e'.part ∧ x.etd = e'.etd
    · rw [if_pos hx, List.find?_cons_of_pos (by simp)]
    · have hb : ¬((x.part == e'.part && x.etd == e'.etd) = true) := by simpa using hx
      rw [if_neg hx]
      simp only [List.find?_cons, Bool.eq_false_iff.2 hb] at h ⊢
      exact ih h

section
variable {s : State} {home etd : Nat} {m : Msg} {e e' : TabEntry} {res : CloseRes}

theorem table_known (h : (s.home home).tabs.find? (fun x => x.part == m.part && x.etd == etd) = some e) : s.table home etd m = (s, .ok e) := by
  simp only [State.table, h]
/-- A close at a home that knows the table and parks no row request for it replaces the entry. -/
theorem closeAt_known {w : BitVec 24} {t : BitVec 20} (h : (s.home home).tabs.find? (fun x => x.part == m.part && x.etd == etd) = some e)
    (hp : (s.home home).rowParks = []) (hc : e.close w t (decide (s.recCount home < 4096)) = (e', res)) :
    s.closeAt home m etd t w = (s.setTab home e', res) := by
  have hrp : ((s.setTab home e').home home).rowParks = [] := by rw [State.setTab, State.onHome, State.home_setHome_same]; exact hp
  simp only [State.closeAt, table_known h, hc, hrp, wakeRows, ite_self]
/-- The home answers the notice with the outcome of the close. -/
theorem closeNotice_closes {nm : NetMsg} (hnet : s.net s.occ.a = some nm) (hm : nm.msg = m) (hhome : localOf m.dest = home)
    (hetd : (m.arg 0).toNat % 2 ^ 48 = etd) (ha : s.partsAhead m = false)
    (he : (s.home home).tabs.find? (fun x => x.part == m.part && x.etd == etd) = some e)
    (hmove : ∀ x ∈ s.moving, x.part = m.part → homeOf x.oldFrame ≠ home) (hp : (s.home home).rowParks = [])
    (hc : e.close ((m.arg 3).truncate 24) ((m.arg 2).truncate 20) (decide (s.recCount home < 4096)) = (e', res)) :
    exec .closeNotice s = .next (((s.delNet m.no).setTab home e').sendNow home { resumeMsg m.srank ((m.arg 1).extractLsb' 32 32) stOK m.prio m.part m.scope
      (arg4 (BitVec.ofNat 64 res.code) 0 0 0) with dest := modOf m.srank ++ m.srclr, noord := true, hw := true, cls := 1 }) := by
  have hb : bits (m.arg 0).toNat 0 48 = etd := by rw [bits, pow_zero, Nat.div_one, hetd]
  have hclose := closeAt_known (s := s.delNet m.no) he hp hc
  show execCloseNotice s = _
  unfold execCloseNotice
  rw [hnet]
  dsimp only
  rw [hm, ha, if_neg (by decide), hhome, hb, table_known he]
  dsimp only
  rw [hclose]
  dsimp only
  have hnews : (((s.delNet m.no).setTab home e').moving.filter fun x => x.stage != 0 && x.part == m.part && homeOf x.oldFrame == home &&
      (List.find? (fun e => e.part == m.part && e.etd == etd) (((s.delNet m.no).setTab home e').home home).tabs).any fun e => Etd.hasPage e.desc x.page) = [] := by
    rw [List.filter_eq_nil_iff]
    intro x hx
    have := hmove x hx
    simp only [Bool.and_eq_true, beq_iff_eq]
    tauto
  rw [hnews]
  rfl
/-- The home finds the entry that the close leaves, and its outcome is on its way to the core that closes. -/
theorem closeNotice_answers {nm : NetMsg} (hnet : s.net s.occ.a = some nm) (hm : nm.msg = m) (hhome : localOf m.dest = home)
    (hetd : (m.arg 0).toNat % 2 ^ 48 = etd) (ha : s.partsAhead m = false)
    (he : (s.home home).tabs.find? (fun x => x.part == m.part && x.etd == etd) = some e)
    (hmove : ∀ x ∈ s.moving, x.part = m.part → homeOf x.oldFrame ≠ home) (hp : (s.home home).rowParks = [])
    (hc : e.close ((m.arg 3).truncate 24) ((m.arg 2).truncate 20) (decide (s.recCount home < 4096)) = (e', res)) :
    ∃ t, exec .closeNotice s = .next t ∧ t.mem = s.mem ∧ (t.home home).tabs.find? (fun x => x.part == m.part && x.etd == etd) = some e' ∧
      s.formed t fun x => x.kind = .resume ∧ x.dest = modOf m.srank ++ m.srclr ∧ x.addr = (m.arg 1).extractLsb' 32 32 ∧ x.arg 0 = BitVec.ofNat 64 res.code := by
  obtain ⟨hep, hee⟩ : e.part = m.part ∧ e.etd = etd := by simpa using List.find?_some he
  obtain ⟨hcp, hce⟩ := close_table e ((m.arg 3).truncate 24) ((m.arg 2).truncate 20) (decide (s.recCount home < 4096))
  rw [hc] at hcp hce
  refine ⟨_, closeNotice_closes hnet hm hhome hetd ha he hmove hp hc, (sendNow_kept ..).mem, ?_, ?_⟩
  · have hset : (((s.delNet m.no).setTab home e').home home).tabs = (s.home home).tabs.map fun x => if x.part = e'.part ∧ x.etd = e'.etd then e' else x := by
      rw [State.setTab, State.onHome, State.home_setHome_same]
      rfl
    rw [State.home, sendNow_homes _ _ rfl]
    exact (congrArg _ hset).trans (find?_map_replace he (hcp.trans hep) (hce.trans hee))
  · have hf : ((s.delNet m.no).setTab home e').formed _ fun x => x.kind = .resume ∧ x.dest = modOf m.srank ++ m.srclr ∧
        x.addr = (m.arg 1).extractLsb' 32 32 ∧ x.arg 0 = BitVec.ofNat 64 res.code :=
      sendNow_formed _ home (m := { resumeMsg m.srank ((m.arg 1).extractLsb' 32 32) stOK m.prio m.part m.scope (arg4 (BitVec.ofNat 64 res.code) 0 0 0) with
        dest := modOf m.srank ++ m.srclr, noord := true, hw := true, cls := 1 }) rfl rfl fun _ => ⟨rfl, rfl, rfl, rfl⟩
    exact State.formed_of_next rfl hf
end

/-- Settles O45: each event is one of those above. -/
theorem replyAndFenceEvents : Obligations.ReplyAndFenceEvents := by
  refine ⟨fun s r => ⟨fun hr ho hph hh hw ha => ⟨fun ht hf hv hk => ?_, fun u ht hk => ?_⟩, fun core c f bs hc hf hb hi => ?_,
    fun page hh hst hp hnew hlen => ?_, fun hr hno ho hph hk hm hc hrun hbe hp hl h0 h1 hlen hb hu => ?_⟩,
    fun s => ⟨fun kind sys rd lo hi hh hw hu ha => ?_, fun hh hw ha => ?_, fun rd no nhome stale hh hw ha => ?_, fun hp => reclaimFloorNotice_raises hp,
      fun nm e e' res hnum hnet ha he hmove hp hc => ?_, fun r p hk hh hr hno ho hph hp hm => ?_⟩⟩
  · refine ⟨_, memoryReply_value hr ho hph hh hw ha ht hf hv hk, rfl, ?_⟩
    beta_reduce
    rw [State.ctx_setCtx_same]
    exact ⟨unblocked_hold _, unblocked_gr (Ctx.gr_setG_same ..)⟩
  · exact memoryReply_trap hr ho hph hh hw ht hk
  · refine ⟨_, l1FillReply_installs hc hf hb hi, rfl, ?_⟩
    beta_reduce
    rw [State.core_setCore_same]
    exact l1Install_head ..
  · refine ⟨_, tilePageFill_pins hh hst hp hnew hlen, rfl, ?_, ?_⟩
    · exact congrArg Ctx.hold (State.ctx_setCtx_same ..)
    · exact congrArg Core.frames (State.core_setCore_same ..)
  · have hcore := localOf_ofNat (r.va / 2 ^ 18)
    exact remoteTileAccess_reads hr ho hph hk ⟨hm, hcore, hc, hp, hl, h0, h1, hb⟩ hrun hbe hu
  · obtain ⟨hmem, hhold, hgr, hl1⟩ := finishFence_goesOn kind sys rd lo hi (if sys && kind != 0 then s.fenceStatus s.occ.a s.occ.b lo hi 0 else 0) ha
    refine ⟨_, fenceComplete_finishes hw hh hu, hmem, hhold, fun hs => (hgr hs).trans ?_, hl1⟩
    by_cases hk : kind = 0 <;> simp [hs, hk]
  · exact ⟨_, reclaimComplete_goesOn hw hh ha, rfl, (congrArg Ctx.hold (State.ctx_setCtx_same ..)).trans (unblocked_hold _)⟩
  · refine ⟨_, closeComplete_goesOn hw hh ha, rfl, ?_⟩
    beta_reduce
    rw [State.ctx_setCtx_same]
    refine ⟨unblocked_hold _, (congrArg GReg.val (unblocked_gr (Ctx.gr_setG_same ..))).trans ?_⟩
    cases stale <;> by_cases hn : nhome = 0 <;> simp [hn]
  · exact closeNotice_answers hnet rfl rfl rfl ha he hmove hp hc
  · refine ⟨_, linkwaitExpiry_answers hk hh hr ho hph hp hm, ?_⟩
    rw [answer_own _ _ ho]
    exact ⟨rfl, _, State.req_setReq_same s { r with phase := .reply, trap := some ⟨0x16, 0x03, BitVec.ofNat 64 r.va⟩ }, rfl, rfl⟩

/-! ### An update handler's table over a versioned region (spec 07 R197; 13 R339) -/

/-- A descriptor of one row of one beat of f32 at 0x100000, whose updates a handler at 0x400 makes. -/
def handlerEtd : Etd := 0x100000 + 2 ^ 128 + 9 * 2 ^ 136 + 2 * 2 ^ 156 + 16 * 2 ^ 164 + 2 ^ 212 + 0x400 * 2 ^ 320
/-- The finished read of that descriptor at 0x200000 by context 0 of core 0. -/
def handlerEtdRead : Req :=
  { no := 3, core := 0, ctx := 0, part := 0, rank := 0, scope := 0, kind := .loadNc, va := 0x200000, len := 64, fetch := true, phase := .finished,
    result := leBytes 64 handlerEtd }
/-- User context 0 of core 0 with the descriptor read, its target 0x100000 in a versioned region, and its contribution at 0, where no tile page is resident. -/
def versionedTarget : State :=
  { State.reset with
    ctxs := [(0, (({ st := .ready } : Ctx).setG 2 0x100000).setG 3 0x200000)], reqs := [(3, handlerEtdRead)]
    parts := [(0, { isSet := true, hedges := [0], regions := [(0, { st := 4, base := 16, limit := 31 })] })] }

theorem fetched_versionedTarget : versionedTarget.fetched 0x200000 64 = some handlerEtdRead := by decide
set_option maxRecDepth 4000 in
/-- The descriptor is rejected for a row of a versioned region only. -/
theorem rejected_handlerEtdRead : Etd.rejected (leNat handlerEtdRead.result) (versionedTarget.regionSt versionedTarget.curPart 0x100000 == 4) = true ∧
    Etd.rejected (leNat handlerEtdRead.result) false = false := by decide
set_option maxRecDepth 4000 in
/-- The word waits for the page of its contribution: no trap has been taken. -/
theorem tvalAfter_aacc_versionedTarget : tvalAfter (exec (.aacc ⟨true, false, 0⟩ 1 2 3) versionedTarget) = 0 := by decide
theorem tvalAfter_rejected_versionedTarget :
    tvalAfter (.next (versionedTarget.dropFetched.takeTrap ⟨0x11, 0x04, 0x200000⟩)) = 0x200000 := by decide

/-- Refutes O28: aacc rejects a descriptor before translation by what holds of every row; that the row of an update handler's table lies in a versioned
region it finds when the target is translated, behind the checks of the contribution. -/
theorem not_accumulateReclaimClose : ¬ Obligations.AccumulateReclaimClose := by
  intro ⟨haacc, _⟩
  obtain ⟨-, -, -, hrej⟩ := haacc ⟨true, false, 0⟩ 1 2 3 versionedTarget rfl (by decide) (.aacc ⟨true, false, 0⟩ 1 2 3, .aacc) (List.mem_cons_self ..)
  have hv := congrArg tvalAfter (hrej handlerEtdRead rfl fetched_versionedTarget rejected_handlerEtdRead.1)
  rw [tvalAfter_aacc_versionedTarget] at hv
  exact absurd (hv.trans tvalAfter_rejected_versionedTarget) (by decide)

/-! ### A store whose bytes carry poison (spec 12 R337; 18 R465) -/

/-- A store of context 0 of core 0 at its home, its bytes poisoned. -/
def poisonedStore : Req :=
  { no := 1, core := 0, ctx := 0, part := 0, rank := 0, scope := 0, kind := .store, va := 0x50000, len := 8, phase := .home, posted := true, bad := true,
    pieces := [{ va := 0x50000, len := 8 }] }
/-- The home of address 0, with a partition that owns it and the store due. -/
def storesPoison : State :=
  { State.reset with occ := { a := 1 }, reqs := [(1, poisonedStore)], parts := [(0, { isSet := true, hedges := [0] })] }
/-- A byte of memory after an outcome. -/
def byteAfter (o : Out) (a : Nat) : Byte :=
  match o with
  | .next t => memGet t.mem a
  | .fault _ => 0
  | .refused _ => 0

theorem byteAfter_homeAccess_storesPoison : byteAfter (exec .homeAccess storesPoison) (0x2FB80000 + 0x20000 + 32) = 0x10 := by decide

/-- Refutes O44: the bytes of a store may carry poison, which its home writes into the poison log, so memory is not changed at the store's bytes alone. -/
theorem not_translationAndHomeEvents : ¬ Obligations.TranslationAndHomeEvents := by
  intro ⟨_, hhome⟩
  obtain ⟨-, -, hstore, -⟩ := hhome storesPoison poisonedStore { va := 0x50000, len := 8 } rfl rfl rfl rfl rfl rfl rfl (by decide) (by decide) (by decide)
    (by decide)
  obtain ⟨t, ht, hm⟩ := hstore rfl
  have hb := byteAfter_homeAccess_storesPoison
  rw [ht] at hb
  simp only [byteAfter, hm] at hb
  exact absurd hb (by decide)

end Sys2Proof.Machine
end

section
/-! PROOFS. The words of scopes (spec 08 R234 to R238): what a message that is sent may change, the prune that starts, the buffer of sends. -/

namespace Sys2Proof.Machine

/-! ### What a message that is sent may change (spec 17 R427 to R441) -/

/-- The state s with the fields of t in which messages and the counts of their scopes stand. -/
def State.withNet (s t : State) : State :=
  { s with fab := t.fab, counts := t.counts, agenda := t.agenda, timers := t.timers, free := t.free, grans := t.grans, cores := t.cores }
/-- Between s and t only the fields in which messages stand change, and of a core its message counter alone. -/
structure NetOnly (s t : State) : Prop where
  fields : t = s.withNet t
  core : ∀ n, t.core n = { s.core n with seqn := (t.core n).seqn }

namespace NetOnly

variable {s t u : State}

theorem of_eq (hf : t = s.withNet t) (hc : t.cores = s.cores) : NetOnly s t :=
  ⟨hf, fun n => by simp only [State.core, hc]⟩
theorem refl (s : State) : NetOnly s s := ⟨rfl, fun _ => rfl⟩
theorem trans (a : NetOnly s t) (b : NetOnly t u) : NetOnly s u :=
  ⟨b.fields.trans ((congrArg (State.withNet · u) a.fields).trans rfl), fun n => by rw [b.core n, a.core n]⟩
/-- An act that changes them, after an update of such fields. -/
theorem after (b : NetOnly t u) (hf : t = s.withNet t) (hc : t.cores = s.cores) : NetOnly s u := (of_eq hf hc).trans b

theorem scopes (h : NetOnly s t) : t.scopes = s.scopes := (congrArg State.scopes h.fields).trans rfl
theorem prunes (h : NetOnly s t) : t.prunes = s.prunes := (congrArg State.prunes h.fields).trans rfl
theorem ctxs (h : NetOnly s t) : t.ctxs = s.ctxs := (congrArg State.ctxs h.fields).trans rfl
theorem scope (h : NetOnly s t) (part : Nat) (id : BitVec 16) : t.scope part id = s.scope part id := by simp only [State.scope, h.scopes]
theorem mem (h : NetOnly s t) : t.mem = s.mem := (congrArg State.mem h.fields).trans rfl
/-- Acts that change them, one after another. -/
theorem foldl {α : Type} {f : State → α → State} (hf : ∀ s x, NetOnly s (f s x)) (l : List α) (s : State) : NetOnly s (l.foldl f s) := by
  induction l generalizing s with
  | nil => exact refl s
  | cons x r ih => exact (hf s x).trans (ih _)

end NetOnly

theorem charge_netOnly (s : State) (part : Nat) (scope : BitVec 16) (cls : Nat) (us : List PortUse) : NetOnly s (s.charge part scope cls us) := by
  obtain ⟨ch, ts, e⟩ := chargeAs_only s part (s.profile part scope) cls us
  rw [State.charge, e]
  exact .of_eq rfl rfl
theorem pumpFlits_netOnly (port n : Nat) (s : State) : NetOnly s (pumpFlits port n s) := by
  induction n generalizing s with
  | zero => exact .refl s
  | succ n ih =>
    unfold pumpFlits
    dsimp only
    split
    · exact .refl s
    · exact (ih _).after rfl rfl
theorem sendOn_netOnly (s : State) (i : Nat) (pk : BPacket) : NetOnly s (s.sendOn i pk) := by
  unfold State.sendOn
  extract_lets p fab s1 s2
  have h : NetOnly s s2 := by
    unfold s2 State.portPump
    split
    · exact (pumpFlits_netOnly ..).after rfl rfl
    · exact .of_eq rfl rfl
  split
  · exact h.trans (.of_eq rfl rfl)
  · exact h
theorem portSend_netOnly (s : State) (pk : BPacket) : NetOnly s (s.portSend pk) := by
  have hf : NetOnly s (s.firstHop pk).1 := by
    unfold State.firstHop
    dsimp only
    split <;> exact .of_eq rfl rfl
  refine hf.trans ?_
  unfold State.portSend
  dsimp only
  split
  · exact .refl _
  split
  · exact sendOn_netOnly ..
  split
  · exact (charge_netOnly ..).trans (sendOn_netOnly ..)
  split <;> exact .of_eq rfl rfl
theorem received_netOnly (s : State) (unit : Nat) (m : Msg) : NetOnly s (s.received unit m) := by
  unfold State.received
  split <;> exact .of_eq rfl rfl
theorem transport_netOnly (s : State) (nm : NetMsg) : NetOnly s (s.transport nm) := by
  unfold State.transport
  extract_lets m n at_ nm1 nm2 s1 q p pk s2 s3
  refine ((charge_netOnly ..).trans (.of_eq rfl rfl) : NetOnly s s1).trans ?_
  split
  · split
    · exact ((portSend_netOnly ..).trans (received_netOnly ..)).trans (.of_eq rfl rfl)
    · have h3 : NetOnly s1 s3 := .trans (t := s2.portSend pk) ((portSend_netOnly s2 pk).after rfl rfl) (.of_eq rfl rfl)
      split
      · exact h3.trans (.of_eq rfl rfl)
      · exact h3
  · split <;> exact .of_eq rfl rfl
theorem leave_netOnly (s : State) (nm : NetMsg) : NetOnly s (s.leave nm) := by
  unfold State.leave
  extract_lets m s1 k st ord s2
  have h1 : NetOnly s s1 := by
    unfold s1
    split <;> exact .of_eq rfl rfl
  have h2 : NetOnly s1 s2 := by
    unfold s2
    split <;> exact .of_eq rfl rfl
  exact h1.trans (h2.trans (transport_netOnly ..))
theorem pumpList_netOnly (ok : State → Msg → Bool) (s : State) (l : List NetMsg) : NetOnly s (pumpList ok s l) := by
  induction l generalizing s with
  | nil => exact .refl s
  | cons nm r ih =>
    unfold pumpList
    split
    · exact .refl s
    split
    · exact ih s
    split
    · exact .refl s
    split
    · exact .refl s
    · exact (leave_netOnly s nm).trans (ih _)
theorem pump_netOnly (s : State) (k : Nat) : NetOnly s (s.pump k) := pumpList_netOnly ..
/-- A message that goes to an interface changes nothing but what the network holds. -/
theorem post_netOnly (s : State) (u : Nat) (m : Msg) : NetOnly s (s.post u m) := by
  unfold State.post
  extract_lets m1 s1 nm fab s2
  have h1 : NetOnly s s1 := by
    unfold s1
    split <;> exact .of_eq rfl rfl
  refine (h1.trans (.of_eq rfl rfl) : NetOnly s s2).trans ?_
  split
  · unfold State.leaveFree
    split
    · exact leave_netOnly ..
    · exact .refl _
  · exact pump_netOnly ..
theorem seq_netOnly (s : State) (u : Nat) : NetOnly s (s.seq u).2 := by
  unfold State.seq
  split
  · refine ⟨rfl, fun n => ?_⟩
    by_cases e : n = u
    · subst e; simp only [State.core_setCore_same]
    · simp only [State.core, State.setCore, tget_tset_ne _ _ _ _ e]
  · exact .of_eq rfl rfl
/-- A message that the hardware forms changes nothing but what the network holds and the message counter of its sender. -/
theorem sendNow_netOnly (s : State) (u : Nat) (m : Msg) : NetOnly s (s.sendNow u m) := (seq_netOnly s u).trans (post_netOnly ..)

/-! ### Scopes (spec 01 R41) -/

/-- A scope reads what was written to it, and every other scope as before. -/
theorem State.scope_setScope (s : State) (p p' : Nat) (id id' : BitVec 16) (e : ScopeEnt) :
    (s.setScope p id e).scope p' id' = if p' = p ∧ id' = id then e else s.scope p' id' := by
  split
  next h => obtain ⟨rfl, rfl⟩ := h; exact State.scope_setScope_same ..
  next h =>
    have hk : p' * 65536 + id'.toNat ≠ p * 65536 + id.toNat := fun e =>
      h ⟨by have := id.isLt; have := id'.isLt; omega, BitVec.eq_of_toNat_eq (by have := id.isLt; have := id'.isLt; omega)⟩
    simp only [State.scope, State.setScope, tget_tset_ne _ _ _ _ hk]
/-- A scope that is DYING stays so while the subtree is marked. -/
theorem markDying_dying {part p : Nat} {root id : BitVec 16} {die : Option Nat} (l : List (Nat × ScopeEnt)) {s : State} (h : (s.scope p id).st = .dying) :
    ((markDying s part root die l).scope p id).st = .dying := by
  induction l generalizing s with
  | nil => exact h
  | cons x r ih =>
    unfold markDying
    dsimp only
    split
    · refine ih ?_
      rw [State.scope_setScope]
      split
      · rfl
      · exact h
    · exact ih h
/-- The prune of a LIVE scope sets it DYING (spec 08 R238). -/
theorem startPrune_dying {s : State} {part : Nat} {scope : BitVec 16} (rank : BitVec 24) (ctx : Nat) (scopeOf : BitVec 16) (tag : BitVec 32) (quiet : Bool)
    (op : Nat) (remote : Bool) (h : (s.scope part scope).st = .live) :
    ((s.startPrune part scope rank ctx scopeOf tag quiet op remote).2.scope part scope).st = .dying := by
  have hj : ¬((s.scope part scope).st = .dying ∨ (s.scope part scope).st = .dead) := by simp [h]
  unfold State.startPrune
  dsimp only
  rw [if_neg hj]
  have sent {α β : Type} {f : State → α → State} {g : State → β → State} (hf : ∀ s x, NetOnly s (f s x)) (hg : ∀ s x, NetOnly s (g s x)) (l : List α)
      (r : List β) {u : State} (hu : (u.scope part scope).st = .dying) : ((r.foldl g (l.foldl f u)).scope part scope).st = .dying := by
    rw [((NetOnly.foldl hf l u).trans (NetOnly.foldl hg r _)).scope, hu]
  split <;> exact sent (fun _ _ => sendNow_netOnly ..) (fun _ _ => sendNow_netOnly ..) _ _ (markDying_dying _ (by rw [State.scope_setScope_same]))

/-! ### Buffering a message (spec 01 R48; 08 R218; 16 R408) -/

/-- The staging of a context takes the record of its newest send: of memory, only its bytes change. -/
theorem stage_staged (s : State) (core k : Nat) : (s.stage core k).ctxs = s.ctxs ∧ (s.stage core k).focus = s.focus ∧
    ∀ a, ¬(stagePa core k ≤ a ∧ a < stagePa core k + stageLen) → memGet (s.stage core k).mem a = memGet s.mem a := by
  unfold State.stage
  extract_lets l at_
  split
  · exact ⟨rfl, rfl, fun _ _ => rfl⟩
  next b hb =>
    split
    · exact ⟨rfl, rfl, fun _ _ => rfl⟩
    · refine ⟨rfl, rfl, fun a ha => ?_⟩
      have hl : ((s.stageBytes b).take (stageLen - at_)).length ≤ stageLen - at_ := List.length_take_le ..
      rw [State.wrB, memGet_memWrite_any, if_neg (by omega)]
/-- A message with the fields of the context that sends it. -/
def Msg.ofCtx (m : Msg) (s : State) (core k : Nat) : Msg :=
  let u := (s.seq core).2
  { m with srank := u.rankOf core, srclr := BitVec.ofNat 12 core, seqn := (s.seq core).1, sctx := k, rtag := (s.ctx core k).ctl.rtag,
           arank := u.actingRank core k, part := u.partNo core, scope := (s.ctx core k).ctl.cur, waits := if m.relord then u.openStores core k else [] }
/-- The state with m, filled in by its sender, behind the sends of context k of core. -/
def State.withSend (s : State) (core k : Nat) (m : Msg) : State :=
  (s.seq core).2.onCtx core k fun c => { c with sends := c.sends ++ [.msg (m.ofCtx s core k)] }
theorem buffer_eq_stage {s : State} {core k : Nat} (m : Msg) (hr : (s.ctx core k).sends.length < 32) :
    s.buffer core k m = .ok ((s.withSend core k m).stage core k) := if_neg (Nat.not_le.2 hr)
/-- The send buffer of the focused context, with room, takes the message. -/
theorem buffer_room {s : State} (m : Msg) (hr : s.cur.sends.length < 32) :
    ∃ t, s.buffer s.fcore s.fctx m = .ok t ∧ t.cur = { s.cur with sends := s.cur.sends ++ [.msg (m.ofCtx s s.fcore s.fctx)] } ∧ s.onlyStaged t := by
  have hs := seq_kept s s.fcore
  obtain ⟨hc, hf, hm⟩ := stage_staged (s.withSend s.fcore s.fctx m) s.fcore s.fctx
  refine ⟨_, buffer_eq_stage m hr, ?_, fun a ha => (hm a ha).trans (congrArg (memGet · a) hs.mem)⟩
  generalize (s.withSend s.fcore s.fctx m).stage s.fcore s.fctx = t at hc hf
  have he : t.cur = t.ctx s.fcore s.fctx := by rw [State.cur, State.fcore, State.fctx, hf.trans hs.focus]; rfl
  rw [he, State.ctx_of_ctxs hc, State.withSend, State.onCtx, State.ctx_setCtx_same, hs.ctx]
  rfl

/-! ### The scope words (spec 08 R234 to R238) -/

section
variable {h : Hdr} {rd rx ra rb : BitVec 4} {tk : BitVec 3} {s : State}

/-- A word asks the scope unit of scope: its request stands there and comes due, and the context holds until the reply. -/
def AsksScopeUnit (s : State) (o : Out) (rd : BitVec 4) (isNew : Bool) (scope : BitVec 16) : Prop :=
  ∃ (t : State) (q : ScopeReq), o = .next t ∧ t.cur = { s.cur with hold := .scopeUnit rd s.nextNo } ∧ t.scopeReqs = s.scopeReqs ++ [q] ∧
    q.no = s.nextNo ∧ q.isNew = isNew ∧ q.scope = scope ∧ q.core = s.fcore ∧ q.ctx = s.fctx ∧
    t.agenda = s.agenda ++ [(.scopeRequest, { a := s.nextNo })] ∧ t.mem = s.mem
theorem askScope_asks {body : State → Res} {isNew : Bool} {scope : BitVec 16} {tmpl : Word} {sel : Nat} (g : s.cur.guard h = true)
    (e : body s = s.askScope isNew scope tmpl sel rd) : AsksScopeUnit s (lword h s body) rd isNew scope :=
  ⟨_, _, lword_wait g e, State.cur_setCur .., rfl, rfl, rfl, rfl, rfl, rfl, rfl, rfl⟩
theorem execScnew_asks (g : s.cur.guard h = true) (hl : (s.scope s.curPart s.cur.ctl.cur).st = .live) :
    AsksScopeUnit s (execScnew h rd ra rb s) rd true s.cur.ctl.cur := by
  dsimp only [execScnew]
  exact askScope_asks g (if_pos (beq_iff_eq.2 hl))
theorem execScnew_traps (g : s.cur.guard h = true) (hl : (s.scope s.curPart s.cur.ctl.cur).st ≠ .live) :
    execScnew h rd ra rb s = .next (s.takeTrap ⟨0x23, 0, s.cur.ctl.cur.zeroExtend 64⟩) := by
  dsimp only [execScnew]
  exact lword_trap g (if_neg (mt beq_iff_eq.1 hl))
theorem execScstat_asks (g : s.cur.guard h = true) :
    AsksScopeUnit s (execScstat h rd ra rb s) rd false ((s.cur.gv ra).truncate 16) := askScope_asks g rfl

/-- resume of user mode traps (spec 08 R237). -/
theorem execResumeW_user (g : s.cur.guard h = true) (hp : s.priv = false) : execResumeW h rx ra rb s = .next (s.takeTrap ⟨0x03, 0, 0⟩) := by
  dsimp only [execResumeW]
  exact lword_trap g (if_pos hp)
/-- The built-in of the word resume, for the rank and frame of a and b. -/
def resumeWordMsg (a b : Word) : Msg := { dest := a.truncate 24, kind := .builtin, addr := 0x310, args := arg4 a b 0 0 }
/-- resume of system mode buffers its built-in (spec 08 R237). -/
theorem execResumeW_buffers (g : s.cur.guard h = true) (hp : s.priv = true) (hr : s.cur.sends.length < 32) :
    ∃ (t : State) (m : Msg), execResumeW h rx ra rb s = .next t ∧ t.cur.sends = s.cur.sends ++ [.msg m] ∧ m.kind = .builtin ∧ m.addr = 0x310 ∧
      m.dest = (s.cur.gv ra).truncate 24 ∧ m.arg 0 = s.cur.gv ra ∧ m.arg 1 = s.cur.gv rb ∧ t.cur.g = s.cur.g ∧ s.onlyStaged t := by
  obtain ⟨t, ht, hc, hm⟩ := buffer_room (s := s) (resumeWordMsg (s.cur.gv ra) (s.cur.gv rb)) hr
  dsimp only [execResumeW]
  refine ⟨t.finish, (resumeWordMsg (s.cur.gv ra) (s.cur.gv rb)).ofCtx s s.fcore s.fctx, lword_ok g ((if_neg (by simp [hp])).trans ?_), ?_, rfl, rfl, rfl, rfl, rfl, ?_, hm⟩
  · rw [resumeWordMsg] at ht
    simp only [ht]
  · rw [State.cur_finish, hc]
  · rw [State.cur_finish, hc]

/-- prune of a scope that the context may not prune traps (spec 08 R238). -/
theorem execPrune_outside (g : s.cur.guard h = true) (hp : s.priv = false)
    (hi : (s.cur.gv ra).truncate 16 = (0 : BitVec 16) ∨ s.inScope s.curPart s.cur.ctl.base ((s.cur.gv ra).truncate 16) = false) :
    execPrune h tk ra rb s = .next (s.takeTrap ⟨0x03, 0, s.cur.gv ra⟩) := lword_trap g (if_pos ⟨hp, hi⟩)
/-- prune of a FREE scope traps (spec 08 R238). -/
theorem execPrune_free (g : s.cur.guard h = true) (hp : s.priv = true) (hf : (s.scope s.curPart ((s.cur.gv ra).truncate 16)).st = .free) :
    execPrune h tk ra rb s = .next (s.takeTrap ⟨0x23, 0, s.cur.gv ra⟩) :=
  lword_trap g ((if_neg fun x => Bool.false_ne_true (x.1.symm.trans hp)).trans (if_pos hf))
/-- prune of a LIVE scope that the context may prune sets it DYING and its token PENDING (spec 08 R238). -/
theorem execPrune_live (g : s.cur.guard h = true)
    (hp : s.priv = true ∨ ((s.cur.gv ra).truncate 16 ≠ (0 : BitVec 16) ∧ s.inScope s.curPart s.cur.ctl.base ((s.cur.gv ra).truncate 16) = true))
    (hl : (s.scope s.curPart ((s.cur.gv ra).truncate 16)).st = .live) :
    ∃ t, execPrune h tk ra rb s = .next t ∧ t.cur = { s.cur.setTok tk ⟨.pending, s.nextNo⟩ with fin := true } ∧
      (t.scope s.curPart ((s.cur.gv ra).truncate 16)).st = .dying ∧ t.mem = s.mem := by
  generalize hid : (s.cur.gv ra).truncate 16 = id at hp hl
  have hn : ¬(s.priv = false ∧ (id = 0 ∨ s.inScope s.curPart s.cur.ctl.base id = false)) := by
    rintro ⟨hf, h0⟩
    rcases hp with hp | ⟨hz, hi⟩
    · simp [hp] at hf
    · exact h0.elim hz (by simp [hi])
  let o : Op := { no := s.nextNo, engine := .prune, core := s.fcore, ctx := s.fctx, scope := s.curScope, part := s.curPart, rank := s.acting,
                  tk := tk.toNat, ph := .started, linkwait := s.cur.ctl.linkwait, unit := 874 + (s.scope s.curPart id).die, pruneNo := s.nextNo + 1 }
  let u := (({ s with nextNo := s.nextNo + 1 } : State).setOp s.nextNo o).startPrune s.curPart id (s.rankOf s.fcore) s.fctx s.curScope
    ((s.cur.gv rb).truncate 32) ((s.cur.gv rb).getLsbD 63) s.nextNo false
  have hk : NetKept s u.2 := (startPrune_kept ..).after rfl rfl rfl rfl
  refine ⟨(u.2.setCur (u.2.cur.setTok tk ⟨.pending, s.nextNo⟩)).finish, lword_ok g ?_, ?_, startPrune_dying _ _ _ _ _ _ _ hl, hk.mem⟩
  · dsimp only
    rw [hid, if_neg hn, if_neg (by simp [hl])]
    rfl
  · rw [State.finish_setCur, State.cur_wrote, hk.cur]

end

/-- Settles O23, one clause for each case of the four words. -/
theorem scopeWords : Obligations.ScopeWords := by
  intro h rd rx ra rb tk s g c asks id
  exact ⟨execScnew_asks (rb := rb) g, execScnew_traps (rb := rb) g, execScstat_asks g, execResumeW_user (rx := rx) g, execResumeW_buffers (rx := rx) g, execPrune_outside g, execPrune_free g,
    execPrune_live g⟩

end Sys2Proof.Machine
end

section
/-! PROOFS. What the sweeps of a prune leave alone (spec 08 R238 to R240): the tree of the scopes, whether a core is in, and the prunes; of a core, only the
contexts that are killed. -/

namespace Sys2Proof.Machine

/-! ### What sweeps and acknowledgements leave alone (spec 08 R239, R240) -/

/-- A prune goes on from x to y: acknowledgements and counts are added, and a prune that is complete stays so. -/
def Prune.Later (x y : Prune) : Prop := y = { x with acked := y.acked, tally := y.tally, done := y.done } ∧ (x.done = true → y.done = true)

namespace Prune.Later

variable {x y z : Prune}

theorem refl (x : Prune) : x.Later x := ⟨rfl, id⟩
theorem trans (a : x.Later y) (b : y.Later z) : x.Later z := ⟨by rw [b.1, a.1], b.2 ∘ a.2⟩
theorem done (a : x.Later y) (h : x.done = true) : y.done = true := a.2 h
theorem noticed (a : x.Later y) : y.noticed = x.noticed := by rw [a.1]
theorem members (a : x.Later y) : y.members = x.members := by rw [a.1]
theorem partialEnd (a : x.Later y) : y.partialEnd = x.partialEnd := by rw [a.1]
theorem already (a : x.Later y) : y.already = x.already := by rw [a.1]
theorem waiting (a : x.Later y) : y.waiting = x.waiting := by rw [a.1]

end Prune.Later

/-- Between s and t no prune leaves its table, and each goes on. -/
def PrunesGo (s t : State) : Prop := ∀ n x, tget s.prunes n = some x → ∃ y, tget t.prunes n = some y ∧ x.Later y

namespace PrunesGo

variable {s t u : State}

theorem of_eq (h : t.prunes = s.prunes) : PrunesGo s t := fun _ x hx => ⟨x, h ▸ hx, .refl x⟩
theorem trans (a : PrunesGo s t) (b : PrunesGo t u) : PrunesGo s u := fun n x hx => by
  obtain ⟨y, hy, hxy⟩ := a n x hx
  obtain ⟨z, hz, hyz⟩ := b n y hy
  exact ⟨z, hz, hxy.trans hyz⟩
/-- One prune goes on, and the others stand. -/
theorem of_tset {n : Nat} {x y : Prune} (hx : tget s.prunes n = some x) (h : x.Later y) : PrunesGo s { s with prunes := tset s.prunes n y } := by
  intro m z hz
  by_cases e : m = n
  · subst e
    rw [hx] at hz
    cases hz
    exact ⟨y, tget_tset_same .., h⟩
  · exact ⟨z, (tget_tset_ne _ _ _ _ e).trans hz, .refl z⟩

end PrunesGo

/-- A scope stands in the subtrees in which it stood, where every scope has the parent it had. -/
theorem inScope_of_parents {s t : State} (h : ∀ part id, (t.scope part id).parent = (s.scope part id).parent) (part : Nat) (root id : BitVec 16) :
    t.inScope part root id = s.inScope part root id := by
  have ht (n : Nat) (id : BitVec 16) : inTree t part root n id = inTree s part root n id := by
    induction n generalizing id with
    | zero => rfl
    | succ n ih => simp only [inTree, h, ih]
  exact ht _ id

/-- Between s and t the cores' states and the tree of the scopes stand, and every prune goes on. -/
structure TablesKept (s t : State) : Prop where
  run : ∀ n, (t.core n).run = (s.core n).run
  parent : ∀ part id, (t.scope part id).parent = (s.scope part id).parent
  prunes : PrunesGo s t

namespace TablesKept

variable {s t u : State}

theorem of_eq (hc : t.cores = s.cores) (hs : t.scopes = s.scopes) (hp : t.prunes = s.prunes) : TablesKept s t :=
  ⟨fun _ => by simp only [State.core, hc], fun _ _ => by simp only [State.scope, hs], .of_eq hp⟩
theorem trans (a : TablesKept s t) (b : TablesKept t u) : TablesKept s u :=
  ⟨fun n => (b.run n).trans (a.run n), fun p id => (b.parent p id).trans (a.parent p id), a.prunes.trans b.prunes⟩
theorem inScope (a : TablesKept s t) (part : Nat) (root id : BitVec 16) : t.inScope part root id = s.inScope part root id :=
  inScope_of_parents a.parent part root id

end TablesKept

/-- Between s and t the contexts and memory stand as well. -/
structure WorkKept (s t : State) : Prop extends TablesKept s t where
  ctxs : t.ctxs = s.ctxs
  mem : t.mem = s.mem

namespace WorkKept

variable {s t u : State}

theorem of_eq (hx : t.ctxs = s.ctxs := by rfl) (hm : t.mem = s.mem := by rfl) (hc : t.cores = s.cores := by rfl)
    (hs : t.scopes = s.scopes := by rfl) (hp : t.prunes = s.prunes := by rfl) : WorkKept s t :=
  ⟨.of_eq hc hs hp, hx, hm⟩
theorem refl (s : State) : WorkKept s s := .of_eq
theorem trans (a : WorkKept s t) (b : WorkKept t u) : WorkKept s u :=
  ⟨a.toTablesKept.trans b.toTablesKept, b.ctxs.trans a.ctxs, b.mem.trans a.mem⟩
/-- An act that keeps them, after an update of other fields. -/
theorem after (b : WorkKept t u) (hx : t.ctxs = s.ctxs := by rfl) (hm : t.mem = s.mem := by rfl) (hc : t.cores = s.cores := by rfl)
    (hs : t.scopes = s.scopes := by rfl) (hp : t.prunes = s.prunes := by rfl) : WorkKept s u := (of_eq hx hm hc hs hp).trans b
/-- Acts that keep them, one after another. -/
theorem foldl {α : Type} {f : State → α → State} (hf : ∀ s x, WorkKept s (f s x)) (l : List α) (s : State) : WorkKept s (l.foldl f s) := by
  induction l generalizing s with
  | nil => exact refl s
  | cons x r ih => exact (hf s x).trans (ih _)
theorem ctx (h : WorkKept s t) (core k : Nat) : t.ctx core k = s.ctx core k := State.ctx_of_ctxs h.ctxs core k

end WorkKept

theorem NetOnly.work {s t : State} (h : NetOnly s t) : WorkKept s t where
  run n := by rw [h.core n]
  parent p id := by rw [h.scope]
  prunes := .of_eq h.prunes
  ctxs := h.ctxs
  mem := h.mem

/-- A core's record changes, but not whether the core is in. -/
theorem onCore_work {s : State} {core : Nat} {f : Core → Core} (h : ∀ c, (f c).run = c.run := by intro c; rfl) : WorkKept s (s.onCore core f) where
  run n := by
    by_cases e : n = core
    · subst e; rw [State.onCore, State.core_setCore_same, h]
    · simp only [State.core, State.onCore, State.setCore, tget_tset_ne _ _ _ _ e]
  parent _ _ := rfl
  prunes := .of_eq rfl
  ctxs := rfl
  mem := rfl
/-- A scope's record changes, but not its parent. -/
theorem setScope_work {s : State} {part : Nat} {id : BitVec 16} {e : ScopeEnt} (h : e.parent = (s.scope part id).parent) :
    WorkKept s (s.setScope part id e) where
  run _ := rfl
  parent p i := by
    rw [State.scope_setScope]
    split
    next hp => rw [h, hp.1, hp.2]
    · rfl
  prunes := .of_eq rfl
  ctxs := rfl
  mem := rfl
/-- One prune goes on. -/
theorem setPrune_work {s : State} {n : Nat} {x y : Prune} (hx : tget s.prunes n = some x) (h : x.Later y) :
    WorkKept s { s with prunes := tset s.prunes n y } :=
  ⟨⟨fun _ => rfl, fun _ _ => rfl, .of_tset hx h⟩, rfl, rfl⟩
theorem due_work (s : State) (i : Instr) (a b c : Nat) : WorkKept s (s.due i a b c) := .of_eq
theorem later_work (s : State) (i : Instr) (a b c : Nat) : WorkKept s (s.later i a b c) := .of_eq
theorem setOp_work (s : State) (n : Nat) (o : Op) : WorkKept s (s.setOp n o) := .of_eq
theorem delNet_work (s : State) (n : Nat) : WorkKept s (s.delNet n) := .of_eq
theorem err_work (s : State) (part : Nat) (scope : BitVec 16) (unit : Nat) (e : BitVec 8) : WorkKept s (s.err part scope unit e) := .of_eq
theorem sendNow_work (s : State) (u : Nat) (m : Msg) : WorkKept s (s.sendNow u m) := (sendNow_netOnly ..).work

/-! ### Messages that are dropped, returned or taken out -/

theorem countDropped_work (s : State) (unit part : Nat) (scope : BitVec 16) : WorkKept s (s.countDropped unit part scope) :=
  (err_work ..).trans (setScope_work rfl)
theorem unlockRow_work (s : State) (no : Nat) : WorkKept s (s.unlockRow no) := by
  unfold State.unlockRow
  split
  · exact .refl s
  · refine (WorkKept.foldl (fun s q => ?_) _ _).after
    split
    · exact due_work ..
    · exact .refl s
theorem unbind_work (s : State) (m : Msg) : WorkKept s (s.unbind m) := by
  unfold State.unbind
  split <;> exact .of_eq
theorem dropMsg_work (s : State) (unit : Nat) (m : Msg) : WorkKept s (s.dropMsg unit m) := by
  unfold State.dropMsg
  extract_lets s1
  have h : WorkKept s s1 := by
    unfold s1
    split
    · exact unlockRow_work ..
    · exact .refl s
  exact ((h.trans (unbind_work ..)).trans (received_netOnly ..).work).trans (countDropped_work ..)
theorem returnMsg_work (s : State) (u : Nat) (m : Msg) (st : BitVec 8) : WorkKept s (s.returnMsg u m st) := by
  unfold State.returnMsg
  split
  · exact dropMsg_work ..
  · exact dropMsg_work ..
  · exact (((unbind_work ..).trans (received_netOnly ..).work).trans (seq_netOnly ..).work).trans (post_netOnly ..).work
  · exact (received_netOnly ..).work.trans (post_netOnly ..).work
theorem releaseMoving_work (s : State) (m : Msg) : WorkKept s (s.releaseMoving m) := by
  unfold State.releaseMoving
  split <;> exact .of_eq
theorem onTally_work (s : State) (n unit : Nat) (f : Tally → Tally) : WorkKept s (s.onTally n unit f) := by
  unfold State.onTally
  split
  · exact .refl s
  next p hp => exact setPrune_work hp ⟨rfl, id⟩
theorem tallyFor_work (s : State) (part : Nat) (scope : BitVec 16) (unit : Nat) (f : Tally → Tally) : WorkKept s (s.tallyFor part scope unit f) := by
  unfold State.tallyFor
  split
  · exact .refl s
  · exact onTally_work ..
theorem dropMoving_work (s : State) (unit : Nat) (m : Msg) : WorkKept s (s.dropMoving unit m) := by
  refine WorkKept.trans ?_ (releaseMoving_work ..)
  unfold State.dropDead
  refine WorkKept.trans ?_ (tallyFor_work ..)
  split
  · exact (received_netOnly ..).work.trans (err_work ..)
  · exact dropMsg_work ..
theorem skipOrd_work (s : State) (nm : NetMsg) : WorkKept s (s.skipOrd nm) := by
  unfold State.skipOrd
  dsimp only
  split
  · exact .refl s
  · split <;> exact .of_eq
theorem takeOut_work (s : State) (nm : NetMsg) : WorkKept s (s.takeOut nm) := by
  have h : WorkKept s ((s.skipOrd nm).delNet nm.msg.no) := (skipOrd_work ..).trans (delNet_work ..)
  unfold State.takeOut
  dsimp only
  split
  · exact h.trans ((pump_netOnly ..).work.after)
  · exact h
theorem sweepNet_work (s : State) (unit part : Nat) (scope : BitVec 16) : WorkKept s (s.sweepNet unit part scope) := by
  refine WorkKept.foldl (fun s nm => ?_) _ s
  unfold State.removeMsg
  split
  · exact ((delNet_work ..).trans (dropMoving_work ..)).trans (.of_eq)
  · exact (dropMoving_work ..).trans (takeOut_work ..)

/-! ### Barriers and operations that end -/

theorem breakBar_work (s : State) (core n : Nat) : WorkKept s (s.breakBar core n) := by
  unfold State.breakBar
  dsimp only
  split
  · refine WorkKept.trans (WorkKept.trans (.foldl (fun _ _ => ?_) _ _) (.foldl (fun _ _ => ?_) _ _)) onCore_work
    · exact sendNow_work ..
    · exact sendNow_work ..
  · exact .refl s
theorem endOp_work (s : State) (n : Nat) (st : TokSt) (reason : Nat) (t : Trap) (progress extra : Nat) (own : Bool) :
    WorkKept s (s.endOp n st reason t progress extra own) := by
  unfold State.endOp
  split
  · exact .refl s
  next o _ =>
    split
    · exact .refl s
    · extract_lets s1 s2 h status s3 had s4
      have h2 : WorkKept s s2 := .of_eq
      have h3 : WorkKept s2 s3 := by
        unfold s3
        split
        · exact sendNow_work ..
        · exact .refl _
      exact (h2.trans h3).trans ((WorkKept.foldl (fun _ _ => due_work ..) _ _).after)
theorem cancelOwn_work (s : State) (n unit : Nat) : WorkKept s (s.cancelOwn n unit) := by
  unfold State.cancelOwn
  split
  · exact .refl s
  · exact (tallyFor_work ..).trans (endOp_work ..)
theorem ackPrune_work (s : State) (n unit : Nat) : WorkKept s (s.ackPrune n unit) := by
  unfold State.ackPrune
  split
  · exact .refl s
  next p hp =>
    split
    · dsimp only
      refine WorkKept.trans ?_ (sendNow_work ..)
      exact setPrune_work hp ⟨rfl, id⟩
    · exact .refl s
theorem ackAll_work (s : State) (unit : Nat) : WorkKept s (s.ackAll unit) := by
  refine WorkKept.foldl (fun s x => ?_) _ s
  split
  · exact ackPrune_work ..
  · exact .refl s

/-! ### What the units other than cores sweep -/

theorem sweepSeals_work (s : State) (core : Nat) : WorkKept s (s.sweepSeals core) :=
  .trans onCore_work (.foldl (fun _ _ => by exact sendNow_work ..) _ _)
theorem endCopy_work (s : State) (n : Nat) (st : TokSt) (reason : Nat) (t : Trap) (progress extra : Nat) (own : Bool) :
    WorkKept s (s.endCopy n st reason t progress extra own) := by
  unfold State.endCopy
  split
  · exact .refl s
  · refine WorkKept.trans (WorkKept.trans (WorkKept.trans ?_ (setOp_work ..)) (endOp_work ..)) (.foldl sweepSeals_work _ _)
    exact WorkKept.foldl (fun _ _ => by exact onCore_work) _ _
theorem onPart_work (s : State) (n i : Nat) (f : CPart → CPart) : WorkKept s (s.onPart n i f) := by
  unfold State.onPart
  split
  · exact .refl s
  · exact setOp_work ..
theorem sweepCopy_work (s : State) (unit part : Nat) (scope : BitVec 16) : WorkKept s (s.sweepCopy unit part scope) := by
  refine WorkKept.foldl (fun s x => ?_) _ s
  extract_lets n o here s1 s2
  split
  · exact (tallyFor_work ..).trans (endCopy_work ..)
  · split
    · exact .refl s
    · have h1 : WorkKept s s1 := by
        unfold s1
        split
        · exact .refl s
        · exact tallyFor_work ..
      exact (h1.trans (setOp_work ..)).trans (.foldl (fun _ _ => (onPart_work ..).trans (due_work ..)) _ _)
theorem tdeFree_work (s : State) (u c n : Nat) : WorkKept s (s.tdeFree u c n) := by
  unfold State.tdeFree
  dsimp only
  refine WorkKept.trans (WorkKept.trans ?_ (.foldl (fun _ _ => due_work ..) _ _)) (ackAll_work ..)
  split <;> exact .of_eq
theorem abortDispatch_work (s : State) (n : Nat) (st : TokSt) (reason : Nat) (t : Trap) (own record : Bool) :
    WorkKept s (s.abortDispatch n st reason t own record) := by
  unfold State.abortDispatch
  split
  · exact .refl s
  next o _ =>
    extract_lets u x s1 y
    split
    · exact .refl s
    · refine WorkKept.trans (t := s1) ?_ .of_eq
      unfold s1
      split
      · exact .foldl (fun _ _ => by exact sendNow_work ..) _ _
      · exact .refl s
theorem stopCombine_work (s : State) (n : Nat) (st : TokSt) (reason : Nat) (t : Trap) (own : Bool) (puts : List TPut) :
    WorkKept s (s.stopCombine n st reason t own puts) := by
  unfold State.stopCombine
  split
  · exact .refl s
  · dsimp only
    split <;> exact .of_eq
theorem sweepTde_work (s : State) (u part : Nat) (scope : BitVec 16) : WorkKept s (s.sweepTde u part scope) := by
  refine WorkKept.foldl (fun s n => ?_) _ s
  split
  · exact .refl s
  · split
    · exact ((tallyFor_work ..).trans (endOp_work ..)).trans (tdeFree_work ..)
    · dsimp only
      split
      · exact .refl s
      · split
        · exact (tallyFor_work ..).trans (abortDispatch_work ..)
        · exact (tallyFor_work ..).trans ((stopCombine_work ..).after)
theorem sweepDense_work (s : State) (die part : Nat) (scope : BitVec 16) : WorkKept s (s.sweepDense die part scope) := by
  unfold State.sweepDense
  extract_lets mine unit d gone s1 s2
  have h : WorkKept s s2 := (WorkKept.foldl (fun _ _ => cancelOwn_work ..) _ _).after
  split
  · exact h
  next n _ =>
    extract_lets s3
    split
    · refine h.trans (WorkKept.trans (t := s3) ?_ .of_eq)
      unfold s3
      split
      · exact tallyFor_work ..
      · exact .refl _
    · exact h
theorem sweepLaunches_work (s : State) (part : Nat) (scope : BitVec 16) : WorkKept s (s.sweepLaunches part scope) :=
  .foldl (fun _ _ => by exact .of_eq) _ s
theorem markDying_work (part : Nat) (root : BitVec 16) (die : Option Nat) (l : List (Nat × ScopeEnt)) (s : State) :
    WorkKept s (markDying s part root die l) := by
  induction l generalizing s with
  | nil => exact .refl s
  | cons x r ih =>
    unfold markDying
    dsimp only
    split
    · refine WorkKept.trans ?_ (ih _)
      exact setScope_work rfl
    · exact ih s
/-- A unit that is no core sweeps its work, and no context or byte of memory changes. -/
theorem sweep_work {s : State} {u part : Nat} {scope : BitVec 16} (hu : ¬u < 768) : WorkKept s (s.sweep u part scope) := by
  unfold State.sweep
  rw [if_neg hu]
  dsimp only
  refine (sweepNet_work s u part scope).trans ?_
  split
  · exact sweepCopy_work ..
  split
  · exact sweepTde_work ..
  split
  · exact sweepDense_work ..
  split
  · exact sweepLaunches_work ..
  split
  · exact markDying_work ..
  · exact .refl _

/-! ### What a kill leaves alone (spec 07 R212; 08 R239) -/

/-- Between s and t every context of the core but k stands, and the cores' states, the tree of the scopes and the prunes as above. -/
structure OthersKept (core k : Nat) (s t : State) : Prop extends TablesKept s t where
  ctx : ∀ j, j ≠ k → t.ctx core j = s.ctx core j

theorem OthersKept.of_eq {core k : Nat} {s t : State} (hx : t.ctxs = s.ctxs := by rfl) (hc : t.cores = s.cores := by rfl)
    (hs : t.scopes = s.scopes := by rfl) (hp : t.prunes = s.prunes := by rfl) : OthersKept core k s t :=
  ⟨.of_eq hc hs hp, fun j _ => State.ctx_of_ctxs hx core j⟩
theorem OthersKept.trans {core k : Nat} {s t u : State} (a : OthersKept core k s t) (b : OthersKept core k t u) : OthersKept core k s u :=
  ⟨a.toTablesKept.trans b.toTablesKept, fun j h => (b.ctx j h).trans (a.ctx j h)⟩
theorem WorkKept.others {s t : State} (h : WorkKept s t) (core k : Nat) : OthersKept core k s t := ⟨h.toTablesKept, fun j _ => h.ctx core j⟩

theorem setCtx_others (s : State) (core k : Nat) (c : Ctx) : OthersKept core k s (s.setCtx core k c) where
  run _ := rfl
  parent _ _ := rfl
  prunes := .of_eq rfl
  ctx j h := by
    have hk : ckey core j ≠ ckey core k := by simp only [ckey]; omega
    simp only [State.ctx, State.setCtx, tget_tset_ne _ _ _ _ hk]
theorem writeFrame_others (s : State) (core k fstate kind done : Nat) : OthersKept core k s (s.writeFrame core k fstate kind done) :=
  (setCtx_others ..).trans .of_eq
theorem releaseRank_others (s : State) (core k : Nat) : OthersKept core k s (s.releaseRank core k) := by
  unfold State.releaseRank
  split
  · exact (WorkKept.refl s).others core k
  · exact .trans .of_eq (setCtx_others ..)
theorem freeCtx_others (s : State) (core k : Nat) : OthersKept core k s (s.freeCtx core k) := by
  unfold State.freeCtx
  extract_lets s1 s2
  have h1 : WorkKept s s1 := by
    unfold s1
    split
    · exact unlockRow_work ..
    · exact .refl s
  have h2 : OthersKept core k s s2 := ((h1.others core k).trans (releaseRank_others ..)).trans (setCtx_others ..)
  split
  · exact h2
  · exact h2.trans ((due_work ..).others core k)
/-- A context that is freed is FREE. -/
theorem freeCtx_free (s : State) (core k : Nat) : ((s.freeCtx core k).ctx core k).st = .free := by
  unfold State.freeCtx
  extract_lets s1 s2
  have h2 : (s2.ctx core k).st = .free := by simp only [s2, State.onCtx, State.ctx_setCtx_same]
  split <;> exact h2
theorem discardSends_others (s : State) (core k : Nat) : OthersKept core k s (s.discardSends core k) :=
  .trans .of_eq (setCtx_others ..)
theorem killCtx_others (s : State) (core k : Nat) : OthersKept core k s (s.killCtx core k) := by
  unfold State.killCtx
  extract_lets c part sc nsend c1 ctl c2 fst s1 s2 held s3 brk s4 s5 s6
  split
  · exact (WorkKept.refl s).others core k
  have h1 : OthersKept core k s s1 := by
    unfold s1
    split
    · exact .of_eq
    · exact (setCtx_others ..).trans (writeFrame_others ..)
  have h2 : WorkKept s1 s2 := .of_eq
  have h3 : WorkKept s2 s3 := by
    unfold s3
    split
    · split
      · exact dropMsg_work ..
      · exact .refl _
    · split
      · exact countDropped_work ..
      · exact .refl _
  have h6 : WorkKept s3 s6 := ((WorkKept.foldl (fun _ _ => breakBar_work ..) _ _).trans (tallyFor_work ..)).trans (err_work ..)
  exact ((h1.trans (((h2.trans h3).trans h6).others core k)).trans (discardSends_others ..)).trans (freeCtx_others ..)
/-- A user context that is killed is FREE. -/
theorem killCtx_free {s : State} {core k : Nat} (hk : k < 14) : ((s.killCtx core k).ctx core k).st = .free := by
  unfold State.killCtx
  dsimp only
  split
  next h => simpa [Nat.not_le.2 hk] using h
  · exact freeCtx_free ..

/-! ### What a core sweeps -/

theorem sweepCtx_others (s : State) (core part : Nat) (scope : BitVec 16) (k : Nat) : OthersKept core k s (s.sweepCtx core part scope k) := by
  unfold State.sweepCtx
  extract_lets c now
  split
  · exact (WorkKept.refl s).others core k
  split
  · exact killCtx_others ..
  · exact setCtx_others ..
/-- A FREE context stays so in a sweep. -/
theorem sweepCtx_free {s : State} {core part : Nat} {scope : BitVec 16} {k : Nat} (j : Nat) (h : (s.ctx core k).st = .free) :
    ((s.sweepCtx core part scope j).ctx core k).st = .free := by
  by_cases e : k = j
  · subst e
    unfold State.sweepCtx
    dsimp only
    rw [if_pos (.inl h), h]
  · rw [(sweepCtx_others s core part scope j).ctx k e, h]
/-- The context waits in the subtree, so that a sweep kills it. -/
def State.waitsIn (s : State) (core part : Nat) (scope : BitVec 16) (k : Nat) : Prop :=
  (s.ctx core k).st = .waiting ∧ s.inScope part scope (s.ctx core k).ctl.cur = true
theorem sweepCtx_waiting {s : State} {core part : Nat} {scope : BitVec 16} {k : Nat} (hk : k < 14) (h : s.waitsIn core part scope k) :
    ((s.sweepCtx core part scope k).ctx core k).st = .free := by
  obtain ⟨hw, hi⟩ := h
  unfold State.sweepCtx
  simp only [hw, hi]
  exact killCtx_free hk
/-- A fold settles Q by one of its elements, where no other one undoes the hypothesis or Q. -/
theorem foldl_settles {α β : Type} {f : β → α → β} {P Q : β → Prop} {a : α} (hP : ∀ s x, P s → P (f s x) ∨ Q (f s x)) (hQ : ∀ s x, Q s → Q (f s x))
    (ha : ∀ s, P s → Q (f s a)) {l : List α} (hl : a ∈ l) {s : β} (hs : P s) : Q (l.foldl f s) := by
  have keeps (l : List α) : ∀ s, Q s → Q (l.foldl f s) := by
    induction l with
    | nil => exact fun _ h => h
    | cons x r ih => exact fun s h => ih _ (hQ s x h)
  induction l generalizing s with
  | nil => exact nomatch hl
  | cons x r ih =>
    rcases List.mem_cons.1 hl with rfl | hr
    · exact keeps r _ (ha s hs)
    · exact (hP s x hs).elim (ih hr) (keeps r _)
/-- A sweep of a core's contexts frees those that wait in the subtree. -/
theorem sweepCtxs_free {s : State} {core part : Nat} {scope : BitVec 16} {k : Nat} (hk : k < 14) (h : s.waitsIn core part scope k) :
    (((List.range 14).foldl (fun s k => s.sweepCtx core part scope k) s).ctx core k).st = .free := by
  refine foldl_settles (P := fun s : State => s.waitsIn core part scope k) (Q := fun s : State => (s.ctx core k).st = .free) (a := k) ?_
    (fun _ j => sweepCtx_free j) (fun _ => sweepCtx_waiting hk) (List.mem_range.2 hk) h
  intro s j hs
  by_cases e : k = j
  · subst e; exact .inr (sweepCtx_waiting hk hs)
  · have ho := sweepCtx_others s core part scope j
    refine .inl ?_
    rw [State.waitsIn, ho.ctx k e, ho.inScope]
    exact hs
theorem sweepCtxs_tables (core part : Nat) (scope : BitVec 16) (l : List Nat) (s : State) :
    TablesKept s (l.foldl (fun s k => s.sweepCtx core part scope k) s) := by
  induction l generalizing s with
  | nil => exact (WorkKept.refl s).toTablesKept
  | cons k r ih => exact (sweepCtx_others ..).toTablesKept.trans (ih _)
theorem sweepWalker_work (s : State) (core part : Nat) (scope : BitVec 16) : WorkKept s (s.sweepWalker core part scope) := by
  unfold State.sweepWalker
  extract_lets mine w gone s1 s2
  have h2 : WorkKept s s2 := .trans onCore_work (.foldl (fun _ _ => cancelOwn_work ..) _ _)
  split
  · exact h2
  split
  · exact h2
  split
  · exact h2
  · extract_lets s3
    have h3 : WorkKept s2 s3 := (tallyFor_work ..).trans (setOp_work ..)
    split
    · exact h2.trans h3
    · exact (h2.trans h3).trans (due_work ..)
/-- What a core sweeps once its contexts are swept keeps the contexts. -/
theorem sweepCore_work (s : State) (core part : Nat) (scope : BitVec 16) :
    WorkKept ((List.range 14).foldl (fun s k => s.sweepCtx core part scope k) s) (s.sweepCore core part scope) := by
  unfold State.sweepCore
  extract_lets s1 dead c gone s2 s3 s4 held s5 s6
  have h2 : WorkKept s1 s2 := onCore_work
  have h3 : WorkKept s2 s3 := .foldl (fun _ _ => dropMoving_work ..) _ _
  have h5 : WorkKept s4 s5 := .foldl (fun _ _ => cancelOwn_work ..) _ _
  have h6 : WorkKept s5 s6 := .foldl (fun _ _ => (tallyFor_work ..).trans (breakBar_work ..)) _ _
  exact ((h2.trans h3).trans ((sweepNet_work ..).trans h5)).trans (h6.trans (sweepWalker_work ..))
/-- A sweep keeps the prunes. -/
theorem sweep_tables (s : State) (u part : Nat) (scope : BitVec 16) : TablesKept s (s.sweep u part scope) := by
  by_cases hu : u < 768
  · rw [State.sweep, if_pos hu]
    exact (sweepCtxs_tables ..).trans (sweepCore_work ..).toTablesKept
  · exact (sweep_work hu).toTablesKept
/-- The sweep of a core frees its contexts that wait in the subtree (spec 08 R239). -/
theorem sweep_free {s : State} {u part : Nat} {scope : BitVec 16} {k : Nat} (hu : u < 768) (hk : k < 14) (h : s.waitsIn u part scope k) :
    ((s.sweep u part scope).ctx u k).st = .free := by
  rw [State.sweep, if_pos hu, (sweepCore_work ..).ctx]
  exact sweepCtxs_free hk h

end Sys2Proof.Machine
end

section
/-! PROOFS. The events of the scope units and of cores: kill notices and the end of a prune, requests and bindings, RESUME, barriers between cores, reset and power
gating (spec 01 R41, R42; 08 R232 to R240; 16 R413, R424, R425). -/

namespace Sys2Proof.Machine

/-! ### Kill notices (spec 08 R239; 16 R423) -/

/-- The state in which a kill notice of this module has been taken in: the unit counts as noticed by prune n. -/
def State.takenNotice (s : State) (m : Msg) (n : Nat) (p : Prune) : State :=
  { s.delNet m.no with
    nextNo := s.nextNo + 1
    prunes := tset s.prunes n { p with noticed := p.noticed ++ [localOf m.dest], noticedAt := p.noticedAt ++ [(localOf m.dest, s.nextNo)] } }
/-- A kill notice of a group that is not held here is an error that is logged. -/
theorem execKillNotice_unheld {s : State} {nm : NetMsg} (h : s.net s.occ.a = some nm) (hm : modOf nm.msg.srank ≠ s.modid)
    (hg : s.groupWith nm.msg.part (modOf nm.msg.srank) = false) : execKillNotice s = .next ((s.delNet nm.msg.no).unheldGroup nm.msg.part) := by
  unfold execKillNotice
  rw [h]
  exact (if_pos hm).trans (if_pos hg)
/-- A kill notice of a prune of this module sweeps its unit. -/
theorem execKillNotice_own {s : State} {nm : NetMsg} {n : Nat} {p : Prune} (h : s.net s.occ.a = some nm) (hm : modOf nm.msg.srank = s.modid)
    (hp : s.prunes.find? (fun x => x.1 % 2 ^ 32 == (nm.msg.arg 0).toNat / 2 ^ 32 && !x.2.done) = some (n, p)) :
    execKillNotice s = .next (((s.takenNotice nm.msg n p).sweep (localOf nm.msg.dest) p.part p.scope).ackAll (localOf nm.msg.dest)) := by
  unfold execKillNotice
  rw [h]
  refine (if_neg (not_not.2 hm)).trans ?_
  rw [show (s.builtinDone nm.msg).prunes = s.prunes from rfl, hp]
  rfl
/-- Between s and t the scopes, the prunes and the contexts stand: what a log and a vector leave alone. -/
structure LogKept (s t : State) : Prop where
  scopes : t.scopes = s.scopes
  prunes : t.prunes = s.prunes
  ctxs : t.ctxs = s.ctxs

theorem LogKept.trans {s t u : State} (a : LogKept s t) (b : LogKept t u) : LogKept s u :=
  ⟨b.scopes.trans a.scopes, b.prunes.trans a.prunes, b.ctxs.trans a.ctxs⟩
/-- An act that keeps them, after an update of other fields. -/
theorem LogKept.after {s t u : State} (b : LogKept t u) (hs : t.scopes = s.scopes := by rfl) (hp : t.prunes = s.prunes := by rfl)
    (hx : t.ctxs = s.ctxs := by rfl) : LogKept s u := .trans ⟨hs, hp, hx⟩ b
theorem raiseVec_kept (s : State) (fn v : Nat) : LogKept s (s.raiseVec fn v) := by
  unfold State.raiseVec
  dsimp only
  split <;> exact ⟨rfl, rfl, rfl⟩
theorem setMevent_kept (s : State) (b : Nat) : LogKept s (s.setMevent b) := by
  unfold State.setMevent
  split
  · exact ⟨rfl, rfl, rfl⟩
  · exact (raiseVec_kept ..).after
theorem logError_kept (s : State) (part kind pa v : Nat) : LogKept s (s.logError part kind pa v) := by
  unfold State.logError State.logEntry
  exact (((raiseVec_kept ..).trans (setMevent_kept ..)).after).trans ⟨rfl, rfl, rfl⟩
theorem unheldGroup_kept (s : State) (part : Nat) : LogKept s (s.unheldGroup part) := by
  unfold State.unheldGroup State.unheldKind State.drawFree
  exact (logError_kept ..).after
theorem killNotice_unheld {s : State} {nm : NetMsg} (h : s.net s.occ.a = some nm) (hm : modOf nm.msg.srank ≠ s.modid)
    (hg : s.groupWith nm.msg.part (modOf nm.msg.srank) = false) :
    ∃ t, execKillNotice s = .next t ∧ t.scopes = s.scopes ∧ t.prunes = s.prunes ∧ t.ctxs = s.ctxs := by
  have hk : LogKept s ((s.delNet nm.msg.no).unheldGroup nm.msg.part) := (unheldGroup_kept ..).after
  exact ⟨_, execKillNotice_unheld h hm hg, hk.scopes, hk.prunes, hk.ctxs⟩
/-- A kill notice that reaches a unit: the prune counts it as noticed, and a core frees the contexts that wait in the subtree. -/
theorem killNotice_own {s : State} {nm : NetMsg} {n : Nat} {p : Prune} (h : s.net s.occ.a = some nm) (hm : modOf nm.msg.srank = s.modid)
    (hp : s.prunes.find? (fun x => x.1 % 2 ^ 32 == (nm.msg.arg 0).toNat / 2 ^ 32 && !x.2.done) = some (n, p)) :
    ∃ t, execKillNotice s = .next t ∧ (∃ x, tget t.prunes n = some x ∧ localOf nm.msg.dest ∈ x.noticed) ∧
      (localOf nm.msg.dest < 768 → ∀ k < 14, s.waitsIn (localOf nm.msg.dest) p.part p.scope k → (t.ctx (localOf nm.msg.dest) k).st = .free) := by
  have ha := ackAll_work ((s.takenNotice nm.msg n p).sweep (localOf nm.msg.dest) p.part p.scope) (localOf nm.msg.dest)
  refine ⟨_, execKillNotice_own h hm hp, ?_, fun hlt k hk hw => ?_⟩
  · obtain ⟨x, hx, hl⟩ := ((sweep_tables (s.takenNotice nm.msg n p) _ p.part p.scope).trans ha.toTablesKept).prunes n
      { p with noticed := p.noticed ++ [localOf nm.msg.dest], noticedAt := p.noticedAt ++ [(localOf nm.msg.dest, s.nextNo)] } (tget_tset_same s.prunes n _)
    exact ⟨x, hx, by rw [hl.noticed]; exact List.mem_append_right _ (List.mem_singleton.2 rfl)⟩
  · rw [ha.ctx]
    refine sweep_free hlt hk ?_
    have hc : (s.takenNotice nm.msg n p).ctx (localOf nm.msg.dest) k = s.ctx (localOf nm.msg.dest) k := rfl
    have hi := inScope_of_parents (s := s) (t := s.takenNotice nm.msg n p) fun _ _ => rfl
    rw [State.waitsIn, hc, hi]
    exact hw

/-! ### The end of a prune (spec 08 R240; 01 R41) -/

/-- A prune that is reported: it is complete, and what is sent leaves the rest alone. -/
theorem reportPrune_ends {s : State} {n : Nat} {x : Prune} (already : Bool) (hx : tget s.prunes n = some x) (hd : x.done = false) :
    WorkKept { s with prunes := tset s.prunes n { x with done := true } } (s.reportPrune n already) := by
  unfold State.reportPrune
  rw [hx]
  dsimp only
  rw [if_neg (by simp [hd])]
  split
  · exact sendNow_work ..
  · split
    · exact endOp_work ..
    · exact (endOp_work ..).trans (sendNow_work ..)
theorem reportPrune_work (s : State) (n : Nat) (already : Bool) : WorkKept s (s.reportPrune n already) := by
  cases hx : tget s.prunes n with
  | none => rw [State.reportPrune, hx]; exact .refl s
  | some x =>
    by_cases hd : x.done = true
    · rw [State.reportPrune, hx]
      dsimp only
      rw [if_pos hd]
      exact .refl s
    · exact (setPrune_work hx ⟨rfl, fun _ => rfl⟩).trans (reportPrune_ends already hx (Bool.not_eq_true _ ▸ hd))
/-- A prune that is reported is complete. -/
theorem reportPrune_done {s : State} {n : Nat} {x : Prune} (already : Bool) (hx : tget s.prunes n = some x) :
    ∃ y, tget (s.reportPrune n already).prunes n = some y ∧ x.Later y ∧ y.done = true := by
  by_cases hd : x.done = true
  · obtain ⟨y, hy, hl⟩ := (reportPrune_work s n already).prunes n x hx
    exact ⟨y, hy, hl, hl.done hd⟩
  · obtain ⟨y, hy, hl⟩ := (reportPrune_ends already hx (Bool.not_eq_true _ ▸ hd)).prunes n _ (tget_tset_same s.prunes n _)
    exact ⟨y, hy, .trans ⟨rfl, fun _ => rfl⟩ hl, hl.done rfl⟩
theorem allDead_work (s : State) (part : Nat) (ids : List (BitVec 16)) : WorkKept s (s.allDead part ids) := by
  refine WorkKept.foldl (fun s id => ?_) ids s
  dsimp only
  split
  · exact setScope_work rfl
  · exact .refl s

/-- Between s and t memory stands and every prune goes on. -/
structure PrunesKept (s t : State) : Prop where
  mem : t.mem = s.mem
  prunes : PrunesGo s t

theorem PrunesKept.trans {s t u : State} (a : PrunesKept s t) (b : PrunesKept t u) : PrunesKept s u := ⟨b.mem.trans a.mem, a.prunes.trans b.prunes⟩
theorem WorkKept.prunesKept {s t : State} (h : WorkKept s t) : PrunesKept s t := ⟨h.mem, h.prunes⟩
theorem dropResumes_work (s : State) (part : Nat) (scope : BitVec 16) : WorkKept s (s.dropResumes part scope) := by
  refine WorkKept.foldl (fun s x => ?_) s.cores s
  dsimp only
  split
  · exact .refl s
  · exact .trans onCore_work (.foldl (fun _ _ => dropMsg_work ..) _ _)
theorem freeScope_prunes (s : State) (part : Nat) (id : BitVec 16) : PrunesKept s (s.freeScope part id) :=
  .trans (t := s.setScope part id { st := .free, part := part, freeAt := s.scnewCount }) ⟨rfl, .of_eq rfl⟩ (dropResumes_work ..).prunesKept
theorem settleDead_prunes (part : Nat) (ids : List (BitVec 16)) (s : State) : PrunesKept s (s.settleDead part ids) := by
  induction ids generalizing s with
  | nil => exact (WorkKept.refl s).prunesKept
  | cons id r ih =>
    refine .trans ?_ (ih _)
    dsimp only
    split
    · exact (WorkKept.refl s).prunesKept
    split
    · exact freeScope_prunes ..
    · split
      · exact (due_work ..).prunesKept
      · exact (WorkKept.refl s).prunesKept
/-- A prune that has every answer is complete once it is settled. -/
theorem settlePrune_done {s : State} {n : Nat} {x : Prune} (hx : tget s.prunes n = some x) (ha : x.already = false) (hw : x.waiting = [])
    (hm : x.members = []) : (s.settlePrune n).mem = s.mem ∧ ∃ y, tget (s.settlePrune n).prunes n = some y ∧ x.Later y ∧ y.done = true := by
  unfold State.settlePrune
  rw [hx]
  dsimp only
  by_cases hd : x.done = true
  · rw [if_pos (by simp [hd])]
    exact ⟨rfl, x, hx, .refl x, hd⟩
  rw [if_neg (by simp [hd, ha, hw]), if_neg (by simp [hm])]
  generalize s.subtree x.part x.scope = ids
  have h1 : WorkKept s (((s.joined x.part ids true).foldl (fun s j => s.reportPrune j true) s).allDead x.part ids) :=
    .trans (.foldl (fun _ _ => reportPrune_work ..) _ _) (allDead_work ..)
  generalize ((s.joined x.part ids true).foldl (fun s j => s.reportPrune j true) s).allDead x.part ids = s1 at h1
  have h2 (l : List Nat) : PrunesKept (s1.reportPrune n false) ((l.foldl (fun s j => s.reportPrune j true) (s1.reportPrune n false)).settleDead x.part ids) :=
    .trans (WorkKept.foldl (fun _ _ => reportPrune_work ..) _ _).prunesKept (settleDead_prunes ..)
  obtain ⟨y, hy, hxy⟩ := h1.prunes n x hx
  obtain ⟨z, hz, hyz, hdone⟩ := reportPrune_done false hy
  obtain ⟨v, hv, hzv⟩ := (h2 _).prunes n z hz
  exact ⟨((h2 _).mem.trans (reportPrune_work ..).mem).trans h1.mem, v, hv, (hxy.trans hyz).trans hzv, hzv.done hdone⟩

/-- What prune n holds once the last unit of this module has acknowledged. -/
def Prune.answered (p : Prune) (m : Msg) : Prune :=
  { p with tally := tset p.tally 4096 (((tget p.tally 4096).getD {}).plus (ackTally m)), waiting := p.waiting.filter (· != localOf m.srank) }
/-- An acknowledgement of a unit of this module. -/
theorem execPruneAcknowledgement_own {s : State} {nm : NetMsg} {n : Nat} {p : Prune} (hc : s.occ.c = 0) (h : s.net s.occ.a = some nm)
    (hm : modOf nm.msg.srank = s.modid) (hp : s.prunes.find? (fun x => !x.2.done && !x.2.already && x.2.part == nm.msg.part &&
      (x.2.scope == nm.msg.scope && x.2.waiting.contains (localOf nm.msg.srank))) = some (n, p)) :
    execPruneAcknowledgement s = .next (((({ s.delNet nm.msg.no with prunes := tset s.prunes n (p.answered nm.msg) } : State).ackPrune n 874).ackPrune n
      875).settlePrune n) := by
  have hh : (modOf nm.msg.srank == (s.builtinDone nm.msg).modid) = true := beq_iff_eq.2 hm
  unfold execPruneAcknowledgement
  rw [if_neg (by omega), h]
  dsimp only
  simp only [hh, if_true]
  rw [show (s.builtinDone nm.msg).prunes = s.prunes from rfl, hp]
  simp only [Bool.not_true, Bool.false_and, Bool.or_false]
  rfl
/-- The last acknowledgement completes a prune without members. -/
theorem pruneAcknowledgement_last {s : State} {nm : NetMsg} {n : Nat} {p : Prune} (hc : s.occ.c = 0) (h : s.net s.occ.a = some nm)
    (hm : modOf nm.msg.srank = s.modid) (hp : s.prunes.find? (fun x => !x.2.done && !x.2.already && x.2.part == nm.msg.part &&
      (x.2.scope == nm.msg.scope && x.2.waiting.contains (localOf nm.msg.srank))) = some (n, p))
    (hw : p.waiting = [localOf nm.msg.srank]) (hmem : p.members = []) :
    ∃ t, execPruneAcknowledgement s = .next t ∧ t.mem = s.mem ∧ ∃ x, tget t.prunes n = some x ∧ x.done = true := by
  have ha : p.already = false := by
    have := List.find?_some hp
    simp only [Bool.and_eq_true, Bool.not_eq_true'] at this
    exact this.1.1.2
  have hk := (ackPrune_work { s.delNet nm.msg.no with prunes := tset s.prunes n (p.answered nm.msg) } n 874).trans (ackPrune_work _ n 875)
  obtain ⟨y, hy, hl⟩ := hk.prunes n (p.answered nm.msg) (tget_tset_same s.prunes n _)
  have hwait : y.waiting = [] := by simp [hl.waiting, Prune.answered, hw]
  obtain ⟨hmem', z, hz, _, hdone⟩ := settlePrune_done hy (hl.already.trans ha) hwait (hl.members.trans hmem)
  exact ⟨_, execPruneAcknowledgement_own hc h hm hp, hmem'.trans hk.mem, z, hz, hdone⟩
/-- LINKWAIT of silent members completes a prune whose units have acknowledged. -/
theorem pruneLinkwaitExpiry_last {s : State} {p : Prune} (hp : tget s.prunes s.occ.a = some p) (hd : p.done = false) (ha : p.already = false)
    (hm : p.members ≠ []) (hw : p.waiting = []) : ∃ t, execPruneLinkwaitExpiry s = .next t ∧ t.mem = s.mem ∧
      ∃ x, tget t.prunes s.occ.a = some x ∧ x.done = true ∧ x.partialEnd = true ∧ x.members = [] := by
  unfold execPruneLinkwaitExpiry
  dsimp only
  rw [hp]
  dsimp only
  rw [if_neg (by simp [hd, hm])]
  generalize p.silent + _ = k
  obtain ⟨hmem, x, hx, hl, hdone⟩ := settlePrune_done
    (s := { s with prunes := tset s.prunes s.occ.a { p with members := [], silent := k, partialEnd := true } })
    (tget_tset_same s.prunes s.occ.a _) ha hw rfl
  exact ⟨_, rfl, hmem, x, hx, hdone, hl.partialEnd, hl.members⟩
/-- A report of a reset is added to the scope's counts. -/
theorem resetReport_adds {s : State} {nm : NetMsg} (h : s.net s.occ.a = some nm)
    (hf : (s.scope nm.msg.part ((nm.msg.arg 1).truncate 16)).st ≠ .free) : ∃ t, execResetReport s = .next t ∧ t.mem = s.mem ∧
      t.scope nm.msg.part ((nm.msg.arg 1).truncate 16) = { s.scope nm.msg.part ((nm.msg.arg 1).truncate 16) with
        lost := (s.scope nm.msg.part ((nm.msg.arg 1).truncate 16)).lost + (nm.msg.arg 2).toNat
        lostMsgs := (s.scope nm.msg.part ((nm.msg.arg 1).truncate 16)).lostMsgs + (nm.msg.arg 3).toNat } := by
  unfold execResetReport
  rw [h]
  refine ⟨_, if_neg hf, rfl, ?_⟩
  rw [State.scope_setScope_same]
  rfl

/-! ### Requests to the scope units (spec 01 R41, R42; 08 R235, R236) -/

/-- A request has its result v, and the reply to the context that asked comes due. -/
def ScopeReq.Answered (q : ScopeReq) (s t : State) (v : Word) : Prop :=
  s.dues t .scopeUnitReply q.core q.ctx ∧ ∃ x ∈ t.scopeReqs, x.no = q.no ∧ x.result = some v
theorem scopeAnswer_answered {s u : State} {q : ScopeReq} (v : Word) (hq : q ∈ u.scopeReqs) (ha : u.agenda = s.agenda) :
    q.Answered s (u.scopeAnswer q v false) v :=
  ⟨dues_of_append (congrArg (· ++ _) ha) (List.mem_singleton.2 rfl), { q with result := some v }, List.mem_map.2 ⟨q, hq, if_pos rfl⟩, rfl, rfl⟩

/-- A scope that becomes LIVE is as its entry says. -/
theorem scope_newScope (s : State) (part : Nat) (id : BitVec 16) (e : ScopeEnt) :
    (s.newScope part id e).scope part id = { e with st := .live, part := part } := State.scope_setScope_same ..
/-- The entry of the scope without a group that a request creates. -/
def ScopeReq.child (q : ScopeReq) : ScopeEnt := { parent := q.scope, policy := q.tmpl.toNat.testBit 0, group := none, die := q.core / 384 }

/-! Ids that SCNEW may hand out. -/

section
variable {s : State}

/-- An id that is FREE on the module names no scope of any partition. -/
theorem scope_free_of_idFree {part : Nat} {id : BitVec 16} (hp : part < 8) (h : s.idFree id.toNat = true) : (s.scope part id).st = .free := by
  simp only [State.idFree, Bool.and_eq_true, List.all_eq_true] at h
  rw [State.scope]
  cases e : tget s.scopes (part * 65536 + id.toNat) with
  | none =>
    have h0 : id ≠ 0 := fun e => by simp [e] at h
    exact congrArg ScopeEnt.st (if_neg h0)
  | some x => exact eq_of_beq (h.2 x (List.mem_filterMap.2 ⟨part, List.mem_range.2 hp, e⟩))
theorem idFree_of_idMay {j : Nat} (h : s.idMay j = true) : s.idFree j = true := by
  simp only [State.idMay, Bool.and_eq_true] at h
  exact h.1
/-- An id that SCNEW may hand out it may hand out at the next operation too. -/
theorem idMay_next {j : Nat} (h : s.idMay j = true) : ({ s with scnewCount := s.scnewCount + 1 } : State).idMay j = true := by
  simp only [State.idMay, Bool.and_eq_true, Bool.or_eq_true, decide_eq_true_eq] at h ⊢
  exact ⟨h.1, h.2.imp_left (Or.imp_right Nat.le_succ_of_le)⟩
/-- What draws a number leaves alone the ids that may be handed out, and the number of LIVE scopes. -/
theorem idMay_drawn (s : State) (n j : Nat) : ({ s with free := n } : State).idMay j = s.idMay j := rfl
theorem liveScopes_drawn (s : State) (n : Nat) : ({ s with free := n } : State).liveScopes = s.liveScopes := rfl
/-- Where an id may be handed out and scopes may become LIVE, SCNEW finds one. -/
theorem allocId_some (hl : s.liveScopes < 4096) (hj : ∃ j, 1 ≤ j ∧ j < 65536 ∧ s.idMay j = true) :
    ∃ id : BitVec 16, s.allocId = ({ s with free := s.free + 1 }, some id) ∧ id ≠ 0 ∧ s.idMay id.toNat = true := by
  obtain ⟨j, hj1, hj2, hjm⟩ := hj
  generalize hw : (Config.freeWord s.free).toNat = w
  have hex : ∃ i ∈ List.range 65535, s.idMay ((w + i) % 65535 + 1) = true := by
    refine ⟨(j - 1 + (65535 - w % 65535)) % 65535, List.mem_range.2 (Nat.mod_lt _ (by omega)), ?_⟩
    have : (w + (j - 1 + (65535 - w % 65535)) % 65535) % 65535 + 1 = j := by omega
    rw [this, hjm]
  obtain ⟨i, hi⟩ := Option.isSome_iff_exists.1 (List.find?_isSome.2 hex)
  have hv : (BitVec.ofNat 16 ((w + i) % 65535 + 1)).toNat = (w + i) % 65535 + 1 := by
    rw [BitVec.toNat_ofNat]
    omega
  refine ⟨BitVec.ofNat 16 ((w + i) % 65535 + 1), ?_, ?_, ?_⟩
  · unfold State.allocId State.drawFree
    dsimp only
    rw [liveScopes_drawn, if_neg (Nat.not_le.2 hl), hw]
    simp only [idMay_drawn, hi, Option.map_some]
  · intro h0
    have := congrArg BitVec.toNat h0
    rw [hv] at this
    simp at this
  · rw [hv]
    have h := List.find?_some hi
    exact h

end

section
variable {s : State} {q : ScopeReq} (hq : s.scopeReqs.find? (fun q => q.no == s.occ.a) = some q) (hr : q.result = none)
include hq hr

/-- A request of scstat for the state of a scope that is not FREE. -/
theorem scopeRequest_scstat (hn : q.isNew = false) (hs : q.sel = 0) (hf : (s.scope q.part q.scope).st ≠ .free) :
    ∃ t, execScopeRequest s = .next t ∧ t.mem = s.mem ∧ q.Answered s t (BitVec.ofNat 64
      ((s.scope q.part q.scope).st.code + (s.scope q.part q.scope).policy.toNat * 4 + ((s.scope q.part q.scope).group.getD 0xFF) * 2 ^ 8 +
        (s.scope q.part q.scope).parent.toNat * 2 ^ 16)) := by
  have he : execScopeRequest s = .next (s.scopeAnswer q (BitVec.ofNat 64 (s.scstat q.part q.scope q.sel)) false) := by
    unfold execScopeRequest
    rw [hq]
    exact (if_neg (by simp [hr])).trans (if_pos hn)
  refine ⟨_, he, rfl, ?_⟩
  rw [hs, State.scstat, if_neg hf]
  exact scopeAnswer_answered _ (List.mem_of_find?_eq_some hq) rfl
/-- A request of scnew in a scope that is not LIVE. -/
theorem scopeRequest_notLive (hn : q.isNew = true) (hl : (s.scope q.part q.scope).st ≠ .live) :
    ∃ t, execScopeRequest s = .next t ∧ t.mem = s.mem ∧ q.Answered s t (BitVec.ofNat 64 (4 * 2 ^ 16)) := by
  have he : execScopeRequest s = .next (({ s with scnewCount := s.scnewCount + 1 } : State).scopeAnswer q (BitVec.ofNat 64 (4 * 2 ^ 16)) false) := by
    unfold execScopeRequest
    rw [hq]
    refine (if_neg (by simp [hr])).trans ((if_neg (by simp [hn])).trans (if_pos ?_))
    exact beq_eq_false_iff_ne.2 hl
  exact ⟨_, he, rfl, scopeAnswer_answered _ (List.mem_of_find?_eq_some hq) rfl⟩

/-- A request of scnew without a group makes a LIVE child of its scope. -/
theorem scopeRequest_live (hn : q.isNew = true) (hl : (s.scope q.part q.scope).st = .live) (hg : q.tmpl.toNat / 2 ^ 8 % 2 ^ 8 = 0xFF)
    (hp : q.part < 8) (hc : s.liveScopes < 4096) (hj : ∃ j, 1 ≤ j ∧ j < 65536 ∧ s.idMay j = true) :
    ∃ t, execScopeRequest s = .next t ∧ t.mem = s.mem ∧ ∃ id : BitVec 16, id ≠ 0 ∧ (t.scope q.part id).st = .live ∧
      (t.scope q.part id).parent = q.scope ∧ (s.scope q.part id).st = .free ∧ q.Answered s t (BitVec.ofNat 64 id.toNat) := by
  obtain ⟨j, hj1, hj2, hjm⟩ := hj
  obtain ⟨id, ha, h0, hm⟩ := allocId_some (s := { s with scnewCount := s.scnewCount + 1 }) hc ⟨j, hj1, hj2, idMay_next hjm⟩
  have he : execScopeRequest s = .next ((({ s with scnewCount := s.scnewCount + 1, free := s.free + 1 } : State).newScope q.part id
      q.child).scopeAnswer q (BitVec.ofNat 64 id.toNat) false) := by
    have hb : bits q.tmpl.toNat 8 8 = 0xFF := hg
    have hlive : ({ s with scnewCount := s.scnewCount + 1 } : State).scopeLive q.part q.scope ≠ false := ne_false_of_eq_true (beq_iff_eq.2 hl)
    unfold execScopeRequest
    rw [hq]
    refine (if_neg (by simp [hr])).trans ((if_neg (by simp [hn])).trans ((if_neg hlive).trans ?_))
    simp only [hb, if_true]
    refine (if_neg (by simp)).trans ?_
    rw [ha]
    simp [memberAnswers, scnewWord, ScopeReq.child]
  have hs := scope_newScope { s with scnewCount := s.scnewCount + 1, free := s.free + 1 } q.part id q.child
  have hf := scope_free_of_idFree (s := { s with scnewCount := s.scnewCount + 1 }) hp (idFree_of_idMay hm)
  refine ⟨_, he, rfl, id, h0, congrArg ScopeEnt.st hs, congrArg ScopeEnt.parent hs, hf, ?_⟩
  exact scopeAnswer_answered _ (List.mem_of_find?_eq_some hq) rfl

end

/-- A binding whose member list is the one held here makes the id LIVE under scope 0. -/
theorem scopeBinding_live {s : State} (hb : s.occ.b < 65536) (hp : (s.part s.occ.a).isSet = true)
    (hm : (tget (s.part s.occ.a).groups s.occ.c).map (fun l => l.flatMap fun m => leBytes 2 m.toNat) = some s.occ.bytes) (hf : s.idFree s.occ.b = true)
    (hl : s.liveScopes < 4096) : ∃ t, execScopeBinding s = .next t ∧ t.mem = s.mem ∧ (t.scope s.occ.a (BitVec.ofNat 16 s.occ.b)).st = .live ∧
      (t.scope s.occ.a (BitVec.ofNat 16 s.occ.b)).parent = 0 ∧ (t.scope s.occ.a (BitVec.ofNat 16 s.occ.b)).bound = true := by
  have he : execScopeBinding s = .next (s.newScope s.occ.a (BitVec.ofNat 16 s.occ.b)
      { parent := 0, policy := s.occ.flag, group := some s.occ.c, bound := true }) := by
    unfold execScopeBinding
    dsimp only
    rw [if_pos (by simp [hp, hm, Nat.mod_eq_of_lt hb, hf, hl])]
  have hs := scope_newScope s s.occ.a (BitVec.ofNat 16 s.occ.b) { parent := 0, policy := s.occ.flag, group := some s.occ.c, bound := true }
  exact ⟨_, he, rfl, congrArg ScopeEnt.st hs, congrArg ScopeEnt.parent hs, congrArg ScopeEnt.bound hs⟩

/-! ### RESUME of a STOPPED context (spec 08 R237; 16 R413) -/

/-- Whether a context is in a pruned scope depends on the scopes, the prunes and its core's partition alone. -/
theorem doomed_of_eq {s t : State} {core : Nat} (hs : t.scopes = s.scopes) (hp : t.prunes = s.prunes) (hn : t.partNo core = s.partNo core) (c : Ctx) :
    t.doomed core c = s.doomed core c := by
  have hsc (p : Nat) (id : BitVec 16) : t.scope p id = s.scope p id := by simp only [State.scope, hs]
  have hi := inScope_of_parents fun p id => congrArg ScopeEnt.parent (hsc p id)
  simp only [State.doomed, State.pruneAt, hp, hn, hsc, hi]
/-- A STOPPED context whose frame is not WAITING restarts READY, at the address and with the DONEMASK given. -/
theorem restartStopped_ready {s : State} {core k : Nat} (pc : BitVec 32) (done : BitVec 4) (hf : s.frame core k 0xA4 1 ≠ 2) :
    (s.restartStopped core k pc done).mem = s.mem ∧ ((s.restartStopped core k pc done).ctx core k).st = .ready ∧
      ((s.restartStopped core k pc done).ctx core k).pc = pc ∧ ((s.restartStopped core k pc done).ctx core k).doneMask = done := by
  have hst : ((s.restart core k pc done (s.frame core k 0xA4 1)).ctx core k).st = .ready := by
    rw [State.restart, State.ctx_setCtx_same]
    exact if_neg hf
  have he : s.restartStopped core k pc done = s.restart core k pc done (s.frame core k 0xA4 1) := by
    unfold State.restartStopped State.matchQueued
    exact if_neg (by rw [hst]; exact nofun)
  rw [he]
  refine ⟨rfl, hst, ?_, ?_⟩ <;> rw [State.restart, State.ctx_setCtx_same]
/-- A context that ends is FREE. -/
theorem endCtx_free (s : State) (core k : Nat) : ((s.endCtx core k).ctx core k).st = .free := by
  have h : ((((s.release core k).freeCtx core k).ackAll core).ctx core k).st = .free := by
    rw [(ackAll_work ..).ctx]
    exact freeCtx_free ..
  unfold State.endCtx
  dsimp only
  split <;> exact h

section
variable {s : State} {nm : NetMsg} {core k : Nat} (h : s.net s.occ.a = some nm) (hc : localOf nm.msg.dest = core)
  (hk : (nm.msg.arg 0).toNat / 2 ^ 24 % 16 = k) (hk14 : k < 14) (hst : (s.ctx core k).st = .stopped) (hd : s.doomed core (s.ctx core k) = false)
  (hh : s.frameHandler core k = false)
include h hc hk hk14 hst hd hh

/-- What RESUME does to a STOPPED context that no prune has reached and whose frame is no handler's. -/
theorem execResumeBuiltin_stopped :
    execResumeBuiltin s = .next (if (nm.msg.arg 1).toNat % 4 = 0 then
        (s.delNet nm.msg.no).restartStopped core k (s.framePc core k) (BitVec.ofNat 4 (s.frame core k 0xBD 1))
      else if (nm.msg.arg 1).toNat % 4 = 1 then
        (s.delNet nm.msg.no).restartStopped core k (groupEnd (s.delNet nm.msg.no) core k 4 (s.framePc core k)) 0
      else (s.delNet nm.msg.no).endCtx core k) := by
  subst hc hk
  have hst' : ¬(14 ≤ bits (nm.msg.arg 0).toNat 24 4 ∨ ((s.builtinDone nm.msg).ctx (localOf nm.msg.dest) (bits (nm.msg.arg 0).toNat 24 4)).st ≠ .stopped) :=
    not_or.2 ⟨Nat.not_le.2 hk14, not_not.2 hst⟩
  have hd' := doomed_of_eq (s := s) (t := s.builtinDone nm.msg) (core := localOf nm.msg.dest) rfl rfl rfl
  unfold execResumeBuiltin
  rw [h]
  refine (if_neg hst').trans ((if_neg ?_).trans ((if_neg (ne_true_of_eq_false hh)).trans ?_))
  · rw [hd']
    exact ne_true_of_eq_false hd
  · split <;> [rfl; split <;> rfl]
theorem resumeBuiltin_retry (hf : s.frame core k 0xA4 1 ≠ 2) (ha : (nm.msg.arg 1).toNat % 4 = 0) : ∃ t, execResumeBuiltin s = .next t ∧ t.mem = s.mem ∧
      (t.ctx core k).st = .ready ∧ (t.ctx core k).pc = s.framePc core k ∧ (t.ctx core k).doneMask = BitVec.ofNat 4 (s.frame core k 0xBD 1) :=
  ⟨_, (execResumeBuiltin_stopped h hc hk hk14 hst hd hh).trans (congrArg Host.Outcome.next (if_pos ha)),
    restartStopped_ready (s := s.delNet nm.msg.no) _ _ hf⟩
theorem resumeBuiltin_end (ha : 2 ≤ (nm.msg.arg 1).toNat % 4) : ∃ t, execResumeBuiltin s = .next t ∧ (t.ctx core k).st = .free :=
  ⟨_, (execResumeBuiltin_stopped h hc hk hk14 hst hd hh).trans (congrArg Host.Outcome.next ((if_neg (by omega)).trans (if_neg (by omega)))), endCtx_free ..⟩

end

/-! ### Barriers between cores (spec 08 R232, R233) -/

theorem bits_six (v : Nat) : bits v 0 6 = v % 64 := by simp [bits]
/-- What a node is once it is BROKEN. -/
theorem bar_breakBar (s : State) (core n : Nat) (ha : (s.bar core n).armed = true) (hb : (s.bar core n).broken = false) :
    (s.breakBar core n).bar core n = { s.bar core n with broken := true, waiters := [], kids := [], waitsParent := false } := by
  unfold State.breakBar
  dsimp only
  rw [if_pos (by simp [ha, hb]), State.bar_setBar_same]
section
variable {s : State} {nm : NetMsg} {core n : Nat} (h : s.net s.occ.a = some nm) (hc : localOf nm.msg.dest = core)
  (hn : (nm.msg.arg 2).toNat % 64 = n) (ha : (s.bar core n).armed = true) (hb : (s.bar core n).broken = false)
include h hc hn ha hb

/-- A child's arrival, where others have still to follow. -/
theorem childArrival_more (hm : nm.msg.heldBack = false) (hk : (s.bar core n).kids.length < 16)
    (hw : (s.bar core n).waitsParent = false) (hp : (s.bar core n).arrived + 1 ≠ (s.bar core n).parts) : ∃ t, execChildArrival s = .next t ∧
      t.mem = s.mem ∧ (t.bar core n).arrived = (s.bar core n).arrived + 1 ∧
      (t.bar core n).acc = barCombine (s.bar core n).op (s.bar core n).acc (nm.msg.arg 0) ∧
      (t.bar core n).kids = (s.bar core n).kids ++ [((nm.msg.arg 1).truncate 24, (nm.msg.arg 1).extractLsb' 24 6)] := by
  have he : execChildArrival s = .next ((s.delNet nm.msg.no).setBar core n { s.bar core n with
      kids := (s.bar core n).kids ++ [((nm.msg.arg 1).truncate 24, (nm.msg.arg 1).extractLsb' 24 6)]
      acc := barCombine (s.bar core n).op (s.bar core n).acc (nm.msg.arg 0), arrived := (s.bar core n).arrived + 1 }) := by
    unfold execChildArrival
    rw [h]
    dsimp only
    rw [bits_six, hn, hc, if_neg (by simp [ha, hb]), if_neg (by simp [hm, hk]), if_neg (by simp [hw])]
    exact congrArg Host.Outcome.next (arrive_more _ core n _ hp)
  refine ⟨_, he, rfl, ?_, ?_, ?_⟩ <;> rw [State.bar_setBar_same]
/-- The parent's release completes a node. -/
theorem barrierRelease_completes (hm : nm.msg.heldBack = false) (hw : (s.bar core n).waitsParent = true) :
    ∃ t, execBarrierRelease s = .next t ∧ t.mem = s.mem ∧ (t.bar core n).gen = (s.bar core n).gen + 1 ∧ (t.bar core n).arrived = 0 ∧
      (t.bar core n).waiters = [] ∧ (t.bar core n).armed = true := by
  have he : execBarrierRelease s = .next ((s.delNet nm.msg.no).completeBar core n (nm.msg.arg 0) ((nm.msg.arg 1).truncate 16)) := by
    unfold execBarrierRelease
    rw [h]
    dsimp only
    rw [bits_six, hn, hc, if_neg (by simp [ha, hb]), if_neg (by simp [hm, hw])]
    rfl
  refine ⟨_, he, (completeBar_kept ..).mem, ?_⟩
  rw [bar_completeBar]
  exact ⟨rfl, rfl, rfl, ha⟩
theorem brokenNotice_breaks : ∃ t, execBrokenNotice s = .next t ∧ t.mem = s.mem ∧ (t.bar core n).broken = true ∧ (t.bar core n).waiters = [] := by
  have he : execBrokenNotice s = .next ((s.delNet nm.msg.no).breakBar core n) := by
    unfold execBrokenNotice
    rw [h]
    dsimp only
    rw [bits_six, hn, hc]
    rfl
  refine ⟨_, he, (breakBar_work ..).mem, ?_⟩
  rw [bar_breakBar (s.delNet nm.msg.no) core n ha hb]
  exact ⟨rfl, rfl⟩

end

/-! ### Reset and power gating of a core (spec 16 R424, R425) -/

theorem loseCtx_others (s : State) (core k : Nat) : OthersKept core k s (s.loseCtx core k) := by
  unfold State.loseCtx
  dsimp only
  split
  · exact (WorkKept.refl s).others core k
  · exact .trans .of_eq (((discardSends_others ..).trans (freeCtx_others ..)).trans (setCtx_others ..))
/-- A context that is lost is FREE. -/
theorem loseCtx_free (s : State) (core k : Nat) : ((s.loseCtx core k).ctx core k).st = .free := by
  unfold State.loseCtx
  dsimp only
  split
  next h => exact h
  · rw [State.ctx_setCtx_same]
/-- A FREE context stays so where another one is lost. -/
theorem loseCtx_keeps_free {s : State} {core k : Nat} (j : Nat) (h : (s.ctx core k).st = .free) : ((s.loseCtx core j).ctx core k).st = .free := by
  by_cases e : k = j
  · subst e; exact loseCtx_free ..
  · rw [(loseCtx_others s core j).ctx k e, h]
theorem loseCtxs_free {core k : Nat} (s : State) (hk : k < 16) :
    (((List.range 16).foldl (fun s k => s.loseCtx core k) s).ctx core k).st = .free :=
  foldl_settles (P := fun _ : State => True) (Q := fun s : State => (s.ctx core k).st = .free) (a := k) (fun _ _ => .inl) (fun _ j => loseCtx_keeps_free j)
    (fun s _ => loseCtx_free s core k) (List.mem_range.2 hk) trivial
theorem loseCtxs_tables (core : Nat) (l : List Nat) (s : State) : TablesKept s (l.foldl (fun s k => s.loseCtx core k) s) := by
  induction l generalizing s with
  | nil => exact (WorkKept.refl s).toTablesKept
  | cons k r ih => exact (loseCtx_others ..).toTablesKept.trans (ih _)
/-- A core that is reset loses its contexts, and its end of the reset is set. -/
theorem lcReset_resets {s t : State} (h : execLcReset s = .next t) : (t.core s.occ.a).run = .resetting ∧ (∀ k < 16, (t.ctx s.occ.a k).st = .free) ∧
    (.lcResetEnd, { a := s.occ.a }) ∈ t.timers := by
  unfold execLcReset at h
  extract_lets core part s1 s2 c box lost s3 s4 s5 s6 s7 sends s8 counted s9 conts s10 at h
  obtain rfl := Host.Outcome.next.inj h
  have h3 : (s3.core core).run = .resetting := by simp only [s3, State.core_setCore_same]
  have h5 : WorkKept s4 s5 := .foldl (fun _ _ => endOp_work ..) _ _
  have hw : WorkKept s5 (s5.onCore core fun c => { c with iw := {} }) := onCore_work
  have h6 : OthersKept core 16 s5 s6 := (hw.others core 16).trans (setCtx_others ..)
  have h7 : WorkKept s6 s7 := by
    refine .foldl (fun s m => ?_) _ _
    split
    · exact returnMsg_work ..
    · exact returnMsg_work ..
    · exact dropMsg_work ..
    · exact dropMsg_work ..
  have h8 : WorkKept s7 s8 := .foldl (fun _ _ => ((takeOut_work ..).trans (releaseMoving_work ..)).trans (err_work ..)) _ _
  have h9 : WorkKept s8 s9 := .foldl (fun _ _ => by exact sendNow_work ..) _ _
  have h10 : WorkKept s9 s10 := .foldl (fun _ _ => due_work ..) _ _
  have ht : WorkKept s6 ((s10.ackAll core).later .lcResetEnd core) :=
    (((h7.trans h8).trans (h9.trans h10)).trans (ackAll_work ..)).trans (later_work ..)
  have hr := ((loseCtxs_tables core (List.range 16) s3).trans h5.toTablesKept).trans (h6.toTablesKept.trans ht.toTablesKept)
  refine ⟨(hr.run core).trans h3, fun k hk => ?_, List.mem_append_right _ (List.mem_singleton.2 rfl)⟩
  rw [ht.ctx, h6.ctx k (by omega), h5.ctx]
  exact loseCtxs_free s3 hk
theorem lcResetEnd_in {s : State} (h : (s.core s.occ.a).run = .resetting) :
    ∃ t, execLcResetEnd s = .next t ∧ t.mem = s.mem ∧ (t.core s.occ.a).run = .inn := by
  refine ⟨_, if_pos h, rfl, ?_⟩
  exact congrArg Core.run (State.core_setCore_same ..)
/-- A core that holds no work is gated. -/
theorem powerGate_idle {s : State} (hr : (s.core s.occ.a).run = .inn) (hs : (s.core s.occ.a).spaces = [])
    (hc : ∀ k < 15, (s.ctx s.occ.a k).st = .free ∧ (s.ctx s.occ.a k).trank = none) (hb : (s.core s.occ.a).bars = []) (hm : (s.core s.occ.a).mailbox = [])
    (hk : s.fab.ranks = []) : execPowerGate s = .next (s.setCore s.occ.a { s.core s.occ.a with run := .gated }) := by
  have hall : ((List.range 15).all fun k => (s.ctx s.occ.a k).st == .free && (s.ctx s.occ.a k).trank.isNone) = true := by
    refine List.all_eq_true.2 fun k h => ?_
    obtain ⟨hf, hn⟩ := hc k (List.mem_range.1 h)
    simp [hf, hn]
  unfold execPowerGate
  dsimp only
  rw [hall, if_pos (by simp [hr, hs, hb, hm, hk])]
  rfl
theorem ungatingEnd_in {s : State} (h : (s.core s.occ.a).run = .ungating) :
    execUngatingEnd s = .next (s.setCore s.occ.a { s.core s.occ.a with run := .inn }) := congrArg Host.Outcome.next (if_pos h)

/-- Settles O50, one clause for each case of the fourteen events. -/
theorem coreAndScopeUnitEvents : Obligations.CoreAndScopeUnitEvents := by
  constructor <;> intro s does
  · refine ⟨fun nm h => ⟨fun hk hst hd hh hf => ⟨resumeBuiltin_retry h rfl rfl hk hst hd hh hf, resumeBuiltin_end h rfl rfl hk hst hd hh⟩,
      childArrival_more h rfl rfl, barrierRelease_completes h rfl rfl, brokenNotice_breaks h rfl rfl⟩, ⟨_, rfl, lcReset_resets rfl⟩, lcResetEnd_in, ?_, ?_⟩
    · exact fun hr hs hc hb hm hk => ⟨_, powerGate_idle hr hs hc hb hm hk, rfl⟩
    · exact fun h => ⟨_, ungatingEnd_in h, rfl⟩
  · refine ⟨fun q hq hr => ⟨scopeRequest_scstat hq hr, scopeRequest_notLive hq hr, scopeRequest_live hq hr⟩, ?_, ?_, ?_, ?_, ?_, ?_⟩
    · rintro o rfl
      exact scopeBinding_live
    · exact fun nm h hm hg => killNotice_unheld h hm hg
    · intro nm n p h hm u hp
      obtain ⟨t, ht, hx, hf⟩ := killNotice_own h hm hp
      exact ⟨t, ht, hx, fun hu k hk hw hi => hf hu k hk ⟨hw, hi⟩⟩
    · exact fun nm n p hc h hm hp hw hmem => pruneAcknowledgement_last hc h hm hp hw hmem
    · exact fun p hp hd ha hm hw => pruneLinkwaitExpiry_last hp hd ha hm hw
    · exact fun nm h hf => resetReport_adds h hf

end Sys2Proof.Machine
end

section
/-! PROOFS. The system words of chapter 9 (spec 09 R264 to R268): trap, break and halt, and eret with what it gives back from a frame (spec 16 R402,
R406, R413). -/

namespace Sys2Proof.Machine

/-! ### trap, break, halt and eret check the mode (spec 09 R264 to R268) -/

section
variable {h : Hdr} {s : State}

/-- A register names a context by its low four bits. -/
theorem toNat_low4 (v : Word) : (v.extractLsb' 0 4).toNat = v.toNat % 16 := by
  rw [BitVec.extractLsb'_toNat, Nat.shiftRight_zero]

theorem execTrap_takes (k : BitVec 8) (g : s.cur.guard h = true) :
    execTrap h k s = .next (s.takeTrap (if s.priv then ⟨k, 0, 0⟩ else ⟨0x03, 0, 0⟩)) :=
  lword_trap g (by split <;> rfl)
theorem execBreakTrap_takes (k : BitVec 8) (g : s.cur.guard h = true) : execBreakTrap h k s = .next (s.takeTrap ⟨0x40, k, 0⟩) := lword_trap g rfl
theorem execHalt_user (g : s.cur.guard h = true) (hp : s.priv = false) : execHalt h s = .next (s.takeTrap ⟨0x03, 0, 0⟩) := lword_trap g (if_pos hp)
theorem execHalt_halts (g : s.cur.guard h = true) (hp : s.priv ≠ false) (hw : s.wakePending s.fcore s.fctx = false) :
    execHalt h s = .next (s.wrote { s.cur with hold := .halted }) :=
  lword_setCur g ((if_neg hp).trans (if_neg (by simp [hw])))
theorem execHalt_awake (g : s.cur.guard h = true) (hp : s.priv ≠ false) (hw : s.wakePending s.fcore s.fctx = true) :
    execHalt h s = .next (s.wrote s.cur) :=
  lword_ok g ((if_neg hp).trans (if_pos hw))

variable {ra : BitVec 4} {n : Nat} (g : s.cur.guard h = true) (hn : (s.cur.gv ra).toNat % 16 = n)
include g

theorem execEret_user (hp : s.priv = false) : execEret h ra s = .next (s.takeTrap ⟨0x03, 0, 0⟩) := lword_trap g (if_pos hp)

include hn

/-- eret of a context that holds no frame to return to. -/
theorem execEret_unframed (hp : s.priv ≠ false) (hc : 14 ≤ n ∨ ((s.ctx s.fcore n).st ≠ .stopped ∧ (s.ctx s.fcore n).st ≠ .saved)) :
    execEret h ra s = .next (s.takeTrap ⟨0x01, 0x03, s.cur.gv ra⟩) := by
  refine lword_trap g ?_
  dsimp only
  rw [toNat_low4, hn, if_neg hp, if_pos hc]
/-- eret of a handler that trapped before its release. -/
theorem execEret_handler (hp : s.priv ≠ false) (h14 : n < 14) (hst : (s.ctx s.fcore n).st = .stopped) (hh : s.frameHandler s.fcore n = true) :
    execEret h ra s = .next (s.takeTrap ⟨0x01, 0x04, s.cur.gv ra⟩) := by
  refine lword_trap g ?_
  dsimp only
  rw [toNat_low4, hn, if_neg hp, if_neg (by simp [hst, h14]), if_pos ⟨hst, hh⟩]
/-- eret of a stopped context restarts it at the group that its frame names. -/
theorem execEret_stopped (hp : s.priv ≠ false) (h14 : n < 14) (hst : (s.ctx s.fcore n).st = .stopped) (hh : s.frameHandler s.fcore n = false)
    (ha : (s.framePc s.fcore n).toNat % 4 = 0) :
    execEret h ra s = .next (s.restartStopped s.fcore n (s.framePc s.fcore n) (BitVec.ofNat 4 (s.frame s.fcore n 0xBD 1))).finish := by
  refine lword_ok g ?_
  dsimp only
  rw [toNat_low4, hn, if_neg hp, if_neg (by simp [hst, h14]), if_neg (by simp [hh]), if_pos hst, if_neg (not_not.2 ha), if_pos hst]

end

/-- Settles O29: each word by the lemma of its case. -/
theorem systemWordsCheckMode : Obligations.SystemWordsCheckMode := by
  intro h k ra s g c priv n
  exact ⟨execTrap_takes k g, execBreakTrap_takes k g, fun hp => ⟨execHalt_user g hp, execEret_user g hp⟩, execHalt_halts g, execHalt_awake g,
    execEret_unframed g rfl, execEret_handler g rfl⟩

/-! ### What eret gives back from a frame (spec 09 R265; 16 R402, R413) -/

/-- Only contexts of system mode, and a kernel in its issuer's mode, act in system mode. -/
theorem fctx_of_priv {s : State} (hp : s.priv = true) : 14 ≤ s.fctx ∧ s.fctx < 17 := by
  unfold State.priv at hp
  split at hp
  next h => omega
  next h =>
    simp only [sysMode, Bool.or_eq_true, beq_iff_eq] at hp
    omega

/-- What a context holds once it is restarted from its frame at a group. -/
def State.restarted (s : State) (core k : Nat) (pc : BitVec 32) (done : BitVec 4) : Ctx :=
  { (s.restoreRegs core k).ctx core k with
    st := .ready, pc := pc, npc := pc, slot := 0, grp := [], performed := 0, doneMask := done, fin := false, hold := .none, resumed := true }
/-- A frame that does not say WAITING makes its context READY, and changes nothing else. -/
theorem restartStopped_eq {s : State} {core k : Nat} (pc : BitVec 32) (done : BitVec 4) (hf : s.frame core k 0xA4 1 ≠ 2) :
    s.restartStopped core k pc done = s.setCtx core k (s.restarted core k pc done) := by
  have hr : s.restart core k pc done (s.frame core k 0xA4 1) = s.setCtx core k (s.restarted core k pc done) := by
    simp only [State.restart, State.restarted, State.restoreRegs, State.setCtx, if_neg hf, tset_tset]
  unfold State.restartStopped
  dsimp only
  rw [hr]
  unfold State.matchQueued
  dsimp only
  rw [State.ctx_setCtx_same, if_neg (show (s.restarted core k pc done).st ≠ .waiting from nofun)]

section
variable (s : State) (core k : Nat) (pc : BitVec 32) (done : BitVec 4)

/-- The general registers come back with their tags. -/
theorem restarted_g (i : Fin 16) : (s.restarted core k pc done).g[i] = ⟨BitVec.ofNat 64 (s.frame core k (8 * i.val) 8), (s.frame core k 0x80 2).testBit i.val⟩ := by
  simp [State.restarted, State.restoreRegs, State.frame]
/-- So do the predicates; p0 reads 1. -/
theorem restarted_pr {p : BitVec 4} (hp : p ≠ 0) : (s.restarted core k pc done).pr p = (s.frame core k 0x82 2).testBit p.toNat := by
  have hb : (s.restarted core k pc done).preds = BitVec.ofNat 16 (s.frame core k 0x82 2) ||| 1#16 := by
    simp [State.restarted, State.restoreRegs, State.frame]
  have hl : (BitVec.ofNat 16 (s.frame core k 0x82 2)).getLsbD p.toNat = (s.frame core k 0x82 2).testBit p.toNat := by
    rw [BitVec.getLsbD_ofNat, decide_eq_true p.isLt, Bool.true_and]
  rw [pr_eq_decide, hb, getLsbD_or_one, hl]
  simp only [or_iff_right hp, Bool.decide_eq_true]
/-- So do the trap registers and FPST, without their reserved bits. -/
theorem restarted_ctl : let c := (s.restarted core k pc done).ctl
    c.cause = BitVec.ofNat 32 (s.frame core k 0x84 4) &&& 0xFFFFF ∧ c.tval = BitVec.ofNat 64 (s.frame core k 0x88 8) ∧
      c.tpc = BitVec.ofNat 32 (s.frame core k 0x90 4) ∧ c.tmid = BitVec.ofNat 32 (s.frame core k 0x94 4) ∧
      c.fpst = BitVec.ofNat 8 (s.frame core k 0xA7 1) &&& 0x3F := by
  simp [State.restarted, State.restoreRegs, State.frame]

end

/-- Settles O41: the next state differs in the context that restarts and in the mark of the word that has performed. -/
theorem eretRestores : Obligations.EretRestores := by
  intro h ra s g hp core k h14 hst hh ha hf
  obtain ⟨hlo, hhi⟩ := fctx_of_priv hp
  have hne : ckey s.fcore s.fctx ≠ ckey core k := fun e => by have := (ckey_inj hhi (by omega) e).2; omega
  have hcur : (s.setCtx core k (s.restarted core k (s.framePc core k) (BitVec.ofNat 4 (s.frame core k 0xBD 1)))).cur = s.cur := by
    simp only [State.cur, State.ctx, State.setCtx, State.fcore, State.fctx]
    exact congrArg (Option.getD · ({} : Ctx)) (tget_tset_ne _ _ _ _ hne)
  refine ⟨_, execEret_stopped g rfl (by simp [hp]) h14 hst hh ha, ?_⟩
  rw [restartStopped_eq _ _ hf]
  have hctx := (finish_only (s.setCtx core k (s.restarted core k (s.framePc core k) (BitVec.ofNat 4 (s.frame core k 0xBD 1))))).2 core k hne.symm
  rw [State.ctx_setCtx_same] at hctx
  refine ⟨by rw [State.cur_finish, hcur], rfl, ?_⟩
  dsimp only
  rw [show (s.cur.gv ra).toNat % 16 = k from rfl, hctx]
  exact ⟨rfl, rfl, rfl, rfl, restarted_g s core k _ _, fun p => restarted_pr s core k _ _, restarted_ctl s core k _ _⟩

end Sys2Proof.Machine
end

section
/-! PROOFS. What the events of engines share (spec 09 R242 to R250, R260): acts that leave the operations alone and let events come due only behind those that
were, the end of an operation, and what an engine answers to a command. -/

namespace Sys2Proof.Machine

/-! ### Acts that leave the operations alone -/

/-- What was due anew stays so when more comes due. -/
theorem dues_mono {s t u : State} {i : Instr} {a b c : Nat} (h : t.agenda <+: u.agenda) (hd : s.dues t i a b c) : s.dues u i a b c :=
  (h.drop _).subset hd
/-- What came due since a later state came due since an earlier one. -/
theorem dues_of_prefix {s t u : State} {i : Instr} {a b c : Nat} (h : s.agenda <+: t.agenda) (hd : t.dues u i a b c) : s.dues u i a b c :=
  List.drop_subset_drop_left _ h.length_le hd
/-- An event that comes due behind those of s. -/
theorem dues_due {s t : State} (h : s.agenda <+: t.agenda) (i : Instr) (a b c : Nat) : s.dues (t.due i a b c) i a b c :=
  dues_of_prefix h (dues_of_append (l := [_]) rfl (List.mem_singleton.2 rfl))

/-- Between s and t the operations stand, and events come due only behind those that were. -/
structure OpsKept (s t : State) : Prop where
  ops : t.ops = s.ops
  agenda : s.agenda <+: t.agenda

namespace OpsKept

variable {s t u : State}

theorem of_eq (ho : t.ops = s.ops := by rfl) (ha : t.agenda = s.agenda := by rfl) : OpsKept s t := ⟨ho, ha ▸ List.prefix_refl _⟩
theorem refl (s : State) : OpsKept s s := .of_eq
theorem trans (a : OpsKept s t) (b : OpsKept t u) : OpsKept s u := ⟨b.ops.trans a.ops, a.agenda.trans b.agenda⟩
/-- An act that keeps them, after an update of other fields. -/
theorem after (b : OpsKept t u) (ho : t.ops = s.ops := by rfl) (ha : t.agenda = s.agenda := by rfl) : OpsKept s u := (of_eq ho ha).trans b
/-- Acts that keep them, one after another. -/
theorem foldl {α : Type} {f : State → α → State} (hf : ∀ s x, OpsKept s (f s x)) (l : List α) (s : State) : OpsKept s (l.foldl f s) := by
  induction l generalizing s with
  | nil => exact refl s
  | cons x r ih => exact (hf s x).trans (ih _)
theorem op (h : OpsKept s t) (n : Nat) : t.op n = s.op n := congrArg (tget · n) h.ops

end OpsKept

theorem due_ops (s : State) (i : Instr) (a b c : Nat) : OpsKept s (s.due i a b c) := ⟨rfl, List.prefix_append ..⟩
theorem chargeAs_ops (s : State) (part prof cls : Nat) (us : List PortUse) : OpsKept s (s.chargeAs part prof cls us) := by
  obtain ⟨ch, ts, e⟩ := chargeAs_only s part prof cls us
  exact e ▸ .of_eq
theorem pumpFlits_ops (port n : Nat) (s : State) : OpsKept s (pumpFlits port n s) := by
  induction n generalizing s with
  | zero => exact .refl s
  | succ n ih =>
    unfold pumpFlits
    dsimp only
    split
    · exact .refl s
    · exact (ih _).after
theorem sendOn_ops (s : State) (i : Nat) (pk : BPacket) : OpsKept s (s.sendOn i pk) := by
  have pump (t : State) : OpsKept t (t.portPump i) := by
    unfold State.portPump
    split
    · exact pumpFlits_ops ..
    · exact .refl t
  unfold State.sendOn
  dsimp only
  split
  · exact ((pump _).after).trans (due_ops ..)
  · exact (pump _).after
theorem portSend_ops (s : State) (pk : BPacket) : OpsKept s (s.portSend pk) := by
  have hf : OpsKept s (s.firstHop pk).1 := by
    unfold State.firstHop
    dsimp only
    split <;> exact .of_eq
  refine hf.trans ?_
  unfold State.portSend
  dsimp only
  split
  · exact .refl _
  split
  · exact sendOn_ops ..
  split
  · exact (chargeAs_ops ..).trans (sendOn_ops ..)
  split <;> exact .of_eq
theorem received_ops (s : State) (unit : Nat) (m : Msg) : OpsKept s (s.received unit m) := by
  unfold State.received
  split <;> exact .of_eq
theorem transport_ops (s : State) (nm : NetMsg) : OpsKept s (s.transport nm) := by
  unfold State.transport
  extract_lets m n at_ nm1 nm2 s1 q p pk s2 s3
  refine OpsKept.trans (t := s1) ((chargeAs_ops ..).trans .of_eq) ?_
  split
  · split
    · exact ((portSend_ops ..).trans (received_ops ..)).trans .of_eq
    · have h3 : OpsKept s1 s3 := ((portSend_ops s2 pk).after).trans .of_eq
      split
      · exact h3.trans .of_eq
      · exact h3
  · split
    · exact due_ops ..
    · exact (due_ops ..).after
theorem leave_ops (s : State) (nm : NetMsg) : OpsKept s (s.leave nm) := by
  unfold State.leave
  extract_lets m s1 k st ord s2
  refine OpsKept.trans (t := s2) ?_ (transport_ops ..)
  unfold s2 s1
  split <;> split <;> exact .of_eq
theorem pumpList_ops (ok : State → Msg → Bool) (s : State) (l : List NetMsg) : OpsKept s (pumpList ok s l) := by
  induction l generalizing s with
  | nil => exact .refl s
  | cons nm r ih =>
    unfold pumpList
    split
    · exact .refl s
    split
    · exact ih s
    split
    · exact .refl s
    split
    · exact .refl s
    · exact (leave_ops s nm).trans (ih _)
theorem post_ops (s : State) (u : Nat) (m : Msg) : OpsKept s (s.post u m) := by
  unfold State.post
  extract_lets m1 s1 nm fab s2
  refine OpsKept.trans (t := s2) ?_ ?_
  · unfold s2 s1
    split <;> exact .of_eq
  · split
    · unfold State.leaveFree
      split
      · exact leave_ops ..
      · exact .refl _
    · exact pumpList_ops ..
theorem seq_ops (s : State) (u : Nat) : OpsKept s (s.seq u).2 := by
  unfold State.seq
  split <;> exact .of_eq
/-- A message that the hardware forms changes no operation. -/
theorem sendNow_ops (s : State) (u : Nat) (m : Msg) : OpsKept s (s.sendNow u m) := (seq_ops s u).trans (post_ops ..)
theorem tallyFor_ops (s : State) (part : Nat) (scope : BitVec 16) (unit : Nat) (f : Tally → Tally) : OpsKept s (s.tallyFor part scope unit f) := by
  unfold State.tallyFor
  split
  · exact .refl s
  · unfold State.onTally
    split <;> exact .of_eq
theorem ackAll_ops (s : State) (unit : Nat) : OpsKept s (s.ackAll unit) := by
  refine OpsKept.foldl (fun s x => ?_) _ s
  split
  · unfold State.ackPrune
    split
    · exact .refl s
    · split
      · exact (sendNow_ops ..).after
      · exact .refl s
  · exact .refl s
theorem sweepSeals_ops (s : State) (core : Nat) : OpsKept s (s.sweepSeals core) :=
  OpsKept.after (OpsKept.foldl (fun _ _ => by exact sendNow_ops ..) _ _)

/-! ### Operations end (spec 09 R244, R250) -/

/-- Between s and t operation n ends in a state, and its notice comes due. -/
structure Ends (s t : State) (n : Nat) (st : TokSt) : Prop where
  op : ∃ x, t.op n = some x ∧ x.ph = .ended ∧ x.st = st
  due : s.dues t .tokenNotice n

namespace Ends

variable {s t u : State} {n : Nat} {st : TokSt}

theorem after (h : Ends t u n st) (ha : s.agenda <+: t.agenda) : Ends s u n st := ⟨h.op, dues_of_prefix ha h.due⟩
theorem trans (h : Ends s t n st) (hk : OpsKept t u) : Ends s u n st := ⟨hk.op n ▸ h.op, dues_mono hk.agenda h.due⟩
/-- An event whose next state ends an operation. -/
theorem answer {i : Instr} (h : ∃ t, exec i s = .next t ∧ Ends s t n st) :
    ∃ t x, exec i s = .next t ∧ t.op n = some x ∧ x.ph = .ended ∧ x.st = st ∧ s.dues t .tokenNotice n := by
  obtain ⟨t, he, ⟨x, hx, hp, hs⟩, hd⟩ := h
  exact ⟨t, x, he, hx, hp, hs, hd⟩

end Ends

/-- Values of a table that are all changed. -/
theorem tget_map {α β : Type} (f : α → β) (t : Table α) (n : Nat) : tget (t.map fun x => (x.1, f x.2)) n = (tget t n).map f := by
  induction t with
  | nil => rfl
  | cons e r ih =>
    simp only [List.map_cons, tget, ih]
    split <;> rfl
/-- An edge that is settled changes neither the progress of an operation nor its end. -/
theorem dropEdge_end (n : Nat) (ok : Bool) (o : Op) : (dropEdge n ok o).ph = o.ph ∧ (dropEdge n ok o).st = o.st := by
  unfold dropEdge
  split
  · exact ⟨rfl, rfl⟩
  · split <;> exact ⟨rfl, rfl⟩
/-- An operation that has not ended ends. -/
theorem endOp_ends {s : State} {n : Nat} {o : Op} (ho : s.op n = some o) (hp : o.ph ≠ .ended) (st : TokSt) (reason : Nat) (t : Trap) (progress extra : Nat)
    (own : Bool) : Ends s (s.endOp n st reason t progress extra own) n st := by
  unfold State.endOp
  split
  next h => rw [ho] at h; cases h
  next x hx =>
  obtain rfl : o = x := Option.some.inj (ho.symm.trans hx)
  rw [if_neg hp]
  extract_lets s1 s2 h status s3 had s4
  have h2 : Ends s s2 n st := ⟨⟨_, tget_tset_same .., rfl, rfl⟩, dues_due (List.prefix_refl _) ..⟩
  have h3 : Ends s s3 n st := by
    refine h2.trans ?_
    unfold s3
    split
    · exact sendNow_ops ..
    · exact .refl _
  have h4 : Ends s s4 n st := by
    obtain ⟨⟨x, hx, hph, hst⟩, hd⟩ := h3
    obtain ⟨hph', hst'⟩ := dropEdge_end n (st == .done) x
    exact ⟨⟨_, (tget_map _ _ n).trans (congrArg (Option.map _) hx), hph'.trans hph, hst'.trans hst⟩, hd⟩
  exact h4.trans (.foldl (fun _ _ => due_ops ..) _ _)
/-- A copy that has not ended ends. -/
theorem endCopy_ends {s : State} {n : Nat} {o : Op} (ho : s.op n = some o) (hp : o.ph ≠ .ended) (st : TokSt) (reason : Nat) (t : Trap) (progress extra : Nat)
    (own : Bool) : Ends s (s.endCopy n st reason t progress extra own) n st := by
  unfold State.endCopy
  rw [ho]
  dsimp only
  have hc : OpsKept s (s.countSeals o.sealed (· - 1)) := .foldl (fun _ _ => by exact .of_eq) _ _
  have he : Ends ((s.countSeals o.sealed (· - 1)).setOp n { o with sealed := [] }) _ n st :=
    endOp_ends (o := { o with sealed := [] }) (State.op_setOp_same ..) hp st reason t progress extra own
  exact (he.after hc.agenda).trans (.foldl sweepSeals_ops _ _)

/-! ### Acceptance (spec 09 R245, R249, R260) -/

section
variable {s : State} {n : Nat} {o : Op} (ho : s.op n = some o)
include ho

/-- An operation of a sweep ends CANCELLED. -/
theorem cancelOwn_ends (unit : Nat) (hp : o.ph ≠ .ended) : Ends s (s.cancelOwn n unit) n .cancelled := by
  unfold State.cancelOwn
  rw [ho]
  have hk := tallyFor_ops s o.part o.scope unit (fun t => t.removed o.engine)
  exact (endOp_ends ((hk.op n).trans ho) hp ..).after hk.agenda

variable (hs : o.ph = .sent) {unit cap : Nat} {bad : Op → Option Nat} {again : Instr} {enq : State → State}
include hs

/-- A command of a dead scope ends CANCELLED. -/
theorem acceptOp_dead (hd : s.scopeDead o.part o.scope = true) : Ends s (s.acceptOp n unit cap bad again enq) n .cancelled := by
  unfold State.acceptOp
  rw [ho]
  dsimp only
  rw [if_neg (not_not.2 hs), if_pos hd]
  exact (cancelOwn_ends (s := s.setOp n { o with unit := unit, ph := .queued }) (State.op_setOp_same ..) unit nofun).after (List.prefix_refl _)

variable (hd : s.scopeDead o.part o.scope = false)
include hd

/-- A command that has found a queue full 64 times ends FAILED. -/
theorem acceptOp_full_last (hc : cap ≤ s.queued unit) (ht : 64 ≤ o.tries) : Ends s (s.acceptOp n unit cap bad again enq) n .failed := by
  unfold State.acceptOp
  rw [ho]
  dsimp only
  rw [if_neg (not_not.2 hs), if_neg (by simp [hd]), if_pos hc, if_pos ht]
  exact (endOp_ends (State.op_setOp_same s n { o with unit := o.core }) (by simp [hs]) ..).after (List.prefix_refl _)
/-- A command that finds a full queue is tried again. -/
theorem acceptOp_full (hc : cap ≤ s.queued unit) (ht : o.tries < 64) :
    s.acceptOp n unit cap bad again enq = (s.setOp n { o with tries := o.tries + 1 }).later again n := by
  unfold State.acceptOp
  rw [ho]
  dsimp only
  rw [if_neg (not_not.2 hs), if_neg (by simp [hd]), if_pos hc, if_neg (by omega)]

variable (hc : s.queued unit < cap)
include hc

/-- A command with a bad field ends FAILED. -/
theorem acceptOp_bad (hb : (bad o).isSome = true) : Ends s (s.acceptOp n unit cap bad again enq) n .failed := by
  obtain ⟨off, hb⟩ := Option.isSome_iff_exists.1 hb
  unfold State.acceptOp
  rw [ho]
  dsimp only
  rw [if_neg (not_not.2 hs), if_neg (by simp [hd]), if_neg (by omega), hb]
  exact (endOp_ends (State.op_setOp_same s n { o with unit := unit, ph := .queued }) nofun ..).after (List.prefix_refl _)
/-- A command with a failed input ends CANCELLED. -/
theorem acceptOp_input (hb : bad o = none) (hi : o.inputFailed = true) : Ends s (s.acceptOp n unit cap bad again enq) n .cancelled := by
  unfold State.acceptOp
  rw [ho]
  dsimp only
  rw [if_neg (not_not.2 hs), if_neg (by simp [hd]), if_neg (by omega), hb]
  dsimp only
  rw [if_pos hi]
  exact (endOp_ends (State.op_setOp_same s n { o with unit := unit, ph := .queued }) nofun ..).after (List.prefix_refl _)
/-- Any other is queued as the engine queues its commands. -/
theorem acceptOp_queues (hb : bad o = none) (hi : o.inputFailed = false) :
    s.acceptOp n unit cap bad again enq = enq (s.setOp n { o with unit := unit, ph := .queued }) := by
  unfold State.acceptOp
  rw [ho]
  dsimp only
  rw [if_neg (not_not.2 hs), if_neg (by simp [hd]), if_neg (by omega), hb]
  dsimp only
  rw [if_neg (by simp [hi])]

end

/-- In t operation n is queued at a unit, memory is as in s, and where it has no inputs to wait for its start has come due. -/
def Queues (s t : State) (n : Nat) (o : Op) (unit : Nat) (start : Instr) (on : Nat) : Prop :=
  t.mem = s.mem ∧ ∃ x, t.op n = some x ∧ x.ph = .queued ∧ x.unit = unit ∧ (o.edges = [] → s.dues t start on)
/-- What an engine with a queue of cap entries answers to command n by the event i. -/
def Accepts (s : State) (n : Nat) (o : Op) (i : Instr) (unit cap : Nat) (bad : Option Nat) (start : Instr) (on : Nat) : Prop :=
  let ends (st : TokSt) : Prop := ∃ t x, exec i s = .next t ∧ t.op n = some x ∧ x.ph = .ended ∧ x.st = st ∧ s.dues t .tokenNotice n
  (s.scopeDead o.part o.scope = true → ends .cancelled) ∧
  (s.scopeDead o.part o.scope = false → s.queued unit < cap →
    (bad.isSome = true → ends .failed) ∧ (bad = none → o.inputFailed = true → ends .cancelled) ∧
    (bad = none → o.inputFailed = false → ∃ t x, exec i s = .next t ∧ t.mem = s.mem ∧ t.op n = some x ∧ x.ph = .queued ∧ x.unit = unit ∧
      (o.edges = [] → s.dues t start on))) ∧
  (s.scopeDead o.part o.scope = false → cap ≤ s.queued unit → (64 ≤ o.tries → ends .failed) ∧
    (o.tries < 64 → ∃ t x, exec i s = .next t ∧ t.mem = s.mem ∧ t.op n = some x ∧ x.ph = .sent ∧ x.tries = o.tries + 1 ∧ (i, { a := n }) ∈ t.timers))

/-- An engine answers to a command as R249 has it when what it does with a command that it queues is right. -/
theorem accepts_of_queues {s : State} {n : Nat} {o : Op} {i start : Instr} {unit cap on : Nat} {bad : Op → Option Nat} {enq : State → State}
    (ho : s.op n = some o) (hs : o.ph = .sent) (hi : exec i s = .next (s.acceptOp n unit cap bad i enq))
    (hq : Queues s (enq (s.setOp n { o with unit := unit, ph := .queued })) n o unit start on) : Accepts s n o i unit cap (bad o) start on := by
  refine ⟨fun hd => Ends.answer ⟨_, hi, acceptOp_dead ho hs hd⟩, fun hd hc => ⟨fun hb => Ends.answer ⟨_, hi, acceptOp_bad ho hs hd hc hb⟩,
    fun hb hf => Ends.answer ⟨_, hi, acceptOp_input ho hs hd hc hb hf⟩, fun hb hf => ?_⟩,
    fun hd hc => ⟨fun ht => Ends.answer ⟨_, hi, acceptOp_full_last ho hs hd hc ht⟩, fun ht => ?_⟩⟩
  · rw [acceptOp_queues ho hs hd hc hb hf] at hi
    obtain ⟨hm, x, hx⟩ := hq
    exact ⟨_, x, hi, hm, hx⟩
  · rw [acceptOp_full ho hs hd hc ht] at hi
    exact ⟨_, _, hi, rfl, State.op_setOp_same .., hs, rfl, List.mem_append_right _ (List.mem_singleton.2 rfl)⟩

end Sys2Proof.Machine
end

section
/-! PROOFS. Commands at their engines and copies (spec 09 R244, R248 to R253, R260; 16 R422): acceptance, the notice of an end, the parts of a copy and how each
moves. -/

namespace Sys2Proof.Machine

/-! ### Acceptance at each engine (spec 09 R249) -/

/-- A queue is changed for every command, and the start comes due where there is nothing to wait for. -/
theorem queues_of_due {s u : State} {n : Nat} {o x : Op} {unit : Nat} {start : Instr} {on : Nat} (hm : u.mem = s.mem) (ha : s.agenda <+: u.agenda)
    (hx : u.op n = some x) (hp : x.ph = .queued) (hu : x.unit = unit) : Queues s (if o.edges.isEmpty then u.due start on else u) n o unit start on := by
  split
  · exact ⟨hm, x, hx, hp, hu, fun _ => dues_due ha ..⟩
  next h => exact ⟨hm, x, hx, hp, hu, fun he => absurd (by simp [he]) h⟩

/-- The seals that a copy meets are those of the cores and of the spaces of its scope. -/
theorem sealsMet_setOp (s : State) (n : Nat) (o x : Op) : (s.setOp n x).sealsMet o = s.sealsMet o := by
  have hl (core : Nat) : (s.setOp n x).spaceFor core o.part o.scope = s.spaceFor core o.part o.scope := by
    unfold State.spaceFor
    rw [launchOf_congr (s := s) (t := s.setOp n x) rfl]
    rfl
  unfold State.sealsMet
  simp only [hl]
  rfl

section
variable {s : State} {n : Nat} {o : Op} (ha : s.occ.a = n) (ho : s.op n = some o) (hs : o.ph = .sent)
include ha ho hs

theorem copyCommandAccept_accepts (hm : s.sealsMet o = []) :
    Accepts s n o .copyCommandAccept (768 + o.core / 8) 32 o.copyBad .copyStart n := by
  subst ha
  refine accepts_of_queues (bad := Op.copyBad) ho hs (by change execCopyCommandAccept s = _; simp only [execCopyCommandAccept, ho]; rfl) ?_
  rw [sealsMet_setOp, hm]
  exact queues_of_due rfl (List.prefix_refl _) (State.op_setOp_same ..) rfl rfl
theorem walkCommandAccept_accepts :
    Accepts s n o .walkCommandAccept o.core 8 (o.walkBad (if o.edges = [] then s.walkRow o else 0)) .walkStart n := by
  subst ha
  have hb : (if o.edges = [] then s.walkRow o else 0) = if o.edges.isEmpty then s.walkRow o else 0 := by simp only [List.isEmpty_iff]
  rw [hb]
  refine accepts_of_queues (bad := fun x => x.walkBad (if o.edges.isEmpty then s.walkRow o else 0)) ho hs
    (by change execWalkCommandAccept s = _; simp only [execWalkCommandAccept, ho]; rfl) ?_
  exact queues_of_due rfl (List.prefix_refl s.agenda) (State.op_setOp_same s _ { o with unit := o.core, ph := .queued }) rfl rfl
theorem tdeCommandAccept_accepts :
    Accepts s n o .tdeCommandAccept o.tdeUnit 8 o.tdeBad (if o.engine = .dispatch then .dispatchStart else .combineStart) n := by
  subst ha
  refine accepts_of_queues (bad := Op.tdeBad) ho hs (by change execTdeCommandAccept s = _; simp only [execTdeCommandAccept, ho]; rfl) ?_
  exact queues_of_due rfl (List.prefix_refl s.agenda) (State.op_setOp_same s _ { o with unit := o.tdeUnit, ph := .queued }) rfl rfl
theorem djobAccept_accepts : Accepts s n o .djobAccept (872 + o.djobDie) 64 o.djobBad .jobGrant o.djobDie := by
  subst ha
  refine accepts_of_queues (bad := Op.djobBad) ho hs (by change execDjobAccept s = _; simp only [execDjobAccept, ho]; rfl) ?_
  exact ⟨rfl, _, State.op_setOp_same .., rfl, rfl, fun _ => dues_due (List.prefix_refl _) ..⟩

end

/-! ### Token notices (spec 09 R244) -/

/-- A notice settles the token registers that still name its operation. -/
theorem applyNotices_single (t : Vector Tok 8) (n : Nat) (st : TokSt) (i : Fin 8) :
    (applyNotices t [(n, st)])[i] = if t[i].st = .pending ∧ t[i].op = n then ⟨st, n⟩ else t[i] := by
  simp only [applyNotices, Fin.getElem_fin, Vector.getElem_map, Bool.and_eq_true, beq_iff_eq]
  split
  next h => rw [← h.2]
  · rfl
theorem tokenNotice_settles {s : State} {n : Nat} {o : Op} (ha : s.occ.a = n) (ho : s.op n = some o) (hp : o.ph = .ended) (ht : o.tk ≠ 0)
    (hst : (s.ctx o.core o.ctx).st = .ready) (hg : (s.ctx o.core o.ctx).grp = []) :
    ∃ t, exec .tokenNotice s = .next t ∧ t.mem = s.mem ∧
      t.ctx o.core o.ctx = { s.ctx o.core o.ctx with toks := applyNotices (s.ctx o.core o.ctx).toks [(n, o.st)] } := by
  subst ha
  obtain ⟨u, hm, hx, hu⟩ : ∃ u : State, u.mem = s.mem ∧ u.ctx o.core o.ctx = s.ctx o.core o.ctx ∧
      u = if o.engine = .prune then s else s.onCnt o.part o.scope o.core fun x => { x with ops := x.ops - 1 } :=
    ⟨_, by split <;> rfl, by split <;> rfl, rfl⟩
  refine ⟨u.setCtx o.core o.ctx _, ?_, hm, State.ctx_setCtx_same ..⟩
  change execTokenNotice s = _
  unfold execTokenNotice
  dsimp only
  rw [ho]
  dsimp only
  rw [if_neg (not_not.2 hp), ← hu, hx, if_neg (by simp [hst, ht]), if_pos hg, if_neg (by simp [hst])]

/-! ### A copy is split into parts (spec 09 R251, R252) -/

theorem splitRow_zero (f a b : Nat) : splitRow f a b 0 = [] := by cases f <;> rfl
theorem splitRow_succ {n : Nat} (f a b : Nat) (hn : n ≠ 0) : splitRow (f + 1) a b n =
    (a, b, min n (65536 - a % 65536)) :: splitRow f (a + min n (65536 - a % 65536)) (b + min n (65536 - a % 65536)) (n - min n (65536 - a % 65536)) := if_neg hn
/-- A part lies within 64 KiB of source, and its destination stands to its source as that of the row does. -/
theorem splitRow_within {f a b n : Nat} {r : Nat × Nat × Nat} (h : r ∈ splitRow f a b n) :
    0 < r.2.2 ∧ r.1 / 65536 = (r.1 + r.2.2 - 1) / 65536 ∧ r.1 + b = r.2.1 + a := by
  induction f generalizing a b n with
  | zero => cases h
  | succ f ih =>
    by_cases hn : n = 0
    · rw [hn, splitRow_zero] at h; cases h
    · rw [splitRow_succ f a b hn] at h
      obtain rfl | h := List.mem_cons.1 h
      · dsimp only; omega
      · obtain ⟨hl, hw, hd⟩ := ih h
        exact ⟨hl, hw, by omega⟩
/-- With fuel for its length, the parts of a row are together all of it. -/
theorem splitRow_length {f a b n : Nat} (c : Nat) (hf : n = 0 ∨ a % 65536 + n ≤ 65536 * f) :
    ((splitRow f a b n).map fun r => r.2.2).foldl (· + ·) c = c + n := by
  induction f generalizing a b n c with
  | zero => obtain rfl : n = 0 := by omega
            rfl
  | succ f ih =>
    by_cases hn : n = 0
    · rw [hn, splitRow_zero]; rfl
    · rw [splitRow_succ f a b hn, List.map_cons, List.foldl_cons, ih _ (by omega)]
      dsimp only
      omega

/-- A translation changes no more than what the slices hold. -/
theorem xlate_only (s : State) (pn va : Nat) : ∃ hs, (s.xlate pn va).1 = { s with homes := hs } := by
  unfold State.xlate
  split
  · exact ⟨_, rfl⟩
  · split <;> exact ⟨_, rfl⟩
/-- So does the search for the engine of a part. -/
theorem sourceHedge_only (s : State) (o : Op) (a : Nat) : ∃ hs, (s.sourceHedge o a).1 = { s with homes := hs } := by
  unfold State.sourceHedge
  split
  · exact ⟨_, rfl⟩
  · exact ⟨_, rfl⟩
  · have h := xlate_only s o.part a
    split <;> next e => rw [e] at h; exact h
  · exact ⟨_, rfl⟩
/-- A run of a row becomes a part, at the engine that holds its source. -/
def addPart (o : Op) (x : State × List CPart) (r : Nat × Nat × Nat) : State × List CPart :=
  ((x.1.sourceHedge o r.1).1, x.2 ++ [{ engine := (x.1.sourceHedge o r.1).2, src := r.1, dst := r.2.1, len := r.2.2 }])
/-- The parts are the runs in their order, with nothing moved yet. -/
theorem foldl_addPart (o : Op) (rows : List (Nat × Nat × Nat)) (x : State × List CPart) :
    (∃ hs, (rows.foldl (addPart o) x).1 = { x.1 with homes := hs }) ∧
      ∃ ps, (rows.foldl (addPart o) x).2 = x.2 ++ ps ∧ (ps.map fun p => (p.src, p.dst, p.len)) = rows ∧ ∀ p ∈ ps, p.pos = 0 ∧ p.done = false := by
  induction rows generalizing x with
  | nil => exact ⟨⟨_, rfl⟩, [], by simp⟩
  | cons r rows ih =>
    obtain ⟨⟨hs, hst⟩, ps, hps, hmap, hnew⟩ := ih (addPart o x r)
    obtain ⟨hs', hst'⟩ := sourceHedge_only x.1 o r.1
    refine ⟨⟨hs, ?_⟩, _ :: ps, hps.trans (List.append_assoc ..), congrArg (r :: ·) hmap, ?_⟩
    · rw [List.foldl_cons, hst, show (addPart o x r).1 = _ from hst']
    · rintro p (_ | ⟨_, hp⟩)
      · exact ⟨rfl, rfl⟩
      · exact hnew p hp
/-- Of events that come due one after another, each is due. -/
theorem dues_foldl_due {l : List Nat} {b : Nat} (i : Instr) (a : Nat) (hb : b ∈ l) (s : State) : s.dues (l.foldl (fun s x => s.due i a x) s) i a b := by
  induction l generalizing s with
  | nil => cases hb
  | cons x r ih =>
    obtain rfl | hb := List.mem_cons.1 hb
    · exact dues_mono (OpsKept.foldl (fun _ _ => due_ops ..) r _).agenda (dues_due (List.prefix_refl _) ..)
    · exact dues_of_prefix (due_ops ..).agenda (ih hb _)
/-- The state in which a copy has its parts, and each part its first event. -/
def withParts (n : Nat) (o : Op) (x : State × List CPart) : State :=
  (List.range x.2.length).foldl (fun s i => s.due .copyPart n i) (x.1.setOp n { o with ph := .started, parts := x.2 })
/-- The runs of a copy: its rows, each split. -/
def Op.runs (o : Op) : List (Nat × Nat × Nat) :=
  (List.range o.copyRows).flatMap fun i => splitRow (o.copyLen / 65536 + 2) (o.copySrc i).toNat (o.copyDst i).toNat o.copyLen
theorem ph_of_ready {o : Op} (hr : o.ready = true) : o.ph ≠ .ended := by
  simp only [Op.ready, Bool.and_eq_true, beq_iff_eq] at hr
  simp [hr.1]

section
variable {s : State} {n : Nat} {o : Op} (ha : s.occ.a = n) (ho : s.op n = some o) (hr : o.ready = true) (hi : o.inputFailed = false)
include ha ho hr hi

/-- A copy that can start is empty, or overlaps, or is split. -/
theorem copyStart_ready : exec .copyStart s = .next (if o.copyLen = 0 ∨ o.copyRows = 0 then s.endCopy n .done 0 ⟨0, 0, 0⟩ 0 0 false
    else if o.overlaps then s.endCopy n .failed rsnOverlap ⟨0, 0, 0⟩ 0 0 false else withParts n o (o.runs.foldl (addPart o) (s, []))) := by
  subst ha
  change execCopyStart s = _
  unfold execCopyStart
  dsimp only
  rw [ho]
  dsimp only
  rw [if_neg (by simp [hr]), if_neg (by simp [hi])]
  split
  · rfl
  · split <;> rfl
/-- An empty copy ends at once. -/
theorem copyStart_empty (hl : o.copyLen = 0) : ∃ t, exec .copyStart s = .next t ∧ Ends s t n .done := by
  refine ⟨_, ?_, endCopy_ends ho (ph_of_ready hr) .done 0 ⟨0, 0, 0⟩ 0 0 false⟩
  rw [copyStart_ready ha ho hr hi, if_pos (.inl hl)]
/-- A copy whose source and destination meet fails at once. -/
theorem copyStart_overlap (hl : 0 < o.copyLen) (hn : 0 < o.copyRows) (hm : o.overlaps = true) :
    ∃ t, exec .copyStart s = .next t ∧ Ends s t n .failed := by
  refine ⟨_, ?_, endCopy_ends ho (ph_of_ready hr) .failed rsnOverlap ⟨0, 0, 0⟩ 0 0 false⟩
  rw [copyStart_ready ha ho hr hi, if_neg (by omega), if_pos hm]

/-- The parts of a copy are together all of it, each within 64 KiB of source and with nothing moved, and each has its first event. -/
theorem copyStart_splits (he : o.engine = .copy) (hl : 0 < o.copyLen) (hm : o.overlaps = false) :
    ∃ t x, exec .copyStart s = .next t ∧ t.mem = s.mem ∧ t.op n = some x ∧ x.ph = .started ∧ (x.parts.map fun p => p.len).foldl (· + ·) 0 = o.copyLen ∧
      ∀ i p, x.parts[i]? = some p → s.dues t .copyPart n i ∧ p.pos = 0 ∧ p.done = false ∧ 0 < p.len ∧ p.src / 65536 = (p.src + p.len - 1) / 65536 ∧
        (p.src : Int) - o.copySrc 0 = (p.dst : Int) - o.copyDst 0 := by
  have hn : o.copyRows = 1 := if_pos he
  have hruns : o.runs = splitRow (o.copyLen / 65536 + 2) (o.copySrc 0).toNat (o.copyDst 0).toNat o.copyLen := by
    simp [Op.runs, hn]
  have hsrc : ((o.copySrc 0).toNat : Int) = o.copySrc 0 := Int.toNat_of_nonneg (by simp [Op.copySrc])
  have hdst : ((o.copyDst 0).toNat : Int) = o.copyDst 0 := Int.toNat_of_nonneg (by simp [Op.copyDst])
  obtain ⟨⟨hs, hst⟩, ps, hps, hmap, hnew⟩ := foldl_addPart o o.runs (s, [])
  rw [List.nil_append] at hps
  obtain ⟨u, hu⟩ : ∃ u, u = (o.runs.foldl (addPart o) (s, [])).1.setOp n { o with ph := .started, parts := ps } := ⟨_, rfl⟩
  have hua : u.agenda = s.agenda := by rw [hu, hst]; rfl
  have hum : u.mem = s.mem := by rw [hu, hst]; rfl
  have hgo : exec .copyStart s = .next ((List.range ps.length).foldl (fun s i => s.due .copyPart n i) u) := by
    rw [copyStart_ready ha ho hr hi, if_neg (by omega), if_neg (by simp [hm]), withParts, hps, hu]
  refine ⟨_, { o with ph := .started, parts := ps }, hgo, ?_, ?_, rfl, ?_, fun i p hp => ?_⟩
  · exact (WorkKept.foldl (fun _ _ => due_work ..) _ u).mem.trans hum
  · exact ((OpsKept.foldl (fun _ _ => due_ops ..) _ u).op n).trans (hu ▸ State.op_setOp_same ..)
  · have hlen := splitRow_length (f := o.copyLen / 65536 + 2) (a := (o.copySrc 0).toNat) (b := (o.copyDst 0).toNat) (n := o.copyLen) 0 (by omega)
    rw [← hruns, ← hmap, List.map_map, Nat.zero_add] at hlen
    exact hlen
  · have hmem : p ∈ ps := List.mem_of_getElem? hp
    have hrun : (p.src, p.dst, p.len) ∈ splitRow (o.copyLen / 65536 + 2) (o.copySrc 0).toNat (o.copyDst 0).toNat o.copyLen :=
      hruns ▸ hmap ▸ List.mem_map_of_mem hmem
    obtain ⟨hpos, hwithin, hto⟩ := splitRow_within hrun
    obtain ⟨hp0, hd0⟩ := hnew p hmem
    have hi : i ∈ List.range ps.length := List.mem_range.2 (List.getElem?_eq_some_iff.1 hp).1
    refine ⟨dues_of_prefix (hua ▸ List.prefix_refl _) (dues_foldl_due .copyPart n hi u), hp0, hd0, hpos, hwithin, ?_⟩
    dsimp only at hto
    omega

end

/-! ### A part moves a line (spec 09 R252, R253) -/

/-- The lines of one read, from an empty buffer. -/
theorem readAhead_line {s s1 : State} {o : Op} {p : CPart} {k f : Nat} {bs : List Byte} {bad : Bool} (hb : p.buf = []) (hk : 0 < k)
    (hl : min (64 - (p.src + p.pos) % 64) (p.len - p.pos) = k) (hr : s.engRead o (p.src + p.pos) k = .ok s1 bs bad) (hn : bs.length = k) :
    readAhead s o p k (f + 2) = .ok s1 { p with buf := bs.map fun b => (b, bad) } := by
  have hstop (g : Nat) : readAhead s1 o { p with buf := bs.map fun b => (b, bad) } k (g + 1) = .ok s1 { p with buf := bs.map fun b => (b, bad) } := if_pos (by simp [hn])
  rw [readAhead, if_neg (by simp [hb]; omega)]
  simp only [hb, List.length_nil, Nat.add_zero, Nat.sub_zero, hl, hr, List.nil_append]
  exact hstop f
theorem readAhead_fails {s s1 : State} {o : Op} {p : CPart} {k f r : Nat} {u : Trap} (hb : p.buf = []) (hk : 0 < k)
    (hl : min (64 - (p.src + p.pos) % 64) (p.len - p.pos) = k) (hr : s.engRead o (p.src + p.pos) k = .fail s1 r u) :
    readAhead s o p k (f + 1) = .fail s1 r u := by
  rw [readAhead, if_neg (by simp [hb]; omega)]
  simp only [hb, List.length_nil, Nat.add_zero, Nat.sub_zero, hl, hr]
/-- The one part of a copy is changed. -/
theorem onPart_single {s : State} {n : Nat} {o : Op} {p : CPart} (ho : s.op n = some o) (hp : o.parts = [p]) (f : CPart → CPart) :
    s.onPart n 0 f = s.setOp n { o with parts := [f p] } := by
  unfold State.onPart
  rw [ho]
  dsimp only
  rw [hp]
  rfl
/-- The bytes of the next destination line of a part. -/
def CPart.chunk (p : CPart) : Nat := min (64 - (p.dst + p.pos) % 64) (p.len - p.pos)
/-- The only part of copy n stands before a line that it can read whole and write: nothing is read ahead or stopped, and the ports and the line are free. -/
structure LineFree (s : State) (n : Nat) (o : Op) (p : CPart) : Prop where
  parts : o.parts = [p]
  stopAt : p.stopAt = none
  buf : p.buf = []
  more : p.pos < p.len
  aligned : p.src % 64 = p.dst % 64
  ports : s.copyOpen o p (p.dst + p.pos) = true
  line : s.lineTaken n 0 (p.dst + p.pos) p.chunk = false

section
variable {s s1 s2 : State} {n : Nat} {o : Op} {p : CPart} {bs : List Byte} {bad : Bool}

theorem LineFree.chunk_pos (h : LineFree s n o p) : 0 < p.chunk := by
  have := h.more
  unfold CPart.chunk
  omega
/-- Where source and destination stand alike in their lines, a line of one is a line of the other. -/
theorem LineFree.source_chunk (h : LineFree s n o p) : min (64 - (p.src + p.pos) % 64) (p.len - p.pos) = p.chunk := by
  have := h.aligned
  unfold CPart.chunk
  omega
/-- The line is written at its destination. -/
theorem copyLine_moves (h : LineFree s n o p) (hr : s.engRead o (p.src + p.pos) p.chunk = .ok s1 bs bad) (hn : bs.length = p.chunk)
    (hw : s1.engWrite o (768 + p.engine) .copy (p.dst + p.pos) bs bad = .ok s2 [] false) :
    s.copyLine n 0 o p = (s2.onPart n 0 fun _ =>
      { p with buf := [], pos := p.pos + p.chunk, poisoned := p.poisoned + bad.toNat, continuation := false }).due .copyPart n := by
  have hread := readAhead_line (f := 1) h.buf h.chunk_pos h.source_chunk hr hn
  have hany : ((bs.map fun b => (b, bad)).any fun x => x.2) = bad := by
    have := h.chunk_pos
    obtain ⟨b, r, rfl⟩ : ∃ b r, bs = b :: r := List.exists_cons_of_length_pos (by omega)
    cases bad <;> simp
  have htake : (bs.map fun b => (b, bad)).take p.chunk = bs.map fun b => (b, bad) := List.take_of_length_le (by simp [hn])
  have hdrop : (bs.map fun b => (b, bad)).drop p.chunk = [] := List.drop_of_length_le (by simp [hn])
  have hbytes : (bs.map fun b => (b, bad)).map (fun x => x.1) = bs := by simp [Function.comp_def]
  have hstand : o.standing 0 (p.dst + p.pos) bs = [(p.dst + p.pos, bs)] := by simp [Op.standing, h.parts]
  have hput : s1.engWrites o (768 + p.engine) bad 0 [(p.dst + p.pos, bs)] = .ok s2 [] false := by simp only [State.engWrites, hw]
  unfold State.copyLine
  rw [h.stopAt]
  dsimp only
  rw [if_neg (by simp [h.more]), ← CPart.chunk, if_neg (by simp [h.ports, h.line]), hread]
  dsimp only
  rw [htake, hany, hbytes, hstand, hput, hdrop]
  dsimp only
  rw [h.stopAt]
/-- A read that fails ends the part. -/
theorem copyLine_fails {r : Nat} {u : Trap} (h : LineFree s n o p) (hr : s.engRead o (p.src + p.pos) p.chunk = .fail s1 r u) :
    s.copyLine n 0 o p = (s1.onPart n 0 fun p => { p with failed := some (r, u) }).due .copyPartDone n := by
  unfold State.copyLine
  rw [h.stopAt]
  dsimp only
  rw [if_neg (by simp [h.more]), ← CPart.chunk, if_neg (by simp [h.ports, h.line]), readAhead_fails h.buf h.chunk_pos h.source_chunk hr]

variable (ha : s.occ.a = n) (hb : s.occ.b = 0) (ho : s.op n = some o) (hs : o.ph = .started) (hp : o.parts = [p]) (hd : p.done = false)
include ha hb ho hs hp hd

/-- A part that goes on moves its next line; one that waits as a continuation does so when it is probed. -/
theorem copyPart_line {i : Instr} {c : Bool} (hi : (i, c) ∈ [(Instr.copyPart, false), (.continuationProbe, true)]) (hc : p.continuation = c)
    (hf : p.failed = none) : exec i s = .next (s.copyLine n 0 o p) := by
  have h0 : o.parts[0]? = some p := by rw [hp]; rfl
  simp only [List.mem_cons, Prod.mk.injEq, List.not_mem_nil, or_false] at hi
  obtain ⟨rfl, rfl⟩ | ⟨rfl, rfl⟩ := hi
  · change execCopyPart s = _
    unfold execCopyPart
    dsimp only
    rw [ha, hb, ho]
    dsimp only
    rw [h0]
    dsimp only
    rw [if_pos (by simp [hs, hd, hf, hc])]
  · change execContinuationProbe s = _
    unfold execContinuationProbe
    dsimp only
    rw [ha, hb, ho]
    dsimp only
    rw [h0]
    dsimp only
    rw [if_pos (by simp [hs, hd, hf, hc])]
/-- The last part that ends ends the copy: CANCELLED when it was killed, FAILED when the part has failed, else DONE. -/
theorem copyPartDone_ends : ∃ t, exec .copyPartDone s = .next t ∧
    Ends s t n (if o.killed then .cancelled else if p.failed.isSome then .failed else .done) := by
  obtain ⟨q, hq⟩ : ∃ q : CPart, q = { p with done := true, continuation := false } := ⟨_, rfl⟩
  obtain ⟨u, hu⟩ : ∃ u, u = (s.flushMarks o.rank o.ctx p.dst (p.dst + p.pos)).setOp n { o with parts := [q] } := ⟨_, rfl⟩
  have huo : u.op n = some { o with parts := [q] } := hu ▸ State.op_setOp_same ..
  have hua : s.agenda <+: u.agenda := hu ▸ List.prefix_refl _
  have hends (st : TokSt) (reason : Nat) (t : Trap) (a b : Nat) (own : Bool) : Ends s ((u.endCopy n st reason t a b own).ackAll (768 + p.engine)) n st :=
    ((endCopy_ends huo (by simp [hs]) st reason t a b own).after hua).trans (ackAll_ops ..)
  have hon : (s.flushMarks o.rank o.ctx p.dst (p.dst + p.pos)).onPart n 0 (fun p => { p with done := true, continuation := false }) = u := by
    rw [hu, hq]
    exact onPart_single (s := s.flushMarks o.rank o.ctx p.dst (p.dst + p.pos)) ho hp _
  have hdone : ([q].all fun q => q.done) = true := by rw [hq]; rfl
  have hfail : firstFailed [q] = p.failed.map fun x => (p.src, x) := by
    rw [hq]
    unfold firstFailed
    cases p.failed <;> rfl
  have h0 : o.parts[0]? = some p := by rw [hp]; rfl
  have hstop : u.setOp n { o with parts := [q].map fun q => if q.done then q else q.stop } = u := by
    rw [hu, hq]
    simp [State.setOp]
  change ∃ t, execCopyPartDone s = .next t ∧ _
  unfold execCopyPartDone
  dsimp only
  rw [ha, hb, ho]
  dsimp only
  rw [h0]
  dsimp only
  rw [if_neg (by simp [hs, hd]), hon, huo]
  dsimp only
  have hall : u = if p.failed.isSome then
      (([q].zipIdx.filter fun x => x.1.continuation && !x.1.done).foldl (fun s x => (s.onPart n x.2 fun p => { p with continuation := false }).due .copyPart n x.2)
        (u.setOp n { o with parts := [q].map fun q => if q.done then q else q.stop })) else u := by
    rw [hstop, hq]
    simp
  rw [← hall, huo]
  dsimp only
  rw [if_pos hdone, hfail]
  refine ⟨_, rfl, ?_⟩
  cases o.killed
  · cases p.failed <;> exact hends ..
  · exact hends ..

end

/-- Settles O51: acceptance by what each engine does with a command that it queues, a copy by its splitting, and a part by its next line or its end. -/
theorem commandAndCopyEvents : Obligations.CommandAndCopyEvents := by
  constructor
  · intro s n o ha ho ends accepts
    refine ⟨fun hs => ?_, ?_⟩
    · exact ⟨copyCommandAccept_accepts ha ho hs, walkCommandAccept_accepts ha ho hs, tdeCommandAccept_accepts ha ho hs, djobAccept_accepts ha ho hs⟩
    · intro hp ht c hst hg
      obtain ⟨t, he, hm, hc⟩ := tokenNotice_settles ha ho hp ht hst hg
      exact ⟨t, he, hm, by rw [hc], by rw [hc], by rw [hc], fun i => by rw [hc]; exact applyNotices_single ..⟩
  · intro s n o ha ho ends
    refine ⟨fun hr hi _ => ⟨fun hl => Ends.answer (copyStart_empty ha ho hr hi hl), fun hl hn hm => Ends.answer (copyStart_overlap ha ho hr hi hl hn hm),
      copyStart_splits ha ho hr hi⟩, ?_⟩
    intro p hs hp hd hb va k
    refine ⟨fun i c hi hc hf hstop hbuf hmore hal hopen hline => ?_, ?_⟩
    · have h : LineFree s n o p := ⟨hp, hstop, hbuf, hmore, hal, hopen, hline⟩
      have hi := copyPart_line ha hb ho hs hp hd hi hc hf
      refine ⟨fun s1 bs bad s2 hread hn hw ho2 => ?_, fun s1 r u hread ho1 => ?_⟩
      · rw [copyLine_moves h hread hn hw, onPart_single ho2 hp] at hi
        exact ⟨_, _, _, hi, rfl, State.op_setOp_same .., rfl, rfl, rfl, rfl, rfl, dues_due (List.prefix_refl _) ..⟩
      · rw [copyLine_fails h hread, onPart_single ho1 hp] at hi
        exact ⟨_, _, _, hi, State.op_setOp_same .., rfl, rfl, dues_due (List.prefix_refl _) ..⟩
    · have hend := copyPartDone_ends ha hb ho hs hp hd
      exact ⟨fun hk => ⟨fun hf => Ends.answer (by simpa [hk, hf] using hend), fun hf => Ends.answer (by simpa [hk, hf] using hend)⟩,
        fun hk => Ends.answer (by simpa [hk] using hend)⟩

end Sys2Proof.Machine
end

section
/-! PROOFS. Accesses of engines (spec 09 R251, R253; 10 R282, R283; 12 R322, R334, R337): what a read or a write of a piece meets in tile memory and in the
global space of this module. -/

namespace Sys2Proof.Machine

/-! ### What an access changes beside its bytes -/

/-- What a move of bytes is charged is no byte of memory and no watch unit. -/
theorem moved_kept (s : State) (o : Op) (a b : Option Nat) (n : Nat) : (s.moved o a b n).mem = s.mem ∧ (s.moved o a b n).watches = s.watches := by
  unfold State.moved
  split
  · exact ⟨rfl, rfl⟩
  · obtain ⟨ch, ts, h⟩ := chargeAs_only s o.part (s.opProfile o) o.cls (moveUses a b (unitBytes n))
    rw [h]
    exact ⟨rfl, rfl⟩
theorem luMoved_mem (s : State) (o : Op) (home n : Nat) : (s.luMoved o home n).mem = s.mem := by
  unfold State.luMoved
  split
  · obtain ⟨ch, ts, h⟩ := chargeAs_only s o.part (s.opProfile o) o.cls (luUses home n)
    rw [h]
  · rfl
/-- With no watch unit a write is seen by none. -/
theorem watchWrite_unwatched {s : State} (h : s.watches = []) (part va pa n : Nat) (x : Writer) : s.watchWrite part va pa n x = s := by
  unfold State.watchWrite
  rw [h]
  rfl
/-- A page that is brought in changes the frames of its core. -/
theorem pinPage_only {s t : State} {core sp page : Nat} (h : s.pinPage core sp page = some t) : ∃ cs, t = { s with cores := cs } := by
  unfold State.pinPage at h
  split at h
  · obtain rfl := Option.some.inj h
    exact ⟨_, rfl⟩
  · obtain ⟨fs, -, rfl⟩ := Option.map_eq_some_iff.1 h
    exact ⟨_, rfl⟩
theorem pinPages_only {s t : State} {core sp off n : Nat} (h : s.pinPages core sp off n = some t) : ∃ cs, t = { s with cores := cs } := by
  unfold State.pinPages at h
  split at h
  · cases h
  next u hu =>
    obtain ⟨cs, rfl⟩ := pinPage_only hu
    split at h
    · obtain rfl := Option.some.inj h
      exact ⟨_, rfl⟩
    · obtain ⟨cs', rfl⟩ := pinPage_only h
      exact ⟨_, rfl⟩
/-- Bytes that lie on one side of the system page's border go to one run of memory. -/
theorem tileWr_mem (s : State) (core sp : Nat) {off : Nat} {bs : List Byte} (h : off < 0x3F000 → off + bs.length ≤ 0x3F000) :
    (s.tileWr core sp off bs).mem = memWrite s.mem (tilePa core sp off) bs := by
  unfold State.tileWr
  rw [if_neg (by omega)]
  rfl

/-! ### Tile memory (spec 09 R251, R253; 12 R322; 16 R422) -/

section
variable {s : State} {o : Op} {unit va core sp off : Nat} {kind : WKind} {bs : List Byte}

/-- A read of tile memory gives its bytes. -/
theorem engRead_tile {n : Nat} (hp : s.engPlace o va n = .ok (.tile core sp off)) (hf : (s.pinPages core sp off n).isSome = true) :
    ∃ s1, s.engRead o va n = .ok s1 (s.tileRd core sp off n) (s.tilePoison core sp off n).isSome ∧ s1.mem = s.mem := by
  obtain ⟨t, ht⟩ := Option.isSome_iff_exists.1 hf
  obtain ⟨cs, rfl⟩ := pinPages_only ht
  refine ⟨State.moved { s with cores := cs } o (some (core / 8)) o.port n, ?_, (moved_kept ..).1⟩
  unfold State.engRead
  rw [hp]
  dsimp only
  rw [ht]
  rfl

variable (hp : s.engPlace o va bs.length = .ok (.tile core sp off))
include hp

/-- A core that is switched out takes a write later. -/
theorem engWrite_out (hr : (s.core core).run = .out) : s.engWrite o unit kind va bs false = .busy none := by
  unfold State.engWrite
  dsimp only
  rw [hp]
  dsimp only
  rw [hr]

variable (hr : (s.core core).run = .inn)
include hr

/-- The first sealed byte refuses a write. -/
theorem engWrite_sealed {i : Nat} (hi : i < bs.length) (hs : s.sealedAt core sp (off + i) = true)
    (hfirst : ∀ j < i, s.sealedAt core sp (off + j) = false) :
    s.engWrite o unit kind va bs false = .fail s 0x07 ⟨0x14, 0, BitVec.ofNat 64 (va + i)⟩ := by
  have hfind : ((List.range bs.length).find? fun i => s.sealedAt core sp (off + i)) = some i :=
    List.find?_range_eq_some.2 ⟨hs, List.mem_range.2 hi, fun j hj => by simp [hfirst j hj]⟩
  unfold State.engWrite
  dsimp only
  rw [hp]
  dsimp only
  rw [hr]
  dsimp only
  rw [hfind]
  rfl
/-- Bytes that nothing seals are written. -/
theorem engWrite_tile (hb : off < 0x3F000 → off + bs.length ≤ 0x3F000) (hf : (s.pinPages core sp off bs.length).isSome = true)
    (hs : ∀ i < bs.length, s.sealedAt core sp (off + i) = false) :
    ∃ s1, s.engWrite o unit kind va bs false = .ok s1 [] false ∧ s1.mem = memWrite s.mem (tilePa core sp off) bs := by
  obtain ⟨t, ht⟩ := Option.isSome_iff_exists.1 hf
  obtain ⟨cs, rfl⟩ := pinPages_only ht
  have hfind : ((List.range bs.length).find? fun i => s.sealedAt core sp (off + i)) = none :=
    List.find?_eq_none.2 fun i hi => by simp [hs i (List.mem_range.1 hi)]
  refine ⟨((State.moved { s with cores := cs } o (unitPort unit) (some (core / 8)) bs.length).tileWr core sp off bs), ?_, ?_⟩
  · unfold State.engWrite
    dsimp only
    rw [hp]
    dsimp only
    rw [hr]
    dsimp only
    rw [hfind]
    dsimp only
    rw [ht]
    rfl
  · rw [tileWr_mem _ core sp hb, (moved_kept ..).1]

end

/-! ### The global space of this module (spec 12 R325, R330, R334, R337) -/

section
variable {s : State} {o : Op} {unit va : Nat} {kind : WKind} {bs : List Byte} {e : XlEntry}

theorem xlate_hit {pn : Nat} (h : s.xlHit pn va = some e) : s.xlate pn va = (s, .ok e) := by
  unfold State.xlate
  rw [h]
/-- Where no region stands, engines read and write. -/
theorem regionCheck_none_engineRead (rank : BitVec 24) : regionCheck none rank .engineRead = none := rfl
theorem regionCheck_none_engineWrite (rank : BitVec 24) : regionCheck none rank .engineWrite = none := rfl
/-- A unit other than the launch unit has its way to a home granted. -/
theorem luOpen_of_own (home : Nat) (h : o.prof = none) : s.luOpen o home = true := by
  simp [State.luOpen, h]

/-- A read of the global space gives the bytes at the translated address. -/
theorem engRead_global {n : Nat} (hp : s.engPlace o va n = .ok .global) (hx : s.xlHit o.part va = some e) (he : e.mod = s.modid)
    (hm : s.movingAt (s.redirect (e.pa va)) = none) (hr : s.region o.part va = none) (hl : o.prof = none) (ha : s.asked o o.unit va n false [] = none) :
    ∃ s1 bad, s.engRead o va n = .ok s1 (memRead s.mem (s.redirect (e.pa va)) n) bad ∧ s1.mem = s.mem := by
  refine ⟨(s.moved o (some (homeOf (s.redirect (e.pa va)) / 8)) o.port n).luMoved o (homeOf (s.redirect (e.pa va))) n, s.poisonedAt (s.redirect (e.pa va)) n, ?_,
    (luMoved_mem ..).trans (moved_kept ..).1⟩
  unfold State.engRead
  rw [hp]
  dsimp only
  rw [xlate_hit hx]
  dsimp only
  rw [hr, regionCheck_none_engineRead]
  dsimp only
  rw [if_neg (not_not.2 he), if_neg (by simp [luOpen_of_own _ hl]), if_neg (by simp [hm, ha])]
  rfl
/-- A region that does not permit engine writes refuses one. -/
theorem engWrite_refused {sub : BitVec 8} (hp : s.engPlace o va bs.length = .ok .global) (hx : s.xlHit o.part va = some e)
    (hr : regionCheck (s.region o.part va) o.rank .engineWrite = some sub) : s.engWrite o unit kind va bs false = .fail s 0x01 (regionTrap sub va) := by
  unfold State.engWrite
  dsimp only
  rw [hp]
  dsimp only
  rw [xlate_hit hx]
  dsimp only
  rw [hr]
  rfl
/-- A write of the global space changes the bytes at the translated address. -/
theorem engWrite_global (hp : s.engPlace o va bs.length = .ok .global) (hx : s.xlHit o.part va = some e) (he : e.mod = s.modid)
    (hm : s.movingAt (s.redirect (e.pa va)) = none) (hr : s.region o.part va = none) (ha : s.asked o unit va bs.length true bs = none)
    (hw : s.watches = []) :
    ∃ s1, s.engWrite o unit kind va bs false = .ok s1 [] false ∧ s1.mem = memWrite s.mem (s.redirect (e.pa va)) bs := by
  obtain ⟨hmem, hwatch⟩ := moved_kept s o (unitPort unit) (some (homeOf (s.redirect (e.pa va)) / 8)) bs.length
  refine ⟨(s.moved o (unitPort unit) (some (homeOf (s.redirect (e.pa va)) / 8)) bs.length).store (s.redirect (e.pa va)) bs, ?_, congrArg (memWrite · _ bs) hmem⟩
  unfold State.engWrite
  dsimp only
  rw [hp]
  dsimp only
  rw [xlate_hit hx]
  dsimp only
  rw [hr, regionCheck_none_engineWrite]
  dsimp only
  rw [if_neg (not_not.2 he), if_neg (by simp [hm, ha])]
  exact congrArg (ERes.ok · [] false) (watchWrite_unwatched (show (State.store _ _ _).watches = [] from hwatch.trans hw) ..)

end

/-- Settles O52, by the place of the piece and then by what it meets there. -/
theorem engineAccesses : Obligations.EngineAccesses := by
  intro s o unit va kind bs _ n
  refine ⟨fun core sp off hp hb hf => ⟨engRead_tile hp hf, fun hr hs => engWrite_tile hp hr hb hf hs, fun i hi hr hs hfirst => engWrite_sealed hp hr hi hs hfirst,
    engWrite_out hp⟩, fun e hp hx he hm => ⟨fun hr hl ha => engRead_global hp hx he hm hr hl ha, fun sub hr => ⟨s, engWrite_refused hp hx hr, rfl⟩,
    fun hr ha hw => engWrite_global hp hx he hm hr ha hw⟩⟩

end Sys2Proof.Machine
end

section
/-! PROOFS. Walks (spec 09 R254, R255): how one starts, goes on to its next line and ends. -/

namespace Sys2Proof.Machine

/-! ### The end of a walk (spec 09 R254) -/

/-- A walk that has not ended ends. -/
theorem endWalk_ends {s : State} {n : Nat} {o : Op} (core : Nat) (ho : s.op n = some o) (hp : o.ph ≠ .ended) (st : TokSt) (reason : Nat) (t : Trap) (own : Bool) :
    Ends s (s.endWalk core n st reason t own) n st := by
  unfold State.endWalk
  extract_lets w s1 s2 s3 s4
  have h3 : Ends s s3 n st := (endOp_ends (s := s2) ho hp ..).after (List.prefix_refl _)
  have h4 : Ends s s4 n st := h3.trans (ackAll_ops ..)
  split
  · exact h4.trans (due_ops ..)
  · exact h4

/-! ### WALK_START (spec 09 R245, R254) -/

/-- Walk n of a core runs, with nothing read yet. -/
def State.begun (s : State) (core n : Nat) (queue : List Nat) (o : Op) : State :=
  (s.onCore core fun c => { c with iw := { ({} : Walker) with queue := queue, run := some n } }).setOp n { o with ph := .started }

section
variable {s : State} {n : Nat} {o : Op}

/-- A walk that has begun ends as others do. -/
theorem begun_ends (s0 : State) (core : Nat) (queue : List Nat) (o : Op) (ha : s0.agenda <+: s.agenda) (st : TokSt) (reason : Nat) (t : Trap) (own : Bool) :
    Ends s0 ((s.begun core n queue o).endWalk core n st reason t own) n st :=
  (endWalk_ends (o := { o with ph := .started }) core (State.op_setOp_same ..) nofun st reason t own).after ha

variable (ha : s.occ.a = n) (ho : s.op n = some o) (hrun : (s.core o.core).iw.run = none) (hq : (s.core o.core).iw.queue.head? = some n) (hr : o.ready = true)
include ha ho hr

/-- A walk with a failed input never starts. -/
theorem walkStart_input (hi : o.inputFailed = true) : ∃ t, exec .walkStart s = .next t ∧ Ends s t n .cancelled := by
  subst ha
  have hp := ph_of_ready hr
  refine ⟨_, ?_, (endOp_ends (s := s.onCore o.core fun c => { c with iw := { (s.core o.core).iw with
    queue := (s.core o.core).iw.queue.filter (· != s.occ.a) } }) ho hp .cancelled rsnInput ⟨0, 0, 0⟩ 0 0 false).after (List.prefix_refl _)⟩
  change execWalkStart s = _
  unfold execWalkStart
  rw [ho]
  dsimp only
  rw [if_pos (by simp [hr, hi])]

include hrun hq

/-- The walk at the head of the queue starts, where none runs. -/
theorem walkStart_head (hi : o.inputFailed = false) : exec .walkStart s = .next (
    if o.nidx = 0 then
      if o.slotsOver (s.walkRow o) then (s.begun o.core n (s.core o.core).iw.queue o).endWalk o.core n .failed rsnBadcmd ⟨0, 0, 40⟩ false
      else (s.begun o.core n (s.core o.core).iw.queue o).endWalk o.core n .done 0 ⟨0, 0, 0⟩ false
    else if o.walkEtd % 64 ≠ 0 then
      (s.begun o.core n (s.core o.core).iw.queue o).endWalk o.core n .failed rsnFault ⟨0x04, 0, BitVec.ofNat 64 o.walkEtd⟩ false
    else if s.reachOpen o o.walkEtd 1 = false then s.later .walkStart n
    else match s.engBytes o o.walkEtd 64 with
    | .busy q => (s.askEng q).later .walkStart n
    | .fail s1 r t => (s1.begun o.core n (s.core o.core).iw.queue o).endWalk o.core n .failed r t false
    | .ok s1 bs _ =>
      if Etd.rejected (leNat bs) false then
        (s1.begun o.core n (s.core o.core).iw.queue o).endWalk o.core n .failed rsnFault (regionTrap 0x04 o.walkEtd) false
      else if o.slotsOver (Etd.len (leNat bs)) then (s1.begun o.core n (s.core o.core).iw.queue o).endWalk o.core n .failed rsnBadcmd ⟨0, 0, 40⟩ false
      else ((s1.begun o.core n (s.core o.core).iw.queue o).onCore o.core fun c => { c with iw := { c.iw with desc := leNat bs } }).due .iwLineRun o.core) := by
  subst ha
  obtain ⟨r, hr'⟩ := List.head?_eq_some_iff.1 hq
  change execWalkStart s = _
  unfold execWalkStart
  rw [ho]
  dsimp only
  rw [if_neg (by simp [hi]), if_neg (by simp [hrun]), hr', List.find?_cons_of_pos (by simp [ho, hr, hi])]
  dsimp only
  rw [ho]
  dsimp only
  split
  · split <;> rfl
  split
  · rfl
  split
  · rfl
  cases s.engBytes o o.walkEtd 64 with
  | busy q => rfl
  | fail s1 r t => rfl
  | ok s1 bs bad =>
    dsimp only
    split
    · rfl
    · split <;> rfl

/-- A walk of no indices ends at once, FAILED where its slots overrun their buffer. -/
theorem walkStart_empty (hi : o.inputFailed = false) (h0 : o.nidx = 0) :
    ∃ t, exec .walkStart s = .next t ∧ Ends s t n (if o.slotsOver (s.walkRow o) then .failed else .done) := by
  rw [walkStart_head ha ho hrun hq hr hi, if_pos h0]
  refine ⟨_, rfl, ?_⟩
  split <;> exact begun_ends s _ _ o (List.prefix_refl _) ..
/-- A walk whose ETD stands at no multiple of 64 fails. -/
theorem walkStart_misaligned (hi : o.inputFailed = false) (h0 : 0 < o.nidx) (he : o.walkEtd % 64 ≠ 0) :
    ∃ t, exec .walkStart s = .next t ∧ Ends s t n .failed := by
  rw [walkStart_head ha ho hrun hq hr hi, if_neg (by omega), if_pos he]
  exact ⟨_, rfl, begun_ends s _ _ o (List.prefix_refl _) ..⟩
/-- A walk whose ETD is read and accepted goes on to its first line. -/
theorem walkStart_begins (hi : o.inputFailed = false) (h0 : 0 < o.nidx) (he : o.walkEtd % 64 = 0) (hreach : s.reachOpen o o.walkEtd 1 = true) {s1 : State}
    {bs : List Byte} {bad : Bool} (hb : s.engBytes o o.walkEtd 64 = .ok s1 bs bad) (hd : Etd.rejected (leNat bs) false = false)
    (hs : o.slotsOver (Etd.len (leNat bs)) = false) :
    ∃ t, exec .walkStart s = .next t ∧ t.mem = s1.mem ∧ (t.core o.core).iw.run = some n ∧ (t.core o.core).iw.desc = leNat bs ∧ (t.core o.core).iw.idx = 0 ∧
      s1.dues t .iwLineRun o.core := by
  rw [walkStart_head ha ho hrun hq hr hi, if_neg (by omega), if_neg (not_not.2 he), if_neg (by simp [hreach]), hb]
  dsimp only
  rw [if_neg (by simp [hd]), if_neg (by simp [hs])]
  have hcore : ((s1.begun o.core n (s.core o.core).iw.queue o).core o.core).iw = { ({} : Walker) with queue := (s.core o.core).iw.queue, run := some n } :=
    congrArg Core.iw (State.core_setCore_same ..)
  obtain ⟨u, hu⟩ : ∃ u, u = (s1.begun o.core n (s.core o.core).iw.queue o).onCore o.core fun c => { c with iw := { c.iw with desc := leNat bs } } := ⟨_, rfl⟩
  have hiw : (u.core o.core).iw = { ({} : Walker) with queue := (s.core o.core).iw.queue, run := some n, desc := leNat bs } := by
    rw [hu, State.onCore, State.core_setCore_same]
    dsimp only
    rw [hcore]
  rw [← hu]
  refine ⟨_, rfl, by rw [hu]; rfl, congrArg Walker.run hiw, congrArg Walker.desc hiw, congrArg Walker.idx hiw, dues_due (by rw [hu]; exact List.prefix_refl _) ..⟩

end

/-! ### IW_LINE_RUN (spec 09 R255, R260) -/

section
variable {s : State} {n core : Nat} {o : Op} (ha : s.occ.a = core) (hw : (s.core core).iw.run = some n) (hl : (s.core core).iw.inLine = false) (ho : s.op n = some o)
include ha hw hl ho

/-- A walk that was killed ends CANCELLED. -/
theorem iwLineRun_killed (hk : o.killed = true) : exec .iwLineRun s = .next (s.endWalk core n .cancelled rsnPruned ⟨0, 0, 0⟩ true) := by
  subst ha
  change execIwLineRun s = _
  unfold execIwLineRun
  dsimp only
  rw [hw]
  dsimp only
  rw [ho]
  dsimp only
  rw [if_neg (by simp [hl]), if_pos hk]

variable (hk : o.killed = false)
include hk

/-- A walk whose kernel has failed ends FAILED once no row is on its way. -/
theorem iwLineRun_failed {f : Nat × Trap} (hf : (s.core core).iw.failed = some f) (hp : (s.core core).iw.pending = []) :
    exec .iwLineRun s = .next (s.endWalk core n .failed f.1 f.2 false) := by
  subst ha
  change execIwLineRun s = _
  unfold execIwLineRun
  dsimp only
  rw [hw]
  dsimp only
  rw [ho]
  dsimp only
  rw [if_neg (by simp [hl]), if_neg (by simp [hk]), hf]
  dsimp only
  rw [if_pos (by simp [hp])]

variable (hf : (s.core core).iw.failed = none)
include hf

/-- After its last line a walk ends DONE once no row is on its way. -/
theorem iwLineRun_done (hp : (s.core core).iw.pending = []) (hi : o.nidx ≤ (s.core core).iw.idx) :
    exec .iwLineRun s = .next (s.endWalk core n .done 0 ⟨0, 0, 0⟩ false) := by
  subst ha
  change execIwLineRun s = _
  unfold execIwLineRun
  dsimp only
  rw [hw]
  dsimp only
  rw [ho]
  dsimp only
  rw [if_neg (by simp [hl]), if_neg (by simp [hk]), hf]
  dsimp only
  rw [if_pos hi, if_pos (by simp [hp])]
/-- The ids of the next line are read, and the kernel starts. -/
theorem iwLineRun_line {k a : Nat} {s1 : State} {bs : List Byte} {bad : Bool} (hi : (s.core core).iw.idx < o.nidx)
    (hn : min (64 / (o.idWidth / 8)) (o.nidx - (s.core core).iw.idx) = k) (hva : o.field 1 0 48 + (s.core core).iw.idx * (o.idWidth / 8) = a)
    (hr : s.reachOpen o a 1 = true) (hb : s.engBytes o a (k * (o.idWidth / 8)) = .ok s1 bs bad) :
    exec .iwLineRun s = .next ((s1.onCore core fun c => { c with iw := { c.iw with line := bs, lineN := k, inLine := true } }).setCtx core 16
      (kernelCtx o (s.core core).iw.idx k)) := by
  subst ha
  change execIwLineRun s = _
  unfold execIwLineRun
  dsimp only
  rw [hw]
  dsimp only
  rw [ho]
  dsimp only
  rw [if_neg (by simp [hl]), if_neg (by simp [hk]), hf]
  dsimp only
  rw [if_neg (by omega), hn, hva, if_neg (by simp [hr]), hb]

end

/-- What a kernel finds in its registers at the start of a line. -/
theorem kernelCtx_starts (o : Op) (idx n : Nat) : let c := kernelCtx o idx n
    c.st = .ready ∧ c.pc = BitVec.ofNat 32 (o.word 7) ∧ c.gv 0 = 0x41000 ∧ c.gv 1 = BitVec.ofNat 64 idx ∧ c.gv 2 = BitVec.ofNat 64 n ∧
      (∀ i : Fin 4, c.g[3 + i.val] = ⟨BitVec.ofNat 64 (o.word (8 + i)), false⟩) ∧ c.ctl.cur = o.scope := by
  refine ⟨rfl, rfl, rfl, rfl, rfl, fun i => ?_, rfl⟩
  match i with
  | 0 | 1 | 2 | 3 => rfl

end Sys2Proof.Machine
end

section
/-! PROOFS. Dense jobs and the completions of dense words (spec 09 R258; 10 R270 to R275, R280 to R283, R294). -/

namespace Sys2Proof.Machine

/-! ### JOB_GRANT (spec 10 R274, R275) -/

/-- A queue of one entry grants it. -/
theorem pickJob_single (last : Nat) (within : Op → Bool) (e : Nat × Nat × Op) : pickJob last within [e] = some e := by
  unfold pickJob
  by_cases h : 64 ≤ e.2.1
  · rw [List.find?_cons_of_pos (by simpa using h)]
  · have hw : (if [e].any fun e => within e.2.2 then [e].filter fun e => within e.2.2 else [e]) = [e] := by
      by_cases hi : within e.2.2 = true <;> simp [hi]
    rw [List.find?_cons_of_neg (by simpa using h), List.find?_nil]
    dsimp only
    rw [hw]
    rfl

section
variable {s : State} {die n p : Nat} {o : Op}

/-- The complex's queue with its one entry granted. -/
def State.granted (s : State) (die n : Nat) (o : Op) : State :=
  (s.setDs die { s.ds die with lastGrant := o.part, queue := [] }).setOp n { o with ph := .started }

/-- What a job of another partition left is cleared (spec 10 R275). -/
def State.cleanFor (s : State) (die : Nat) (last : Option Nat) (o : Op) : State :=
  if last = some o.part then s else (s.scrubDs die).onDs die fun d => { d with planeTy0 := .bf16, planeTy1 := .bf16 }
theorem cleanFor_same (s : State) (die : Nat) {last : Option Nat} {o : Op} (h : last = some o.part) : s.cleanFor die last o = s := if_pos h

/-- The registers of a complex that starts a job (spec 10 R275). -/
def Ds.withJob (d : Ds) (n : Nat) (o : Op) (entry : BitVec 32) : Ds :=
  { d with
    job := some n, killed := false, flags := 0, jprio := BitVec.ofNat 3 (o.field 3 0 3), desc := BitVec.ofNat 48 (o.field 2 0 48), lastPart := some o.part
    bankUse := 0, jgetWait := none, tfault := none, xfault := none, tHandling := false, pend := []
    d := Vector.replicate 32 0, a := Vector.replicate 16 {}, dpc := entry, npc := entry }

/-- A job is granted with all registers clear but the one jget names, which holds the JOB value. -/
theorem withJob_write (d : Ds) (n : Nat) (o : Op) (entry : BitVec 32) (dd : BitVec 5) :
    let e := (d.withJob n o entry).write (.d dd) (d.withJob n o entry).jobWord
    e.job = some n ∧ e.killed = false ∧ e.dpc = entry ∧ e.lastPart = some o.part ∧ e.jgetWait = none ∧ e.dv dd = e.jobWord ∧
      (∀ r, r ≠ dd → e.dv r = 0) ∧ ∀ r, e.ag r = {} := by
  refine ⟨rfl, rfl, rfl, rfl, rfl, Vector.getElem_set_self .., fun r hr => ?_, fun r => Vector.getElem_replicate ..⟩
  have hne : dd.toNat ≠ r.toNat := fun h => hr (BitVec.eq_of_toNat_eq h).symm
  simp [Ds.dv, Ds.write, Ds.withJob, Vector.getElem_set_ne, hne]

section
variable (hq : (s.ds die).queue = [(n, p)]) (ho : s.op n = some o) (hr : o.ready = true)
include hq ho hr

/-- The one entry of the queue can be granted. -/
theorem readyJobs_single :
    (((s.ds die).queue.filterMap fun e => (s.op e.1).map fun o => (e.1, e.2, o)).filter fun e => e.2.2.ready) = [(n, p, o)] := by
  simp [hq, ho, hr]

variable (ha : s.occ.a = die)
include ha

/-- A job with a failed input is cancelled. -/
theorem jobGrant_input (hi : o.inputFailed = true) : ∃ t, exec .jobGrant s = .next t ∧ Ends s t n .cancelled := by
  subst ha
  have he : Ends s _ n .cancelled := (endOp_ends (s := s.onDs s.occ.a fun d => { d with queue := d.queue.filter fun x => x.1 != n }) ho (ph_of_ready hr)
    .cancelled rsnInput ⟨0, 0, 0⟩ 0 0 false).after (List.prefix_refl _)
  refine ⟨_, ?_, he.trans (due_ops _ .jobGrant s.occ.a 0 0)⟩
  change execJobGrant s = _
  unfold execJobGrant
  dsimp only
  rw [readyJobs_single hq ho hr, List.find?_cons_of_pos (by exact hi)]

/-- A job whose descriptor is read and accepted is granted to the complex that waits. -/
theorem jobGrant_starts {dd : BitVec 5} {s1 : State} {bs : List Byte} {bad : Bool} (hj : (s.ds die).jgetWait = some dd) (hi : o.inputFailed = false)
    (hout : (s.ds die).outst = []) (hpend : (s.ds die).pend = []) (hb : (s.granted die n o).engBytes o (o.field 2 0 48) 8 = .ok s1 bs bad)
    (hh : ¬(leNat bs / 2 ^ 32 ≠ 0 ∨ leNat bs % 2 ^ 32 % 16 ≠ 0 ∨ leNat bs % 2 ^ 32 < 0x400 ∨ 0xFFFFFF00 ≤ leNat bs % 2 ^ 32 ∨
      (s1.part o.part).codeLen < leNat bs % 2 ^ 32 + 16)) :
    let t := s1.cleanFor die (s.ds die).lastPart o
    let dn := (t.ds die).withJob n o (BitVec.ofNat 32 (leNat bs % 2 ^ 32))
    exec .jobGrant s = .next (t.setDs die (dn.write (.d dd) dn.jobWord)) := by
  subst ha
  have hqueue : (((s.ds s.occ.a).queue.filter fun x => x.1 != n).map fun x => if [(n, p, o)].any fun e => e.1 == x.1 then (x.1, x.2 + 1) else x) = [] := by
    rw [hq, List.filter_cons_of_neg (by simp), List.filter_nil, List.map_nil]
  change execJobGrant s = _
  unfold execJobGrant
  dsimp only
  rw [readyJobs_single hq ho hr, List.find?_cons_of_neg (by simpa using hi), List.find?_nil]
  dsimp only
  rw [hj, pickJob_single]
  dsimp only
  rw [if_neg (by simp [hout, hpend]), State.onDs, hqueue]
  rw [State.granted] at hb
  rw [hb]
  dsimp only
  rw [if_neg hh]
  rfl

end
end

/-! ### DS_RESULT_WRITE (spec 10 R270) -/

/-- What a d register holds after a write. -/
theorem write_dv (d : Ds) (x : DDest) (v : Word) (r : BitVec 5) : (d.write x v).dv r = if x = .d r then v else d.dv r := by
  cases x with
  | d n => simp [Ds.write, Ds.dv, Vector.getElem_set, BitVec.toNat_inj]
  | base n => simp [Ds.write, Ds.dv]
  | stride n => simp [Ds.write, Ds.dv]
  | count n => simp [Ds.write, Ds.dv]
/-- What a generator holds after a write. -/
theorem write_ag (d : Ds) (x : DDest) (v : Word) (r : BitVec 4) : (d.write x v).ag r =
    (if x = .base r then { d.ag r with base := v.truncate 48 } else if x = .stride r then { d.ag r with stride := v.truncate 32 }
     else if x = .count r then { d.ag r with count := v.truncate 32 } else d.ag r) := by
  cases x with
  | d n => simp [Ds.write, Ds.ag]
  | base n => by_cases hn : n = r <;> simp [Ds.write, Ds.ag, BitVec.toNat_inj, hn]
  | stride n => by_cases hn : n = r <;> simp [Ds.write, Ds.ag, BitVec.toNat_inj, hn]
  | count n => by_cases hn : n = r <;> simp [Ds.write, Ds.ag, BitVec.toNat_inj, hn]
/-- A result that lands is written and no longer on its way. -/
theorem landAt_eq {d : Ds} {i : Nat} {p : DPend} (h : d.pend[i]? = some p) : d.landAt i = { (d.write p.dest p.val) with pend := d.pend.eraseIdx i } := by
  rw [Ds.landAt, h]

/-! ### DS_WORD_COMPLETE (spec 10 R271, R272) -/

theorem onDs_ds (s : State) (die : Nat) (f : Ds → Ds) : (s.onDs die f).ds die = f (s.ds die) := State.ds_setDs_same ..

/-- Which words a complex has outstanding is as it was. -/
def OutstKept (die : Nat) (s t : State) : Prop := (t.ds die).outst = (s.ds die).outst

theorem OutstKept.foldl {die : Nat} {α : Type} {f : State → α → State} (hf : ∀ s x, OutstKept die s (f s x)) (l : List α) (s : State) :
    OutstKept die s (l.foldl f s) := by
  induction l generalizing s with
  | nil => rfl
  | cons x r ih => exact (ih _).trans (hf s x)
theorem onDs_outst {die : Nat} (s : State) {f : Ds → Ds} (hf : (f (s.ds die)).outst = (s.ds die).outst) : OutstKept die s (s.onDs die f) := by
  rw [OutstKept, onDs_ds, hf]
theorem loadPlane_outst (s : State) (die : Nat) (g : AGen) (tr : Bool) : OutstKept die s (s.loadPlane die g tr) := by
  unfold State.loadPlane
  extract_lets d ty w n elem bs s1
  refine onDs_outst (die := die) s1 ?_
  split <;> rfl
theorem dbMove_outst (s : State) (die n a b : Nat) : OutstKept die s (dbMove s die n a b) := by
  induction n generalizing s a b with
  | zero => rfl
  | succ n ih => exact ih ..
theorem memCopies_outst (s : State) (die : Nat) (l : List Nat) (to_ from_ : Nat → Nat) (n : Nat) :
    OutstKept die s (l.foldl (fun s k => s.memCopy (to_ k) (from_ k) n) s) := by
  refine .foldl (fun t k => ?_) _ _
  rfl
theorem dFlags_outst (s t : State) (die : Nat) (f : Fl) (h : OutstKept die s t) : OutstKept die s (t.dFlags die f) := (onDs_outst t rfl).trans h
/-- No word changes which words are outstanding. -/
theorem dApply_outst (s : State) (die : Nat) (w : DWord) : OutstKept die s (s.dApply die w) := by
  obtain ⟨no, op, a, b, z, x, y, v, reads, writes, rows, path, occ, rem, xfer, done⟩ := w
  cases op with
  | dbcpy => exact .foldl (fun _ _ => dbMove_outst ..) _ _
  | mlw => exact loadPlane_outst ..
  | mlwt => exact loadPlane_outst ..
  | mswap => exact onDs_outst _ rfl
  | mst | mstz | vbias | vscale | vrelu | vclamp | vgelu => exact dFlags_outst s _ _ _ rfl
  | mdrain =>
    refine OutstKept.foldl (fun t i => ?_) _ _
    exact dFlags_outst t _ _ _ rfl
  | mzero =>
    refine OutstKept.foldl (fun t k => ?_) _ _
    rfl
  | mpark => exact (onDs_outst _ rfl).trans (memCopies_outst s die ..)
  | munpark =>
    refine (onDs_outst _ ?_).trans (memCopies_outst s die ..)
    dsimp only
    split <;> rfl
  | _ => rfl

section
variable {s : State} {w : DWord}

/-- A word that completes has its effect and leaves the scoreboard. -/
theorem dsWordComplete_eq {die : Nat} (ha : s.occ.a = die) (hw : (s.ds die).outst.find? (fun w => w.no == s.occ.b) = some w) :
    exec .dsWordComplete s = .next ((s.dApply die w).dRemove die w.no) := by
  subst ha
  change execDsWordComplete s = _
  unfold execDsWordComplete State.dComplete
  rw [hw]

theorem wrB_ds (s : State) (a : Nat) (bs : List Byte) (die : Nat) : (s.wrB a bs).ds die = s.ds die := rfl
theorem dRemove_ds (s : State) (die no : Nat) : (s.dRemove die no).ds die = { s.ds die with outst := (s.ds die).outst.filter fun w => w.no != no } :=
  onDs_ds ..
/-- A word that leaves the scoreboard stands there no more, and none joins. -/
theorem mem_dRemove {s : State} {die no : Nat} {y : DWord} : y ∈ ((s.dRemove die no).ds die).outst ↔ y ∈ (s.ds die).outst ∧ y.no ≠ no := by
  rw [dRemove_ds, List.mem_filter, bne_iff_ne]

/-- The words outstanding after a completion. -/
theorem mem_completed {die : Nat} {y : DWord} : y ∈ (((s.dApply die w).dRemove die w.no).ds die).outst ↔ y ∈ (s.ds die).outst ∧ y.no ≠ w.no := by
  rw [mem_dRemove, dApply_outst]

theorem dApply_std {x : BitVec 5} {y : BitVec 4} (die : Nat) (h : w.op = .std x y) :
    (s.dApply die w).mem = memWrite s.mem (dbPa die w.a.addr) (leBytes 8 w.v.toNat) := by
  rw [State.dApply, h]
  rfl
theorem dApply_mswap (die : Nat) (h : w.op = .mswap) : s.dApply die w = s.onDs die fun d => { d with active := !d.active } := by
  rw [State.dApply, h]
/-- A copy of one row. -/
theorem dApply_dbcpy {x y : BitVec 4} (die : Nat) (h : w.op = .dbcpy x y) (hc : w.b.count = 1) :
    s.dApply die w = dbMove s die w.a.count.toNat (w.a.row 0) (w.b.row 0) := by
  rw [State.dApply, h, hc]
  rfl

end

/-! ### DS_TRANSFER_DONE, DS_TRANSFER_FAULT (spec 10 R282, R283) -/

section
variable {s : State} {die : Nat} {w : DWord} {o : Op} {x y : BitVec 4}

/-- A line that one piece fills, or that the row after it does not share, is moved by that piece alone. -/
theorem xferLine_single {s s1 : State} {bs : List Byte} {bad : Bool} {row off va k : Nat} (hl : 0 < w.a.count.toNat) (hrow : w.done / w.a.count.toNat = row)
    (hoff : w.done % w.a.count.toNat = off) (hva : w.b.mrow row + off = va) (hk : min (64 - va % 64) (w.a.count.toNat - off) = k)
    (hc : row < w.b.count.toNat) (hp : s.xferPiece die w o row off k = .ok s1 bs bad)
    (halone : off + k < w.a.count.toNat ∨ w.b.count.toNat ≤ row + 1 ∨ w.b.mrow (row + 1) / 64 ≠ va / 64) :
    s.xferLine die w o (va / 64) 2 w.done = (.ok s1 [] false, w.done + k) := by
  have hlt : off < w.a.count.toNat := hoff ▸ Nat.mod_lt _ hl
  have hdone : w.done = w.a.count.toNat * row + off := by rw [← hrow, ← hoff, Nat.div_add_mod]
  have hstop : w.b.count.toNat ≤ (w.done + k) / w.a.count.toNat ∨
      (w.b.mrow ((w.done + k) / w.a.count.toNat) + (w.done + k) % w.a.count.toNat) / 64 ≠ va / 64 := by
    rw [hdone, Nat.add_assoc, Nat.mul_add_div hl, Nat.mul_add_mod]
    by_cases hin : off + k < w.a.count.toNat
    · rw [Nat.div_eq_of_lt hin, Nat.mod_eq_of_lt hin, Nat.add_zero]
      right
      omega
    · rw [show off + k = w.a.count.toNat by omega, Nat.div_self hl, Nat.mod_self]
      exact halone.resolve_left hin
  unfold State.xferLine
  dsimp only
  rw [hrow, hoff, hva, hk, if_neg (by omega), hp]
  dsimp only
  unfold State.xferLine
  dsimp only
  rw [if_pos hstop]
/-- A piece that fails ends its line. -/
theorem xferLine_fails {s s1 : State} {r : Nat} {u : Trap} {row off va k : Nat} (hrow : w.done / w.a.count.toNat = row)
    (hoff : w.done % w.a.count.toNat = off) (hva : w.b.mrow row + off = va) (hk : min (64 - va % 64) (w.a.count.toNat - off) = k)
    (hc : row < w.b.count.toNat) (hp : s.xferPiece die w o row off k = .fail s1 r u) :
    s.xferLine die w o (va / 64) 2 w.done = (.fail s1 r u, w.done) := by
  unfold State.xferLine
  dsimp only
  rw [hrow, hoff, hva, hk, if_neg (by omega), hp]
/-- A piece of a transfer into the dense buffer writes what it read. -/
theorem xferPiece_reads {s1 : State} {bs : List Byte} {row off k : Nat} (hop : w.op = .xin x y) (hk : (s.ds die).killed = false)
    (hb : s.engRead { o with system := false } (w.b.mrow row + off) k = .ok s1 bs false) :
    s.xferPiece die w o row off k = .ok (s1.wrB (dbPa die (w.a.row row + off)) bs) [] false := by
  unfold State.xferPiece
  rw [hop]
  dsimp only
  rw [if_neg (by simp [hk]), hb]
  exact if_neg nofun
theorem xferPiece_fails {s1 : State} {row off k r : Nat} {u : Trap} (hop : w.op = .xin x y) (hk : (s.ds die).killed = false)
    (hb : s.engRead { o with system := false } (w.b.mrow row + off) k = .fail s1 r u) : s.xferPiece die w o row off k = .fail s1 r u := by
  unfold State.xferPiece
  rw [hop]
  dsimp only
  rw [if_neg (by simp [hk]), hb]

variable {n row off va k : Nat} (ha : s.occ.a = die) (hw : (s.ds die).outst.find? (fun w => w.no == s.occ.b) = some w) (hop : w.op = .xin x y)
  (hj : (s.ds die).job = some n) (ho : s.op n = some o)
include ha hw hop hj ho

/-- A transfer whose rows have all moved is complete. -/
theorem dsTransferDone_last (hc : w.b.count.toNat ≤ w.done / w.a.count.toNat) : exec .dsTransferDone s = .next (s.dRemove die w.no) := by
  subst ha
  change execDsTransferDone s = _
  unfold execDsTransferDone
  dsimp only
  rw [hw, hj, Option.bind_some, ho]
  dsimp only
  rw [if_pos hc, hop]

variable (hrow : w.done / w.a.count.toNat = row) (hoff : w.done % w.a.count.toNat = off) (hva : w.b.mrow row + off = va) (hc : row < w.b.count.toNat)
  (hr : s.reachOpen o va 1 = true)
include hrow hoff hva hc hr

/-- The next line of a transfer moves. -/
theorem dsTransferDone_moves {s1 : State} {bs : List Byte} {bad : Bool} {done : Nat} (hx : s.xferLine die w o (va / 64) 2 w.done = (.ok s1 bs bad, done)) :
    exec .dsTransferDone s = .next ((s1.onDs die fun d => { d with outst := d.outst.map fun x => if x.no = w.no then { x with done := done } else x }).due
      .dsTransferDone die w.no) := by
  subst ha
  change execDsTransferDone s = _
  unfold execDsTransferDone
  dsimp only
  rw [hw, hj, Option.bind_some, ho]
  dsimp only
  rw [hrow, hoff, hva, if_neg (by omega), hop]
  dsimp only
  rw [if_neg (by simp [hr]), hx]
/-- A transfer that faults stops, and its fault waits for the next bundle boundary. -/
theorem dsTransferDone_faults {s1 : State} {r done : Nat} {u : Trap} (hx : s.xferLine die w o (va / 64) 2 w.done = (.fail s1 r u, done)) :
    exec .dsTransferDone s = .next (((State.dRemove { s with reqs := s1.reqs, nextNo := s1.nextNo } die w.no).onDs die fun d =>
      { d with xfault := if d.xfault.isNone then some (if r = rsnLink then ⟨0x50, 0x0B, BitVec.ofNat 64 va⟩ else u) else d.xfault }).due
        .dsTransferFault die) := by
  subst ha
  change execDsTransferDone s = _
  unfold execDsTransferDone
  dsimp only
  rw [hw, hj, Option.bind_some, ho]
  dsimp only
  rw [hrow, hoff, hva, if_neg (by omega), hop]
  dsimp only
  rw [if_neg (by simp [hr]), hx]

end

/-- The word of a transfer that has moved a line stands with what it has moved. -/
theorem mem_moved {s : State} {die done : Nat} {w : DWord} (h : w ∈ (s.ds die).outst) :
    ∃ y ∈ ((s.onDs die fun d => { d with outst := d.outst.map fun x => if x.no = w.no then { x with done := done } else x }).ds die).outst,
      y.no = w.no ∧ y.done = done := by
  refine ⟨{ w with done := done }, ?_, rfl, rfl⟩
  rw [onDs_ds]
  exact List.mem_map.2 ⟨w, h, if_pos rfl⟩
/-- The fault of a transfer that has stopped stands where no other waits. -/
theorem stopped_xfault {s : State} {die no : Nat} {u : Trap} (h : (s.ds die).xfault = none) :
    (((s.dRemove die no).onDs die fun d => { d with xfault := if d.xfault.isNone then some u else d.xfault }).ds die).xfault = some u := by
  rw [onDs_ds, dRemove_ds]
  dsimp only
  rw [h]
  rfl

/-- A fault of a transfer is taken where none is taken yet. -/
theorem dsTransferFault_takes {s : State} {die : Nat} {u : Trap} (ha : s.occ.a = die) (hx : (s.ds die).xfault = some u) (ht : (s.ds die).tfault = none)
    (hh : (s.ds die).tHandling = false) : exec .dsTransferFault s = .next (s.setDs die { s.ds die with xfault := none, tfault := some u }) := by
  subst ha
  change execDsTransferFault s = _
  unfold execDsTransferFault
  dsimp only
  rw [hx]
  dsimp only
  rw [if_neg (by simp [ht, hh])]

/-! ### DS_RESET (spec 10 R273, R294) -/

/-- The microcode in place, with the planes clear. -/
def State.loaded (s : State) (die : Nat) : State :=
  let s' := { s with mem := memZero s.mem (planePa die 0 0 0) 0x40000 }
  if (s.ds die).up then s' else s'.wrB (ucPa die 0) (s.occ.bytes.take 0x4000)
/-- A complex that is halted, or not started yet, starts anew with the queue it had. -/
theorem dsReset_starts {s : State} {die : Nat} (ha : s.occ.a = die) (h : (s.ds die).up = false ∨ (s.ds die).halted = true) :
    exec .dsReset s = .next ((s.loaded die).setDs die
      { ({} : Ds) with up := true, queue := (s.ds die).queue, lastPart := (s.ds die).lastPart, lastGrant := (s.ds die).lastGrant }) := by
  subst ha
  change execDsReset s = _
  unfold execDsReset
  dsimp only
  rw [if_neg (by rcases h with h | h <;> simp [h])]
  rfl

/-- What the walker of a core holds at the start of a line. -/
theorem line_core (s : State) (core : Nat) (line : List Byte) (n : Nat) (k : Ctx) :
    (((s.onCore core fun c => { c with iw := { c.iw with line := line, lineN := n, inLine := true } }).setCtx core 16 k).core core).iw =
      { (s.core core).iw with line := line, lineN := n, inLine := true } := congrArg Core.iw (State.core_setCore_same ..)

/-- Settles O53: walks by what the walk and its line meet, dense events by the event. -/
theorem walkAndDenseEvents : Obligations.WalkAndDenseEvents := by
  constructor
  · intro s n o ho core w ends
    constructor
    · intro ha hrun hq hr
      refine ⟨fun hi => ?_, fun hi h0 => ?_, fun hi h0 he => ?_, fun hi h0 he hreach s1 bs hb hd hs => ?_⟩
      · exact Ends.answer (walkStart_input ha ho hr hi)
      · exact Ends.answer (walkStart_empty ha ho hrun hq hr hi h0)
      · exact Ends.answer (walkStart_misaligned ha ho hrun hq hr hi h0 he)
      · exact walkStart_begins ha ho hrun hq hr hi h0 he hreach hb hd hs
    · intro ha hw hl hp
      have hlive : o.ph ≠ .ended := by simp [hp]
      refine ⟨fun hk => ?_, fun hk hpend => ⟨fun hf => ?_, fun hf hi => ?_⟩, fun hk hf hi => ?_⟩
      · exact Ends.answer ⟨_, iwLineRun_killed ha hw hl ho hk, endWalk_ends core ho hlive ..⟩
      · obtain ⟨f, hf⟩ := Option.isSome_iff_exists.1 hf
        exact Ends.answer ⟨_, iwLineRun_failed ha hw hl ho hk hf hpend, endWalk_ends core ho hlive ..⟩
      · exact Ends.answer ⟨_, iwLineRun_done ha hw hl ho hk hf hpend hi, endWalk_ends core ho hlive ..⟩
      · intro width k hr s1 bs hb
        have hcore := line_core s1 core bs k (kernelCtx o w.idx k)
        refine ⟨_, iwLineRun_line ha hw hl ho hk hf hi rfl rfl hr hb, rfl, congrArg Walker.line hcore, congrArg Walker.lineN hcore,
          congrArg Walker.inLine hcore, ?_⟩
        rw [State.ctx_setCtx_same]
        exact kernelCtx_starts o w.idx k
  · intro s die d does
    refine ⟨fun n p o dd hq ho hr hj => ⟨fun hi => ?_, fun hi hout hpend s1 bs hb hz h16 hlo hhi hlen => ?_⟩, fun p hp => ?_, fun w hw => ?_,
      fun u hx ht hh => ⟨_, dsTransferFault_takes rfl hx ht hh, rfl⟩, fun h => ?_⟩
    · obtain ⟨t, he, hend⟩ := jobGrant_input hq ho hr rfl hi
      exact ⟨t, he, hend.op⟩
    · have hm : leNat bs % 2 ^ 32 = leNat bs := Nat.mod_eq_of_lt (by omega)
      have hg := jobGrant_starts hq ho hr rfl hj hi hout hpend hb (by rw [hm]; omega)
      rw [hm] at hg
      obtain ⟨h1, h2, h3, h4, h5, h6, h7, h8⟩ := withJob_write ((s1.cleanFor die d.lastPart o).ds die) n o (BitVec.ofNat 32 (leNat bs)) dd
      refine ⟨_, hg, ?_⟩
      dsimp only
      rw [State.ds_setDs_same]
      exact ⟨h1, h2, h3, h4, h5, h6, h7, h8, fun h => (State.setDs_mem ..).trans (congrArg State.mem (cleanFor_same s1 die h))⟩
    · refine ⟨_, rfl, rfl, ?_⟩
      rw [onDs_ds, landAt_eq hp]
      exact ⟨rfl, write_dv d p.dest p.val, write_ag d p.dest p.val⟩
    · have hdone := dsWordComplete_eq rfl hw
      refine ⟨⟨_, hdone, fun y hy => mem_completed.1 hy⟩, fun x y hop => ⟨_, hdone, dApply_std die hop⟩, fun hop => ⟨_, hdone, ?_⟩,
        fun x y hop hc => ⟨_, hdone, by rw [dApply_dbcpy die hop hc]⟩, fun x y n o hop hj ho hl => ⟨fun hc => ?_, fun hc hk hr hal s1 bs hb hd => ?_,
        fun hc hk hr s1 r u hb hd hx => ?_⟩⟩
      · rw [dApply_mswap die hop]
        exact ⟨rfl, by rw [dRemove_ds, onDs_ds]⟩
      · exact ⟨_, dsTransferDone_last rfl hw hop hj ho hc, rfl, fun y hy => (mem_dRemove.1 hy).2⟩
      · have hline := xferLine_single hl rfl rfl rfl rfl hc (xferPiece_reads hop hk hb) hal
        exact ⟨_, dsTransferDone_moves rfl hw hop hj ho rfl rfl rfl hc hr hline, rfl,
          mem_moved (by rw [wrB_ds, hd]; exact List.mem_of_find?_eq_some hw)⟩
      · have hline := xferLine_fails (die := die) rfl rfl rfl rfl hc (xferPiece_fails hop hk hb)
        exact ⟨_, dsTransferDone_faults rfl hw hop hj ho rfl rfl rfl hc hr hline, rfl, stopped_xfault hx, dues_due (List.prefix_refl _) ..⟩
    · refine ⟨_, dsReset_starts rfl h, ?_⟩
      dsimp only
      rw [State.ds_setDs_same]
      exact ⟨rfl, rfl, rfl, rfl, fun r => Vector.getElem_replicate ..⟩

end Sys2Proof.Machine
end
